-- ==== Sys2Proof/Word.lean ====
section
/-!
DEFINITION. The word types of the module: registers are 32 bits wide (R4), memories are bytes.
-/

namespace Sys2Proof

/-- A register word (R4). -/
abbrev Word := BitVec 32

/-- A byte of a memory or of a frame. -/
abbrev Byte := BitVec 8

end Sys2Proof
end

