-- ==== Sys2Proof/Syntax.lean ====
section
/-!
DEFINITION. The commands that reach an EHX9880: one constructor of `Instr` per row of the table. The first
operand `t` of every command is the instant at which it happens, in nanoseconds since AO power-on (log entry
4). The other operands are what the outside world delivers with it.
-/

namespace Sys2Proof

/-- The initiators of register reads: the PCI Express host, the cores, a chain host by its address, a debugger
(R401, R566). -/
inductive Reader where
  | host
  | core
  | chainHost (src : BitVec 14)
  | debugger
  deriving DecidableEq, Repr

/-- The initiators of register writes (R391, R566). -/
inductive Writer where
  | host | core | chainHost | debugger
  deriving DecidableEq, Repr

/-- One output of a core: address, data, byte enables (R363). -/
structure CoreOut where
  addr : Nat
  data : BitVec 32
  be : BitVec 4
  deriving DecidableEq, Repr

/-- The endpoint's configuration space as far as the host sets it up (R407): MSI-X enable and function mask, the power state
D3hot, the largest payload and read request in bytes, and the addresses of BAR0 and BAR2. -/
structure PcieCfg where
  msixEn : Bool := true
  funcMask : Bool := false
  d3hot : Bool := false
  maxPayload : Nat := 256
  maxRead : Nat := 512
  bar0 : Nat := 0
  bar2 : Nat := 0
  deriving DecidableEq, Repr

/-- A physical memory protection entry: the addresses from `lo` up to `hi`, what it permits, and its lock bit (R372). -/
structure PmpEntry where
  lo : Nat
  hi : Nat
  read : Bool
  write : Bool
  locked : Bool
  deriving DecidableEq, Repr

/-- What a core has changed of itself in its interval beside its outputs: integer and floating-point registers, control
registers, memory protection entries, and bytes of its local SRAM (R360, R363, R372). -/
structure CoreWork where
  x : List (Nat × BitVec 32) := []
  f : List (Nat × BitVec 32) := []
  csr : List (Nat × BitVec 32) := []
  pmp : List (Nat × PmpEntry) := []
  stores : List (Nat × BitVec 8) := []
  deriving DecidableEq, Repr

/-- What R76 can lose while awake, beside a VAO brown-out. -/
inductive LostDomain where
  | safe | io | vcore | cpu | ctl | ana | comm
  | gdrv (ch : Fin 12)
  deriving DecidableEq, Repr

/-- What reaches a channel's edge path: a PWM on-edge or off-edge, or a change of Uzodar's force-on
(R81, R86). -/
inductive GateEdge where
  | on | off | force
  deriving DecidableEq, Repr

/-- The measurements of one channel's off-state test (R117 to R119): gate voltages in µV, whether the gate
reached V0 + 2.5 V before 10 µs; DS_n in steps of 1.5 mV at 500 µA, V2 in mV. -/
structure DiagMeas where
  ch : Nat
  reached : Bool
  v0 : Int
  v5 : Int
  v10 : Int
  vdsRef : Nat
  v2 : Int
  deriving DecidableEq, Repr

/-- Where a reload falls in the carrier's period (R127): the valley or wrap, the peak or the middle of an
up count, and the midpoints of the two slopes in quad update. -/
inductive ReloadPoint where
  | valley | half | rising | falling
  deriving DecidableEq, Repr

/-- One conversion: group, input, and the voltage there in µV (R163): differential for inputs 0 to 17, single-ended for
inputs 18 to 23. -/
structure ConvResult where
  group : Nat
  input : Nat
  uv : Int
  deriving DecidableEq, Repr

/-- A mismatch of a group's slices (R160): offset in codes, gain in parts per million, sampling instant
in femtoseconds; magnitudes. -/
structure Mismatch where
  offset : Nat
  gain : Nat
  skew : Nat
  deriving DecidableEq, Repr

/-- A step of the test-DAC procedure (R184): group, input, DAC code, mean of 16 signed codes × 16. -/
structure TdacMean where
  group : Nat
  input : Nat
  dac : Nat
  sum : Int
  deriving DecidableEq, Repr

/-- The check bits of the words that a command reads: correct, corrected, or uncorrectable. A Fesil instruction reads its
program word and the memory words that it names (R265). -/
inductive Ecc where
  | ok | corrected | bad
  deriving DecidableEq, Repr

/-- A register of a Fesil instruction: float or integer (R241). -/
inductive FReg where
  | f (n : Fin 64)
  | a (n : Fin 16)
  deriving DecidableEq, Repr

/-- Base of a memory operand: active bank, state words, tables (R251). -/
inductive MemBase where
  | cb | sb | tb
  deriving DecidableEq, Repr

/-- A memory operand: base, byte offset, optional integer register. -/
structure MemRef where
  base : MemBase
  off : Nat
  idx : Option (Fin 16)
  deriving DecidableEq, Repr

/-- Items of LDI (R256). -/
inductive LdiItem where
  | iuvw | vdc
  | inp (n : Nat)
  | istat
  deriving DecidableEq, Repr

/-- Items of LDS (R256). -/
inductive LdsItem where
  | angle | mt | speed | omega | thI | thV | idqRef | istar | fstat
  deriving DecidableEq, Repr

/-- Conditions of BR (R255). -/
inductive BrCond where
  | lt | le | eq | ne | ge | gt | un
  deriving DecidableEq, Repr

/-- What a boot meets that the module cannot decide by itself: the outcome of a logic BIST that it runs, of
the PUF reconstruction, and the objects (0 image A, 1 image B, 2 C0, 3 C1, 4 recovery) on which the two code
paths of R384 disagree. -/
structure BootIn where
  bist : Bool
  puf : Bool
  split : List Nat
  deriving DecidableEq, Repr

/-- Instructions of the IEEE 1149.1 port (R399). -/
inductive ScanIns where
  | idcode | bypass | samplePreload | extest | clamp | highz
  deriving DecidableEq, Repr

/-- A CAN frame as received (R485, R490). -/
structure CanFrame where
  id : BitVec 29
  rtr : Bool
  xtd : Bool
  dlc : BitVec 4
  fdf : Bool
  brs : Bool
  esi : Bool
  data : List Byte
  deriving DecidableEq, Repr

/-- How a transmission ends on the bus: acknowledged, arbitration lost, or an error in the frame by its cause of
R493. -/
inductive CanEnd where
  | acked
  | failed (cause : Fin 6)
  deriving DecidableEq, Repr

/-- What a channel reports in a housekeeping round: VPOS and VNEG in mV, die temperature in 1/16 °C, and the
code of TS_n (R533). -/
structure ChanReport where
  vpos : Int
  vneg : Int
  die : Int
  ts : Nat
  deriving DecidableEq, Repr

/-- The commands, in the order of the table. -/
inductive Instr where
  /-- REGISTER_WRITE (R6): Initiator, space (BAR2, else BAR0), byte offset, data and byte enables. -/
  | registerWrite (t : Nat) (src : Writer) (bar2 : Bool) (off : BitVec 21) (data : BitVec 32) (be : BitVec 4)
  /-- SPLIT_LO_READ (R570): Initiator, space (BAR2, else BAR0) and byte offset of the read; a read of a HI word, or of any other register, is this row too. -/
  | splitLoRead (t : Nat) (who : Reader) (bar2 : Bool) (off : BitVec 21) (e : Ecc := .ok)
  /-- UPDATE_EVENT (R14): Axis. -/
  | updateEvent (t : Nat) (a : Fin 2)
  /-- RELOAD (R133): Carrier and where its counter stands. -/
  | reload (t : Nat) (c : Fin 2) (p : ReloadPoint)
  /-- RELOAD_GUARD_OPEN (R245): Carrier. -/
  | reloadGuardOpen (t : Nat) (c : Fin 2) (e : Ecc := .ok)
  /-- TASK_LIMIT_REACHED (R245): No operand beside the instant. -/
  | taskLimitReached (t : Nat) (e : Ecc := .ok)
  /-- COMMIT_WORD (R133): Carrier; whether the write falls inside the reload guard. -/
  | commitWord (t : Nat) (c : Fin 2) (inGuard : Bool)
  /-- TRIGGER_POINT (R129): Carrier and trigger point. -/
  | triggerPoint (t : Nat) (c : Fin 2) (k : Fin 8)
  /-- QUEUED_SCAN_START (R167): No operand beside the instant. -/
  | queuedScanStart (t : Nat)
  /-- SCAN_COMPLETE (R173): The results that the groups delivered. -/
  | scanComplete (t : Nat) (res : List ConvResult)
  /-- TRIP_LEAK (R151): Carrier. -/
  | tripLeak (t : Nat) (c : Fin 2)
  /-- FESIL_TASK_START (R242): Check bits of what the task start reads. -/
  | fesilTaskStart (t : Nat) (e : Ecc) (scrubbed : Nat := 0)
  /-- LDI (R256): First destination register (integer register modulo 16 for ISTAT) and item, check bits. -/
  | ldi (t : Nat) (d : Fin 64) (item : LdiItem) (e : Ecc := .ok)
  /-- LDS (R256): First destination register (integer register modulo 16 for integer items) and item, check bits. -/
  | lds (t : Nat) (d : Fin 64) (item : LdsItem) (e : Ecc := .ok)
  /-- LDC (R255): Destination, memory operand, check bits. -/
  | ldc (t : Nat) (fd : Fin 64) (m : MemRef) (e : Ecc)
  /-- LDC4 (R255): Destination quad, memory operand, check bits. -/
  | ldc4 (t : Nat) (qd : Fin 16) (m : MemRef) (e : Ecc)
  /-- STC (R255): Memory operand and source, check bits. -/
  | stc (t : Nat) (m : MemRef) (fs : Fin 64) (e : Ecc := .ok)
  /-- STC4 (R255): Memory operand and source quad, check bits. -/
  | stc4 (t : Nat) (m : MemRef) (qs : Fin 16) (e : Ecc := .ok)
  /-- LDX (R255): Destination, memory operand, check bits. -/
  | ldx (t : Nat) (ad : Fin 16) (m : MemRef) (e : Ecc)
  /-- STX (R255): Memory operand and source, check bits. -/
  | stx (t : Nat) (m : MemRef) (sa : Fin 16) (e : Ecc := .ok)
  /-- MOVI (R255): Destination and immediate, check bits. -/
  | movi (t : Nat) (d : FReg) (imm : Word) (e : Ecc := .ok)
  /-- MOV (R255): Destination and source, of one kind, check bits. -/
  | mov (t : Nat) (d : FReg) (r : FReg) (e : Ecc := .ok)
  /-- FADD (R255): Destination and operands, check bits. -/
  | fadd (t : Nat) (fd : Fin 64) (fa : Fin 64) (fb : Fin 64) (e : Ecc := .ok)
  /-- FSUB (R255): Destination and operands, check bits. -/
  | fsub (t : Nat) (fd : Fin 64) (fa : Fin 64) (fb : Fin 64) (e : Ecc := .ok)
  /-- FMUL (R255): Destination and operands, check bits. -/
  | fmul (t : Nat) (fd : Fin 64) (fa : Fin 64) (fb : Fin 64) (e : Ecc := .ok)
  /-- FMAC (R255): Destination and operands, check bits. -/
  | fmac (t : Nat) (fd : Fin 64) (fa : Fin 64) (fb : Fin 64) (e : Ecc := .ok)
  /-- FMSU (R255): Destination and operands, check bits. -/
  | fmsu (t : Nat) (fd : Fin 64) (fa : Fin 64) (fb : Fin 64) (e : Ecc := .ok)
  /-- FNEG (R255): Destination and source, check bits. -/
  | fneg (t : Nat) (fd : Fin 64) (fs : Fin 64) (e : Ecc := .ok)
  /-- FABS (R255): Destination and source, check bits. -/
  | fabs (t : Nat) (fd : Fin 64) (fs : Fin 64) (e : Ecc := .ok)
  /-- FMIN (R255): Destination and operands, check bits. -/
  | fmin (t : Nat) (fd : Fin 64) (fa : Fin 64) (fb : Fin 64) (e : Ecc := .ok)
  /-- FMAX (R255): Destination and operands, check bits. -/
  | fmax (t : Nat) (fd : Fin 64) (fa : Fin 64) (fb : Fin 64) (e : Ecc := .ok)
  /-- FCLMP (R255): Destination, source and limit, check bits. -/
  | fclmp (t : Nat) (fd : Fin 64) (fs : Fin 64) (fl : Fin 64) (e : Ecc := .ok)
  /-- FDOT (R255): Destination and operand quads; the association of the sum is free, check bits. -/
  | fdot (t : Nat) (fd : Fin 64) (qa : Fin 16) (qb : Fin 16) (e : Ecc := .ok)
  /-- FRCP (R255): Destination and source, check bits. -/
  | frcp (t : Nat) (fd : Fin 64) (fs : Fin 64) (e : Ecc := .ok)
  /-- FRSQ (R255): Destination and source, check bits. -/
  | frsq (t : Nat) (fd : Fin 64) (fs : Fin 64) (e : Ecc := .ok)
  /-- FSQRT (R255): Destination and source, check bits. -/
  | fsqrt (t : Nat) (fd : Fin 64) (fs : Fin 64) (e : Ecc := .ok)
  /-- FDIV (R255): Destination, dividend and divisor, check bits. -/
  | fdiv (t : Nat) (fd : Fin 64) (fa : Fin 64) (fb : Fin 64) (e : Ecc := .ok)
  /-- CVQF (R255): Destination, Q1.15 source and scale; one rounding, check bits. -/
  | cvqf (t : Nat) (fd : Fin 64) (sa : Fin 16) (fk : Fin 64) (e : Ecc := .ok)
  /-- CVFQ (R255): Destination, source and scale, check bits. -/
  | cvfq (t : Nat) (ad : Fin 16) (fs : Fin 64) (fk : Fin 64) (e : Ecc := .ok)
  /-- CVAF (R255): Destination and angle, check bits. -/
  | cvaf (t : Nat) (fd : Fin 64) (sa : Fin 16) (e : Ecc := .ok)
  /-- CVFA (R255): Destination and turns, check bits. -/
  | cvfa (t : Nat) (ad : Fin 16) (fs : Fin 64) (e : Ecc := .ok)
  /-- CVIF (R255): Destination and signed integer, check bits. -/
  | cvif (t : Nat) (fd : Fin 64) (sa : Fin 16) (e : Ecc := .ok)
  /-- CVFI (R255): Destination and source; truncated and saturated, a NaN gives 0, check bits. -/
  | cvfi (t : Nat) (ad : Fin 16) (fs : Fin 64) (e : Ecc := .ok)
  /-- IADD (R255): Destination and operands, check bits. -/
  | iadd (t : Nat) (ad : Fin 16) (aa : Fin 16) (ab : Fin 16) (e : Ecc := .ok)
  /-- ISUB (R255): Destination and operands, check bits. -/
  | isub (t : Nat) (ad : Fin 16) (aa : Fin 16) (ab : Fin 16) (e : Ecc := .ok)
  /-- IAND (R255): Destination and operands, check bits. -/
  | iand (t : Nat) (ad : Fin 16) (aa : Fin 16) (ab : Fin 16) (e : Ecc := .ok)
  /-- IOR (R255): Destination and operands, check bits. -/
  | ior (t : Nat) (ad : Fin 16) (aa : Fin 16) (ab : Fin 16) (e : Ecc := .ok)
  /-- IXOR (R255): Destination and operands, check bits. -/
  | ixor (t : Nat) (ad : Fin 16) (aa : Fin 16) (ab : Fin 16) (e : Ecc := .ok)
  /-- ISH (R255): Destination, source and shift from −31 to +31, check bits. -/
  | ish (t : Nat) (ad : Fin 16) (aa : Fin 16) (sh : Int) (e : Ecc := .ok)
  /-- SINCOS (R255): First destination and angle, check bits. -/
  | sincos (t : Nat) (fd : Fin 64) (sa : Fin 16) (e : Ecc := .ok)
  /-- CLARKE (R255): First destination and source quad, check bits. -/
  | clarke (t : Nat) (fd : Fin 64) (qs : Fin 16) (e : Ecc := .ok)
  /-- PARK (R255): First destination, first of α and β, first of sine and cosine, check bits. -/
  | park (t : Nat) (fd : Fin 64) (fs : Fin 64) (fc : Fin 64) (e : Ecc := .ok)
  /-- IPARK (R255): First destination, first of d and q, first of sine and cosine, check bits. -/
  | ipark (t : Nat) (fd : Fin 64) (fs : Fin 64) (fc : Fin 64) (e : Ecc := .ok)
  /-- SVM (R260): Destination quad (lanes 0 to 2), first of α and β, and Vdc, check bits. -/
  | svm (t : Nat) (qd : Fin 16) (fs : Fin 64) (fv : Fin 64) (e : Ecc := .ok)
  /-- CMPQ (R261): Source quad with the duties, check bits. -/
  | cmpq (t : Nat) (qs : Fin 16) (e : Ecc := .ok)
  /-- STPER (R255): Source, check bits. -/
  | stper (t : Nat) (sa : Fin 16) (e : Ecc := .ok)
  /-- STTRG (R255): Trigger word and source, check bits. -/
  | sttrg (t : Nat) (j : Fin 8) (sa : Fin 16) (e : Ecc := .ok)
  /-- PIC (R257): Destination, reference, measurement, feed-forward, limit, slot, check bits of its words. -/
  | pic (t : Nat) (fd : Fin 64) (fr : Fin 64) (fm : Fin 64) (ff : Fin 64) (fl : Fin 64) (slot : Fin 8) (e : Ecc)
  /-- BIQ (R255): Destination, source, coefficients, states, check bits. -/
  | biq (t : Nat) (fd : Fin 64) (fs : Fin 64) (coef : MemRef) (st : MemRef) (e : Ecc)
  /-- FCMP (R255): Operands, check bits. -/
  | fcmp (t : Nat) (fa : Fin 64) (fb : Fin 64) (e : Ecc := .ok)
  /-- ICMP (R255): Operands, check bits. -/
  | icmp (t : Nat) (aa : Fin 16) (ab : Fin 16) (e : Ecc := .ok)
  /-- BR (R255): Condition and program word address; 2 cycles when taken, check bits. -/
  | br (t : Nat) (c : BrCond) (label : Nat) (e : Ecc := .ok)
  /-- JMP (R255): Program word address, check bits. -/
  | jmp (t : Nat) (label : Nat) (e : Ecc := .ok)
  /-- COMMIT (R262): Check bits. -/
  | commit (t : Nat) (e : Ecc := .ok)
  /-- TRC (R267): Check bits. -/
  | trc (t : Nat) (e : Ecc := .ok)
  /-- EVT (R255): Program event and source of its argument, check bits. -/
  | evt (t : Nat) (c : Fin 16) (sa : Fin 16) (e : Ecc := .ok)
  /-- END (R255): Check bits. -/
  | endProgram (t : Nat) (e : Ecc := .ok)
  /-- COAST_TIMEOUT (R235): Axis. -/
  | coastTimeout (t : Nat) (a : Fin 2)
  /-- PUB (R250): Axis. -/
  | pub (t : Nat) (a : Fin 2)
  /-- SWAP (R253): Axis. -/
  | swap (t : Nat) (a : Fin 2)
  /-- RUN (R266): The bit written. -/
  | run (t : Nat) (v : Bool)
  /-- PROGRAM_CHECK_DONE (R266): No operand beside the instant. -/
  | programCheckDone (t : Nat) (e : Ecc := .ok)
  /-- MEM_WINDOW_ACCESS (R271): The word written, or none for a read; check bits. -/
  | memWindowAccess (t : Nat) (w : Option Word) (e : Ecc)
  /-- MAX_CLR (R273): Axis. -/
  | maxClr (t : Nat) (a : Fin 2)
  /-- TRACE_CFG_ARM (R268): The word written. -/
  | traceCfgArm (t : Nat) (w : Word)
  /-- TRACE_FORCE (R268): No operand beside the instant. -/
  | traceForce (t : Nat)
  /-- FSL_CTL_SAT_CLEAR (R270): No operand beside the instant. -/
  | fslCtlSatClear (t : Nat)
  /-- FSL_OVR_SAT_CLEAR (R272): MISSING counter or overrun counter; axis. -/
  | fslOvrSatClear (t : Nat) (miss : Bool) (a : Fin 2)
  /-- DELAY_LINE_CALIBRATION (R131): Elements measured. -/
  | delayLineCalibration (t : Nat) (span : Nat)
  /-- SYNC_LOST (R126): Carrier; magnitude of the phase error in ns, for the fourth period. -/
  | syncLost (t : Nat) (c : Fin 2) (err : Nat)
  /-- SYNC_INPUT_EDGE (R126): Carrier. -/
  | syncInputEdge (t : Nat) (c : Fin 2)
  /-- SYNC_EDGE_MISSING (R126): Carrier. -/
  | syncEdgeMissing (t : Nat) (c : Fin 2)
  /-- PWM_LDISC_SAT_CLEAR (R142): Carrier. -/
  | pwmLdiscSatClear (t : Nat) (c : Fin 2)
  /-- RESET_N_ASSERT (R45): No operand beside the instant. -/
  | resetNAssert (t : Nat)
  /-- RESET_N_RELEASE (R575): WAKE_N is still low; what a boot that starts at once meets. -/
  | resetNRelease (t : Nat) (wake : Bool) (boot : BootIn)
  /-- WAKE_PIN_REQUEST (R46): 0 WAKE_N, 1 CAN0_WAKE, 2 CAN1_WAKE. -/
  | wakePinRequest (t : Nat) (pin : Fin 3)
  /-- RAIL_IN_WINDOW (R51): 0 VIO, 1 VSAFE, 2 VCORE, 3 VANA. -/
  | railInWindow (t : Nat) (rail : Fin 4)
  /-- THAW_ABORT (R72): No operand beside the instant. -/
  | thawAbort (t : Nat)
  /-- RAIL_FALLEN (R52): The enable whose rails have fallen, or 2.0 ms after it fell. -/
  | railFallen (t : Nat) (en : Fin 4)
  /-- AO_POWER_ON (R50): No operand beside the instant. -/
  | aoPowerOn (t : Nat)
  /-- AO_BROWN_OUT (R76): No operand beside the instant. -/
  | aoBrownOut (t : Nat)
  /-- DOMAIN_LOST (R76): What is lost. -/
  | domainLost (t : Nat) (d : LostDomain)
  /-- PLL_LOCK (R56): PLLB, else PLLA; what a boot that starts at once meets. -/
  | pllLock (t : Nat) (b : Bool) (boot : BootIn)
  /-- PLL_LOSS_OF_LOCK (R58): PLLB, else PLLA. -/
  | pllLossOfLock (t : Nat) (b : Bool)
  /-- XTAL_FAIL (R59): No operand beside the instant. -/
  | xtalFail (t : Nat)
  /-- REF_CHANGEOVER_DONE (R74): No operand beside the instant. -/
  | refChangeoverDone (t : Nat)
  /-- HELD_START_RELEASE (R74): Axis. -/
  | heldStartRelease (t : Nat) (a : Fin 2)
  /-- START_TIMEOUT (R74): Axis. -/
  | startTimeout (t : Nat) (a : Fin 2)
  /-- ALARM_EXPIRE (R69): No operand beside the instant. -/
  | alarmExpire (t : Nat)
  /-- CT_KEEPER_TICK (R71): No operand beside the instant. -/
  | ctKeeperTick (t : Nat)
  /-- SHUTDOWN_BIST_DONE (R80): Its outcome. -/
  | shutdownBistDone (t : Nat) (pass : Bool)
  /-- LOSS_SAT_CLEAR (R60): No operand beside the instant. -/
  | lossSatClear (t : Nat)
  /-- ENA_FALL (R108): ENA0 or ENA1 by number. -/
  | enaFall (t : Nat) (b : Fin 2)
  /-- ENA_RISE (R107): ENA0 or ENA1 by number. -/
  | enaRise (t : Nat) (b : Fin 2)
  /-- CHANNEL_LINK_UP (R85): Channel; each supply past its release level. -/
  | channelLinkUp (t : Nat) (n : Fin 12) (posOk : Bool) (negOk : Bool)
  /-- CONFIG_EXCHANGE_DONE (R83): Channel; the echo verified. -/
  | configExchangeDone (t : Nat) (n : Fin 12) (ok : Bool)
  /-- CONFIG_READBACK (R83): Channel; the five words of its copy as read back. -/
  | configReadback (t : Nat) (n : Fin 12) (copy : List Word)
  /-- LINK_TIMEOUT (R82): Channel. -/
  | linkTimeout (t : Nat) (n : Fin 12)
  /-- SUPPLY_COLLAPSE (R85): Channel. -/
  | supplyCollapse (t : Nat) (n : Fin 12)
  /-- UVLO_ENTRY (R98): Channel; the supplies past their thresholds for 400 ns. -/
  | uvloEntry (t : Nat) (n : Fin 12) (pos : Bool) (neg : Bool)
  /-- UVLO_RELEASE (R98): Channel. -/
  | uvloRelease (t : Nat) (n : Fin 12)
  /-- CHANNEL_OVER_TEMP (R85): Channel. -/
  | channelOverTemp (t : Nat) (n : Fin 12)
  /-- CHANNEL_TEMP_OK (R85): Channel. -/
  | channelTempOk (t : Nat) (n : Fin 12)
  /-- GATE_EDGE (R86): Channel and what reaches it. -/
  | gateEdge (t : Nat) (n : Fin 12) (e : GateEdge)
  /-- PROFILE_PHASE_END (R89): Channel. -/
  | profilePhaseEnd (t : Nat) (n : Fin 12)
  /-- BLANKING_END (R101): Channel. -/
  | blankingEnd (t : Nat) (n : Fin 12)
  /-- DESATURATION (R101): Channel. -/
  | desaturation (t : Nat) (n : Fin 12)
  /-- HARD_SHORT (R102): Channel. -/
  | hardShort (t : Nat) (n : Fin 12)
  /-- SOFT_OFF_END (R105): Channel. -/
  | softOffEnd (t : Nat) (n : Fin 12)
  /-- ON_STATE_SAMPLE (R116): Channel; DS_n in steps of 1.5 mV. -/
  | onStateSample (t : Nat) (n : Fin 12) (code : Nat)
  /-- SC_FAULT_REPORT (R109): Channel. -/
  | scFaultReport (t : Nat) (n : Fin 12)
  /-- FINAL_STATE_DECISION (R110): Axis. -/
  | finalStateDecision (t : Nat) (a : Fin 2)
  /-- DIAG_START (R117): CH_MASK and TEST of the write. -/
  | diagStart (t : Nat) (mask : BitVec 12) (test : Fin 4)
  /-- DIAG_COMPLETE (R118): One measurement per channel under test. -/
  | diagComplete (t : Nat) (meas : List DiagMeas)
  /-- DIAG_ABORT (R117): No operand beside the instant. -/
  | diagAbort (t : Nat)
  /-- GDC_CNT_SAT_CLEAR (R114): Channel. -/
  | gdcCntSatClear (t : Nat) (n : Fin 12)
  /-- GUARD_ROUND (R169): Axis whose phase currents the round converted, and the results. -/
  | guardRound (t : Nat) (a : Fin 2) (res : List ConvResult)
  /-- INTERNAL_CHECK (R164): Codes of inputs 18 and 20 to 23 of each group. -/
  | internalCheck (t : Nat) (res : List ConvResult)
  /-- CROSS_CHECK (R179): Signed code of input 17 by ADCA, ADCB, ADCC; none where a group delivers no result. -/
  | crossCheck (t : Nat) (a : Option Int) (b : Option Int) (c : Option Int)
  /-- BACKGROUND_CORRECTION (R160): Group; idle slots in percent; the estimate and the residual. -/
  | backgroundCorrection (t : Nat) (g : Fin 3) (idle : Nat) (est : Mismatch) (res : Mismatch)
  /-- CAL_STARVE_TIMEOUT (R161): Group. -/
  | calStarveTimeout (t : Nat) (g : Fin 3)
  /-- SLICE_SILENCE (R159): Group. -/
  | sliceSilence (t : Nat) (g : Fin 3)
  /-- CASTLING_INSTANT (R180): No operand beside the instant. -/
  | castlingInstant (t : Nat)
  /-- CASTLING_FORCE (R183): No operand beside the instant. -/
  | castlingForce (t : Nat)
  /-- TDAC_START (R184): GRP_MASK and IN_MASK of the write. -/
  | tdacStart (t : Nat) (groups : BitVec 3) (inputs : BitVec 17)
  /-- TDAC_COMPLETE (R184): Means of 16 codes for each group, input and DAC code. -/
  | tdacComplete (t : Nat) (res : List TdacMean)
  /-- TDAC_ABORT (R184): No operand beside the instant. -/
  | tdacAbort (t : Nat)
  /-- ADC_CNT_SAT_CLEAR (R187): Group. -/
  | adcCntSatClear (t : Nat) (g : Fin 3)
  /-- ADC_NOMAJ_SAT_CLEAR (R187): Axis. -/
  | adcNomajSatClear (t : Nat) (a : Fin 2)
  /-- RESOLVER_SAMPLE (R195): Axis; signed codes of the pair, the crest's sign, and whether the pair started too late. -/
  | resolverSample (t : Nat) (a : Fin 2) (sin : Int) (cos : Int) (neg : Bool) (discarded : Bool)
  /-- ENCODER_EDGE (R192): Axis; accepted levels of A and B and the edge's timestamp. -/
  | encoderEdge (t : Nat) (a : Fin 2) (la : Bool) (lb : Bool) (ts : Nat)
  /-- HALL_TRANSITION (R193): Axis; pattern HU HV HW, HU the highest bit, and its timestamp. -/
  | hallTransition (t : Nat) (a : Fin 2) (pat : BitVec 3) (ts : Nat)
  /-- HALL_BAD_TIMEOUT (R202): Axis. -/
  | hallBadTimeout (t : Nat) (a : Fin 2)
  /-- TOOTH_EDGE (R194): Axis; level of the second track and the edge's timestamp. -/
  | toothEdge (t : Nat) (a : Fin 2) (lb : Bool) (ts : Nat)
  /-- INDEX_PULSE (R200): Axis; the instant at which Z first showed its level. -/
  | indexPulse (t : Nat) (a : Fin 2) (ts : Nat := 0)
  /-- EDGE_TIMEOUT (R199): Axis. -/
  | edgeTimeout (t : Nat) (a : Fin 2)
  /-- POSITION_FRAME (R205): Axis; the CRC of the frame holds. -/
  | positionFrame (t : Nat) (a : Fin 2) (ok : Bool)
  /-- POSITION_FRAME_TIMEOUT (R205): Axis. -/
  | positionFrameTimeout (t : Nat) (a : Fin 2)
  /-- COMPARE_HIT (R206): Axis. -/
  | compareHit (t : Nat) (a : Fin 2)
  /-- POS_CNT_SAT_CLEAR (R212): Axis. -/
  | posCntSatClear (t : Nat) (a : Fin 2)
  /-- REARM (R226): Axis. -/
  | rearm (t : Nat) (a : Fin 2)
  /-- CATCH_END (R228): Axis; speed and peak in mV of the back-EMF vector measured on PV_IN over the catch. -/
  | catchEnd (t : Nat) (a : Fin 2) (pvSpd : Int) (pvE : Nat)
  /-- IF_TIMEOUT (R225): Axis. -/
  | ifTimeout (t : Nat) (a : Fin 2)
  /-- UZODAR_EMF_COMPUTE (R233): Axis; ADCB's raw codes of the three inputs of PV_IN. -/
  | uzodarEmfCompute (t : Nat) (a : Fin 2) (u : BitVec 16) (v : BitVec 16) (w : BitVec 16)
  /-- SERVO_TICK (R276): Axis. -/
  | servoTick (t : Nat) (a : Fin 2)
  /-- GO (R288): Axis; FORM as written with GO. -/
  | go (t : Nat) (a : Fin 2) (table : Bool)
  /-- HALT (R289): Axis; FORM as written with HALT. -/
  | halt (t : Nat) (a : Fin 2) (table : Bool)
  /-- PREARM_SEND (R300): Axis. -/
  | prearmSend (t : Nat) (a : Fin 2)
  /-- PREARM_RECEIVE (R301): Axis; the side it came from; the direction of travel it names. -/
  | prearmReceive (t : Nat) (a : Fin 2) (up : Bool) (dirUp : Bool)
  /-- TAKER_READY_SEND (R301): Axis; the outcome of the gate-path test of R353. -/
  | takerReadySend (t : Nat) (a : Fin 2) (pathOk : Bool)
  /-- READY_RECEIVE (R302): Axis; the line signature received. -/
  | readyReceive (t : Nat) (a : Fin 2) (sig : Word)
  /-- STATE_RECEIVE (R304): Axis, side, the frame's fields, and the chain time of its first byte. -/
  | stateReceive (t : Nat) (a : Fin 2) (up : Bool) (mt : Word) (spd : BitVec 16) (cur : BitVec 16) (tFirst : Nat)
  /-- ECHO_RECEIVE (R312): Axis; MT and flags of the frame; chain time of its first byte. -/
  | echoReceive (t : Nat) (a : Fin 2) (mt : Word) (flags : BitVec 16 := 0) (tFirst : Nat := 0)
  /-- RELEASE_RECEIVE (R309): Axis; I* of the frame. -/
  | releaseReceive (t : Nat) (a : Fin 2) (cur : BitVec 16)
  /-- ABORT_RECEIVE (R313): Axis; the reason. -/
  | abortReceive (t : Nat) (a : Fin 2) (reason : BitVec 8)
  /-- STATE_FRAME_LOSS (R313): Axis. -/
  | stateFrameLoss (t : Nat) (a : Fin 2)
  /-- IDLE_TIMEOUT (R311): No operand beside the instant. -/
  | idleTimeout (t : Nat)
  /-- MOT_HOV_SAT_CLEAR (R318): Axis. -/
  | motHovSatClear (t : Nat) (a : Fin 2)
  /-- STO_DEMAND (R324): Filtered levels of STO_A and STO_B, at least one low. -/
  | stoDemand (t : Nat) (a : Bool) (b : Bool) (held : Nat := 2550000)
  /-- STO_RELEASE (R326): Both filtered inputs are high. -/
  | stoRelease (t : Nat)
  /-- STO_DISCREPANCY (R325): The filtered inputs have differed for DISC_T. -/
  | stoDiscrepancy (t : Nat)
  /-- SAFE_STATE_ROW_ACTIVATE (R331): Row and the axis whose cause triggered it. -/
  | safeStateRowActivate (t : Nat) (k : Fin 32) (a : Fin 2)
  /-- SS1_END (R327): Axis; a zero-speed end, else a timeout end. -/
  | ss1End (t : Nat) (a : Fin 2) (zero : Bool)
  /-- BRAKE_STEP_END (R328): Axis. -/
  | brakeStepEnd (t : Nat) (a : Fin 2)
  /-- ASC_EXIT_TIMER (R335): Axis. -/
  | ascExitTimer (t : Nat) (a : Fin 2)
  /-- TORQUE_MONITOR_EVAL (R339): Axis. -/
  | torqueMonitorEval (t : Nat) (a : Fin 2)
  /-- LIMP_WARNING (R340): Axis. -/
  | limpWarning (t : Nat) (a : Fin 2)
  /-- LIMP_TIMEOUT (R340): Axis. -/
  | limpTimeout (t : Nat) (a : Fin 2)
  /-- LIMP_SPEED_TIMEOUT (R341): Axis. -/
  | limpSpeedTimeout (t : Nat) (a : Fin 2)
  /-- TEST_PULSE (R344): Output; the switch under test; the level of the judged pad within TP_W. -/
  | testPulse (t : Nat) (n : Fin 6) (hs : Bool) (pad : Bool)
  /-- SO_SHORT_TIMEOUT (R344): Output. -/
  | soShortTimeout (t : Nat) (n : Fin 6)
  /-- BRAKE_TEST_PHASE_END (R346): No operand beside the instant. -/
  | brakeTestPhaseEnd (t : Nat)
  /-- BRAKE_TEST_DUE (R347): Axis. -/
  | brakeTestDue (t : Nat) (a : Fin 2)
  /-- PRECHARGE_REACHED (R348): No operand beside the instant. -/
  | prechargeReached (t : Nat)
  /-- PRECHARGE_CO1_OPEN (R348): No operand beside the instant. -/
  | prechargeCo1Open (t : Nat)
  /-- PRECHARGE_TIMEOUT (R348): No operand beside the instant. -/
  | prechargeTimeout (t : Nat)
  /-- CONTACTOR_FEEDBACK_FAULT (R349): Contactor; FBn had shown it closed since the close command. -/
  | contactorFeedbackFault (t : Nat) (n : Fin 2) (shown : Bool)
  /-- DISCHARGE_START (R350): No operand beside the instant. -/
  | dischargeStart (t : Nat)
  /-- DISCHARGE_END (R351): No operand beside the instant. -/
  | dischargeEnd (t : Nat)
  /-- DISCHARGE_TIMEOUT (R351): No operand beside the instant. -/
  | dischargeTimeout (t : Nat)
  /-- SHADOW_COMPARE (R323): No operand beside the instant. -/
  | shadowCompare (t : Nat)
  /-- UZODAR_SELF_TEST (R352): Its outcome. -/
  | uzodarSelfTest (t : Nat) (pass : Bool)
  /-- SELF_TEST_OVERDUE (R352): No operand beside the instant. -/
  | selfTestOverdue (t : Nat)
  /-- LANE_FAULT (R354): No operand beside the instant. -/
  | laneFault (t : Nat)
  /-- SAF_FIRST_REARM (R358): No operand beside the instant. -/
  | safFirstRearm (t : Nat)
  /-- CHECKPOINT_INSTANT (R361): No operand beside the instant. -/
  | checkpointInstant (t : Nat)
  /-- CHECKPOINT_PORT_WRITE (R362): Core, the outputs that it issued, its program counter, and what it has changed of itself. -/
  | checkpointPortWrite (t : Nat) (core : Fin 3) (outs : List CoreOut) (pc : BitVec 32) (work : CoreWork := {})
  /-- REPLICATED_READ (R365): Core and address. -/
  | replicatedRead (t : Nat) (core : Fin 3) (addr : BitVec 32)
  /-- RESYNC_COMPLETE (R368): No operand beside the instant. -/
  | resyncComplete (t : Nat)
  /-- LOCAL_SRAM_ECC_ERROR (R373): The reading core. -/
  | localSramEccError (t : Nat) (core : Fin 3)
  /-- RESTART (R371): The objects on which the two code paths of R384 disagree. -/
  | restart (t : Nat) (split : List Nat)
  /-- DEBUG_HALT (R374): Core. -/
  | debugHalt (t : Nat) (core : Fin 3)
  /-- DEBUG_RESUME (R375): Core. -/
  | debugResume (t : Nat) (core : Fin 3)
  /-- CPX_MIN_SAT_CLEAR (R379): No operand beside the instant. -/
  | cpxMinSatClear (t : Nat)
  /-- RECOVERY_GO (R389): What the rest of the boot meets. -/
  | recoveryGo (t : Nat) (boot : BootIn)
  /-- DEBUG_CHALLENGE_READ (R400): No operand beside the instant. -/
  | debugChallengeRead (t : Nat)
  /-- DEBUG_RESPONSE (R400): The signed object; the two code paths of R384 disagree on it. -/
  | debugResponse (t : Nat) (bytes : List Byte) (split : Bool)
  /-- BOUNDARY_SCAN_INSTRUCTION (R399): Instruction. -/
  | boundaryScanInstruction (t : Nat) (ins : ScanIns)
  /-- DOORBELL (R414): Ring and the index written. -/
  | doorbell (t : Nat) (r : Fin 11) (idx : BitVec 16)
  /-- RING_ENABLE (R412): Ring and the word written to HIF_RCFG with EN at 1. -/
  | ringEnable (t : Nat) (r : Fin 11) (data : BitVec 32)
  /-- DESCRIPTOR_FETCH (R415): Ring and the 64 bytes that host memory holds at the entry. -/
  | descriptorFetch (t : Nat) (r : Fin 4) (bytes : List Byte)
  /-- NOP (R421): The ring on which the accepted command runs. -/
  | nop (t : Nat) (r : Fin 4)
  /-- QUERY_STATE (R421): The ring on which the accepted command runs. -/
  | queryState (t : Nat) (r : Fin 4)
  /-- SET_MODE (R65): The ring; the safety outputs that fail a de-energised test. -/
  | setMode (t : Nat) (r : Fin 4) (so : List Nat)
  /-- ARM (R421): The ring; every channel reported the block in time. -/
  | arm (t : Nat) (r : Fin 4) (path : Bool)
  /-- START (R421): The ring on which the accepted command runs. -/
  | start (t : Nat) (r : Fin 4)
  /-- STOP (R421): The ring on which the accepted command runs. -/
  | stop (t : Nat) (r : Fin 4)
  /-- SET_TORQUE (R421): The ring on which the accepted command runs. -/
  | setTorque (t : Nat) (r : Fin 4)
  /-- SET_SPEED (R421): The ring on which the accepted command runs. -/
  | setSpeed (t : Nat) (r : Fin 4)
  /-- LOAD_PROFILE_PARAMS (R421): The ring on which the accepted command runs. -/
  | loadProfileParams (t : Nat) (r : Fin 4)
  /-- LOAD_PROFILE_TABLE (R421): The ring on which the accepted command runs. -/
  | loadProfileTable (t : Nat) (r : Fin 4)
  /-- LOAD_PROFILE_CONTROL (R421): The ring on which the accepted command runs. -/
  | loadProfileControl (t : Nat) (r : Fin 4)
  /-- SET_LIMITS (R421): The ring on which the accepted command runs. -/
  | setLimits (t : Nat) (r : Fin 4)
  /-- BRAKE_TEST (R346): The ring on which the accepted command runs. -/
  | brakeTest (t : Nat) (r : Fin 4)
  /-- DISCHARGE (R350): The ring on which the accepted command runs. -/
  | discharge (t : Nat) (r : Fin 4)
  /-- HANDOVER_POLICY (R317): The ring on which the accepted command runs. -/
  | handoverPolicy (t : Nat) (r : Fin 4)
  /-- TRACE_ARM (R421): The ring on which the accepted command runs. -/
  | traceArm (t : Nat) (r : Fin 4)
  /-- TRACE_READ (R269): The ring on which the accepted command runs; records with errors beyond correction, and with
  corrected ones, by their places from the oldest. -/
  | traceRead (t : Nat) (r : Fin 4) (bads fixed : List Nat := [])
  /-- JOURNAL_QUERY (R448): The ring on which the accepted command runs. -/
  | journalQuery (t : Nat) (r : Fin 4)
  /-- REC_READ (R517): The ring on which the accepted command runs. -/
  | recRead (t : Nat) (r : Fin 4)
  /-- REC_MARK (R421): The ring on which the accepted command runs. -/
  | recMark (t : Nat) (r : Fin 4)
  /-- FW_STAGE (R394): The ring on which the accepted command runs. -/
  | fwStage (t : Nat) (r : Fin 4)
  /-- FW_COMMIT_ACTIVATE (R395): The ring on which the accepted command runs. -/
  | fwCommitActivate (t : Nat) (r : Fin 4)
  /-- FW_COMMIT_ADVANCE (R395): The ring on which the accepted command runs. -/
  | fwCommitAdvance (t : Nat) (r : Fin 4)
  /-- ATTEST (R397): The ring on which the accepted command runs. -/
  | attest (t : Nat) (r : Fin 4)
  /-- ATTEST_COMPLETE (R397): No operand beside the instant. -/
  | attestComplete (t : Nat)
  /-- CHAIN_SEND (R481): The ring on which the accepted command runs. -/
  | chainSend (t : Nat) (r : Fin 4)
  /-- CAN_CONFIGURE (R491): The ring on which the accepted command runs. -/
  | canConfigure (t : Nat) (r : Fin 4)
  /-- CAN_TRANSMIT (R491): The ring on which the accepted command runs. -/
  | canTransmit (t : Nat) (r : Fin 4)
  /-- CAN_READ (R491): The ring on which the accepted command runs. -/
  | canRead (t : Nat) (r : Fin 4)
  /-- CAN_DISABLE (R491): The ring on which the accepted command runs. -/
  | canDisable (t : Nat) (r : Fin 4)
  /-- CAN_ABORT (R491): The ring; the frame is on the bus. -/
  | canAbort (t : Nat) (r : Fin 4) (onBus : Bool)
  /-- CAN_START (R491): The ring on which the accepted command runs. -/
  | canStart (t : Nat) (r : Fin 4)
  /-- CAN_STOP (R491): The ring on which the accepted command runs. -/
  | canStop (t : Nat) (r : Fin 4) (onBus : Bool := false)
  /-- CAN_RECOVER (R498): The ring on which the accepted command runs. -/
  | canRecover (t : Nat) (r : Fin 4)
  /-- TLM_CONFIG (R427): The ring on which the accepted command runs. -/
  | tlmConfig (t : Nat) (r : Fin 4)
  /-- DATA_MOVER_DONE (R422): The bytes read from host memory, where the copy reads any. -/
  | dataMoverDone (t : Nat) (data : List Byte)
  /-- TLM_HEARTBEAT (R430): Stream. -/
  | tlmHeartbeat (t : Nat) (k : Fin 2)
  /-- EVENT_BACKLOG_WRITE (R416): No operand beside the instant. -/
  | eventBacklogWrite (t : Nat)
  /-- IRQ_HOLD_EXPIRE (R432): Vector. -/
  | irqHoldExpire (t : Nat) (v : Fin 32)
  /-- HOST_WATCHDOG_EXPIRE (R433): No operand beside the instant. -/
  | hostWatchdogExpire (t : Nat)
  /-- HOT_RESET (R410): No operand beside the instant. -/
  | hotReset (t : Nat)
  /-- LINK_LOSS (R410): PERST_N asserted, else the link down without a reset. -/
  | linkLoss (t : Nat) (perst : Bool)
  /-- DMA_ERROR (R435): Ring. -/
  | dmaError (t : Nat) (r : Fin 11)
  /-- HIF_RCNT_SAT_CLEAR (R412): Ring. -/
  | hifRcntSatClear (t : Nat) (r : Fin 11)
  /-- MIRROR_BATCH_WRITE (R442): No operand beside the instant. -/
  | mirrorBatchWrite (t : Nat)
  /-- JOURNAL_APERTURE_READ (R446): Initiator and slot of the read of word 0. -/
  | journalApertureRead (t : Nat) (who : Reader) (slot : Nat)
  /-- JOURNAL_HEAD_READ (R447): Initiator of the read. -/
  | journalHeadRead (t : Nat) (who : Reader)
  /-- JRN_CNT_SAT_CLEAR (R450): No operand beside the instant. -/
  | jrnCntSatClear (t : Nat)
  /-- CHAIN_LINK_UP (R454): Port: 0 UP, 1 DOWN. -/
  | chainLinkUp (t : Nat) (p : Fin 2)
  /-- CHAIN_LINK_DOWN (R454): Port; the code errors it has seen since it came up. -/
  | chainLinkDown (t : Nat) (p : Fin 2) (errs : Nat)
  /-- CHAIN_FRAME_RECEIVE (R460): Port; header, payload and CRC as received; the frame ended with EOF. -/
  | chainFrameReceive (t : Nat) (p : Fin 2) (bytes : List Byte) (ended : Bool)
  /-- FRAME_FORWARD (R460): The output port, idle. -/
  | frameForward (t : Nat) (p : Fin 2)
  /-- MEM_RD (R479): SRC and payload of the frame taken. -/
  | memRd (t : Nat) (src : BitVec 14) (payload : List Byte)
  /-- MEM_WR (R479): SRC and payload of the frame taken. -/
  | memWr (t : Nat) (src : BitVec 14) (payload : List Byte)
  /-- BREAK_RECEIVE (R468): The sender's address, SIDE and HEALED of the frame taken. -/
  | breakReceive (t : Nat) (bnd : BitVec 14) (down : Bool) (healed : Bool)
  /-- WAKE_FRAME (R476): Port; header, payload and CRC as received; the frame ended with EOF. -/
  | wakeFrame (t : Nat) (p : Fin 2) (bytes : List Byte) (ended : Bool)
  /-- CHAIN_SEND_TIMEOUT (R481): No operand beside the instant. -/
  | chainSendTimeout (t : Nat)
  /-- TIME_SYNC_SEND (R469): Port. -/
  | timeSyncSend (t : Nat) (p : Fin 2)
  /-- TIME_SYNC_RECEIVE (R469): Port; CT and HOPS of the set; the stamp t2 beyond the whole ns and the time from t2 to t3, both in 31.25 ps; its CRC-8 agrees. -/
  | timeSyncReceive (t : Nat) (p : Fin 2) (ct : BitVec 64) (hops : BitVec 16) (frac : Fin 32) (lag : Nat) (ok : Bool)
  /-- DLY_REQ_RECEIVE (R469): Port and SEQ. -/
  | dlyReqReceive (t : Nat) (p : Fin 2) (seq : BitVec 8)
  /-- DLY_RSP_RECEIVE (R470): Port, SEQ, T4; its CRC-8 agrees. -/
  | dlyRspReceive (t : Nat) (p : Fin 2) (seq : BitVec 8) (t4 : BitVec 64) (ok : Bool)
  /-- TIME_SOURCE_TIMEOUT (R471): No operand beside the instant. -/
  | timeSourceTimeout (t : Nat)
  /-- HOLDOVER_TIMEOUT (R473): No operand beside the instant. -/
  | holdoverTimeout (t : Nat)
  /-- CREDIT_RECEIVE (R463): Port; FREED and its complement. -/
  | creditReceive (t : Nat) (p : Fin 2) (freed : BitVec 8) (compl : BitVec 8)
  /-- CREDIT_REFRESH (R463): Port. -/
  | creditRefresh (t : Nat) (p : Fin 2)
  /-- LINKCTL_RECEIVE (R464): Port and CODE. -/
  | linkctlReceive (t : Nat) (p : Fin 2) (code : BitVec 8)
  /-- PARTNER_CHANGE_TIMEOUT (R464): Port. -/
  | partnerChangeTimeout (t : Nat) (p : Fin 2)
  /-- PORT_JOIN (R477): No operand beside the instant. -/
  | portJoin (t : Nat)
  /-- REPEAT_LOSS (R467): The receiving port. -/
  | repeatLoss (t : Nat) (p : Fin 2)
  /-- ROLL (R465): No operand beside the instant. -/
  | roll (t : Nat)
  /-- ROLL_RECEIVE (R465): Port and COUNT; its CRC-8 agrees. -/
  | rollReceive (t : Nat) (p : Fin 2) (count : BitVec 16) (ok : Bool)
  /-- ROLL_TIMEOUT (R465): No operand beside the instant. -/
  | rollTimeout (t : Nat)
  /-- ADDRESS_TAKE_EFFECT (R466): No operand beside the instant. -/
  | addressTakeEffect (t : Nat)
  /-- CHN_ERR_SAT_CLEAR (R483): Port. -/
  | chnErrSatClear (t : Nat) (p : Fin 2)
  /-- CHN_DROP_SAT_CLEAR (R483): No operand beside the instant. -/
  | chnDropSatClear (t : Nat)
  /-- CAN_FRAME_RECEIVE (R494): Controller; the frame; ns since its start-of-frame; REC under the standard. -/
  | canFrameReceive (t : Nat) (n : Fin 2) (f : CanFrame) (sof : Nat) (err : BitVec 8)
  /-- CAN_TRANSMIT_END (R493): Controller and object; the end; ns since its start-of-frame; ESI as sent; the delay measured under R489; TEC under the standard. -/
  | canTransmitEnd (t : Nat) (n : Fin 2) (obj : Fin 128) (e : CanEnd) (sof : Nat) (esi : Bool) (delay : Option Nat) (tec : Nat)
  /-- CAN_TX_TIMEOUT (R493): Controller and object. -/
  | canTxTimeout (t : Nat) (n : Fin 2) (obj : Fin 128)
  /-- CAN_BUS_ERROR (R497): Controller; the error's code, in the data phase or the nominal one; TEC and REC under the standard. -/
  | canBusError (t : Nat) (n : Fin 2) (lec : Fin 7) (dataPhase : Bool) (tec : Nat) (err : Nat)
  /-- CAN_INTEGRATED (R491): Controller. -/
  | canIntegrated (t : Nat) (n : Fin 2)
  /-- CAN_RECOVERY_DONE (R498): Controller. -/
  | canRecoveryDone (t : Nat) (n : Fin 2)
  /-- CAN_TS_WRAP (R495): No operand beside the instant. -/
  | canTsWrap (t : Nat)
  /-- SNAP (R496): No operand beside the instant. -/
  | snap (t : Nat)
  /-- CAN_CNT_SAT_CLEAR (R502): Controller. -/
  | canCntSatClear (t : Nat) (n : Fin 2)
  /-- PAGE_PROGRAM_DONE (R519): The device reports success. -/
  | pageProgramDone (t : Nat) (ok : Bool) (split : Bool := false)
  /-- FLUSH_TIMEOUT (R514): No operand beside the instant. -/
  | flushTimeout (t : Nat)
  /-- FLUSH (R514): No operand beside the instant. -/
  | flush (t : Nat)
  /-- FORMAT (R511): Blocks whose factory marker is not 0xFF. -/
  | format (t : Nat) (bad : List Nat)
  /-- SCRUB_READ (R525): Most bits in error in one codeword of the page read; its metadata CRC holds. -/
  | scrubRead (t : Nat) (worst : Nat) (crc : Bool := true)
  /-- WEAR_LEVEL_MOVE (R523): No operand beside the instant. -/
  | wearLevelMove (t : Nat)
  /-- WRITE_BAN_LIFT (R526): No operand beside the instant. -/
  | writeBanLift (t : Nat)
  /-- REC_CNT_SAT_CLEAR (R530): No operand beside the instant. -/
  | recCntSatClear (t : Nat)
  /-- HKP_ROUND (R532): The codes of slots 0 to 23, for a die sensor its temperature in 1/16 °C; the reports of channels 0 to 11. -/
  | hkpRound (t : Nat) (locals : List Int) (chans : List ChanReport)
  /-- BRAKE_COIL_CHECK (R540): No operand beside the instant. -/
  | brakeCoilCheck (t : Nat)
  /-- CORE_TIMEOUT (R330): No operand beside the instant. -/
  | coreTimeout (t : Nat)
  /-- XTAL25_STABLE (R59): No operand beside the instant. -/
  | xtal25Stable (t : Nat)
  /-- X32_CRYSTAL_FAIL (R54): No operand beside the instant. -/
  | x32CrystalFail (t : Nat)
  /-- REPEATER_RESUME (R467): The receiving port. -/
  | repeaterResume (t : Nat) (p : Fin 2)
  /-- DCH_COOL_EXPIRE (R350): No operand beside the instant. -/
  | dchCoolExpire (t : Nat)
  /-- TRACE_TRIGGER_INPUT (R268): The edge. -/
  | traceTriggerInput (t : Nat) (rising : Bool)
  /-- BLOCK_ERASE_DONE (R522): Block; the device reports success. -/
  | blockEraseDone (t : Nat) (b : Nat) (ok : Bool)
  /-- PCIE_LINK_UP (R407): No operand beside the instant. -/
  | pcieLinkUp (t : Nat) (cfg : PcieCfg := {})
  /-- BOOT_COMPLETE (R386): No operand beside the instant. -/
  | bootComplete (t : Nat)
  deriving DecidableEq, Repr

end Sys2Proof
end

