-- ==== Sys2Proof/Decode.lean ====
section
/-!
DEFINITION. Reading a command from the table's bits. No row of the table gives bits: a command of this block is a happening
at a pad, on a bus or in a ring, not a word (log entry 5). So no word spells one.
-/

namespace Sys2Proof

/-- The command that a word spells by the table's bits: none, for every word. -/
def decodeTableWord (_nbits _w : Nat) : Option Instr := none

end Sys2Proof
end

