-- ==== Sys2Proof/Config.lean ====
section
/-!
DEFINITION. What one EHX9880 and its installation fix and the spec leaves open: identity, scales of the
signed configuration that no register holds, and the free values. Every constant is opaque, so no proof
can lean on a value of it. Each is named in the assumption log.
-/

namespace Sys2Proof.Config

/-- SYS_ID.REV minus 1: the silicon revision, from 0x01 (R571). -/
opaque siliconRev : BitVec 7

/-- Unit serial number of the factory record (R571). -/
opaque serialLo : BitVec 32
opaque serialHi : BitVec 32

/-- Volts at full scale of Uzodar's DC-link input, less 1: VFS of the signed configuration (R8, R578). -/
opaque vfsLess1 : Nat

/-- VFS in V: at least 1 (log entry 70). -/
def vfsVolts : Nat := vfsLess1 + 1

/-- A free value of the given width in bits, by its serial number (log entry 3). -/
opaque freeNat : Nat → Nat

/-- A free 32-bit value, by its serial number (log entry 3). -/
opaque freeWord : Nat → BitVec 32

/-- Bytes an entry of the replicator's batch takes beside its payload (R364 states no entry size). -/
opaque entryOverhead : Nat

/-- A word of the replicator's input queue in an interval (R360, R364 state no layout of the queue), and one of the boot
ROM (R360). -/
opaque queueWord : Nat → Nat → BitVec 32
opaque romWord : Nat → BitVec 32

/-- Bytes an output takes in a core's output buffer (R365 states no entry size). -/
opaque outputBytes : Nat

/-- Whether FMAC and FMSU round once (fused) or after each operation (log entry 20). -/
opaque fmacFused : Bool

/-- Which association FDOT uses, one of four (log entry 20). -/
opaque fdotForm : Fin 4

/-- Sign and payload of a NaN that an operation makes; the spec names none (log entry 21). -/
opaque nanBits : BitVec 32

/-- FMIN and FMAX of operands that do not order (log entry 21). -/
opaque minMaxNan : Bool → BitVec 32 → BitVec 32 → BitVec 32

/-- CVFA of an infinity: modulo one turn it has no value (log entry 21). -/
opaque angleOfInf : Bool → BitVec 32

/-- The error of SINCOS in units of 2^-40, before its bound is applied (R255, log entry 22). -/
opaque sincosErr : Nat → Bool → Int

/-- Resolver tracking loop after a sample, by serial number, bandwidth in Hz and the demodulated pair: angle in 2^-32
turn, speed under R10, magnitude of the tracking error in 2^-32 turn; its gains are not stated (log entry 23). -/
opaque resolverLoop : Nat → Nat → Int → Int → Nat × Int × Nat

/-- The observer's loop after a step, by serial number, bandwidth in Hz and the two components of e: angle of e in 2^-32
turn, speed under R10, magnitude of the loop's error in 2^-32 turn; its gains are not stated (log entry 26). -/
opaque observerLoop : Nat → Nat → BitVec 32 → BitVec 32 → Nat × Int × Nat

/-- The inductance L of R220, from the bank's LD and LQ: the spec does not say which (log entry 26). -/
opaque observerL : BitVec 32 → BitVec 32 → BitVec 32

/-- Which neighbour an inexact quotient takes where the spec states no rounding: true for the upper one
(log entry 24). The arguments tell the computation, the numerator and the denominator. -/
opaque roundUp : Nat → Int → Nat → Bool

/-- The line signature over the values that R302 lists; the spec gives no byte layout (log entry 25). -/
opaque lineSignature : List Nat → BitVec 32

/-- The signed configuration gives a GPIO pad its dedicated function (R48); no register shows it. -/
opaque gpioDedicated : Nat → Bool

/-- CO1 and FB1 are declared unused (R49, R348); no register shows it (log entry 29). -/
opaque co1Unused : Bool

/-- NTC0 to NTC2, the TS_n inputs, and the pins of a position source (axis, then the code of POS_CFG_a.SRC) that the
signed configuration declares unused (R49); no register shows it (log entry 29). -/
opaque ntcUnused : Nat → Bool
opaque tsUnused : Nat → Bool
opaque posUnused : Nat → Nat → Bool

/-- SHA-384 (R383, R512), a function of the bytes alone (log entry 33). -/
opaque sha384 : List (BitVec 8) → List (BitVec 8)

/-- RSASSA-PSS verification: modulus, message, signature (R383, log entry 33). -/
opaque rsaOk : List (BitVec 8) → List (BitVec 8) → List (BitVec 8) → Bool

/-- SLH-DSA-SHA2-192s verification: public key, message, signature (R383, log entry 33). -/
opaque slhOk : List (BitVec 8) → List (BitVec 8) → List (BitVec 8) → Bool

/-- The two signatures of an attestation report over its first 256 bytes (R397, log entry 33). -/
opaque attestSigs : List (BitVec 8) → List (BitVec 8)

/-- AES-256-GCM under the recorder key: nonce, associated data, payload; ciphertext and tag (R516, log entry 33). -/
opaque recSeal : List (BitVec 8) → List (BitVec 8) → List (BitVec 8) → List (BitVec 8)

/-- Partition or log index of a page's metadata, by role and number of the partition or log (R507, log entry 107). -/
opaque partIndex : Nat → Nat → BitVec 8

/-- The 4,096 data bytes of a page of an anchor record, by generation and page: R509 lists what they hold and gives no
layout (log entry 107). -/
opaque anchorData : Nat → Nat → List (BitVec 8)

/-- The identity keys as provisioning wrapped them for the recorder (R396). -/
opaque wrappedKeys : List (BitVec 8)

/-- The device certificates (R396). -/
opaque certificates : List (BitVec 8)

/-- Boot ROM version (R397). -/
opaque romVersion : BitVec 32

/-- An OTP byte as delivered (R381, log entry 34). -/
opaque otpByte : Nat → BitVec 8

/-- The capacity code of the CS0 device: 2 ^ code Gbit (R504), and the blocks of a CS1 device, 0 for none. -/
opaque flashCode : Fin 7
opaque cs1Blocks : Nat

/-- Pages of an anchor record, less 1 (R509 gives 1 to 32). -/
opaque anchorPages : Fin 32

/-- Slews CT between two instants by the time servo of R470, bounded by 10 ppm; its gains are not stated
(log entry 35): serial number, offset in ps, exchange interval in ns. -/
opaque timeServo : Nat → Int → Nat → Int

end Sys2Proof.Config
end

