-- ==== Sys2Proof/Machine/State.lean ====
section
/-!
DEFINITION. The state of one EHX9880: every register, memory, queue and hidden state of the spec, the
queue of commands that wait, and what each stop means.
-/

namespace Sys2Proof.Machine

/-- Power state of a switched domain (R61): WATCH keeps CPU and CTL in retention. -/
inductive DomState where
  | off | retention | on
  deriving DecidableEq, Repr

/-- The power sequence in progress (R51, R52, R70 to R80, R574, R575). -/
inductive PwrPhase where
  /-- No sequence: asleep in Winter or WATCH, or awake in READY or above. -/
  | rest
  /-- Enables rising in the order of R51. -/
  | thaw
  /-- Both PLLs locked; boot ROM and then firmware initialisation run. -/
  | boot
  /-- Wake from WATCH under R74. -/
  | wakeWatch
  /-- Entry to WATCH: PWR_EN3 then PWR_EN2 fall. -/
  | watchDown
  /-- Enables falling after an abandoned Thaw or a loss of SAFE (R72, R76). -/
  | abort
  /-- SHUTDOWN step 3: mirror and recorder are written out. -/
  | flush
  /-- SHUTDOWN steps 4 and 5: PWR_EN3 then PWR_EN2 fall. -/
  | gateDown
  /-- SHUTDOWN step 6: logic BIST running. -/
  | bist
  /-- SHUTDOWN step 8: PWR_EN1 then PWR_EN0 fall. -/
  | coreDown
  /-- In reset: RESET_N low, or held after a failed BIST. -/
  | held
  deriving DecidableEq, Repr

/-- Supplies, clocks and power sequencing that no register shows (R50 to R80). -/
structure Power where
  /-- Levels of PWR_EN0 to PWR_EN3 (R43, R51, R52). -/
  en0 : Bool := false
  en1 : Bool := false
  en2 : Bool := false
  en3 : Bool := false
  /-- Rails inside their monitor windows (R50). -/
  vio : Bool := false
  vsafe : Bool := false
  vcore : Bool := false
  vana : Bool := false
  /-- Domains (R50, R61). -/
  ao : Bool := true
  safe : Bool := false
  io : Bool := false
  cpu : DomState := .off
  ctl : DomState := .off
  comm : DomState := .off
  ana : DomState := .off
  phase : PwrPhase := .rest
  /-- Wake causes latched while WATCH or Winter is being entered (R70). -/
  latched : Nat := 0
  /-- RESET_N is low. -/
  resetLow : Bool := false
  /-- BIST pass record in AO (R77, R80). -/
  bistPass : Bool := false
  /-- Failed logic BISTs since the last pass (R80, R403). -/
  bistFails : Nat := 0
  /-- 6-bit fraction accumulator of the CT keeper (R71). -/
  ctFrac : Nat := 0
  /-- The AO clock runs from the internal RC (R54). -/
  aoRc : Bool := false
  /-- XTAL25 is stable (R54, R59). -/
  xtal : Bool := false
  /-- The reference changeover slew is running (R74). -/
  changeover : Bool := false
  /-- Instant of the most recent wake (R74). -/
  wokeAt : Nat := 0
  /-- FAULT_N driven low (R47). -/
  faultLow : Bool := true
  /-- The module has reached READY since AO power-on (R47). -/
  everReady : Bool := false
  /-- Uzodar's clock and PLLB hold of R156. -/
  pllbHeld : Bool := false
  /-- A failed BIST since the last pass occurred in SHUTDOWN (R405). -/
  shutFail : Bool := false
  /-- Instant of the last write of PCK_ALARM (R69). -/
  alarmAt : Nat := 0
  /-- AO has just powered on, and its Thaw is due (R50). -/
  born : Bool := true
  /-- The lock detectors of PLLA and PLLB, whose signals Uzodar receives directly (R56, R58). -/
  pllA : Bool := false
  pllB : Bool := false
  /-- PLLB's clocks have stopped, and no update event has come since (R156, R266). -/
  roadHeld : Bool := false
  /-- The boot after a BIST that failed in SHUTDOWN leads to READY (R80). -/
  toReady : Bool := false
  /-- Domains of VCORE lost while awake, by their ARG of event 0x0104, until the firmware that reports them runs (R426). -/
  lostTold : List Nat := []
  deriving DecidableEq, Repr

/-- What Uzodar's gate-block lines do to a bridge (R23 rank 3, R332). -/
inductive UzGate where
  /-- Uzodar neither blocks nor forces: the mode and the PWM decide. -/
  | free
  | allOff
  /-- Active short circuit on the lower (`false`) or upper (`true`) half. -/
  | short (upper : Bool)
  deriving DecidableEq, Repr

/-- Which rule of R332 put the gate state there. -/
inductive UzWhy where
  | none | sto | final | rowOff | rowHalf | rowAuto | coast
  deriving DecidableEq, Repr

/-- A position frame as Uzodar holds it (R205). -/
structure PosFrame where
  angle : Nat
  speed : Int
  ref : Nat
  fail : Bool
  seq : Nat
  at_ : Nat
  deriving DecidableEq, Repr

/-- Uzodar's state for one axis (R324 to R347). -/
structure UzAxis where
  gate : UzGate := .free
  why : UzWhy := .none
  /-- Final state chosen under R110, while it stands. -/
  final : Option UzGate := none
  /-- The final state of R110 is still to be chosen. -/
  finalDue : Bool := false
  /-- A deasserted enable ended a short circuit (R355). -/
  enaEnded : Bool := false
  /-- A LIMP request from another axis's row stands (OTHER of R329). -/
  otherLimp : Bool := false
  /-- SS1 running from an STO demand, and from rows (R327). -/
  ss1Sto : Bool := false
  /-- Off because an STO demand reached the axis ahead of the module (R327, log entry 28). -/
  stoOff : Bool := false
  ss1Rows : Bool := false
  ss1Deadline : Nat := 0
  /-- Rows whose GATE SS1 has ended and now acts as ASC_AUTO (R328). -/
  ss1Ended : Bool := false
  /-- OTHER of its SS1 rows is still to act on the other axis (R331). -/
  otherDue : Bool := false
  /-- Brake step of R328 running. -/
  brakeStep : Bool := false
  /-- Start of the latest brake step (R328). -/
  stepAt : Nat := 0
  /-- Since when |speed| has stayed below SS1_ZERO (R327), and above 1.25 × LIMP_SPD (R341). -/
  slowAt : Option Nat := none
  fastAt : Option Nat := none
  /-- Since when E_u has stayed below ASC_EXIT × Vdc (R335). -/
  lowAt : Option Nat := none
  /-- Time spent in LIMP, in ns, and whether event 0x0C09 has been raised (R340). -/
  limpNs : Nat := 0
  limpFrom : Option Nat := none
  limpWarned : Bool := false
  /-- Consecutive back-EMF computations at or above 0.9 × Vdc (R233, R335). -/
  hiRun : Nat := 0
  /-- Coast-request line of the field controller (R232). -/
  coast : Bool := false
  /-- Latest position frame, and whether the position is unavailable (R205). -/
  frame : Option PosFrame := none
  posLost : Bool := false
  /-- Latest complete set of ADCB phase currents and DC-link result, calibrated (R337, R578). -/
  iU : Int := 0
  iV : Int := 0
  iW : Int := 0
  gotI : Bool := false
  vdc : Int := 0
  gotV : Bool := false
  /-- Back-EMF from PV_IN in mV (R233). -/
  pvE : Option Nat := none
  /-- Published torque commands in Q1.15, newest first, with their instants (R338). -/
  cmds : List (Nat × Int × Int) := []
  /-- Runs of R339. -/
  iabsRun : Nat := 0
  vdcRun : Nat := 0
  /-- Voted brake-release request (R343). -/
  release : Bool := false
  /-- Instant of the last brake-test PASS (R347), and the overdue mark. -/
  btPassAt : Nat := 0
  btDue : Bool := false
  deriving DecidableEq, Repr

/-- Pre-charge sequence (R348). -/
inductive Precharge where
  | idle
  | co1 (since : Nat)
  | line (since : Nat)
  | closed
  deriving DecidableEq, Repr

/-- Active discharge (R350, R351). -/
inductive Discharge where
  | idle
  | cool
  | waitFb
  | active (since : Nat)
  deriving DecidableEq, Repr

/-- A brake test in progress (R346). -/
structure BrakeTest where
  axis : Nat
  /-- Start of this TEST_T. -/
  since : Nat := 0
  /-- The second TEST_T, with the current negative, is running. -/
  second : Bool := false
  /-- Signed angle travelled in this TEST_T, in 2^-16 electrical turn, and the angle of the last frame. -/
  travel : Int := 0
  angle : Option Nat := none
  /-- Evaluations of this TEST_T with |i_q| at least 0.9 × TEST_I. -/
  enough : Nat := 0
  /-- The first TEST_T lacked current. -/
  lacked : Bool := false
  deriving DecidableEq, Repr

/-- Uzodar's module-wide state (R322 to R354). -/
structure Uzodar where
  /-- Both inputs have been low together since the discrepancy was latched (R325). -/
  discLow : Bool := false
  /-- Since when the filtered inputs have differed (R325). -/
  diffAt : Option Nat := none
  /-- Configuration shadow: the BL words Uzodar copied at BLK_LOCK (R323). -/
  shadow : List (Nat × BitVec 32) := []
  /-- TRIM, DRV and PROF of the channels as they stood when CTL last went down (R26, R83, log entry 94). -/
  kept : List (Nat × BitVec 32) := []
  /-- Copy of the channel latches (R87). -/
  latch : Nat := 0
  /-- Channels named in a fault report since their latch (R24). -/
  faulted : Nat := 0
  /-- Host output requests per safety output (R342). -/
  hostOut : Nat := 0
  /-- The latest test pulse: its output, whether it moves the high side, and its end (R41, R344). -/
  soPulse : Option (Nat × Bool × Nat) := none
  /-- Origin of the test schedule: the load of the shadow (R344). -/
  soFrom : Nat := 0
  /-- Instant of each safety output's last change (R540), listed where not 0. -/
  soAt : List (Nat × Nat) := []
  precharge : Precharge := .idle
  /-- Instants of the last CO0 and CO1 command changes (R349). -/
  co0At : Nat := 0
  co1At : Nat := 0
  discharge : Discharge := .idle
  /-- End of the last discharge that reached DCH_TMAX (R350). -/
  dchTmaxAt : Option Nat := none
  /-- Since when the module's Vdc has stayed below DCH_VSAFE (R351). -/
  safeAt : Option Nat := none
  btest : Option BrakeTest := none
  /-- Instant of the last passed voter checkpoint (R330 row 4). -/
  ckptAt : Nat := 0
  /-- Instant of Uzodar's last self-test, and a due test (R352). -/
  selfAt : Nat := 0
  selfDue : Bool := false
  /-- ADCB is excluded (R178). -/
  adcbLost : Bool := false
  /-- Every axis in use has had a DC-link result since ANA powered up (R27, log entry 81). -/
  vdcSeen : Bool := false
  deriving DecidableEq, Repr

/-- Input and output pads that no register shows (R39 to R48). -/
structure Pins where
  ena0 : Bool := false
  ena1 : Bool := false
  /-- Time at which the bridge's enable last fell (R107). -/
  ena0Fell : Nat := 0
  ena1Fell : Nat := 0
  perstN : Bool := false
  /-- CANn_STB driven high: transceiver in standby (R499). -/
  canStb0 : Bool := true
  canStb1 : Bool := true
  /-- General-purpose output levels of GPIO0 to GPIO15 (R48). -/
  gpio : Nat := 0
  /-- EXCn driven (R39, R195). -/
  exc0 : Bool := false
  exc1 : Bool := false
  /-- The IEEE 1149.1 instruction loaded (R399). -/
  scan : ScanIns := .idcode
  deriving DecidableEq, Repr

/-- A fetched command descriptor (R417): ring, index and its 64 bytes. -/
structure Desc where
  ring : Nat
  idx : Nat
  bytes : List Byte
  /-- Resets of the link before its fetch (R410). -/
  links : Nat
  deriving DecidableEq, Repr

/-- A command in progress: what its completion repeats (R423). -/
structure Cmd where
  ring : Nat
  idx : Nat
  tag : Nat
  opcode : Nat
  hseq : Nat
  jseq : Nat
  irq : Bool
  sync : Bool
  /-- Descriptor bytes 16 to 59 (R417). -/
  args : List Byte
  /-- Resets of the link before its fetch (R410). -/
  links : Nat
  deriving DecidableEq, Repr

/-- A completion entry without its PHASE (R423). -/
structure Completion where
  cmd : Cmd
  status : Nat
  result : Nat
  deriving DecidableEq, Repr

/-- An event with the chain time of its raising (R424). -/
structure Event where
  code : Nat
  arg : Nat
  ct : Nat
  /-- SYS_MODE when the record was composed (R424). -/
  mode : Nat
  deriving DecidableEq, Repr

/-- Work of the data mover (R422). -/
inductive MoverJob where
  | profileTable (cmd : Cmd) (axis tb count : Nat) (addr : Nat)
  | toHost (cmd : Cmd) (addr : Nat) (data : List Byte) (result : Nat)
  | fwPart (cmd : Cmd) (obj offset len : Nat) (last : Bool) (addr : Nat)
  | chainSend (cmd : Cmd) (dst type len : Nat) (addr : Nat)
  | canImage (cmd : Cmd) (ctl obj : Nat) (addr : Nat)
  deriving DecidableEq, Repr

/-- The command of a copy. -/
def MoverJob.cmd : MoverJob → Cmd
  | .profileTable c .. | .toHost c .. | .fwPart c .. | .chainSend c .. | .canImage c .. => c

/-- A message object (R490). -/
structure CanObj where
  id : Nat := 0
  mask : Nat := 0
  dlc : Nat := 0
  flags : Nat := 0
  epoch : Nat := 0
  ts : Nat := 0
  data : List Byte := []
  deriving DecidableEq, Repr

/-- The asynchronous inputs the replicator captures (R364). -/
inductive RepInput where
  | ss1Stop (axis : Nat)
  | brakeStep (axis step : Nat)
  | modeChange (mode ax0 ax1 : Nat)
  | desc (d : Desc)
  | offer (axis : Nat) (current : Int)
  | chainFrame (bytes : List Byte)
  | canRx (ctl obj : Nat) (frame : CanObj) (stamp : Nat)
  | event (code arg : Nat)
  | pacer (k : Nat)
  /-- The data mover has ended a copy: its bytes, or none after a DMA error (R422). -/
  | copyEnd (job : MoverJob) (data : Option (List Byte))
  /-- A report has been signed (R397). -/
  | signed (cmd : Cmd) (report : List Byte)
  deriving DecidableEq, Repr

/-- A captured input with its chain time (R364). -/
structure RepEntry where
  ct : Nat
  /-- PER clock of the capture. -/
  clk : Nat
  inp : RepInput
  deriving DecidableEq, Repr

/-- What a core leaves at its checkpoint: its outputs and its signature (R363). -/
structure Arrival where
  outs : List CoreOut
  sig : BitVec 32
  deriving DecidableEq, Repr

/-- The architectural state of a core (R363, R368): program counter, integer, floating-point and control registers, listed
where not 0, and the memory protection entries that are in use (R372). -/
structure CoreArch where
  pc : BitVec 32 := 0#32
  x : List (Nat × BitVec 32) := []
  f : List (Nat × BitVec 32) := []
  csr : List (Nat × BitVec 32) := []
  pmp : List (Nat × PmpEntry) := []
  deriving DecidableEq, Repr

/-- The core cluster and its voter (R360 to R376), beside the CPX registers. -/
structure Cores where
  /-- Arrivals at the current checkpoint, by core. -/
  arrived : List (Nat × Arrival) := []
  /-- The minority core that sits out the current interval (R368). -/
  sitting : Option Nat := none
  /-- Cores that have resumed from debug and are still to be a minority (R375). -/
  resumed : List Nat := []
  /-- Cores stalled until the next instant: overflow (R365) or local SRAM error (R373). -/
  stalled : List Nat := []
  /-- Halt requests held while their core is copied (R376). -/
  haltHeld : List Nat := []
  /-- Held values of this interval's replicated reads, and each core's count (R365). -/
  rdVals : List (BitVec 32) := []
  rdCnt : List (Nat × Nat) := []
  /-- Minority instants of the last hour, by core (R369). -/
  minAt : List (Nat × Nat) := []
  /-- Replicator queue and the batch delivered to this interval (R364). -/
  repQ : List RepEntry := []
  batch : List RepEntry := []
  /-- Entries of intervals whose checkpoint did not pass: delivered, and not yet acted on (log entry 122). -/
  unacted : List RepEntry := []
  /-- The checkpoint of the current interval has been voted (R362). -/
  voted : Bool := true
  /-- Pacer: number and instant of the last P_k, servo ticks counted (R361). -/
  instants : Nat := 0
  lastP : Nat := 0
  ticks : Nat := 0
  /-- Descriptors delivered and not yet judged, in capture order (R420). -/
  waiting : List Desc := []
  /-- The accepted command that holds each ring (R420). -/
  running : List (Nat × Cmd) := []
  /-- Rings whose accepted command has begun to run, or has completed and waits for its release. -/
  begun : List Nat := []
  /-- Completions that wait for the next checkpoint to pass: those whose journal entry is still to become final, and those
whose entry is (R19, R367, R439). -/
  finals : List Completion := []
  owed : List Completion := []
  /-- Instant of the latest passing vote, whose outputs leave within 2 µs (R367). -/
  passAt : Option Nat := none
  /-- Firmware runs (after BOOT_COMPLETE or a restart). -/
  fwRuns : Bool := false
  /-- A CPX_CKPT_CFG write waits for the first instant after its release (R377). -/
  cfgNext : Option (BitVec 32) := none
  cfgUsed : BitVec 32 := 0x03E80100#32
  /-- Registers, program counter and memory protection of each core. -/
  arch0 : CoreArch := {}
  arch1 : CoreArch := {}
  arch2 : CoreArch := {}
  /-- Local SRAM of each core, written by its own stores (R360). -/
  sram0 : List Host.Cell := []
  sram1 : List Host.Cell := []
  sram2 : List Host.Cell := []
  deriving DecidableEq, Repr

/-- A telemetry stream beside its registers (R427 to R430). -/
structure Stream where
  /-- Instant of the configuration, and captures scheduled since. -/
  cfgAt : Nat := 0
  nextMul : Nat := 0
  /-- A capture waiting for its checkpoint: chain time, VALID_FOR and values (R427, R428). -/
  cap : Option (Nat × Nat × List (BitVec 32)) := none
  /-- Chain time of the latest data record's capture, and its VALID_FOR (R430). -/
  lastCap : Nat := 0
  lastVf : Nat := 0
  /-- SEQ of the latest data record written (R430). -/
  lastSeq : Nat := 0
  lastAt : Nat := 0
  dropped : Bool := false
  deriving DecidableEq, Repr

/-- The host interface beside its registers (R411 to R433). -/
structure HostIf where
  /-- Phase bit of each ring (R416). -/
  phase : List (Nat × Bool) := []
  /-- Descriptors fetched and not yet completed, by ring (R415). -/
  open_ : List (Nat × Nat) := []
  /-- Released event records waiting for the EVT ring (R416), and the drop mark. -/
  backlog : List (Event × Bool) := []
  lost : Bool := false
  eseq : Nat := 0
  /-- Events posted after the condition, once EVT accepts records (R426). -/
  late : List (Nat × Nat) := []
  /-- Completions of SYNC commands held for their batch (R442). -/
  syncHeld : List Completion := []
  mover : List MoverJob := []
  str0 : Stream := {}
  str1 : Stream := {}
  /-- Resets of the link: a completion of a command fetched before one is discarded (R410). -/
  links : Nat := 0
  /-- The endpoint's configuration space, and its reset values (R407, R410, log entry 127). -/
  pcie : PcieCfg := { msixEn := false, maxPayload := 128 }
  /-- Instant of the last valid doorbell (R433). -/
  fedAt : Nat := 0
  /-- Per vector: instant of the last message, and a merged raise waiting (R432). -/
  irqAt : List (Nat × Nat) := []
  irqHeld : List (Nat × Bool) := []
  /-- Instants at which a rate-limited event was last raised, by code and argument. -/
  evAt : List (Nat × Nat) := []
  /-- Frozen words by initiator: 0 the host, 1 the cores, 2 + source a chain host; offset and value (R570,
  R447). -/
  frz : List (Nat × Nat × BitVec 32) := []
  /-- Aperture snapshots by initiator: slot and words (R446). -/
  snaps : List (Nat × Nat × List (BitVec 32)) := []
  deriving DecidableEq, Repr

/-- A journal entry (R436). -/
structure JEntry where
  jseq : Nat
  ct : Nat
  hseq : Nat
  ring : Nat
  opcode : Nat
  status : Nat
  kind : Nat
  sync : Bool
  gap : Bool
  argh : Nat
  deriving DecidableEq, Repr

/-- The journal in shared SRAM and its mirror in flash (R441 to R444). -/
structure Journal where
  /-- Entries held in SRAM, oldest first. -/
  entries : List JEntry := []
  /-- A batch has been handed to the recorder and is not yet committed (R442). -/
  batch : Bool := false
  /-- Event 0x0403 has been raised for the present ban (R451). -/
  banTold : Bool := false
  /-- A ban or a failed batch holds the mirror back until it has caught up (R451). -/
  behind : Bool := false
  deriving DecidableEq, Repr

/-- A chain frame (R457): its header fields and payload; the check codes are those of R457. -/
structure Frame where
  ty : Nat
  dst : Nat
  src : Nat
  seq : Nat
  payload : List Byte
  deriving DecidableEq, Repr

/-- A frame waiting to leave a port (R460 to R462). -/
structure QFrame where
  port : Nat
  own : Bool
  frame : Frame
  /-- The CHAIN_SEND that waits for it (R481). -/
  cmd : Option Cmd
  since : Nat
  deriving DecidableEq, Repr

/-- Where a partner change stands on a port (R464). -/
inductive Partner where
  | none
  /-- This unit has sent HOLD and waits for DRAINED; `toRepeat` if it is entering repeat mode. -/
  | changing (since : Nat) (toRepeat : Bool)
  /-- The partner has sent HOLD: frames are held until its RESET. -/
  | heldBy (since : Nat) (drained : Bool)
  deriving DecidableEq, Repr

/-- One Tramer port beside its registers (R452 to R474). -/
structure ChainPort where
  sent : Nat := 0
  freed : Nat := 0
  partner : Partner := .none
  /-- A repeater that has stopped transmitting out of this port (R467). -/
  mute : Bool := false
  /-- Stamps of the exchange in progress (R469): t1, t2, t3 and the exchange's number. -/
  t1 : Option Nat := none
  t2 : Nat := 0
  t3 : Option Nat := none
  dseq : Nat := 0
  /-- The last 16 values of d, in 1/8 ps, newest first (R469). -/
  ds : List Int := []
  /-- Instant of the latest valid TIME_SYNC (R471). -/
  syncAt : Option Nat := none
  /-- A broadcast BREAK with HEALED is due after the partner change (R468). -/
  healDue : Bool := false
  deriving DecidableEq, Repr

/-- The Tramer chain beside its registers. -/
structure Chain where
  up : ChainPort := {}
  down : ChainPort := {}
  /-- Frames waiting to leave, oldest first. -/
  queue : List QFrame := []
  /-- SEQ of the next frame the unit originates (R457). -/
  seq : Nat := 0
  /-- SRC and SEQ of the last 16 frames taken, newest first (R460). -/
  taken : List (Nat × Nat) := []
  /-- A WAKE or PREARM held until the first interval after READY (R476). -/
  heldWake : List Frame := []
  /-- A PREARM has woken the unit, and the handover logic has not yet acted on it (R319, R476). -/
  preWoke : Bool := false
  /-- Bytes of the 16 receive slots (R481). -/
  rxq : List Host.Cell := []
  /-- Time servo (R470, R473): joined a source, consecutive exchanges within 20 ns, instant of the
  last step and of the last valid exchange, trained frequency correction. -/
  joined : Bool := false
  goodRun : Nat := 0
  stepAt : Nat := 0
  exchAt : Option Nat := none
  slew : Int := 0
  /-- The roll of this boot waits for the DOWN link (R465). -/
  rollDue : Bool := false
  /-- Roll timer (R465). -/
  rollAt : Option Nat := none
  deriving DecidableEq, Repr

/-- What leaves the module: memory writes, messages, frames, ordered sets and pulses. -/
inductive Output where
  | hostWrite (addr : Nat) (bytes : List Byte)
  | msix (vector : Nat)
  | chainFrame (port : Nat) (f : Frame)
  /-- The copy of a damaged frame, ended with EOF_BAD (R459). -/
  | chainBad (port : Nat)
  /-- An ordered set of R455 by name code, with its fields. -/
  | credit (port freed : Nat)
  | timeSync (port ct hops : Nat)
  | dlyReq (port seq : Nat)
  | dlyRsp (port seq t4 : Nat)
  | roll (port count : Nat) (back : Bool)
  | linkctl (port code : Nat)
  | canFrame (ctl obj : Nat) (id : Nat) (data : List Byte)
  | pulse (gpio : Nat)
  /-- Bytes returned to a reader: a register read, a challenge, a report. -/
  | read (addr : Nat) (value : BitVec 32)
  | bytes (tag : Nat) (data : List Byte)
  deriving DecidableEq, Repr

/-- The states of a gate channel (R84). -/
inductive ChState where
  | noLink | config | uvlo | disabled | off | on | softOff | latched | thermal | diag
  deriving DecidableEq, Repr

/-- Phases of a profiled drive (R89). -/
inductive DrvPhase where
  | strong | pre | slope | weak
  deriving DecidableEq, Repr

/-- One gate channel die and the controller's knowledge of it, beside the GDC registers. -/
structure GateCh where
  st : ChState := .noLink
  /-- VPOS_n − VNEG_n is at least 5 V (R85). -/
  supply : Bool := false
  /-- Each supply is past its release level (R98). -/
  posOk : Bool := false
  negOk : Bool := false
  /-- Die above 160 °C and not yet below 140 °C. -/
  hot : Bool := false
  /-- The channel's own copy of its five configuration words (R83), and whether an exchange is due. -/
  copy : List (BitVec 32) := []
  exchange : Bool := false
  fails : Nat := 0
  /-- The latest configuration readback matched (R107, R577). -/
  matched : Bool := true
  /-- The channel has reached OFF since it last left NO_LINK (R99). -/
  seenOff : Bool := false
  /-- Instants of counted UVLO entries within 1 s (R99). -/
  uvAt : List Nat := []
  /-- On by Uzodar's force-on (R86, R85). -/
  forced : Bool := false
  /-- Drive phase of the last edge (R89, R90). -/
  phase : DrvPhase := .strong
  /-- Blanking has ended since the switch turned on (R101). -/
  blanked : Bool := false
  /-- Cause of its latest latch, by the codes of LATCH_CAUSE (R107, R113). -/
  cause : Nat := 0
  /-- The active Miller clamp is engaged (R91). -/
  clamp : Bool := false
  /-- GDX clock of the latest transition plus 1, and the state at that clock's start (R85). -/
  clk : Nat := 0
  was : ChState := .noLink
  wasBlanked : Bool := false
  /-- Row of R85 of the latest transition. -/
  row : Nat := 0
  /-- Instant of the latest turn-off (R137, R147). -/
  offAt : Nat := 0
  /-- The PWM turns this inner switch off once its outer one has been off for the dead time (R147). -/
  offDue : Bool := false
  /-- Instant from which Uzodar's force-on of a short circuit may close the switch (R334). -/
  riseAt : Option Nat := none
  deriving DecidableEq, Repr

/-- Gate diagnostics in progress (R117). -/
structure GateDiag where
  mask : Nat := 0
  test : Nat := 0
  /-- Channels whose test is still to start. -/
  todo : List Nat := []
  deriving DecidableEq, Repr

/-- A commit set of a carrier (R132): PERIOD, six compare words (on, off of U, V, W), eight trigger
words; and what its COMMIT was written after. -/
structure PwmSet where
  words : List (BitVec 32) := [0#32, 0xFFFFFF#32, 0xFFFFFF#32, 0xFFFFFF#32, 0xFFFFFF#32, 0xFFFFFF#32,
    0xFFFFFF#32, 0#32, 0#32, 0#32, 0#32, 0#32, 0#32, 0#32, 0#32]
  /-- Its COMMIT was written after the axis's latest entry to RUN (R153). -/
  afterRun : Bool := false
  /-- It was committed after the re-acquisition of R235. -/
  restart : Bool := false
  deriving DecidableEq, Repr

/-- One leg of a carrier in the present period. Times in steps of 62.5 ps from the valley. -/
structure PwmLeg where
  /-- The emitted high-side (modulating) interval; none where the pulse is dropped (R140). -/
  pulse : Option (Nat × Nat) := none
  /-- The gap of a refresh (R144). -/
  gap : Option (Nat × Nat) := none
  /-- Carry before this period's resolution (R135, R140). -/
  before : Int := 0
  /-- Consecutive periods without a qualifying low pulse (R143). -/
  lowRun : Nat := 0
  /-- Housekeeping has reported the supply below REFRESH_LEVEL (R143). -/
  levelDue : Bool := false
  /-- A trip holds a switch off until the next valley (R150); true after a positive overcurrent. -/
  cut : Option Bool := none
  /-- Place of that trip in the period, and a trip of the other polarity after it. -/
  cutAt : Nat := 0
  cutBoth : Bool := false
  /-- Region P of the three-level phase, and whether the period before was in it (R148). -/
  regionP : Bool := true
  wasP : Bool := true
  /-- A discard of this period has been counted (R142). -/
  discarded : Bool := false
  /-- The level in which the past period ended: the high side, or the outer switch, on. None where the outputs were
  off. -/
  ended : Option Bool := none
  /-- Low-side conduction of the past period (R143). -/
  low : Nat := 0
  /-- What the leg has emitted since the latest update event, in halves of Vdc times steps, and the place of the period up
  to which it is counted (R220). -/
  emitAcc : Int := 0
  emitTo : Nat := 0
  /-- The past period's last changes of level, whose dead time runs past the valley: place of the on-edge in this period,
  level, region (R137). -/
  tail : List (Int × Bool × Bool) := []
  deriving DecidableEq, Repr

/-- A PWM carrier beside its registers (R122 to R158). -/
structure Carrier where
  active : PwmSet := {}
  pending : Option PwmSet := none
  /-- A set committed inside the guard, for the reload after next (R134). -/
  late : Option PwmSet := none
  /-- The words of the present period, after mid-period reloads (R135). -/
  cur : List (BitVec 32) := []
  legs : List (Nat × PwmLeg) := []
  /-- PERIOD in use, in PWM clocks, and the effective dead time and minimum pulse in steps. -/
  per : Nat := 0
  dt : Nat := 0
  minp : Nat := 0
  /-- The counter runs, and the instant of its latest valley (R123, R156). -/
  started : Bool := false
  valleyAt : Nat := 0
  /-- Reload points passed since the valley, and the instant of the latest reload (R127). -/
  pts : List ReloadPoint := []
  reloadAt : Option Nat := none
  /-- Trigger points that have fired since the valley (R129). -/
  fired : Nat := 0
  /-- The outputs were on at the latest valley. -/
  drove : Bool := false
  /-- Neutral-point offset of the present period, per unit × 2^30 (R149). -/
  delta : Int := 0
  /-- Consecutive periods with a phase error beyond T ÷ 4 (R126). -/
  syncRun : Nat := 0
  /-- Valleys counted (R170). -/
  vcount : Nat := 0
  /-- Span of the map the carrier uses; in this period its edges fall on whole clocks (R131). -/
  map : Nat := 0
  coarse : Bool := false
  /-- Trip in this period; consecutive trip-free periods (R151). -/
  tripNow : Bool := false
  freeRun : Nat := 0
  /-- Trigger points whose window an edge occupies (R146). -/
  edgeWin : Nat := 0
  /-- Step to the aligned position at the next valley (R126). -/
  stepDue : Bool := false
  /-- Aligned valley of the last GPIO4 edge, and the instant of the edge (R126). -/
  aligned : Option Nat := none
  edgeAt : Option Nat := none
  /-- CT_BASE in use: taken when the HI word is written (R126). -/
  ctBase : Nat := 0
  deriving DecidableEq, Repr

/-- The field controller's state for one axis, beside its registers (R214 to R236). -/
structure FieldAxis where
  /-- The axis is armed (R421 ARM). -/
  armed : Bool := false
  /-- A START held for RUN_OK, with the instant of its release by the voter (R74). -/
  held : Option (Cmd × Nat) := none
  /-- A catch: its START and start instant (R227). -/
  catch_ : Option (Cmd × Nat) := none
  /-- Diode conduction seen during the catch (R227). -/
  diode : Bool := false
  /-- An I/f start since an instant, and its direction (R225). -/
  ifAt : Option Nat := none
  ifNeg : Bool := false
  ifRun : Nat := 0
  /-- Braking of a backward catch since an instant (R230). -/
  brakeAt : Option Nat := none
  /-- The rotor turned in the positive direction as that braking began (R230). -/
  brakeUp : Bool := false
  /-- Coast: entry instant, and a re-acquisition done (R232, R234). -/
  coastAt : Nat := 0
  reacqDone : Bool := false
  /-- It was done at this update (R235). -/
  reacqNew : Bool := false
  /-- Speeds of the consistent updates, newest first, the candidate angle and speed of the previous update,
  and the angle of its short-circuit current vector (R234). -/
  hist : List Int := []
  prevCand : Option (Nat × Int) := none
  prevVec : Option Nat := none
  /-- Back-EMF peak of the latest observer step, in mV, and the current vector of the task before, in A (R220). -/
  obsE : Nat := 0
  obsI : List (BitVec 32) := [0#32, 0#32]
  /-- What the legs emitted in the latest update interval, in halves of Vdc times steps, and its steps (R140, R220). -/
  emitted : List Int := []
  emitLen : Nat := 0
  /-- Consecutive updates without an angle source (R232). -/
  noSrc : Nat := 0
  /-- A STOP held until coast ends (R236). -/
  heldStop : Option Cmd := none
  /-- Reference of the motion-before-start monitor, whether one is due, and whether it has fired. -/
  preRef : Option Nat := none
  preFired : Bool := false
  /-- Angle source in use, blend: remaining updates and angle difference (R216). -/
  omega : Int := 0
  blendLeft : Nat := 0
  blendLen : Nat := 0
  blendD : Int := 0
  /-- Fraction of the angle the prelude forms: predicted angle etc. (R217). -/
  thetaOut : Nat := 0
  /-- Plausibility run (R223). -/
  plausRun : Nat := 0
  /-- The source is judged implausible until READY (R223). -/
  implausible : Bool := false
  /-- Preset due at the next task: 0 none, 1 synchronise (R229), 2 short circuit (R235), 3 take (R305). -/
  preset : Nat := 0
  /-- Line-to-line back-EMF peak of the preset, in mV (R229). -/
  presetE : Nat := 0
  /-- TQ_RAMP start instant and starting references (R229, R235). -/
  rampAt : Option Nat := none
  rampD : BitVec 32 := 0#32
  rampQ : BitVec 32 := 0#32
  /-- The last entry to RUN followed a catch (R221). -/
  fromCatch : Bool := false
  /-- Axis modulates: MOD of the prelude (R243). -/
  modOn : Bool := false
  deriving DecidableEq, Repr

/-- A dropped LOOP scan with the voted inputs of its axis, as it would have run (R167): its axis, its samples, and the end of
them, known once the scan before it starts. -/
structure Ghost where
  axis : Nat
  len : Nat
  endAt : Nat := 0
  deriving DecidableEq, Repr

/-- A trigger scan, waiting, sampling or converting (R166, R167). -/
structure Scan where
  car : Nat
  trig : Nat
  list : Nat
  at_ : Nat
  /-- Its first sampling instant, and the end of its samples. -/
  t0 : Nat := 0
  endAt : Nat := 0
  eiw : Bool := false
  late : Bool := false
  /-- Low 8 bits of the carrier's valley count at the trigger. -/
  seq : Nat := 0
  /-- The dropped scans that would have run behind it (R167). -/
  ghosts : List Ghost := []
  deriving DecidableEq, Repr

/-- A report of an overcurrent by one group (R150). -/
structure TripReport where
  axis : Nat
  phase : Nat
  positive : Bool
  group : Nat
  at_ : Nat
  deriving DecidableEq, Repr

/-- The converter groups beside their registers (R159 to R188). -/
structure Adc where
  /-- The scan that takes its samples, those whose results are due, and the queue. -/
  taking : Option Scan := none
  /-- Dropped scans whose end is known and has not yet come (R167). -/
  ghosts : List Ghost := []
  due : List Scan := []
  queue : List Scan := []
  /-- Start of the latest resolver pair, plus 1 (R195). -/
  pairAt : Nat := 0
  /-- Latest signed codes by group * 24 + input. -/
  raw : List (Nat × Int) := []
  /-- Active group of each axis (R180). -/
  act0 : Nat := 0
  act1 : Nat := 0
  /-- Castling offsets by axis * 24 + input, in 2^-12 code, and the ramp's position (R181). -/
  offs : List (Nat × Int) := []
  ramp0 : Option Nat := none
  ramp1 : Option Nat := none
  /-- Differences to the active group over the last 2^AVG LOOP scans, newest first, by
  (axis * 24 + input) * 3 + group. -/
  diffs : List (Nat × List Int) := []
  /-- LOOP scans of an axis since a group's reinstatement, by axis * 3 + group (R183). -/
  loops : List (Nat × Nat) := []
  /-- A castling waits for the axis's next LOOP scan. -/
  cast0 : Bool := false
  cast1 : Bool := false
  /-- Consecutive unmarked no-majority rounds of each axis (R176). -/
  nomaj0 : Nat := 0
  nomaj1 : Nat := 0
  /-- The input set of the axis's present update interval is formed (R168). -/
  formed0 : Bool := false
  formed1 : Bool := false
  reports : List TripReport := []
  /-- Cross-check: driving group, full rotations, held DAC codes, departures in a row (R179). -/
  xDriver : Nat := 0
  xRot : Nat := 0
  dacHeld : List (Nat × Nat) := []
  xRun : List (Nat × Nat) := []
  /-- Consecutive failed internal checks by group * 24 + input (R164). -/
  icRun : List (Nat × Nat) := []
  /-- Start of a group's starvation (R161). -/
  starveAt : List (Nat × Nat) := []
  /-- Groups and inputs of the test-DAC procedure in progress (R184). -/
  tdGroups : Nat := 0
  tdInputs : Nat := 0
  deriving DecidableEq, Repr

/-- An axis's voted input set (R168, R256). -/
structure InputSet where
  /-- Voted values of the axis's inputs: iU, iV, iW, Vdc in Q1.15. -/
  vals : List Int := [0, 0, 0, 0]
  /-- Signed codes of the unvoted inputs, by input number. -/
  ins : List (Nat × Int) := []
  missing : Bool := false
  nomaj : Nat := 0
  minority : Nat := 0
  eiw : Bool := false
  late : Bool := false
  single : Bool := false
  /-- Sampling instant of the middle voted sample (R216). -/
  mid : Nat := 0
  /-- CT of the update event of its task (R267). -/
  evCt : Nat := 0
  deriving DecidableEq, Repr

/-- A Fesil task in its program (R242 to R245). -/
structure FTask where
  axis : Nat
  set : InputSet
  /-- Serial number of the free values that its registers hold at its start (R241). -/
  base : Nat
  f : List (Nat × BitVec 32) := []
  a : List (Nat × BitVec 32) := []
  /-- Condition: 0 LT, 1 EQ, 2 GT, 3 UN; none before the first compare. -/
  cond : Option Nat := none
  pc : Nat := 0
  cyc : Nat := 60
  committed : Bool := false
  /-- Start of the task, in ns (R245). -/
  start : Nat := 0
  /-- The latest reload of its carrier whose guard was open at its start: its commit is meant for a later one (R245). -/
  missed : Option Nat := none
  deriving DecidableEq, Repr

/-- Fesil's state for one axis beside its registers (R242 to R264). -/
structure FslAxis where
  waiting : Option InputSet := none
  /-- PWM clock, plus one, at which that set became ready (R16). -/
  readyAt : Nat := 0
  /-- The set handed out when a set is MISSING. -/
  last : InputSet := {}
  pend : Option (List (BitVec 32)) := none
  inUse : List (BitVec 32) := [0#32, 0#32, 0#32, 0#32, 0#32, 0#32, 0#32, 0#32]
  /-- The latest set published otherwise than from a received I*: the axis's own set-points (R309). -/
  own : List (BitVec 32) := [0#32, 0#32, 0#32, 0#32, 0#32, 0#32, 0#32, 0#32]
  spdCnt : Nat := 0
  /-- I* between two steps of the speed loop, and the results of the prelude (R243, R256). -/
  iHold : BitVec 32 := 0#32
  iStar : BitVec 32 := 0#32
  idRef : BitVec 32 := 0#32
  iqRef : BitVec 32 := 0#32
  thI : Nat := 0
  thV : Nat := 0
  ranSpd : Bool := false
  tasks : Nat := 0
  /-- Instants of the last sixteen overruns, newest first (R263). -/
  ovrAt : List Nat := []
  /-- TRCs since the last record of the axis; a program was cut off since it (R267). -/
  trcCnt : Nat := 0
  cutSince : Bool := false
  /-- CT and instant of the latest update event; updates of the axis. -/
  evCt : Nat := 0
  evAt : Nat := 0
  /-- Length of the latest update interval. -/
  upd : Nat := 0
  deriving DecidableEq, Repr

/-- The Fesil engine beside its registers. -/
structure Fsl where
  task : Option FTask := none
  /-- Axes with a waiting set, in the order they became ready (R242). -/
  ready : List Nat := []
  /-- Program memory by half-word address / 4, coefficient memory by address / 4. -/
  prog : List (Nat × BitVec 32) := []
  coef : List (Nat × BitVec 32) := []
  /-- Trace SRAM by record * 16 + word. -/
  trace : List (Nat × BitVec 32) := []
  /-- Low halves of instructions written and waiting for their high halves, by half-word address / 4 (R266). -/
  progLow : List (Nat × BitVec 32) := []
  /-- The CRC of the program is being computed (R266). -/
  checking : Bool := false
  /-- Trace: next record, records held, the condition waits for the next record, records to go after the
  trigger, values of the latest record (R267, R268). -/
  trcNext : Nat := 0
  trcHeld : Nat := 0
  trcHit : Bool := false
  trcLeft : Option Nat := none
  trcPrev : List (BitVec 32) := []
  deriving DecidableEq, Repr

/-- A snapshot of an axis's position (R204). -/
structure Snap where
  angle : Nat := 0
  mt : Nat := 0
  speed : Int := 0
  ref : Nat := 0
  valid : Bool := false
  fail : Bool := false
  capped : Bool := false
  snap : Bool := false
  at_ : Nat := 0
  deriving DecidableEq, Repr

/-- A position interface beside its registers (R189 to R207). -/
structure PosIf where
  /-- Accepted levels of A and B. -/
  a : Bool := false
  b : Bool := false
  /-- Quadrature or tooth count, and the sum of the corrections, in 2^-32 turn (R192). -/
  count : Int := 0
  corr : Int := 0
  /-- Position of a Hall or resolver source, in 2^-32 turn. -/
  base : Int := 0
  sector : Option Nat := none
  /-- Speed as of the last edge, and the direction of travel (0 before the first edge). -/
  spd : Int := 0
  dir : Int := 0
  lastEdge : Option Nat := none
  /-- Intervals of the last edges in one direction: ns and travel in 2^-32 turn, newest first (R198). -/
  ivs : List (Nat × Int) := []
  /-- Distance to the next update position. -/
  step : Nat := 0
  /-- Toothed train: last normal interval, previous edge, and the extra-tooth flag (R194). -/
  refIv : Nat := 0
  tPrev : Option Nat := none
  inExtra : Bool := false
  teeth : Nat := 0
  /-- Accepted edges, and the numbers of illegal ones within 1,024 (R202). -/
  edges : Nat := 0
  ills : List Nat := []
  /-- MT at the previous index, and travel in one direction since it in 2^-32 turn (R201, R202). -/
  indexMt : Option Int := none
  travel : Int := 0
  lcRun : Nat := 0
  losRun : Nat := 0
  lotRun : Nat := 0
  lockRun : Nat := 0
  discRun : Nat := 0
  locked : Bool := false
  /-- Resolver sample instant, for the extrapolation. -/
  sampleAt : Nat := 0
  /-- Instant at which the excitation started, and the next crest to sample (R195). -/
  excAt : Nat := 0
  crest : Nat := 0
  /-- Instant since which a bad Hall pattern stands, and the position held meanwhile (R193, R202). -/
  hallBad : Option Nat := none
  held : Int × Bool := (0, false)
  /-- The compare has been on the near side of CMP since its last hit; instant of that hit, plus 1 (R206, R207). -/
  near : Bool := false
  hitAt : Nat := 0
  /-- A correction since the previous snapshot. -/
  snapPend : Bool := false
  snap : Snap := {}
  /-- Sequence number of the frames to Uzodar (R205). -/
  fseq : Nat := 0
  deriving DecidableEq, Repr

/-- The profile words, BASE and FORM as a GO takes them (R288). Speeds are magnitudes under R10,
accelerations in 2^-8 turn/s². -/
structure MotRegs where
  vStart : Nat := 0
  vBrk : Nat := 0
  vMax : Nat := 0
  vStop : Nat := 0
  a1 : Nat := 0
  a2 : Nat := 0
  d1 : Nat := 0
  d2 : Nat := 0
  target : Nat := 0
  base : Nat := 0
  table : Bool := false
  deriving DecidableEq, Repr

/-- One phase of a planned ramp: duration in 2^-16 ns, speed at its start in 2^-32 turn/s, acceleration
in 2^-32 turn/s². -/
structure Ramp where
  dur : Nat
  v0 : Nat
  acc : Int
  deriving DecidableEq, Repr

/-- What runs in the motion engine (R276 to R290). Positions in 2^-32 turn, instants in ns. -/
inductive MotPlan where
  /-- A trapezoid from `p0`, in the negative direction if `neg`, to `target`; entered from a table if
  `table`. -/
  | trap (p0 : Int) (t0 : Nat) (neg : Bool) (target : Int) (ramps : List Ramp) (table : Bool) (last : Bool)
  /-- A table segment: tick `k` of `n`, start state, DPOS in 2^-32 turn, VEL, and its flags. -/
  | seg (k n : Nat) (h : Nat) (p0 v0 dpos vel : Int) (last trap evt : Bool)
  /-- A deceleration to 0; then a profile from rest, if one waits. -/
  | stop (p0 : Int) (t0 : Nat) (neg : Bool) (ramps : List Ramp) (next : Bool)
  deriving DecidableEq, Repr

/-- The motion engine of one axis beside its registers (R276 to R296). -/
structure MotAxis where
  /-- p_sp in 2^-32 turn, v_sp in 2^-16 turn/s (R276). -/
  psp : Int := 0
  vsp : Int := 0
  /-- Update events since the entry to RUN, their count at the latest tick, and the instant of that tick. -/
  upds : Nat := 0
  tickUpd : Nat := 0
  tickAt : Nat := 0
  /-- A latched GO, and the registers of the last GO. -/
  goPend : Option MotRegs := none
  used : MotRegs := {}
  plan : Option MotPlan := none
  /-- Index of the running table entry; SEG shows its low 12 bits (R285). -/
  entry : Nat := 0
  /-- The registers with which the running deceleration was formed (R289, R290). -/
  stopRegs : MotRegs := {}
  /-- The running profile is replanned at the next tick (R290). -/
  replan : Bool := false
  /-- The axis has coasted since the latest tick outside coast (R290). -/
  coasted : Bool := false
  /-- A TRAP entry has run in this run of the table (R287). -/
  trapUsed : Bool := false
  feRun : Nat := 0
  /-- The reserve's event has been raised in this I/f start (R292). -/
  resTold : Bool := false
  /-- Phase accumulator in 2^-48 turn, and generator speed in 10^-9 of 2^-16 turn/s (R280, R281). -/
  acc : Nat := 0
  genSpd : Int := 0
  genAt : Nat := 0
  /-- MT stood beyond a limit by more than LIM_TOL at the latest tick (R291). -/
  beyond : Bool := false
  deriving DecidableEq, Repr

/-- A STATE frame as the taker holds it (R304): MT in its own coordinate, speed under R10, I* in Q1.15,
capture instant in CT, and the side it came from. -/
structure HovRx where
  mt : Nat
  spd : Int
  cur : Int
  tcap : Int
  up : Bool
  deriving DecidableEq, Repr

/-- The handover logic of one axis beside its registers (R297 to R315). -/
structure HovAxis where
  /-- Instant of the latest PREARM sent (R300). -/
  prearmAt : Option Nat := none
  /-- The giver drives alone to the overlap exit (R313). -/
  solo : Bool := false
  /-- Latest STATE frame, instant of its acceptance, consecutive losses (R304, R313). -/
  rx : Option HovRx := none
  rxAt : Nat := 0
  lost : Nat := 0
  /-- Consecutive ECHO frames beyond POS_TOL (R312). -/
  echoBad : Nat := 0
  /-- The latest ECHO in the axis's own coordinate, whether its source is fine, and the instant of its acceptance; the
  speed is that between the last two (R234, R312, log entry 102). -/
  echo : Option HovRx := none
  echoFine : Bool := false
  echoAt : Nat := 0
  /-- Fraction of the overlap travelled at the take, in 2^-16 (R305). -/
  u : Nat := 0
  /-- The taker has run on its own source (event 0x0B19). -/
  own : Bool := false
  /-- Ramp from the last received I* after RELEASE (R309): instant and I* in Q1.15. -/
  rampAt : Option Nat := none
  rampFrom : Int := 0
  deriving DecidableEq, Repr

/-- A record waiting in the recorder's staging (R513 to R515). -/
structure RecItem where
  rnum : Nat
  ct : Nat
  kind : Nat
  conf : Bool
  payload : List Byte
  deriving DecidableEq, Repr

/-- What a block of the medium holds (R509, R510, R518). -/
inductive BlkUse where
  | free | bad | anchor
  | part (obj : Nat)
  | jlog | elog
  deriving DecidableEq, Repr

/-- A block of the medium: its use, whether it is erased, its erase count, and its LIVE pages, which are the
first ones (R509, R518, R523). -/
structure Blk where
  use : BlkUse := .free
  erased : Bool := true
  erases : Nat := 0
  live : Nat := 0
  deriving DecidableEq, Repr

/-- A journal mirror page: its block, its place in it, its entries, its hash, its metadata, and whether it can be read
(R507, R512). -/
structure JPage where
  blk : Nat
  page : Nat
  entries : List JEntry
  hash : List Byte
  tag : List Byte
  good : Bool := true
  deriving DecidableEq, Repr

/-- An event page: its block, its place in it, its records, its metadata, and whether it can be read (R507, R514, R515). -/
structure EPage where
  blk : Nat
  page : Nat
  items : List RecItem
  tag : List Byte
  good : Bool := true
  deriving DecidableEq, Repr

/-- A log on the medium: its blocks, oldest first, the pages used in the last one, the erased block in reserve, and the
sequence number of its next page (R507, R519). -/
structure RLog where
  blocks : List Nat := []
  used : Nat := 0
  reserve : Option Nat := none
  seq : Nat := 0
  deriving DecidableEq, Repr

/-- A signed object in a static partition: its blocks, its bytes, the metadata of its pages, and whether every page can be
read (R507). -/
structure FlashObj where
  blocks : List Nat := []
  bytes : List Byte := []
  tags : List (List Byte) := []
  good : Bool := true
  deriving DecidableEq, Repr

/-- The flash medium, which keeps everything through a total loss of power (R504 to R523). No anchor record
stands on it at first (log entry 32). Objects: 0 image A, 1 image B, 2 C0, 3 C1. -/
structure Medium where
  formatted : Bool := false
  /-- Number of blocks of the CS0 device, and of both devices. -/
  cs0 : Nat := 0
  size : Nat := 0
  fmtid : Nat := 0
  blks : List (Nat × Blk) := []
  /-- Generation of the newest anchor record (R507, R509). -/
  gen : Nat := 0
  /-- It stands in the second of the two anchor blocks, and the pages of its block used so far (R509). -/
  anchorCur : Bool := false
  anchorUsed : Nat := 0
  /-- The boot record: first-choice image slot and configuration copy. -/
  bootSlot : Nat := 0
  bootCopy : Nat := 0
  objs : List (Nat × FlashObj) := []
  jlog : RLog := {}
  elog : RLog := {}
  jpages : List JPage := []
  epages : List EPage := []
  /-- The journal mirror, or the event log, ends at a page whose program was interrupted (R520). -/
  tornJ : Bool := false
  tornE : Bool := false
  /-- SHA-384 of the batch just before the oldest retained one (R509, R512). -/
  jbase : List Byte := []
  /-- Chain time of the last complete scrub pass (R525). -/
  scrubAt : Nat := 0
  /-- The event log ends with a close page (R519, R521). -/
  closed : Bool := true
  /-- The Keys partition: the wrapped identity keys, and the device certificates (R396, R510). -/
  keys : Option (List Byte) := some Config.wrappedKeys
  certs : List Byte := Config.certificates
  deriving DecidableEq, Repr

/-- A page program, or a run of them, in the order of R519. -/
inductive Prog where
  | journal (entries : List JEntry)
  | events (items : List RecItem)
  | close
  /-- A part of an object: the pages still to program. -/
  | part (cmd : Cmd) (data : List Byte) (last : Bool) (pages : Nat)
  /-- The anchor record that makes a staged object, or a boot record, stand. -/
  | object (cmd : Cmd)
  | boot (cmd : Cmd) (slot copy : Nat)
  deriving DecidableEq, Repr

/-- A staging in progress (R528): what it replaces (0 to 3, 4 a revocation), its bytes so far, its blocks, and
the metadata of its pages. -/
structure Staging where
  obj : Nat
  bytes : List Byte
  blocks : List Nat
  tags : List (List Byte) := []
  deriving DecidableEq, Repr

/-- The recorder beside its registers and its medium. -/
structure Recorder where
  staging : List RecItem := []
  staged : Nat := 0
  rnum : Nat := 0
  /-- Instant of the first record staged since the last page (R514). -/
  stagedAt : Option Nat := none
  /-- Event 0x0F0A is due once the staging has space (R514). -/
  dropTold : Bool := false
  progs : List Prog := []
  /-- A page program had started when the ban began; it completes (R526). -/
  begun : Bool := false
  stage : Option Staging := none
  /-- Objects staged and not yet activated (R395). -/
  ready : List Nat := []
  /-- REC_MARK commands that wait for the commit of their record, by record number (R421). -/
  marks : List (Nat × Cmd) := []
  /-- Pages of the current scrub pass already read (R525). -/
  scrubPos : Nat := 0
  /-- Instant of the scrubber's latest read (R525). -/
  scrubbed : Option Nat := none
  /-- Instant of the last static wear-levelling move (R523). -/
  movedAt : Option Nat := none
  /-- Instant since which NTC3 has read inside the lift window (R526, R536). -/
  liftFrom : Option Nat := none
  deriving DecidableEq, Repr

/-- What the boot and the security engine hold beside their registers (R381 to R406). -/
structure Security where
  /-- OTP bytes blown since delivery; any other byte is as delivered (R381). -/
  otp : List (Nat × Byte) := []
  /-- First 512 bytes of the manifest of the running image and of the loaded configuration (R397). -/
  imgManifest : List Byte := []
  cfgManifest : List Byte := []
  /-- Events of the boot, posted when the firmware starts (R406). -/
  bootEvents : List (Nat × Nat) := []
  /-- The latest challenge's nonce, and its bytes 0 to 47 as they were read (R400). -/
  nonce : Option (List Byte) := none
  chal : List Byte := []
  /-- The boot ROM awaits a recovery image after a restart that found none (R389, R390). -/
  again : Bool := false
  /-- A report being signed: its command and the CT at its start (R397). -/
  attest : Option (Cmd × Nat) := none
  deriving DecidableEq, Repr

/-- A transmission pending in a controller (R493). -/
structure CanTx where
  obj : Nat
  cmd : Cmd
  since : Nat
  deriving DecidableEq, Repr

/-- A CAN controller beside its registers (R485 to R503). -/
structure CanCtl where
  objs : List (Nat × CanObj) := []
  pend : List CanTx := []
  /-- The START that waits for integration (R491). -/
  starting : Option Cmd := none
  /-- Bus-off recovery runs, and the RECOVER that waits for it (R498). -/
  recovering : Bool := false
  recCmd : Option Cmd := none
  /-- The STOPs that wait for the end of the frame on the bus (R491, R501). -/
  stopping : List Cmd := []
  deriving DecidableEq, Repr

/-- Housekeeping beside its registers (R532 to R545): runs of consecutive rounds by condition, and the
conditions that hold. -/
structure Housekeeping where
  runs : List (Nat × Nat) := []
  held : List Nat := []
  deriving DecidableEq, Repr

/-- The state of the module. -/
structure State where
  /-- Instant of the latest command, in ns since AO power-on (log entry 4). -/
  now : Nat := 0
  /-- Chain time in ns (R11). -/
  ct : Nat := 0
  /-- Billionths of a ns by which CT has run on under CHN_ROOT_TRIM (R474). -/
  ctFine : Nat := 0
  /-- Register words that differ from their reset values, by BAR0 offset (R4). -/
  regs : List (Nat × BitVec 32) := []
  /-- Bits the module has set of late, with their register and instant (R7). -/
  sets : List (Nat × BitVec 32 × Nat) := []
  /-- Supplies, clocks, sequences. -/
  power : Power := {}
  /-- Pads that no register shows. -/
  pins : Pins := {}
  /-- Uzodar, module-wide and by axis. -/
  saf : Uzodar := {}
  uzs : List (Nat × UzAxis) := []
  /-- Host interface, core cluster, journal, chain, recorder. -/
  hif : HostIf := {}
  cores : Cores := {}
  jrn : Journal := {}
  chain : Chain := {}
  /-- Gate channels by number (default: no link). -/
  gates : List (Nat × GateCh) := []
  /-- Gate diagnostics in progress. -/
  diag : GateDiag := {}
  /-- PWM carriers by number. -/
  carriers : List (Nat × Carrier) := []
  /-- Consecutive failed delay-line calibrations (R131). -/
  calFails : Nat := 0
  /-- Converter groups. -/
  adc : Adc := {}
  /-- The Fesil engine. -/
  fsl : Fsl := {}
  /-- Fesil per axis. -/
  fslAx : List (Nat × FslAxis) := []
  /-- Position interfaces. -/
  poss : List (Nat × PosIf) := []
  /-- Field control by axis. -/
  fields : List (Nat × FieldAxis) := []
  /-- Motion engine by axis. -/
  mots : List (Nat × MotAxis) := []
  /-- Handover logic by axis. -/
  hovs : List (Nat × HovAxis) := []
  /-- Instant of the last vehicle's release (R311). -/
  hovIdle : Option Nat := none
  /-- The axis of that release. -/
  hovIdleAx : Nat := 0
  /-- Handover frames on their way between the module's two axes: receiver, type and payload (R297). -/
  hovMail : List (Nat × Nat × List Byte) := []
  /-- Recorder. -/
  recd : Recorder := {}
  /-- Command of the brake test in progress (R346). -/
  btCmd : Option Cmd := none
  /-- DISCHARGE commands that wait for the end of the discharge (R350, R421). -/
  dchCmds : List Cmd := []
  /-- The flash medium. -/
  med : Medium := {}
  /-- Boot and security. -/
  sec : Security := {}
  /-- CAN0. -/
  can0 : CanCtl := {}
  /-- CAN1. -/
  can1 : CanCtl := {}
  /-- Instant at which the CAN clock started (R495). -/
  canFrom : Option Nat := none
  /-- CAN_TS at that instant (R57). -/
  canBase : Nat := 0
  /-- Housekeeping. -/
  hkp : Housekeeping := {}
  /-- Shared SRAM, 1 MiB (R360, R409); an unlisted byte reads 0. -/
  sram : List Host.Cell := []
  /-- What has left the module, oldest first. -/
  outbox : List Output := []
  /-- Serial number of the next free value; the model's own (log entry 3). -/
  fresh : Nat := 0
  /-- Commands that wait, first in, first out. -/
  pending : List Instr := []
  deriving DecidableEq, Repr

/-- No command of this model faults: the spec describes what every one of them does. -/
inductive Fault where
  deriving DecidableEq, Repr

/-- Commands without a meaning. -/
inductive Refusal where
  /-- Raised by a command whose meaning is not written yet; safe: nothing happens. -/
  | notModelled (mnemonic : String)
  deriving DecidableEq, Repr

/-- AO power-on (R50, R61, R567): AO powers up with no state and starts from Winter; nothing else is powered.
Registers stand at their reset values, memories list nothing, no command waits. -/
def State.reset : State := {}

end Sys2Proof.Machine
end

