-- ==== Sys2Proof/Machine/RegMap.lean ====
section
/-!
DEFINITION. The register map of the module: the offset of every register of the index R572, the bit
positions, access types, reset value and reset class of every field the register maps of the spec give
(R4 to R6, R564, R567, R572 and the map of each chapter).
-/

namespace Sys2Proof.Machine

/-- A field of a register: byte offset in BAR0, lowest bit, width. -/
structure Fld where
  off : Nat
  lo : Nat
  w : Nat
  deriving DecidableEq, Repr

/-- The reset classes of R567. -/
inductive RegClass where
  | fixed | ao | safe | lock | cpu | ctl | ana | comm | link
  deriving DecidableEq, Repr

/-- One family of registers: `n1` × `n2` registers at `base + s1 * i + s2 * j`, with the masks of the
access types of R6 and the value the family's reset class sets. -/
structure RegRow where
  base : Nat
  n1 : Nat
  s1 : Nat
  n2 : Nat
  s2 : Nat
  reset : Nat
  rw : Nat
  w1c : Nat
  bl : Nat
  wo : Nat
  cls : RegClass
  deriving DecidableEq, Repr

/-- R571 of 22_register_index.md. -/
def R.SYS_ID : Nat := 0x0
def F.SYS_ID_PART : Fld := ⟨R.SYS_ID, 0, 16⟩
def F.SYS_ID_REV : Fld := ⟨R.SYS_ID, 16, 8⟩
/-- R571 of 22_register_index.md. -/
def R.SYS_SERIAL_LO : Nat := 0x8
def F.SYS_SERIAL_LO_SERIAL : Fld := ⟨R.SYS_SERIAL_LO, 0, 32⟩
/-- R571 of 22_register_index.md. -/
def R.SYS_SERIAL_HI : Nat := 0xC
def F.SYS_SERIAL_HI_SERIAL : Fld := ⟨R.SYS_SERIAL_HI, 0, 32⟩
/-- R571 of 22_register_index.md. -/
def R.SYS_PRESENT : Nat := 0x10
def F.SYS_PRESENT_CC12 : Fld := ⟨R.SYS_PRESENT, 0, 1⟩
def F.SYS_PRESENT_ADCBC : Fld := ⟨R.SYS_PRESENT, 1, 1⟩
def F.SYS_PRESENT_GC_LO : Fld := ⟨R.SYS_PRESENT, 2, 1⟩
def F.SYS_PRESENT_GC_HI : Fld := ⟨R.SYS_PRESENT, 3, 1⟩
def F.SYS_PRESENT_CHAIN : Fld := ⟨R.SYS_PRESENT, 4, 1⟩
def F.SYS_PRESENT_TL : Fld := ⟨R.SYS_PRESENT, 5, 1⟩
def F.SYS_PRESENT_AX1 : Fld := ⟨R.SYS_PRESENT, 6, 1⟩
/-- R62 of 03_power_clocks_modes.md. -/
def R.SYS_MODE : Nat := 0x20
def F.SYS_MODE_MODE : Fld := ⟨R.SYS_MODE, 0, 4⟩
def F.SYS_MODE_PHASE : Fld := ⟨R.SYS_MODE, 4, 2⟩
def F.SYS_MODE_AX0_MODE : Fld := ⟨R.SYS_MODE, 8, 4⟩
def F.SYS_MODE_AX1_MODE : Fld := ⟨R.SYS_MODE, 12, 4⟩
def F.SYS_MODE_RUN_OK : Fld := ⟨R.SYS_MODE, 16, 1⟩
def F.SYS_MODE_LAST_MODE : Fld := ⟨R.SYS_MODE, 20, 4⟩
/-- R60 of 03_power_clocks_modes.md. -/
def R.PCK_PLL_STAT : Nat := 0x10010
def F.PCK_PLL_STAT_PLLA_LOCK : Fld := ⟨R.PCK_PLL_STAT, 0, 1⟩
def F.PCK_PLL_STAT_PLLB_LOCK : Fld := ⟨R.PCK_PLL_STAT, 1, 1⟩
def F.PCK_PLL_STAT_REF_XTAL : Fld := ⟨R.PCK_PLL_STAT, 2, 1⟩
def F.PCK_PLL_STAT_XTAL_FAIL : Fld := ⟨R.PCK_PLL_STAT, 3, 1⟩
def F.PCK_PLL_STAT_PLLA_LOSS : Fld := ⟨R.PCK_PLL_STAT, 4, 1⟩
def F.PCK_PLL_STAT_PLLB_LOSS : Fld := ⟨R.PCK_PLL_STAT, 5, 1⟩
def F.PCK_PLL_STAT_BYPASS_A : Fld := ⟨R.PCK_PLL_STAT, 6, 1⟩
def F.PCK_PLL_STAT_BYPASS_B : Fld := ⟨R.PCK_PLL_STAT, 7, 1⟩
def F.PCK_PLL_STAT_LOSS_CNT : Fld := ⟨R.PCK_PLL_STAT, 8, 8⟩
def F.PCK_PLL_STAT_LOSS_SAT : Fld := ⟨R.PCK_PLL_STAT, 16, 1⟩
/-- R68 of 03_power_clocks_modes.md. -/
def R.PCK_WAKE_SRC : Nat := 0x10020
def F.PCK_WAKE_SRC_POWER_ON : Fld := ⟨R.PCK_WAKE_SRC, 0, 1⟩
def F.PCK_WAKE_SRC_WAKE_PIN : Fld := ⟨R.PCK_WAKE_SRC, 1, 1⟩
def F.PCK_WAKE_SRC_CAN0 : Fld := ⟨R.PCK_WAKE_SRC, 2, 1⟩
def F.PCK_WAKE_SRC_CAN1 : Fld := ⟨R.PCK_WAKE_SRC, 3, 1⟩
def F.PCK_WAKE_SRC_ALARM : Fld := ⟨R.PCK_WAKE_SRC, 4, 1⟩
def F.PCK_WAKE_SRC_CHAIN_UP : Fld := ⟨R.PCK_WAKE_SRC, 5, 1⟩
def F.PCK_WAKE_SRC_CHAIN_DOWN : Fld := ⟨R.PCK_WAKE_SRC, 6, 1⟩
def F.PCK_WAKE_SRC_RESET_PIN : Fld := ⟨R.PCK_WAKE_SRC, 7, 1⟩
def F.PCK_WAKE_SRC_THAW_ABORT : Fld := ⟨R.PCK_WAKE_SRC, 8, 1⟩
/-- R68 of 03_power_clocks_modes.md. -/
def R.PCK_WAKE_EN : Nat := 0x10024
def F.PCK_WAKE_EN_POWER_ON : Fld := ⟨R.PCK_WAKE_EN, 0, 1⟩
def F.PCK_WAKE_EN_WAKE_PIN : Fld := ⟨R.PCK_WAKE_EN, 1, 1⟩
def F.PCK_WAKE_EN_CAN0 : Fld := ⟨R.PCK_WAKE_EN, 2, 1⟩
def F.PCK_WAKE_EN_CAN1 : Fld := ⟨R.PCK_WAKE_EN, 3, 1⟩
def F.PCK_WAKE_EN_ALARM : Fld := ⟨R.PCK_WAKE_EN, 4, 1⟩
def F.PCK_WAKE_EN_CHAIN_UP : Fld := ⟨R.PCK_WAKE_EN, 5, 1⟩
def F.PCK_WAKE_EN_CHAIN_DOWN : Fld := ⟨R.PCK_WAKE_EN, 6, 1⟩
def F.PCK_WAKE_EN_RESET_PIN : Fld := ⟨R.PCK_WAKE_EN, 7, 1⟩
def F.PCK_WAKE_EN_THAW_ABORT : Fld := ⟨R.PCK_WAKE_EN, 8, 1⟩
/-- R69 of 03_power_clocks_modes.md. -/
def R.PCK_ALARM : Nat := 0x10028
def F.PCK_ALARM_ALARM_S : Fld := ⟨R.PCK_ALARM, 0, 32⟩
/-- R393 of 14_boot_and_security.md. -/
def R.BLK_CTL : Nat := 0x20000
def F.BLK_CTL_LOCK : Fld := ⟨R.BLK_CTL, 0, 1⟩
def F.BLK_CTL_CFG_COPY : Fld := ⟨R.BLK_CTL, 1, 1⟩
def F.BLK_CTL_NO_CFG : Fld := ⟨R.BLK_CTL, 2, 1⟩
/-- R393 of 14_boot_and_security.md. -/
def R.BLK_WR_IGN : Nat := 0x20004
def F.BLK_WR_IGN_CNT : Fld := ⟨R.BLK_WR_IGN, 0, 16⟩
def F.BLK_WR_IGN_LAST_SRC : Fld := ⟨R.BLK_WR_IGN, 16, 2⟩
def F.BLK_WR_IGN_SAT : Fld := ⟨R.BLK_WR_IGN, 31, 1⟩
/-- R393 of 14_boot_and_security.md. -/
def R.BLK_ROLE : Nat := 0x20008
def F.BLK_ROLE_ROLE : Fld := ⟨R.BLK_ROLE, 0, 2⟩
def F.BLK_ROLE_ROOT : Fld := ⟨R.BLK_ROLE, 2, 1⟩
def F.BLK_ROLE_END : Fld := ⟨R.BLK_ROLE, 3, 1⟩
def F.BLK_ROLE_RING : Fld := ⟨R.BLK_ROLE, 4, 1⟩
/-- R393 of 14_boot_and_security.md. -/
def R.BLK_STAGE : Nat := 0x2000C
def F.BLK_STAGE_THREE_LEVEL : Fld := ⟨R.BLK_STAGE, 0, 1⟩
def F.BLK_STAGE_AX1_UNUSED : Fld := ⟨R.BLK_STAGE, 1, 1⟩
/-- R393 of 14_boot_and_security.md. -/
def R.BLK_DBG : Nat := 0x20010
def F.BLK_DBG_POLICY : Fld := ⟨R.BLK_DBG, 0, 2⟩
def F.BLK_DBG_HALT : Fld := ⟨R.BLK_DBG, 2, 1⟩
def F.BLK_DBG_MEM : Fld := ⟨R.BLK_DBG, 3, 1⟩
/-- R329 of 12_uzodar_safety.md. -/
def R.BLK_SST (k : Nat) : Nat := 0x20100 + 0x4 * k
def F.BLK_SST_GATE (k : Nat) : Fld := ⟨R.BLK_SST k, 0, 3⟩
def F.BLK_SST_MODE (k : Nat) : Fld := ⟨R.BLK_SST k, 4, 2⟩
def F.BLK_SST_OTHER (k : Nat) : Fld := ⟨R.BLK_SST k, 6, 2⟩
def F.BLK_SST_CO0 (k : Nat) : Fld := ⟨R.BLK_SST k, 8, 1⟩
def F.BLK_SST_DCH (k : Nat) : Fld := ⟨R.BLK_SST k, 9, 1⟩
/-- R357 of 12_uzodar_safety.md. -/
def R.BLK_STO : Nat := 0x20180
def F.BLK_STO_STO_FILT : Fld := ⟨R.BLK_STO, 0, 8⟩
def F.BLK_STO_DISC_T : Fld := ⟨R.BLK_STO, 8, 8⟩
def F.BLK_STO_STO_MODE : Fld := ⟨R.BLK_STO, 16, 1⟩
/-- R357 of 12_uzodar_safety.md. -/
def R.BLK_SS1 : Nat := 0x20184
def F.BLK_SS1_SS1_T : Fld := ⟨R.BLK_SS1, 0, 16⟩
def F.BLK_SS1_SS1_ZERO : Fld := ⟨R.BLK_SS1, 16, 16⟩
/-- R357 of 12_uzodar_safety.md. -/
def R.BLK_LIMP : Nat := 0x20188
def F.BLK_LIMP_LIMP_I : Fld := ⟨R.BLK_LIMP, 0, 16⟩
def F.BLK_LIMP_LIMP_MAX_S : Fld := ⟨R.BLK_LIMP, 16, 10⟩
/-- R357 of 12_uzodar_safety.md. -/
def R.BLK_LIMP_SPD : Nat := 0x2018C
def F.BLK_LIMP_SPD_LIMP_SPD : Fld := ⟨R.BLK_LIMP_SPD, 0, 32⟩
/-- R357 of 12_uzodar_safety.md. -/
def R.BLK_TMON : Nat := 0x20190
def F.BLK_TMON_BAND : Fld := ⟨R.BLK_TMON, 0, 16⟩
def F.BLK_TMON_TMON_T : Fld := ⟨R.BLK_TMON, 16, 8⟩
/-- R357 of 12_uzodar_safety.md. -/
def R.BLK_LIMITS : Nat := 0x20194
def F.BLK_LIMITS_I_ABS : Fld := ⟨R.BLK_LIMITS, 0, 16⟩
def F.BLK_LIMITS_VDC_MAX : Fld := ⟨R.BLK_LIMITS, 16, 16⟩
/-- R357 of 12_uzodar_safety.md. -/
def R.BLK_ASC : Nat := 0x20198
def F.BLK_ASC_PREF_HALF : Fld := ⟨R.BLK_ASC, 0, 1⟩
def F.BLK_ASC_ASC_EXIT : Fld := ⟨R.BLK_ASC, 8, 8⟩
def F.BLK_ASC_CORE_T : Fld := ⟨R.BLK_ASC, 16, 8⟩
/-- R357 of 12_uzodar_safety.md. -/
def R.BLK_TSCALE (a : Nat) : Nat := 0x2019C + 0x4 * a
def F.BLK_TSCALE_IFS_U (a : Nat) : Fld := ⟨R.BLK_TSCALE a, 0, 16⟩
def F.BLK_TSCALE_KT_U (a : Nat) : Fld := ⟨R.BLK_TSCALE a, 16, 16⟩
/-- R357 of 12_uzodar_safety.md. -/
def R.BLK_SO : Nat := 0x201A4
def F.BLK_SO_FUNC0 : Fld := ⟨R.BLK_SO, 0, 3⟩
def F.BLK_SO_FUNC1 : Fld := ⟨R.BLK_SO, 3, 3⟩
def F.BLK_SO_FUNC2 : Fld := ⟨R.BLK_SO, 6, 3⟩
def F.BLK_SO_FUNC3 : Fld := ⟨R.BLK_SO, 9, 3⟩
def F.BLK_SO_FUNC4 : Fld := ⟨R.BLK_SO, 12, 3⟩
def F.BLK_SO_FUNC5 : Fld := ⟨R.BLK_SO, 15, 3⟩
/-- R357 of 12_uzodar_safety.md. -/
def R.BLK_TP : Nat := 0x201A8
def F.BLK_TP_TP_W : Fld := ⟨R.BLK_TP, 0, 8⟩
def F.BLK_TP_TP_PER : Fld := ⟨R.BLK_TP, 8, 8⟩
def F.BLK_TP_BRK_T : Fld := ⟨R.BLK_TP, 16, 8⟩
/-- R357 of 12_uzodar_safety.md. -/
def R.BLK_CON : Nat := 0x201AC
def F.BLK_CON_FB_T : Fld := ⟨R.BLK_CON, 0, 8⟩
def F.BLK_CON_PRECH_MIN : Fld := ⟨R.BLK_CON, 8, 8⟩
def F.BLK_CON_PRECH_MAX : Fld := ⟨R.BLK_CON, 16, 8⟩
/-- R357 of 12_uzodar_safety.md. -/
def R.BLK_PRECH : Nat := 0x201B0
def F.BLK_PRECH_PRECH_V : Fld := ⟨R.BLK_PRECH, 0, 16⟩
/-- R357 of 12_uzodar_safety.md. -/
def R.BLK_DCH : Nat := 0x201B4
def F.BLK_DCH_DCH_VSAFE : Fld := ⟨R.BLK_DCH, 0, 16⟩
def F.BLK_DCH_DCH_TMAX : Fld := ⟨R.BLK_DCH, 16, 8⟩
def F.BLK_DCH_DCH_COOL : Fld := ⟨R.BLK_DCH, 24, 8⟩
/-- R357 of 12_uzodar_safety.md. -/
def R.BLK_BTEST : Nat := 0x201B8
def F.BLK_BTEST_TEST_I : Fld := ⟨R.BLK_BTEST, 0, 16⟩
def F.BLK_BTEST_TEST_T : Fld := ⟨R.BLK_BTEST, 16, 8⟩
def F.BLK_BTEST_TEST_MOVE : Fld := ⟨R.BLK_BTEST, 24, 8⟩
/-- R357 of 12_uzodar_safety.md. -/
def R.BLK_BTINT : Nat := 0x201BC
def F.BLK_BTINT_BT_INT : Fld := ⟨R.BLK_BTINT, 0, 16⟩
def F.BLK_BTINT_BT_ENF : Fld := ⟨R.BLK_BTINT, 16, 1⟩
/-- R433 of 15_host_rings.md. -/
def R.HIF_CTL : Nat := 0x30000
def F.HIF_CTL_WD_EN : Fld := ⟨R.HIF_CTL, 0, 1⟩
def F.HIF_CTL_WD_T : Fld := ⟨R.HIF_CTL, 8, 8⟩
def F.HIF_CTL_IRQ_HOLD : Fld := ⟨R.HIF_CTL, 16, 8⟩
/-- R433 of 15_host_rings.md. -/
def R.HIF_STAT : Nat := 0x30004
def F.HIF_STAT_LINK_UP : Fld := ⟨R.HIF_STAT, 0, 1⟩
def F.HIF_STAT_WD_EXP : Fld := ⟨R.HIF_STAT, 1, 1⟩
def F.HIF_STAT_WR_IGN : Fld := ⟨R.HIF_STAT, 2, 1⟩
def F.HIF_STAT_FLR : Fld := ⟨R.HIF_STAT, 3, 1⟩
def F.HIF_STAT_LINK_LOSS : Fld := ⟨R.HIF_STAT, 4, 1⟩
def F.HIF_STAT_RING_ERR : Fld := ⟨R.HIF_STAT, 8, 11⟩
/-- R412 of 15_host_rings.md. -/
def R.HIF_RBASE_LO (r : Nat) : Nat := 0x30100 + 0x20 * r
def F.HIF_RBASE_LO_BASE (r : Nat) : Fld := ⟨R.HIF_RBASE_LO r, 0, 32⟩
/-- R412 of 15_host_rings.md. -/
def R.HIF_RBASE_HI (r : Nat) : Nat := 0x30104 + 0x20 * r
def F.HIF_RBASE_HI_BASE (r : Nat) : Fld := ⟨R.HIF_RBASE_HI r, 0, 32⟩
/-- R412 of 15_host_rings.md. -/
def R.HIF_RCFG (r : Nat) : Nat := 0x30108 + 0x20 * r
def F.HIF_RCFG_SIZE (r : Nat) : Fld := ⟨R.HIF_RCFG r, 0, 4⟩
def F.HIF_RCFG_LOC (r : Nat) : Fld := ⟨R.HIF_RCFG r, 4, 1⟩
def F.HIF_RCFG_IRQ_EN (r : Nat) : Fld := ⟨R.HIF_RCFG r, 5, 1⟩
def F.HIF_RCFG_VEC (r : Nat) : Fld := ⟨R.HIF_RCFG r, 6, 5⟩
def F.HIF_RCFG_NOTIFY (r : Nat) : Fld := ⟨R.HIF_RCFG r, 11, 1⟩
def F.HIF_RCFG_EN (r : Nat) : Fld := ⟨R.HIF_RCFG r, 31, 1⟩
/-- R412 of 15_host_rings.md. -/
def R.HIF_RSHD_LO (r : Nat) : Nat := 0x3010C + 0x20 * r
def F.HIF_RSHD_LO_SHD (r : Nat) : Fld := ⟨R.HIF_RSHD_LO r, 0, 32⟩
/-- R412 of 15_host_rings.md. -/
def R.HIF_RSHD_HI (r : Nat) : Nat := 0x30110 + 0x20 * r
def F.HIF_RSHD_HI_SHD (r : Nat) : Fld := ⟨R.HIF_RSHD_HI r, 0, 32⟩
/-- R412 of 15_host_rings.md. -/
def R.HIF_RIDX (r : Nat) : Nat := 0x30114 + 0x20 * r
def F.HIF_RIDX_PROD (r : Nat) : Fld := ⟨R.HIF_RIDX r, 0, 16⟩
def F.HIF_RIDX_CONS (r : Nat) : Fld := ⟨R.HIF_RIDX r, 16, 16⟩
/-- R412 of 15_host_rings.md. -/
def R.HIF_RCNT (r : Nat) : Nat := 0x30118 + 0x20 * r
def F.HIF_RCNT_CNT (r : Nat) : Fld := ⟨R.HIF_RCNT r, 0, 16⟩
def F.HIF_RCNT_SAT (r : Nat) : Fld := ⟨R.HIF_RCNT r, 31, 1⟩
/-- R431 of 15_host_rings.md. -/
def R.HIF_TLM_CFG (s : Nat) : Nat := 0x30400 + 0x40 * s
def F.HIF_TLM_CFG_EN (s : Nat) : Fld := ⟨R.HIF_TLM_CFG s, 0, 1⟩
def F.HIF_TLM_CFG_NVAL (s : Nat) : Fld := ⟨R.HIF_TLM_CFG s, 1, 4⟩
def F.HIF_TLM_CFG_PERIOD (s : Nat) : Fld := ⟨R.HIF_TLM_CFG s, 16, 16⟩
/-- R431 of 15_host_rings.md. -/
def R.HIF_TLM_VF (s : Nat) : Nat := 0x30404 + 0x40 * s
def F.HIF_TLM_VF_VALID_FOR (s : Nat) : Fld := ⟨R.HIF_TLM_VF s, 0, 32⟩
/-- R431 of 15_host_rings.md. -/
def R.HIF_TLM_ITEM (s : Nat) (i : Nat) : Nat := 0x30408 + 0x40 * s + 0x4 * i
def F.HIF_TLM_ITEM_ITEM (s : Nat) (i : Nat) : Fld := ⟨R.HIF_TLM_ITEM s i, 0, 32⟩
/-- R431 of 15_host_rings.md. -/
def R.HIF_TLM_SEQ (s : Nat) : Nat := 0x3042C + 0x40 * s
def F.HIF_TLM_SEQ_SEQ (s : Nat) : Fld := ⟨R.HIF_TLM_SEQ s, 0, 32⟩
/-- R413 of 15_host_rings.md. -/
def R.HIF_DB (r : Nat) : Nat := 0x31000 + 0x4 * r
def F.HIF_DB_IDX (r : Nat) : Fld := ⟨R.HIF_DB r, 0, 16⟩
/-- R450 of 16_journal_and_recovery.md. -/
def R.JRN_HEAD_SEQ_LO : Nat := 0x40000
def F.JRN_HEAD_SEQ_LO_SEQ : Fld := ⟨R.JRN_HEAD_SEQ_LO, 0, 32⟩
/-- R450 of 16_journal_and_recovery.md. -/
def R.JRN_HEAD_SEQ_HI : Nat := 0x40004
def F.JRN_HEAD_SEQ_HI_SEQ : Fld := ⟨R.JRN_HEAD_SEQ_HI, 0, 32⟩
/-- R450 of 16_journal_and_recovery.md. -/
def R.JRN_MIRROR_SEQ_LO : Nat := 0x40008
def F.JRN_MIRROR_SEQ_LO_SEQ : Fld := ⟨R.JRN_MIRROR_SEQ_LO, 0, 32⟩
/-- R450 of 16_journal_and_recovery.md. -/
def R.JRN_MIRROR_SEQ_HI : Nat := 0x4000C
def F.JRN_MIRROR_SEQ_HI_SEQ : Fld := ⟨R.JRN_MIRROR_SEQ_HI, 0, 32⟩
/-- R450 of 16_journal_and_recovery.md. -/
def R.JRN_HEAD_HSEQ_LO (n : Nat) : Nat := 0x40010 + 0x8 * n
def F.JRN_HEAD_HSEQ_LO_SEQ (n : Nat) : Fld := ⟨R.JRN_HEAD_HSEQ_LO n, 0, 32⟩
/-- R450 of 16_journal_and_recovery.md. -/
def R.JRN_HEAD_HSEQ_HI (n : Nat) : Nat := 0x40014 + 0x8 * n
def F.JRN_HEAD_HSEQ_HI_SEQ (n : Nat) : Fld := ⟨R.JRN_HEAD_HSEQ_HI n, 0, 32⟩
/-- R450 of 16_journal_and_recovery.md. -/
def R.JRN_TAIL_SEQ_LO : Nat := 0x40030
def F.JRN_TAIL_SEQ_LO_SEQ : Fld := ⟨R.JRN_TAIL_SEQ_LO, 0, 32⟩
/-- R450 of 16_journal_and_recovery.md. -/
def R.JRN_TAIL_SEQ_HI : Nat := 0x40034
def F.JRN_TAIL_SEQ_HI_SEQ : Fld := ⟨R.JRN_TAIL_SEQ_HI, 0, 32⟩
/-- R450 of 16_journal_and_recovery.md. -/
def R.JRN_STAT : Nat := 0x40038
def F.JRN_STAT_BAN : Fld := ⟨R.JRN_STAT, 0, 1⟩
def F.JRN_STAT_MIR_ERR : Fld := ⟨R.JRN_STAT, 1, 1⟩
def F.JRN_STAT_FULL : Fld := ⟨R.JRN_STAT, 2, 1⟩
def F.JRN_STAT_GAP : Fld := ⟨R.JRN_STAT, 3, 1⟩
def F.JRN_STAT_UNMIR : Fld := ⟨R.JRN_STAT, 16, 12⟩
/-- R450 of 16_journal_and_recovery.md. -/
def R.JRN_OPEN : Nat := 0x4003C
def F.JRN_OPEN_OPEN : Fld := ⟨R.JRN_OPEN, 0, 16⟩
/-- R450 of 16_journal_and_recovery.md. -/
def R.JRN_CNT : Nat := 0x40040
def F.JRN_CNT_BUSY_CNT : Fld := ⟨R.JRN_CNT, 0, 16⟩
def F.JRN_CNT_MIR_FAIL : Fld := ⟨R.JRN_CNT, 16, 8⟩
def F.JRN_CNT_SAT : Fld := ⟨R.JRN_CNT, 31, 1⟩
/-- R377 of 13_control_cores.md. -/
def R.CPX_CKPT_CFG : Nat := 0x50000
def F.CPX_CKPT_CFG_SRC : Fld := ⟨R.CPX_CKPT_CFG, 0, 1⟩
def F.CPX_CKPT_CFG_DIV : Fld := ⟨R.CPX_CKPT_CFG, 8, 8⟩
def F.CPX_CKPT_CFG_PERIOD : Fld := ⟨R.CPX_CKPT_CFG, 16, 16⟩
/-- R378 of 13_control_cores.md. -/
def R.CPX_STAT : Nat := 0x50004
def F.CPX_STAT_PRESENT : Fld := ⟨R.CPX_STAT, 0, 3⟩
def F.CPX_STAT_FENCED : Fld := ⟨R.CPX_STAT, 3, 3⟩
def F.CPX_STAT_HALTED : Fld := ⟨R.CPX_STAT, 6, 3⟩
def F.CPX_STAT_VOTE : Fld := ⟨R.CPX_STAT, 9, 2⟩
def F.CPX_STAT_RESYNC : Fld := ⟨R.CPX_STAT, 11, 1⟩
def F.CPX_STAT_LAST_MIN : Fld := ⟨R.CPX_STAT, 12, 2⟩
def F.CPX_STAT_WR_IGN : Fld := ⟨R.CPX_STAT, 14, 1⟩
def F.CPX_STAT_RD_OVF : Fld := ⟨R.CPX_STAT, 15, 1⟩
def F.CPX_STAT_MISS : Fld := ⟨R.CPX_STAT, 16, 8⟩
/-- R378 of 13_control_cores.md. -/
def R.CPX_CKPT_LO : Nat := 0x50008
def F.CPX_CKPT_LO_CKPT : Fld := ⟨R.CPX_CKPT_LO, 0, 32⟩
/-- R378 of 13_control_cores.md. -/
def R.CPX_CKPT_HI : Nat := 0x5000C
def F.CPX_CKPT_HI_CKPT : Fld := ⟨R.CPX_CKPT_HI, 0, 32⟩
/-- R379 of 13_control_cores.md. -/
def R.CPX_MIN_CNT : Nat := 0x50010
def F.CPX_MIN_CNT_MIN0 : Fld := ⟨R.CPX_MIN_CNT, 0, 8⟩
def F.CPX_MIN_CNT_MIN1 : Fld := ⟨R.CPX_MIN_CNT, 8, 8⟩
def F.CPX_MIN_CNT_MIN2 : Fld := ⟨R.CPX_MIN_CNT, 16, 8⟩
def F.CPX_MIN_CNT_WIN0 : Fld := ⟨R.CPX_MIN_CNT, 24, 2⟩
def F.CPX_MIN_CNT_WIN1 : Fld := ⟨R.CPX_MIN_CNT, 26, 2⟩
def F.CPX_MIN_CNT_WIN2 : Fld := ⟨R.CPX_MIN_CNT, 28, 2⟩
def F.CPX_MIN_CNT_SAT : Fld := ⟨R.CPX_MIN_CNT, 31, 1⟩
/-- R379 of 13_control_cores.md. -/
def R.CPX_CTL : Nat := 0x50014
def F.CPX_CTL_RESTART : Fld := ⟨R.CPX_CTL, 31, 1⟩
/-- R379 of 13_control_cores.md. -/
def R.CPX_DBG_BROKEN : Nat := 0x50018
def F.CPX_DBG_BROKEN_BROKEN : Fld := ⟨R.CPX_DBG_BROKEN, 0, 1⟩
def F.CPX_DBG_BROKEN_HALT_CNT : Fld := ⟨R.CPX_DBG_BROKEN, 16, 16⟩
/-- R270 of 09_fesil_engine.md. -/
def R.FSL_CTL : Nat := 0x60000
def F.FSL_CTL_RUN : Fld := ⟨R.FSL_CTL, 0, 1⟩
def F.FSL_CTL_PROG_OK : Fld := ⟨R.FSL_CTL, 1, 1⟩
def F.FSL_CTL_PROG_BAD : Fld := ⟨R.FSL_CTL, 2, 1⟩
def F.FSL_CTL_ACC_IGN : Fld := ⟨R.FSL_CTL, 3, 1⟩
def F.FSL_CTL_NAN : Fld := ⟨R.FSL_CTL, 4, 1⟩
def F.FSL_CTL_ECC_SB : Fld := ⟨R.FSL_CTL, 5, 1⟩
def F.FSL_CTL_ECC_DB : Fld := ⟨R.FSL_CTL, 6, 1⟩
def F.FSL_CTL_DBL_COMMIT : Fld := ⟨R.FSL_CTL, 7, 1⟩
def F.FSL_CTL_ECC_CNT : Fld := ⟨R.FSL_CTL, 16, 8⟩
def F.FSL_CTL_SAT : Fld := ⟨R.FSL_CTL, 31, 1⟩
/-- R270 of 09_fesil_engine.md. -/
def R.FSL_PROG_REF : Nat := 0x60008
def F.FSL_PROG_REF_REF : Fld := ⟨R.FSL_PROG_REF, 0, 32⟩
/-- R271 of 09_fesil_engine.md. -/
def R.FSL_MEM_ADDR : Nat := 0x60010
def F.FSL_MEM_ADDR_ADDR : Fld := ⟨R.FSL_MEM_ADDR, 0, 20⟩
def F.FSL_MEM_ADDR_SPACE : Fld := ⟨R.FSL_MEM_ADDR, 28, 2⟩
def F.FSL_MEM_ADDR_INC : Fld := ⟨R.FSL_MEM_ADDR, 31, 1⟩
/-- R271 of 09_fesil_engine.md. -/
def R.FSL_MEM_DATA : Nat := 0x60014
def F.FSL_MEM_DATA_DATA : Fld := ⟨R.FSL_MEM_DATA, 0, 32⟩
/-- R272 of 09_fesil_engine.md. -/
def R.FSL_OVR_CNT : Nat := 0x60040
def F.FSL_OVR_CNT_CNT0 : Fld := ⟨R.FSL_OVR_CNT, 0, 15⟩
def F.FSL_OVR_CNT_SAT0 : Fld := ⟨R.FSL_OVR_CNT, 15, 1⟩
def F.FSL_OVR_CNT_CNT1 : Fld := ⟨R.FSL_OVR_CNT, 16, 15⟩
def F.FSL_OVR_CNT_SAT1 : Fld := ⟨R.FSL_OVR_CNT, 31, 1⟩
/-- R272 of 09_fesil_engine.md. -/
def R.FSL_OVR_STAT : Nat := 0x60044
def F.FSL_OVR_STAT_CONSEC0 : Fld := ⟨R.FSL_OVR_STAT, 0, 2⟩
def F.FSL_OVR_STAT_WIN0 : Fld := ⟨R.FSL_OVR_STAT, 2, 5⟩
def F.FSL_OVR_STAT_MCONSEC0 : Fld := ⟨R.FSL_OVR_STAT, 8, 2⟩
def F.FSL_OVR_STAT_CONSEC1 : Fld := ⟨R.FSL_OVR_STAT, 16, 2⟩
def F.FSL_OVR_STAT_WIN1 : Fld := ⟨R.FSL_OVR_STAT, 18, 5⟩
def F.FSL_OVR_STAT_MCONSEC1 : Fld := ⟨R.FSL_OVR_STAT, 24, 2⟩
/-- R272 of 09_fesil_engine.md. -/
def R.FSL_MISS_CNT : Nat := 0x60048
def F.FSL_MISS_CNT_CNT0 : Fld := ⟨R.FSL_MISS_CNT, 0, 15⟩
def F.FSL_MISS_CNT_SAT0 : Fld := ⟨R.FSL_MISS_CNT, 15, 1⟩
def F.FSL_MISS_CNT_CNT1 : Fld := ⟨R.FSL_MISS_CNT, 16, 15⟩
def F.FSL_MISS_CNT_SAT1 : Fld := ⟨R.FSL_MISS_CNT, 31, 1⟩
/-- R273 of 09_fesil_engine.md. -/
def R.FSL_TASK (a : Nat) : Nat := 0x60100 + 0x80 * a
def F.FSL_TASK_ENTRY (a : Nat) : Fld := ⟨R.FSL_TASK a, 0, 13⟩
def F.FSL_TASK_EN (a : Nat) : Fld := ⟨R.FSL_TASK a, 15, 1⟩
def F.FSL_TASK_LIMIT (a : Nat) : Fld := ⟨R.FSL_TASK a, 16, 10⟩
/-- R273 of 09_fesil_engine.md. -/
def R.FSL_CYC (a : Nat) : Nat := 0x60104 + 0x80 * a
def F.FSL_CYC_LAST (a : Nat) : Fld := ⟨R.FSL_CYC a, 0, 11⟩
def F.FSL_CYC_CUT (a : Nat) : Fld := ⟨R.FSL_CYC a, 11, 1⟩
def F.FSL_CYC_MAX (a : Nat) : Fld := ⟨R.FSL_CYC a, 16, 11⟩
def F.FSL_CYC_SKIP (a : Nat) : Fld := ⟨R.FSL_CYC a, 28, 1⟩
def F.FSL_CYC_MAX_CLR (a : Nat) : Fld := ⟨R.FSL_CYC a, 31, 1⟩
/-- R273 of 09_fesil_engine.md. -/
def R.FSL_SP_CTL (a : Nat) : Nat := 0x60108 + 0x80 * a
def F.FSL_SP_CTL_PUB (a : Nat) : Fld := ⟨R.FSL_SP_CTL a, 0, 1⟩
def F.FSL_SP_CTL_SWAP (a : Nat) : Fld := ⟨R.FSL_SP_CTL a, 1, 1⟩
def F.FSL_SP_CTL_ACT_BANK (a : Nat) : Fld := ⟨R.FSL_SP_CTL a, 2, 1⟩
def F.FSL_SP_CTL_PUB_PEND (a : Nat) : Fld := ⟨R.FSL_SP_CTL a, 3, 1⟩
def F.FSL_SP_CTL_SWAP_PEND (a : Nat) : Fld := ⟨R.FSL_SP_CTL a, 4, 1⟩
def F.FSL_SP_CTL_SP_BAD (a : Nat) : Fld := ⟨R.FSL_SP_CTL a, 5, 1⟩
def F.FSL_SP_CTL_USED_SEQ (a : Nat) : Fld := ⟨R.FSL_SP_CTL a, 16, 16⟩
/-- R248 of 09_fesil_engine.md. -/
def R.FSL_SP (a : Nat) (k : Nat) : Nat := 0x60120 + 0x80 * a + 0x4 * k
def F.FSL_SP_WORD (a : Nat) (k : Nat) : Fld := ⟨R.FSL_SP a k, 0, 32⟩
/-- R274 of 09_fesil_engine.md. -/
def R.FSL_TRC_CFG : Nat := 0x60300
def F.FSL_TRC_CFG_AXES : Fld := ⟨R.FSL_TRC_CFG, 0, 2⟩
def F.FSL_TRC_CFG_DECIM : Fld := ⟨R.FSL_TRC_CFG, 8, 8⟩
def F.FSL_TRC_CFG_PRE : Fld := ⟨R.FSL_TRC_CFG, 16, 13⟩
def F.FSL_TRC_CFG_FORCE : Fld := ⟨R.FSL_TRC_CFG, 29, 1⟩
def F.FSL_TRC_CFG_TRIG_OUT : Fld := ⟨R.FSL_TRC_CFG, 30, 1⟩
def F.FSL_TRC_CFG_ARM : Fld := ⟨R.FSL_TRC_CFG, 31, 1⟩
/-- R274 of 09_fesil_engine.md. -/
def R.FSL_TRC_SEL (m : Nat) : Nat := 0x60304 + 0x4 * m
def F.FSL_TRC_SEL_SEL (m : Nat) : Fld := ⟨R.FSL_TRC_SEL m, 0, 32⟩
/-- R274 of 09_fesil_engine.md. -/
def R.FSL_TRC_TRIG : Nat := 0x60314
def F.FSL_TRC_TRIG_SRC : Fld := ⟨R.FSL_TRC_TRIG, 0, 3⟩
def F.FSL_TRC_TRIG_VSEL : Fld := ⟨R.FSL_TRC_TRIG, 4, 4⟩
def F.FSL_TRC_TRIG_CODE : Fld := ⟨R.FSL_TRC_TRIG, 16, 16⟩
/-- R274 of 09_fesil_engine.md. -/
def R.FSL_TRC_LVL : Nat := 0x60318
def F.FSL_TRC_LVL_LVL : Fld := ⟨R.FSL_TRC_LVL, 0, 32⟩
/-- R274 of 09_fesil_engine.md. -/
def R.FSL_TRC_STAT : Nat := 0x6031C
def F.FSL_TRC_STAT_OLDEST : Fld := ⟨R.FSL_TRC_STAT, 0, 13⟩
def F.FSL_TRC_STAT_TRIG_REC : Fld := ⟨R.FSL_TRC_STAT, 16, 13⟩
def F.FSL_TRC_STAT_PRE_SHORT : Fld := ⟨R.FSL_TRC_STAT, 29, 1⟩
def F.FSL_TRC_STAT_STATE : Fld := ⟨R.FSL_TRC_STAT, 30, 2⟩
/-- R238 of 08_field_control.md. -/
def R.FSL_FC_CFG (a : Nat) : Nat := 0x64000 + 0x100 * a
def F.FSL_FC_CFG_OBS_ONLY (a : Nat) : Fld := ⟨R.FSL_FC_CFG a, 0, 1⟩
def F.FSL_FC_CFG_USE_AUX (a : Nat) : Fld := ⟨R.FSL_FC_CFG a, 1, 1⟩
def F.FSL_FC_CFG_IF_EN (a : Nat) : Fld := ⟨R.FSL_FC_CFG a, 2, 1⟩
def F.FSL_FC_CFG_BACK_BRAKE (a : Nat) : Fld := ⟨R.FSL_FC_CFG a, 3, 1⟩
def F.FSL_FC_CFG_PLAUS_EN (a : Nat) : Fld := ⟨R.FSL_FC_CFG a, 4, 1⟩
def F.FSL_FC_CFG_PADV_EN (a : Nat) : Fld := ⟨R.FSL_FC_CFG a, 5, 1⟩
def F.FSL_FC_CFG_BLEND (a : Nat) : Fld := ⟨R.FSL_FC_CFG a, 8, 4⟩
def F.FSL_FC_CFG_PADV_N (a : Nat) : Fld := ⟨R.FSL_FC_CFG a, 12, 4⟩
/-- R238 of 08_field_control.md. -/
def R.FSL_FC_SAFE (a : Nat) : Nat := 0x64004 + 0x100 * a
def F.FSL_FC_SAFE_KE (a : Nat) : Fld := ⟨R.FSL_FC_SAFE a, 0, 16⟩
def F.FSL_FC_SAFE_PV_IN (a : Nat) : Fld := ⟨R.FSL_FC_SAFE a, 16, 4⟩
def F.FSL_FC_SAFE_PV_FS (a : Nat) : Fld := ⟨R.FSL_FC_SAFE a, 24, 8⟩
/-- R238 of 08_field_control.md. -/
def R.FSL_FC_OBS (a : Nat) : Nat := 0x64008 + 0x100 * a
def F.FSL_FC_OBS_E_MIN (a : Nat) : Fld := ⟨R.FSL_FC_OBS a, 0, 12⟩
def F.FSL_FC_OBS_OBS_BW (a : Nat) : Fld := ⟨R.FSL_FC_OBS a, 12, 4⟩
def F.FSL_FC_OBS_CONF_MIN (a : Nat) : Fld := ⟨R.FSL_FC_OBS a, 16, 8⟩
/-- R238 of 08_field_control.md. -/
def R.FSL_FC_PLAUS (a : Nat) : Nat := 0x6400C + 0x100 * a
def F.FSL_FC_PLAUS_PLAUS_TOL (a : Nat) : Fld := ⟨R.FSL_FC_PLAUS a, 0, 16⟩
def F.FSL_FC_PLAUS_PLAUS_N (a : Nat) : Fld := ⟨R.FSL_FC_PLAUS a, 16, 8⟩
/-- R238 of 08_field_control.md. -/
def R.FSL_FC_CATCH (a : Nat) : Nat := 0x64010 + 0x100 * a
def F.FSL_FC_CATCH_CATCH_MIN (a : Nat) : Fld := ⟨R.FSL_FC_CATCH a, 0, 16⟩
def F.FSL_FC_CATCH_TQ_RAMP (a : Nat) : Fld := ⟨R.FSL_FC_CATCH a, 16, 8⟩
def F.FSL_FC_CATCH_BRAKE_I (a : Nat) : Fld := ⟨R.FSL_FC_CATCH a, 24, 8⟩
/-- R238 of 08_field_control.md. -/
def R.FSL_FC_IF (a : Nat) : Nat := 0x64014 + 0x100 * a
def F.FSL_FC_IF_IF_I (a : Nat) : Fld := ⟨R.FSL_FC_IF a, 0, 16⟩
def F.FSL_FC_IF_IF_ACC (a : Nat) : Fld := ⟨R.FSL_FC_IF a, 16, 8⟩
def F.FSL_FC_IF_IF_TMAX (a : Nat) : Fld := ⟨R.FSL_FC_IF a, 24, 8⟩
/-- R238 of 08_field_control.md. -/
def R.FSL_FC_MOVE (a : Nat) : Nat := 0x64018 + 0x100 * a
def F.FSL_FC_MOVE_MOVE_TOL (a : Nat) : Fld := ⟨R.FSL_FC_MOVE a, 0, 16⟩
def F.FSL_FC_MOVE_REARM (a : Nat) : Fld := ⟨R.FSL_FC_MOVE a, 31, 1⟩
/-- R239 of 08_field_control.md. -/
def R.FSL_FC_STAT (a : Nat) : Nat := 0x64020 + 0x100 * a
def F.FSL_FC_STAT_SRC_USED (a : Nat) : Fld := ⟨R.FSL_FC_STAT a, 0, 3⟩
def F.FSL_FC_STAT_LIMP_REQ (a : Nat) : Fld := ⟨R.FSL_FC_STAT a, 3, 1⟩
def F.FSL_FC_STAT_COAST (a : Nat) : Fld := ⟨R.FSL_FC_STAT a, 4, 1⟩
def F.FSL_FC_STAT_COAST_ASC (a : Nat) : Fld := ⟨R.FSL_FC_STAT a, 5, 1⟩
def F.FSL_FC_STAT_PLAUS_FAIL (a : Nat) : Fld := ⟨R.FSL_FC_STAT a, 6, 1⟩
def F.FSL_FC_STAT_PREMOVE (a : Nat) : Fld := ⟨R.FSL_FC_STAT a, 7, 1⟩
def F.FSL_FC_STAT_PREMOVE_NEG (a : Nat) : Fld := ⟨R.FSL_FC_STAT a, 8, 1⟩
def F.FSL_FC_STAT_CFG_BAD (a : Nat) : Fld := ⟨R.FSL_FC_STAT a, 9, 1⟩
def F.FSL_FC_STAT_WR_IGN (a : Nat) : Fld := ⟨R.FSL_FC_STAT a, 10, 1⟩
def F.FSL_FC_STAT_CATCH_BUSY (a : Nat) : Fld := ⟨R.FSL_FC_STAT a, 11, 1⟩
def F.FSL_FC_STAT_CATCH_RES (a : Nat) : Fld := ⟨R.FSL_FC_STAT a, 12, 3⟩
def F.FSL_FC_STAT_CONF (a : Nat) : Fld := ⟨R.FSL_FC_STAT a, 16, 8⟩
/-- R239 of 08_field_control.md. -/
def R.FSL_FC_CATCHA (a : Nat) : Nat := 0x64028 + 0x100 * a
def F.FSL_FC_CATCHA_CATCH_ANG (a : Nat) : Fld := ⟨R.FSL_FC_CATCHA a, 0, 16⟩
def F.FSL_FC_CATCHA_CATCH_E (a : Nat) : Fld := ⟨R.FSL_FC_CATCHA a, 16, 12⟩
/-- R239 of 08_field_control.md. -/
def R.FSL_FC_CATCHV (a : Nat) : Nat := 0x64024 + 0x100 * a
def F.FSL_FC_CATCHV_CATCH_SPD (a : Nat) : Fld := ⟨R.FSL_FC_CATCHV a, 0, 32⟩
/-- R239 of 08_field_control.md. -/
def R.FSL_FC_OBSA (a : Nat) : Nat := 0x6402C + 0x100 * a
def F.FSL_FC_OBSA_OBS_ANG (a : Nat) : Fld := ⟨R.FSL_FC_OBSA a, 0, 16⟩
/-- R239 of 08_field_control.md. -/
def R.FSL_FC_OBSS (a : Nat) : Nat := 0x64030 + 0x100 * a
def F.FSL_FC_OBSS_OBS_SPD (a : Nat) : Fld := ⟨R.FSL_FC_OBSS a, 0, 32⟩
/-- R239 of 08_field_control.md. -/
def R.FSL_FC_PADV (a : Nat) (k : Nat) : Nat := 0x64040 + 0x100 * a + 0x4 * k
def F.FSL_FC_PADV_SPD (a : Nat) (k : Nat) : Fld := ⟨R.FSL_FC_PADV a k, 0, 16⟩
def F.FSL_FC_PADV_BETA (a : Nat) (k : Nat) : Fld := ⟨R.FSL_FC_PADV a k, 16, 16⟩
/-- R125 of 05_pwm.md. -/
def R.PWM_CFG (c : Nat) : Nat := 0x70000 + 0x400 * c
def F.PWM_CFG_COUNT (c : Nat) : Fld := ⟨R.PWM_CFG c, 0, 1⟩
def F.PWM_CFG_UPD (c : Nat) : Fld := ⟨R.PWM_CFG c, 1, 2⟩
def F.PWM_CFG_SYNC (c : Nat) : Fld := ⟨R.PWM_CFG c, 3, 2⟩
def F.PWM_CFG_AUTO_SHIFT (c : Nat) : Fld := ⟨R.PWM_CFG c, 5, 1⟩
def F.PWM_CFG_SYNC_OUT (c : Nat) : Fld := ⟨R.PWM_CFG c, 6, 1⟩
def F.PWM_CFG_PHASE (c : Nat) : Fld := ⟨R.PWM_CFG c, 8, 18⟩
/-- R138 of 05_pwm.md. -/
def R.PWM_DT (c : Nat) : Nat := 0x70004 + 0x400 * c
def F.PWM_DT_DT (c : Nat) : Fld := ⟨R.PWM_DT c, 0, 17⟩
/-- R138 of 05_pwm.md. -/
def R.PWM_MINP (c : Nat) : Nat := 0x70008 + 0x400 * c
def F.PWM_MINP_MINP (c : Nat) : Fld := ⟨R.PWM_MINP c, 0, 9⟩
/-- R146 of 05_pwm.md. -/
def R.PWM_WIN (c : Nat) : Nat := 0x7000C + 0x400 * c
def F.PWM_WIN_WIN_PRE (c : Nat) : Fld := ⟨R.PWM_WIN c, 0, 8⟩
def F.PWM_WIN_WIN_POST (c : Nat) : Fld := ⟨R.PWM_WIN c, 8, 8⟩
def F.PWM_WIN_SHIFT_MAX (c : Nat) : Fld := ⟨R.PWM_WIN c, 16, 12⟩
/-- R144 of 05_pwm.md. -/
def R.PWM_REFRESH (c : Nat) : Nat := 0x70010 + 0x400 * c
def F.PWM_REFRESH_PERIODS (c : Nat) : Fld := ⟨R.PWM_REFRESH c, 0, 8⟩
def F.PWM_REFRESH_LEVEL (c : Nat) : Fld := ⟨R.PWM_REFRESH c, 8, 6⟩
def F.PWM_REFRESH_WIDTH (c : Nat) : Fld := ⟨R.PWM_REFRESH c, 16, 6⟩
/-- R151 of 05_pwm.md. -/
def R.PWM_TRIP (c : Nat) : Nat := 0x70014 + 0x400 * c
def F.PWM_TRIP_TRIP_LEVEL (c : Nat) : Fld := ⟨R.PWM_TRIP c, 0, 16⟩
def F.PWM_TRIP_TRIP_LEAK (c : Nat) : Fld := ⟨R.PWM_TRIP c, 16, 8⟩
/-- R126 of 05_pwm.md. -/
def R.PWM_CTB_LO (c : Nat) : Nat := 0x70018 + 0x400 * c
def F.PWM_CTB_LO_CT_BASE (c : Nat) : Fld := ⟨R.PWM_CTB_LO c, 0, 32⟩
/-- R126 of 05_pwm.md. -/
def R.PWM_CTB_HI (c : Nat) : Nat := 0x7001C + 0x400 * c
def F.PWM_CTB_HI_CT_BASE (c : Nat) : Fld := ⟨R.PWM_CTB_HI c, 0, 32⟩
/-- R157 of 05_pwm.md. -/
def R.PWM_STAT (c : Nat) : Nat := 0x70020 + 0x400 * c
def F.PWM_STAT_LATE_COMMIT (c : Nat) : Fld := ⟨R.PWM_STAT c, 0, 1⟩
def F.PWM_STAT_HOLD_LAST (c : Nat) : Fld := ⟨R.PWM_STAT c, 1, 1⟩
def F.PWM_STAT_PEND (c : Nat) : Fld := ⟨R.PWM_STAT c, 2, 1⟩
def F.PWM_STAT_PER_CLAMP (c : Nat) : Fld := ⟨R.PWM_STAT c, 3, 1⟩
def F.PWM_STAT_FLOOR_HIT (c : Nat) : Fld := ⟨R.PWM_STAT c, 4, 1⟩
def F.PWM_STAT_WR_IGN (c : Nat) : Fld := ⟨R.PWM_STAT c, 5, 1⟩
def F.PWM_STAT_TRIP_LATCH (c : Nat) : Fld := ⟨R.PWM_STAT c, 6, 1⟩
def F.PWM_STAT_BLOCK (c : Nat) : Fld := ⟨R.PWM_STAT c, 7, 1⟩
def F.PWM_STAT_UVLO_OFF (c : Nat) : Fld := ⟨R.PWM_STAT c, 8, 3⟩
def F.PWM_STAT_OUT_EN (c : Nat) : Fld := ⟨R.PWM_STAT c, 11, 1⟩
def F.PWM_STAT_SYNC_LOST (c : Nat) : Fld := ⟨R.PWM_STAT c, 12, 1⟩
def F.PWM_STAT_TRIP_CNT (c : Nat) : Fld := ⟨R.PWM_STAT c, 16, 8⟩
/-- R142 of 05_pwm.md. -/
def R.PWM_CARRY (c : Nat) (x : Nat) : Nat := 0x70024 + 0x400 * c + 0x4 * x
def F.PWM_CARRY_CARRY (c : Nat) (x : Nat) : Fld := ⟨R.PWM_CARRY c x, 0, 25⟩
/-- R142 of 05_pwm.md. -/
def R.PWM_LDISC (c : Nat) : Nat := 0x70030 + 0x400 * c
def F.PWM_LDISC_DISC_CNT (c : Nat) : Fld := ⟨R.PWM_LDISC c, 0, 16⟩
def F.PWM_LDISC_SAT (c : Nat) : Fld := ⟨R.PWM_LDISC c, 31, 1⟩
/-- R139 of 05_pwm.md. -/
def R.PWM_FLOOR : Nat := 0x70800
def F.PWM_FLOOR_DT_FLOOR : Fld := ⟨R.PWM_FLOOR, 0, 10⟩
def F.PWM_FLOOR_MINP_FLOOR : Fld := ⟨R.PWM_FLOOR, 16, 9⟩
/-- R139 of 05_pwm.md. -/
def R.PWM_LIMIT : Nat := 0x70804
def F.PWM_LIMIT_FSW_CEIL : Fld := ⟨R.PWM_LIMIT, 0, 7⟩
def F.PWM_LIMIT_TRIP_N : Fld := ⟨R.PWM_LIMIT, 8, 8⟩
/-- R131 of 05_pwm.md. -/
def R.PWM_CAL : Nat := 0x70810
def F.PWM_CAL_SPAN : Fld := ⟨R.PWM_CAL, 0, 8⟩
def F.PWM_CAL_DONE : Fld := ⟨R.PWM_CAL, 8, 1⟩
def F.PWM_CAL_FAIL : Fld := ⟨R.PWM_CAL, 9, 1⟩
def F.PWM_CAL_COARSE : Fld := ⟨R.PWM_CAL, 10, 1⟩
def F.PWM_CAL_FAIL_CNT : Fld := ⟨R.PWM_CAL, 16, 8⟩
/-- R149 of 05_pwm.md. -/
def R.PWM_NP : Nat := 0x70820
def F.PWM_NP_NP_GAIN : Fld := ⟨R.PWM_NP, 0, 16⟩
def F.PWM_NP_NP_OFS_MAX : Fld := ⟨R.PWM_NP, 16, 8⟩
def F.PWM_NP_NP_SRC : Fld := ⟨R.PWM_NP, 24, 4⟩
def F.PWM_NP_EN : Fld := ⟨R.PWM_NP, 31, 1⟩
/-- R97 of 04_gate_channels.md. -/
def R.GDC_UVLO (n : Nat) : Nat := 0x80000 + 0x100 * n
def F.GDC_UVLO_VPOS_TH (n : Nat) : Fld := ⟨R.GDC_UVLO n, 0, 6⟩
def F.GDC_UVLO_VNEG_TH (n : Nat) : Fld := ⟨R.GDC_UVLO n, 8, 5⟩
def F.GDC_UVLO_SUPPLY (n : Nat) : Fld := ⟨R.GDC_UVLO n, 16, 1⟩
def F.GDC_UVLO_UNUSED (n : Nat) : Fld := ⟨R.GDC_UVLO n, 17, 1⟩
/-- R101 of 04_gate_channels.md. -/
def R.GDC_DESAT (n : Nat) : Nat := 0x80004 + 0x100 * n
def F.GDC_DESAT_DESAT_TH (n : Nat) : Fld := ⟨R.GDC_DESAT n, 0, 7⟩
def F.GDC_DESAT_BLANK (n : Nat) : Fld := ⟨R.GDC_DESAT n, 8, 6⟩
def F.GDC_DESAT_HS_EN (n : Nat) : Fld := ⟨R.GDC_DESAT n, 16, 1⟩
/-- R92 of 04_gate_channels.md. -/
def R.GDC_TRIM (n : Nat) : Nat := 0x80008 + 0x100 * n
def F.GDC_TRIM_DELAY (n : Nat) : Fld := ⟨R.GDC_TRIM n, 0, 8⟩
/-- R93 of 04_gate_channels.md. -/
def R.GDC_DRV (n : Nat) : Nat := 0x80010 + 0x100 * n
def F.GDC_DRV_MODE (n : Nat) : Fld := ⟨R.GDC_DRV n, 0, 1⟩
def F.GDC_DRV_CLAMP_EN (n : Nat) : Fld := ⟨R.GDC_DRV n, 1, 1⟩
def F.GDC_DRV_VON_EN (n : Nat) : Fld := ⟨R.GDC_DRV n, 2, 1⟩
def F.GDC_DRV_SOFT_I (n : Nat) : Fld := ⟨R.GDC_DRV n, 4, 4⟩
def F.GDC_DRV_VON_DLY (n : Nat) : Fld := ⟨R.GDC_DRV n, 8, 6⟩
/-- R89 of 04_gate_channels.md. -/
def R.GDC_PROF (n : Nat) : Nat := 0x80014 + 0x100 * n
def F.GDC_PROF_ON_PRE (n : Nat) : Fld := ⟨R.GDC_PROF n, 0, 6⟩
def F.GDC_PROF_ON_SLOPE (n : Nat) : Fld := ⟨R.GDC_PROF n, 6, 4⟩
def F.GDC_PROF_ON_WEAK (n : Nat) : Fld := ⟨R.GDC_PROF n, 10, 6⟩
def F.GDC_PROF_OFF_PRE (n : Nat) : Fld := ⟨R.GDC_PROF n, 16, 6⟩
def F.GDC_PROF_OFF_SLOPE (n : Nat) : Fld := ⟨R.GDC_PROF n, 22, 4⟩
def F.GDC_PROF_OFF_WEAK (n : Nat) : Fld := ⟨R.GDC_PROF n, 26, 6⟩
/-- R113 of 04_gate_channels.md. -/
def R.GDC_STAT (n : Nat) : Nat := 0x80020 + 0x100 * n
def F.GDC_STAT_STATE (n : Nat) : Fld := ⟨R.GDC_STAT n, 0, 4⟩
def F.GDC_STAT_UV_POS (n : Nat) : Fld := ⟨R.GDC_STAT n, 4, 1⟩
def F.GDC_STAT_UV_NEG (n : Nat) : Fld := ⟨R.GDC_STAT n, 5, 1⟩
def F.GDC_STAT_DESAT (n : Nat) : Fld := ⟨R.GDC_STAT n, 6, 1⟩
def F.GDC_STAT_HSC (n : Nat) : Fld := ⟨R.GDC_STAT n, 7, 1⟩
def F.GDC_STAT_LATCH (n : Nat) : Fld := ⟨R.GDC_STAT n, 8, 1⟩
def F.GDC_STAT_LINK_LOSS (n : Nat) : Fld := ⟨R.GDC_STAT n, 9, 1⟩
def F.GDC_STAT_THERM (n : Nat) : Fld := ⟨R.GDC_STAT n, 10, 1⟩
def F.GDC_STAT_CFG_BAD (n : Nat) : Fld := ⟨R.GDC_STAT n, 11, 1⟩
def F.GDC_STAT_HS_REACH (n : Nat) : Fld := ⟨R.GDC_STAT n, 12, 1⟩
def F.GDC_STAT_WR_IGN (n : Nat) : Fld := ⟨R.GDC_STAT n, 13, 1⟩
def F.GDC_STAT_ENA_EARLY (n : Nat) : Fld := ⟨R.GDC_STAT n, 14, 1⟩
def F.GDC_STAT_UV_WIN (n : Nat) : Fld := ⟨R.GDC_STAT n, 16, 2⟩
def F.GDC_STAT_LATCH_CAUSE (n : Nat) : Fld := ⟨R.GDC_STAT n, 18, 2⟩
/-- R114 of 04_gate_channels.md. -/
def R.GDC_CNT (n : Nat) : Nat := 0x80024 + 0x100 * n
def F.GDC_CNT_DESAT_CNT (n : Nat) : Fld := ⟨R.GDC_CNT n, 0, 8⟩
def F.GDC_CNT_HSC_CNT (n : Nat) : Fld := ⟨R.GDC_CNT n, 8, 8⟩
def F.GDC_CNT_UVLO_CNT (n : Nat) : Fld := ⟨R.GDC_CNT n, 16, 8⟩
def F.GDC_CNT_LINK_CNT (n : Nat) : Fld := ⟨R.GDC_CNT n, 24, 6⟩
def F.GDC_CNT_SAT (n : Nat) : Fld := ⟨R.GDC_CNT n, 31, 1⟩
/-- R116 of 04_gate_channels.md. -/
def R.GDC_VON (n : Nat) : Nat := 0x80028 + 0x100 * n
def F.GDC_VON_VON (n : Nat) : Fld := ⟨R.GDC_VON n, 0, 12⟩
def F.GDC_VON_CNT (n : Nat) : Fld := ⟨R.GDC_VON n, 16, 8⟩
def F.GDC_VON_VALID (n : Nat) : Fld := ⟨R.GDC_VON n, 31, 1⟩
/-- R120 of 04_gate_channels.md. -/
def R.GDC_DIAG_RES (n : Nat) : Nat := 0x8002C + 0x100 * n
def F.GDC_DIAG_RES_GATE_RES (n : Nat) : Fld := ⟨R.GDC_DIAG_RES n, 0, 4⟩
def F.GDC_DIAG_RES_DS_RES (n : Nat) : Fld := ⟨R.GDC_DIAG_RES n, 4, 4⟩
def F.GDC_DIAG_RES_CG (n : Nat) : Fld := ⟨R.GDC_DIAG_RES n, 8, 8⟩
def F.GDC_DIAG_RES_VDS_REF (n : Nat) : Fld := ⟨R.GDC_DIAG_RES n, 16, 12⟩
/-- R114 of 04_gate_channels.md. -/
def R.GDC_LATCH_SUM : Nat := 0x81000
def F.GDC_LATCH_SUM_LATCHED : Fld := ⟨R.GDC_LATCH_SUM, 0, 12⟩
def F.GDC_LATCH_SUM_FLT_LINE : Fld := ⟨R.GDC_LATCH_SUM, 16, 12⟩
/-- R120 of 04_gate_channels.md. -/
def R.GDC_DIAG_CTL : Nat := 0x81004
def F.GDC_DIAG_CTL_CH_MASK : Fld := ⟨R.GDC_DIAG_CTL, 0, 12⟩
def F.GDC_DIAG_CTL_TEST : Fld := ⟨R.GDC_DIAG_CTL, 16, 2⟩
def F.GDC_DIAG_CTL_BUSY : Fld := ⟨R.GDC_DIAG_CTL, 30, 1⟩
def F.GDC_DIAG_CTL_START : Fld := ⟨R.GDC_DIAG_CTL, 31, 1⟩
/-- R120 of 04_gate_channels.md. -/
def R.GDC_DIAG_CFG : Nat := 0x81008
def F.GDC_DIAG_CFG_CG_MIN : Fld := ⟨R.GDC_DIAG_CFG, 0, 8⟩
def F.GDC_DIAG_CFG_CG_MAX : Fld := ⟨R.GDC_DIAG_CFG, 8, 8⟩
/-- R165 of 06_converter_groups.md. -/
def R.ADC_SCAN (k : Nat) : Nat := 0x90000 + 0x4 * k
def F.ADC_SCAN_MASK (k : Nat) : Fld := ⟨R.ADC_SCAN k, 0, 24⟩
def F.ADC_SCAN_LOOP (k : Nat) : Fld := ⟨R.ADC_SCAN k, 24, 1⟩
/-- R170 of 06_converter_groups.md. -/
def R.ADC_FMT_LO : Nat := 0x90020
def F.ADC_FMT_LO_FMT : Fld := ⟨R.ADC_FMT_LO, 0, 32⟩
/-- R170 of 06_converter_groups.md. -/
def R.ADC_FMT_HI : Nat := 0x90024
def F.ADC_FMT_HI_FMT : Fld := ⟨R.ADC_FMT_HI, 0, 16⟩
/-- R170 of 06_converter_groups.md. -/
def R.ADC_INSRC : Nat := 0x90028
def F.ADC_INSRC_SRC : Fld := ⟨R.ADC_INSRC, 0, 24⟩
/-- R172 of 06_converter_groups.md. -/
def R.ADC_VOTE : Nat := 0x90030
def F.ADC_VOTE_TOL_I : Fld := ⟨R.ADC_VOTE, 0, 12⟩
def F.ADC_VOTE_TOL_V : Fld := ⟨R.ADC_VOTE, 12, 12⟩
def F.ADC_VOTE_MINOR_N : Fld := ⟨R.ADC_VOTE, 24, 4⟩
def F.ADC_VOTE_NOMAJ_N : Fld := ⟨R.ADC_VOTE, 28, 4⟩
/-- R169 of 06_converter_groups.md. -/
def R.ADC_GUARD : Nat := 0x90038
def F.ADC_GUARD_EN : Fld := ⟨R.ADC_GUARD, 0, 1⟩
def F.ADC_GUARD_GAP : Fld := ⟨R.ADC_GUARD, 8, 5⟩
/-- R183 of 06_converter_groups.md. -/
def R.ADC_CAST : Nat := 0x90040
def F.ADC_CAST_PERIOD : Fld := ⟨R.ADC_CAST, 0, 8⟩
def F.ADC_CAST_AVG : Fld := ⟨R.ADC_CAST, 8, 4⟩
def F.ADC_CAST_RAMP : Fld := ⟨R.ADC_CAST, 12, 4⟩
def F.ADC_CAST_ACTIVE : Fld := ⟨R.ADC_CAST, 16, 2⟩
def F.ADC_CAST_RAMPING : Fld := ⟨R.ADC_CAST, 18, 1⟩
def F.ADC_CAST_DEFER : Fld := ⟨R.ADC_CAST, 19, 1⟩
def F.ADC_CAST_ACTIVE1 : Fld := ⟨R.ADC_CAST, 20, 2⟩
def F.ADC_CAST_FORCE : Fld := ⟨R.ADC_CAST, 31, 1⟩
/-- R179 of 06_converter_groups.md. -/
def R.ADC_XCHK : Nat := 0x90048
def F.ADC_XCHK_TOL : Fld := ⟨R.ADC_XCHK, 0, 10⟩
/-- R185 of 06_converter_groups.md. -/
def R.ADC_TDAC_CTL : Nat := 0x90050
def F.ADC_TDAC_CTL_GRP_MASK : Fld := ⟨R.ADC_TDAC_CTL, 0, 3⟩
def F.ADC_TDAC_CTL_IN_MASK : Fld := ⟨R.ADC_TDAC_CTL, 3, 17⟩
def F.ADC_TDAC_CTL_BUSY : Fld := ⟨R.ADC_TDAC_CTL, 30, 1⟩
def F.ADC_TDAC_CTL_START : Fld := ⟨R.ADC_TDAC_CTL, 31, 1⟩
/-- R185 of 06_converter_groups.md. -/
def R.ADC_TDAC_RES (g : Nat) : Nat := 0x90054 + 0x4 * g
def F.ADC_TDAC_RES_FAIL (g : Nat) : Fld := ⟨R.ADC_TDAC_RES g, 0, 17⟩
def F.ADC_TDAC_RES_ABORT (g : Nat) : Fld := ⟨R.ADC_TDAC_RES g, 30, 1⟩
def F.ADC_TDAC_RES_DONE (g : Nat) : Fld := ⟨R.ADC_TDAC_RES g, 31, 1⟩
/-- R171 of 06_converter_groups.md. -/
def R.ADC_CAL (g : Nat) (i : Nat) : Nat := 0x90100 + 0x20 * g + 0x4 * i
def F.ADC_CAL_OFS (g : Nat) (i : Nat) : Fld := ⟨R.ADC_CAL g i, 0, 16⟩
def F.ADC_CAL_GAIN (g : Nat) (i : Nat) : Fld := ⟨R.ADC_CAL g i, 16, 16⟩
/-- R186 of 06_converter_groups.md. -/
def R.ADC_STAT (g : Nat) : Nat := 0x90200 + 0x10 * g
def F.ADC_STAT_CONV (g : Nat) : Fld := ⟨R.ADC_STAT g, 0, 1⟩
def F.ADC_STAT_CAL_STARVE (g : Nat) : Fld := ⟨R.ADC_STAT g, 1, 1⟩
def F.ADC_STAT_EXCL (g : Nat) : Fld := ⟨R.ADC_STAT g, 2, 1⟩
def F.ADC_STAT_EXCL_CAUSE (g : Nat) : Fld := ⟨R.ADC_STAT g, 3, 3⟩
def F.ADC_STAT_ACTIVE (g : Nat) : Fld := ⟨R.ADC_STAT g, 6, 1⟩
def F.ADC_STAT_DAC_FAIL (g : Nat) : Fld := ⟨R.ADC_STAT g, 7, 1⟩
def F.ADC_STAT_TRIG_DROP (g : Nat) : Fld := ⟨R.ADC_STAT g, 8, 1⟩
def F.ADC_STAT_LATE (g : Nat) : Fld := ⟨R.ADC_STAT g, 9, 1⟩
def F.ADC_STAT_WR_IGN (g : Nat) : Fld := ⟨R.ADC_STAT g, 10, 1⟩
def F.ADC_STAT_LOOP_ERR (g : Nat) : Fld := ⟨R.ADC_STAT g, 11, 1⟩
def F.ADC_STAT_CONSEC (g : Nat) : Fld := ⟨R.ADC_STAT g, 16, 8⟩
/-- R187 of 06_converter_groups.md. -/
def R.ADC_CNT (g : Nat) : Nat := 0x90204 + 0x10 * g
def F.ADC_CNT_MINOR_CNT (g : Nat) : Fld := ⟨R.ADC_CNT g, 0, 16⟩
def F.ADC_CNT_XCHK_CNT (g : Nat) : Fld := ⟨R.ADC_CNT g, 16, 8⟩
def F.ADC_CNT_SAT (g : Nat) : Fld := ⟨R.ADC_CNT g, 31, 1⟩
/-- R187 of 06_converter_groups.md. -/
def R.ADC_NOMAJ : Nat := 0x90240
def F.ADC_NOMAJ_CNT0 : Fld := ⟨R.ADC_NOMAJ, 0, 15⟩
def F.ADC_NOMAJ_SAT0 : Fld := ⟨R.ADC_NOMAJ, 15, 1⟩
def F.ADC_NOMAJ_CNT1 : Fld := ⟨R.ADC_NOMAJ, 16, 15⟩
def F.ADC_NOMAJ_SAT1 : Fld := ⟨R.ADC_NOMAJ, 31, 1⟩
/-- R170 of 06_converter_groups.md. -/
def R.ADC_RES (g : Nat) (i : Nat) : Nat := 0x91000 + 0x100 * g + 0x4 * i
def F.ADC_RES_CODE (g : Nat) (i : Nat) : Fld := ⟨R.ADC_RES g i, 0, 16⟩
def F.ADC_RES_TRIG (g : Nat) (i : Nat) : Fld := ⟨R.ADC_RES g i, 16, 3⟩
def F.ADC_RES_CAR (g : Nat) (i : Nat) : Fld := ⟨R.ADC_RES g i, 19, 1⟩
def F.ADC_RES_EIW (g : Nat) (i : Nat) : Fld := ⟨R.ADC_RES g i, 20, 1⟩
def F.ADC_RES_OVR (g : Nat) (i : Nat) : Fld := ⟨R.ADC_RES g i, 21, 1⟩
def F.ADC_RES_GUARD (g : Nat) (i : Nat) : Fld := ⟨R.ADC_RES g i, 22, 1⟩
def F.ADC_RES_LATE (g : Nat) (i : Nat) : Fld := ⟨R.ADC_RES g i, 23, 1⟩
def F.ADC_RES_SEQ (g : Nat) (i : Nat) : Fld := ⟨R.ADC_RES g i, 24, 8⟩
/-- R174 of 06_converter_groups.md. -/
def R.ADC_VOTED (i : Nat) : Nat := 0x91400 + 0x4 * i
def F.ADC_VOTED_VALUE (i : Nat) : Fld := ⟨R.ADC_VOTED i, 0, 16⟩
def F.ADC_VOTED_STATUS (i : Nat) : Fld := ⟨R.ADC_VOTED i, 16, 2⟩
def F.ADC_VOTED_MINOR (i : Nat) : Fld := ⟨R.ADC_VOTED i, 18, 2⟩
def F.ADC_VOTED_ACT (i : Nat) : Fld := ⟨R.ADC_VOTED i, 20, 2⟩
def F.ADC_VOTED_EIW (i : Nat) : Fld := ⟨R.ADC_VOTED i, 22, 1⟩
def F.ADC_VOTED_LATE (i : Nat) : Fld := ⟨R.ADC_VOTED i, 23, 1⟩
def F.ADC_VOTED_SEQ (i : Nat) : Fld := ⟨R.ADC_VOTED i, 24, 8⟩
/-- R209 of 07_position_feedback.md. -/
def R.POS_CFG (a : Nat) : Nat := 0xA0000 + 0x100 * a
def F.POS_CFG_SRC (a : Nat) : Fld := ⟨R.POS_CFG a, 0, 3⟩
def F.POS_CFG_HALL_AID (a : Nat) : Fld := ⟨R.POS_CFG a, 3, 1⟩
def F.POS_CFG_INV (a : Nat) : Fld := ⟨R.POS_CFG a, 4, 1⟩
def F.POS_CFG_Z_GATE (a : Nat) : Fld := ⟨R.POS_CFG a, 5, 1⟩
def F.POS_CFG_SNAP (a : Nat) : Fld := ⟨R.POS_CFG a, 6, 1⟩
def F.POS_CFG_TRAIN_B (a : Nat) : Fld := ⟨R.POS_CFG a, 7, 1⟩
def F.POS_CFG_TRAIN_DIR (a : Nat) : Fld := ⟨R.POS_CFG a, 8, 1⟩
def F.POS_CFG_Z_EN (a : Nat) : Fld := ⟨R.POS_CFG a, 9, 1⟩
def F.POS_CFG_MARK_KIND (a : Nat) : Fld := ⟨R.POS_CFG a, 10, 1⟩
def F.POS_CFG_PP (a : Nat) : Fld := ⟨R.POS_CFG a, 16, 8⟩
/-- R209 of 07_position_feedback.md. -/
def R.POS_SRCP (a : Nat) : Nat := 0xA0004 + 0x100 * a
def F.POS_SRCP_LINES (a : Nat) : Fld := ⟨R.POS_SRCP a, 0, 16⟩
def F.POS_SRCP_MARK_TEETH (a : Nat) : Fld := ⟨R.POS_SRCP a, 16, 16⟩
/-- R209 of 07_position_feedback.md. -/
def R.POS_FILT (a : Nat) : Nat := 0xA000C + 0x100 * a
def F.POS_FILT_ENC_N (a : Nat) : Fld := ⟨R.POS_FILT a, 0, 8⟩
def F.POS_FILT_HALL_N (a : Nat) : Fld := ⟨R.POS_FILT a, 8, 8⟩
def F.POS_FILT_SPAN (a : Nat) : Fld := ⟨R.POS_FILT a, 16, 3⟩
def F.POS_FILT_ZERO_T (a : Nat) : Fld := ⟨R.POS_FILT a, 24, 8⟩
/-- R209 of 07_position_feedback.md. -/
def R.POS_REF (a : Nat) : Nat := 0xA0010 + 0x100 * a
def F.POS_REF_ANG_OFS (a : Nat) : Fld := ⟨R.POS_REF a, 0, 16⟩
def F.POS_REF_REF_ANG (a : Nat) : Fld := ⟨R.POS_REF a, 16, 16⟩
/-- R209 of 07_position_feedback.md. -/
def R.POS_CHK (a : Nat) : Nat := 0xA0014 + 0x100 * a
def F.POS_CHK_LC_TOL (a : Nat) : Fld := ⟨R.POS_CHK a, 0, 8⟩
def F.POS_CHK_LC_N (a : Nat) : Fld := ⟨R.POS_CHK a, 8, 4⟩
def F.POS_CHK_GAP_HI (a : Nat) : Fld := ⟨R.POS_CHK a, 16, 8⟩
def F.POS_CHK_GAP_LO (a : Nat) : Fld := ⟨R.POS_CHK a, 24, 8⟩
/-- R209 of 07_position_feedback.md. -/
def R.POS_RES (a : Nat) : Nat := 0xA0018 + 0x100 * a
def F.POS_RES_EXC_F (a : Nat) : Fld := ⟨R.POS_RES a, 0, 2⟩
def F.POS_RES_EXC_AMP (a : Nat) : Fld := ⟨R.POS_RES a, 2, 4⟩
def F.POS_RES_RES_DLY (a : Nat) : Fld := ⟨R.POS_RES a, 8, 8⟩
def F.POS_RES_RES_PP (a : Nat) : Fld := ⟨R.POS_RES a, 16, 4⟩
def F.POS_RES_BW (a : Nat) : Fld := ⟨R.POS_RES a, 20, 4⟩
def F.POS_RES_AMP_NOM (a : Nat) : Fld := ⟨R.POS_RES a, 24, 8⟩
/-- R210 of 07_position_feedback.md. -/
def R.POS_ANG (a : Nat) : Nat := 0xA0020 + 0x100 * a
def F.POS_ANG_ANGLE (a : Nat) : Fld := ⟨R.POS_ANG a, 0, 16⟩
def F.POS_ANG_REF (a : Nat) : Fld := ⟨R.POS_ANG a, 16, 2⟩
def F.POS_ANG_VALID (a : Nat) : Fld := ⟨R.POS_ANG a, 18, 1⟩
def F.POS_ANG_CAPPED (a : Nat) : Fld := ⟨R.POS_ANG a, 19, 1⟩
def F.POS_ANG_SNAPPED (a : Nat) : Fld := ⟨R.POS_ANG a, 20, 1⟩
def F.POS_ANG_FAIL (a : Nat) : Fld := ⟨R.POS_ANG a, 21, 1⟩
/-- R211 of 07_position_feedback.md. -/
def R.POS_CMP_CTL (a : Nat) : Nat := 0xA0038 + 0x100 * a
def F.POS_CMP_CTL_EN (a : Nat) : Fld := ⟨R.POS_CMP_CTL a, 0, 1⟩
def F.POS_CMP_CTL_OUT (a : Nat) : Fld := ⟨R.POS_CMP_CTL a, 1, 1⟩
def F.POS_CMP_CTL_HIT (a : Nat) : Fld := ⟨R.POS_CMP_CTL a, 2, 1⟩
def F.POS_CMP_CTL_SKIP (a : Nat) : Fld := ⟨R.POS_CMP_CTL a, 3, 1⟩
def F.POS_CMP_CTL_SKIP_CNT (a : Nat) : Fld := ⟨R.POS_CMP_CTL a, 16, 8⟩
/-- R209 of 07_position_feedback.md. -/
def R.POS_TOOTH (a : Nat) : Nat := 0xA0008 + 0x100 * a
def F.POS_TOOTH_TOOTH_ANG (a : Nat) : Fld := ⟨R.POS_TOOTH a, 0, 32⟩
/-- R210 of 07_position_feedback.md. -/
def R.POS_MT (a : Nat) : Nat := 0xA0024 + 0x100 * a
def F.POS_MT_MT (a : Nat) : Fld := ⟨R.POS_MT a, 0, 32⟩
/-- R210 of 07_position_feedback.md. -/
def R.POS_SPD (a : Nat) : Nat := 0xA0028 + 0x100 * a
def F.POS_SPD_SPEED (a : Nat) : Fld := ⟨R.POS_SPD a, 0, 32⟩
/-- R211 of 07_position_feedback.md. -/
def R.POS_CMP (a : Nat) : Nat := 0xA0030 + 0x100 * a
def F.POS_CMP_CMP (a : Nat) : Fld := ⟨R.POS_CMP a, 0, 32⟩
/-- R211 of 07_position_feedback.md. -/
def R.POS_STEP (a : Nat) : Nat := 0xA0034 + 0x100 * a
def F.POS_STEP_STEP (a : Nat) : Fld := ⟨R.POS_STEP a, 0, 32⟩
/-- R211 of 07_position_feedback.md. -/
def R.POS_HIT_LO (a : Nat) : Nat := 0xA003C + 0x100 * a
def F.POS_HIT_LO_HIT (a : Nat) : Fld := ⟨R.POS_HIT_LO a, 0, 32⟩
/-- R211 of 07_position_feedback.md. -/
def R.POS_HIT_HI (a : Nat) : Nat := 0xA004C + 0x100 * a
def F.POS_HIT_HI_HIT (a : Nat) : Fld := ⟨R.POS_HIT_HI a, 0, 32⟩
/-- R212 of 07_position_feedback.md. -/
def R.POS_STAT (a : Nat) : Nat := 0xA0040 + 0x100 * a
def F.POS_STAT_ILLEGAL (a : Nat) : Fld := ⟨R.POS_STAT a, 0, 1⟩
def F.POS_STAT_LC_ERR (a : Nat) : Fld := ⟨R.POS_STAT a, 1, 1⟩
def F.POS_STAT_NO_REF (a : Nat) : Fld := ⟨R.POS_STAT a, 2, 1⟩
def F.POS_STAT_LOS (a : Nat) : Fld := ⟨R.POS_STAT a, 3, 1⟩
def F.POS_STAT_LOT (a : Nat) : Fld := ⟨R.POS_STAT a, 4, 1⟩
def F.POS_STAT_HALL_BAD (a : Nat) : Fld := ⟨R.POS_STAT a, 5, 1⟩
def F.POS_STAT_CFG_BAD (a : Nat) : Fld := ⟨R.POS_STAT a, 6, 1⟩
def F.POS_STAT_WR_IGN (a : Nat) : Fld := ⟨R.POS_STAT a, 7, 1⟩
def F.POS_STAT_FAIL_CAUSE (a : Nat) : Fld := ⟨R.POS_STAT a, 8, 3⟩
def F.POS_STAT_LC_DIFF (a : Nat) : Fld := ⟨R.POS_STAT a, 16, 8⟩
/-- R212 of 07_position_feedback.md. -/
def R.POS_CNT (a : Nat) : Nat := 0xA0044 + 0x100 * a
def F.POS_CNT_ILL_CNT (a : Nat) : Fld := ⟨R.POS_CNT a, 0, 8⟩
def F.POS_CNT_LC_CNT (a : Nat) : Fld := ⟨R.POS_CNT a, 8, 8⟩
def F.POS_CNT_RES_CNT (a : Nat) : Fld := ⟨R.POS_CNT a, 16, 8⟩
def F.POS_CNT_SAT (a : Nat) : Fld := ⟨R.POS_CNT a, 31, 1⟩
/-- R294 of 10_motion_profiles.md. -/
def R.MOT_CFG (a : Nat) : Nat := 0xB0000 + 0x100 * a
def F.MOT_CFG_LIM_EN (a : Nat) : Fld := ⟨R.MOT_CFG a, 0, 1⟩
def F.MOT_CFG_RES_EN (a : Nat) : Fld := ⟨R.MOT_CFG a, 1, 1⟩
def F.MOT_CFG_SERVO_DIV (a : Nat) : Fld := ⟨R.MOT_CFG a, 8, 8⟩
def F.MOT_CFG_KPOS (a : Nat) : Fld := ⟨R.MOT_CFG a, 16, 16⟩
/-- R294 of 10_motion_profiles.md. -/
def R.MOT_FE (a : Nat) : Nat := 0xB0004 + 0x100 * a
def F.MOT_FE_FE_MAX (a : Nat) : Fld := ⟨R.MOT_FE a, 0, 32⟩
/-- R294 of 10_motion_profiles.md. -/
def R.MOT_V_START (a : Nat) : Nat := 0xB0010 + 0x100 * a
def F.MOT_V_START_V_START (a : Nat) : Fld := ⟨R.MOT_V_START a, 0, 32⟩
/-- R294 of 10_motion_profiles.md. -/
def R.MOT_V_BRK (a : Nat) : Nat := 0xB0014 + 0x100 * a
def F.MOT_V_BRK_V_BRK (a : Nat) : Fld := ⟨R.MOT_V_BRK a, 0, 32⟩
/-- R294 of 10_motion_profiles.md. -/
def R.MOT_V_MAX (a : Nat) : Nat := 0xB0018 + 0x100 * a
def F.MOT_V_MAX_V_MAX (a : Nat) : Fld := ⟨R.MOT_V_MAX a, 0, 32⟩
/-- R294 of 10_motion_profiles.md. -/
def R.MOT_V_STOP (a : Nat) : Nat := 0xB001C + 0x100 * a
def F.MOT_V_STOP_V_STOP (a : Nat) : Fld := ⟨R.MOT_V_STOP a, 0, 32⟩
/-- R294 of 10_motion_profiles.md. -/
def R.MOT_A1 (a : Nat) : Nat := 0xB0020 + 0x100 * a
def F.MOT_A1_A1 (a : Nat) : Fld := ⟨R.MOT_A1 a, 0, 32⟩
/-- R294 of 10_motion_profiles.md. -/
def R.MOT_A2 (a : Nat) : Nat := 0xB0024 + 0x100 * a
def F.MOT_A2_A2 (a : Nat) : Fld := ⟨R.MOT_A2 a, 0, 32⟩
/-- R294 of 10_motion_profiles.md. -/
def R.MOT_D1 (a : Nat) : Nat := 0xB0028 + 0x100 * a
def F.MOT_D1_D1 (a : Nat) : Fld := ⟨R.MOT_D1 a, 0, 32⟩
/-- R294 of 10_motion_profiles.md. -/
def R.MOT_D2 (a : Nat) : Nat := 0xB002C + 0x100 * a
def F.MOT_D2_D2 (a : Nat) : Fld := ⟨R.MOT_D2 a, 0, 32⟩
/-- R294 of 10_motion_profiles.md. -/
def R.MOT_TARGET (a : Nat) : Nat := 0xB0030 + 0x100 * a
def F.MOT_TARGET_TARGET (a : Nat) : Fld := ⟨R.MOT_TARGET a, 0, 32⟩
/-- R294 of 10_motion_profiles.md. -/
def R.MOT_TBL (a : Nat) : Nat := 0xB0034 + 0x100 * a
def F.MOT_TBL_BASE (a : Nat) : Fld := ⟨R.MOT_TBL a, 0, 18⟩
/-- R294 of 10_motion_profiles.md. -/
def R.MOT_CTL (a : Nat) : Nat := 0xB0038 + 0x100 * a
def F.MOT_CTL_GO (a : Nat) : Fld := ⟨R.MOT_CTL a, 0, 1⟩
def F.MOT_CTL_HALT (a : Nat) : Fld := ⟨R.MOT_CTL a, 1, 1⟩
def F.MOT_CTL_FORM (a : Nat) : Fld := ⟨R.MOT_CTL a, 2, 1⟩
def F.MOT_CTL_STATE (a : Nat) : Fld := ⟨R.MOT_CTL a, 4, 3⟩
def F.MOT_CTL_SEG (a : Nat) : Fld := ⟨R.MOT_CTL a, 8, 12⟩
/-- R294 of 10_motion_profiles.md. -/
def R.MOT_LIM_LO (a : Nat) : Nat := 0xB0040 + 0x100 * a
def F.MOT_LIM_LO_LIM_LO (a : Nat) : Fld := ⟨R.MOT_LIM_LO a, 0, 32⟩
/-- R294 of 10_motion_profiles.md. -/
def R.MOT_LIM_HI (a : Nat) : Nat := 0xB0044 + 0x100 * a
def F.MOT_LIM_HI_LIM_HI (a : Nat) : Fld := ⟨R.MOT_LIM_HI a, 0, 32⟩
/-- R294 of 10_motion_profiles.md. -/
def R.MOT_LIM_TOL (a : Nat) : Nat := 0xB0048 + 0x100 * a
def F.MOT_LIM_TOL_LIM_TOL (a : Nat) : Fld := ⟨R.MOT_LIM_TOL a, 0, 32⟩
/-- R294 of 10_motion_profiles.md. -/
def R.MOT_RES (a : Nat) : Nat := 0xB004C + 0x100 * a
def F.MOT_RES_PHI0 (a : Nat) : Fld := ⟨R.MOT_RES a, 0, 16⟩
def F.MOT_RES_RES_GAIN (a : Nat) : Fld := ⟨R.MOT_RES a, 16, 8⟩
def F.MOT_RES_RES_DECAY (a : Nat) : Fld := ⟨R.MOT_RES a, 24, 8⟩
/-- R294 of 10_motion_profiles.md. -/
def R.MOT_RESMAX (a : Nat) : Nat := 0xB0050 + 0x100 * a
def F.MOT_RESMAX_RES_MAX (a : Nat) : Fld := ⟨R.MOT_RESMAX a, 0, 16⟩
/-- R294 of 10_motion_profiles.md. -/
def R.MOT_GEN_VMAX (a : Nat) : Nat := 0xB0054 + 0x100 * a
def F.MOT_GEN_VMAX_GEN_VMAX (a : Nat) : Fld := ⟨R.MOT_GEN_VMAX a, 0, 32⟩
/-- R295 of 10_motion_profiles.md. -/
def R.MOT_PSP (a : Nat) : Nat := 0xB0060 + 0x100 * a
def F.MOT_PSP_P_SP (a : Nat) : Fld := ⟨R.MOT_PSP a, 0, 32⟩
/-- R295 of 10_motion_profiles.md. -/
def R.MOT_VSP (a : Nat) : Nat := 0xB0064 + 0x100 * a
def F.MOT_VSP_V_SP (a : Nat) : Fld := ⟨R.MOT_VSP a, 0, 32⟩
/-- R295 of 10_motion_profiles.md. -/
def R.MOT_GEN (a : Nat) : Nat := 0xB0068 + 0x100 * a
def F.MOT_GEN_ADDR (a : Nat) : Fld := ⟨R.MOT_GEN a, 0, 12⟩
def F.MOT_GEN_RSV (a : Nat) : Fld := ⟨R.MOT_GEN a, 16, 16⟩
/-- R295 of 10_motion_profiles.md. -/
def R.MOT_STAT (a : Nat) : Nat := 0xB006C + 0x100 * a
def F.MOT_STAT_CFG_BAD (a : Nat) : Fld := ⟨R.MOT_STAT a, 0, 1⟩
def F.MOT_STAT_LIM_CLIP (a : Nat) : Fld := ⟨R.MOT_STAT a, 1, 1⟩
def F.MOT_STAT_LIM_HIT (a : Nat) : Fld := ⟨R.MOT_STAT a, 2, 1⟩
def F.MOT_STAT_FE_ERR (a : Nat) : Fld := ⟨R.MOT_STAT a, 3, 1⟩
def F.MOT_STAT_POS_LOST (a : Nat) : Fld := ⟨R.MOT_STAT a, 4, 1⟩
def F.MOT_STAT_OVERSHOOT (a : Nat) : Fld := ⟨R.MOT_STAT a, 5, 1⟩
def F.MOT_STAT_RES_SAT (a : Nat) : Fld := ⟨R.MOT_STAT a, 6, 1⟩
def F.MOT_STAT_WR_IGN (a : Nat) : Fld := ⟨R.MOT_STAT a, 7, 1⟩
def F.MOT_STAT_TBL_BAD (a : Nat) : Fld := ⟨R.MOT_STAT a, 8, 1⟩
/-- R316 of 11_segment_handover.md. -/
def R.MOT_HOV_CFG (a : Nat) : Nat := 0xB0800 + 0x80 * a
def F.MOT_HOV_CFG_EN (a : Nat) : Fld := ⟨R.MOT_HOV_CFG a, 0, 1⟩
def F.MOT_HOV_CFG_UP_NB (a : Nat) : Fld := ⟨R.MOT_HOV_CFG a, 1, 2⟩
def F.MOT_HOV_CFG_DN_NB (a : Nat) : Fld := ⟨R.MOT_HOV_CFG a, 3, 2⟩
/-- R316 of 11_segment_handover.md. -/
def R.MOT_HOV_UP_START (a : Nat) : Nat := 0xB0804 + 0x80 * a
def F.MOT_HOV_UP_START_UP_START (a : Nat) : Fld := ⟨R.MOT_HOV_UP_START a, 0, 32⟩
/-- R316 of 11_segment_handover.md. -/
def R.MOT_HOV_UP_END (a : Nat) : Nat := 0xB0808 + 0x80 * a
def F.MOT_HOV_UP_END_UP_END (a : Nat) : Fld := ⟨R.MOT_HOV_UP_END a, 0, 32⟩
/-- R316 of 11_segment_handover.md. -/
def R.MOT_HOV_DN_START (a : Nat) : Nat := 0xB080C + 0x80 * a
def F.MOT_HOV_DN_START_DN_START (a : Nat) : Fld := ⟨R.MOT_HOV_DN_START a, 0, 32⟩
/-- R316 of 11_segment_handover.md. -/
def R.MOT_HOV_DN_END (a : Nat) : Nat := 0xB0810 + 0x80 * a
def F.MOT_HOV_DN_END_DN_END (a : Nat) : Fld := ⟨R.MOT_HOV_DN_END a, 0, 32⟩
/-- R316 of 11_segment_handover.md. -/
def R.MOT_HOV_UP_OFS (a : Nat) : Nat := 0xB0814 + 0x80 * a
def F.MOT_HOV_UP_OFS_UP_OFS (a : Nat) : Fld := ⟨R.MOT_HOV_UP_OFS a, 0, 32⟩
/-- R316 of 11_segment_handover.md. -/
def R.MOT_HOV_DN_OFS (a : Nat) : Nat := 0xB0818 + 0x80 * a
def F.MOT_HOV_DN_OFS_DN_OFS (a : Nat) : Fld := ⟨R.MOT_HOV_DN_OFS a, 0, 32⟩
/-- R316 of 11_segment_handover.md. -/
def R.MOT_HOV_TRN_LO (a : Nat) : Nat := 0xB081C + 0x80 * a
def F.MOT_HOV_TRN_LO_TRN_LO (a : Nat) : Fld := ⟨R.MOT_HOV_TRN_LO a, 0, 32⟩
/-- R316 of 11_segment_handover.md. -/
def R.MOT_HOV_TRN_HI (a : Nat) : Nat := 0xB0820 + 0x80 * a
def F.MOT_HOV_TRN_HI_TRN_HI (a : Nat) : Fld := ⟨R.MOT_HOV_TRN_HI a, 0, 32⟩
/-- R318 of 11_segment_handover.md. -/
def R.MOT_HOV_STAT (a : Nat) : Nat := 0xB0840 + 0x80 * a
def F.MOT_HOV_STAT_STATE (a : Nat) : Fld := ⟨R.MOT_HOV_STAT a, 0, 3⟩
def F.MOT_HOV_STAT_ROLE (a : Nat) : Fld := ⟨R.MOT_HOV_STAT a, 3, 2⟩
def F.MOT_HOV_STAT_DIR (a : Nat) : Fld := ⟨R.MOT_HOV_STAT a, 5, 1⟩
def F.MOT_HOV_STAT_LATE (a : Nat) : Fld := ⟨R.MOT_HOV_STAT a, 6, 1⟩
def F.MOT_HOV_STAT_STATE_LOSS (a : Nat) : Fld := ⟨R.MOT_HOV_STAT a, 7, 1⟩
def F.MOT_HOV_STAT_ABORT_TX (a : Nat) : Fld := ⟨R.MOT_HOV_STAT a, 8, 1⟩
def F.MOT_HOV_STAT_ABORT_RX (a : Nat) : Fld := ⟨R.MOT_HOV_STAT a, 9, 1⟩
def F.MOT_HOV_STAT_CFG_BAD (a : Nat) : Fld := ⟨R.MOT_HOV_STAT a, 10, 1⟩
def F.MOT_HOV_STAT_WR_IGN (a : Nat) : Fld := ⟨R.MOT_HOV_STAT a, 11, 1⟩
def F.MOT_HOV_STAT_LAST_REASON (a : Nat) : Fld := ⟨R.MOT_HOV_STAT a, 16, 8⟩
/-- R318 of 11_segment_handover.md. -/
def R.MOT_HOV_CNT (a : Nat) : Nat := 0xB0844 + 0x80 * a
def F.MOT_HOV_CNT_OK_CNT (a : Nat) : Fld := ⟨R.MOT_HOV_CNT a, 0, 16⟩
def F.MOT_HOV_CNT_ABORT_CNT (a : Nat) : Fld := ⟨R.MOT_HOV_CNT a, 16, 8⟩
def F.MOT_HOV_CNT_SAT (a : Nat) : Fld := ⟨R.MOT_HOV_CNT a, 31, 1⟩
/-- R317 of 11_segment_handover.md. -/
def R.MOT_HOV_POL : Nat := 0xB0900
def F.MOT_HOV_POL_LEAD_MS : Fld := ⟨R.MOT_HOV_POL, 0, 8⟩
def F.MOT_HOV_POL_MISS_N : Fld := ⟨R.MOT_HOV_POL, 8, 4⟩
def F.MOT_HOV_POL_AUTO_WATCH : Fld := ⟨R.MOT_HOV_POL, 12, 1⟩
def F.MOT_HOV_POL_LATE_TAKE : Fld := ⟨R.MOT_HOV_POL, 13, 1⟩
def F.MOT_HOV_POL_ALLOW_REV : Fld := ⟨R.MOT_HOV_POL, 14, 1⟩
def F.MOT_HOV_POL_POS_TOL : Fld := ⟨R.MOT_HOV_POL, 16, 16⟩
/-- R317 of 11_segment_handover.md. -/
def R.MOT_HOV_IDLE : Nat := 0xB0904
def F.MOT_HOV_IDLE_IDLE_T : Fld := ⟨R.MOT_HOV_IDLE, 0, 16⟩
/-- R358 of 12_uzodar_safety.md. -/
def R.SAF_STAT : Nat := 0xC0000
def F.SAF_STAT_STO_A : Fld := ⟨R.SAF_STAT, 0, 1⟩
def F.SAF_STAT_STO_B : Fld := ⟨R.SAF_STAT, 1, 1⟩
def F.SAF_STAT_STO_ACT : Fld := ⟨R.SAF_STAT, 2, 1⟩
def F.SAF_STAT_STO_DISC : Fld := ⟨R.SAF_STAT, 3, 1⟩
def F.SAF_STAT_SS1_0 : Fld := ⟨R.SAF_STAT, 4, 1⟩
def F.SAF_STAT_SS1_1 : Fld := ⟨R.SAF_STAT, 5, 1⟩
def F.SAF_STAT_ASC_0 : Fld := ⟨R.SAF_STAT, 6, 1⟩
def F.SAF_STAT_ASC_1 : Fld := ⟨R.SAF_STAT, 7, 1⟩
def F.SAF_STAT_DCH_ACT : Fld := ⟨R.SAF_STAT, 8, 1⟩
def F.SAF_STAT_DCH_FAIL : Fld := ⟨R.SAF_STAT, 9, 1⟩
def F.SAF_STAT_CO0_CMD : Fld := ⟨R.SAF_STAT, 10, 1⟩
def F.SAF_STAT_CO1_CMD : Fld := ⟨R.SAF_STAT, 11, 1⟩
def F.SAF_STAT_FB0 : Fld := ⟨R.SAF_STAT, 12, 1⟩
def F.SAF_STAT_FB1 : Fld := ⟨R.SAF_STAT, 13, 1⟩
def F.SAF_STAT_CON_CAUSE : Fld := ⟨R.SAF_STAT, 14, 2⟩
def F.SAF_STAT_LANE_FAULT : Fld := ⟨R.SAF_STAT, 16, 1⟩
def F.SAF_STAT_SHADOW : Fld := ⟨R.SAF_STAT, 17, 1⟩
def F.SAF_STAT_LATCHED : Fld := ⟨R.SAF_STAT, 18, 1⟩
/-- R358 of 12_uzodar_safety.md. -/
def R.SAF_ROWS (a : Nat) : Nat := 0xC0004 + 0x4 * a
def F.SAF_ROWS_ROWS (a : Nat) : Fld := ⟨R.SAF_ROWS a, 0, 32⟩
/-- R358 of 12_uzodar_safety.md. -/
def R.SAF_FIRST : Nat := 0xC000C
def F.SAF_FIRST_ROW : Fld := ⟨R.SAF_FIRST, 0, 5⟩
def F.SAF_FIRST_AXIS : Fld := ⟨R.SAF_FIRST, 5, 1⟩
def F.SAF_FIRST_VALID : Fld := ⟨R.SAF_FIRST, 31, 1⟩
/-- R358 of 12_uzodar_safety.md. -/
def R.SAF_TMON (a : Nat) : Nat := 0xC0010 + 0x4 * a
def F.SAF_TMON_IQ (a : Nat) : Fld := ⟨R.SAF_TMON a, 0, 16⟩
def F.SAF_TMON_ACC (a : Nat) : Fld := ⟨R.SAF_TMON a, 16, 16⟩
/-- R358 of 12_uzodar_safety.md. -/
def R.SAF_LIMP (a : Nat) : Nat := 0xC0018 + 0x4 * a
def F.SAF_LIMP_LIMP_S (a : Nat) : Fld := ⟨R.SAF_LIMP a, 0, 10⟩
/-- R358 of 12_uzodar_safety.md. -/
def R.SAF_SO : Nat := 0xC0020
def F.SAF_SO_ON0 : Fld := ⟨R.SAF_SO, 0, 1⟩
def F.SAF_SO_CAUSE0 : Fld := ⟨R.SAF_SO, 1, 3⟩
def F.SAF_SO_ON1 : Fld := ⟨R.SAF_SO, 4, 1⟩
def F.SAF_SO_CAUSE1 : Fld := ⟨R.SAF_SO, 5, 3⟩
def F.SAF_SO_ON2 : Fld := ⟨R.SAF_SO, 8, 1⟩
def F.SAF_SO_CAUSE2 : Fld := ⟨R.SAF_SO, 9, 3⟩
def F.SAF_SO_ON3 : Fld := ⟨R.SAF_SO, 12, 1⟩
def F.SAF_SO_CAUSE3 : Fld := ⟨R.SAF_SO, 13, 3⟩
def F.SAF_SO_ON4 : Fld := ⟨R.SAF_SO, 16, 1⟩
def F.SAF_SO_CAUSE4 : Fld := ⟨R.SAF_SO, 17, 3⟩
def F.SAF_SO_ON5 : Fld := ⟨R.SAF_SO, 20, 1⟩
def F.SAF_SO_CAUSE5 : Fld := ⟨R.SAF_SO, 21, 3⟩
/-- R358 of 12_uzodar_safety.md. -/
def R.SAF_BTEST (a : Nat) : Nat := 0xC0028 + 0x4 * a
def F.SAF_BTEST_RES (a : Nat) : Fld := ⟨R.SAF_BTEST a, 0, 2⟩
def F.SAF_BTEST_AGE (a : Nat) : Fld := ⟨R.SAF_BTEST a, 16, 16⟩
/-- R483 of 17_tramer_chain.md. -/
def R.CHN_ADDR : Nat := 0xD0000
def F.CHN_ADDR_ADDR : Fld := ⟨R.CHN_ADDR, 0, 14⟩
def F.CHN_ADDR_PEND : Fld := ⟨R.CHN_ADDR, 14, 1⟩
def F.CHN_ADDR_NEW : Fld := ⟨R.CHN_ADDR, 16, 14⟩
def F.CHN_ADDR_OVF : Fld := ⟨R.CHN_ADDR, 30, 1⟩
/-- R483 of 17_tramer_chain.md. -/
def R.CHN_PORT (p : Nat) : Nat := 0xD0010 + 0x20 * p
def F.CHN_PORT_STATE (p : Nat) : Fld := ⟨R.CHN_PORT p, 0, 2⟩
def F.CHN_PORT_LINK (p : Nat) : Fld := ⟨R.CHN_PORT p, 2, 1⟩
def F.CHN_PORT_HELD (p : Nat) : Fld := ⟨R.CHN_PORT p, 3, 1⟩
def F.CHN_PORT_CREDIT (p : Nat) : Fld := ⟨R.CHN_PORT p, 4, 4⟩
def F.CHN_PORT_TSRC (p : Nat) : Fld := ⟨R.CHN_PORT p, 8, 1⟩
def F.CHN_PORT_PHOPS (p : Nat) : Fld := ⟨R.CHN_PORT p, 16, 14⟩
/-- R483 of 17_tramer_chain.md. -/
def R.CHN_DLINK (p : Nat) : Nat := 0xD0014 + 0x20 * p
def F.CHN_DLINK_DLINK (p : Nat) : Fld := ⟨R.CHN_DLINK p, 0, 24⟩
/-- R483 of 17_tramer_chain.md. -/
def R.CHN_ASYM (p : Nat) : Nat := 0xD0018 + 0x20 * p
def F.CHN_ASYM_ASYM (p : Nat) : Fld := ⟨R.CHN_ASYM p, 0, 16⟩
/-- R483 of 17_tramer_chain.md. -/
def R.CHN_ERR (p : Nat) : Nat := 0xD001C + 0x20 * p
def F.CHN_ERR_CODE_ERR (p : Nat) : Fld := ⟨R.CHN_ERR p, 0, 16⟩
def F.CHN_ERR_CRC_ERR (p : Nat) : Fld := ⟨R.CHN_ERR p, 16, 8⟩
def F.CHN_ERR_LINK_DN (p : Nat) : Fld := ⟨R.CHN_ERR p, 24, 7⟩
def F.CHN_ERR_SAT (p : Nat) : Fld := ⟨R.CHN_ERR p, 31, 1⟩
/-- R483 of 17_tramer_chain.md. -/
def R.CHN_TIME : Nat := 0xD0050
def F.CHN_TIME_SYNCED : Fld := ⟨R.CHN_TIME, 0, 1⟩
def F.CHN_TIME_ROOT : Fld := ⟨R.CHN_TIME, 1, 1⟩
def F.CHN_TIME_HOLDOVER : Fld := ⟨R.CHN_TIME, 2, 1⟩
def F.CHN_TIME_STEPPED : Fld := ⟨R.CHN_TIME, 3, 1⟩
def F.CHN_TIME_HOPS : Fld := ⟨R.CHN_TIME, 16, 14⟩
/-- R483 of 17_tramer_chain.md. -/
def R.CHN_OFS : Nat := 0xD0054
def F.CHN_OFS_OFS : Fld := ⟨R.CHN_OFS, 0, 32⟩
/-- R483 of 17_tramer_chain.md. -/
def R.CHN_CT_LO : Nat := 0xD0058
def F.CHN_CT_LO_CT : Fld := ⟨R.CHN_CT_LO, 0, 32⟩
/-- R483 of 17_tramer_chain.md. -/
def R.CHN_CT_HI : Nat := 0xD005C
def F.CHN_CT_HI_CT : Fld := ⟨R.CHN_CT_HI, 0, 32⟩
/-- R483 of 17_tramer_chain.md. -/
def R.CHN_ROOT_TRIM : Nat := 0xD0060
def F.CHN_ROOT_TRIM_TRIM : Fld := ⟨R.CHN_ROOT_TRIM, 0, 18⟩
/-- R483 of 17_tramer_chain.md. -/
def R.CHN_BREAK : Nat := 0xD0064
def F.CHN_BREAK_UP_BND : Fld := ⟨R.CHN_BREAK, 0, 14⟩
def F.CHN_BREAK_UP_VALID : Fld := ⟨R.CHN_BREAK, 15, 1⟩
def F.CHN_BREAK_DN_BND : Fld := ⟨R.CHN_BREAK, 16, 14⟩
def F.CHN_BREAK_DN_VALID : Fld := ⟨R.CHN_BREAK, 31, 1⟩
/-- R483 of 17_tramer_chain.md. -/
def R.CHN_ROLL : Nat := 0xD0068
def F.CHN_ROLL_COUNT : Fld := ⟨R.CHN_ROLL, 0, 14⟩
def F.CHN_ROLL_STATE : Fld := ⟨R.CHN_ROLL, 16, 3⟩
def F.CHN_ROLL_ROLL : Fld := ⟨R.CHN_ROLL, 31, 1⟩
/-- R483 of 17_tramer_chain.md. -/
def R.CHN_MA_CFG : Nat := 0xD006C
def F.CHN_MA_CFG_HOST_LO : Fld := ⟨R.CHN_MA_CFG, 0, 14⟩
def F.CHN_MA_CFG_HOST_HI : Fld := ⟨R.CHN_MA_CFG, 16, 14⟩
/-- R483 of 17_tramer_chain.md. -/
def R.CHN_NOTIFY : Nat := 0xD0070
def F.CHN_NOTIFY_DST : Fld := ⟨R.CHN_NOTIFY, 0, 14⟩
/-- R483 of 17_tramer_chain.md. -/
def R.CHN_DROP : Nat := 0xD0074
def F.CHN_DROP_UNREACH : Fld := ⟨R.CHN_DROP, 0, 16⟩
def F.CHN_DROP_TYPE_BAD : Fld := ⟨R.CHN_DROP, 16, 8⟩
def F.CHN_DROP_DENIED : Fld := ⟨R.CHN_DROP, 24, 7⟩
def F.CHN_DROP_SAT : Fld := ⟨R.CHN_DROP, 31, 1⟩
/-- R483 of 17_tramer_chain.md. -/
def R.CHN_RXQ_SEQ : Nat := 0xD0078
def F.CHN_RXQ_SEQ_SEQ : Fld := ⟨R.CHN_RXQ_SEQ, 0, 32⟩
/-- R502 of 18_can_fd.md. -/
def R.CAN_CTL (n : Nat) : Nat := 0xE0000 + 0x100 * n
def F.CAN_CTL_FD_EN (n : Nat) : Fld := ⟨R.CAN_CTL n, 0, 1⟩
def F.CAN_CTL_LISTEN (n : Nat) : Fld := ⟨R.CAN_CTL n, 1, 1⟩
def F.CAN_CTL_AUTO_REC (n : Nat) : Fld := ⟨R.CAN_CTL n, 2, 1⟩
def F.CAN_CTL_TX_TMAX (n : Nat) : Fld := ⟨R.CAN_CTL n, 8, 8⟩
def F.CAN_CTL_INIT (n : Nat) : Fld := ⟨R.CAN_CTL n, 31, 1⟩
/-- R487 of 18_can_fd.md. -/
def R.CAN_NBT (n : Nat) : Nat := 0xE0004 + 0x100 * n
def F.CAN_NBT_NBRP (n : Nat) : Fld := ⟨R.CAN_NBT n, 0, 8⟩
def F.CAN_NBT_NTSEG1 (n : Nat) : Fld := ⟨R.CAN_NBT n, 8, 8⟩
def F.CAN_NBT_NTSEG2 (n : Nat) : Fld := ⟨R.CAN_NBT n, 16, 7⟩
def F.CAN_NBT_NSJW (n : Nat) : Fld := ⟨R.CAN_NBT n, 23, 7⟩
/-- R488 of 18_can_fd.md. -/
def R.CAN_DBT (n : Nat) : Nat := 0xE0008 + 0x100 * n
def F.CAN_DBT_DBRP (n : Nat) : Fld := ⟨R.CAN_DBT n, 0, 5⟩
def F.CAN_DBT_DTSEG1 (n : Nat) : Fld := ⟨R.CAN_DBT n, 8, 5⟩
def F.CAN_DBT_DTSEG2 (n : Nat) : Fld := ⟨R.CAN_DBT n, 16, 4⟩
def F.CAN_DBT_DSJW (n : Nat) : Fld := ⟨R.CAN_DBT n, 24, 4⟩
/-- R489 of 18_can_fd.md. -/
def R.CAN_TDC (n : Nat) : Nat := 0xE000C + 0x100 * n
def F.CAN_TDC_TDCO (n : Nat) : Fld := ⟨R.CAN_TDC n, 0, 7⟩
def F.CAN_TDC_TDC_EN (n : Nat) : Fld := ⟨R.CAN_TDC n, 7, 1⟩
/-- R502 of 18_can_fd.md. -/
def R.CAN_STAT (n : Nat) : Nat := 0xE0010 + 0x100 * n
def F.CAN_STAT_STATE (n : Nat) : Fld := ⟨R.CAN_STAT n, 0, 2⟩
def F.CAN_STAT_WARN (n : Nat) : Fld := ⟨R.CAN_STAT n, 2, 1⟩
def F.CAN_STAT_TDC_OVR (n : Nat) : Fld := ⟨R.CAN_STAT n, 3, 1⟩
def F.CAN_STAT_LEC (n : Nat) : Fld := ⟨R.CAN_STAT n, 4, 3⟩
def F.CAN_STAT_WR_IGN (n : Nat) : Fld := ⟨R.CAN_STAT n, 7, 1⟩
def F.CAN_STAT_DLEC (n : Nat) : Fld := ⟨R.CAN_STAT n, 8, 3⟩
def F.CAN_STAT_TDCV (n : Nat) : Fld := ⟨R.CAN_STAT n, 16, 7⟩
/-- R502 of 18_can_fd.md. -/
def R.CAN_ERR (n : Nat) : Nat := 0xE0014 + 0x100 * n
def F.CAN_ERR_TEC (n : Nat) : Fld := ⟨R.CAN_ERR n, 0, 8⟩
def F.CAN_ERR_REC (n : Nat) : Fld := ⟨R.CAN_ERR n, 8, 7⟩
def F.CAN_ERR_RP (n : Nat) : Fld := ⟨R.CAN_ERR n, 15, 1⟩
/-- R502 of 18_can_fd.md. -/
def R.CAN_CNT (n : Nat) : Nat := 0xE0018 + 0x100 * n
def F.CAN_CNT_RX_DROP (n : Nat) : Fld := ⟨R.CAN_CNT n, 0, 16⟩
def F.CAN_CNT_RX_OVW (n : Nat) : Fld := ⟨R.CAN_CNT n, 16, 8⟩
def F.CAN_CNT_TX_FAIL (n : Nat) : Fld := ⟨R.CAN_CNT n, 24, 7⟩
def F.CAN_CNT_SAT (n : Nat) : Fld := ⟨R.CAN_CNT n, 31, 1⟩
/-- R492 of 18_can_fd.md. -/
def R.CAN_OWN (n : Nat) (w : Nat) : Nat := 0xE0020 + 0x100 * n + 0x4 * w
def F.CAN_OWN_OWN (n : Nat) (w : Nat) : Fld := ⟨R.CAN_OWN n w, 0, 32⟩
/-- R502 of 18_can_fd.md. -/
def R.CAN_TS : Nat := 0xE0800
def F.CAN_TS_TS : Fld := ⟨R.CAN_TS, 0, 32⟩
/-- R502 of 18_can_fd.md. -/
def R.CAN_TS_EPOCH : Nat := 0xE0804
def F.CAN_TS_EPOCH_EPOCH : Fld := ⟨R.CAN_TS_EPOCH, 0, 32⟩
/-- R502 of 18_can_fd.md. -/
def R.CAN_TS_CFG : Nat := 0xE0808
def F.CAN_TS_CFG_TS_PRE : Fld := ⟨R.CAN_TS_CFG, 0, 8⟩
def F.CAN_TS_CFG_SNAP : Fld := ⟨R.CAN_TS_CFG, 31, 1⟩
/-- R502 of 18_can_fd.md. -/
def R.CAN_SNAP_TS : Nat := 0xE0810
def F.CAN_SNAP_TS_TS : Fld := ⟨R.CAN_SNAP_TS, 0, 32⟩
/-- R502 of 18_can_fd.md. -/
def R.CAN_SNAP_EP : Nat := 0xE0814
def F.CAN_SNAP_EP_EP : Fld := ⟨R.CAN_SNAP_EP, 0, 32⟩
/-- R502 of 18_can_fd.md. -/
def R.CAN_SNAP_CT_LO : Nat := 0xE0818
def F.CAN_SNAP_CT_LO_CT_LO : Fld := ⟨R.CAN_SNAP_CT_LO, 0, 32⟩
/-- R502 of 18_can_fd.md. -/
def R.CAN_SNAP_CT_HI : Nat := 0xE081C
def F.CAN_SNAP_CT_HI_CT_HI : Fld := ⟨R.CAN_SNAP_CT_HI, 0, 32⟩
/-- R530 of 19_recorder.md. -/
def R.REC_CFG : Nat := 0xF0004
def F.REC_CFG_SCRUB_DAYS : Fld := ⟨R.REC_CFG, 0, 8⟩
def F.REC_CFG_SCRUB_TH : Fld := ⟨R.REC_CFG, 8, 6⟩
def F.REC_CFG_FLUSH_T : Fld := ⟨R.REC_CFG, 16, 8⟩
def F.REC_CFG_WL_SPREAD : Fld := ⟨R.REC_CFG, 24, 4⟩
def F.REC_CFG_CS1_EN : Fld := ⟨R.REC_CFG, 28, 1⟩
/-- R530 of 19_recorder.md. -/
def R.REC_EVMASK : Nat := 0xF0008
def F.REC_EVMASK_MASK : Fld := ⟨R.REC_EVMASK, 0, 18⟩
/-- R530 of 19_recorder.md. -/
def R.REC_STAT : Nat := 0xF0010
def F.REC_STAT_MOUNTED : Fld := ⟨R.REC_STAT, 0, 1⟩
def F.REC_STAT_BAN : Fld := ⟨R.REC_STAT, 1, 1⟩
def F.REC_STAT_READ_ONLY : Fld := ⟨R.REC_STAT, 2, 1⟩
def F.REC_STAT_NTC_BAD : Fld := ⟨R.REC_STAT, 3, 1⟩
def F.REC_STAT_GAP : Fld := ⟨R.REC_STAT, 4, 1⟩
def F.REC_STAT_FMT_NONE : Fld := ⟨R.REC_STAT, 5, 1⟩
def F.REC_STAT_CS1 : Fld := ⟨R.REC_STAT, 6, 1⟩
def F.REC_STAT_SCRUB_DUE : Fld := ⟨R.REC_STAT, 7, 1⟩
def F.REC_STAT_EV_DROP : Fld := ⟨R.REC_STAT, 8, 1⟩
def F.REC_STAT_UNCORR : Fld := ⟨R.REC_STAT, 9, 1⟩
def F.REC_STAT_ACCT_ERR : Fld := ⟨R.REC_STAT, 10, 1⟩
/-- R530 of 19_recorder.md. -/
def R.REC_CNT : Nat := 0xF0014
def F.REC_CNT_UNC_CNT : Fld := ⟨R.REC_CNT, 0, 8⟩
def F.REC_CNT_GROWN : Fld := ⟨R.REC_CNT, 8, 8⟩
def F.REC_CNT_EV_DROP_CNT : Fld := ⟨R.REC_CNT, 16, 8⟩
def F.REC_CNT_MAXCORR : Fld := ⟨R.REC_CNT, 24, 6⟩
def F.REC_CNT_SAT : Fld := ⟨R.REC_CNT, 31, 1⟩
/-- R530 of 19_recorder.md. -/
def R.REC_PAGES_LIVE : Nat := 0xF0018
def F.REC_PAGES_LIVE_PAGES_LIVE : Fld := ⟨R.REC_PAGES_LIVE, 0, 32⟩
/-- R530 of 19_recorder.md. -/
def R.REC_PAGES_FREE : Nat := 0xF001C
def F.REC_PAGES_FREE_PAGES_FREE : Fld := ⟨R.REC_PAGES_FREE, 0, 32⟩
/-- R530 of 19_recorder.md. -/
def R.REC_PAGES_BAD : Nat := 0xF0020
def F.REC_PAGES_BAD_PAGES_BAD : Fld := ⟨R.REC_PAGES_BAD, 0, 32⟩
/-- R530 of 19_recorder.md. -/
def R.REC_PAGES_TOTAL : Nat := 0xF0024
def F.REC_PAGES_TOTAL_PAGES_TOTAL : Fld := ⟨R.REC_PAGES_TOTAL, 0, 32⟩
/-- R530 of 19_recorder.md. -/
def R.REC_HEAD_LO : Nat := 0xF0028
def F.REC_HEAD_LO_HEAD_LO : Fld := ⟨R.REC_HEAD_LO, 0, 32⟩
/-- R530 of 19_recorder.md. -/
def R.REC_HEAD_HI : Nat := 0xF002C
def F.REC_HEAD_HI_HEAD_HI : Fld := ⟨R.REC_HEAD_HI, 0, 32⟩
/-- R530 of 19_recorder.md. -/
def R.REC_TAIL_LO : Nat := 0xF0030
def F.REC_TAIL_LO_TAIL_LO : Fld := ⟨R.REC_TAIL_LO, 0, 32⟩
/-- R530 of 19_recorder.md. -/
def R.REC_TAIL_HI : Nat := 0xF0034
def F.REC_TAIL_HI_TAIL_HI : Fld := ⟨R.REC_TAIL_HI, 0, 32⟩
/-- R530 of 19_recorder.md. -/
def R.REC_WEAR : Nat := 0xF0038
def F.REC_WEAR_EMAX : Fld := ⟨R.REC_WEAR, 0, 16⟩
def F.REC_WEAR_EMIN : Fld := ⟨R.REC_WEAR, 16, 16⟩
/-- R530 of 19_recorder.md. -/
def R.REC_SCRUB : Nat := 0xF003C
def F.REC_SCRUB_AGE : Fld := ⟨R.REC_SCRUB, 0, 16⟩
def F.REC_SCRUB_BLK : Fld := ⟨R.REC_SCRUB, 16, 16⟩
/-- R530 of 19_recorder.md. -/
def R.REC_CTL : Nat := 0xF0040
def F.REC_CTL_FLUSH : Fld := ⟨R.REC_CTL, 0, 1⟩
def F.REC_CTL_FORMAT : Fld := ⟨R.REC_CTL, 31, 1⟩
/-- R543 of 20_housekeeping_thermal.md. -/
def R.HKP_STAT : Nat := 0x100004
def F.HKP_STAT_RUN : Fld := ⟨R.HKP_STAT, 0, 1⟩
def F.HKP_STAT_ADC : Fld := ⟨R.HKP_STAT, 1, 1⟩
def F.HKP_STAT_NTC3_OK : Fld := ⟨R.HKP_STAT, 2, 1⟩
def F.HKP_STAT_ROUND : Fld := ⟨R.HKP_STAT, 8, 24⟩
/-- R544 of 20_housekeeping_thermal.md. -/
def R.HKP_NTC (k : Nat) : Nat := 0x100010 + 0x4 * k
def F.HKP_NTC_R25 (k : Nat) : Fld := ⟨R.HKP_NTC k, 0, 12⟩
def F.HKP_NTC_B (k : Nat) : Fld := ⟨R.HKP_NTC k, 12, 12⟩
def F.HKP_NTC_NTC_WARN (k : Nat) : Fld := ⟨R.HKP_NTC k, 24, 8⟩
/-- R544 of 20_housekeeping_thermal.md. -/
def R.HKP_TS : Nat := 0x100020
def F.HKP_TS_R25 : Fld := ⟨R.HKP_TS, 0, 12⟩
def F.HKP_TS_B : Fld := ⟨R.HKP_TS, 12, 12⟩
/-- R544 of 20_housekeeping_thermal.md. -/
def R.HKP_TLIM : Nat := 0x100024
def F.HKP_TLIM_DIE_WARN : Fld := ⟨R.HKP_TLIM, 0, 8⟩
def F.HKP_TLIM_DIE_CRIT : Fld := ⟨R.HKP_TLIM, 8, 8⟩
def F.HKP_TLIM_CH_WARN : Fld := ⟨R.HKP_TLIM, 16, 8⟩
def F.HKP_TLIM_CH_SPREAD : Fld := ⟨R.HKP_TLIM, 24, 8⟩
/-- R544 of 20_housekeeping_thermal.md. -/
def R.HKP_TSLIM : Nat := 0x100028
def F.HKP_TSLIM_TS_WARN : Fld := ⟨R.HKP_TSLIM, 0, 8⟩
def F.HKP_TSLIM_TS_CRIT : Fld := ⟨R.HKP_TSLIM, 8, 8⟩
/-- R544 of 20_housekeeping_thermal.md. -/
def R.HKP_BRK : Nat := 0x10002C
def F.HKP_BRK_BRK_SO : Fld := ⟨R.HKP_BRK, 0, 3⟩
def F.HKP_BRK_BRK_GAIN : Fld := ⟨R.HKP_BRK, 8, 8⟩
def F.HKP_BRK_BRK_MIN : Fld := ⟨R.HKP_BRK, 16, 16⟩
/-- R542 of 20_housekeeping_thermal.md. -/
def R.HKP_VAL (s : Nat) : Nat := 0x100100 + 0x4 * s
def F.HKP_VAL_VALUE (s : Nat) : Fld := ⟨R.HKP_VAL s, 0, 16⟩
def F.HKP_VAL_VALID (s : Nat) : Fld := ⟨R.HKP_VAL s, 16, 1⟩
def F.HKP_VAL_FAIL (s : Nat) : Fld := ⟨R.HKP_VAL s, 17, 1⟩
def F.HKP_VAL_ROUND (s : Nat) : Fld := ⟨R.HKP_VAL s, 24, 8⟩
/-- R542 of 20_housekeeping_thermal.md. -/
def R.HKP_GATE (n : Nat) : Nat := 0x100200 + 0x4 * n
def F.HKP_GATE_VPOS (n : Nat) : Fld := ⟨R.HKP_GATE n, 0, 16⟩
def F.HKP_GATE_VNEG (n : Nat) : Fld := ⟨R.HKP_GATE n, 16, 16⟩
/-- R542 of 20_housekeeping_thermal.md. -/
def R.HKP_CTEMP (n : Nat) : Nat := 0x100240 + 0x4 * n
def F.HKP_CTEMP_DIE (n : Nat) : Fld := ⟨R.HKP_CTEMP n, 0, 16⟩
def F.HKP_CTEMP_TS (n : Nat) : Fld := ⟨R.HKP_CTEMP n, 16, 16⟩
/-- R542 of 20_housekeeping_thermal.md. -/
def R.HKP_CVALID : Nat := 0x100280
def F.HKP_CVALID_VALID : Fld := ⟨R.HKP_CVALID, 0, 32⟩
/-- R404 of 14_boot_and_security.md. -/
def R.SEC_BOOT_STAT : Nat := 0x110000
def F.SEC_BOOT_STAT_SLOT : Fld := ⟨R.SEC_BOOT_STAT, 0, 2⟩
def F.SEC_BOOT_STAT_FALLBACK : Fld := ⟨R.SEC_BOOT_STAT, 2, 1⟩
def F.SEC_BOOT_STAT_CFG_FALLBACK : Fld := ⟨R.SEC_BOOT_STAT, 3, 1⟩
def F.SEC_BOOT_STAT_A_CAUSE : Fld := ⟨R.SEC_BOOT_STAT, 4, 4⟩
def F.SEC_BOOT_STAT_B_CAUSE : Fld := ⟨R.SEC_BOOT_STAT, 8, 4⟩
def F.SEC_BOOT_STAT_CFG_CAUSE : Fld := ⟨R.SEC_BOOT_STAT, 12, 4⟩
def F.SEC_BOOT_STAT_STG_CAUSE : Fld := ⟨R.SEC_BOOT_STAT, 16, 4⟩
def F.SEC_BOOT_STAT_KEYSLOT : Fld := ⟨R.SEC_BOOT_STAT, 20, 2⟩
def F.SEC_BOOT_STAT_ID_OK : Fld := ⟨R.SEC_BOOT_STAT, 22, 1⟩
def F.SEC_BOOT_STAT_STATE : Fld := ⟨R.SEC_BOOT_STAT, 24, 2⟩
/-- R405 of 14_boot_and_security.md. -/
def R.SEC_ARB : Nat := 0x110004
def F.SEC_ARB_COUNTER : Fld := ⟨R.SEC_ARB, 0, 7⟩
def F.SEC_ARB_IMG_SVN : Fld := ⟨R.SEC_ARB, 8, 8⟩
def F.SEC_ARB_CFG_SVN : Fld := ⟨R.SEC_ARB, 16, 8⟩
def F.SEC_ARB_REVOKED : Fld := ⟨R.SEC_ARB, 24, 4⟩
/-- R405 of 14_boot_and_security.md. -/
def R.SEC_DBG_STAT : Nat := 0x110010
def F.SEC_DBG_STAT_UNLOCKED : Fld := ⟨R.SEC_DBG_STAT, 0, 1⟩
def F.SEC_DBG_STAT_HALT : Fld := ⟨R.SEC_DBG_STAT, 1, 1⟩
def F.SEC_DBG_STAT_MEM : Fld := ⟨R.SEC_DBG_STAT, 2, 1⟩
def F.SEC_DBG_STAT_LOCKOUT : Fld := ⟨R.SEC_DBG_STAT, 3, 1⟩
def F.SEC_DBG_STAT_FAIL_CNT : Fld := ⟨R.SEC_DBG_STAT, 4, 3⟩
def F.SEC_DBG_STAT_KEY : Fld := ⟨R.SEC_DBG_STAT, 7, 1⟩
/-- R405 of 14_boot_and_security.md. -/
def R.SEC_RECOVERY : Nat := 0x110020
def F.SEC_RECOVERY_LENGTH : Fld := ⟨R.SEC_RECOVERY, 0, 20⟩
def F.SEC_RECOVERY_GO : Fld := ⟨R.SEC_RECOVERY, 31, 1⟩
/-- R405 of 14_boot_and_security.md. -/
def R.SEC_BIST : Nat := 0x110040
def F.SEC_BIST_FOUND : Fld := ⟨R.SEC_BIST, 0, 1⟩
def F.SEC_BIST_RAN : Fld := ⟨R.SEC_BIST, 1, 1⟩
def F.SEC_BIST_FAILED : Fld := ⟨R.SEC_BIST, 2, 1⟩
def F.SEC_BIST_SHUT_FAIL : Fld := ⟨R.SEC_BIST, 3, 1⟩
/-- R132 of 05_pwm.md. -/
def R.PWM_PERIOD (c : Nat) : Nat := 0x70100 + 0x400 * c
def F.PWM_PERIOD_PERIOD (c : Nat) : Fld := ⟨R.PWM_PERIOD c, 0, 18⟩
/-- R132 of 05_pwm.md. -/
def R.PWM_CMP_ON (c : Nat) (x : Nat) : Nat := 0x70104 + 0x400 * c + 0x8 * x
def F.PWM_CMP_ON_VALUE (c : Nat) (x : Nat) : Fld := ⟨R.PWM_CMP_ON c x, 0, 24⟩
/-- R132 of 05_pwm.md. -/
def R.PWM_CMP_OFF (c : Nat) (x : Nat) : Nat := 0x70108 + 0x400 * c + 0x8 * x
def F.PWM_CMP_OFF_VALUE (c : Nat) (x : Nat) : Fld := ⟨R.PWM_CMP_OFF c x, 0, 24⟩
/-- R132 of 05_pwm.md. -/
def R.PWM_TRIG (c : Nat) (k : Nat) : Nat := 0x7011C + 0x400 * c + 0x4 * k
def F.PWM_TRIG_COUNT (c : Nat) (k : Nat) : Fld := ⟨R.PWM_TRIG c k, 0, 18⟩
def F.PWM_TRIG_SLOPE (c : Nat) (k : Nat) : Fld := ⟨R.PWM_TRIG c k, 18, 1⟩
def F.PWM_TRIG_SCAN (c : Nat) (k : Nat) : Fld := ⟨R.PWM_TRIG c k, 19, 3⟩
def F.PWM_TRIG_EN (c : Nat) (k : Nat) : Fld := ⟨R.PWM_TRIG c k, 31, 1⟩
/-- R132 of 05_pwm.md. -/
def R.PWM_COMMIT (c : Nat) : Nat := 0x7013C + 0x400 * c
def F.PWM_COMMIT_COMMIT (c : Nat) : Fld := ⟨R.PWM_COMMIT c, 0, 1⟩
/-- R432 of 15_host_rings.md. -/
def R.HIF_MSIX_LO (v : Nat) : Nat := 0x32000 + 0x10 * v
def F.HIF_MSIX_LO_ADDR_LO (v : Nat) : Fld := ⟨R.HIF_MSIX_LO v, 0, 32⟩
/-- R432 of 15_host_rings.md. -/
def R.HIF_MSIX_HI (v : Nat) : Nat := 0x32004 + 0x10 * v
def F.HIF_MSIX_HI_ADDR_HI (v : Nat) : Fld := ⟨R.HIF_MSIX_HI v, 0, 32⟩
/-- R432 of 15_host_rings.md. -/
def R.HIF_MSIX_DATA (v : Nat) : Nat := 0x32008 + 0x10 * v
def F.HIF_MSIX_DATA_DATA (v : Nat) : Fld := ⟨R.HIF_MSIX_DATA v, 0, 32⟩
/-- R432 of 15_host_rings.md. -/
def R.HIF_MSIX_CTRL (v : Nat) : Nat := 0x3200C + 0x10 * v
def F.HIF_MSIX_CTRL_MASK (v : Nat) : Fld := ⟨R.HIF_MSIX_CTRL v, 0, 1⟩
/-- R432 of 15_host_rings.md. -/
def R.HIF_MSIX_PBA : Nat := 0x33000
def F.HIF_MSIX_PBA_PEND : Fld := ⟨R.HIF_MSIX_PBA, 0, 32⟩

/-- The register families of block SYS (R564). -/
def sysRows : List RegRow := [
  ⟨0x0, 1, 0x10000, 1, 0x4, 0x9880, 0x0, 0x0, 0x0, 0x0, .fixed⟩,
  ⟨0x8, 1, 0x10000, 1, 0x4, 0x0, 0x0, 0x0, 0x0, 0x0, .fixed⟩,
  ⟨0xC, 1, 0x10000, 1, 0x4, 0x0, 0x0, 0x0, 0x0, 0x0, .fixed⟩,
  ⟨0x10, 1, 0x10000, 1, 0x4, 0x7F, 0x0, 0x0, 0x0, 0x0, .fixed⟩,
  ⟨0x20, 1, 0x10000, 1, 0x4, 0x2200, 0x0, 0x0, 0x0, 0x0, .ao⟩]

/-- The register families of block PCK (R564). -/
def pckRows : List RegRow := [
  ⟨0x10010, 1, 0x10000, 1, 0x4, 0xC0, 0x0, 0x10038, 0x0, 0x0, .cpu⟩,
  ⟨0x10020, 1, 0x10000, 1, 0x4, 0x1, 0x0, 0x1FF, 0x0, 0x0, .ao⟩,
  ⟨0x10024, 1, 0x10000, 1, 0x4, 0x83, 0x17C, 0x0, 0x0, 0x0, .ao⟩,
  ⟨0x10028, 1, 0x10000, 1, 0x4, 0x0, 0xFFFFFFFF, 0x0, 0x0, 0x0, .ao⟩]

/-- The register families of block BLK (R564). -/
def blkRows : List RegRow := [
  ⟨0x20000, 1, 0x10000, 1, 0x4, 0x0, 0x0, 0x0, 0x0, 0x0, .lock⟩,
  ⟨0x20004, 1, 0x10000, 1, 0x4, 0x0, 0x0, 0x0, 0x0, 0x0, .lock⟩,
  ⟨0x20008, 1, 0x10000, 1, 0x4, 0x0, 0x0, 0x0, 0x1F, 0x0, .lock⟩,
  ⟨0x2000C, 1, 0x10000, 1, 0x4, 0x0, 0x0, 0x0, 0x3, 0x0, .lock⟩,
  ⟨0x20010, 1, 0x10000, 1, 0x4, 0x0, 0x0, 0x0, 0xF, 0x0, .lock⟩,
  ⟨0x20100, 32, 0x4, 1, 0x4, 0x0, 0x0, 0x0, 0x3F7, 0x0, .lock⟩,
  ⟨0x20180, 1, 0x10000, 1, 0x4, 0xA64, 0x0, 0x0, 0x1FFFF, 0x0, .lock⟩,
  ⟨0x20184, 1, 0x10000, 1, 0x4, 0x322710, 0x0, 0x0, 0xFFFFFFFF, 0x0, .lock⟩,
  ⟨0x20188, 1, 0x10000, 1, 0x4, 0x3C4000, 0x0, 0x0, 0x3FFFFFF, 0x0, .lock⟩,
  ⟨0x2018C, 1, 0x10000, 1, 0x4, 0x320000, 0x0, 0x0, 0xFFFFFFFF, 0x0, .lock⟩,
  ⟨0x20190, 1, 0x10000, 1, 0x4, 0x140CCD, 0x0, 0x0, 0xFFFFFF, 0x0, .lock⟩,
  ⟨0x20194, 1, 0x10000, 1, 0x4, 0x76C7333, 0x0, 0x0, 0xFFFFFFFF, 0x0, .lock⟩,
  ⟨0x20198, 1, 0x10000, 1, 0x4, 0x23300, 0x0, 0x0, 0xFFFF01, 0x0, .lock⟩,
  ⟨0x2019C, 2, 0x4, 1, 0x4, 0x10007D0, 0x0, 0x0, 0xFFFFFFFF, 0x0, .lock⟩,
  ⟨0x201A4, 1, 0x10000, 1, 0x4, 0x0, 0x0, 0x0, 0x3FFFF, 0x0, .lock⟩,
  ⟨0x201A8, 1, 0x10000, 1, 0x4, 0x140A1E, 0x0, 0x0, 0xFFFFFF, 0x0, .lock⟩,
  ⟨0x201AC, 1, 0x10000, 1, 0x4, 0x320A0A, 0x0, 0x0, 0xFFFFFF, 0x0, .lock⟩,
  ⟨0x201B0, 1, 0x10000, 1, 0x4, 0x258, 0x0, 0x0, 0xFFFF, 0x0, .lock⟩,
  ⟨0x201B4, 1, 0x10000, 1, 0x4, 0x3C32003C, 0x0, 0x0, 0xFFFFFFFF, 0x0, .lock⟩,
  ⟨0x201B8, 1, 0x10000, 1, 0x4, 0x100A2000, 0x0, 0x0, 0xFFFFFFFF, 0x0, .lock⟩,
  ⟨0x201BC, 1, 0x10000, 1, 0x4, 0x0, 0x0, 0x0, 0x1FFFF, 0x0, .lock⟩]

/-- The register families of block HIF (R564). -/
def hifRows : List RegRow := [
  ⟨0x30000, 1, 0x10000, 1, 0x4, 0x6400, 0xFFFF01, 0x0, 0x0, 0x0, .comm⟩,
  ⟨0x30004, 1, 0x10000, 1, 0x4, 0x0, 0x0, 0x1E, 0x0, 0x0, .link⟩,
  ⟨0x30100, 11, 0x20, 1, 0x4, 0x0, 0xFFFFFFFF, 0x0, 0x0, 0x0, .link⟩,
  ⟨0x30104, 11, 0x20, 1, 0x4, 0x0, 0xFFFFFFFF, 0x0, 0x0, 0x0, .link⟩,
  ⟨0x30108, 11, 0x20, 1, 0x4, 0x4, 0x80000FFF, 0x0, 0x0, 0x0, .link⟩,
  ⟨0x3010C, 11, 0x20, 1, 0x4, 0x0, 0xFFFFFFFF, 0x0, 0x0, 0x0, .link⟩,
  ⟨0x30110, 11, 0x20, 1, 0x4, 0x0, 0xFFFFFFFF, 0x0, 0x0, 0x0, .link⟩,
  ⟨0x30114, 11, 0x20, 1, 0x4, 0x0, 0x0, 0x0, 0x0, 0x0, .link⟩,
  ⟨0x30118, 11, 0x20, 1, 0x4, 0x0, 0x0, 0x80000000, 0x0, 0x0, .link⟩,
  ⟨0x30400, 2, 0x40, 1, 0x4, 0x0, 0x0, 0x0, 0x0, 0x0, .link⟩,
  ⟨0x30404, 2, 0x40, 1, 0x4, 0x0, 0x0, 0x0, 0x0, 0x0, .link⟩,
  ⟨0x30408, 2, 0x40, 9, 0x4, 0x0, 0x0, 0x0, 0x0, 0x0, .link⟩,
  ⟨0x3042C, 2, 0x40, 1, 0x4, 0x0, 0x0, 0x0, 0x0, 0x0, .link⟩,
  ⟨0x31000, 11, 0x4, 1, 0x4, 0x0, 0x0, 0x0, 0x0, 0xFFFF, .link⟩,
  ⟨0x32000, 32, 0x10, 1, 0x4, 0x0, 0xFFFFFFFF, 0x0, 0x0, 0x0, .link⟩,
  ⟨0x32004, 32, 0x10, 1, 0x4, 0x0, 0xFFFFFFFF, 0x0, 0x0, 0x0, .link⟩,
  ⟨0x32008, 32, 0x10, 1, 0x4, 0x0, 0xFFFFFFFF, 0x0, 0x0, 0x0, .link⟩,
  ⟨0x3200C, 32, 0x10, 1, 0x4, 0x1, 0x1, 0x0, 0x0, 0x0, .link⟩,
  ⟨0x33000, 1, 0x10000, 1, 0x4, 0x0, 0x0, 0x0, 0x0, 0x0, .link⟩]

/-- The register families of block JRN (R564). -/
def jrnRows : List RegRow := [
  ⟨0x40000, 1, 0x10000, 1, 0x4, 0x0, 0x0, 0x0, 0x0, 0x0, .cpu⟩,
  ⟨0x40004, 1, 0x10000, 1, 0x4, 0x0, 0x0, 0x0, 0x0, 0x0, .cpu⟩,
  ⟨0x40008, 1, 0x10000, 1, 0x4, 0x0, 0x0, 0x0, 0x0, 0x0, .cpu⟩,
  ⟨0x4000C, 1, 0x10000, 1, 0x4, 0x0, 0x0, 0x0, 0x0, 0x0, .cpu⟩,
  ⟨0x40010, 4, 0x8, 1, 0x4, 0x0, 0x0, 0x0, 0x0, 0x0, .cpu⟩,
  ⟨0x40014, 4, 0x8, 1, 0x4, 0x0, 0x0, 0x0, 0x0, 0x0, .cpu⟩,
  ⟨0x40030, 1, 0x10000, 1, 0x4, 0x0, 0x0, 0x0, 0x0, 0x0, .cpu⟩,
  ⟨0x40034, 1, 0x10000, 1, 0x4, 0x0, 0x0, 0x0, 0x0, 0x0, .cpu⟩,
  ⟨0x40038, 1, 0x10000, 1, 0x4, 0x0, 0x0, 0x2, 0x0, 0x0, .cpu⟩,
  ⟨0x4003C, 1, 0x10000, 1, 0x4, 0x0, 0x0, 0x0, 0x0, 0x0, .cpu⟩,
  ⟨0x40040, 1, 0x10000, 1, 0x4, 0x0, 0x0, 0x80000000, 0x0, 0x0, .cpu⟩]

/-- The register families of block CPX (R564). -/
def cpxRows : List RegRow := [
  ⟨0x50000, 1, 0x10000, 1, 0x4, 0x3E80100, 0xFFFFFF01, 0x0, 0x0, 0x0, .cpu⟩,
  ⟨0x50004, 1, 0x10000, 1, 0x4, 0x7, 0x0, 0xC000, 0x0, 0x0, .cpu⟩,
  ⟨0x50008, 1, 0x10000, 1, 0x4, 0x0, 0x0, 0x0, 0x0, 0x0, .cpu⟩,
  ⟨0x5000C, 1, 0x10000, 1, 0x4, 0x0, 0x0, 0x0, 0x0, 0x0, .cpu⟩,
  ⟨0x50010, 1, 0x10000, 1, 0x4, 0x0, 0x0, 0x80000000, 0x0, 0x0, .cpu⟩,
  ⟨0x50014, 1, 0x10000, 1, 0x4, 0x0, 0x0, 0x0, 0x0, 0x80000000, .cpu⟩,
  ⟨0x50018, 1, 0x10000, 1, 0x4, 0x0, 0x0, 0x0, 0x0, 0x0, .cpu⟩]

/-- The register families of block FSL (R564). -/
def fslRows : List RegRow := [
  ⟨0x60000, 1, 0x10000, 1, 0x4, 0x0, 0x1, 0x800000FC, 0x0, 0x0, .ctl⟩,
  ⟨0x60008, 1, 0x10000, 1, 0x4, 0x0, 0x0, 0x0, 0xFFFFFFFF, 0x0, .ctl⟩,
  ⟨0x60010, 1, 0x10000, 1, 0x4, 0x0, 0xB00FFFFF, 0x0, 0x0, 0x0, .ctl⟩,
  ⟨0x60014, 1, 0x10000, 1, 0x4, 0x0, 0xFFFFFFFF, 0x0, 0x0, 0x0, .ctl⟩,
  ⟨0x60040, 1, 0x10000, 1, 0x4, 0x0, 0x0, 0x80008000, 0x0, 0x0, .ctl⟩,
  ⟨0x60044, 1, 0x10000, 1, 0x4, 0x0, 0x0, 0x0, 0x0, 0x0, .ctl⟩,
  ⟨0x60048, 1, 0x10000, 1, 0x4, 0x0, 0x0, 0x80008000, 0x0, 0x0, .ctl⟩,
  ⟨0x60100, 2, 0x80, 1, 0x4, 0x2580000, 0x3FF9FFF, 0x0, 0x0, 0x0, .ctl⟩,
  ⟨0x60104, 2, 0x80, 1, 0x4, 0x0, 0x0, 0x10000800, 0x0, 0x80000000, .ctl⟩,
  ⟨0x60108, 2, 0x80, 1, 0x4, 0x0, 0x0, 0x20, 0x0, 0x3, .ctl⟩,
  ⟨0x60120, 2, 0x80, 1, 0x4, 0x0, 0x7, 0x0, 0x0, 0x0, .ctl⟩,
  ⟨0x60124, 2, 0x80, 7, 0x4, 0x0, 0xFFFFFFFF, 0x0, 0x0, 0x0, .ctl⟩,
  ⟨0x60300, 1, 0x10000, 1, 0x4, 0x10000003, 0x5FFFFF03, 0x0, 0x0, 0xA0000000, .ctl⟩,
  ⟨0x60304, 4, 0x4, 1, 0x4, 0xFFFFFFFF, 0xFFFFFFFF, 0x0, 0x0, 0x0, .ctl⟩,
  ⟨0x60314, 1, 0x10000, 1, 0x4, 0x0, 0xFFFF00F7, 0x0, 0x0, 0x0, .ctl⟩,
  ⟨0x60318, 1, 0x10000, 1, 0x4, 0x0, 0xFFFFFFFF, 0x0, 0x0, 0x0, .ctl⟩,
  ⟨0x6031C, 1, 0x10000, 1, 0x4, 0x0, 0x0, 0x0, 0x0, 0x0, .ctl⟩,
  ⟨0x64000, 2, 0x100, 1, 0x4, 0x610, 0xFF3F, 0x0, 0x0, 0x0, .ctl⟩,
  ⟨0x64004, 2, 0x100, 1, 0x4, 0x0, 0x0, 0x0, 0xFF0FFFFF, 0x0, .ctl⟩,
  ⟨0x64008, 2, 0x100, 1, 0x4, 0xA04064, 0xFFFFFF, 0x0, 0x0, 0x0, .ctl⟩,
  ⟨0x6400C, 2, 0x100, 1, 0x4, 0x400B61, 0xFFFFFF, 0x0, 0x0, 0x0, .ctl⟩,
  ⟨0x64010, 2, 0x100, 1, 0x4, 0x40140032, 0xFFFFFFFF, 0x0, 0x0, 0x0, .ctl⟩,
  ⟨0x64014, 2, 0x100, 1, 0x4, 0x320A1000, 0xFFFFFFFF, 0x0, 0x0, 0x0, .ctl⟩,
  ⟨0x64018, 2, 0x100, 1, 0x4, 0x400, 0xFFFF, 0x0, 0x0, 0x80000000, .ctl⟩,
  ⟨0x64020, 2, 0x100, 1, 0x4, 0x0, 0x0, 0x4C0, 0x0, 0x0, .ctl⟩,
  ⟨0x64028, 2, 0x100, 1, 0x4, 0x0, 0x0, 0x0, 0x0, 0x0, .ctl⟩,
  ⟨0x64024, 2, 0x100, 1, 0x4, 0x0, 0x0, 0x0, 0x0, 0x0, .ctl⟩,
  ⟨0x6402C, 2, 0x100, 1, 0x4, 0x0, 0x0, 0x0, 0x0, 0x0, .ctl⟩,
  ⟨0x64030, 2, 0x100, 1, 0x4, 0x0, 0x0, 0x0, 0x0, 0x0, .ctl⟩,
  ⟨0x64040, 2, 0x100, 16, 0x4, 0x0, 0xFFFFFFFF, 0x0, 0x0, 0x0, .ctl⟩]

/-- The register families of block PWM (R564). -/
def pwmRows : List RegRow := [
  ⟨0x70000, 2, 0x400, 1, 0x4, 0x0, 0x3FFFF7F, 0x0, 0x0, 0x0, .ctl⟩,
  ⟨0x70004, 2, 0x400, 1, 0x4, 0x3E80, 0x1FFFF, 0x0, 0x0, 0x0, .ctl⟩,
  ⟨0x70008, 2, 0x400, 1, 0x4, 0x28, 0x1FF, 0x0, 0x0, 0x0, .ctl⟩,
  ⟨0x7000C, 2, 0x400, 1, 0x4, 0xC80A32, 0xFFFFFFF, 0x0, 0x0, 0x0, .ctl⟩,
  ⟨0x70010, 2, 0x400, 1, 0x4, 0x80010, 0x3F3FFF, 0x0, 0x0, 0x0, .ctl⟩,
  ⟨0x70014, 2, 0x400, 1, 0x4, 0x407FFF, 0xFFFFFF, 0x0, 0x0, 0x0, .ctl⟩,
  ⟨0x70018, 2, 0x400, 1, 0x4, 0x0, 0xFFFFFFFF, 0x0, 0x0, 0x0, .ctl⟩,
  ⟨0x7001C, 2, 0x400, 1, 0x4, 0x0, 0xFFFFFFFF, 0x0, 0x0, 0x0, .ctl⟩,
  ⟨0x70020, 2, 0x400, 1, 0x4, 0x0, 0x0, 0x103B, 0x0, 0x0, .ctl⟩,
  ⟨0x70024, 2, 0x400, 3, 0x4, 0x0, 0x0, 0x0, 0x0, 0x0, .ctl⟩,
  ⟨0x70030, 2, 0x400, 1, 0x4, 0x0, 0x0, 0x80000000, 0x0, 0x0, .ctl⟩,
  ⟨0x70800, 1, 0x10000, 1, 0x4, 0x32, 0x0, 0x0, 0x1FF03FF, 0x0, .ctl⟩,
  ⟨0x70804, 1, 0x10000, 1, 0x4, 0x864, 0x0, 0x0, 0xFF7F, 0x0, .ctl⟩,
  ⟨0x70810, 1, 0x10000, 1, 0x4, 0x0, 0x0, 0x200, 0x0, 0x0, .ctl⟩,
  ⟨0x70820, 1, 0x10000, 1, 0x4, 0x200800, 0x8FFFFFFF, 0x0, 0x0, 0x0, .ctl⟩,
  ⟨0x70100, 2, 0x400, 1, 0x4, 0x0, 0x3FFFF, 0x0, 0x0, 0x0, .ctl⟩,
  ⟨0x70104, 2, 0x400, 3, 0x8, 0xFFFFFF, 0xFFFFFF, 0x0, 0x0, 0x0, .ctl⟩,
  ⟨0x70108, 2, 0x400, 3, 0x8, 0xFFFFFF, 0xFFFFFF, 0x0, 0x0, 0x0, .ctl⟩,
  ⟨0x7011C, 2, 0x400, 8, 0x4, 0x0, 0x803FFFFF, 0x0, 0x0, 0x0, .ctl⟩,
  ⟨0x7013C, 2, 0x400, 1, 0x4, 0x0, 0x0, 0x0, 0x0, 0x1, .ctl⟩]

/-- The register families of block GDC (R564). -/
def gdcRows : List RegRow := [
  ⟨0x80000, 12, 0x100, 1, 0x4, 0x61C, 0x0, 0x0, 0x31F3F, 0x0, .ctl⟩,
  ⟨0x80004, 12, 0x100, 1, 0x4, 0x10714, 0x0, 0x0, 0x13F7F, 0x0, .ctl⟩,
  ⟨0x80008, 12, 0x100, 1, 0x4, 0x0, 0x0, 0x0, 0xFF, 0x0, .ctl⟩,
  ⟨0x80010, 12, 0x100, 1, 0x4, 0x422, 0x3FF7, 0x0, 0x0, 0x0, .ctl⟩,
  ⟨0x80014, 12, 0x100, 1, 0x4, 0x0, 0xFFFFFFFF, 0x0, 0x0, 0x0, .ctl⟩,
  ⟨0x80020, 12, 0x100, 1, 0x4, 0x0, 0x0, 0x6EC0, 0x0, 0x0, .ctl⟩,
  ⟨0x80024, 12, 0x100, 1, 0x4, 0x0, 0x0, 0x80000000, 0x0, 0x0, .ctl⟩,
  ⟨0x80028, 12, 0x100, 1, 0x4, 0x0, 0x0, 0x0, 0x0, 0x0, .ctl⟩,
  ⟨0x8002C, 12, 0x100, 1, 0x4, 0x0, 0x0, 0x0, 0x0, 0x0, .ctl⟩,
  ⟨0x81000, 1, 0x10000, 1, 0x4, 0x0, 0x0, 0x0, 0x0, 0x0, .ctl⟩,
  ⟨0x81004, 1, 0x10000, 1, 0x4, 0x0, 0x30FFF, 0x0, 0x0, 0x80000000, .ctl⟩,
  ⟨0x81008, 1, 0x10000, 1, 0x4, 0xC801, 0xFFFF, 0x0, 0x0, 0x0, .ctl⟩]

/-- The register families of block ADC (R564). -/
def adcRows : List RegRow := [
  ⟨0x90000, 8, 0x4, 1, 0x4, 0x0, 0x1FFFFFF, 0x0, 0x0, 0x0, .ana⟩,
  ⟨0x90020, 1, 0x10000, 1, 0x4, 0x0, 0xFFFFFFFF, 0x0, 0x0, 0x0, .ana⟩,
  ⟨0x90024, 1, 0x10000, 1, 0x4, 0x0, 0xFFFF, 0x0, 0x0, 0x0, .ana⟩,
  ⟨0x90028, 1, 0x10000, 1, 0x4, 0x0, 0xFFFFFF, 0x0, 0x0, 0x0, .ana⟩,
  ⟨0x90030, 1, 0x10000, 1, 0x4, 0x340A4148, 0xFFFFFFFF, 0x0, 0x0, 0x0, .ana⟩,
  ⟨0x90038, 1, 0x10000, 1, 0x4, 0x601, 0x1F01, 0x0, 0x0, 0x0, .ana⟩,
  ⟨0x90040, 1, 0x10000, 1, 0x4, 0x11680A, 0xFFFF, 0x0, 0x0, 0x80000000, .ana⟩,
  ⟨0x90048, 1, 0x10000, 1, 0x4, 0x40, 0x3FF, 0x0, 0x0, 0x0, .ana⟩,
  ⟨0x90050, 1, 0x10000, 1, 0x4, 0x0, 0xFFFFF, 0x0, 0x0, 0x80000000, .ana⟩,
  ⟨0x90054, 3, 0x4, 1, 0x4, 0x0, 0x0, 0x0, 0x0, 0x0, .ana⟩,
  ⟨0x90100, 3, 0x20, 8, 0x4, 0x40000000, 0x0, 0x0, 0xFFFFFFFF, 0x0, .ana⟩,
  ⟨0x90200, 3, 0x10, 1, 0x4, 0x0, 0x0, 0xF82, 0x0, 0x0, .ana⟩,
  ⟨0x90204, 3, 0x10, 1, 0x4, 0x0, 0x0, 0x80000000, 0x0, 0x0, .ana⟩,
  ⟨0x90240, 1, 0x10000, 1, 0x4, 0x0, 0x0, 0x80008000, 0x0, 0x0, .ana⟩,
  ⟨0x91000, 3, 0x100, 24, 0x4, 0x0, 0x0, 0x0, 0x0, 0x0, .ana⟩,
  ⟨0x91400, 8, 0x4, 1, 0x4, 0x100000, 0x0, 0x0, 0x0, 0x0, .ana⟩]

/-- The register families of block POS (R564). -/
def posRows : List RegRow := [
  ⟨0xA0000, 2, 0x100, 1, 0x4, 0x40220, 0x7F0, 0x0, 0xFF000F, 0x0, .ctl⟩,
  ⟨0xA0004, 2, 0x100, 1, 0x4, 0x400, 0xFFFFFFFF, 0x0, 0x0, 0x0, .ctl⟩,
  ⟨0xA000C, 2, 0x100, 1, 0x4, 0x32023204, 0xFF07FFFF, 0x0, 0x0, 0x0, .ctl⟩,
  ⟨0xA0010, 2, 0x100, 1, 0x4, 0x0, 0xFFFFFFFF, 0x0, 0x0, 0x0, .ctl⟩,
  ⟨0xA0014, 2, 0x100, 1, 0x4, 0xC180301, 0xFFFF0FFF, 0x0, 0x0, 0x0, .ctl⟩,
  ⟨0xA0018, 2, 0x100, 1, 0x4, 0x40310021, 0xFFF0FF3F, 0x0, 0xF0000, 0x0, .ctl⟩,
  ⟨0xA0020, 2, 0x100, 1, 0x4, 0x0, 0x0, 0x100000, 0x0, 0x0, .ctl⟩,
  ⟨0xA0038, 2, 0x100, 1, 0x4, 0x0, 0x3, 0xC, 0x0, 0x0, .ctl⟩,
  ⟨0xA0008, 2, 0x100, 1, 0x4, 0x0, 0xFFFFFFFF, 0x0, 0x0, 0x0, .ctl⟩,
  ⟨0xA0024, 2, 0x100, 1, 0x4, 0x0, 0x0, 0x0, 0x0, 0x0, .ctl⟩,
  ⟨0xA0028, 2, 0x100, 1, 0x4, 0x0, 0x0, 0x0, 0x0, 0x0, .ctl⟩,
  ⟨0xA0030, 2, 0x100, 1, 0x4, 0x0, 0xFFFFFFFF, 0x0, 0x0, 0x0, .ctl⟩,
  ⟨0xA0034, 2, 0x100, 1, 0x4, 0x0, 0xFFFFFFFF, 0x0, 0x0, 0x0, .ctl⟩,
  ⟨0xA003C, 2, 0x100, 1, 0x4, 0x0, 0x0, 0x0, 0x0, 0x0, .ctl⟩,
  ⟨0xA004C, 2, 0x100, 1, 0x4, 0x0, 0x0, 0x0, 0x0, 0x0, .ctl⟩,
  ⟨0xA0040, 2, 0x100, 1, 0x4, 0x0, 0x0, 0xBF, 0x0, 0x0, .ctl⟩,
  ⟨0xA0044, 2, 0x100, 1, 0x4, 0x0, 0x0, 0x80000000, 0x0, 0x0, .ctl⟩]

/-- The register families of block MOT (R564). -/
def motRows : List RegRow := [
  ⟨0xB0000, 2, 0x100, 1, 0x4, 0x640A00, 0xFFFFFF03, 0x0, 0x0, 0x0, .ctl⟩,
  ⟨0xB0004, 2, 0x100, 1, 0x4, 0x10000, 0xFFFFFFFF, 0x0, 0x0, 0x0, .ctl⟩,
  ⟨0xB0010, 2, 0x100, 1, 0x4, 0x0, 0xFFFFFFFF, 0x0, 0x0, 0x0, .ctl⟩,
  ⟨0xB0014, 2, 0x100, 1, 0x4, 0x0, 0xFFFFFFFF, 0x0, 0x0, 0x0, .ctl⟩,
  ⟨0xB0018, 2, 0x100, 1, 0x4, 0x0, 0xFFFFFFFF, 0x0, 0x0, 0x0, .ctl⟩,
  ⟨0xB001C, 2, 0x100, 1, 0x4, 0x0, 0xFFFFFFFF, 0x0, 0x0, 0x0, .ctl⟩,
  ⟨0xB0020, 2, 0x100, 1, 0x4, 0x0, 0xFFFFFFFF, 0x0, 0x0, 0x0, .ctl⟩,
  ⟨0xB0024, 2, 0x100, 1, 0x4, 0x0, 0xFFFFFFFF, 0x0, 0x0, 0x0, .ctl⟩,
  ⟨0xB0028, 2, 0x100, 1, 0x4, 0x0, 0xFFFFFFFF, 0x0, 0x0, 0x0, .ctl⟩,
  ⟨0xB002C, 2, 0x100, 1, 0x4, 0x0, 0xFFFFFFFF, 0x0, 0x0, 0x0, .ctl⟩,
  ⟨0xB0030, 2, 0x100, 1, 0x4, 0x0, 0xFFFFFFFF, 0x0, 0x0, 0x0, .ctl⟩,
  ⟨0xB0034, 2, 0x100, 1, 0x4, 0x2000, 0x3FFFF, 0x0, 0x0, 0x0, .ctl⟩,
  ⟨0xB0038, 2, 0x100, 1, 0x4, 0x0, 0x4, 0x0, 0x0, 0x3, .ctl⟩,
  ⟨0xB0040, 2, 0x100, 1, 0x4, 0x80000000, 0xFFFFFFFF, 0x0, 0x0, 0x0, .ctl⟩,
  ⟨0xB0044, 2, 0x100, 1, 0x4, 0x7FFFFFFF, 0xFFFFFFFF, 0x0, 0x0, 0x0, .ctl⟩,
  ⟨0xB0048, 2, 0x100, 1, 0x4, 0x4000, 0xFFFFFFFF, 0x0, 0x0, 0x0, .ctl⟩,
  ⟨0xB004C, 2, 0x100, 1, 0x4, 0x1401000, 0xFFFFFFFF, 0x0, 0x0, 0x0, .ctl⟩,
  ⟨0xB0050, 2, 0x100, 1, 0x4, 0x4000, 0xFFFF, 0x0, 0x0, 0x0, .ctl⟩,
  ⟨0xB0054, 2, 0x100, 1, 0x4, 0x140000, 0xFFFFFFFF, 0x0, 0x0, 0x0, .ctl⟩,
  ⟨0xB0060, 2, 0x100, 1, 0x4, 0x0, 0x0, 0x0, 0x0, 0x0, .ctl⟩,
  ⟨0xB0064, 2, 0x100, 1, 0x4, 0x0, 0x0, 0x0, 0x0, 0x0, .ctl⟩,
  ⟨0xB0068, 2, 0x100, 1, 0x4, 0x0, 0x0, 0x0, 0x0, 0x0, .ctl⟩,
  ⟨0xB006C, 2, 0x100, 1, 0x4, 0x0, 0x0, 0x1AF, 0x0, 0x0, .ctl⟩,
  ⟨0xB0800, 2, 0x80, 1, 0x4, 0x0, 0x0, 0x0, 0x1F, 0x0, .ctl⟩,
  ⟨0xB0804, 2, 0x80, 1, 0x4, 0x0, 0x0, 0x0, 0xFFFFFFFF, 0x0, .ctl⟩,
  ⟨0xB0808, 2, 0x80, 1, 0x4, 0x0, 0x0, 0x0, 0xFFFFFFFF, 0x0, .ctl⟩,
  ⟨0xB080C, 2, 0x80, 1, 0x4, 0x0, 0x0, 0x0, 0xFFFFFFFF, 0x0, .ctl⟩,
  ⟨0xB0810, 2, 0x80, 1, 0x4, 0x0, 0x0, 0x0, 0xFFFFFFFF, 0x0, .ctl⟩,
  ⟨0xB0814, 2, 0x80, 1, 0x4, 0x0, 0x0, 0x0, 0xFFFFFFFF, 0x0, .ctl⟩,
  ⟨0xB0818, 2, 0x80, 1, 0x4, 0x0, 0x0, 0x0, 0xFFFFFFFF, 0x0, .ctl⟩,
  ⟨0xB081C, 2, 0x80, 1, 0x4, 0x0, 0x0, 0x0, 0xFFFFFFFF, 0x0, .ctl⟩,
  ⟨0xB0820, 2, 0x80, 1, 0x4, 0x0, 0x0, 0x0, 0xFFFFFFFF, 0x0, .ctl⟩,
  ⟨0xB0840, 2, 0x80, 1, 0x4, 0x0, 0x0, 0xBC0, 0x0, 0x0, .ctl⟩,
  ⟨0xB0844, 2, 0x80, 1, 0x4, 0x0, 0x0, 0x80000000, 0x0, 0x0, .ctl⟩,
  ⟨0xB0900, 1, 0x10000, 1, 0x4, 0x1000630A, 0xFFFF7FFF, 0x0, 0x0, 0x0, .ctl⟩,
  ⟨0xB0904, 1, 0x10000, 1, 0x4, 0x3E8, 0xFFFF, 0x0, 0x0, 0x0, .ctl⟩]

/-- The register families of block SAF (R564). -/
def safRows : List RegRow := [
  ⟨0xC0000, 1, 0x10000, 1, 0x4, 0x4, 0x0, 0x0, 0x0, 0x0, .safe⟩,
  ⟨0xC0004, 2, 0x4, 1, 0x4, 0x0, 0x0, 0x0, 0x0, 0x0, .safe⟩,
  ⟨0xC000C, 1, 0x10000, 1, 0x4, 0x0, 0x0, 0x80000000, 0x0, 0x0, .safe⟩,
  ⟨0xC0010, 2, 0x4, 1, 0x4, 0x0, 0x0, 0x0, 0x0, 0x0, .safe⟩,
  ⟨0xC0018, 2, 0x4, 1, 0x4, 0x0, 0x0, 0x0, 0x0, 0x0, .safe⟩,
  ⟨0xC0020, 1, 0x10000, 1, 0x4, 0x0, 0x0, 0x0, 0x0, 0x0, .safe⟩,
  ⟨0xC0028, 2, 0x4, 1, 0x4, 0x0, 0x0, 0x0, 0x0, 0x0, .safe⟩]

/-- The register families of block CHN (R564). -/
def chnRows : List RegRow := [
  ⟨0xD0000, 1, 0x10000, 1, 0x4, 0x0, 0x0, 0x0, 0x0, 0x0, .ao⟩,
  ⟨0xD0010, 2, 0x20, 1, 0x4, 0x3FFF0000, 0x0, 0x0, 0x0, 0x0, .comm⟩,
  ⟨0xD0014, 2, 0x20, 1, 0x4, 0x0, 0x0, 0x0, 0x0, 0x0, .comm⟩,
  ⟨0xD0018, 2, 0x20, 1, 0x4, 0x0, 0x0, 0x0, 0xFFFF, 0x0, .comm⟩,
  ⟨0xD001C, 2, 0x20, 1, 0x4, 0x0, 0x0, 0x80000000, 0x0, 0x0, .comm⟩,
  ⟨0xD0050, 1, 0x10000, 1, 0x4, 0x3FFF0000, 0x0, 0x8, 0x0, 0x0, .comm⟩,
  ⟨0xD0054, 1, 0x10000, 1, 0x4, 0x0, 0x0, 0x0, 0x0, 0x0, .comm⟩,
  ⟨0xD0058, 1, 0x10000, 1, 0x4, 0x0, 0x0, 0x0, 0x0, 0x0, .comm⟩,
  ⟨0xD005C, 1, 0x10000, 1, 0x4, 0x0, 0x0, 0x0, 0x0, 0x0, .comm⟩,
  ⟨0xD0060, 1, 0x10000, 1, 0x4, 0x0, 0x3FFFF, 0x0, 0x0, 0x0, .comm⟩,
  ⟨0xD0064, 1, 0x10000, 1, 0x4, 0x0, 0x0, 0x0, 0x0, 0x0, .comm⟩,
  ⟨0xD0068, 1, 0x10000, 1, 0x4, 0x0, 0x0, 0x0, 0x0, 0x80000000, .comm⟩,
  ⟨0xD006C, 1, 0x10000, 1, 0x4, 0x0, 0x0, 0x0, 0x3FFF3FFF, 0x0, .comm⟩,
  ⟨0xD0070, 1, 0x10000, 1, 0x4, 0x0, 0x3FFF, 0x0, 0x0, 0x0, .comm⟩,
  ⟨0xD0074, 1, 0x10000, 1, 0x4, 0x0, 0x0, 0x80000000, 0x0, 0x0, .comm⟩,
  ⟨0xD0078, 1, 0x10000, 1, 0x4, 0x0, 0x0, 0x0, 0x0, 0x0, .comm⟩]

/-- The register families of block CAN (R564). -/
def canRows : List RegRow := [
  ⟨0xE0000, 2, 0x100, 1, 0x4, 0x80000000, 0x8000FF07, 0x0, 0x0, 0x0, .comm⟩,
  ⟨0xE0004, 2, 0x100, 1, 0x4, 0xF9F7E00, 0x3FFFFFFF, 0x0, 0x0, 0x0, .comm⟩,
  ⟨0xE0008, 2, 0x100, 1, 0x4, 0x9091C00, 0xF0F1F1F, 0x0, 0x0, 0x0, .comm⟩,
  ⟨0xE000C, 2, 0x100, 1, 0x4, 0x0, 0xFF, 0x0, 0x0, 0x0, .comm⟩,
  ⟨0xE0010, 2, 0x100, 1, 0x4, 0x0, 0x0, 0x88, 0x0, 0x0, .comm⟩,
  ⟨0xE0014, 2, 0x100, 1, 0x4, 0x0, 0x0, 0x0, 0x0, 0x0, .comm⟩,
  ⟨0xE0018, 2, 0x100, 1, 0x4, 0x0, 0x0, 0x80000000, 0x0, 0x0, .comm⟩,
  ⟨0xE0020, 2, 0x100, 4, 0x4, 0x0, 0x0, 0x0, 0x0, 0x0, .comm⟩,
  ⟨0xE0800, 1, 0x10000, 1, 0x4, 0x0, 0x0, 0x0, 0x0, 0x0, .comm⟩,
  ⟨0xE0804, 1, 0x10000, 1, 0x4, 0x0, 0x0, 0x0, 0x0, 0x0, .comm⟩,
  ⟨0xE0808, 1, 0x10000, 1, 0x4, 0x4F, 0xFF, 0x0, 0x0, 0x80000000, .comm⟩,
  ⟨0xE0810, 1, 0x10000, 1, 0x4, 0x0, 0x0, 0x0, 0x0, 0x0, .comm⟩,
  ⟨0xE0814, 1, 0x10000, 1, 0x4, 0x0, 0x0, 0x0, 0x0, 0x0, .comm⟩,
  ⟨0xE0818, 1, 0x10000, 1, 0x4, 0x0, 0x0, 0x0, 0x0, 0x0, .comm⟩,
  ⟨0xE081C, 1, 0x10000, 1, 0x4, 0x0, 0x0, 0x0, 0x0, 0x0, .comm⟩]

/-- The register families of block REC (R564). -/
def recRows : List RegRow := [
  ⟨0xF0004, 1, 0x10000, 1, 0x4, 0x40A181E, 0x0, 0x0, 0x1FFF3FFF, 0x0, .comm⟩,
  ⟨0xF0008, 1, 0x10000, 1, 0x4, 0x3FFFF, 0x0, 0x0, 0x3FFFF, 0x0, .comm⟩,
  ⟨0xF0010, 1, 0x10000, 1, 0x4, 0x0, 0x0, 0x300, 0x0, 0x0, .comm⟩,
  ⟨0xF0014, 1, 0x10000, 1, 0x4, 0x0, 0x0, 0x80000000, 0x0, 0x0, .comm⟩,
  ⟨0xF0018, 1, 0x10000, 1, 0x4, 0x0, 0x0, 0x0, 0x0, 0x0, .comm⟩,
  ⟨0xF001C, 1, 0x10000, 1, 0x4, 0x0, 0x0, 0x0, 0x0, 0x0, .comm⟩,
  ⟨0xF0020, 1, 0x10000, 1, 0x4, 0x0, 0x0, 0x0, 0x0, 0x0, .comm⟩,
  ⟨0xF0024, 1, 0x10000, 1, 0x4, 0x0, 0x0, 0x0, 0x0, 0x0, .comm⟩,
  ⟨0xF0028, 1, 0x10000, 1, 0x4, 0x0, 0x0, 0x0, 0x0, 0x0, .comm⟩,
  ⟨0xF002C, 1, 0x10000, 1, 0x4, 0x0, 0x0, 0x0, 0x0, 0x0, .comm⟩,
  ⟨0xF0030, 1, 0x10000, 1, 0x4, 0x0, 0x0, 0x0, 0x0, 0x0, .comm⟩,
  ⟨0xF0034, 1, 0x10000, 1, 0x4, 0x0, 0x0, 0x0, 0x0, 0x0, .comm⟩,
  ⟨0xF0038, 1, 0x10000, 1, 0x4, 0x0, 0x0, 0x0, 0x0, 0x0, .comm⟩,
  ⟨0xF003C, 1, 0x10000, 1, 0x4, 0x0, 0x0, 0x0, 0x0, 0x0, .comm⟩,
  ⟨0xF0040, 1, 0x10000, 1, 0x4, 0x0, 0x0, 0x0, 0x0, 0x80000001, .comm⟩]

/-- The register families of block HKP (R564). -/
def hkpRows : List RegRow := [
  ⟨0x100004, 1, 0x10000, 1, 0x4, 0x0, 0x0, 0x0, 0x0, 0x0, .ana⟩,
  ⟨0x100010, 4, 0x4, 1, 0x4, 0x64D6B064, 0x0, 0x0, 0xFFFFFFFF, 0x0, .ana⟩,
  ⟨0x100020, 1, 0x10000, 1, 0x4, 0xD6B064, 0x0, 0x0, 0xFFFFFF, 0x0, .ana⟩,
  ⟨0x100024, 1, 0x10000, 1, 0x4, 0x288C8273, 0x0, 0x0, 0xFFFFFFFF, 0x0, .ana⟩,
  ⟨0x100028, 1, 0x10000, 1, 0x4, 0x7864, 0x0, 0x0, 0xFFFF, 0x0, .ana⟩,
  ⟨0x10002C, 1, 0x10000, 1, 0x4, 0x646407, 0x0, 0x0, 0xFFFFFF07, 0x0, .ana⟩,
  ⟨0x100100, 24, 0x4, 1, 0x4, 0x0, 0x0, 0x0, 0x0, 0x0, .ana⟩,
  ⟨0x100200, 12, 0x4, 1, 0x4, 0x0, 0x0, 0x0, 0x0, 0x0, .ana⟩,
  ⟨0x100240, 12, 0x4, 1, 0x4, 0x0, 0x0, 0x0, 0x0, 0x0, .ana⟩,
  ⟨0x100280, 1, 0x10000, 1, 0x4, 0x0, 0x0, 0x0, 0x0, 0x0, .ana⟩]

/-- The register families of block SEC (R564). -/
def secRows : List RegRow := [
  ⟨0x110000, 1, 0x10000, 1, 0x4, 0xFFF3, 0x0, 0x0, 0x0, 0x0, .cpu⟩,
  ⟨0x110004, 1, 0x10000, 1, 0x4, 0x0, 0x0, 0x0, 0x0, 0x0, .cpu⟩,
  ⟨0x110010, 1, 0x10000, 1, 0x4, 0x0, 0x0, 0x0, 0x0, 0x0, .cpu⟩,
  ⟨0x110020, 1, 0x10000, 1, 0x4, 0x0, 0xFFFFF, 0x0, 0x0, 0x80000000, .cpu⟩,
  ⟨0x110040, 1, 0x10000, 1, 0x4, 0x0, 0x0, 0x0, 0x0, 0x0, .cpu⟩]

/-- The register families of a 64 KiB block of BAR0 (R564). -/
def regRows (block : Nat) : List RegRow :=
  match block with
  | 0 => sysRows
  | 1 => pckRows
  | 2 => blkRows
  | 3 => hifRows
  | 4 => jrnRows
  | 5 => cpxRows
  | 6 => fslRows
  | 7 => pwmRows
  | 8 => gdcRows
  | 9 => adcRows
  | 10 => posRows
  | 11 => motRows
  | 12 => safRows
  | 13 => chnRows
  | 14 => canRows
  | 15 => recRows
  | 16 => hkpRows
  | 17 => secRows
  | _ => []

/-- The default values of the rows of the safe-state table (R330). -/
def sstReset : List Nat := [
  0x21, 0x121, 0x25, 0x21, 0x22, 0x22, 0x62, 0x22, 0x0, 0x25, 0x22, 0x10, 0x10, 0x22, 0x22, 0x22,
  0x122, 0x25, 0x25, 0x10, 0x22, 0x10, 0x22, 0x22, 0x10, 0x10, 0x10, 0x322, 0x22, 0x21, 0x122, 0x21]

/-- Does the family hold a register at byte offset `off`? -/
def RegRow.covers (r : RegRow) (off : Nat) : Bool :=
  let d := off - r.base
  decide (r.base ≤ off) && decide (d / r.s1 < r.n1) && (d % r.s1) % r.s2 == 0
    && decide ((d % r.s1) / r.s2 < r.n2)

/-- The family of the register at byte offset `off`, if the index names one (R565). -/
def findRow (off : Nat) : Option RegRow :=
  (regRows (off / 0x10000)).find? (fun r => r.covers off)

/-- The reset value of the register at `off`: R330 for the safe-state table, R571 for the identity
registers, and the register maps for every other register. -/
def resetVal (off : Nat) : BitVec 32 :=
  if off = 0 then BitVec.ofNat 32 (0x9880 + 0x10000 * (Config.siliconRev.toNat + 1))
  else if off = 0x8 then Config.serialLo
  else if off = 0xC then Config.serialHi
  else if 0x20100 ≤ off ∧ off < 0x20180 then BitVec.ofNat 32 (sstReset.getD ((off - 0x20100) / 4) 0)
  else match findRow off with
    | some r => BitVec.ofNat 32 r.reset
    | none => 0#32

end Sys2Proof.Machine
end

