-- ==== Sys2Proof/Machine/Ops.lean ====
section
/-!
DEFINITION. The named operations every meaning is written over: sparse tables, registers and their
fields, time, memories, bytes, CRCs, free values and the outbox.
-/

namespace Sys2Proof.Machine

/-! ## Sparse tables

A table lists only keys whose value differs from the default, keys strictly rising. -/

/-- The value at a key: the listed one, else the default. -/
def kvGet {α : Type} (d : Nat → α) : List (Nat × α) → Nat → α
  | [], k => d k
  | (k', v) :: m, k => if k' = k then v else kvGet d m k

/-- The table without a key. -/
def kvErase {α : Type} : List (Nat × α) → Nat → List (Nat × α)
  | [], _ => []
  | (k', v) :: m, k => if k' = k then kvErase m k else (k', v) :: kvErase m k

/-- Inserts a key that the table does not list, keeping the keys rising. -/
def kvInsert {α : Type} (k : Nat) (v : α) : List (Nat × α) → List (Nat × α)
  | [] => [(k, v)]
  | (k', v') :: m => if k < k' then (k, v) :: (k', v') :: m else (k', v') :: kvInsert k v m

/-- Writes a key; writing the default removes the entry. -/
def kvSet {α : Type} [DecidableEq α] (d : Nat → α) (m : List (Nat × α)) (k : Nat) (v : α) :
    List (Nat × α) :=
  if v = d k then kvErase m k else kvInsert k v (kvErase m k)

/-- Writes a key that stays listed whatever its value. -/
def ovSet {α : Type} (m : List (Nat × α)) (k : Nat) (v : α) : List (Nat × α) := kvInsert k v (kvErase m k)

/-- Canonical form: keys strictly rising, no entry equal to the default. -/
def kvWf {α : Type} [DecidableEq α] (d : Nat → α) : List (Nat × α) → Bool
  | [] => true
  | (k, v) :: m => decide (v ≠ d k) && m.all (fun e => decide (k < e.1)) && kvWf d m

/-! ## Registers (R4 to R7, R565) -/

/-- The field's value in a register word. -/
def Fld.get (f : Fld) (w : BitVec 32) : Nat := w.toNat / 2 ^ f.lo % 2 ^ f.w

/-- The register word with the field replaced; higher bits of the value are dropped. -/
def Fld.put (f : Fld) (w : BitVec 32) (v : Nat) : BitVec 32 :=
  BitVec.ofNat 32 (w.toNat / 2 ^ (f.lo + f.w) * 2 ^ (f.lo + f.w) + v % 2 ^ f.w * 2 ^ f.lo
    + w.toNat % 2 ^ f.lo)

namespace State

/-- The word a register holds. -/
def reg (s : State) (off : Nat) : BitVec 32 := kvGet resetVal s.regs off

/-- Stores a whole register word. -/
def setReg (s : State) (off : Nat) (w : BitVec 32) : State :=
  { s with regs := kvSet resetVal s.regs off w }

/-- Value of a register field. -/
def rd (s : State) (f : Fld) : Nat := f.get (s.reg f.off)

/-- The longest clock of the logic that owns a register, in ns: that of AO for the wake logic, else the bypass clock's
(R7, R13, R57, R68). -/
def longestClock (off : Nat) : Nat := if off = R.PCK_WAKE_SRC then 30518 else 41

/-- Keeps a bit that the module sets, with its instant, for as long as a clock of its block may still run (R7). -/
def noteSet (now : Nat) (f : Fld) (v : Nat) (l : List (Nat × BitVec 32 × Nat)) : List (Nat × BitVec 32 × Nat) :=
  if f.w = 1 ∧ v % 2 = 1 then
    let m := BitVec.ofNat 32 (2 ^ f.lo)
    (f.off, m, now) :: l.filter fun e => decide (now < e.2.2 + longestClock e.1) && !(e.1 == f.off && e.2.1 == m)
  else l

/-- Stores a register field. -/
def wr (s : State) (f : Fld) (v : Nat) : State :=
  { s with
    regs := kvSet resetVal s.regs f.off (f.put (s.reg f.off) v)
    sets := noteSet s.now f v s.sets }

/-- A one-bit field as a Boolean. -/
def bit (s : State) (f : Fld) : Bool := s.rd f != 0

/-- Sets a one-bit field. -/
def hi (s : State) (f : Fld) : State := s.wr f 1

/-- Clears a field. -/
def lo (s : State) (f : Fld) : State := s.wr f 0

/-- Stores a Boolean in a one-bit field. -/
def wrB (s : State) (f : Fld) (b : Bool) : State := s.wr f b.toNat

/-- Number of the clock of a register's status logic in which an instant falls (R7, R13, log entry 96): AO for the wake
logic, else SYS, PWM, GDX, PER, ADC, SAFE or CAN, by the block. A domain whose PLL is not locked runs from the bypass
clock of 25 MHz (R57). -/
def blockClock (s : State) (off t : Nat) : Nat :=
  let ofA (n : Nat) : Nat := if s.power.pllA then n else t / 40
  let ofB (n : Nat) : Nat := if s.power.pllB then n else t / 40
  if off = R.PCK_WAKE_SRC then t * 32768 / 1000000000
  else match off / 0x10000 with
    | 3 | 13 => t / 4
    | 6 | 7 | 11 => ofB (t / 4)
    | 8 => ofB (t / 10)
    | 9 => ofB (t / 5)
    | 10 | 15 | 16 => ofA (t / 10)
    | 12 => t * 6 / 125
    | 14 => ofA (t * 2 / 25)
    | _ => ofA (t * 3 / 5)

/-- The PER clock of the present instant; one of the bypass clock's is told from one of the PLL's (R57, R364). -/
def perClock (s : State) : Nat := if s.power.pllA then 2 * (s.now / 10) else 2 * (s.now / 40) + 1

/-- The bits of a register that the module has set in the present clock of its block (R7). -/
def justSet (s : State) (off : Nat) : BitVec 32 :=
  s.sets.foldl (fun m e =>
    if e.1 = off ∧ s.blockClock off e.2.2 = s.blockClock off s.now then m ||| e.2.1 else m) 0#32

/-- Software clears the counters of a register with their SAT bit; a SAT bit set in this same clock stays (R7). -/
def clearCounts (s : State) (off : Nat) : State := s.setReg off (s.reg off &&& s.justSet off)

/-- Software clears a W1C bit; one set in this same clock stays (R7). -/
def clearBit (s : State) (f : Fld) : State :=
  if (s.justSet f.off).getLsbD f.lo then s else { s with regs := kvSet resetVal s.regs f.off (f.put (s.reg f.off) 0) }

/-- The boundary-scan instruction as it acts: one that drives pads acts only while STO is active, otherwise as BYPASS
(R399). -/
def scanActs (s : State) : ScanIns :=
  let i := s.pins.scan
  if (i == .extest || i == .clamp || i == .highz) && !s.bit F.SAF_STAT_STO_ACT then .bypass else i

/-- Applies an operation when a condition holds. -/
def cond (s : State) (b : Bool) (f : State → State) : State := if b then f s else s

/-- Folds an operation over a list of indices. -/
def each (s : State) (l : List Nat) (f : State → Nat → State) : State := l.foldl f s

end State

/-- Two's-complement reading of a `w`-bit code. -/
def signed (w v : Nat) : Int :=
  if v % 2 ^ w < 2 ^ (w - 1) then ((v % 2 ^ w : Nat) : Int) else ((v % 2 ^ w : Nat) : Int) - (2 : Int) ^ w

/-- The `w`-bit two's-complement code of an integer, wrapping. -/
def wrapN (w : Nat) (x : Int) : Nat := (x % (2 : Int) ^ w).toNat

/-- Saturates to the range of a signed `w`-bit code. -/
def satS (w : Nat) (x : Int) : Int := max (-((2 : Int) ^ (w - 1))) (min ((2 : Int) ^ (w - 1) - 1) x)

/-- Division truncated toward zero. -/
def truncDiv (a b : Int) : Int := Int.tdiv a b

/-- Division rounded to nearest, halves away from zero, for a positive divisor. -/
def roundDiv (a : Int) (b : Nat) : Int :=
  if b = 0 then 0
  else if 0 ≤ a then (((2 * a.toNat + b) / (2 * b) : Nat) : Int)
  else -(((2 * (-a).toNat + b) / (2 * b) : Nat) : Int)

/-- A quotient whose rounding the spec does not state: exact where it is exact, else one of the two
neighbours (log entry 24). -/
def looseDiv (tag : Nat) (n : Int) (d : Nat) : Int :=
  let q := n.fdiv d
  if q * d = n then q else if Config.roundUp tag n d then q + 1 else q

/-- Integer square root by bits, rounded down: `n` result bits. -/
def isqrtBits : Nat → Nat → Nat → Nat
  | 0, _, r => r
  | n + 1, x, r => if (r + 2 ^ n) * (r + 2 ^ n) ≤ x then isqrtBits n x (r + 2 ^ n) else isqrtBits n x r

/-- Integer square root, rounded down. -/
def isqrt (x : Nat) : Nat := isqrtBits (Nat.log2 x / 2 + 1) x 0

/-! ## Bytes, little-endian (R12) -/

/-- The `n` bytes of a number, lowest first. -/
def leBytes : Nat → Nat → List Byte
  | 0, _ => []
  | n + 1, v => BitVec.ofNat 8 v :: leBytes n (v / 256)

/-- The number that bytes spell, lowest first. -/
def leNat : List Byte → Nat
  | [] => 0
  | b :: bs => b.toNat + 256 * leNat bs

/-- The number that bytes spell, highest first (chain frames, R12). -/
def beNat (bs : List Byte) : Nat := leNat bs.reverse

/-- The `n` bytes of a number, highest first. -/
def beBytes (n v : Nat) : List Byte := (leBytes n v).reverse

/-- Bytes `i` to `i + n - 1`. -/
def slice (bs : List Byte) (i n : Nat) : List Byte := (bs.drop i).take n

/-- Bytes `i` to `i + n - 1` as a little-endian number; absent bytes read 0. -/
def fieldLe (bs : List Byte) (i n : Nat) : Nat := leNat ((bs.drop i).take n)

/-- One bit step of a reflected CRC. -/
def crcStep (poly c : Nat) : Nat := if c % 2 = 1 then Nat.xor (c / 2) poly else c / 2

/-- A reflected CRC over bytes. -/
def crcBytes (poly : Nat) : Nat → List Byte → Nat
  | c, [] => c
  | c, b :: bs =>
    let x := Nat.xor c b.toNat
    crcBytes poly (crcStep poly (crcStep poly (crcStep poly (crcStep poly (crcStep poly (crcStep poly
      (crcStep poly (crcStep poly x)))))))) bs

/-- CRC-32C, the Castagnoli polynomial (R417). -/
def crc32c (bs : List Byte) : Nat := Nat.xor (crcBytes 0x82F63B78 0xFFFFFFFF bs) 0xFFFFFFFF

/-! ## Memories -/

/-- Reads one byte of a memory; an unlisted byte reads 0. -/
def memGet (m : List Host.Cell) (a : Nat) : Byte := kvGet (fun _ => 0#8) m a

/-- Writes one byte of a memory, keeping its canonical form. -/
def memSet (m : List Host.Cell) (a : Nat) (b : Byte) : List Host.Cell := kvSet (fun _ => 0#8) m a b

/-- The memory's canonical form. -/
def memWf (m : List Host.Cell) : Bool := kvWf (fun _ => 0#8) m

/-- Reads `n` bytes from `a` up. -/
def memBytes (m : List Host.Cell) (a : Nat) : Nat → List Byte
  | 0 => []
  | n + 1 => memGet m a :: memBytes m (a + 1) n

/-- Writes bytes from `a` up. -/
def memPut (m : List Host.Cell) : Nat → List Byte → List Host.Cell
  | _, [] => m
  | a, b :: bs => memPut (memSet m a b) (a + 1) bs

/-- Reads a little-endian 32-bit word. -/
def memWord (m : List Host.Cell) (a : Nat) : BitVec 32 := BitVec.ofNat 32 (leNat (memBytes m a 4))

/-- Writes a little-endian 32-bit word. -/
def memPutWord (m : List Host.Cell) (a : Nat) (w : BitVec 32) : List Host.Cell :=
  memPut m a (leBytes 4 w.toNat)

/-- Writes the bytes of a word that its byte enables name. -/
def memPutBe (m : List Host.Cell) (a : Nat) (w : BitVec 32) (be : BitVec 4) : List Host.Cell :=
  let put (m : List Host.Cell) (i : Nat) : List Host.Cell :=
    if be.getLsbD i then memSet m (a + i) (BitVec.ofNat 8 (w.toNat / 256 ^ i)) else m
  put (put (put (put m 0) 1) 2) 3

/-- Keeps only the cells below a bound of addresses, or all of a range cleared. -/
def memClearRange (m : List Host.Cell) (lo hi : Nat) : List Host.Cell :=
  m.filter (fun c => decide (c.1 < lo) || decide (hi ≤ c.1))

/-! ## Time, free values, the outbox -/

namespace State

/-- A serial number for a free value: reads and advances the model's own counter. -/
def nextFree (s : State) : Nat × State := (s.fresh, { s with fresh := s.fresh + 1 })

/-- A message, frame, pulse or memory write leaves the module. -/
def emit (s : State) (o : Output) : State := { s with outbox := s.outbox ++ [o] }

/-- CPU, CTL, ANA, COMM powered and running (R61). -/
def cpuOn (s : State) : Bool := s.power.cpu == .on
def ctlOn (s : State) : Bool := s.power.ctl == .on
def anaOn (s : State) : Bool := s.power.ana == .on
def commOn (s : State) : Bool := s.power.comm == .on
def safeOn (s : State) : Bool := s.power.safe

/-- The block's registers have power (R565, R564). -/
def blockPowered (s : State) (block : Nat) : Bool :=
  match block with
  | 0 | 1 => s.cpuOn
  | 2 | 4 | 5 | 17 => s.cpuOn
  | 3 | 13 | 14 | 15 => s.commOn
  | 6 | 7 | 8 | 10 | 11 => s.ctlOn
  | 9 | 16 => s.anaOn
  | 12 => s.safeOn
  | _ => false

/-- CT runs on the unit's own clock; otherwise, in Winter and WATCH and until a wake has VCORE, the AO keeper
advances it (R11, R71). -/
def ctRuns (s : State) : Bool := s.cpuOn || s.ctlOn || s.commOn || decide (2 ≤ s.rd F.SYS_MODE_MODE)

/-- The root's frequency trim in ppb (R474). -/
def ctTrim (s : State) : Int :=
  if s.bit F.BLK_ROLE_ROOT then max (-100000) (min 100000 (signed 18 (s.rd F.CHN_ROOT_TRIM_TRIM))) else 0

/-- CT after a time: it runs on the unit's own clock, which the root's trim makes faster or slower (R11, R474). -/
def ctAfter (s : State) (dt : Nat) : Nat × Nat :=
  if !s.ctRuns then (s.ct, s.ctFine)
  else if s.ctTrim = 0 then ((s.ct + dt) % 2 ^ 64, s.ctFine)
  else
    let fine := s.ctFine + dt * (1000000000 + s.ctTrim).toNat
    ((s.ct + fine / 1000000000) % 2 ^ 64, fine % 1000000000)

/-- Brings the module's time to the instant of a command; CT advances with it while it runs (R11). -/
def upTo (s : State) (t : Nat) : State :=
  if s.now < t then
    { s with now := t, ct := (s.ctAfter (t - s.now)).1, ctFine := (s.ctAfter (t - s.now)).2 }
  else s

/-- The declaration of the power stage: BLK_STAGE until Uzodar has copied it, then the copy; while the two differ row 30
keeps the module in HOLD (R26, R36, R45, R323, log entry 115). -/
def stageWord (s : State) : BitVec 32 :=
  if s.bit F.SAF_STAT_SHADOW then kvGet resetVal s.saf.shadow R.BLK_STAGE
  else s.reg R.BLK_STAGE

def threeLevel (s : State) : Bool := F.BLK_STAGE_THREE_LEVEL.get s.stageWord != 0

/-- Two present cores can agree: what they issue leaves the cluster (R19, R366, R370). -/
def voting (s : State) : Bool := s.cpuOn && s.cores.fwRuns && decide (s.rd F.CPX_STAT_VOTE < 2)

/-- Axes in use (R61, R36): one with the three-level bridge or an unused AX1. -/
def axes (s : State) : List Nat :=
  if s.threeLevel || F.BLK_STAGE_AX1_UNUSED.get s.stageWord != 0 then [0] else [0, 1]

/-- The chain role is a segment. -/
def isSegment (s : State) : Bool := s.rd F.BLK_ROLE_ROLE == 1

/-- The channels of an axis's bridge (R36). -/
def channels (s : State) (a : Nat) : List Nat :=
  if s.threeLevel then [0, 1, 2, 3, 4, 5, 6, 7, 8, 9, 10, 11]
  else if a = 0 then [0, 1, 2, 3, 4, 5] else [6, 7, 8, 9, 10, 11]

/-- The axis whose bridge a channel belongs to. -/
def axisOf (s : State) (n : Nat) : Nat := if s.threeLevel then 0 else if n < 6 then 0 else 1

/-- The leg (0 U, 1 V, 2 W) of a channel (R36). -/
def legOf (s : State) (n : Nat) : Nat := if s.threeLevel then n / 4 else n % 6 / 2

/-- Is the channel in the upper half of its bridge (R334: T1 and T2 of the three-level bridge)? -/
def isUpper (s : State) (n : Nat) : Bool :=
  if s.threeLevel then decide (n % 4 < 2) else decide (n % 2 = 0)

/-- The module mode field and an axis's mode field (R62). -/
def mode (s : State) : Nat := s.rd F.SYS_MODE_MODE

def fAxMode (a : Nat) : Fld := if a = 0 then F.SYS_MODE_AX0_MODE else F.SYS_MODE_AX1_MODE

def axMode (s : State) (a : Nat) : Nat := s.rd (fAxMode a)

/-- RUN or LIMP. -/
def running (s : State) (a : Nat) : Bool := s.axMode a == 3 || s.axMode a == 4

/-- READY or above, awake. -/
def awake (s : State) : Bool := decide (2 ≤ s.mode)

/-- An axis of the unit is in RUN or LIMP. -/
def anyRunning (s : State) : Bool := s.axes.any s.running

/-- A debugger's writes are accepted: its scope reaches memory, and no axis runs (R401). -/
def dbgWrites (s : State) : Bool := s.cpuOn && s.bit F.SEC_DBG_STAT_MEM && !s.anyRunning

/-- What a checkpoint has passed is being released: within 2 µs of its vote (R19, R367, log entry 121). -/
def passing (s : State) : Bool := s.voting && s.cores.passAt.any fun x => decide (s.now ≤ x + 2000)

/-- A store to a register that no host reaches takes effect: it is a voted output of the cores in its release, or a
debugger's write (R19, R367, R401). -/
def stores (s : State) : Bool := s.passing || s.dbgWrites

end State

end Sys2Proof.Machine
end

