-- ==== Sys2Proof/Machine/Flags.lean ====
section
/-!
DEFINITION. Status flags, counters, events, rings, completions and the journal: every way a block reports
(R4 to R7, R411 to R433, R436 to R443, R460, R461, R480, R513 to R515).
-/

namespace Sys2Proof.Machine

/-! ## Chain frames (R457) -/

/-- CRC-16 of a chain header: polynomial 0x1021, initial value 0xFFFF, most significant bit first (R457). -/
def crc16Bits : Nat → Nat → Nat
  | 0, c => c
  | n + 1, c => crc16Bits n (if 0x8000 ≤ c then Nat.xor (c * 2 % 65536) 0x1021 else c * 2)

def crc16 (bs : List Byte) : Nat := bs.foldl (fun c b => crc16Bits 8 (Nat.xor c (b.toNat * 256))) 0xFFFF

/-- Header and payload of a frame (R457). -/
def Frame.bytes (f : Frame) : List Byte :=
  let h := beBytes 1 f.ty ++ beBytes 1 0 ++ beBytes 2 f.dst ++ beBytes 2 f.src ++ beBytes 2 f.payload.length
    ++ beBytes 2 f.seq ++ beBytes 4 0
  h ++ beBytes 2 (crc16 h) ++ f.payload

namespace State

/-- Advances a counter that sticks at all-ones. -/
def bump (s : State) (f : Fld) : State :=
  if s.rd f + 1 < 2 ^ f.w then s.wr f (s.rd f + 1) else s.wr f (2 ^ f.w - 1)

/-- Writes a value that sticks at all-ones. -/
def wrSat (s : State) (f : Fld) (v : Nat) : State := s.wr f (min v (2 ^ f.w - 1))

/-- A 64-bit value in a LO and a HI register (R570). -/
def rd64 (s : State) (lo hi : Nat) : Nat := (s.reg lo).toNat + 2 ^ 32 * (s.reg hi).toNat

def wr64 (s : State) (lo hi : Nat) (v : Nat) : State :=
  (s.setReg lo (BitVec.ofNat 32 v)).setReg hi (BitVec.ofNat 32 (v / 2 ^ 32))

/-! ## The replicator (R364) -/

/-- The place of an input among those captured in the same PER clock: its row of the table. -/
def inputRank : RepInput → Nat
  | .ss1Stop _ | .brakeStep .. => 0
  | .modeChange .. => 1
  | .desc _ => 2
  | .offer .. => 3
  | .chainFrame _ => 4
  | .canRx .. => 5
  | .event .. | .copyEnd .. | .signed .. => 6
  | .pacer _ => 7

/-- Puts an entry behind those captured before it, and in the table's order among those of its PER clock. -/
def insertInput (e : RepEntry) : List RepEntry → List RepEntry
  | [] => [e]
  | x :: xs => if x.clk = e.clk ∧ inputRank e.inp < inputRank x.inp then e :: x :: xs else x :: insertInput e xs

/-- Captures an asynchronous input into the replicator with its chain time. -/
def capture (s : State) (i : RepInput) : State :=
  if s.cpuOn then { s with cores := { s.cores with repQ := insertInput ⟨s.ct, s.perClock, i⟩ s.cores.repQ } } else s

/-- A trigger condition of the armed trace is taken at the next record (R268). -/
def traceHit (s : State) (src : Nat) : State :=
  if s.rd F.FSL_TRC_STAT_STATE = 1 ∧ s.rd F.FSL_TRC_TRIG_SRC = src then
    { s with fsl := { s.fsl with trcHit := true } }
  else s

/-- The replicator captures an event of a hardware block, and the armed trace may trigger on it (R268, R364). -/
def raised (s : State) (code arg : Nat) : State :=
  (if s.rd F.FSL_TRC_TRIG_CODE = code then s.traceHit 3 else s).capture (.event code arg)

/-! ## The recorder's staging (R513 to R515) -/

/-- Bytes a record occupies (R515). -/
def recSize (len : Nat) (conf : Bool) : Nat := (24 + len + (if conf then 16 else 0) + 7) / 8 * 8

/-- Bytes of the staged records that no page program has taken yet. -/
def unpacked (s : State) : Nat :=
  (s.recd.staging.map fun i => recSize i.payload.length i.conf).foldl (· + ·) 0

/-- Adds a record to the staging, or drops it when the 64 KiB are full. A page that the record no longer fits
is full and is written (R514). -/
def recAdd (s : State) (kind : Nat) (ct : Nat) (payload : List Byte) (conf : Bool) : State :=
  let size := recSize payload.length conf
  if !s.commOn then s
  else if s.recd.staged + size ≤ 65536 then
    let s := if s.unpacked + size ≤ 4096 then s
      else { s with recd := { s.recd with
          progs := s.recd.progs ++ [.events s.recd.staging], staging := [], stagedAt := none } }
    let item : RecItem := ⟨s.recd.rnum, ct, kind, conf, payload⟩
    let s := { s with recd := { s.recd with
        staging := s.recd.staging ++ [item]
        staged := s.recd.staged + size
        rnum := s.recd.rnum + 1
        stagedAt := match s.recd.stagedAt with
          | some x => some x
          | none => some s.now } }
    s.wr64 R.REC_HEAD_LO R.REC_HEAD_HI s.recd.rnum
  else
    let s := { s with recd := { s.recd with dropTold := true } }
    let s := (s.bump F.REC_CNT_EV_DROP_CNT).hi F.REC_STAT_EV_DROP
    if s.rd F.REC_CNT_EV_DROP_CNT = 255 ∧ s.bit F.REC_CNT_SAT = false then
      (s.hi F.REC_CNT_SAT).raised 0x0F0C 0
    else s

/-! ## Rings (R411 to R416) -/

/-- Number of entries of a ring (R412). -/
def ringSize (s : State) (r : Nat) : Nat := 2 ^ (max 4 (min 12 (s.rd (F.HIF_RCFG_SIZE r))))

def ringBase (s : State) (r : Nat) : Nat := s.rd64 (R.HIF_RBASE_LO r) (R.HIF_RBASE_HI r)

/-- Bytes of an entry (R411). -/
def entryBytes (r : Nat) : Nat := if r < 4 then 64 else if r < 9 then 32 else 64

/-- Entries a ring holds (R413). -/
def ringHeld (s : State) (r : Nat) : Nat :=
  (s.rd (F.HIF_RIDX_PROD r) + 65536 - s.rd (F.HIF_RIDX_CONS r)) % 65536

/-- A ring is enabled, and its memory can be reached: host memory cannot be in D3hot (R407, R412). -/
def ringEn (s : State) (r : Nat) : Bool :=
  s.commOn && s.bit (F.HIF_RCFG_EN r) && (s.bit (F.HIF_RCFG_LOC r) || !s.hif.pcie.d3hot)

/-- A module-to-host ring that accepts an entry. -/
def ringTakes (s : State) (r : Nat) : Bool := s.ringEn r && decide (s.ringHeld r < s.ringSize r)

def phase (s : State) (r : Nat) : Bool := kvGet (fun _ => true) s.hif.phase r

/-- Stores bytes where a ring's LOC bit says: host memory or the BAR2 host window, outside which nothing is stored
(R409, R412, log entry 87). -/
def ringStore (s : State) (r : Nat) (addr : Nat) (bs : List Byte) : State :=
  if s.bit (F.HIF_RCFG_LOC r) then
    if addr + bs.length ≤ 0x80000 then { s with sram := memPut s.sram addr bs } else s
  else s.emit (.hostWrite addr bs)

/-- Writes a ring's shadow with an index (R415, R416). -/
def writeShadow (s : State) (r : Nat) (idx : Nat) : State :=
  let a := s.rd64 (R.HIF_RSHD_LO r) (R.HIF_RSHD_HI r) / 4 * 4
  if a = 0 then s else s.ringStore r a (leBytes 4 idx)

/-- Writes one entry of a module-to-host ring: PHASE into the flags byte, PROD, phase and shadow
(R416). -/
def writeEntry (s : State) (r flagByte : Nat) (bs : List Byte) : State :=
  let prod := s.rd (F.HIF_RIDX_PROD r)
  let bs := bs.set flagByte (bs.getD flagByte 0#8 ||| (if s.phase r then 1#8 else 0#8))
  let s := s.ringStore r (s.ringBase r + prod % s.ringSize r * entryBytes r) bs
  let next := (prod + 1) % 65536
  let s := s.wr (F.HIF_RIDX_PROD r) next
  let s := s.cond (next % s.ringSize r == 0) fun s =>
    { s with hif := { s.hif with phase := kvSet (fun _ => true) s.hif.phase r (!s.phase r) } }
  s.writeShadow r next

/-! ## The chain's own sending (R460, R461) -/

def chainAddr (s : State) : Nat := s.rd F.CHN_ADDR_ADDR

/-- The port is the end of the chain, or the root's UP port without ring closure (R452). -/
def portEnd (s : State) (p : Nat) : Bool :=
  (p == 1 && s.bit F.BLK_ROLE_END) || (p == 0 && s.bit F.BLK_ROLE_ROOT && !s.bit F.BLK_ROLE_RING)

/-- The ports a frame of the unit's own leaves by; none when unreachable (R461). A bound on the DOWN side is the reporter
whose DOWN port failed, one on the UP side that whose UP port failed; a failed ring joint leaves no closure (R468). -/
def route (s : State) (dst : Nat) : List Nat :=
  let own := s.chainAddr
  let upB := s.bit F.CHN_BREAK_UP_VALID
  let dnB := s.bit F.CHN_BREAK_DN_VALID
  let ub := s.rd F.CHN_BREAK_UP_BND
  let db := s.rd F.CHN_BREAK_DN_BND
  let ring := s.bit F.BLK_ROLE_RING && !(upB && ub == 1)
  if dst = 0x3FFF then [0, 1].filter fun p => !s.portEnd p
  else if own < dst then
    if !(dnB && decide (own ≤ db) && decide (db < dst)) then [1]
    else if !ring then [] else if upB && decide (own < ub) && decide (dst < ub) then [0, 1] else [0]
  else
    if !(upB && decide (ub ≤ own) && decide (dst < ub)) then [0]
    else if !ring then [] else if dnB && decide (db < own) && decide (db < dst) then [0, 1] else [1]

/-- Originates a frame: one copy per port of R461, under the unit's SRC and next SEQ. -/
def sendFrame (s : State) (ty dst : Nat) (payload : List Byte) (cmd : Option Cmd) : State :=
  let f : Frame := ⟨ty, dst, s.chainAddr, s.chain.seq, payload⟩
  { s with chain := { s.chain with
      seq := (s.chain.seq + 1) % 65536
      queue := s.chain.queue ++ (s.route dst).map (fun p => ⟨p, true, f, cmd, s.now⟩) } }

/-! ## Interrupts (R432, R480) -/

/-- No message leaves the function: it is masked as a whole, or in D3hot (R407). -/
def msixShut (s : State) : Bool := s.hif.pcie.funcMask || s.hif.pcie.d3hot

/-- Sends the message or NOTIFY frame of a ring. -/
def sendIrq (s : State) (r : Nat) : State :=
  let v := s.rd (F.HIF_RCFG_VEC r)
  if s.bit (F.HIF_RCFG_NOTIFY r) then
    let dst := s.rd F.CHN_NOTIFY_DST
    if dst = 0 then s
    else s.sendFrame 0x13 dst
      (leBytes 1 v ++ leBytes 1 r ++ beBytes 2 (s.rd (F.HIF_RIDX_PROD r)) ++ leBytes 4 0) none
  else if !s.hif.pcie.msixEn then s
  else if s.bit (F.HIF_MSIX_CTRL_MASK v) || s.msixShut then s.wr ⟨R.HIF_MSIX_PBA, v, 1⟩ 1
  else s.emit (.msix v)

/-- Raises a ring's vector: at once, or merged until IRQ_HOLD has passed (R432). -/
def raiseIrq (s : State) (r : Nat) : State :=
  if !s.bit (F.HIF_RCFG_IRQ_EN r) then s
  else
    let v := s.rd (F.HIF_RCFG_VEC r)
    let last := kvGet (fun _ => 0) s.hif.irqAt v
    if last = 0 ∨ last - 1 + s.rd F.HIF_CTL_IRQ_HOLD * 1000 ≤ s.now then
      let s := s.sendIrq r
      { s with hif := { s.hif with irqAt := kvSet (fun _ => 0) s.hif.irqAt v (s.now + 1) } }
    else { s with hif := { s.hif with irqHeld := kvSet (fun _ => false) s.hif.irqHeld r true } }

/-! ## Events (R416, R424 to R426, R513) -/

/-- The 32 bytes of an event record, PHASE clear (R424). -/
def eventBytes (s : State) (e : Event) (direct lost : Bool) : List Byte :=
  leBytes 2 e.code ++ leBytes 1 ((if lost then 2 else 0) + (if direct then 4 else 0)) ++ leBytes 1 0
    ++ leBytes 4 e.arg ++ leBytes 8 e.ct ++ leBytes 4 e.mode ++ leBytes 4 0
    ++ leBytes 8 s.hif.eseq

/-- Writes an event record to the EVT ring and raises its vector. -/
def writeEvent (s : State) (e : Event) (direct : Bool) : State :=
  let s := s.writeEntry 8 2 (s.eventBytes e direct s.hif.lost)
  let s := { s with hif := { s.hif with eseq := s.hif.eseq + 1, lost := false } }
  s.raiseIrq 8

/-- Counts a dropped record of a ring (R416, R412). -/
def dropRecord (s : State) (r : Nat) : State :=
  let s := s.bump (F.HIF_RCNT_CNT r)
  if s.rd (F.HIF_RCNT_CNT r) = 0xFFFF ∧ s.bit (F.HIF_RCNT_SAT r) = false then
    (s.hi (F.HIF_RCNT_SAT r)).raised 0x0308 0
  else s

/-- Releases an event record: recorded under REC_EVMASK, then written to EVT, held, or dropped. -/
def postEvent (s : State) (e : Event) (direct : Bool) : State :=
  let b := e.code / 256
  let s := s.cond (b < 18 && (s.rd F.REC_EVMASK_MASK / 2 ^ b % 2 == 1)) fun s =>
    s.recAdd 1 e.ct (s.eventBytes e direct false) false
  if !s.commOn then s
  else if s.hif.backlog.isEmpty && s.ringTakes 8 then s.writeEvent e direct
  else if s.hif.backlog.length < 64 then
    { s with hif := { s.hif with backlog := s.hif.backlog ++ [(e, direct)] } }
  else
    let s := s.dropRecord 8
    { s with hif := { s.hif with lost := true, eseq := s.hif.eseq + 1,
                                 late := s.hif.late ++ (if s.hif.lost then [] else [(0x0302, 0)]) } }

/-- The key under which an event is raised at most once per 1 ms, where a chapter says so (R158, R176,
R213, R239, R275, R296, R318, R391, R479, R484, R503, R426, R366). -/
def eventKey (code arg : Nat) : Option Nat :=
  if code = 0x0B0A then some (code * 16 + arg / 4096 % 16)
  else match code / 256 with
  | 0x07 | 0x0A | 0x0B | 0x0E => some (code * 16 + arg % 16)
  | 0x06 => if code = 0x0601 ∨ code = 0x0605 ∨ 0x0620 ≤ code then some (code * 16 + arg % 16) else none
  | 0x09 => if code = 0x0903 then some (code * 16 + arg / 16 % 16)
      else if code = 0x0901 then some (code * 16 + arg % 16) else none
  | _ => if code = 0x0201 ∨ code = 0x0D0C ∨ code = 0x0D0D ∨ code = 0x0307 ∨ code = 0x0505
      then some (code * 16) else none

/-- Is the event held back because it was raised less than 1 ms ago? -/
def eventBarred (s : State) (code arg : Nat) : Bool :=
  match eventKey code arg with
  | none => false
  | some k =>
    let last := kvGet (fun _ => 0) s.hif.evAt k
    last != 0 && decide (s.now < last - 1 + 1000000)

/-- A block raises an event: the CPX block's are posted directly by the voter, every other is captured
by the replicator (R364, R367, R424). -/
def event (s : State) (code arg : Nat) : State :=
  if s.eventBarred code arg then s
  else
    let s := match eventKey code arg with
      | none => s
      | some k => { s with hif := { s.hif with evAt := kvSet (fun _ => 0) s.hif.evAt k (s.now + 1) } }
    if code / 256 = 5 then
      (if s.rd F.FSL_TRC_TRIG_CODE = code then s.traceHit 3 else s).postEvent ⟨code, arg, s.ct, (s.reg R.SYS_MODE).toNat⟩ true
    else s.raised code arg

/-- Advances a counter; when it first reaches all-ones its SAT bit is set and an event raised. -/
def count (s : State) (f sat : Fld) (code arg : Nat) : State :=
  let s := s.bump f
  if s.rd f = 2 ^ f.w - 1 ∧ s.bit sat = false then (s.hi sat).event code arg else s

/-! ## The journal (R436 to R443) -/

/-- Entries not yet committed to flash. -/
def unmirrored (s : State) : Nat := s.rd F.JRN_STAT_UNMIR

/-- Recomputes the journal's registers after a change of its entries. -/
def journalRegs (s : State) : State :=
  let mir := s.rd64 R.JRN_MIRROR_SEQ_LO R.JRN_MIRROR_SEQ_HI
  let un := (s.jrn.entries.filter (fun e => decide (mir < e.jseq))).length
  let s := s.wr F.JRN_STAT_UNMIR un
  let s := s.wrB F.JRN_STAT_FULL (decide (2048 - un < 9))
  match s.jrn.entries with
  | [] => s
  | e :: _ => s.wr64 R.JRN_TAIL_SEQ_LO R.JRN_TAIL_SEQ_HI e.jseq

/-- Drops the oldest committed entries beyond the 2,048 slots (R441). -/
def trimEntries : List JEntry → List JEntry
  | [] => []
  | e :: es => if es.length < 2048 then e :: es else trimEntries es

/-- Releases a journal entry under the next JSEQ (or `jump` further): HEAD, UNMIR and FULL follow
(R438, R441). -/
def journalAdd (s : State) (jump : Nat) (e : JEntry) : State :=
  let j := s.rd64 R.JRN_HEAD_SEQ_LO R.JRN_HEAD_SEQ_HI + jump
  let before := s.unmirrored
  let wasFull := s.bit F.JRN_STAT_FULL
  let s := { s with jrn := { s.jrn with
      entries := trimEntries (s.jrn.entries ++ [{ e with jseq := j, ct := s.ct }]) } }
  let s := (s.wr64 R.JRN_HEAD_SEQ_LO R.JRN_HEAD_SEQ_HI j).journalRegs
  let s := s.cond (decide (before < 1536) && decide (1536 ≤ s.unmirrored)) fun s => s.event 0x0401 0
  s.cond (!wasFull && s.bit F.JRN_STAT_FULL) fun s => s.event 0x0402 0

/-- Writes a module entry (R437). -/
def journalModule (s : State) (jump kind hseq argh : Nat) (gap : Bool) : State :=
  s.journalAdd jump ⟨0, 0, hseq, 0xFF, 0, 0, kind, false, gap, argh⟩

/-- Sets the final STATUS of an entry (R439). -/
def journalFinal (s : State) (jseq status : Nat) : State :=
  { s with jrn := { s.jrn with
      entries := s.jrn.entries.map (fun e => if e.jseq = jseq then { e with status := status } else e) } }

/-! ## Completions (R419, R420, R423, R439, R442) -/

/-- Descriptors fetched and not yet completed on a ring. -/
def openOn (s : State) (r : Nat) : Nat := kvGet (fun _ => 0) s.hif.open_ r

def setOpen (s : State) (r n : Nat) : State :=
  let s := { s with hif := { s.hif with open_ := kvSet (fun _ => 0) s.hif.open_ r n } }
  s.wr F.JRN_OPEN_OPEN (s.openOn 0 + s.openOn 1 + s.openOn 2 + s.openOn 3)

/-- The command in progress on a ring (R420). -/
def runningCmd (s : State) (r : Nat) : Option Cmd := (s.cores.running.find? (fun p => p.1 == r)).map (·.2)

def setRunning (s : State) (r : Nat) (c : Option Cmd) : State :=
  let l := s.cores.running.filter (fun p => p.1 != r)
  { s with cores := { s.cores with
      running := match c with
        | some c => l ++ [(r, c)]
        | none => l
      begun := s.cores.begun.filter (· != r) } }

/-- The command that holds a ring has begun: nothing starts it a second time (R420). -/
def begin_ (s : State) (r : Nat) : State :=
  { s with cores := { s.cores with begun := s.cores.begun.filter (· != r) ++ [r] } }

/-- The 32 bytes of a completion, PHASE clear (R423). -/
def completionBytes (c : Completion) : List Byte :=
  leBytes 2 c.cmd.tag ++ leBytes 1 c.status ++ leBytes 1 c.cmd.opcode ++ leBytes 1 c.cmd.ring
    ++ leBytes 1 0 ++ leBytes 2 c.cmd.idx ++ leBytes 8 c.cmd.hseq ++ leBytes 8 c.cmd.jseq
    ++ leBytes 8 c.result

/-- Writes a completion to its ring while that ring is enabled and the link has not been reset since the fetch
(R410, R423, R432, R435). -/
def writeCompletion (s : State) (c : Completion) : State :=
  let r := c.cmd.ring
  let s := s.setOpen r (s.openOn r - 1)
  if s.ringEn (4 + r) && c.cmd.links == s.hif.links then
    let s := s.writeEntry (4 + r) 5 (completionBytes c)
    s.cond (c.cmd.irq || c.status != 0) fun s => s.raiseIrq (4 + r)
  else s

/-- The cores issue a completion: the command ring is free, and the entry waits for the checkpoint that passes it (R19,
R367, R420). -/
def issue (s : State) (c : Completion) : State :=
  let s := s.cond (match s.runningCmd c.cmd.ring with
      | some x => x == c.cmd
      | none => false) fun s => s.setRunning c.cmd.ring none
  { s with cores := { s.cores with owed := s.cores.owed ++ [c] } }

/-- A command's end leaves the cluster: its journal entry becomes final, then its completion is issued; that of a SYNC
command waits for its batch unless the write ban is in force (R439, R442, R443). -/
def settle (s : State) (c : Completion) : State :=
  let s := s.journalFinal c.cmd.jseq c.status
  if c.cmd.sync && !s.bit F.JRN_STAT_BAN
      && decide (s.rd64 R.JRN_MIRROR_SEQ_LO R.JRN_MIRROR_SEQ_HI < c.cmd.jseq) then
    { s with hif := { s.hif with syncHeld := s.hif.syncHeld ++ [c] } }
  else s.issue c

/-- Releases the completions that wait, all but the first `n` of those whose entry is still to become final, with those that
`p` names of the others (R367). -/
def releaseFrom (s : State) (n : Nat) (p : Completion → Bool) : State :=
  let l := s.cores.finals.drop n
  let s : State := l.foldl settle { s with cores := { s.cores with finals := s.cores.finals.take n } }
  let go (c : Completion) : Bool := p c || l.contains c
  let out := s.cores.owed.filter go
  out.foldl writeCompletion { s with cores := { s.cores with owed := s.cores.owed.filter fun c => !go c } }

/-- A passed checkpoint releases the completions that wait for it (R367). -/
def releaseOwed (s : State) : State := s.releaseFrom 0 fun _ => true

/-- The batch of a held completion is not waited for: COMM is about to lose its power (R77, R421, log entry 123). -/
def releaseHeld (s : State) (p : Completion → Bool) : State :=
  let s := s.releaseOwed
  let l := s.hif.syncHeld.filter p
  let s := { s with hif := { s.hif with syncHeld := s.hif.syncHeld.filter fun c => !p c } }
  let s : State := l.foldl issue s
  s.releaseOwed

/-- A command has ended: the cores issue its final STATUS and its completion, which the next checkpoint to pass releases
(R19, R370, R439). -/
def complete (s : State) (c : Cmd) (status result : Nat) : State :=
  let s := s.cond (s.runningCmd c.ring == some c) fun s => s.begin_ c.ring
  { s with cores := { s.cores with finals := s.cores.finals ++ [⟨c, status, result⟩] } }

/-- Copies under way are abandoned, and their commands complete ARG in the journal (R435). -/
def abandonCopies (s : State) : State :=
  let jobs := s.hif.mover
  let s := { s with hif := { s.hif with mover := [] } }
  jobs.foldl (fun s j => s.complete j.cmd 2 0) s

end State

/-- Status codes (R419). -/
def stOk : Nat := 0
def stMode : Nat := 1
def stArg : Nat := 2
def stLocked : Nat := 3
def stBusy : Nat := 4
def stTimeout : Nat := 5
def stVeto : Nat := 6
def stDuplicate : Nat := 7
def stIntegrity : Nat := 8

end Sys2Proof.Machine
end

