-- ==== Sys2Proof/Machine/Channels.lean ====
section
/-!
DEFINITION. The switches of the bridges at their lowest level: a gate channel turning on and off, its
latch, Uzodar's lines, and a carrier's outputs (R81 to R92, R106, R114, R116, R141, R153, R154).
-/

namespace Sys2Proof.Machine

/-- The state codes of R84. -/
def ChState.code : ChState → Nat
  | .noLink => 0 | .config => 1 | .uvlo => 2 | .disabled => 3 | .off => 4
  | .on => 5 | .softOff => 6 | .latched => 7 | .thermal => 8 | .diag => 9

/-- The fault line is asserted while the channel holds its switch off by its own protection, or is
latched (R81). -/
def ChState.faultLine : ChState → Bool
  | .uvlo | .softOff | .latched | .thermal => true
  | _ => false

namespace State

/-- A gate channel by its number. -/
def ch (s : State) (n : Nat) : GateCh := kvGet (fun _ => {}) s.gates n

def modCh (s : State) (n : Nat) (f : GateCh → GateCh) : State :=
  { s with gates := kvSet (fun _ => {}) s.gates n (f (s.ch n)) }

/-- A boot-locked field as Uzodar's shadow holds it; the register's reset value before the first load (R323). -/
def uz (s : State) (f : Fld) : Nat := f.get (kvGet resetVal s.saf.shadow f.off)

/-- A channel is declared unused (R49, R97). -/
def unused (s : State) (n : Nat) : Bool := s.bit (F.GDC_UVLO_UNUSED n)

/-- The enable of an axis's bridge is asserted (R37, R107). -/
def enabled (s : State) (a : Nat) : Bool :=
  if s.threeLevel then s.pins.ena0 && s.pins.ena1 else if a = 0 then s.pins.ena0 else s.pins.ena1

def chEnabled (s : State) (n : Nat) : Bool := s.enabled (s.axisOf n)

/-! ## The channel's own copy of its configuration (R83, R93) -/

/-- Word `i` of the copy: UVLO, DESAT, TRIM, DRV, PROF; its reset value before the first exchange. -/
def chWord (s : State) (n i : Nat) : BitVec 32 :=
  (s.ch n).copy.getD i (resetVal (0x80000 + 0x100 * n + [0x00, 0x04, 0x08, 0x10, 0x14].getD i 0))

/-- A field of word `i` of the copy. -/
def chBit (s : State) (n i : Nat) (f : Fld) : Bool := f.get (s.chWord n i) != 0

/-- The five configuration words of a channel as the controller holds them; with CTL unpowered, the thresholds of
Uzodar's shadow and the drive words as CTL last held them (R26, R83, log entry 94). -/
def configWords (s : State) (n : Nat) : List (BitVec 32) :=
  let drive := [R.GDC_TRIM n, R.GDC_DRV n, R.GDC_PROF n]
  if s.ctlOn then ([R.GDC_UVLO n, R.GDC_DESAT n] ++ drive).map s.reg
  else [R.GDC_UVLO n, R.GDC_DESAT n].map (kvGet resetVal s.saf.shadow) ++ drive.map (kvGet resetVal s.saf.kept)

/-- CTL goes down: what its channels drive with is kept beside Uzodar's shadow (R26, log entry 94). -/
def keepDrive (s : State) : State :=
  let l := (List.range 12).flatMap fun n => [R.GDC_TRIM n, R.GDC_DRV n, R.GDC_PROF n]
  { s with saf := { s.saf with kept := l.foldl (fun m o => kvSet resetVal m o (s.reg o)) [] } }

/-- The hard-short level is reachable (R102). -/
def hsReach (s : State) (n : Nat) : Bool :=
  decide (2 * (300 + 10 * min 90 (s.rd (F.GDC_DESAT_DESAT_TH n))) + 100
    ≤ 900 + 25 * min 44 (s.rd (F.GDC_UVLO_VPOS_TH n)))

/-- HS_REACH of a linked channel follows the thresholds (R102). -/
def showReach (s : State) (n : Nat) : State :=
  match (s.ch n).st with
  | .noLink | .config => s
  | _ => s.wrB (F.GDC_STAT_HS_REACH n) (s.hsReach n)

/-- R576: a configuration register of a linked channel has changed. An exchange falls due, with a count of failures of
its own, and HS_REACH follows the thresholds (R102). -/
def gdcChanged (s : State) (n : Nat) : State :=
  match (s.ch n).st with
  | .noLink | .config => s
  | _ => (s.modCh n fun c => { c with exchange := true, fails := 0 }).wrB (F.GDC_STAT_HS_REACH n) (s.hsReach n)

/-! ## State changes -/

/-- The controller's mirror of a channel's state, fault line and latch, with the latch as Uzodar's copy holds it (R87,
R113, R114). -/
def mirrorCh (s : State) (n : Nat) : State :=
  let st := (s.ch n).st
  let held := s.saf.latch.testBit n
  let s := (s.wr (F.GDC_STAT_STATE n) st.code).wrB (F.GDC_STAT_LATCH n) held
  let s := s.cond (held || st == .latched) fun s => s.wr (F.GDC_STAT_LATCH_CAUSE n) (s.ch n).cause
  (s.wrB ⟨R.GDC_LATCH_SUM, 16 + n, 1⟩ st.faultLine).wrB ⟨R.GDC_LATCH_SUM, n, 1⟩ (held || st == .latched)

/-- The GDX clock, 100 MHz, of the present instant, plus 1 (R85). -/
def gdxClk (s : State) : Nat := s.now / 10 + 1

/-- Row of R85 that leads to a state, from the top; LATCHED is reached by a row for each cause. -/
def rowTo (cause : Nat) : ChState → Nat
  | .noLink => 1
  | .config => 2
  | .softOff => 5
  | .uvlo => 7
  | .thermal => 9
  | .latched => if cause = 2 then 7 else if cause = 3 then 11 else 6
  | .disabled => 12
  | .on => 15
  | .off => 16
  | .diag => 17

/-- A row of R85 applies to a channel: it stands in a state the row names, or it stood in one at the start of this GDX
clock and has taken a lower row since (R85). -/
def mayTake (s : State) (n row : Nat) (from_ : ChState → Bool) : Bool :=
  let c := s.ch n
  from_ c.st || (c.clk == s.gdxClk && from_ c.was && decide (row < c.row))

/-- The active clamp holds the gate in a state: the switch is off, no gate test runs, and CLAMP_EN allows it (R84, R91,
R105, R117). -/
def clamps (s : State) (n : Nat) (st : ChState) : Bool :=
  s.chBit n 3 (F.GDC_DRV_CLAMP_EN n) && st != .on && st != .softOff && !(st == .diag && s.diag.test == 1)

/-- A channel takes a state. Leaving DIAG aborts its test (R117); reaching OFF is kept for R99. The clamp engages with
the turn-off and releases at the turn-on (R91, log entry 92). -/
def putCh (s : State) (n : Nat) (st : ChState) : State :=
  let s := s.cond ((s.ch n).st == .diag && st != .diag) fun s =>
    if s.diag.test = 1 then s.wr (F.GDC_DIAG_RES_GATE_RES n) 6 else s.wr (F.GDC_DIAG_RES_DS_RES n) 6
  let clamp := s.clamps n st
  let s := s.modCh n fun c => { c with
    st := st
    seenOff := (c.seenOff || st == .off) && st != .noLink
    forced := c.forced && st == .on
    offDue := c.offDue && st == .on
    riseAt := if st = .off then c.riseAt else none
    row := rowTo c.cause st
    blanked := c.blanked && st == .on
    clamp := clamp
    clk := s.gdxClk
    was := if c.clk = s.gdxClk then c.was else c.st
    wasBlanked := if c.clk = s.gdxClk then c.wasBlanked else c.blanked
    offAt := if c.st = .on then s.now else c.offAt }
  s.mirrorCh n

/-- The first phase of a drive edge, by the channel's own MODE (R88, R89, R93). -/
def firstPhase (s : State) (n : Nat) : DrvPhase := if s.chBit n 3 (F.GDC_DRV_MODE n) then .pre else .strong

/-- A normal turn-off. The channel takes state `st` (R85, R88, R90). -/
def turnOff (s : State) (n : Nat) (st : ChState) : State :=
  let s := s.cond ((s.ch n).st == .on) fun s => s.modCh n fun c => { c with phase := s.firstPhase n }
  s.putCh n st

/-- A turn-on: blanking and the on-interval start (R85, R88, R101, R116). -/
def turnOn (s : State) (n : Nat) (force : Bool) : State :=
  let s := s.putCh n .on
  let s := s.modCh n fun c => { c with phase := s.firstPhase n, forced := force, blanked := false }
  (s.lo (F.GDC_VON_CNT n)).lo (F.GDC_VON_VALID n)

/-- A switch that is on turns off; any other channel stays as it is. -/
def dropOn (s : State) (n : Nat) : State :=
  if (s.ch n).st = .on then s.turnOff n .off else s

/-! ## Carriers -/

/-- The carrier of an axis: its own number; the shadow commits to carrier 0 (R122, R128). -/
def car (s : State) (c : Nat) : Carrier := kvGet (fun _ => {}) s.carriers c

def modCar (s : State) (c : Nat) (f : Carrier → Carrier) : State :=
  { s with carriers := kvSet (fun _ => {}) s.carriers c (f (s.car c)) }

def leg (s : State) (c x : Nat) : PwmLeg := kvGet (fun _ => {}) (s.car c).legs x

def modLeg (s : State) (c x : Nat) (f : PwmLeg → PwmLeg) : State :=
  s.modCar c fun k => { k with legs := kvSet (fun _ => {}) k.legs x (f (s.leg c x)) }

/-! ## Off by the PWM (R23, R147) -/

/-- A switch has been off for the dead time of its carrier (R137, R147). -/
def rested (s : State) (m : Nat) : Bool :=
  let c := s.ch m
  c.st != .on && decide (c.offAt = 0 ∨ (s.car (s.axisOf m)).dt / 16 ≤ s.now - c.offAt)

/-- The inner switch of a three-level leg turns off only after its outer one has been off for the dead time (R147). -/
def innerHeld (s : State) (n : Nat) : Bool :=
  s.threeLevel && ((n % 4 == 1 && !s.rested (n - 1)) || (n % 4 == 2 && !s.rested (n + 1)))

/-- The PWM holds a switch off: one that Uzodar forces on, at a higher rank, stays on (R23), and an inner switch goes off
once its outer one has been off for the dead time (R147). -/
def dropPwm (s : State) (n : Nat) : State :=
  if (s.ch n).st = .on ∧ (s.ch n).forced = false then
    if s.innerHeld n then s.modCh n fun c => { c with offDue := true } else s.turnOff n .off
  else s

/-- Acts on channels with the outer switches of a three-level leg before its inner ones (R147, R153). -/
def eachOff (s : State) (l : List Nat) (f : State → Nat → State) : State :=
  let outer := l.filter (fun n => s.threeLevel && (n % 4 == 0 || n % 4 == 3))
  (s.each outer f).each l f

/-- Turns off a whole bridge, whatever holds a switch on (R23 ranks 2 and 3). -/
def bridgeOff (s : State) (a : Nat) : State := s.eachOff (s.channels a) dropOn

/-- The PWM holds a whole bridge off (R23 rank 4). -/
def pwmOff (s : State) (a : Nat) : State := s.eachOff (s.channels a) dropPwm

/-- Records or clears Uzodar's copy of a channel's latch and the bits that show it (R87, R113, R114). -/
def setLatch (s : State) (n : Nat) (b : Bool) : State :=
  let bit := s.saf.latch / 2 ^ n % 2
  let latch := if b then s.saf.latch + (1 - bit) * 2 ^ n else s.saf.latch - bit * 2 ^ n
  let faulted := if b then s.saf.faulted else s.saf.faulted - s.saf.faulted / 2 ^ n % 2 * 2 ^ n
  ({ s with saf := { s.saf with latch := latch, faulted := faulted } }).mirrorCh n

/-- What the configuration load does to the channels: one declared unused goes to NO_LINK, and one whose words have
changed gets an exchange (R97, R576). -/
def gdcLoaded (s : State) (was : Nat → List (BitVec 32)) : State :=
  s.each (List.range 12) fun s n =>
    if s.unused n then (if (s.ch n).st = .noLink then s else s.turnOff n .noLink)
    else if s.configWords n = was n then s.showReach n else s.gdcChanged n

/-- The counted UVLO entries of the last second (R99). -/
def uvCounted (s : State) (n : Nat) : List Nat :=
  (s.ch n).uvAt.filter (fun t => decide (s.now < t + 1000000000))

/-- The controller's registers of the channels after CTL has started afresh: the link shows each channel's state, supplies,
counted entries and reach again, and an exchange falls due where a copy differs (R82, R83, R99, R102, R113, log entry
94). -/
def gdcRefresh (s : State) : State :=
  s.each (List.range 12) fun s n =>
    let c := s.ch n
    let s := s.mirrorCh n
    if c.st = .noLink then s
    else
      let s := (s.wrB (F.GDC_STAT_UV_POS n) (!c.posOk)).wrB (F.GDC_STAT_UV_NEG n) (!c.negOk)
      let s := (s.wr (F.GDC_STAT_UV_WIN n) (min 3 (s.uvCounted n).length)).showReach n
      s.cond (c.st != .config && c.copy != s.configWords n) fun s => s.gdcChanged n

/-! ## Uzodar's permits and force-on (R24, R86, R106, R108, R334) -/

/-- A switch that is faulted for R24: in soft turn-off, latched, or latched in Uzodar's copy. -/
def faulted (s : State) (n : Nat) : Bool :=
  (s.ch n).st == .softOff || (s.ch n).st == .latched || s.saf.latch.testBit n

/-- A switch that its channel holds off. -/
def heldOff (s : State) (n : Nat) : Bool :=
  match (s.ch n).st with
  | .disabled | .off | .on => false
  | _ => true

/-- No switch of the channel's leg is faulted or held off by its channel, so that R24 lets the switch be forced on. -/
def legClear (s : State) (n : Nat) : Bool :=
  (s.channels (s.axisOf n)).all fun m => s.legOf m != s.legOf n || (!s.faulted m && !s.heldOff m)

/-- The effective dead-time floor of R139 as Uzodar's shadow holds it, in ns (R334). -/
def floorNs (s : State) : Nat := 10 * min 800 (s.uz F.PWM_FLOOR_DT_FLOOR)

/-- Force-on of one switch of a short circuit: it closes once the dead-time floor has passed since the permits of the
bridge were withdrawn (R334). -/
def forceOn (s : State) (n : Nat) : State :=
  let c := s.ch n
  if c.st = .off ∧ s.chEnabled n then
    match c.riseAt with
    | none => s.modCh n fun c => { c with riseAt := some (s.now + s.floorNs) }
    | some x => if x ≤ s.now then s.turnOn n true else s
  else s

/-- No force-on waits on the bridge: one waits on a channel in OFF alone. -/
def noRise (s : State) (a : Nat) : State :=
  s.each (s.channels a) fun s n => if (s.ch n).st = .off then s.modCh n fun c => { c with riseAt := none } else s

/-- What Uzodar's gate lines do to the channels of a bridge: block, force one half on, or free (R86, R106, R108). For a
short circuit the permits of the whole bridge are withdrawn first (R334). No switch is forced on in a leg with a faulted
one or one held off (R24). -/
def uzGateToChannels (s : State) (a : Nat) (g : UzGate) : State :=
  match g with
  | .free => (s.eachOff (s.channels a) fun s n => if (s.ch n).forced then s.dropOn n else s).noRise a
  | .allOff => (s.bridgeOff a).noRise a
  | .short u =>
    let keep := (s.channels a).filter fun n => s.isUpper n == u && s.legClear n
    let s := s.eachOff ((s.channels a).filter fun n => !(keep.contains n && (s.ch n).forced)) dropOn
    s.each keep forceOn

/-! ## Off-state diagnostics (R117 to R121) -/

/-- The channels of a 12-bit mask. -/
def maskList (m : Nat) : List Nat := (List.range 12).filter (fun n => m.testBit n)

/-- A test of a channel is aborted (R117). -/
def diagMark (s : State) (n : Nat) : State :=
  if s.diag.test = 1 then s.wr (F.GDC_DIAG_RES_GATE_RES n) 6 else s.wr (F.GDC_DIAG_RES_DS_RES n) 6

/-- The test of a waiting channel may start: gate tests on the channels of one leg run one after the other (R117). DESIGN
CHOICE, log entry 116: the lowest channel number runs first. -/
def diagMay (s : State) (n : Nat) : Bool :=
  let mate (m : Nat) : Bool := m != n && s.axisOf m == s.axisOf n && s.legOf m == s.legOf n
  s.diag.test != 1 || ((List.range 12).all (fun m => !mate m || (s.ch m).st != .diag)
    && s.diag.todo.all (fun m => !mate m || decide (n < m)))

/-- A waiting channel may still be tested: READY stands, its bridge is enabled and it waits in OFF (R117). -/
def diagFit (s : State) (n : Nat) : Bool := s.mode == 2 && s.chEnabled n && (s.ch n).st == .off

/-- A waiting channel that may not be tested any more loses its test, and every test that may start does (R117). -/
def diagWave (s : State) : State :=
  let s := s.each (s.diag.todo.filter fun n => !s.diagFit n) diagMark
  let s : State := { s with diag := { s.diag with todo := s.diag.todo.filter s.diagFit } }
  let go := s.diag.todo.filter s.diagMay
  let s : State := { s with diag := { s.diag with todo := s.diag.todo.filter fun n => !go.contains n } }
  s.each go fun s n => s.putCh n .diag

/-- Ends a diagnostic sequence that has no channel left: BUSY clears and event 0x080B follows, with the lowest channel
of the mask (R115, R120, R121, log entry 95). -/
def diagEnd (s : State) : State :=
  if s.diag.todo.isEmpty && (maskList s.diag.mask).all (fun n => (s.ch n).st != .diag) then
    let n := ((maskList s.diag.mask).head?).getD 0
    ({ s with diag := {} }.lo F.GDC_DIAG_CTL_BUSY).event 0x080B n
  else s

/-- A channel under test leaves DIAG; its test is aborted (R85, R117). -/
def diagLeave (s : State) (n : Nat) : State :=
  if (s.ch n).st = .diag then s.putCh n (if s.chEnabled n then .off else .disabled) else s

/-- The end of READY, or of a bridge's enable, aborts the tests concerned (R117). -/
def diagCut (s : State) : State :=
  if !s.bit F.GDC_DIAG_CTL_BUSY then s
  else (s.each ((maskList s.diag.mask).filter fun n => s.mode != 2 || !s.chEnabled n) diagLeave).diagWave.diagEnd

/-! ## Carries and blocks (R140 to R142, R151 to R154) -/

/-- The carry of a leg (R140, R142). -/
def carry (s : State) (c x : Nat) : Int := signed 25 (s.rd (F.PWM_CARRY_CARRY c x))

def putCarry (s : State) (c x : Nat) (v : Int) : State := s.wr (F.PWM_CARRY_CARRY c x) (wrapN 25 v)

/-- The carry of a leg is 0, in the present period too (R141). -/
def clearCarry (s : State) (c x : Nat) : State := (s.putCarry c x 0).modLeg c x fun l => { l with before := 0 }

/-- Sets every carry of a carrier to 0 (R141). -/
def clearCarries (s : State) (c : Nat) : State := s.each [0, 1, 2] fun s x => s.clearCarry c x

/-- R153: leaving RUN and LIMP turns every switch of the bridge off that Uzodar does not force on (R23), and disables
the outputs. -/
def outputsOff (s : State) (a : Nat) : State :=
  ((s.pwmOff a).lo (F.PWM_STAT_OUT_EN a)).modCar a fun k => { k with drove := false }

/-- R109, R154: the PWM block holds every channel of the bridge off and clears the carries. -/
def pwmBlock (s : State) (a : Nat) : State :=
  ((s.hi (F.PWM_STAT_BLOCK a)).pwmOff a).clearCarries a

/-- R100, R154: a leg is marked UVLO-OFF; its switches are held off and its carry cleared. -/
def markLeg (s : State) (a x : Nat) : State :=
  let s := s.wr (F.PWM_STAT_UVLO_OFF a) (s.rd (F.PWM_STAT_UVLO_OFF a) ||| 2 ^ x)
  let s := s.eachOff ((s.channels a).filter (fun n => s.legOf n == x)) dropPwm
  (s.clearCarry a x).event 0x0705 (a + 16 * x)

/-- At an axis's entry to READY the trip count and latch, the UVLO-OFF marks and the carries of the
marked legs clear (R152, R154). -/
def pwmReady (s : State) (a : Nat) : State :=
  let s := (s.lo (F.PWM_STAT_TRIP_CNT a)).lo (F.PWM_STAT_TRIP_LATCH a)
  let s := s.each [0, 1, 2] fun s x =>
    if (s.rd (F.PWM_STAT_UVLO_OFF a)).testBit x then s.clearCarry a x else s
  (s.lo (F.PWM_STAT_UVLO_OFF a)).modCar a fun k => { k with freeRun := 0 }

/-- At an axis's entry to RUN no committed set counts as written after it (R153). -/
def pwmRun (s : State) (a : Nat) : State :=
  let old (p : PwmSet) : PwmSet := { p with afterRun := false, restart := false }
  s.modCar a fun k => { k with
    active := old k.active, pending := k.pending.map old, late := k.late.map old }

end State

end Sys2Proof.Machine
end

