-- ==== Sys2Proof/Machine/Position.lean ====
section
/-!
DEFINITION. The position interfaces as plain computation (R189 to R204): the live angle, speed and
position of each source, its failure, and its snapshot.
-/

namespace Sys2Proof.Machine

namespace State

def pos (s : State) (a : Nat) : PosIf := kvGet (fun _ => {}) s.poss a

def modPos (s : State) (a : Nat) (f : PosIf → PosIf) : State :=
  { s with poss := kvSet (fun _ => {}) s.poss a (f (s.pos a)) }

/-- The source in use: 0 none, 1 encoder, 2 resolver, 3 Hall, 4 toothed train (R209). -/
def posSrc (s : State) (a : Nat) : Nat :=
  let x := s.rd (F.POS_CFG_SRC a)
  if x ≤ 4 then x else 0

def polePairs (s : State) (a : Nat) : Nat := max 1 (s.rd (F.POS_CFG_PP a))
def encLines (s : State) (a : Nat) : Nat := max 1 (s.rd (F.POS_SRCP_LINES a))

/-- Boundary angles of the Hall sectors (R193). -/
def hallBound (k : Nat) : Nat := [0x0000, 0x2AAB, 0x5555, 0x8000, 0xAAAB, 0xD555].getD (k % 6) 0

/-- One count or tooth in 2^-32 turn, rounded. -/
def posStep (s : State) (a : Nat) : Nat :=
  if s.posSrc a = 4 then s.rd (F.POS_TOOTH_TOOTH_ANG a)
  else (2 ^ 32 * s.polePairs a * 2 + 4 * s.encLines a) / (2 * (4 * s.encLines a))

/-- Half a period of the resolver's excitation in ns, its amplitude in mV, and the bandwidth of the tracking loop in Hz,
which a tenth of the sample rate bounds (R195, R209). -/
def excHalf (s : State) (a : Nat) : Nat := [100000, 50000, 31250, 25000].getD (s.rd (F.POS_RES_EXC_F a)) 0
def excAmp (s : State) (a : Nat) : Nat := 100 * max 3 (s.rd (F.POS_RES_EXC_AMP a))
def resBw (s : State) (a : Nat) : Nat := 250 * (min (s.rd (F.POS_RES_BW a)) (100000000 / (s.excHalf a * 250) - 1) + 1)

/-- An input has held a level that it first showed at `ts` for `n` PER clocks (R190). -/
def accepted (s : State) (n ts : Nat) : Bool := decide (ts + 10 * n ≤ s.now)

/-- The position in 2^-32 turn at the last source update (R192, R194). -/
def posBase (s : State) (a : Nat) : Int :=
  let p := s.pos a
  match s.posSrc a with
  | 1 => p.corr + roundDiv (p.count * (2 ^ 32 * s.polePairs a : Nat)) (4 * s.encLines a)
  | 4 => p.corr + p.count * (s.rd (F.POS_TOOTH_TOOTH_ANG a) : Int)
  | _ => p.base

/-- The speed now (R199): no higher than the motion since the last edge supports; 0 after ZERO_T. -/
def posSpeed (s : State) (a : Nat) : Int :=
  let p := s.pos a
  if s.posSrc a = 2 then p.spd
  else match p.lastEdge, p.ivs with
    | none, _ => 0
    | some _, [] => 0
    | some e, iv :: _ =>
      let el := s.now - e
      if max 1 (s.rd (F.POS_FILT_ZERO_T a)) * 1000000 ≤ el then 0
      else if iv.1 < el then
        let m := truncDiv (iv.2.natAbs * 100000000 : Nat) ((el / 10 * 65536 : Nat))
        if m < p.spd.natAbs then (if p.spd < 0 then -m else m) else p.spd
      else p.spd

/-- The extrapolated position in 2^-32 turn and whether it is capped (R197); a bad Hall pattern holds it (R193). -/
def posLive (s : State) (a : Nat) : Int × Bool :=
  let p := s.pos a
  let v := s.posSpeed a
  let b := s.posBase a
  if s.posSrc a = 2 then (b + truncDiv (v * 65536 * (s.now - p.sampleAt : Nat)) 1000000000, false)
  else if s.posSrc a = 3 ∧ p.hallBad.isSome = true then p.held
  else match p.lastEdge with
    | none => (b, false)
    | some e =>
      if v = 0 ∨ p.ivs = [] then (b, false)
      else
        let x := truncDiv (v * 65536 * (s.now - e : Nat)) 1000000000
        let lim : Int := max 0 ((p.step : Int) - 65536)
        if p.step ≤ x.natAbs then (b + (if x < 0 then -lim else lim), true) else (b + x, false)

/-- The source delivers and has not failed (R210). -/
def posValid (s : State) (a : Nat) : Bool :=
  let src := s.posSrc a
  s.ctlOn && src != 0 && !s.bit (F.POS_ANG_FAIL a) && (src != 3 || (s.pos a).sector.isSome)
    && (src != 2 || (s.pos a).locked)

def posRef (s : State) (a : Nat) : Nat := s.rd (F.POS_ANG_REF a)

/-- The live multi-turn position in 2^-16 turn, as the 32-bit MT (R192). -/
def liveMt (s : State) (a : Nat) : Nat := wrapN 32 ((s.posLive a).1.fdiv 65536)

/-- MT stands on the near side of CMP, as the sign of STEP has it (R206). -/
def cmpNear (s : State) (a : Nat) : Bool :=
  let d := signed 32 (s.liveMt a + 2 ^ 32 - (s.reg (R.POS_CMP a)).toNat)
  if signed 32 (s.reg (R.POS_STEP a)).toNat < 0 then decide (0 < d) else decide (d < 0)

/-- The compare judges afresh on which side of CMP it stands. -/
def cmpJudge (s : State) (a : Nat) : State :=
  let n := s.cmpNear a
  s.modPos a fun p => { p with near := n }

/-- Brings the output registers to the live values (R210), and the compare's memory of the near side (R206). -/
def posPublish (s : State) (a : Nat) : State :=
  let s := s.cond (s.cmpNear a) fun s => s.modPos a fun p => { p with near := true }
  let l := s.posLive a
  let mt := wrapN 32 (l.1.fdiv 65536)
  let s := s.setReg (R.POS_MT a) (BitVec.ofNat 32 mt)
  let s := s.setReg (R.POS_SPD a) (BitVec.ofNat 32 (wrapN 32 (s.posSpeed a)))
  let s := (s.wr (F.POS_ANG_ANGLE a) mt).wrB (F.POS_ANG_CAPPED a) l.2
  s.wrB (F.POS_ANG_VALID a) (s.posValid a)

/-- The source fails: the first cause is kept (R202, R212). -/
def posFail (s : State) (a cause : Nat) : State :=
  if s.bit (F.POS_ANG_FAIL a) then s
  else (((s.hi (F.POS_ANG_FAIL a)).lo (F.POS_ANG_VALID a)).wr (F.POS_STAT_FAIL_CAUSE a) cause).event
    0x0A01 (a + 256 * cause)

def posCount (s : State) (f : Fld) (a : Nat) : State := s.count f (F.POS_CNT_SAT a) 0x0A07 a

/-- An illegal transition; the third within 1,024 accepted edges fails the source (R192, R202). -/
def posIllegal (s : State) (a : Nat) : State :=
  let s := ((s.hi (F.POS_STAT_ILLEGAL a)).posCount (F.POS_CNT_ILL_CNT a) a).event 0x0A03 a
  let n := (s.pos a).edges
  let s := s.modPos a fun p => { p with ills := (p.ills ++ [n]).filter (fun k => decide (n < k + 1024)) }
  if 3 ≤ (s.pos a).ills.length then s.posFail a 1 else s

/-- A plan moved by `d` (2^-32 turn); the end of a trapezoid is absolute. -/
def planShift (d : Int) : MotPlan → MotPlan
  | .trap p0 t0 neg target ramps table last => .trap (p0 + d) t0 neg target ramps table last
  | .seg k n h p0 v0 dpos vel last trap evt => .seg k n h (p0 + d) v0 dpos vel last trap evt
  | .stop p0 t0 neg ramps next => .stop (p0 + d) t0 neg ramps next

/-- A correction of the position is added to p_sp in the same clock; a running trapezoid is replanned
(R290). -/
def motShift (s : State) (a : Nat) (d : Int) : State :=
  let m := kvGet (fun _ => {}) s.mots a
  let isTrap := match m.plan with
    | some (.trap ..) => true
    | _ => false
  let m := { m with psp := m.psp + d, plan := m.plan.map (planShift d), replan := m.replan || isTrap }
  { s with mots := kvSet (fun _ => {}) s.mots a m }

/-- A correction of ANGLE and MT, carried into CMP as well (R200, R201). -/
def posCorrect (s : State) (a : Nat) (c : Int) : State :=
  if c = 0 then s
  else
    let s := s.modPos a fun p => { p with
      corr := p.corr + c * 65536, base := p.base + c * 65536, snapPend := true }
    let s := (s.hi (F.POS_ANG_SNAPPED a)).motShift a (c * 65536)
    s.setReg (R.POS_CMP a) (BitVec.ofNat 32 (wrapN 32 ((s.reg (R.POS_CMP a)).toNat + c)))

/-- An accepted edge moves the position by `d` (2^-32 turn) at `ts`, `next` from its next update position;
`ivs` are the intervals it adds to the speed span, which a reversal and a standstill of ZERO_T start afresh (R198,
R199). -/
def posMove (s : State) (a ts : Nat) (d : Int) (next : Nat) (ivs : List (Nat × Int)) : State :=
  let p := s.pos a
  let sg : Int := if d < 0 then -1 else 1
  let n := if s.posSrc a = 3 then 6 else 2 ^ s.rd (F.POS_FILT_SPAN a)
  let still := p.lastEdge.any fun e => decide (e + max 1 (s.rd (F.POS_FILT_ZERO_T a)) * 1000000 ≤ ts)
  if sg = p.dir ∧ still then
    s.modPos a fun p => { p with spd := 0, ivs := [], lastEdge := some ts, step := next, travel := p.travel + d }
  else if sg ≠ p.dir ∨ p.lastEdge = none then
    s.modPos a fun p => { p with dir := sg, spd := 0, ivs := [], lastEdge := some ts, step := next,
                                 travel := d }
  else
    let l := (ivs ++ p.ivs).take n
    let c := (l.map (·.1)).sum / 10
    let v := if c = 0 then p.spd else truncDiv ((l.map (·.2)).sum * 100000000) (c * 65536 : Nat)
    s.modPos a fun p => { p with spd := v, ivs := l, lastEdge := some ts, step := next,
                                 travel := p.travel + d }

/-- The interval of an edge at `ts` since the edge before it. -/
def posInterval (s : State) (a ts : Nat) : Nat := match (s.pos a).lastEdge with
  | some e => ts - e
  | none => 0

/-- Latches the snapshot of an axis's interface at the update event (R204). -/
def posLatch (s : State) (a : Nat) : State :=
  let s := s.posPublish a
  let mt := (s.reg (R.POS_MT a)).toNat
  s.modPos a fun p => { p with
    snapPend := false
    snap := { angle := mt % 65536, mt := mt, speed := signed 32 (s.reg (R.POS_SPD a)).toNat,
              ref := s.posRef a, valid := s.bit (F.POS_ANG_VALID a), fail := s.bit (F.POS_ANG_FAIL a),
              capped := s.bit (F.POS_ANG_CAPPED a), snap := p.snapPend, at_ := s.now } }

/-- A configuration that R196 and R202 call invalid, and a source whose pins are declared unused (R49, R202). -/
def posCfgBad (s : State) (a : Nat) : Bool :=
  (s.posSrc a != 0 && Config.posUnused a (s.posSrc a)) || s.posSrc a == 2 && s.polePairs a % max 1 (s.rd (F.POS_RES_RES_PP a)) != 0

/-- The excitation runs for a resolver while ANA and CTL have power, from READY on (R195, R196). It starts with a rising
zero, so its first crest is positive (log entry 101). -/
def excUpdate (s : State) (a : Nat) (restart : Bool) : State :=
  let on := s.anaOn && s.ctlOn && s.awake && s.posSrc a == 2
  let was := if a = 0 then s.pins.exc0 else s.pins.exc1
  let s := s.cond (on && (!was || restart)) fun s => s.modPos a fun p => { p with excAt := s.now, crest := 0 }
  { s with pins := if a = 0 then { s.pins with exc0 := on } else { s.pins with exc1 := on } }

/-- At the axis's entry to READY a failed source is judged afresh, without a reference (R203); an invalid
configuration fails it again (R202). -/
def posReady (s : State) (a : Nat) : State :=
  let s := if s.bit (F.POS_ANG_FAIL a) then
      let s := ((s.lo (F.POS_ANG_FAIL a)).lo (F.POS_STAT_FAIL_CAUSE a)).wr (F.POS_ANG_REF a) 0
      s.modPos a fun p => { p with ills := [], lcRun := 0, losRun := 0, lotRun := 0, lockRun := 0,
                                   discRun := 0, locked := false, indexMt := none, travel := 0, teeth := 0,
                                   hallBad := p.hallBad.map fun _ => s.now }
    else s
  let s := if s.posCfgBad a then (s.hi (F.POS_STAT_CFG_BAD a)).posFail a 7 else s.lo (F.POS_STAT_CFG_BAD a)
  (s.excUpdate a false).posPublish a

end State

end Sys2Proof.Machine
end

