-- ==== Sys2Proof/Machine/Hooks.lean ====
section
/-!
DEFINITION. What the road of an axis does when its mode changes: the field controller, the motion engine
and the handover logic at an entry to READY, RUN, LIMP and HOLD, and RUN_OK (R73, R221 to R236, R276 to
R290, R297 to R313).
-/

namespace Sys2Proof.Machine

namespace State

/-! ## Accessors -/

/-- The field controller of an axis. -/
def fc (s : State) (a : Nat) : FieldAxis := kvGet (fun _ => {}) s.fields a

def modFc (s : State) (a : Nat) (f : FieldAxis → FieldAxis) : State :=
  { s with fields := kvSet (fun _ => {}) s.fields a (f (s.fc a)) }

/-- The motion engine of an axis. -/
def mot (s : State) (a : Nat) : MotAxis := kvGet (fun _ => {}) s.mots a

def modMot (s : State) (a : Nat) (f : MotAxis → MotAxis) : State :=
  { s with mots := kvSet (fun _ => {}) s.mots a (f (s.mot a)) }

/-- The handover logic of an axis. -/
def hov (s : State) (a : Nat) : HovAxis := kvGet (fun _ => {}) s.hovs a

def modHov (s : State) (a : Nat) (f : HovAxis → HovAxis) : State :=
  { s with hovs := kvSet (fun _ => {}) s.hovs a (f (s.hov a)) }

/-! ## RUN_OK (R73) -/

/-- Every condition of R73 holds. -/
def runOkNow (s : State) : Bool :=
  s.bit F.PCK_PLL_STAT_REF_XTAL && !s.power.changeover && s.power.pllA && s.power.pllB && s.bit F.PWM_CAL_DONE
    && s.bit (F.ADC_STAT_CONV 0) && s.bit (F.ADC_STAT_CONV 1) && s.bit (F.ADC_STAT_CONV 2)
    && (!s.isSegment || s.bit F.CHN_TIME_SYNCED) && s.cpuOn

/-- RUN_OK follows its conditions. -/
def runOk (s : State) : State := s.wrB F.SYS_MODE_RUN_OK s.runOkNow

/-- The axis whose servo ticks set the checkpoint instants (R361). -/
def srcAxis (s : State) : Nat := if s.cores.cfgUsed.getLsbD 0 && s.axes.contains 1 then 1 else 0

/-! ## Handover frames (R297, R312, R313) -/

/-- The axis works as a segment with a valid configuration. -/
def segment (s : State) (a : Nat) : Bool :=
  s.bit (F.MOT_HOV_CFG_EN a) && s.isSegment && !s.bit (F.MOT_HOV_STAT_CFG_BAD a)

/-- The neighbour on a side: 0 none, 1 the port, 2 the module's other axis (R316). -/
def neighbour (s : State) (a : Nat) (up : Bool) : Nat :=
  let c := if up then s.rd (F.MOT_HOV_CFG_UP_NB a) else s.rd (F.MOT_HOV_CFG_DN_NB a)
  if c = 3 then 0 else c

/-- The axis that a port's frames are for: UP serves AX0, DOWN serves AX1 when it is a segment (R297). -/
def portAxis (s : State) (up : Bool) : Nat := if up then 0 else if s.bit (F.MOT_HOV_CFG_EN 1) && s.isSegment then 1 else 0

/-- Frames from the chain neighbour on a side reach the axis: through the port that serves it (R297). -/
def hears (s : State) (a : Nat) (up : Bool) : Bool := s.neighbour a up == 1 && a == s.portAxis up

def hovState (s : State) (a : Nat) : Nat := s.rd (F.MOT_HOV_STAT_STATE a)
def hovGiver (s : State) (a : Nat) : Bool := s.rd (F.MOT_HOV_STAT_ROLE a) == 1
def hovTaker (s : State) (a : Nat) : Bool := s.rd (F.MOT_HOV_STAT_ROLE a) == 2

/-- The side of the axis's partner in a handover: a downstream giver faces down, its taker up. -/
def hovSideUp (s : State) (a : Nat) : Bool := s.bit (F.MOT_HOV_STAT_DIR a) == s.hovGiver a

/-- Entry and exit of the overlap on a side for a direction of travel, in the axis's own coordinate. -/
def overlapEdges (s : State) (a : Nat) (up dirUp : Bool) : Nat × Nat :=
  let st := if up then s.rd (F.MOT_HOV_UP_START_UP_START a) else s.rd (F.MOT_HOV_DN_START_DN_START a)
  let en := if up then s.rd (F.MOT_HOV_UP_END_UP_END a) else s.rd (F.MOT_HOV_DN_END_DN_END a)
  if dirUp then (en, st) else (st, en)

/-- A position has reached a boundary in the direction of travel. -/
def hovReached (dirUp : Bool) (mt x : Nat) : Bool :=
  let d := signed 32 (mt + 2 ^ 32 - x)
  if dirUp then decide (d ≤ 0) else decide (0 ≤ d)

/-- Sends a handover frame to the neighbour on a side: on the chain to the next unit's address, or inside
the module to the other axis (R297). -/
def sendHov (s : State) (a : Nat) (up : Bool) (ty : Nat) (payload : List Byte) : State :=
  match s.neighbour a up with
  | 1 => s.sendFrame ty (if up then s.chainAddr - 1 else s.chainAddr + 1) payload none
  | 2 => { s with hovMail := s.hovMail ++ [(1 - a, ty, payload)] }
  | _ => s

/-- Counts an ABORT and keeps its reason (R318). -/
def hovCountAbort (s : State) (a reason : Nat) : State :=
  let s := s.wr (F.MOT_HOV_STAT_LAST_REASON a) reason
  s.count (F.MOT_HOV_CNT_ABORT_CNT a) (F.MOT_HOV_CNT_SAT a) 0x0B1B a

/-- The payload of an ABORT: MT, the reason and the axis's mode (R312). -/
def abortBytes (s : State) (a reason : Nat) : List Byte :=
  beBytes 4 (s.liveMt a) ++ beBytes 2 (reason * 256 + s.axMode a) ++ beBytes 2 0

/-- An ABORT that leaves is counted and reported (R313, R318). -/
def abortSent (s : State) (a reason : Nat) : State :=
  ((s.hi (F.MOT_HOV_STAT_ABORT_TX a)).hovCountAbort a reason).event 0x0B16 (a + 256 * reason)

/-- Sends ABORT with a reason to the neighbour on a side (R312, R313). -/
def sendAbort (s : State) (a : Nat) (up : Bool) (reason : Nat) : State :=
  (s.sendHov a up 0x0C (s.abortBytes a reason)).abortSent a reason

/-- Answers a frame of the chain neighbour on a side with ABORT, through the port on which it arrived (R301). -/
def portAbort (s : State) (a : Nat) (up : Bool) (reason : Nat) : State :=
  (s.sendFrame 0x0C (if up then s.chainAddr - 1 else s.chainAddr + 1) (s.abortBytes a reason) none).abortSent a reason

/-- The handover of the axis ends as aborted. -/
def hovAborted (s : State) (a : Nat) : State :=
  (s.wr (F.MOT_HOV_STAT_STATE a) 6).modHov a fun h =>
    { h with prearmAt := none, rx := none, lost := 0, echoBad := 0 }

/-- A handover of the axis is under way. -/
def handingOver (s : State) (a : Nat) : Bool :=
  let st := s.hovState a
  st == 1 || st == 2 || st == 3 || st == 4

/-- An overlap is in progress: the giver's vehicle is between the overlap's entry and its exit, whether or not the taker drives
too, or the taker has taken (R183, R308). -/
def overlapping (s : State) (a : Nat) : Bool :=
  let dir := s.bit (F.MOT_HOV_STAT_DIR a)
  let e := s.overlapEdges a (s.hovSideUp a) dir
  let mt := (s.pos a).snap.mt
  s.segment a && ((s.hovGiver a && s.running a && hovReached dir mt e.1 && !hovReached dir mt e.2)
    || (s.hovTaker a && s.hovState a == 4))

/-- The axis enters HOLD or coast during a handover (R313). -/
def hovLose (s : State) (a : Nat) : State :=
  if s.handingOver a then
    let s := s.sendAbort a (s.hovSideUp a) 5
    (s.hovAborted a).modHov a fun h => { h with solo := s.hovGiver a && s.running a }
  else s

/-! ## The field controller at a change of mode -/

/-- Latches a reference of the motion-before-start monitor, or leaves it due (R226). -/
def preLatch (s : State) (a : Nat) : State :=
  let r := if s.posValid a then some (s.liveMt a) else none
  s.modFc a fun f => { f with preRef := r, preFired := false }

/-- A running catch, or a START held for RUN_OK, ends with the given status; the catch is aborted (R231,
R74). -/
def catchAbort (s : State) (a status : Nat) : State :=
  let s := match (s.fc a).held with
    | some (c, _) => (s.modFc a fun f => { f with held := none }).complete c status 0
    | none => s
  match (s.fc a).catch_ with
  | some (c, _) =>
    let s := (s.lo (F.FSL_FC_STAT_CATCH_BUSY a)).wr (F.FSL_FC_STAT_CATCH_RES a) 6
    (s.modFc a fun f => { f with catch_ := none }).complete c status 0
  | none => s

/-- The generator stops; ADDR keeps its last value (R281). -/
def genStop (s : State) (a : Nat) : State := s.modMot a fun m => { m with genSpd := 0 }

/-- Leaving RUN and LIMP ends an I/f start, a braking and a coast; a STOP held for the coast completes
MODE (R225, R230, R236). -/
def fieldStopRun (s : State) (a : Nat) : State :=
  let s := s.cond (s.fc a).ifAt.isSome fun s => s.genStop a
  let s := match (s.fc a).heldStop with
    | some c => s.complete c stMode 0
    | none => s
  let s := ((s.lo (F.FSL_FC_STAT_COAST a)).lo (F.FSL_FC_STAT_COAST_ASC a)).lo (F.FSL_FC_STAT_LIMP_REQ a)
  s.modFc a fun f => { f with ifAt := none, ifRun := 0, brakeAt := none, heldStop := none,
                              reacqDone := false, noSrc := 0, rampAt := none, modOn := false, preset := 0 }

/-! ## The motion engine at a change of mode -/

/-- The axis leaves RUN and LIMP: the profile ends and STATE reads IDLE (R290). -/
def profileEnd (s : State) (a : Nat) : State :=
  (s.wr (F.MOT_CTL_STATE a) 0).modMot a fun m =>
    { m with plan := none, goPend := none, replan := false, coasted := false, feRun := 0, trapUsed := false }

/-! ## The hooks -/

/-- Entry of an axis to READY: trip count and marks (R152, R154), failed sources judged afresh (R203,
R223), CONF 0 (R221), a reference of R226, and an aborted handover idle again (R318). -/
def readyHook (s : State) (a : Nat) : State :=
  let s := (s.pwmReady a).posReady a
  let s := s.cond (a == 0 && s.axes.length == 1) fun s => s.posReady 1
  let s := (s.lo (F.FSL_FC_STAT_CONF a)).modFc a fun f => { f with implausible := false, plausRun := 0 }
  let s := s.preLatch a
  let s := s.cond (s.hovState a != 0) fun s =>
    ((s.wr (F.MOT_HOV_STAT_STATE a) 0).wr (F.MOT_HOV_STAT_ROLE a) 0).modHov a fun _ => {}
  s

/-- Entry of an axis to RUN: committed sets are old (R153), CONF is 0 after no catch (R221), the servo
ticks are counted afresh (R276), and arming lapses (R421). -/
def runHook (s : State) (a : Nat) : State :=
  let s := s.cond (s.srcAxis == a) fun s => { s with cores := { s.cores with ticks := 0 } }
  let s := s.pwmRun a
  let s := s.cond (!(s.fc a).fromCatch) fun s => s.lo (F.FSL_FC_STAT_CONF a)
  let s := s.modFc a fun f => { f with armed := false, noSrc := 0 }
  s.modMot a fun m => { m with upds := 0, tickUpd := 0, feRun := 0 }

/-- Entry to LIMP: V_MAX in use is capped and a running trapezoid is replanned at the next tick (R290). -/
def limpHook (s : State) (a : Nat) : State :=
  s.modMot a fun m => { m with replan := m.plan.isSome }

/-- Entry of an axis to HOLD: a held START and a catch end with VETO (R231), a handover is aborted (R313),
CONF is 0 (R221), a reference of R226 is latched, arming lapses (R421), and the trace may trigger (R274). -/
def holdHook (s : State) (a : Nat) : State :=
  let s := (s.catchAbort a stVeto).hovLose a
  let s := s.cond ((s.rd F.FSL_TRC_CFG_AXES).testBit a) fun s => s.traceHit 7
  let s := (s.lo (F.FSL_FC_STAT_CONF a)).modFc a fun f => { f with armed := false }
  s.preLatch a

end State

end Sys2Proof.Machine
end

