-- ==== Sys2Proof/Machine/Modes.lean ====
section
/-!
DEFINITION. The modes of the module and of its axes (R62 to R64, R47), Uzodar's gate decision and the
safe-state table (R24, R233, R323 to R336, R578): the shared operations that change a mode.
-/

namespace Sys2Proof.Machine

namespace State

/-! ## Configuration as Uzodar holds it (R323) -/

def uzAx (s : State) (a : Nat) : UzAxis := kvGet (fun _ => {}) s.uzs a

def modUz (s : State) (a : Nat) (f : UzAxis → UzAxis) : State :=
  { s with uzs := kvSet (fun _ => {}) s.uzs a (f (s.uzAx a)) }

def modSaf (s : State) (f : Uzodar → Uzodar) : State := { s with saf := f s.saf }

/-! ## Mode changes -/

/-- MODE as R63 derives it from the axes in use. -/
def derivedMode (s : State) : Nat :=
  let ms := s.axes.map s.axMode
  if ms.contains 4 then 4 else if ms.contains 5 then 5 else if ms.contains 3 then 3 else 2

/-- Stores MODE, keeping the mode before its most recent change in LAST_MODE (R62), and that READY has been reached
(R47); the end of READY ends the diagnostics (R117). -/
def storeMode (s : State) (m : Nat) : State :=
  let s := s.cond (m == 2) fun s => { s with power := { s.power with everReady := true } }
  if s.mode = m then s else ((s.wr F.SYS_MODE_LAST_MODE s.mode).wr F.SYS_MODE_MODE m).diagCut

/-- FAULT_N (R47): low until READY is first reached, while an axis is in HOLD or the module sleeps after it,
in a lane fault, and after a second failed BIST. -/
def faultN (s : State) : State :=
  let low := !s.power.everReady || s.axes.any (fun a => s.axMode a == 5) || s.bit F.SAF_STAT_LANE_FAULT
    || decide (2 ≤ s.power.bistFails)
  { s with power := { s.power with faultLow := low } }

/-- Counts the time an axis has spent in LIMP up to now (R340). -/
def limpCount (s : State) (a : Nat) : State :=
  match (s.uzAx a).limpFrom with
  | none => s
  | some t =>
    let s := s.modUz a fun u => { u with limpNs := u.limpNs + (s.now - t), limpFrom := some s.now }
    s.wrSat (F.SAF_LIMP_LIMP_S a) ((s.uzAx a).limpNs / 1000000000)

/-- What leaving RUN and LIMP does to the road of an axis (R153, R290, R232). -/
def leaveRun (s : State) (a : Nat) : State :=
  let s := s.outputsOff a
  let s := s.profileEnd a
  s.fieldStopRun a

/-! ## Safety outputs (R342, R343) -/

/-- The function of a safety output as Uzodar holds it. -/
def soFunc (s : State) (n : Nat) : Nat := s.uz ⟨R.BLK_SO, 3 * n, 3⟩

/-- The cause latched on a safety output, 0 for none. -/
def soCause (s : State) (n : Nat) : Nat := s.rd ⟨R.SAF_SO, 4 * n + 1, 3⟩

/-- The brake of an axis may be released (R343). -/
def brakeFree (s : State) (a : Nat) : Bool :=
  s.running a && (s.uzAx a).release && !(s.uzAx a).brakeStep
    && (match s.saf.btest with
      | some b => b.axis != a
      | none => true)

/-- What R342 commands of a safety output. -/
def soWanted (s : State) (n : Nat) : Bool :=
  let clear := s.safeOn && s.power.io && !s.bit F.SAF_STAT_STO_ACT && !s.bit F.SAF_STAT_LANE_FAULT
  match s.soFunc n with
  | 1 => clear && s.soCause n == 0 && s.brakeFree 0
  | 2 => clear && s.soCause n == 0 && s.brakeFree 1
  | 3 => clear && s.soCause n == 0
  | 4 => clear && s.soCause n == 0 && s.saf.hostOut.testBit n && s.mode != 5
  | _ => false

/-- A safety output is energised as commanded or not. A demand to de-energise ends its test pulse (R344). -/
def soDrive (s : State) (n : Nat) (on : Bool) : State :=
  let cut := s.bit ⟨R.SAF_SO, 4 * n, 1⟩ && !on
  let s := s.cond (s.bit ⟨R.SAF_SO, 4 * n, 1⟩ != on) fun s =>
    s.modSaf fun u => { u with soAt := kvSet (fun _ => 0) u.soAt n s.now }
  let s := s.wrB ⟨R.SAF_SO, 4 * n, 1⟩ on
  if cut && s.saf.soPulse.any (fun p => p.1 == n) then { s with saf := { s.saf with soPulse := none } } else s

/-- Every safety output follows its function (R342, R343). -/
def soUpdate (s : State) : State := s.each [0, 1, 2, 3, 4, 5] fun s n => s.soDrive n (s.soWanted n)

/-- A brake test whose axis leaves RUN and LIMP by another cause is not done; its command completes VETO
(R346, log entry 30). -/
def brakeTestLost (s : State) (a : Nat) : State :=
  match s.saf.btest, s.btCmd with
  | some b, some c =>
    if b.axis = a then
      ({ s with btCmd := none }.modSaf fun u => { u with btest := none }).complete c stVeto 0
    else s
  | _, _ => s

/-- SAF_STAT.ASC of an axis. -/
def fAsc (a : Nat) : Fld := if a = 0 then F.SAF_STAT_ASC_0 else F.SAF_STAT_ASC_1
def fSs1 (a : Nat) : Fld := if a = 0 then F.SAF_STAT_SS1_0 else F.SAF_STAT_SS1_1

/-- An SS1 of the axis, or its brake step, is running (R327, R328). -/
def ss1On (s : State) (a : Nat) : Bool := s.bit (fSs1 a) || (s.uzAx a).brakeStep

/-- An SS1 is over: its event, if the SS1 was still running, and its bookkeeping (R328, R355, R359). OTHER of its rows
falls due (R331). -/
def clearSs1 (s : State) (a : Nat) : State :=
  let s := s.cond (s.bit (fSs1 a)) fun s => (s.lo (fSs1 a)).event 0x0C05 a
  s.modUz a fun u => { u with ss1Ended := u.ss1Ended || u.ss1Rows, otherDue := u.otherDue || u.ss1Rows
                              ss1Sto := false, ss1Rows := false, brakeStep := false }

/-- An axis enters READY: its rows end, and Uzodar frees its gates (R336). -/
def enterReady (s : State) (a : Nat) : State :=
  ((s.readyHook a).wr (F.SAF_ROWS_ROWS a) 0).modUz a fun u =>
    { u with gate := .free, why := .none, final := none, finalDue := false, otherLimp := false,
             ss1Rows := false, ss1Ended := false, otherDue := false, hiRun := 0, coast := false }

/-- An axis enters a mode; every consequence of the entry that the chapters name follows, then MODE,
LAST_MODE, the event and the replicator entry of the transition (R62 to R66, R364, R426). -/
def setAxMode (s : State) (a m : Nat) : State :=
  let old := s.axMode a
  if old = m then s
  else
    let s := s.limpCount a
    let s := s.wr (fAxMode a) m
    let s := s.cond (m != 3 && m != 4 && (old == 3 || old == 4)) fun s => (s.leaveRun a).brakeTestLost a
    -- an SS1 of rows ends with the modulation
    let s := s.cond (m != 3 && m != 4 && s.ss1On a && !(s.uzAx a).ss1Sto) fun s => s.clearSs1 a
    let s := s.modUz a fun u => { u with limpFrom := if m = 4 then some s.now else none
                                         fastAt := if m = 4 then u.fastAt.map (fun _ => s.now) else u.fastAt }
    let s := match m with
      | 2 => s.enterReady a
      | 3 => s.runHook a
      | 4 => s.limpHook a
      | _ => s.holdHook a
    let entered := s.mode != 5 && s.derivedMode == 5
    let s := (s.storeMode s.derivedMode).soUpdate.faultN
    -- the module's entry to HOLD ends what waits on any axis (R74, R231)
    let s := s.cond entered fun s => s.each s.axes fun s b => s.catchAbort b stVeto
    let s := s.capture (.modeChange s.mode (s.axMode 0) (s.axMode 1))
    s.event 0x0001 ((s.reg R.SYS_MODE).toNat % 65536)

/-! ## Uzodar's measurements (R27, R178, R233, R578) -/

/-- Uzodar has ADCB's results: ANA is powered, ADCB is not excluded, and a DC-link result of every axis in use has come
(log entry 81). -/
def measured (s : State) : Bool := s.anaOn && !s.saf.adcbLost && s.saf.vdcSeen

/-- A position frame that gives a usable speed: FAIL 0, REF not none, at most 1 ms old (R233). -/
def frameGood (s : State) (a : Nat) : Option PosFrame :=
  match (s.uzAx a).frame with
  | some f => if !f.fail && f.ref != 0 && decide (s.now ≤ f.at_ + 1000000) then some f else none
  | none => none

/-- E_u in mV × 65,536, when available (R233). -/
def emf (s : State) (a : Nat) : Option Nat :=
  let ke := s.uz (F.FSL_FC_SAFE_KE a)
  match s.frameGood a with
  | some f => if ke ≠ 0 then some (ke * f.speed.natAbs) else (s.uzAx a).pvE.map (· * 65536)
  | none => (s.uzAx a).pvE.map (· * 65536)

/-- Uzodar's Vdc for a bridge in mV × 32,768 (R578). -/
def vdcU (s : State) (a : Nat) : Int := (s.uzAx a).vdc * (Config.vfsVolts * 1000 : Nat)

/-- Is E_u at or above `num`/`den` of Vdc? -/
def emfAtLeast (s : State) (a e num den : Nat) : Bool :=
  decide ((num : Int) * s.vdcU a * 2 ≤ (den : Int) * (e : Int))

/-! ## The gate decision (R24, R332 to R335) -/

/-- The channels of one half of a bridge. -/
def half (s : State) (a : Nat) (upper : Bool) : List Nat :=
  (s.channels a).filter (fun n => s.isUpper n == upper)

/-- R24 refuses a short circuit on a half that contains a faulted switch or one that its channel holds off (log entry
93). -/
def refused (s : State) (a : Nat) (upper : Bool) : Bool :=
  (s.half a upper).any (fun n => s.faulted n || s.heldOff n)

/-- The half a short circuit takes: no faulted switch in it, PREF_HALF first (R334, R110). -/
def pickHalf (s : State) (a : Nat) : Option Bool :=
  let pref := s.uz F.BLK_ASC_PREF_HALF == 1
  let clean (u : Bool) : Bool := (s.half a u).all (fun n => !s.faulted n)
  if clean pref then some pref else if clean (!pref) then some (!pref) else none

/-- GATE of a row as it acts (R329, R330, R333). -/
def rowGate (s : State) (k : Nat) : Nat :=
  let g := s.uz (F.BLK_SST_GATE k)
  let g := if k = 0 then 1 else if 6 ≤ g then 1 else g
  let g := if g = 5 ∧ (k = 3 ∨ k = 4 ∨ k = 5 ∨ k = 13 ∨ k = 22) then 2 else g
  if (k = 1 ∨ k = 3 ∨ k = 31) ∧ g ≠ 3 ∧ g ≠ 4 then 1 else g

/-- The least MODE of a row: HOLD for most, LIMP or none where the table says so (R330). -/
def rowLeast (k : Nat) : Nat :=
  if k = 8 then 0
  else if k = 11 ∨ k = 12 ∨ k = 19 ∨ k = 21 ∨ k = 24 ∨ k = 25 ∨ k = 26 then 1 else 2

/-- MODE of a row as it acts: 0 none, 1 LIMP, 2 HOLD (R329, R330). -/
def rowMode (s : State) (k : Nat) : Nat :=
  let m := max (min 2 (s.uz (F.BLK_SST_MODE k))) (rowLeast k)
  if k = 25 ∧ s.uz F.BLK_ROLE_ROLE = 1 then 2 else m

/-- OTHER of an axis row as it acts (R329, R330). -/
def rowOther (s : State) (k : Nat) : Nat :=
  let o := min 2 (s.uz (F.BLK_SST_OTHER k))
  if k = 6 then max o 1 else o

/-- Rows whose scope is the module (R330). -/
def moduleRow (k : Nat) : Bool :=
  [1, 2, 3, 4, 5, 8, 9, 11, 16, 22, 25, 26, 27, 28, 30].contains k

def rowActive (s : State) (a k : Nat) : Bool := (s.rd (F.SAF_ROWS_ROWS a)).testBit k

/-- The active rows of an axis with a gate code, lowest first; an SS1 row counts as ASC_AUTO once its
SS1 has ended (R328, R332). -/
def gateRows (s : State) (a : Nat) : List (Nat × Nat) :=
  ((List.range 32).filter (s.rowActive a)).map fun k =>
    let g := s.rowGate k
    (k, if g = 5 ∧ (s.uzAx a).ss1Ended then 2 else g)

/-- The active row that decides the gates never changes its state (R335). -/
def gateFixed (s : State) (a : Nat) : Bool :=
  let fixed (k : Nat) : Bool := [0, 1, 3, 29, 31].contains k
  let rows := s.gateRows a
  match rows.find? (fun r => r.2 == 3 || r.2 == 4) with
  | some r => fixed r.1
  | none => rows.any fun r => r.2 == 2 && fixed r.1

/-- What an SS1 or an ASC_AUTO row still needs from the caller: a substituted row (R333). -/
inductive Subst where
  | none | row0 | row1
  deriving DecidableEq, Repr

/-- What ASC_AUTO lacks: its measurement, or its back-EMF estimate (R27, R333). -/
def lacks (s : State) (a : Nat) : Subst :=
  if !s.measured then .row1 else if (s.emf a).isNone then .row0 else .none

/-- ASC_AUTO decided afresh (R333, R334). -/
def autoGate (s : State) (a : Nat) : UzGate × Subst :=
  match s.measured, s.emf a with
    | false, _ | true, none => (.allOff, s.lacks a)
    | true, some e =>
      if !s.emfAtLeast a e 9 10 then (.allOff, .none)
      else match s.pickHalf a with
        | none => (.allOff, .row0)
        | some u => if s.refused a u then (.allOff, .row0) else (.short u, .none)

/-- Uzodar's gate state for an axis in the order of R332, with the reason and any substitution. -/
def decideGate (s : State) (a : Nat) : UzGate × UzWhy × Subst :=
  let u := s.uzAx a
  let rows := s.gateRows a
  if s.bit F.SAF_STAT_LANE_FAULT || !s.bit F.SAF_STAT_SHADOW then (.allOff, .sto, .none)
  else if s.bit F.SAF_STAT_STO_ACT || u.stoOff then (.allOff, .sto, .none)
  else if u.finalDue then (.allOff, .final, .none)
  else match u.final with
    | some (.short h) => if s.refused a h then (.allOff, .final, .row0) else (.short h, .final, .none)
    | some g => (g, .final, .none)
    | none =>
      if rows.any (fun r => r.2 == 1) then (.allOff, .rowOff, .none)
      else match rows.find? (fun r => r.2 == 3 || r.2 == 4) with
        | some r =>
          if u.why = .rowHalf ∧ u.gate = .allOff then (.allOff, .rowHalf, .none)
          else if s.refused a (r.2 == 4) then (.allOff, .rowOff, .row0) else (.short (r.2 == 4), .rowHalf, .none)
        | none =>
          if rows.any (fun r => r.2 == 2) then
            if u.why = .rowAuto then
              match u.gate with
              | .short h => if s.refused a h then (.allOff, .rowOff, .row0) else (u.gate, .rowAuto, .none)
              | _ => (u.gate, .rowAuto, .none)
            else
              let d := s.autoGate a
              (d.1, .rowAuto, d.2)
          else if rows.any (fun r => r.2 == 5) then (.free, .none, .none)
          else if u.coast then
            if u.why = .coast then
              match u.gate with
              | .short h => if s.refused a h then (.allOff, .coast, .row0) else (u.gate, .coast, .none)
              | _ => (u.gate, .coast, .none)
            else (.allOff, .coast, .none)
          else (.free, .none, .none)

/-- Does Uzodar hold a short circuit on the bridge? -/
def isShort (g : UzGate) : Bool := match g with
  | .short _ => true
  | _ => false

/-- Applies a gate state: permits and force-on reach the channels, and a short circuit that starts or
ends is reported (R334, R359). A deasserted enable ends a short circuit (R355). -/
def putGate (s : State) (a : Nat) (g : UzGate) (w : UzWhy) : State :=
  let was := s.bit (fAsc a)
  let s := s.modUz a fun u => { u with gate := g, why := w, lowAt := if isShort u.gate then u.lowAt else none }
  let now := isShort g && s.enabled a
  let s := s.wrB (fAsc a) now
  let s := s.uzGateToChannels a g
  let s := s.cond (now && !was) fun s => s.event 0x0C07 a
  s.cond (was && !now) fun s => s.event 0x0C08 a

/-! ## Contactors and discharge actions of rows (R348, R350) -/

/-- Opens CO1; FB1 follows its contactor (R348, log entry 31). -/
def openCo1 (s : State) : State :=
  s.cond (s.bit F.SAF_STAT_CO1_CMD) fun s =>
    ((s.lo F.SAF_STAT_CO1_CMD).hi F.SAF_STAT_FB1).modSaf fun u => { u with co1At := s.now }

/-- Opens CO0 and CO1 (R348); FB0 and FB1 follow their contactors (log entry 31). -/
def openContactors (s : State) : State :=
  let s := s.cond (s.bit F.SAF_STAT_CO0_CMD) fun s =>
    ((s.lo F.SAF_STAT_CO0_CMD).hi F.SAF_STAT_FB0).modSaf fun u => { u with co0At := s.now }
  s.openCo1.modSaf fun u => { u with precharge := .idle }

/-- The DISCHARGE commands that wait complete with a status (R421). -/
def dchDone (s : State) (status : Nat) : State :=
  let l := s.dchCmds
  let s : State := { s with dchCmds := [] }
  l.foldl (fun s c => s.complete c status 0) s

/-- FB0 reads closed: DCH stays low, and a DISCHARGE completes VETO (R350). -/
def dchBarred (s : State) : State := (s.event 0x0C11 0).dchDone stVeto

/-- Requests a discharge: contactors open, then FB0 is waited for, after any cooling time (R350). -/
def requestDischarge (s : State) : State :=
  let s := s.openContactors
  match s.saf.discharge with
  | .idle =>
    let cooling := match s.saf.dchTmaxAt with
      | some t => decide (s.now < t + s.uz F.BLK_DCH_DCH_COOL * 1000000000)
      | none => false
    let s := s.modSaf fun u => { u with discharge := if cooling then .cool else .waitFb }
    s.cond (!cooling && !s.bit F.SAF_STAT_FB0) dchBarred
  | _ => s

/-- Records a row as active for an axis, with SAF_FIRST and event 0x0C06 (R331, R358, R359). -/
def markRow (s : State) (a k : Nat) : State :=
  let s := s.wr (F.SAF_ROWS_ROWS a) (s.rd (F.SAF_ROWS_ROWS a) ||| 2 ^ k)
  let s := if s.bit F.SAF_FIRST_VALID then s
    else ((s.wr F.SAF_FIRST_ROW k).wr F.SAF_FIRST_AXIS a).hi F.SAF_FIRST_VALID
  s.event 0x0C06 (a + 256 * k)

/-- The most severe mode of the active rows takes effect: HOLD, or LIMP out of RUN (R331). -/
def rowModes (s : State) (a : Nat) (hold limp : Bool) : State :=
  let m := s.axMode a
  if hold && (m == 2 || m == 3 || m == 4) then s.setAxMode a 5
  else if limp && m == 3 then s.setAxMode a 4 else s

/-- OTHER of a row takes the other of two axes to its mode; a LIMP that it names waits for the entry to RUN (R331). -/
def otherAxis (s : State) (a k : Nat) : State :=
  let s := s.cond (s.rowOther k == 1) fun s => s.modUz (1 - a) fun u => { u with otherLimp := true }
  s.rowModes (1 - a) (s.rowOther k == 2) (s.rowOther k == 1)

/-- Once the SS1 of an axis has ended, OTHER of its rows acts (R331). -/
def ss1Other (s : State) (a : Nat) : State :=
  if (s.uzAx a).otherDue then
    let s := s.modUz a fun u => { u with otherDue := false }
    if s.axes.length < 2 then s
    else s.each ((List.range 32).filter fun k => s.rowActive a k && s.rowGate k == 5 && !moduleRow k) fun s k =>
      s.otherAxis a k
  else s

/-- Decides the gates of an axis again without substituting rows. -/
def regate (s : State) (a : Nat) : State :=
  let s := s.ss1Other a
  let d := s.decideGate a
  s.putGate a d.1 d.2.1

/-! ## Latched faults (R336) -/

/-- A latched fault of R336 that bars SET_MODE READY for the given axes. -/
def latchedFault (s : State) (l : List Nat) : Bool :=
  s.bit F.SAF_STAT_STO_ACT || s.bit F.SAF_STAT_STO_DISC
    || l.any (fun a => (s.channels a).any (fun n => s.saf.latch.testBit n))
    || l.any (fun a => isShort (s.uzAx a).gate)
    || [0, 1, 2, 3, 4, 5].any (fun n => s.rd ⟨R.SAF_SO, 4 * n + 1, 3⟩ != 0)
    || s.rd F.SAF_STAT_CON_CAUSE != 0
    || s.saf.discharge != .idle || s.bit F.SAF_STAT_DCH_FAIL
    || s.bit F.SAF_STAT_LANE_FAULT

/-- Recomputes SAF_STAT.LATCHED. -/
def latchedBit (s : State) : State := s.wrB F.SAF_STAT_LATCHED (s.latchedFault s.axes)

/-! ## STO (R324 to R328) -/

/-- STO becomes active: permits withdrawn, every axis in use in HOLD, any SS1 over. -/
def stoActive (s : State) : State :=
  if s.bit F.SAF_STAT_STO_ACT then s
  else
    let s := (s.hi F.SAF_STAT_STO_ACT).event 0x0C01 0
    let s := s.each s.axes fun s a =>
      let s := s.cond (s.ss1On a) fun s => s.clearSs1 a
      s.rowModes a true false
    (s.each s.axes regate).soUpdate.latchedBit

/-- An SS1 ends; where an STO demand started it, the axis stays all-off from here (R327). -/
def endSs1 (s : State) (a : Nat) : State :=
  let sto := (s.uzAx a).ss1Sto
  let s := s.clearSs1 a
  s.cond sto fun s => s.modUz a fun u => { u with stoOff := true }

/-- Starts SS1 for an axis: the bit, the event, the stop request and the deadline; a second SS1 keeps
the earlier deadline (R327, R355). -/
def startSs1 (s : State) (a : Nat) (sto : Bool) : State :=
  let dl := s.now + max 1 (s.uz F.BLK_SS1_SS1_T) * 1000000
  if s.ss1On a then
    s.modUz a fun u => { u with ss1Sto := u.ss1Sto || sto, ss1Rows := u.ss1Rows || !sto,
                                ss1Deadline := min u.ss1Deadline dl }
  else
    let s := s.hi (fSs1 a)
    let s := s.modUz a fun u => { u with ss1Sto := sto, ss1Rows := !sto,
                                         ss1Deadline := dl, ss1Ended := false, brakeStep := false,
                                         slowAt := u.slowAt.map fun _ => s.now }
    (s.capture (.ss1Stop a)).event 0x0C04 a

/-- An axis enters RUN. A LIMP row active for it, or a LIMP request standing from the other axis, takes it on
to LIMP at once (R331). -/
def enterRun (s : State) (a : Nat) : State :=
  let s := s.setAxMode a 3
  if s.axMode a == 3 && ((s.uzAx a).otherLimp
      || (List.range 32).any (fun k => s.rowActive a k && s.rowMode k == 1)) then s.setAxMode a 4 else s

/-- One row becomes active for the axes of its scope that do not have it yet (R329 to R333, R355). -/
def activateRaw (s : State) (k : Nat) (l : List Nat) : State :=
  let fresh := l.filter (fun a => !s.rowActive a k)
  if !s.safeOn || fresh.isEmpty then s
  else
    let g := s.rowGate k
    let ss1 := fresh.filter fun a => g == 5 && s.running a
    let s := s.each fresh fun s a => s.markRow a k
    let s := s.each fresh fun s a =>
      if ss1.contains a then s.startSs1 a false
      else if g = 0 then s.rowModes a (s.rowMode k == 2) (s.rowMode k == 1)
      else
        let s := s.cond (s.ss1On a) fun s => s.endSs1 a
        -- an axis that does not modulate has its SS1 behind it
        let s := s.cond (g == 5) fun s => s.modUz a fun u => { u with ss1Ended := true }
        s.rowModes a true false
    let s := if moduleRow k || s.axes.length < 2 then s
      else s.each (fresh.filter fun a => !ss1.contains a) fun s a => s.otherAxis a k
    let s := s.cond (s.uz (F.BLK_SST_CO0 k) == 1) openContactors
    let s := s.cond (s.uz (F.BLK_SST_DCH k) == 1) requestDischarge
    s.each s.axes regate

/-- The substitution that R333 makes for an axis: of what the gate decision asks for, or of an ASC_AUTO row that is not yet
decided and lacks its measurement or its estimate, whichever row decides the gates meanwhile. -/
def subOf (s : State) (a : Nat) : Subst :=
  match (s.decideGate a).2.2 with
  | .none =>
    if (s.uzAx a).why != .rowAuto && (s.gateRows a).any (fun r => r.2 == 2) then s.lacks a else .none
  | d => d

/-- The row of a substitution becomes active. -/
def putSub (s : State) (a : Nat) : Subst → State
  | .none => s
  | .row0 => s.activateRaw 0 [a]
  | .row1 => s.activateRaw 1 s.axes

/-- STO_ACT clears once both inputs are high, no discrepancy stands and no SS1 of a demand runs. An
ASC_AUTO row then decides afresh (R333, R334). -/
def stoClear (s : State) : State :=
  if s.bit F.SAF_STAT_STO_A && s.bit F.SAF_STAT_STO_B && !s.bit F.SAF_STAT_STO_DISC
      && s.bit F.SAF_STAT_STO_ACT then
    let s := (s.lo F.SAF_STAT_STO_ACT).event 0x0C02 0
    let s := s.each [0, 1] fun s a => s.modUz a fun u => { u with stoOff := false }
    (s.each s.axes fun s a => (s.putSub a (s.subOf a)).regate a).soUpdate.latchedBit
  else s

/-- Once no SS1 of an STO demand runs any more, STO is active, and ends at once if the demand has gone (R326, R327). -/
def stoAfter (s : State) (had : Bool) : State :=
  if had && s.axes.all (fun b => !(s.uzAx b).ss1Sto) then s.stoActive.stoClear else s

/-- One row becomes active; where it ended the last SS1 of an STO demand, STO is active (R331, R355). -/
def activateOn (s : State) (k : Nat) (l : List Nat) : State :=
  let had := l.any fun a => !s.rowActive a k && (s.uzAx a).ss1Sto
  (s.activateRaw k l).stoAfter (s.safeOn && had)

/-- Applies a substitution of R333 for an axis, with what follows for an SS1 of STO. -/
def substituteBy (s : State) (a : Nat) : Subst → State
  | .none => s
  | .row0 => s.activateOn 0 [a]
  | .row1 => s.activateOn 1 s.axes

/-- Applies a substitution of R333 that an axis asks for. -/
def substitute (s : State) (a : Nat) : State := s.substituteBy a (s.subOf a)

/-- Row `k` becomes active for a list of axes. ASC_AUTO and refused short circuits are replaced as R333
decides. -/
def activateFor (s : State) (k : Nat) (l : List Nat) : State :=
  -- substitutions are judged on the state as the row finds it, before the gates are put
  let fresh := l.filter (fun a => !s.rowActive a k)
  let ss1 (a : Nat) : Bool := s.rowGate k == 5 && s.running a
  let marked := s.each fresh fun s a =>
    (s.wr (F.SAF_ROWS_ROWS a) (s.rd (F.SAF_ROWS_ROWS a) ||| 2 ^ k)).modUz a fun u =>
      { u with ss1Ended := u.ss1Ended || (s.rowGate k == 5 && !s.running a) }
  let subs := fresh.map fun a => (a, if ss1 a then Subst.none else marked.subOf a)
  subs.foldl (fun s p => s.substituteBy p.1 p.2) (s.activateOn k l)

/-- A cause activates row `k`; an axis row acts on axis `a`, a module row on every axis in use. A
trigger for an unused axis is ignored (R330, R331). -/
def activateRow (s : State) (k a : Nat) : State :=
  s.activateFor k (if moduleRow k then s.axes else s.axes.filter (· == a))

/-- A short circuit that Uzodar holds is judged again under R24 after a change of a channel of the bridge. -/
def rejudge (s : State) (a : Nat) : State :=
  if isShort (s.uzAx a).gate then (s.substitute a).regate a else s

/-- The end state of an SS1: ASC_AUTO for its rows, all-off for STO, and the axis in HOLD (R328). -/
def ss1EndState (s : State) (a : Nat) : State :=
  let sto := (s.uzAx a).ss1Sto
  let s := (s.endSs1 a).rowModes a true false
  (((s.substitute a).regate a).soUpdate).stoAfter sto

/-- An instant since when a condition has stood, kept while it stands. -/
def since (s : State) (old : Option Nat) (c : Bool) : Option Nat := if c then old.or (some s.now) else none

/-- What a new frame says of |speed| against SS1_ZERO and 1.25 × LIMP_SPD (R327, R341). -/
def speedMark (s : State) (a : Nat) : State :=
  let slow (f : PosFrame) : Bool := decide (10 * f.speed.natAbs < 65536 * s.uz F.BLK_SS1_SS1_ZERO)
  let fast (f : PosFrame) : Bool := decide (5 * s.uz F.BLK_LIMP_SPD_LIMP_SPD < 4 * f.speed.natAbs)
  let f := s.frameGood a
  s.modUz a fun u => { u with slowAt := s.since u.slowAt (f.any slow), fastAt := s.since u.fastAt (f.any fast) }

/-- What new measurements say of E_u against ASC_EXIT × Vdc (R335). -/
def emfMark (s : State) (a : Nat) : State :=
  let low := s.measured && (s.emf a).any fun e => !s.emfAtLeast a e (s.uz F.BLK_ASC_ASC_EXIT) 256
  s.modUz a fun u => { u with lowAt := s.since u.lowAt low }

/-- A condition has stood for so many ns. -/
def stood (s : State) (from_ : Option Nat) (ns : Nat) : Bool := from_.any fun x => decide (x + ns ≤ s.now)

end State

end Sys2Proof.Machine
end

