-- ==== Sys2Proof/Machine/Pwm.lean ====
section
/-!
DEFINITION. PWM generation (R122 to R158): commit sets, reloads, the volt-second carry ledger, bootstrap
refresh, the sampling window, three-level modulation, trips, synchronisation and calibration. Times within
a period are counted in steps of 62.5 ps; a PWM clock is 64 steps.
-/

namespace Sys2Proof.Machine

/-- A word of a commit set, by its offset / 4 (R132). -/
def setWord (ws : List (BitVec 32)) (i : Nat) : Nat := (ws.getD i 0#32).toNat

namespace State

/-! ## Geometry of a carrier (R122 to R124, R127, R128) -/

/-- Carrier 1 has no outputs (R122). -/
def noCarrier1 (s : State) : Bool := s.axes == [0]

/-- Quad update: carrier 1 runs as carrier 0's shadow (R128). -/
def quad (s : State) : Bool :=
  s.rd (F.PWM_CFG_UPD 0) == 3 && s.rd (F.PWM_CFG_COUNT 0) == 0 && s.noCarrier1

/-- UPD as it acts (R127). -/
def updMode (s : State) (c : Nat) : Nat :=
  let u := s.rd (F.PWM_CFG_UPD c)
  if u = 2 then 0
  else if u = 3 then
    if s.rd (F.PWM_CFG_COUNT c) = 1 then 1 else if c = 0 ∧ s.noCarrier1 then 3 else 1
  else u

/-- The carrier has a reload at this point (R127, R128). -/
def reloads (s : State) (c : Nat) (p : ReloadPoint) : Bool :=
  match p with
  | .valley => true
  | .half => s.updMode c != 0
  | .rising | .falling => s.updMode c == 3

/-- A carrier in up mode. DESIGN CHOICE, log entry 117: a COUNT written in READY acts at once, in the middle of a period. -/
def upMode (s : State) (c : Nat) : Bool := s.rd (F.PWM_CFG_COUNT c) == 1

/-- The sync source as it acts (R126, R128). -/
def syncMode (s : State) (c : Nat) : Nat :=
  if c = 1 ∧ s.quad then 1
  else if c = 0 ∧ s.rd (F.PWM_CFG_SYNC c) = 1 then 0 else s.rd (F.PWM_CFG_SYNC c)

/-- The period of PERIOD clocks in steps (R123). -/
def periodSteps (s : State) (c per : Nat) : Nat := per * 64 * (if s.upMode c then 1 else 2)

/-- The present period in ns (R123). -/
def periodNs (s : State) (c : Nat) : Nat := s.periodSteps c (s.car c).per / 16

/-- PERIOD limited by the frequency ceiling and 1 kHz (R124). -/
def clampPeriod (s : State) (c raw : Nat) : Nat :=
  let k := if s.upMode c then 4 else 8
  let f := s.rd F.PWM_LIMIT_FSW_CEIL
  let f := if f = 0 ∨ 100 < f then 100 else f
  max ((1000000 + k * f - 1) / (k * f)) (min raw (1000000 / k))

/-! ## The counter and its sync source (R123, R126 to R129) -/

/-- PHASE as it acts (R126, R128). -/
def syncPhase (s : State) (c : Nat) : Nat :=
  if c = 1 ∧ s.quad then (s.car 0).per / 2 else s.rd (F.PWM_CFG_PHASE c)

/-- One instant at which the sync source puts a valley; the others lie whole periods away (R126). -/
def syncBase (s : State) (c : Nat) : Option Int :=
  let ph : Int := 4 * s.syncPhase c
  match s.syncMode c with
  | 1 => if (s.car 0).started then some ((s.car 0).valleyAt + ph) else none
  | 2 => (s.car c).aligned.map (fun x => (x : Int))
  | 3 => some ((s.now : Int) - s.ct + (s.car c).ctBase + ph)
  | _ => none

/-- Phase error of a valley at an instant, in ns (R126). -/
def syncErr (s : State) (c : Nat) (x : Nat) : Int :=
  match s.syncBase c with
  | none => 0
  | some b =>
    let t : Int := s.periodNs c
    ((x : Int) - b + t / 2) % t - t / 2

/-- The largest correction of one period, in ns: 1 ns or 250 ppm of it (R126, log entry 97). -/
def syncTol (s : State) (c : Nat) : Nat :=
  if (s.syncBase c).isNone then 0 else max 1 (s.periodNs c / 4000)

/-- The carrier goes straight to its sync source's place: a step in READY, and always the shadow (R126, R128). -/
def stepsOn (s : State) (c : Nat) : Bool := (s.car c).stepDue || (c == 1 && s.quad)

/-- The first instant after `x` at which the sync source puts a valley (R126). -/
def alignedAfter (s : State) (c x : Nat) : Nat :=
  match s.syncBase c with
  | none => x + s.periodNs c
  | some b =>
    let t : Int := s.periodNs c
    let r := (b - x) % t
    ((x : Int) + (if r = 0 then t else r)).toNat

/-- The instant of the `n`th valley from the latest one: whole periods after it, each corrected toward the sync source by
the largest amount at most (R126). -/
def valleyIn (s : State) (c n : Nat) : Nat :=
  let x := (s.car c).valleyAt
  if s.stepsOn c && (s.syncBase c).isSome then s.alignedAfter c x + (n - 1) * s.periodNs c
  else
    let y := x + n * s.periodNs c
    let m : Int := n * s.syncTol c
    ((y : Int) - max (-m) (min m (s.syncErr c y))).toNat

/-- The counter reaches its valley now: any instant starts it, but the shadow's that carrier 0 gives it (R123, R126,
R128). Whole periods in between may have passed without a command. -/
def valleyDue (s : State) (c : Nat) : Bool :=
  let k := s.car c
  if !k.started then c != 1 || !s.quad || ((s.syncBase c).isSome && s.syncErr c s.now == 0)
  else
    let n := (s.now - k.valleyAt + s.periodNs c / 2) / s.periodNs c
    [n - 1, n, n + 1].any fun n => decide (0 < n) && s.valleyIn c n == s.now

/-- The position in the period of a reload other than a valley, in steps (R127); the midpoints are where the shadow has its
valley and its peak (R128). -/
def pointAt (s : State) (c : Nat) (p : ReloadPoint) : Nat :=
  let per := (s.car c).per
  match p with
  | .valley => 0
  | .half => if s.upMode c then per / 2 * 64 else per * 64
  | .rising => per / 2 * 64
  | .falling => (per + per / 2) * 64

/-- The counter reaches a reload point now (R127). -/
def pointDue (s : State) (c : Nat) (p : ReloadPoint) : Bool :=
  let k := s.car c
  match p with
  | .valley => s.valleyDue c
  | p => k.started && !k.pts.contains p && decide (s.now = k.valleyAt + s.pointAt c p / 16)

/-- The instants of the reload points still to come, the valleys after the present period among them as their correction
places them (R126, R127). -/
def reloadsAhead (s : State) (c : Nat) : List Nat :=
  let k := s.car c
  if !k.started then []
  else
    let n := (s.now - k.valleyAt) / max 1 (s.periodNs c)
    (([n, n + 1, n + 2].filter fun n => decide (0 < n)).map (s.valleyIn c)).filter (fun v => decide (s.now ≤ v)) ++ ([ReloadPoint.half, .rising, .falling].filter fun p => s.reloads c p && !k.pts.contains p).filterMap fun p =>
      let x := k.valleyAt + s.pointAt c p / 16
      if s.now ≤ x then some x else none

/-- The reload guard is open: 16 PWM clocks, 64 ns, before a reload (R17, R134). -/
def inGuard (s : State) (c slack : Nat) : Bool :=
  (s.reloadsAhead c).any fun x => decide (x ≤ s.now + 64 + slack)

/-- An update event of the axis falls now: its carrier reloads, and the event has not been issued (R14, R127). In quad
update the two that the shadow issues fall on carrier 0's midpoints (R128). -/
def updateDue (s : State) (a : Nat) : Bool :=
  (s.car a).reloadAt == some s.now
    || ((s.car a).started && [ReloadPoint.valley, .half, .rising, .falling].any fun p => s.reloads a p && s.pointDue a p)

/-- The effective dead time and minimum pulse in steps (R138, R139). -/
def deadTime (s : State) (c : Nat) : Nat :=
  max (min 128000 (s.rd (F.PWM_DT_DT c))) (160 * min 800 (s.rd F.PWM_FLOOR_DT_FLOOR))

def minPulse (s : State) (c : Nat) : Nat :=
  max (1600 + 160 * min 490 (s.rd (F.PWM_MINP_MINP c))) (1600 + 160 * min 490 (s.rd F.PWM_FLOOR_MINP_FLOOR))

/-- A floor raises a value (R139). -/
def floorHit (s : State) (c : Nat) : Bool :=
  decide (min 128000 (s.rd (F.PWM_DT_DT c)) < s.deadTime c)
    || decide (1600 + 160 * min 490 (s.rd (F.PWM_MINP_MINP c)) < s.minPulse c)

/-! ## Commit (R133, R134, R136, R262) -/

/-- The staged words of a carrier. -/
def stagedSet (s : State) (c : Nat) : List (BitVec 32) :=
  (List.range 15).map (fun i => s.reg (R.PWM_PERIOD c + 4 * i))

/-- A COMMIT: the staged set goes to pending, or to the reload after next inside the guard. A set that was pending
before the guard opened keeps its reload (log entry 97). -/
def commitSet (s : State) (c : Nat) (restart : Bool) : State :=
  let p : PwmSet := ⟨s.stagedSet c, s.running c, restart⟩
  let s := s.hi (F.PWM_STAT_PEND c)
  if s.inGuard c 0 then (s.hi (F.PWM_STAT_LATE_COMMIT c)).modCar c fun k => { k with late := some p }
  else s.modCar c fun k => { k with pending := some p }

/-! ## The carry ledger (R140) -/

/-- What the ledger emits for a request. -/
def emitFor (t dt minp : Nat) (req : Int) : Int :=
  if req < (dt + minp : Nat) then 0 else if (t : Int) - req < (dt + minp : Nat) then (t : Int) else req

/-- Keeps a carry inside one period; a discard counts once in a period (R140, R142). -/
def keepCarry (s : State) (c x t : Nat) (v : Int) : State :=
  let s' := s.putCarry c x (max (-(t : Int)) (min (t : Int) v))
  if (v < -(t : Int) ∨ (t : Int) < v) ∧ (s.leg c x).discarded = false then
    (s'.modLeg c x fun l => { l with discarded := true }).count (F.PWM_LDISC_DISC_CNT c) (F.PWM_LDISC_SAT c) 0x0708
      (c + 16 * x)
  else s'

/-- A place of an edge: whole clocks in a period that ignores fractions (R131). -/
def grainOf (coarse : Bool) (e : Nat) : Nat := if coarse then e / 64 * 64 else e

/-- An interval whose edges are placed so (R131). -/
def grainPulse (coarse : Bool) (p : Option (Nat × Nat)) : Option (Nat × Nat) :=
  match p with
  | some (a, b) => if grainOf coarse a < grainOf coarse b then some (grainOf coarse a, grainOf coarse b) else none
  | none => none

/-- The requested interval and its on-edge (R130); fractions are ignored while COARSE (R131). -/
def request (s : State) (c x per : Nat) (ws : List (BitVec 32)) : Int × Int :=
  let p := per * 64
  let place (i : Nat) : Int := (min p (grainOf (s.car c).coarse (setWord ws (i + 2 * x) % 2 ^ 24)) : Nat)
  let on := place 1
  let off := place 2
  if s.upMode c then (max 0 (off - on), on) else (2 * (p : Int) - on - off, on)

/-- The place of an emitted pulse: centred as requested, odd steps to the later edge, clipped at the ends
of the period (R140). -/
def placePulse (on carry req emit : Int) (t : Nat) : Option (Nat × Nat) :=
  if emit ≤ 0 then none
  else if (t : Int) ≤ emit then some (0, t)
  else
    let a := on - carry.fdiv 2 - (emit - req).fdiv 2
    let lo := max 0 a
    let hi := min (t : Int) (a + emit)
    if lo < hi then some (lo.toNat, hi.toNat) else none

def pulseWidth : Option (Nat × Nat) → Nat
  | none => 0
  | some p => p.2 - p.1

/-! ## The sampling window (R129, R146) -/

/-- The instant of trigger point `k` in the period, when it fires at all (R129). -/
def trigAt (s : State) (c per k : Nat) (ws : List (BitVec 32)) : Option Nat :=
  let w := setWord ws (7 + k)
  let n := w % 2 ^ 18
  if w / 2 ^ 31 = 0 then none
  else if s.upMode c then (if per ≤ n then none else some (n * 64))
  else if per < n then none
  else if w / 2 ^ 18 % 2 = 0 ∨ n = 0 then some (n * 64) else some ((2 * per - n) * 64)

/-- The counter of a carrier passes its trigger point `k` now, which has not fired in the period (R129). -/
def trigDue (s : State) (c k : Nat) : Bool :=
  let r := s.car c
  r.started && !r.fired.testBit k && match s.trigAt c r.per k r.cur with
    | some x => decide (s.now = r.valleyAt + x / 16)
    | none => false

/-- The windows of a period: trigger point, start, end. -/
def windows (s : State) (c per : Nat) (ws : List (BitVec 32)) : List (Nat × Int × Int) :=
  (List.range 8).filterMap fun k =>
    (s.trigAt c per k ws).map fun (t : Nat) =>
      (k, (t : Int) - 160 * (s.rd (F.PWM_WIN_WIN_PRE c) : Int),
          (t : Int) + 160 * (s.rd (F.PWM_WIN_WIN_POST c) : Int))

/-! ## Three-level modulation (R147 to R149) -/

/-- The sign of an integer. -/
def sgn (x : Int) : Int := if x < 0 then -1 else if x = 0 then 0 else 1

/-- The neutral-point offset, per unit × 2^30 (R149). Currents and voltages are Q1.15. DESIGN CHOICE, log entry 117: the
quotient is truncated toward zero to 2^-30. -/
def npOffset (s : State) (refs cur : List Int) (vdc vlo : Int) : Int :=
  if !s.bit F.PWM_NP_EN then 0
  else
    let e := vdc - 2 * vlo
    let inp0 := ((refs.zip cur).map fun p => (32768 - (p.1.natAbs : Int)) * p.2).sum
    let sg := ((refs.zip cur).map fun p => sgn p.1 * p.2).sum
    let num := inp0 + 128 * (s.rd F.PWM_NP_NP_GAIN : Int) * e
    let d := if sg.natAbs < 512 then 0 else truncDiv (num * 32768) sg
    let m : Int := (s.rd F.PWM_NP_NP_OFS_MAX : Int) * 4194304
    let d := max (-m) (min m d)
    let top := (refs.map fun r => (32768 - r) * 32768).foldl min (2 * 1073741824)
    let bot := (refs.map fun r => (-32768 - r) * 32768).foldl max (-2 * 1073741824)
    max bot (min top d)

/-- The references of the phases with the offset added and limited (R148), per unit × 2^30. -/
def phaseRefs (ws : List (BitVec 32)) : List Int :=
  [0, 1, 2].map fun x => signed 16 (setWord ws (1 + 2 * x))

def limitOne (v : Int) : Int := max (-1073741824) (min 1073741824 v)

/-! ## The plan of a period (R130, R137, R148, R150)

A level is true while the high side, or the outer switch of a three-level phase, is on. -/

/-- The level at the start of the period. -/
def startLevel (l : PwmLeg) : Bool :=
  match l.gap, l.pulse with
  | some g, _ => decide (0 < g.1)
  | none, some p => decide (p.1 = 0)
  | none, none => false

/-- The level that a trip leaves a leg at (R150). -/
def cutLevel (three : Bool) (l : PwmLeg) (positive : Bool) : Bool :=
  if three && !l.regionP then positive else !positive

/-- The changes of level in a period of `t` steps: place and new level. -/
def planOf (three : Bool) (l : PwmLeg) (t : Nat) : List (Nat × Bool) :=
  let first := startLevel l
  let head := match l.ended with
    | some e => if e = first then [] else [(0, first)]
    | none => []
  let body := match l.gap, l.pulse with
    | some g, _ => (if 0 < g.1 then [(g.1, false)] else []) ++ (if g.2 < t then [(g.2, true)] else [])
    | none, some p => (if 0 < p.1 then [(p.1, true)] else []) ++ (if p.2 < t then [(p.2, false)] else [])
    | none, none => []
  let all := head ++ body
  match l.cut with
  | none => all
  | some positive =>
    let kept := all.filter fun e => decide (e.1 ≤ l.cutAt)
    let now := match kept.getLast? with
      | some e => e.2
      | none => first
    let level := cutLevel three l positive
    if now = level then kept else kept ++ [(l.cutAt, level)]

/-- The level in which the period ends. -/
def endLevel (three : Bool) (l : PwmLeg) (t : Nat) : Bool :=
  match (planOf three l t).getLast? with
  | some e => e.2
  | none => startLevel l

/-- The region in which a change of level falls: one at the valley leaves the past period's (R148). -/
def edgeRegion (l : PwmLeg) (e : Nat) : Bool := if e = 0 then l.wasP else l.regionP

/-- Low-side conduction: each stay low, less the dead time that begins one within the period (R137, R143). -/
def lowTime (t dt : Nat) : Bool → Nat → Bool → List (Nat × Bool) → Nat
  | level, since, fresh, [] => if level then 0 else (t - since) - (if fresh then dt else 0)
  | level, since, fresh, (e, l) :: rest =>
    (if level then 0 else (e - since) - (if fresh then dt else 0)) + lowTime t dt l e true rest

/-- Time at level true between two places, from the level at the start of the period and its changes. -/
def stayIn (a b : Nat) : Bool → Nat → List (Nat × Bool) → Nat
  | level, since, [] => if level then b - max a since else 0
  | level, since, (e, l) :: rest => (if level then min b e - max a since else 0) + stayIn a b l e rest

/-- What a leg emits between two places of a period of `t` steps, in halves of Vdc times steps (R140, R220). -/
def emitSpan (three : Bool) (l : PwmLeg) (t a b : Nat) : Int :=
  let on : Int := stayIn a b (match l.ended with
    | some e => e
    | none => startLevel l) 0 (planOf three l t)
  if three then (if l.regionP then ((b - a : Nat) : Int) + on else ((b - a : Nat) : Int) - on) else 2 * on

/-- Place of the present instant in the period. -/
def placeNow (s : State) (c : Nat) : Nat := min (s.periodSteps c (s.car c).per) (16 * (s.now - (s.car c).valleyAt))

/-- What the three legs of a carrier have emitted since the latest update event (R220). -/
def emittedNow (s : State) (c : Nat) : List Int :=
  if (s.car c).drove then [0, 1, 2].map fun x =>
    (s.leg c x).emitAcc + emitSpan s.threeLevel (s.leg c x) (s.periodSteps c (s.car c).per) (s.leg c x).emitTo (s.placeNow c)
  else []

/-- Counts the emission afresh from here. -/
def emitAfresh (s : State) (c : Nat) : State :=
  s.each [0, 1, 2] fun s x => s.modLeg c x fun l => { l with emitAcc := 0, emitTo := s.placeNow c }

/-- Keeps what the coming period needs of the past one: the level it ended in, its low-side conduction and the dead
times that run past the valley (R137, R143, R148), and what it emitted (R220). -/
def pastLeg (s : State) (c x : Nat) : State :=
  let k := s.car c
  let three := s.threeLevel
  let t := s.periodSteps c k.per
  s.modLeg c x fun l =>
    let plan := planOf three l t
    { l with
      ended := if k.drove then some (endLevel three l t) else none
      low :=
        let start := match l.ended with
          | some e => e
          | none => startLevel l
        -- a low side that a past dead time still delays conducts from its on-edge
        let from_ := if start then 0 else (l.tail.filterMap fun e => if e.2.1 then none else some e.1.toNat).foldl max 0
        lowTime t k.dt start from_ false plan
      emitAcc := l.emitAcc + emitSpan three l t l.emitTo t, emitTo := 0
      wasP := l.regionP
      tail := if k.drove then (plan.filter fun e => decide (t ≤ grainOf k.coarse (e.1 + k.dt))).map fun e =>
          (((grainOf k.coarse (e.1 + k.dt) : Nat) : Int) - t, e.2, edgeRegion l e.1) else [] }

/-- The switch of a leg, by its number in it, that a change to a level turns off, and the one it turns on (R130,
R148). -/
def outgoing (three level regionP : Bool) : Nat :=
  if three then (if level then (if regionP then 2 else 1) else (if regionP then 0 else 3)) else level.toNat

def incoming (three level regionP : Bool) : Nat :=
  if three then (if level then (if regionP then 0 else 3) else (if regionP then 2 else 1)) else 1 - level.toNat

/-- A channel's number in its leg: high side 0 and low side 1, or T1 to T4 from 0. -/
def inLeg (s : State) (n : Nat) : Nat := if s.threeLevel then n % 4 else n % 2

/-- An edge at a place of the period reaches a channel now: at the place, or the channel's propagation delay later
(R92, R130, log entry 98). -/
def edgeNow (s : State) (c : Nat) (e : Int) : Bool :=
  let rel : Int := 16 * ((s.now - (s.car c).valleyAt : Nat) : Int)
  decide (e < rel + 16) && decide (rel ≤ e + 1216)

/-- The plan has an off-edge of the channel now (R130, R137). -/
def offPlanned (s : State) (n : Nat) : Bool :=
  let c := s.axisOf n
  let l := s.leg c (s.legOf n)
  let three := s.threeLevel
  (planOf three l (s.periodSteps c (s.car c).per)).any fun e =>
    outgoing three e.2 (edgeRegion l e.1) == s.inLeg n && s.edgeNow c (e.1 : Nat)

/-- The plan has an on-edge of the channel now: the dead time after a change of level, or at the valley of a period
that enables the outputs (R130, R137, R148). -/
def onPlanned (s : State) (n : Nat) : Bool :=
  let c := s.axisOf n
  let k := s.car c
  let l := s.leg c (s.legOf n)
  let three := s.threeLevel
  let i := s.inLeg n
  let first := startLevel l
  let opens := l.ended.isNone && (i == incoming three first l.regionP || (three && i == (if l.regionP then 1 else 2)))
    && s.edgeNow c 0
  opens || ((planOf three l (s.periodSteps c k.per)).any fun e =>
      incoming three e.2 (edgeRegion l e.1) == i && s.edgeNow c (grainOf k.coarse (e.1 + k.dt) : Nat))
    || (l.tail.any fun e => incoming three e.2.1 e.2.2 == i && s.edgeNow c e.1)

/-! ## Edges and windows (R137, R146) -/

/-- The edges of a leg's plan in its period, the dead-time-delayed ones included (R146). -/
def planEdges (three coarse : Bool) (l : PwmLeg) (t dt : Nat) : List Int :=
  (planOf three l t).flatMap fun e => [(e.1 : Int), (grainOf coarse (e.1 + dt) : Nat)]

/-- Every edge of a leg in its period: the plan's, and those that dead times of the past period delay into it. -/
def legEdges (s : State) (c x : Nat) : List Int :=
  let k := s.car c
  planEdges s.threeLevel k.coarse (s.leg c x) (s.periodSteps c k.per) k.dt ++ (s.leg c x).tail.map (·.1)

def inWindow (ws : List (Nat × Int × Int)) (e : Int) : Bool :=
  ws.any fun w => decide (w.2.1 ≤ e) && decide (e ≤ w.2.2)

/-- The edges at the valley that end the past period's interval: no shift moves them. -/
def fixedEdges (three coarse : Bool) (l : PwmLeg) (t dt : Nat) : List Int :=
  if (planOf three l t).any fun e => e.1 == 0 && !e.2 then [0, (grainOf coarse dt : Nat)] else []

/-- A leg with its pulse moved. -/
def movedBy (l : PwmLeg) (v : Int) : PwmLeg :=
  { l with pulse := l.pulse.map fun p => (((p.1 : Int) + v).toNat, ((p.2 : Int) + v).toNat) }

/-- The shift of smallest magnitude that clears every window, the earlier on equal magnitude (R146). The pulse starts at
`lo` or later, and stays on whole clocks in a period that ignores fractions (R131). -/
def bestShift (three coarse : Bool) (ws : List (Nat × Int × Int)) (l : PwmLeg) (lo t dt smax : Nat) : Option Int :=
  match l.pulse with
  | none => none
  | some (a, b) =>
    let fixed := fixedEdges three coarse l t dt
    let exact : List Int := ((lo : Int) - a) :: ((t : Int) - dt - b)
      :: [(a : Int), (a + dt : Nat), (b : Nat), (b + dt : Nat)].flatMap fun e =>
        ws.flatMap fun w => [w.2.1 - e - 1, w.2.2 - e + 1]
    let cands : List Int := 0 :: (if coarse then exact.flatMap fun v => [v / 64 * 64 - 64, v / 64 * 64, v / 64 * 64 + 64]
      else exact)
    let ok (v : Int) : Bool := decide (v.natAbs ≤ smax) && decide ((lo : Int) ≤ a + v)
      && (v == 0 || decide ((b : Int) + v + dt ≤ t))
      && (planEdges three coarse (movedBy l v) t dt).all fun e => fixed.contains e || !inWindow ws e
    cands.foldl (fun best v =>
      if !ok v then best
      else match best with
        | none => some v
        | some u => if v.natAbs < u.natAbs ∨ (v.natAbs = u.natAbs ∧ v < u) then some v else best) none

/-- Marks every trigger point whose window one of the edges occupies (R146). -/
def markWindows (s : State) (c : Nat) (ws : List (Nat × Int × Int)) (edges : List Int) : State :=
  s.modCar c fun k => { k with
    edgeWin := (ws.filter (fun w => edges.any (inWindow [w]))).foldl (fun m w => m ||| 2 ^ w.1) k.edgeWin }

/-- Moves a leg's pulse out of the windows, to no earlier than `lo`, and marks the windows that its edges still occupy
(R146). -/
def shiftLeg (s : State) (c x t dt lo : Nat) (ws : List (Nat × Int × Int)) : State :=
  let v := (bestShift s.threeLevel (s.car c).coarse ws (s.leg c x) lo t dt (160 * s.rd (F.PWM_WIN_SHIFT_MAX c))).getD 0
  let s := s.modLeg c x fun l => movedBy l v
  s.markWindows c ws (s.legEdges c x)

/-! ## Resolution at a valley (R137 to R149) -/

/-- A leg has the UVLO-OFF mark or its bridge is blocked. -/
def legHeld (s : State) (c x : Nat) : Bool :=
  (s.rd (F.PWM_STAT_UVLO_OFF c)).testBit x || s.bit (F.PWM_STAT_BLOCK c)

/-- The effective refresh width in steps (R144). -/
def refreshWidth (s : State) (c : Nat) : Nat :=
  max (4000 * max 1 (s.rd (F.PWM_REFRESH_WIDTH c))) (s.car c).minp

/-- The high-side channel of a leg in bootstrap supply (R95, R143). -/
def bootstrapLeg (s : State) (c x : Nat) : Bool :=
  !s.threeLevel && s.bit (F.GDC_UVLO_SUPPLY (6 * c + 2 * x))

/-- Counts the past period toward the refresh rule; answers whether this period is a refresh (R143). -/
def refreshDue (s : State) (c x : Nat) : Bool × State :=
  if !s.bootstrapLeg c x || !s.bit (F.PWM_STAT_OUT_EN c) || s.legHeld c x then (false, s)
  else
    let l := s.leg c x
    let run := if l.low < s.refreshWidth c then l.lowRun + 1 else 0
    if l.levelDue then
      (true, (s.modLeg c x fun l => { l with lowRun := 0, levelDue := false }).event 0x070A (c + 16 * x))
    else if max 1 (s.rd (F.PWM_REFRESH_PERIODS c)) ≤ run then
      (true, s.modLeg c x fun l => { l with lowRun := 0 })
    else (false, s.modLeg c x fun l => { l with lowRun := run })

/-- Resolves one two-level leg for the coming period. A refresh starts at the end of the window of the period's first
trigger point (R144). DESIGN CHOICE, log entry 117: it does so with AUTO_SHIFT clear too, and one that does not fit is
clipped at the end of the period. -/
def resolveLeg (s : State) (c x per : Nat) (ws : List (BitVec 32)) (wins : List (Nat × Int × Int)) : State :=
  let t := s.periodSteps c per
  let k := s.car c
  let due := s.refreshDue c x
  let s := due.2
  let cb := s.carry c x
  let r := s.request c x per ws
  let req := r.1 + cb
  let shift := s.bit (F.PWM_CFG_AUTO_SHIFT c)
  let s := s.modLeg c x fun l => { l with
    cut := none, cutAt := 0, cutBoth := false, before := cb, gap := none, discarded := false }
  let grain := grainOf k.coarse
  if due.1 then
    let w := s.refreshWidth c
    let ends := wins.map fun v => v.2.2
    let start := grain (match ends with
      | [] => 0
      | e :: l => (max 0 (l.foldl min e)).toNat)
    let back := min t (grain (start + k.dt + w))
    let s := s.modLeg c x fun l => { l with pulse := some (0, t), gap := some (start, back) }
    let s := s.cond shift fun s => s.markWindows c wins (s.legEdges c x)
    s.keepCarry c x t (req - ((t : Int) - (back - start : Nat)))
  else
    let emit := emitFor t k.dt k.minp req
    let p := grainPulse k.coarse (placePulse r.2 cb req emit t)
    let s := s.modLeg c x fun l => { l with pulse := p }
    let s := s.keepCarry c x t (req - (pulseWidth p : Nat))
    if shift then s.shiftLeg c x t k.dt 0 wins else s

/-- Resolves one three-level phase: the region, its modulating pair, and the stay in O at a change of
region (R148). DESIGN CHOICE, log entry 117: |d| × T is rounded to the nearest step, and the interval is centred in the
period in up mode too. -/
def resolvePhase (s : State) (x per : Nat) (d : Int) (wins : List (Nat × Int × Int)) : State :=
  let t := s.periodSteps 0 per
  let k := s.car 0
  let l := s.leg 0 x
  let p := decide (0 ≤ d)
  let cb := s.carry 0 x
  let want := roundDiv ((d.natAbs : Int) * t) 1073741824
  let req := want + cb
  let emit := emitFor t k.dt k.minp req
  let on := ((t : Int) - want).fdiv 2
  let q := placePulse on cb req emit t
  let starts := match q with
    | some v => decide (v.1 = 0)
    | none => false
  let lo := if p != l.regionP && (l.ended == some true || starts) then k.dt + k.minp else 0
  let q := grainPulse k.coarse (match q with
    | some v => if max v.1 lo < v.2 then some (max v.1 lo, v.2) else none
    | none => none)
  let s := s.modLeg 0 x fun l => { l with
    cut := none, cutAt := 0, cutBoth := false, before := cb, gap := none, regionP := p, pulse := q
    discarded := false }
  let s := s.keepCarry 0 x t (req - (pulseWidth q : Nat))
  if s.bit (F.PWM_CFG_AUTO_SHIFT 0) then s.shiftLeg 0 x t k.dt lo wins else s

/-- The inputs of R149 as the converter groups hold them: the voted currents and Vdc of AX0, and the latest
code of NP_SRC by AX0's active group. DESIGN CHOICE, log entry 117: v_lo is that code as converted, without the
calibration of R171, also where NP_SRC names a voted input. -/
def npInputs (s : State) : List Int × Int × Int :=
  ([0, 1, 2].map fun i => signed 16 (s.rd (F.ADC_VOTED_VALUE i)), signed 16 (s.rd (F.ADC_VOTED_VALUE 3)),
   kvGet (fun _ => 0) s.adc.raw (s.adc.act0 * 24 + s.rd F.PWM_NP_NP_SRC))

/-- PERIOD of the coming period: the set's, limited; a follower of carrier 0 takes carrier 0's period in its own clocks
(R124). Answers whether it was limited. -/
def nextPeriod (s : State) (c : Nat) : Nat × Bool :=
  let raw := setWord (s.car c).active.words 0 % 2 ^ 18
  if c = 1 ∧ s.syncMode 1 = 1 then
    let clocks := s.periodSteps 0 (s.car 0).per / 64
    (if s.upMode 1 then clocks else clocks / 2, false)
  else (s.clampPeriod c raw, raw != s.clampPeriod c raw)

/-- The valley: what the past period leaves, period, effective times, trips and phase error, and every leg resolved
(R124, R126, R131, R139 to R149, R151). -/
def valley (s : State) (c : Nat) : State :=
  let s := s.each [0, 1, 2] fun s x => s.pastLeg c x
  let ws := (s.car c).active.words
  let per := (s.nextPeriod c).1
  let s := s.cond (s.nextPeriod c).2 fun s => (s.hi (F.PWM_STAT_PER_CLAMP c)).event 0x0702 c
  let s := s.cond (s.floorHit c) fun s => (s.hi (F.PWM_STAT_FLOOR_HIT c)).event 0x0703 c
  let far := (s.car c).started && decide (s.periodNs c < 4 * (s.syncErr c s.now).natAbs)
  let s := s.modCar c fun k => { k with
    per := per, coarse := s.bit F.PWM_CAL_COARSE, dt := s.deadTime c, minp := s.minPulse c, cur := ws, valleyAt := s.now
    started := true, pts := [], fired := 0, drove := s.bit (F.PWM_STAT_OUT_EN c), vcount := k.vcount + 1
    syncRun := if far then k.syncRun + 1 else 0
    map := s.rd F.PWM_CAL_SPAN, edgeWin := 0, stepDue := false
    freeRun := if k.tripNow then 0 else k.freeRun + 1, tripNow := false }
  let s := s.cond (c == 0 && s.bit (F.PWM_CFG_SYNC_OUT 0) && Config.gpioDedicated 5) fun s => s.emit (.pulse 5)
  let wins := s.windows c per ws
  if s.threeLevel then
    if c = 0 then
      let refs := phaseRefs ws
      let n := s.npInputs
      let delta := s.npOffset refs n.1 n.2.1 n.2.2
      let s := s.modCar 0 fun k => { k with delta := delta }
      s.each [0, 1, 2] fun s x => s.resolvePhase x per (limitOne (refs.getD x 0 * 32768 + delta)) wins
    else s
  else s.each [0, 1, 2] fun s x => s.resolveLeg c x per ws wins

/-- The requested interval of a three-level phase in its region, from its reference and the period's offset: the on-edge
and the off-edge (R148, R149). -/
def phaseWant (s : State) (x t : Nat) (ws : List (BitVec 32)) : Int × Int :=
  let d := limitOne (signed 16 (setWord ws (1 + 2 * x)) * 32768 + (s.car 0).delta)
  let want := if decide (0 ≤ d) = (s.leg 0 x).regionP then roundDiv ((d.natAbs : Int) * t) 1073741824 else 0
  (((t : Int) - want).fdiv 2, ((t : Int) - want).fdiv 2 + want)

/-- The words of a leg after a mid-period reload: the new value of every edge that has not yet occurred (R135). -/
def amendWords (k : Carrier) (l : PwmLeg) (x rel : Nat) (ws : List (BitVec 32)) : BitVec 32 × BitVec 32 :=
  let take (p : Option Nat) : Bool := match p with
    | none => true
    | some v => decide (rel ≤ v)
  let pick (i : Nat) (p : Option Nat) : BitVec 32 := if take p then ws.getD i 0#32 else k.cur.getD i 0#32
  if l.gap.isSome then (k.cur.getD (1 + 2 * x) 0#32, k.cur.getD (2 + 2 * x) 0#32)
  else (pick (1 + 2 * x) (l.pulse.map (·.1)), pick (2 + 2 * x) (l.pulse.map (·.2)))

/-- The interval that R140 resolves for a pulse that has not begun at a reload: an on-edge that already lies behind the
counter falls on the reload clock, and the off-edge keeps its place; what is lost joins the carry (R135). -/
def lateOn (k : Carrier) (t rel : Nat) (before width on : Int) : Option (Nat × Nat) :=
  let first := max (rel : Int) on
  let req := max 0 (on + width - first) + before
  let emit := emitFor t k.dt k.minp req
  if emit ≤ 0 then none
  else if (t : Int) ≤ emit then some (rel, t)
  else
    let a := first - before.fdiv 2 - (emit - req).fdiv 2
    let lo := max (rel : Int) a
    let hi := min (t : Int) (a + emit)
    if lo < hi then some (lo.toNat, hi.toNat) else none

/-- The interval that R140 resolves for a pulse that has begun: it ends no earlier than the reload, and the switch keeps
its shortest conduction (R135, R137). -/
def begunOn (k : Carrier) (t rel a : Nat) (req : Int) : Option (Nat × Nat) :=
  let e := min t (max rel (a + max (emitFor t k.dt k.minp req).toNat (k.dt + k.minp)))
  if a < e then some (a, e) else none

/-- Re-resolves a leg at a reload other than a valley (R135). DESIGN CHOICE, log entry 117: a leg in its refresh period keeps
its words, its pulse and its carry. -/
def amendLeg (s : State) (c x rel : Nat) (ws : List (BitVec 32)) (wins : List (Nat × Int × Int)) : State :=
  let k := s.car c
  let t := s.periodSteps c k.per
  let l := s.leg c x
  if l.gap.isSome then s
  else
    let w := amendWords k l x rel ws
    let r : Int × Int := if s.threeLevel then
        let new := s.phaseWant x t ws
        let old := s.phaseWant x t k.cur
        let on := match l.pulse with
          | some p => if rel ≤ p.1 then new.1 else old.1
          | none => new.1
        (max 0 (new.2 - on), on)
      else s.request c x k.per ((k.cur.set (1 + 2 * x) w.1).set (2 + 2 * x) w.2)
    let req := r.1 + l.before
    match l.pulse with
    | none => s.keepCarry c x t req
    | some (a, b) =>
      if b < rel then s
      else
        let q := grainPulse k.coarse (if a < rel then begunOn k t rel a req else lateOn k t rel l.before r.1 r.2)
        let s := s.modLeg c x fun l => { l with pulse := q }
        let s := s.keepCarry c x t (req - (pulseWidth q : Nat))
        let edges := (s.legEdges c x).filter (fun e => decide ((rel : Int) ≤ e))
        if s.bit (F.PWM_CFG_AUTO_SHIFT c) then s.markWindows c wins edges else s

/-- Is a trigger word's instant still to come at a place of the period? -/
def trigAhead (s : State) (c per rel k : Nat) (ws : List (BitVec 32)) : Bool :=
  (s.trigAt c per k ws).any fun v => decide (rel < v)

/-- A reload other than a valley: the compare values of edges still to come and the trigger points still
to come are taken from the new set (R135). -/
def midReload (s : State) (c : Nat) (p : ReloadPoint) : State :=
  let k := s.car c
  let ws := k.active.words
  let rel := s.pointAt c p
  let wins := (s.windows c k.per ws).filter (fun w => decide ((rel : Int) < w.2.2))
  let fresh (i : Nat) : Bool := !s.upMode c && (s.trigAhead c k.per rel i ws || s.trigAhead c k.per rel i k.cur)
  let cur := (List.range 15).map fun i =>
    if i = 0 then k.cur.getD 0 0#32
    else if i < 7 then
      let w := amendWords k (s.leg c ((i - 1) / 2)) ((i - 1) / 2) rel ws
      if i % 2 = 1 then w.1 else w.2
    else if fresh (i - 7) then ws.getD i 0#32 else k.cur.getD i 0#32
  -- a point that is still to come has not fired by its new word
  let fired := ((List.range 8).filter fun i => k.fired.testBit i && !s.trigAhead c k.per rel i ws).foldl
    (fun m i => m ||| 2 ^ i) 0
  let s := s.each [0, 1, 2] fun s x => s.amendLeg c x rel ws wins
  s.modCar c fun k => { k with cur := cur, fired := if s.upMode c then k.fired else fired, pts := p :: k.pts }

/-- R153: the outputs are enabled at the first valley whose active set was committed after the entry to
RUN; every carry starts from 0 (R141). -/
def outputEnable (s : State) (c : Nat) : State :=
  if s.running c && !s.bit (F.PWM_STAT_OUT_EN c) && (s.car c).active.afterRun then
    (s.hi (F.PWM_STAT_OUT_EN c)).clearCarries c
  else s

/-! ## Trips (R150, R151) -/

/-- Commutates a phase after an overcurrent, where its carrier drives (R147, R150, R153). DESIGN CHOICE, log entry 117: after
a second trip of the other polarity in the period both switches stay off until the next valley. -/
def commutate (s : State) (c x : Nat) (positive : Bool) : State :=
  let at_ := 16 * (s.now - (s.car c).valleyAt)
  let rp := (s.leg c x).regionP
  let s := s.modLeg c x fun l => match l.cut with
    | none => { l with cut := some positive, cutAt := at_ }
    | some p => { l with cutBoth := l.cutBoth || p != positive }
  let off (n : Nat) : Bool :=
    if s.threeLevel then n % 4 == (if positive then (if rp then 0 else 1) else (if rp then 2 else 3))
    else s.isUpper n == positive
  s.each ((s.channels c).filter fun n => s.legOf n == x && off n) dropPwm

/-- A trip of a phase: it commutates, and the period counts once; at TRIP_N the carrier latches off, at rank 4 of R23
(R150, R151). -/
def tripPhase (s : State) (c x : Nat) (positive : Bool) : State :=
  let s := s.cond (s.bit (F.PWM_STAT_OUT_EN c)) fun s => s.commutate c x positive
  if (s.car c).tripNow then s
  else
    let s := s.modCar c fun k => { k with tripNow := true }
    let lim := max 1 (s.rd F.PWM_LIMIT_TRIP_N)
    let n := min lim (s.rd (F.PWM_STAT_TRIP_CNT c) + 1)
    let s := s.wr (F.PWM_STAT_TRIP_CNT c) n
    if n = lim ∧ s.bit (F.PWM_STAT_TRIP_LATCH c) = false then
      let s := ((s.hi (F.PWM_STAT_TRIP_LATCH c)).pwmOff c).event 0x0704 c
      s.activateRow 7 c
    else s

end State

/-! ## Commands of the generator alone -/

/-- A core's write of COMMIT (R133, R134); in RUN and LIMP it is ignored (R136). -/
def execCommitWord (t : Nat) (c : Fin 2) (inGuard : Bool) (s : State) : Host.Outcome State Fault Refusal :=
  let s := s.upTo t
  .next (if !s.ctlOn || !s.stores || inGuard != s.inGuard c 0 then s
  else if s.running c then s.hi (F.PWM_STAT_WR_IGN c)
  else s.commitSet c false)

/-- R151: after TRIP_LEAK trip-free periods TRIP_CNT decrements, to no lower than 0. -/
def execTripLeak (t : Nat) (c : Fin 2) (s : State) : Host.Outcome State Fault Refusal :=
  let s := s.upTo t
  .next (if max 1 (s.rd (F.PWM_TRIP_TRIP_LEAK c)) ≤ (s.car c).freeRun then
    (s.wr (F.PWM_STAT_TRIP_CNT c) (s.rd (F.PWM_STAT_TRIP_CNT c) - 1)).modCar c fun k =>
      { k with freeRun := 0 }
  else s)

/-- R126: a phase error beyond T ÷ 4 for four periods. In READY the carrier steps at its next valley. -/
def execSyncLost (t : Nat) (c : Fin 2) (err : Nat) (s : State) : Host.Outcome State Fault Refusal :=
  let s := s.upTo t
  .next (if s.ctlOn ∧ s.syncMode c ≠ 0 ∧ 4 ≤ (s.car c).syncRun ∧ s.periodSteps c (s.car c).per < 64 * err then
    let s := (s.hi (F.PWM_STAT_SYNC_LOST c)).event 0x0709 c
    s.modCar c fun k => { k with stepDue := s.mode == 2, syncRun := 0 }
  else s)

/-- R48, R126: a rising edge of GPIO4, where it has its dedicated function, aligns the valley at the edge plus PHASE. -/
def execSyncInputEdge (t : Nat) (c : Fin 2) (s : State) : Host.Outcome State Fault Refusal :=
  let s := s.upTo t
  .next (if s.ctlOn ∧ s.syncMode c = 2 ∧ Config.gpioDedicated 4 = true then
    s.modCar c fun k => { k with
      aligned := some (s.now + 4 * s.rd (F.PWM_CFG_PHASE c)), edgeAt := some s.now }
  else s)

/-- R126: no GPIO4 edge for two periods; the carrier free-runs at its period. -/
def execSyncEdgeMissing (t : Nat) (c : Fin 2) (s : State) : Host.Outcome State Fault Refusal :=
  let s := s.upTo t
  let k := s.car c
  let early := k.edgeAt.any fun x => decide (16 * s.now < 16 * x + 2 * s.periodSteps c k.per)
  .next (if s.ctlOn ∧ s.syncMode c = 2 ∧ early = false then
    ((s.hi (F.PWM_STAT_SYNC_LOST c)).event 0x0709 c).modCar c fun k => { k with aligned := none, edgeAt := none }
  else s)

/-- R142: writing 1 to SAT clears DISC_CNT with it. -/
def execPwmLdiscSatClear (t : Nat) (c : Fin 2) (s : State) : Host.Outcome State Fault Refusal :=
  let s := s.upTo t
  .next (if s.ctlOn && s.stores then s.clearCounts (R.PWM_LDISC c) else s)

end Sys2Proof.Machine
end

