-- ==== Sys2Proof/Machine/UzMeas.lean ====
section
/-!
DEFINITION. What Uzodar makes of ADCB's results (R22, R178, R337, R339, R578).
-/

namespace Sys2Proof.Machine

/-- The code of a conversion: the signed differential code of inputs 0 to 17, the single-ended code of inputs 18 to 23,
rounded to nearest with halves upward, then saturated (R163). -/
def convCode (r : ConvResult) : Int :=
  if r.input < 18 then satS 16 ((r.uv * 65536 + 1500000) / 3000000)
  else max 0 (min 65535 ((r.uv * 131072 + 1500000) / 3000000))

namespace State

/-- ADCB's per-unit value of an input with Uzodar's copy of the calibration (R171, R178). -/
def uzCal (s : State) (i : Nat) (code : Int) : Int :=
  satS 16 (truncDiv (code * s.uz (F.ADC_CAL_GAIN 1 i)
    - 16384 * signed 16 (s.uz (F.ADC_CAL_OFS 1 i))) 16384)

/-- Does the stator current exceed I_ABS (R339)? Nine times its square against nine times I_ABS². -/
def overIabs (s : State) (u v w : Int) : Bool :=
  let al := 2 * u - v - w
  let be := v - w
  let lim : Int := s.uz F.BLK_LIMITS_I_ABS
  decide (9 * lim * lim < al * al + 3 * be * be)

/-- The module's Vdc: the larger of the two bridges in use (R578). -/
def vdcLarger (s : State) : Int :=
  (s.axes.map fun a => (s.uzAx a).vdc).foldl max (-32768)

/-- The smaller of the two bridges in use, for the pre-charge (R578). -/
def vdcSmaller (s : State) : Int :=
  (s.axes.map fun a => (s.uzAx a).vdc).foldl min 32767

/-- Is a Q1.15 value of VFS above so many volts? -/
def aboveVolts (x : Int) (v : Nat) : Bool := decide ((v : Int) * 32768 < x * Config.vfsVolts)

/-- One ADCB set of an axis: its phase currents, and its DC-link result where it has one. -/
def adcbSet (s : State) (a : Nat) (cur : Option (Int × Int × Int)) (vdc : Option Int) : State :=
  if !s.safeOn || s.saf.adcbLost then s
  else
    let s := match cur with
      | none => s
      | some (u, v, w) =>
        let run := if s.overIabs u v w then (s.uzAx a).iabsRun + 1 else 0
        let s := s.modUz a fun x => { x with iU := u, iV := v, iW := w, gotI := true, iabsRun := min run 3 }
        if 3 ≤ run ∧ s.rowActive a 15 = false then s.activateRow 15 a else s
    match vdc with
    | none => s
    | some x =>
      let s := s.modUz a fun u => { u with vdc := x, gotV := true }
      let s := s.modSaf fun u => { u with vdcSeen := s.axes.all fun b => (s.uzAx b).gotV }
      let below := decide (s.vdcLarger * Config.vfsVolts < (32768 * s.uz F.BLK_DCH_DCH_VSAFE : Nat))
      (s.modSaf fun u => { u with safeAt := s.since u.safeAt (s.measured && below) }).emfMark a

/-- An ADCB set that contains a DC-link result counts once toward row 16, on the module's Vdc (R339, R578). -/
def overVolt (s : State) : State :=
  if !s.safeOn || s.saf.adcbLost then s
  else
    let run := if aboveVolts s.vdcLarger (s.uz F.BLK_LIMITS_VDC_MAX) then (s.uzAx 0).vdcRun + 1 else 0
    let s := s.modUz 0 fun u => { u with vdcRun := min run 3 }
    if 3 ≤ run ∧ s.axes.any (fun a => !s.rowActive a 16) then s.activateRow 16 0 else s

/-- The published commands of the last `d` ns: those published within it and the one in force before. -/
def recentCmds (s : State) (l : List (Nat × Int × Int)) (d : Nat) : List (Nat × Int × Int) :=
  let new := l.takeWhile fun c => decide (s.now ≤ c.1 + d)
  new ++ (l.drop new.length).take 1

/-! ## The brake test (R346) -/

/-- A brake test ends with a result: RES, its event, the completion and, but for a slip, the return of the
axis to READY (R346, R347, R359). -/
def brakeResult (s : State) (b : BrakeTest) (res : Nat) : State :=
  let a := b.axis
  let s := s.modSaf fun u => { u with btest := none }
  let s := s.wr (F.SAF_BTEST_RES a) res
  let s := s.cond (res == 1) fun s =>
    (s.lo (F.SAF_BTEST_AGE a)).modUz a fun u => { u with btPassAt := s.now, btDue := false }
  let s := s.event 0x0C0B (a + 256 * res)
  let s := if res = 2 then s.activateRow 29 a else (s.setAxMode a 2).regate a
  match s.btCmd with
  | some c => { s with btCmd := none }.complete c (if res = 1 then stOk else stVeto) 0
  | none => s

/-- The angle of a frame is summed; travel beyond TEST_MOVE is a slip, judged at once. -/
def brakeTravel (s : State) (a : Nat) : State :=
  match s.saf.btest, s.frameGood a with
  | some b, some f =>
    if b.axis = a then
      let d := match b.angle with
        | some g => signed 16 (f.angle + 65536 - g % 65536)
        | none => 0
      let b := { b with travel := b.travel + d, angle := some (f.angle % 65536) }
      if decide (256 * s.uz F.BLK_BTEST_TEST_MOVE < b.travel.natAbs) then s.brakeResult b 2
      else s.modSaf fun u => { u with btest := some b }
    else s
  | _, _ => s

end State

end Sys2Proof.Machine
end

