-- ==== Sys2Proof/Machine/Adc.lean ====
section
/-!
DEFINITION. The converter groups (R159 to R188): scans and their queue, results, the trip comparison, the
2-out-of-3 vote, exclusion, castling, the cross-check and the test-DAC procedure.
-/

namespace Sys2Proof.Machine

namespace State

def modAdc (s : State) (f : Adc → Adc) : State := { s with adc := f s.adc }

/-- The groups convert: ANA powered and PLLB not held (R61, R156). -/
def converting (s : State) : Bool := s.anaOn && s.ctlOn && !s.power.pllbHeld && !s.power.roadHeld

def excluded (s : State) (g : Nat) : Bool := s.bit (F.ADC_STAT_EXCL g)

/-- The groups that are not excluded (R173). -/
def healthy (s : State) : List Nat := [0, 1, 2].filter (fun g => !s.excluded g)

/-- The axis that a carrier's triggers belong to (R168). -/
def scanAxis (s : State) (c : Nat) : Nat := if s.quad then 0 else c

/-- The axis of a voted input; inputs 4 to 7 only while AX1 is in use (R162). -/
def inputAxis (s : State) (i : Nat) : Option Nat :=
  if i < 4 then some 0 else if i < 8 ∧ s.axes.length = 2 then some 1 else none

/-- The axis whose phase current the input carries. -/
def phaseAxis (s : State) (i : Nat) : Option Nat := if i % 4 = 3 then none else s.inputAxis i

/-- A group's per-unit value of a voted input (R171). -/
def perUnit (s : State) (g i : Nat) (code : Int) : Int :=
  satS 16 (truncDiv (code * s.rd (F.ADC_CAL_GAIN g i)
    - 16384 * signed 16 (s.rd (F.ADC_CAL_OFS g i))) 16384)

/-! ## Scans (R165 to R168) -/

def maskOf (s : State) (k : Nat) : List Nat :=
  (List.range 24).filter (fun i => (s.rd (F.ADC_SCAN_MASK k)).testBit i)

/-- Dropped scans one behind the other from an instant: each with the end of its samples (R167). -/
def ghostEnds : Nat → List Ghost → List Ghost
  | _, [] => []
  | x, g :: gs => { g with endAt := x + 20 * g.len } :: ghostEnds (x + 20 * g.len) gs

/-- A scan starts: its slot, its end, and its LATE tag when it waited more than 40 ns. One that starts at its trigger
takes its first sample at the first slot edge 10 ns after it or later, one that has waited at the next slot edge (R166,
R167). The dropped scans behind it would start as it has taken its last sample. -/
def startScan (s : State) (sc : Scan) (queued : Bool) : State :=
  let t0 := (s.now + (if queued then 19 else 29)) / 20 * 20
  let late := decide (sc.at_ + 40 < s.now)
  let sc := { sc with t0 := t0, endAt := t0 + 20 * (s.maskOf sc.list).length, late := late }
  let s := s.modAdc fun x => { x with taking := some { sc with ghosts := [] }, ghosts := x.ghosts ++ ghostEnds sc.endAt sc.ghosts }
  if late then s.each [0, 1, 2] fun s g => s.hi (F.ADC_STAT_LATE g) else s

/-- The scan that has taken its last sample waits for its results only. -/
def retireScan (s : State) : State :=
  match s.adc.taking with
  | some sc => if sc.endAt ≤ s.now then
      s.modAdc fun x => { x with taking := none, due := x.due ++ [sc] } else s
  | none => s

/-- The order of R167 among triggers of one PWM clock. -/
def scanBefore (p q : Scan) : Bool :=
  decide (p.at_ / 4 = q.at_ / 4 ∧ (p.car < q.car ∨ (p.car = q.car ∧ p.trig < q.trig)))

/-- Inserts a scan behind those that the order of R167 puts before it. -/
def enqueueScan (sc : Scan) : List Scan → List Scan
  | [] => [sc]
  | q :: qs => if scanBefore sc q then sc :: q :: qs else q :: enqueueScan sc qs

def formedOf (s : State) (a : Nat) : Bool := if a = 0 then s.adc.formed0 else s.adc.formed1
def setFormed (s : State) (a : Nat) (b : Bool) : State :=
  s.modAdc fun x => if a = 0 then { x with formed0 := b } else { x with formed1 := b }

/-- The scan list holds every voted input of the axis (R168). -/
def fullMask (s : State) (a k : Nat) : Bool :=
  [0, 1, 2, 3].all (fun i => (s.maskOf k).contains (4 * a + i))

/-! ## Voted input sets (R168, R246) -/

def fsa (s : State) (a : Nat) : FslAxis := kvGet (fun _ => {}) s.fslAx a

def modFsa (s : State) (a : Nat) (f : FslAxis → FslAxis) : State :=
  { s with fslAx := kvSet (fun _ => {}) s.fslAx a (f (s.fsa a)) }

/-- Tasks of an axis run (R247). -/
def taskRuns (s : State) (a : Nat) : Bool :=
  s.ctlOn && s.bit F.FSL_CTL_RUN && s.bit (F.FSL_TASK_EN a) && decide (2 ≤ s.mode)

/-- Diode conduction in a catch: a voted phase current beyond 0.05 of IFS (R228). -/
def diodeCheck (s : State) (a : Nat) (i : InputSet) : State :=
  s.cond (s.bit (F.FSL_FC_STAT_CATCH_BUSY a) && (i.vals.take 3).any fun v => decide (32768 < 20 * v.natAbs)) fun s =>
    s.modFc a fun f => { f with diode := true }

/-- A set becomes ready; it replaces any set still waiting (R246). DESIGN CHOICE: the task keeps the place in the order of R16
that the replaced set had; the spec does not say whether the fresh set moves it back (log entry 119). -/
def inputSetReady (s : State) (a : Nat) (i : InputSet) : State :=
  let s := s.cond (!i.missing) fun s => s.diodeCheck a i
  let i := { i with evCt := (s.fsa a).evCt }
  let s := s.modFsa a fun x => { x with last := i }
  if !s.taskRuns a then s
  else
    let s := s.cond ((s.fsa a).waiting.isSome && s.fsl.ready.contains a) fun s => s.hi (F.FSL_CYC_SKIP a)
    let s := s.modFsa a fun x => { x with waiting := some i, readyAt := s.now / 4 + 1 }
    -- two sets of one PWM clock: the AX0 task runs first (R16)
    let first := a == 0 && s.fsl.ready == [1] && (s.fsa 1).readyAt == s.now / 4 + 1
    if s.fsl.ready.contains a then s
    else { s with fsl := { s.fsl with ready := if first then [0, 1] else s.fsl.ready ++ [a] } }

/-- A dropped scan would have run behind the last scan of the queue (R167). -/
def addGhost (g : Ghost) : List Scan → List Scan
  | [] => []
  | [q] => [{ q with ghosts := q.ghosts ++ [g] }]
  | q :: qs => q :: addGhost g qs

/-- The dropped scan that would complete before any scan under way: its end has come, and no scan due ended before it
(R167). -/
def ghostDue (s : State) : Option Ghost :=
  s.adc.ghosts.find? fun g => decide (g.endAt ≤ s.now) && s.adc.ghosts.all (fun h => decide (g.endAt ≤ h.endAt))
    && s.adc.due.head?.all fun d => decide (g.endAt ≤ d.endAt)

/-- Delivers a MISSING set with the previous voted values (R167). -/
def missingSet (s : State) (a : Nat) : State :=
  (s.setFormed a true).inputSetReady a { (s.fsa a).last with missing := true, nomaj := 0, minority := 0 }

/-! ## Exclusion and castling (R176 to R183) -/

def actOf (s : State) (a : Nat) : Nat := if a = 0 then s.adc.act0 else s.adc.act1
def rampOf (s : State) (a : Nat) : Option Nat := if a = 0 then s.adc.ramp0 else s.adc.ramp1
def setAct (s : State) (a g : Nat) : State :=
  s.modAdc fun x => if a = 0 then { x with act0 := g } else { x with act1 := g }
def setRamp (s : State) (a : Nat) (r : Option Nat) : State :=
  s.modAdc fun x => if a = 0 then { x with ramp0 := r } else { x with ramp1 := r }
def castWaits (s : State) (a : Nat) : Bool := if a = 0 then s.adc.cast0 else s.adc.cast1
def setCast (s : State) (a : Nat) (b : Bool) : State :=
  s.modAdc fun x => if a = 0 then { x with cast0 := b } else { x with cast1 := b }

/-- The next healthy group in the order of R180. -/
def nextGroup (s : State) (g : Nat) : Option Nat :=
  [(g + 1) % 3, (g + 2) % 3].find? (fun x => !s.excluded x)

/-- Shows the active groups (R183, R186). -/
def mirrorActive (s : State) : State :=
  let s := s.wr F.ADC_CAST_ACTIVE (s.adc.act0 + 1)
  let s := s.wr F.ADC_CAST_ACTIVE1 (if s.axes.length = 2 then s.adc.act1 + 1 else 0)
  let s := s.each [0, 1, 2] fun s g =>
    s.wrB (F.ADC_STAT_ACTIVE g) (s.axes.any (fun a => s.actOf a == g))
  s.wrB F.ADC_CAST_RAMPING (s.axes.any (fun a => (s.rampOf a).isSome))

def avgLen (s : State) : Nat := 2 ^ max 4 (min 12 (s.rd F.ADC_CAST_AVG))
def rampLen (s : State) : Nat := 2 ^ min 10 (s.rd F.ADC_CAST_RAMP)

/-- The running mean of a[g] − a[act] in 2^-12 code (R181). -/
def meanDiff (s : State) (a i g : Nat) : Int :=
  let l := kvGet (fun _ => []) s.adc.diffs ((a * 24 + i) * 3 + g)
  if l.isEmpty then 0 else (l.sum * 4096) / (l.length : Int)

/-- The inputs whose offset a castling of the axis takes: its voted inputs and the castled ones (R181). -/
def castInputs (s : State) (a : Nat) : List Nat :=
  (List.range 16).filter fun i => match s.inputAxis i with
    | some b => a == b
    | none => decide (4 ≤ i) && s.rd F.ADC_INSRC_SRC / 4 ^ (i - 4) % 4 == 0

/-- A group's latest value of an input, per unit for a voted one, else its signed code. -/
def latestOf (s : State) (g i : Nat) : Int :=
  let c := kvGet (fun _ => 0) s.adc.raw (g * 24 + i)
  if (s.inputAxis i).isSome then s.perUnit g i c else c

/-- The active group's value with what is left of the castling offset, rounded (R181). -/
def rampedOut (s : State) (a i : Nat) (v : Int) : Int :=
  match s.rampOf a with
  | none => v
  | some k =>
    let r := s.rampLen
    let d := kvGet (fun _ => 0) s.adc.offs (a * 24 + i)
    satS 16 (roundDiv (v * 4096 * r - d * ((r : Int) - k)) (4096 * r))

/-- The new group becomes active for an axis with the given offsets, and a ramp begins. -/
def castle (s : State) (a g : Nat) (off : Nat → Int) : State :=
  let s := s.modAdc fun x => { x with
    offs := (s.castInputs a).foldl (fun m i => kvSet (fun _ => 0) m (a * 24 + i) (off i)) x.offs
    diffs := x.diffs.filter (fun e => e.1 / 72 != a) }
  (((s.setAct a g).setRamp a (some 0)).setCast a false).mirrorActive

/-- Forced castling of an axis: the offset is the new group's value minus the round's output (R182). -/
def forceCastle (s : State) (a : Nat) : State :=
  match s.nextGroup (s.actOf a) with
  | none => s
  | some g =>
    let off (i : Nat) : Int :=
      4096 * (s.latestOf g i - (if (s.inputAxis i).isSome then signed 16 (s.rd (F.ADC_VOTED_VALUE i))
        else s.rampedOut a i (s.latestOf (s.actOf a) i)))
    (s.castle a g off).event 0x0906 g

/-- A group is excluded with a cause, kept until reinstatement; Uzodar's rows follow (R176, R178). -/
def excludeGroup (s : State) (g cause : Nat) : State :=
  if s.excluded g then s
  else
    let s := ((s.hi (F.ADC_STAT_EXCL g)).wr (F.ADC_STAT_EXCL_CAUSE g) cause).event 0x0902 (g + 256 * cause)
    let s := s.each (s.axes.filter (fun a => s.actOf a == g)) forceCastle
    let s := if g = 1 then
        { s with saf := { s.saf with adcbLost := true } }.activateRow 9 0 else s.activateRow 8 0
    match s.healthy.length with
    | 1 => s.activateRow 11 0
    | 0 => s.activateRow 1 0
    | _ => s

/-- What defers a castling (R183): a ramp, a catch, an overlap, the next group not converged or with too
few LOOP scans. -/
def castBarred (s : State) : Bool :=
  s.axes.any fun a =>
    (s.rampOf a).isSome || s.bit (F.FSL_FC_STAT_CATCH_BUSY a) || s.overlapping a
      || match s.nextGroup (s.actOf a) with
        | none => true
        | some g => !s.bit (F.ADC_STAT_CONV g)
            || decide (kvGet (fun _ => 0) s.adc.loops (a * 3 + g) < s.avgLen)

/-- A castling instant: due at each axis's next LOOP scan, or deferred; none with one group (R180, R183). -/
def castInstant (s : State) : State :=
  if s.healthy.length < 2 ∨ s.converting = false then s
  else if s.castBarred then s.hi F.ADC_CAST_DEFER
  else s.each s.axes fun s a => s.setCast a true

/-- Castling work at the start of a LOOP scan of an axis: a deferred instant that nothing bars any more,
a waiting swap, or the next step of a ramp (R181, R183). -/
def castAtLoop (s : State) (a : Nat) : State :=
  let s := if s.bit F.ADC_CAST_DEFER ∧ s.castBarred = false then
      (s.lo F.ADC_CAST_DEFER).each s.axes fun s a => s.setCast a true else s
  if s.castWaits a then
    match s.nextGroup (s.actOf a) with
    | some g =>
      let means := s.meanDiff a
      s.castle a g (fun i => means i g)
    | none => s.setCast a false
  else match s.rampOf a with
    | none => s
    | some k =>
      if k + 1 < s.rampLen then s.setRamp a (some (k + 1))
      else
        let s := (s.setRamp a none).modAdc fun x => { x with offs := x.offs.filter (fun e => e.1 / 24 != a) }
        let s := s.mirrorActive
        if s.axes.all (fun a => (s.rampOf a).isNone && !s.castWaits a) then
          s.event 0x0905 (s.actOf a) else s

/-! ## The vote (R172 to R175) -/

/-- Outcome of the vote of one input: 0 agreed, 1 minority, 2 no majority, 3 single, 4 none (R173). -/
structure Vote where
  status : Nat
  minor : Option Nat
  out : Int
  deriving DecidableEq, Repr

def voteTol (s : State) (i : Nat) : Nat :=
  if i % 4 = 3 then s.rd F.ADC_VOTE_TOL_V else s.rd F.ADC_VOTE_TOL_I

/-- The vote of input `i` of axis `a` over the per-unit values delivered by healthy groups (R173). -/
def vote (s : State) (a i : Nat) (vals : List (Nat × Int)) : Vote :=
  let h := vals.filter (fun p => !s.excluded p.1)
  let tol : Int := s.voteTol i
  let agree (p q : Nat × Int) : Bool := decide (((p.2 - q.2).natAbs : Int) ≤ tol)
  let last := signed 16 (s.rd (F.ADC_VOTED_VALUE i))
  let act := s.actOf a
  let mean (l : List (Nat × Int)) : Int := roundDiv (l.map (·.2)).sum l.length
  let pass (m : Option Nat) : Int :=
    let l := h.filter (fun p => some p.1 != m)
    match l.find? (fun p => p.1 == act) with
    | some p => s.rampedOut a i p.2
    | none => mean l
  match h with
  | [x, y, z] =>
    let m := if !agree x y && !agree x z && agree y z then some x.1
      else if !agree y x && !agree y z && agree x z then some y.1
      else if !agree z x && !agree z y && agree x y then some z.1 else none
    match m with
    | some g => ⟨1, some g, pass (some g)⟩
    | none => if agree x y || agree x z || agree y z then ⟨0, none, pass none⟩ else ⟨2, none, last⟩
  | [x, y] => if agree x y then ⟨0, none, pass none⟩ else ⟨2, none, last⟩
  | [_] => ⟨3, none, pass none⟩
  | _ => ⟨4, none, last⟩

/-- Stores a result with its tags (R163, R170). -/
def storeResult (s : State) (sc : Scan) (r : ConvResult) : State :=
  let fmt := if r.input < 16 then s.rd F.ADC_FMT_LO_FMT / 4 ^ r.input % 4
    else s.rd F.ADC_FMT_HI_FMT / 4 ^ (r.input - 16) % 4
  let sg := fmt / 2 = 1 ∧ r.input < 18
  let v := convCode r
  let ovr := if r.input < 18 then decide (v = -32768 ∨ v = 32767) else decide (v = 65535)
  let code := if sg then wrapN 16 v else if r.input < 18 then (v + 32768).toNat else v.toNat
  let tags := sc.trig + 8 * sc.car + 16 * sc.eiw.toNat + 32 * ovr.toNat + 128 * sc.late.toNat
  let w := if fmt % 2 = 0 then code + 65536 * (tags + 256 * (sc.seq % 256))
    else code * 65536 + (tags + 256 * (sc.seq % 256))
  let s := s.setReg (R.ADC_RES r.group r.input) (BitVec.ofNat 32 w)
  s.modAdc fun x => { x with raw := kvSet (fun _ => 0) x.raw (r.group * 24 + r.input) v }

/-! ## The trip comparison (R150) -/

/-- One phase-current result of a healthy group, and the trip it may decide. -/
def tripCheck (s : State) (a ph g : Nat) (v : Int) : State :=
  let lv := s.rd (F.PWM_TRIP_TRIP_LEVEL a)
  let lv : Int := if lv = 0 then 0x7FFF else lv
  if s.excluded g || !(decide (lv ≤ v) || decide (v ≤ -lv)) then s
  else
    let pos := decide (lv ≤ v)
    let s := s.modAdc fun x => { x with reports :=
      (x.reports.filter (fun r => decide (s.now ≤ r.at_ + 200)
        && !(r.axis == a && r.phase == ph && r.positive == pos && r.group == g)))
        ++ [⟨a, ph, pos, g, s.now⟩] }
    let n := (s.adc.reports.filter (fun r => r.axis == a && r.phase == ph && r.positive == pos
      && !s.excluded r.group)).length
    if min 2 s.healthy.length ≤ n then s.tripPhase a ph pos else s

/-- The trip comparison over results of one round. -/
def tripRound (s : State) (res : List ConvResult) : State :=
  res.foldl (fun s r => match s.phaseAxis r.input with
    | some a => s.tripCheck a (r.input % 4) r.group (s.perUnit r.group r.input (convCode r))
    | none => s) s

/-- ADCB's results of each axis reach Uzodar (R22, R178). -/
def uzAxisResults (s : State) (res : List ConvResult) : State :=
  s.each s.axes fun s a =>
    let get (i : Nat) : Option Int :=
      (res.find? (fun r => r.group == 1 && r.input == 4 * a + i)).map fun r => s.uzCal (4 * a + i) (convCode r)
    let cur := match get 0, get 1, get 2 with
      | some u, some v, some w => some (u, v, w)
      | _, _, _ => none
    if cur.isNone && (get 3).isNone then s else s.adcbSet a cur (get 3)

/-- ADCB's results reach Uzodar: of each axis, and as one set for the module (R22, R178, R339). -/
def uzFromResults (s : State) (res : List ConvResult) : State :=
  let links := res.any fun r => r.group == 1 && s.axes.any fun a => r.input == 4 * a + 3
  let s := s.uzAxisResults res
  s.cond links overVolt

/-! ## A round and its consequences (R175, R176) -/

/-- The votes of the voted inputs of a scan. -/
def roundVotes (s : State) (sc : Scan) (res : List ConvResult) : List (Nat × Nat × Vote) :=
  (s.maskOf sc.list).filterMap fun i => match s.inputAxis i with
    | none => none
    | some a =>
      let vals := [0, 1, 2].filterMap fun g =>
        (res.find? (fun r => r.group == g && r.input == i)).map fun r => (g, s.perUnit g i (convCode r))
      some (a, i, s.vote a i vals)

/-- Writes ADC_VOTED_i (R174). -/
def storeVote (s : State) (sc : Scan) (v : Nat × Nat × Vote) : State :=
  let minor := match v.2.2.minor with
    | some g => g + 1
    | none => 0
  let status := if v.2.2.status = 4 then 2 else v.2.2.status
  s.setReg (R.ADC_VOTED v.2.1) (BitVec.ofNat 32 (wrapN 16 v.2.2.out + 65536 * (status + 4 * minor
    + 16 * (s.actOf v.1 + 1) + 64 * sc.eiw.toNat + 128 * sc.late.toNat + 256 * (sc.seq % 256))))

def nomajOf (s : State) (a : Nat) : Nat := if a = 0 then s.adc.nomaj0 else s.adc.nomaj1
def setNomaj (s : State) (a n : Nat) : State :=
  s.modAdc fun x => if a = 0 then { x with nomaj0 := n } else { x with nomaj1 := n }

def adcCount (s : State) (f : Fld) (g : Nat) : State := s.count f (F.ADC_CNT_SAT g) 0x090C g

/-- A group in an unmarked round: minority, in the majority on every input, or neither (R176). -/
def judgeGroup (s : State) (vs : List (Nat × Nat × Vote)) (res : List ConvResult) (g : Nat) : State :=
  if s.excluded g || vs.isEmpty then s
  else if vs.any (fun v => v.2.2.minor == some g) then
    let s := (s.adcCount (F.ADC_CNT_MINOR_CNT g) g).event 0x0901 g
    let s := s.bump (F.ADC_STAT_CONSEC g)
    if max 1 (s.rd F.ADC_VOTE_MINOR_N) ≤ s.rd (F.ADC_STAT_CONSEC g) then s.excludeGroup g 1 else s
  else if vs.all (fun v => v.2.2.status != 2 && res.any (fun r => r.group == g && r.input == v.2.1)) then
    s.lo (F.ADC_STAT_CONSEC g)
  else s

/-- The no-majority count of an axis in an unmarked round (R176, R187). -/
def judgeAxis (s : State) (vs : List (Nat × Nat × Vote)) (a : Nat) : State :=
  let l := vs.filter (fun v => v.1 == a)
  if l.isEmpty then s
  else if l.any (fun v => v.2.2.status == 2) then
    let s := if a = 0 then s.count F.ADC_NOMAJ_CNT0 F.ADC_NOMAJ_SAT0 0x090C 0
      else s.count F.ADC_NOMAJ_CNT1 F.ADC_NOMAJ_SAT1 0x090C 0
    let s := (s.setNomaj a (s.nomajOf a + 1)).event 0x0903 (16 * a)
    if max 1 (s.rd F.ADC_VOTE_NOMAJ_N) = s.nomajOf a then (s.event 0x0904 (16 * a)).activateRow 10 a else s
  else s.setNomaj a 0

/-- The consequences of a round; a marked round has none (R175, R176, R182). -/
def judgeRound (s : State) (sc : Scan) (vs : List (Nat × Nat × Vote)) (res : List ConvResult) : State :=
  if sc.eiw || sc.late then s
  else
    let act := s.axes.filter fun a =>
      vs.any (fun v => v.1 == a && v.2.2.minor == some (s.actOf a))
    let s := s.each act forceCastle
    let s := s.each [0, 1, 2] fun s g => s.judgeGroup vs res g
    s.each s.axes fun s a => s.judgeAxis vs a

/-- Running means and LOOP-scan counts after a LOOP scan of an axis (R181, R183). -/
def loopMeans (s : State) (a : Nat) (res : List ConvResult) : State :=
  let n := s.avgLen
  let val (g i : Nat) : Option Int :=
    (res.find? (fun r => r.group == g && r.input == i)).map fun r =>
      if (s.inputAxis i).isSome then s.perUnit g i (convCode r) else convCode r
  let upd (m : List (Nat × List Int)) (i g : Nat) : List (Nat × List Int) :=
    match val g i, val (s.actOf a) i with
    | some x, some y =>
      let k := (a * 24 + i) * 3 + g
      kvSet (fun _ => []) m k (((x - y) :: kvGet (fun _ => []) m k).take n)
    | _, _ => m
  s.modAdc fun x => { x with
    diffs := (s.castInputs a).foldl (fun m i => [0, 1, 2].foldl (fun m g => upd m i g) m) x.diffs
    loops := ([0, 1, 2].filter fun g => res.any fun r => r.group == g).foldl (fun m g =>
      kvSet (fun _ => 0) m (a * 3 + g) (kvGet (fun _ => 0) m (a * 3 + g) + 1)) x.loops }

/-- The unvoted inputs that ADC_INSRC takes (R168, R170). -/
def unvotedInputs (s : State) (a : Nat) : List (Nat × Int) :=
  ((List.range 16).filter (fun i => decide (4 ≤ i) && (s.inputAxis i).isNone)).map fun i =>
    let src := s.rd F.ADC_INSRC_SRC / 4 ^ (i - 4) % 4
    if src = 0 then
      (i, s.rampedOut a i (kvGet (fun _ => 0) s.adc.raw (s.actOf a * 24 + i)))
    else (i, kvGet (fun _ => 0) s.adc.raw ((src - 1) * 24 + i))

/-- Forms the axis's set from a LOOP scan, or reports LOOP_ERR (R168). -/
def formSet (s : State) (a : Nat) (sc : Scan) (vs : List (Nat × Nat × Vote)) : State :=
  if s.formedOf a || !s.fullMask a sc.list then s.each [0, 1, 2] fun s g => s.hi (F.ADC_STAT_LOOP_ERR g)
  else
    let own := vs.filter (fun v => v.1 == a)
    let bits (p : Vote → Bool) : Nat :=
      own.foldl (fun m v => if p v.2.2 then m + 2 ^ (v.2.1 - 4 * a) else m) 0
    let at2 := ((s.maskOf sc.list).filter (fun i => decide (i < 4 * a + 1))).length
    (s.setFormed a true).inputSetReady a {
      vals := [0, 1, 2, 3].map fun i => match own.find? (fun v => v.2.1 == 4 * a + i) with
        | some v => v.2.2.out
        | none => 0
      ins := s.unvotedInputs a
      nomaj := bits (fun v => v.status == 2 || v.status == 4)
      minority := bits (fun v => v.status == 1)
      eiw := sc.eiw, late := sc.late
      single := own.any (fun v => v.2.2.status == 3)
      mid := sc.t0 + 20 * at2 }

end State

/-! ## Commands of the scans -/

/-- A trigger that finds the queue full is dropped; one whose scan would form an axis's set leaves a MISSING set for the
instant at which that scan would have completed (R167). -/
def State.dropScan (s : State) (sc : Scan) : State :=
  let a := s.scanAxis sc.car
  let s := s.each [0, 1, 2] fun s g => s.hi (F.ADC_STAT_TRIG_DROP g)
  let s := s.event 0x0907 (0xF + 16 * sc.car)
  s.cond (s.bit (F.ADC_SCAN_LOOP sc.list) && s.fullMask a sc.list) fun s =>
    s.modAdc fun x => { x with queue := State.addGhost ⟨a, (s.maskOf sc.list).length, 0⟩ x.queue }

/-- A scan waits in its place; the last of a full queue and it is dropped (R167). -/
def State.queueScan (s : State) (sc : Scan) : State :=
  let q := State.enqueueScan sc s.adc.queue
  let s := s.modAdc fun x => { x with queue := q.take 4 }
  match q.drop 4 with
  | [] => s
  | d :: _ => s.dropScan d

/-- A trigger's scan starts at once, waits or is dropped. A scan that started at a trigger of the same PWM clock gives way to
one that R167 puts before it: neither has taken a sample. -/
def State.offerScan (s : State) (sc : Scan) : State :=
  match s.adc.taking with
  | none => if s.adc.queue.isEmpty then s.startScan sc false else s.queueScan sc
  | some k =>
    if State.scanBefore sc k && k.t0 == (k.at_ + 29) / 20 * 20 then (s.startScan sc false).queueScan k
    else s.queueScan sc

/-- R129, R165 to R167: a trigger point starts its scan list, queues it, or is dropped. -/
def execTriggerPoint (t : Nat) (c : Fin 2) (k : Fin 8) (s : State) : Host.Outcome State Fault Refusal :=
  let s := s.upTo t
  .next (if !s.trigDue c k then s
  else
    let s := s.modCar c fun x => { x with fired := x.fired ||| 2 ^ k.val }
    let w := setWord (s.car c).cur (7 + k)
    let list := w / 2 ^ 19 % 8
    if s.converting = false ∨ s.maskOf list = [] then s
    else
      let sc : Scan := { car := c, trig := k, list := list, at_ := s.now,
                         eiw := (s.car c).edgeWin.testBit k, seq := (s.car c).vcount % 256 }
      s.retireScan.offerScan sc)

/-- R167: the scan at the head of the queue starts once the one before it has taken its last sample. -/
def execQueuedScanStart (t : Nat) (s : State) : Host.Outcome State Fault Refusal :=
  let s := (s.upTo t).retireScan
  .next (match s.adc.taking, s.adc.queue with
  | none, sc :: q => (s.modAdc fun x => { x with queue := q }).startScan sc true
  | _, _ => s)

/-- R163 to R176: the oldest scan whose results are due completes. A dropped scan completes without results: where no set has
been formed since the axis's update event, a MISSING one is (R167, R168). -/
def execScanComplete (t : Nat) (res : List ConvResult) (s : State) : Host.Outcome State Fault Refusal :=
  let s := (s.upTo t).retireScan
  .next (match s.ghostDue, s.adc.due with
  | some g, _ =>
    (s.modAdc fun x => { x with ghosts := x.ghosts.erase g }).cond (!s.formedOf g.axis) fun s => s.missingSet g.axis
  | none, [] => s
  | none, sc :: rest =>
    let s := s.modAdc fun x => { x with due := rest }
    let mask := s.maskOf sc.list
    let res := res.filter (fun r => decide (r.group < 3) && mask.contains r.input)
    let a := s.scanAxis sc.car
    let loop := s.bit (F.ADC_SCAN_LOOP sc.list)
    let s := res.foldl (fun s r => s.storeResult sc r) s
    let s := s.tripRound res
    let s := s.uzFromResults res
    let s := s.cond loop fun s => s.castAtLoop a
    let vs := s.roundVotes sc res
    let s := vs.foldl (fun s v => s.storeVote sc v) s
    let s := s.judgeRound sc vs res
    s.cond loop fun s => (s.loopMeans a res).formSet a sc vs)

/-- A trigger scan or a resolver pair has taken slots in the last `n` of them, so a guard round of that length was
interrupted (R169, R195). -/
def State.guardCut (s : State) (n : Nat) : Bool :=
  let since := s.now - 20 * n
  let cuts (sc : Scan) : Bool := decide (sc.t0 < s.now) && decide (since < sc.endAt)
  s.adc.taking.any cuts || s.adc.due.any cuts
    || (s.adc.pairAt != 0 && decide (s.adc.pairAt ≤ s.now) && decide (since < s.adc.pairAt + 39))

/-- R169: a guard round serves the trip comparison and, for ADCB, Uzodar. The instant is that of its last sample's end. -/
def execGuardRound (t : Nat) (a : Fin 2) (res : List ConvResult) (s : State) :
    Host.Outcome State Fault Refusal :=
  let s := s.upTo t
  .next (if s.converting = false ∨ s.bit F.ADC_GUARD_EN = false ∨ s.axes.contains a.val = false ∨ s.guardCut 3 = true then s
  else
    let res := res.filter (fun r => decide (r.group < 3) && s.phaseAxis r.input == some a.val)
    (s.tripRound res).uzFromResults res)

/-! ## Checks of the groups -/

/-- The accepted codes of an internal input (R164). -/
def icWindow (i : Nat) : Nat × Nat :=
  if i = 18 then (32604, 32932) else if i = 22 then (35389, 43254) else if i = 23 then (32440, 39649)
  else (31457, 38447)

/-- R164: the midpoint and supply taps; three failed checks in a row exclude a group. The check takes idle slots: where a
trigger scan or a resolver pair has taken the slot that ends now, there is none (R195). -/
def execInternalCheck (t : Nat) (res : List ConvResult) (s : State) : Host.Outcome State Fault Refusal :=
  let s := s.upTo t
  let inside (r : ConvResult) : Bool :=
    decide (((icWindow r.input).1 : Int) ≤ convCode r) && decide (convCode r ≤ ((icWindow r.input).2 : Int))
  .next (if s.converting = false ∨ s.guardCut 1 = true then s
  else
    let l := res.filter (fun r => decide (r.group < 3)
      && (r.input == 18 || (decide (20 ≤ r.input) && decide (r.input ≤ 23))))
    l.foldl (fun s r =>
      let others := l.filter (fun q => q.input == r.input && q.group != r.group)
      let counts := !inside r && (r.input == 18 || (others.length == 2 && others.all inside))
      let k := r.group * 24 + r.input
      let run := if counts then kvGet (fun _ => 0) s.adc.icRun k + 1 else 0
      let s := s.modAdc fun x => { x with icRun := kvSet (fun _ => 0) x.icRun k (min 3 run) }
      if 3 ≤ run then s.excludeGroup r.group (if r.input = 18 then 2 else 3) else s) s)

/-- The middle of three codes. -/
def median3 (a b c : Int) : Int := max (min a b) (min (max a b) c)

/-- R179: one test DAC drives the shared node and the groups are compared on it, in an idle slot, which ends now (R195). -/
def execCrossCheck (t : Nat) (a b c : Option Int) (s : State) : Host.Outcome State Fault Refusal :=
  let s := s.upTo t
  .next (if s.converting = false ∨ s.guardCut 1 = true then s
  else
    let drv := s.adc.xDriver
    let code := [0x200, 0x800, 0xE00].getD (s.adc.xRot % 3) 0x200
    let s := s.modAdc fun x => { x with
      dacHeld := kvSet (fun _ => 0) x.dacHeld drv code
      xDriver := (drv + 1) % 3
      xRot := if drv = 2 then (x.xRot + 1) % 3 else x.xRot }
    match a, b, c with
    | some x, some y, some z =>
      let tol : Int := s.rd F.ADC_XCHK_TOL
      let ok (p q : Int) : Bool := decide (((p - q).natAbs : Int) ≤ tol)
      let dep := if !ok x y && !ok x z && ok y z then some 0
        else if !ok y x && !ok y z && ok x z then some 1
        else if !ok z x && !ok z y && ok x y then some 2 else none
      let s := s.each [0, 1, 2] fun s g =>
        if dep = some g then
          let run := kvGet (fun _ => 0) s.adc.xRun g + 1
          let s := s.adcCount (F.ADC_CNT_XCHK_CNT g) g
          let s := s.modAdc fun x => { x with xRun := kvSet (fun _ => 0) x.xRun g (min 2 run) }
          if 2 ≤ run then s.excludeGroup g 4 else s
        else s.modAdc fun x => { x with xRun := kvSet (fun _ => 0) x.xRun g 0 }
      let want : Int := ((code : Int) - 2048) * 16
      if ok x y && ok x z && ok y z && !ok (median3 x y z) want then
        (s.hi (F.ADC_STAT_DAC_FAIL drv)).event 0x090A drv
      else s
    | _, _, _ => s)

/-- A group's CONV bit changes; RUN_OK follows (R73, R160). -/
def State.setConv (s : State) (g : Nat) (b : Bool) : State := (s.wrB (F.ADC_STAT_CONV g) b).runOk

/-- R160, R161: a step of a group's background correction. -/
def execBackgroundCorrection (t : Nat) (g : Fin 3) (idle : Nat) (est res : Mismatch) (s : State) :
    Host.Outcome State Fault Refusal :=
  let s := s.upTo t
  .next (if s.converting = false then s
  else if idle < 10 then
    let s := s.hi (F.ADC_STAT_CAL_STARVE g)
    let first := kvGet (fun _ => 0) s.adc.starveAt g = 0
    if first then s.modAdc fun x => { x with starveAt := kvSet (fun _ => 0) x.starveAt g (s.now + 1) } else s
  else
    let s := s.modAdc fun x => { x with starveAt := kvSet (fun _ => 0) x.starveAt g 0 }
    let s := s.cond (decide (512 < est.offset) || decide (20000 < est.gain) || decide (32000 < est.skew))
      fun s => s.excludeGroup g 6
    let below := decide (res.offset < 4) && decide (res.gain < 200) && decide (res.skew < 1000)
    let above := decide (16 < res.offset) || decide (800 < res.gain) || decide (4000 < res.skew)
    if below then s.setConv g true
    else if above && s.bit (F.ADC_STAT_CONV g) then (s.setConv g false).event 0x0909 g
    else s)

/-- R161: 100 ms of starvation clear CONV. -/
def execCalStarveTimeout (t : Nat) (g : Fin 3) (s : State) : Host.Outcome State Fault Refusal :=
  let s := s.upTo t
  let at_ := kvGet (fun _ => 0) s.adc.starveAt g
  .next (if at_ = 0 ∨ s.now + 1 < at_ + 100000000 then s
  else (s.setConv g false).event 0x0908 g)

/-- R159: a group without a result 300 ns after a scheduled sample is excluded. -/
def execSliceSilence (t : Nat) (g : Fin 3) (s : State) : Host.Outcome State Fault Refusal :=
  let s := s.upTo t
  .next (if s.converting then s.excludeGroup g 6 else s)

/-- R180, R183: a castling instant. -/
def execCastlingInstant (t : Nat) (s : State) : Host.Outcome State Fault Refusal :=
  let s := s.upTo t
  .next s.castInstant

/-- R183: a write of FORCE, in READY, RUN and LIMP, ignored while a ramp runs. -/
def execCastlingForce (t : Nat) (s : State) : Host.Outcome State Fault Refusal :=
  let s := s.upTo t
  .next (if s.stores = true ∧ (s.mode = 2 ∨ s.mode = 3 ∨ s.mode = 4) ∧ s.bit F.ADC_CAST_RAMPING = false then s.castInstant
  else s)

/-! ## The test-DAC procedure (R177, R184, R185) -/

/-- A write of ADC_TDAC_CTL with START; groups that PLLB's loss holds start nothing (R156). -/
def execTdacStart (t : Nat) (groups : BitVec 3) (inputs : BitVec 17) (s : State) :
    Host.Outcome State Fault Refusal :=
  let s := s.upTo t
  .next (if s.anaOn = false ∨ s.stores = false then s
  else if s.mode ≠ 2 then s.each [0, 1, 2] fun s g => s.hi (F.ADC_STAT_WR_IGN g)
  else
    let s := (s.wr F.ADC_TDAC_CTL_GRP_MASK groups.toNat).wr F.ADC_TDAC_CTL_IN_MASK inputs.toNat
    if s.bit F.ADC_TDAC_CTL_BUSY || !s.converting then s
    else (s.modAdc fun x => { x with tdGroups := groups.toNat, tdInputs := inputs.toNat }).hi
      F.ADC_TDAC_CTL_BUSY)

/-- The procedure is aborted (R184). -/
def State.tdacAbort (s : State) : State :=
  (s.each ([0, 1, 2].filter (fun g => s.adc.tdGroups.testBit g)) fun s g =>
    s.hi (F.ADC_TDAC_RES_ABORT g)).lo F.ADC_TDAC_CTL_BUSY

/-- The procedure ends: an input fails that lacks the mean of a code or has one beyond R184's limit; exclusion or
reinstatement, and event 0x090B. Groups that PLLB's loss holds convert nothing, and the procedure waits (R156). -/
def execTdacComplete (t : Nat) (res : List TdacMean) (s : State) : Host.Outcome State Fault Refusal :=
  let s := s.upTo t
  .next (if !s.bit F.ADC_TDAC_CTL_BUSY then s
  else if s.mode ≠ 2 then s.tdacAbort
  else if !s.converting then s
  else
    let ins := s.adc.tdInputs
    let groups := [0, 1, 2].filter (fun g => s.adc.tdGroups.testBit g)
    let s := s.each groups fun s g =>
      let good (i c : Nat) : Bool := res.any fun m => m.group == g && m.input == i && m.dac == c
      let near (m : TdacMean) : Bool := decide ((m.sum - ((m.dac : Int) - 2048) * 256).natAbs ≤ 768)
      let bad (i : Nat) : Bool := ins.testBit i && !([0x100, 0x800, 0xF00].all (good i)
        && res.all (fun m => m.group != g || m.input != i || near m))
      let mask := (List.range 17).foldl (fun m i => if bad i then m + 2 ^ i else m) 0
      let s := s.setReg (R.ADC_TDAC_RES g) (BitVec.ofNat 32 (mask + 2 ^ 31))
      let core := [0, 1, 2, 3, 4, 5, 6, 7, 16]
      let s := if core.any bad then s.excludeGroup g 5
        else if mask = 0 ∧ core.all (fun i => ins.testBit i) ∧ s.excluded g ∧ s.bit (F.ADC_STAT_CONV g)
            ∧ ([18, 20, 21, 22, 23].all fun i => kvGet (fun _ => 0) s.adc.icRun (g * 24 + i) == 0) then
          let s := (s.lo (F.ADC_STAT_EXCL g)).lo (F.ADC_STAT_EXCL_CAUSE g)
          let s := s.modAdc fun x => { x with loops := x.loops.filter (fun e => e.1 % 3 != g) }
          s.cond (g == 1) fun s => { s with saf := { s.saf with adcbLost := false } }
        else s
      s.event 0x090B g
    s.lo F.ADC_TDAC_CTL_BUSY)

/-- Leaving READY aborts the procedure. -/
def execTdacAbort (t : Nat) (s : State) : Host.Outcome State Fault Refusal :=
  let s := s.upTo t
  .next (if s.bit F.ADC_TDAC_CTL_BUSY ∧ s.mode ≠ 2 then s.tdacAbort else s)

/-- R187: writing 1 to SAT clears both counters. -/
def execAdcCntSatClear (t : Nat) (g : Fin 3) (s : State) : Host.Outcome State Fault Refusal :=
  let s := s.upTo t
  .next (if s.anaOn && s.stores then s.clearCounts (R.ADC_CNT g) else s)

/-- R187: writing 1 to SAT0 or SAT1 clears that count. -/
def execAdcNomajSatClear (t : Nat) (a : Fin 2) (s : State) : Host.Outcome State Fault Refusal :=
  let s := s.upTo t
  .next (if s.anaOn = false ∨ s.stores = false then s
  else if a = 0 then (s.lo F.ADC_NOMAJ_CNT0).clearBit F.ADC_NOMAJ_SAT0
  else (s.lo F.ADC_NOMAJ_CNT1).clearBit F.ADC_NOMAJ_SAT1)

end Sys2Proof.Machine
end

