-- ==== Sys2Proof/Machine/Float.lean ====
section
/-!
DEFINITION. Fesil's arithmetic (R254, R255): IEEE 754 single precision, round to nearest even, subnormals
flushed to zero, on plain integers.
-/

namespace Sys2Proof.Machine

/-- A single-precision value. A finite value is (−1)^neg · m · 2^e. -/
inductive FVal where
  | nan
  | inf (neg : Bool)
  | fin (neg : Bool) (m : Nat) (e : Int)
  deriving DecidableEq, Repr

/-- The value a word holds; subnormal operands read as zero (R254). -/
def fDecode (w : BitVec 32) : FVal :=
  let n := w.toNat
  let neg := decide (2 ^ 31 ≤ n)
  let ex : Nat := n / 2 ^ 23 % 256
  let fr := n % 2 ^ 23
  if ex = 255 then (if fr = 0 then .inf neg else .nan)
  else if ex = 0 then .fin neg 0 0
  else .fin neg (2 ^ 23 + fr) ((ex : Int) - 150)

def signBit (neg : Bool) : Nat := if neg then 2 ^ 31 else 0

/-- Not a number: an all-ones exponent and a payload that is not 0. -/
def fNan : BitVec 32 := 0x7F800001#32 ||| (Config.nanBits &&& 0x807FFFFF#32)

def fInf (neg : Bool) : BitVec 32 := BitVec.ofNat 32 (signBit neg + 0x7F800000)

def fZero (neg : Bool) : BitVec 32 := BitVec.ofNat 32 (signBit neg)

/-- Rounds m · 2^e (a little more where `sticky`) to nearest even, flushing subnormal results. -/
def fRound (neg : Bool) (m : Nat) (e : Int) (sticky : Bool) : BitVec 32 :=
  if m = 0 then fZero neg
  else
    let len := Nat.log2 m + 1
    let r : Nat × Int :=
      if len ≤ 24 then (m * 2 ^ (24 - len), e - (24 - len : Nat))
      else
        let sh := len - 24
        let q := m / 2 ^ sh
        let rem := m % 2 ^ sh
        let half := 2 ^ (sh - 1)
        let up := decide (half < rem) || (rem == half && (sticky || q % 2 == 1))
        let q := if up then q + 1 else q
        if q = 2 ^ 24 then (2 ^ 23, e + (sh + 1 : Nat)) else (q, e + (sh : Nat))
    let b := r.2 + 150
    if 255 ≤ b then fInf neg
    else if b ≤ 0 then fZero neg
    else BitVec.ofNat 32 (signBit neg + b.toNat * 2 ^ 23 + (r.1 - 2 ^ 23))

/-- Rounds a signed integer times 2^e. -/
def fOfInt (x : Int) (e : Int) : BitVec 32 := fRound (decide (x < 0)) x.natAbs e false

/-- The signed sum of two finite values, exactly. -/
def exactAdd (n1 : Bool) (m1 : Nat) (e1 : Int) (n2 : Bool) (m2 : Nat) (e2 : Int) : Int × Int :=
  let e := min e1 e2
  let a : Int := ((m1 * 2 ^ (e1 - e).toNat : Nat) : Int)
  let b : Int := ((m2 * 2 ^ (e2 - e).toNat : Nat) : Int)
  ((if n1 then -a else a) + (if n2 then -b else b), e)

def addVal (x y : FVal) : BitVec 32 :=
  match x, y with
  | .nan, _ | _, .nan => fNan
  | .inf a, .inf b => if a = b then fInf a else fNan
  | .inf a, _ => fInf a
  | _, .inf b => fInf b
  | .fin n1 m1 e1, .fin n2 m2 e2 =>
    let r := exactAdd n1 m1 e1 n2 m2 e2
    if r.1 = 0 then fZero (n1 && n2) else fOfInt r.1 r.2

def FVal.neg : FVal → FVal
  | .nan => .nan
  | .inf a => .inf (!a)
  | .fin n m e => .fin (!n) m e

def FVal.finite : FVal → Bool
  | .fin .. => true
  | _ => false

def fFinite (w : BitVec 32) : Bool := (fDecode w).finite

def fAdd (a b : BitVec 32) : BitVec 32 := addVal (fDecode a) (fDecode b)
def fSub (a b : BitVec 32) : BitVec 32 := addVal (fDecode a) (fDecode b).neg

/-- The exact product of two values, as a value that need not be representable. -/
def mulVal (x y : FVal) : FVal :=
  match x, y with
  | .nan, _ | _, .nan => .nan
  | .inf a, .inf b => .inf (a != b)
  | .inf a, .fin n m _ | .fin n m _, .inf a => if m = 0 then .nan else .inf (a != n)
  | .fin n1 m1 e1, .fin n2 m2 e2 => .fin (n1 != n2) (m1 * m2) (e1 + e2)

def roundVal : FVal → BitVec 32
  | .nan => fNan
  | .inf a => fInf a
  | .fin n m e => fRound n m e false

def fMul (a b : BitVec 32) : BitVec 32 := roundVal (mulVal (fDecode a) (fDecode b))

/-- fd + fa × fb: fused, or rounded after each operation; the spec does not say which (log entry 20). -/
def fMac (d a b : BitVec 32) (minus : Bool) : BitVec 32 :=
  let p := mulVal (fDecode a) (fDecode b)
  let p := if minus then p.neg else p
  if Config.fmacFused then addVal (fDecode d) p else addVal (fDecode d) (fDecode (roundVal p))

/-- A subnormal operand is flushed to zero (R254). -/
def fFlush (a : BitVec 32) : BitVec 32 := if a &&& 0x7F800000#32 = 0#32 then a &&& 0x80000000#32 else a

def fNeg (a : BitVec 32) : BitVec 32 := fFlush a ^^^ 0x80000000#32
def fAbs (a : BitVec 32) : BitVec 32 := fFlush a &&& 0x7FFFFFFF#32

/-- The order of two words: less, equal, greater, or unordered (FCMP of R255). -/
inductive FCond where
  | lt | eq | gt | un
  deriving DecidableEq, Repr

def fSigned (n : Bool) (m : Nat) : Int := if n then -(m : Int) else (m : Int)

def fCmp (a b : BitVec 32) : FCond :=
  match fDecode a, fDecode b with
  | .nan, _ | _, .nan => .un
  | .inf x, .inf y => if x = y then .eq else if x then .lt else .gt
  | .inf x, _ => if x then .lt else .gt
  | _, .inf y => if y then .gt else .lt
  | .fin n1 m1 e1, .fin n2 m2 e2 =>
    let r := (exactAdd n1 m1 e1 (!n2) m2 e2).1
    if r < 0 then .lt else if r = 0 then .eq else .gt

def fLt (a b : BitVec 32) : Bool := fCmp a b == .lt

/-- a ≥ b; false where they do not order. -/
def fAtLeast (a b : BitVec 32) : Bool := fCmp a b == .eq || fCmp a b == .gt

def fMin (a b : BitVec 32) : BitVec 32 :=
  match fCmp a b with
  | .un => Config.minMaxNan false a b
  | .gt => fFlush b
  | _ => fFlush a

def fMax (a b : BitVec 32) : BitVec 32 :=
  match fCmp a b with
  | .un => Config.minMaxNan true a b
  | .lt => fFlush b
  | _ => fFlush a

/-- Clamp to ±|limit|. -/
def fClamp (x l : BitVec 32) : BitVec 32 := fMax (fNeg (fAbs l)) (fMin x (fAbs l))

/-- Quotient of two finite non-zero magnitudes, rounded. -/
def fQuot (neg : Bool) (m1 : Nat) (e1 : Int) (m2 : Nat) (e2 : Int) : BitVec 32 :=
  let n := m1 * 2 ^ 64
  fRound neg (n / m2) (e1 - e2 - 64) (n % m2 != 0)

/-- Division: by zero an infinity of the dividend's sign, 0 ÷ 0 a NaN (R254). -/
def fDiv (a b : BitVec 32) : BitVec 32 :=
  match fDecode a, fDecode b with
  | .nan, _ | _, .nan => fNan
  | .inf _, .inf _ => fNan
  | .inf x, .fin n m _ => if m = 0 then fInf x else fInf (x != n)
  | .fin n _ _, .inf y => fZero (n != y)
  | .fin n1 m1 e1, .fin n2 m2 e2 =>
    if m2 = 0 then (if m1 = 0 then fNan else fInf n1)
    else if m1 = 0 then fZero (n1 != n2)
    else fQuot (n1 != n2) m1 e1 m2 e2

def fOne : BitVec 32 := 0x3F800000#32

def fRcp (a : BitVec 32) : BitVec 32 := fDiv fOne a

/-- Square root, rounded; a negative operand gives 0 (R254). -/
def fSqrt (a : BitVec 32) : BitVec 32 :=
  match fDecode a with
  | .nan => fNan
  | .inf n => if n then fZero false else fInf false
  | .fin n m e =>
    if m = 0 then fZero n
    else if n then fZero false
    else
      let odd := e % 2 != 0
      let m := if odd then m * 2 else m
      let e := if odd then e - 1 else e
      let x := m * 2 ^ 60
      let r := isqrt x
      fRound false r (e / 2 - 30) (r * r != x)

/-- 1 ÷ √fs, rounded once; a negative operand gives a NaN (log entry 21). -/
def fRsq (a : BitVec 32) : BitVec 32 :=
  match fDecode a with
  | .nan => fNan
  | .inf n => if n then fNan else fZero false
  | .fin n m e =>
    if m = 0 then fInf false
    else if n then fNan
    else
      let odd := e % 2 != 0
      let m := if odd then m * 2 else m
      let e := if odd then e - 1 else e
      let x := 2 ^ 120 / m
      let r := isqrt x
      fRound false r (-(e / 2) - 60) (r * r != x || 2 ^ 120 % m != 0)

/-- Truncates to an integer; a NaN gives 0, an infinity `big` (R254). -/
def fTrunc (a : BitVec 32) (big : Int) : Int :=
  match fDecode a with
  | .nan => 0
  | .inf n => if n then -big else big
  | .fin n m e =>
    let v : Nat := if 0 ≤ e then m * 2 ^ e.toNat else m / 2 ^ (-e).toNat
    if n then -(v : Int) else (v : Int)

/-- m · 2^e times 2^k, rounded to the nearest integer, halves to even. -/
def scaleRound (m : Nat) (e : Int) : Nat :=
  if 0 ≤ e then m * 2 ^ e.toNat
  else
    let d := 2 ^ (-e).toNat
    let q := m / d
    let r := m % d
    if 2 * r < d then q else if d < 2 * r then q + 1 else if q % 2 = 0 then q else q + 1

/-- Rounds a value times 2^k to the nearest integer. -/
def fNearest (a : BitVec 32) (k : Int) (big : Int) : Int :=
  match fDecode a with
  | .nan => 0
  | .inf n => if n then -big else big
  | .fin n m e =>
    let v := scaleRound m (e + k)
    if n then -(v : Int) else (v : Int)

/-! ## Sine and cosine (R255: error at most 2^-22) -/

/-- sin of x radians, in units of 2^-40, by its series; x within ±π/2. -/
def sinSeries (x : Int) : Int :=
  let one : Int := 1099511627776
  let x2 := (x * x).fdiv one
  let step (acc : Int) (k : Int) : Int := one - ((x2 * acc).fdiv one).fdiv k
  (x * step (step (step (step (step (step (step one 210) 156) 110) 72) 42) 20) 6).fdiv one

/-- sin of an angle in 2^-16 turn, in units of 2^-40. -/
def sinFix (ang : Nat) : Int :=
  let a := ang % 65536
  let h := a % 32768
  let q := if h ≤ 16384 then h else 32768 - h
  let v := sinSeries ((q : Int) * 6908435304715 / 65536)
  if a < 32768 then v else -v

/-- Entry `k` of the motion engine's sine table: 4,096 entries in Q1.15, +1.0 as 0x7FFF (R280). -/
def sineRom (k : Nat) : Int := min 32767 (roundDiv (sinFix (16 * (k % 4096)) * 32768) (2 ^ 40))

/-- The largest distance of a result of SINCOS from `sinFix`, in units of 2^-40: 2^-22 less 64 for `sinFix` itself (log
entry 22). -/
def sinLim : Int := 262144 - 64

/-- A result of SINCOS: the value with a free error, rounded, where that stays within the bound; else the value rounded
(R255). -/
def sinOut (ang : Nat) (cos : Bool) : BitVec 32 :=
  let x := sinFix (if cos then ang + 16384 else ang)
  let w := fOfInt (x + max (-sinLim) (min sinLim (Config.sincosErr (ang % 65536) cos))) (-40)
  if (fNearest w 40 0 - x).natAbs ≤ sinLim.toNat then w else fOfInt x (-40)

/-- sin and cos of an angle as SINCOS gives them: within 2^-22 of the true value, the error itself free. -/
def fSinCos (ang : Nat) : BitVec 32 × BitVec 32 := (sinOut ang false, sinOut ang true)

/-- The sum of FDOT's four products; which association the lanes use is free (log entry 20). -/
def fSum4 (p q r s : BitVec 32) : BitVec 32 :=
  match Config.fdotForm with
  | 0 => fAdd (fAdd (fAdd p q) r) s
  | 1 => fAdd (fAdd p q) (fAdd r s)
  | 2 => fAdd p (fAdd q (fAdd r s))
  | 3 => fAdd (fAdd p r) (fAdd q s)

/-- CVFA: turns to an angle, modulo one turn, to nearest; a NaN gives 0, an infinity a free value (R254, log
entry 21). -/
def fAngle (a : BitVec 32) : BitVec 32 :=
  match fDecode a with
  | .inf n => Config.angleOfInf n &&& 0xFFFF#32
  | _ => BitVec.ofNat 32 (wrapN 16 (fNearest a 16 0))

end Sys2Proof.Machine
end

