-- ==== Sys2Proof/Machine/Field.lean ====
section
/-!
DEFINITION. The field controller (R214 to R236): the angle source and its blend, phase advance, the
observer's confidence, the plausibility check, coast and re-acquisition, starts and catches.
-/

namespace Sys2Proof.Machine

/-- The angle of a vector in 2^-16 turn, by bisection of the first quadrant; 0 for the zero vector. -/
def quadAngle : Nat → Nat → Int → Int → Nat
  | 0, h, _, _ => h
  | n + 1, h, x, y =>
    let m := h + 2 ^ n
    if 0 ≤ y * sinFix (m + 16384) - x * sinFix m then quadAngle n m x y else quadAngle n h x y

def vecAngle (x y : Int) : Nat :=
  if x = 0 ∧ y = 0 then 0
  else if 0 ≤ x ∧ 0 ≤ y then quadAngle 14 0 x y % 65536
  else if x < 0 ∧ 0 ≤ y then (16384 + quadAngle 14 0 y (-x)) % 65536
  else if x < 0 then (32768 + quadAngle 14 0 (-x) (-y)) % 65536
  else (49152 + quadAngle 14 0 (-y) x) % 65536

/-- Signed difference of two angles in 2^-16 turn (R9). -/
def angDiff (x y : Nat) : Int := signed 16 (x % 65536 + 65536 - y % 65536)

namespace State

/-! ## Fesil's banks and words that the field controller reads (R251, R252) -/

/-- A word of the coefficient and table memory. -/
def coefW (s : State) (addr : Nat) : BitVec 32 := kvGet (fun _ => 0#32) s.fsl.coef (addr / 4)

def putCoef (s : State) (addr : Nat) (w : BitVec 32) : State :=
  { s with fsl := { s.fsl with coef := kvSet (fun _ => 0#32) s.fsl.coef (addr / 4) w } }

/-- Base address of an axis's active bank and of its state words. -/
def bankBase (s : State) (a : Nat) : Nat := 0x800 * a + 0x400 * s.rd (F.FSL_SP_CTL_ACT_BANK a)
def stateBase (a : Nat) : Nat := 0x1000 + 0x400 * a

def bankW (s : State) (a off : Nat) : BitVec 32 := s.coefW (s.bankBase a + off)
def stateW (s : State) (a off : Nat) : BitVec 32 := s.coefW (stateBase a + off)

/-- FLAGS of the active bank. -/
def ffEn (s : State) (a : Nat) : Bool := (s.bankW a 0x20).toNat % 2 == 1

/-- ω under R10 as rad/s (OMEGA of R256): × 2π ÷ 65,536. -/
def omegaF (w : Int) : BitVec 32 := fMul (fOfInt w (-16)) 0x40C90FDB#32

/-! ## The angle source (R215, R217, R307) -/

/-- The primary source is VALID in the latest snapshot and not treated as failed. -/
def primaryOk (s : State) (a : Nat) : Bool := (s.pos a).snap.valid && !(s.fc a).implausible

def confGood (s : State) (a : Nat) : Bool :=
  decide (s.rd (F.FSL_FC_OBS_CONF_MIN a) ≤ s.rd (F.FSL_FC_STAT_CONF a))

/-- STATE frames are arriving under the loss rule of R313. -/
def stateArriving (s : State) (a : Nat) : Bool :=
  (s.hov a).rx.isSome && decide ((s.hov a).lost < max 1 (s.rd F.MOT_HOV_POL_MISS_N))

/-- MT_ext of R304 at the update event. -/
def mtExt (s : State) (a : Nat) : Nat :=
  match (s.hov a).rx with
  | none => 0
  | some r =>
    wrapN 32 ((r.mt : Int) + looseDiv 1 (r.spd * (((s.fsa a).evCt : Int) - r.tcap)) 1000000000)

/-- Is a position between two bounds, counted upward from the lower one? -/
def between (x lo hi : Nat) : Bool := decide (0 ≤ signed 32 (x + 2 ^ 32 - lo)) && decide (0 ≤ signed 32 (hi + 2 ^ 32 - x))

/-- The multi-turn position of the latest snapshot. -/
def snapMt (s : State) (a : Nat) : Nat := (s.pos a).snap.mt

/-- The observer's angle and speed. -/
def observerAngle (s : State) (a : Nat) : Nat × Int :=
  (s.rd (F.FSL_FC_OBSA_OBS_ANG a), signed 32 (s.rd (F.FSL_FC_OBSS_OBS_SPD a)))

/-- The chain neighbour's angle and speed. -/
def chainAngle (s : State) (a : Nat) : Nat × Int :=
  (s.mtExt a % 65536, match (s.hov a).rx with
    | some r => r.spd
    | none => 0)

/-- ADDR of the generator: bits 47:36 of its accumulator (R280). -/
def genAddr (s : State) (a : Nat) : Nat := (s.mot a).acc / 2 ^ 36 % 4096

/-- R307: the source of an axis that holds or shares a vehicle. Where its rows name none, a running I/f start gives its angle
(R225, log entry 120). -/
def segmentPick (s : State) (a : Nat) : Nat × Nat × Int :=
  let sn := (s.pos a).snap
  let fine := s.primaryOk a && sn.ref == 2
  if s.hovTaker a && !fine && s.stateArriving a then (5, s.chainAngle a)
  else if fine && between sn.mt (s.rd (F.MOT_HOV_TRN_LO_TRN_LO a)) (s.rd (F.MOT_HOV_TRN_HI_TRN_HI a)) then
    (1, sn.angle, sn.speed)
  else if s.confGood a then (3, s.observerAngle a)
  else if s.stateArriving a then (5, s.chainAngle a)
  else if (s.fc a).ifAt.isSome then (4, s.genAddr a * 16, truncDiv (s.mot a).genSpd 1000000000)
  else (0, (s.fc a).thetaOut, 0)

/-- The rows of R215: SRC_USED, the source's angle and its speed. -/
def sourceRow (s : State) (a : Nat) : Nat × Nat × Int :=
  let f := s.fc a
  let sn := (s.pos a).snap
  if s.segment a && s.running a then s.segmentPick a
  else if f.ifAt.isSome then (4, s.genAddr a * 16, truncDiv (s.mot a).genSpd 1000000000)
  else if s.primaryOk a && sn.ref != 0 then (1, sn.angle, sn.speed)
  else if a == 0 && s.axes.length == 1 && s.bit (F.FSL_FC_CFG_USE_AUX 0)
      && (s.pos 1).snap.valid && (s.pos 1).snap.ref == 2 then
    (2, (s.pos 1).snap.angle, (s.pos 1).snap.speed)
  else if s.confGood a then (3, s.observerAngle a)
  else (0, f.thetaOut, 0)

/-- The source at an update. Between a re-acquisition and the release an angle that no row gives is the re-acquired one, carried
on at its speed, so that the restart sets are formed with it (R235, log entry 120). -/
def fieldPick (s : State) (a : Nat) : Nat × Nat × Int :=
  let f := s.fc a
  if s.bit (F.FSL_FC_STAT_COAST a) then
    if !f.reacqDone then (6, f.thetaOut, 0)
    else
      let p := s.sourceRow a
      if p.1 = 0 then
        (6, wrapN 16 ((f.thetaOut : Int) + (if f.reacqNew then 0 else truncDiv (f.omega * (s.fsa a).upd) 1000000000)), f.omega)
      else p
  else s.sourceRow a

/-- MOD of R256. -/
def modulating (s : State) (a : Nat) : Bool :=
  s.bit (F.PWM_STAT_OUT_EN a) && (s.uzAx a).gate == .free && !s.bit (F.FSL_FC_STAT_CATCH_BUSY a)
    && !s.bit (F.FSL_FC_STAT_COAST a)

/-- The angle used at an update with the blend of R217. -/
def blendAngle (s : State) (a th : Nat) (fresh : Bool) : State :=
  let f := s.fc a
  let len := 2 ^ min 10 (s.rd (F.FSL_FC_CFG_BLEND a))
  let f := if fresh then { f with blendD := angDiff th f.thetaOut, blendLeft := len, blendLen := len } else f
  if f.blendLeft = 0 then s.modFc a fun _ => { f with thetaOut := th % 65536 }
  else
    let dk := truncDiv (f.blendD * f.blendLeft) f.blendLen
    s.modFc a fun _ => { f with thetaOut := wrapN 16 ((th : Int) - dk), blendLeft := f.blendLeft - 1 }

/-- R224: loss of the primary source in RUN is met with LIMP. -/
def limpOnSource (s : State) (a src : Nat) : State :=
  if (src = 2 ∨ src = 3) ∧ s.axMode a = 3 ∧ s.bit (F.FSL_FC_STAT_LIMP_REQ a) = false
      ∧ s.bit (F.FSL_FC_CFG_OBS_ONLY a) = false ∧ (s.segment a && src == 3) = false then
    (((s.hi (F.FSL_FC_STAT_LIMP_REQ a)).event 0x0622 a).activateRow 12 a)
  else s

/-! ## Phase advance (R218, R219) and the configuration -/

/-- The entries of the phase-advance table in use. -/
def padvTable (s : State) (a : Nat) : List (Nat × Nat) :=
  (List.range (s.rd (F.FSL_FC_CFG_PADV_N a) + 1)).map fun k =>
    (s.rd (F.FSL_FC_PADV_SPD a k), min 0x4000 (s.rd (F.FSL_FC_PADV_BETA a k)))

def risesStrictly : List (Nat × Nat) → Bool
  | [] => true
  | [_] => true
  | x :: y :: l => decide (x.1 < y.1) && risesStrictly (y :: l)

def padvBad (s : State) (a : Nat) : Bool := !risesStrictly (s.padvTable a)

/-- The interpolation of R219 between breakpoints; `s16` is |ω| under R10. -/
def padvAt (s16 : Nat) : List (Nat × Nat) → Nat
  | [] => 0
  | [x] => x.2
  | x :: y :: l =>
    if s16 < y.1 * 65536 then
      (truncDiv ((x.2 : Int) * ((y.1 - x.1) * 65536 : Nat) + ((y.2 : Int) - x.2) * ((s16 : Int) - x.1 * 65536))
        ((y.1 - x.1) * 65536 : Nat)).toNat
    else padvAt s16 (y :: l)

/-- β of R219 at a speed. -/
def beta (s : State) (a : Nat) (w : Int) : Nat :=
  if !s.bit (F.FSL_FC_CFG_PADV_EN a) || s.padvBad a then 0
  else
    let t := s.padvTable a
    let b := match t with
      | x :: _ => if w.natAbs ≤ x.1 * 65536 then x.2 else padvAt w.natAbs t
      | [] => 0
    min 0x4000 b

def pvNamed (s : State) (a : Nat) : Bool :=
  decide (8 ≤ s.rd (F.FSL_FC_SAFE_PV_IN a)) && decide (s.rd (F.FSL_FC_SAFE_PV_IN a) ≤ 13)

/-- CFG_BAD of R219 and R238, with event 0x062C when it rises. -/
def fieldCfg (s : State) (a : Nat) : State :=
  let bad := s.padvBad a
    || (s.bit (F.FSL_FC_CFG_OBS_ONLY a) && !s.pvNamed a)
  let was := s.bit (F.FSL_FC_STAT_CFG_BAD a)
  let s := s.wrB (F.FSL_FC_STAT_CFG_BAD a) bad
  s.cond (bad && !was) fun s => s.event 0x062C a

/-! ## Presets (R229, R235, R305) -/

/-- The voted phase currents of the latest set, and their vector: 2U − V − W and √3 (V − W), in Q1.15. -/
def currentVec (s : State) (a : Nat) : Int × Int :=
  let v := (s.fsa a).last.vals
  let u := v.getD 0 0
  let w := v.getD 2 0
  let v := v.getD 1 0
  (2 * u - v - w, truncDiv ((v - w) * 113512) 65536)

/-- Sine and cosine of the angle in use, in units of 2^-40: during an I/f start the field controller takes them from the
sine table at ADDR and ADDR + 1,024 (R280). -/
def fieldSine (s : State) (a th : Nat) : Int × Int :=
  if (s.fc a).ifAt.isSome then (sineRom (s.genAddr a) * 2 ^ 25, sineRom (s.genAddr a + 1024) * 2 ^ 25)
  else (sinFix th, sinFix (th + 16384))

/-- i_d and i_q in Q1.15 at an angle, from the latest voted set. -/
def idq (s : State) (a th : Nat) : Int × Int :=
  let i := s.currentVec a
  let c := (s.fieldSine a th).2
  let sn := (s.fieldSine a th).1
  (looseDiv 2 (i.1 * c + i.2 * sn) (3 * 1099511627776), looseDiv 3 (i.2 * c - i.1 * sn) (3 * 1099511627776))

/-- Feed-forward of R258 at currents in ampere and a speed; 0 when FF_EN is 0. -/
def feedForward (s : State) (a : Nat) (w : Int) (id iq : BitVec 32) : BitVec 32 × BitVec 32 :=
  if !s.ffEn a then (0#32, 0#32)
  else
    let om := omegaF w
    (fNeg (fMul (fMul om (s.bankW a 0x8)) iq),
     fMul om (fMac (s.bankW a 0xC) (s.bankW a 0x4) id false))

/-- 1 ÷ √3 of a line-to-line voltage in mV, as volts of phase peak. -/
def phasePeak (mv : Int) : BitVec 32 := fMul (fDiv (fOfInt mv 0) 0x447A0000#32) 0x3F13CD3A#32

/-- The presets due at a task start are written to the integrators of slots 0 and 1. -/
def applyPreset (s : State) (a : Nat) : State :=
  let f := s.fc a
  let put (s : State) (d q : BitVec 32) : State :=
    ((s.putCoef (stateBase a) d).putCoef (stateBase a + 4) q).modFc a fun f => { f with preset := 0 }
  match f.preset with
  | 1 =>
    -- first commanded voltage v_d = 0, v_q = sign(ω) E ÷ √3 at zero current
    let e : Int := f.presetE
    let e := if f.omega < 0 then -e else e
    let ff := s.feedForward a f.omega 0#32 0#32
    put s (fNeg ff.1) (fSub (phasePeak e) ff.2)
  | 2 =>
    let i := s.idq a f.thetaOut
    let ifs := s.bankW a 0x10
    let ff := s.feedForward a f.omega (fMul (fOfInt i.1 (-15)) ifs) (fMul (fOfInt i.2 (-15)) ifs)
    put s (fNeg ff.1) (fNeg ff.2)
  | 3 =>
    -- decoupling voltage of the received current, back-EMF weighted with the overlap travelled
    let h := s.hov a
    let (cur, w) : Int × Int := match h.rx with
      | some r => (r.cur, r.spd)
      | none => (0, 0)
    let om := omegaF w
    let iq := fMul (fOfInt cur (-15)) (s.bankW a 0x10)
    let emf := fMul (phasePeak (truncDiv (s.rd (F.FSL_FC_SAFE_KE a) * w) 65536)) (fOfInt h.u (-16))
    put s (fNeg (fMul (fMul om (s.bankW a 0x8)) iq)) emf
  | _ => s

/-! ## Coast (R232 to R236) -/

/-- Uzodar's answer to a coast request (R233). -/
def uzCoast (s : State) (a : Nat) : State :=
  if !s.safeOn then s
  else if !s.measured then s.activateRow 1 a
  else
    let ke := s.uz (F.FSL_FC_SAFE_KE a)
    let pv := s.uz (F.FSL_FC_SAFE_PV_IN a)
    match s.frameGood a, ke with
    | some f, k + 1 =>
      let e := (k + 1) * f.speed.natAbs
      let s := s.modUz a fun u => { u with coast := true, hiRun := 0 }
      if s.emfAtLeast a e 9 10 then
        match s.pickHalf a with
        | some u => if s.refused a u then s.activateRow 0 a else
            (s.putGate a (.short u) .coast).hi (F.FSL_FC_STAT_COAST_ASC a)
        | none => s.activateRow 0 a
      else s.putGate a .allOff .coast
    | _, _ =>
      if 8 ≤ pv ∧ pv ≤ 13 then
        (s.modUz a fun u => { u with coast := true, hiRun := 0 }).putGate a .allOff .coast
      else s.activateRow 0 a

/-- Entry to coast (R232), which aborts a handover (R313). -/
def enterCoast (s : State) (a : Nat) : State :=
  let s := s.hi (F.FSL_FC_STAT_COAST a)
  let s := s.modFc a fun f => { f with coastAt := s.now, reacqDone := false, hist := [],
                                       prevCand := none, prevVec := none,
                                       ifAt := none, brakeAt := none, rampAt := none }
  let s := s.hovLose a
  let s := s.modMot a fun m => { m with replan := m.plan.isSome, coasted := true }
  let s := s.uzCoast a
  s.event 0x0623 (a + 256 * (s.bit (F.FSL_FC_STAT_COAST_ASC a)).toNat)

/-- Coast ends because the axis leaves RUN and LIMP by a row or by HOLD: see `fieldStopRun`. A success: LIMP
is requested and the integrators are preset (R235). -/
def coastSuccess (s : State) (a : Nat) : State :=
  let short := s.bit (F.FSL_FC_STAT_COAST_ASC a)
  let i := s.idq a (s.fc a).thetaOut
  let ifs := s.bankW a 0x10
  let s := s.modFc a fun f => { f with
    reacqDone := true, reacqNew := true, preset := if short then 2 else 1, noSrc := 0
    -- the measured back-EMF, or KE at the re-acquired speed where no input measures it
    presetE := if s.pvNamed a then f.obsE else s.rd (F.FSL_FC_SAFE_KE a) * f.omega.natAbs / 65536
    rampD := if short then fMul (fOfInt i.1 (-15)) ifs else 0#32
    rampQ := if short then fMul (fOfInt i.2 (-15)) ifs else 0#32 }
  let s := s.applyPreset a
  let s := (s.event 0x0625 a).hi (F.FSL_FC_STAT_LIMP_REQ a)
  s.activateRow 24 a

/-- A STOP of an axis in RUN or LIMP: outputs off, READY, and the brake-release request is withdrawn (R421,
R236). -/
def stopAxis (s : State) (a : Nat) : State :=
  (((s.setAxMode a 2).regate a).modUz a fun u => { u with release := false }).soUpdate

/-- Uzodar releases the coast state at a valley reload that takes a restart set (R235). -/
def coastRelease (s : State) (a : Nat) : State :=
  if s.bit (F.FSL_FC_STAT_COAST a) && (s.fc a).reacqDone then
    let s := (s.lo (F.FSL_FC_STAT_COAST a)).lo (F.FSL_FC_STAT_COAST_ASC a)
    let s := (s.modUz a fun u => { u with coast := false }).regate a
    let held := (s.fc a).heldStop
    let s := s.modFc a fun f => { f with reacqDone := false, rampAt := some s.now, heldStop := none }
    match held with
    | some c => (s.stopAxis a).complete c stOk 0
    | none => s
  else s

/-- The short-circuit angle of R234 and the speed of the current vector, which stood at angle `prev` an
update before. -/
def shortAngle (s : State) (a prev : Nat) : Nat × Int :=
  let i := s.currentVec a
  let ang := vecAngle i.1 i.2
  let upd := max 1 (s.fsa a).upd
  let w := looseDiv 4 (angDiff ang prev * 1000000000) upd
  let wl := fMul (omegaF w) (s.bankW a 0x8)
  let r := fNearest (s.bankW a 0x0) 24 (2 ^ 60)
  let x := fNearest (fAbs wl) 24 (2 ^ 60)
  let at0 := vecAngle x r
  let at0 := if w < 0 then 65536 - at0 % 65536 else at0
  ((ang + 32768 + 65536 - at0 % 65536) % 65536, w)

/-- The angle and speed that the source of the coast state gives at an update, if it gives one (R234). -/
def candidate (s : State) (a : Nat) : Option (Nat × Int) :=
  if s.bit (F.FSL_FC_STAT_COAST_ASC a) then (s.fc a).prevVec.map (s.shortAngle a)
  else if s.confGood a then some (s.observerAngle a)
  else none

/-- The chain neighbour's position with REF fine: its latest ECHO, carried on to the update event, while it is no older
than the loss rule of R313 allows (R234, log entry 102). -/
def neighbourFix (s : State) (a : Nat) : Option (Nat × Int) :=
  let h := s.hov a
  let tick := max 1 (s.rd (F.MOT_CFG_SERVO_DIV a)) * (s.fsa a).upd
  if s.segment a && h.echoFine && decide (s.now ≤ h.echoAt + max 1 (s.rd F.MOT_HOV_POL_MISS_N) * (tick + 2000)) then
    h.echo.map fun r =>
      (wrapN 16 ((r.mt : Int) + looseDiv 1 (r.spd * (((s.fsa a).evCt : Int) - r.tcap)) 1000000000), r.spd)
  else none

/-- One step of re-acquisition (R234). -/
def reacquire (s : State) (a : Nat) : State :=
  match s.neighbourFix a with
  | some c => (s.modFc a fun f => { f with thetaOut := c.1, omega := c.2 }).coastSuccess a
  | none =>
    let f := s.fc a
    let c := s.candidate a
    let i := s.currentVec a
    let near := match c, f.prevCand with
      | some x, some p =>
        decide ((angDiff x.1 (wrapN 16 ((p.1 : Int) + truncDiv (p.2 * (s.fsa a).upd) 1000000000))).natAbs ≤ 1024)
      | _, _ => false
    let w : Int := match c with
      | some x => x.2
      | none => 0
    let hist := if near then (w :: f.hist).take 32 else []
    let sum := hist.sum
    let n : Int := hist.length
    let steady := hist.all fun v => decide (50 * (v * n - sum).natAbs ≤ sum.natAbs)
    let s := s.modFc a fun f => { f with
      hist := hist, prevCand := c
      prevVec := if s.bit (F.FSL_FC_STAT_COAST_ASC a) then some (vecAngle i.1 i.2) else none }
    match c with
    | some x =>
      if 32 ≤ hist.length && steady then
        (s.modFc a fun f => { f with thetaOut := x.1, omega := x.2, hist := [] }).coastSuccess a
      else s
    | none => s

/-! ## The observer and the plausibility check (R220 to R223) -/

/-- Clarke transform (R255). -/
def clarke (u v w : BitVec 32) : List (BitVec 32) :=
  [fDiv (fSub (fSub (fMul 0x40000000#32 u) v) w) 0x40400000#32, fDiv (fSub v w) 0x3FDDB3D7#32]

/-- The phase voltages of the observer in V: what the PWM emitted in the previous interval while the bridge modulates, 0 in
a short circuit, what PV_IN measures in all-off; without such inputs free values from serial number `k` (R220, log entry
26). -/
def phaseVolts (s : State) (a k : Nat) : List (BitVec 32) :=
  let f := s.fc a
  if s.modulating a && f.emitted.length == 3 && f.emitLen != 0 then
    let vdc := fMul (fOfInt ((s.fsa a).last.vals.getD 3 0) (-15)) (s.bankW a 0x14)
    f.emitted.map fun e => fMul vdc (fDiv (fOfInt e 0) (fOfInt (2 * f.emitLen : Nat) 0))
  else match (s.uzAx a).gate with
    | .short _ => [0#32, 0#32, 0#32]
    | _ =>
      if s.pvNamed a then
        let full := fOfInt (10 * s.rd (F.FSL_FC_SAFE_PV_FS a) : Nat) 0
        [0, 1, 2].map fun j =>
          fMul (fOfInt (kvGet (fun _ => 0) s.adc.raw (s.actOf a * 24 + s.rd (F.FSL_FC_SAFE_PV_IN a) + j)) (-15)) full
      else [Config.freeWord k, Config.freeWord (k + 1), Config.freeWord (k + 2)]

/-- The current vector of the latest set in A. -/
def ampVec (s : State) (a : Nat) : List (BitVec 32) :=
  let i (j : Nat) : BitVec 32 := fMul (fOfInt ((s.fsa a).last.vals.getD j 0) (-15)) (s.bankW a 0x10)
  clarke (i 0) (i 1) (i 2)

/-- e = v − R i − L di/dt, the derivative over the latest update interval (R220, log entry 26). -/
def backEmf (s : State) (a k : Nat) : BitVec 32 × BitVec 32 :=
  let p := s.phaseVolts a k
  let v := clarke (p.getD 0 0#32) (p.getD 1 0#32) (p.getD 2 0#32)
  let i := s.ampVec a
  let l := Config.observerL (s.bankW a 0x4) (s.bankW a 0x8)
  let dt := fOfInt (max 1 (s.fsa a).upd : Nat) 0
  let comp (n : Nat) : BitVec 32 :=
    let x := i.getD n 0#32
    let d := fDiv (fMul (fSub x ((s.fc a).obsI.getD n 0#32)) 0x4E6E6B28#32) dt
    fSub (fSub (v.getD n 0#32) (fMul (s.bankW a 0x0) x)) (fMul l d)
  (comp 0, comp 1)

/-- Line-to-line peak of a vector of volts, in mV. -/
def emfPeak (e : BitVec 32 × BitVec 32) : Nat :=
  (fNearest (fMul (fMul 0x3FDDB3D7#32 (fSqrt (fAdd (fMul e.1 e.1) (fMul e.2 e.2)))) 0x447A0000#32) 0 (2 ^ 60)).toNat

/-- One observer step: the back-EMF, the loop that follows it, and the confidence of R221 (R220). -/
def observerStep (s : State) (a : Nat) : State :=
  let k := s.fresh
  let ev := s.backEmf a (k + 1)
  let s := { s with fresh := s.fresh + 4 }
  let e := emfPeak ev
  let r := Config.observerLoop k (100 * (s.rd (F.FSL_FC_OBS_OBS_BW a) + 1)) ev.1 ev.2
  let err := r.2.2 % 2 ^ 31
  let half := s.rd (F.FSL_FC_OBS_E_MIN a) * 500
  let na := if half = 0 then 1 else min half (e - half)
  let da := if half = 0 then 1 else half
  let nb := 134217728 - err
  let raw : Int := (255 * na * nb / (da * 134217728) : Nat)
  let c : Int := s.rd (F.FSL_FC_STAT_CONF a)
  let d := raw - c
  let st := truncDiv d 16
  let st := if st = 0 then (if d < 0 then -1 else if d = 0 then 0 else 1) else st
  let s := s.wr (F.FSL_FC_STAT_CONF a) (c + st).toNat
  let s := s.modFc a fun f => { f with obsE := e }
  let s := s.wr (F.FSL_FC_OBSA_OBS_ANG a) (wrapN 16 ((r.1 / 65536 : Nat) - 16384))
  s.wr (F.FSL_FC_OBSS_OBS_SPD a) (wrapN 32 r.2.1)

/-- The comparison of R223. -/
def plausStep (s : State) (a : Nat) : State :=
  let sn := (s.pos a).snap
  -- outside its train window a segment's source is not used (R307)
  let away := s.segment a && s.running a
    && !between sn.mt (s.rd (F.MOT_HOV_TRN_LO_TRN_LO a)) (s.rd (F.MOT_HOV_TRN_HI_TRN_HI a))
  if !s.bit (F.FSL_FC_CFG_PLAUS_EN a) || away || !sn.valid || sn.ref != 2 || !s.confGood a || (s.fc a).implausible then s
  else
    let d := (angDiff sn.angle (s.rd (F.FSL_FC_OBSA_OBS_ANG a))).natAbs
    let run := if s.rd (F.FSL_FC_PLAUS_PLAUS_TOL a) < d then (s.fc a).plausRun + 1 else 0
    let s := s.modFc a fun f => { f with plausRun := run }
    if max 1 (s.rd (F.FSL_FC_PLAUS_PLAUS_N a)) ≤ run then
      ((s.modFc a fun f => { f with implausible := true }).hi (F.FSL_FC_STAT_PLAUS_FAIL a)).event 0x0620 a
    else s

/-! ## Starts (R225 to R231) -/

/-- The sign of the set-point's direction of the set in use: 1, −1, or 0 (R225, R228). -/
def direction (s : State) (a : Nat) : Int :=
  let w (k : Nat) : BitVec 32 := (s.fsa a).inUse.getD k 0#32
  let fsgn (x : BitVec 32) : Int := if fLt 0#32 x then 1 else if fLt x 0#32 then -1 else 0
  match (w 0).toNat % 4 with
  | 0 => fsgn (w 1)
  | 1 => fsgn (w 2)
  | _ => if (w 0).toNat / 4 % 2 = 1 then sgn (s.mot a).vsp else sgn (signed 32 (w 3).toNat)

/-- The speed below which a rotor counts as still: 0.1 turn/s × CATCH_MIN. -/
def still (s : State) (a : Nat) (w : Int) : Bool :=
  decide (w.natAbs * 10 < s.rd (F.FSL_FC_CATCH_CATCH_MIN a) * 65536)

/-- A primary source angle of REF fine or coarse is available. -/
def primaryAngle (s : State) (a : Nat) : Bool := s.posValid a && !(s.fc a).implausible && s.posRef a != 0

/-- An I/f start begins: accumulator, generator speed and reserve 0 (R225, R281, R292). -/
def startIf (s : State) (a : Nat) : State :=
  let s := s.modMot a fun m => { m with acc := 0, genSpd := 0, genAt := s.now, resTold := false }
  let s := (s.lo (F.MOT_GEN_RSV a)).lo (F.MOT_STAT_RES_SAT a)
  s.modFc a fun f => { f with ifAt := some s.now, ifRun := 0, ifNeg := decide (s.direction a < 0) }

/-- The I/f start ends in success: the axis takes the source, with a blend (R225). -/
def endIf (s : State) (a : Nat) : State := (s.genStop a).modFc a fun f => { f with ifAt := none, ifRun := 0 }

/-- A start decision for |ω| below CATCH_MIN: 0 normal, 1 I/f, 2 no angle (R228). -/
def stillRow (s : State) (a : Nat) : Nat :=
  if s.primaryAngle a then 0 else if s.bit (F.FSL_FC_CFG_IF_EN a) then 1 else 2

/-- A catch begins when the START is released: all switches off (R227). -/
def startCatch (s : State) (a : Nat) (c : Cmd) : State :=
  let s := (s.hi (F.FSL_FC_STAT_CATCH_BUSY a)).lo (F.FSL_FC_STAT_CATCH_RES a)
  s.modFc a fun f => { f with held := none, catch_ := some (c, s.now), diode := false }

/-- The catch ends with a result; its START completes with a status. -/
def endCatch (s : State) (a res status : Nat) (c : Cmd) : State :=
  let s := ((s.lo (F.FSL_FC_STAT_CATCH_BUSY a)).wr (F.FSL_FC_STAT_CATCH_RES a) res).modFc a fun f =>
    { f with catch_ := none }
  let s := s.event 0x0627 (a + 256 * res)
  s.complete c status 0

/-- The axis enters RUN at the end of a catch. -/
def runAfterCatch (s : State) (a res : Nat) (c : Cmd) : State :=
  let s := s.modFc a fun f => { f with fromCatch := true }
  let s := (s.endCatch a res stOk c).enterRun a
  s.modFc a fun f => { f with fromCatch := false }

/-- The voted Vdc of an axis in mV, with VFS of the active bank. -/
def votedVdcMv (s : State) (a : Nat) : Int :=
  fNearest (fMul (fMul (fOfInt (signed 16 (s.rd (F.ADC_VOTED_VALUE (4 * a + 3)))) (-15)) (s.bankW a 0x14))
    0x447A0000#32) 0 (2 ^ 60)

/-- The speed that a braking judges: of the angle source in use, else of a VALID primary source that only counts (R215,
R230). -/
def knownSpeed (s : State) (a : Nat) : Option Int :=
  if s.rd (F.FSL_FC_STAT_SRC_USED a) ≠ 0 then some (s.fc a).omega
  else if s.primaryOk a then some (s.pos a).snap.speed else none

/-- The I/f start and the braking at an update (R225, R230). -/
def startsStep (s : State) (a : Nat) : State :=
  let s := if (s.fc a).ifAt.isSome then
      let run := if s.confGood a then (s.fc a).ifRun + 1 else 0
      let s := s.modFc a fun f => { f with ifRun := run }
      if (s.primaryOk a && (s.pos a).snap.ref == 2) || decide (32 ≤ run) then s.endIf a else s
    else s
  match (s.fc a).brakeAt, s.knownSpeed a with
  | some _, some w =>
    if s.still a w then
      let s := s.modFc a fun f => { f with brakeAt := none }
      match s.stillRow a with
      | 0 => s
      | 1 => s.startIf a
      | _ => (s.stopAxis a).event 0x0628 a
    else s
  | _, _ => s

/-- Whether an angle was found, toward coast (R232). -/
def sourceStep (s : State) (a : Nat) : State :=
  if s.running a = false then s.modFc a fun f => { f with noSrc := 0 }
  else if s.bit (F.FSL_FC_STAT_COAST a) then s
  else if s.rd (F.FSL_FC_STAT_SRC_USED a) = 0 then
    let s := s.modFc a fun f => { f with noSrc := f.noSrc + 1 }
    if 3 ≤ (s.fc a).noSrc then s.enterCoast a else s
  else s.modFc a fun f => { f with noSrc := 0 }

/-- The observer runs in RUN and LIMP and during a catch (R220). -/
def observing (s : State) (a : Nat) : Bool := s.running a || s.bit (F.FSL_FC_STAT_CATCH_BUSY a)

/-- The field controller's part of the epilogue (R244). -/
def fieldEpilogue (s : State) (a : Nat) : State :=
  let s := if s.observing a then s.observerStep a else s
  let i := s.ampVec a
  let s := s.modFc a fun f => { f with obsI := i }
  let s := s.plausStep a
  let s := s.startsStep a
  s.sourceStep a

/-- The field-control step of the prelude (R243): presets, source, blend, MOD. Answers nothing but the
state; the angles stand in the field controller. -/
def fieldStep (s : State) (a : Nat) : State :=
  let s := s.applyPreset a
  -- an axis in coast tries its source first, so that the task of the success commits a restart set (R234, R235)
  let s := s.cond (s.running a && s.bit (F.FSL_FC_STAT_COAST a) && !(s.fc a).reacqDone) fun s => s.reacquire a
  let p := s.fieldPick a
  let src := p.1
  let was := s.rd (F.FSL_FC_STAT_SRC_USED a)
  let mod := s.modulating a
  let snap := (src == 1 && (s.pos a).snap.snap) || (src == 2 && (s.pos 1).snap.snap)
  let s := s.blendAngle a p.2.1 (mod && (src != was || snap))
  let s := s.modFc a fun f => { f with omega := p.2.2, modOn := mod, reacqNew := false }
  let s := s.wr (F.FSL_FC_STAT_SRC_USED a) src
  let s := s.cond (src != was) fun s => s.event 0x0621 (a + 256 * src)
  s.limpOnSource a src

end State

/-! ## Commands of the field controller -/

/-- R226: REARM latches a new reference, in every mode. -/
def execRearm (t : Nat) (a : Fin 2) (s : State) : Host.Outcome State Fault Refusal :=
  let s := s.upTo t
  .next (if s.ctlOn && s.stores && !s.running a then s.preLatch a else s)

/-- R74: a START held for RUN_OK proceeds to its catch. -/
def execHeldStartRelease (t : Nat) (a : Fin 2) (s : State) : Host.Outcome State Fault Refusal :=
  let s := s.upTo t
  .next (match (s.fc a).held with
    | some (c, _) => if s.bit F.SYS_MODE_RUN_OK then s.startCatch a c else s
    | none => s)

/-- R74: RUN_OK has not risen; the START completes TIMEOUT. -/
def execStartTimeout (t : Nat) (a : Fin 2) (s : State) : Host.Outcome State Fault Refusal :=
  let s := s.upTo t
  .next (match (s.fc a).held with
    | some (c, x) =>
      if s.bit F.SYS_MODE_RUN_OK || decide (s.now < max s.power.wokeAt x + 10000000) then s
      else (s.modFc a fun f => { f with held := none }).complete c stTimeout 0
    | none => s)

/-- R227, R228: the catch result decides the start. `pvSpd` is the rotation of the back-EMF vector fitted
over the catch under R10 and `pvE` its line-to-line peak in mV, both as measured on PV_IN. -/
def execCatchEnd (t : Nat) (a : Fin 2) (pvSpd : Int) (pvE : Nat) (s : State) :
    Host.Outcome State Fault Refusal :=
  let s := s.upTo t
  .next (match (s.fc a).catch_ with
  | none => s
  | some (c, since) =>
    if s.now < since + 2000000 then s else
    let prim := s.posValid a && !(s.fc a).implausible
    let eMin := s.rd (F.FSL_FC_OBS_E_MIN a) * 1000
    let w : Int := if prim then s.posSpeed a else if s.pvNamed a then pvSpd else 0
    let e : Nat := if s.pvNamed a then pvE else s.rd (F.FSL_FC_SAFE_KE a) * w.natAbs / 65536
    let slow := s.still a w || (!prim && decide (2 * e < eMin))
    let ang := if prim && s.posRef a == 2 then s.liveMt a % 65536
      else if 2 * e < eMin then 0 else s.rd (F.FSL_FC_OBSA_OBS_ANG a)
    let s := s.setReg (R.FSL_FC_CATCHV a) (BitVec.ofNat 32 (wrapN 32 w))
    let s := (s.wr (F.FSL_FC_CATCHA_CATCH_ANG a) ang).wrSat (F.FSL_FC_CATCHA_CATCH_E a) (e / 1000)
    let dir := s.direction a
    if decide (s.votedVdcMv a ≤ e) || (s.fc a).diode then (s.endCatch a 5 stVeto c).event 0x0629 a
    else if slow then
      match s.stillRow a with
      | 0 => s.runAfterCatch a 1 c
      | 1 => (s.runAfterCatch a 1 c).startIf a
      | _ => (s.endCatch a 1 stVeto c).event 0x0628 a
    else if dir = 0 ∨ dir = State.sgn w then
      let s := s.runAfterCatch a 2 c
      s.modFc a fun f => { f with omega := w, preset := 1, presetE := e, rampAt := some s.now, rampD := 0#32, rampQ := 0#32 }
    else if s.bit (F.FSL_FC_CFG_BACK_BRAKE a) then
      let s := s.runAfterCatch a 3 c
      s.modFc a fun f => { f with omega := w, brakeAt := some s.now, brakeUp := decide (0 < w) }
    else (s.endCatch a 4 stVeto c).event 0x0628 (a + 256))

/-- R225, R230: IF_TMAX elapses in an I/f start or in catch braking; the axis goes to HOLD. -/
def execIfTimeout (t : Nat) (a : Fin 2) (s : State) : Host.Outcome State Fault Refusal :=
  let s := s.upTo t
  let tmax := max 1 (s.rd (F.FSL_FC_IF_IF_TMAX a)) * 100000000
  let past (x : Option Nat) : Bool := x.any fun x => decide (x + tmax ≤ s.now)
  .next (if past (s.fc a).ifAt || past (s.fc a).brakeAt then (s.event 0x062B a).setAxMode a 5 else s)

/-- R235: 20 ms of coast without success. -/
def execCoastTimeout (t : Nat) (a : Fin 2) (s : State) : Host.Outcome State Fault Refusal :=
  let s := s.upTo t
  .next (if s.bit (F.FSL_FC_STAT_COAST a) && !(s.fc a).reacqDone
      && decide ((s.fc a).coastAt + 20000000 ≤ s.now) then (s.event 0x0626 a).activateRow 23 a
    else s)

end Sys2Proof.Machine
end

