-- ==== Sys2Proof/Machine/Motion.lean ====
section
/-!
DEFINITION. The motion engine (R276 to R292): servo ticks, the angle generator, trapezoids, segment tables,
replacing and halting, virtual limits and the current reserve. Positions are kept in 2^-32 turn; ramp speeds
in 2^-32 turn/s; ramp times in 2^-16 ns.
-/

namespace Sys2Proof.Machine

/-! ## Ramps (R282, R283, R289) -/

/-- One phase from speed `v0` to `v1` (2^-16 turn/s) at `code` (2^-8 turn/s²); with a code of 0 the speed
never changes. -/
def rampOf (v0 v1 code : Nat) : Ramp :=
  if code = 0 then ⟨2 ^ 128, v0 * 65536, 0⟩
  else
    let acc : Int := code * 2 ^ 24
    let dv := (max v0 v1 - min v0 v1) * 65536
    ⟨dv * 65536000000000 / (code * 2 ^ 24), v0 * 65536, if v0 ≤ v1 then acc else -acc⟩

/-- An acceleration at `lo` up to V_BRK and at `hi` above it. -/
def accelRamps (v0 v1 brk lo hi : Nat) : List Ramp :=
  (if v0 < min v1 brk then [rampOf v0 (min v1 brk) lo] else [])
    ++ (if max v0 brk < v1 then [rampOf (max v0 brk) v1 hi] else [])

/-- A deceleration at `hi` above V_BRK and at `lo` below it. -/
def decelRamps (v0 v1 brk lo hi : Nat) : List Ramp :=
  (if max v1 brk < v0 then [rampOf v0 (max v1 brk) hi] else [])
    ++ (if v1 < min v0 brk then [rampOf (min v0 brk) v1 lo] else [])

/-- The distance in 2^-32 turn and the speed in 2^-32 turn/s after `t` (2^-16 ns) of the ramps, and whether
they have ended. -/
def rampAt : List Ramp → Nat → Int × Int × Bool
  | [], _ => (0, 0, true)
  | r :: rs, t =>
    let u : Int := 65536000000000
    let go (t : Nat) : Int × Int :=
      (looseDiv 5 (2 * (r.v0 : Int) * t * u + r.acc * t * t) (2 * 65536000000000 * 65536000000000),
        (r.v0 : Int) + truncDiv (r.acc * t) u)
    if t < r.dur then ((go t).1, (go t).2, false)
    else
      let x := rampAt rs (t - r.dur)
      ((go r.dur).1 + x.1, if rs.isEmpty then (go r.dur).2 else x.2.1, if rs.isEmpty then true else x.2.2)

/-- dacc and ddec of R282 as a fraction (numerator, denominator), in 2^-32 turn. -/
def dRamp (v vlow brk lo hi : Nat) : Int × Nat :=
  let m := min v brk
  let x := max v brk
  (128 * (((m * m : Nat) : Int) - (vlow * vlow : Nat)) * hi + 128 * ((x * x - brk * brk : Nat) : Int) * lo,
    lo * hi)

/-- The distance that `accelRamps` covers from `v0` up to `v1` at A1 and A2: dacc of R282 where v0 is at or below V_BRK, and at
A2 alone above it (log entry 83). -/
def upDist (v1 v0 : Nat) (g : MotRegs) : Int × Nat :=
  if v0 ≤ g.vBrk then dRamp v1 v0 g.vBrk g.a1 g.a2 else (128 * ((v1 * v1 : Nat) - (v0 * v0 : Nat) : Int), g.a2)

/-- vpk² of R282 as a fraction, for a distance of `d` (2^-32 turn). From above V_BRK the ramp up has its A2 part alone, as it is
driven (log entry 83). -/
def vpkSq (v0 : Nat) (g : MotRegs) (d : Int) : Int × Nat :=
  let b2 : Int := (g.vBrk * g.vBrk : Nat)
  if g.vBrk < v0 then
    (d * g.a2 * g.d2 * g.d1 + 128 * ((v0 * v0 * g.d2 * g.d1 : Nat) + b2 * g.a2 * g.d1
      - (b2 - (g.vStop * g.vStop : Nat)) * g.a2 * g.d2), 128 * (g.a2 + g.d2) * g.d1)
  else
  let low : Int × Nat := (d * g.a1 * g.d1 + 128 * ((v0 * v0 * g.d1 + g.vStop * g.vStop * g.a1 : Nat) : Int),
    128 * (g.a1 + g.d1))
  if low.1 ≤ ((g.vBrk * g.vBrk * low.2 : Nat) : Int) then low
  else
    let b := g.vBrk * g.vBrk
    -- distance left above V_BRK, over a1 × d1
    let left := d * g.a1 * g.d1 - 128 * (((b : Int) - (v0 * v0 : Nat)) * g.d1 + ((b : Int) - (g.vStop * g.vStop : Nat)) * g.a1)
    (left * g.a2 * g.d2 + ((b * 128 * (g.a2 + g.d2) * (g.a1 * g.d1) : Nat) : Int),
      128 * (g.a2 + g.d2) * (g.a1 * g.d1))

/-- The square root of a fraction, to a whole 2^-16 turn/s. -/
def rootOf (x : Int × Nat) : Nat := isqrt (x.1.toNat / max 1 x.2)

/-- The ramps of a move over `d` from speed `v0` (R283). A V_STOP above the V_MAX in use, which LIMP can leave, acts as that
V_MAX (log entry 83). -/
def planRamps (v0 vMax : Nat) (g : MotRegs) (d : Int) : List Ramp :=
  let g := { g with vStop := min g.vStop vMax }
  let v := rootOf (vpkSq v0 g d)
  if vMax ≤ v then
    -- a speed above V_MAX, which LIMP can leave, comes down to it first (log entry 83)
    let x := if vMax < v0 then dRamp v0 vMax g.vBrk g.d1 g.d2 else upDist vMax v0 g
    let y := dRamp vMax g.vStop g.vBrk g.d1 g.d2
    let rest := d * (x.2 * y.2 : Nat) - x.1 * y.2 - y.1 * x.2
    let cruise := (rest * 65536000000000).toNat / max 1 (x.2 * y.2 * (vMax * 65536))
    (if vMax < v0 then decelRamps v0 vMax g.vBrk g.d1 g.d2 else accelRamps v0 vMax g.vBrk g.a1 g.a2)
      ++ [⟨cruise, vMax * 65536, 0⟩] ++ decelRamps vMax g.vStop g.vBrk g.d1 g.d2
  else if max v0 g.vStop ≤ v then
    accelRamps v0 v g.vBrk g.a1 g.a2 ++ decelRamps v g.vStop g.vBrk g.d1 g.d2
  else if v0 ≤ g.vStop then
    -- accelerate the whole distance: the speed reached is that of vpk with no deceleration
    let w := isqrt ((d * g.a1 + (128 * v0 * v0 : Nat)).toNat / 128)
    let w := if w ≤ g.vBrk then w else
      isqrt (g.vBrk * g.vBrk + ((d * g.a1 + (128 * v0 * v0 : Nat) - (128 * g.vBrk * g.vBrk : Nat)).toNat * g.a2)
        / (128 * max 1 g.a1))
    accelRamps v0 w g.vBrk g.a1 g.a2
  else
    -- decelerate the whole distance from v0
    let full := dRamp v0 0 g.vBrk g.d1 g.d2
    let left := (full.1 - d * full.2).toNat
    let w := isqrt (left / max 1 (128 * g.d2))
    let w := if w ≤ g.vBrk then w else
      isqrt (g.vBrk * g.vBrk + (left - 128 * g.vBrk * g.vBrk * g.d2) / max 1 (128 * g.d1))
    decelRamps v0 w g.vBrk g.d1 g.d2

/-- Speeds of the profile words: values of 0x8000_0000 and above act as 0x7FFF_FFFF (R294). -/
def capSpeed (w : BitVec 32) : Nat := min w.toNat 0x7FFFFFFF

namespace State

/-- The profile registers as they stand (R288, R294). -/
def motRegs (s : State) (a : Nat) (table : Bool) : MotRegs :=
  { vStart := capSpeed (s.reg (R.MOT_V_START a)), vBrk := capSpeed (s.reg (R.MOT_V_BRK a))
    vMax := capSpeed (s.reg (R.MOT_V_MAX a)), vStop := capSpeed (s.reg (R.MOT_V_STOP a))
    a1 := (s.reg (R.MOT_A1 a)).toNat, a2 := (s.reg (R.MOT_A2 a)).toNat
    d1 := (s.reg (R.MOT_D1 a)).toNat, d2 := (s.reg (R.MOT_D2 a)).toNat
    target := (s.reg (R.MOT_TARGET a)).toNat, base := s.rd (F.MOT_TBL_BASE a) / 16 * 16, table := table }

/-- Validity of a trapezoid (R282). -/
def trapValid (g : MotRegs) : Bool :=
  decide (g.vStart ≤ g.vBrk) && decide (g.vBrk ≤ g.vMax) && decide (g.vStop ≤ g.vBrk) && decide (0 < g.vMax)
    && g.a1 != 0 && g.a2 != 0 && g.d1 != 0 && g.d2 != 0

/-- V_MAX in use: capped by LIMP_SPD in LIMP (R290, R340). -/
def vMaxUsed (s : State) (a : Nat) (g : MotRegs) : Nat :=
  if s.axMode a = 4 then min g.vMax (capSpeed (s.reg R.BLK_LIMP_SPD)) else g.vMax

/-- MT in 2^-32 turn as p_sp follows it. -/
def mtPos (s : State) (a : Nat) : Int := signed 32 (s.snapMt a) * 65536

/-- Signed distance of a target from a position, in 2^-32 turn; MT wraps at 2^32 units. -/
def toTarget (target : Nat) (p : Int) : Int := signed 48 (wrapN 48 ((target : Int) * 65536 - p))

/-- The engine's deceleration to 0 in the present direction, from where p_sp has come to since the latest
tick (R289); `next` starts the waiting profile. In coast it is formed anew at the first tick after it (R290). -/
def motStop (s : State) (a : Nat) (g : MotRegs) (next : Bool) : State :=
  let m := s.mot a
  let r := decelRamps m.vsp.natAbs 0 g.vBrk g.d1 g.d2
  let p := m.psp + looseDiv 9 (m.vsp * 65536 * ((s.now : Int) - m.tickAt)) 1000000000
  s.modMot a fun m =>
    { m with plan := some (.stop p s.now (decide (m.vsp < 0)) r next), stopRegs := g, replan := m.coasted }

/-- The engine halts the profile with the registers of the last GO (R279, R286, R289, R291). -/
def motHaltSelf (s : State) (a : Nat) : State :=
  (s.motStop a (s.mot a).used false).wr (F.MOT_CTL_STATE a) 4

/-- Halts the running profile, unless it is being halted. -/
def motHaltRunning (s : State) (a : Nat) : State :=
  s.cond ((s.mot a).plan.isSome && s.rd (F.MOT_CTL_STATE a) != 4) fun s => s.motHaltSelf a

/-- Plans the trapezoid of the registers `g` from the present p_sp and speed, for a GO, after a table entry or
anew (R282 to R284, R287, R290); v_sp steps to the planned start speed. -/
def motPlan (s : State) (a : Nat) (g : MotRegs) (go table last : Bool) : State :=
  let m := s.mot a
  let dist := toTarget g.target m.psp
  let neg := decide (dist < 0)
  let d : Int := dist.natAbs
  let v := m.vsp.natAbs
  let s := s.wr (F.MOT_CTL_STATE a) 2
  let ddec := dRamp v g.vStop g.vBrk g.d1 g.d2
  if m.vsp ≠ 0 ∧ decide (m.vsp < 0) ≠ neg ∧ table = false then s.motStop a g true
  else if go = true ∧ m.vsp ≠ 0 ∧ d * ddec.2 < ddec.1 then
    ((s.hi (F.MOT_STAT_OVERSHOOT a)).event 0x0B09 a).motStop a g true
  else
    let v0 := if m.vsp = 0 ∧ table = false then g.vStart else v
    let r := planRamps v0 (s.vMaxUsed a g) g d
    s.modMot a fun m => { m with
      vsp := if neg then -(v0 : Int) else v0
      plan := some (.trap m.psp s.now neg (m.psp + dist) r table last), replan := false }

/-- The byte address of table entry `i`, when it lies in TB (R285). -/
def entryAddr (base i : Nat) : Option Nat :=
  let x := base + 16 * i
  if 0x2000 ≤ x ∧ x + 16 ≤ 0x40000 then some x else none

/-- An invalid table entry halts the profile (R286, R287). -/
def motBad (s : State) (a : Nat) : State :=
  ((s.motHaltSelf a).hi (F.MOT_STAT_TBL_BAD a)).event 0x0B07 a

/-- The profile is done (R284, R286). -/
def motDone (s : State) (a : Nat) : State :=
  ((s.modMot a fun m => { m with vsp := 0, plan := none, replan := false }).wr (F.MOT_CTL_STATE a) 6).event
    0x0B01 a

/-- The tick period in ns: SERVO_DIV update intervals (R276). -/
def tickPeriod (s : State) (a : Nat) : Nat := max 1 (s.rd (F.MOT_CFG_SERVO_DIV a)) * (s.fsa a).upd

/-- Starts table entry `i` from the present state (R285, R286). -/
def motEntry (s : State) (a i : Nat) : State :=
  let m := s.mot a
  match entryAddr m.used.base i with
  | none => s.motBad a
  | some x =>
    let fl := (s.coefW (x + 12)).toNat
    let trap := fl / 2 % 2 == 1
    if 8 ≤ fl ∨ (trap ∧ m.trapUsed = true) then s.motBad a
    else
      let per := max 1 (s.tickPeriod a)
      let n := max 1 (((s.coefW x).toNat * 1000 + per - 1) / per)
      let s := (s.wr (F.MOT_CTL_STATE a) 3).wr (F.MOT_CTL_SEG a) (i % 4096)
      s.modMot a fun m => { m with
        plan := some (.seg 0 n (n * per) m.psp m.vsp (signed 32 (s.coefW (x + 4)).toNat * 65536)
          (signed 32 (s.coefW (x + 8)).toNat) (fl % 2 == 1) trap (fl / 4 % 2 == 1))
        replan := false, trapUsed := m.trapUsed || trap, entry := i }

/-- The latched GO starts its profile at a tick (R288, R290). -/
def motBegin (s : State) (a : Nat) (g : MotRegs) : State :=
  let s := s.modMot a fun m => { m with goPend := none, used := g, trapUsed := false }
  if g.table then s.motEntry a 0 else s.motPlan a g true false false

/-- p(u) of R286 at tick `k` of `n`: position and velocity. -/
def segAt (k n h : Nat) (p0 v0 dpos vel : Int) : Int × Int :=
  if n ≤ k then (p0 + dpos, vel)
  else
    let g : Int := 1000000000
    let hh : Int := 65536 * h
    let c2 := 3 * dpos * g - (2 * v0 + vel) * hh
    let c3 := (v0 + vel) * hh - 2 * dpos * g
    (p0 + looseDiv 6 (v0 * hh * k * n * n + c2 * k * k * n + c3 * k * k * k) (1000000000 * n * n * n),
      looseDiv 7 (v0 * hh * n * n + 2 * c2 * k * n + 3 * c3 * k * k) (65536 * max 1 h * n * n))

/-! ## Virtual limits (R284, R291) -/

/-- The virtual limits act: enabled, and their span is below 2^31 units. -/
def limitsAct (s : State) (a : Nat) : Bool :=
  s.bit (F.MOT_CFG_LIM_EN a)
    && decide ((s.rd (F.MOT_LIM_HI_LIM_HI a) + 2 ^ 32 - s.rd (F.MOT_LIM_LO_LIM_LO a)) % 2 ^ 32 < 2 ^ 31)

/-- How far a position lies outside the limits: below (negative), above, or 0 inside; from the
nearer limit. -/
def outside (s : State) (a x : Nat) : Int :=
  let lo := signed 32 (x + 2 ^ 32 - s.rd (F.MOT_LIM_LO_LIM_LO a))
  let hi := signed 32 (s.rd (F.MOT_LIM_HI_LIM_HI a) + 2 ^ 32 - x)
  if 0 ≤ lo ∧ 0 ≤ hi then 0 else if lo < 0 ∧ (0 ≤ hi ∨ lo.natAbs ≤ hi.natAbs) then lo else -hi

/-- A trapezoid whose TARGET lies outside the limits takes the nearer limit in its place (R284). -/
def clipTarget (s : State) (a : Nat) (g : MotRegs) : MotRegs × State :=
  let out := if s.limitsAct a then s.outside a g.target else 0
  if out = 0 then (g, s)
  else
    ({ g with target := if out < 0 then s.rd (F.MOT_LIM_LO_LIM_LO a) else s.rd (F.MOT_LIM_HI_LIM_HI a) },
      (s.hi (F.MOT_STAT_LIM_CLIP a)).event 0x0B03 a)

/-- A trapezoid is refused (R284, R291). -/
def motRefuse (s : State) (a : Nat) : State := (s.hi (F.MOT_STAT_CFG_BAD a)).event 0x0B02 a

/-! ## Sampling -/

/-- The end of a table segment (R286, R287). -/
def segEnd (s : State) (a : Nat) (last trap evt : Bool) : State :=
  let i := (s.mot a).entry
  let s := s.cond evt fun s => s.event 0x0B0A (i % 4096 + 4096 * a)
  if trap && trapValid (s.mot a).used then
    let c := s.clipTarget a (s.mot a).used
    (c.2.modMot a fun m => { m with used := c.1 }).motPlan a c.1 false true last
  else
  -- an invalid trapezoid is not started, and the table continues
  let s := s.cond trap fun s => s.motRefuse a
  if last then s.motDone a
  else s.motEntry a (i + 1)

/-- Samples the running plan at a tick (R276, R282 to R289). -/
def motSample (s : State) (a : Nat) : State :=
  let m := s.mot a
  match m.plan with
  | none => s
  | some (.trap p0 t0 neg target ramps table last) =>
    let x := rampAt ramps ((s.now - t0) * 65536)
    if x.2.2 || ramps.isEmpty then
      let dir : Int := if neg then -1 else 1
      let s := s.modMot a fun m => { m with psp := target, vsp := if table && !last then dir * m.used.vStop else 0 }
      if table && !last then s.motEntry a (m.entry + 1) else s.motDone a
    else
      let v := truncDiv x.2.1 65536
      s.modMot a fun m => { m with psp := p0 + (if neg then -x.1 else x.1), vsp := if neg then -v else v }
  | some (.seg k n h p0 v0 dpos vel last trap evt) =>
    let k := k + 1
    let x := segAt k n h p0 v0 dpos vel
    let s := s.modMot a fun m => { m with psp := x.1, vsp := x.2,
                                          plan := some (.seg k n h p0 v0 dpos vel last trap evt) }
    if n ≤ k then s.segEnd a last trap evt else s
  | some (.stop p0 t0 neg ramps next) =>
    let x := rampAt ramps ((s.now - t0) * 65536)
    let v := truncDiv x.2.1 65536
    let p := p0 + (if neg then -x.1 else x.1)
    if x.2.2 || ramps.isEmpty then
      let s := s.modMot a fun m => { m with psp := p, vsp := 0, plan := none }
      if next then s.motPlan a (s.mot a).used false false false else s.wr (F.MOT_CTL_STATE a) 5
    else s.modMot a fun m => { m with psp := p, vsp := if neg then -v else v }

/-- A trapezoid is formed anew from the present p_sp and v_sp, and after a coast any profile is (R290). -/
def motReplan (s : State) (a : Nat) (coasted : Bool) : State :=
  let m := s.mot a
  match m.plan, coasted with
  | some (.trap _ _ _ _ _ table last), _ => s.motPlan a m.used false table last
  | some (.seg k n h p0 _ dpos vel last trap evt), true =>
    s.modMot a fun m => { m with replan := false
                                 plan := some (.seg 0 (max 1 (n - k)) (h / max 1 n * max 1 (n - k)) m.psp m.vsp
                                   (p0 + dpos - m.psp) vel last trap evt) }
  | some (.stop _ _ _ _ next), true => s.motStop a m.stopRegs next
  | _, _ => s.modMot a fun m => { m with replan := false }

/-- A trapezoid just planned is sampled at the tick that planned it: one with no way to go ends there. -/
def motSettle (s : State) (a : Nat) : State :=
  match (s.mot a).plan with
  | some (.trap ..) => s.motSample a
  | _ => s

/-- p_sp follows MT and v_sp follows SPEED (R278). -/
def motFollow (s : State) (a : Nat) : State :=
  s.modMot a fun m => { m with psp := s.mtPos a, vsp := (s.pos a).snap.speed }

/-- The position difference of R277 and R279 at the latest tick, in MT units. -/
def motError (s : State) (a : Nat) : Int := signed 32 (wrapN 32 ((s.mot a).psp.fdiv 65536 - s.snapMt a))

/-- MT passing a limit by more than LIM_TOL halts the profile, each time it does (R291). -/
def limitCheck (s : State) (a : Nat) : State :=
  let out := s.limitsAct a && decide (s.rd (F.MOT_LIM_TOL_LIM_TOL a) < (s.outside a (s.snapMt a)).natAbs)
  let was := (s.mot a).beyond
  let s := s.modMot a fun m => { m with beyond := out }
  if out && !was then ((s.motHaltRunning a).hi (F.MOT_STAT_LIM_HIT a)).event 0x0B04 a else s

/-- R279: a following error on three consecutive ticks. -/
def followCheck (s : State) (a : Nat) : State :=
  let lim := s.rd (F.MOT_FE_FE_MAX a)
  let run := if lim ≠ 0 ∧ lim < (s.motError a).natAbs ∧ s.bit (F.MOT_STAT_POS_LOST a) = false
    then (s.mot a).feRun + 1 else 0
  let s := s.modMot a fun m => { m with feRun := run }
  if 3 ≤ run then ((s.motHaltRunning a).hi (F.MOT_STAT_FE_ERR a)).event 0x0B05 a else s

/-! ## The current reserve (R292) -/

/-- The reserve at a tick of an I/f start. -/
def reserveStep (s : State) (a : Nat) : State :=
  if !s.bit (F.MOT_CFG_RES_EN a) || (s.fc a).ifAt.isNone then s
  else
    let sn := (s.pos a).snap
    let rot : Option Nat := if s.primaryOk a && sn.ref != 0 then some sn.angle
      else if 0x40 ≤ s.rd (F.FSL_FC_STAT_CONF a) then some (s.rd (F.FSL_FC_OBSA_OBS_ANG a)) else none
    match rot with
    | none => s
    | some r =>
      let phi := (signed 16 (s.genAddr a * 16 + 0x4000 + 65536 - r)).natAbs
      let t := looseDiv 8 (32768 * s.rd (F.MOT_RES_RES_GAIN a) * (phi - s.rd (F.MOT_RES_PHI0 a) : Nat)) (256 * 0x4000)
      let rsv : Int := s.rd (F.MOT_GEN_RSV a)
      let v := if rsv < t then t else max t (rsv - s.rd (F.MOT_RES_RES_DECAY a))
      let cap := signed 16 (s.rd (F.MOT_RESMAX_RES_MAX a)) - signed 16 (s.rd (F.FSL_FC_IF_IF_I a))
      let capped := decide (cap < v)
      let s := (s.wr (F.MOT_GEN_RSV a) (wrapN 16 (min v cap))).wrB (F.MOT_STAT_RES_SAT a) capped
      if capped && !(s.mot a).resTold then
        (s.modMot a fun m => { m with resTold := true }).event 0x0B08 a
      else s

/-! ## The update event (R276, R278, R280, R281) -/

/-- The generator at an update event: its phase, then its speed (R280, R281). -/
def genStep (s : State) (a : Nat) : State :=
  match (s.fc a).ifAt with
  | none => s
  | some _ =>
    let m := s.mot a
    let upd := s.now - m.genAt
    let acc := wrapN 48 ((m.acc : Int) + roundDiv (m.genSpd * 4294967296 * upd) 1000000000000000000)
    let vmax : Int := capSpeed (s.reg (R.MOT_GEN_VMAX a)) * 1000000000
    let step : Int := max 1 (s.rd (F.FSL_FC_IF_IF_ACC a)) * 65536 * upd
    let d := s.direction a
    let v := if d = 0 then m.genSpd else max (-vmax) (min vmax (m.genSpd + d * step))
    let s := s.cond (d != 0) fun s => s.modFc a fun f => { f with ifNeg := decide (d < 0) }
    s.modMot a fun m => { m with acc := acc, genSpd := v, genAt := s.now }

/-- The motion engine at an update event: p_sp follows MT outside RUN and LIMP and in coast; POS_LOST follows the snapshot's
validity in every mode, and p_sp is reset to MT as it clears; updates are counted (R276, R278). -/
def motUpdate (s : State) (a : Nat) : State :=
  let s := s.genStep a
  let s := s.cond (s.running a) fun s => s.modMot a fun m => { m with upds := m.upds + 1 }
  let s := s.cond (!s.running a || s.bit (F.FSL_FC_STAT_COAST a)) fun s => s.motFollow a
  let lost := s.bit (F.MOT_STAT_POS_LOST a)
  -- MT passes a limit in every mode; while ticks run they judge it (R291)
  let s := s.cond (!s.running a) fun s => s.limitCheck a
  if (s.pos a).snap.valid then
    s.cond lost fun s => (s.lo (F.MOT_STAT_POS_LOST a)).motShift a (s.mtPos a - (s.mot a).psp)
  else s.cond (!lost) fun s => (s.hi (F.MOT_STAT_POS_LOST a)).event 0x0B06 a

/-- A servo tick is due: at every SERVO_DIV-th update event since the entry to RUN, once (R276). -/
def tickDue (s : State) (a : Nat) : Bool :=
  let m := s.mot a
  s.running a && (s.fsa a).evAt == s.now && m.upds != m.tickUpd && m.upds % max 1 (s.rd (F.MOT_CFG_SERVO_DIV a)) == 0

/-- v_ref of R277, in the speed format of R10. -/
def vRef (s : State) (a : Nat) : Int :=
  let m := s.mot a
  let lead := looseDiv 9 (m.vsp * 65536 * (((s.fsa a).evAt : Int) - m.tickAt)) 1000000000
  let diff := signed 48 (wrapN 48 (m.psp + lead - (s.snapMt a : Int) * 65536))
  let term := if s.bit (F.MOT_STAT_POS_LOST a) then 0
    else looseDiv 10 (s.rd (F.MOT_CFG_KPOS a) * diff) (10 * 65536)
  satS 32 (m.vsp + term)

/-- The profile's part of a servo tick. -/
def motTick (s : State) (a : Nat) : State :=
  let m := s.mot a
  let s := s.modMot a fun m => { m with tickAt := s.now, tickUpd := m.upds }
  let s := if s.bit (F.FSL_FC_STAT_COAST a) then s
    else
      let s := if m.coasted then (s.motFollow a).modMot a fun m => { m with coasted := false } else s.motSample a
      match m.goPend with
      | some g => (s.motBegin a g).motSettle a
      | none => if m.replan then (s.motReplan a m.coasted).motSettle a else s
  let s := s.limitCheck a
  let s := s.followCheck a
  let s := s.reserveStep a
  let s := s.wr (F.MOT_GEN_ADDR a) (s.genAddr a)
  let s := s.setReg (R.MOT_PSP a) (BitVec.ofNat 32 (wrapN 32 ((s.mot a).psp.fdiv 65536)))
  s.setReg (R.MOT_VSP a) (BitVec.ofNat 32 (wrapN 32 (s.mot a).vsp))

/-- Invalid limits set CFG_BAD (R291). -/
def limCfg (s : State) (a : Nat) : State :=
  s.cond (s.bit (F.MOT_CFG_LIM_EN a) && !s.limitsAct a) fun s => s.hi (F.MOT_STAT_CFG_BAD a)

/-- GO: judged and latched for the next tick (R284, R288, R290, R291). -/
def motGo (s : State) (a : Nat) (table : Bool) : State :=
  let s := s.wrB (F.MOT_CTL_FORM a) table
  let g := s.motRegs a table
  let s := s.limCfg a
  if !table && !trapValid g then s.motRefuse a
  else
    let out := s.outside a g.target
    let now := s.outside a (s.snapMt a)
    -- further outside than MT, which may be back inside
    if s.bit (F.MOT_STAT_LIM_HIT a) && !table && s.limitsAct a
        && ((decide (now ≤ 0) && decide (out < now)) || (decide (0 ≤ now) && decide (now < out))) then
      s.motRefuse a
    else
      let c := if table then (g, s) else s.clipTarget a g
      let s := c.2.modMot a fun m => { m with goPend := some c.1 }
      s.cond (s.mot a).plan.isNone fun s => s.wr (F.MOT_CTL_STATE a) 1

/-- HALT (R289). -/
def motHalt (s : State) (a : Nat) (table : Bool) : State :=
  let s := s.wrB (F.MOT_CTL_FORM a) table
  if s.running a then
    let s := s.modMot a fun m => { m with goPend := none }
    (s.motStop a (s.motRegs a table) false).wr (F.MOT_CTL_STATE a) 4
  else (s.modMot a fun m => { m with goPend := none }).wr (F.MOT_CTL_STATE a) 5

end State

/-- R288: a write of GO, with FORM as written. -/
def execGo (t : Nat) (a : Fin 2) (table : Bool) (s : State) : Host.Outcome State Fault Refusal :=
  let s := s.upTo t
  .next (if s.ctlOn && s.stores then s.motGo a table else s)

/-- R289: a write of HALT, with FORM as written; a GO in the same write is ignored (R290). -/
def execHalt (t : Nat) (a : Fin 2) (table : Bool) (s : State) : Host.Outcome State Fault Refusal :=
  let s := s.upTo t
  .next (if s.ctlOn && s.stores then s.motHalt a table else s)

end Sys2Proof.Machine
end

