-- ==== Sys2Proof/Machine/Handover.lean ====
section
/-!
DEFINITION. Segment handover (R297 to R315): pre-arm, the state stream, taking, sharing and releasing a
vehicle, and what ends a handover early.
-/

namespace Sys2Proof.Machine

namespace State

/-! ## Published set-points (R248 to R250, R338) -/

/-- The Boolean that any of the words is not finite. -/
def anyBad (l : List (BitVec 32)) : Bool := l.any fun x => !fFinite x

/-- The staged set-point words. -/
def stagedSp (s : State) (a : Nat) : List (BitVec 32) := (List.range 8).map fun k => s.reg (R.FSL_SP a k)

/-- The limit ±SP_ILIM: a negative word acts as 0. -/
def iLimit (w : BitVec 32) : BitVec 32 := if fLt w 0#32 then 0#32 else w

/-- A set that a publication refuses: FORM 0b11, or a float word that is not finite (R250). -/
def spRefused (w : List (BitVec 32)) : Bool :=
  (w.getD 0 0#32).toNat % 4 == 3 || anyBad [w.getD 1 0#32, w.getD 2 0#32, w.getD 4 0#32, w.getD 5 0#32]

/-- The window command c_hi, c_lo of a published set, in Q1.15 (R338). -/
def uzCommand (s : State) (a : Nat) (w : List (BitVec 32)) : State :=
  let full := fOfInt (max 1 (s.uz (F.BLK_TSCALE_IFS_U a)) : Nat) 0
  let unit (x : BitVec 32) : Int := fNearest (fDiv x full) 15 (2 ^ 40)
  let put (hi lo : Int) : State := s.modUz a fun u =>
    { u with cmds := (s.now, hi, lo) :: s.recentCmds u.cmds 25500000 }
  if !s.safeOn || spRefused w then s
  else match (w.getD 0 0#32).toNat % 4 with
    | 0 => let c := unit (w.getD 1 0#32); put (max c 0) (min c 0)
    | 1 =>
      let c := unit (fMul (w.getD 2 0#32) (fOfInt (s.uz (F.BLK_TSCALE_KT_U a)) (-8)))
      put (max c 0) (min c 0)
    | _ => let c := unit (iLimit (w.getD 4 0#32)); put c (-c)

/-- A set of words becomes pending, or is refused (R250); it reaches Uzodar's monitor (R338). `own` marks the axis's own
set-points, which a received I* are not (R309). -/
def publishSet (s : State) (a : Nat) (w : List (BitVec 32)) (own : Bool) : State :=
  if spRefused w then (s.hi (F.FSL_SP_CTL_SP_BAD a)).event 0x0607 a
  else
    let s := s.modFsa a fun x => { x with pend := some w, own := if own then w else x.own }
    (s.hi (F.FSL_SP_CTL_PUB_PEND a)).uzCommand a w

/-- PUB: the staged words are published. -/
def publish (s : State) (a : Nat) : State := s.publishSet a (s.stagedSp a) true

/-! ## Geometry (R298, R312) -/

/-- The offset that converts the MT of the neighbour on a side (R298, R304). -/
def hovOfs (s : State) (a : Nat) (up : Bool) : Nat :=
  if up then s.rd (F.MOT_HOV_UP_OFS_UP_OFS a) else s.rd (F.MOT_HOV_DN_OFS_DN_OFS a)

def hovDirUp (s : State) (a : Nat) : Bool := s.bit (F.MOT_HOV_STAT_DIR a)

/-- I* ÷ IFS in Q1.15 and SPEED ÷ 1,024 (R312). -/
def hovCur (s : State) (a : Nat) : Int :=
  satS 16 (fNearest (fDiv (s.fsa a).iStar (s.bankW a 0x10)) 15 (2 ^ 40))
def hovSpd (s : State) (a : Nat) : Int :=
  max (-32767) (min 32767 (truncDiv (s.pos a).snap.speed 1024))

/-- The eight bytes of STATE, RELEASE and ECHO frames (R312). -/
def hovBytes (mt : Nat) (x y : Int) : List Byte := beBytes 4 mt ++ beBytes 2 (wrapN 16 x) ++ beBytes 2 (wrapN 16 y)

/-- The values under the line signature (R302). -/
def lineWords (s : State) (a : Nat) : List Nat :=
  [s.rd (F.PWM_CFG_COUNT a), s.rd (F.PWM_CFG_UPD a), s.rd (F.PWM_CFG_PHASE a), s.rd (F.PWM_PERIOD_PERIOD a),
   (s.car a).ctBase, s.rd (F.MOT_CFG_SERVO_DIV a), (s.bankW a 0x10).toNat]

/-- CFG_BAD of R297 and R316. -/
def hovCfg (s : State) : State :=
  let rises (st en : Nat) : Bool := decide (0 < (en + 2 ^ 32 - st) % 2 ^ 32) && decide ((en + 2 ^ 32 - st) % 2 ^ 32 < 2 ^ 31)
  let inner : Bool := s.bit (F.MOT_HOV_CFG_EN 0) && s.bit (F.MOT_HOV_CFG_EN 1) && s.axes.length == 2
  let nbBad (a : Nat) : Bool :=
    let u := s.neighbour a true
    let d := s.neighbour a false
    if inner then (if a = 0 then u == 2 || d != 2 else u != 2 || d == 2) else u == 2 || d == 2
  let bad (a : Nat) : Bool := s.bit (F.MOT_HOV_CFG_EN a) && s.isSegment &&
    (nbBad a || (inner && nbBad (1 - a))
      || (s.neighbour a true != 0 && !rises (s.rd (F.MOT_HOV_UP_START_UP_START a)) (s.rd (F.MOT_HOV_UP_END_UP_END a)))
      || (s.neighbour a false != 0 && !rises (s.rd (F.MOT_HOV_DN_START_DN_START a)) (s.rd (F.MOT_HOV_DN_END_DN_END a))))
  (s.wrB (F.MOT_HOV_STAT_CFG_BAD 0) (bad 0)).wrB (F.MOT_HOV_STAT_CFG_BAD 1) (bad 1)

/-! ## Releasing (R308 to R310) -/

/-- The axis turns off, returns to READY and sends RELEASE; a completed handover is counted. -/
def hovRelease (s : State) (a : Nat) (counted : Bool) : State :=
  let up := s.hovSideUp a
  let s := s.sendHov a up 0x0B (hovBytes (s.snapMt a) (s.hovSpd a) (s.hovCur a))
  let s := s.event 0x0B14 a
  let s := s.cond counted fun s => s.count (F.MOT_HOV_CNT_OK_CNT a) (F.MOT_HOV_CNT_SAT a) 0x0B1B a
  let s := s.stopAxis a
  { s with hovIdle := some s.now, hovIdleAx := a }

/-- The taker keeps the vehicle: HOLDING, moving from the received I* to its own published set-points, which are in force
again from the next task (R309). -/
def hovHolding (s : State) (a : Nat) : State :=
  let cur := match (s.hov a).rx with
    | some r => r.cur
    | none => 0
  let s := s.publishSet a (s.fsa a).own true
  (s.wr (F.MOT_HOV_STAT_STATE a) 5).modHov a fun h => { h with rampAt := some s.now, rampFrom := cur, rx := none }

/-! ## Taking (R305) -/

/-- The fraction of an overlap already travelled, in 2^-16. -/
def travelled (dirUp : Bool) (edges : Nat × Nat) (mt : Nat) : Nat :=
  let len := (if dirUp then edges.1 + 2 ^ 32 - edges.2 else edges.2 + 2 ^ 32 - edges.1) % 2 ^ 32
  let d := signed 32 (if dirUp then edges.1 + 2 ^ 32 - mt else mt + 2 ^ 32 - edges.1)
  min 65536 (d.toNat * 65536 / max 1 len)

/-- The axis's position becomes `mt` and counts on from there. -/
def posPlace (s : State) (a mt : Nat) : State :=
  let d := signed 32 (mt + 2 ^ 32 - s.liveMt a) * 65536
  let s := s.modPos a fun p => { p with corr := p.corr + d, base := p.base + d, snap := { p.snap with mt := mt } }
  (s.motShift a d).posPublish a

/-- The taker takes the vehicle at its update event. -/
def hovTake (s : State) (a ext : Nat) (edges : Nat × Nat) : State :=
  let s := s.modHov a fun h => { h with u := travelled (s.hovDirUp a) edges ext, own := false }
  let s := s.posPlace a ext
  let s := s.enterRun a
  let s := s.modFc a fun f => { f with preset := 3 }
  let s := { s with hovIdle := none }
  (s.wr (F.MOT_HOV_STAT_STATE a) 4).event 0x0B13 a

/-! ## The update event and the servo tick -/

/-- What the handover logic does at an update event of a segment axis (R64, R305, R308 to R310, R313). -/
def hovUpdate (s : State) (a : Nat) : State :=
  if !s.segment a then s
  else
    let dir := s.hovDirUp a
    let st := s.hovState a
    let mt := s.snapMt a
    if s.hovTaker a then
      let e := s.overlapEdges a (s.hovSideUp a) dir
      if st = 2 ∧ s.axMode a = 2 ∧ s.stateArriving a = true ∧ s.bit F.SYS_MODE_RUN_OK = true then
        (if hovReached dir (s.mtExt a) e.1 then s.hovTake a (s.mtExt a) e else s)
      else if st = 4 ∧ hovReached dir mt e.2 = true then s.hovHolding a
      else if st = 4 ∧ hovReached dir mt e.1 = false then s.hovRelease a false
      else if (st = 4 ∨ st = 5) ∧ (s.hov a).own = false ∧ s.rd (F.FSL_FC_STAT_SRC_USED a) = 1
          ∧ (s.fc a).blendLeft = 0 then
        (s.modHov a fun h => { h with own := true }).event 0x0B19 a
      else s
    else if s.hovGiver a && s.running a then
      let e := s.overlapEdges a (s.hovSideUp a) dir
      if (st = 3 ∨ (s.hov a).solo = true) ∧ hovReached dir mt e.2 = true then s.hovRelease a (st == 3)
      else if st = 1 ∧ hovReached dir mt e.1 = true then
        ((s.sendAbort a (s.hovSideUp a) 1).hovAborted a).modHov a fun h => { h with solo := true }
      else s
    else s

/-- STATE or ECHO at a servo tick (R303, R312); a STATE frame without a credit, or in a partner
change, is not sent (R462, R482). -/
def hovTick (s : State) (a : Nat) : State :=
  if s.hovGiver a && s.hovState a == 3 then
    let up := s.hovSideUp a
    let p := if up then 0 else 1
    if s.neighbour a up = 1 ∧ (s.rd (F.CHN_PORT_CREDIT p) = 0 ∨ s.rd (F.CHN_PORT_STATE p) ≠ 2
        ∨ s.bit (F.CHN_PORT_LINK p) = false ∨ s.bit (F.CHN_PORT_HELD p) = true) then s
    else s.sendHov a up 0x09 (hovBytes (s.snapMt a) (s.hovSpd a) (s.hovCur a))
  else if s.hovTaker a && s.hovState a == 4 then
    let iq := (s.idq a (s.fc a).thetaOut).2
    let sn := (s.pos a).snap
    let fl : Int := 1 + (if s.primaryOk a && sn.ref == 2 then 2 else 0) + (if s.axMode a = 4 then 4 else 0)
    s.sendHov a (s.hovSideUp a) 0x0A (hovBytes sn.mt (satS 16 iq) fl)
  else s

/-- Keeps the neighbour's position of an ECHO; its speed is that since the one before (log entry 102). -/
def keepEcho (s : State) (a own : Nat) (fine : Bool) (at_ : Int) : State :=
  s.modHov a fun h =>
    let spd : Int := match h.echo with
      | some r => if r.tcap < at_ then looseDiv 14 (signed 32 (own + 2 ^ 32 - r.mt) * 1000000000) (at_ - r.tcap).toNat
          else r.spd
      | none => (s.pos a).snap.speed
    { h with echo := some ⟨own, spd, 0, at_, false⟩, echoFine := fine, echoAt := s.now }

/-- R314, R301: the conditions an ARM command checks, beside its gate-path test (R421). -/
def armable (s : State) (a : Nat) : Bool :=
  s.bit F.SYS_MODE_RUN_OK && !s.bit F.SAF_STAT_STO_ACT && (s.channels a).all (fun n => (s.ch n).st == .off)

/-! ## Frames received (R301 to R313) -/

/-- R301: a PREARM reaches the handover logic of an axis from a side. `port`: it came over the chain, and a refusal goes back
through that port. -/
def recvPrearm (s : State) (a : Nat) (up dirUp port : Bool) : State :=
  let s := { s with hovIdle := s.hovIdle.map fun _ => s.now }
  let refuse (reason : Nat) : State := if port then s.portAbort a up reason else s.sendAbort a up reason
  if !s.segment a || s.neighbour a up != (if port then 1 else 2) then refuse 8
  else if s.axMode a = 5 then refuse 5
  else if s.running a || up == dirUp || (s.handingOver a && (s.hovGiver a || s.hovDirUp a != dirUp)) then refuse 6
  else if s.handingOver a then s
  else
    let s := ((s.wr (F.MOT_HOV_STAT_STATE a) 1).wr (F.MOT_HOV_STAT_ROLE a) 2).wrB (F.MOT_HOV_STAT_DIR a) dirUp
    s.modHov a fun _ => {}

/-- R302, R313: the giver compares the line signature of a READY and starts the stream, or aborts. One that has turned off at
the overlap exit answers NO_READY. -/
def recvReady (s : State) (a : Nat) (sig : Word) : State :=
  let up := s.hovDirUp a
  let e := s.overlapEdges a up up
  let late := hovReached up (s.snapMt a) e.1
  let gone := hovReached up (s.snapMt a) e.2
  let waits := s.hovState a == 1
    || (s.hovState a == 6 && (s.hov a).solo && s.rd (F.MOT_HOV_STAT_LAST_REASON a) == 1)
  if !s.segment a || s.hovTaker a then s
  else if !s.hovGiver a || !s.running a then s.sendAbort a up 1
  else if !waits then s
  else if late && (gone || !s.bit F.MOT_HOV_POL_LATE_TAKE) then
    (s.sendAbort a up 1).cond (s.hovState a == 1) fun s => (s.hovAborted a).modHov a fun h => { h with solo := true }
  else if sig ≠ Config.lineSignature (s.lineWords a) then
    ((s.sendAbort a up 2).hovAborted a).modHov a fun h => { h with solo := true }
  else
    let s := (s.wr (F.MOT_HOV_STAT_STATE a) 3).modHov a fun h => { h with solo := false, echoBad := 0 }
    let s := s.cond late fun s => (s.hi (F.MOT_HOV_STAT_LATE a)).event 0x0B15 a
    s.event 0x0B12 a

/-- R304: the instant at which the position of a frame from the side `up` was latched, by its first byte's arrival. A frame of
the module's other axis takes no time (R297). -/
def capturedAt (s : State) (a : Nat) (up : Bool) (tFirst : Nat) : Int :=
  let dl := if s.neighbour a up = 2 then 0 else s.rd (F.CHN_DLINK_DLINK (if up then 0 else 1))
  let lat : Int := if s.neighbour a up = 2 then 0 else 104
  (tFirst : Int) - lat - looseDiv 11 dl 1000

/-- R304, R306, R312: a STATE frame from the side `up`, whose first byte arrived at chain time `tFirst`. -/
def recvState (s : State) (a : Nat) (up : Bool) (mt : Word) (spd cur : BitVec 16) (tFirst : Nat) : State :=
  if !s.segment a || !s.hovTaker a || up != s.hovSideUp a || !(s.hovState a == 2 || s.hovState a == 4) then s
  else
    let v := signed 16 spd.toNat
    if v = 32767 ∨ v ≤ -32767 then
      let s := s.sendAbort a up 7
      if s.hovState a = 2 then s.hovAborted a else s.hovHolding a
    else
      let r : HovRx := ⟨(mt.toNat + s.hovOfs a up) % 2 ^ 32, v * 1024, signed 16 cur.toNat, s.capturedAt a up tFirst, up⟩
      let s := s.modHov a fun h => { h with rx := some r, rxAt := s.now, lost := 0 }
      s.capture (.offer a r.cur)

/-- R312, R313: the giver compares an ECHO's position with its own, and keeps it with its flags (R234). -/
def recvEcho (s : State) (a : Nat) (mt : Word) (flags : BitVec 16) (tFirst : Nat) : State :=
  if !s.hovGiver a || s.hovState a != 3 then s
  else
    let up := s.hovSideUp a
    let own := (mt.toNat + s.hovOfs a up) % 2 ^ 32
    let far := decide (s.rd F.MOT_HOV_POL_POS_TOL < (signed 32 (own + 2 ^ 32 - s.snapMt a)).natAbs)
    let n := if far then (s.hov a).echoBad + 1 else 0
    let s := s.modHov a fun h => { h with echoBad := n }
    let s := s.keepEcho a own (flags.getLsbD 1) (s.capturedAt a up tFirst)
    if n = 3 then ((s.sendAbort a up 4).hovAborted a).modHov a fun h => { h with solo := true } else s

/-- R309, R310: RELEASE makes the receiving unit hold the vehicle. -/
def recvRelease (s : State) (a : Nat) (cur : BitVec 16) : State :=
  if s.hovTaker a && s.hovState a == 4 then
    let s := s.modHov a fun h => { h with rx := h.rx.map fun r => { r with cur := signed 16 cur.toNat } }
    s.hovHolding a
  else if s.hovGiver a && s.hovState a == 3 then
    (s.wr (F.MOT_HOV_STAT_STATE a) 5).modHov a fun h => { h with prearmAt := none, solo := false }
  else s

/-- R313: a received ABORT ends the handover by its reason. -/
def recvAbort (s : State) (a : Nat) (reason : BitVec 8) : State :=
  if !s.segment a then s
  else
    let s := ((s.hi (F.MOT_HOV_STAT_ABORT_RX a)).hovCountAbort a reason.toNat).event 0x0B17 (a + 256 * reason.toNat)
    if !s.handingOver a then s
    else if s.hovGiver a then (s.hovAborted a).modHov a fun h => { h with solo := true }
    else if s.hovState a = 4 then
      if reason = 4#8 then (s.stopAxis a).wr (F.MOT_HOV_STAT_STATE a) 0 else s.hovHolding a
    else if s.hovState a = 1 ∧ reason = 1#8 then s
    else (s.hovAborted a).modFc a fun f => { f with armed := false }

/-- A handover frame reaches the module's other axis, whose partner is upstream where it is AX1 (R297, R312). -/
def innerFrame (s : State) (m : Nat × Nat × List Byte) : State :=
  let a := m.1
  let up := a == 1
  let be (i n : Nat) : Nat := beNat (slice m.2.2 i n)
  let sent := (s.fsa (1 - a)).evCt
  match m.2.1 with
  | 0x03 => s.recvPrearm a up (be 0 1 % 2 == 1) false
  | 0x08 => s.recvReady a (BitVec.ofNat 32 (be 0 4))
  | 0x09 => s.recvState a up (BitVec.ofNat 32 (be 0 4)) (BitVec.ofNat 16 (be 4 2)) (BitVec.ofNat 16 (be 6 2)) sent
  | 0x0A => s.recvEcho a (BitVec.ofNat 32 (be 0 4)) (BitVec.ofNat 16 (be 6 2)) sent
  | 0x0B => s.recvRelease a (BitVec.ofNat 16 (be 6 2))
  | _ => s.recvAbort a (BitVec.ofNat 8 (be 4 1))

/-- The frames between the module's axes arrive, and the answers to them: a link time of zero (R297). -/
def deliver : Nat → State → State
  | 0, s => s
  | n + 1, s =>
    match s.hovMail with
    | [] => s
    | m :: l => deliver n (({ s with hovMail := l } : State).innerFrame m)

/-- Delivers what waits between the axes; no exchange of frames is longer. -/
def innerMail (s : State) : State := deliver 8 s

end State

/-! ## Commands of the handover logic -/

/-- R276, R303, R312: a servo tick, at every SERVO_DIV-th update event. -/
def execServoTick (t : Nat) (a : Fin 2) (s : State) : Host.Outcome State Fault Refusal :=
  let s := s.upTo t
  .next (if s.tickDue a then
    let s := ((s.motTick a).hovTick a).innerMail
    s.cond (s.srcAxis == a) fun s => { s with cores := { s.cores with ticks := s.cores.ticks + 1 } }
  else s)

/-- R300: the giver's PREARM, once the predicted time to the overlap entry is LEAD_MS or less, and every 1 ms
after until READY or the entry. -/
def execPrearmSend (t : Nat) (a : Fin 2) (s : State) : Host.Outcome State Fault Refusal :=
  let s := s.upTo t
  .next (
    let sp := (s.pos a).snap.speed
    let dir := decide (sp < 0)
    let st := s.hovState a
    let e := s.overlapEdges a dir dir
    let dist := (signed 32 (s.snapMt a + 2 ^ 32 - e.1)).natAbs
    let lead := max 5 (min 50 (s.rd F.MOT_HOV_POL_LEAD_MS))
    let due := match (s.hov a).prearmAt with
      | none => st == 0 || st == 5
      | some x => st == 1 && s.hovGiver a && decide (x + 1000000 ≤ s.now)
    if s.segment a && s.running a && s.neighbour a dir != 0 && (!dir || s.bit F.MOT_HOV_POL_ALLOW_REV) && sp != 0
        && !State.hovReached dir (s.snapMt a) e.1 && decide (dist * 1000 ≤ lead * sp.natAbs) && due then
      let s := s.cond (st != 1) fun s => s.event 0x0B10 a
      let s := ((s.wr (F.MOT_HOV_STAT_STATE a) 1).wr (F.MOT_HOV_STAT_ROLE a) 1).wrB (F.MOT_HOV_STAT_DIR a) dir
      let s := s.modHov a fun h => { h with prearmAt := some s.now, solo := false, echoBad := 0, rx := none }
      (s.sendHov a dir 0x03 (beBytes 1 dir.toNat ++ beBytes 3 0
        ++ beBytes 8 ((s.ct + dist * 1000000000 / max 1 sp.natAbs) % 2 ^ 64))).innerMail
    else s)

/-- R301: a PREARM reaches an awake taker through a port, from the side `up`; of a unit that it has woken, event 0x0B11
(R319, R476). -/
def execPrearmReceive (t : Nat) (a : Fin 2) (up dirUp : Bool) (s : State) : Host.Outcome State Fault Refusal :=
  let s := s.upTo t
  .next (if !s.awake || a.val != s.portAxis up then s
  else
    let woke := s.chain.preWoke
    let s : State := { s with chain := { s.chain with preWoke := false } }
    (s.recvPrearm a up dirUp true).cond woke fun s => s.event 0x0B11 a)

/-- R301: RUN_OK set, every channel in OFF, and the gate-path test of an arming passed: the taker arms and
sends READY with its line signature. -/
def execTakerReadySend (t : Nat) (a : Fin 2) (pathOk : Bool) (s : State) : Host.Outcome State Fault Refusal :=
  let s := s.upTo t
  .next (if s.segment a && s.hovTaker a && s.hovState a == 1 && s.axMode a == 2 && s.armable a then
    if pathOk then
      let s := s.modFc a fun f => { f with armed := true }
      let s := s.wr (F.MOT_HOV_STAT_STATE a) 2
      (s.sendHov a (s.hovSideUp a) 0x08 (beBytes 4 (Config.lineSignature (s.lineWords a)).toNat
        ++ beBytes 2 (s.hovDirUp a).toNat ++ beBytes 2 0)).innerMail
    else s.activateRow 31 a
  else s)

/-- R302, R313: a READY of the taker on the axis's giving side. -/
def execReadyReceive (t : Nat) (a : Fin 2) (sig : Word) (s : State) : Host.Outcome State Fault Refusal :=
  let s := s.upTo t
  .next (if s.hears a (s.hovDirUp a) then s.recvReady a sig else s)

/-- R304, R306, R312: a STATE frame from the side `up`, whose first byte arrived at chain time `tFirst`. -/
def execStateReceive (t : Nat) (a : Fin 2) (up : Bool) (mt : Word) (spd cur : BitVec 16) (tFirst : Nat) (s : State) :
    Host.Outcome State Fault Refusal :=
  let s := s.upTo t
  .next (if s.hears a up then s.recvState a up mt spd cur tFirst else s)

/-- R312, R313: an ECHO of the taker. -/
def execEchoReceive (t : Nat) (a : Fin 2) (mt : Word) (s : State) (flags : BitVec 16 := 0) (tFirst : Nat := 0) :
    Host.Outcome State Fault Refusal :=
  let s := s.upTo t
  .next (if s.hears a (s.hovSideUp a) then s.recvEcho a mt flags tFirst else s)

/-- R309, R310: RELEASE of the other unit. -/
def execReleaseReceive (t : Nat) (a : Fin 2) (cur : BitVec 16) (s : State) : Host.Outcome State Fault Refusal :=
  let s := s.upTo t
  .next (if s.hears a (s.hovSideUp a) then s.recvRelease a cur else s)

/-- R313: an ABORT of the other unit. -/
def execAbortReceive (t : Nat) (a : Fin 2) (reason : BitVec 8) (s : State) : Host.Outcome State Fault Refusal :=
  let s := s.upTo t
  .next (if s.hears a (s.hovSideUp a) then s.recvAbort a reason else s)

/-- R313: no STATE frame within one tick plus 2 µs of the previous one; each further loss stands a tick later. -/
def execStateFrameLoss (t : Nat) (a : Fin 2) (s : State) : Host.Outcome State Fault Refusal :=
  let s := s.upTo t
  let early := decide (s.now < (s.hov a).rxAt + ((s.hov a).lost + 1) * s.tickPeriod a + 2000)
  .next (if !s.hovTaker a || (s.hov a).rx.isNone || !(s.hovState a == 2 || s.hovState a == 4) || early then s
  else
    let n := (s.hov a).lost + 1
    let s := s.modHov a fun h => { h with lost := n }
    if n = max 1 (s.rd F.MOT_HOV_POL_MISS_N) then
      if s.hovState a = 2 then
        (((s.sendAbort a (s.hovSideUp a) 3).hovAborted a).modFc a fun f => { f with armed := false }).innerMail
      else (s.hi (F.MOT_HOV_STAT_STATE_LOSS a)).event 0x0B18 a
    else s)

/-- R318: writing 1 to SAT clears both counters. -/
def execMotHovSatClear (t : Nat) (a : Fin 2) (s : State) : Host.Outcome State Fault Refusal :=
  let s := s.upTo t
  .next (if s.ctlOn && s.stores then s.clearCounts (R.MOT_HOV_CNT a) else s)

end Sys2Proof.Machine
end

