-- ==== Sys2Proof/Machine/Fesil.lean ====
section
/-!
DEFINITION. The Fesil engine (R241 to R275): tasks with their prelude and epilogue, set-points, coefficient
banks, the running of one instruction, the trace, and the engine's memories.
-/

namespace Sys2Proof.Machine

namespace State

def modFsl (s : State) (f : Fsl → Fsl) : State := { s with fsl := f s.fsl }

/-! ## Memory errors (R265) -/

/-- A corrected single-bit error. -/
def fslEccFixed (s : State) : State :=
  let s := (s.hi F.FSL_CTL_ECC_SB).bump F.FSL_CTL_ECC_CNT
  s.cond (s.rd F.FSL_CTL_ECC_CNT == 0xFF) fun s => s.hi F.FSL_CTL_SAT

/-- An uncorrectable error read by a task: the task ends without its epilogue, HOLD for every axis. -/
def fslEccBad (s : State) : State :=
  let s := ((s.modFsl fun x => { x with task := none }).hi F.FSL_CTL_ECC_DB).event 0x0608 0
  s.activateRow 22 0

/-- A read by a task meets the state of the word's check bits. -/
def withEcc (s : State) (e : Ecc) (f : State → State) : State :=
  match e with
  | .ok => f s
  | .corrected => f s.fslEccFixed
  | .bad => s.fslEccBad

/-! ## PI and notch steps (R257, R259) -/

/-- One PI step: the output and the new integrator. -/
def piStep (kp ki intLim integ ref meas ff lim : BitVec 32) (run : Bool) : BitVec 32 × BitVec 32 :=
  let e := fSub ref meas
  let inew := if run then fClamp (fAdd integ (fMul ki e)) intLim else integ
  let u := fAdd (fAdd (fMul kp e) inew) ff
  if anyBad [kp, ki, intLim, integ, ref, meas, ff, lim] then (if fFinite u then fNan else u, integ)
  else
    let hi := fAbs lim
    let lo := fNeg hi
    if fLt hi u then (hi, if fLt 0#32 e then integ else inew)
    else if fLt u lo then (lo, if fLt e 0#32 then integ else inew)
    else (u, inew)

/-- The PI step of a slot with the axis's bank and state words. -/
def piSlot (s : State) (a slot : Nat) (ref meas ff lim : BitVec 32) (run : Bool) : BitVec 32 × State :=
  let k := 0x40 + 0x10 * slot
  let p := piStep (s.bankW a k) (s.bankW a (k + 4)) (s.bankW a (k + 8)) (s.stateW a (4 * slot)) ref meas ff lim run
  (p.1, s.putCoef (stateBase a + 4 * slot) p.2)

/-- One direct-form I step over coefficient and state words at two addresses (BIQ, R255). -/
def biquad (s : State) (x : BitVec 32) (coef st : Nat) : BitVec 32 × State :=
  let c (i : Nat) : BitVec 32 := s.coefW (coef + 4 * i)
  let z (i : Nat) : BitVec 32 := s.coefW (st + 4 * i)
  let y := fMac (fMac (fMac (fMac (fMul (c 0) x) (c 1) (z 0) false) (c 2) (z 1) false) (c 3) (z 2) true)
    (c 4) (z 3) true
  (y, (((s.putCoef (st + 4) (z 0)).putCoef st x).putCoef (st + 12) (z 2)).putCoef (st + 8) y)

/-- NOTCH_EN of a bank's FLAGS word. -/
def notchEn (w : BitVec 32) : Nat := w.toNat / 2 % 16

/-- Notch `n` on I*; one just enabled starts in steady state (R253). -/
def notch (s : State) (a n was : Nat) (x : BitVec 32) : BitVec 32 × State :=
  if (notchEn (s.bankW a 0x20)).testBit n then
    let st := stateBase a + 0x40 + 0x10 * n
    let s := if was.testBit n then s else
      (((s.putCoef st x).putCoef (st + 4) x).putCoef (st + 8) x).putCoef (st + 12) x
    s.biquad x (s.bankBase a + 0xC0 + 0x14 * n) st
  else (x, s)

/-! ## Set-points (R248 to R250) -/

/-- SWAP: the other bank becomes active at the next task start (R253). -/
def swapBanks (s : State) (a : Nat) : State := s.hi (F.FSL_SP_CTL_SWAP_PEND a)

/-! ## The prelude (R243, R249) -/

/-- Step 1: the published set and the swap take effect. Answers NOTCH_EN before. -/
def takeSets (s : State) (a : Nat) : Nat × State :=
  let was := notchEn (s.bankW a 0x20)
  let s := match (s.fsa a).pend with
    | some w => ((s.modFsa a fun x => { x with pend := none, inUse := w }).lo (F.FSL_SP_CTL_PUB_PEND a)).wr
        (F.FSL_SP_CTL_USED_SEQ a) (w.getD 6 0#32).toNat
    | none => s
  let s := if s.bit (F.FSL_SP_CTL_SWAP_PEND a) then
      (s.lo (F.FSL_SP_CTL_SWAP_PEND a)).wr (F.FSL_SP_CTL_ACT_BANK a) (1 - s.rd (F.FSL_SP_CTL_ACT_BANK a))
    else s
  (was, s)

/-- I* before the notches (R249), with the move of R309 from a received I*. -/
def formI (s : State) (a : Nat) (run : Bool) : BitVec 32 × State :=
  let w (k : Nat) : BitVec 32 := (s.fsa a).inUse.getD k 0#32
  let lim := iLimit (w 4)
  let ifs := s.bankW a 0x10
  let h := s.hov a
  match (w 0).toNat % 4 with
  | 2 =>
    let s := if h.rampAt.isSome && s.hovState a == 5 then
        (s.putCoef (stateBase a + 8) (fMul (fOfInt h.rampFrom (-15)) ifs)).modHov a fun h => { h with rampAt := none }
      else s
    let div := max 1 ((s.bankW a 0x20).toNat / 256 % 256)
    if (s.fsa a).spdCnt % div = 0 then
      let ref := if (w 0).toNat / 4 % 2 = 1 then s.vRef a else signed 32 (w 3).toNat
      let p := s.piSlot a 2 (fOfInt ref (-16)) (fOfInt (s.fc a).omega (-16)) 0#32 lim run
      (p.1, p.2.modFsa a fun x => { x with iHold := p.1, ranSpd := true, spdCnt := x.spdCnt + 1 })
    else ((s.fsa a).iHold, s.modFsa a fun x => { x with ranSpd := false, spdCnt := x.spdCnt + 1 })
  | f =>
    let own := if f = 0 then w 1 else fMul (w 2) (s.bankW a 0x18)
    let s := s.modFsa a fun x => { x with ranSpd := false }
    match h.rampAt with
    | some t0 =>
      let dur := max 1 (s.rd (F.FSL_FC_CATCH_TQ_RAMP a)) * 1000000
      if s.now < t0 + dur then
        let fr := fDiv (fOfInt (s.now - t0 : Nat) 0) (fOfInt dur 0)
        let from_ := fMul (fOfInt h.rampFrom (-15)) ifs
        (fAdd from_ (fMul (fSub own from_) fr), s)
      else (own, s.modHov a fun h => { h with rampAt := none })
    | none => (own, s)

/-- IDQ_REF (R218, R225, R229, R230, R235, R243, R292). -/
def splitI (s : State) (a : Nat) (istar spId : BitVec 32) : BitVec 32 × BitVec 32 :=
  let f := s.fc a
  let ifs := s.bankW a 0x10
  if f.reacqDone then (f.rampD, f.rampQ)
  else if !f.modOn then (0#32, 0#32)
  else if f.ifAt.isSome then
    let i : Int := s.rd (F.FSL_FC_IF_IF_I a)
    let i := signed 16 i.toNat + (if s.bit (F.MOT_CFG_RES_EN a) then signed 16 (s.rd (F.MOT_GEN_RSV a)) else 0)
    let i := fMul (fOfInt i (-15)) ifs
    (0#32, if f.ifNeg then fNeg i else i)
  else if f.brakeAt.isSome then
    let i := fMul (fOfInt (s.rd (F.FSL_FC_CATCH_BRAKE_I a)) (-8)) ifs
    (0#32, if f.brakeUp then fNeg i else i)
  else
    let sc := fSinCos (s.beta a f.omega)
    let d := fAdd (fNeg (fMul (fAbs istar) sc.1)) spId
    let q := fMul istar sc.2
    match f.rampAt with
    | none => (d, q)
    | some t0 =>
      let dur := max 1 (s.rd (F.FSL_FC_CATCH_TQ_RAMP a)) * 1000000
      if s.now < t0 + dur then
        let fr := fDiv (fOfInt (s.now - t0 : Nat) 0) (fOfInt dur 0)
        (fAdd f.rampD (fMul (fSub d f.rampD) fr), fAdd f.rampQ (fMul (fSub q f.rampQ) fr))
      else (d, q)

/-- MISSING sets in a row (R264). -/
def countMissing (s : State) (a : Nat) (missing : Bool) : State :=
  let fc := if a = 0 then F.FSL_OVR_STAT_MCONSEC0 else F.FSL_OVR_STAT_MCONSEC1
  if !missing then s.lo fc
  else
    let was := s.rd fc
    let s := s.wr fc (min 3 (was + 1))
    let s := if a = 0 then s.count F.FSL_MISS_CNT_CNT0 F.FSL_MISS_CNT_SAT0 0x060C a
      else s.count F.FSL_MISS_CNT_CNT1 F.FSL_MISS_CNT_SAT1 0x060C a
    if was = 2 ∧ s.axMode a = 3 then (s.event 0x0604 a).activateRow 21 a else s

/-- The prelude of an axis's task (R243). -/
def prelude (s : State) (a : Nat) (i : InputSet) : State :=
  let p := s.takeSets a
  let was := p.1
  let s := p.2.countMissing a i.missing
  let s := s.fieldStep a
  let x := s.fsa a
  let f := s.fc a
  let thI := wrapN 16 ((f.thetaOut : Int) + looseDiv 12 (f.omega * ((i.mid : Int) - x.evAt)) 1000000000)
  let thV := wrapN 16 ((f.thetaOut : Int) + looseDiv 13 (f.omega * 3 * x.upd) 2000000000)
  let run := f.modOn && !i.missing && i.nomaj == 0
  let q := s.formI a run
  let s := q.2
  let n0 := s.notch a 0 was q.1
  let n1 := n0.2.notch a 1 was n0.1
  let n2 := n1.2.notch a 2 was n1.1
  let n3 := n2.2.notch a 3 was n2.1
  let s := n3.2
  let istar := fClamp n3.1 (iLimit ((s.fsa a).inUse.getD 4 0#32))
  let dq := s.splitI a istar ((s.fsa a).inUse.getD 5 0#32)
  s.modFsa a fun x => { x with thI := thI, thV := thV, iStar := istar, idRef := dq.1, iqRef := dq.2 }

/-! ## The epilogue and the end of a program (R244, R245) -/

/-- The sequencer writes its 32 state words back; what it keeps in them the spec does not say, so each is a free value (R244,
R252, log entry 103). -/
def writeBack (s : State) (a : Nat) : State :=
  let k := s.fresh
  ({ s with fresh := s.fresh + 32 } : State).each (List.range 32) fun s i =>
    s.putCoef (stateBase a + 0x80 + 4 * i) (Config.freeWord (k + i))

/-- The epilogue of the running task: field control, state words, cycle registers (R244, R273). -/
def epilogue (s : State) (cut : Bool) : State :=
  match s.fsl.task with
  | none => s
  | some k =>
    let s := s.modFsl fun x => { x with task := none }
    let s := (s.fieldEpilogue k.axis).writeBack k.axis
    let n := k.cyc + 40
    let s := s.wr (F.FSL_CYC_LAST k.axis) n
    let s := s.cond (s.rd (F.FSL_CYC_MAX k.axis) < n) fun s => s.wr (F.FSL_CYC_MAX k.axis) n
    let s := s.modFsa k.axis fun x => { x with tasks := x.tasks + 1, cutSince := x.cutSince || cut }
    if cut then (s.hi (F.FSL_CYC_CUT k.axis)).event 0x0605 k.axis else s

/-- Cycles a program may use: LIMIT − 40 (R245, R273). -/
def taskLimit (s : State) (a : Nat) : Nat := max 100 (s.rd (F.FSL_TASK_LIMIT a)) - 40

/-- The task's start is at least that many cycles ago: 4 ns each (R241, R245). -/
def taskRan (s : State) (k : FTask) : Bool := decide (k.start + 4 * s.taskLimit k.axis ≤ s.now)

/-- The latest reload of a carrier whose guard is open now (R245). -/
def reloadMissed (s : State) (c : Nat) : Option Nat :=
  ((s.reloadsAhead c).filter fun x => decide (x ≤ s.now + 64)).max?

/-- The guard of the reload that the task's commit is meant for is open: the first reload after those whose guard was open
at its start (R245). -/
def cutDue (s : State) (k : FTask) : Bool :=
  (s.reloadsAhead k.axis).any fun x => decide (x ≤ s.now + 64) && decide (k.missed.getD 0 < x)

/-! ## One instruction (R254, R255) -/

/-- Runs an instruction of `n` cycles when CTL is powered, a program is running and its task's limit allows it: the
program counter moves on, then the instruction has its effect, unless what it reads is beyond correction (R265). -/
def instr (s : State) (n : Nat) (e : Ecc) (body : FTask → State → State) : State :=
  match s.fsl.task with
  | none => s
  | some k =>
    if s.ctlOn && decide (k.cyc + n ≤ s.taskLimit k.axis) then
      (s.modFsl fun x => { x with task := some { k with cyc := k.cyc + n, pc := k.pc + 1 } }).withEcc e (body k)
    else s

/-- Changes the running task. -/
def modTask (s : State) (f : FTask → FTask) : State := s.modFsl fun x => { x with task := x.task.map f }

def setF (s : State) (n : Nat) (v : BitVec 32) : State := s.modTask fun k => { k with f := ovSet k.f n v }
def setA (s : State) (n : Nat) (v : BitVec 32) : State := s.modTask fun k => { k with a := ovSet k.a n v }

/-- Writes consecutive float registers. -/
def setFs (s : State) (n : Nat) : List (BitVec 32) → State
  | [] => s
  | v :: vs => (s.setF n v).setFs (n + 1) vs

/-- A non-finite result of PIC, SVM or CMPQ sets NAN (R254). -/
def noteNan (s : State) (l : List (BitVec 32)) : State := s.cond (anyBad l) fun s => s.hi F.FSL_CTL_NAN

end State

/-- A float and an integer register of a task; one not written since its start holds a free value (R241). -/
def FTask.fr (k : FTask) (n : Nat) : BitVec 32 := kvGet (fun n => Config.freeWord (k.base + n)) k.f n
def FTask.ar (k : FTask) (n : Nat) : BitVec 32 := kvGet (fun n => Config.freeWord (k.base + 64 + n)) k.a n

/-- The condition of the last compare; none yet is a free value. -/
def FTask.condOf (k : FTask) : Nat := match k.cond with
  | some c => c
  | none => Config.freeNat (k.base + 80) % 4

namespace State

/-- The byte address an operand names: bank, state words or tables, plus an optional integer register (R251).
Bits 1:0 are ignored. -/
def memAddr (s : State) (k : FTask) (m : MemRef) : Nat :=
  let b := match m.base with
    | .cb => s.bankBase k.axis
    | .sb => stateBase k.axis
    | .tb => 0x2000
  let x := match m.idx with
    | some r => (k.ar r).toNat
    | none => 0
  (b + m.off + x) % 2 ^ 32 / 4 * 4

/-- An address in the coefficient and table memory that a program may use (R251). -/
def memOk (x : Nat) : Bool := decide (x < 0x40000) && !(decide (0x1800 ≤ x) && decide (x < 0x2000))

/-- A word read by a program; an address the spec gives no memory reads a free value (log entry 27). -/
def memLoad (s : State) (k : FTask) (x : Nat) : BitVec 32 :=
  if memOk x then s.coefW x else Config.freeWord (k.base + 96 + x)

/-- A word written by a program: the sequencer's state words and absent memory ignore it (R252). -/
def memStore (s : State) (x : Nat) (w : BitVec 32) : State :=
  let sb := decide (0x1000 ≤ x) && decide (x < 0x1800)
  if !memOk x || (sb && decide (0x80 ≤ x % 0x400) && decide (x % 0x400 < 0x100)) then s else s.putCoef x w

/-! ## Input set and prelude items (R256) -/

/-- ISTAT. -/
def istat (i : InputSet) : BitVec 32 :=
  BitVec.ofNat 32 (i.missing.toNat + 2 * (i.nomaj % 16) + 32 * (i.minority % 16) + 512 * i.eiw.toNat
    + 1024 * i.late.toNat + 2048 * i.single.toNat)

/-- FSTAT. -/
def fstat (s : State) (a : Nat) : BitVec 32 :=
  BitVec.ofNat 32 (s.rd (F.FSL_FC_STAT_SRC_USED a) + 8 * (s.fc a).modOn.toNat + 16 * (s.pos a).snap.snap.toNat
    + 32 * (s.fsa a).ranSpd.toNat)

def ampere (s : State) (a : Nat) (v : Int) : BitVec 32 := fMul (fOfInt v (-15)) (s.bankW a 0x10)
def volt (s : State) (a : Nat) (v : Int) : BitVec 32 := fMul (fOfInt v (-15)) (s.bankW a 0x14)

/-! ## Macro operations (R255, R260, R261) -/

def fHalf : BitVec 32 := 0x3F000000#32

def park (al be sn cs : BitVec 32) : List (BitVec 32) :=
  [fAdd (fMul al cs) (fMul be sn), fAdd (fNeg (fMul al sn)) (fMul be cs)]

def ipark (d q sn cs : BitVec 32) : List (BitVec 32) :=
  [fSub (fMul d cs) (fMul q sn), fAdd (fMul d sn) (fMul q cs)]

/-- clamp(x, 0, 1); a NaN stays one, so that CMPQ keeps it from the switches (R257, R260). -/
def unitClamp (x : BitVec 32) : BitVec 32 := if fDecode x = .nan then fNan else fMin fOne (fMax 0#32 x)

/-- Duties with min-max zero-sequence injection; a non-finite phase voltage gives no finite duty (R257, R260). -/
def svm (al be vdc : BitVec 32) : List (BitVec 32) :=
  let h := fMul fHalf al
  let b := fMul 0x3F5DB3D7#32 be
  let va := al
  let vb := fAdd (fNeg h) b
  let vc := fSub (fNeg h) b
  let v0 := fNeg (fMul fHalf (fAdd (fMax (fMax va vb) vc) (fMin (fMin va vb) vc)))
  if fLt vdc fOne then [fHalf, fHalf, fHalf]
  else if anyBad [va, vb, vc] then [fNan, fNan, fNan]
  else [va, vb, vc].map fun v => unitClamp (fAdd fHalf (fDiv (fAdd v v0) vdc))

/-- a + b·d rounded to nearest, halves to even, for a finite word d, saturated to 24 bits. -/
def compareWord (a b : Int) (d : BitVec 32) : BitVec 32 :=
  match fDecode d with
  | .fin n m e =>
    let x := fSigned n m
    let den : Nat := 2 ^ (-e).toNat
    let num : Int := a * den + b * x * 2 ^ e.toNat
    let q := num.fdiv den
    let r := (num - q * den).toNat
    let q := if den < 2 * r ∨ (2 * r = den ∧ q % 2 ≠ 0) then q + 1 else q
    BitVec.ofNat 32 (max 0 (min 16777215 q)).toNat
  | _ => 0#32

/-- (2d − 1) × 32,768 as REF_x, saturated to Q1.15 (R132, R261). -/
def refWord (d : BitVec 32) : BitVec 32 :=
  match fDecode d with
  | .fin n m e =>
    let x := fSigned n m
    let den : Nat := 2 ^ (-e).toNat
    let num : Int := 65536 * x * 2 ^ e.toNat - 32768 * den
    let q := num.fdiv den
    let r := (num - q * den).toNat
    let q := if den < 2 * r ∨ (2 * r = den ∧ q % 2 ≠ 0) then q + 1 else q
    BitVec.ofNat 32 (wrapN 16 (satS 16 q))
  | _ => 0#32

/-- CMPQ's staged words for the duties of a carrier (R261). -/
def stageDuties (s : State) (c : Nat) (d : List (BitVec 32)) : State :=
  let p : Int := if c = 1 ∧ s.syncMode 1 = 1 then (s.car 0).per else s.rd (F.PWM_PERIOD_PERIOD c)
  s.each [0, 1, 2] fun s x =>
    let w := d.getD x 0#32
    if s.threeLevel then s.setReg (R.PWM_CMP_ON c x) (refWord w)
    else if s.upMode c then
      (s.setReg (R.PWM_CMP_ON c x) (compareWord (p * 32) (-p * 32) w)).setReg (R.PWM_CMP_OFF c x)
        (compareWord (p * 32) (p * 32) w)
    else
      (s.setReg (R.PWM_CMP_ON c x) (compareWord (p * 64) (-p * 64) w)).setReg (R.PWM_CMP_OFF c x)
        (compareWord (p * 64) (-p * 64) w)

/-! ## Trace (R267, R268, R274) -/

/-- The value a selector names; other codes give 0. -/
def traceValue (s : State) (k : FTask) (j : Nat) : BitVec 32 :=
  let c := s.rd ⟨R.FSL_TRC_SEL (j / 4), 8 * (j % 4), 8⟩
  if c < 0x40 then k.fr c else if c < 0x50 then k.ar (c - 0x40) else 0#32

/-- The trigger value as a float. -/
def traceFloat (s : State) (j : Nat) (w : BitVec 32) : BitVec 32 :=
  let c := s.rd ⟨R.FSL_TRC_SEL (j / 4), 8 * (j % 4), 8⟩
  if 0x40 ≤ c ∧ c < 0x50 then fOfInt (signed 32 w.toNat) 0 else w

/-- Clears the trace and starts recording (ARM of R268). -/
def traceArm (s : State) : State :=
  let s := s.modFsl fun x => { x with trace := [], trcNext := 0, trcHeld := 0, trcHit := false, trcLeft := none,
                                      trcPrev := [] }
  (s.setReg R.FSL_TRC_STAT 0#32).wr F.FSL_TRC_STAT_STATE 1

/-- The trigger: event with the axis of the record, pulse, PRE_SHORT, and the records still to come (R268, R275). -/
def traceTrigger (s : State) (a : Nat) : State :=
  let pre := s.rd F.FSL_TRC_CFG_PRE
  let s := s.wr F.FSL_TRC_STAT_STATE 2
  let s := s.cond (decide (s.fsl.trcHeld < pre)) fun s => s.hi F.FSL_TRC_STAT_PRE_SHORT
  let s := s.modFsl fun x => { x with trcLeft := some (8191 - pre) }
  let s := s.event 0x060A a
  s.cond (s.bit F.FSL_TRC_CFG_TRIG_OUT && Config.gpioDedicated 3) fun s => s.emit (.pulse 3)

/-- The trace is frozen with a record of an axis (R268, R275). -/
def traceFreeze (s : State) (a : Nat) : State := (s.wr F.FSL_TRC_STAT_STATE 3).event 0x060B a

/-- One record of a task (R267). -/
def traceRecord (s : State) (k : FTask) : State :=
  let a := k.axis
  let st := s.rd F.FSL_TRC_STAT_STATE
  if st = 0 ∨ st = 3 ∨ (s.rd F.FSL_TRC_CFG_AXES).testBit a = false then s
  else if (s.fsa a).trcCnt < s.rd F.FSL_TRC_CFG_DECIM then s.modFsa a fun x => { x with trcCnt := x.trcCnt + 1 }
  else
    let vals := (List.range 13).map (s.traceValue k)
    let j := s.rd F.FSL_TRC_TRIG_VSEL
    let src := s.rd F.FSL_TRC_TRIG_SRC
    let lvl := s.reg R.FSL_TRC_LVL
    let new := s.traceFloat j (vals.getD j 0#32)
    let level := match s.fsl.trcPrev with
      | [] => false
      | l =>
        let old := s.traceFloat j (l.getD j 0#32)
        (src == 4 && fLt old lvl && fAtLeast new lvl) || (src == 5 && fAtLeast old lvl && fLt new lvl)
    let hit := s.fsl.trcHit || (st == 1 && level && j ≤ 12)
    let n := s.fsl.trcNext
    let s := s.cond (st == 1 && hit) fun s => s.traceTrigger a
    let s := s.cond hit fun s => s.wr F.FSL_TRC_STAT_TRIG_REC n
    let x := s.fsa a
    let w2 := x.tasks % 65536 + 65536 * a + 131072 * hit.toNat + 262144 * k.set.missing.toNat
      + 524288 * x.cutSince.toNat + 2097152 * s.rd (F.FSL_FC_STAT_SRC_USED a)
    let ct := k.set.evCt
    let words := [BitVec.ofNat 32 ct, BitVec.ofNat 32 (ct / 2 ^ 32), BitVec.ofNat 32 w2] ++ vals
    let s := s.modFsl fun y => { y with
      trace := (List.range 16).foldl (fun m i => kvSet (fun _ => 0#32) m (16 * n + i) (words.getD i 0#32)) y.trace
      trcNext := (n + 1) % 8192, trcHeld := min 8192 (y.trcHeld + 1), trcHit := false, trcPrev := vals }
    let s := s.modFsa a fun x => { x with trcCnt := 0, cutSince := false }
    let s := s.wr F.FSL_TRC_STAT_OLDEST (if s.fsl.trcHeld = 8192 then s.fsl.trcNext else 0)
    match s.fsl.trcLeft with
    | none => s
    | some l =>
      let l := if hit then l else l - 1
      let s := s.modFsl fun y => { y with trcLeft := some l }
      if l = 0 then s.traceFreeze a else s

/-! ## Overruns (R263) -/

/-- One overrun of an axis at `now`. -/
def overrun (s : State) (a : Nat) : State :=
  let fc := if a = 0 then F.FSL_OVR_STAT_CONSEC0 else F.FSL_OVR_STAT_CONSEC1
  let fw := if a = 0 then F.FSL_OVR_STAT_WIN0 else F.FSL_OVR_STAT_WIN1
  let was := s.rd fc
  let old := (s.fsa a).ovrAt
  let burst := match old[14]? with
    | some x => decide (s.now < x + 1000000000)
    | none => false
  let s := if a = 0 then s.count F.FSL_OVR_CNT_CNT0 F.FSL_OVR_CNT_SAT0 0x060C a
    else s.count F.FSL_OVR_CNT_CNT1 F.FSL_OVR_CNT_SAT1 0x060C a
  let s := s.wr fc (min 3 (was + 1))
  let s := s.modFsa a fun x => { x with ovrAt := (s.now :: x.ovrAt).take 16 }
  let s := s.wr fw ((s.fsa a).ovrAt.filter (fun x => decide (s.now < x + 1000000000))).length
  let s := s.event 0x0601 a
  let s := s.cond ((s.rd F.FSL_TRC_CFG_AXES).testBit a) fun s => s.traceHit 6
  let s := if was = 2 ∧ s.axMode a = 3 then (s.event 0x0602 a).activateRow 19 a else s
  if burst && s.running a then (s.event 0x0603 a).activateRow 20 a else s

/-- A reload that took a set committed in time. -/
def overrunFree (s : State) (a : Nat) : State :=
  s.lo (if a = 0 then F.FSL_OVR_STAT_CONSEC0 else F.FSL_OVR_STAT_CONSEC1)

/-! ## The memories' window (R253, R266, R271) -/

/-- The axis whose bank or state words hold an address, and whether it lies in the active bank or the state
words. -/
def bankAxis (s : State) (x : Nat) : Option (Nat × Bool) :=
  if x < 0x1000 then
    let a := x / 0x800
    some (a, x / 0x400 % 2 == s.rd (F.FSL_SP_CTL_ACT_BANK a))
  else if x < 0x1800 then some ((x - 0x1000) / 0x400, true)
  else none

/-- A read of a trace record whose check bits are beyond correction marks the record BAD: bit 20 of its third word (R265,
R267). -/
def traceRead (s : State) (e : Ecc) (n : Nat) : State :=
  match e with
  | .bad =>
    let w := kvGet (fun _ => 0#32) s.fsl.trace (16 * n + 2)
    s.modFsl fun y => { y with trace := kvSet (fun _ => 0#32) y.trace (16 * n + 2) (w ||| 0x100000#32) }
  | _ => s

/-- A program word as the window reads it: a low half that waits for its high half reads as written (log entry 105). -/
def progW (s : State) (i : Nat) : BitVec 32 :=
  match s.fsl.progLow.find? fun e => e.1 == i with
  | some e => e.2
  | none => kvGet (fun _ => 0#32) s.fsl.prog i

/-- A low half waits; a high half takes effect with the low half that waits for it (R266). -/
def putProg (s : State) (i : Nat) (w : Word) : State :=
  if i % 2 = 0 then s.modFsl fun y => { y with progLow := ovSet y.progLow i w }
  else
    let p := match s.fsl.progLow.find? fun e => e.1 == i - 1 with
      | some e => kvSet (fun _ => 0#32) s.fsl.prog e.1 e.2
      | none => s.fsl.prog
    s.modFsl fun y => { y with prog := kvSet (fun _ => 0#32) p i w, progLow := kvErase y.progLow (i - 1) }

/-- A word that the window reads, by its check bits: corrected and counted, or a free value where they are beyond
correction (R265, log entry 104). -/
def windowWord (s : State) (e : Ecc) (w : BitVec 32) : Option Word × State :=
  match e with
  | .ok => (some w, s)
  | .corrected => (some w, s.fslEccFixed)
  | .bad => (some (Config.freeWord s.fresh), { s with fresh := s.fresh + 1 })

/-- An access through FSL_MEM_DATA: the word read, or the word written. A write of trace space is barred by no rule; a read of
it asks for a frozen trace (R269, R271). -/
def memWindow (s : State) (wr : Option Word) (e : Ecc) : Option Word × State :=
  let addr := s.rd F.FSL_MEM_ADDR_ADDR
  let x := addr / 4 * 4
  let bar (s : State) : State := s.hi F.FSL_CTL_ACC_IGN
  let r : Option Word × State := match s.rd F.FSL_MEM_ADDR_SPACE with
    | 0 =>
      if 0x10000 ≤ x then (some 0#32, bar s)
      else match wr with
        | none => s.windowWord e (s.progW (x / 4))
        | some w =>
          if s.mode != 2 || s.bit F.FSL_CTL_RUN || s.fsl.checking then (none, bar s) else (none, s.putProg (x / 4) w)
    | 1 =>
      if 0x40000 ≤ x ∨ (0x1800 ≤ x ∧ x < 0x2000) then (some 0#32, bar s)
      else match wr with
        | none => s.windowWord e (s.coefW x)
        | some w =>
          match s.bankAxis x with
          | some (a, live) => if live && s.axMode a != 2 then (none, bar s) else (none, s.putCoef x w)
          | none => (none, s.putCoef x w)
    | 2 =>
      if 0x80000 ≤ x then (some 0#32, bar s)
      else match wr with
        | some w => (none, s.modFsl fun y => { y with trace := kvSet (fun _ => 0#32) y.trace (x / 4) w })
        | none =>
          if s.rd F.FSL_TRC_STAT_STATE ≠ 3 then (some 0#32, bar s)
          else
            (s.traceRead e (x / 64)).windowWord (if e == .corrected then .corrected else .ok)
              (kvGet (fun _ => 0#32) (s.traceRead e (x / 64)).fsl.trace (x / 4))
    | _ => (some 0#32, bar s)
  let s := r.2
  (r.1, s.cond (s.bit F.FSL_MEM_ADDR_INC) fun s => s.wr F.FSL_MEM_ADDR_ADDR (addr + 4))

/-- CRC-32C over all 8,192 program words, low half first (R266). -/
def progCrc (s : State) : Nat :=
  crc32c ((List.range 16384).flatMap fun i => leBytes 4 (kvGet (fun _ => 0#32) s.fsl.prog i).toNat)

end State

end Sys2Proof.Machine
end

