-- ==== Sys2Proof/Machine/FesilCtl.lean ====
section
/-!
DEFINITION. The rows of the Fesil engine beside its instructions (R242 to R275): tasks, publication, the
program check, the memory window, the trace and the saturation bits.
-/

namespace Sys2Proof.Machine

namespace State

/-- LIMP_I × IFS of an axis in LIMP, which SP_ILIM exceeds as it is staged (R340). -/
def limpCap (s : State) (a : Nat) : Option (BitVec 32) :=
  let cap := fMul (fOfInt (s.rd F.BLK_LIMP_LIMP_I) (-15)) (s.bankW a 0x10)
  if s.axMode a == 4 && fLt cap (s.reg (R.FSL_SP a 4)) then some cap else none

/-- In LIMP the firmware limits SP_ILIM before it publishes (R340). -/
def limpLimit (s : State) (a : Nat) : State :=
  match s.limpCap a with
  | some c => s.setReg (R.FSL_SP a 4) c
  | none => s

/-- The firmware publishes the staged words; in LIMP it limits SP_ILIM first (R250, R340). -/
def publishSp (s : State) (a : Nat) : State := (s.limpLimit a).publish a

/-- A received I* is published as a current-form set beside the staged words, which stay the axis's own (R306, R309). -/
def publishReceived (s : State) (a : Nat) (iq : BitVec 32) : State :=
  let s := s.limpLimit a
  s.publishSet a ((s.stagedSp a).set 0 0#32 |>.set 1 iq) false

/-- A set-point in current form that the firmware publishes (R250, R338): FORM 0 and SP_IQ; the other
staged words stay. -/
def commandCurrent (s : State) (a : Nat) (iq : BitVec 32) : State :=
  ((s.setReg (R.FSL_SP a 0) 0#32).setReg (R.FSL_SP a 1) iq).publishSp a

/-- TEST_I of a brake test in ampere, positive or negative (R346). -/
def testCurrent (s : State) (a : Nat) (neg : Bool) : BitVec 32 :=
  let i : Int := s.rd F.BLK_BTEST_TEST_I
  fMul (fOfInt (if neg then -i else i) (-15)) (s.bankW a 0x10)

/-- Starts the next ready task (R242). -/
def startTask (s : State) (e : Ecc) : State :=
  if s.fsl.task.isSome || s.power.pllbHeld || s.power.roadHeld then s
  else match s.fsl.ready with
    | [] => s
    | a :: rest =>
      let w := (s.fsa a).waiting
      let s := (s.modFsl fun x => { x with ready := rest }).modFsa a fun x => { x with waiting := none }
      match w with
      | none => s
      | some i =>
        if !s.taskRuns a then s
        else s.withEcc e fun s =>
          let base := s.fresh
          let s := { s with fresh := s.fresh + 2 ^ 33 }
          let s := s.prelude a i
          s.modFsl fun x => { x with
            task := some { axis := a, set := i, base := base, pc := s.rd (F.FSL_TASK_ENTRY a), start := s.now
                           missed := s.reloadMissed a } }

/-- Idle cycles scrub the program and coefficient memory: the words they have corrected by now (R265, log entry 104). -/
def scrub (s : State) (n : Nat) : State :=
  if s.ctlOn && !s.power.pllbHeld then s.each (List.range (min 255 n)) fun s _ => s.fslEccFixed else s

/-- TRACE_CFG as written, with ARM and FORCE (R268). -/
def traceWrite (s : State) (w : Word) : State :=
  let s := s.setReg R.FSL_TRC_CFG (w &&& 0x5FFFFF03#32)
  if w.getLsbD 31 then s.traceArm else s

end State

/-- R242: Fesil starts the next ready axis task and runs its prelude; the idle cycles before it have corrected `scrubbed` words
(R265). -/
def execFesilTaskStart (t : Nat) (e : Ecc) (s : State) (scrubbed : Nat := 0) : Host.Outcome State Fault Refusal :=
  .next (((s.upTo t).scrub scrubbed).startTask e)

/-- R245: the reload guard of a carrier opens on the reload that the running program's commit is meant for. -/
def execReloadGuardOpen (t : Nat) (c : Fin 2) (s : State) (e : Ecc := .ok) : Host.Outcome State Fault Refusal :=
  let s := s.upTo t
  .next (match s.fsl.task with
    | some k => if k.axis = c.val ∧ s.cutDue k then s.withEcc e fun s => s.epilogue true else s
    | none => s)

/-- R245: the task reaches LIMIT − 40 cycles, counted from its start. -/
def execTaskLimitReached (t : Nat) (s : State) (e : Ecc := .ok) : Host.Outcome State Fault Refusal :=
  let s := s.upTo t
  .next (match s.fsl.task with
    | some k =>
      if s.taskRan k then
        (s.modTask fun x => { x with cyc := s.taskLimit k.axis }).withEcc e fun s => s.epilogue true
      else s
    | none => s)

/-- R250: PUB, through the voter, in every mode. -/
def execPub (t : Nat) (a : Fin 2) (s : State) : Host.Outcome State Fault Refusal :=
  let s := s.upTo t
  .next (if s.ctlOn && s.stores then s.publish a else s)

/-- R253: SWAP. -/
def execSwap (t : Nat) (a : Fin 2) (s : State) : Host.Outcome State Fault Refusal :=
  let s := s.upTo t
  .next (if s.ctlOn && s.stores then s.swapBanks a else s)

/-- R266: a write of RUN: 1 starts the program check; 0, in READY, lets no further task start. A task in progress runs to
its epilogue (R242, R244). -/
def execRun (t : Nat) (v : Bool) (s : State) : Host.Outcome State Fault Refusal :=
  let s := s.upTo t
  .next (if !s.ctlOn || !s.stores then s
  else if v then (if s.bit F.FSL_CTL_RUN then s else s.modFsl fun x => { x with checking := true })
  else if s.mode = 2 then
    let s := s.each [0, 1] fun s a => s.modFsa a fun x => { x with waiting := none }
    (s.lo F.FSL_CTL_RUN).modFsl fun x => { x with checking := false, ready := [] }
  else s.hi F.FSL_CTL_ACC_IGN)

/-- R266: the CRC-32C over the program completes. A word beyond correction leaves the sum a free value (log entry 104). -/
def execProgramCheckDone (t : Nat) (s : State) (e : Ecc := .ok) : Host.Outcome State Fault Refusal :=
  let s := s.upTo t
  .next (if !s.fsl.checking || !s.ctlOn || s.power.pllbHeld then s
  else
    let s := s.modFsl fun x => { x with checking := false }
    let s := if e == .corrected then s.fslEccFixed else s
    let crc := if e == .bad then (Config.freeWord s.fresh).toNat else s.progCrc
    let s : State := { s with fresh := s.fresh + 1 }
    if crc = s.rd F.FSL_PROG_REF_REF then (s.hi F.FSL_CTL_RUN).hi F.FSL_CTL_PROG_OK
    else ((s.lo F.FSL_CTL_PROG_OK).hi F.FSL_CTL_PROG_BAD).event 0x0609 0)

/-- R271: an access to FSL_MEM_DATA; a read leaves the module as a read of that register. -/
def execMemWindowAccess (t : Nat) (w : Option Word) (e : Ecc) (s : State) : Host.Outcome State Fault Refusal :=
  let s := s.upTo t
  .next (if !s.ctlOn then s.cond w.isNone fun s => s.emit (.read R.FSL_MEM_DATA 0#32)
  else if w.isSome && !s.stores then s
  else
    let r := s.memWindow w e
    match r.1, w with
    | some v, none => r.2.emit (.read R.FSL_MEM_DATA v)
    | _, _ => r.2)

/-- R273: writing MAX_CLR clears MAX. -/
def execMaxClr (t : Nat) (a : Fin 2) (s : State) : Host.Outcome State Fault Refusal :=
  let s := s.upTo t
  .next (if s.ctlOn && s.stores then s.lo (F.FSL_CYC_MAX a) else s)

/-- R268: a write of FSL_TRC_CFG with ARM. -/
def execTraceCfgArm (t : Nat) (w : Word) (s : State) : Host.Outcome State Fault Refusal :=
  let s := s.upTo t
  .next (if s.ctlOn && s.stores then s.traceWrite (w ||| 0x80000000#32) else s)

/-- R268: FORCE triggers the armed trace at once; the next record carries TRIG. -/
def execTraceForce (t : Nat) (s : State) : Host.Outcome State Fault Refusal :=
  let s := s.upTo t
  .next (if s.ctlOn && s.stores && s.rd F.FSL_TRC_STAT_STATE == 1 then
    -- a FORCE names no record's axis: the first that AXES selects (log entry 106)
    (s.traceTrigger (if s.rd F.FSL_TRC_CFG_AXES = 2 then 1 else 0)).modFsl fun x => { x with trcHit := true }
  else s)

/-- R268: an edge on GPIO2, the trace trigger input when it has its dedicated function. -/
def execTraceTriggerInput (t : Nat) (rising : Bool) (s : State) : Host.Outcome State Fault Refusal :=
  let s := s.upTo t
  .next (if s.ctlOn && Config.gpioDedicated 2 then s.traceHit (if rising then 1 else 2) else s)

/-- R270: writing 1 to FSL_CTL.SAT clears ECC_CNT with it. -/
def execFslCtlSatClear (t : Nat) (s : State) : Host.Outcome State Fault Refusal :=
  let s := s.upTo t
  .next (if s.ctlOn && s.stores then (s.clearBit F.FSL_CTL_SAT).lo F.FSL_CTL_ECC_CNT else s)

/-- R272: writing 1 to a SAT bit of the overrun or MISSING counter clears that count. -/
def execFslOvrSatClear (t : Nat) (miss : Bool) (a : Fin 2) (s : State) : Host.Outcome State Fault Refusal :=
  let s := s.upTo t
  .next (if !s.ctlOn || !s.stores then s
  else
    let r := if miss then R.FSL_MISS_CNT else R.FSL_OVR_CNT
    if a = 0 then (s.lo ⟨r, 0, 15⟩).clearBit ⟨r, 15, 1⟩ else (s.lo ⟨r, 16, 15⟩).clearBit ⟨r, 31, 1⟩)

end Sys2Proof.Machine
end

