-- ==== Sys2Proof/Machine/UzCtl.lean ====
section
/-!
DEFINITION. Uzodar's shared operations beside the safe-state table: an STO demand, contactors, safety output
faults, lane faults and the configuration shadow (R323 to R327, R345, R348 to R354).
-/

namespace Sys2Proof.Machine

namespace State

/-! ## STO (R324 to R326) -/

/-- An axis that an STO demand has brought to its end state ahead of the module. -/
def stoAxis (s : State) (a : Nat) : State :=
  let s := s.modUz a fun u => { u with stoOff := true }
  (s.rowModes a true false).regate a

/-- With STO_MODE 1 the demand runs SS1 on every axis that runs; without one STO is active at once. -/
def stoSs1 (s : State) : State :=
  let run := s.axes.filter fun a => s.running a
  if run.isEmpty then s.stoActive
  else
    let s := s.each run fun s a => s.startSs1 a true
    s.each (s.axes.filter fun a => !s.running a) stoAxis

/-! ## Safety outputs (R345) -/

/-- A fault of a safety output is latched with its cause; row 28 is activated. -/
def soFault (s : State) (n cause : Nat) : State :=
  if s.soCause n ≠ 0 then s
  else
    let s := s.wr ⟨R.SAF_SO, 4 * n + 1, 3⟩ cause
    let s := (s.soUpdate).event 0x0C0A (n + 256 * cause)
    (s.activateRow 28 0).latchedBit

/-! ## Contactors (R348) -/

/-- A voted line-close request starts the pre-charge (R348). It finds no effect while an active row, a lane
fault or a discharge keeps the contactors open. -/
def lineClose (s : State) : State :=
  let barred := (List.range 32).any fun k =>
    s.uz (F.BLK_SST_CO0 k) == 1 && s.axes.any (fun a => s.rowActive a k)
  if !s.safeOn || !s.bit F.SAF_STAT_SHADOW || barred || s.bit F.SAF_STAT_LANE_FAULT || s.saf.discharge != .idle
      || s.saf.precharge != .idle || s.bit F.SAF_STAT_CO0_CMD then s
  else
    let s := s.modSaf fun u => { u with precharge := .co1 s.now }
    if Config.co1Unused then s
    else ((s.hi F.SAF_STAT_CO1_CMD).lo F.SAF_STAT_FB1).modSaf fun u => { u with co1At := s.now }

/-! ## Lane faults (R354) -/

/-- Both lanes withdraw every permit; every safety output and contactor opens; the module is in HOLD. -/
def laneFault (s : State) : State :=
  if !s.safeOn || s.bit F.SAF_STAT_LANE_FAULT then s
  else
    let s := (s.hi F.SAF_STAT_LANE_FAULT).event 0x0C12 0
    let s := s.faultN.openContactors
    let s := s.each s.axes fun s a =>
      let s := s.cond (s.ss1On a) fun s => s.clearSs1 a
      s.rowModes a true false
    (s.each s.axes regate).soUpdate.latchedBit

/-! ## The configuration shadow (R323) -/

/-- Registers whose boot-locked fields Uzodar copies: the stage and the role, this chapter's, ADCB's
calibration, the field control's, the gate channels' thresholds and the dead-time floor of R334. -/
def shadowRegs : List Nat :=
  [R.BLK_ROLE, R.BLK_STAGE] ++ (List.range 32).map R.BLK_SST ++ (List.range 16).map (fun i => R.BLK_STO + 4 * i)
    ++ (List.range 16).map (R.ADC_CAL 1) ++ [R.FSL_FC_SAFE 0, R.FSL_FC_SAFE 1]
    ++ (List.range 12).map R.GDC_UVLO ++ (List.range 12).map R.GDC_DESAT ++ [R.PWM_FLOOR]

/-- The shadow and the registers hold the same values. -/
def shadowSame (s : State) : Bool :=
  shadowRegs.all fun o => kvGet resetVal s.saf.shadow o == s.reg o

/-- At BLK_LOCK Uzodar loads its shadow, or compares the reloaded values with it (R323). -/
def shadowAtLock (s : State) : State :=
  if !s.safeOn then s
  else if s.bit F.SAF_STAT_SHADOW then (if s.shadowSame then s else s.activateRow 30 0)
  else
    let sh := shadowRegs.foldl (fun m o => kvSet resetVal m o (s.reg o)) []
    let s := (s.modSaf fun u => { u with shadow := sh, soFrom := s.now }).hi F.SAF_STAT_SHADOW
    (s.each s.axes regate).soUpdate

end State

end Sys2Proof.Machine
end

