-- ==== Sys2Proof/Machine/Rec.lean ====
section
/-!
DEFINITION. The recorder's medium and the journal in SRAM and flash (R436 to R451, R504 to R531): blocks,
logs, page programs, the mirror, the mount and the rebuild at boot.
-/

namespace Sys2Proof.Machine

namespace State

def modMed (s : State) (f : Medium → Medium) : State := { s with med := f s.med }

def modRec (s : State) (f : Recorder → Recorder) : State := { s with recd := f s.recd }

def blk (s : State) (b : Nat) : Blk := kvGet (fun _ => {}) s.med.blks b

def modBlk (s : State) (b : Nat) (f : Blk → Blk) : State :=
  s.modMed fun m => { m with blks := kvSet (fun _ => {}) m.blks b (f (s.blk b)) }

def flashObj (s : State) (o : Nat) : FlashObj := kvGet (fun _ => {}) s.med.objs o

end State

/-! ## Pages (R507, R512, R515) -/

/-- The 32 entry bytes of R436. -/
def JEntry.bytes (e : JEntry) : List Byte :=
  leBytes 8 e.jseq ++ leBytes 8 e.ct ++ leBytes 8 e.hseq ++ leBytes 1 e.ring ++ leBytes 1 e.opcode
    ++ leBytes 1 e.status ++ leBytes 1 (e.kind + (if e.sync then 16 else 0) + (if e.gap then 32 else 0))
    ++ leBytes 4 e.argh

/-- The 4,096 data bytes of a page; those that nothing fills are 0 (R512, log entry 107). -/
def pageFill (bs : List Byte) : List Byte := (bs ++ List.replicate 4096 0#8).take 4096

/-- The 32 metadata bytes of a page: role, partition or log index, page index, erase count, sequence, first JSEQ or RNUM, and
the CRC-32C (R507). -/
def pageMeta (role index page erases seq first : Nat) (data : List Byte) : List Byte :=
  let h := leBytes 1 role ++ leBytes 1 index ++ leBytes 2 page ++ leBytes 4 erases ++ leBytes 8 seq ++ leBytes 8 first
  h ++ leBytes 4 (crc32c (data ++ h)) ++ leBytes 4 0

/-- A page whose metadata CRC holds (R508). -/
def metaOk (data tag : List Byte) : Bool := fieldLe tag 24 4 == crc32c (data ++ tag.take 24)

/-- The data of a journal page (R512). -/
def journalData (es : List JEntry) (hash : List Byte) : List Byte :=
  pageFill (leBytes 8 ((es.head?.map (·.jseq)).getD 0) ++ leBytes 2 es.length ++ List.replicate 6 0#8 ++ hash
    ++ es.flatMap JEntry.bytes)

/-- A record as it stands in a page: a confidential one sealed under FMTID and its RNUM (R515, R516). -/
def recStored (fmtid : Nat) (i : RecItem) : List Byte :=
  let h := leBytes 8 i.rnum ++ leBytes 8 i.ct ++ leBytes 1 i.kind ++ leBytes 1 i.conf.toNat ++ leBytes 2 i.payload.length
  let pay := if i.conf then Config.recSeal (beBytes 4 fmtid ++ beBytes 8 i.rnum) h i.payload else i.payload
  let bs := h ++ leBytes 4 (crc32c (h ++ pay)) ++ pay
  bs ++ List.replicate ((8 - bs.length % 8) % 8) 0#8

/-- The data of an event page. -/
def eventData (fmtid : Nat) (items : List RecItem) : List Byte := pageFill (items.flatMap (recStored fmtid))

/-- Metadata of a journal page and of an event page in a block of an erase count; a page without records, the close page,
carries the next RNUM (R507, log entry 107). -/
def journalTag (erases seq : Nat) (es : List JEntry) (hash : List Byte) : List Byte :=
  pageMeta 3 (Config.partIndex 3 0).toNat 0 erases seq ((es.head?.map (·.jseq)).getD 0) (journalData es hash)

def eventTag (fmtid erases seq next : Nat) (items : List RecItem) : List Byte :=
  pageMeta 4 (Config.partIndex 4 0).toNat 0 erases seq ((items.head?.map (·.rnum)).getD next) (eventData fmtid items)

/-- Metadata of page `i` of a static partition (R507). -/
def objectTag (obj i erases gen : Nat) (bytes : List Byte) : List Byte :=
  pageMeta 2 (Config.partIndex 2 obj).toNat i erases gen 0 (pageFill (bytes.drop (4096 * i)))

namespace State

/-- The two anchor blocks, and the one that holds the newest anchor record (R509). -/
def anchors (s : State) : List Nat := (List.range 8).filter fun b => (s.blk b).use == .anchor
def anchorBlk (s : State) : Nat := s.anchors.getD s.med.anchorCur.toNat (s.anchors.headD 0)

/-- Metadata of the pages of the newest anchor record (R507, R509). -/
def anchorTags (s : State) : List (List Byte) :=
  let b := s.anchorBlk
  (List.range (Config.anchorPages.val + 1)).map fun p =>
    pageMeta 1 (Config.partIndex 1 0).toNat p (s.blk b).erases s.med.gen 0 (pageFill (Config.anchorData s.med.gen p))

/-! ## Accounting (R518, R523) -/

/-- LIVE pages of a block. -/
def liveOf (b : Blk) : Nat := if b.use = .free ∨ b.use = .bad then 0 else min 64 b.live

/-- BAD pages of a block. -/
def badOf (b : Blk) : Nat := if b.use = .bad then 64 else 0

/-- FREE pages of a block. -/
def freeOf (b : Blk) : Nat := if b.use = .bad then 0 else 64 - liveOf b

/-- A sum over the blocks of the medium. -/
def sumBlks (s : State) (f : Blk → Nat) : Nat := ((List.range s.med.size).map fun b => f (s.blk b)).foldl (· + ·) 0

/-- Erased blocks outside the log reserves. -/
def erasedFree (s : State) : List Nat :=
  (List.range s.med.size).filter fun b => (s.blk b).use == .free && (s.blk b).erased

/-- REC page counts, record numbers and wear at a commit point. -/
def recRegs (s : State) : State :=
  let put (s : State) (r v : Nat) : State := s.setReg r (BitVec.ofNat 32 v)
  let s := put s R.REC_PAGES_LIVE (s.sumBlks liveOf)
  let s := put s R.REC_PAGES_FREE (s.sumBlks freeOf)
  let s := put s R.REC_PAGES_BAD (s.sumBlks badOf)
  let s := put s R.REC_PAGES_TOTAL (64 * s.med.size)
  let s := s.wr64 R.REC_HEAD_LO R.REC_HEAD_HI s.recd.rnum
  let tail := match s.med.epages.find? (fun p => !p.items.isEmpty) with
    | some p => (p.items.head?.map (·.rnum)).getD 0
    | none => s.recd.rnum
  let s := s.wr64 R.REC_TAIL_LO R.REC_TAIL_HI tail
  let es := ((List.range s.med.size).filter fun b => (s.blk b).use != .bad).map fun b => (s.blk b).erases
  (s.wrSat F.REC_WEAR_EMAX (es.foldl max 0)).wrSat F.REC_WEAR_EMIN (es.foldl min (es.foldl max 0))

/-! ## The write ban (R443, R524, R526) -/

/-- The recorder may write. -/
def canWrite (s : State) : Bool :=
  s.commOn && s.bit F.REC_STAT_MOUNTED && !s.bit F.REC_STAT_BAN && !s.bit F.REC_STAT_READ_ONLY
    && !s.bit F.REC_STAT_FMT_NONE

/-- Nothing is written or erased: the temperature ban or the read-only state stands (R524, R526). -/
def banned (s : State) : Bool := s.bit F.REC_STAT_BAN || s.bit F.REC_STAT_READ_ONLY

/-- JRN_STAT.BAN follows the ban, the read-only state and an unformatted medium. -/
def banBit (s : State) : State :=
  let b := s.bit F.REC_STAT_BAN || s.bit F.REC_STAT_READ_ONLY || s.bit F.REC_STAT_FMT_NONE
  let s := s.cond (!b) fun s => { s with jrn := { s.jrn with banTold := false } }
  s.wrB F.JRN_STAT_BAN b

/-- The ban is entered (R526). -/
def banEnter (s : State) : State :=
  let s := s.modRec fun r => { r with liftFrom := none }
  if s.bit F.REC_STAT_BAN then s else (((s.modRec fun r => { r with begun := !r.progs.isEmpty }).hi F.REC_STAT_BAN).event 0x0F01 0).banBit

/-- Fewer than 4 erased blocks outside the reserves: read-only (R522, R524). -/
def spareCheck (s : State) : State :=
  if s.erasedFree.length < 4 ∧ s.bit F.REC_STAT_READ_ONLY = false ∧ s.bit F.REC_STAT_FMT_NONE = false then
    ((s.hi F.REC_STAT_READ_ONLY).event 0x0F09 0).banBit
  else s

/-! ## Blocks (R519, R522, R523) -/

/-- The erased block with the lowest erase count below a bound of numbers (R523). -/
def pickErased (s : State) (bound : Nat) : Option Nat :=
  (s.erasedFree.filter (fun b => decide (b < bound))).foldl (fun best b =>
    match best with
    | none => some b
    | some c => if (s.blk b).erases < (s.blk c).erases then some b else some c) none

/-- Takes an erased block for a use. -/
def takeBlk (s : State) (bound : Nat) (u : BlkUse) : Option Nat × State :=
  match s.pickErased bound with
  | none => (none, s)
  | some b => (some b, (s.modBlk b fun k => { k with use := u, erased := false, live := 0 }).spareCheck)

/-- Takes `n` erased blocks of CS0 for a use. -/
def takeBlks (s : State) (u : BlkUse) : Nat → List Nat × State
  | 0 => ([], s)
  | n + 1 =>
    let r := takeBlks s u n
    match r.2.takeBlk r.2.med.cs0 u with
    | (some b, s) => (r.1 ++ [b], s)
    | (none, s) => (r.1, s)

/-- A block becomes FREE, to be erased before reuse. -/
def freeBlk (s : State) (b : Nat) : State :=
  s.modBlk b fun k => { k with use := .free, erased := false, live := 0 }

/-- An anchor record is committed: behind the one before it, or, where its block has no room, from the first page of the
other anchor block, which is erased (R509). -/
def anchorRec (s : State) : State :=
  let n := Config.anchorPages.val + 1
  let s := s.modMed fun m => { m with gen := m.gen + 1 }
  if s.anchors.isEmpty then s
  else if s.med.anchorUsed + n ≤ 64 then
    (s.modBlk s.anchorBlk fun k => { k with live := n }).modMed fun m => { m with anchorUsed := m.anchorUsed + n }
  else
    let s := (s.modBlk s.anchorBlk fun k => { k with live := 0 }).modMed fun m =>
      { m with anchorCur := !m.anchorCur, anchorUsed := n }
    s.modBlk s.anchorBlk fun k => { k with erases := k.erases + 1, live := n }

/-- The next anchor record goes to the other anchor block. -/
def anchorTurn (s : State) : State := (s.modMed fun m => { m with anchorUsed := 64 }).anchorRec

/-- The metadata of an object's pages after block `b` of it moved into a block of another erase count. -/
def retag (obj b erases : Nat) (blocks : List Nat) (bytes : List Byte) (tags : List (List Byte)) : List (List Byte) :=
  (List.range tags.length).map fun i =>
    let old := tags.getD i []
    if blocks.getD (i / 64) 0 = b then objectTag obj i erases (fieldLe old 8 8) bytes else old

/-- Content moves from one block to another: pages with their metadata, logs, objects and stagings follow. -/
def moveBlk (s : State) (b c : Nat) : State :=
  let k := s.blk b
  let re (l : List Nat) : List Nat := l.map fun x => if x = b then c else x
  let log (g : RLog) : RLog := { g with blocks := re g.blocks, reserve := g.reserve.map fun x => if x = b then c else x }
  let s := s.modBlk c fun n => { n with use := k.use, live := k.live, erased := false }
  let er := (s.blk c).erases
  let s := s.anchorRec.modMed fun m => { m with
    jlog := log m.jlog
    elog := log m.elog
    jpages := m.jpages.map fun p => if p.blk = b then
        { p with blk := c, tag := journalTag er (fieldLe p.tag 8 8) p.entries p.hash } else p
    epages := m.epages.map fun p => if p.blk = b then
        { p with blk := c, tag := eventTag m.fmtid er (fieldLe p.tag 8 8) (fieldLe p.tag 16 8) p.items } else p
    objs := m.objs.map fun o =>
      (o.1, { o.2 with blocks := re o.2.blocks, tags := retag o.1 b er o.2.blocks o.2.bytes o.2.tags }) }
  s.modRec fun r => { r with stage := r.stage.map fun g =>
    { g with blocks := re g.blocks, tags := retag g.obj b er g.blocks g.bytes g.tags } }

/-- An anchor block is bad: another good block of the first eight takes its place, and the next anchor record goes to the
block that remains (R509, R522). -/
def anchorLost (s : State) (b : Nat) : State :=
  let s := s.modBlk b fun k => { k with use := .bad, live := 0, erased := false }
  let keep := s.anchors.headD 0
  let s := match (s.erasedFree.filter fun c => decide (c < 8)).head? with
    | some c => s.modBlk c fun k => { k with use := .anchor, erased := false, live := 0 }
    | none => s
  (s.modMed fun m => { m with anchorCur := s.anchors.headD 0 == keep }).anchorTurn

/-- A block is retired as bad; its LIVE pages go to a spare block (R522). -/
def retire (s : State) (b : Nat) : State :=
  let s := if (s.blk b).use = .anchor then s.anchorLost b
    else
      let s := match s.pickErased s.med.size with
        | some c => s.moveBlk b c
        | none => s.anchorRec
      s.modBlk b fun k => { k with use := .bad, live := 0, erased := false }
  let s := (s.count F.REC_CNT_GROWN F.REC_CNT_SAT 0x0F0C 0).event 0x0F04 b
  s.spareCheck.recRegs

/-- Blocks of the journal mirror and of the event recorder (R510). -/
def logSize (s : State) (ev : Bool) : Nat :=
  let spare := max 16 (s.med.cs0 / 32)
  let m := (s.med.cs0 - 13 - spare) / 4
  if ev then s.med.cs0 - 13 - spare - m + (s.med.size - s.med.cs0) else m

def log (s : State) (ev : Bool) : RLog := if ev then s.med.elog else s.med.jlog

def putLog (s : State) (ev : Bool) (g : RLog) : State :=
  s.modMed fun m => if ev then { m with elog := g } else { m with jlog := g }

/-- Opens the reserve as the head block; the oldest block becomes the reserve once the log is at its size
(R512, R519). -/
def openLog (s : State) (ev : Bool) : State :=
  let g := s.log ev
  let head := g.reserve.toList
  let blocks := g.blocks ++ head
  let s := s.anchorRec
  if blocks.length < s.logSize ev then
    match s.takeBlk (if ev then s.med.size else s.med.cs0) (if ev then .elog else .jlog) with
    | (r, s) => s.putLog ev ⟨blocks, 0, r, g.seq⟩
  else
    match blocks with
    | [] => s
    | old :: rest =>
      let s := s.modBlk old fun k => { k with erases := k.erases + 1, live := 0 }
      let base := match (s.med.jpages.filter (fun p => p.blk == old)).getLast? with
        | some p => p.hash
        | none => s.med.jbase
      let s := if ev then s.modMed fun m => { m with epages := m.epages.filter fun p => p.blk != old }
        else s.modMed fun m => { m with jpages := m.jpages.filter (fun p => p.blk != old), jbase := base }
      (s.putLog ev ⟨rest, 0, some old, g.seq⟩).event 0x0F07 ev.toNat

/-- Makes room for one page at a log's head. -/
def roomLog (s : State) (ev : Bool) : State :=
  let g := s.log ev
  if g.blocks.isEmpty || decide (64 ≤ g.used) then s.openLog ev else s

/-- The head block of a log and its next page. -/
def headOf (s : State) (ev : Bool) : Nat × Nat := ((s.log ev).blocks.getLast?.getD 0, (s.log ev).used)

/-- Counts a page programmed at a log's head. -/
def usePage (s : State) (ev : Bool) : State :=
  let g := s.log ev
  let s := s.modBlk (s.headOf ev).1 fun k => { k with live := g.used + 1 }
  s.putLog ev { g with used := g.used + 1, seq := g.seq + 1 }

/-! ## The journal's entries (R436, R446, R448) -/

end State

/-- An entry has its final STATUS (R439). -/
def JEntry.final (e : JEntry) : Bool := e.status != 0xFF || e.kind != 0

namespace State

/-- Every entry of the mirror, oldest first. -/
def mirror (s : State) : List JEntry := (s.med.jpages.filter (·.good)).flatMap (·.entries)

/-- The entry with a JSEQ, from SRAM while held there, else from the mirror. -/
def findEntry (s : State) (j : Nat) : Option JEntry :=
  match s.jrn.entries.find? (fun e => e.jseq == j) with
  | some e => some e
  | none => s.mirror.find? (fun e => e.jseq == j)

/-- The entry that slot `n` of the aperture shows (R446). -/
def apertureEntry (s : State) (n : Nat) : Option JEntry :=
  let head := s.rd64 R.JRN_HEAD_SEQ_LO R.JRN_HEAD_SEQ_HI
  s.jrn.entries.find? fun e => e.jseq % 1024 == n && decide (head < e.jseq + 1024)

/-- The eight words of an aperture slot; 0 without an entry. -/
def apertureWords (s : State) (n : Nat) : List (BitVec 32) :=
  match s.apertureEntry n with
  | none => List.replicate 8 0#32
  | some e => (List.range 8).map fun k => BitVec.ofNat 32 (fieldLe e.bytes (4 * k) 4)

/-- Entries not yet committed, oldest first. -/
def unmirroredList (s : State) : List JEntry :=
  let m := s.rd64 R.JRN_MIRROR_SEQ_LO R.JRN_MIRROR_SEQ_HI
  s.jrn.entries.filter fun e => decide (m < e.jseq)

/-- The batch that may be written now: 64 final entries, or those up to a final SYNC entry (R442). -/
def nextBatch (s : State) : List JEntry :=
  let l := s.unmirroredList
  let fin := l.takeWhile (·.final)
  if 64 ≤ fin.length then fin.take 64
  else
    let n := fin.reverse.dropWhile (fun e => !e.sync)
    n.reverse

/-- The commit of a batch: JRN_MIRROR_SEQ moves, slots are free, completions that waited are released
(R441, R442, R451). -/
def batchCommit (s : State) (es : List JEntry) : State :=
  let s := s.roomLog false
  let at_ := s.headOf false
  let prev := match s.med.jpages.getLast? with
    | some p => p.hash
    | none => if s.med.jbase.isEmpty then List.replicate 48 0#8 else s.med.jbase
  let h := Config.sha384 (prev ++ es.flatMap JEntry.bytes)
  let tag := journalTag (s.blk at_.1).erases (s.log false).seq es h
  let s := (s.modMed fun m => { m with jpages := m.jpages ++ [⟨at_.1, at_.2, es, h, tag, true⟩] }).usePage false
  let last := (es.getLast?.map (·.jseq)).getD 0
  let more := s.recd.progs.any fun p => match p with
    | .journal _ => true
    | _ => false
  let s := { s with jrn := { s.jrn with batch := more } }
  let s := (s.wr64 R.JRN_MIRROR_SEQ_LO R.JRN_MIRROR_SEQ_HI last).journalRegs
  let go := s.hif.syncHeld.filter fun c => decide (c.cmd.jseq ≤ last)
  let s := { s with hif := { s.hif with syncHeld := s.hif.syncHeld.filter fun c => decide (last < c.cmd.jseq) } }
  let s : State := go.foldl issue s
  if s.jrn.behind ∧ s.unmirrored = 0 then
    ({ s with jrn := { s.jrn with behind := false } }).event 0x0406 0
  else s

/-! ## Staging and its pages (R514, R515) -/

/-- The staging is written out: its records become one page program (R514). -/
def flushStaging (s : State) : State :=
  if s.recd.staging.isEmpty then s
  else s.modRec fun r => { r with progs := r.progs ++ [.events r.staging], staging := [], stagedAt := none }

/-- A page of the event log is programmed at its head (R507, R514, R519). -/
def eventPage (s : State) (items : List RecItem) : State :=
  let s := s.roomLog true
  let at_ := s.headOf true
  let tag := eventTag s.med.fmtid (s.blk at_.1).erases (s.log true).seq s.recd.rnum items
  (s.modMed fun m => { m with epages := m.epages ++ [⟨at_.1, at_.2, items, tag, true⟩] }).usePage true

/-- The commit of an event page: staging space is free, marks complete (R514, R421). -/
def eventsCommit (s : State) (items : List RecItem) : State :=
  let size := (items.map fun i => recSize i.payload.length i.conf).foldl (· + ·) 0
  let s := (s.eventPage items).modMed fun m => { m with closed := false }
  let s := s.modRec fun r => { r with staged := r.staged - size }
  let has (n : Nat) : Bool := items.any fun i => i.rnum == n
  let go := s.recd.marks.filter fun m => has m.1
  let s := s.modRec fun r => { r with marks := r.marks.filter fun m => !has m.1 }
  let s : State := go.foldl (fun s m => s.complete m.2 stOk 0) s
  let s := s.cond s.recd.dropTold fun s => (s.modRec fun r => { r with dropTold := false }).event 0x0F0A 0
  s.recRegs

/-! ## At boot (R444, R520, R521) -/

/-- A page program at a log's head is interrupted: the device loses power or is reset while it runs (R519, R520). -/
def tear (s : State) : State :=
  if s.banned && !s.recd.begun then s
  else match s.recd.progs.head? with
    | some (.journal _) => s.modMed fun m => { m with tornJ := true }
    | some (.events _) | some .close => s.modMed fun m => { m with tornE := true }
    | _ => s

/-- A head block that ends at an unreadable page is closed: the log goes on in its reserve block (R520). -/
def closeTorn (s : State) (ev : Bool) : State :=
  let b := (s.headOf ev).1
  let bad := if ev then s.med.tornE || ((s.med.epages.getLast?.map fun p => p.blk == b && !p.good).getD false)
    else s.med.tornJ || ((s.med.jpages.getLast?.map fun p => p.blk == b && !p.good).getD false)
  let s := s.cond bad fun s => s.putLog ev { s.log ev with used := 64 }
  s.modMed fun m => if ev then { m with tornE := false } else { m with tornJ := false }

/-- Each start of the CPU domain mounts the medium. -/
def mount (s : State) : State :=
  let s := (s.closeTorn false).closeTorn true
  let s := s.wrB F.REC_STAT_FMT_NONE (!s.med.formatted)
  let items := s.med.epages.flatMap (·.items)
  let gap := s.med.formatted && !s.med.closed
  let next := match items.getLast? with
    | some i => i.rnum + (if gap then 4096 else 1)
    | none => 0
  let s := s.modRec fun r => { r with rnum := if r.staging.isEmpty && r.progs.isEmpty then next else r.rnum }
  let s := (s.wrB F.REC_STAT_GAP gap).hi F.REC_STAT_MOUNTED
  let s := s.wrB F.REC_STAT_READ_ONLY (s.med.formatted && decide (s.erasedFree.length < 4))
  let cs1 := s.bit F.REC_CFG_CS1_EN && decide (s.med.cs0 < s.med.size)
  let s := (s.wrB F.REC_STAT_CS1 cs1).cond (s.bit F.REC_CFG_CS1_EN && !cs1) fun s => s.event 0x0F0E 0
  let s := s.wrB F.REC_STAT_BAN (!s.bit F.HKP_STAT_NTC3_OK)
  (s.banBit.recRegs).event 0x0F0B gap.toNat

/-- The journal is rebuilt from the mirror, and a BOOT entry is written (R444). -/
def journalRebuild (s : State) : State :=
  let m := s.mirror
  let keep := m.drop (m.length - 2047)
  let last := m.getLast?
  let lastSeq := (last.map (·.jseq)).getD 0
  let clean := match last with
    | some e => e.kind == 2
    | none => true
  let s := { s with jrn := { s.jrn with entries := keep, batch := false } }
  let s := (s.wr64 R.JRN_HEAD_SEQ_LO R.JRN_HEAD_SEQ_HI lastSeq).wr64 R.JRN_MIRROR_SEQ_LO R.JRN_MIRROR_SEQ_HI lastSeq
  let s := s.each [0, 1, 2, 3] fun s n =>
    let h := (m.filter fun e => e.kind == 0 && e.ring == n).getLast?
    s.wr64 (R.JRN_HEAD_HSEQ_LO n) (R.JRN_HEAD_HSEQ_HI n) ((h.map (·.hseq)).getD 0)
  let s := s.wrB F.JRN_STAT_GAP (!clean)
  let s := s.journalModule (if clean then 1 else 2049) 1 lastSeq ((s.reg R.PCK_WAKE_SRC).toNat % 65536) (!clean)
  s.cond (!clean) fun s => s.event 0x0405 (lastSeq % 2 ^ 32)

end State

end Sys2Proof.Machine
end

