-- ==== Sys2Proof/Machine/Sec.lean ====
section
/-!
DEFINITION. Signed objects and one-time-programmable memory (R381 to R385, R394 to R397, R400).
-/

namespace Sys2Proof.Machine

namespace State

/-! ## OTP (R381, R382) -/

/-- An OTP byte: as blown since delivery, else as delivered. -/
def otp (s : State) (a : Nat) : Byte := kvGet Config.otpByte s.sec.otp a

def otpBytes (s : State) (a n : Nat) : List Byte := (List.range n).map fun i => s.otp (a + i)

/-- Writes an OTP byte; fuses only rise. -/
def blow (s : State) (a : Nat) (b : Byte) : State :=
  { s with sec := { s.sec with otp := kvSet Config.otpByte s.sec.otp a (s.otp a ||| b) } }

/-- The anti-rollback counter: a step is taken when either of its two fuses is blown. Step k holds bits 2k
and 2k + 1 of its 16 bytes (log entry 36). -/
def rollback (s : State) : Nat :=
  ((List.range 64).filter fun k => (s.otp (0x300 + k / 4)).toNat / 4 ^ (k % 4) % 4 != 0).length

/-- Takes the next steps of the counter up to a value. -/
def advanceTo (s : State) (v : Nat) : State :=
  s.each (List.range (min v 64)) fun s k =>
    if (s.otp (0x300 + k / 4)).toNat / 4 ^ (k % 4) % 4 = 0 then
      s.blow (0x300 + k / 4) (BitVec.ofNat 8 (3 * 4 ^ (k % 4)))
    else s

/-- OTP address of a key slot: owner slots 0 to 3, debug slots 0 and 1. -/
def slotAddr (debug : Bool) (k : Nat) : Nat := if debug then 0x240 + 96 * k else 0x40 + 128 * k

/-- An owner slot is revoked when its revocation byte is not 0 (log entry 36). -/
def revoked (s : State) (k : Nat) : Bool := s.otp (slotAddr false k + 96) != 0#8

/-- SEC_ARB shows the counter and the revoked slots. -/
def arbRegs (s : State) : State :=
  let r := ((List.range 4).filter s.revoked).foldl (fun m k => m + 2 ^ k) 0
  (s.wr F.SEC_ARB_COUNTER s.rollback).wr F.SEC_ARB_REVOKED r

/-- The unit's serial number (R571). -/
def serial (_s : State) : Nat := Config.serialLo.toNat + 2 ^ 32 * Config.serialHi.toNat

end State

/-! ## Signed objects (R383 to R385) -/

/-- Largest payload of a kind; a debug response has exactly 64 bytes and a revocation 4. -/
def payloadLimit (kind : Nat) : Nat :=
  match kind with
  | 1 | 3 => 760 * 1024
  | 2 => 32 * 1024
  | 4 => 64
  | 5 => 4
  | _ => 0

/-- The pair of a configuration payload at index k: register offset and value. -/
def cfgPair (payload : List Byte) (k : Nat) : Nat × Nat := (fieldLe payload (8 * k) 4, fieldLe payload (8 * k + 4) 4)

/-- The registers with BL fields: one pair each (R385, R569). -/
def blCount : Nat :=
  (((List.range 18).flatMap regRows).filter (fun r => r.bl != 0)).foldl (fun n r => n + r.n1 * r.n2) 0

/-- A pair names a register with BL fields and sets no reserved bit (R385). -/
def pairOk (p : Nat × Nat) : Bool :=
  match findRow p.1 with
  | some r => p.1 % 4 == 0 && r.bl != 0 && Nat.land p.2 (2 ^ 32 - 1 - Nat.lor r.bl r.rw) == 0
  | none => false

/-- The pairs of a configuration. -/
def cfgPairs (payload : List Byte) : List (Nat × Nat) := (List.range blCount).map (cfgPair payload)

namespace State

/-- The checks of R384 on an object of a wanted kind: the cause code of R404, 0 for a pass. -/
def verify (s : State) (kind : Nat) (bs : List Byte) : Nat :=
  let slot := fieldLe bs 6 2
  let len := fieldLe bs 12 4
  let payload := slice bs 17120 len
  let debug := kind == 4
  let exact := kind == 4 || kind == 5
  if fieldLe bs 0 4 ≠ 1 ∨ fieldLe bs 4 2 ≠ kind ∨ payloadLimit kind < len ∨ bs.length < 17120 + len
      ∨ (exact ∧ len ≠ payloadLimit kind) ∨ (if debug then 2 else 4) ≤ slot
      ∨ (kind = 2 ∧ (len < 8 * blCount ∨ (cfgPairs payload).all pairOk = false)) then 2
  else if Config.sha384 (slice bs 80 384) ≠ s.otpBytes (slotAddr debug slot) 48
      ∨ Config.sha384 (slice bs 464 48) ≠ s.otpBytes (slotAddr debug slot + 48) 48 then 3
  else if debug = false ∧ s.revoked slot = true then 4
  else if Config.rsaOk (slice bs 80 384) (slice bs 0 512) (slice bs 512 384) = false then 5
  else if Config.slhOk (slice bs 464 48) (slice bs 0 512) (slice bs 896 16224) = false then 6
  else if fieldLe bs 16 4 ≠ 0x9880 ∨ (fieldLe bs 20 8 ≠ 0 ∧ fieldLe bs 20 8 ≠ s.serial) then 8
  else if fieldLe bs 8 4 < s.rollback ∨ 64 < fieldLe bs 8 4 then 9
  else if Config.sha384 payload ≠ slice bs 32 48 then 7
  else 0

/-- The cause for an object in flash: an unreadable page, then the checks; `split` tells that the two code
paths disagreed (R384, R388). -/
def verifyFlash (s : State) (o : Nat) (split : List Nat) : Nat :=
  let f := s.flashObj o
  if !f.good then 1
  else if split.contains o then 10
  else s.verify (if o < 2 then 1 else 2) f.bytes

end State

end Sys2Proof.Machine
end

