-- ==== Sys2Proof/Machine/RecRows.lean ====
section
/-!
DEFINITION. What the recorder and the journal do: page programs, erases, flushes, formatting, scrubbing, wear
levelling, the ban, mirror batches and the journal's own registers (R394, R436 to R451, R504 to R531).
-/

namespace Sys2Proof.Machine

namespace State

/-! ## SHUTDOWN (R77) -/

/-- Step 4 of SHUTDOWN follows once the mirror and the recorder are written out. -/
def shutdownStep (s : State) : State :=
  if s.power.phase = .flush ∧ s.recd.progs = [] then
    { s with power := { s.power with phase := .gateDown, en3 := false } }
  else s

/-! ## Staged objects (R394, R528) -/

/-- A staging is abandoned; its blocks become FREE. -/
def dropStage (s : State) : State :=
  match s.recd.stage with
  | none => s
  | some g => (g.blocks.foldl freeBlk s).modRec fun r => { r with stage := none }

/-- A revocation that has verified blows the revocation byte of the slot it names (R394). -/
def revoke (s : State) (bs : List Byte) (c : Cmd) : State :=
  let k := fieldLe bs 17120 4
  let others := (List.range 4).any fun j => j != k && !s.revoked j
  if 4 ≤ k ∨ fieldLe bs 6 2 = k ∨ others = false then s.complete c stArg 0
  else (((s.blow (slotAddr false k + 96) 0xFF#8).arbRegs).event 0x110A k).complete c stOk 0

/-- The last part of an object is written: the object is verified as it stands in flash; `split` tells that the two code
paths disagreed (R384, R394). -/
def stageLast (s : State) (c : Cmd) (split : Bool) : State :=
  match s.recd.stage with
  | none => s.complete c stArg 0
  | some g =>
    let cause := if split then 10 else s.verify (if g.obj < 2 then 1 else if g.obj < 4 then 2 else 5) g.bytes
    if cause ≠ 0 then
      let s := (s.dropStage).wr F.SEC_BOOT_STAT_STG_CAUSE cause
      (s.event 0x1107 cause).complete c stArg 0
    else if g.obj = 4 then s.dropStage.revoke g.bytes c
    else s.modRec fun r => { r with progs := .object c :: r.progs }

/-- The metadata of a staging's pages after more data: the pages that were whole keep theirs (R507). -/
def stageTags (s : State) (g : Staging) (bytes : List Byte) : List (List Byte) :=
  let whole := min g.tags.length (g.bytes.length / 4096)
  g.tags.take whole ++ (List.range ((bytes.length + 4095) / 4096 - whole)).map fun i =>
    objectTag g.obj (whole + i) (s.blk (g.blocks.getD ((whole + i) / 64) 0)).erases s.med.gen bytes

/-- A part has been programmed. -/
def partDone (s : State) (c : Cmd) (data : List Byte) (last split : Bool) : State :=
  let s := s.modRec fun r => { r with stage := r.stage.map fun g =>
    { g with bytes := g.bytes ++ data, tags := s.stageTags g (g.bytes ++ data) } }
  let n := (s.recd.stage.map fun g => (g.bytes.length + 4095) / 4096).getD 0
  let s := match s.recd.stage with
    | some g => (s.each (List.range g.blocks.length) fun s i =>
        s.modBlk (g.blocks.getD i 0) fun k => { k with live := min 64 (n - 64 * i) })
    | none => s
  if last then s.stageLast c split else s.complete c stOk 0

/-- The anchor record that replaces a partition (R394, R528). -/
def objectCommit (s : State) (c : Cmd) : State :=
  match s.recd.stage with
  | none => s.complete c stArg 0
  | some g =>
    let s := ((s.flashObj g.obj).blocks).foldl freeBlk s
    let s := s.anchorRec.modMed fun m => { m with
      objs := kvSet (fun _ => {}) m.objs g.obj ⟨g.blocks, g.bytes, g.tags, true⟩ }
    let s := s.modRec fun r => { r with stage := none, ready := r.ready.filter (· != g.obj) ++ [g.obj] }
    (s.recRegs).complete c stOk 0

/-- The block that a page program uses. -/
def progBlk (s : State) (p : Prog) : Nat :=
  match p with
  | .journal _ => (s.headOf false).1
  | .events _ | .close => (s.headOf true).1
  | .part .. | .object _ => ((s.recd.stage.map (·.blocks)).getD []).getLast?.getD 0
  | .boot .. => s.anchorBlk

/-- What a successful page program commits. -/
def progCommit (s : State) (p : Prog) (split : Bool) : State :=
  match p with
  | .journal es => s.batchCommit es
  | .events items => s.eventsCommit items
  | .close => (s.eventPage []).modMed fun m => { m with closed := true }
  | .part c data last pages =>
    if 2 ≤ pages then s.modRec fun r => { r with progs := .part c data last (pages - 1) :: r.progs }
    else s.partDone c data last split
  | .object c => s.objectCommit c
  | .boot c slot copy =>
    (s.anchorRec.modMed fun m => { m with bootSlot := slot, bootCopy := copy }).complete c stOk 0

end State

/-- R519, R522, R526: a page program completes as a commit point, or fails, its block is retired and the page is
written elsewhere. Under the ban only the program that had started completes. -/
def execPageProgramDone (t : Nat) (ok : Bool) (s : State) (split : Bool := false) : Host.Outcome State Fault Refusal :=
  let s := s.upTo t
  .next (if !s.commOn || !s.med.formatted || (s.banned && !s.recd.begun) then s
  else match s.recd.progs with
    | [] => s
    | p :: rest =>
      let s := s.cond s.banned fun s => s.modRec fun r => { r with begun := false }
      if ok then
        (((s.modRec fun r => { r with progs := rest }).progCommit p split).recRegs).shutdownStep
      else
        let s := s.retire (s.progBlk p)
        match p with
        | .journal _ =>
          let s := { s with jrn := { s.jrn with behind := true } }
          ((s.hi F.JRN_STAT_MIR_ERR).count F.JRN_CNT_MIR_FAIL F.JRN_CNT_SAT 0x0407 0).event 0x0404 0
        | _ => s)

/-- R514: FLUSH_T after its first record. -/
def execFlushTimeout (t : Nat) (s : State) : Host.Outcome State Fault Refusal :=
  let s := s.upTo t
  .next (match s.recd.stagedAt with
  | some x =>
    if s.now < x + max 1 (s.rd F.REC_CFG_FLUSH_T) * 100000000 then s else s.flushStaging
  | none => s)

/-- R514: REC_CTL.FLUSH. -/
def execFlush (t : Nat) (s : State) : Host.Outcome State Fault Refusal :=
  let s := s.upTo t
  .next (if s.commOn && s.stores then s.flushStaging else s)

/-- The commands that wait for a page program or for the commit of their mark. -/
def State.recCmds (s : State) : List Cmd :=
  s.recd.progs.filterMap (fun p => match p with
    | .part c .. | .object c | .boot c .. => some c
    | _ => none) ++ s.recd.marks.map (·.2)

/-- What waits to be written is lost with the medium's content: records, batches, parts (R511). -/
def State.dropWrites (s : State) : State :=
  let cs := s.recCmds
  let s := { s with jrn := { s.jrn with batch := false } }
  let s := s.modRec fun r => { r with
    progs := [], stage := none, ready := [], scrubPos := 0, rnum := 0, staging := [], staged := 0, stagedAt := none,
    marks := [] }
  cs.foldl (fun s c => s.complete c stArg 0) s

/-- R511: REC_CTL.FORMAT while the recovery image runs. -/
def execFormat (t : Nat) (bad : List Nat) (s : State) : Host.Outcome State Fault Refusal :=
  let s := s.upTo t
  .next (if !s.commOn || !s.stores || s.rd F.SEC_BOOT_STAT_SLOT != 2 || s.banned then s
  else
    let k := s.nextFree
    let cs0 := 512 * 2 ^ Config.flashCode.val
    let size := cs0 + (if s.bit F.REC_CFG_CS1_EN then Config.cs1Blocks else 0)
    let old := s.med.blks
    let fresh (b : Nat) : Blk :=
      let n := (kvGet (fun _ => ({} : Blk)) old b).erases
      if bad.contains b then { use := .bad, erased := false, erases := n } else { erases := n + 1 }
    let blks := (List.range size).foldl (fun m b => kvSet (fun _ => ({} : Blk)) m b (fresh b)) []
    let id := (Config.freeWord k.1).toNat
    let m : Medium := { formatted := true, cs0 := cs0, size := size, gen := 1, fmtid := id, anchorUsed := Config.anchorPages.val + 1 }
    let m : Medium := { m with blks := blks, scrubAt := s.ct, keys := none, certs := [] }
    let s : State := { k.2 with med := m }
    let anchors := ((List.range 8).filter fun b => !bad.contains b).take 2
    let s := s.each anchors fun s b => s.modBlk b fun x => { x with use := .anchor, erased := false }
    let s := s.each (anchors.take 1) fun s b => s.modBlk b fun x => { x with live := Config.anchorPages.val + 1 }
    let j := s.takeBlk s.med.cs0 .jlog
    let e := j.2.takeBlk j.2.med.size .elog
    let s := (e.2.putLog false ⟨[], 0, j.1, 0⟩).putLog true ⟨[], 0, e.1, 0⟩
    let s := s.dropWrites
    (s.lo F.REC_STAT_FMT_NONE).spareCheck.banBit.recRegs)

/-- The LIVE pages of the medium, in order of blocks. -/
def State.livePages (s : State) : List (Nat × Nat) :=
  (List.range s.med.size).flatMap fun b => (List.range (State.liveOf (s.blk b))).map fun p => (b, p)

/-- A page can no longer be read (R508). -/
def State.unreadable (s : State) (b p : Nat) : State :=
  let s := (s.hi F.REC_STAT_UNCORR).count F.REC_CNT_UNC_CNT F.REC_CNT_SAT 0x0F0C 0
  let s := s.modMed fun m => { m with
    jpages := m.jpages.map fun x => if x.blk = b ∧ x.page = p then { x with good := false } else x
    epages := m.epages.map fun x => if x.blk = b ∧ x.page = p then { x with good := false } else x
    objs := m.objs.map fun o => if o.2.blocks.contains b then (o.1, { o.2 with good := false }) else o }
  s.event 0x0F03 b

/-- A block's content is copied to an erased block and the old one becomes FREE (R519, R525). -/
def State.relocate (s : State) (b : Nat) : State :=
  if (s.blk b).use = .anchor then s.anchorTurn.recRegs
  else match s.pickErased s.med.size with
  | none => s
  | some c => (((s.moveBlk b c).freeBlk b).spareCheck).recRegs

/-- R508, R525: the scrubber reads the next LIVE page, 10 ms after the one before it, or 1 ms once a pass is due; the page's
metadata CRC holds or not; one near its limit relocates its block; the pass ends after the last one. -/
def execScrubRead (t : Nat) (worst : Nat) (s : State) (crc : Bool := true) : Host.Outcome State Fault Refusal :=
  let s := s.upTo t
  let gap := if s.bit F.REC_STAT_SCRUB_DUE then 1000000 else 10000000
  let early := s.recd.scrubbed.any fun x => decide (s.now < x + gap)
  .next (if !s.commOn || !s.awake || !s.bit F.REC_STAT_MOUNTED || !s.med.formatted || early then s
  else
    let s := s.modRec fun r => { r with scrubbed := some s.now }
    let l := s.livePages
    let at_ := l.getD s.recd.scrubPos (0, 0)
    let s := s.wr F.REC_CNT_MAXCORR (max (s.rd F.REC_CNT_MAXCORR) (min 40 worst))
    let s := s.cond (decide (40 < worst) || !crc) fun s => s.unreadable at_.1 at_.2
    let th := max 8 (min 39 (s.rd F.REC_CFG_SCRUB_TH))
    let s := s.cond (decide (th ≤ worst) && s.canWrite) fun s => (s.relocate at_.1).event 0x0F05 0
    let n := s.recd.scrubPos + 1
    let done := decide (l.length ≤ n)
    let s := s.modRec fun r => { r with scrubPos := if done then 0 else n }
    let s := s.cond done fun s => s.anchorRec.modMed fun m => { m with scrubAt := s.ct }
    let blks := (l.take (if done then 0 else n)).map (·.1)
    let s := s.wrSat F.REC_SCRUB_BLK (blks.eraseDups.length - 1)
    let age := (s.ct - s.med.scrubAt) / 3600000000000
    let s := s.wrSat F.REC_SCRUB_AGE age
    let due := decide (24 * max 1 (s.rd F.REC_CFG_SCRUB_DAYS) < age)
    let s := s.cond (due && !s.bit F.REC_STAT_SCRUB_DUE) fun s => s.event 0x0F06 0
    s.wrB F.REC_STAT_SCRUB_DUE due)

/-- R523: the content of the least-worn block moves to the FREE block with the highest erase count. -/
def execWearLevelMove (t : Nat) (s : State) : Host.Outcome State Fault Refusal :=
  let s := s.upTo t
  let l := (List.range s.med.size).filter fun b => (s.blk b).use != .bad
  let pick (l : List Nat) (better : Nat → Nat → Bool) : Option Nat := l.foldl (fun m b =>
    match m with
    | none => some b
    | some c => if better (s.blk b).erases (s.blk c).erases then some b else some c) none
  let late := match s.recd.movedAt with
    | some x => decide (x + 60000000000 ≤ s.now)
    | none => true
  .next (match pick (l.filter fun b => (s.blk b).use != .free && (s.blk b).use != .anchor) (fun a b => decide (a < b)),
      pick (l.filter fun b => (s.blk b).use == .free) (fun a b => decide (b < a)) with
  | some b, some c =>
    let es := l.map fun b => (s.blk b).erases
    let spread := es.foldl max 0 - es.foldl min (es.foldl max 0)
    if s.canWrite && late && decide (1024 * max 1 (s.rd F.REC_CFG_WL_SPREAD) < spread) then
      let s := s.cond (!(s.blk c).erased) fun s => s.modBlk c fun k => { k with erases := k.erases + 1 }
      let s := ((s.moveBlk b c).freeBlk b).modRec fun r => { r with movedAt := some s.now }
      (s.recRegs).event 0x0F0D 0
    else s
  | _, _ => s)

/-- R526: NTC3 has stayed inside the lift window for 1 s. -/
def execWriteBanLift (t : Nat) (s : State) : Host.Outcome State Fault Refusal :=
  let s := s.upTo t
  let stood := match s.recd.liftFrom with
    | some x => decide (x + 1000000000 ≤ s.now)
    | none => false
  .next (if s.commOn && s.bit F.REC_STAT_BAN && !s.bit F.REC_STAT_NTC_BAD && stood then
    (((s.lo F.REC_STAT_BAN).hi F.HKP_STAT_NTC3_OK).event 0x0F02 0).banBit
  else s)

/-- R530: writing 1 to SAT clears the three counters and MAXCORR. -/
def execRecCntSatClear (t : Nat) (s : State) : Host.Outcome State Fault Refusal :=
  let s := s.upTo t
  .next (if s.commOn && s.stores then s.clearCounts R.REC_CNT else s)

/-- R519, R522: the erase of a FREE block ends. -/
def execBlockEraseDone (t : Nat) (b : Nat) (ok : Bool) (s : State) : Host.Outcome State Fault Refusal :=
  let s := s.upTo t
  .next (if !s.commOn || decide (s.med.size ≤ b) || (s.blk b).use != .free || (s.blk b).erased then s
  else if ok then (s.modBlk b fun k => { k with erased := true, erases := k.erases + 1 }).recRegs
  else
    let s := s.modBlk b fun k => { k with use := .bad }
    let s := (s.count F.REC_CNT_GROWN F.REC_CNT_SAT 0x0F0C 0).event 0x0F04 b
    s.spareCheck.recRegs)

/-! ## The journal (R442 to R450) -/

/-- R442, R443: a batch goes to the recorder, or the ban holds it. -/
def execMirrorBatchWrite (t : Nat) (s : State) : Host.Outcome State Fault Refusal :=
  let s := s.upTo t
  let es := s.nextBatch
  .next (if !s.cpuOn || s.jrn.batch || es.isEmpty then s
  else if s.canWrite then
    { s with jrn := { s.jrn with batch := true }, recd := { s.recd with progs := s.recd.progs ++ [.journal es] } }
  else if s.jrn.banTold then s
  else { s with jrn := { s.jrn with banTold := true, behind := true } }.event 0x0403 0)

/-- R450: writing 1 to SAT clears both counters. -/
def execJrnCntSatClear (t : Nat) (s : State) : Host.Outcome State Fault Refusal :=
  let s := s.upTo t
  .next (if s.cpuOn then s.clearCounts R.JRN_CNT else s)

end Sys2Proof.Machine
end

