-- ==== Sys2Proof/Machine/Reload.lean ====
section
/-!
DEFINITION. Reloads and update events (R14, R127, R131, R133 to R135, R226, R235, R263): what a carrier does
when it takes a set, and what an update event starts.
-/

namespace Sys2Proof.Machine

namespace State

/-- R133, R134, R263: a reload takes the pending set whole, or repeats the active set. -/
def reloadSet (s : State) (c : Nat) : State :=
  let k := s.car c
  let runs := s.taskRuns c && s.axes.contains c
  match k.pending with
  | some p =>
    let s := s.modCar c fun k => { k with active := p, pending := k.late, late := none }
    let s := s.wrB (F.PWM_STAT_PEND c) k.late.isSome
    s.overrunFree c
  | none =>
    let due := runs || k.late.isSome
    let s := s.modCar c fun k => { k with pending := k.late, late := none }
    let s := s.cond due fun s => (s.hi (F.PWM_STAT_HOLD_LAST c)).event 0x0701 c
    s.cond runs fun s => s.overrun c

/-- A reload of a carrier (R127, R133 to R135, R153, R235); without outputs carrier 1 runs only as the shadow of
carrier 0 (R122, R128). -/
def reload (s : State) (c : Nat) (p : ReloadPoint) : State :=
  if !s.ctlOn || s.power.pllbHeld || !s.reloads c p || (c == 1 && s.noCarrier1 && !s.quad) || !s.pointDue c p then s
  else
    let took := (s.car c).pending.any fun x => x.restart
    let s := (s.reloadSet c).modCar c fun k => { k with reloadAt := some s.now }
    match p with
    | .valley =>
      let s := s.outputEnable c
      let s := s.valley c
      -- a set taken at a peak does not release (R235)
      s.cond (took && s.running c) fun s => s.coastRelease c
    | _ => s.midReload c p

/-- The motion-before-start monitor at an update event (R226). -/
def preMove (s : State) (a : Nat) : State :=
  let sn := (s.pos a).snap
  let f := s.fc a
  if s.running a then s
  else if !sn.valid then s.modFc a fun f => { f with preRef := none }
  else match f.preRef with
    | none => s.modFc a fun f => { f with preRef := some sn.mt, preFired := false }
    | some r =>
      let d := signed 32 (sn.mt + 2 ^ 32 - r)
      if s.rd (F.FSL_FC_MOVE_MOVE_TOL a) * 16 < d.natAbs ∧ f.preFired = false then
        let s := s.modFc a fun f => { f with preFired := true }
        ((s.hi (F.FSL_FC_STAT_PREMOVE a)).wrB (F.FSL_FC_STAT_PREMOVE_NEG a) (decide (d < 0))).event 0x062A a
      else s

/-- An update event of an axis (R14); it falls at a reload of its carrier (R127), and the first after PLLB's return lets the
groups and Fesil resume (R156). -/
def updateEvent (s : State) (a : Nat) : State :=
  if !s.ctlOn || s.power.pllbHeld || !s.axes.contains a || !s.updateDue a
      || ((s.fsa a).evAt != 0 && (s.fsa a).evAt == s.now) then s
  else
    let s : State := { s with power := { s.power with roadHeld := false } }
    let s := s.posLatch a
    let s := s.cond (a == 0 && s.axes.length == 1) fun s => s.posLatch 1
    let s := s.modFsa a fun x => { x with evCt := s.ct, evAt := s.now, upd := if x.evAt = 0 then 0 else s.now - x.evAt }
    let e := s.emittedNow a
    let s := (s.modFc a fun f => { f with emitted := e, emitLen := 16 * (s.fsa a).upd }).emitAfresh a
    let s := s.setFormed a false
    let s := s.preMove a
    let s := s.motUpdate a
    (s.innerMail.hovUpdate a).innerMail

/-- R131: a calibration of the delay line. -/
def calibrate (s : State) (span : Nat) : State :=
  if 72 ≤ span ∧ span ≤ 127 then
    let s := (((s.wr F.PWM_CAL_SPAN span).hi F.PWM_CAL_DONE).lo F.PWM_CAL_COARSE)
    ({ s with calFails := 0 } : State).runOk
  else
    let s := ((s.hi F.PWM_CAL_FAIL).bump F.PWM_CAL_FAIL_CNT).event 0x0706 0
    let n := s.calFails + 1
    let s := { s with calFails := n }
    s.cond (n == 4) fun s => (s.hi F.PWM_CAL_COARSE).event 0x0707 0

end State

/-- R127, R133: the counter of a carrier reaches a reload point. -/
def execReload (t : Nat) (c : Fin 2) (p : ReloadPoint) (s : State) : Host.Outcome State Fault Refusal :=
  .next ((s.upTo t).reload c p)

/-- R14: an update event of an axis. -/
def execUpdateEvent (t : Nat) (a : Fin 2) (s : State) : Host.Outcome State Fault Refusal :=
  .next ((s.upTo t).updateEvent a)

/-- R131: every 250 µs the delay-line span is measured. -/
def execDelayLineCalibration (t : Nat) (span : Nat) (s : State) : Host.Outcome State Fault Refusal :=
  let s := s.upTo t
  .next (if s.ctlOn && !s.power.pllbHeld then s.calibrate span else s)

end Sys2Proof.Machine
end

