-- ==== Sys2Proof/Machine/Power.lean ====
section
/-!
DEFINITION. Domains, enables, clocks and sleep (R43 to R80, R155, R156, R464, R475, R499, R567, R574, R579): the
shared operations of power and reset.
-/

namespace Sys2Proof.Machine

namespace State

def modPwr (s : State) (f : Power → Power) : State := { s with power := f s.power }

/-! ## Reset classes (R567, R568) -/

/-- The word of a register after the given classes act; its BL fields change with the Lock class alone. -/
def resetWord (cls : List RegClass) (lock : Bool) (off : Nat) (w : BitVec 32) : BitVec 32 :=
  match findRow off with
  | none => w
  | some r =>
    let d := resetVal off
    let bl := BitVec.ofNat 32 r.bl
    let locked := if lock then d else w
    let other := if cls.contains r.cls then d else w
    (locked &&& bl) ||| (other &&& ~~~bl)

/-- The given reset classes act on every register. -/
def classReset (s : State) (cls : List RegClass) : State :=
  let lock := cls.contains .lock
  { s with regs := s.regs.filterMap fun e =>
      let w := resetWord cls lock e.1 e.2
      if w = resetVal e.1 then none else some (e.1, w) }

/-! ## What the domains hold -/

/-- CTL's state beside its registers is lost (R579); a diagnostic ends with it, and its channels leave DIAG (R117). -/
def ctlClear (s : State) : State :=
  let s := s.each (List.range 12) diagLeave
  let s := { s with fsl := {}, fslAx := [], poss := [], fields := [], mots := [], hovs := [] }
  let s := { s with carriers := [], diag := {}, hovIdle := none, calFails := 0 }
  { s with pins := { s.pins with exc0 := false, exc1 := false } }

/-- CPU's state beside its registers is lost; OTP keeps (R25, R396). -/
def cpuClear (s : State) : State :=
  let o := s.sec.otp
  { s with cores := {}, jrn := {}, sram := [], sec := { otp := o }, btCmd := none, dchCmds := [], recd := {} }

/-- ANA's state beside its registers is lost, and its pads stop driving (R42). -/
def anaClear (s : State) : State :=
  let unseen (e : Nat × UzAxis) : Option (Nat × UzAxis) :=
    let u := { e.2 with gotI := false, gotV := false }
    if u = {} then none else some (e.1, u)
  let s := { s with pins := { s.pins with exc0 := false, exc1 := false } }
  { s with adc := {}, hkp := {}, saf := { s.saf with adcbLost := false, vdcSeen := false, safeAt := none }
           uzs := s.uzs.filterMap unseen }

/-- COMM's state beside its registers is lost; the medium keeps, but for a page whose program it interrupts, and so do the
recorder's records, which stand in shared SRAM (R514, R520). -/
def commClear (s : State) : State :=
  let s := s.tear
  let s := { s with hif := { links := s.hif.links + 1 }, chain := {}, can0 := {}, can1 := {}, canFrom := none, canBase := 0 }
  { s with pins := { s.pins with canStb0 := true, canStb1 := true } }

/-- ANA powers up: its class acts, and the write ban holds until NTC3 has been read (R536). -/
def anaUp (s : State) : State :=
  let s := (((s.modPwr fun p => { p with ana := .on }).classReset [.ana]).anaClear).mirrorActive
  (((s.modRec fun r => { r with liftFrom := none }).lo F.REC_STAT_NTC_BAD).hi F.REC_STAT_BAN).banBit

/-- COMM powers up, with the link not yet trained. -/
def commUp (s : State) : State :=
  ((s.modPwr fun p => { p with comm := .on }).classReset [.comm, .link]).commClear.hi F.REC_STAT_BAN

/-- COMM powers up at a wake from WATCH: the ports go on repeating, a held wake frame waits for READY (R475 to
R477), and the recorder's registers follow the medium again. -/
def commWake (s : State) : State :=
  let c := s.chain
  let port (p : Nat) : Nat × Nat := (s.rd (F.CHN_PORT_STATE p), s.rd (F.CHN_PORT_LINK p))
  let ports := [port 0, port 1]
  let s := s.commUp
  let s := { s with chain := { up := c.up, down := c.down, heldWake := c.heldWake, preWoke := c.preWoke } }
  let s := s.each [0, 1] fun s p =>
    (s.wr (F.CHN_PORT_STATE p) (ports.getD p (0, 0)).1).wr (F.CHN_PORT_LINK p) (ports.getD p (0, 0)).2
  let root := s.bit F.BLK_ROLE_ROOT
  let s := ((s.wrB F.CHN_TIME_ROOT root).wrB F.CHN_TIME_SYNCED root).cond root fun s => s.wr F.CHN_TIME_HOPS 0
  let s := (s.wrB F.REC_STAT_FMT_NONE (!s.med.formatted)).hi F.REC_STAT_MOUNTED
  let s := s.wrB F.REC_STAT_READ_ONLY (s.med.formatted && decide (s.erasedFree.length < 4))
  s.banBit.recRegs

/-- VCORE powers up: CPU, CTL and COMM start afresh, and the lock opens. -/
def coreUp (s : State) : State :=
  let s := s.modPwr fun p => { p with cpu := .on, ctl := .on, pllbHeld := false }
  (((s.classReset [.lock, .cpu, .ctl]).cpuClear.ctlClear).commUp).gdcRefresh

/-- VCORE is gone. -/
def coreDown (s : State) : State :=
  let s := s.keepDrive.modPwr fun p => { p with cpu := .off, ctl := .off, comm := .off, xtal := false, changeover := false,
                                                pllA := false, pllB := false }
  (((s.classReset [.lock, .cpu, .ctl, .comm, .link]).cpuClear.ctlClear).commClear).runOk

/-- ANA is gone. -/
def anaDown (s : State) : State := ((s.modPwr fun p => { p with ana := .off }).classReset [.ana]).anaClear

/-- SAFE powers up on its own oscillator: its class acts, its pads take their reset state, every gate-block
line is held (R45, R50); the open contactors are seen open (log entry 31). Its self-test runs (R352). -/
def safeUp (s : State) : State :=
  let s := (s.modPwr fun p => { p with safe := true }).classReset [.safe]
  let s := { s with saf := { ckptAt := s.now, selfAt := s.now }, uzs := [] }
  let s := (s.hi F.SAF_STAT_FB0).hi F.SAF_STAT_FB1
  s.each s.axes regate

/-- SAFE is gone: no permit is driven, and Uzodar's copy of the latches is lost (R87). -/
def safeDown (s : State) : State :=
  let s := s.each s.axes fun s a => s.uzGateToChannels a .allOff
  let s := s.each [0, 1, 2, 3, 4, 5] fun s n => s.soDrive n false
  let s := ((s.modPwr fun p => { p with safe := false }).classReset [.safe]).modSaf fun u => { soAt := u.soAt }
  s.each (List.range 12) mirrorCh

/-! ## Enables (R51, R52) -/

/-- The enables rise as far as the rails allow. -/
def raise (s : State) : State :=
  let s := s.modPwr fun p => { p with en0 := true }
  let s := s.cond (s.power.vio && s.power.vsafe) fun s => s.modPwr fun p => { p with en1 := true }
  s.cond (s.power.vio && s.power.vsafe && s.power.vcore) fun s =>
    s.modPwr fun p => { p with en2 := true, en3 := true }

/-- Thaw starts (R51, R71). -/
def startThaw (s : State) : State :=
  (s.modPwr fun p => { p with phase := .thaw, latched := 0, born := false, wokeAt := s.now }).raise

/-- The wake from WATCH starts (R74). -/
def startWatchWake (s : State) : State :=
  (s.modPwr fun p => { p with phase := .wakeWatch, latched := 0, wokeAt := s.now }).raise

/-- A wake request is acted on (R70): it sets its bit, starts a wake from Winter or WATCH, is latched while
either is being entered, and starts nothing otherwise. It is not acted on while RESET_N is low (R46). -/
def wake (s : State) (cause : Fld) : State :=
  if s.power.resetLow || !s.power.ao then s
  else
    let s := s.hi cause
    match s.power.phase with
    | .rest => if s.mode = 0 then s.startThaw else if s.mode = 1 then s.startWatchWake else s
    | .watchDown | .abort | .flush | .gateDown | .bist | .coreDown => s.modPwr fun p => { p with latched := 1 }
    | .thaw | .boot | .wakeWatch | .held => s

/-- The entry to Winter or WATCH is complete; a latched wake request starts its wake (R70). -/
def asleep (s : State) : State :=
  let s := s.modPwr fun p => { p with phase := .rest }
  if s.power.latched = 0 then s else if s.mode = 0 then s.startThaw else s.startWatchWake

/-! ## Clocks (R54 to R60, R156) -/

/-- The clocks stop with their domains: no PLL is locked and REF runs from the RC (R61). -/
def clocksOff (s : State) : State :=
  let s := (s.lo F.PCK_PLL_STAT_PLLA_LOCK).lo F.PCK_PLL_STAT_PLLB_LOCK
  let s := ((s.lo F.PCK_PLL_STAT_REF_XTAL).hi F.PCK_PLL_STAT_BYPASS_A).hi F.PCK_PLL_STAT_BYPASS_B
  (s.modPwr fun p => { p with xtal := false, changeover := false, pllA := false, pllB := false }).runOk

def bothLocked (s : State) : Bool := s.power.pllA && s.power.pllB

/-- The lock detector of PLLB, or of PLLA. -/
def pllLocked (s : State) (b : Bool) : Bool := if b then s.power.pllB else s.power.pllA

/-- Counts of the CAN clock divided by TS_PRE + 1 since it started (R495): 80 MHz, or 25 MHz from the bypass clock while
PLLA is not locked (R57). -/
def canTicks (s : State) : Nat :=
  match s.canFrom with
  | none => 0
  | some x =>
    s.canBase + (if s.power.pllA then (s.now - x) * 2 / 25 else (s.now - x) / 40) / (s.rd F.CAN_TS_CFG_TS_PRE + 1)

/-- The CAN clock changes its pace: what it has counted stands (R57, R495). -/
def canRebase (s : State) : State :=
  if s.canFrom.isSome then { s with canBase := s.canTicks, canFrom := some s.now } else s

/-- PCK_PLL_STAT shows the lock detectors and the bypass (R57, R60). -/
def showPlls (s : State) : State :=
  let s := (s.wrB F.PCK_PLL_STAT_PLLA_LOCK s.power.pllA).wrB F.PCK_PLL_STAT_BYPASS_A (!s.power.pllA)
  (s.wrB F.PCK_PLL_STAT_PLLB_LOCK s.power.pllB).wrB F.PCK_PLL_STAT_BYPASS_B (!s.power.pllB)

/-- A lock detector changes; while CPU is powered PCK_PLL_STAT shows it (R57, R60). The CAN clock changes its pace with
PLLA (R57). -/
def pllSet (s : State) (b locked : Bool) : State :=
  let s := s.canRebase
  let s := s.modPwr fun p => if b then { p with pllB := locked } else { p with pllA := locked }
  s.cond s.cpuOn showPlls

/-- PLLB's clocks stop: the counters and the schedule of the groups with them, and a running task ends without its commit
and its epilogue. The counters restart from a valley, the groups and Fesil at the first update event (R156, R266). -/
def roadStop (s : State) : State :=
  let s := s.modPwr fun p => { p with roadHeld := true }
  let s := s.each [0, 1] fun s c => s.modCar c fun k => { k with started := false, drove := false }
  let s := s.modAdc fun x => { x with taking := none, ghosts := [], due := [], queue := [] }
  let s := s.each [0, 1] fun s a => s.modFsa a fun x => { x with waiting := none }
  { s with fsl := { s.fsl with task := none, ready := [] } }

/-- PLLB's loss holds the generator, the groups and Fesil (R156). -/
def pllbHalt (s : State) : State :=
  let s := (s.modPwr fun p => { p with pllbHeld := true }).lo F.PWM_CAL_DONE
  (s.each s.axes outputsOff).roadStop

/-- PLLB is locked again (R156). -/
def pllbResume (s : State) : State := s.modPwr fun p => { p with pllbHeld := false }

/-! ## CAN and the chain at the entry to sleep (R464, R475, R499) -/

def can (s : State) (n : Nat) : CanCtl := if n = 0 then s.can0 else s.can1

def modCan (s : State) (n : Nat) (f : CanCtl → CanCtl) : State :=
  if n = 0 then { s with can0 := f s.can0 } else { s with can1 := f s.can1 }

/-- Controller n owns an object (R492). -/
def canOwnBit (s : State) (n obj : Nat) (b : Bool) : State := s.wrB ⟨R.CAN_OWN n (obj / 32), obj % 32, 1⟩ b

/-- RESULT of a TRANSMIT: the cause, and TS in bytes 4 to 7 (R493). -/
def canResult (cause ts : Nat) : Nat := cause + 2 ^ 32 * ts

/-- A transmission ends without success: the object returns to the cores, TRANSMIT completes TIMEOUT. -/
def canFail (s : State) (n : Nat) (x : CanTx) (cause : Nat) : State :=
  let s := s.modCan n fun k => { k with pend := k.pend.filter fun y => y.obj != x.obj }
  let s := (s.canOwnBit n x.obj false).count (F.CAN_CNT_TX_FAIL n) (F.CAN_CNT_SAT n) 0x0E09 n
  s.complete x.cmd stTimeout (canResult cause (kvGet (fun _ => {}) (s.can n).objs x.obj).ts)

/-- The transceiver follows INIT, and the CAN clock runs while a controller is out of INIT (R499, R54). -/
def canClock (s : State) : State :=
  let i0 := s.bit (F.CAN_CTL_INIT 0)
  let i1 := s.bit (F.CAN_CTL_INIT 1)
  let s := { s with pins := { s.pins with canStb0 := i0, canStb1 := i1 } }
  if i0 && i1 then { s with canFrom := none }
  else match s.canFrom with
    | some _ => s
    | none =>
      let s := (s.setReg R.CAN_TS 0#32).setReg R.CAN_TS_EPOCH 0#32
      { s with canFrom := some s.now, canBase := 0 }

/-- A controller enters INIT: pending transmissions, a START and a RECOVER end (R491, R498). -/
def canInit (s : State) (n : Nat) : State :=
  let s := (s.hi (F.CAN_CTL_INIT n)).wr (F.CAN_STAT_STATE n) 0
  let s := s.cond (s.can n).recovering fun s => (s.setReg (R.CAN_ERR n) 0#32).lo (F.CAN_STAT_WARN n)
  let s : State := (s.can n).pend.foldl (fun s x => s.canFail n x 7) s
  let s := match (s.can n).starting with
    | some c => s.complete c stTimeout 7
    | none => s
  let s := match (s.can n).recCmd with
    | some c => s.complete c stTimeout 7
    | none => s
  let s : State := (s.can n).stopping.foldl (fun s c => s.complete c stOk 0) s
  (s.modCan n fun k =>
    { k with pend := [], starting := none, recovering := false, recCmd := none, stopping := [] }).canClock

/-- The ports go to repeat mode: an active port by a partner change, which ends at DRAINED or 1 ms after its HOLD, any
other at once (R464). -/
def portsRepeat (s : State) : State :=
  s.each [0, 1] fun s p =>
    let st := s.rd (F.CHN_PORT_STATE p)
    if st = 3 then s
    else if st = 2 then
      let s := (s.emit (.linkctl p 1)).hi (F.CHN_PORT_HELD p)
      let go (k : ChainPort) : ChainPort := { k with partner := .changing s.now true }
      { s with chain := if p = 0 then { s.chain with up := go s.chain.up } else { s.chain with down := go s.chain.down } }
    else s.wr (F.CHN_PORT_STATE p) 1

/-! ## The roll (R465, R466) -/

/-- A new address is taken, at once or once no axis runs. -/
def addrTake (s : State) (n : Nat) : State :=
  let s := s.wr F.CHN_ADDR_NEW n
  if s.anyRunning then s.hi F.CHN_ADDR_PEND
  else
    let old := s.rd F.CHN_ADDR_ADDR
    let s := (s.lo F.CHN_ADDR_PEND).wr F.CHN_ADDR_ADDR n
    if old = n then s else s.event 0x0D0B n

/-- The root starts a roll. -/
def rollStart (s : State) : State :=
  if !s.bit F.BLK_ROLE_ROOT || s.rd F.CHN_ROLL_STATE == 1 || !s.commOn then s
  else
    let s := (s.addrTake 1).wr F.CHN_ROLL_STATE 1
    let s := s.emit (.roll 1 1 false)
    { s with chain := { s.chain with rollAt := some s.now, rollDue := false } }

/-! ## Sleep (R61, R65, R77) -/

/-- What both entries to sleep do to the axes: arming lapses, and RUN_OK falls with its clocks. -/
def disarm (s : State) : State := s.each [0, 1] fun s a => s.modFc a fun f => { f with armed := false }

/-- A mode of the module that no axis has (R61, R62): WATCH or Winter. -/
def sleepMode (s : State) (m : Nat) : State :=
  let s := (s.storeMode m).capture (.modeChange m (s.axMode 0) (s.axMode 1))
  s.event 0x0001 ((s.reg R.SYS_MODE).toNat % 65536)

/-- COMM loses its power: copies under way are abandoned, and a CHAIN_SEND whose frame still waits completes TIMEOUT
(R410, R435, R481, log entry 123). -/
def commandsDrop (s : State) : State :=
  let s := s.abandonCopies
  let cs := (s.chain.queue.filterMap (·.cmd)).eraseDups
  let s := { s with chain := { s.chain with queue := s.chain.queue.filter fun q => q.cmd.isNone } }
  cs.foldl (fun s c => s.complete c stTimeout 0) s

/-- SET_MODE WATCH (R65, R61): CAN stops, the ports repeat, CPU and CTL keep their state, PWR_EN3 falls. A
self-test of Uzodar runs (R352). -/
def enterWatch (s : State) : State :=
  let s := (((s.canInit 0).canInit 1).commandsDrop.releaseHeld fun _ => true).portsRepeat
  let s := (s.disarm.sleepMode 1).clocksOff
  let s := { s with hovIdle := none }.modSaf fun u => { u with selfAt := s.now, selfDue := false }
  let s := s.roadStop
  (s.modPwr fun p => { p with phase := .watchDown, en3 := false, cpu := .retention, ctl := .retention,
                              comm := .retention }).faultN

/-- Journal entries in runs of up to 64. -/
def chunks : Nat → List JEntry → List (List JEntry)
  | 0, _ => []
  | n + 1, l => if l.isEmpty then [] else l.take 64 :: chunks n (l.drop 64)

/-- SHUTDOWN, steps 2 and 3 (R77): the event, silence, the last journal entry, and every write still due. -/
def startShutdown (s : State) : State :=
  let s := (s.wr F.SYS_MODE_PHASE 2).event 0x0003 0
  let s := (s.lo (F.HIF_TLM_CFG_EN 0)).lo (F.HIF_TLM_CFG_EN 1)
  let s := ((((s.canInit 0).canInit 1).disarm).releaseOwed).journalModule 1 2 0 0 false
  let s := s.flushStaging
  let queued (e : JEntry) : Bool := s.recd.progs.any fun p => match p with
    | .journal l => l.contains e
    | _ => false
  let l := (chunks 64 (s.unmirroredList.filter fun e => !queued e)).map Prog.journal
  let s := { s with jrn := { s.jrn with batch := true } }
  let s := s.modRec fun r => { r with progs := r.progs ++ l ++ [.close] }
  (s.modPwr fun p => { p with phase := .flush }).shutdownStep

/-- IO has no power: the boundary-scan port is reset with the other pads (R42, R399). -/
def ioDown (s : State) : State :=
  let s := s.modPwr fun p => { p with io := false, vio := false }
  { s with pins := { s.pins with scan := .idcode, gpio := 0 } }

/-- Winter is reached (R61). -/
def winter (s : State) : State :=
  let s := s.ioDown.modPwr fun p => { p with vsafe := false }
  let s := (s.safeDown.wr F.SYS_MODE_PHASE 0).storeMode 0
  s.faultN.asleep

/-- The rails of an enable have fallen, and the next enable falls (R52, R72, R76, R77). -/
def railFallen (s : State) (en : Nat) : State :=
  let p := s.power
  match en with
  | 3 => if p.en2 && !p.en3 && (p.phase == .watchDown || p.phase == .abort || p.phase == .gateDown) then
      s.modPwr fun p => { p with en2 := false }
    else s
  | 2 =>
    if p.en2 || p.en3 then s
    else match p.phase with
      | .watchDown => ((s.modPwr fun p => { p with vana := false }).anaDown).asleep
      | .gateDown =>
        let s := (s.modPwr fun p => { p with vana := false, phase := .bist }).anaDown
        (s.keepDrive.modPwr fun p => { p with cpu := .off, ctl := .off, comm := .off }).runOk
      | .abort => (s.modPwr fun p => { p with vana := false, en1 := false }).anaDown
      | _ => s
  | 1 =>
    if p.en1 then s
    else match p.phase with
      | .coreDown | .abort => (s.modPwr fun p => { p with vcore := false, en0 := false }).coreDown
      | _ => s
  | _ =>
    if p.en0 then s
    else match p.phase with
      | .coreDown | .abort => s.winter
      | _ => s

/-- The enables fall from the highest that is up (R52). -/
def lower (s : State) : State :=
  let p := s.power
  let s := s.modPwr fun p => { p with phase := .abort }
  if p.en3 then s.modPwr fun p => { p with en3 := false }
  else if p.en2 then s.modPwr fun p => { p with en2 := false }
  else if p.en1 then s.modPwr fun p => { p with en1 := false }
  else s.modPwr fun p => { p with en0 := false }

/-- Every axis in use is in HOLD, as AO records it (R62, R72, R388). -/
def recordHold (s : State) : State :=
  let s := s.each s.axes fun s a => s.wr (fAxMode a) 5
  (s.storeMode 5).faultN

/-- Every domain except AO and SAFE is reset (R45, R80). -/
def resetAll (s : State) : State :=
  let s := s.modPwr fun p => { p with cpu := .off, ctl := .off, comm := .off, ana := .off, pllbHeld := false,
                                      xtal := false, changeover := false, pllA := false, pllB := false }
  let s := s.keepDrive.classReset [.lock, .cpu, .ctl, .ana, .comm, .link]
  let s := ((s.cpuClear.ctlClear).commClear.anaClear).lo F.SYS_MODE_RUN_OK
  let s := { s with pins := { s.pins with scan := .idcode, gpio := 0 } }
  s.wr F.SYS_MODE_PHASE 0

end State

end Sys2Proof.Machine
end

