-- ==== Sys2Proof/Machine/Boot.lean ====
section
/-!
DEFINITION. The boot (R372, R381 to R390, R402, R403): logic BIST, configuration, image, the release of the
cores, and the completion at READY.
-/

namespace Sys2Proof.Machine

namespace State

def modSec (s : State) (f : Security → Security) : State := { s with sec := f s.sec }

/-- An event of the boot, posted when the firmware starts (R406). -/
def bootEvent (s : State) (code arg : Nat) : State :=
  s.modSec fun c => { c with bootEvents := c.bootEvents ++ [(code, arg)] }

/-! ## Logic BIST (R80, R402, R403) -/

/-- A logic BIST has failed: the module resets and boots again, or stays in reset after the second failure in
succession. -/
def bistFailed (s : State) : State :=
  let n := s.power.bistFails + 1
  let s := s.resetAll.modPwr fun p => { p with bistFails := n, bistPass := false, latched := 0 }
  if 2 ≤ n then (s.modPwr fun p => { p with phase := .held }).faultN
  else
    let s := (s.modPwr fun p => { p with phase := .thaw, cpu := .on, ctl := .on }).commUp.gdcRefresh
    (s.cond s.power.vana anaUp).raise

/-- Step 2: the pass record is consumed, or the BIST runs and passes. -/
def bistStep (s : State) : State :=
  if s.power.bistPass then (s.modPwr fun p => { p with bistPass := false, bistFails := 0 }).hi F.SEC_BIST_FOUND
  else
    let s := s.hi F.SEC_BIST_RAN
    let s := s.cond (s.power.bistFails != 0) fun s =>
      ((s.hi F.SEC_BIST_FAILED).wrB F.SEC_BIST_SHUT_FAIL s.power.shutFail).bootEvent 0x1109 s.power.shutFail.toNat
    s.modPwr fun p => { p with bistFails := 0, shutFail := false }

/-! ## Configuration (steps 4 and 5) -/

/-- AX1_MODE reads 0xF while AX1 is not in use (R62). -/
def axisInUse (s : State) : State :=
  if s.axes.contains 1 then (if s.axMode 1 = 0xF then s.wr (fAxMode 1) 2 else s) else s.wr (fAxMode 1) 0xF

/-- Every pair is written, BLK_LOCK is set, and Uzodar loads or compares its shadow (R323, R386). -/
def loadConfig (s : State) (copy : Nat) (bs : List Byte) : State :=
  let pairs := cfgPairs (slice bs 17120 (fieldLe bs 12 4))
  let was := s.configWords
  let s : State := pairs.foldl (fun s p => s.setReg p.1 (BitVec.ofNat 32 p.2)) s
  let s := ((s.hi F.BLK_CTL_LOCK).wr F.BLK_CTL_CFG_COPY copy).wr F.SEC_ARB_CFG_SVN (fieldLe bs 8 4)
  let s := (s.modSec fun c => { c with cfgManifest := bs.take 512 }).axisInUse
  let s := ((s.gdcLoaded was).shadowAtLock.each s.axes fieldCfg).hovCfg
  let s := s.each [0, 1] fun s p => s.cond (s.portEnd p) fun s => s.wr (F.CHN_PORT_STATE p) 3
  let root := s.bit F.BLK_ROLE_ROOT
  let s := (s.wrB F.CHN_TIME_ROOT root).wrB F.CHN_TIME_SYNCED root
  let s := s.cond root fun s => s.wr F.CHN_TIME_HOPS 0
  (s.cond s.anaOn mirrorActive).runOk

/-- The boot stops and awaits a recovery image (R388, R389). -/
def awaitRecovery (s : State) : State :=
  ((s.wr F.SEC_BOOT_STAT_STATE 2).modPwr fun p => { p with toReady := false }).recordHold

/-- Step 4: the copy of the boot record, then the other one. -/
def configStep (s : State) (split : List Nat) : State :=
  let first := s.med.bootCopy % 2
  let c := s.verifyFlash (2 + first) split
  let s := s.wr F.SEC_BOOT_STAT_CFG_CAUSE c
  if c = 0 then s.loadConfig first (s.flashObj (2 + first)).bytes
  else if s.verifyFlash (3 - first) split = 0 then
    let s := (s.hi F.SEC_BOOT_STAT_CFG_FALLBACK).bootEvent 0x1102 0
    s.loadConfig (1 - first) (s.flashObj (3 - first)).bytes
  else s.hi F.BLK_CTL_NO_CFG

/-! ## Image (step 6) -/

/-- The payload of an image reaches the three local SRAMs, Fesil's program and its tables (R385, log entry
37). -/
def loadImage (s : State) (slot : Nat) (bs : List Byte) : State :=
  let pay := slice bs 17120 (fieldLe bs 12 4)
  let core := memPut [] 0 (slice pay 0 0x70000)
  let word (l : List Byte) (i : Nat) : BitVec 32 := BitVec.ofNat 32 (fieldLe l (4 * i) 4)
  let fp := slice pay 0x70000 0x10000
  let ft := slice pay 0x80000 0x3E000
  let prog := (List.range ((fp.length + 3) / 4)).foldl (fun m i => kvSet (fun _ => 0#32) m i (word fp i)) []
  let s := { s with cores := { s.cores with sram0 := core, sram1 := core, sram2 := core } }
  let s := { s with fsl := { s.fsl with prog := prog } }
  let s := s.each (List.range ((ft.length + 3) / 4)) fun s i => s.putCoef (0x2000 + 4 * i) (word ft i)
  let s := (s.wr F.SEC_BOOT_STAT_SLOT slot).wr F.SEC_BOOT_STAT_KEYSLOT (fieldLe bs 6 2)
  (s.wr F.SEC_ARB_IMG_SVN (fieldLe bs 8 4)).modSec fun c => { c with imgManifest := bs.take 512 }

/-- No image runs (R404). -/
def noImage (s : State) : State :=
  let s := ((s.wr F.SEC_BOOT_STAT_SLOT 3).wr F.SEC_BOOT_STAT_KEYSLOT 0).wr F.SEC_ARB_IMG_SVN 0
  s.modSec fun c => { c with imgManifest := [] }

/-- Steps 3 and 6: the slot of the boot record, then the other one; false if neither verifies. -/
def imageStep (s : State) (split : List Nat) : Bool × State :=
  let cause (s : State) (o c : Nat) : State := s.wr (if o = 0 then F.SEC_BOOT_STAT_A_CAUSE else F.SEC_BOOT_STAT_B_CAUSE) c
  let first := s.med.bootSlot % 2
  let s := (s.wr F.SEC_BOOT_STAT_A_CAUSE 0xF).wr F.SEC_BOOT_STAT_B_CAUSE 0xF
  let c := s.verifyFlash first split
  let s := cause s first c
  if c = 0 then (true, (s.lo F.SEC_BOOT_STAT_FALLBACK).loadImage first (s.flashObj first).bytes)
  else
    let d := s.verifyFlash (1 - first) split
    let s := cause s (1 - first) d
    if d = 0 then
      let s := (s.hi F.SEC_BOOT_STAT_FALLBACK).bootEvent 0x1101 0
      (true, s.loadImage (1 - first) (s.flashObj (1 - first)).bytes)
    else (false, s.noImage)

/-! ## Release (steps 7 to 9) -/

/-- PMP entries 0 to 3: boot ROM, BLK, SEC, and CPX from 0x5_0004 onward (R372). -/
def pmpEntries : List (Nat × PmpEntry) :=
  [(0, ⟨0x00000000, 0x00040000, false, false, true⟩), (1, ⟨0x40020000, 0x40030000, true, false, true⟩),
   (2, ⟨0x40110000, 0x40120000, false, false, true⟩), (3, ⟨0x40050004, 0x40060000, true, false, true⟩)]

/-- Steps 8 and 9: PMP is locked in each core, and the cores run the firmware, with registers that read 0 (log entry 124). -/
def release (s : State) : State :=
  let s := s.wr F.SEC_BOOT_STAT_STATE 1
  let a : CoreArch := { pmp := pmpEntries }
  { s with cores := { s.cores with arch0 := a, arch1 := a, arch2 := a, fwRuns := true, lastP := s.now } }

/-- The firmware reports what the boot found, and the domains whose loss stopped it (R406, R426, log entry 118). -/
def bootReport (s : State) : State :=
  let ev := s.sec.bootEvents ++ s.power.lostTold.map fun d => (0x0104, d)
  let s := (s.modSec fun c => { c with bootEvents := [] }).modPwr fun p => { p with lostTold := [] }
  ev.foldl (fun s e => s.event e.1 e.2) s

/-- Steps 8 and 9 after a restart of the cores: the journal's RESTART entry, and the events (R371, R390, R437, R445). -/
def finishRestart (s : State) : State :=
  let s := (s.release.modSec fun c => { c with again := false }).wr F.SYS_MODE_PHASE 0
  (((s.journalModule 1 5 0 0 false).event 0x0507 0)).bootReport

/-- Steps 7 to 9 of a boot: the identity, whose keys the recorder holds (R396), the release, the mount (R520), the journal's BOOT entry (R444), and
the boot's events. -/
def finishBoot (s : State) (puf : Bool) : State :=
  let ok := puf && s.med.keys.isSome
  let s := (s.wrB F.SEC_BOOT_STAT_ID_OK ok).cond (!ok) fun s => s.bootEvent 0x110B 0
  let s := (s.release.mount).journalRebuild
  let s := { s with chain := { s.chain with rollDue := s.bit F.BLK_ROLE_ROOT } }
  s.bootReport

/-- The boot ROM's steps in order (R386, R388). -/
def boot (s : State) (b : BootIn) : State :=
  let s := (s.modPwr fun p => { p with phase := .boot }).wr F.SYS_MODE_PHASE 1
  if !s.power.bistPass && !b.bist then s.bistFailed
  else
    let s := (s.bistStep.arbRegs).configStep b.split
    if s.bit F.BLK_CTL_NO_CFG then s.awaitRecovery
    else
      let r := s.imageStep b.split
      if r.1 then r.2.finishBoot b.puf else r.2.awaitRecovery

/-- The boot starts once VCORE is inside its window and both PLLs are locked (R386, Thaw timeline). -/
def tryBoot (s : State) (b : BootIn) : State :=
  if s.power.phase == .thaw && s.cpuOn && s.bothLocked && !s.power.resetLow then s.boot b else s

/-- The firmware has started: an axis that AO does not hold in HOLD enters READY, and so does the module, in one change
of MODE (R62, R80, R386, R574). -/
def bootDone (s : State) : State :=
  let s := (s.wr F.SYS_MODE_PHASE 0).modPwr fun p => { p with phase := .rest }
  let s := s.modSaf fun u => { u with ckptAt := s.now }
  let kept := decide (2 ≤ s.mode) && !s.power.toReady
  let s := s.modPwr fun p => { p with toReady := false }
  let s := s.cond (!kept) fun s =>
    let s := s.each s.axes fun s a => (s.wr (fAxMode a) 2).enterReady a
    let s := if s.mode = s.derivedMode then s else s.sleepMode s.derivedMode
    let s := s.each s.axes fun s a => s.excUpdate a false
    (s.each s.axes regate).soUpdate
  let s := s.cond (s.mode == 2) fun s => s.storeMode 2
  let s := (s.faultN).event 0x0002 (s.reg R.PCK_WAKE_SRC).toNat
  let s := s.cond (s.chain.rollDue && s.bit (F.CHN_PORT_LINK 1)) rollStart
  let fs := s.chain.heldWake
  let s := { s with chain := { s.chain with heldWake := [] } }
  fs.foldl (fun s f => s.capture (.chainFrame f.bytes)) s

end State

end Sys2Proof.Machine
end

