-- ==== Sys2Proof/Machine/Gate.lean ====
section
/-!
DEFINITION. The gate channels (R81 to R121, R576, R577): their state machine, their protections, the
short-circuit reaction of Uzodar and the PWM, and the off-state diagnostics.
-/

namespace Sys2Proof.Machine

namespace State

/-- Bootstrap supply where R95 does not permit it. -/
def badBootstrap (s : State) (n : Nat) : Bool :=
  s.bit (F.GDC_UVLO_SUPPLY n) && (s.threeLevel || decide (n % 2 = 1))

/-- Where a channel goes that nothing holds: UVLO, DISABLED or OFF (R85). -/
def restState (s : State) (n : Nat) : ChState :=
  if !((s.ch n).posOk && (s.ch n).negOk) then .uvlo
  else if s.chEnabled n then .off else .disabled

/-- Shows the supply flags of a channel (R113). -/
def supplyFlags (s : State) (n : Nat) (pos neg : Bool) : State :=
  let s := s.modCh n fun c => { c with posOk := pos, negOk := neg }
  (s.wrB (F.GDC_STAT_UV_POS n) (!pos)).wrB (F.GDC_STAT_UV_NEG n) (!neg)

/-- Latches a channel with its cause, and Uzodar's copy with it (R85, R87, R113). -/
def latchCh (s : State) (n cause : Nat) : State :=
  let s := s.modCh n fun c => { c with cause := cause }
  (((s.turnOff n .latched).wr (F.GDC_STAT_LATCH_CAUSE n) cause).setLatch n true).latchedBit

/-- A fault counter of a channel, with the saturation event 0x080C (R114). -/
def gdcCount (s : State) (f : Fld) (n : Nat) : State := s.count f (F.GDC_CNT_SAT n) 0x080C n

/-- R100, R112: a channel fault of an axis in RUN or LIMP marks the leg and activates row 6. A short circuit held on
the bridge is judged again under R24. -/
def legLoss (s : State) (n : Nat) : State :=
  let a := s.axisOf n
  let s := s.cond (s.running a) fun s => (s.markLeg a (s.legOf n)).activateRow 6 a
  s.rejudge a

/-- A channel returns to where nothing but its supplies and ENA hold it; a short circuit on its bridge is judged again
(R24, R85, R86). -/
def comeBack (s : State) (n : Nat) : State := (s.putCh n (s.restState n)).rejudge (s.axisOf n)

/-- A transition of the same GDX clock that stands higher takes the place of a latch (R85). -/
def superseded (s : State) (n : Nat) : State := if (s.ch n).st = .latched then s.setLatch n false else s

/-- The final state of R110 as a gate state with its side actions. -/
def finalState (s : State) (a : Nat) : State :=
  let put (s : State) (g : UzGate) : State :=
    let s := s.modUz a fun u => { u with finalDue := false, final := some g }
    (s.regate a).lo (F.PWM_STAT_BLOCK a)
  if !s.measured then
    let s := s.modUz a fun u => { u with finalDue := false }
    ((s.activateRow 1 a).regate a).lo (F.PWM_STAT_BLOCK a)
  else match s.emf a with
    | none => put s .allOff
    | some e =>
      if !s.emfAtLeast a e 9 10 then put s .allOff
      else match s.pickHalf a with
        | none => ((put s .allOff).openContactors).requestDischarge
        | some u =>
          if s.refused a u then (put s .allOff).activateRow 0 a else put s (.short u)

end State

/-! ## Enables (R107, R108, R355) -/

/-- R108: the bridge of the enable turns off; an active short circuit on it ends under R355. -/
def execEnaFall (t : Nat) (b : Fin 2) (s : State) : Host.Outcome State Fault Refusal :=
  let s := s.upTo t
  let was0 := s.enabled 0
  let was1 := s.enabled 1
  let s := { s with pins := if b = 0 then { s.pins with ena0 := false } else { s.pins with ena1 := false } }
  let s := { s with pins := { s.pins with
    ena0Fell := if was0 && !s.enabled 0 then s.now else s.pins.ena0Fell
    ena1Fell := if was1 && !s.enabled 1 then s.now else s.pins.ena1Fell } }
  let l := s.axes.filter (fun a => !s.enabled a)
  .next (s.each l fun s a =>
    let s := s.each (s.channels a) fun s n =>
      if s.mayTake n 12 (fun x => x == .on || x == .off || x == .diag) then s.turnOff n .disabled else s
    let s := s.diagCut
    -- a brake step still running ends with its enable (R321)
    let s := s.cond (s.uzAx a).brakeStep fun s => s.ss1EndState a
    let u := s.uzAx a
    if State.isShort u.gate then
      let s := s.putGate a .allOff u.why
      s.modUz a fun u => { u with enaEnded := true }
    else s)

/-- R107: at the bridge's rising edge disabled channels return to OFF and each latched channel is judged;
Uzodar then decides a short circuit afresh that the deasserted enable had ended (R355). -/
def execEnaRise (t : Nat) (b : Fin 2) (s : State) : Host.Outcome State Fault Refusal :=
  let s := s.upTo t
  let was0 := s.enabled 0
  let was1 := s.enabled 1
  let s := { s with pins := if b = 0 then { s.pins with ena0 := true } else { s.pins with ena1 := true } }
  let l := s.axes.filter (fun a => s.enabled a && !(if a = 0 then was0 else was1))
  let s := s.each l fun s a =>
    let fell := if a = 0 then s.pins.ena0Fell else s.pins.ena1Fell
    let long := decide (fell + 10000 ≤ s.now)
    let s := s.each (s.channels a) fun s n =>
      let c := s.ch n
      if c.st = .disabled then s.putCh n .off
      else if s.saf.latch.testBit n then
        if long && c.st == .latched && c.matched
            && (c.cause != 2 || (c.posOk && c.negOk)) then
          ((s.setLatch n false).putCh n .off).event 0x0809 n
        else (s.hi (F.GDC_STAT_ENA_EARLY n)).event 0x080A n
      else s
    if (s.uzAx a).enaEnded then
      let s := s.modUz a fun u => { u with enaEnded := false, why := .none }
      (s.substitute a).regate a
    -- one decided while the enable was low is applied now
    else if State.isShort (s.uzAx a).gate then s.regate a
    else s
  .next s.latchedBit

/-! ## Link and configuration (R82, R83, R85, R95, R576, R577) -/

/-- NO_LINK to CONFIG once the supply and the link stand; an unused channel stays (R49, R85, R97). With CTL unpowered
the minimum service set keeps the links, and Uzodar's shadow the values (R26, log entry 94). -/
def execChannelLinkUp (t : Nat) (n : Fin 12) (posOk negOk : Bool) (s : State) :
    Host.Outcome State Fault Refusal :=
  let s := s.upTo t
  .next (if (s.ch n).st = .noLink ∧ s.unused n = false ∧ (s.ctlOn || (s.safeOn && s.bit F.SAF_STAT_SHADOW)) = true then
    let s := s.modCh n fun c => { c with supply := true, fails := 0, seenOff := false, exchange := true }
    (s.putCh n .config).supplyFlags n posOk negOk
  else s)

/-- The exchange of R83 ends. In CONFIG the verified channel goes on under R85; a third failure latches
it. An exchange for a change (R576) or after a mismatch (R577) restores the copy. -/
def execConfigExchangeDone (t : Nat) (n : Fin 12) (ok : Bool) (s : State) :
    Host.Outcome State Fault Refusal :=
  let s := s.upTo t
  let c := s.ch n
  .next (if c.st = .noLink ∨ c.exchange = false then s
  else if ok ∧ s.badBootstrap n = false then
    let s := s.modCh n fun c => { c with copy := s.configWords n, exchange := false, fails := 0 }
    let s := s.wrB (F.GDC_STAT_HS_REACH n) (s.hsReach n)
    let s := s.modCh n fun k => { k with clamp := s.clamps n k.st }
    if c.st = .config then
      if s.saf.latch.testBit n then s.putCh n .latched else s.comeBack n
    else s
  else
    let s := s.modCh n fun c => { c with fails := c.fails + 1 }
    -- a bootstrap supply out of place shows at once, any other failure at the third
    let s := s.cond (decide ((s.ch n).fails = if s.badBootstrap n then 1 else 3)) fun s =>
      (s.hi (F.GDC_STAT_CFG_BAD n)).event 0x0808 n
    -- a soft turn-off runs to its own end (R105)
    if (s.ch n).fails = 3 ∧ c.st = .softOff then
      (s.hi (F.GDC_STAT_CFG_BAD n)).modCh n fun c => { c with matched := false }
    else if (s.ch n).fails = 3 ∧ c.st ≠ .latched then
      (((s.hi (F.GDC_STAT_CFG_BAD n)).latchCh n 3).modCh n fun c => { c with matched := false }).legLoss n
    else s)

/-- The channel's copy reads back as the given words. A mismatch of a completed exchange latches the
channel and sends the values again (R83, R85, R112, R577). -/
def execConfigReadback (t : Nat) (n : Fin 12) (copy : List Word) (s : State) :
    Host.Outcome State Fault Refusal :=
  let s := s.upTo t
  let c := s.ch n
  .next (if c.st = .noLink ∨ c.st = .config ∨ c.exchange = true then s
  else if copy = s.configWords n then s.modCh n fun c => { c with copy := copy, matched := true }
  else
    let s := s.modCh n fun c => { c with copy := copy, matched := false, exchange := true, fails := 0 }
    let s := (s.hi (F.GDC_STAT_CFG_BAD n)).event 0x0808 n
    if s.mayTake n 11 (fun x => x != .latched && x != .softOff && x != .noLink && x != .config) then
      (s.latchCh n 3).legLoss n
    else s)

/-- R82: two microseconds without a valid frame take the channel to NO_LINK with a normal turn-off. -/
def execLinkTimeout (t : Nat) (n : Fin 12) (s : State) : Host.Outcome State Fault Refusal :=
  let s := s.upTo t
  .next (if s.unused n = true ∨ ((s.ch n).st = .noLink ∧ s.rd (F.GDC_STAT_STATE n) = 0) then s
  else
    let s := (s.turnOff n .noLink).hi (F.GDC_STAT_LINK_LOSS n)
    let s := (s.gdcCount (F.GDC_CNT_LINK_CNT n) n).event 0x0806 n
    s.legLoss n)

/-- VPOS_n − VNEG_n below 5 V: the unpowered hold takes over and the channel is in NO_LINK. The controller
learns of it by the link (R34, R85). -/
def execSupplyCollapse (t : Nat) (n : Fin 12) (s : State) : Host.Outcome State Fault Refusal :=
  let s := s.upTo t
  .next (if (s.ch n).st = .noLink then s.modCh n fun c => { c with supply := false }
  else
    let shown := s.rd (F.GDC_STAT_STATE n)
    let s := s.turnOff n .noLink
    (s.wr (F.GDC_STAT_STATE n) shown).modCh n fun c =>
      { c with supply := false, posOk := false, negOk := false })

/-! ## Supplies and temperature (R85, R98 to R100) -/

/-- R98, R99: a supply below its threshold turns the switch off; the third counted entry within 1 s
latches. R100 follows in RUN and LIMP. -/
def execUvloEntry (t : Nat) (n : Fin 12) (pos neg : Bool) (s : State) :
    Host.Outcome State Fault Refusal :=
  let s := s.upTo t
  let c := s.ch n
  let enters := s.mayTake n 7 fun x => x == .off || x == .on || x == .disabled || x == .diag
  .next (if !(pos || neg) || c.st == .noLink then s
  else
    let s := s.supplyFlags n (c.posOk && !pos) (c.negOk && !neg)
    let s := s.cond pos fun s => s.event 0x0803 n
    let s := s.cond neg fun s => s.event 0x0804 n
    if !enters then s
    else
      let s := (s.superseded n).turnOff n .uvlo
      let s := if !c.seenOff then s
        else
          let s := s.modCh n fun c => { c with uvAt := s.uvCounted n ++ [s.now] }
          let k := (s.ch n).uvAt.length
          let s := (s.gdcCount (F.GDC_CNT_UVLO_CNT n) n).wr (F.GDC_STAT_UV_WIN n) (min 3 k)
          if 3 ≤ k then (s.latchCh n 2).event 0x0805 n else s
      s.legLoss n)

/-- R98: both supplies past their release levels for 20 µs. -/
def execUvloRelease (t : Nat) (n : Fin 12) (s : State) : Host.Outcome State Fault Refusal :=
  let s := s.upTo t
  .next (if (s.ch n).st = .noLink then s
  else
    let s := (s.supplyFlags n true true).wr (F.GDC_STAT_UV_WIN n) (min 3 (s.uvCounted n).length)
    if (s.ch n).st = .uvlo then s.comeBack n else s)

/-- R85, R112: the die above 160 °C. -/
def execChannelOverTemp (t : Nat) (n : Fin 12) (s : State) : Host.Outcome State Fault Refusal :=
  let s := s.upTo t
  .next (if s.mayTake n 9 (fun x => x == .off || x == .on || x == .disabled || x == .uvlo || x == .diag) then
    let s := ((s.superseded n).turnOff n .thermal).modCh n fun c => { c with hot := true }
    let s := (s.hi (F.GDC_STAT_THERM n)).event 0x0807 n
    s.legLoss n
  else s)

/-- R85: the die below 140 °C. -/
def execChannelTempOk (t : Nat) (n : Fin 12) (s : State) : Host.Outcome State Fault Refusal :=
  let s := s.upTo t
  .next (let s := s.modCh n fun c => { c with hot := false }
  if (s.ch n).st = .thermal then s.comeBack n else s)

/-! ## Edges (R86 to R92, R23, R137, R147, R150, R153, R154) -/

/-- The switches that may not be on together with switch `n` (R137, R147). -/
def State.partners (s : State) (n : Nat) : List Nat :=
  if s.threeLevel then (if n % 4 < 2 then [n + 2] else [n - 2])
  else if n % 2 = 0 then [n + 1] else [n - 1]

/-- A trip holds this switch off until the next valley, after a second of the other polarity both (R150, log entry 117). -/
def State.cutOff (s : State) (n : Nat) : Bool :=
  let l := s.leg (s.axisOf n) (s.legOf n)
  let held (positive : Bool) : Bool :=
    if s.threeLevel then
      if positive then n % 4 == (if l.regionP then 0 else 1) else n % 4 == (if l.regionP then 2 else 3)
    else s.isUpper n == positive
  match l.cut with
  | none => false
  | some positive => held positive || (l.cutBoth && held (!positive))

/-- The PWM lets an on-edge of channel `n` out: outputs enabled, nothing blocked, marked, latched or cut
off, and every partner switch off for the dead time (ranks 4 and 5 of R23, R137). -/
def State.pwmEdge (s : State) (n : Nat) : Bool :=
  let c := s.axisOf n
  s.ctlOn && s.bit (F.PWM_STAT_OUT_EN c) && !s.bit (F.PWM_STAT_BLOCK c) && !s.bit (F.PWM_STAT_TRIP_LATCH c)
    && !(s.rd (F.PWM_STAT_UVLO_OFF c)).testBit (s.legOf n) && !s.cutOff n
    && (s.partners n).all s.rested

/-- An edge or force-on change reaches a channel. An edge falls where the period's plan has one (R130, R137), or where an
inner switch that the PWM holds off may go off (R147); one that arrives outside OFF and ON is discarded. -/
def execGateEdge (t : Nat) (n : Fin 12) (e : GateEdge) (s : State) : Host.Outcome State Fault Refusal :=
  let s := s.upTo t
  let a := s.axisOf n
  let g := (s.uzAx a).gate
  .next (match e with
  | .on => if (s.ch n).st = .off ∧ g = .free ∧ s.pwmEdge n ∧ s.onPlanned n then s.turnOn n false else s
  | .off => if (s.ch n).st = .on ∧ (s.ch n).forced = false ∧ s.innerHeld n = false ∧ (s.offPlanned n || (s.ch n).offDue) then
      s.turnOff n .off else s
  | .force => s.uzGateToChannels a g)

/-- R89: the next phase of a profiled drive. -/
def execProfilePhaseEnd (t : Nat) (n : Fin 12) (s : State) : Host.Outcome State Fault Refusal :=
  let s := s.upTo t
  .next (s.modCh n fun c => { c with phase := match c.phase with
    | .pre => .slope
    | .slope => .strong
    | p => p })

/-! ## Short circuits (R101 to R106, R109 to R111) -/

/-- R101: desaturation detection becomes active. -/
def execBlankingEnd (t : Nat) (n : Fin 12) (s : State) : Host.Outcome State Fault Refusal :=
  let s := s.upTo t
  .next (if (s.ch n).st = .on then s.modCh n fun c => { c with blanked := true } else s)

/-- R101, R104, R105: DS_n at or above DESAT_TH while ON and after blanking starts soft turn-off. -/
def execDesaturation (t : Nat) (n : Fin 12) (s : State) : Host.Outcome State Fault Refusal :=
  let s := s.upTo t
  let c := s.ch n
  .next (if s.mayTake n 5 (fun x => x == .on) && (if c.st = .on then c.blanked else c.wasBlanked) then
    let s := s.modCh n fun k => { k with cause := 0, phase := .strong }
    let s := ((s.putCh n .softOff).hi (F.GDC_STAT_DESAT n)).wr (F.GDC_STAT_LATCH_CAUSE n) 0
    (s.gdcCount (F.GDC_CNT_DESAT_CNT n) n).event 0x0801 n
  else s)

/-- R102, R105: DS_n at or above twice DESAT_TH while ON starts soft turn-off, also in blanking. -/
def execHardShort (t : Nat) (n : Fin 12) (s : State) : Host.Outcome State Fault Refusal :=
  let s := s.upTo t
  .next (if s.mayTake n 5 (fun x => x == .on) && s.chBit n 1 (F.GDC_DESAT_HS_EN n) then
    let s := s.modCh n fun k => { k with cause := 1, phase := .strong }
    let s := ((s.putCh n .softOff).hi (F.GDC_STAT_HSC n)).wr (F.GDC_STAT_LATCH_CAUSE n) 1
    (s.gdcCount (F.GDC_CNT_HSC_CNT n) n).event 0x0802 n
  else s)

/-- R105: soft turn-off ends and the channel enters LATCHED. -/
def execSoftOffEnd (t : Nat) (n : Fin 12) (s : State) : Host.Outcome State Fault Refusal :=
  let s := s.upTo t
  .next (if (s.ch n).st = .softOff then ((s.putCh n .latched).setLatch n true).latchedBit else s)

/-- R116: a sample of the on-state voltage. -/
def execOnStateSample (t : Nat) (n : Fin 12) (code : Nat) (s : State) :
    Host.Outcome State Fault Refusal :=
  let s := s.upTo t
  .next (if (s.ch n).st = .on ∧ (s.ch n).blanked ∧ s.chBit n 3 (F.GDC_DRV_VON_EN n) then
    ((s.wr (F.GDC_VON_VON n) (min code 0xFFF)).bump (F.GDC_VON_CNT n)).hi (F.GDC_VON_VALID n)
  else s)

/-- R87, R109, R111: Uzodar latches the channel at its first report; the first report of the bridge blocks
it and takes the axis to HOLD; a report of a switch forced on ends the short circuit for good. -/
def execScFaultReport (t : Nat) (n : Fin 12) (s : State) : Host.Outcome State Fault Refusal :=
  let s := s.upTo t
  let a := s.axisOf n
  let stands := (s.ch n).st == .softOff || (s.ch n).st == .latched
  .next (if !stands || s.saf.faulted.testBit n then s
  else
    let s := { (s.setLatch n true) with saf := { (s.setLatch n true).saf with
      faulted := s.saf.faulted + 2 ^ n.val } }
    let s := s.latchedBit
    let forced := match (s.uzAx a).gate with
      | .short u => s.isUpper n == u
      | _ => false
    let first := !s.bit (F.PWM_STAT_BLOCK a) && !(s.uzAx a).finalDue
    let s := s.cond first fun s => s.pwmBlock a
    let s := s.cond (s.running a) fun s => s.setAxMode a 5
    if forced then
      let s := s.modUz a fun u => { u with finalDue := false, final := some .allOff }
      (((s.regate a).lo (F.PWM_STAT_BLOCK a)).openContactors).requestDischarge
    else
      let s := s.cond first fun s => s.modUz a fun u => { u with finalDue := true, final := none }
      s.regate a)

/-- R110: once no channel of the bridge is in SOFT_OFF, Uzodar applies the final state. -/
def execFinalStateDecision (t : Nat) (a : Fin 2) (s : State) : Host.Outcome State Fault Refusal :=
  let s := s.upTo t
  .next (if (s.uzAx a).finalDue ∧ (s.channels a).all (fun n => (s.ch n).st != .softOff) then
    s.finalState a
  else s)

/-! ## Off-state diagnostics (R117 to R120) -/

/-- R117, R120: a write of GDC_DIAG_CTL with START. The code 0b00 of TEST names no test and starts none (log entry
95). A channel of the mask that is not in OFF is skipped and keeps its earlier result (DESIGN CHOICE, log entry 116). -/
def execDiagStart (t : Nat) (mask : BitVec 12) (test : Fin 4) (s : State) :
    Host.Outcome State Fault Refusal :=
  let s := s.upTo t
  .next (if !s.ctlOn || !s.stores then s
  else
    let s := (s.wr F.GDC_DIAG_CTL_CH_MASK mask.toNat).wr F.GDC_DIAG_CTL_TEST test
    if s.bit F.GDC_DIAG_CTL_BUSY ∨ s.mode ≠ 2 ∨ test = 0 then s
    else
      let l := (State.maskList mask.toNat).filter (fun n => (s.ch n).st == .off)
      let s : State := { s with diag := ⟨mask.toNat, test, l⟩ }
      s.diagWave.hi F.GDC_DIAG_CTL_BUSY)

/-- The gate test's result code and CG, in whole nF rounded down; 0x00 where the gate has not risen (R118, R120, log
entry 95). -/
def gateResult (s : State) (m : DiagMeas) : Nat × Nat :=
  let d := m.v10 - m.v0
  let cg := if d ≤ 0 then 0 else min 255 (2000000 / d.toNat)
  if m.reached then (2, 0)
  else if d < 10000 then (3, cg)
  else if 10 * (m.v10 - m.v5) < 6 * (m.v5 - m.v0) then (4, cg)
  else if (2000000 : Int) < s.rd F.GDC_DIAG_CFG_CG_MIN * d ∨ (s.rd F.GDC_DIAG_CFG_CG_MAX : Int) * d < 2000000 then
    (5, cg)
  else (1, cg)

/-- The voted DC-link voltage of a channel's bridge, in mV × 32,768 (R119, R174). DESIGN CHOICE, log entry 116: in volts
at Uzodar's VFS, which no register of the diagnostics gives; R252's bank word VFS is Fesil's own. -/
def State.diagVdc (s : State) (n : Nat) : Int :=
  signed 16 (s.rd (F.ADC_VOTED_VALUE (4 * s.axisOf n + 3))) * (Config.vfsVolts * 1000 : Nat)

/-- The phase voltage of a channel's leg, in mV × 32,768, from the input that PV_IN names, by the group that feeds the
loop; none where PV_IN names none (R119, R238, log entry 95). -/
def State.diagPhase (s : State) (n : Nat) : Option Int :=
  let a := s.axisOf n
  let i := s.rd (F.FSL_FC_SAFE_PV_IN a)
  if 8 ≤ i ∧ i ≤ 13 then
    let g := if a = 0 then s.adc.act0 else s.adc.act1
    some (kvGet (fun _ => 0) s.adc.raw (g * 24 + i + s.legOf n) * (10000 * s.rd (F.FSL_FC_SAFE_PV_FS a) : Nat))
  else none

/-- The precondition of a DS test: Vdc below 20 V, or at least 100 V with the phase at 20 % to 80 % of it (R119). -/
def State.diagReady (s : State) (test n : Nat) : Bool :=
  let v := s.diagVdc n
  if test = 2 then decide (v < 20000 * 32768)
  else decide (100000 * 32768 ≤ v) && match s.diagPhase n with
    | some p => decide (v ≤ 5 * p) && decide (5 * p ≤ 4 * v)
    | none => false

/-- The DS test's result code (R119). -/
def dsResult (s : State) (test : Nat) (m : DiagMeas) : Nat :=
  if !s.diagReady test m.ch then 5
  else if test = 2 then (if 4500 < m.v2 then 2 else if m.v2 < 300 then 3 else 1)
  else if m.v2 < 10000 then 4 else 1

/-- A measurement is recorded for a channel under test, and strong hold returns (R117 to R120). VDS_REF is recorded
where the low-Vdc form has run, and keeps its value on PRECOND (log entry 95). -/
def State.diagRecord (s : State) (m : DiagMeas) : State :=
  if (s.ch m.ch).st = .diag then
    let test := s.diag.test
    let s := s.putCh m.ch .off
    if test = 1 then
      (s.wr (F.GDC_DIAG_RES_GATE_RES m.ch) (gateResult s m).1).wr (F.GDC_DIAG_RES_CG m.ch) (gateResult s m).2
    else
      let r := dsResult s test m
      let s := s.wr (F.GDC_DIAG_RES_DS_RES m.ch) r
      if test = 2 ∧ r ≠ 5 then s.wr (F.GDC_DIAG_RES_VDS_REF m.ch) (min m.vdsRef 0xFFF) else s
  else s

/-- R118, R119: the results of the channels under test are recorded, wave after wave, and strong hold returns. -/
def execDiagComplete (t : Nat) (meas : List DiagMeas) (s : State) : Host.Outcome State Fault Refusal :=
  let s := s.upTo t
  .next (if !s.bit F.GDC_DIAG_CTL_BUSY then s
  else
    let wave (s : State) (_ : Nat) : State := (meas.foldl State.diagRecord s).diagWave
    (s.each [0, 1, 2, 3] wave).diagEnd)

/-- R117: leaving READY, a fallen enable or leaving OFF aborts the tests concerned. -/
def execDiagAbort (t : Nat) (s : State) : Host.Outcome State Fault Refusal :=
  .next (s.upTo t).diagCut

/-- R114: writing 1 to SAT clears the four counters with it. -/
def execGdcCntSatClear (t : Nat) (n : Fin 12) (s : State) : Host.Outcome State Fault Refusal :=
  let s := s.upTo t
  .next (if s.ctlOn && s.stores then s.clearCounts (R.GDC_CNT n) else s)

end Sys2Proof.Machine
end

