-- ==== Sys2Proof/Machine/PowerRows.lean ====
section
/-!
DEFINITION. What the pads, rails, clocks and always-on logic do (R45, R46, R50 to R60, R69 to R80, R574, R575).
-/

namespace Sys2Proof.Machine

/-- R45, R574, R575: a low of 200 ns or more resets every domain except AO and SAFE. In READY or above row 4
acts first. -/
def execResetNAssert (t : Nat) (s : State) : Host.Outcome State Fault Refusal :=
  let s := s.upTo t
  .next (if s.power.resetLow || !s.power.ao then s
  else
    let s := s.cond s.awake fun s => s.activateRow 4 0
    if s.power.phase == .rest && s.mode == 0 then s.modPwr fun p => { p with resetLow := true }
    else s.resetAll.modPwr fun p => { p with resetLow := true, phase := .held, latched := 0 })

/-- R46, R575: the module raises the enables that are low and boots; with every rail already inside its window
the boot starts at once (log entry 38). -/
def execResetNRelease (t : Nat) (wake : Bool) (boot : BootIn) (s : State) : Host.Outcome State Fault Refusal :=
  let s := s.upTo t
  .next (if !s.power.resetLow then s
  else
    let s := (s.modPwr fun p => { p with resetLow := false, bistFails := min 1 p.bistFails }).hi F.PCK_WAKE_SRC_RESET_PIN
    let s := s.cond wake fun s => s.hi F.PCK_WAKE_SRC_WAKE_PIN
    let up := s.power.en3 && s.power.vio && s.power.vsafe && s.power.vcore && s.power.vana
    let s := s.cond s.power.vcore fun s => (s.modPwr fun p => { p with cpu := .on, ctl := .on }).commUp.gdcRefresh
    let s := s.cond s.power.vana State.anaUp
    let s := s.startThaw
    if up then s.boot boot else s)

/-- R46, R68: a request on WAKE_N or, where enabled, on a CAN wake pad. -/
def execWakePinRequest (t : Nat) (pin : Fin 3) (s : State) : Host.Outcome State Fault Refusal :=
  let s := s.upTo t
  .next (match pin with
  | 0 => s.wake F.PCK_WAKE_SRC_WAKE_PIN
  | 1 => if s.bit F.PCK_WAKE_EN_CAN0 then s.wake F.PCK_WAKE_SRC_CAN0 else s
  | 2 => if s.bit F.PCK_WAKE_EN_CAN1 then s.wake F.PCK_WAKE_SRC_CAN1 else s)

/-- R51, R567: a rail enters its window, its domains power up, and the next enables rise. -/
def execRailInWindow (t : Nat) (rail : Fin 4) (s : State) : Host.Outcome State Fault Refusal :=
  let s := s.upTo t
  .next (let waking := s.power.phase == .thaw || s.power.phase == .wakeWatch
    let s := match rail with
      | 0 => if s.power.en0 && !s.power.vio then (s.modPwr fun p => { p with vio := true, io := true }).soUpdate else s
      | 1 => if s.power.en0 && !s.power.vsafe then (s.modPwr fun p => { p with vsafe := true }).safeUp else s
      | 2 =>
        if s.power.en1 && !s.power.vcore then
          let s := s.modPwr fun p => { p with vcore := true }
          if s.power.resetLow then s else s.coreUp
        else s
      | 3 =>
        if s.power.en2 && !s.power.vana then
          let s := s.modPwr fun p => { p with vana := true }
          if s.power.resetLow then s else s.anaUp
        else s
    s.cond waking State.raise)

/-- R51, R72: a rail has missed its window, and the wake is abandoned as an entry to HOLD and a return to
Winter. -/
def execThawAbort (t : Nat) (s : State) : Host.Outcome State Fault Refusal :=
  let s := s.upTo t
  .next (let p := s.power
    let missed := (p.en0 && !(p.vio && p.vsafe)) || (p.en1 && !p.vcore) || (p.en2 && !p.vana)
    if missed && (p.phase == .thaw || p.phase == .boot || p.phase == .wakeWatch) then
      (((s.wr F.SYS_MODE_PHASE 0).recordHold).hi F.PCK_WAKE_SRC_THAW_ABORT).lower
    else s)

/-- R52: the rails of an enable are below their windows, or 2.0 ms have passed since it fell. -/
def execRailFallen (t : Nat) (en : Fin 4) (s : State) : Host.Outcome State Fault Refusal :=
  .next ((s.upTo t).railFallen en)

/-- R50, R567: AO powers up with no state and starts from Winter; a Thaw follows at once. -/
def execAoPowerOn (t : Nat) (s : State) : Host.Outcome State Fault Refusal :=
  let s := s.upTo t
  .next (if s.power.ao && !s.power.born then s
  else
    let low := s.power.resetLow
    let s := { s with ct := 0, power := { resetLow := low } }
    let s := s.classReset [.ao]
    if low then s else s.startThaw)

/-- R50, R76: AO resets, every enable goes low at once, and every other domain falls with its rail. -/
def execAoBrownOut (t : Nat) (s : State) : Host.Outcome State Fault Refusal :=
  let s := s.upTo t
  .next (if !s.power.ao then s
  else
    let low := s.power.resetLow
    let s := (((s.safeDown.coreDown).anaDown).ioDown).classReset [.ao]
    { s with power := { ao := false, resetLow := low }, ct := 0 })

/-- R76: a domain is lost in READY, RUN, LIMP or HOLD. -/
def execDomainLost (t : Nat) (d : LostDomain) (s : State) : Host.Outcome State Fault Refusal :=
  let s := s.upTo t
  let hold (s : State) : State := s.each s.axes fun s a => (s.outputsOff a).rowModes a true false
  .next (if !s.awake then s
  else match d with
    | .safe =>
      if !s.safeOn then s
      else
        let s := hold (s.event 0x0104 0)
        (s.modPwr fun p => { p with vsafe := false }).safeDown.faultN.lower
    | .io =>
      if !s.power.io then s
      else
        let s := (s.event 0x0104 1).ioDown
        let s := (((s.lo F.SAF_STAT_STO_A).lo F.SAF_STAT_STO_B).modSaf fun u => { u with diffAt := none }).stoActive
        s.openContactors.soUpdate
    | .vcore =>
      if !s.power.vcore then s
      else
        -- nothing is left to report the losses until the firmware runs again (log entry 118)
        let s := (hold s).modPwr fun p => { p with vcore := false, phase := .thaw, lostTold := [2, 3, 4] }
        s.coreDown
    | .cpu =>
      if s.cpuOn then
        let s := s.modPwr fun p => { p with cpu := .off, lostTold := [2] }
        (s.classReset [.cpu]).cpuClear.runOk
      else s
    | .ctl =>
      if s.ctlOn then
        let s := hold (s.event 0x0104 3)
        ((s.keepDrive.modPwr fun p => { p with ctl := .off }).classReset [.ctl]).ctlClear.runOk
      else s
    | .ana =>
      if s.anaOn then
        let s := (s.event 0x0104 5).modPwr fun p => { p with vana := false }
        (s.anaDown.activateRow 1 0).runOk
      else s
    | .comm =>
      if s.commOn then
        let s := (s.event 0x0104 4).activateRow 25 0
        let held := s.hif.syncHeld
        let s : State := held.foldl State.issue s.commandsDrop
        ((s.modPwr fun p => { p with comm := .off }).classReset [.comm, .link]).commClear.runOk
      else s
    | .gdrv n => if s.unused n then s else (s.event 0x0104 6).legLoss n)

/-- R56, R57, R74, R156: a PLL is declared locked. A waking module resumes or boots once both are. -/
def execPllLock (t : Nat) (b : Bool) (boot : BootIn) (s : State) : Host.Outcome State Fault Refusal :=
  let s := s.upTo t
  .next (if !s.power.vcore || s.power.resetLow || s.pllLocked b then s
    else
      let s := ((s.pllSet b true).cond b State.pllbResume).runOk
      if s.power.phase == .wakeWatch && s.bothLocked then
        (s.modPwr fun p => { p with cpu := .on, ctl := .on }).showPlls.commWake.runOk
      else s.tryBoot boot)

/-- R57, R58, R60, R156: a PLL loses lock. Uzodar has the loss signal directly, whether or not CPU is powered. -/
def execPllLossOfLock (t : Nat) (b : Bool) (s : State) : Host.Outcome State Fault Refusal :=
  let s := s.upTo t
  .next (if !s.pllLocked b then s
    else
      let s := s.pllSet b false
      let s := s.cond s.cpuOn fun s =>
        ((s.hi (if b then F.PCK_PLL_STAT_PLLB_LOSS else F.PCK_PLL_STAT_PLLA_LOSS)).count
          F.PCK_PLL_STAT_LOSS_CNT F.PCK_PLL_STAT_LOSS_SAT 0x0105 0).event (if b then 0x0102 else 0x0101) 0
      let s := s.cond s.awake fun s => s.activateRow 3 0
      (s.cond (b && s.ctlOn) State.pllbHalt).runOk)

/-- R59: XTAL25 shows no edge for 1 µs. -/
def execXtalFail (t : Nat) (s : State) : Host.Outcome State Fault Refusal :=
  let s := s.upTo t
  .next (if !s.power.xtal then s
  else
    let s := s.modPwr fun p => { p with xtal := false, changeover := false }
    (((s.hi F.PCK_PLL_STAT_XTAL_FAIL).lo F.PCK_PLL_STAT_REF_XTAL).event 0x0103 0).runOk)

/-- R72, R73: the slew onto the crystal ends. -/
def execRefChangeoverDone (t : Nat) (s : State) : Host.Outcome State Fault Refusal :=
  let s := s.upTo t
  .next (if s.power.changeover && s.cpuOn then
    ((s.modPwr fun p => { p with changeover := false }).hi F.PCK_PLL_STAT_REF_XTAL).runOk
  else s)

/-- R59, R74: the crystal is stable, and the changeover to it starts. -/
def execXtal25Stable (t : Nat) (s : State) : Host.Outcome State Fault Refusal :=
  let s := s.upTo t
  .next (if s.power.vcore && s.cpuOn && !s.power.xtal then
    (s.modPwr fun p => { p with xtal := true, changeover := true }).runOk
  else s)

/-- R54: the AO clock runs from the internal RC from now on. -/
def execX32CrystalFail (t : Nat) (s : State) : Host.Outcome State Fault Refusal :=
  .next ((s.upTo t).modPwr fun p => { p with aoRc := true })

/-- R69: ALARM_S steps from 1 to 0, ALARM_S seconds after its write. -/
def execAlarmExpire (t : Nat) (s : State) : Host.Outcome State Fault Refusal :=
  let s := s.upTo t
  .next (let n := s.rd F.PCK_ALARM_ALARM_S
    if n = 0 ∨ s.now < s.power.alarmAt + n * 1000000000 then s
    else
      let s := s.setReg R.PCK_ALARM 0#32
      if s.bit F.PCK_WAKE_EN_ALARM then s.wake F.PCK_WAKE_SRC_ALARM else s)

/-- R71: one AO tick of the CT keeper. -/
def execCtKeeperTick (t : Nat) (s : State) : Host.Outcome State Fault Refusal :=
  let s := s.upTo t
  .next (if s.ctRuns || !s.power.ao then s
  else
    let f := s.power.ctFrac + 37
    { s with ct := (s.ct + 30517 + f / 64) % 2 ^ 64 }.modPwr fun p => { p with ctFrac := f % 64 })

/-- R77, R80, R403: the logic BIST of SHUTDOWN ends. -/
def execShutdownBistDone (t : Nat) (pass : Bool) (s : State) : Host.Outcome State Fault Refusal :=
  let s := s.upTo t
  .next (if s.power.phase != .bist then s
  else if pass then
    s.modPwr fun p => { p with bistPass := true, bistFails := 0, shutFail := false, phase := .coreDown, en1 := false }
  else (s.modPwr fun p => { p with shutFail := true, toReady := true }).bistFailed)

/-- R60: writing 1 to LOSS_SAT also clears LOSS_CNT. -/
def execLossSatClear (t : Nat) (s : State) : Host.Outcome State Fault Refusal :=
  let s := s.upTo t
  .next (if s.cpuOn && s.stores then (s.clearBit F.PCK_PLL_STAT_LOSS_SAT).wr F.PCK_PLL_STAT_LOSS_CNT 0 else s)

/-- R62, R386, R426: the firmware has initialised, or its wake handler has run. -/
def execBootComplete (t : Nat) (s : State) : Host.Outcome State Fault Refusal :=
  let s := s.upTo t
  .next (if s.cpuOn && ((s.power.phase == .boot && s.rd F.SEC_BOOT_STAT_STATE == 1)
      || (s.power.phase == .wakeWatch && s.bothLocked)) then s.bootDone
  else s)

/-- R311, R65: AUTO_WATCH requests WATCH, IDLE_T after the last release. The request crosses the voter, and a catch or a
held START keeps the module in READY (R74, R231). -/
def execIdleTimeout (t : Nat) (s : State) : Host.Outcome State Fault Refusal :=
  let s := s.upTo t
  .next (match s.hovIdle with
  | none => s
  | some x =>
    let wait := max 1 (s.rd F.MOT_HOV_IDLE_IDLE_T) * 1000000
    let free := s.axes.all fun a => s.axMode a == 2 || s.axMode a == 5
    let busy := s.axes.any fun a => (s.fc a).catch_.isSome || (s.fc a).held.isSome
    if s.bit F.MOT_HOV_POL_AUTO_WATCH && decide (x + wait ≤ s.now) && s.awake && s.passing && !s.axes.any s.running then
      let s := { s with hovIdle := none }.event 0x0B1A s.hovIdleAx
      if free && !busy then s.enterWatch else s
    else s)

end Sys2Proof.Machine
end

