-- ==== Sys2Proof/Machine/RegRead.lean ====
section
/-!
DEFINITION. Reading BAR0 (R4, R387, R446, R447, R481, R495, R565, R570): what each initiator sees at an
offset, and the freezes and snapshots its reads take.
-/

namespace Sys2Proof

/-- The number under which the freezes and snapshots of an initiator stand (R446, R570). -/
def Reader.code : Reader → Nat
  | .host => 0
  | .core => 1
  | .debugger => 0x4002
  | .chainHost src => 2 + src.toNat

end Sys2Proof

namespace Sys2Proof.Machine

namespace State

/-- A word that stands still or moves with time: what a register holds at this instant. -/
def liveWord (s : State) (off : Nat) : BitVec 32 :=
  if off = R.CHN_CT_LO then BitVec.ofNat 32 s.ct
  else if off = R.CHN_CT_HI then BitVec.ofNat 32 (s.ct / 2 ^ 32)
  else if off = R.CAN_TS ∧ s.canFrom.isSome then BitVec.ofNat 32 s.canTicks
  else if off = R.PCK_ALARM then
    BitVec.ofNat 32 ((s.reg off).toNat - (s.now - s.power.alarmAt) / 1000000000)
  else if off = R.POS_ANG 0 ∨ off = R.POS_MT 0 ∨ off = R.POS_SPD 0 then (s.posPublish 0).reg off
  else if off = R.POS_ANG 1 ∨ off = R.POS_MT 1 ∨ off = R.POS_SPD 1 then (s.posPublish 1).reg off
  else if off = R.SAF_LIMP 0 then (s.limpCount 0).reg off
  else if off = R.SAF_LIMP 1 then (s.limpCount 1).reg off
  else if off = R.SAF_BTEST 0 ∨ off = R.SAF_BTEST 1 then
    let a := if off = R.SAF_BTEST 0 then 0 else 1
    if (s.uzAx a).btPassAt = 0 then s.reg off
    else (F.SAF_BTEST_AGE a).put (s.reg off) (min 0xFFFF ((s.now - (s.uzAx a).btPassAt) / 3600000000000))
  else if off = R.SAF_STAT then F.SAF_STAT_LATCHED.put (s.reg off) (s.latchedFault s.axes).toNat
  else if off = R.FSL_OVR_STAT then
    let n (a : Nat) : Nat := ((s.fsa a).ovrAt.filter fun x => decide (s.now < x + 1000000000)).length
    (F.FSL_OVR_STAT_WIN1).put ((F.FSL_OVR_STAT_WIN0).put (s.reg off) (n 0)) (n 1)
  else if off = R.CPX_MIN_CNT then
    let n (c : Nat) : Nat := min 3 (s.cores.minAt.filter fun m =>
      m.1 == c && decide (s.now < m.2 + 3600000000000)).length
    (F.CPX_MIN_CNT_WIN2).put ((F.CPX_MIN_CNT_WIN1).put ((F.CPX_MIN_CNT_WIN0).put (s.reg off) (n 0)) (n 1)) (n 2)
  else match (List.range 12).find? fun n => off = R.GDC_STAT n with
    | some n => (F.GDC_STAT_UV_WIN n).put (s.reg off) (min (s.rd (F.GDC_STAT_UV_WIN n)) (s.uvCounted n).length)
    | none => s.reg off

/-- The LO words of R570 and, for each, the words that its read freezes. -/
def freezes (off : Nat) : List Nat :=
  if off = R.JRN_HEAD_SEQ_LO then
    [R.JRN_HEAD_SEQ_HI, R.JRN_MIRROR_SEQ_LO, R.JRN_MIRROR_SEQ_HI, R.JRN_TAIL_SEQ_LO, R.JRN_TAIL_SEQ_HI]
      ++ [0, 1, 2, 3].map R.JRN_HEAD_HSEQ_LO ++ [0, 1, 2, 3].map R.JRN_HEAD_HSEQ_HI
  else if [R.JRN_MIRROR_SEQ_LO, R.JRN_TAIL_SEQ_LO, R.CPX_CKPT_LO, R.CHN_CT_LO, R.CAN_SNAP_CT_LO, R.REC_HEAD_LO,
      R.REC_TAIL_LO].contains off then [off + 4]
  else if [0, 1, 2, 3].any (fun n => off = R.JRN_HEAD_HSEQ_LO n) then [off + 4]
  else if off = R.POS_HIT_LO 0 then [R.POS_HIT_HI 0]
  else if off = R.POS_HIT_LO 1 then [R.POS_HIT_HI 1]
  else []

def modHif (s : State) (f : HostIf → HostIf) : State := { s with hif := f s.hif }

/-- A register as an initiator reads it, with the freezes its read ends or starts. -/
def frozenRead (s : State) (who off : Nat) : BitVec 32 × State :=
  match s.hif.frz.find? fun f => f.1 == who && f.2.1 == off with
  | some f => (f.2.2, s.modHif fun h => { h with frz := h.frz.filter fun g => !(g.1 == who && g.2.1 == off) })
  | none =>
    let v := s.liveWord off
    let l := freezes off
    if l.isEmpty then (v, s)
    else
      (v, s.modHif fun h => { h with
        frz := h.frz.filter (fun g => g.1 != who) ++ l.map fun o => (who, o, s.liveWord o) })

/-- A word of the journal aperture (R446). -/
def apertureRead (s : State) (who slot word : Nat) : BitVec 32 × State :=
  let live := s.apertureWords slot
  if word = 0 then
    (live.getD 0 0#32, s.modHif fun h => { h with
      snaps := h.snaps.filter (fun g => g.1 != who) ++ [(who, slot, live)] })
  else match s.hif.snaps.find? fun g => g.1 == who && g.2.1 == slot with
    | some g => (g.2.2.getD word 0#32, s)
    | none => (live.getD word 0#32, s)

/-- A read through the system bus is granted: every initiator's but a debugger's, which needs the scope MEM and does not reach
Uzodar (R398, R400, R401). -/
def dbgReads (s : State) (who block : Nat) : Bool :=
  who != 0x4002 || (s.bit F.SEC_DBG_STAT_UNLOCKED && s.bit F.SEC_DBG_STAT_MEM && block != 12)

/-- What a read of a BAR0 offset returns, and its effect. SYS_MODE reads while COMM and CPU are both powered (R62). -/
def readReg (s : State) (who off : Nat) (e : Ecc := .ok) : BitVec 32 × State :=
  let off := off / 4 * 4
  let booting := s.rd F.SYS_MODE_PHASE == 1 && who != 1 && who != 0x4002
  if 0x120000 ≤ off || (who == 0 && s.hif.pcie.d3hot) || !s.blockPowered (off / 0x10000) || !s.dbgReads who (off / 0x10000) then (0#32, s)
  else if off == R.SYS_MODE && !s.commOn then (0#32, s)
  else if booting && off != R.SYS_MODE && off != R.SEC_BOOT_STAT && off != R.BLK_CTL then (0#32, s)
  else if 0x48000 ≤ off ∧ off < 0x50000 then s.apertureRead who ((off - 0x48000) / 32) (off % 32 / 4)
  else if 0xD1000 ≤ off ∧ off < 0xD3000 then (memWord s.chain.rxq (off - 0xD1000), s)
  else if off = R.FSL_MEM_DATA then
    let r := s.memWindow none e
    (r.1.getD 0#32, r.2)
  else if (findRow off).isNone then (0#32, s)
  else s.frozenRead who off

/-- A read leaves the module as its value. -/
def readOut (s : State) (who off : Nat) (e : Ecc := .ok) : State :=
  let r := s.readReg who off e
  r.2.emit (.read off r.1)

/-- A word of BAR2 (R409): a host sees the host window alone. -/
def readSram (s : State) (who off : Nat) : BitVec 32 :=
  let private_ := who != 1 && who != 0x4002 && decide (0x80000 ≤ off)
  if !s.cpuOn || private_ || (who == 0 && s.hif.pcie.d3hot) || !s.dbgReads who 0 || decide (0x100000 ≤ off) then 0#32 else memWord s.sram (off / 4 * 4)

end State

/-- R570: a read of a LO word freezes its HI word for the next read by the same initiator; a read of any other
register returns its contents; a read of BAR2 returns the window's (R409). -/
def execSplitLoRead (t : Nat) (who : Reader) (bar2 : Bool) (off : BitVec 21) (s : State) (e : Ecc := .ok) :
    Host.Outcome State Fault Refusal :=
  let s := s.upTo t
  .next (if bar2 then s.emit (.read (2 ^ 31 + off.toNat) (s.readSram who.code off.toNat))
  else s.readOut who.code off.toNat e)

/-- R446: a read of word 0 of an aperture slot takes a snapshot of the entry. -/
def execJournalApertureRead (t : Nat) (who : Reader) (slot : Nat) (s : State) : Host.Outcome State Fault Refusal :=
  .next ((s.upTo t).readOut who.code (0x48000 + 32 * (slot % 1024)))

/-- R447: a read of JRN_HEAD_SEQ_LO freezes the journal's head, mirror, tail and host sequences. -/
def execJournalHeadRead (t : Nat) (who : Reader) (s : State) : Host.Outcome State Fault Refusal :=
  .next ((s.upTo t).readOut who.code R.JRN_HEAD_SEQ_LO)

end Sys2Proof.Machine
end

