-- ==== Sys2Proof/Machine/SecRows.lean ====
section
/-!
DEFINITION. Recovery, restart of the cores, debug and boundary scan (R371, R374 to R376, R389, R390, R399 to
R401).
-/

namespace Sys2Proof.Machine

namespace State

def modCpu (s : State) (f : Cores → Cores) : State := { s with cores := f s.cores }

/-- A debug response is refused: it is counted, and the fourth locks out (R401). -/
def debugRefused (s : State) (cause : Nat) : State :=
  let n := min 4 (s.rd F.SEC_DBG_STAT_FAIL_CNT + 1)
  let s := s.wr F.SEC_DBG_STAT_FAIL_CNT n
  let s := s.cond (n == 4) fun s => s.hi F.SEC_DBG_STAT_LOCKOUT
  s.event 0x1105 cause

/-- Bytes 0 to 47 of a challenge as it is read (R400). -/
def challenge (s : State) (nonce : List Byte) : List Byte :=
  leBytes 8 s.serial ++ nonce ++ leBytes 4 s.rollback ++ leBytes 4 (s.reg R.BLK_DBG).toNat

/-- The cause for which a response is refused, 0 for none (R400, R384). -/
def debugCause (s : State) (bytes : List Byte) (split : Bool) : Nat :=
  let policy := s.rd F.BLK_DBG_POLICY
  let pay := slice bytes 17120 64
  let slot := fieldLe bytes 6 2
  if split then 10
  else if s.verify 4 bytes ≠ 0 then s.verify 4 bytes
  else match s.sec.nonce with
    | none => 2
    | some _ =>
      if pay.take 48 ≠ s.sec.chal ∨ (pay.drop 52).any (fun b => b != 0#8) then 2
      else if (policy = 1 ∧ slot = 0) ∨ (policy = 2 ∧ slot ≤ 1) then 0
      else 3

end State

/-- R389, R404: GO while recovery is awaited verifies the object in BAR2 and, on a pass, boots it from step 7 of R386; after
a restart, from step 8 (R390). STATE 0b11 stands while the object is verified, which takes no time here (log entry 126). -/
def execRecoveryGo (t : Nat) (boot : BootIn) (s : State) : Host.Outcome State Fault Refusal :=
  let s := s.upTo t
  .next (if !s.cpuOn || s.rd F.SEC_BOOT_STAT_STATE != 2 then s
  else
    let bs := memBytes s.sram 0 (min 0x100000 (s.rd F.SEC_RECOVERY_LENGTH))
    let s := s.wr F.SEC_BOOT_STAT_STATE 3
    let c := if boot.split.contains 4 then 10 else s.verify 3 bs
    let s := s.wr F.SEC_BOOT_STAT_STG_CAUSE c
    if c ≠ 0 then s.wr F.SEC_BOOT_STAT_STATE 2
    else
      let s := (s.loadImage 2 bs).bootEvent 0x1103 0
      if s.sec.again then s.finishRestart else s.finishBoot boot.puf)

/-- R371, R390, R445: RESTART ends a Stalemate: cores, replicator and voter start afresh with every fence
lifted, and the firmware is loaded again. -/
def execRestart (t : Nat) (split : List Nat) (s : State) : Host.Outcome State Fault Refusal :=
  let s := s.upTo t
  .next (if !s.cpuOn then s
  else if s.rd F.CPX_STAT_VOTE < 2 ∨ s.mode ≠ 5 then s.hi F.CPX_STAT_WR_IGN
  else
    let r := s.each (s.cores.waiting.map (·.ring)) fun s n => s.setOpen n (s.openOn n - 1)
    let r := r.modCpu fun c => { repQ := [], cfgUsed := c.cfgUsed }
    let cpx := (List.range 7).map fun i => R.CPX_CKPT_CFG + 4 * i
    let r : State := cpx.foldl (fun s o => s.setReg o (resetVal o)) r
    let r := r.modCpu fun c => { c with cfgUsed := resetVal R.CPX_CKPT_CFG }
    let i := r.imageStep split
    if i.1 then i.2.finishRestart
    else ((i.2.modSec fun c => { c with again := true }).wr F.SYS_MODE_PHASE 1).awaitRecovery)

/-- R400: each read of the challenge makes a new nonce, and only the latest is valid. -/
def execDebugChallengeRead (t : Nat) (s : State) : Host.Outcome State Fault Refusal :=
  let s := s.upTo t
  .next (if !s.cpuOn then s
  else
    let k := (List.range 8).foldl (fun (r : List Byte × State) _ =>
      let n := r.2.nextFree
      (r.1 ++ leBytes 4 (Config.freeWord n.1).toNat, n.2)) ([], s)
    let s := k.2.modSec fun c => { c with nonce := some k.1, chal := s.challenge k.1 }
    s.emit (.bytes 0 (s.challenge k.1 ++ List.replicate 16 0#8)))

/-- R400, R401, R441: a response is verified and grants scope, or is refused. -/
def execDebugResponse (t : Nat) (bytes : List Byte) (split : Bool) (s : State) : Host.Outcome State Fault Refusal :=
  let s := s.upTo t
  .next (if !s.cpuOn then s
  else
    let policy := s.rd F.BLK_DBG_POLICY
    let barred := s.rd F.SYS_MODE_PHASE == 1 || policy == 0 || policy == 3 || s.bit F.SEC_DBG_STAT_LOCKOUT
      || decide (2048 ≤ s.unmirrored)
    let c := s.debugCause bytes split
    if barred then s.debugRefused 0
    else if c ≠ 0 then s.debugRefused c
    else
      let scope := fieldLe bytes (17120 + 48) 4
      let halt := scope % 2 == 1 && s.bit F.BLK_DBG_HALT
      let mem := scope / 2 % 2 == 1 && s.bit F.BLK_DBG_MEM
      let granted := halt.toNat + 2 * mem.toNat
      let s := ((s.hi F.SEC_DBG_STAT_UNLOCKED).wrB F.SEC_DBG_STAT_HALT halt).wrB F.SEC_DBG_STAT_MEM mem
      let s := s.wr F.SEC_DBG_STAT_KEY (fieldLe bytes 6 2)
      (s.journalModule 1 3 0 granted false).event 0x1104 granted)

/-- R399: an instruction is loaded into the port, which has power with IO. -/
def execBoundaryScanInstruction (t : Nat) (i : ScanIns) (s : State) : Host.Outcome State Fault Refusal :=
  let s := s.upTo t
  .next (if s.power.io then { s with pins := { s.pins with scan := i } } else s)

end Sys2Proof.Machine
end

