-- ==== Sys2Proof/Machine/HostRings.lean ====
section
/-!
DEFINITION. The host interface beside its commands (R407 to R416, R428 to R435): rings, doorbells, fetches,
records, interrupts, the watchdog and the resets of the link.
-/

namespace Sys2Proof.Machine

namespace State

/-- RING_ERR of a ring. -/
def fRingErr (r : Nat) : Fld := ⟨R.HIF_STAT, 8 + r, 1⟩

/-- A ring stops or is refused, with its cause (R412, R414, R435). -/
def ringError (s : State) (r cause : Nat) : State :=
  let s := (s.lo (F.HIF_RCFG_EN r)).hi (fRingErr r)
  let s := s.cond (4 ≤ r && r < 8) fun s => s.lo (F.HIF_RCFG_EN (r - 4))
  s.event 0x0301 (r + 16 * cause)

/-- Host accesses to BAR0 take effect (R387, R407). -/
def hostOpen (s : State) : Bool := s.commOn && s.rd F.SYS_MODE_PHASE != 1 && !s.hif.pcie.d3hot

/-- A doorbell write (R414, R433). -/
def doorbell (s : State) (r d : Nat) : State :=
  if !s.hostOpen then s
  else if !s.bit (F.HIF_RCFG_EN r) then s.hi F.HIF_STAT_WR_IGN
  else
    let ahead := (d + 65536 - s.rd (F.HIF_RIDX_CONS r)) % 65536
    let fed (s : State) : State := s.modHif fun h => { h with fedAt := s.now }
    if r < 4 then
      if s.ringHeld r ≤ ahead ∧ ahead ≤ s.ringSize r then fed (s.wr (F.HIF_RIDX_PROD r) d) else s.ringError r 1
    else if ahead ≤ s.ringHeld r then fed (s.wr (F.HIF_RIDX_CONS r) d)
    else s.ringError r 1

/-- The checks of R412 for a ring whose registers stand. -/
def ringValid (s : State) (r : Nat) : Bool :=
  let base := s.ringBase r
  let shadow := s.rd64 (R.HIF_RSHD_LO r) (R.HIF_RSHD_HI r) / 4
  base % 64 == 0
    && (!s.bit (F.HIF_RCFG_LOC r) || decide (base + s.ringSize r * entryBytes r ≤ 0x80000))
    && (decide (4 ≤ r) || (shadow != 0 && s.bit (F.HIF_RCFG_EN (4 + r))))

/-- A write of HIF_RCFG to a ring that is not enabled (R412). -/
def ringConfig (s : State) (r : Nat) (data : BitVec 32) : State :=
  let s := s.setReg (R.HIF_RCFG r) (data &&& 0xFFF#32)
  if !data.getLsbD 31 then s
  else if s.ringValid r then
    let s := ((s.hi (F.HIF_RCFG_EN r)).lo (fRingErr r)).setReg (R.HIF_RIDX r) 0#32
    s.modHif fun h => { h with phase := kvSet (fun _ => true) h.phase r true }
  else s.ringError r 3

/-- A descriptor of the ring may be fetched (R415). -/
def canFetch (s : State) (r : Nat) : Bool :=
  s.ringEn r && s.cpuOn && decide (s.ringHeld r ≠ 0)
    && decide (s.openOn r + s.ringHeld (4 + r) < s.ringSize (4 + r))

/-! ## Telemetry records (R428 to R430) -/

def str (s : State) (k : Nat) : Stream := if k = 0 then s.hif.str0 else s.hif.str1

def modStr (s : State) (k : Nat) (f : Stream → Stream) : State :=
  s.modHif fun h => if k = 0 then { h with str0 := f h.str0 } else { h with str1 := f h.str1 }

/-- Writes a record of a stream, or drops it; SEQ counts data records, so that a dropped one leaves a gap, and a
heartbeat repeats that of the latest one written (R416, R428 to R430, R432). -/
def writeTlm (s : State) (k capCt vf : Nat) (vals : List (BitVec 32)) (beat : Bool) : State :=
  let stale := decide (capCt + vf * 1000 < s.ct)
  let next := (s.rd (F.HIF_TLM_SEQ_SEQ k) + 1) % 2 ^ 32
  let s := s.cond (!beat) fun s => s.wr (F.HIF_TLM_SEQ_SEQ k) next
  if s.ringTakes (9 + k) then
    let seq := if beat then (s.str k).lastSeq else next
    let words := (List.range 9).flatMap fun i => leBytes 4 (vals.getD i 0#32).toNat
    let bs := leBytes 1 k ++ leBytes 1 ((if stale then 2 else 0) + (if beat then 4 else 0)) ++ leBytes 1 vals.length
      ++ leBytes 1 0 ++ leBytes 4 vf ++ leBytes 8 capCt ++ leBytes 8 s.ct ++ words ++ leBytes 4 seq
    let s := s.writeEntry (9 + k) 1 bs
    let s := s.modStr k fun x => { x with lastAt := s.now, dropped := false, lastCap := capCt, lastVf := vf, lastSeq := seq }
    s.cond stale fun s => s.raiseIrq (9 + k)
  else
    let told := (s.str k).dropped
    let s := (s.dropRecord (9 + k)).modStr k fun x => { x with dropped := true }
    s.cond (!told) fun s => s.modHif fun h => { h with late := h.late ++ [(0x0303, k)] }

/-! ## Resets of the link (R410, R435) -/

/-- The Link class and the configuration space take their reset values, copies are abandoned, and what was fetched before completes into the journal
alone. -/
def linkReset (s : State) (f : Fld) (code : Nat) : State :=
  let s := (s.classReset [.link]).hi f
  let s := s.modHif fun h => { h with
    phase := [], str0 := {}, str1 := {}, irqAt := [], irqHeld := [], links := h.links + 1,
    pcie := { msixEn := false, maxPayload := 128 },
    late := h.late ++ [(code, 0)] }
  s.abandonCopies

/-- Held event records go to the EVT ring, in order, while it has space; then the events that waited for it
are raised (R416, R426). -/
def drainEvents : Nat → State → State
  | 0, s => s
  | n + 1, s =>
    match s.hif.backlog with
    | [] => s
    | e :: rest =>
      if s.ringTakes 8 then drainEvents n ((s.modHif fun h => { h with backlog := rest }).writeEvent e.1 e.2) else s

end State

/-- R414: a doorbell write. -/
def execDoorbell (t : Nat) (r : Fin 11) (idx : BitVec 16) (s : State) : Host.Outcome State Fault Refusal :=
  .next ((s.upTo t).doorbell r idx.toNat)

/-- R412: EN is written to 1. -/
def execRingEnable (t : Nat) (r : Fin 11) (data : Word) (s : State) : Host.Outcome State Fault Refusal :=
  let s := s.upTo t
  .next (if !s.hostOpen then s
  else if s.bit (F.HIF_RCFG_EN r) then s.hi F.HIF_STAT_WR_IGN
  else s.ringConfig r (data ||| 0x80000000#32))

/-- R415: the lowest-numbered ring with work and room is served; CONS and the shadow follow. -/
def execDescriptorFetch (t : Nat) (r : Fin 4) (bytes : List Byte) (s : State) : Host.Outcome State Fault Refusal :=
  let s := s.upTo t
  .next (if !s.canFetch r || (List.range r.val).any s.canFetch then s
  else
    let i := s.rd (F.HIF_RIDX_CONS r)
    let bs := if s.bit (F.HIF_RCFG_LOC r) then memBytes s.sram (s.ringBase r + i % s.ringSize r * 64) 64
      else (bytes ++ List.replicate 64 0#8).take 64
    let s := s.wr (F.HIF_RIDX_CONS r) (i + 1)
    let s := (s.setOpen r (s.openOn r + 1)).capture (.desc ⟨r, i, bs, s.hif.links⟩)
    s.writeShadow r ((i + 1) % 65536))

/-- R430: 10 ms have passed since the stream's last record. The host interface writes the heartbeat itself, with CAP_CT,
VALID_FOR and SEQ of the latest data record; before the first one they are 0 (log entry 125). -/
def execTlmHeartbeat (t : Nat) (k : Fin 2) (s : State) : Host.Outcome State Fault Refusal :=
  let s := s.upTo t
  .next (if s.commOn && s.bit (F.HIF_TLM_CFG_EN k) && decide ((s.str k).lastAt + 10000000 ≤ s.now) then
    s.writeTlm k (s.str k).lastCap (s.str k).lastVf [] true
  else s)

/-- R416: the EVT ring has space again. -/
def execEventBacklogWrite (t : Nat) (s : State) : Host.Outcome State Fault Refusal :=
  let s := s.upTo t
  .next (if !s.commOn then s
  else
    let s := State.drainEvents 64 s
    if s.ringTakes 8 && s.hif.backlog.isEmpty then
      let l := s.hif.late
      let s := s.modHif fun h => { h with late := [] }
      l.foldl (fun s e => s.event e.1 e.2) s
    else s)

/-- R432, R480: after IRQ_HOLD, the raises of a vector that were merged send one message or NOTIFY. -/
def execIrqHoldExpire (t : Nat) (v : Fin 32) (s : State) : Host.Outcome State Fault Refusal :=
  let s := s.upTo t
  .next (let held := (List.range 11).filter fun r =>
      kvGet (fun _ => false) s.hif.irqHeld r && s.rd (F.HIF_RCFG_VEC r) == v.val
    let last := kvGet (fun _ => 0) s.hif.irqAt v
    match held with
    | [] => s
    | r :: _ =>
      if s.commOn && decide (last - 1 + s.rd F.HIF_CTL_IRQ_HOLD * 1000 ≤ s.now) then
        let s := (s.sendIrq r).each held fun s r =>
          s.modHif fun h => { h with irqHeld := kvSet (fun _ => false) h.irqHeld r false }
        s.modHif fun h => { h with irqAt := kvSet (fun _ => 0) h.irqAt v (s.now + 1) }
      else s)

/-- R433: WD_T has passed without a valid doorbell; a running axis goes to HOLD as by SET_MODE HOLD. -/
def execHostWatchdogExpire (t : Nat) (s : State) : Host.Outcome State Fault Refusal :=
  let s := s.upTo t
  .next (if s.commOn && s.bit F.HIF_CTL_WD_EN
      && decide (s.hif.fedAt + max 1 (s.rd F.HIF_CTL_WD_T) * 1000000 ≤ s.now) then
    let s := ((s.hi F.HIF_STAT_WD_EXP).modHif fun h => { h with fedAt := s.now }).event 0x0304 0
    if s.cores.fwRuns && s.axes.any s.running then s.activateFor 2 (s.axes.filter fun a => s.axMode a != 5) else s
  else s)

/-- R410: a hot reset or a function-level reset. -/
def execHotReset (t : Nat) (s : State) : Host.Outcome State Fault Refusal :=
  let s := s.upTo t
  .next (if s.commOn then s.linkReset F.HIF_STAT_FLR 0x0306 else s)

/-- R410: PERST_N is asserted, or the link is down without a reset. -/
def execLinkLoss (t : Nat) (perst : Bool) (s : State) : Host.Outcome State Fault Refusal :=
  let s := s.upTo t
  let s := s.cond perst fun s => { s with pins := { s.pins with perstN := false } }
  .next (if s.commOn && (perst || s.bit F.HIF_STAT_LINK_UP) then s.linkReset F.HIF_STAT_LINK_LOSS 0x0305 else s)

/-- R422, R435: a DMA error ends the copy of a command with ARG, or stops its ring. -/
def execDmaError (t : Nat) (r : Fin 11) (s : State) : Host.Outcome State Fault Refusal :=
  let s := s.upTo t
  .next (match s.hif.mover with
  | [] => if s.ringEn r then s.ringError r 2 else s
  | j :: rest =>
    if j.cmd.ring = r.val then (s.modHif fun h => { h with mover := rest }).capture (.copyEnd j none)
    else if s.ringEn r then s.ringError r 2 else s)

/-- R412: writing 1 to SAT clears CNT while the ring is disabled; otherwise the write is ignored. -/
def execHifRcntSatClear (t : Nat) (r : Fin 11) (s : State) : Host.Outcome State Fault Refusal :=
  let s := s.upTo t
  .next (if !s.commOn then s
  else if s.bit (F.HIF_RCFG_EN r) then s.hi F.HIF_STAT_WR_IGN
  else s.clearCounts (R.HIF_RCNT r))

/-- R407: the link has trained, and the host has set up the configuration space; what was pending while the function was masked
goes out. -/
def execPcieLinkUp (t : Nat) (s : State) (cfg : PcieCfg := {}) : Host.Outcome State Fault Refusal :=
  let s := s.upTo t
  .next (if s.commOn && s.awake then
    let s := { s.hi F.HIF_STAT_LINK_UP with pins := { s.pins with perstN := true } }
    let s := s.modHif fun h => { h with pcie := cfg }
    if !cfg.msixEn || s.msixShut then s
    else s.each (List.range 32) fun s v =>
      if s.bit ⟨R.HIF_MSIX_PBA, v, 1⟩ && !s.bit (F.HIF_MSIX_CTRL_MASK v) then (s.lo ⟨R.HIF_MSIX_PBA, v, 1⟩).emit (.msix v)
      else s
  else s)

end Sys2Proof.Machine
end

