-- ==== Sys2Proof/Machine/Can.lean ====
section
/-!
DEFINITION. The CAN FD controllers beside their commands (R485 to R503).
-/

namespace Sys2Proof

/-- ID of a received frame as the image holds it. -/
def CanFrame.word (f : CanFrame) : Nat := f.id.toNat + (if f.rtr then 2 ^ 29 else 0) + (if f.xtd then 2 ^ 30 else 0)

end Sys2Proof

namespace Sys2Proof.Machine

/-- A flag of a message object (R490). -/
def CanObj.flag (o : CanObj) (k : Nat) : Bool := o.flags.testBit k

/-- The flags with one bit replaced. -/
def CanObj.setFlag (o : CanObj) (k : Nat) (b : Bool) : CanObj :=
  { o with flags := o.flags - (o.flags / 2 ^ k % 2) * 2 ^ k + (if b then 2 ^ k else 0) }

/-- The 80-byte image (R490). -/
def CanObj.image (o : CanObj) : List Byte :=
  leBytes 4 o.id ++ leBytes 4 o.mask ++ leBytes 1 o.dlc ++ leBytes 1 o.flags ++ leBytes 2 o.epoch ++ leBytes 4 o.ts
    ++ (o.data ++ List.replicate 64 0#8).take 64

/-- Bytes of a DLC: classical frames carry at most 8 (R485). -/
def dlcBytes (fdf : Bool) (dlc : Nat) : Nat :=
  if dlc ≤ 8 then dlc else if fdf then [12, 16, 20, 24, 32, 48, 64].getD (dlc - 9) 64 else 8

namespace State

def canObj (s : State) (n k : Nat) : CanObj := kvGet (fun _ => {}) (s.can n).objs k

def putCanObj (s : State) (n k : Nat) (o : CanObj) : State :=
  s.modCan n fun c => { c with objs := kvSet (fun _ => {}) c.objs k o }

/-- The controller owns an object (R492). -/
def canOwns (s : State) (n k : Nat) : Bool := s.bit ⟨R.CAN_OWN n (k / 32), k % 32, 1⟩

/-- The timing checks of R486. -/
def canTimingBad (s : State) (n : Nat) : Bool :=
  let n1 := s.rd (F.CAN_NBT_NTSEG1 n) + 1
  let n2 := s.rd (F.CAN_NBT_NTSEG2 n) + 1
  let d1 := s.rd (F.CAN_DBT_DTSEG1 n) + 1
  let d2 := s.rd (F.CAN_DBT_DTSEG2 n) + 1
  let nb := (s.rd (F.CAN_NBT_NBRP n) + 1) * (1 + n1 + n2)
  let db := (s.rd (F.CAN_DBT_DBRP n) + 1) * (1 + d1 + d2)
  decide (n1 < 2) || decide (d1 < 2) || decide (n2 < s.rd (F.CAN_NBT_NSJW n) + 1)
    || decide (d2 < s.rd (F.CAN_DBT_DSJW n) + 1) || decide (nb < 80) || decide (8000 < nb) || decide (db < 10)

/-- The controller leaves INIT and integrates into the bus (R491). -/
def canLeaveInit (s : State) (n : Nat) (c : Option Cmd) : State :=
  let s := ((s.lo (F.CAN_CTL_INIT n)).setReg (R.CAN_ERR n) 0#32).wr (F.CAN_STAT_STATE n) 0
  ((s.lo (F.CAN_STAT_WARN n)).modCan n fun k => { k with starting := c }).canClock

/-- Timestamp and epoch of an instant `ago` ns before now (R495). -/
def canStamp (s : State) (ago : Nat) : Nat × Nat :=
  let x := { s with now := s.now - ago }.canTicks
  (x % 2 ^ 32, x / 2 ^ 32 % 65536)

/-- The place of a pending object in the order of arbitration: identifier, a base one before an extended one of equal top
bits, data before remote, object number (R493). -/
def canPlace (s : State) (n : Nat) (x : CanTx) : Nat :=
  let id := (s.canObj n x.obj).id
  let xtd := id.testBit 30
  let top := 2 * (id / 2 ^ 18 % 2 ^ 11) + xtd.toNat
  ((top * 2 ^ 18 + (if xtd then id % 2 ^ 18 else 0)) * 2 + (id.testBit 29).toNat) * 128 + x.obj

/-- Puts a pending object before the first one that arbitration would send later. -/
def canPut (s : State) (n : Nat) (x : CanTx) : List CanTx → List CanTx
  | [] => [x]
  | y :: l => if s.canPlace n x < s.canPlace n y then x :: y :: l else y :: canPut s n x l

/-- The pending objects in the order of arbitration. -/
def canOrder (s : State) (n : Nat) : List CanTx := (s.can n).pend.foldl (fun l x => s.canPut n x l) []

/-- New error counters and what they lead to (R497, R498, R501). -/
def canCounters (s : State) (n tec rec_ : Nat) : State :=
  let off := decide (255 < tec)
  let was := s.rd (F.CAN_STAT_STATE n)
  let s := (s.wr (F.CAN_ERR_TEC n) (min 255 tec)).wr (F.CAN_ERR_REC n) (min 127 rec_)
  let s := s.wrB (F.CAN_ERR_RP n) (decide (127 < rec_))
  let warn := decide (96 ≤ tec) || decide (96 ≤ rec_)
  let s := s.cond (warn && !s.bit (F.CAN_STAT_WARN n)) fun s => s.event 0x0E01 n
  let s := s.wrB (F.CAN_STAT_WARN n) warn
  if off then
    if was = 3 then s
    else
      let s := (s.wr (F.CAN_STAT_STATE n) 3).event 0x0E03 n
      let s : State := (s.canOrder n).foldl (fun s x => s.canFail n x 6) s
      s.cond (s.bit (F.CAN_CTL_AUTO_REC n)) fun s => s.modCan n fun k => { k with recovering := true }
  else
    let st := if 127 < tec ∨ 127 < rec_ then 2 else 1
    let s := s.cond (st == 2 && was != 2) fun s => s.event 0x0E02 n
    s.wr (F.CAN_STAT_STATE n) st

/-- The controller is on the bus. -/
def canActive (s : State) (n : Nat) : Bool :=
  s.commOn && !s.bit (F.CAN_CTL_INIT n) && (s.rd (F.CAN_STAT_STATE n) == 1 || s.rd (F.CAN_STAT_STATE n) == 2)

/-- A frame on the bus has ended: a STOP that waited for it takes effect (R491, R501). -/
def canFrameEnd (s : State) (n : Nat) : State := s.cond (!(s.can n).stopping.isEmpty) fun s => s.canInit n

/-- The object that a frame starting `ago` ns before now carries: the first in the order of arbitration of those pending
then (R493). -/
def canSent (s : State) (n ago : Nat) : Option CanTx :=
  (s.canOrder n).find? fun x => decide (x.since + ago ≤ s.now)

/-- The object that takes a frame: the first enabled receive object that matches (R494, R501). -/
def canTaker (s : State) (n : Nat) (f : CanFrame) : Option Nat :=
  let hit (o : CanObj) : Bool :=
    o.flag 6 && !o.flag 0 && o.id.testBit 30 == f.xtd
      && Nat.land (Nat.land (Nat.xor o.id f.word) o.mask) 0x3FFFFFFF == 0
  ((s.can n).objs.find? fun p => hit p.2).map (·.1)

end State

/-- R494: a received frame is offered to the receive objects, and one that is taken reaches the replicator. -/
def execCanFrameReceive (t : Nat) (n : Fin 2) (f : CanFrame) (sof : Nat) (err : BitVec 8) (s : State) :
    Host.Outcome State Fault Refusal :=
  let s := s.upTo t
  .next (if !s.canActive n || (f.fdf && !s.bit (F.CAN_CTL_FD_EN n)) then s
  else
    let s := s.canCounters n (s.rd (F.CAN_ERR_TEC n)) err.toNat
    State.canFrameEnd (match s.canTaker n f with
    | none => s.count (F.CAN_CNT_RX_DROP n) (F.CAN_CNT_SAT n) 0x0E09 n
    | some k =>
      let o := s.canObj n k
      let again := o.flag 7
      let s := s.cond again fun s =>
        (s.count (F.CAN_CNT_RX_OVW n) (F.CAN_CNT_SAT n) 0x0E09 n).event 0x0E05 (n + 256 * k)
      if again && o.flag 5 then s
      else
        let st := s.canStamp sof
        let data := (f.data ++ List.replicate 64 0#8).take (dlcBytes f.fdf f.dlc.toNat)
        let o := (((o.setFlag 1 f.fdf).setFlag 2 f.brs).setFlag 3 f.esi).setFlag 7 true
        let o := { o with id := f.word, dlc := f.dlc.toNat, ts := st.1, epoch := st.2, data := data }
        (s.putCanObj n k o).capture (.canRx n k o st.1)) n)

/-- R489, R493: the transmission of the object that arbitration put first ends on the bus; a measured delay above 127 clocks
makes it a bit error. A controller that listens only sends nothing, and FD frames need FD_EN. -/
def execCanTransmitEnd (t : Nat) (n : Fin 2) (obj : Fin 128) (e : CanEnd) (sof : Nat) (esi : Bool)
    (delay : Option Nat) (tec : Nat) (s : State) : Host.Outcome State Fault Refusal :=
  let s := s.upTo t
  let o := s.canObj n obj
  .next (if !s.canActive n || s.bit (F.CAN_CTL_LISTEN n) || (o.flag 1 && !s.bit (F.CAN_CTL_FD_EN n)) then s
  else match (s.canSent n sof).filter fun x => x.obj == obj.val with
    | none => s
    | some x =>
      let measured := if s.bit (F.CAN_TDC_TDC_EN n) && o.flag 1 && o.flag 2 then delay else none
      let tooLong := measured.any fun d => decide (127 < d)
      let s := match measured with
        | none => s
        | some d => s.wr (F.CAN_STAT_TDCV n) (min 127 d)
      let s := s.cond tooLong fun s => s.hi (F.CAN_STAT_TDC_OVR n)
      let e := if tooLong then CanEnd.failed 2 else e
      let st := s.canStamp sof
      let done := { o.setFlag 3 esi with ts := st.1, epoch := st.2 }
      let s := match e with
        | .acked =>
          let s := s.putCanObj n obj done
          let s := s.modCan n fun k => { k with pend := k.pend.filter fun y => y.obj != obj.val }
          (s.canOwnBit n obj false).complete x.cmd stOk (State.canResult 0 st.1)
        | .failed c =>
          let s := s.putCanObj n obj done
          if o.flag 4 then
            (s.canFail n x c).event 0x0E07 (n + 256 * obj + 65536 * c)
          else s
      (s.canCounters n tec (s.rd (F.CAN_ERR_REC n))).canFrameEnd n)

/-- R493: TX_TMAX has passed since the object was passed over. -/
def execCanTxTimeout (t : Nat) (n : Fin 2) (obj : Fin 128) (s : State) : Host.Outcome State Fault Refusal :=
  let s := s.upTo t
  .next (match (s.can n).pend.find? fun x => x.obj == obj.val with
  | none => s
  | some x =>
    let max_ := s.rd (F.CAN_CTL_TX_TMAX n)
    if s.commOn && max_ != 0 && !(s.canObj n obj).flag 4 && decide (x.since + max_ * 1000000 ≤ s.now) then
      (s.canFail n x 9).event 0x0E08 (n + 256 * obj)
    else s)

/-- R497: a bus error updates the counters. -/
def execCanBusError (t : Nat) (n : Fin 2) (lec : Fin 7) (dataPhase : Bool) (tec err : Nat) (s : State) :
    Host.Outcome State Fault Refusal :=
  let s := s.upTo t
  .next (if !s.canActive n then s
  else (s.wr (if dataPhase then F.CAN_STAT_DLEC n else F.CAN_STAT_LEC n) lec).canCounters n tec err |>.canFrameEnd n)

/-- R491: 11 recessive bits integrate the controller, and START completes. -/
def execCanIntegrated (t : Nat) (n : Fin 2) (s : State) : Host.Outcome State Fault Refusal :=
  let s := s.upTo t
  .next (if !s.commOn || s.bit (F.CAN_CTL_INIT n) || s.rd (F.CAN_STAT_STATE n) != 0 then s
  else
    let s := s.wr (F.CAN_STAT_STATE n) 1
    match (s.can n).starting with
    | none => s
    | some c => (s.modCan n fun k => { k with starting := none }).complete c stOk 0)

/-- R498: bus-off recovery ends. -/
def execCanRecoveryDone (t : Nat) (n : Fin 2) (s : State) : Host.Outcome State Fault Refusal :=
  let s := s.upTo t
  .next (if !s.commOn || !(s.can n).recovering then s
  else
    let c := (s.can n).recCmd
    let s := s.modCan n fun k => { k with recovering := false, recCmd := none }
    let s := ((s.setReg (R.CAN_ERR n) 0#32).wr (F.CAN_STAT_STATE n) 1).lo (F.CAN_STAT_WARN n)
    let s := s.event 0x0E04 n
    match c with
    | none => s
    | some c => s.complete c stOk 0)

/-- R495: CAN_TS wraps, and the epoch follows. -/
def execCanTsWrap (t : Nat) (s : State) : Host.Outcome State Fault Refusal :=
  let s := s.upTo t
  .next (if s.rd F.CAN_TS_EPOCH_EPOCH < s.canTicks / 2 ^ 32 then
    s.wr F.CAN_TS_EPOCH_EPOCH (s.rd F.CAN_TS_EPOCH_EPOCH + 1)
  else s)

/-- SNAP latches counter, epoch and CT together (R496). -/
def State.canSnap (s : State) : State :=
  let s := (s.setReg R.CAN_SNAP_TS (s.liveWord R.CAN_TS)).setReg R.CAN_SNAP_EP (s.reg R.CAN_TS_EPOCH)
  s.wr64 R.CAN_SNAP_CT_LO R.CAN_SNAP_CT_HI s.ct

/-- R496: CAN_TS_CFG.SNAP. -/
def execSnap (t : Nat) (s : State) : Host.Outcome State Fault Refusal :=
  let s := s.upTo t
  .next (if s.commOn && s.stores then s.canSnap else s)

/-- R502: writing 1 to SAT clears the three counters. -/
def execCanCntSatClear (t : Nat) (n : Fin 2) (s : State) : Host.Outcome State Fault Refusal :=
  let s := s.upTo t
  .next (if s.commOn && s.stores then s.clearCounts (R.CAN_CNT n) else s)

end Sys2Proof.Machine
end

