-- ==== Sys2Proof/Machine/Chain.lean ====
section
/-!
DEFINITION. The Tramer chain's shared operations (R452 to R484): ports and partners, counters, the roll, breaks
and chain time.
-/

namespace Sys2Proof.Machine

/-- A frame as its bytes spell it, when every check of R459 passes: header, payload and CRC. -/
def readFrame (bs : List Byte) (ended : Bool) : Option Frame :=
  let be (i n : Nat) : Nat := beNat (slice bs i n)
  let len := be 6 2
  if ended && decide (len ≤ 256) && bs.length == 20 + len && be 14 2 == crc16 (bs.take 14)
      && be (16 + len) 4 == crc32c (bs.take (16 + len)) then
    some ⟨be 0 1, be 2 2 % 16384, be 4 2 % 16384, be 8 2, slice bs 16 len⟩
  else none

/-- The length that a frame type has (R458). -/
def frameLenOk (ty len : Nat) : Bool :=
  if ty = 2 ∨ ty = 4 ∨ (8 ≤ ty ∧ ty ≤ 12) ∨ ty = 0x10 ∨ ty = 0x13 then len == 8
  else if ty = 3 then len == 12
  else if ty = 0x11 then decide (12 ≤ len)
  else if ty = 0x12 then decide (8 ≤ len)
  else decide (0x40 ≤ ty) && decide (ty ≤ 0x7F)

/-- The class of a frame type; lower goes first (R458, R462). -/
def frameClass (ty : Nat) : Nat := if ty = 3 ∨ (8 ≤ ty ∧ ty ≤ 12) then 0 else if ty = 2 ∨ 0x40 ≤ ty then 2 else 1

namespace State

def modChain (s : State) (f : Chain → Chain) : State := { s with chain := f s.chain }

def port (s : State) (p : Nat) : ChainPort := if p = 0 then s.chain.up else s.chain.down

def modPort (s : State) (p : Nat) (f : ChainPort → ChainPort) : State :=
  s.modChain fun c => if p = 0 then { c with up := f c.up } else { c with down := f c.down }

/-- The port is active with its link up. -/
def portActive (s : State) (p : Nat) : Bool :=
  s.commOn && s.rd (F.CHN_PORT_STATE p) == 2 && s.bit (F.CHN_PORT_LINK p)

/-- Counts in CHN_ERR_p and CHN_DROP, with event 0x0D0E when SAT is set. -/
def chnErr (s : State) (p : Nat) (f : Fld) : State := s.count f (F.CHN_ERR_SAT p) 0x0D0E p
def chnDrop (s : State) (f : Fld) : State := (s.count f F.CHN_DROP_SAT 0x0D0E 0).event 0x0D0D 0

/-- Adds code errors to a port's count (R454, R455). -/
def codeErrors (s : State) (p n : Nat) : State :=
  let v := min 0xFFFF (s.rd (F.CHN_ERR_CODE_ERR p) + n)
  let s := s.wr (F.CHN_ERR_CODE_ERR p) v
  s.cond (v == 0xFFFF && !s.bit (F.CHN_ERR_SAT p)) fun s => (s.hi (F.CHN_ERR_SAT p)).event 0x0D0E p

/-! ## Credits and partner changes (R463, R464) -/

/-- The transmitter's credit: 8 − ((SENT − FREED) mod 256), which may fall outside 0 to 8. -/
def creditOf (sent freed : Nat) : Int := 8 - (((sent + 256 - freed % 256) % 256 : Nat) : Int)

/-- Starts a partner change at this unit (R464). -/
def partnerStart (s : State) (p : Nat) (toRepeat : Bool) : State :=
  match (s.port p).partner with
  | .changing .. => s
  | _ =>
    let s := (s.emit (.linkctl p 1)).hi (F.CHN_PORT_HELD p)
    s.modPort p fun k => { k with partner := .changing s.now toRepeat }

/-- Both sides start with SENT and FREED at 0 and 8 credits. -/
def partnerReset (s : State) (p : Nat) : State :=
  let s := (s.lo (F.CHN_PORT_HELD p)).wr (F.CHN_PORT_CREDIT p) 8
  s.modPort p fun k => { k with partner := .none, sent := 0, freed := 0 }

/-- A broadcast BREAK out of the other port, for a port that failed or has healed (R468). -/
def breakSend (s : State) (p : Nat) (healed : Bool) : State :=
  let f : Frame := ⟨4, 0x3FFF, s.chainAddr, s.chain.seq,
    beBytes 2 s.chainAddr ++ beBytes 1 (p + (if healed then 2 else 0)) ++ List.replicate 5 0#8⟩
  if s.portActive (1 - p) then
    s.modChain fun c => { c with seq := (c.seq + 1) % 65536, queue := c.queue ++ [⟨1 - p, true, f, none, s.now⟩] }
  else s

/-- How far a bound lies from the unit in the direction it bounds: DOWN for a failed DOWN port, else UP. -/
def bndDist (own bnd : Nat) (down : Bool) : Nat := if down then (bnd + 16384 - own) % 16384 else (own + 16384 - bnd) % 16384

/-- A break reported at a port of another unit, or of this one, enters the nearest bound of its side, or leaves it. -/
def breakBound (s : State) (bnd : Nat) (down healed : Bool) : State :=
  let own := s.chainAddr
  let fB := if down then F.CHN_BREAK_DN_BND else F.CHN_BREAK_UP_BND
  let fV := if down then F.CHN_BREAK_DN_VALID else F.CHN_BREAK_UP_VALID
  let nearer := !s.bit fV || decide (bndDist own bnd down < bndDist own (s.rd fB) down)
  if healed then s.cond (s.bit fV && s.rd fB == bnd) fun s => (s.lo fV).wr fB 0
  else s.cond nearer fun s => (s.hi fV).wr fB bnd

/-- A BREAK frame of another unit. -/
def breakTake (s : State) (bnd : Nat) (down healed : Bool) : State :=
  (s.breakBound bnd down healed).event (if healed then 0x0D04 else 0x0D03) (bnd * 65536)

/-- The changing unit changes mode and sends RESET (R464, step 3). A port that came back heals its break. -/
def partnerFinish (s : State) (p : Nat) (toRepeat : Bool) : State :=
  let s := (s.emit (.linkctl p 3)).partnerReset p
  let s := s.wr (F.CHN_PORT_STATE p) (if s.portEnd p then 3 else if toRepeat then 1 else 2)
  if (s.port p).healDue then
    ((s.modPort p fun k => { k with healDue := false }).breakBound s.chainAddr (p == 1) true).breakSend p true
  else s

/-- The partner is drained: its credit is back at 8, and it answers a HOLD (R464, step 2). -/
def drainReply (s : State) (p : Nat) : State :=
  match (s.port p).partner with
  | .heldBy since false =>
    if s.rd (F.CHN_PORT_CREDIT p) = 8 ∨ since + 1000000 ≤ s.now then
      (s.emit (.linkctl p 2)).modPort p fun k => { k with partner := .heldBy since true }
    else s
  | _ => s

/-- A receive buffer of a port is freed, and CREDIT is sent (R463). -/
def freeBuffer (s : State) (p : Nat) : State :=
  let s := s.modPort p fun k => { k with freed := (k.freed + 1) % 256 }
  s.emit (.credit p (s.port p).freed)

/-! ## The end of a roll (R465) -/

/-- The roll returns to the root with its count. -/
def rollEnd (s : State) (count : Nat) : State :=
  let s := s.modChain fun c => { c with rollAt := none }
  let s := s.wr F.CHN_ROLL_COUNT count
  if 0x3FFE < count then (s.wr F.CHN_ROLL_STATE 4).event 0x0D0A 0 else (s.wr F.CHN_ROLL_STATE 2).event 0x0D09 count

/-! ## Chain time (R469 to R474) -/

/-- The port whose TIME_SYNC is the unit's source, 2 for none. -/
def timeSource (s : State) : Nat := if s.bit (F.CHN_PORT_TSRC 0) then 0 else if s.bit (F.CHN_PORT_TSRC 1) then 1 else 2

/-- HOPS that a port offers: those of its last 1 ms, else none. -/
def offered (s : State) (p : Nat) : Nat :=
  match (s.port p).syncAt with
  | some x => if s.portActive p && decide (s.now ≤ x + 1000000) then s.rd (F.CHN_PORT_PHOPS p) else 0x3FFF
  | none => 0x3FFF

/-- The unit's source follows R471: the lowest HOPS below its own, UP on equal values; kept while the other
offers less than 2 better. -/
def pickSource (s : State) : State :=
  if s.bit F.BLK_ROLE_ROOT then s
  else
    let u := s.offered 0
    let d := s.offered 1
    let now := s.timeSource
    let cur := if now = 0 then u else if now = 1 then d else 0x3FFF
    let oth := if now = 0 then d else if now = 1 then u else 0x3FFF
    let best := if u = 0x3FFF ∧ d = 0x3FFF then 2 else if u ≤ d then 0 else 1
    let next := if now ≠ 2 ∧ cur ≠ 0x3FFF then (if oth + 2 ≤ cur then 1 - now else now)
      else if best = 2 then 2 else if min u d < s.rd F.CHN_TIME_HOPS then best else 2
    let s := (s.wrB (F.CHN_PORT_TSRC 0) (next == 0)).wrB (F.CHN_PORT_TSRC 1) (next == 1)
    let s := s.wr F.CHN_TIME_HOPS (if next = 0 then min 0x3FFF (u + 1) else if next = 1 then min 0x3FFF (d + 1) else 0x3FFF)
    if next = now then s
    else (s.modChain fun c => { c with joined := false, goodRun := 0 }).event 0x0D08 (next % 2)

/-- o in ps corrects CT: a step while no axis runs, else the servo (R470, R473). -/
def correct (s : State) (o : Int) : State :=
  let s := s.setReg R.CHN_OFS (BitVec.ofNat 32 (wrapN 32 (satS 32 o)))
  let last := s.chain.exchAt
  let s := s.modChain fun c => { c with exchAt := some s.now }
  if (!s.chain.joined || decide (1000000 < o.natAbs)) && !s.anyRunning then
    let ns := roundDiv o 1000
    let s := { s with ct := wrapN 64 ((s.ct : Int) - ns) }
    let s := s.modChain fun c => { c with joined := true, goodRun := 0, stepAt := s.now }
    (s.hi F.CHN_TIME_STEPPED).event 0x0D05 (wrapN 32 (satS 32 (-ns)))
  else
    let dt : Nat := match last with
      | some x => s.now - x
      | none => 0
    let k := s.nextFree
    let lim : Int := (dt : Int) * 10 / 1000000
    let slew := max (-lim) (min lim (Config.timeServo k.1 o dt))
    let s := { k.2 with ct := wrapN 64 ((s.ct : Int) + slew) }
    let run : Nat := if o.natAbs ≤ 20000 then s.chain.goodRun + 1 else 0
    let s := s.modChain fun c => { c with goodRun := run, slew := slew }
    if decide (2 ≤ run) && s.chain.joined && !s.bit F.CHN_TIME_SYNCED then
      (((s.hi F.CHN_TIME_SYNCED).lo F.CHN_TIME_HOLDOVER).event 0x0D06 0).runOk
    else s

/-! ## Memory access (R478, R479) -/

/-- A MEM_RSP leaves for its requester. -/
def memRsp (s : State) (src tag status : Nat) (data : List Byte) : State :=
  s.sendFrame 0x12 src (beBytes 2 tag ++ beBytes 1 status ++ List.replicate 5 0#8 ++ data) none

/-- The requester may use memory access (R479). -/
def memAllowed (s : State) (src : Nat) : Bool :=
  let lo := s.rd F.CHN_MA_CFG_HOST_LO
  lo != 0 && decide (lo ≤ src) && decide (src ≤ s.rd F.CHN_MA_CFG_HOST_HI)

def memDenied (s : State) (src tag : Nat) : State :=
  ((s.count F.CHN_DROP_DENIED F.CHN_DROP_SAT 0x0D0E 0).event 0x0D0C 0).memRsp src tag 1 []

/-! ## Ports in repeat mode (R464, R475) -/

/-- The port repeats: what arrives at it leaves by the other port. The repeat logic keeps its power in WATCH. -/
def repeating (s : State) (p : Nat) : Bool := s.power.comm != .off && s.rd (F.CHN_PORT_STATE p) == 1

/-- A repeating port passes a set or a frame on, unless the way out is mute or an end. -/
def passOn (s : State) (p : Nat) (o : Output) : State :=
  if (s.port (1 - p)).mute || s.rd (F.CHN_PORT_STATE (1 - p)) == 3 then s else s.emit o

/-- A port hears its partner: its link is up and the module's chain logic has power. -/
def portHears (s : State) (p : Nat) : Bool := s.power.comm != .off && s.bit (F.CHN_PORT_LINK p)

end State

/-- R483: writing 1 to SAT clears the port's three counters. -/
def execChnErrSatClear (t : Nat) (p : Fin 2) (s : State) : Host.Outcome State Fault Refusal :=
  let s := s.upTo t
  .next (if s.commOn && s.stores then s.clearCounts (R.CHN_ERR p) else s)

/-- R483: writing 1 to SAT clears the three counters of CHN_DROP. -/
def execChnDropSatClear (t : Nat) (s : State) : Host.Outcome State Fault Refusal :=
  let s := s.upTo t
  .next (if s.commOn && s.stores then s.clearCounts R.CHN_DROP else s)

/-- R465: the root starts a roll. -/
def execRoll (t : Nat) (s : State) : Host.Outcome State Fault Refusal :=
  .next ((s.upTo t).cond (s.upTo t).stores State.rollStart)

end Sys2Proof.Machine
end

