-- ==== Sys2Proof/Machine/FesilInstr.lean ====
section
/-!
DEFINITION. The instructions of a Fesil program (R254 to R262): each acts on the running task, in program
order, while the task's limit allows it (R245).
-/

namespace Sys2Proof.Machine

namespace State

/-- STTRG: stages a trigger word of the axis's carrier. -/
def stageTrigger (s : State) (c j : Nat) (w : BitVec 32) : State := s.setReg (R.PWM_TRIG c j) (w &&& 0x803FFFFF#32)

/-- BIQ on program memory: reads and writes follow the rules of program access. -/
def programBiquad (s : State) (k : FTask) (fd : Nat) (x : BitVec 32) (coef st : Nat) : State :=
  let c (i : Nat) : BitVec 32 := s.memLoad k (coef + 4 * i)
  let z (i : Nat) : BitVec 32 := s.memLoad k (st + 4 * i)
  let y := fMac (fMac (fMac (fMac (fMul (c 0) x) (c 1) (z 0) false) (c 2) (z 1) false) (c 3) (z 2) true)
    (c 4) (z 3) true
  ((((s.memStore (st + 4) (z 0)).memStore st x).memStore (st + 12) (z 2)).memStore (st + 8) y).setF fd y

/-- Whether a branch is taken on a condition: 0 LT, 1 EQ, 2 GT, 3 UN. -/
def brTaken (c : BrCond) (v : Nat) : Bool :=
  match c with
  | .lt => v == 0
  | .le => v == 0 || v == 1
  | .eq => v == 1
  | .ne => v != 1
  | .ge => v == 1 || v == 2
  | .gt => v == 2
  | .un => v == 3

/-- Cycles of a branch: 1 not taken, 2 taken. -/
def brCycles (s : State) (c : BrCond) : Nat :=
  match s.fsl.task with
  | some k => if brTaken c k.condOf then 2 else 1
  | none => 1

end State

/-- LDI (R256): First destination register (integer register modulo 16 for ISTAT) and item. -/
def execLdi (t : Nat) (d : Fin 64) (item : LdiItem) (s : State) (e : Ecc := .ok) : Host.Outcome State Fault Refusal :=
  .next ((s.upTo t).instr 1 e fun k s => match item with
    | .iuvw => s.setFs d (((List.range 3).map fun i => s.ampere k.axis (k.set.vals.getD i 0))
        ++ [s.volt k.axis (k.set.vals.getD 3 0)])
    | .vdc => s.setF d (s.volt k.axis (k.set.vals.getD 3 0))
    | .inp n => s.setF d (fOfInt (kvGet (fun _ => 0) k.set.ins n) (-15))
    | .istat => s.setA (d % 16) (State.istat k.set))

/-- LDS (R256): First destination register (integer register modulo 16 for integer items) and item. -/
def execLds (t : Nat) (d : Fin 64) (item : LdsItem) (s : State) (e : Ecc := .ok) : Host.Outcome State Fault Refusal :=
  .next ((s.upTo t).instr 1 e fun k s => let sn := (s.pos k.axis).snap
    let x := s.fsa k.axis
    match item with
    | .angle => s.setA (d % 16) (BitVec.ofNat 32 sn.angle)
    | .mt => s.setA (d % 16) (BitVec.ofNat 32 sn.mt)
    | .speed => s.setA (d % 16) (BitVec.ofNat 32 (wrapN 32 sn.speed))
    | .omega => s.setF d (State.omegaF (s.fc k.axis).omega)
    | .thI => s.setA (d % 16) (BitVec.ofNat 32 x.thI)
    | .thV => s.setA (d % 16) (BitVec.ofNat 32 x.thV)
    | .idqRef => s.setFs d [x.idRef, x.iqRef]
    | .istar => s.setF d x.iStar
    | .fstat => s.setA (d % 16) (s.fstat k.axis))

/-- LDC (R255): Destination, memory operand, check bits. -/
def execLdc (t : Nat) (fd : Fin 64) (m : MemRef) (e : Ecc) (s : State) : Host.Outcome State Fault Refusal :=
  .next ((s.upTo t).instr 1 e fun k s => s.setF fd (s.memLoad k (s.memAddr k m)))

/-- LDC4 (R255): Destination quad, memory operand, check bits. -/
def execLdc4 (t : Nat) (qd : Fin 16) (m : MemRef) (e : Ecc) (s : State) : Host.Outcome State Fault Refusal :=
  .next ((s.upTo t).instr 1 e fun k s => s.setFs (4 * qd) ((List.range 4).map fun i => s.memLoad k (s.memAddr k m + 4 * i)))

/-- STC (R255): Memory operand and source. -/
def execStc (t : Nat) (m : MemRef) (fs : Fin 64) (s : State) (e : Ecc := .ok) : Host.Outcome State Fault Refusal :=
  .next ((s.upTo t).instr 1 e fun k s => s.memStore (s.memAddr k m) (k.fr fs))

/-- STC4 (R255): Memory operand and source quad. -/
def execStc4 (t : Nat) (m : MemRef) (qs : Fin 16) (s : State) (e : Ecc := .ok) : Host.Outcome State Fault Refusal :=
  .next ((s.upTo t).instr 1 e fun k s => s.each [0, 1, 2, 3] fun s i =>
    s.memStore (s.memAddr k m + 4 * i) (k.fr (4 * qs + i)))

/-- LDX (R255): Destination, memory operand, check bits. -/
def execLdx (t : Nat) (ad : Fin 16) (m : MemRef) (e : Ecc) (s : State) : Host.Outcome State Fault Refusal :=
  .next ((s.upTo t).instr 1 e fun k s => s.setA ad (s.memLoad k (s.memAddr k m)))

/-- STX (R255): Memory operand and source. -/
def execStx (t : Nat) (m : MemRef) (sa : Fin 16) (s : State) (e : Ecc := .ok) : Host.Outcome State Fault Refusal :=
  .next ((s.upTo t).instr 1 e fun k s => s.memStore (s.memAddr k m) (k.ar sa))

/-- MOVI (R255): Destination and immediate. -/
def execMovi (t : Nat) (d : FReg) (imm : Word) (s : State) (e : Ecc := .ok) : Host.Outcome State Fault Refusal :=
  .next ((s.upTo t).instr 1 e fun k s => match d with
    | .f n => s.setF n imm
    | .a n => s.setA n imm)

/-- MOV (R255): Destination and source, of one kind. -/
def execMov (t : Nat) (d : FReg) (r : FReg) (s : State) (e : Ecc := .ok) : Host.Outcome State Fault Refusal :=
  .next ((s.upTo t).instr 1 e fun k s => let v := match r with
      | .f n => k.fr n
      | .a n => k.ar n
    match d with
    | .f n => s.setF n v
    | .a n => s.setA n v)

/-- FADD (R255): Destination and operands. -/
def execFadd (t : Nat) (fd : Fin 64) (fa : Fin 64) (fb : Fin 64) (s : State) (e : Ecc := .ok) :
    Host.Outcome State Fault Refusal :=
  .next ((s.upTo t).instr 1 e fun k s => s.setF fd (fAdd (k.fr fa) (k.fr fb)))

/-- FSUB (R255): Destination and operands. -/
def execFsub (t : Nat) (fd : Fin 64) (fa : Fin 64) (fb : Fin 64) (s : State) (e : Ecc := .ok) :
    Host.Outcome State Fault Refusal :=
  .next ((s.upTo t).instr 1 e fun k s => s.setF fd (fSub (k.fr fa) (k.fr fb)))

/-- FMUL (R255): Destination and operands. -/
def execFmul (t : Nat) (fd : Fin 64) (fa : Fin 64) (fb : Fin 64) (s : State) (e : Ecc := .ok) :
    Host.Outcome State Fault Refusal :=
  .next ((s.upTo t).instr 1 e fun k s => s.setF fd (fMul (k.fr fa) (k.fr fb)))

/-- FMAC (R255): Destination and operands. -/
def execFmac (t : Nat) (fd : Fin 64) (fa : Fin 64) (fb : Fin 64) (s : State) (e : Ecc := .ok) :
    Host.Outcome State Fault Refusal :=
  .next ((s.upTo t).instr 1 e fun k s => s.setF fd (fMac (k.fr fd) (k.fr fa) (k.fr fb) false))

/-- FMSU (R255): Destination and operands. -/
def execFmsu (t : Nat) (fd : Fin 64) (fa : Fin 64) (fb : Fin 64) (s : State) (e : Ecc := .ok) :
    Host.Outcome State Fault Refusal :=
  .next ((s.upTo t).instr 1 e fun k s => s.setF fd (fMac (k.fr fd) (k.fr fa) (k.fr fb) true))

/-- FNEG (R255): Destination and source. -/
def execFneg (t : Nat) (fd : Fin 64) (fs : Fin 64) (s : State) (e : Ecc := .ok) : Host.Outcome State Fault Refusal :=
  .next ((s.upTo t).instr 1 e fun k s => s.setF fd (fNeg (k.fr fs)))

/-- FABS (R255): Destination and source. -/
def execFabs (t : Nat) (fd : Fin 64) (fs : Fin 64) (s : State) (e : Ecc := .ok) : Host.Outcome State Fault Refusal :=
  .next ((s.upTo t).instr 1 e fun k s => s.setF fd (fAbs (k.fr fs)))

/-- FMIN (R255): Destination and operands. -/
def execFmin (t : Nat) (fd : Fin 64) (fa : Fin 64) (fb : Fin 64) (s : State) (e : Ecc := .ok) :
    Host.Outcome State Fault Refusal :=
  .next ((s.upTo t).instr 1 e fun k s => s.setF fd (fMin (k.fr fa) (k.fr fb)))

/-- FMAX (R255): Destination and operands. -/
def execFmax (t : Nat) (fd : Fin 64) (fa : Fin 64) (fb : Fin 64) (s : State) (e : Ecc := .ok) :
    Host.Outcome State Fault Refusal :=
  .next ((s.upTo t).instr 1 e fun k s => s.setF fd (fMax (k.fr fa) (k.fr fb)))

/-- FCLMP (R255): Destination, source and limit. -/
def execFclmp (t : Nat) (fd : Fin 64) (fs : Fin 64) (fl : Fin 64) (s : State) (e : Ecc := .ok) :
    Host.Outcome State Fault Refusal :=
  .next ((s.upTo t).instr 1 e fun k s => s.setF fd (fClamp (k.fr fs) (k.fr fl)))

/-- FDOT (R255): Destination and operand quads; the association of the sum is free. -/
def execFdot (t : Nat) (fd : Fin 64) (qa : Fin 16) (qb : Fin 16) (s : State) (e : Ecc := .ok) :
    Host.Outcome State Fault Refusal :=
  .next ((s.upTo t).instr 2 e fun k s => let p := fun i => fMul (k.fr (4 * qa + i)) (k.fr (4 * qb + i))
    s.setF fd (fSum4 (p 0) (p 1) (p 2) (p 3)))

/-- FRCP (R255): Destination and source. -/
def execFrcp (t : Nat) (fd : Fin 64) (fs : Fin 64) (s : State) (e : Ecc := .ok) : Host.Outcome State Fault Refusal :=
  .next ((s.upTo t).instr 4 e fun k s => s.setF fd (fRcp (k.fr fs)))

/-- FRSQ (R255): Destination and source. -/
def execFrsq (t : Nat) (fd : Fin 64) (fs : Fin 64) (s : State) (e : Ecc := .ok) : Host.Outcome State Fault Refusal :=
  .next ((s.upTo t).instr 4 e fun k s => s.setF fd (fRsq (k.fr fs)))

/-- FSQRT (R255): Destination and source. -/
def execFsqrt (t : Nat) (fd : Fin 64) (fs : Fin 64) (s : State) (e : Ecc := .ok) : Host.Outcome State Fault Refusal :=
  .next ((s.upTo t).instr 5 e fun k s => s.setF fd (fSqrt (k.fr fs)))

/-- FDIV (R255): Destination, dividend and divisor. -/
def execFdiv (t : Nat) (fd : Fin 64) (fa : Fin 64) (fb : Fin 64) (s : State) (e : Ecc := .ok) :
    Host.Outcome State Fault Refusal :=
  .next ((s.upTo t).instr 8 e fun k s => s.setF fd (fDiv (k.fr fa) (k.fr fb)))

/-- CVQF (R255): Destination, Q1.15 source and scale; one rounding. -/
def execCvqf (t : Nat) (fd : Fin 64) (sa : Fin 16) (fk : Fin 64) (s : State) (e : Ecc := .ok) :
    Host.Outcome State Fault Refusal :=
  .next ((s.upTo t).instr 1 e fun k s => s.setF fd (fMul (fOfInt (signed 16 (k.ar sa).toNat) (-15)) (k.fr fk)))

/-- CVFQ (R255): Destination, source and scale. -/
def execCvfq (t : Nat) (ad : Fin 16) (fs : Fin 64) (fk : Fin 64) (s : State) (e : Ecc := .ok) :
    Host.Outcome State Fault Refusal :=
  .next ((s.upTo t).instr 1 e fun k s => s.setA ad (BitVec.ofNat 32 (wrapN 32 (satS 16 (fNearest (fDiv (k.fr fs) (k.fr fk)) 15 (2 ^ 40))))))

/-- CVAF (R255): Destination and angle. -/
def execCvaf (t : Nat) (fd : Fin 64) (sa : Fin 16) (s : State) (e : Ecc := .ok) : Host.Outcome State Fault Refusal :=
  .next ((s.upTo t).instr 1 e fun k s => s.setF fd (fOfInt ((k.ar sa).toNat % 65536 : Nat) (-16)))

/-- CVFA (R255): Destination and turns. -/
def execCvfa (t : Nat) (ad : Fin 16) (fs : Fin 64) (s : State) (e : Ecc := .ok) : Host.Outcome State Fault Refusal :=
  .next ((s.upTo t).instr 1 e fun k s => s.setA ad (fAngle (k.fr fs)))

/-- CVIF (R255): Destination and signed integer. -/
def execCvif (t : Nat) (fd : Fin 64) (sa : Fin 16) (s : State) (e : Ecc := .ok) : Host.Outcome State Fault Refusal :=
  .next ((s.upTo t).instr 1 e fun k s => s.setF fd (fOfInt (signed 32 (k.ar sa).toNat) 0))

/-- CVFI (R255): Destination and source; truncated and saturated, a NaN gives 0. -/
def execCvfi (t : Nat) (ad : Fin 16) (fs : Fin 64) (s : State) (e : Ecc := .ok) : Host.Outcome State Fault Refusal :=
  .next ((s.upTo t).instr 1 e fun k s => s.setA ad (BitVec.ofNat 32 (wrapN 32 (satS 32 (fTrunc (k.fr fs) (2 ^ 40))))))

/-- IADD (R255): Destination and operands. -/
def execIadd (t : Nat) (ad : Fin 16) (aa : Fin 16) (ab : Fin 16) (s : State) (e : Ecc := .ok) :
    Host.Outcome State Fault Refusal :=
  .next ((s.upTo t).instr 1 e fun k s => s.setA ad (k.ar aa + k.ar ab))

/-- ISUB (R255): Destination and operands. -/
def execIsub (t : Nat) (ad : Fin 16) (aa : Fin 16) (ab : Fin 16) (s : State) (e : Ecc := .ok) :
    Host.Outcome State Fault Refusal :=
  .next ((s.upTo t).instr 1 e fun k s => s.setA ad (k.ar aa - k.ar ab))

/-- IAND (R255): Destination and operands. -/
def execIand (t : Nat) (ad : Fin 16) (aa : Fin 16) (ab : Fin 16) (s : State) (e : Ecc := .ok) :
    Host.Outcome State Fault Refusal :=
  .next ((s.upTo t).instr 1 e fun k s => s.setA ad (k.ar aa &&& k.ar ab))

/-- IOR (R255): Destination and operands. -/
def execIor (t : Nat) (ad : Fin 16) (aa : Fin 16) (ab : Fin 16) (s : State) (e : Ecc := .ok) :
    Host.Outcome State Fault Refusal :=
  .next ((s.upTo t).instr 1 e fun k s => s.setA ad (k.ar aa ||| k.ar ab))

/-- IXOR (R255): Destination and operands. -/
def execIxor (t : Nat) (ad : Fin 16) (aa : Fin 16) (ab : Fin 16) (s : State) (e : Ecc := .ok) :
    Host.Outcome State Fault Refusal :=
  .next ((s.upTo t).instr 1 e fun k s => s.setA ad (k.ar aa ^^^ k.ar ab))

/-- ISH (R255): Destination, source and shift from −31 to +31. -/
def execIsh (t : Nat) (ad : Fin 16) (aa : Fin 16) (sh : Int) (s : State) (e : Ecc := .ok) : Host.Outcome State Fault Refusal :=
  .next ((s.upTo t).instr 1 e fun k s => s.setA ad (if 0 ≤ sh then k.ar aa <<< sh.toNat else (k.ar aa).sshiftRight (-sh).toNat))

/-- SINCOS (R255): First destination and angle. -/
def execSincos (t : Nat) (fd : Fin 64) (sa : Fin 16) (s : State) (e : Ecc := .ok) : Host.Outcome State Fault Refusal :=
  .next ((s.upTo t).instr 3 e fun k s => let v := fSinCos ((k.ar sa).toNat % 65536)
    s.setFs fd [v.1, v.2])

/-- CLARKE (R255): First destination and source quad. -/
def execClarke (t : Nat) (fd : Fin 64) (qs : Fin 16) (s : State) (e : Ecc := .ok) : Host.Outcome State Fault Refusal :=
  .next ((s.upTo t).instr 2 e fun k s => s.setFs fd (State.clarke (k.fr (4 * qs)) (k.fr (4 * qs + 1)) (k.fr (4 * qs + 2))))

/-- PARK (R255): First destination, first of α and β, first of sine and cosine. -/
def execPark (t : Nat) (fd : Fin 64) (fs : Fin 64) (fc : Fin 64) (s : State) (e : Ecc := .ok) :
    Host.Outcome State Fault Refusal :=
  .next ((s.upTo t).instr 2 e fun k s => s.setFs fd (State.park (k.fr fs) (k.fr (fs + 1)) (k.fr fc) (k.fr (fc + 1))))

/-- IPARK (R255): First destination, first of d and q, first of sine and cosine. -/
def execIpark (t : Nat) (fd : Fin 64) (fs : Fin 64) (fc : Fin 64) (s : State) (e : Ecc := .ok) :
    Host.Outcome State Fault Refusal :=
  .next ((s.upTo t).instr 2 e fun k s => s.setFs fd (State.ipark (k.fr fs) (k.fr (fs + 1)) (k.fr fc) (k.fr (fc + 1))))

/-- SVM (R260): Destination quad (lanes 0 to 2), first of α and β, and Vdc. -/
def execSvm (t : Nat) (qd : Fin 16) (fs : Fin 64) (fv : Fin 64) (s : State) (e : Ecc := .ok) :
    Host.Outcome State Fault Refusal :=
  .next ((s.upTo t).instr 6 e fun k s => let d := State.svm (k.fr fs) (k.fr (fs + 1)) (k.fr fv)
    (s.setFs (4 * qd) d).noteNan d)

/-- CMPQ (R261): Source quad with the duties. -/
def execCmpq (t : Nat) (qs : Fin 16) (s : State) (e : Ecc := .ok) : Host.Outcome State Fault Refusal :=
  .next ((s.upTo t).instr 4 e fun k s => let d := [k.fr (4 * qs), k.fr (4 * qs + 1), k.fr (4 * qs + 2)]
    if State.anyBad d then ((s.noteNan d).event 0x0606 k.axis).epilogue false
    else s.stageDuties k.axis d)

/-- STPER (R255): Source. -/
def execStper (t : Nat) (sa : Fin 16) (s : State) (e : Ecc := .ok) : Host.Outcome State Fault Refusal :=
  .next ((s.upTo t).instr 1 e fun k s => s.setReg (R.PWM_PERIOD k.axis) (k.ar sa &&& 0x3FFFF#32))

/-- STTRG (R255): Trigger word and source. -/
def execSttrg (t : Nat) (j : Fin 8) (sa : Fin 16) (s : State) (e : Ecc := .ok) : Host.Outcome State Fault Refusal :=
  .next ((s.upTo t).instr 1 e fun k s => s.stageTrigger k.axis j (k.ar sa))

/-- PIC (R257): Destination, reference, measurement, feed-forward, limit, slot, check bits of its words. -/
def execPic (t : Nat) (fd : Fin 64) (fr : Fin 64) (fm : Fin 64) (ff : Fin 64) (fl : Fin 64) (slot : Fin 8) (e : Ecc) (s : State) :
    Host.Outcome State Fault Refusal :=
  .next ((s.upTo t).instr 3 e fun k s => let run := (s.fc k.axis).modOn && !k.set.missing && k.set.nomaj == 0
    let p := s.piSlot k.axis slot (k.fr fr) (k.fr fm) (k.fr ff) (k.fr fl) run
    (p.2.setF fd p.1).noteNan [p.1])

/-- BIQ (R255): Destination, source, coefficients, states, check bits. -/
def execBiq (t : Nat) (fd : Fin 64) (fs : Fin 64) (coef : MemRef) (st : MemRef) (e : Ecc) (s : State) :
    Host.Outcome State Fault Refusal :=
  .next ((s.upTo t).instr 3 e fun k s => s.programBiquad k fd (k.fr fs) (s.memAddr k coef) (s.memAddr k st))

/-- FCMP (R255): Operands. -/
def execFcmp (t : Nat) (fa : Fin 64) (fb : Fin 64) (s : State) (e : Ecc := .ok) : Host.Outcome State Fault Refusal :=
  .next ((s.upTo t).instr 1 e fun k s => let c := match fCmp (k.fr fa) (k.fr fb) with
      | .lt => 0
      | .eq => 1
      | .gt => 2
      | .un => 3
    s.modTask fun k => { k with cond := some c })

/-- ICMP (R255): Operands. -/
def execIcmp (t : Nat) (aa : Fin 16) (ab : Fin 16) (s : State) (e : Ecc := .ok) : Host.Outcome State Fault Refusal :=
  .next ((s.upTo t).instr 1 e fun k s => let x := signed 32 (k.ar aa).toNat
    let y := signed 32 (k.ar ab).toNat
    s.modTask fun k => { k with cond := some (if x < y then 0 else if x = y then 1 else 2) })

/-- BR (R255): Condition and program word address; 2 cycles when taken. -/
def execBr (t : Nat) (c : BrCond) (label : Nat) (s : State) (e : Ecc := .ok) : Host.Outcome State Fault Refusal :=
  .next ((s.upTo t).instr ((s.upTo t).brCycles c) e fun k s => s.cond (State.brTaken c k.condOf) fun s => s.modTask fun k => { k with pc := label % 8192 })

/-- JMP (R255): Program word address. -/
def execJmp (t : Nat) (label : Nat) (s : State) (e : Ecc := .ok) : Host.Outcome State Fault Refusal :=
  .next ((s.upTo t).instr 2 e fun k s => s.modTask fun k => { k with pc := label % 8192 })

/-- COMMIT (R262): No operand beside the instant. -/
def execCommit (t : Nat) (s : State) (e : Ecc := .ok) : Host.Outcome State Fault Refusal :=
  .next ((s.upTo t).instr 1 e fun k s => if k.committed then s.hi F.FSL_CTL_DBL_COMMIT
    else (s.modTask fun k => { k with committed := true }).commitSet k.axis (s.fc k.axis).reacqDone)

/-- TRC (R267): No operand beside the instant. -/
def execTrc (t : Nat) (s : State) (e : Ecc := .ok) : Host.Outcome State Fault Refusal :=
  .next ((s.upTo t).instr 2 e fun k s => s.traceRecord k)

/-- EVT (R255): Program event and source of its argument. -/
def execEvt (t : Nat) (c : Fin 16) (sa : Fin 16) (s : State) (e : Ecc := .ok) : Host.Outcome State Fault Refusal :=
  .next ((s.upTo t).instr 1 e fun k s => s.event (0x0610 + c) ((k.ar sa).toNat % 65536))

/-- END (R255): No operand beside the instant. -/
def execEndProgram (t : Nat) (s : State) (e : Ecc := .ok) : Host.Outcome State Fault Refusal :=
  .next ((s.upTo t).instr 1 e fun k s => s.epilogue false)

end Sys2Proof.Machine
end

