-- ==== Sys2Proof/Machine/Pos.lean ====
section
/-!
DEFINITION. The commands of the position interfaces (R192 to R206, R212).
-/

namespace Sys2Proof.Machine

/-- Position of a quadrature pair in its cycle. -/
def quadIndex (a b : Bool) : Nat :=
  match a, b with
  | false, false => 0
  | true, false => 1
  | true, true => 2
  | false, true => 3

/-- Travel without an index, or teeth without a mark, that fail the source (R202). -/
def State.missingIndex (s : State) (a : Nat) : State :=
  if s.posSrc a = 1 ∧ s.bit (F.POS_CFG_Z_EN a) ∧ 3 * 2 ^ 32 * s.polePairs a ≤ 2 * (s.pos a).travel.natAbs then
    (s.hi (F.POS_STAT_NO_REF a)).posFail a 3
  else if s.posSrc a = 4 ∧ s.rd (F.POS_SRCP_MARK_TEETH a) ≠ 0
      ∧ s.rd (F.POS_SRCP_MARK_TEETH a) + s.rd (F.POS_CHK_LC_TOL a) + 1 ≤ (s.pos a).teeth then
    (s.hi (F.POS_STAT_NO_REF a)).posFail a 3
  else s

/-- R190, R192, R198: an accepted sample of A and B, first shown at `ts`, counts in quadrature, or is illegal. -/
def execEncoderEdge (t : Nat) (a : Fin 2) (la lb : Bool) (ts : Nat) (s : State) :
    Host.Outcome State Fault Refusal :=
  let s := s.upTo t
  let ts := ts / 10 * 10
  .next (if s.ctlOn = false ∨ s.posSrc a ≠ 1 ∨ s.accepted (s.rd (F.POS_FILT_ENC_N a)) ts = false then s
  else
    let p := s.pos a
    let d := (quadIndex la lb + 4 - quadIndex p.a p.b) % 4
    let s := s.modPos a fun p => { p with a := la, b := lb, edges := p.edges + 1 }
    if d = 2 then (s.posIllegal a).posPublish a
    else if d = 0 then s
    else
      let sg : Int := if (d = 1) = (s.bit (F.POS_CFG_INV a) = false) then 1 else -1
      let old := s.posBase a
      let iv := s.posInterval a ts
      let s := s.modPos a fun p => { p with count := p.count + sg }
      let dx := s.posBase a - old
      let s := s.posMove a ts (if dx = 0 then sg else dx) (s.posStep a) [(iv, dx)]
      (s.missingIndex a).posPublish a)

/-- The Hall sector of a pattern (R193). -/
def hallSector (inv : Bool) (pat : BitVec 3) : Option Nat :=
  let k := match pat.toNat with
    | 4 => some 0 | 6 => some 1 | 2 => some 2 | 3 => some 3 | 1 => some 4 | 5 => some 5 | _ => none
  k.map fun k => if inv then 5 - k else k

/-- R190, R193, R200: an accepted Hall pattern, first shown at `ts`, sets the sector angle, or is bad or illegal. For an encoder with
HALL_AID the first transition gives a coarse reference. -/
def execHallTransition (t : Nat) (a : Fin 2) (pat : BitVec 3) (ts : Nat) (s : State) :
    Host.Outcome State Fault Refusal :=
  let s := s.upTo t
  let src := s.posSrc a
  let ts := ts / 10 * 10
  .next (if s.ctlOn = false ∨ !(src == 3 || (src == 1 && s.bit (F.POS_CFG_HALL_AID a)))
      ∨ s.accepted (10 * s.rd (F.POS_FILT_HALL_N a)) ts = false then s
  else match hallSector (s.bit (F.POS_CFG_INV a)) pat with
    | none =>
      let s := s.hi (F.POS_STAT_HALL_BAD a)
      let live := s.posLive a
      (s.modPos a fun p => match p.hallBad with
        | some _ => p
        | none => { p with hallBad := some s.now, held := live }).posPublish a
    | some k =>
      let p := s.pos a
      let s := s.modPos a fun p => { p with sector := some k, hallBad := none }
      let s := s.cond (src == 3 && s.posRef a == 0) fun s => s.wr (F.POS_ANG_REF a) 1
      let ofs := s.rd (F.POS_REF_ANG_OFS a)
      let mid := if k = 5 then (0xD555 + 0x10000) / 2 else (State.hallBound k + State.hallBound (k + 1)) / 2
      let cur := wrapN 16 ((s.posBase a).fdiv 65536)
      let toAng (ang : Nat) : Int := signed 16 (ang + ofs + 65536 - cur)
      match p.sector with
      | none =>
        if src = 3 then
          (s.modPos a fun p => { p with base := p.base + toAng mid * 65536, edges := p.edges + 1 }).posPublish a
        else s
      | some o =>
        let dk := (k + 6 - o) % 6
        if dk = 0 then s.posPublish a
        else
          let up := dk = 1
          let legal := dk = 1 ∨ dk = 5
          let ang := if up then State.hallBound k else if dk = 5 then State.hallBound (k + 1) else mid
          let d := toAng ang
          if src = 3 then
            let s := s.modPos a fun p => { p with edges := p.edges + 1, base := p.base + d * 65536 }
            let fwd := if legal then decide (dk = 1) else decide (0 ≤ d)
            let next := if fwd then (State.hallBound (k + 1) + 65536 - ang) % 65536
              else (ang + 65536 - State.hallBound k) % 65536
            let iv := s.posInterval a ts
            let dx := if d = 0 then (if fwd then 1 else -1) else d * 65536
            let s := s.posMove a ts dx (next * 65536) [(iv, d * 65536)]
            (if legal then s else s.posIllegal a).posPublish a
          else if legal ∧ s.posRef a = 0 then
            ((s.posCorrect a d).wr (F.POS_ANG_REF a) 1).posPublish a
          else s)

/-- R202: a bad Hall pattern held for 1 ms fails the source. -/
def execHallBadTimeout (t : Nat) (a : Fin 2) (s : State) : Host.Outcome State Fault Refusal :=
  let s := s.upTo t
  .next (if s.ctlOn = true ∧ s.posSrc a = 3 ∧ (s.pos a).hallBad.any (fun x => decide (x + 1000000 ≤ s.now)) = true then
    (s.posFail a 6).posPublish a
  else s)

/-- R201, R202: judges a line-count error. -/
def State.lineCount (s : State) (a : Nat) (e : Int) : State :=
  let s := s.wr (F.POS_STAT_LC_DIFF a) (wrapN 8 (max (-127) (min 127 e)))
  if s.rd (F.POS_CHK_LC_TOL a) < e.natAbs then
    let s := ((s.hi (F.POS_STAT_LC_ERR a)).posCount (F.POS_CNT_LC_CNT a) a).event 0x0A02 a
    let s := s.modPos a fun p => { p with lcRun := p.lcRun + 1 }
    if max 1 (s.rd (F.POS_CHK_LC_N a)) ≤ (s.pos a).lcRun then s.posFail a 2 else s
  else s.modPos a fun p => { p with lcRun := 0 }

/-- The first reference, or the correction at a later one (R200, R201). -/
def State.atReference (s : State) (a : Nat) : State :=
  let cur := wrapN 16 ((s.posBase a).fdiv 65536)
  let c := signed 16 (s.rd (F.POS_REF_REF_ANG a) + 65536 - cur)
  if s.posRef a ≠ 2 then
    ((s.wr (F.POS_ANG_REF a) 2).posCorrect a c).event 0x0A04 a
  else if s.bit (F.POS_CFG_SNAP a) ∧ c ≠ 0 then (s.posCorrect a c).event 0x0A05 a
  else s

/-- R190, R200, R201: a qualified index, whose level Z first showed at `ts`, sets REF fine or checks the line count. -/
def execIndexPulse (t : Nat) (a : Fin 2) (s : State) (ts : Nat := 0) : Host.Outcome State Fault Refusal :=
  let s := s.upTo t
  let p := s.pos a
  .next (if s.ctlOn = false ∨ s.posSrc a ≠ 1 ∨ s.accepted (s.rd (F.POS_FILT_ENC_N a)) ts = false ∨ s.bit (F.POS_CFG_Z_EN a) = false
      ∨ (s.bit (F.POS_CFG_Z_GATE a) ∧ !(p.a && p.b)) then s
  else
    let mt := (s.posBase a).fdiv 65536
    let s := match p.indexMt with
      | none => s
      | some m =>
        if s.posRef a = 2 then
          let mech : Int := s.polePairs a * 65536
          let d := mt - m
          let r := d - (d + mech / 2).fdiv mech * mech
          s.lineCount a (roundDiv (r * (4 * s.encLines a : Nat)) (s.polePairs a * 65536))
        else s
    let s := s.atReference a
    let s := s.modPos a fun p => { p with indexMt := some ((s.posBase a).fdiv 65536), travel := 0 }
    s.posPublish a)

/-- A reference mark of the train (R194, R200, R201). -/
def State.trainMark (s : State) (a : Nat) : State :=
  let n := s.rd (F.POS_SRCP_MARK_TEETH a)
  let s := if n = 0 ∨ s.posRef a ≠ 2 then s else s.lineCount a ((s.pos a).teeth - n)
  (s.atReference a).modPos a fun p => { p with teeth := 0 }

/-- R190, R194: an accepted rising edge of the train. The first one has no interval: it counts, and the next one gives
ref_iv (log entry 100). -/
def execToothEdge (t : Nat) (a : Fin 2) (lb : Bool) (ts : Nat) (s : State) :
    Host.Outcome State Fault Refusal :=
  let s := s.upTo t
  let p := s.pos a
  let ts := ts / 10 * 10
  .next (if s.ctlOn = false ∨ s.posSrc a ≠ 4 ∨ s.accepted (s.rd (F.POS_FILT_ENC_N a)) ts = false then s
  else
    let neg := if s.bit (F.POS_CFG_TRAIN_B a) then lb else s.bit (F.POS_CFG_TRAIN_DIR a)
    let sg : Int := if neg = s.bit (F.POS_CFG_INV a) then 1 else -1
    let tooth : Int := s.rd (F.POS_TOOTH_TOOTH_ANG a)
    let s := s.modPos a fun p => { p with b := lb, tPrev := some ts, edges := p.edges + 1 }
    let counted (s : State) (n : Nat) (ivs : List (Nat × Int)) : State :=
      let s := s.modPos a fun p => { p with count := p.count + sg * n, teeth := p.teeth + n }
      s.posMove a ts (sg * tooth * n) tooth.toNat ivs
    let mark (s : State) (missing : Bool) : State :=
      if s.bit (F.POS_CFG_MARK_KIND a) = missing then s.posIllegal a else s.trainMark a
    let s := match p.tPrev with
      | none => counted s 1 []
      | some tp =>
        let iv := ts - tp
        if p.refIv = 0 then
          (counted s 1 [(iv, sg * tooth)]).modPos a fun p => { p with refIv := iv }
        else if p.inExtra then
          let s := (counted s 1 []).modPos a fun p => { p with inExtra := false }
          mark s false
        else if s.rd (F.POS_CHK_GAP_HI a) * p.refIv < 16 * iv then
          mark (counted s 2 [(iv / 2, sg * tooth), (iv / 2, sg * tooth)]) true
        else if 16 * iv < s.rd (F.POS_CHK_GAP_LO a) * p.refIv then
          s.modPos a fun p => { p with inExtra := true }
        else (counted s 1 [(iv, sg * tooth)]).modPos a fun p => { p with refIv := iv }
    (s.missingIndex a).posPublish a)

/-- R195, R202: the amplitude check of a resolver pair, a discarded pair, and the failure by signal loss. -/
def State.resolverLoss (s : State) (a : Nat) (sin cos : Int) (discarded : Bool) : State :=
  let s := if discarded then s.modPos a fun p => { p with discRun := p.discRun + 1 } else
    s.modPos a fun p => { p with discRun := 0 }
  let losByGap := decide (3 ≤ (s.pos a).discRun)
  let s := s.cond losByGap fun s => s.modPos a fun p => { p with discRun := 0 }
  let nom := 256 * s.rd (F.POS_RES_AMP_NOM a)
  let amp2 : Int := sin * sin + cos * cos
  let bad := if discarded then losByGap
    else decide (4 * amp2 < (nom * nom : Nat)) || decide ((9 * nom * nom : Nat) < 4 * amp2)
  let s := if bad then
      let s := (s.hi (F.POS_STAT_LOS a)).posCount (F.POS_CNT_RES_CNT a) a
      s.modPos a fun p => { p with losRun := p.losRun + 1 }
    else s.cond (!discarded) fun s => s.modPos a fun p => { p with losRun := 0 }
  s.cond (decide (3 ≤ (s.pos a).losRun)) fun s => s.posFail a 4

/-- R196, R202: the tracking loop takes a demodulated pair. Its gains are not stated, so its angle, speed and
error after the sample are free values (log entry 23); locking and loss of tracking follow from them. -/
def State.resolverTrack (s : State) (a : Nat) (sn cs : Int) : State :=
  let k := s.fresh
  let s := { s with fresh := s.fresh + 1 }
  let th := Config.resolverLoop k (s.resBw a) sn cs
  let ratio := s.polePairs a / max 1 (s.rd (F.POS_RES_RES_PP a))
  let ang : Nat := (ratio * (th.1 % 2 ^ 32) + 65536 * s.rd (F.POS_REF_ANG_OFS a)) % 2 ^ 32
  let s := s.modPos a fun p =>
    let d := signed 32 ((ang : Int) - p.base % 2 ^ 32 + 2 ^ 32).toNat
    { p with base := p.base + d, spd := th.2.1 * ratio, sampleAt := s.now
             lockRun := if th.2.2 * 256 < 2 ^ 32 then p.lockRun + 1 else 0
             lotRun := if p.locked ∧ 2 ^ 32 < th.2.2 * 64 then p.lotRun + 1 else 0 }
  let s := s.cond (decide (0 < (s.pos a).lotRun)) fun s =>
    (s.hi (F.POS_STAT_LOT a)).posCount (F.POS_CNT_RES_CNT a) a
  let s := s.cond (decide (3 ≤ (s.pos a).lotRun)) fun s => s.posFail a 5
  if 32 ≤ (s.pos a).lockRun ∧ (s.pos a).locked = false ∧ s.posCfgBad a = false then
    ((s.modPos a fun p => { p with locked := true }).wr (F.POS_ANG_REF a) 2).event 0x0A08 a
  else s

/-- R195, R196, R202: a resolver pair is sampled at a crest, delayed by RES_DLY; it yields to trigger scans, and one
more than 2 µs late is discarded. The samples of a negative crest are negated. -/
def execResolverSample (t : Nat) (a : Fin 2) (sin cos : Int) (neg discarded : Bool) (s : State) : Host.Outcome State Fault Refusal :=
  let s := s.upTo t
  let p := s.pos a
  let half := s.excHalf a
  let first := p.excAt + half / 2 + 100 * s.rd (F.POS_RES_RES_DLY a)
  let k := (s.now - first) / half
  let scans := s.adc.taking.any (fun sc => decide (s.now < sc.endAt)) || !s.adc.queue.isEmpty
  let on := if a = 0 then s.pins.exc0 else s.pins.exc1
  let late := decide (first + k * half + 2000 < s.now)
  .next (if s.converting = false ∨ s.posSrc a ≠ 2 ∨ on = false ∨ s.now < first ∨ k < p.crest ∨ scans = true
      ∨ neg ≠ (k % 2 == 1) ∨ discarded ≠ late then s
  else
    let s := (s.modPos a fun p => { p with crest := k + 1 }).modAdc fun x => { x with pairAt := s.now + 1 }
    let s := s.resolverLoss a sin cos late
    if late then s.posPublish a
    else (s.resolverTrack a (if neg then -sin else sin) (if neg then -cos else cos)).posPublish a)

/-- R199: the speed falls with the time since the last edge, and is 0 after ZERO_T. -/
def execEdgeTimeout (t : Nat) (a : Fin 2) (s : State) : Host.Outcome State Fault Refusal :=
  let s := s.upTo t
  .next (if s.ctlOn then s.posPublish a else s)

/-- R205: the frame of an axis reaches Uzodar; a valid one replaces the frame it holds. -/
def execPositionFrame (t : Nat) (a : Fin 2) (ok : Bool) (s : State) : Host.Outcome State Fault Refusal :=
  let s := s.upTo t
  .next (if s.ctlOn = false ∨ s.safeOn = false then s
  else
    let s := (s.modPos a fun p => { p with fseq := (p.fseq + 1) % 16 }).posPublish a
    if ok then
      let s := s.modUz a fun u => { u with
        posLost := false
        frame := some ⟨s.rd (F.POS_ANG_ANGLE a), signed 32 (s.reg (R.POS_SPD a)).toNat, s.posRef a,
                       s.bit (F.POS_ANG_FAIL a), (s.pos a).fseq, s.now⟩ }
      ((s.speedMark a).emfMark a).brakeTravel a
    else s)

/-- R205: the position becomes unavailable to Uzodar; row 13 in RUN and LIMP (R330). -/
def execPositionFrameTimeout (t : Nat) (a : Fin 2) (s : State) : Host.Outcome State Fault Refusal :=
  let s := s.upTo t
  let late := match (s.uzAx a).frame with
    | some f => decide (f.at_ + 10000 ≤ s.now)
    | none => true
  .next (if s.safeOn = false ∨ late = false ∨ (s.uzAx a).posLost = true then s
  else
    let s := s.modUz a fun u => { u with posLost := true, frame := none, slowAt := none, fastAt := none }
    if s.running a then s.activateRow 13 a else s)

/-- R206, R207: MT has crossed CMP in the direction of STEP, at least 50 ns after the last hit. -/
def execCompareHit (t : Nat) (a : Fin 2) (s : State) : Host.Outcome State Fault Refusal :=
  let s := s.upTo t
  let step := signed 32 (s.reg (R.POS_STEP a)).toNat
  let cmp := (s.reg (R.POS_CMP a)).toNat
  let d := signed 32 (s.liveMt a + 2 ^ 32 - cmp)
  let past : Int := if step < 0 then -d else d
  .next (if s.ctlOn = false ∨ s.bit (F.POS_CMP_CTL_EN a) = false ∨ past < 0 ∨ (s.pos a).near = false
      ∨ ((s.pos a).hitAt ≠ 0 ∧ s.now + 1 < (s.pos a).hitAt + 50) then s
  else
    let s := s.modPos a fun p => { p with hitAt := s.now + 1 }
    let skipped : Nat := if step = 0 then 0 else past.toNat / step.natAbs
    let s := s.hi (F.POS_CMP_CTL_HIT a)
    let s := s.wr64 (R.POS_HIT_LO a) (R.POS_HIT_HI a) s.ct
    let s := s.cond (s.bit (F.POS_CMP_CTL_OUT a) && Config.gpioDedicated a) fun s => s.emit (.pulse a)
    let s := s.setReg (R.POS_CMP a) (BitVec.ofNat 32 (wrapN 32 (cmp + step * (skipped + 1))))
    let s := (s.cond (step == 0) fun s => s.lo (F.POS_CMP_CTL_EN a)).cmpJudge a
    if skipped = 0 then s
    else
      let s := s.wrSat (F.POS_CMP_CTL_SKIP_CNT a) (s.rd (F.POS_CMP_CTL_SKIP_CNT a) + skipped)
      (s.hi (F.POS_CMP_CTL_SKIP a)).event 0x0A06 a)

/-- R212: writing 1 to SAT clears the three counters. -/
def execPosCntSatClear (t : Nat) (a : Fin 2) (s : State) : Host.Outcome State Fault Refusal :=
  let s := s.upTo t
  .next (if s.ctlOn && s.stores then s.clearCounts (R.POS_CNT a) else s)

end Sys2Proof.Machine
end

