-- ==== Sys2Proof/Machine/UzRows.lean ====
section
/-!
DEFINITION. What Uzodar does by itself: STO, SS1, short circuits, the torque monitor, LIMP, safety outputs,
the brake test, contactors, discharge and its own tests (R320 to R359).
-/

namespace Sys2Proof.Machine

/-! ## STO and SS1 (R324 to R328) -/

/-- R324: a filtered input is low; STO is active, or with STO_MODE 1 an SS1 runs first. Both low together is
remembered for R325. An input counts as low once it has read low for the filter time: `held` ns, the longest filter
where none are given. -/
def execStoDemand (t : Nat) (a b : Bool) (s : State) (held : Nat := 2550000) : Host.Outcome State Fault Refusal :=
  let s := s.upTo t
  .next (if !s.safeOn || (a && b) || decide (held < 10000 * max 10 (s.uz F.BLK_STO_STO_FILT)) then s
  else
    let s := (s.wrB F.SAF_STAT_STO_A a).wrB F.SAF_STAT_STO_B b
    let s := s.modSaf fun u => { u with diffAt := s.since u.diffAt (a != b) }
    let s := s.cond (!a && !b && s.bit F.SAF_STAT_STO_DISC) fun s => s.modSaf fun u => { u with discLow := true }
    if s.bit F.SAF_STAT_STO_ACT then s
    else if s.uz F.BLK_STO_STO_MODE = 1 then s.stoSs1 else s.stoActive)

/-- R326, R325: both inputs are high, which they can only read with IO powered (R41, R42); a discrepancy clears if both had been low together. -/
def execStoRelease (t : Nat) (s : State) : Host.Outcome State Fault Refusal :=
  let s := s.upTo t
  .next (if !s.safeOn || !s.power.io then s
  else
    let s := ((s.hi F.SAF_STAT_STO_A).hi F.SAF_STAT_STO_B).modSaf fun u => { u with diffAt := none }
    let s := s.cond s.saf.discLow fun s =>
      ((s.lo F.SAF_STAT_STO_DISC).modSaf fun u => { u with discLow := false }).latchedBit
    s.stoClear)

/-- R325: the filtered inputs differ for longer than DISC_T. -/
def execStoDiscrepancy (t : Nat) (s : State) : Host.Outcome State Fault Refusal :=
  let s := s.upTo t
  let early := !s.stood s.saf.diffAt (max 1 (s.uz F.BLK_STO_DISC_T) * 10000000)
  .next (if !s.safeOn || s.bit F.SAF_STAT_STO_A == s.bit F.SAF_STAT_STO_B || early || s.bit F.SAF_STAT_STO_DISC then s
  else
    let s := (s.hi F.SAF_STAT_STO_DISC).modSaf fun u => { u with discLow := false }
    ((s.event 0x0C03 0).stoActive).latchedBit)

/-- R331: the cause of a row stands. -/
def execSafeStateRowActivate (t : Nat) (k : Fin 32) (a : Fin 2) (s : State) :
    Host.Outcome State Fault Refusal :=
  let s := s.upTo t
  .next (s.activateRow k a)

/-- R327, R328: a zero-speed end de-energises the brakes and starts the brake step; a timeout end applies
the end state. -/
def execSs1End (t : Nat) (a : Fin 2) (zero : Bool) (s : State) : Host.Outcome State Fault Refusal :=
  let s := s.upTo t
  let slow := (s.frameGood a).isSome && s.stood (s.uzAx a).slowAt 10000000
  .next (if !s.safeOn || !s.bit (State.fSs1 a) || (zero && !slow) then s
  else if zero then
    let s := (s.lo (State.fSs1 a)).modUz a fun u => { u with brakeStep := true, stepAt := s.now }
    ((s.soUpdate).capture (.brakeStep a 0)).event 0x0C05 a
  else if s.now < (s.uzAx a).ss1Deadline then s
  else ((s.lo (State.fSs1 a)).event 0x0C05 (a + 256)).ss1EndState a)

/-- R328: BRK_T has passed. -/
def execBrakeStepEnd (t : Nat) (a : Fin 2) (s : State) : Host.Outcome State Fault Refusal :=
  let s := s.upTo t
  let early := decide (s.now < (s.uzAx a).stepAt + s.uz F.BLK_TP_BRK_T * 10000000)
  .next (if (s.uzAx a).brakeStep && !early then s.ss1EndState a else s)

/-! ## Short circuits (R233, R335) -/

/-- R335: in HOLD a short circuit of the table ends once E_u has stayed low for 10 ms. -/
def execAscExitTimer (t : Nat) (a : Fin 2) (s : State) : Host.Outcome State Fault Refusal :=
  let s := s.upTo t
  let u := s.uzAx a
  let ofRow := u.why == .rowAuto || u.why == .rowHalf
  let low := s.measured && (s.emf a).any (fun e => !s.emfAtLeast a e (s.uz F.BLK_ASC_ASC_EXIT) 256)
    && s.stood u.lowAt 10000000
  .next (if s.axMode a == 5 && ofRow && State.isShort u.gate && low && !s.gateFixed a then (s.putGate a .allOff u.why).latchedBit
  else s)

/-- E_u from PV_IN in mV: the line-to-line peak √((2u − v − w)² ÷ 3 + (v − w)²) of the inputs' signed codes, which no
calibration of R171 scales (R233, R238; rounding under log entry 24). -/
def State.pvEmf (s : State) (a : Nat) (u v w : Int) : Nat :=
  let al := 2 * u - v - w
  let be := v - w
  let fs : Nat := 10000 * s.uz (F.FSL_FC_SAFE_PV_FS a)
  let n : Nat := (al * al + 3 * be * be).toNat * (fs * fs)
  let d : Nat := 3 * 2 ^ 30
  let r := isqrt (n / d)
  if r * r * d = n then r else if Config.roundUp 40 n d then r + 1 else r

/-- R233, R335: the 10 µs computation; three in a row at or above 0.9 × Vdc turn an all-off of the coast or
of ASC_AUTO in HOLD into a short circuit. -/
def execUzodarEmfCompute (t : Nat) (a : Fin 2) (u v w : BitVec 16) (s : State) :
    Host.Outcome State Fault Refusal :=
  let s := s.upTo t
  let pv := s.uz (F.FSL_FC_SAFE_PV_IN a)
  .next (if !s.safeOn || !s.measured then s.emfMark a
  else
    let s := s.cond (decide (8 ≤ pv) && decide (pv ≤ 13)) fun s =>
      let e := s.pvEmf a u.toInt v.toInt w.toInt
      s.modUz a fun x => { x with pvE := some e }
    let s := s.emfMark a
    let x := s.uzAx a
    let coast := x.why == .coast && x.coast && x.gate == .allOff
    let held := s.axMode a == 5 && x.why == .rowAuto && x.gate == .allOff && !s.gateFixed a
    let e := if coast then x.pvE.map (· * 65536) else s.emf a
    let high := (coast || held) && (match e with
      | some e => s.emfAtLeast a e 9 10
      | none => false)
    let run := if high then min 3 (x.hiRun + 1) else 0
    let s := s.modUz a fun x => { x with hiRun := run }
    if run < 3 then s
    else match s.pickHalf a with
      | none => s.activateRow 0 a
      | some half =>
        if s.refused a half then s.activateRow 0 a
        else if coast then
          -- the change of coast state restarts the count of R234
          let s := s.modFc a fun f => { f with hist := [], prevCand := none, prevVec := none }
          ((s.putGate a (.short half) .coast).hi (F.FSL_FC_STAT_COAST_ASC a)).event 0x0624 a
        else (s.putGate a (.short half) .rowAuto).latchedBit)

/-! ## The torque monitor (R337 to R339) -/

/-- i_q in Q1.15 from the latest ADCB set at an angle in 2^-16 turn (R337; rounding under log entry 24). -/
def State.uzIq (s : State) (a th : Nat) : Int :=
  let u := s.uzAx a
  let al := 2 * u.iU - u.iV - u.iW
  let be := truncDiv ((u.iV - u.iW) * 113512) 65536
  looseDiv 41 (be * sinFix (th + 16384) - al * sinFix th) (3 * 1099511627776)

/-- The window of R338 as its low and high edge in Q1.15. -/
def State.torqueWindow (s : State) (a : Nat) (speed : Int) : Int × Int :=
  let band : Int := s.uz F.BLK_TMON_BAND
  let l := s.recentCmds (s.uzAx a).cmds (max 1 (s.uz F.BLK_TMON_TMON_T) * 100000)
  let hi := l.foldl (fun m c => max m c.2.1) 0
  let lo := l.foldl (fun m c => min m c.2.2) 0
  let cap : Int := s.uz F.BLK_LIMP_LIMP_I
  let limp := s.axMode a == 4
  let hi := if limp then min hi cap else hi
  let lo := if limp then max lo (-cap) else lo
  let closed := s.bit (State.fSs1 a) || (limp && decide (s.uz F.BLK_LIMP_SPD_LIMP_SPD < speed.natAbs))
  let hi := if closed && decide (0 < speed) then 0 else hi
  let lo := if closed && decide (speed < 0) then 0 else lo
  let test := match s.saf.btest with
    | some b => b.axis == a
    | none => false
  let ti : Int := s.uz F.BLK_BTEST_TEST_I
  let hi := if test then max hi ti else hi
  let lo := if test then min lo (-ti) else lo
  (lo - band, hi + band)

/-- The monitor judges one i_q against the window (R338, R339, R346). -/
def State.judgeIq (s : State) (a : Nat) (speed iq : Int) : State :=
  let w := s.torqueWindow a speed
  let out := decide (iq < w.1) || decide (w.2 < iq)
  let acc := s.rd (F.SAF_TMON_ACC a)
  let acc := if out then min 0xFFFF (acc + 1) else acc - 1
  let s := s.wr (F.SAF_TMON_ACC a) acc
  let s := match s.saf.btest with
    | some b =>
      if b.axis = a ∧ 9 * s.uz F.BLK_BTEST_TEST_I ≤ 10 * iq.natAbs then
        s.modSaf fun u => { u with btest := some { b with enough := b.enough + 1 } }
      else s
    | none => s
  if 10 * max 1 (s.uz F.BLK_TMON_TMON_T) ≤ acc then s.activateRow 14 a else s

/-- R337 to R339: every 10 µs i_q is formed at the angle of the latest position frame; the monitor evaluates it in RUN and
LIMP with a fresh frame. -/
def execTorqueMonitorEval (t : Nat) (a : Fin 2) (s : State) : Host.Outcome State Fault Refusal :=
  let s := s.upTo t
  .next (match s.safeOn && (s.uzAx a).gotI, (s.uzAx a).frame with
  | true, some f =>
    let adv := looseDiv 42 (f.speed * ((s.now - f.at_ : Nat) : Int)) 1000000000
    let iq := satS 16 (s.uzIq a (wrapN 16 ((f.angle : Int) + adv)))
    let s := s.wr (F.SAF_TMON_IQ a) (wrapN 16 iq)
    let fresh := (s.frameGood a).isSome && decide (s.now < f.at_ + 1000000)
    if s.running a && fresh then s.judgeIq a f.speed iq else s
  | _, _ => s)

/-! ## LIMP (R340, R341) -/

/-- LIMP_MAX_S as it acts, in s. -/
def State.limpMax (s : State) : Nat := max 1 (min 600 (s.uz F.BLK_LIMP_LIMP_MAX_S))

/-- R340: 10 s before LIMP_MAX_S. -/
def execLimpWarning (t : Nat) (a : Fin 2) (s : State) : Host.Outcome State Fault Refusal :=
  let s := (s.upTo t).limpCount a
  .next (if s.axMode a == 4 && decide (10 < s.limpMax) && !(s.uzAx a).limpWarned
      && decide (s.limpMax * 1000000000 ≤ (s.uzAx a).limpNs + 10000000000) then
    (s.modUz a fun u => { u with limpWarned := true }).event 0x0C09 a
  else s)

/-- R340: the time in LIMP has reached LIMP_MAX_S. -/
def execLimpTimeout (t : Nat) (a : Fin 2) (s : State) : Host.Outcome State Fault Refusal :=
  let s := (s.upTo t).limpCount a
  .next (if s.axMode a == 4 && decide (s.limpMax * 1000000000 ≤ (s.uzAx a).limpNs) then s.activateRow 17 a else s)

/-- R341: |speed| above 1.25 × LIMP_SPD for 100 ms. -/
def execLimpSpeedTimeout (t : Nat) (a : Fin 2) (s : State) : Host.Outcome State Fault Refusal :=
  let s := s.upTo t
  let fast := (s.frameGood a).isSome && s.stood (s.uzAx a).fastAt 100000000
  .next (if s.axMode a == 4 && fast then s.activateRow 18 a else s)

/-! ## Safety outputs and the brake test (R342 to R347) -/

/-- An output is used: its function is not unused (R342). -/
def State.soUsed (s : State) (n : Nat) : Bool := decide (1 ≤ s.soFunc n) && decide (s.soFunc n ≤ 4)

/-- Period of each test of an output, and the width of a pulse, in ns (R344, R357). -/
def State.tpPer (s : State) : Nat := 100000000 * max 1 (s.uz F.BLK_TP_TP_PER)
def State.tpWidth (s : State) : Nat := 10000 * max 5 (min 200 (s.uz F.BLK_TP_TP_W))

/-- Start of the latest pulse of one test of an output by its schedule (R344, log entry 99). -/
def State.pulseStart (s : State) (n : Nat) (hs : Bool) : Option Nat :=
  let first := s.saf.soFrom + n * s.tpPer / 12 + (if hs then 0 else s.tpPer / 2)
  if s.now < first then none else some (s.now - (s.now - first) % s.tpPer)

/-- R41, R344: a test pulse moves one switch for TP_W and is judged; it is not where the output's command has changed
during it (log entry 99). -/
def execTestPulse (t : Nat) (n : Fin 6) (hs pad : Bool) (s : State) : Host.Outcome State Fault Refusal :=
  let s := s.upTo t
  let on := s.bit ⟨R.SAF_SO, 4 * n.val, 1⟩
  .next (if !s.safeOn || !s.soUsed n || s.soCause n != 0 then s
  else match s.pulseStart n hs with
  | none => s
  | some x =>
    if x + s.tpWidth < s.now ∨ x < kvGet (fun _ => 0) s.saf.soAt n then s
    else
      let s := s.modSaf fun u => { u with soPulse := some (n.val, hs, x + s.tpWidth) }
      let pass := if on then (if hs then !pad else pad) else (if hs then pad else !pad)
      if pass then s
      else s.soFault n (if on then (if hs then 1 else 2) else (if hs then 3 else 4)))

/-- R344: outside test pulses, the pads have not matched the commanded state for 10 ms. -/
def execSoShortTimeout (t : Nat) (n : Fin 6) (s : State) : Host.Outcome State Fault Refusal :=
  let s := s.upTo t
  let pulse := s.saf.soPulse.any fun p => p.1 == n.val && decide (s.now < p.2.2)
  .next (if !s.safeOn || !s.soUsed n || pulse then s else s.soFault n 5)

/-- R346: a TEST_T ends: the second one follows, or the result is judged. -/
def execBrakeTestPhaseEnd (t : Nat) (s : State) : Host.Outcome State Fault Refusal :=
  let s := s.upTo t
  .next (match s.saf.btest with
  | none => s
  | some b =>
    if s.now < b.since + max 1 (s.uz F.BLK_BTEST_TEST_T) * 100000000 then s else
    let lacked := decide (2 * b.enough < 10000 * max 1 (s.uz F.BLK_BTEST_TEST_T))
    if b.second then s.brakeResult b (if b.lacked || lacked then 3 else 1)
    else
      let s := s.modSaf fun u => { u with
        btest := some { b with second := true, since := s.now, travel := 0, enough := 0, lacked := lacked } }
      s.capture (.brakeStep b.axis 2))

/-- R347: BT_INT hours have passed since the last PASS. -/
def execBrakeTestDue (t : Nat) (a : Fin 2) (s : State) : Host.Outcome State Fault Refusal :=
  let s := s.upTo t
  let last := (s.uzAx a).btPassAt
  let early := last != 0 && decide (s.now < last + s.uz F.BLK_BTINT_BT_INT * 3600000000000)
  .next (if !s.safeOn || s.uz F.BLK_BTINT_BT_INT == 0 || (s.uzAx a).btDue || early then s
  else (s.modUz a fun u => { u with btDue := true }).event 0x0C0C a)

/-! ## Contactors (R348, R349) -/

/-- R348: Vdc has reached PRECH_V and PRECH_MIN has passed since CO1 closed; CO0 closes. -/
def execPrechargeReached (t : Nat) (s : State) : Host.Outcome State Fault Refusal :=
  let s := s.upTo t
  .next (match s.saf.precharge with
  | .co1 since =>
    if !s.measured || decide (s.vdcSmaller * Config.vfsVolts < (32768 * s.uz F.BLK_PRECH_PRECH_V : Nat))
        || !Config.co1Unused && decide (s.now < since + s.uz F.BLK_CON_PRECH_MIN * 10000000) then s
    else
      ((s.hi F.SAF_STAT_CO0_CMD).lo F.SAF_STAT_FB0).modSaf fun u =>
        { u with co0At := s.now, precharge := .line s.now }
  | _ => s)

/-- R348: 100 ms after FB0 shows CO0 closed, CO1 opens. -/
def execPrechargeCo1Open (t : Nat) (s : State) : Host.Outcome State Fault Refusal :=
  let s := s.upTo t
  .next (match s.saf.precharge with
  | .line since =>
    if s.now < since + 100000000 then s else s.openCo1.modSaf fun u => { u with precharge := .closed }
  | _ => s)

/-- R348: PRECH_MAX has passed without PRECH_V. -/
def execPrechargeTimeout (t : Nat) (s : State) : Host.Outcome State Fault Refusal :=
  let s := s.upTo t
  .next (match s.saf.precharge with
  | .co1 since =>
    if s.now < since + max 1 (s.uz F.BLK_CON_PRECH_MAX) * 100000000 then s
    else (s.openCo1.modSaf fun u => { u with precharge := .idle }).event 0x0C0E 0
  | _ => s)

/-- R349: the feedback of a contactor has contradicted its command for 20 ms, later than FB_T after its change: WELD,
NO_CLOSE or DROP. -/
def execContactorFeedbackFault (t : Nat) (n : Fin 2) (shown : Bool) (s : State) :
    Host.Outcome State Fault Refusal :=
  let s := s.upTo t
  let closed := s.bit (if n = 0 then F.SAF_STAT_CO0_CMD else F.SAF_STAT_CO1_CMD)
  let since := if n = 0 then s.saf.co0At else s.saf.co1At
  .next (if !s.safeOn || (n == 1 && Config.co1Unused)
      || decide (s.now < since + max 1 (s.uz F.BLK_CON_FB_T) * 10000000 + 20000000) then s
  else
    let cause := if !closed then 1 else if shown then 3 else 2
    let s := s.openContactors
    let s := s.wrB (if n = 0 then F.SAF_STAT_FB0 else F.SAF_STAT_FB1) closed
    -- a discharge that waits for FB0 finds it closed (R350)
    let s := s.cond (n == 0 && cause == 1 && s.saf.discharge == .waitFb) State.dchBarred
    let s := (s.wr F.SAF_STAT_CON_CAUSE cause).event 0x0C0D (256 * cause)
    (s.activateRow 27 0).latchedBit)

/-! ## Active discharge (R350, R351) -/

/-- R350: FB0 has read open for 10 ms; DCH rises, which it cannot before BLK_LOCK (R323). -/
def execDischargeStart (t : Nat) (s : State) : Host.Outcome State Fault Refusal :=
  let s := s.upTo t
  .next (if s.safeOn && s.bit F.SAF_STAT_SHADOW && s.saf.discharge == .waitFb && !s.bit F.SAF_STAT_CO0_CMD
      && s.bit F.SAF_STAT_FB0 && decide (s.saf.co0At + 10000000 ≤ s.now) then
    (s.hi F.SAF_STAT_DCH_ACT).modSaf fun u => { u with discharge := .active s.now }
  else s)

/-- R351: Vdc has stayed below DCH_VSAFE for 10 ms. -/
def execDischargeEnd (t : Nat) (s : State) : Host.Outcome State Fault Refusal :=
  let s := s.upTo t
  .next (match s.saf.discharge with
  | .active _ =>
    if s.measured && s.stood s.saf.safeAt 10000000 then
      let s := ((s.lo F.SAF_STAT_DCH_ACT).lo F.SAF_STAT_DCH_FAIL).modSaf fun u => { u with discharge := .idle }
      ((s.event 0x0C0F 0).dchDone stOk).latchedBit
    else s
  | _ => s)

/-- R351: DCH_TMAX has passed; without a measurement this is a discharge like any other. -/
def execDischargeTimeout (t : Nat) (s : State) : Host.Outcome State Fault Refusal :=
  let s := s.upTo t
  .next (match s.saf.discharge with
  | .active since =>
    if s.now < since + max 1 (s.uz F.BLK_DCH_DCH_TMAX) * 100000000 then s
    else
      let s := (s.lo F.SAF_STAT_DCH_ACT).modSaf fun u => { u with discharge := .idle, dchTmaxAt := some s.now }
      (if s.measured then ((s.hi F.SAF_STAT_DCH_FAIL).event 0x0C10 0).dchDone stTimeout
        else (s.event 0x0C0F 0).dchDone stOk).latchedBit
  | _ => s)

/-- R350: DCH_COOL has passed; a waiting request proceeds. -/
def execDchCoolExpire (t : Nat) (s : State) : Host.Outcome State Fault Refusal :=
  let s := s.upTo t
  let early := s.saf.dchTmaxAt.any fun x => decide (s.now < x + s.uz F.BLK_DCH_DCH_COOL * 1000000000)
  .next (match s.saf.discharge, early with
  | .cool, false =>
    let s := s.openContactors.modSaf fun u => { u with discharge := .waitFb }
    s.cond (!s.bit F.SAF_STAT_FB0) State.dchBarred
  | _, _ => s)

/-! ## Uzodar's own tests and its configuration (R323, R352, R354, R358) -/

/-- R323: the 1 ms comparison of the registers with the shadow. -/
def execShadowCompare (t : Nat) (s : State) : Host.Outcome State Fault Refusal :=
  let s := s.upTo t
  .next (if s.safeOn && s.cpuOn && s.bit F.SAF_STAT_SHADOW && s.bit F.BLK_CTL_LOCK && !s.shadowSame then
    s.activateRow 30 0
  else s)

/-- R352: the self-test runs while no axis is in RUN or LIMP. Each lane withdraws its permits for its test, so that every
switch is off, and a short circuit is forced on again after it; a failure is a lane fault (R354). -/
def execUzodarSelfTest (t : Nat) (pass : Bool) (s : State) : Host.Outcome State Fault Refusal :=
  let s := s.upTo t
  .next (if !s.safeOn || s.axes.any s.running then s
  else
    let s := s.each s.axes fun s a => s.uzGateToChannels a .allOff
    if pass then (s.each s.axes State.regate).modSaf fun u => { u with selfAt := s.now, selfDue := false }
    else s.laneFault)

/-- R352: 24 h without a self-test. -/
def execSelfTestOverdue (t : Nat) (s : State) : Host.Outcome State Fault Refusal :=
  let s := s.upTo t
  .next (if s.safeOn && !s.saf.selfDue && decide (s.saf.selfAt + 86400000000000 ≤ s.now) then
    (s.modSaf fun u => { u with selfDue := true }).event 0x0C13 0
  else s)

/-- R354: the lanes disagree, or the oscillator check fails. -/
def execLaneFault (t : Nat) (s : State) : Host.Outcome State Fault Refusal :=
  let s := s.upTo t
  .next s.laneFault

/-- R358: VALID is cleared and the capture armed again. -/
def execSafFirstRearm (t : Nat) (s : State) : Host.Outcome State Fault Refusal :=
  let s := s.upTo t
  .next (if s.safeOn && s.stores then s.clearBit F.SAF_FIRST_VALID else s)

/-- R330: CORE_T has passed since the last passed checkpoint. -/
def execCoreTimeout (t : Nat) (s : State) : Host.Outcome State Fault Refusal :=
  let s := s.upTo t
  .next (if s.safeOn && s.awake
      && decide (s.saf.ckptAt + max 1 (s.uz F.BLK_ASC_CORE_T) * 1000000 ≤ s.now) then s.activateRow 4 0
  else s)

end Sys2Proof.Machine
end

