-- ==== Sys2Proof/Machine/RegWrite.lean ====
section
/-!
DEFINITION. Writing BAR0 and BAR2 (R4 to R7, R19, R360, R372, R387, R389, R391, R401, R408, R409, R412, R450, R565, R566,
R568, R569): which initiator's writes take effect where, and what each register does with them.
-/

namespace Sys2Proof.Machine

/-- What an accepted write leaves in a register of the family (R5, R6): RW bits take the data, W1C bits written 1
clear unless the module sets them in the same clock (R7); BL bits take the data until BLK_LOCK. -/
def RegRow.merge (r : RegRow) (lock : Bool) (stay old data : BitVec 32) : BitVec 32 :=
  let rw := BitVec.ofNat 32 (r.rw ||| (if lock then 0 else r.bl))
  ((old &&& ~~~rw) ||| (data &&& rw)) &&& ~~~(data &&& BitVec.ofNat 32 r.w1c &&& ~~~stay)

/-- R379: writing 1 to SAT clears MIN0 to MIN2. -/
def execCpxMinSatClear (t : Nat) (s : State) : Host.Outcome State Fault Refusal :=
  let s := s.upTo t
  .next (if s.cpuOn && s.stores then
    (((s.clearBit F.CPX_MIN_CNT_SAT).lo F.CPX_MIN_CNT_MIN0).lo F.CPX_MIN_CNT_MIN1).lo F.CPX_MIN_CNT_MIN2
  else s)

namespace State

/-- The effect of a command that a register write carries. -/
def effect (s : State) (f : Nat → State → Host.Outcome State Fault Refusal) : State :=
  match f s.now s with
  | .next r => r
  | _ => s

/-- A write by access type alone (R6). -/
def plain (s : State) (off : Nat) (d : BitVec 32) : State :=
  match findRow off with
  | some r => s.setReg off (r.merge (s.bit F.BLK_CTL_LOCK) (s.justSet off) (s.reg off) d)
  | none => s

/-- Carrier, axis, channel, port or ring index of a register in a strided group. -/
def idx2 (off stride : Nat) : Fin 2 := ⟨off / stride % 2, Nat.mod_lt _ (by decide)⟩
def idx12 (off : Nat) : Fin 12 := ⟨off / 0x100 % 12, Nat.mod_lt _ (by decide)⟩
def idx3 (off : Nat) : Fin 3 := ⟨off / 0x10 % 3, Nat.mod_lt _ (by decide)⟩

/-- A register has an RW field: a write to one that is ignored is flagged, a write of RO fields has no effect (R6). -/
def hasRw (off : Nat) : Bool := (findRow off).any fun r => r.rw != 0

/-- Until BLK_LOCK the boot-locked fields of a register take the data in every mode; its other fields stay (R6). -/
def plainBl (s : State) (off : Nat) (d : BitVec 32) : State :=
  match findRow off with
  | some r =>
    if s.bit F.BLK_CTL_LOCK || r.bl == 0 then s
    else s.setReg off ((s.reg off &&& ~~~BitVec.ofNat 32 r.bl) ||| (d &&& BitVec.ofNat 32 r.bl))
  | none => s

/-- The data would change an RW field of the register, whose bit 31 is a trigger. -/
def movesRw (s : State) (off : Nat) (d : BitVec 32) : Bool :=
  (findRow off).any fun r => (d ^^^ s.reg off) &&& BitVec.ofNat 32 r.rw &&& 0x7FFFFFFF#32 != 0#32

/-- A write whose RW fields are refused outside READY, with its flag; boot-locked fields follow the lock alone (R6). -/
def readyOnly (s : State) (off : Nat) (d : BitVec 32) (flag : State → State) (f : State → State) : State :=
  if s.mode = 2 then f s else (s.cond (hasRw off) flag).plainBl off d

/-! ## The blocks -/

def wrPck (s : State) (off : Nat) (d : BitVec 32) : State :=
  let s := s.plain off d
  if off = R.PCK_ALARM then s.modPwr fun p => { p with alarmAt := s.now }
  else s.cond (off == R.PCK_PLL_STAT && d.getLsbD 16) fun s => s.effect execLossSatClear

/-- A ring's registers: set up while it is disabled; an enabled ring takes only its disabling (R412). -/
def wrRing (s : State) (r : Fin 11) (rel off : Nat) (d : BitVec 32) : State :=
  if s.bit (F.HIF_RCFG_EN r) then
    if rel = 8 ∧ d.getLsbD 31 = false then
      let s := s.lo (F.HIF_RCFG_EN r)
      s.cond (4 ≤ r.val && r.val < 8) fun s => s.lo (F.HIF_RCFG_EN (r - 4))
    else s.hi F.HIF_STAT_WR_IGN
  else if rel = 0x18 then s.cond (d.getLsbD 31) fun s => s.effect fun t => execHifRcntSatClear t r
  else if rel = 8 then s.ringConfig r d
  else s.plain off d

/-- The control word of an MSI-X vector: unmasking it sends what is pending (R432). -/
def wrMsix (s : State) (off : Nat) (d : BitVec 32) : State :=
  let s := s.plain off d
  let v := (off - 0x32000) / 16
  let pba : Fld := ⟨R.HIF_MSIX_PBA, v, 1⟩
  if off % 16 = 12 ∧ s.bit (F.HIF_MSIX_CTRL_MASK v) = false ∧ s.bit pba = true ∧ s.msixShut = false then (s.lo pba).emit (.msix v) else s

def wrHif (s : State) (off : Nat) (d : BitVec 32) : State :=
  if off = R.HIF_CTL then
    let was := s.bit F.HIF_CTL_WD_EN
    let s := s.plain off d
    s.cond (!was && s.bit F.HIF_CTL_WD_EN) fun s => s.modHif fun h => { h with fedAt := s.now }
  else if 0x30100 ≤ off ∧ off < 0x30260 then
    s.wrRing ⟨(off - 0x30100) / 32 % 11, Nat.mod_lt _ (by decide)⟩ ((off - 0x30100) % 32) off d
  else if 0x31000 ≤ off ∧ off < 0x3102C then s.doorbell ((off - 0x31000) / 4) (d.toNat % 65536)
  else if 0x32000 ≤ off ∧ off < 0x32200 then s.wrMsix off d
  else s.plain off d

/-- CPX_CKPT_CFG, which waits for the next instant (R377), CPX_CTL (R371), and the rest. -/
def wrCpx (s : State) (off : Nat) (d : BitVec 32) : State :=
  if off = R.CPX_CKPT_CFG then
    s.readyOnly off d (fun s => s.hi F.CPX_STAT_WR_IGN) fun s =>
      let s := s.plain off d
      s.modCpu fun c => { c with cfgNext := some (s.reg off) }
  else if off = R.CPX_MIN_CNT then s.cond (d.getLsbD 31) fun s => s.effect execCpxMinSatClear
  else if off = R.CPX_CTL then s.cond (d.getLsbD 31) fun s => s.effect fun t => execRestart t []
  else s.plain off d

/-- The per-axis registers of Fesil (R270 to R273). -/
def wrFslAxis (s : State) (a : Fin 2) (rel off : Nat) (d : BitVec 32) : State :=
  if rel = 0 then s.readyOnly off d (fun s => s.hi F.FSL_CTL_ACC_IGN) fun s => s.plain off d
  else if rel = 4 then
    (s.plain off d).cond (d.getLsbD 31) fun s => s.effect fun t => execMaxClr t a
  else if rel = 8 then
    let s := (s.plain off d).cond (d.getLsbD 1) fun s => s.effect fun t => execSwap t a
    s.cond (d.getLsbD 0) fun s => s.effect fun t => execPub t a
  else s.plain off d

/-- The registers of field control: RW fields in READY only, REARM in every mode (R237). -/
def wrField (s : State) (a : Fin 2) (rel off : Nat) (d : BitVec 32) : State :=
  if rel = 0x20 then s.plain off d
  else
    let rearm := rel == 0x18 && d.getLsbD 31
    let moved := s.movesRw off d
    let s := (s.readyOnly off d (fun s => s.cond (!rearm || moved) fun s => s.hi (F.FSL_FC_STAT_WR_IGN a)) fun s =>
      s.plain off d).fieldCfg a
    s.cond rearm fun s => s.effect fun t => execRearm t a

def wrFsl (s : State) (off : Nat) (d : BitVec 32) : State :=
  if off = R.FSL_CTL then
    let run := d.getLsbD 0
    let was := s.bit F.FSL_CTL_RUN
    let s := (s.plain off d).wrB F.FSL_CTL_RUN was
    let s := s.cond (d.getLsbD 31) fun s => s.effect execFslCtlSatClear
    s.cond (run != was || (s.fsl.checking && !run)) fun s => s.effect fun t => execRun t run
  else if off = R.FSL_MEM_DATA then s.effect fun t => execMemWindowAccess t (some d) .ok
  else if off = R.FSL_OVR_CNT ∨ off = R.FSL_MISS_CNT then
    let miss := off == R.FSL_MISS_CNT
    let s := s.cond (d.getLsbD 15) fun s => s.effect fun t => execFslOvrSatClear t miss 0
    s.cond (d.getLsbD 31) fun s => s.effect fun t => execFslOvrSatClear t miss 1
  else if 0x60100 ≤ off ∧ off < 0x60200 then s.wrFslAxis (idx2 off 0x80) (off % 0x80) off d
  else if off = R.FSL_TRC_CFG then
    let s := s.traceWrite d
    s.cond (d.getLsbD 29) fun s => s.effect execTraceForce
  else if 0x64000 ≤ off ∧ off < 0x64200 then s.wrField (idx2 off 0x100) (off % 0x100) off d
  else s.plain off d

/-- A carrier's registers (R125, R126, R133, R136, R142). -/
def wrCarrier (s : State) (c : Fin 2) (rel off : Nat) (d : BitVec 32) : State :=
  if rel = 0x20 then s.plain off d
  else if rel = 0x30 then s.cond (d.getLsbD 31) fun s => s.effect fun t => execPwmLdiscSatClear t c
  else if rel = 0x18 then s.plain off d
  else if rel = 0x1C then
    let s := s.plain off d
    s.modCar c fun k => { k with ctBase := s.rd64 (R.PWM_CTB_LO c) (R.PWM_CTB_HI c) }
  else if rel = 0x13C then s.cond (d.getLsbD 0) fun s => s.effect fun t => execCommitWord t c (s.inGuard c 0)
  else if 0x100 ≤ rel then
    if s.running c then s.cond (hasRw off) fun s => s.hi (F.PWM_STAT_WR_IGN c) else s.plain off d
  else s.readyOnly off d (fun s => s.hi (F.PWM_STAT_WR_IGN c)) fun s => s.plain off d

/-- The carriers' registers and PWM_NP, which belongs to no carrier: an ignored write of it sets WR_IGN of carrier 0, by the
model's choice (R149, log entry 117). -/
def wrPwm (s : State) (off : Nat) (d : BitVec 32) : State :=
  if off < 0x70800 then s.wrCarrier (idx2 off 0x400) (off % 0x400) off d
  else if off = R.PWM_NP then s.readyOnly off d (fun s => s.hi (F.PWM_STAT_WR_IGN 0)) fun s => s.plain off d
  else s.plain off d

/-- A write of one of the words of R83; a change goes to the channel (R576). -/
def gdcWrite (s : State) (n off : Nat) (d : BitVec 32) : State :=
  let was := s.reg off
  let s := s.plain off d
  s.cond (s.reg off != was) fun s => s.gdcChanged n

/-- GDC_DRV and GDC_PROF go to their channel (R93, R576); the diagnostic register starts a test (R117). -/
def wrGdc (s : State) (off : Nat) (d : BitVec 32) : State :=
  let n := idx12 off
  if off = R.GDC_DIAG_CTL then
    if d.getLsbD 31 then
      s.effect fun t => execDiagStart t (d.setWidth 12) ⟨d.toNat / 65536 % 4, Nat.mod_lt _ (by decide)⟩
    else s.plain off d
  else if 0x81000 ≤ off then s.plain off d
  else if off % 0x100 = 0x10 ∨ off % 0x100 = 0x14 then
    s.readyOnly off d (fun s => s.hi (F.GDC_STAT_WR_IGN n)) fun s => s.gdcWrite n off d
  else if off % 0x100 < 0x0C then s.gdcWrite n off d
  else if off % 0x100 = 0x24 then s.cond (d.getLsbD 31) fun s => s.effect fun t => execGdcCntSatClear t n
  else s.plain off d

/-- The converter block: RW fields in READY only (R165). -/
def wrAdc (s : State) (off : Nat) (d : BitVec 32) : State :=
  if off = R.ADC_NOMAJ then
    let s := s.cond (d.getLsbD 15) fun s => s.effect fun t => execAdcNomajSatClear t 0
    s.cond (d.getLsbD 31) fun s => s.effect fun t => execAdcNomajSatClear t 1
  else if 0x90200 ≤ off then
    let s := s.plain off d
    let g := idx3 (off - 0x90200)
    s.cond (off == R.ADC_CNT g && d.getLsbD 31) fun s => s.effect fun t => execAdcCntSatClear t g
  else if off = R.ADC_TDAC_CTL ∧ d.getLsbD 31 = true then
    s.effect fun t => execTdacStart t (d.setWidth 3) ((d >>> 3).setWidth 17)
  else
    let force := off == R.ADC_CAST && d.getLsbD 31
    let moved := s.movesRw off d
    let s := s.readyOnly off d (fun s => s.cond (!force || moved) fun s => s.each [0, 1, 2] fun s g => s.hi (F.ADC_STAT_WR_IGN g))
      fun s => s.plain off d
    s.cond force fun s => s.effect execCastlingForce

/-- The position block: RW fields in READY only, beside the compare registers (R208). -/
def wrPos (s : State) (off : Nat) (d : BitVec 32) : State :=
  let a := idx2 off 0x100
  let rel := off % 0x100
  if rel = 0x44 then s.cond (d.getLsbD 31) fun s => s.effect fun t => execPosCntSatClear t a
  else if rel = 0x30 ∨ rel = 0x34 then
    -- a hit due in this clock completes first, and the written value replaces the advanced one (R207)
    let s := s.cond (rel == 0x30) fun s => s.effect fun t => execCompareHit t a
    (s.plain off d).cmpJudge a
  else if rel = 0x38 then
    let was := s.bit (F.POS_CMP_CTL_EN a)
    let s := s.plain off d
    s.cond (!was) fun s => s.cmpJudge a
  else if rel = 0x20 ∨ rel = 0x40 then s.plain off d
  else
    let was := s.reg off
    let s := s.readyOnly off d (fun s => s.hi (F.POS_STAT_WR_IGN a)) fun s => s.plain off d
    let now := s.reg off
    s.excUpdate a (rel == 0x18 && (now.getLsbD 0 != was.getLsbD 0 || now.getLsbD 1 != was.getLsbD 1))

/-- Every segment axis reads STATE IDLE (R317). -/
def policyFree (s : State) : Bool :=
  s.axes.all fun a => !s.bit (F.MOT_HOV_CFG_EN a) || s.hovState a == 0

/-- MOT_HOV_POL or MOT_HOV_IDLE is written, or the write is ignored with WR_IGN (R317). -/
def policyWrite (s : State) (off : Nat) (d : BitVec 32) : State :=
  if s.policyFree then s.plain off d
  else s.each (s.axes.filter fun a => s.bit (F.MOT_HOV_CFG_EN a)) fun s a => s.hi (F.MOT_HOV_STAT_WR_IGN a)

/-- The motion block (R288, R289, R293, R294, R317). -/
def wrMot (s : State) (off : Nat) (d : BitVec 32) : State :=
  if off = R.MOT_HOV_POL ∨ off = R.MOT_HOV_IDLE then s.policyWrite off d
  else if 0xB0800 ≤ off then
    let s := s.plain off d
    s.cond (off % 0x80 == 0x44 && d.getLsbD 31) fun s => s.effect fun t => execMotHovSatClear t (idx2 off 0x80)
  else
    let a := idx2 off 0x100
    let rel := off % 0x100
    if rel = 0x38 then
      let form := d.getLsbD 2
      if d.getLsbD 1 then s.effect fun t => execHalt t a form
      else if d.getLsbD 0 then s.effect fun t => execGo t a form
      else s.plain off d
    else if rel = 0 ∨ rel = 4 ∨ (0x40 ≤ rel ∧ rel ≤ 0x54) then
      s.readyOnly off d (fun s => s.hi (F.MOT_STAT_WR_IGN a)) fun s => (s.plain off d).limCfg a
    else s.plain off d

/-- The chain block (R483): the roll, and the counters' SAT bits. -/
def wrChn (s : State) (off : Nat) (d : BitVec 32) : State :=
  if off = R.CHN_ROLL then s.cond (d.getLsbD 31) State.rollStart
  else if off = R.CHN_DROP then s.cond (d.getLsbD 31) fun s => s.effect execChnDropSatClear
  else if off = R.CHN_ERR 0 then s.cond (d.getLsbD 31) fun s => s.effect fun t => execChnErrSatClear t 0
  else if off = R.CHN_ERR 1 then s.cond (d.getLsbD 31) fun s => s.effect fun t => execChnErrSatClear t 1
  else s.plain off d

/-- A controller's registers: timing and control fields only in INIT (R486); INIT itself enters and leaves (R491). -/
def wrCan (s : State) (off : Nat) (d : BitVec 32) : State :=
  if off = R.CAN_TS_CFG then
    let s := s.cond (s.bit (F.CAN_CTL_INIT 0) && s.bit (F.CAN_CTL_INIT 1)) fun s => s.plain off d
    s.cond (d.getLsbD 31) State.canSnap
  else
    let n := idx2 off 0x100
    let rel := off % 0x100
    let init := s.bit (F.CAN_CTL_INIT n)
    if rel = 0 then
      let other := d &&& 0x7FFFFFFF#32 &&& BitVec.ofNat 32 0xFF07
      if !init && other != (s.reg off &&& 0xFF07#32) then s.hi (F.CAN_STAT_WR_IGN n)
      else
        let s := (s.plain off d).wrB (F.CAN_CTL_INIT n) init
        if init && !d.getLsbD 31 then
          if s.canTimingBad n then s else s.canLeaveInit n none
        else if !init && d.getLsbD 31 then s.canInit n
        else s
    else if rel = 4 ∨ rel = 8 ∨ rel = 0xC then
      if init then s.plain off d else s.hi (F.CAN_STAT_WR_IGN n)
    else if rel = 0x18 then s.cond (d.getLsbD 31) fun s => s.effect fun t => execCanCntSatClear t n
    else s.plain off d

def wrRec (s : State) (off : Nat) (d : BitVec 32) : State :=
  if off = R.REC_CTL then
    let s := s.cond (d.getLsbD 0) fun s => s.effect execFlush
    s.cond (d.getLsbD 31) fun s => s.effect fun t => execFormat t []
  else if off = R.REC_CNT then s.cond (d.getLsbD 31) fun s => s.effect execRecCntSatClear
  else s.plain off d

/-- The journal's registers, which a debugger alone writes (R401, R450). -/
def wrJrn (s : State) (off : Nat) (d : BitVec 32) : State :=
  (s.plain off d).cond (off == R.JRN_CNT && d.getLsbD 31) fun s => s.effect execJrnCntSatClear

/-- SEC_RECOVERY while recovery is awaited (R389). -/
def wrSec (s : State) (off : Nat) (d : BitVec 32) : State :=
  if off = R.SEC_RECOVERY ∧ s.rd F.SEC_BOOT_STAT_STATE = 2 then
    let s := s.plain off d
    s.cond (d.getLsbD 31) fun s => s.effect fun t => execRecoveryGo t ⟨true, true, []⟩
  else if off = R.SEC_RECOVERY then s
  else s.plain off d

/-- A write that its initiator may make, to a register that has power. -/
def putReg (s : State) (off : Nat) (d : BitVec 32) : State :=
  match off / 0x10000 with
  | 1 => s.wrPck off d
  | 3 => s.wrHif off d
  | 4 => s.wrJrn off d
  | 5 => s.wrCpx off d
  | 6 => s.wrFsl off d
  | 7 => s.wrPwm off d
  | 8 => s.wrGdc off d
  | 9 => s.wrAdc off d
  | 10 => s.wrPos off d
  | 11 => s.wrMot off d
  | 12 => if off = R.SAF_FIRST then s.cond (d.getLsbD 31) fun s => s.effect execSafFirstRearm else s.plain off d
  | 13 => s.wrChn off d
  | 14 => s.wrCan off d
  | 15 => s.wrRec off d
  | 17 => s.wrSec off d
  | _ => s.plain off d

/-! ## The lock (R391, R569) -/

/-- The number of a writer in BLK_WR_IGN.LAST_SRC. -/
def srcCode : Writer → Nat
  | .host => 0
  | .core => 1
  | .chainHost => 2
  | .debugger => 3

/-- A write to a BL field after BLK_LOCK is ignored, counted and reported. -/
def lockCount (s : State) (src : Writer) : State :=
  let s := (s.bump F.BLK_WR_IGN_CNT).wr F.BLK_WR_IGN_LAST_SRC (srcCode src)
  let s := s.cond (s.rd F.BLK_WR_IGN_CNT == 0xFFFF) fun s => s.hi F.BLK_WR_IGN_SAT
  s.event 0x0201 (srcCode src)

/-- The write touches a locked field: any write of a register with BL fields alone; of a mixed one, a write whose
data for a BL field differs. -/
def touchesLock (s : State) (off : Nat) (d : BitVec 32) : Bool :=
  match findRow off with
  | some r =>
    s.bit F.BLK_CTL_LOCK && r.bl != 0
      && (r.rw == 0 || (d &&& BitVec.ofNat 32 r.bl) != (s.reg off &&& BitVec.ofNat 32 r.bl))
  | none => false

/-! ## Who may write where -/

/-- The places at which host and chain-host writes take effect (R408). -/
def hostPlace (off : Nat) : Bool :=
  (off / 0x10000 == 3 && !(decide (0x30400 ≤ off) && decide (off < 0x30480))) || off == R.CPX_CTL || off == R.SEC_RECOVERY

/-- Recovery is awaited during BOOT (R387, R389). -/
def awaiting (s : State) : Bool := s.rd F.SYS_MODE_PHASE == 1 && s.rd F.SEC_BOOT_STAT_STATE == 2

/-- A write to BAR0 by a host, under R387, R391 and R408. -/
def hostWrite (s : State) (src : Writer) (off : Nat) (d : BitVec 32) (full : Bool) : State :=
  if !s.commOn || (src == .host && s.hif.pcie.d3hot) then s
  else if s.rd F.SYS_MODE_PHASE == 1 then
    if off = R.SEC_RECOVERY ∧ s.awaiting = true ∧ full = true then s.putReg off d
    else s.cond (full && s.touchesLock off d) fun s => s.lockCount src
  else if hostPlace off && (off != R.SEC_RECOVERY || s.rd F.SEC_BOOT_STAT_STATE == 2) then
    if (findRow off).isNone then s.hi F.HIF_STAT_WR_IGN
    else if full && s.blockPowered (off / 0x10000) then s.putReg off d else s
  else
    let s := s.cond (full && s.touchesLock off d) fun s => s.lockCount src
    s.hi F.HIF_STAT_WR_IGN

/-- Architectural state of a core. -/
def arch (s : State) (n : Nat) : CoreArch :=
  if n = 0 then s.cores.arch0 else if n = 1 then s.cores.arch1 else s.cores.arch2

/-- A core's memory protection lets an access pass: the entry with the lowest number that holds the address decides, where it
is locked; firmware runs in machine mode, which no other entry binds (R372, log entry 124). -/
def pmpAllows (s : State) (n : Nat) (write : Bool) (addr : Nat) : Bool :=
  match (s.arch n).pmp.find? fun e => decide (e.2.lo ≤ addr) && decide (addr < e.2.hi) with
  | none => true
  | some e => !e.2.locked || (if write then e.2.write else e.2.read)

/-- A core's write through the voter, or a debugger's through the system bus, under R19, R372, R391, R401 and R450. -/
def innerWrite (s : State) (src : Writer) (off : Nat) (d : BitVec 32) : State :=
  let b := off / 0x10000
  let barred := match src with
    | .debugger => !s.dbgWrites || b == 12
    | _ => !s.passing || b == 4 || !s.pmpAllows 0 true (0x40000000 + off)
  if barred || !s.blockPowered b || (findRow off).isNone then s
  else if s.touchesLock off d then
    let s := s.lockCount src
    match findRow off with
    | some r => if r.rw = 0 then s else s.putReg off d
    | none => s
  else s.putReg off d

/-- A 32-bit write to BAR0 (R4, R565). One at an offset that is no multiple of 4 is dropped without a flag (log entry
56). -/
def writeReg (s : State) (src : Writer) (off : Nat) (d : BitVec 32) (be : BitVec 4) : State :=
  let full := be == 0xF#4
  if off % 4 ≠ 0 then s
  else match src with
    | .host | .chainHost => s.hostWrite src off d full
    | _ => if full then s.innerWrite src off d else s

/-- A write to BAR2 (R401, R409): with any byte enables, inside the host window, or anywhere while recovery is
awaited; a debugger reaches all of it. -/
def writeSram (s : State) (src : Writer) (off : Nat) (d : BitVec 32) (be : BitVec 4) : State :=
  let open_ := match src with
    | .host | .chainHost => s.commOn && (decide (off < 0x80000) || s.awaiting)
    | .core => s.passing
    | .debugger => s.dbgWrites
  if s.cpuOn && open_ && decide (off < 0x100000) then { s with sram := memPutBe s.sram (off / 4 * 4) d be } else s

end State

/-- R6, R391, R408, R409: a write by an initiator to BAR0, or to BAR2. -/
def execRegisterWrite (t : Nat) (src : Writer) (bar2 : Bool) (off : BitVec 21) (data : Word) (be : BitVec 4) (s : State) :
    Host.Outcome State Fault Refusal :=
  let s := s.upTo t
  .next (if bar2 then s.writeSram src off.toNat data be else s.writeReg src off.toNat data be)

end Sys2Proof.Machine
end

