-- ==== Sys2Proof/Machine/Commands.lean ====
section
/-!
DEFINITION. The host's commands that drive the axes (R65, R74, R78, R231, R236, R248 to R253, R288, R289, R317, R342 to
R353, R421, R573): what an accepted command does once the firmware runs it.
-/

namespace Sys2Proof.Machine

/-- `n` argument bytes of a command from descriptor byte `i` up, little-endian (R417, R421). -/
def Cmd.arg (c : Cmd) (i n : Nat) : Nat := fieldLe c.args (i - 16) n

/-- An argument word of a command. -/
def Cmd.word (c : Cmd) (i : Nat) : BitVec 32 := BitVec.ofNat 32 (c.arg i 4)

namespace State

/-- What the run of a command has completed leaves with it, beyond the `n` completions that already waited (R367). -/
def runEnd (s : State) (n : Nat) : State := s.releaseFrom n fun _ => false

/-- What the firmware does for the command that holds a ring leaves the cluster, when the command has not begun yet and is
the one the row names: in the release of a checkpoint that has passed, with the completions that the command brings about
(R19, R66, R67, R367, R370, R420, log entry 121). -/
def runCmd (s : State) (r : Nat) (is : Cmd → Bool) (f : State → Cmd → State) : State :=
  match s.runningCmd r with
  | none => s
  | some c =>
    if s.awake && s.passing && !s.cores.begun.contains r && is c then
      (f (s.begin_ r) c).runEnd s.cores.finals.length
    else s

/-- A command of one opcode. -/
def runOp (s : State) (r op : Nat) (f : State → Cmd → State) : State := s.runCmd r (fun c => c.opcode == op) f

/-- Completes without a result. -/
def done (s : State) (c : Cmd) (status : Nat) : State := s.complete c status 0

/-! ## SET_MODE (R65, R77, R78, R573) -/

/-- A catch, or a START held for RUN_OK, stands on an axis (R74, R231). -/
def starting (s : State) (a : Nat) : Bool := (s.fc a).catch_.isSome || (s.fc a).held.isSome

/-- SET_MODE READY clears the fault of each output that passes both de-energised tests (R345). -/
def soRetest (s : State) (fail : List Nat) : State :=
  let s := s.each [0, 1, 2, 3, 4, 5] fun s n =>
    if s.soCause n != 0 && !fail.contains n then s.wr ⟨R.SAF_SO, 4 * n + 1, 3⟩ 0 else s
  s.soUpdate.latchedBit

/-- SET_MODE READY for the axes in HOLD (R336, R340, R573). -/
def holdToReady (s : State) (c : Cmd) (l fail : List Nat) : State :=
  let s := s.soRetest fail
  if s.latchedFault l then s.done c stVeto
  else
    let s := s.each l fun s a =>
      let s := (s.setAxMode a 2).modUz a fun u => { u with limpNs := 0, limpWarned := false }
      (s.wr (F.SAF_LIMP_LIMP_S a) 0).regate a
    (s.soUpdate.latchedBit).done c stOk

/-- SET_MODE with its target. WATCH and HIBERNATE complete before COMM is switched off (R421). -/
def setMode (s : State) (c : Cmd) (fail : List Nat) : State :=
  let m := c.arg 16 1
  let run := s.axes.any s.running
  let unsaved := decide (0 < s.unmirrored) && s.bit F.JRN_STAT_BAN
  if m = 3 ∨ m = 4 ∨ 6 ≤ m then s.done c stArg
  else if m = 5 then
    (s.activateFor 2 (s.axes.filter fun a => s.axMode a != 5)).done c stOk
  else if m = 2 then
    let l := s.axes.filter fun a => s.axMode a == 5
    if l.isEmpty then s.done c (if run then stMode else stOk) else s.holdToReady c l fail
  else if s.axes.any s.starting then s.done c stBusy
  else if m = 0 && unsaved && (!run || decide (2 ≤ s.axes.length)) then s.done c stBusy
  else if run then s.done c stMode
  else if m = 1 then (s.done c stOk).enterWatch
  else ((s.done c stOk).releaseHeld fun x => x.cmd == c).startShutdown

/-! ## ARM (R342, R348, R353, R421) -/

/-- The voted requests of an accepted ARM: arming, the line contactor, host outputs. -/
def armActs (s : State) (c : Cmd) : State :=
  let ax := c.arg 16 1
  let s := if ax = 0xFF then s else s.modFc ax fun f => { f with armed := true }
  let s := match c.arg 17 1 with
    | 1 => s.lineClose
    | 2 => s.openContactors
    | _ => s
  let set := c.arg 18 1
  let clr := c.arg 19 1
  let s := s.modSaf fun u =>
    let both := Nat.lor u.hostOut set
    { u with hostOut := both - Nat.land both clr }
  s.soUpdate.done c stOk

/-- ARM; `path` is the outcome of the gate-path test. A refused part lets nothing act. -/
def armCmd (s : State) (c : Cmd) (path : Bool) : State :=
  let ax := c.arg 16 1
  let arming := ax != 0xFF
  let line := c.arg 17 1
  if Nat.land (c.arg 18 1) (c.arg 19 1) ≠ 0 ∨ line = 3 then s.done c stArg
  else if (arming && s.axMode ax != 2) || (line == 1 && s.mode != 2) then s.done c stMode
  else if (arming && !s.armable ax) || (line == 1 && s.rd F.SAF_STAT_CON_CAUSE != 0) then s.done c stVeto
  else if arming && !path then (s.activateRow 31 ax).done c stVeto
  else s.armActs c

/-! ## START and STOP (R74, R227, R231, R236, R343, R347) -/

def startCmd (s : State) (c : Cmd) : State :=
  let a := c.arg 16 1
  if s.axMode a ≠ 2 ∨ s.axes.any (fun b => s.axMode b == 5) = true ∨ s.taskRuns a = false then s.done c stMode
  else if s.starting a then s.done c stBusy
  else if !(s.fc a).armed then s.done c stMode
  else if s.uz F.BLK_BTINT_BT_ENF = 1 ∧ (s.uzAx a).btDue = true then s.done c stVeto
  else
    let s := { s with hovIdle := none }.modUz a fun u => { u with release := true }
    if s.bit F.SYS_MODE_RUN_OK then s.startCatch a c
    else s.modFc a fun f => { f with held := some (c, s.now) }

def stopCmd (s : State) (c : Cmd) : State :=
  let a := c.arg 16 1
  if s.starting a then
    ((s.catchAbort a stMode).modUz a fun u => { u with release := false }).done c stOk
  else if !s.running a then s.done c stMode
  else if s.bit (F.FSL_FC_STAT_COAST a) then
    if (s.fc a).heldStop.isSome then s.done c stBusy else s.modFc a fun f => { f with heldStop := some c }
  else (s.stopAxis a).done c stOk

/-! ## Set-points and profiles (R248 to R250, R285, R288, R291) -/

/-- The staged set is published; a refused one completes ARG. -/
def publishCmd (s : State) (c : Cmd) (a : Nat) : State :=
  let s := s.publishSp a
  let w := s.stagedSp a
  s.done c (if anyBad [w.getD 1 0#32, w.getD 2 0#32, w.getD 4 0#32, w.getD 5 0#32] then stArg else stOk)

/-- The words that SET_TORQUE and SET_SPEED share: SP_ILIM, SP_ID and SP_SEQ. -/
def stageCommon (s : State) (c : Cmd) (a : Nat) : State :=
  let s := s.setReg (R.FSL_SP a 4) (c.word 24)
  let s := s.setReg (R.FSL_SP a 5) (c.word 28)
  s.setReg (R.FSL_SP a 6) (BitVec.ofNat 32 (c.arg 32 2))

def setTorqueCmd (s : State) (c : Cmd) : State :=
  let a := c.arg 16 1
  let current := c.arg 17 1 == 1
  let s := s.setReg (R.FSL_SP a 0) (if current then 0#32 else 1#32)
  let s := s.setReg (R.FSL_SP a (if current then 1 else 2)) (c.word 20)
  (s.stageCommon c a).publishCmd c a

def setSpeedCmd (s : State) (c : Cmd) : State :=
  let a := c.arg 16 1
  let s := s.setReg (R.FSL_SP a 0) (if c.arg 17 1 = 1 then 6#32 else 2#32)
  let s := s.setReg (R.FSL_SP a 3) (c.word 20)
  (s.stageCommon c a).publishCmd c a

/-- PART 0b00: the eight profile words and TARGET. -/
def profileParams (s : State) (c : Cmd) : State :=
  let a := c.arg 16 1
  let regs := [R.MOT_V_START a, R.MOT_V_BRK a, R.MOT_V_MAX a, R.MOT_V_STOP a, R.MOT_A1 a, R.MOT_A2 a, R.MOT_D1 a,
    R.MOT_D2 a, R.MOT_TARGET a]
  let s := s.each (List.range 9) fun s i => s.setReg (regs.getD i 0) (c.word (20 + 4 * i))
  s.done c stOk

/-- PART 0b10: BASE, then FORM with GO or HALT. -/
def profileControl (s : State) (c : Cmd) : State :=
  let a := c.arg 16 1
  let ctl := c.arg 18 1
  let s := s.plain (R.MOT_TBL a) (c.word 20)
  let table := ctl.testBit 0
  let s := if ctl.testBit 2 then s.motHalt a table
    else if ctl.testBit 1 then s.motGo a table
    else s.wrB (F.MOT_CTL_FORM a) table
  s.done c stOk

def setLimitsCmd (s : State) (c : Cmd) : State :=
  let a := c.arg 16 1
  let fl := c.arg 17 1
  if fl.testBit 0 && s.axMode a != 2 then s.done c stMode
  else
    let s := s.cond (fl.testBit 0) fun s =>
      let s := s.wrB (F.MOT_CFG_LIM_EN a) (fl.testBit 1)
      let s := (s.setReg (R.MOT_LIM_LO a) (c.word 24)).setReg (R.MOT_LIM_HI a) (c.word 28)
      (s.setReg (R.MOT_LIM_TOL a) (c.word 32)).limCfg a
    (s.setReg (R.FSL_SP a 4) (c.word 20)).publishCmd c a

/-! ## BRAKE_TEST, DISCHARGE, HANDOVER_POLICY (R317, R346, R350) -/

/-- An output is the brake of the axis (R342). -/
def hasBrake (s : State) (a : Nat) : Bool := [0, 1, 2, 3, 4, 5].any fun n => s.soFunc n == 1 + a

def brakeTestCmd (s : State) (c : Cmd) : State :=
  let a := c.arg 16 1
  if s.axMode a ≠ 2 ∨ (s.fc a).armed = false ∨ s.hasBrake a = false ∨ s.starting a = true ∨ s.saf.btest.isSome = true then s.done c stMode
  else
    let s := { s with btCmd := some c }.modSaf fun u => { u with btest := some { axis := a, since := s.now } }
    let s := (s.capture (.brakeStep a 1)).enterRun a
    s.commandCurrent a (s.testCurrent a false)

def dischargeCmd (s : State) (c : Cmd) : State :=
  if s.axes.any s.running then s.done c stMode
  else
    let was := s.saf.discharge
    let s := { s with dchCmds := s.dchCmds ++ [c] }.requestDischarge
    if was == .waitFb && !s.bit F.SAF_STAT_FB0 then s.dchBarred else s

def policyCmd (s : State) (c : Cmd) : State :=
  let ok := s.policyFree
  let s := (s.policyWrite R.MOT_HOV_POL (c.word 20)).policyWrite R.MOT_HOV_IDLE (c.word 24)
  s.done c (if ok then stOk else stBusy)

end State

/-! ## Commands -/

/-- R421: NOP completes at once. -/
def execNop (t : Nat) (r : Fin 4) (s : State) : Host.Outcome State Fault Refusal :=
  .next ((s.upTo t).runOp r 0x01 fun s c => s.done c stOk)

/-- R421: SYS_MODE and SAF_STAT are returned. -/
def execQueryState (t : Nat) (r : Fin 4) (s : State) : Host.Outcome State Fault Refusal :=
  .next ((s.upTo t).runOp r 0x02 fun s c =>
    s.complete c stOk ((s.reg R.SYS_MODE).toNat + 2 ^ 32 * (s.reg R.SAF_STAT).toNat))

/-- R65, R573: the module's mode is changed, or the command is refused. -/
def execSetMode (t : Nat) (r : Fin 4) (so : List Nat) (s : State) : Host.Outcome State Fault Refusal :=
  .next ((s.upTo t).runOp r 0x10 fun s c => s.setMode c so)

/-- R421, R353: arming with its gate-path test, line requests and host outputs. -/
def execArm (t : Nat) (r : Fin 4) (path : Bool) (s : State) : Host.Outcome State Fault Refusal :=
  .next ((s.upTo t).runOp r 0x11 fun s c => s.armCmd c path)

/-- R227, R74, R343: START begins a catch, or is held for RUN_OK. -/
def execStart (t : Nat) (r : Fin 4) (s : State) : Host.Outcome State Fault Refusal :=
  .next ((s.upTo t).runOp r 0x12 State.startCmd)

/-- R421, R231, R236: STOP. -/
def execStop (t : Nat) (r : Fin 4) (s : State) : Host.Outcome State Fault Refusal :=
  .next ((s.upTo t).runOp r 0x13 State.stopCmd)

/-- R421, R250: SET_TORQUE. -/
def execSetTorque (t : Nat) (r : Fin 4) (s : State) : Host.Outcome State Fault Refusal :=
  .next ((s.upTo t).runOp r 0x14 State.setTorqueCmd)

/-- R421, R250: SET_SPEED. -/
def execSetSpeed (t : Nat) (r : Fin 4) (s : State) : Host.Outcome State Fault Refusal :=
  .next ((s.upTo t).runOp r 0x15 State.setSpeedCmd)

/-- R421, R288: the profile words and TARGET. -/
def execLoadProfileParams (t : Nat) (r : Fin 4) (s : State) : Host.Outcome State Fault Refusal :=
  .next ((s.upTo t).runCmd r (fun c => c.opcode == 0x16 && c.arg 17 1 == 0) State.profileParams)

/-- R421, R285, R422: the entries of a segment table are copied from host memory into TB. -/
def execLoadProfileTable (t : Nat) (r : Fin 4) (s : State) : Host.Outcome State Fault Refusal :=
  .next ((s.upTo t).runCmd r (fun c => c.opcode == 0x16 && c.arg 17 1 == 1) fun s c =>
    let n := c.arg 28 2
    let tb := c.arg 32 4 / 16 * 16
    if n = 0 ∨ 1024 < n ∨ tb < 0x2000 ∨ 0x40000 < tb + 16 * n then s.done c stArg
    else s.modHif fun h => { h with mover := h.mover ++ [.profileTable c (c.arg 16 1) tb n (c.arg 20 8)] })

/-- R421, R288, R289: FORM, GO, HALT and BASE. -/
def execLoadProfileControl (t : Nat) (r : Fin 4) (s : State) : Host.Outcome State Fault Refusal :=
  .next ((s.upTo t).runCmd r (fun c => c.opcode == 0x16 && c.arg 17 1 == 2) State.profileControl)

/-- R421, R291: SP_ILIM, and with VLIM the virtual limits. -/
def execSetLimits (t : Nat) (r : Fin 4) (s : State) : Host.Outcome State Fault Refusal :=
  .next ((s.upTo t).runOp r 0x17 State.setLimitsCmd)

/-- R346: the axis enters RUN with its brake applied, and the first current is commanded. -/
def execBrakeTest (t : Nat) (r : Fin 4) (s : State) : Host.Outcome State Fault Refusal :=
  .next ((s.upTo t).runOp r 0x18 State.brakeTestCmd)

/-- R350: DISCHARGE. -/
def execDischarge (t : Nat) (r : Fin 4) (s : State) : Host.Outcome State Fault Refusal :=
  .next ((s.upTo t).runOp r 0x19 State.dischargeCmd)

/-- R317: the handover policy is written while every segment axis is IDLE, else BUSY. -/
def execHandoverPolicy (t : Nat) (r : Fin 4) (s : State) : Host.Outcome State Fault Refusal :=
  .next ((s.upTo t).runOp r 0x1A State.policyCmd)

end Sys2Proof.Machine
end

