-- ==== Sys2Proof/Machine/DataCmds.lean ====
section
/-!
DEFINITION. The host's commands that move data or act on the recorder, the firmware store, the identity keys, the chain,
CAN and telemetry, and the data mover (R269, R394 to R397, R421, R422, R427, R448, R481, R490 to R493, R498, R515 to
R517, R527, R528).
-/

namespace Sys2Proof.Machine

namespace State

/-! ## The data mover (R422) -/

/-- A copy waits for the data mover. -/
def move (s : State) (j : MoverJob) : State := s.modHif fun h => { h with mover := h.mover ++ [j] }

/-- The command ring names BAR2, and the range leaves the host window. -/
def windowBad (s : State) (c : Cmd) (addr n : Nat) : Bool :=
  s.bit (F.HIF_RCFG_LOC c.ring) && decide (0x80000 < addr + n)

/-- What a copy into the module reads. -/
def source (s : State) (c : Cmd) (addr n : Nat) (data : List Byte) : List Byte :=
  if s.bit (F.HIF_RCFG_LOC c.ring) then memBytes s.sram addr n else (data ++ List.replicate n 0#8).take n

/-! ## Trace, journal and recorder (R269, R448, R515 to R517, R527) -/

/-- Index of the `i`-th record of the frozen trace, the oldest first. -/
def traceIndex (s : State) (i : Nat) : Nat := (s.fsl.trcNext + 8192 - s.fsl.trcHeld + i) % 8192

/-- The bytes of the frozen trace, oldest record first. -/
def traceBytes (s : State) : List Byte :=
  let x := s.fsl
  (List.range x.trcHeld).flatMap fun i =>
    let n := s.traceIndex i
    (List.range 16).flatMap fun k => leBytes 4 (kvGet (fun _ => 0#32) x.trace (16 * n + k)).toNat

def traceArmCmd (s : State) (c : Cmd) : State :=
  let s := (s.plain R.FSL_TRC_TRIG (c.word 24)).plain R.FSL_TRC_LVL (c.word 28)
  let s := s.each [0, 1, 2, 3] fun s m => s.plain (R.FSL_TRC_SEL m) (c.word (32 + 4 * m))
  let w := c.word 20
  let s := s.traceWrite (w ||| 0x80000000#32)
  (s.cond (w.getLsbD 29) fun s => s.effect execTraceForce).done c stOk

/-- The copy meets errors in its records, named by their places from the oldest: those beyond correction are marked, each of
the others is counted (R265). -/
def traceFlaws (s : State) (n : Nat) (bads fixed : List Nat) : State :=
  let read (l : List Nat) : List Nat := l.filter fun i => decide (64 * i < n) && decide (i < s.fsl.trcHeld)
  let s := s.each (read fixed) fun s _ => s.fslEccFixed
  s.each (read bads) fun s i => s.traceRead .bad (s.traceIndex i)

def traceReadCmd (s : State) (bads fixed : List Nat) (c : Cmd) : State :=
  let n := c.arg 28 4
  if s.rd F.FSL_TRC_STAT_STATE ≠ 3 then s.done c stBusy
  else if n % 64 ≠ 0 ∨ 524288 < n then s.done c stArg
  else
    let s := s.traceFlaws n bads fixed
    let bs := s.traceBytes.take n
    s.move (.toHost c (c.arg 20 8) bs bs.length)

/-- The 32 bytes a query writes for a JSEQ: the entry, or zeros. -/
def queryBytes (s : State) (j : Nat) : List Byte :=
  match s.findEntry j with
  | some e => e.bytes
  | none => List.replicate 32 0#8

def journalQueryCmd (s : State) (c : Cmd) : State :=
  let first := c.arg 20 8
  let n := c.arg 36 2
  if first = 0 ∨ s.rd64 R.JRN_HEAD_SEQ_LO R.JRN_HEAD_SEQ_HI < first ∨ n = 0 ∨ 2048 < n then s.done c stArg
  else
    let js := (List.range n).map (first + ·)
    let last := ((js.filter fun j => (s.findEntry j).isSome).getLast?).getD 0
    s.move (.toHost c (c.arg 28 8) (js.flatMap s.queryBytes) last)

/-- A record as REC_READ writes it (R515, R517); `bad` for an unreadable page, whose CT and KIND are free values. -/
def recordBytes (s : State) (i : RecItem) (bad : Bool) (free : Nat) : List Byte :=
  let lost := i.conf && !s.bit F.SEC_BOOT_STAT_ID_OK
  let pay := if bad then [] else if lost then List.replicate i.payload.length 0#8 else i.payload
  let head := leBytes 8 i.rnum ++ leBytes 8 (if bad then Config.freeNat free else i.ct)
    ++ leBytes 1 (if bad then Config.freeNat (free + 1) else i.kind)
    ++ leBytes 1 ((if i.conf && !bad then 1 else 0) + (if bad || lost then 2 else 0)) ++ leBytes 2 pay.length
  let bs := head ++ leBytes 4 (crc32c (head ++ pay)) ++ pay
  bs ++ List.replicate ((8 - bs.length % 8) % 8) 0#8

/-- Every record in RNUM order with the mark of an unreadable page: those on the medium, those being programmed, those
staged. -/
def records (s : State) : List (RecItem × Bool) :=
  let onMedium := s.med.epages.flatMap fun p => p.items.map fun i => (i, !p.good)
  let going := s.recd.progs.flatMap fun p => match p with
    | .events l => l.map fun i => (i, false)
    | _ => []
  onMedium ++ going ++ s.recd.staging.map fun i => (i, false)

/-- Whole records for as long as the next one fits; answers the bytes and the RNUM after the last one. -/
def fitRecords (s : State) : List (RecItem × Bool) → Nat → Nat → Nat → List Byte × Nat
  | [], next, _, _ => ([], next)
  | r :: rest, next, room, free =>
    let bs := s.recordBytes r.1 r.2 free
    if bs.length ≤ room then
      let x := fitRecords s rest (r.1.rnum + 1) (room - bs.length) (free + 2)
      (bs ++ x.1, x.2)
    else ([], next)

def recReadCmd (s : State) (c : Cmd) : State :=
  let first := c.arg 20 8
  if s.recd.rnum ≤ first then s.done c stArg
  else
    let l := s.records.filter fun r => decide (first ≤ r.1.rnum)
    let x := s.fitRecords l (max first (s.rd64 R.REC_TAIL_LO R.REC_TAIL_HI)) (c.arg 36 4) s.fresh
    let s := { s with fresh := s.fresh + 2 * l.length }
    s.move (.toHost c (c.arg 28 8) x.1 (x.1.length % 2 ^ 32 + 2 ^ 32 * (x.2 % 2 ^ 32)))

def recMarkCmd (s : State) (c : Cmd) : State :=
  let conf := c.arg 17 1 == 1
  if conf && !s.bit F.SEC_BOOT_STAT_ID_OK then s.done c stLocked
  else if !s.canWrite then s.done c stBusy
  else
    let n := s.recd.rnum
    let s := s.recAdd 2 s.ct (slice c.args 4 32) conf
    if s.recd.rnum = n then s.done c stBusy
    else (s.modRec fun r => { r with marks := r.marks ++ [(n, c)] }).flushStaging

/-! ## FW_STAGE and FW_COMMIT (R394, R395, R527, R528) -/

/-- The commands of parts that a new staging abandons. -/
def partCmds (s : State) : List Cmd :=
  s.recd.progs.filterMap (fun p => match p with
    | .part c .. | .object c => some c
    | _ => none) ++ s.hif.mover.filterMap fun j => match j with
    | .fwPart c .. => some c
    | _ => none

/-- A staging in progress is abandoned with the parts under way. -/
def abandonStage (s : State) : State :=
  let l := s.partCmds
  let s := s.dropStage.modRec fun r => { r with progs := r.progs.filter fun p => match p with
    | .part .. | .object _ => false
    | _ => true }
  let s := s.modHif fun h => { h with mover := h.mover.filter fun j => match j with
    | .fwPart .. => false
    | _ => true }
  l.foldl (fun s c => s.done c stArg) s

/-- What a kind of object replaces: the slot or copy from which the module is not running, or 4 for a revocation. -/
def stageTarget (s : State) (kind : Nat) : Nat :=
  match kind with
  | 0 => 1 - (if s.rd F.SEC_BOOT_STAT_SLOT = 2 then s.med.bootSlot % 2 else s.rd F.SEC_BOOT_STAT_SLOT)
  | 1 => 3 - (if s.bit F.BLK_CTL_NO_CFG then s.med.bootCopy % 2 else s.rd F.BLK_CTL_CFG_COPY)
  | _ => 4

def fwStageCmd (s : State) (c : Cmd) : State :=
  let kind := c.arg 16 1
  let off := c.arg 28 4
  let len := c.arg 32 4
  let limit := 17120 + payloadLimit (if kind = 0 then 1 else if kind = 1 then 2 else 5)
  if 2 < kind ∨ 65536 < len ∨ limit < off + len then s.done c stArg
  else if !s.canWrite then s.done c stBusy
  else
    let obj := s.stageTarget kind
    let s := if off = 0 then s.abandonStage.modRec fun r => { r with stage := some ⟨obj, [], [], []⟩ } else s
    match s.recd.stage with
    | none => s.done c stArg
    | some g =>
      if g.obj = obj ∧ g.bytes.length = off ∧ s.partCmds = [] then
        s.move (.fwPart c obj off len (c.arg 17 1 == 1) (c.arg 20 8))
      else s.done c stArg

/-- The part's bytes stand in shared SRAM: fresh blocks are taken and its pages are programmed. -/
def fwPartMoved (s : State) (c : Cmd) (obj off len : Nat) (last : Bool) (data : List Byte) : State :=
  match s.recd.stage with
  | none => s.done c stArg
  | some g =>
    let need := (off + len + 262143) / 262144 - g.blocks.length
    let x := s.takeBlks (.part obj) need
    let s := x.2.modRec fun r => { r with stage := some { g with blocks := g.blocks ++ x.1 } }
    if x.1.length < need then s.done c stBusy
    else if len = 0 then s.partDone c [] last false
    else
      let pages := (off + len + 4095) / 4096 - off / 4096
      s.modRec fun r => { r with progs := r.progs ++ [.part c data last pages] }

/-- FW_COMMIT: ADVANCE raises the counter, ACTIVATE commits the boot record; the last step completes it. -/
def fwCommitCmd (s : State) (c : Cmd) : State :=
  let act := (c.arg 16 1).testBit 0
  let adv := (c.arg 16 1).testBit 1
  let odd := s.bit F.SEC_BOOT_STAT_FALLBACK || s.bit F.SEC_BOOT_STAT_CFG_FALLBACK || s.rd F.SEC_BOOT_STAT_SLOT == 2
  if s.axes.any s.running then s.done c stMode
  else if (adv && odd) || (act && s.recd.ready.isEmpty) then s.done c stArg
  else if !s.canWrite then s.done c stBusy
  else
    let s := s.cond adv fun s =>
      let s := (s.advanceTo (min (s.rd F.SEC_ARB_IMG_SVN) (s.rd F.SEC_ARB_CFG_SVN))).arbRegs
      s.event 0x1106 s.rollback
    if act then
      let img := (s.recd.ready.filter fun o => decide (o < 2)).getLast?
      let cfg := (s.recd.ready.filter fun o => decide (2 ≤ o)).getLast?
      let slot := img.getD s.med.bootSlot
      let copy := (cfg.map (· - 2)).getD s.med.bootCopy
      s.modRec fun r => { r with ready := [], progs := r.progs ++ [.boot c slot copy] }
    else s.done c stOk

/-! ## ATTEST (R397) -/

def attestCmd (s : State) (c : Cmd) : State :=
  if !s.bit F.SEC_BOOT_STAT_ID_OK then s.done c stLocked
  else if s.sec.attest.isSome then s.done c stBusy
  else s.modSec fun x => { x with attest := some (c, s.ct) }

/-- Bytes 0 to 255 of the report. -/
def reportHead (s : State) (c : Cmd) (ct : Nat) : List Byte :=
  let flags := (s.bit F.BLK_CTL_LOCK).toNat + 2 * (s.bit F.SEC_DBG_STAT_UNLOCKED).toNat
    + 4 * (s.bit F.CPX_DBG_BROKEN_BROKEN).toNat + 8 * (s.rd F.SEC_BOOT_STAT_SLOT == 2).toNat
    + 16 * (s.bit F.SEC_BIST_RAN).toNat
    + 32 * (s.bit F.SEC_BOOT_STAT_FALLBACK || s.bit F.SEC_BOOT_STAT_CFG_FALLBACK).toNat
    + 64 * s.rd F.SEC_BOOT_STAT_KEYSLOT
  slice c.args 4 32 ++ leBytes 8 s.serial ++ leBytes 4 0x9880 ++ leBytes 4 Config.romVersion.toNat
    ++ (Config.sha384 s.sec.imgManifest ++ List.replicate 48 0#8).take 48
    ++ (Config.sha384 s.sec.cfgManifest ++ List.replicate 48 0#8).take 48
    ++ leBytes 4 (s.rd F.SEC_ARB_IMG_SVN) ++ leBytes 4 (s.rd F.SEC_ARB_CFG_SVN) ++ leBytes 4 (s.rd F.SEC_ARB_COUNTER)
    ++ leBytes 4 flags ++ leBytes 8 ct ++ List.replicate 88 0#8

/-- The signed report, with the certificates where they are asked for. -/
def report (s : State) (c : Cmd) (ct : Nat) : List Byte :=
  let h := s.reportHead c ct
  let sigs := (Config.attestSigs h ++ List.replicate 16608 0#8).take 16608
  h ++ sigs ++ (if c.arg 17 1 = 1 then s.med.certs else [])

/-! ## CHAIN_SEND (R481) -/

def chainSendCmd (s : State) (c : Cmd) : State :=
  let dst := c.arg 20 2
  let ty := c.arg 22 1
  let len := c.arg 32 2
  if !(ty == 2 || (decide (0x40 ≤ ty) && decide (ty ≤ 0x7F))) || decide (256 < len) || dst == 0 || dst == s.chainAddr
      || decide (0x3FFF < dst) then s.done c stArg
  else s.move (.chainSend c dst ty len (c.arg 24 8))

/-- The frame waits to leave; an unreachable one waits at no port (port 2) for its time limit. -/
def chainSendMoved (s : State) (c : Cmd) (dst ty : Nat) (data : List Byte) : State :=
  let f : Frame := ⟨ty, dst, s.chainAddr, s.chain.seq, data⟩
  let ports := s.route dst
  let ports := if ports.isEmpty then [2] else ports
  s.modChain fun x => { x with
    seq := (x.seq + 1) % 65536
    queue := x.queue ++ ports.map fun p => ⟨p, true, f, some c, s.now⟩ }

/-! ## CAN_OBJECT (R490 to R493, R498) -/

/-- The image's bytes as an object; its EPOCH and TS stay those of the object. -/
def imageObj (o : CanObj) (bs : List Byte) : CanObj :=
  let fl := fieldLe bs 9 1
  let dlc := fieldLe bs 8 1 % 16
  { o with
    id := fieldLe bs 0 4 % 2 ^ 31, mask := fieldLe bs 4 4, dlc := dlc, flags := fl
    data := (slice bs 16 64).take (dlcBytes (fl.testBit 1) dlc) }

/-- CONFIGURE with its image. -/
def canConfigured (s : State) (c : Cmd) (n k : Nat) (bs : List Byte) : State :=
  if s.canOwns n k then s.done c stBusy
  else
    let o := imageObj (s.canObj n k) bs
    ((s.putCanObj n k o).canOwnBit n k (o.flag 6 && !o.flag 0)).done c stOk

/-- The answer to a TRANSMIT that its object refuses. -/
def canRefusal (s : State) (n k : Nat) : Option Nat :=
  let o := s.canObj n k
  if s.canOwns n k && o.flag 0 then some stBusy
  else if !o.flag 0 || !o.flag 6 then some stArg
  else none

/-- TRANSMIT with its image: DLC, FLAGS bits 2:1 and DATA; the object passes to the controller. -/
def canTransmitted (s : State) (c : Cmd) (n k : Nat) (bs : List Byte) : State :=
  match s.canRefusal n k with
  | some st => s.done c st
  | none =>
    let o := s.canObj n k
    let new := imageObj o bs
    let o := { (o.setFlag 1 (new.flag 1)).setFlag 2 (new.flag 2) with dlc := new.dlc, data := new.data }
    ((s.putCanObj n k o).canOwnBit n k true).modCan n fun x => { x with pend := x.pend ++ [⟨k, c, s.now⟩] }

/-- One action of CAN_OBJECT. -/
def runCan (s : State) (r action : Nat) (f : State → Cmd → Nat → Nat → State) : State :=
  s.runCmd r (fun c => c.opcode == 0x90 && c.arg 17 1 == action) fun s c => f s c (c.arg 16 1) (c.arg 18 2)

/-! ## TLM_CONFIG (R427) -/

/-- A register that is write-only, or a doorbell. -/
def writeOnly (off : Nat) : Bool :=
  (decide (0x31000 ≤ off) && decide (off < 0x3102C)) || [R.CPX_CTL, 0x7013C, 0x7053C, R.REC_CTL].contains off

def tlmConfigCmd (s : State) (c : Cmd) : State :=
  let k := c.arg 16 1
  let per := c.arg 18 2
  let items := (List.range 9).map fun i => c.word (24 + 4 * i)
  let used := items.takeWhile fun w => w.getLsbD 31
  let bad (w : BitVec 32) : Bool :=
    let off := w.toNat % 2 ^ 24
    off % 4 != 0 || decide (0x120000 ≤ off) || writeOnly off
  if 1 < k ∨ per = 0 ∨ (items.drop used.length).any (fun w => w.getLsbD 31) = true ∨ used.any bad = true then
    s.done c stArg
  else
    let was := s.bit (F.HIF_TLM_CFG_EN k)
    let s := s.wr (F.HIF_TLM_CFG_EN k) (c.arg 17 1)
    let s := (s.wr (F.HIF_TLM_CFG_NVAL k) used.length).wr (F.HIF_TLM_CFG_PERIOD k) per
    let vf := c.arg 20 4
    let s := s.wr (F.HIF_TLM_VF_VALID_FOR k) (if vf = 0 then 100 * per else vf)
    let s := s.each (List.range 9) fun s i => s.setReg (R.HIF_TLM_ITEM k i) (items.getD i 0#32)
    (s.modStr k fun x => { x with cfgAt := s.now, nextMul := 1, lastAt := if was then x.lastAt else s.now }).done c stOk

/-! ## The end of a copy (R422) -/

/-- A copy to the host stores its bytes. -/
def moverStores (s : State) (j : MoverJob) : State :=
  match j with
  | .toHost c addr bs _ =>
    if s.windowBad c addr bs.length then s
    else if s.bit (F.HIF_RCFG_LOC c.ring) then { s with sram := memPut s.sram addr bs }
    else s.cond (!bs.isEmpty) fun s => s.emit (.hostWrite addr bs)
  | _ => s

/-- The end of a copy reaches the cores, and its command goes on. -/
def moved (s : State) (j : MoverJob) (data : List Byte) : State :=
  match j with
  | .toHost c addr bs res =>
    if s.windowBad c addr bs.length then s.done c stArg else s.complete c stOk res
  | .profileTable c _ tb n addr =>
    if s.windowBad c addr (16 * n) then s.done c stArg
    else
      let bs := s.source c addr (16 * n) data
      let s := s.each (List.range (4 * n)) fun s i => s.putCoef (tb + 4 * i) (BitVec.ofNat 32 (fieldLe bs (4 * i) 4))
      s.done c stOk
  | .fwPart c obj off len last addr =>
    if s.windowBad c addr len then s.done c stArg
    else s.fwPartMoved c obj off len last (s.source c addr len data)
  | .chainSend c dst ty len addr =>
    if s.windowBad c addr len then s.done c stArg
    else s.chainSendMoved c dst ty (s.source c addr len data)
  | .canImage c n k addr =>
    if s.windowBad c addr 80 then s.done c stArg
    else
      let bs := s.source c addr 80 data
      if c.arg 17 1 = 1 then s.canConfigured c n k bs else s.canTransmitted c n k bs

end State

/-! ## Commands -/

/-- R268, R421: the trace is configured and armed. -/
def execTraceArm (t : Nat) (r : Fin 4) (s : State) : Host.Outcome State Fault Refusal :=
  .next ((s.upTo t).runOp r 0x30 State.traceArmCmd)

/-- R269: a frozen trace is copied to host memory. -/
def execTraceRead (t : Nat) (r : Fin 4) (s : State) (bads fixed : List Nat := []) : Host.Outcome State Fault Refusal :=
  .next ((s.upTo t).runOp r 0x31 fun s c => s.traceReadCmd bads fixed c)

/-- R448: journal entries are copied to host memory. -/
def execJournalQuery (t : Nat) (r : Fin 4) (s : State) : Host.Outcome State Fault Refusal :=
  .next ((s.upTo t).runOp r 0x40 State.journalQueryCmd)

/-- R517: records are copied to host memory. -/
def execRecRead (t : Nat) (r : Fin 4) (s : State) : Host.Outcome State Fault Refusal :=
  .next ((s.upTo t).runOp r 0x50 State.recReadCmd)

/-- R421, R514, R516: a mark record; its commit completes the command. -/
def execRecMark (t : Nat) (r : Fin 4) (s : State) : Host.Outcome State Fault Refusal :=
  .next ((s.upTo t).runOp r 0x51 State.recMarkCmd)

/-- R394, R528: a part of an object is taken for staging. -/
def execFwStage (t : Nat) (r : Fin 4) (s : State) : Host.Outcome State Fault Refusal :=
  .next ((s.upTo t).runOp r 0x60 State.fwStageCmd)

/-- R395: FW_COMMIT with ACTIVATE. -/
def execFwCommitActivate (t : Nat) (r : Fin 4) (s : State) : Host.Outcome State Fault Refusal :=
  .next ((s.upTo t).runCmd r (fun c => c.opcode == 0x61 && (c.arg 16 1).testBit 0) State.fwCommitCmd)

/-- R395: FW_COMMIT with ADVANCE alone. -/
def execFwCommitAdvance (t : Nat) (r : Fin 4) (s : State) : Host.Outcome State Fault Refusal :=
  .next ((s.upTo t).runCmd r (fun c => c.opcode == 0x61 && !(c.arg 16 1).testBit 0) State.fwCommitCmd)

/-- R397: a report is started. -/
def execAttest (t : Nat) (r : Fin 4) (s : State) : Host.Outcome State Fault Refusal :=
  .next ((s.upTo t).runOp r 0x70 State.attestCmd)

/-- R397: the report is signed; the cores send it to host memory. -/
def execAttestComplete (t : Nat) (s : State) : Host.Outcome State Fault Refusal :=
  let s := s.upTo t
  .next (match s.sec.attest with
  | none => s
  | some (c, ct) =>
    if !s.cpuOn then s
    else
      let bs := s.report c ct
      (s.modSec fun x => { x with attest := none }).capture (.signed c bs))

/-- R481: a frame is taken from host memory and sent. -/
def execChainSend (t : Nat) (r : Fin 4) (s : State) : Host.Outcome State Fault Refusal :=
  .next ((s.upTo t).runOp r 0x80 State.chainSendCmd)

/-- R491: CONFIGURE. -/
def execCanConfigure (t : Nat) (r : Fin 4) (s : State) : Host.Outcome State Fault Refusal :=
  .next ((s.upTo t).runCan r 1 fun s c n k =>
    if s.canOwns n k then s.done c stBusy else s.move (.canImage c n k (c.arg 20 8)))

/-- R491, R493: TRANSMIT. -/
def execCanTransmit (t : Nat) (r : Fin 4) (s : State) : Host.Outcome State Fault Refusal :=
  .next ((s.upTo t).runCan r 2 fun s c n k =>
    match s.canRefusal n k with
    | some st => s.done c st
    | none => s.move (.canImage c n k (c.arg 20 8)))

/-- R491, R492: READ. -/
def execCanRead (t : Nat) (r : Fin 4) (s : State) : Host.Outcome State Fault Refusal :=
  .next ((s.upTo t).runCan r 3 fun s c n k =>
    let o := s.canObj n k
    (s.putCanObj n k (o.setFlag 7 false)).move (.toHost c (c.arg 20 8) o.image 0))

/-- R491: DISABLE. -/
def execCanDisable (t : Nat) (r : Fin 4) (s : State) : Host.Outcome State Fault Refusal :=
  .next ((s.upTo t).runCan r 4 fun s c n k =>
    let o := s.canObj n k
    if o.flag 0 && s.canOwns n k then s.done c stBusy
    else ((s.putCanObj n k (o.setFlag 6 false)).canOwnBit n k false).done c stOk)

/-- R491, R501: ABORT. -/
def execCanAbort (t : Nat) (r : Fin 4) (onBus : Bool) (s : State) : Host.Outcome State Fault Refusal :=
  .next ((s.upTo t).runCan r 5 fun s c n k =>
    match (s.can n).pend.find? fun x => x.obj == k with
    | none => s.done c stOk
    | some x => if onBus then s.done c stBusy else (s.canFail n x 8).done c stOk)

/-- R486, R491: START. -/
def execCanStart (t : Nat) (r : Fin 4) (s : State) : Host.Outcome State Fault Refusal :=
  .next ((s.upTo t).runCan r 0x10 fun s c n _ =>
    if s.bit (F.CAN_CTL_INIT n) then
      (if s.canTimingBad n then s.done c stArg else s.canLeaveInit n (some c))
    else if s.rd (F.CAN_STAT_STATE n) ≠ 0 then s.done c stOk
    else if (s.can n).starting.isSome then s.done c stBusy
    else s.modCan n fun x => { x with starting := some c })

/-- R491, R501: STOP, which waits for the end of a frame on the bus. -/
def execCanStop (t : Nat) (r : Fin 4) (s : State) (onBus : Bool := false) : Host.Outcome State Fault Refusal :=
  .next ((s.upTo t).runCan r 0x11 fun s c n _ =>
    if onBus && s.canActive n then s.modCan n fun x => { x with stopping := x.stopping ++ [c] }
    else (s.canInit n).done c stOk)

/-- R491, R498: RECOVER. -/
def execCanRecover (t : Nat) (r : Fin 4) (s : State) : Host.Outcome State Fault Refusal :=
  .next ((s.upTo t).runCan r 0x12 fun s c n _ =>
    if s.rd (F.CAN_STAT_STATE n) ≠ 3 then s.done c stMode
    else if (s.can n).recCmd.isSome then s.done c stBusy
    else s.modCan n fun x => { x with recovering := true, recCmd := some c })

/-- R427: TLM_CONFIG. -/
def execTlmConfig (t : Nat) (r : Fin 4) (s : State) : Host.Outcome State Fault Refusal :=
  .next ((s.upTo t).runOp r 0xA0 State.tlmConfigCmd)

/-- R422: the copy at the head of the data mover's queue is done; its end reaches the cores through the replicator. -/
def execDataMoverDone (t : Nat) (data : List Byte) (s : State) : Host.Outcome State Fault Refusal :=
  let s := s.upTo t
  .next (match s.hif.mover with
  | [] => s
  | j :: rest =>
    if s.cpuOn && s.commOn then
      ((s.modHif fun h => { h with mover := rest }).moverStores j).capture (.copyEnd j (some data))
    else s)

end Sys2Proof.Machine
end

