-- ==== Sys2Proof/Machine/ChainRows.lean ====
section
/-!
DEFINITION. The chain's own happenings (R454 to R482): links, frames, memory access, credits, partner changes, the roll,
breaks, sleep and chain time.
-/

namespace Sys2Proof.Machine

namespace State

/-! ## Frames (R459, R460, R475, R476) -/

/-- The wake cause of a port and its enable (R68). -/
def wakeCause (p : Nat) : Fld := if p = 0 then F.PCK_WAKE_SRC_CHAIN_UP else F.PCK_WAKE_SRC_CHAIN_DOWN
def wakeEnabled (s : State) (p : Nat) : Bool :=
  if p = 0 then s.bit F.PCK_WAKE_EN_CHAIN_UP else s.bit F.PCK_WAKE_EN_CHAIN_DOWN

/-- Addressed to this unit. -/
def mine (s : State) (f : Frame) : Bool := f.dst == s.chainAddr && f.dst != 0

/-- A frame that a repeating port takes: a WAKE to the unit or to all, a PREARM to the unit (R476). -/
def wakeable (s : State) (p : Nat) (f : Frame) : Bool :=
  s.wakeEnabled p && frameLenOk f.ty f.payload.length
    && ((f.ty == 2 && (s.mine f || f.dst == 0x3FFF)) || (f.ty == 3 && s.mine f))

/-- The wake frame is held for the first interval after READY, or delivered at once, and its wake starts. -/
def wakeTake (s : State) (p : Nat) (f : Frame) : State :=
  let s := if s.awake then s.capture (.chainFrame f.bytes)
    else s.modChain fun c => { c with heldWake := c.heldWake ++ [f], preWoke := c.preWoke || f.ty == 3 }
  s.wake (wakeCause p)

/-- A frame at a repeating port. -/
def frameRepeat (s : State) (p : Nat) (f : Frame) : State :=
  if s.wakeable p f then
    let s := s.wakeTake p f
    if f.dst = 0x3FFF then s.passOn p (.chainFrame (1 - p) f) else s
  else if s.mine f then s.chnDrop F.CHN_DROP_UNREACH
  else s.passOn p (.chainFrame (1 - p) f)

/-- An application frame enters slot SEQ mod 16 of CHN_RXQ and the replicator (R481). -/
def appTake (s : State) (f : Frame) : State :=
  let seq := (s.reg R.CHN_RXQ_SEQ).toNat
  let slot := seq % 16
  let s := s.modChain fun c => { c with rxq := memPut c.rxq (512 * slot) (leBytes 8 s.ct ++ f.bytes) }
  let s := s.setReg R.CHN_RXQ_SEQ (BitVec.ofNat 32 (seq + 1))
  (s.capture (.chainFrame f.bytes)).event 0x0D10 (f.src + f.ty * 65536 + slot * 2 ^ 24)

/-- A frame is taken: WAKE and application frames act here, the other types by their own rows. A type or length that R458
does not list is counted. -/
def frameTake (s : State) (p : Nat) (f : Frame) : State :=
  let s := s.modChain fun c => { c with taken := ((f.src, f.seq) :: c.taken).take 16 }
  if !frameLenOk f.ty f.payload.length then s.chnDrop F.CHN_DROP_TYPE_BAD
  else if f.ty = 2 then s.cond (s.wakeEnabled p) fun s => s.wake (wakeCause p)
  else if 0x40 ≤ f.ty then s.appTake f
  else s

/-- A frame leaves by the other port, or is dropped as unreachable; its buffer is held until it leaves. -/
def frameOn (s : State) (p : Nat) (f : Frame) : State :=
  if s.portActive (1 - p) && !s.portEnd (1 - p) then
    s.modChain fun c => { c with queue := c.queue ++ [⟨1 - p, false, f, none, s.now⟩] }
  else (s.chnDrop F.CHN_DROP_UNREACH).freeBuffer p

/-- A frame at an active port (R460): the first row that applies. -/
def frameActive (s : State) (p : Nat) (f : Frame) : State :=
  let own := s.chainAddr
  let fresh := !s.chain.taken.contains (f.src, f.seq)
  if f.src = own ∨ f.dst = 0 then s.freeBuffer p
  else if f.dst = 0x3FFF then
    if fresh then (s.frameTake p f).frameOn p f else s.freeBuffer p
  else if s.mine f then (if fresh then s.frameTake p f else s).freeBuffer p
  else s.frameOn p f

/-- A STATE stream runs out of a port (R303). -/
def streaming (s : State) (p : Nat) : Bool :=
  s.axes.any fun a => s.hovGiver a && s.hovState a == 3 && s.hovSideUp a == (p == 0) && s.neighbour a (p == 0) == 1

/-- A frame other than STATE may leave a port: active, in no partner change, with a credit, the last of which is a
stream's (R462 to R464). -/
def mayLeave (s : State) (p : Nat) : Bool :=
  let cr := s.rd (F.CHN_PORT_CREDIT p)
  s.portActive p && !s.bit (F.CHN_PORT_HELD p) && cr != 0 && !(s.streaming p && cr == 1)

/-- A damaged frame at an active port is counted. What of it has already left by the other port, cut through, ends with
EOF_BAD (R459, R460). -/
def frameBad (s : State) (p : Nat) (bytes : List Byte) : State :=
  let be (i n : Nat) : Nat := beNat (slice bytes i n)
  let dst := be 2 2 % 16384
  let src := be 4 2 % 16384
  let q := 1 - p
  let new := dst != 0x3FFF || !s.chain.taken.contains (src, be 8 2)
  let cut := decide (10 ≤ bytes.length) && src != s.chainAddr && dst != 0 && dst != s.chainAddr && new
    && s.mayLeave q && !s.portEnd q && !s.chain.queue.any fun x => x.port == q
  let s := s.cond cut fun s =>
    ((s.emit (.chainBad q)).modPort q fun k => { k with sent := (k.sent + 1) % 256 }).wr (F.CHN_PORT_CREDIT q)
      (s.rd (F.CHN_PORT_CREDIT q) - 1)
  (s.count (F.CHN_ERR_CRC_ERR p) (F.CHN_ERR_SAT p) 0x0D0E p).freeBuffer p

/-- A frame arrives at a port (R459). A wake frame that arrives while the ports still change to repeat mode is latched
(R70, R482). -/
def frameIn (s : State) (p : Nat) (bytes : List Byte) (ended : Bool) : State :=
  match readFrame bytes ended with
  | some f => if s.repeating p then s.frameRepeat p f else if s.portActive p then s.frameActive p f
    else if !s.commOn && s.wakeable p f then s.wakeTake p f else s
  | none => if s.portActive p then s.frameBad p bytes else s

/-! ## Leaving a port (R462, R463) -/

/-- The order of R462: by class, forwarded before own; the unit's own STATE leaves at its instant, before any (R303). -/
def QFrame.rank (q : QFrame) : Nat :=
  if q.own && q.frame.ty == 9 then 0 else 1 + 2 * frameClass q.frame.ty + q.own.toNat

/-- The instant at which the next STATE frame of a stream leaves a port: 64 ns after the next servo tick (R303). -/
def streamAt (s : State) (p : Nat) : Option Nat :=
  (s.axes.find? fun a => s.hovGiver a && s.hovState a == 3 && s.hovSideUp a == (p == 0) && s.neighbour a (p == 0) == 1).map
    fun a => (s.mot a).tickAt + s.tickPeriod a + 64

/-- A port holds back any frame whose transmission would still be running at the instant of a STATE frame: 32 ns per byte
(R303, R304). -/
def beforeStream (s : State) (p : Nat) (f : Frame) : Bool :=
  f.ty != 9 && (s.streamAt p).any fun x => decide (s.now < x) && decide (x < s.now + 32 * (20 + f.payload.length))

/-- The oldest of the lowest rank. -/
def firstOut : List QFrame → Option QFrame
  | [] => none
  | q :: l =>
    match firstOut l with
    | none => some q
    | some r => if State.QFrame.rank r < State.QFrame.rank q then some r else some q

/-- The frame that a port sends next: it needs a credit and no partner change; the last credit of a port with a STATE
stream is a STATE frame's. -/
def nextOut (s : State) (p : Nat) : Option QFrame :=
  if !s.portActive p || s.bit (F.CHN_PORT_HELD p) || s.rd (F.CHN_PORT_CREDIT p) == 0 then none
  else firstOut (s.chain.queue.filter fun q => q.port == p && (s.mayLeave p || q.frame.ty == 9) && !s.beforeStream p q.frame)

/-- The frame leaves: SENT counts, a forwarded frame's buffer is freed, and a CHAIN_SEND with no copy left completes. -/
def sendOut (s : State) (p : Nat) (q : QFrame) : State :=
  let rest := s.chain.queue.erase q
  let s := (s.modChain fun c => { c with queue := rest }).emit (.chainFrame p q.frame)
  let s := s.modPort p fun k => { k with sent := (k.sent + 1) % 256 }
  let s := s.wr (F.CHN_PORT_CREDIT p) (s.rd (F.CHN_PORT_CREDIT p) - 1)
  let s := s.cond (!q.own) fun s => s.freeBuffer (1 - p)
  match q.cmd with
  | some c => if rest.any fun x => x.cmd == some c then s else s.complete c stOk 0
  | none => s

/-- A CHAIN_SEND whose frame has waited 10 ms is given up (R481). -/
def sendExpire (s : State) : State :=
  let late (q : QFrame) : Bool := q.cmd.isSome && decide (q.since + 10000000 ≤ s.now)
  let cs := (s.chain.queue.filterMap fun q => if late q then q.cmd else none).eraseDups
  let s := s.modChain fun c => { c with queue := c.queue.filter fun q => !late q }
  cs.foldl (fun s c => s.complete c stTimeout 0) s

/-! ## Memory access (R478, R479) -/

/-- The range lies in its space, and its length and address are those of R478. -/
def memRange (addr n : Nat) : Bool :=
  let off := addr % 2 ^ 21
  decide (4 ≤ n) && decide (n ≤ 248) && n % 4 == 0 && addr % 4 == 0 && addr / 2 ^ 21 % 2 ^ 10 == 0
    && decide (off + n ≤ (if 2 ^ 31 ≤ addr then 0x100000 else 0x200000))

/-- Words read one after the other, each most significant byte first (log entry 39). -/
def memWords (s : State) (who : Nat) (bar2 : Bool) (off : Nat) : Nat → List Byte × State
  | 0 => ([], s)
  | n + 1 =>
    let r := if bar2 then (s.readSram who off, s) else s.readReg who off
    let x := memWords r.2 who bar2 (off + 4) n
    (beBytes 4 r.1.toNat ++ x.1, x.2)

/-- Words written one after the other. -/
def memFill (s : State) (bar2 : Bool) (off : Nat) : List Byte → Nat → State
  | _, 0 => s
  | bs, n + 1 =>
    let d := BitVec.ofNat 32 (beNat (bs.take 4))
    let s := if bar2 then s.writeSram .chainHost off d 0xF#4 else s.writeReg .chainHost off d 0xF#4
    memFill s bar2 (off + 4) (bs.drop 4) n

def memRead (s : State) (src : BitVec 14) (payload : List Byte) : State :=
  let be (i n : Nat) : Nat := beNat (slice payload i n)
  let tag := be 6 2
  if !s.memAllowed src.toNat then s.memDenied src.toNat tag
  else if !memRange (be 0 4) (be 4 2) then s.memRsp src.toNat tag 2 []
  else
    let r := s.memWords (Reader.chainHost src).code (decide (2 ^ 31 ≤ be 0 4)) (be 0 4 % 2 ^ 21) (be 4 2 / 4)
    r.2.memRsp src.toNat tag 0 r.1

def memWrite (s : State) (src : BitVec 14) (payload : List Byte) : State :=
  let be (i n : Nat) : Nat := beNat (slice payload i n)
  let tag := be 6 2
  let ack := be 4 2 % 2 == 1
  let data := payload.drop 8
  if !s.memAllowed src.toNat then s.memDenied src.toNat tag
  else if !memRange (be 0 4) data.length then s.cond ack fun s => s.memRsp src.toNat tag 2 []
  else
    let s := s.memFill (decide (2 ^ 31 ≤ be 0 4)) (be 0 4 % 2 ^ 21) data (data.length / 4)
    s.cond ack fun s => s.memRsp src.toNat tag 0 []

/-! ## Credits and partner changes (R463, R464, R477) -/

/-- FREED arrives: the credit follows, or a partner change starts. -/
def creditTake (s : State) (p freed : Nat) : State :=
  let c := creditOf (s.port p).sent freed
  if c < 0 ∨ 8 < c then (if (s.port p).partner = .none then s.partnerStart p false else s)
  else (s.wr (F.CHN_PORT_CREDIT p) c.toNat).drainReply p

/-- HOLD of the partner: frames are held until its RESET. A unit that changes itself answers as soon as it is drained. -/
def holdTake (s : State) (p : Nat) : State :=
  match (s.port p).partner with
  | .changing .. =>
    if s.rd (F.CHN_PORT_CREDIT p) = 8 ∨ s.rd (F.CHN_PORT_STATE p) ≠ 2 then s.emit (.linkctl p 2) else s
  | _ =>
    let s := s.hi (F.CHN_PORT_HELD p)
    (s.modPort p fun k => { k with partner := .heldBy s.now false }).drainReply p

/-- RESET of the partner: both sides count afresh; a change of this unit's own goes on. -/
def resetTake (s : State) (p : Nat) : State :=
  match (s.port p).partner with
  | .changing x y =>
    ((s.partnerReset p).hi (F.CHN_PORT_HELD p)).modPort p fun k => { k with partner := .changing x y }
  | _ => s.partnerReset p

/-- A LINKCTL set reaches a port that does not repeat. -/
def linkctlTake (s : State) (p code : Nat) : State :=
  if code = 1 then s.holdTake p
  else if code = 2 then
    match (s.port p).partner with
    | .changing _ r => s.partnerFinish p r
    | _ => s
  else if code = 3 then s.resetTake p
  else s

/-- A port leaves repeat mode: through a partner change, or for want of a link. -/
def join (s : State) (p : Nat) : State :=
  if s.bit (F.CHN_PORT_LINK p) then s.partnerStart p false else s.wr (F.CHN_PORT_STATE p) 0

/-- The next port to join after a wake: UP, then DOWN. -/
def joinNext (s : State) : State :=
  let idle (p : Nat) : Bool := (s.port p).partner == .none
  if s.rd (F.CHN_PORT_STATE 0) = 1 then (if idle 0 then s.join 0 else s)
  else if s.rd (F.CHN_PORT_STATE 1) = 1 ∧ idle 1 = true then s.join 1 else s

/-! ## Chain time (R469 to R474) -/

/-- A TIME_SYNC at an active port: stamped, and answered with DLY_REQ. -/
def syncTake (s : State) (p ct hops frac lag : Nat) : State :=
  if s.bit F.BLK_ROLE_ROOT && hops == 0 then s.event 0x0D0F 0
  else
    let s := s.wr (F.CHN_PORT_PHOPS p) hops
    let seq := ((s.port p).dseq + 1) % 256
    let t2 := s.ct * 32 + frac
    let s := s.modPort p fun k =>
      { k with syncAt := some s.now, t1 := some (ct * 32), t2 := t2, t3 := some (t2 + lag), dseq := seq }
    (s.emit (.dlyReq p seq)).pickSource

/-- A DLY_RSP completes the exchange: d enters the mean, and the source's o corrects CT. -/
def exchange (s : State) (p t4 : Nat) : State :=
  match (s.port p).t1, (s.port p).t3 with
  | some t1, some t3 =>
    let a : Int := ((s.port p).t2 : Int) - t1
    let d2 : Int := a + ((t4 * 32 : Nat) : Int) - t3
    let ds := ((d2 * 125) :: (s.port p).ds).take 16
    let s := s.modPort p fun k => { k with t1 := none, t3 := none, ds := ds }
    let mean := looseDiv 60 (ds.foldl (· + ·) 0) (8 * ds.length)
    let s := s.wr (F.CHN_DLINK_DLINK p) (max 0 (min 0xFFFFFF mean)).toNat
    let asym := signed 16 (s.rd (F.CHN_ASYM_ASYM p))
    if s.timeSource = p ∧ s.bit F.BLK_ROLE_ROOT = false then
      s.correct (looseDiv 61 (a * 250 - d2 * 125 - asym * 4) 8)
    else s
  | _, _ => s

/-! ## The roll (R465, R466) -/

/-- ROLL(c, out) gives a unit its address and goes on. -/
def rollPass (s : State) (c : Nat) : State :=
  let n := min (c + 1) 0x3FFF
  let new := if n ≤ 0x3FFE then n else 0
  let s := (s.wrB F.CHN_ADDR_OVF (new == 0)).addrTake new
  if s.bit F.BLK_ROLE_END then s.emit (.roll 0 n true) else s.emit (.roll 1 n false)

/-- A ROLL set arrives (log entry 42 for the root with ring closure). -/
def rollTake (s : State) (p c : Nat) (back : Bool) : State :=
  if s.bit F.BLK_ROLE_ROOT then
    let mineBack := if back then p == 1 else s.bit F.BLK_ROLE_RING
    if mineBack && s.chain.rollAt.isSome then s.rollEnd c else s
  else if back then (if p = 1 then s.emit (.roll 0 c true) else s)
  else if p = 0 then s.rollPass c
  else s

end State

/-! ## Links -/

/-- R454, R464, R465: a link comes up; an active port changes partner, and the roll of a boot leaves. -/
def execChainLinkUp (t : Nat) (p : Fin 2) (s : State) : Host.Outcome State Fault Refusal :=
  let s := s.upTo t
  .next (if s.power.comm == .off || s.bit (F.CHN_PORT_LINK p) then s
  else
    let s := (s.hi (F.CHN_PORT_LINK p)).event 0x0D01 p
    if s.rd (F.CHN_PORT_STATE p) = 1 then s
    else if s.portEnd p then s.wr (F.CHN_PORT_STATE p) 3
    else if !s.commOn then s.wr (F.CHN_PORT_STATE p) 1
    else (s.partnerStart p false).cond (s.chain.rollDue && p == 1) State.rollStart)

/-- R454, R467, R468: a link goes down; an active unit broadcasts BREAK out of its other port. -/
def execChainLinkDown (t : Nat) (p : Fin 2) (errs : Nat) (s : State) : Host.Outcome State Fault Refusal :=
  let s := s.upTo t
  .next (if !s.portHears p then s
  else
    let st := s.rd (F.CHN_PORT_STATE p)
    let s := (s.lo (F.CHN_PORT_LINK p)).codeErrors p errs
    let s := (s.chnErr p (F.CHN_ERR_LINK_DN p)).event 0x0D02 p
    let s := (s.lo (F.CHN_PORT_HELD p)).modPort p fun k => { k with partner := .none, t1 := none, t3 := none }
    if st = 1 ∨ st = 3 then s
    else if !s.commOn then s.wr (F.CHN_PORT_STATE p) 1
    else
      let s := s.wr (F.CHN_PORT_STATE p) 0
      if st = 2 then
        let s := (s.breakBound s.chainAddr (p == 1) false).breakSend p false
        s.modPort p fun k => { k with healDue := true }
      else s)

/-! ## Frames -/

/-- R459, R460: a frame arrives at a port. -/
def execChainFrameReceive (t : Nat) (p : Fin 2) (bytes : List Byte) (ended : Bool) (s : State) :
    Host.Outcome State Fault Refusal :=
  let s := s.upTo t
  .next (if s.portHears p then s.frameIn p bytes ended else s)

/-- R460, R462, R463: a waiting frame leaves. -/
def execFrameForward (t : Nat) (p : Fin 2) (s : State) : Host.Outcome State Fault Refusal :=
  let s := s.upTo t
  .next (match s.nextOut p with
  | some q => s.sendOut p q
  | none => s)

/-- R478, R479: a chain host reads. -/
def execMemRd (t : Nat) (src : BitVec 14) (payload : List Byte) (s : State) : Host.Outcome State Fault Refusal :=
  let s := s.upTo t
  .next (if s.commOn && frameLenOk 0x10 payload.length then s.memRead src payload else s)

/-- R478, R479: a chain host writes. -/
def execMemWr (t : Nat) (src : BitVec 14) (payload : List Byte) (s : State) : Host.Outcome State Fault Refusal :=
  let s := s.upTo t
  .next (if s.commOn && frameLenOk 0x11 payload.length && decide (payload.length ≤ 256) then s.memWrite src payload else s)

/-- R468: a BREAK of another unit. -/
def execBreakReceive (t : Nat) (bnd : BitVec 14) (down healed : Bool) (s : State) : Host.Outcome State Fault Refusal :=
  let s := s.upTo t
  .next (if s.commOn && bnd.toNat != s.chainAddr then s.breakTake bnd.toNat down healed else s)

/-- R475, R476: a frame arrives in WATCH. -/
def execWakeFrame (t : Nat) (p : Fin 2) (bytes : List Byte) (ended : Bool) (s : State) :
    Host.Outcome State Fault Refusal :=
  let s := s.upTo t
  .next (if s.portHears p && s.repeating p then s.frameIn p bytes ended else s)

/-- R481: a frame of CHAIN_SEND has not left within 10 ms. -/
def execChainSendTimeout (t : Nat) (s : State) : Host.Outcome State Fault Refusal :=
  .next (s.upTo t).sendExpire

/-! ## Chain time -/

/-- R469, R471: an active port sends TIME_SYNC. -/
def execTimeSyncSend (t : Nat) (p : Fin 2) (s : State) : Host.Outcome State Fault Refusal :=
  let s := s.upTo t
  .next (if s.portActive p then
    s.emit (.timeSync p s.ct (if s.bit F.BLK_ROLE_ROOT then 0 else s.rd F.CHN_TIME_HOPS))
  else s)

/-- R469, R471, R455: a TIME_SYNC arrives; a repeater passes it with HOPS incremented. -/
def execTimeSyncReceive (t : Nat) (p : Fin 2) (ct : BitVec 64) (hops : BitVec 16) (frac : Fin 32) (lag : Nat) (ok : Bool)
    (s : State) : Host.Outcome State Fault Refusal :=
  let s := s.upTo t
  let h := hops.toNat % 16384
  .next (if !s.portHears p then s
  else if !ok then s.codeErrors p 1
  else if s.repeating p then s.passOn p (.timeSync (1 - p) ct.toNat (min 0x3FFF (h + 1)))
  else if s.portActive p then s.syncTake p ct.toNat h frac lag
  else s)

/-- R469: a DLY_REQ is answered with T4. -/
def execDlyReqReceive (t : Nat) (p : Fin 2) (seq : BitVec 8) (s : State) : Host.Outcome State Fault Refusal :=
  let s := s.upTo t
  .next (if !s.portHears p then s
  else if s.repeating p then s.passOn p (.dlyReq (1 - p) seq.toNat)
  else if s.portActive p then s.emit (.dlyRsp p seq.toNat s.ct)
  else s)

/-- R469, R470, R473: a DLY_RSP completes the exchange of its SEQ. -/
def execDlyRspReceive (t : Nat) (p : Fin 2) (seq : BitVec 8) (t4 : BitVec 64) (ok : Bool) (s : State) :
    Host.Outcome State Fault Refusal :=
  let s := s.upTo t
  .next (if !s.portHears p then s
  else if !ok then s.codeErrors p 1
  else if s.repeating p then s.passOn p (.dlyRsp (1 - p) seq.toNat t4.toNat)
  else if s.portActive p && seq.toNat == (s.port p).dseq then s.exchange p t4.toNat
  else s)

/-- R471: the present source has sent nothing valid for 1 ms. -/
def execTimeSourceTimeout (t : Nat) (s : State) : Host.Outcome State Fault Refusal :=
  let s := s.upTo t
  .next (if s.commOn then s.pickSource else s)

/-- R473: no valid exchange for 20 ms. -/
def execHoldoverTimeout (t : Nat) (s : State) : Host.Outcome State Fault Refusal :=
  let s := s.upTo t
  .next (let due := match s.chain.exchAt with
    | some x => decide (x + 20000000 ≤ s.now)
    | none => true
  if s.commOn && s.bit F.CHN_TIME_SYNCED && !s.bit F.BLK_ROLE_ROOT && due then
    (((s.lo F.CHN_TIME_SYNCED).hi F.CHN_TIME_HOLDOVER).event 0x0D07 0).runOk
  else s)

/-! ## Credits and partner changes -/

/-- R463, R455: a CREDIT set arrives. -/
def execCreditReceive (t : Nat) (p : Fin 2) (freed compl : BitVec 8) (s : State) : Host.Outcome State Fault Refusal :=
  let s := s.upTo t
  .next (if !s.portHears p then s
  else if compl != ~~~freed then s.codeErrors p 1
  else if s.repeating p then s.passOn p (.credit (1 - p) freed.toNat)
  else if s.commOn then s.creditTake p freed.toNat
  else s)

/-- R463: CREDIT is sent at least every 10 µs. -/
def execCreditRefresh (t : Nat) (p : Fin 2) (s : State) : Host.Outcome State Fault Refusal :=
  let s := s.upTo t
  .next (if s.portActive p then s.emit (.credit p (s.port p).freed) else s)

/-- R464: a LINKCTL set arrives. -/
def execLinkctlReceive (t : Nat) (p : Fin 2) (code : BitVec 8) (s : State) : Host.Outcome State Fault Refusal :=
  let s := s.upTo t
  .next (if !s.portHears p then s
  else if s.repeating p && (s.port p).partner == .none then s.passOn p (.linkctl (1 - p) code.toNat)
  else if s.commOn || (s.port p).partner != .none then s.linkctlTake p code.toNat
  else s)

/-- R464: 1 ms after a HOLD. -/
def execPartnerChangeTimeout (t : Nat) (p : Fin 2) (s : State) : Host.Outcome State Fault Refusal :=
  let s := s.upTo t
  .next (if s.power.comm == .off then s
  else match (s.port p).partner with
  | .changing x r => if x + 1000000 ≤ s.now then s.partnerFinish p r else s
  | .heldBy .. => s.drainReply p
  | .none => s)

/-- R477: after the reference changeover the ports leave repeat mode. -/
def execPortJoin (t : Nat) (s : State) : Host.Outcome State Fault Refusal :=
  let s := s.upTo t
  .next (if s.commOn && s.bit F.PCK_PLL_STAT_REF_XTAL && !s.power.changeover then s.joinNext else s)

/-- R467: a repeating port hears no valid character for 100 ns: the opposite port stops transmitting. -/
def execRepeatLoss (t : Nat) (p : Fin 2) (s : State) : Host.Outcome State Fault Refusal :=
  let s := s.upTo t
  .next (if s.repeating p then s.modPort (1 - p) fun k => { k with mute := true } else s)

/-- R467: valid characters return, and the repeater resumes. -/
def execRepeaterResume (t : Nat) (p : Fin 2) (s : State) : Host.Outcome State Fault Refusal :=
  let s := s.upTo t
  .next (if s.repeating p then s.modPort (1 - p) fun k => { k with mute := false } else s)

/-! ## The roll -/

/-- R465, R466: a ROLL set arrives, at an active or a repeating port. -/
def execRollReceive (t : Nat) (p : Fin 2) (count : BitVec 16) (ok : Bool) (s : State) : Host.Outcome State Fault Refusal :=
  let s := s.upTo t
  .next (if !s.portHears p then s
  else if !ok then s.codeErrors p 1
  else s.rollTake p (count.toNat % 16384) (count.getLsbD 15))

/-- R465: 20 ms without the return of a roll. -/
def execRollTimeout (t : Nat) (s : State) : Host.Outcome State Fault Refusal :=
  let s := s.upTo t
  .next (match s.chain.rollAt with
  | some x =>
    if x + 20000000 ≤ s.now then
      ((s.modChain fun c => { c with rollAt := none }).wr F.CHN_ROLL_STATE 3).event 0x0D0A 0
    else s
  | none => s)

/-- R466: the last running axis has left RUN and LIMP. -/
def execAddressTakeEffect (t : Nat) (s : State) : Host.Outcome State Fault Refusal :=
  let s := s.upTo t
  .next (if s.bit F.CHN_ADDR_PEND && !s.anyRunning then s.addrTake (s.rd F.CHN_ADDR_NEW) else s)

end Sys2Proof.Machine
end

