-- ==== Sys2Proof/Machine/Cores.lean ====
section
/-!
DEFINITION. The core cluster (R360 to R380) and what a passed checkpoint releases: outputs, events, telemetry
records, and the judging of commands (R364, R367, R418 to R424, R428, R429, R437 to R440).
-/

namespace Sys2Proof.Machine

namespace State

/-! ## Presence (R362, R378) -/

def fenced (s : State) (n : Nat) : Bool := s.bit ⟨R.CPX_STAT, 3 + n, 1⟩
def halted (s : State) (n : Nat) : Bool := s.bit ⟨R.CPX_STAT, 6 + n, 1⟩

/-- The present cores: neither fenced nor halted in debug (R362). -/
def present (s : State) : List Nat := [0, 1, 2].filter fun n => !s.fenced n && !s.halted n

/-- The cores that take part in the present interval: a minority core sits it out (R368). -/
def voters (s : State) : List Nat := s.present.filter fun n => s.cores.sitting != some n

/-- Minorities of a core within the last hour (R369). -/
def window (s : State) (n : Nat) : Nat :=
  (s.cores.minAt.filter fun m => m.1 == n && decide (s.now < m.2 + 3600000000000)).length

/-- PRESENT, VOTE and the windows follow the cores; VOTE counts those that vote, as a minority core sits its interval out
(R366, R368, R378, log entry 16). -/
def coreRegs (s : State) : State :=
  let v := s.voters
  let s := s.wr F.CPX_STAT_PRESENT ((s.present.map (2 ^ ·)).foldl (· + ·) 0)
  let s := s.each [0, 1, 2] fun s n => s.wr ⟨R.CPX_MIN_CNT, 24 + 2 * n, 2⟩ (min 3 (s.window n))
  if s.rd F.CPX_STAT_VOTE = 2 then s
  else s.wr F.CPX_STAT_VOTE (match v.length with
    | 3 => 0
    | 2 => 1
    | _ => 3)

/-- The cores run their firmware. -/
def coresRun (s : State) : Bool := s.cpuOn && s.cores.fwRuns

/-- A copy into a minority core is running (R368). -/
def copying (s : State) : Bool := s.bit F.CPX_STAT_RESYNC

/-- A core is working on its interval. -/
def atWork (s : State) (n : Nat) : Bool :=
  s.coresRun && !s.cores.voted && !s.copying && s.rd F.CPX_STAT_VOTE != 2 && s.voters.contains n
    && !s.cores.stalled.contains n && !s.cores.arrived.any fun a => a.1 == n

/-! ## A core's own state (R360, R363, R368, R372) -/

/-- Local SRAM of a core. -/
def localSram (s : State) (n : Nat) : List Host.Cell :=
  if n = 0 then s.cores.sram0 else if n = 1 then s.cores.sram1 else s.cores.sram2

/-- Changes the architectural state and the local SRAM of a core. -/
def modCore (s : State) (n : Nat) (f : CoreArch → CoreArch) (g : List Host.Cell → List Host.Cell) : State :=
  s.modCpu fun c =>
    if n = 0 then { c with arch0 := f c.arch0, sram0 := g c.sram0 }
    else if n = 1 then { c with arch1 := f c.arch1, sram1 := g c.sram1 }
    else { c with arch2 := f c.arch2, sram2 := g c.sram2 }

/-- Writes a table of 32-bit registers. -/
def putWords (m l : List (Nat × BitVec 32)) : List (Nat × BitVec 32) :=
  l.foldl (fun m e => kvSet (fun _ => 0#32) m e.1 e.2) m

/-- What a core has changed of itself: integer register 0 reads 0, there are 32 registers of each kind and 16 protection
entries, a locked entry does not change, and stores outside the 512 KiB of local SRAM are no stores to it (R360, R372). -/
def coreWorks (s : State) (n : Nat) (pc : BitVec 32) (w : CoreWork) : State :=
  let free (a : CoreArch) (e : Nat × PmpEntry) : Bool :=
    decide (e.1 < 16) && !a.pmp.any fun o => o.1 == e.1 && o.2.locked
  s.modCore n
    (fun a => { a with
      pc := pc
      x := putWords a.x (w.x.filter fun e => decide (1 ≤ e.1) && decide (e.1 < 32))
      f := putWords a.f (w.f.filter fun e => decide (e.1 < 32))
      csr := putWords a.csr w.csr
      pmp := (w.pmp.filter (free a)).foldl (fun m e => ovSet m e.1 e.2) a.pmp })
    fun m => (w.stores.filter fun e => decide (e.1 < 0x80000)).foldl (fun m e => memSet m e.1 e.2) m

/-- What a core's signature covers, as bytes: the 32 integer and the 32 floating-point registers, the program counter, and
the 4 KiB signature area of its local SRAM (R363, log entry 124). -/
def sigBytes (s : State) (n : Nat) : List Byte :=
  let a := s.arch n
  let words (m : List (Nat × BitVec 32)) : List Byte :=
    (List.range 32).flatMap fun i => leBytes 4 (kvGet (fun _ => 0#32) m i).toNat
  words a.x ++ words a.f ++ leBytes 4 a.pc.toNat ++ memBytes (s.localSram n) 0x7F000 4096

/-- Two cores hold the same in every place that their signatures cover. -/
def sameCore (s : State) (n m : Nat) : Bool :=
  let a := s.arch n
  let b := s.arch m
  let area (l : List Host.Cell) : List Host.Cell := l.filter fun c => decide (0x7F000 ≤ c.1) && decide (c.1 < 0x80000)
  a.x == b.x && a.f == b.f && a.pc == b.pc && area (s.localSram n) == area (s.localSram m)

/-- Two arrived cores agree: same outputs, same signature. Those of cores that hold the same need no comparison (R363). -/
def agree (s : State) (a b : Nat × Arrival) : Bool :=
  a.2.outs == b.2.outs && (s.sameCore a.1 b.1 || a.2.sig == b.2.sig)

/-! ## The judging of commands (R418 to R420) -/

/-- A descriptor as a command, before its acceptance. -/
def cmdOf (d : Desc) : Cmd :=
  let flags := fieldLe d.bytes 1 1
  ⟨d.ring, d.idx, fieldLe d.bytes 2 2, fieldLe d.bytes 0 1, fieldLe d.bytes 8 8, 0, flags.testBit 2, flags.testBit 0,
   slice d.bytes 16 44, d.links⟩

/-- The argument bytes that an opcode uses, as ranges of descriptor bytes (R421, R427). -/
def argRanges (op part : Nat) : Option (List (Nat × Nat)) :=
  match op with
  | 0x01 | 0x02 | 0x19 => some []
  | 0x10 | 0x12 | 0x13 | 0x18 | 0x61 => some [(16, 17)]
  | 0x11 => some [(16, 20)]
  | 0x14 | 0x15 => some [(16, 18), (20, 34)]
  | 0x16 => match part with
    | 0 => some [(16, 18), (20, 56)]
    | 1 => some [(16, 18), (20, 30), (32, 36)]
    | 2 => some [(16, 19), (20, 24)]
    | _ => none
  | 0x17 => some [(16, 18), (20, 36)]
  | 0x1A => some [(20, 28)]
  | 0x30 => some [(20, 48)]
  | 0x31 => some [(20, 32)]
  | 0x40 => some [(20, 38)]
  | 0x50 => some [(20, 40)]
  | 0x51 => some [(17, 18), (20, 52)]
  | 0x60 => some [(16, 18), (20, 36)]
  | 0x70 => some [(17, 18), (20, 60)]
  | 0x80 => some [(20, 23), (24, 34)]
  | 0x90 => some [(16, 28)]
  | 0xA0 => some [(16, 60)]
  | _ => none

/-- A byte of an opcode's arguments with bits that must be 0 (R417, R421): descriptor byte and its used bits. -/
def argBits (op part : Nat) : List (Nat × Nat) :=
  match op with
  | 0x11 => [(17, 3), (18, 0x3F), (19, 0x3F)]
  | 0x14 | 0x15 => [(17, 1)]
  | 0x16 => (17, 3) :: (if part = 2 then [(18, 7)] else [])
  | 0x17 => [(17, 3)]
  | 0x51 | 0x60 | 0x70 => [(17, 1)]
  | 0x61 => [(16, 3)]
  | 0xA0 => [(17, 1)]
  | _ => []

/-- The descriptor's opcode is known and every byte that must be 0 is 0 (R417, R418). -/
def descOk (d : Desc) : Bool :=
  let b (i : Nat) : Nat := fieldLe d.bytes i 1
  let op := b 0
  let part := b 17 % 4
  match argRanges op part with
  | none => false
  | some l =>
    b 1 < 8 && fieldLe d.bytes 4 4 == 0
      && (List.range 44).all (fun i => l.any (fun r => decide (r.1 ≤ 16 + i) && decide (16 + i < r.2)) || b (16 + i) == 0)
      && (argBits op part).all fun p => Nat.land (b p.1) p.2 == b p.1

/-- The axis argument of an opcode, where it has one. -/
def axisArg (d : Desc) : Option Nat :=
  let a := fieldLe d.bytes 16 1
  match fieldLe d.bytes 0 1 with
  | 0x12 | 0x13 | 0x14 | 0x15 | 0x16 | 0x17 | 0x18 => some a
  | 0x11 => if a = 0xFF then none else some a
  | _ => none

/-- Arguments that name no object of the opcode: a FW_COMMIT of nothing, a CAN action, controller or object that does
not exist (R395, R491). -/
def objBad (d : Desc) : Bool :=
  let b (i : Nat) : Nat := fieldLe d.bytes i 1
  match b 0 with
  | 0x61 => b 16 == 0
  | 0x90 =>
    decide (1 < b 16)
      || (if decide (0x10 ≤ b 17) && decide (b 17 ≤ 0x12) then false
        else b 17 == 0 || decide (5 < b 17) || decide (127 < fieldLe d.bytes 18 2))
  | _ => false

/-- One descriptor is judged: refused, or accepted with its journal entry (R418, R438 to R440). -/
def judge (s : State) (d : Desc) : State :=
  let c := cmdOf d
  let r := d.ring
  if fieldLe d.bytes 60 4 ≠ crc32c (d.bytes.take 60) then
    ((s.count (F.HIF_RCNT_CNT r) (F.HIF_RCNT_SAT r) 0x0308 0).event 0x0307 r).issue ⟨c, stIntegrity, 0⟩
  else if c.hseq ≤ s.rd64 (R.JRN_HEAD_HSEQ_LO r) (R.JRN_HEAD_HSEQ_HI r) then s.issue ⟨c, stDuplicate, 0⟩
  else if 2048 - s.unmirrored < 9 then
    (s.count F.JRN_CNT_BUSY_CNT F.JRN_CNT_SAT 0x0407 0).issue ⟨c, stBusy, 0⟩
  else
    let s := s.journalAdd 1 ⟨0, 0, c.hseq, r, c.opcode, 0xFF, 0, c.sync, false, fieldLe d.bytes 60 4⟩
    let c := { c with jseq := s.rd64 R.JRN_HEAD_SEQ_LO R.JRN_HEAD_SEQ_HI }
    let s := (s.wr64 (R.JRN_HEAD_HSEQ_LO r) (R.JRN_HEAD_HSEQ_HI r) c.hseq).setRunning r (some c)
    let badAxis := match axisArg d with
      | some a => !s.axes.contains a
      | none => false
    if !descOk d || badAxis || objBad d then s.complete c stArg 0 else s

/-- The first waiting descriptor whose ring is free, and which no FENCE holds back. -/
def judgeNext (s : State) : Option Desc :=
  let first (r : Nat) : Option Desc := s.cores.waiting.find? fun d => d.ring == r
  s.cores.waiting.find? fun d =>
    (s.runningCmd d.ring).isNone && first d.ring == some d
      && (!(fieldLe d.bytes 1 1).testBit 1 || s.cores.running.isEmpty)

/-- Judges waiting descriptors in capture order while any can be judged. -/
def judgeAll : Nat → State → State
  | 0, s => s
  | n + 1, s =>
    match s.judgeNext with
    | none => s
    | some d => judgeAll n ((s.modCpu fun c => { c with waiting := c.waiting.erase d }).judge d)

/-! ## What a passed checkpoint releases (R367) -/

/-- One output takes effect: a store to shared SRAM or to a register (R360). -/
def output (s : State) (o : CoreOut) : State :=
  if 0x20000000 ≤ o.addr ∧ o.addr < 0x20100000 then s.writeSram .core (o.addr - 0x20000000) o.data o.be
  else if 0x40000000 ≤ o.addr ∧ o.addr < 0x40120000 then s.writeReg .core (o.addr - 0x40000000) o.data o.be
  else s

/-- A received I* is published, limited by the axis's own SP_ILIM (R306). -/
def publishOffer (s : State) (a : Nat) (cur : Int) : State :=
  let lim := iLimit (s.reg (R.FSL_SP a 4))
  let i := fMul (fOfInt cur (-15)) (s.bankW a 0x10)
  let i := if fLt lim i then lim else if fLt i (fNeg lim) then fNeg lim else i
  s.publishReceived a i

/-- What the firmware does with an entry of its batch: an event record is released (R424), a descriptor is ready to
be judged (R420), a received I* is published (R306), an application frame of type 0x7F for this unit starts a roll at the root
(R465), an axis in LIMP gets its current limit (R340), the second current of a brake test is commanded (R346), the command
of an ended copy goes on (R422), and a signed report goes to host memory (R397). -/
def consume (s : State) (e : RepEntry) : State :=
  match e.inp with
  | .event code arg => s.postEvent ⟨code, arg, e.ct, (s.reg R.SYS_MODE).toNat⟩ false
  | .desc d => s.modCpu fun c => { c with waiting := c.waiting ++ [d] }
  | .offer a cur => s.publishOffer a cur
  | .chainFrame bs => s.cond (fieldLe bs 0 1 == 0x7F && beNat (slice bs 2 2) == s.chainAddr) State.rollStart
  | .modeChange .. => s.each s.axes fun s a => s.cond (s.limpCap a).isSome fun s => s.publishSp a
  | .brakeStep a 2 => s.cond (s.saf.btest.any fun b => b.axis == a && b.second) fun s =>
      s.commandCurrent a (s.testCurrent a true)
  | .copyEnd j (some data) => s.moved j data
  | .copyEnd j none => s.complete j.cmd stArg 0
  | .signed c bs => s.move (.toHost c (c.arg 52 8) bs bs.length)
  | _ => s

/-- A captured telemetry record is released (R428, R429). -/
def releaseTlm (s : State) (k : Nat) : State :=
  match (s.str k).cap with
  | none => s
  | some c => (s.modStr k fun x => { x with cap := none }).writeTlm k c.1 c.2.1 c.2.2 false

/-- A checkpoint passes with the outputs of the agreeing cores. -/
def pass (s : State) (outs : List CoreOut) : State :=
  let s := (s.wr64 R.CPX_CKPT_LO R.CPX_CKPT_HI s.cores.instants).wr F.CPX_STAT_MISS 0
  let s := (s.modSaf fun u => { u with ckptAt := s.now }).modCpu fun c => { c with passAt := some s.now }
  let s : State := outs.foldl State.output s
  let got := s.cores.unacted ++ s.cores.batch
  let s : State := got.foldl State.consume (s.modCpu fun c => { c with unacted := [], batch := [] })
  let s := (s.releaseTlm 0).releaseTlm 1
  (State.judgeAll s.cores.waiting.length s).releaseOwed

/-! ## The vote (R366, R368 to R370) -/

/-- A core is the minority of a checkpoint: it is counted, then fenced, or it sits out the next interval. -/
def minority (s : State) (n : Nat) (absent : Bool) : State :=
  let free := s.cores.resumed.contains n
  let f : Fld := ⟨R.CPX_MIN_CNT, 8 * n, 8⟩
  let s := (s.event 0x0501 (n + 256 * absent.toNat)).wr F.CPX_STAT_LAST_MIN (n + 1)
  let s := s.count f F.CPX_MIN_CNT_SAT 0x0508 n
  let s := s.modCpu fun c => { c with
    resumed := c.resumed.filter (· != n)
    minAt := (c.minAt.filter fun m => decide (s.now < m.2 + 3600000000000)) ++ (if free then [] else [(n, s.now)]) }
  if !free && decide (3 ≤ s.window n) then ((s.hi ⟨R.CPX_STAT, 3 + n, 1⟩).event 0x0503 n).coreRegs
  else (s.modCpu fun c => { c with sitting := some n }).coreRegs

/-- After the vote of the interval that a minority core sat out, the copy into it starts. -/
def startCopy (s : State) : State := s.cond s.cores.sitting.isSome fun s => s.hi F.CPX_STAT_RESYNC

/-- No two cores agree. -/
def stalemate (s : State) : State :=
  (((s.wr F.CPX_STAT_VOTE 2).event 0x0504 0).activateRow 5 0)

/-- Fewer than two present cores arrive: the absent ones stay stalled (R362, R366). -/
def missed (s : State) (absent : List Nat) : State :=
  ((s.modCpu fun c => { c with stalled := c.stalled.filter (fun n => !absent.contains n) ++ absent }).bump
    F.CPX_STAT_MISS).event 0x0505 0

/-- The voter's outcome for the present interval. -/
def vote3 (s : State) : State :=
  let v := s.voters
  let arr := s.cores.arrived.filter fun a => v.contains a.1
  let s := s.modCpu fun c => { c with voted := true, arrived := [] }
  match arr with
  | [] => s.missed v
  | [a] => s.missed (v.filter (· != a.1))
  | [a, b] =>
    if s.agree a b then
      let third := v.find? fun n => n != a.1 && n != b.1
      let s := s.startCopy.pass a.2.outs
      match third with
      | some n => s.minority n true
      | none => s
    else s.stalemate
  | a :: b :: c :: _ =>
    if s.agree a b && s.agree b c then s.pass a.2.outs
    else if s.agree a b then (s.pass a.2.outs).minority c.1 false
    else if s.agree a c then (s.pass a.2.outs).minority b.1 false
    else if s.agree b c then (s.pass b.2.outs).minority a.1 false
    else s.stalemate

/-- The vote falls once the last present core has arrived. -/
def tryVote (s : State) : State :=
  if s.coresRun && !s.cores.voted && !s.copying && s.rd F.CPX_STAT_VOTE != 2 && !s.voters.isEmpty
      && s.voters.all fun n => s.cores.arrived.any fun a => a.1 == n then s.vote3
  else s

/-! ## Debug halts (R374 to R376) -/

/-- A halt takes effect. -/
def haltCore (s : State) (n : Nat) : State :=
  let s := (s.hi ⟨R.CPX_STAT, 6 + n, 1⟩).hi F.CPX_DBG_BROKEN_BROKEN
  let s := s.bump F.CPX_DBG_BROKEN_HALT_CNT
  let s := s.modCpu fun c => { c with
    arrived := c.arrived.filter (fun a => a.1 != n)
    haltHeld := c.haltHeld.filter (· != n)
    sitting := if c.sitting = some n then none else c.sitting }
  let s := ((s.journalModule 1 4 0 n false).activateRow 26 0).event 0x0506 n
  s.coreRegs.tryVote

/-- The halt of a core waits: its copy runs, or no journal slot is free (R376, R441). -/
def haltWaits (s : State) (n : Nat) : Bool :=
  (s.copying && s.cores.sitting == some n) || decide (2048 ≤ s.unmirrored)

/-- Held halts that can take effect do. -/
def haltRelease (s : State) : State :=
  s.each s.cores.haltHeld fun s n => if s.haltWaits n then s else s.haltCore n

/-! ## The pacer (R361, R364, R377, R429) -/

/-- The pacer reaches P_k: at every DIV-th servo tick counted from the entry to RUN, at that tick's own instant, unless it
comes too close, and after 1,000 µs with no other instant. -/
def pacerDue (s : State) : Bool :=
  let gap := s.now - s.cores.lastP
  if s.running s.srcAxis then
    let div := max 1 (s.cores.cfgUsed.toNat / 256 % 256)
    (s.cores.ticks != 0 && s.cores.ticks % div == 0 && (s.mot s.srcAxis).tickAt == s.now && decide (50000 ≤ gap))
      || decide (1000000 ≤ gap)
  else decide (max 50 (min 1000 (s.cores.cfgUsed.toNat / 65536)) * 1000 ≤ gap)

/-- Bytes of a captured input in the batch: an entry's own size and its payload (R364). -/
def entrySize (e : RepEntry) : Nat :=
  Config.entryOverhead + (match e.inp with
    | .desc _ => 64
    | .chainFrame bs => bs.length
    | .canRx _ _ o _ => o.data.length
    | _ => 0)

/-- The entries that fit into 60 KiB, and those that stay queued. -/
def splitBatch : Nat → List RepEntry → List RepEntry × List RepEntry
  | _, [] => ([], [])
  | room, e :: es =>
    if entrySize e ≤ room then
      let r := splitBatch (room - entrySize e) es
      (e :: r.1, r.2)
    else ([], e :: es)

/-- A stream captures its items at the first instant at or after each multiple of PERIOD (R429). -/
def captureTlm (s : State) (k : Nat) : State :=
  let per := s.rd (F.HIF_TLM_CFG_PERIOD k) * 50000
  let x := s.str k
  if !s.commOn || !s.bit (F.HIF_TLM_CFG_EN k) || per == 0 || decide (s.now < x.cfgAt + x.nextMul * per) then s
  else
    let r := (List.range (s.rd (F.HIF_TLM_CFG_NVAL k))).foldl (fun (r : List (BitVec 32) × State) i =>
      let v := r.2.readReg 1 (r.2.rd ⟨R.HIF_TLM_ITEM k i, 0, 24⟩)
      (r.1 ++ [v.1], v.2)) ([], s)
    let s := r.2
    s.modStr k fun x => { x with cap := some (s.ct, s.rd (F.HIF_TLM_VF_VALID_FOR k), r.1), nextMul := (s.now - x.cfgAt) / per + 1 }

/-- P_k: the replicator delivers the batch to the present cores. -/
def instant (s : State) : State :=
  let s := s.modCpu fun c => { c with
    instants := c.instants + 1, lastP := s.now,
    cfgUsed := c.cfgNext.getD c.cfgUsed, cfgNext := none }
  let s := s.capture (.pacer s.cores.instants)
  if s.copying then s
  else if s.rd F.CPX_STAT_VOTE = 2 then s.missed []
  else
    let b := splitBatch 61440 s.cores.repQ
    let s := s.modCpu fun c => { c with
      repQ := b.2, unacted := c.unacted ++ c.batch, batch := b.1, rdVals := [], rdCnt := [], arrived := [], voted := false }
    (s.captureTlm 0).captureTlm 1

end State

/-! ## Commands -/

/-- R361, R362: the pacer reaches P_k. An interval whose present cores have not all arrived is voted first. -/
def execCheckpointInstant (t : Nat) (s : State) : Host.Outcome State Fault Refusal :=
  let s := s.upTo t
  .next (if !s.coresRun || !s.pacerDue then s
  else
    let s := if s.cores.voted || s.copying || s.rd F.CPX_STAT_VOTE == 2 then s else s.vote3
    s.haltRelease.instant.coreRegs)

/-- R360, R362, R363, R372: a core ends its interval. An output that its memory protection refuses has never reached the
buffer; the vote falls with the last present core. -/
def execCheckpointPortWrite (t : Nat) (core : Fin 3) (outs : List CoreOut) (pc : Word) (s : State)
    (work : CoreWork := {}) : Host.Outcome State Fault Refusal :=
  let s := s.upTo t
  .next (if !s.atWork core then s
  else
    let outs := outs.filter fun o => s.pmpAllows core true o.addr
    let s := s.coreWorks core pc work
    if 16384 < outs.length * Config.outputBytes then
      (s.hi F.CPX_STAT_RD_OVF).modCpu fun c => { c with stalled := c.stalled ++ [core.val] }
    else
      let a : Arrival := ⟨outs, BitVec.ofNat 32 (crc32c (s.sigBytes core))⟩
      (s.modCpu fun c => { c with arrived := c.arrived ++ [(core.val, a)] }).tryVote)

/-- R360, R365, R372: a core's load. Local SRAM, the input queue and the boot ROM are read directly; a replicated read is
performed once, and the others get the held value. What memory protection refuses never leaves the core. -/
def execReplicatedRead (t : Nat) (core : Fin 3) (addr : Word) (s : State) : Host.Outcome State Fault Refusal :=
  let s := s.upTo t
  let x := addr.toNat
  let sram := decide (0x20000000 ≤ x) && decide (x < 0x20100000)
  let bar := decide (0x40000000 ≤ x) && decide (x < 0x40120000)
  .next (if !s.atWork core || !s.pmpAllows core false x then s
  else if x < 0x40000 then s.emit (.read x (Config.romWord x))
  else if 0x10000000 ≤ x ∧ x < 0x10080000 then s.emit (.read x (memWord (s.localSram core) ((x - 0x10000000) / 4 * 4)))
  else if 0x50000000 ≤ x ∧ x < 0x50010000 then s.emit (.read x (Config.queueWord s.cores.instants (x - 0x50000000)))
  else if !(sram || bar) then s
  else
    let n := kvGet (fun _ => 0) s.cores.rdCnt core
    if 1024 ≤ n then (s.hi F.CPX_STAT_RD_OVF).modCpu fun c => { c with stalled := c.stalled ++ [core.val] }
    else
      let s := s.modCpu fun c => { c with rdCnt := kvSet (fun _ => 0) c.rdCnt core (n + 1) }
      match s.cores.rdVals[n]? with
      | some v => s.emit (.read x v)
      | none =>
        let r := if sram then (memWord s.sram ((x - 0x20000000) / 4 * 4), s) else s.readReg 1 (x - 0x40000000)
        (r.2.modCpu fun c => { c with rdVals := c.rdVals ++ [r.1] }).emit (.read x r.1))

/-- R368, R376: the copy completes; held halts take effect. -/
def execResyncComplete (t : Nat) (s : State) : Host.Outcome State Fault Refusal :=
  let s := s.upTo t
  .next (match s.cores.sitting with
  | none => s
  | some n =>
    if !s.cpuOn || !s.copying then s
    else
      let from_ := (s.voters.head?).getD 0
      let a := s.arch from_
      let m := s.localSram from_
      let s := (s.modCore n (fun _ => a) fun _ => m).modCpu fun c => { c with
        sitting := none, stalled := c.stalled.filter (· != n) }
      let s := ((s.lo F.CPX_STAT_RESYNC).event 0x0502 n).coreRegs
      s.haltRelease)

/-- R373: the reading core stalls at once. -/
def execLocalSramEccError (t : Nat) (core : Fin 3) (s : State) : Host.Outcome State Fault Refusal :=
  let s := s.upTo t
  .next (if s.atWork core then s.modCpu fun c => { c with stalled := c.stalled ++ [core.val] } else s)

/-- R374, R376, R401: the debug module halts a core, where its scope grants it. -/
def execDebugHalt (t : Nat) (core : Fin 3) (s : State) : Host.Outcome State Fault Refusal :=
  let s := s.upTo t
  .next (if !s.cpuOn || !s.bit F.SEC_DBG_STAT_HALT || s.fenced core || s.halted core then s
  else if s.haltWaits core then
    s.modCpu fun c => { c with haltHeld := c.haltHeld.filter (· != core.val) ++ [core.val] }
  else s.haltCore core)

/-- R375: the halted core resumes, and is a minority at the next checkpoint. -/
def execDebugResume (t : Nat) (core : Fin 3) (s : State) : Host.Outcome State Fault Refusal :=
  let s := s.upTo t
  .next (if !s.cpuOn || !s.halted core then s
  else
    let s := (s.lo ⟨R.CPX_STAT, 6 + core, 1⟩).modCpu fun c => { c with
      resumed := c.resumed.filter (· != core.val) ++ [core.val], stalled := c.stalled ++ [core.val] }
    s.coreRegs)

end Sys2Proof.Machine
end

