-- ==== Sys2Proof/Machine/Housekeeping.lean ====
section
/-!
DEFINITION. Housekeeping (R532 to R545): the round of 48 slots, the sensors' judgement of one another, the reactions, and
the brake coil. A round is one step: every slot of it is converted, then judged.
-/

namespace Sys2Proof.Machine

/-! ## The natural logarithm in units of 2^-80 -/

/-- Terms of atanh by its series: z^(2i+1) / (2i+1), `n` of them. -/
def atanhTerms (z2 : Nat) : Nat → Nat → Nat → Nat
  | 0, _, _ => 0
  | n + 1, i, pow => pow / (2 * i + 1) + atanhTerms z2 n (i + 1) (pow * z2 / 2 ^ 80)

def atanhFx (z : Nat) : Nat := atanhTerms (z * z / 2 ^ 80) 48 0 z

/-- ln(a / b) for a ≥ b > 0. -/
def lnUp (a b : Nat) : Nat :=
  let k := Nat.log2 (a / b)
  let c := b * 2 ^ k
  2 * atanhFx ((a - c) * 2 ^ 80 / (a + c)) + k * (2 * atanhFx (2 ^ 80 / 3))

def lnFx (a b : Nat) : Int := if b ≤ a then (lnUp a b : Int) else -(lnUp b a : Int)

/-! ## Conversion (R533, R534) -/

/-- The beta model: temperature in 1/16 °C for a code, R25 in 100 Ω and B in K; none where the formula has no value. -/
def ntcTemp (code r25 b : Nat) : Option Int :=
  if code = 0 ∨ 4096 ≤ code ∨ r25 = 0 ∨ b = 0 then none
  else
    let inv : Int := ((2 ^ 80 * 100 / 29815 : Nat) : Int) + (lnFx (100 * code) ((4096 - code) * r25)).fdiv b
    if inv ≤ 0 then none
    else
      let v := roundDiv (((160 * 2 ^ 80 : Nat) : Int) - 43704 * inv) (10 * inv.toNat)
      if v = satS 16 v then some v else none

/-- OPEN or SHORT (R534). -/
def ntcBroken (code : Nat) : Bool := decide (4080 ≤ code) || decide (code ≤ 40)

/-- A local supply's divider times 4, and its warning window in mV (R533). -/
def supplySlot (n : Nat) : Nat × Int × Int :=
  match n with
  | 0 => (10, 2600, 65535)
  | 1 => (10, 3135, 3465)
  | 2 | 8 => (5, 1710, 1890)
  | 3 | 4 | 5 | 6 => (4, 760, 840)
  | _ => (80, 18000, 32000)

/-- The median of a list, doubled: of an even number, the sum of the middle two. -/
def median2 (l : List Int) : Int :=
  let v := l.insertionSort (· ≤ ·)
  v.getD ((v.length - 1) / 2) 0 + v.getD (v.length / 2) 0

/-- The two comparison channels of a channel (R535). -/
def compChannels (n : Nat) : Nat × Nat :=
  let e := n / 6 * 6
  if n = e then (n + 1, n + 2) else if n = e + 5 then (n - 1, n - 2) else (n - 1, n + 1)

/-- A local supply in mV (R533); above 32,767 the 16 bits of VALUE do not hold it (log entry 113). -/
def supplyMv (locals : List Int) (slot : Nat) : Int :=
  looseDiv 63 ((min 4095 (locals.getD slot 0).toNat * 1800 * (supplySlot slot).1 : Nat) : Int) 16384

namespace State

def modHkp (s : State) (f : Housekeeping → Housekeeping) : State := { s with hkp := f s.hkp }

/-- A latched condition: a sensor's failure, or a warning that stands. -/
def holds (s : State) (key : Nat) : Bool := s.hkp.held.contains key
def hold (s : State) (key : Nat) : State := s.modHkp fun h => { h with held := h.held.filter (· != key) ++ [key] }
def drop (s : State) (key : Nat) : State :=
  s.modHkp fun h => { h with held := h.held.filter (· != key), runs := kvSet (fun _ => 0) h.runs key 0 }

/-- Counts a condition's consecutive rounds; true from the third on. -/
def thrice (s : State) (key : Nat) (b : Bool) : Bool × State :=
  let n : Nat := if b then min 3 (kvGet (fun _ => 0) s.hkp.runs key + 1) else 0
  (n == 3, s.modHkp fun h => { h with runs := kvSet (fun _ => 0) h.runs key n })

/-! Keys: failures of local slots 100 + s, channel dies 200 + n, TS inputs 220 + n, the converter 250; supplies 300 + slot;
die warnings 400 + s and 420 + s, too few sensors 440; channel warnings 500, 520 and 540 + n; NTC warnings 560 + k; the
rounds of NTC3's two slots 600 to 602. -/

/-- A sensor is declared failed: its FAIL bit, event 0x1002, and its warnings end (R535, R541). -/
def declare (s : State) (key slot : Nat) (warns : List Nat) : State :=
  if s.holds key then s
  else
    let s := (s.hold key).each warns drop
    s.event 0x1002 slot

/-- A failure condition in this round. -/
def failStep (s : State) (key slot : Nat) (b : Bool) (warns : List Nat) : State :=
  let r := s.thrice key b
  r.2.cond r.1 fun s => s.declare key slot warns

/-- Once per entry into a condition (R539). -/
def supplyStep (s : State) (slot : Nat) (judged bad : Bool) : State :=
  let key := 300 + slot
  if !judged then s
  else if !bad then s.drop key
  else if s.holds key then s
  else (s.hold key).event 0x1001 slot

/-- A temperature against its limit: three rounds before it acts, cleared 5 °C below (R538). -/
def warnStep (s : State) (key slot code : Nat) (valid : Bool) (v : Int) (deg : Nat) (act : State → State) : State :=
  let lim : Int := 16 * (deg : Int)
  if !valid then s.drop key
  else if s.holds key then (if v ≤ lim - 80 then s.drop key else s)
  else
    let r := s.thrice key (decide (lim ≤ v))
    r.2.cond r.1 fun s => act ((s.hold key).event code slot)

/-- The firmware acts as on SET_MODE HOLD; in HOLD nothing follows (R538, R541). -/
def hotHold (s : State) : State :=
  if s.cores.fwRuns && s.cpuOn && s.awake then s.activateFor 2 (s.axes.filter fun a => s.axMode a != 5) else s

/-! ## Values -/

/-- Stores a local slot's value; VALID and FAIL follow after the judgement. -/
def putVal (s : State) (slot : Nat) (v : Int) : State := s.wr (F.HKP_VAL_VALUE slot) (wrapN 16 v)

def val (s : State) (slot : Nat) : Int := signed 16 (s.rd (F.HKP_VAL_VALUE slot))

/-- A temperature of the beta model, a free value where it has none. -/
def ntc (s : State) (code r25 b : Nat) : Int × State :=
  match ntcTemp code r25 b with
  | some v => (v, s)
  | none =>
    let k := s.nextFree
    (signed 16 (Config.freeNat k.1), k.2)

/-- A local NTC slot and its HKP_NTC index (R533). -/
def ntcOf (slot : Nat) : Nat := if slot = 15 ∨ slot = 23 then 3 else slot - 16

/-- Converts one local slot (R533). -/
def convert (s : State) (locals : List Int) (slot : Nat) : State :=
  let x := locals.getD slot 0
  let code := min 4095 x.toNat
  if 9 ≤ slot ∧ slot ≤ 14 then s.putVal slot x
  else if slot = 15 ∨ slot = 16 ∨ slot = 17 ∨ slot = 18 ∨ slot = 23 then
    let k := ntcOf slot
    let r := s.ntc code (s.rd (F.HKP_NTC_R25 k)) (s.rd (F.HKP_NTC_B k))
    r.2.putVal slot r.1
  else if slot = 19 then s.putVal slot (looseDiv 62 ((code * 18 * s.rd F.HKP_BRK_BRK_GAIN : Nat) : Int) 4096)
  else if 20 ≤ slot then s.putVal slot (looseDiv 63 ((code * 1800 : Nat) : Int) 4096)
  else
    let v := supplyMv locals slot
    if v = satS 16 v then s.putVal slot v
    else
      let k := s.nextFree
      k.2.putVal slot (signed 16 (Config.freeNat k.1))

/-- A channel that is judged and compared with (R535). -/
def chLinked (s : State) (n : Nat) : Bool := (s.ch n).st != .noLink && !s.unused n

def chVpos (s : State) (n : Nat) : Int := signed 16 (s.rd (F.HKP_GATE_VPOS n))
def chVneg (s : State) (n : Nat) : Int := signed 16 (s.rd (F.HKP_GATE_VNEG n))
def chDie (s : State) (n : Nat) : Int := signed 16 (s.rd (F.HKP_CTEMP_DIE n))
def chTs (s : State) (n : Nat) : Int := signed 16 (s.rd (F.HKP_CTEMP_TS n))

/-- Takes a channel's report; one without a link keeps its last (R541). -/
def takeReport (s : State) (n : Nat) (c : ChanReport) : State :=
  if !s.chLinked n then s
  else
    let s := (s.wr (F.HKP_GATE_VPOS n) (wrapN 16 c.vpos)).wr (F.HKP_GATE_VNEG n) (wrapN 16 c.vneg)
    let r := s.ntc (min 4095 c.ts) (s.rd F.HKP_TS_R25) (s.rd F.HKP_TS_B)
    (r.2.wr (F.HKP_CTEMP_DIE n) (wrapN 16 c.die)).wr (F.HKP_CTEMP_TS n) (wrapN 16 r.1)

/-! ## Judgement (R535 to R537) -/

def slotOk (s : State) (slot : Nat) : Bool := !s.holds (100 + slot)

/-- A die sensor against the median of the other valid ones. -/
def judgeDie (s : State) (slot : Nat) : State :=
  let others := ([9, 10, 11, 12, 13, 14].filter fun x => x != slot && s.slotOk x).map s.val
  let far := decide (3 ≤ others.length) && decide (640 < (2 * s.val slot - median2 others).natAbs)
  s.failStep (100 + slot) slot far [400 + slot, 420 + slot]

/-- A channel's die sensor against its comparison channels (log entry 45 where one alone is usable). -/
def judgeChannel (s : State) (n : Nat) : State :=
  let sp := s.rd F.HKP_TLIM_CH_SPREAD
  let p := compChannels n
  let far (x : Nat) : Bool := decide (16 * sp < (s.chDie n - s.chDie x).natAbs)
  let bad := match s.chLinked p.1, s.chLinked p.2 with
    | true, true => far p.1 && far p.2 && decide ((s.chDie p.1 - s.chDie p.2).natAbs ≤ 8 * sp)
    | true, false => far p.1
    | false, true => far p.2
    | false, false => false
  s.failStep (200 + n) (25 + 2 * n) (s.chLinked n && bad) [500 + n]

/-- The reference slots lie within 20 codes of 0, 2,048 and 3,641 (R537). -/
def refsOk (codes : List Int) : Bool :=
  let near (slot : Nat) (x : Int) : Bool := decide ((codes.getD slot 0 - x).natAbs ≤ 20)
  near 20 0 && near 21 2048 && near 22 3641

/-- Warnings that rest on a local slot. -/
def localWarns (slot : Nat) : List Nat :=
  [300 + slot, 400 + slot, 420 + slot] ++ (if 16 ≤ slot ∧ slot ≤ 18 then [560 + (slot - 16)] else [])

/-- The converter itself: every local slot fails with it, NTC3 among them. -/
def judgeConverter (s : State) (codes : List Int) : State :=
  let r := s.thrice 250 (!refsOk codes)
  if r.1 && !s.bit F.HKP_STAT_ADC then
    (r.2.hi F.HKP_STAT_ADC).each (List.range 24) fun s slot => s.declare (100 + slot) slot (localWarns slot)
  else r.2

/-- The external NTC inputs, but for those declared unused (R49, R535). -/
def judgeNtcs (s : State) (codes : List Int) (chans : List ChanReport) : State :=
  let broken (slot : Nat) : Bool := ntcBroken (codes.getD slot 0).toNat
  let s := s.each ([16, 17, 18].filter fun slot => !Config.ntcUnused (slot - 16)) fun s slot =>
    s.failStep (100 + slot) slot (broken slot) (localWarns slot)
  let b15 := s.thrice 600 (broken 15)
  let b23 := b15.2.thrice 601 (broken 23)
  let apart := b23.2.thrice 602 (decide (32 < (s.val 15 - s.val 23).natAbs))
  let s := apart.2.cond (b15.1 || b23.1 || apart.1) fun s => s.declare 115 15 []
  let s := s.cond (s.holds 115 && !s.holds 123) fun s => s.hold 123
  s.each (List.range 12) fun s n =>
    s.failStep (220 + n) (25 + 2 * n)
      (s.chLinked n && !Config.tsUnused n && ntcBroken ((chans.getD n ⟨0, 0, 0, 0⟩).ts)) [520 + n, 540 + n]

/-- NTC3 and the write ban (R526, R536). -/
def ntc3Ban (s : State) : State :=
  let all (f : Int → Bool) : Bool := f (s.val 15) && f (s.val 23)
  let failed := s.holds 115
  let inside := !failed && all fun v => decide (-368 ≤ v) && decide (v ≤ 1488)
  let legal := !failed && all fun v => decide (-400 ≤ v) && decide (v ≤ 1520)
  let s := s.cond failed fun s => s.hi F.REC_STAT_NTC_BAD
  if !legal then (s.banEnter).lo F.HKP_STAT_NTC3_OK
  else if inside then s.modRec fun r => { r with liftFrom := some (r.liftFrom.getD s.now) }
  else s.modRec fun r => { r with liftFrom := none }

/-! ## Reactions (R538, R539, R143) -/

/-- The supplies and gate supplies against their windows. -/
def supplies (s : State) (locals : List Int) : State :=
  let s := s.each (List.range 9) fun s slot =>
    let w := supplySlot slot
    s.supplyStep slot (s.slotOk slot) (decide (supplyMv locals slot < w.2.1) || decide (w.2.2 < supplyMv locals slot))
  s.each (List.range 12) fun s n =>
    let th : Int := 9000 + 250 * ((min 44 (s.rd (F.GDC_UVLO_VPOS_TH n)) : Nat) : Int)
    let tn : Int := -1500 - 250 * ((min 30 (s.rd (F.GDC_UVLO_VNEG_TH n)) : Nat) : Int)
    let p := s.chVpos n
    let v := s.chVneg n
    s.supplyStep (24 + 2 * n) (s.chLinked n)
      (decide (p < th + 1000) || decide (25500 < p) || decide (tn - 500 < v) || decide (v < -10500))

/-- A bootstrap channel's VPOS below its refresh level asks for a refresh period. -/
def refreshLevels (s : State) : State :=
  s.each [0, 1] fun s c => s.each [0, 1, 2] fun s x =>
    let n := 6 * c + 2 * x
    let level : Nat := max (9000 + 250 * s.rd (F.PWM_REFRESH_LEVEL c)) (9500 + 250 * min 44 (s.rd (F.GDC_UVLO_VPOS_TH n)))
    s.cond (s.bootstrapLeg c x && decide (s.chVpos n < level)) fun s =>
      s.modLeg c x fun l => { l with levelDue := true }

/-- The temperatures against their limits. -/
def temperatures (s : State) : State :=
  let s := s.each [9, 10, 11, 12, 13, 14] fun s d =>
    let s := s.warnStep (400 + d) d 0x1003 (s.slotOk d) (s.val d) (s.rd F.HKP_TLIM_DIE_WARN) id
    s.warnStep (420 + d) d 0x1004 (s.slotOk d) (s.val d) (s.rd F.HKP_TLIM_DIE_CRIT) hotHold
  let few := decide (([9, 10, 11, 12, 13, 14].filter s.slotOk).length < 3)
  let r := s.thrice 440 few
  let s := r.2.cond (r.1 && !s.holds 440) fun s =>
    let k := s.nextFree
    (k.2.hold 440).event 0x1008 (Config.freeNat k.1 % 256)
  let s := s.each (List.range 12) fun s n =>
    let slot := 25 + 2 * n
    let die := s.chLinked n && !s.holds (200 + n)
    let ts := s.chLinked n && !s.holds (220 + n)
    let s := s.warnStep (500 + n) slot 0x1005 die (s.chDie n) (s.rd F.HKP_TLIM_CH_WARN) id
    let s := s.warnStep (520 + n) slot 0x1006 ts (s.chTs n) (s.rd F.HKP_TSLIM_TS_WARN) id
    s.warnStep (540 + n) slot 0x1007 ts (s.chTs n) (s.rd F.HKP_TSLIM_TS_CRIT) hotHold
  s.each [0, 1, 2] fun s k =>
    s.warnStep (560 + k) (16 + k) 0x1009 (s.slotOk (16 + k)) (s.val (16 + k)) (s.rd (F.HKP_NTC_NTC_WARN k)) id

/-- VALID, FAIL and ROUND of every slot (R542). -/
def showValid (s : State) : State :=
  let round := s.rd F.HKP_STAT_ROUND
  let s := s.each (List.range 24) fun s slot =>
    ((s.wrB (F.HKP_VAL_VALID slot) (s.slotOk slot)).wrB (F.HKP_VAL_FAIL slot) (!s.slotOk slot)).wr
      (F.HKP_VAL_ROUND slot) round
  s.each (List.range 12) fun s n =>
    let l := s.chLinked n
    (s.wrB ⟨R.HKP_CVALID, 2 * n, 1⟩ l).wrB ⟨R.HKP_CVALID, 2 * n + 1, 1⟩ (l && !s.holds (200 + n) && !s.holds (220 + n))

/-- One round (R532). -/
def hkpStep (s : State) (codes : List Int) (chans : List ChanReport) : State :=
  let s := (s.hi F.HKP_STAT_RUN).wr F.HKP_STAT_ROUND (s.rd F.HKP_STAT_ROUND + 1)
  let s := s.each (List.range 24) fun s slot => s.convert codes slot
  let s := s.each (List.range 12) fun s n => s.takeReport n (chans.getD n ⟨0, 0, 0, 0⟩)
  let s := (s.judgeConverter codes).each [9, 10, 11, 12, 13, 14] judgeDie
  let s := (s.each (List.range 12) judgeChannel).judgeNtcs codes chans
  (s.supplies codes).temperatures.ntc3Ban.refreshLevels.showValid

end State

/-- R532 to R539: a housekeeping round. -/
def execHkpRound (t : Nat) (locals : List Int) (chans : List ChanReport) (s : State) :
    Host.Outcome State Fault Refusal :=
  let s := s.upTo t
  .next (if s.anaOn && s.power.phase != .watchDown && !(s.power.phase == .rest && decide (s.mode ≤ 1)) then
    s.hkpStep locals chans
  else s)

/-- R540: BRKI is judged against the brake output, 100 ms after its last change. -/
def execBrakeCoilCheck (t : Nat) (s : State) : Host.Outcome State Fault Refusal :=
  let s := s.upTo t
  let so := s.rd F.HKP_BRK_BRK_SO
  let settled := decide (kvGet (fun _ => 0) s.saf.soAt so + 100000000 ≤ s.now)
  .next (if s.anaOn && s.safeOn && decide (so < 6) && settled && s.bit (F.HKP_VAL_VALID 19) then
    let low := decide (s.rd (F.HKP_VAL_VALUE 19) < s.rd F.HKP_BRK_BRK_MIN)
    let on := s.bit ⟨R.SAF_SO, 4 * so, 1⟩
    if on && low then s.event 0x100A 19 else if !on && !low then s.event 0x100B 19 else s
  else s)

end Sys2Proof.Machine
end

