-- ==== Sys2Proof/Machine/Dispatch.lean ====
section
/-!
DEFINITION. The dispatch of a command to its meaning.
-/

namespace Sys2Proof.Machine

/-- The effect of a command on everything but the queue. -/
def exec (i : Instr) (s : State) : Host.Outcome State Fault Refusal :=
  match i with
  | .registerWrite t src bar2 off data be => Sys2Proof.Machine.execRegisterWrite t src bar2 off data be s
  | .splitLoRead t who bar2 off e => Sys2Proof.Machine.execSplitLoRead t who bar2 off s e
  | .updateEvent t a => Sys2Proof.Machine.execUpdateEvent t a s
  | .reload t c p => Sys2Proof.Machine.execReload t c p s
  | .reloadGuardOpen t c e => Sys2Proof.Machine.execReloadGuardOpen t c s e
  | .taskLimitReached t e => Sys2Proof.Machine.execTaskLimitReached t s e
  | .commitWord t c inGuard => Sys2Proof.Machine.execCommitWord t c inGuard s
  | .triggerPoint t c k => Sys2Proof.Machine.execTriggerPoint t c k s
  | .queuedScanStart t => Sys2Proof.Machine.execQueuedScanStart t s
  | .scanComplete t res => Sys2Proof.Machine.execScanComplete t res s
  | .tripLeak t c => Sys2Proof.Machine.execTripLeak t c s
  | .fesilTaskStart t e scrubbed => Sys2Proof.Machine.execFesilTaskStart t e s scrubbed
  | .ldi t d item e => Sys2Proof.Machine.execLdi t d item s e
  | .lds t d item e => Sys2Proof.Machine.execLds t d item s e
  | .ldc t fd m e => Sys2Proof.Machine.execLdc t fd m e s
  | .ldc4 t qd m e => Sys2Proof.Machine.execLdc4 t qd m e s
  | .stc t m fs e => Sys2Proof.Machine.execStc t m fs s e
  | .stc4 t m qs e => Sys2Proof.Machine.execStc4 t m qs s e
  | .ldx t ad m e => Sys2Proof.Machine.execLdx t ad m e s
  | .stx t m sa e => Sys2Proof.Machine.execStx t m sa s e
  | .movi t d imm e => Sys2Proof.Machine.execMovi t d imm s e
  | .mov t d r e => Sys2Proof.Machine.execMov t d r s e
  | .fadd t fd fa fb e => Sys2Proof.Machine.execFadd t fd fa fb s e
  | .fsub t fd fa fb e => Sys2Proof.Machine.execFsub t fd fa fb s e
  | .fmul t fd fa fb e => Sys2Proof.Machine.execFmul t fd fa fb s e
  | .fmac t fd fa fb e => Sys2Proof.Machine.execFmac t fd fa fb s e
  | .fmsu t fd fa fb e => Sys2Proof.Machine.execFmsu t fd fa fb s e
  | .fneg t fd fs e => Sys2Proof.Machine.execFneg t fd fs s e
  | .fabs t fd fs e => Sys2Proof.Machine.execFabs t fd fs s e
  | .fmin t fd fa fb e => Sys2Proof.Machine.execFmin t fd fa fb s e
  | .fmax t fd fa fb e => Sys2Proof.Machine.execFmax t fd fa fb s e
  | .fclmp t fd fs fl e => Sys2Proof.Machine.execFclmp t fd fs fl s e
  | .fdot t fd qa qb e => Sys2Proof.Machine.execFdot t fd qa qb s e
  | .frcp t fd fs e => Sys2Proof.Machine.execFrcp t fd fs s e
  | .frsq t fd fs e => Sys2Proof.Machine.execFrsq t fd fs s e
  | .fsqrt t fd fs e => Sys2Proof.Machine.execFsqrt t fd fs s e
  | .fdiv t fd fa fb e => Sys2Proof.Machine.execFdiv t fd fa fb s e
  | .cvqf t fd sa fk e => Sys2Proof.Machine.execCvqf t fd sa fk s e
  | .cvfq t ad fs fk e => Sys2Proof.Machine.execCvfq t ad fs fk s e
  | .cvaf t fd sa e => Sys2Proof.Machine.execCvaf t fd sa s e
  | .cvfa t ad fs e => Sys2Proof.Machine.execCvfa t ad fs s e
  | .cvif t fd sa e => Sys2Proof.Machine.execCvif t fd sa s e
  | .cvfi t ad fs e => Sys2Proof.Machine.execCvfi t ad fs s e
  | .iadd t ad aa ab e => Sys2Proof.Machine.execIadd t ad aa ab s e
  | .isub t ad aa ab e => Sys2Proof.Machine.execIsub t ad aa ab s e
  | .iand t ad aa ab e => Sys2Proof.Machine.execIand t ad aa ab s e
  | .ior t ad aa ab e => Sys2Proof.Machine.execIor t ad aa ab s e
  | .ixor t ad aa ab e => Sys2Proof.Machine.execIxor t ad aa ab s e
  | .ish t ad aa sh e => Sys2Proof.Machine.execIsh t ad aa sh s e
  | .sincos t fd sa e => Sys2Proof.Machine.execSincos t fd sa s e
  | .clarke t fd qs e => Sys2Proof.Machine.execClarke t fd qs s e
  | .park t fd fs fc e => Sys2Proof.Machine.execPark t fd fs fc s e
  | .ipark t fd fs fc e => Sys2Proof.Machine.execIpark t fd fs fc s e
  | .svm t qd fs fv e => Sys2Proof.Machine.execSvm t qd fs fv s e
  | .cmpq t qs e => Sys2Proof.Machine.execCmpq t qs s e
  | .stper t sa e => Sys2Proof.Machine.execStper t sa s e
  | .sttrg t j sa e => Sys2Proof.Machine.execSttrg t j sa s e
  | .pic t fd fr fm ff fl slot e => Sys2Proof.Machine.execPic t fd fr fm ff fl slot e s
  | .biq t fd fs coef st e => Sys2Proof.Machine.execBiq t fd fs coef st e s
  | .fcmp t fa fb e => Sys2Proof.Machine.execFcmp t fa fb s e
  | .icmp t aa ab e => Sys2Proof.Machine.execIcmp t aa ab s e
  | .br t c label e => Sys2Proof.Machine.execBr t c label s e
  | .jmp t label e => Sys2Proof.Machine.execJmp t label s e
  | .commit t e => Sys2Proof.Machine.execCommit t s e
  | .trc t e => Sys2Proof.Machine.execTrc t s e
  | .evt t c sa e => Sys2Proof.Machine.execEvt t c sa s e
  | .endProgram t e => Sys2Proof.Machine.execEndProgram t s e
  | .coastTimeout t a => Sys2Proof.Machine.execCoastTimeout t a s
  | .pub t a => Sys2Proof.Machine.execPub t a s
  | .swap t a => Sys2Proof.Machine.execSwap t a s
  | .run t v => Sys2Proof.Machine.execRun t v s
  | .programCheckDone t e => Sys2Proof.Machine.execProgramCheckDone t s e
  | .memWindowAccess t w e => Sys2Proof.Machine.execMemWindowAccess t w e s
  | .maxClr t a => Sys2Proof.Machine.execMaxClr t a s
  | .traceCfgArm t w => Sys2Proof.Machine.execTraceCfgArm t w s
  | .traceForce t => Sys2Proof.Machine.execTraceForce t s
  | .fslCtlSatClear t => Sys2Proof.Machine.execFslCtlSatClear t s
  | .fslOvrSatClear t miss a => Sys2Proof.Machine.execFslOvrSatClear t miss a s
  | .delayLineCalibration t span => Sys2Proof.Machine.execDelayLineCalibration t span s
  | .syncLost t c err => Sys2Proof.Machine.execSyncLost t c err s
  | .syncInputEdge t c => Sys2Proof.Machine.execSyncInputEdge t c s
  | .syncEdgeMissing t c => Sys2Proof.Machine.execSyncEdgeMissing t c s
  | .pwmLdiscSatClear t c => Sys2Proof.Machine.execPwmLdiscSatClear t c s
  | .resetNAssert t => Sys2Proof.Machine.execResetNAssert t s
  | .resetNRelease t wake boot => Sys2Proof.Machine.execResetNRelease t wake boot s
  | .wakePinRequest t pin => Sys2Proof.Machine.execWakePinRequest t pin s
  | .railInWindow t rail => Sys2Proof.Machine.execRailInWindow t rail s
  | .thawAbort t => Sys2Proof.Machine.execThawAbort t s
  | .railFallen t en => Sys2Proof.Machine.execRailFallen t en s
  | .aoPowerOn t => Sys2Proof.Machine.execAoPowerOn t s
  | .aoBrownOut t => Sys2Proof.Machine.execAoBrownOut t s
  | .domainLost t d => Sys2Proof.Machine.execDomainLost t d s
  | .pllLock t b boot => Sys2Proof.Machine.execPllLock t b boot s
  | .pllLossOfLock t b => Sys2Proof.Machine.execPllLossOfLock t b s
  | .xtalFail t => Sys2Proof.Machine.execXtalFail t s
  | .refChangeoverDone t => Sys2Proof.Machine.execRefChangeoverDone t s
  | .heldStartRelease t a => Sys2Proof.Machine.execHeldStartRelease t a s
  | .startTimeout t a => Sys2Proof.Machine.execStartTimeout t a s
  | .alarmExpire t => Sys2Proof.Machine.execAlarmExpire t s
  | .ctKeeperTick t => Sys2Proof.Machine.execCtKeeperTick t s
  | .shutdownBistDone t pass => Sys2Proof.Machine.execShutdownBistDone t pass s
  | .lossSatClear t => Sys2Proof.Machine.execLossSatClear t s
  | .enaFall t b => Sys2Proof.Machine.execEnaFall t b s
  | .enaRise t b => Sys2Proof.Machine.execEnaRise t b s
  | .channelLinkUp t n posOk negOk => Sys2Proof.Machine.execChannelLinkUp t n posOk negOk s
  | .configExchangeDone t n ok => Sys2Proof.Machine.execConfigExchangeDone t n ok s
  | .configReadback t n copy => Sys2Proof.Machine.execConfigReadback t n copy s
  | .linkTimeout t n => Sys2Proof.Machine.execLinkTimeout t n s
  | .supplyCollapse t n => Sys2Proof.Machine.execSupplyCollapse t n s
  | .uvloEntry t n pos neg => Sys2Proof.Machine.execUvloEntry t n pos neg s
  | .uvloRelease t n => Sys2Proof.Machine.execUvloRelease t n s
  | .channelOverTemp t n => Sys2Proof.Machine.execChannelOverTemp t n s
  | .channelTempOk t n => Sys2Proof.Machine.execChannelTempOk t n s
  | .gateEdge t n e => Sys2Proof.Machine.execGateEdge t n e s
  | .profilePhaseEnd t n => Sys2Proof.Machine.execProfilePhaseEnd t n s
  | .blankingEnd t n => Sys2Proof.Machine.execBlankingEnd t n s
  | .desaturation t n => Sys2Proof.Machine.execDesaturation t n s
  | .hardShort t n => Sys2Proof.Machine.execHardShort t n s
  | .softOffEnd t n => Sys2Proof.Machine.execSoftOffEnd t n s
  | .onStateSample t n code => Sys2Proof.Machine.execOnStateSample t n code s
  | .scFaultReport t n => Sys2Proof.Machine.execScFaultReport t n s
  | .finalStateDecision t a => Sys2Proof.Machine.execFinalStateDecision t a s
  | .diagStart t mask test => Sys2Proof.Machine.execDiagStart t mask test s
  | .diagComplete t meas => Sys2Proof.Machine.execDiagComplete t meas s
  | .diagAbort t => Sys2Proof.Machine.execDiagAbort t s
  | .gdcCntSatClear t n => Sys2Proof.Machine.execGdcCntSatClear t n s
  | .guardRound t a res => Sys2Proof.Machine.execGuardRound t a res s
  | .internalCheck t res => Sys2Proof.Machine.execInternalCheck t res s
  | .crossCheck t a b c => Sys2Proof.Machine.execCrossCheck t a b c s
  | .backgroundCorrection t g idle est res => Sys2Proof.Machine.execBackgroundCorrection t g idle est res s
  | .calStarveTimeout t g => Sys2Proof.Machine.execCalStarveTimeout t g s
  | .sliceSilence t g => Sys2Proof.Machine.execSliceSilence t g s
  | .castlingInstant t => Sys2Proof.Machine.execCastlingInstant t s
  | .castlingForce t => Sys2Proof.Machine.execCastlingForce t s
  | .tdacStart t groups inputs => Sys2Proof.Machine.execTdacStart t groups inputs s
  | .tdacComplete t res => Sys2Proof.Machine.execTdacComplete t res s
  | .tdacAbort t => Sys2Proof.Machine.execTdacAbort t s
  | .adcCntSatClear t g => Sys2Proof.Machine.execAdcCntSatClear t g s
  | .adcNomajSatClear t a => Sys2Proof.Machine.execAdcNomajSatClear t a s
  | .resolverSample t a sin cos neg discarded => Sys2Proof.Machine.execResolverSample t a sin cos neg discarded s
  | .encoderEdge t a la lb ts => Sys2Proof.Machine.execEncoderEdge t a la lb ts s
  | .hallTransition t a pat ts => Sys2Proof.Machine.execHallTransition t a pat ts s
  | .hallBadTimeout t a => Sys2Proof.Machine.execHallBadTimeout t a s
  | .toothEdge t a lb ts => Sys2Proof.Machine.execToothEdge t a lb ts s
  | .indexPulse t a ts => Sys2Proof.Machine.execIndexPulse t a s ts
  | .edgeTimeout t a => Sys2Proof.Machine.execEdgeTimeout t a s
  | .positionFrame t a ok => Sys2Proof.Machine.execPositionFrame t a ok s
  | .positionFrameTimeout t a => Sys2Proof.Machine.execPositionFrameTimeout t a s
  | .compareHit t a => Sys2Proof.Machine.execCompareHit t a s
  | .posCntSatClear t a => Sys2Proof.Machine.execPosCntSatClear t a s
  | .rearm t a => Sys2Proof.Machine.execRearm t a s
  | .catchEnd t a pvSpd pvE => Sys2Proof.Machine.execCatchEnd t a pvSpd pvE s
  | .ifTimeout t a => Sys2Proof.Machine.execIfTimeout t a s
  | .uzodarEmfCompute t a u v w => Sys2Proof.Machine.execUzodarEmfCompute t a u v w s
  | .servoTick t a => Sys2Proof.Machine.execServoTick t a s
  | .go t a table => Sys2Proof.Machine.execGo t a table s
  | .halt t a table => Sys2Proof.Machine.execHalt t a table s
  | .prearmSend t a => Sys2Proof.Machine.execPrearmSend t a s
  | .prearmReceive t a up dirUp => Sys2Proof.Machine.execPrearmReceive t a up dirUp s
  | .takerReadySend t a pathOk => Sys2Proof.Machine.execTakerReadySend t a pathOk s
  | .readyReceive t a sig => Sys2Proof.Machine.execReadyReceive t a sig s
  | .stateReceive t a up mt spd cur tFirst => Sys2Proof.Machine.execStateReceive t a up mt spd cur tFirst s
  | .echoReceive t a mt flags tFirst => Sys2Proof.Machine.execEchoReceive t a mt s flags tFirst
  | .releaseReceive t a cur => Sys2Proof.Machine.execReleaseReceive t a cur s
  | .abortReceive t a reason => Sys2Proof.Machine.execAbortReceive t a reason s
  | .stateFrameLoss t a => Sys2Proof.Machine.execStateFrameLoss t a s
  | .idleTimeout t => Sys2Proof.Machine.execIdleTimeout t s
  | .motHovSatClear t a => Sys2Proof.Machine.execMotHovSatClear t a s
  | .stoDemand t a b held => Sys2Proof.Machine.execStoDemand t a b s held
  | .stoRelease t => Sys2Proof.Machine.execStoRelease t s
  | .stoDiscrepancy t => Sys2Proof.Machine.execStoDiscrepancy t s
  | .safeStateRowActivate t k a => Sys2Proof.Machine.execSafeStateRowActivate t k a s
  | .ss1End t a zero => Sys2Proof.Machine.execSs1End t a zero s
  | .brakeStepEnd t a => Sys2Proof.Machine.execBrakeStepEnd t a s
  | .ascExitTimer t a => Sys2Proof.Machine.execAscExitTimer t a s
  | .torqueMonitorEval t a => Sys2Proof.Machine.execTorqueMonitorEval t a s
  | .limpWarning t a => Sys2Proof.Machine.execLimpWarning t a s
  | .limpTimeout t a => Sys2Proof.Machine.execLimpTimeout t a s
  | .limpSpeedTimeout t a => Sys2Proof.Machine.execLimpSpeedTimeout t a s
  | .testPulse t n hs pad => Sys2Proof.Machine.execTestPulse t n hs pad s
  | .soShortTimeout t n => Sys2Proof.Machine.execSoShortTimeout t n s
  | .brakeTestPhaseEnd t => Sys2Proof.Machine.execBrakeTestPhaseEnd t s
  | .brakeTestDue t a => Sys2Proof.Machine.execBrakeTestDue t a s
  | .prechargeReached t => Sys2Proof.Machine.execPrechargeReached t s
  | .prechargeCo1Open t => Sys2Proof.Machine.execPrechargeCo1Open t s
  | .prechargeTimeout t => Sys2Proof.Machine.execPrechargeTimeout t s
  | .contactorFeedbackFault t n shown => Sys2Proof.Machine.execContactorFeedbackFault t n shown s
  | .dischargeStart t => Sys2Proof.Machine.execDischargeStart t s
  | .dischargeEnd t => Sys2Proof.Machine.execDischargeEnd t s
  | .dischargeTimeout t => Sys2Proof.Machine.execDischargeTimeout t s
  | .shadowCompare t => Sys2Proof.Machine.execShadowCompare t s
  | .uzodarSelfTest t pass => Sys2Proof.Machine.execUzodarSelfTest t pass s
  | .selfTestOverdue t => Sys2Proof.Machine.execSelfTestOverdue t s
  | .laneFault t => Sys2Proof.Machine.execLaneFault t s
  | .safFirstRearm t => Sys2Proof.Machine.execSafFirstRearm t s
  | .checkpointInstant t => Sys2Proof.Machine.execCheckpointInstant t s
  | .checkpointPortWrite t core outs pc work => Sys2Proof.Machine.execCheckpointPortWrite t core outs pc s work
  | .replicatedRead t core addr => Sys2Proof.Machine.execReplicatedRead t core addr s
  | .resyncComplete t => Sys2Proof.Machine.execResyncComplete t s
  | .localSramEccError t core => Sys2Proof.Machine.execLocalSramEccError t core s
  | .restart t split => Sys2Proof.Machine.execRestart t split s
  | .debugHalt t core => Sys2Proof.Machine.execDebugHalt t core s
  | .debugResume t core => Sys2Proof.Machine.execDebugResume t core s
  | .cpxMinSatClear t => Sys2Proof.Machine.execCpxMinSatClear t s
  | .recoveryGo t boot => Sys2Proof.Machine.execRecoveryGo t boot s
  | .debugChallengeRead t => Sys2Proof.Machine.execDebugChallengeRead t s
  | .debugResponse t bytes split => Sys2Proof.Machine.execDebugResponse t bytes split s
  | .boundaryScanInstruction t ins => Sys2Proof.Machine.execBoundaryScanInstruction t ins s
  | .doorbell t r idx => Sys2Proof.Machine.execDoorbell t r idx s
  | .ringEnable t r data => Sys2Proof.Machine.execRingEnable t r data s
  | .descriptorFetch t r bytes => Sys2Proof.Machine.execDescriptorFetch t r bytes s
  | .nop t r => Sys2Proof.Machine.execNop t r s
  | .queryState t r => Sys2Proof.Machine.execQueryState t r s
  | .setMode t r so => Sys2Proof.Machine.execSetMode t r so s
  | .arm t r path => Sys2Proof.Machine.execArm t r path s
  | .start t r => Sys2Proof.Machine.execStart t r s
  | .stop t r => Sys2Proof.Machine.execStop t r s
  | .setTorque t r => Sys2Proof.Machine.execSetTorque t r s
  | .setSpeed t r => Sys2Proof.Machine.execSetSpeed t r s
  | .loadProfileParams t r => Sys2Proof.Machine.execLoadProfileParams t r s
  | .loadProfileTable t r => Sys2Proof.Machine.execLoadProfileTable t r s
  | .loadProfileControl t r => Sys2Proof.Machine.execLoadProfileControl t r s
  | .setLimits t r => Sys2Proof.Machine.execSetLimits t r s
  | .brakeTest t r => Sys2Proof.Machine.execBrakeTest t r s
  | .discharge t r => Sys2Proof.Machine.execDischarge t r s
  | .handoverPolicy t r => Sys2Proof.Machine.execHandoverPolicy t r s
  | .traceArm t r => Sys2Proof.Machine.execTraceArm t r s
  | .traceRead t r bads fixed => Sys2Proof.Machine.execTraceRead t r s bads fixed
  | .journalQuery t r => Sys2Proof.Machine.execJournalQuery t r s
  | .recRead t r => Sys2Proof.Machine.execRecRead t r s
  | .recMark t r => Sys2Proof.Machine.execRecMark t r s
  | .fwStage t r => Sys2Proof.Machine.execFwStage t r s
  | .fwCommitActivate t r => Sys2Proof.Machine.execFwCommitActivate t r s
  | .fwCommitAdvance t r => Sys2Proof.Machine.execFwCommitAdvance t r s
  | .attest t r => Sys2Proof.Machine.execAttest t r s
  | .attestComplete t => Sys2Proof.Machine.execAttestComplete t s
  | .chainSend t r => Sys2Proof.Machine.execChainSend t r s
  | .canConfigure t r => Sys2Proof.Machine.execCanConfigure t r s
  | .canTransmit t r => Sys2Proof.Machine.execCanTransmit t r s
  | .canRead t r => Sys2Proof.Machine.execCanRead t r s
  | .canDisable t r => Sys2Proof.Machine.execCanDisable t r s
  | .canAbort t r onBus => Sys2Proof.Machine.execCanAbort t r onBus s
  | .canStart t r => Sys2Proof.Machine.execCanStart t r s
  | .canStop t r onBus => Sys2Proof.Machine.execCanStop t r s onBus
  | .canRecover t r => Sys2Proof.Machine.execCanRecover t r s
  | .tlmConfig t r => Sys2Proof.Machine.execTlmConfig t r s
  | .dataMoverDone t data => Sys2Proof.Machine.execDataMoverDone t data s
  | .tlmHeartbeat t k => Sys2Proof.Machine.execTlmHeartbeat t k s
  | .eventBacklogWrite t => Sys2Proof.Machine.execEventBacklogWrite t s
  | .irqHoldExpire t v => Sys2Proof.Machine.execIrqHoldExpire t v s
  | .hostWatchdogExpire t => Sys2Proof.Machine.execHostWatchdogExpire t s
  | .hotReset t => Sys2Proof.Machine.execHotReset t s
  | .linkLoss t perst => Sys2Proof.Machine.execLinkLoss t perst s
  | .dmaError t r => Sys2Proof.Machine.execDmaError t r s
  | .hifRcntSatClear t r => Sys2Proof.Machine.execHifRcntSatClear t r s
  | .mirrorBatchWrite t => Sys2Proof.Machine.execMirrorBatchWrite t s
  | .journalApertureRead t who slot => Sys2Proof.Machine.execJournalApertureRead t who slot s
  | .journalHeadRead t who => Sys2Proof.Machine.execJournalHeadRead t who s
  | .jrnCntSatClear t => Sys2Proof.Machine.execJrnCntSatClear t s
  | .chainLinkUp t p => Sys2Proof.Machine.execChainLinkUp t p s
  | .chainLinkDown t p errs => Sys2Proof.Machine.execChainLinkDown t p errs s
  | .chainFrameReceive t p bytes ended => Sys2Proof.Machine.execChainFrameReceive t p bytes ended s
  | .frameForward t p => Sys2Proof.Machine.execFrameForward t p s
  | .memRd t src payload => Sys2Proof.Machine.execMemRd t src payload s
  | .memWr t src payload => Sys2Proof.Machine.execMemWr t src payload s
  | .breakReceive t bnd down healed => Sys2Proof.Machine.execBreakReceive t bnd down healed s
  | .wakeFrame t p bytes ended => Sys2Proof.Machine.execWakeFrame t p bytes ended s
  | .chainSendTimeout t => Sys2Proof.Machine.execChainSendTimeout t s
  | .timeSyncSend t p => Sys2Proof.Machine.execTimeSyncSend t p s
  | .timeSyncReceive t p ct hops frac lag ok => Sys2Proof.Machine.execTimeSyncReceive t p ct hops frac lag ok s
  | .dlyReqReceive t p seq => Sys2Proof.Machine.execDlyReqReceive t p seq s
  | .dlyRspReceive t p seq t4 ok => Sys2Proof.Machine.execDlyRspReceive t p seq t4 ok s
  | .timeSourceTimeout t => Sys2Proof.Machine.execTimeSourceTimeout t s
  | .holdoverTimeout t => Sys2Proof.Machine.execHoldoverTimeout t s
  | .creditReceive t p freed compl => Sys2Proof.Machine.execCreditReceive t p freed compl s
  | .creditRefresh t p => Sys2Proof.Machine.execCreditRefresh t p s
  | .linkctlReceive t p code => Sys2Proof.Machine.execLinkctlReceive t p code s
  | .partnerChangeTimeout t p => Sys2Proof.Machine.execPartnerChangeTimeout t p s
  | .portJoin t => Sys2Proof.Machine.execPortJoin t s
  | .repeatLoss t p => Sys2Proof.Machine.execRepeatLoss t p s
  | .roll t => Sys2Proof.Machine.execRoll t s
  | .rollReceive t p count ok => Sys2Proof.Machine.execRollReceive t p count ok s
  | .rollTimeout t => Sys2Proof.Machine.execRollTimeout t s
  | .addressTakeEffect t => Sys2Proof.Machine.execAddressTakeEffect t s
  | .chnErrSatClear t p => Sys2Proof.Machine.execChnErrSatClear t p s
  | .chnDropSatClear t => Sys2Proof.Machine.execChnDropSatClear t s
  | .canFrameReceive t n f sof err => Sys2Proof.Machine.execCanFrameReceive t n f sof err s
  | .canTransmitEnd t n obj e sof esi delay tec => Sys2Proof.Machine.execCanTransmitEnd t n obj e sof esi delay tec s
  | .canTxTimeout t n obj => Sys2Proof.Machine.execCanTxTimeout t n obj s
  | .canBusError t n lec dataPhase tec err => Sys2Proof.Machine.execCanBusError t n lec dataPhase tec err s
  | .canIntegrated t n => Sys2Proof.Machine.execCanIntegrated t n s
  | .canRecoveryDone t n => Sys2Proof.Machine.execCanRecoveryDone t n s
  | .canTsWrap t => Sys2Proof.Machine.execCanTsWrap t s
  | .snap t => Sys2Proof.Machine.execSnap t s
  | .canCntSatClear t n => Sys2Proof.Machine.execCanCntSatClear t n s
  | .pageProgramDone t ok split => Sys2Proof.Machine.execPageProgramDone t ok s split
  | .flushTimeout t => Sys2Proof.Machine.execFlushTimeout t s
  | .flush t => Sys2Proof.Machine.execFlush t s
  | .format t bad => Sys2Proof.Machine.execFormat t bad s
  | .scrubRead t worst crc => Sys2Proof.Machine.execScrubRead t worst s crc
  | .wearLevelMove t => Sys2Proof.Machine.execWearLevelMove t s
  | .writeBanLift t => Sys2Proof.Machine.execWriteBanLift t s
  | .recCntSatClear t => Sys2Proof.Machine.execRecCntSatClear t s
  | .hkpRound t locals chans => Sys2Proof.Machine.execHkpRound t locals chans s
  | .brakeCoilCheck t => Sys2Proof.Machine.execBrakeCoilCheck t s
  | .coreTimeout t => Sys2Proof.Machine.execCoreTimeout t s
  | .xtal25Stable t => Sys2Proof.Machine.execXtal25Stable t s
  | .x32CrystalFail t => Sys2Proof.Machine.execX32CrystalFail t s
  | .repeaterResume t p => Sys2Proof.Machine.execRepeaterResume t p s
  | .dchCoolExpire t => Sys2Proof.Machine.execDchCoolExpire t s
  | .traceTriggerInput t rising => Sys2Proof.Machine.execTraceTriggerInput t rising s
  | .blockEraseDone t b ok => Sys2Proof.Machine.execBlockEraseDone t b ok s
  | .pcieLinkUp t cfg => Sys2Proof.Machine.execPcieLinkUp t s cfg
  | .bootComplete t => Sys2Proof.Machine.execBootComplete t s

end Sys2Proof.Machine
end

