-- ==== Sys2Proof/Machine/Step.lean ====
section
/-!
DEFINITION. The queue of waiting commands and the step that takes the first of them.
-/

namespace Sys2Proof.Machine

/-- One step: the command at the front of the queue acts on the module with the rest of the queue; with an empty queue the
block idles (log entry 6). -/
def step (s : State) : Host.Outcome State Fault Refusal :=
  match s.pending with
  | [] => .next s
  | c :: rest => exec c { s with pending := rest }

namespace State

/-- The command that a word spells goes to the front of the queue; a word that spells none changes nothing. -/
def withFetchWord (s : State) (nbits w : Nat) : State :=
  match decodeTableWord nbits w with
  | some c => { s with pending := c :: s.pending }
  | none => s

end State

end Sys2Proof.Machine
end

