-- ==== Sys2Proof/Machine/Pads.lean ====
section
/-!
DEFINITION. What every pad and channel pin carries in a state (R33, R34, R39 to R42, R44, R48, R116, R399): the levels
the module drives, its pulls and biases, and high impedance where a pad's domain has no power.
-/

namespace Sys2Proof.Machine

/-- What a pad carries. -/
inductive PadLevel where
  /-- High impedance, no pull. -/
  | floats
  /-- An input with its internal pull, or biased inside. -/
  | pullUp | pullDown | bias
  /-- An input without a pull. -/
  | input
  | low | high
  /-- Resolver excitation. -/
  | sine (mV hz : Nat)
  /-- A chain transmitter at rest, or sending characters. -/
  | idle | sending
  /-- Driven from the boundary-scan chain. -/
  | scanned
  deriving DecidableEq, Repr

/-- The pads of R39 to R41 that the module defines beyond a bus standard; numbers as in the pad names. -/
inductive PadName where
  | ain (g i : Nat) | exc (a : Nat) | ntc (n : Nat) | brki
  | perstN | chTx (p : Nat) | chRx (p : Nat) | canTx (n : Nat) | canRx (n : Nat) | canWake (n : Nat) | canStb (n : Nat)
  | xspiCk | xspiDs | xspiDq (n : Nat) | xspiCs (n : Nat) | xspiRstN
  | posIn (a n : Nat) | gpio (n : Nat) | tck | tms | tdi | tdo | trstN
  | sto (n : Nat) | soHs (n : Nat) | soLs (n : Nat) | co (n : Nat) | fb (n : Nat) | dch | ena (n : Nat)
  | pwrEn (n : Nat) | wakeN | faultN | resetN
  deriving DecidableEq, Repr

/-- What a pin of a channel group carries (R33, R34). -/
inductive GatePin where
  | floats
  /-- GON_n to VPOS_n. -/
  | source
  /-- GOFF_n, or CLAMP_n, to VNEG_n. -/
  | sink
  /-- Weak current of a profiled edge. -/
  | regulated
  /-- The normally-on switch to COM_n. -/
  | com
  /-- DS_n with its sense current, CLAMP_n with the gate test's; TS_n with its bias. -/
  | sensed
  deriving DecidableEq, Repr

namespace State

/-! ## The safety switches (R41, R344) -/

/-- The switch that a test pulse in progress moves. -/
def pulsed (s : State) (n : Nat) (hs : Bool) : Bool :=
  s.saf.soPulse.any fun p => p.1 == n && p.2.1 == hs && decide (s.now < p.2.2)

/-- SOn_HS, or SOn_LS, is closed: as the output is commanded, but for the switch a test pulse moves. -/
def soClosed (s : State) (n : Nat) (hs : Bool) : Bool := s.bit ⟨R.SAF_SO, 4 * n, 1⟩ != s.pulsed n hs

/-- A load between the two switches is energised only while both are closed (R41). -/
def soLoad (s : State) (n : Nat) : Bool := s.power.io && s.soClosed n true && s.soClosed n false

/-! ## Pads -/

/-- COMM has power: its logic works, or a reset or a logic BIST holds it (R45, R77). -/
def commPower (s : State) : Bool :=
  s.commOn || (s.power.vcore && (s.power.resetLow || s.power.phase == .held || s.power.phase == .bist))

/-- The domain of a pad has power (R39 to R41). -/
def padPower (s : State) : PadName → Bool
  | .ain .. | .exc _ | .ntc _ | .brki => s.power.vana
  | .chTx _ | .chRx _ => s.commPower || s.power.comm == .retention
  | .xspiCk | .xspiDs | .xspiDq _ | .xspiCs _ | .xspiRstN => s.commPower
  | .canWake _ | .canStb _ | .pwrEn _ | .wakeN | .faultN | .resetN => s.power.ao
  | .perstN | .canTx _ | .canRx _ | .posIn .. | .gpio _ | .tck | .tms | .tdi | .tdo | .trstN | .sto _ | .soHs _ | .soLs _
  | .co _ | .fb _ | .dch | .ena _ => s.power.io

def level (b : Bool) : PadLevel := if b then .high else .low

/-- A closed switch of a safety output pulls its pad to its own rail; an open one leaves it to the load. -/
def soLevel (closed : Bool) (rail : PadLevel) : PadLevel := if closed then rail else .floats

/-- The pad has a cell that the boundary-scan chain may drive: no pad of Uzodar and no analogue or AO pad (R399). -/
def scanDrives : PadName → Bool
  | .canTx _ | .gpio _ | .xspiCk | .xspiDq _ | .xspiCs _ | .xspiRstN => true
  | _ => false

/-- A GPIO pad whose dedicated function is an output drives it, low between its pulses, once the configuration that selects
it is loaded (R40, R48). -/
def gpioOut (s : State) (n : Nat) : Bool := s.bit F.BLK_CTL_LOCK && Config.gpioDedicated n && (n == 0 || n == 1 || n == 3 || n == 5)

/-- The boot ROM has released XSPI_RST_N (R40, R386): COMM works, and the boot has begun or is past. -/
def flashFree (s : State) : Bool :=
  s.commOn && (s.bit F.REC_STAT_MOUNTED || s.power.phase == .boot || s.power.phase == .rest)

/-- What a powered pad carries. -/
def padDrive (s : State) : PadName → PadLevel
  | .ain .. | .ntc _ => .bias
  | .exc a =>
    if (if a = 0 then s.pins.exc0 else s.pins.exc1) then .sine (s.excAmp a) (500000000 / s.excHalf a) else .floats
  | .brki => .floats
  | .perstN | .posIn .. | .ena _ | .xspiDs | .xspiDq _ | .tck | .trstN => .pullDown
  | .canRx _ | .canWake _ | .tms | .tdi | .wakeN | .resetN => .pullUp
  | .chTx p => if s.rd (F.CHN_PORT_STATE p) = 0 then .idle else .sending
  | .chRx _ | .sto _ | .fb _ => .input
  | .canTx _ => .high
  | .canStb n => level (if n = 0 then s.pins.canStb0 else s.pins.canStb1)
  | .xspiCk => .low
  | .xspiCs _ => .high
  | .xspiRstN => level s.flashFree
  | .gpio n => if s.gpioOut n then .low else .pullDown
  | .tdo => if s.pins.scan = .idcode then .floats else .scanned
  | .soHs n => soLevel (s.soClosed n true) .high
  | .soLs n => soLevel (s.soClosed n false) .low
  | .co n => level (s.bit (if n = 0 then F.SAF_STAT_CO0_CMD else F.SAF_STAT_CO1_CMD))
  | .dch => level (s.bit F.SAF_STAT_DCH_ACT)
  | .pwrEn n => level (match n with
    | 0 => s.power.en0
    | 1 => s.power.en1
    | 2 => s.power.en2
    | _ => s.power.en3)
  | .faultN => if s.power.faultLow then .low else .floats

/-- What a pad carries: high impedance without its pulls while its domain has no power (R42), the chain's level or none
while an instruction that drives pads acts (R399), and otherwise what the module drives. -/
def pad (s : State) (p : PadName) : PadLevel :=
  if !s.padPower p then .floats
  else if scanDrives p then
    match s.scanActs with
    | .highz => .floats
    | .extest | .clamp => .scanned
    | _ => s.padDrive p
  else s.padDrive p

/-! ## The pins of a channel group (R33, R34, R88, R89, R91, R101) -/

/-- The strong, or the regulated, driver of the present phase. -/
def driver (s : State) (n : Nat) (strong : GatePin) : GatePin :=
  if (s.ch n).phase = .slope then .regulated else strong

/-- GON_n: connected while the switch is on. -/
def gon (s : State) (n : Nat) : GatePin :=
  if (s.ch n).supply && (s.ch n).st == .on then s.driver n .source else .floats

/-- GOFF_n: sinking whenever a supplied channel does not drive its switch on; the soft turn-off regulates it (R105), and
a diagnostic turns the gate drive off (R117). -/
def goff (s : State) (n : Nat) : GatePin :=
  if !(s.ch n).supply || (s.ch n).st == .on || (s.ch n).st == .diag then .floats
  else if (s.ch n).st = .softOff then .regulated
  else s.driver n .sink

/-- CLAMP_n: the active clamp, the current of a gate test (R117), or the unpowered hold. -/
def clampPin (s : State) (n : Nat) : GatePin :=
  if !(s.ch n).supply then .com else if (s.ch n).st == .diag && s.diag.test == 1 then .sensed else if (s.ch n).clamp then .sink else .floats

/-- DS_n: its sense current flows from the turn-on while the switch is on (R103), and while a DS test runs (R117). -/
def dsPin (s : State) (n : Nat) : GatePin :=
  let c := s.ch n
  if !c.supply then .floats
  else if c.st == .on || (c.st == .diag && s.diag.test != 1) then .sensed else .com

/-- TS_n: biased from the channel. -/
def tsPin (s : State) (n : Nat) : GatePin := if (s.ch n).supply then .sensed else .floats

end State

end Sys2Proof.Machine
end

