-- ==== Sys2Proof/WellFormed.lean ====
section
/-!
DEFINITION. Which commands can reach the module: the bounds that the spec sets on their operands and that the operands'
types do not already hold.
-/

namespace Sys2Proof

/-- A result names a group and an input that exist (R157, R163). -/
def ConvResult.wf (r : ConvResult) : Bool := decide (r.group < 3) && decide (r.input < 24)

/-- A signed 16-bit code, where there is one (R163). -/
def codeWf (c : Option Int) : Bool := c.all fun x => decide (-32768 ≤ x) && decide (x ≤ 32767)

/-- An item of LDI names an input of the groups (R256). -/
def LdiItem.wf : LdiItem → Bool
  | .inp n => decide (n < 24)
  | _ => true

/-- A memory operand is aligned to a word and lies in the coefficient and table memory (R251). -/
def MemRef.wf (m : MemRef) : Bool := m.off % 4 == 0 && decide (m.off < 0x40000)

/-- Whether a register is a float register (R241). -/
def FReg.kind : FReg → Bool
  | .f _ => true
  | .a _ => false

/-- The objects of R384 are numbered 0 to 4. -/
def BootIn.wf (b : BootIn) : Bool := b.split.all (· < 5)

/-- Bytes that a DLC stands for (R485). -/
def dlcLen (fdf : Bool) (dlc : Nat) : Nat :=
  if dlc ≤ 8 then dlc else if !fdf then 8 else [12, 16, 20, 24, 32, 48, 64].getD (dlc - 9) 64

/-- A frame carries as many bytes as its DLC says (none when it is a remote frame), and a classic identifier has 11 bits. -/
def CanFrame.wf (f : CanFrame) : Bool :=
  f.data.length == (if f.rtr then 0 else dlcLen f.fdf f.dlc.toNat) && (f.xtd || decide (f.id.toNat < 2048))

/-- The bounds of a command's operands. -/
def Instr.wf : Instr → Bool
  | .registerWrite .. => true
  | .splitLoRead .. => true
  | .updateEvent .. => true
  | .reload .. => true
  | .reloadGuardOpen .. => true
  | .taskLimitReached .. => true
  | .commitWord .. => true
  | .triggerPoint .. => true
  | .queuedScanStart .. => true
  | .scanComplete _ res => res.all ConvResult.wf
  | .tripLeak .. => true
  | .fesilTaskStart .. => true
  | .ldi _ _ item _ => item.wf
  | .lds .. => true
  | .ldc _ _ m _ => m.wf
  | .ldc4 _ _ m _ => m.wf
  | .stc _ m _ _ => m.wf
  | .stc4 _ m _ _ => m.wf
  | .ldx _ _ m _ => m.wf
  | .stx _ m _ _ => m.wf
  | .movi .. => true
  | .mov _ d r _ => d.kind == r.kind
  | .fadd .. => true
  | .fsub .. => true
  | .fmul .. => true
  | .fmac .. => true
  | .fmsu .. => true
  | .fneg .. => true
  | .fabs .. => true
  | .fmin .. => true
  | .fmax .. => true
  | .fclmp .. => true
  | .fdot .. => true
  | .frcp .. => true
  | .frsq .. => true
  | .fsqrt .. => true
  | .fdiv .. => true
  | .cvqf .. => true
  | .cvfq .. => true
  | .cvaf .. => true
  | .cvfa .. => true
  | .cvif .. => true
  | .cvfi .. => true
  | .iadd .. => true
  | .isub .. => true
  | .iand .. => true
  | .ior .. => true
  | .ixor .. => true
  | .ish _ _ _ sh _ => decide (-31 ≤ sh) && decide (sh ≤ 31)
  | .sincos .. => true
  | .clarke .. => true
  | .park .. => true
  | .ipark .. => true
  | .svm .. => true
  | .cmpq .. => true
  | .stper .. => true
  | .sttrg .. => true
  | .pic .. => true
  | .biq _ _ _ coef st _ => coef.wf && st.wf
  | .fcmp .. => true
  | .icmp .. => true
  | .br _ _ label _ => decide (label < 8192)
  | .jmp _ label _ => decide (label < 8192)
  | .commit .. => true
  | .trc .. => true
  | .evt .. => true
  | .endProgram .. => true
  | .coastTimeout .. => true
  | .pub .. => true
  | .swap .. => true
  | .run .. => true
  | .programCheckDone .. => true
  | .memWindowAccess .. => true
  | .maxClr .. => true
  | .traceCfgArm .. => true
  | .traceForce .. => true
  | .fslCtlSatClear .. => true
  | .fslOvrSatClear .. => true
  | .delayLineCalibration .. => true
  | .syncLost .. => true
  | .syncInputEdge .. => true
  | .syncEdgeMissing .. => true
  | .pwmLdiscSatClear .. => true
  | .resetNAssert .. => true
  | .resetNRelease _ _ boot => boot.wf
  | .wakePinRequest .. => true
  | .railInWindow .. => true
  | .thawAbort .. => true
  | .railFallen .. => true
  | .aoPowerOn .. => true
  | .aoBrownOut .. => true
  | .domainLost .. => true
  | .pllLock _ _ boot => boot.wf
  | .pllLossOfLock .. => true
  | .xtalFail .. => true
  | .refChangeoverDone .. => true
  | .heldStartRelease .. => true
  | .startTimeout .. => true
  | .alarmExpire .. => true
  | .ctKeeperTick .. => true
  | .shutdownBistDone .. => true
  | .lossSatClear .. => true
  | .enaFall .. => true
  | .enaRise .. => true
  | .channelLinkUp .. => true
  | .configExchangeDone .. => true
  | .configReadback _ _ copy => copy.length == 5
  | .linkTimeout .. => true
  | .supplyCollapse .. => true
  | .uvloEntry .. => true
  | .uvloRelease .. => true
  | .channelOverTemp .. => true
  | .channelTempOk .. => true
  | .gateEdge .. => true
  | .profilePhaseEnd .. => true
  | .blankingEnd .. => true
  | .desaturation .. => true
  | .hardShort .. => true
  | .softOffEnd .. => true
  | .onStateSample .. => true
  | .scFaultReport .. => true
  | .finalStateDecision .. => true
  | .diagStart .. => true
  | .diagComplete _ meas => meas.all fun m => decide (m.ch < 12)
  | .diagAbort .. => true
  | .gdcCntSatClear .. => true
  | .guardRound _ _ res => res.all ConvResult.wf
  | .internalCheck _ res => res.all ConvResult.wf
  | .crossCheck _ a b c => [a, b, c].all codeWf
  | .backgroundCorrection _ _ idle _ _ => decide (idle ≤ 100)
  | .calStarveTimeout .. => true
  | .sliceSilence .. => true
  | .castlingInstant .. => true
  | .castlingForce .. => true
  | .tdacStart .. => true
  | .tdacComplete _ res => res.all fun r => decide (r.group < 3) && decide (r.input < 17)
  | .tdacAbort .. => true
  | .adcCntSatClear .. => true
  | .adcNomajSatClear .. => true
  | .resolverSample _ _ sin cos _ _ => codeWf (some sin) && codeWf (some cos)
  | .encoderEdge .. => true
  | .hallTransition .. => true
  | .hallBadTimeout .. => true
  | .toothEdge .. => true
  | .indexPulse .. => true
  | .edgeTimeout .. => true
  | .positionFrame .. => true
  | .positionFrameTimeout .. => true
  | .compareHit .. => true
  | .posCntSatClear .. => true
  | .rearm .. => true
  | .catchEnd .. => true
  | .ifTimeout .. => true
  | .uzodarEmfCompute .. => true
  | .servoTick .. => true
  | .go .. => true
  | .halt .. => true
  | .prearmSend .. => true
  | .prearmReceive .. => true
  | .takerReadySend .. => true
  | .readyReceive .. => true
  | .stateReceive _ _ _ _ _ _ tFirst => decide (tFirst < 2 ^ 64)
  | .echoReceive .. => true
  | .releaseReceive .. => true
  | .abortReceive .. => true
  | .stateFrameLoss .. => true
  | .idleTimeout .. => true
  | .motHovSatClear .. => true
  | .stoDemand .. => true
  | .stoRelease .. => true
  | .stoDiscrepancy .. => true
  | .safeStateRowActivate .. => true
  | .ss1End .. => true
  | .brakeStepEnd .. => true
  | .ascExitTimer .. => true
  | .torqueMonitorEval .. => true
  | .limpWarning .. => true
  | .limpTimeout .. => true
  | .limpSpeedTimeout .. => true
  | .testPulse .. => true
  | .soShortTimeout .. => true
  | .brakeTestPhaseEnd .. => true
  | .brakeTestDue .. => true
  | .prechargeReached .. => true
  | .prechargeCo1Open .. => true
  | .prechargeTimeout .. => true
  | .contactorFeedbackFault .. => true
  | .dischargeStart .. => true
  | .dischargeEnd .. => true
  | .dischargeTimeout .. => true
  | .shadowCompare .. => true
  | .uzodarSelfTest .. => true
  | .selfTestOverdue .. => true
  | .laneFault .. => true
  | .safFirstRearm .. => true
  | .checkpointInstant .. => true
  | .checkpointPortWrite .. => true
  | .replicatedRead .. => true
  | .resyncComplete .. => true
  | .localSramEccError .. => true
  | .restart _ split => split.all (· < 5)
  | .debugHalt .. => true
  | .debugResume .. => true
  | .cpxMinSatClear .. => true
  | .recoveryGo _ boot => boot.wf
  | .debugChallengeRead .. => true
  | .debugResponse .. => true
  | .boundaryScanInstruction .. => true
  | .doorbell .. => true
  | .ringEnable .. => true
  | .descriptorFetch _ _ bytes => bytes.length == 64
  | .nop .. => true
  | .queryState .. => true
  | .setMode _ _ so => so.all (· < 6)
  | .arm .. => true
  | .start .. => true
  | .stop .. => true
  | .setTorque .. => true
  | .setSpeed .. => true
  | .loadProfileParams .. => true
  | .loadProfileTable .. => true
  | .loadProfileControl .. => true
  | .setLimits .. => true
  | .brakeTest .. => true
  | .discharge .. => true
  | .handoverPolicy .. => true
  | .traceArm .. => true
  | .traceRead .. => true
  | .journalQuery .. => true
  | .recRead .. => true
  | .recMark .. => true
  | .fwStage .. => true
  | .fwCommitActivate .. => true
  | .fwCommitAdvance .. => true
  | .attest .. => true
  | .attestComplete .. => true
  | .chainSend .. => true
  | .canConfigure .. => true
  | .canTransmit .. => true
  | .canRead .. => true
  | .canDisable .. => true
  | .canAbort .. => true
  | .canStart .. => true
  | .canStop .. => true
  | .canRecover .. => true
  | .tlmConfig .. => true
  | .dataMoverDone .. => true
  | .tlmHeartbeat .. => true
  | .eventBacklogWrite .. => true
  | .irqHoldExpire .. => true
  | .hostWatchdogExpire .. => true
  | .hotReset .. => true
  | .linkLoss .. => true
  | .dmaError .. => true
  | .hifRcntSatClear .. => true
  | .mirrorBatchWrite .. => true
  | .journalApertureRead _ _ slot => decide (slot < 1024)
  | .journalHeadRead .. => true
  | .jrnCntSatClear .. => true
  | .chainLinkUp .. => true
  | .chainLinkDown .. => true
  | .chainFrameReceive .. => true
  | .frameForward .. => true
  | .memRd _ _ payload => payload.length == 8
  | .memWr _ _ payload => decide (12 ≤ payload.length) && decide (payload.length ≤ 256)
  | .breakReceive .. => true
  | .wakeFrame .. => true
  | .chainSendTimeout .. => true
  | .timeSyncSend .. => true
  | .timeSyncReceive .. => true
  | .dlyReqReceive .. => true
  | .dlyRspReceive .. => true
  | .timeSourceTimeout .. => true
  | .holdoverTimeout .. => true
  | .creditReceive .. => true
  | .creditRefresh .. => true
  | .linkctlReceive .. => true
  | .partnerChangeTimeout .. => true
  | .portJoin .. => true
  | .repeatLoss .. => true
  | .roll .. => true
  | .rollReceive .. => true
  | .rollTimeout .. => true
  | .addressTakeEffect .. => true
  | .chnErrSatClear .. => true
  | .chnDropSatClear .. => true
  | .canFrameReceive _ _ f _ _ => f.wf
  | .canTransmitEnd .. => true
  | .canTxTimeout .. => true
  | .canBusError .. => true
  | .canIntegrated .. => true
  | .canRecoveryDone .. => true
  | .canTsWrap .. => true
  | .snap .. => true
  | .canCntSatClear .. => true
  | .pageProgramDone .. => true
  | .flushTimeout .. => true
  | .flush .. => true
  | .format .. => true
  | .scrubRead .. => true
  | .wearLevelMove .. => true
  | .writeBanLift .. => true
  | .recCntSatClear .. => true
  | .hkpRound _ locals chans => locals.length == 24 && chans.length == 12
  | .brakeCoilCheck .. => true
  | .coreTimeout .. => true
  | .xtal25Stable .. => true
  | .x32CrystalFail .. => true
  | .repeaterResume .. => true
  | .dchCoolExpire .. => true
  | .traceTriggerInput .. => true
  | .blockEraseDone .. => true
  | .pcieLinkUp .. => true
  | .bootComplete .. => true

/-- The instant of a command, in ns since AO power-on (log entry 4). -/
def Instr.time : Instr → Nat
  | .registerWrite t .. => t
  | .splitLoRead t .. => t
  | .updateEvent t .. => t
  | .reload t .. => t
  | .reloadGuardOpen t .. => t
  | .taskLimitReached t .. => t
  | .commitWord t .. => t
  | .triggerPoint t .. => t
  | .queuedScanStart t => t
  | .scanComplete t .. => t
  | .tripLeak t .. => t
  | .fesilTaskStart t .. => t
  | .ldi t .. => t
  | .lds t .. => t
  | .ldc t .. => t
  | .ldc4 t .. => t
  | .stc t .. => t
  | .stc4 t .. => t
  | .ldx t .. => t
  | .stx t .. => t
  | .movi t .. => t
  | .mov t .. => t
  | .fadd t .. => t
  | .fsub t .. => t
  | .fmul t .. => t
  | .fmac t .. => t
  | .fmsu t .. => t
  | .fneg t .. => t
  | .fabs t .. => t
  | .fmin t .. => t
  | .fmax t .. => t
  | .fclmp t .. => t
  | .fdot t .. => t
  | .frcp t .. => t
  | .frsq t .. => t
  | .fsqrt t .. => t
  | .fdiv t .. => t
  | .cvqf t .. => t
  | .cvfq t .. => t
  | .cvaf t .. => t
  | .cvfa t .. => t
  | .cvif t .. => t
  | .cvfi t .. => t
  | .iadd t .. => t
  | .isub t .. => t
  | .iand t .. => t
  | .ior t .. => t
  | .ixor t .. => t
  | .ish t .. => t
  | .sincos t .. => t
  | .clarke t .. => t
  | .park t .. => t
  | .ipark t .. => t
  | .svm t .. => t
  | .cmpq t .. => t
  | .stper t .. => t
  | .sttrg t .. => t
  | .pic t .. => t
  | .biq t .. => t
  | .fcmp t .. => t
  | .icmp t .. => t
  | .br t .. => t
  | .jmp t .. => t
  | .commit t _ => t
  | .trc t _ => t
  | .evt t .. => t
  | .endProgram t _ => t
  | .coastTimeout t .. => t
  | .pub t .. => t
  | .swap t .. => t
  | .run t .. => t
  | .programCheckDone t .. => t
  | .memWindowAccess t .. => t
  | .maxClr t .. => t
  | .traceCfgArm t .. => t
  | .traceForce t => t
  | .fslCtlSatClear t => t
  | .fslOvrSatClear t .. => t
  | .delayLineCalibration t .. => t
  | .syncLost t .. => t
  | .syncInputEdge t .. => t
  | .syncEdgeMissing t .. => t
  | .pwmLdiscSatClear t .. => t
  | .resetNAssert t => t
  | .resetNRelease t .. => t
  | .wakePinRequest t .. => t
  | .railInWindow t .. => t
  | .thawAbort t => t
  | .railFallen t .. => t
  | .aoPowerOn t => t
  | .aoBrownOut t => t
  | .domainLost t .. => t
  | .pllLock t .. => t
  | .pllLossOfLock t .. => t
  | .xtalFail t => t
  | .refChangeoverDone t => t
  | .heldStartRelease t .. => t
  | .startTimeout t .. => t
  | .alarmExpire t => t
  | .ctKeeperTick t => t
  | .shutdownBistDone t .. => t
  | .lossSatClear t => t
  | .enaFall t .. => t
  | .enaRise t .. => t
  | .channelLinkUp t .. => t
  | .configExchangeDone t .. => t
  | .configReadback t .. => t
  | .linkTimeout t .. => t
  | .supplyCollapse t .. => t
  | .uvloEntry t .. => t
  | .uvloRelease t .. => t
  | .channelOverTemp t .. => t
  | .channelTempOk t .. => t
  | .gateEdge t .. => t
  | .profilePhaseEnd t .. => t
  | .blankingEnd t .. => t
  | .desaturation t .. => t
  | .hardShort t .. => t
  | .softOffEnd t .. => t
  | .onStateSample t .. => t
  | .scFaultReport t .. => t
  | .finalStateDecision t .. => t
  | .diagStart t .. => t
  | .diagComplete t .. => t
  | .diagAbort t => t
  | .gdcCntSatClear t .. => t
  | .guardRound t .. => t
  | .internalCheck t .. => t
  | .crossCheck t .. => t
  | .backgroundCorrection t .. => t
  | .calStarveTimeout t .. => t
  | .sliceSilence t .. => t
  | .castlingInstant t => t
  | .castlingForce t => t
  | .tdacStart t .. => t
  | .tdacComplete t .. => t
  | .tdacAbort t => t
  | .adcCntSatClear t .. => t
  | .adcNomajSatClear t .. => t
  | .resolverSample t .. => t
  | .encoderEdge t .. => t
  | .hallTransition t .. => t
  | .hallBadTimeout t .. => t
  | .toothEdge t .. => t
  | .indexPulse t .. => t
  | .edgeTimeout t .. => t
  | .positionFrame t .. => t
  | .positionFrameTimeout t .. => t
  | .compareHit t .. => t
  | .posCntSatClear t .. => t
  | .rearm t .. => t
  | .catchEnd t .. => t
  | .ifTimeout t .. => t
  | .uzodarEmfCompute t .. => t
  | .servoTick t .. => t
  | .go t .. => t
  | .halt t .. => t
  | .prearmSend t .. => t
  | .prearmReceive t .. => t
  | .takerReadySend t .. => t
  | .readyReceive t .. => t
  | .stateReceive t .. => t
  | .echoReceive t .. => t
  | .releaseReceive t .. => t
  | .abortReceive t .. => t
  | .stateFrameLoss t .. => t
  | .idleTimeout t => t
  | .motHovSatClear t .. => t
  | .stoDemand t .. => t
  | .stoRelease t => t
  | .stoDiscrepancy t => t
  | .safeStateRowActivate t .. => t
  | .ss1End t .. => t
  | .brakeStepEnd t .. => t
  | .ascExitTimer t .. => t
  | .torqueMonitorEval t .. => t
  | .limpWarning t .. => t
  | .limpTimeout t .. => t
  | .limpSpeedTimeout t .. => t
  | .testPulse t .. => t
  | .soShortTimeout t .. => t
  | .brakeTestPhaseEnd t => t
  | .brakeTestDue t .. => t
  | .prechargeReached t => t
  | .prechargeCo1Open t => t
  | .prechargeTimeout t => t
  | .contactorFeedbackFault t .. => t
  | .dischargeStart t => t
  | .dischargeEnd t => t
  | .dischargeTimeout t => t
  | .shadowCompare t => t
  | .uzodarSelfTest t .. => t
  | .selfTestOverdue t => t
  | .laneFault t => t
  | .safFirstRearm t => t
  | .checkpointInstant t => t
  | .checkpointPortWrite t .. => t
  | .replicatedRead t .. => t
  | .resyncComplete t => t
  | .localSramEccError t .. => t
  | .restart t .. => t
  | .debugHalt t .. => t
  | .debugResume t .. => t
  | .cpxMinSatClear t => t
  | .recoveryGo t .. => t
  | .debugChallengeRead t => t
  | .debugResponse t .. => t
  | .boundaryScanInstruction t .. => t
  | .doorbell t .. => t
  | .ringEnable t .. => t
  | .descriptorFetch t .. => t
  | .nop t .. => t
  | .queryState t .. => t
  | .setMode t .. => t
  | .arm t .. => t
  | .start t .. => t
  | .stop t .. => t
  | .setTorque t .. => t
  | .setSpeed t .. => t
  | .loadProfileParams t .. => t
  | .loadProfileTable t .. => t
  | .loadProfileControl t .. => t
  | .setLimits t .. => t
  | .brakeTest t .. => t
  | .discharge t .. => t
  | .handoverPolicy t .. => t
  | .traceArm t .. => t
  | .traceRead t .. => t
  | .journalQuery t .. => t
  | .recRead t .. => t
  | .recMark t .. => t
  | .fwStage t .. => t
  | .fwCommitActivate t .. => t
  | .fwCommitAdvance t .. => t
  | .attest t .. => t
  | .attestComplete t => t
  | .chainSend t .. => t
  | .canConfigure t .. => t
  | .canTransmit t .. => t
  | .canRead t .. => t
  | .canDisable t .. => t
  | .canAbort t .. => t
  | .canStart t .. => t
  | .canStop t .. => t
  | .canRecover t .. => t
  | .tlmConfig t .. => t
  | .dataMoverDone t .. => t
  | .tlmHeartbeat t .. => t
  | .eventBacklogWrite t => t
  | .irqHoldExpire t .. => t
  | .hostWatchdogExpire t => t
  | .hotReset t => t
  | .linkLoss t .. => t
  | .dmaError t .. => t
  | .hifRcntSatClear t .. => t
  | .mirrorBatchWrite t => t
  | .journalApertureRead t .. => t
  | .journalHeadRead t .. => t
  | .jrnCntSatClear t => t
  | .chainLinkUp t .. => t
  | .chainLinkDown t .. => t
  | .chainFrameReceive t .. => t
  | .frameForward t .. => t
  | .memRd t .. => t
  | .memWr t .. => t
  | .breakReceive t .. => t
  | .wakeFrame t .. => t
  | .chainSendTimeout t => t
  | .timeSyncSend t .. => t
  | .timeSyncReceive t .. => t
  | .dlyReqReceive t .. => t
  | .dlyRspReceive t .. => t
  | .timeSourceTimeout t => t
  | .holdoverTimeout t => t
  | .creditReceive t .. => t
  | .creditRefresh t .. => t
  | .linkctlReceive t .. => t
  | .partnerChangeTimeout t .. => t
  | .portJoin t => t
  | .repeatLoss t .. => t
  | .roll t => t
  | .rollReceive t .. => t
  | .rollTimeout t => t
  | .addressTakeEffect t => t
  | .chnErrSatClear t .. => t
  | .chnDropSatClear t => t
  | .canFrameReceive t .. => t
  | .canTransmitEnd t .. => t
  | .canTxTimeout t .. => t
  | .canBusError t .. => t
  | .canIntegrated t .. => t
  | .canRecoveryDone t .. => t
  | .canTsWrap t => t
  | .snap t => t
  | .canCntSatClear t .. => t
  | .pageProgramDone t .. => t
  | .flushTimeout t => t
  | .flush t => t
  | .format t .. => t
  | .scrubRead t .. => t
  | .wearLevelMove t => t
  | .writeBanLift t => t
  | .recCntSatClear t => t
  | .hkpRound t .. => t
  | .brakeCoilCheck t => t
  | .coreTimeout t => t
  | .xtal25Stable t => t
  | .x32CrystalFail t => t
  | .repeaterResume t .. => t
  | .dchCoolExpire t => t
  | .traceTriggerInput t .. => t
  | .blockEraseDone t .. => t
  | .pcieLinkUp t .. => t
  | .bootComplete t => t

end Sys2Proof
end

