-- ==== Sys2Proof/Safety.lean ====
section
/-!
DEFINITION. What a sound state of the module is, and what a command changes, in the terms that the statements use.
-/

namespace Sys2Proof.Machine

/-- The register table and the shared SRAM stand in their canonical form: addresses strictly rising, nothing listed that
an unlisted address reads as. Equal contents are then equal data. -/
def State.canon (s : State) : Bool := kvWf resetVal s.regs && memWf s.sram

/-- What a command leaves as it is, or keeps in form, once it has brought the module to its instant: the queue is `q`, the
clock stands at `n`, and the stores are canonical. -/
structure Kept (q : List Instr) (n : Nat) (s : State) : Prop where
  queue : s.pending = q
  clock : s.now = n
  canon : s.canon = true

end Sys2Proof.Machine

namespace Sys2Proof.Machine.State

/-- CTL is powered and Fesil runs the task `k`, with room for `n` more cycles before its cut-off (R242, R245). -/
abbrev runsFor (u : State) (k : FTask) (n : Nat) : Prop :=
  u.fsl.task = some k ∧ k.cyc + n ≤ u.taskLimit k.axis ∧ u.ctlOn = true

/-- An instruction of `n` cycles has no effect: CTL is unpowered, no task runs, or its limit leaves no room (R242, R245). -/
abbrev noRoom (u : State) (n : Nat) : Prop :=
  u.ctlOn = false ∨ u.fsl.task = none ∨ ∃ k, u.fsl.task = some k ∧ u.taskLimit k.axis < k.cyc + n

/-- `u` once the task `k` has spent `n` cycles on one instruction and passed to the next (R251). -/
def after (u : State) (k : FTask) (n : Nat) : State :=
  u.modFsl fun x => { x with task := some { k with cyc := k.cyc + n, pc := k.pc + 1 } }

/-- `u` once what an instruction reads has been judged: a single-bit error is corrected and counted (R265). -/
def judged (u : State) (e : Ecc) : State :=
  match e with
  | .corrected => u.fslEccFixed
  | _ => u

/-- From `u` with the task `k`, an instruction of `n` cycles has written the float register `fd` with `v`, and nothing
else; where what it read was beyond correction, the task has ended in its place (R265). -/
def wroteF (u : State) (k : FTask) (n : Nat) (e : Ecc) (fd : Nat) (v : BitVec 32) (r : State) : Prop :=
  (e = .bad → r = (u.after k n).fslEccBad) ∧
  (e ≠ .bad → ∃ j : FTask,
    r = { u.judged e with fsl := { u.fsl with task := some j } } ∧ j.cyc = k.cyc + n ∧ j.pc = k.pc + 1 ∧ j.fr fd = v ∧
    (∀ i, i ≠ fd → j.fr i = k.fr i) ∧ (∀ i, j.ar i = k.ar i) ∧ j.cond = k.cond ∧ j.committed = k.committed ∧
    j.axis = k.axis ∧ j.set = k.set ∧ j.base = k.base ∧ j.start = k.start ∧ j.missed = k.missed)

/-- The same for the integer register `ad`. -/
def wroteA (u : State) (k : FTask) (n : Nat) (e : Ecc) (ad : Nat) (v : BitVec 32) (r : State) : Prop :=
  (e = .bad → r = (u.after k n).fslEccBad) ∧
  (e ≠ .bad → ∃ j : FTask,
    r = { u.judged e with fsl := { u.fsl with task := some j } } ∧ j.cyc = k.cyc + n ∧ j.pc = k.pc + 1 ∧ j.ar ad = v ∧
    (∀ i, i ≠ ad → j.ar i = k.ar i) ∧ (∀ i, j.fr i = k.fr i) ∧ j.cond = k.cond ∧ j.committed = k.committed ∧
    j.axis = k.axis ∧ j.set = k.set ∧ j.base = k.base ∧ j.start = k.start ∧ j.missed = k.missed)

/-- `r` is `u` with the register at `off` reading 0, but for the bits set in this same clock of its block (R7), and every
other register as in `u`. -/
def zeroed (u : State) (off : Nat) (r : State) : Prop :=
  r.reg off = u.reg off &&& u.justSet off ∧ (∀ o, o ≠ off → r.reg o = u.reg o) ∧ r = { u with regs := r.regs }

/-- `u` once the trigger point `k` of carrier `c` has passed in its period (R129). -/
def fire (u : State) (c k : Nat) : State := u.modCar c fun x => { x with fired := x.fired ||| 2 ^ k }

/-- The scan that this trigger point asks for (R164). -/
def scanOf (u : State) (c k : Nat) : Scan :=
  { car := c, trig := k, list := setWord (u.car c).cur (7 + k) / 2 ^ 19 % 8, at_ := u.now,
    eiw := (u.car c).edgeWin.testBit k, seq := (u.car c).vcount % 256 }

/-- The command `c`, which holds ring `r` and has not begun, can run: a checkpoint that has passed is being released (R19,
R367, R420). -/
abbrev mayRun (u : State) (r : Nat) (c : Cmd) : Prop :=
  u.runningCmd r = some c ∧ u.awake = true ∧ u.passing = true ∧ u.cores.begun.contains r = false

/-- No command of ring `r` can run: none holds the ring or it has begun, or no checkpoint is being released (R370, R420). -/
abbrev heldBack (u : State) (r : Nat) : Prop :=
  u.runningCmd r = none ∨ u.awake = false ∨ u.passing = false ∨ u.cores.begun.contains r = true

/-- A register read reaches its block: a host's while the endpoint is not in D3hot, a debugger's inside its scope (R400,
R407). -/
abbrev granted (u : State) (who block : Nat) : Prop :=
  (who == 0 && u.hif.pcie.d3hot) = false ∧ u.dbgReads who block = true

/-- The blocks of the medium that are not bad. -/
def goodBlks (u : State) : List Nat := (List.range u.med.size).filter fun b => (u.blk b).use != .bad

/-- The first block of `l` whose erase count no other beats under `lt`. -/
def pickBlk (u : State) (l : List Nat) (lt : Nat → Nat → Bool) : Option Nat := l.foldl (fun m b =>
  match m with
  | none => some b
  | some c => if lt (u.blk b).erases (u.blk c).erases then some b else some c) none

/-- The block in use, the anchors apart, with the lowest erase count, and the FREE one with the highest (R523). -/
def leastWorn (u : State) : Option Nat :=
  u.pickBlk (u.goodBlks.filter fun b => (u.blk b).use != .free && (u.blk b).use != .anchor) fun a b => decide (a < b)
def mostWornFree (u : State) : Option Nat :=
  u.pickBlk (u.goodBlks.filter fun b => (u.blk b).use == .free) fun a b => decide (b < a)

/-- The highest erase count less the lowest (R523). -/
def wearSpread (u : State) : Nat :=
  (u.goodBlks.map fun b => (u.blk b).erases).foldl max 0 -
    (u.goodBlks.map fun b => (u.blk b).erases).foldl min ((u.goodBlks.map fun b => (u.blk b).erases).foldl max 0)

end Sys2Proof.Machine.State

namespace Sys2Proof.Machine

/-- The nine value words of a TLM_CONFIG, and the enabled ones at their head (R427). -/
def Cmd.tlmItems (c : Cmd) : List (BitVec 32) := (List.range 9).map fun i => c.word (24 + 4 * i)
def Cmd.tlmUsed (c : Cmd) : List (BitVec 32) := c.tlmItems.takeWhile fun w => w.getLsbD 31

end Sys2Proof.Machine
end

