-- ==== Sys2Proof/Certificates/Slice0/Obligations.lean ====
section
/-!
DEFINITION. The statements for the provers. Each takes `u`, the state brought to the command's instant: a command's meaning
reads and changes that state, and what it leaves unchanged it leaves as in `u`. Where a clause rests on a choice of the
model's, its docstring names the log entry.
-/

open Sys2Proof Sys2Proof.Machine

/-- While Fesil runs task k with room for the instruction's cycles, each load, store and move completes. The state is that
after the instruction's cycles and pc step, with the item of the input set or of the snapshot, the coefficient word,
the immediate or the source register written where R255 and R256 say. A single-bit error in what the instruction reads
is corrected and counted first; an uncorrectable one ends the task in place of the effect (R265), which is the
operation withEcc. The instants are the model's (log entries 4 and 7). Further choices of the model: log entries 3,
27, 104. -/
def Obligations.FesilLoadsAndStores : Prop :=
  (∀ (s : State) (t : Nat) (d : Fin 64) (item : LdiItem) (e : Ecc) (k : FTask), let u := s.upTo t
    u.runsFor k 1 →
    exec (.ldi t d item e) s = .next (
    (u.after k 1).withEcc e fun v => match item with
    | .iuvw => v.setFs d (((List.range 3).map fun i => v.ampere k.axis (k.set.vals.getD i 0))
        ++ [v.volt k.axis (k.set.vals.getD 3 0)])
    | .vdc => v.setF d (v.volt k.axis (k.set.vals.getD 3 0))
    | .inp n => v.setF d (fOfInt (kvGet (fun _ => 0) k.set.ins n) (-15))
    | .istat => v.setA (d % 16) (State.istat k.set))) ∧
  (∀ (s : State) (t : Nat) (d : Fin 64) (item : LdsItem) (e : Ecc) (k : FTask), let u := s.upTo t
    u.runsFor k 1 →
    exec (.lds t d item e) s = .next (
    (u.after k 1).withEcc e fun v => match item with
    | .angle => v.setA (d % 16) (BitVec.ofNat 32 (v.pos k.axis).snap.angle)
    | .mt => v.setA (d % 16) (BitVec.ofNat 32 (v.pos k.axis).snap.mt)
    | .speed => v.setA (d % 16) (BitVec.ofNat 32 (wrapN 32 (v.pos k.axis).snap.speed))
    | .omega => v.setF d (State.omegaF (v.fc k.axis).omega)
    | .thI => v.setA (d % 16) (BitVec.ofNat 32 (v.fsa k.axis).thI)
    | .thV => v.setA (d % 16) (BitVec.ofNat 32 (v.fsa k.axis).thV)
    | .idqRef => v.setFs d [(v.fsa k.axis).idRef, (v.fsa k.axis).iqRef]
    | .istar => v.setF d (v.fsa k.axis).iStar
    | .fstat => v.setA (d % 16) (v.fstat k.axis))) ∧
  (∀ (s : State) (t : Nat) (fd : Fin 64) (m : MemRef) (e : Ecc) (k : FTask), let u := s.upTo t
    u.runsFor k 1 →
    exec (.ldc t fd m e) s = .next ((u.after k 1).withEcc e fun v => v.setF fd (v.memLoad k (v.memAddr k m)))) ∧
  (∀ (s : State) (t : Nat) (qd : Fin 16) (m : MemRef) (e : Ecc) (k : FTask), let u := s.upTo t
    u.runsFor k 1 →
    exec (.ldc4 t qd m e) s = .next ((u.after k 1).withEcc e fun v => v.setFs (4 * qd) ((List.range 4).map fun i => v.memLoad k (v.memAddr k m + 4 * i)))) ∧
  (∀ (s : State) (t : Nat) (m : MemRef) (fs : Fin 64) (e : Ecc) (k : FTask), let u := s.upTo t
    u.runsFor k 1 →
    exec (.stc t m fs e) s = .next ((u.after k 1).withEcc e fun v => v.memStore (v.memAddr k m) (k.fr fs))) ∧
  (∀ (s : State) (t : Nat) (m : MemRef) (qs : Fin 16) (e : Ecc) (k : FTask), let u := s.upTo t
    u.runsFor k 1 →
    exec (.stc4 t m qs e) s = .next ((u.after k 1).withEcc e fun v => v.each [0, 1, 2, 3] fun v i => v.memStore (v.memAddr k m + 4 * i) (k.fr (4 * qs + i)))) ∧
  (∀ (s : State) (t : Nat) (ad : Fin 16) (m : MemRef) (e : Ecc) (k : FTask), let u := s.upTo t
    u.runsFor k 1 →
    exec (.ldx t ad m e) s = .next ((u.after k 1).withEcc e fun v => v.setA ad (v.memLoad k (v.memAddr k m)))) ∧
  (∀ (s : State) (t : Nat) (m : MemRef) (sa : Fin 16) (e : Ecc) (k : FTask), let u := s.upTo t
    u.runsFor k 1 →
    exec (.stx t m sa e) s = .next ((u.after k 1).withEcc e fun v => v.memStore (v.memAddr k m) (k.ar sa))) ∧
  (∀ (s : State) (t : Nat) (d : FReg) (imm : Word) (e : Ecc) (k : FTask), let u := s.upTo t
    u.runsFor k 1 →
    exec (.movi t d imm e) s = .next (
    (u.after k 1).withEcc e fun v => match d with
    | .f n => v.setF n imm
    | .a n => v.setA n imm)) ∧
  (∀ (s : State) (t : Nat) (d : FReg) (r : FReg) (e : Ecc) (k : FTask), let u := s.upTo t
    u.runsFor k 1 →
    exec (.mov t d r e) s = .next (
    (u.after k 1).withEcc e fun v => match d, r with
    | .f n, .f j => v.setF n (k.fr j)
    | .f n, .a j => v.setF n (k.ar j)
    | .a n, .f j => v.setA n (k.fr j)
    | .a n, .a j => v.setA n (k.ar j)))

/-- While Fesil runs task k with room for the instruction's cycles, FADD, FSUB, FMUL, FMAC, FMSU, FNEG, FABS, FMIN, FMAX,
FCLMP, FDOT, FRCP, FRSQ, FSQRT and FDIV complete: the destination register holds the result of the operation of R255
on the source registers, every other float and integer register, the condition and all else of the task and of the
module stay, the cycle count grows by the instruction's cycles and the pc by 1. A corrected error in what is read
counts under R265; one beyond correction ends the task in place of the effect. The instants are the model's (log
entries 4 and 7). Further choices of the model: log entries 20, 21, 104. -/
def Obligations.FesilFloatArithmetic : Prop :=
  (∀ (s : State) (t : Nat) (fd : Fin 64) (fa : Fin 64) (fb : Fin 64) (e : Ecc) (k : FTask), let u := s.upTo t
    u.runsFor k 1 →
    ∃ r_ : State, exec (.fadd t fd fa fb e) s = .next r_ ∧
      u.wroteF k 1 e fd (fAdd (k.fr fa) (k.fr fb)) r_) ∧
  (∀ (s : State) (t : Nat) (fd : Fin 64) (fa : Fin 64) (fb : Fin 64) (e : Ecc) (k : FTask), let u := s.upTo t
    u.runsFor k 1 →
    ∃ r_ : State, exec (.fsub t fd fa fb e) s = .next r_ ∧
      u.wroteF k 1 e fd (fSub (k.fr fa) (k.fr fb)) r_) ∧
  (∀ (s : State) (t : Nat) (fd : Fin 64) (fa : Fin 64) (fb : Fin 64) (e : Ecc) (k : FTask), let u := s.upTo t
    u.runsFor k 1 →
    ∃ r_ : State, exec (.fmul t fd fa fb e) s = .next r_ ∧
      u.wroteF k 1 e fd (fMul (k.fr fa) (k.fr fb)) r_) ∧
  (∀ (s : State) (t : Nat) (fd : Fin 64) (fa : Fin 64) (fb : Fin 64) (e : Ecc) (k : FTask), let u := s.upTo t
    u.runsFor k 1 →
    ∃ r_ : State, exec (.fmac t fd fa fb e) s = .next r_ ∧
      u.wroteF k 1 e fd (fMac (k.fr fd) (k.fr fa) (k.fr fb) false) r_) ∧
  (∀ (s : State) (t : Nat) (fd : Fin 64) (fa : Fin 64) (fb : Fin 64) (e : Ecc) (k : FTask), let u := s.upTo t
    u.runsFor k 1 →
    ∃ r_ : State, exec (.fmsu t fd fa fb e) s = .next r_ ∧
      u.wroteF k 1 e fd (fMac (k.fr fd) (k.fr fa) (k.fr fb) true) r_) ∧
  (∀ (s : State) (t : Nat) (fd : Fin 64) (fs : Fin 64) (e : Ecc) (k : FTask), let u := s.upTo t
    u.runsFor k 1 →
    ∃ r_ : State, exec (.fneg t fd fs e) s = .next r_ ∧
      u.wroteF k 1 e fd (fNeg (k.fr fs)) r_) ∧
  (∀ (s : State) (t : Nat) (fd : Fin 64) (fs : Fin 64) (e : Ecc) (k : FTask), let u := s.upTo t
    u.runsFor k 1 →
    ∃ r_ : State, exec (.fabs t fd fs e) s = .next r_ ∧
      u.wroteF k 1 e fd (fAbs (k.fr fs)) r_) ∧
  (∀ (s : State) (t : Nat) (fd : Fin 64) (fa : Fin 64) (fb : Fin 64) (e : Ecc) (k : FTask), let u := s.upTo t
    u.runsFor k 1 →
    ∃ r_ : State, exec (.fmin t fd fa fb e) s = .next r_ ∧
      u.wroteF k 1 e fd (fMin (k.fr fa) (k.fr fb)) r_) ∧
  (∀ (s : State) (t : Nat) (fd : Fin 64) (fa : Fin 64) (fb : Fin 64) (e : Ecc) (k : FTask), let u := s.upTo t
    u.runsFor k 1 →
    ∃ r_ : State, exec (.fmax t fd fa fb e) s = .next r_ ∧
      u.wroteF k 1 e fd (fMax (k.fr fa) (k.fr fb)) r_) ∧
  (∀ (s : State) (t : Nat) (fd : Fin 64) (fs : Fin 64) (fl : Fin 64) (e : Ecc) (k : FTask), let u := s.upTo t
    u.runsFor k 1 →
    ∃ r_ : State, exec (.fclmp t fd fs fl e) s = .next r_ ∧
      u.wroteF k 1 e fd (fClamp (k.fr fs) (k.fr fl)) r_) ∧
  (∀ (s : State) (t : Nat) (fd : Fin 64) (qa : Fin 16) (qb : Fin 16) (e : Ecc) (k : FTask), let u := s.upTo t
    u.runsFor k 2 →
    ∃ r_ : State, exec (.fdot t fd qa qb e) s = .next r_ ∧
      u.wroteF k 2 e fd (fSum4 (fMul (k.fr (4 * qa)) (k.fr (4 * qb))) (fMul (k.fr (4 * qa + 1)) (k.fr (4 * qb + 1)))
    (fMul (k.fr (4 * qa + 2)) (k.fr (4 * qb + 2))) (fMul (k.fr (4 * qa + 3)) (k.fr (4 * qb + 3)))) r_) ∧
  (∀ (s : State) (t : Nat) (fd : Fin 64) (fs : Fin 64) (e : Ecc) (k : FTask), let u := s.upTo t
    u.runsFor k 4 →
    ∃ r_ : State, exec (.frcp t fd fs e) s = .next r_ ∧
      u.wroteF k 4 e fd (fRcp (k.fr fs)) r_) ∧
  (∀ (s : State) (t : Nat) (fd : Fin 64) (fs : Fin 64) (e : Ecc) (k : FTask), let u := s.upTo t
    u.runsFor k 4 →
    ∃ r_ : State, exec (.frsq t fd fs e) s = .next r_ ∧
      u.wroteF k 4 e fd (fRsq (k.fr fs)) r_) ∧
  (∀ (s : State) (t : Nat) (fd : Fin 64) (fs : Fin 64) (e : Ecc) (k : FTask), let u := s.upTo t
    u.runsFor k 5 →
    ∃ r_ : State, exec (.fsqrt t fd fs e) s = .next r_ ∧
      u.wroteF k 5 e fd (fSqrt (k.fr fs)) r_) ∧
  (∀ (s : State) (t : Nat) (fd : Fin 64) (fa : Fin 64) (fb : Fin 64) (e : Ecc) (k : FTask), let u := s.upTo t
    u.runsFor k 8 →
    ∃ r_ : State, exec (.fdiv t fd fa fb e) s = .next r_ ∧
      u.wroteF k 8 e fd (fDiv (k.fr fa) (k.fr fb)) r_)

/-- While Fesil runs task k with room for a cycle, CVQF, CVAF and CVIF write a float register and CVFQ, CVFA, CVFI, IADD,
ISUB, IAND, IOR, IXOR and ISH an integer register with the result of R255 on the sources. Every other register, the
condition and all else of the task and the module stay; one cycle and one step of the pc are counted. A corrected
error in what is read counts under R265; one beyond correction ends the task in place of the effect. The instants are
the model's (log entries 4 and 7). Further choices of the model: log entries 21, 104. -/
def Obligations.FesilConversionsAndIntegers : Prop :=
  (∀ (s : State) (t : Nat) (fd : Fin 64) (sa : Fin 16) (fk : Fin 64) (e : Ecc) (k : FTask), let u := s.upTo t
    u.runsFor k 1 →
    ∃ r_ : State, exec (.cvqf t fd sa fk e) s = .next r_ ∧
      u.wroteF k 1 e fd (fMul (fOfInt (signed 16 (k.ar sa).toNat) (-15)) (k.fr fk)) r_) ∧
  (∀ (s : State) (t : Nat) (fd : Fin 64) (sa : Fin 16) (e : Ecc) (k : FTask), let u := s.upTo t
    u.runsFor k 1 →
    ∃ r_ : State, exec (.cvaf t fd sa e) s = .next r_ ∧
      u.wroteF k 1 e fd (fOfInt ((k.ar sa).toNat % 65536 : Nat) (-16)) r_) ∧
  (∀ (s : State) (t : Nat) (fd : Fin 64) (sa : Fin 16) (e : Ecc) (k : FTask), let u := s.upTo t
    u.runsFor k 1 →
    ∃ r_ : State, exec (.cvif t fd sa e) s = .next r_ ∧
      u.wroteF k 1 e fd (fOfInt (signed 32 (k.ar sa).toNat) 0) r_) ∧
  (∀ (s : State) (t : Nat) (ad : Fin 16) (fs : Fin 64) (fk : Fin 64) (e : Ecc) (k : FTask), let u := s.upTo t
    u.runsFor k 1 →
    ∃ r_ : State, exec (.cvfq t ad fs fk e) s = .next r_ ∧
      u.wroteA k 1 e ad (BitVec.ofNat 32 (wrapN 32 (satS 16 (fNearest (fDiv (k.fr fs) (k.fr fk)) 15 (2 ^ 40))))) r_) ∧
  (∀ (s : State) (t : Nat) (ad : Fin 16) (fs : Fin 64) (e : Ecc) (k : FTask), let u := s.upTo t
    u.runsFor k 1 →
    ∃ r_ : State, exec (.cvfa t ad fs e) s = .next r_ ∧
      u.wroteA k 1 e ad (fAngle (k.fr fs)) r_) ∧
  (∀ (s : State) (t : Nat) (ad : Fin 16) (fs : Fin 64) (e : Ecc) (k : FTask), let u := s.upTo t
    u.runsFor k 1 →
    ∃ r_ : State, exec (.cvfi t ad fs e) s = .next r_ ∧
      u.wroteA k 1 e ad (BitVec.ofNat 32 (wrapN 32 (satS 32 (fTrunc (k.fr fs) (2 ^ 40))))) r_) ∧
  (∀ (s : State) (t : Nat) (ad : Fin 16) (aa : Fin 16) (ab : Fin 16) (e : Ecc) (k : FTask), let u := s.upTo t
    u.runsFor k 1 →
    ∃ r_ : State, exec (.iadd t ad aa ab e) s = .next r_ ∧
      u.wroteA k 1 e ad (k.ar aa + k.ar ab) r_) ∧
  (∀ (s : State) (t : Nat) (ad : Fin 16) (aa : Fin 16) (ab : Fin 16) (e : Ecc) (k : FTask), let u := s.upTo t
    u.runsFor k 1 →
    ∃ r_ : State, exec (.isub t ad aa ab e) s = .next r_ ∧
      u.wroteA k 1 e ad (k.ar aa - k.ar ab) r_) ∧
  (∀ (s : State) (t : Nat) (ad : Fin 16) (aa : Fin 16) (ab : Fin 16) (e : Ecc) (k : FTask), let u := s.upTo t
    u.runsFor k 1 →
    ∃ r_ : State, exec (.iand t ad aa ab e) s = .next r_ ∧
      u.wroteA k 1 e ad (k.ar aa &&& k.ar ab) r_) ∧
  (∀ (s : State) (t : Nat) (ad : Fin 16) (aa : Fin 16) (ab : Fin 16) (e : Ecc) (k : FTask), let u := s.upTo t
    u.runsFor k 1 →
    ∃ r_ : State, exec (.ior t ad aa ab e) s = .next r_ ∧
      u.wroteA k 1 e ad (k.ar aa ||| k.ar ab) r_) ∧
  (∀ (s : State) (t : Nat) (ad : Fin 16) (aa : Fin 16) (ab : Fin 16) (e : Ecc) (k : FTask), let u := s.upTo t
    u.runsFor k 1 →
    ∃ r_ : State, exec (.ixor t ad aa ab e) s = .next r_ ∧
      u.wroteA k 1 e ad (k.ar aa ^^^ k.ar ab) r_) ∧
  (∀ (s : State) (t : Nat) (ad : Fin 16) (aa : Fin 16) (sh : Int) (e : Ecc) (k : FTask), let u := s.upTo t
    u.runsFor k 1 →
    ∃ r_ : State, exec (.ish t ad aa sh e) s = .next r_ ∧
      u.wroteA k 1 e ad (if 0 ≤ sh then k.ar aa <<< sh.toNat else (k.ar aa).sshiftRight (-sh).toNat) r_)

/-- While Fesil runs task k with room for the instruction's cycles, the transforms write their two or three results to
consecutive float registers, SVM the three duties of R260, CMPQ stages the compare words of finite duties under R261
and ends the program on a NaN or infinite one, STPER and STTRG stage the period and a trigger word, PIC runs one slot
of R257 and BIQ one biquad. The instants are the model's (log entries 4 and 7). Further choices of the model: log
entries 22, 104. -/
def Obligations.FesilControlInstructions : Prop :=
  (∀ (s : State) (t : Nat) (fd : Fin 64) (sa : Fin 16) (e : Ecc) (k : FTask), let u := s.upTo t
    u.runsFor k 3 →
    exec (.sincos t fd sa e) s = .next ((u.after k 3).withEcc e fun v => v.setFs fd [(fSinCos ((k.ar sa).toNat % 65536)).1, (fSinCos ((k.ar sa).toNat % 65536)).2])) ∧
  (∀ (s : State) (t : Nat) (fd : Fin 64) (qs : Fin 16) (e : Ecc) (k : FTask), let u := s.upTo t
    u.runsFor k 2 →
    exec (.clarke t fd qs e) s = .next ((u.after k 2).withEcc e fun v => v.setFs fd (State.clarke (k.fr (4 * qs)) (k.fr (4 * qs + 1)) (k.fr (4 * qs + 2))))) ∧
  (∀ (s : State) (t : Nat) (fd : Fin 64) (fs : Fin 64) (fc : Fin 64) (e : Ecc) (k : FTask), let u := s.upTo t
    u.runsFor k 2 →
    exec (.park t fd fs fc e) s = .next ((u.after k 2).withEcc e fun v => v.setFs fd (State.park (k.fr fs) (k.fr (fs + 1)) (k.fr fc) (k.fr (fc + 1))))) ∧
  (∀ (s : State) (t : Nat) (fd : Fin 64) (fs : Fin 64) (fc : Fin 64) (e : Ecc) (k : FTask), let u := s.upTo t
    u.runsFor k 2 →
    exec (.ipark t fd fs fc e) s = .next ((u.after k 2).withEcc e fun v => v.setFs fd (State.ipark (k.fr fs) (k.fr (fs + 1)) (k.fr fc) (k.fr (fc + 1))))) ∧
  (∀ (s : State) (t : Nat) (qd : Fin 16) (fs : Fin 64) (fv : Fin 64) (e : Ecc) (k : FTask), let u := s.upTo t
    u.runsFor k 6 →
    exec (.svm t qd fs fv e) s = .next (
    (u.after k 6).withEcc e fun v => (v.setFs (4 * qd) (State.svm (k.fr fs) (k.fr (fs + 1)) (k.fr fv))).noteNan
    (State.svm (k.fr fs) (k.fr (fs + 1)) (k.fr fv)))) ∧
  (∀ (s : State) (t : Nat) (qs : Fin 16) (e : Ecc) (k : FTask), let u := s.upTo t
    u.runsFor k 4 →
    State.anyBad [k.fr (4 * qs), k.fr (4 * qs + 1), k.fr (4 * qs + 2)] = false →
    exec (.cmpq t qs e) s = .next ((u.after k 4).withEcc e fun v => v.stageDuties k.axis [k.fr (4 * qs), k.fr (4 * qs + 1), k.fr (4 * qs + 2)])) ∧
  (∀ (s : State) (t : Nat) (qs : Fin 16) (e : Ecc) (k : FTask), let u := s.upTo t
    u.runsFor k 4 →
    State.anyBad [k.fr (4 * qs), k.fr (4 * qs + 1), k.fr (4 * qs + 2)] = true →
    exec (.cmpq t qs e) s = .next ((u.after k 4).withEcc e fun v => ((v.noteNan [k.fr (4 * qs), k.fr (4 * qs + 1), k.fr (4 * qs + 2)]).event 0x0606 k.axis).epilogue false)) ∧
  (∀ (s : State) (t : Nat) (sa : Fin 16) (e : Ecc) (k : FTask), let u := s.upTo t
    u.runsFor k 1 →
    exec (.stper t sa e) s = .next ((u.after k 1).withEcc e fun v => v.setReg (R.PWM_PERIOD k.axis) (k.ar sa &&& 0x3FFFF#32))) ∧
  (∀ (s : State) (t : Nat) (j : Fin 8) (sa : Fin 16) (e : Ecc) (k : FTask), let u := s.upTo t
    u.runsFor k 1 →
    exec (.sttrg t j sa e) s = .next ((u.after k 1).withEcc e fun v => v.stageTrigger k.axis j (k.ar sa))) ∧
  (∀ (s : State) (t : Nat) (fd : Fin 64) (fr : Fin 64) (fm : Fin 64) (ff : Fin 64) (fl : Fin 64) (slot : Fin 8) (e : Ecc) (k : FTask), let u := s.upTo t
    u.runsFor k 3 →
    exec (.pic t fd fr fm ff fl slot e) s = .next (
    (u.after k 3).withEcc e fun v =>
    let run := (v.fc k.axis).modOn && !k.set.missing && k.set.nomaj == 0
    let p := v.piSlot k.axis slot (k.fr fr) (k.fr fm) (k.fr ff) (k.fr fl) run
    (p.2.setF fd p.1).noteNan [p.1])) ∧
  (∀ (s : State) (t : Nat) (fd : Fin 64) (fs : Fin 64) (coef : MemRef) (st : MemRef) (e : Ecc) (k : FTask), let u := s.upTo t
    u.runsFor k 3 →
    exec (.biq t fd fs coef st e) s = .next ((u.after k 3).withEcc e fun v => v.programBiquad k fd (k.fr fs) (v.memAddr k coef) (v.memAddr k st)))

/-- While Fesil runs task k with room for the instruction's cycles, the compares set the condition, BR and JMP the pc, the
first COMMIT of a task hands over the commit set and a further one sets DBL_COMMIT, TRC takes a trace record, EVT
raises event 0x0610 + c with the low 16 bits of its source, and END runs the epilogue. The instants are the model's
(log entries 4 and 7). Further choices of the model: log entries 49, 104. -/
def Obligations.FesilFlowAndCommit : Prop :=
  (∀ (s : State) (t : Nat) (fa : Fin 64) (fb : Fin 64) (e : Ecc) (k : FTask), let u := s.upTo t
    u.runsFor k 1 →
    exec (.fcmp t fa fb e) s = .next (
    (u.after k 1).withEcc e fun v => v.modTask fun x => { x with cond := some (match fCmp (k.fr fa) (k.fr fb) with
    | .lt => 0
    | .eq => 1
    | .gt => 2
    | .un => 3) })) ∧
  (∀ (s : State) (t : Nat) (aa : Fin 16) (ab : Fin 16) (e : Ecc) (k : FTask), let u := s.upTo t
    u.runsFor k 1 →
    exec (.icmp t aa ab e) s = .next (
    (u.after k 1).withEcc e fun v => v.modTask fun x => { x with cond := some (
    if signed 32 (k.ar aa).toNat < signed 32 (k.ar ab).toNat then 0
    else if signed 32 (k.ar aa).toNat = signed 32 (k.ar ab).toNat then 1 else 2) })) ∧
  (∀ (s : State) (t : Nat) (c : BrCond) (label : Nat) (e : Ecc) (k : FTask), let u := s.upTo t
    u.runsFor k 2 →
    State.brTaken c k.condOf = true →
    exec (.br t c label e) s = .next ((u.after k 2).withEcc e fun v => v.modTask fun x => { x with pc := label % 8192 })) ∧
  (∀ (s : State) (t : Nat) (c : BrCond) (label : Nat) (e : Ecc) (k : FTask), let u := s.upTo t
    u.runsFor k 1 →
    State.brTaken c k.condOf = false →
    exec (.br t c label e) s = .next ((u.after k 1).withEcc e id)) ∧
  (∀ (s : State) (t : Nat) (label : Nat) (e : Ecc) (k : FTask), let u := s.upTo t
    u.runsFor k 2 →
    exec (.jmp t label e) s = .next ((u.after k 2).withEcc e fun v => v.modTask fun x => { x with pc := label % 8192 })) ∧
  (∀ (s : State) (t : Nat) (e : Ecc) (k : FTask), let u := s.upTo t
    u.runsFor k 1 →
    k.committed = false →
    exec (.commit t e) s = .next ((u.after k 1).withEcc e fun v => (v.modTask fun x => { x with committed := true }).commitSet k.axis (v.fc k.axis).reacqDone)) ∧
  (∀ (s : State) (t : Nat) (e : Ecc) (k : FTask), let u := s.upTo t
    u.runsFor k 1 →
    k.committed = true →
    exec (.commit t e) s = .next ((u.after k 1).withEcc e fun v => v.hi F.FSL_CTL_DBL_COMMIT)) ∧
  (∀ (s : State) (t : Nat) (e : Ecc) (k : FTask), let u := s.upTo t
    u.runsFor k 2 →
    exec (.trc t e) s = .next ((u.after k 2).withEcc e fun v => v.traceRecord k)) ∧
  (∀ (s : State) (t : Nat) (c : Fin 16) (sa : Fin 16) (e : Ecc) (k : FTask), let u := s.upTo t
    u.runsFor k 1 →
    exec (.evt t c sa e) s = .next ((u.after k 1).withEcc e fun v => v.event (0x0610 + c) ((k.ar sa).toNat % 65536))) ∧
  (∀ (s : State) (t : Nat) (e : Ecc) (k : FTask), let u := s.upTo t
    u.runsFor k 1 →
    exec (.endProgram t e) s = .next ((u.after k 1).withEcc e fun v => v.epilogue false))

/-- With CTL powered: a ready task with a waiting input set starts, once the idle scrub has counted its corrections, with
its prelude and fresh register contents; the guard of its carrier, once open, cuts off the running task, as do LIMIT -
40 cycles; what software stores acts when a core or the debugger can store it (log entry 114): PUB publishes and SWAP
marks the swap; RUN written 1 starts the program check and 0 in READY keeps further tasks from starting; the check
sets RUN and PROG_OK on a match with FSL_PROG_REF, else PROG_BAD and event 0x0609; the window, the trace
configuration, FORCE and the trigger input act. The instants are the model's (log entries 4 and 7). Further choices of
the model: log entries 3, 47, 103, 104, 105, 106, 114, 121. -/
def Obligations.FesilTasksAndTrace : Prop :=
  (∀ (s : State) (t : Nat) (e : Ecc) (scrubbed : Nat) (v : State) (a : Nat) (rest : List Nat) (i : InputSet), let u := s.upTo t
    v = u.scrub scrubbed →
    v.fsl.task = none →
    v.power.pllbHeld = false →
    v.power.roadHeld = false →
    v.fsl.ready = a :: rest →
    (v.fsa a).waiting = some i →
    ((v.modFsl fun x => { x with ready := rest }).modFsa a fun x => { x with waiting := none }).taskRuns a = true →
    exec (.fesilTaskStart t e scrubbed) s = .next (
    ((v.modFsl fun x => { x with ready := rest }).modFsa a fun x => { x with waiting := none }).withEcc e fun v =>
    let w := ({ v with fresh := v.fresh + 2 ^ 33 } : State).prelude a i
    w.modFsl fun x => { x with
      task := some { axis := a, set := i, base := v.fresh, pc := w.rd (F.FSL_TASK_ENTRY a), start := w.now
                     missed := w.reloadMissed a } })) ∧
  (∀ (s : State) (t : Nat) (e : Ecc) (scrubbed : Nat), let u := s.upTo t
    u.ctlOn = true →
    u.power.pllbHeld = false →
    u.fsl.ready = [] →
    exec (.fesilTaskStart t e scrubbed) s = .next (u.each (List.range (min 255 scrubbed)) fun s _ => s.fslEccFixed)) ∧
  (∀ (s : State) (t : Nat) (c : Fin 2) (e : Ecc) (k : FTask), let u := s.upTo t
    u.fsl.task = some k →
    k.axis = c →
    u.cutDue k = true →
    exec (.reloadGuardOpen t c e) s = .next (u.withEcc e fun v => v.epilogue true)) ∧
  (∀ (s : State) (t : Nat) (e : Ecc) (k : FTask), let u := s.upTo t
    u.fsl.task = some k →
    u.taskRan k = true →
    exec (.taskLimitReached t e) s = .next ((u.modTask fun x => { x with cyc := u.taskLimit k.axis }).withEcc e fun v => v.epilogue true)) ∧
  (∀ (s : State) (t : Nat) (a : Fin 2), let u := s.upTo t
    u.ctlOn = true →
    u.stores = true →
    exec (.pub t a) s = .next (u.publish a)) ∧
  (∀ (s : State) (t : Nat) (a : Fin 2), let u := s.upTo t
    u.ctlOn = true →
    u.stores = true →
    exec (.swap t a) s = .next (u.hi (F.FSL_SP_CTL_SWAP_PEND a))) ∧
  (∀ (s : State) (t : Nat) (v : Bool), let u := s.upTo t
    u.ctlOn = true →
    u.stores = true →
    v = true →
    u.bit F.FSL_CTL_RUN = false →
    exec (.run t v) s = .next (u.modFsl fun x => { x with checking := true })) ∧
  (∀ (s : State) (t : Nat) (v : Bool), let u := s.upTo t
    u.ctlOn = true →
    u.stores = true →
    v = false →
    u.mode = 2 →
    exec (.run t v) s = .next (
    ((u.each [0, 1] fun s a => s.modFsa a fun x => { x with waiting := none }).lo F.FSL_CTL_RUN).modFsl fun x => { x with
      checking := false, ready := [] })) ∧
  (∀ (s : State) (t : Nat) (v : Bool), let u := s.upTo t
    u.ctlOn = true →
    u.stores = true →
    v = false →
    u.mode ≠ 2 →
    exec (.run t v) s = .next (u.hi F.FSL_CTL_ACC_IGN)) ∧
  (∀ (s : State) (t : Nat) (e : Ecc), let u := s.upTo t
    u.fsl.checking = true →
    u.ctlOn = true →
    u.power.pllbHeld = false →
    exec (.programCheckDone t e) s = .next (
    let v := u.modFsl fun x => { x with checking := false }
    let v := if e = .corrected then v.fslEccFixed else v
    let crc := if e = .bad then (Config.freeWord v.fresh).toNat else v.progCrc
    let v : State := { v with fresh := v.fresh + 1 }
    if crc = v.rd F.FSL_PROG_REF_REF then (v.hi F.FSL_CTL_RUN).hi F.FSL_CTL_PROG_OK
    else ((v.lo F.FSL_CTL_PROG_OK).hi F.FSL_CTL_PROG_BAD).event 0x0609 0)) ∧
  (∀ (s : State) (t : Nat) (w : Option Word) (e : Ecc) (x : Word), let u := s.upTo t
    u.ctlOn = true →
    w = some x →
    u.stores = true →
    exec (.memWindowAccess t w e) s = .next ((u.memWindow (some x) e).2)) ∧
  (∀ (s : State) (t : Nat) (w : Option Word) (e : Ecc) (x : Word), let u := s.upTo t
    u.ctlOn = true →
    w = none →
    (u.memWindow none e).1 = some x →
    exec (.memWindowAccess t w e) s = .next ((u.memWindow none e).2.emit (.read R.FSL_MEM_DATA x))) ∧
  (∀ (s : State) (t : Nat) (w : Word), let u := s.upTo t
    u.ctlOn = true →
    u.stores = true →
    exec (.traceCfgArm t w) s = .next (u.traceWrite (w ||| 0x80000000#32))) ∧
  (∀ (s : State) (t : Nat), let u := s.upTo t
    u.ctlOn = true →
    u.stores = true →
    u.rd F.FSL_TRC_STAT_STATE = 1 →
    exec (.traceForce t) s = .next ((u.traceTrigger (if u.rd F.FSL_TRC_CFG_AXES = 2 then 1 else 0)).modFsl fun x => { x with trcHit := true })) ∧
  (∀ (s : State) (t : Nat) (rising : Bool), let u := s.upTo t
    u.ctlOn = true →
    exec (.traceTriggerInput t rising) s = .next (if Config.gpioDedicated 2 then u.traceHit (if rising then 1 else 2) else u))

/-- With the block's domain powered, the row clears every counter of its register with SAT: PWM_LDISC, GDC_CNT, ADC_CNT,
POS_CNT, MOT_HOV_CNT, HIF_RCNT, JRN_CNT, CHN_ERR, CHN_DROP, CAN_CNT and REC_CNT read 0 but for a SAT bit that was set
in this same clock (R7), every other register reads as before, and nothing but the register table and the time
changes. HIF_RCNT is cleared only while its ring is disabled; a clear of an enabled ring's sets WR_IGN instead (R412).
The instants are the model's (log entries 4 and 7). Further choices of the model: log entries 96, 121. -/
def Obligations.CounterClearsZeroTheirRegister : Prop :=
  (∀ (s : State) (t : Nat) (c : Fin 2), let u := s.upTo t
    u.ctlOn = true →
    u.stores = true →
    ∃ r_ : State, exec (.pwmLdiscSatClear t c) s = .next r_ ∧
      u.zeroed (R.PWM_LDISC c) r_) ∧
  (∀ (s : State) (t : Nat) (n : Fin 12), let u := s.upTo t
    u.ctlOn = true →
    u.stores = true →
    ∃ r_ : State, exec (.gdcCntSatClear t n) s = .next r_ ∧
      u.zeroed (R.GDC_CNT n) r_) ∧
  (∀ (s : State) (t : Nat) (g : Fin 3), let u := s.upTo t
    u.anaOn = true →
    u.stores = true →
    ∃ r_ : State, exec (.adcCntSatClear t g) s = .next r_ ∧
      u.zeroed (R.ADC_CNT g) r_) ∧
  (∀ (s : State) (t : Nat) (a : Fin 2), let u := s.upTo t
    u.ctlOn = true →
    u.stores = true →
    ∃ r_ : State, exec (.posCntSatClear t a) s = .next r_ ∧
      u.zeroed (R.POS_CNT a) r_) ∧
  (∀ (s : State) (t : Nat) (a : Fin 2), let u := s.upTo t
    u.ctlOn = true →
    u.stores = true →
    ∃ r_ : State, exec (.motHovSatClear t a) s = .next r_ ∧
      u.zeroed (R.MOT_HOV_CNT a) r_) ∧
  (∀ (s : State) (t : Nat) (r : Fin 11), let u := s.upTo t
    u.commOn = true →
    u.bit (F.HIF_RCFG_EN r) = false →
    ∃ r_ : State, exec (.hifRcntSatClear t r) s = .next r_ ∧
      u.zeroed (R.HIF_RCNT r) r_) ∧
  (∀ (s : State) (t : Nat) (r : Fin 11), let u := s.upTo t
    u.commOn = true →
    u.bit (F.HIF_RCFG_EN r) = true →
    exec (.hifRcntSatClear t r) s = .next (u.hi F.HIF_STAT_WR_IGN)) ∧
  (∀ (s : State) (t : Nat), let u := s.upTo t
    u.cpuOn = true →
    u.stores = true →
    ∃ r_ : State, exec (.jrnCntSatClear t) s = .next r_ ∧
      u.zeroed R.JRN_CNT r_) ∧
  (∀ (s : State) (t : Nat) (p : Fin 2), let u := s.upTo t
    u.commOn = true →
    u.stores = true →
    ∃ r_ : State, exec (.chnErrSatClear t p) s = .next r_ ∧
      u.zeroed (R.CHN_ERR p) r_) ∧
  (∀ (s : State) (t : Nat), let u := s.upTo t
    u.commOn = true →
    u.stores = true →
    ∃ r_ : State, exec (.chnDropSatClear t) s = .next r_ ∧
      u.zeroed R.CHN_DROP r_) ∧
  (∀ (s : State) (t : Nat) (n : Fin 2), let u := s.upTo t
    u.commOn = true →
    u.stores = true →
    ∃ r_ : State, exec (.canCntSatClear t n) s = .next r_ ∧
      u.zeroed (R.CAN_CNT n) r_) ∧
  (∀ (s : State) (t : Nat), let u := s.upTo t
    u.commOn = true →
    u.stores = true →
    ∃ r_ : State, exec (.recCntSatClear t) s = .next r_ ∧
      u.zeroed R.REC_CNT r_)

/-- With the block's domain powered, LOSS_SAT_CLEAR clears LOSS_SAT and LOSS_CNT, ADC_NOMAJ_SAT_CLEAR one axis's count and
SAT, FSL_CTL_SAT_CLEAR SAT and ECC_CNT, FSL_OVR_SAT_CLEAR one axis's overrun or MISSING count and SAT,
CPX_MIN_SAT_CLEAR SAT and MIN0 to MIN2, MAX_CLR the most cycles, and SAF_FIRST_REARM VALID. Each is the register word
with just those fields 0, but for a SAT bit that was set in this same clock (R7); nothing else changes but the time.
The instants are the model's (log entries 4 and 7). Further choices of the model: log entries 96, 121. -/
def Obligations.CounterClearsZeroTheirFields : Prop :=
  (∀ (s : State) (t : Nat), let u := s.upTo t
    u.cpuOn = true →
    u.stores = true →
    exec (.lossSatClear t) s = .next ((u.clearBit F.PCK_PLL_STAT_LOSS_SAT).wr F.PCK_PLL_STAT_LOSS_CNT 0)) ∧
  (∀ (s : State) (t : Nat) (a : Fin 2), let u := s.upTo t
    u.anaOn = true →
    u.stores = true →
    exec (.adcNomajSatClear t a) s = .next (if a = 0 then (u.lo F.ADC_NOMAJ_CNT0).clearBit F.ADC_NOMAJ_SAT0 else (u.lo F.ADC_NOMAJ_CNT1).clearBit F.ADC_NOMAJ_SAT1)) ∧
  (∀ (s : State) (t : Nat), let u := s.upTo t
    u.ctlOn = true →
    u.stores = true →
    exec (.fslCtlSatClear t) s = .next ((u.clearBit F.FSL_CTL_SAT).lo F.FSL_CTL_ECC_CNT)) ∧
  (∀ (s : State) (t : Nat) (miss : Bool) (a : Fin 2), let u := s.upTo t
    u.ctlOn = true →
    u.stores = true →
    exec (.fslOvrSatClear t miss a) s = .next (
    if a = 0 then (u.lo ⟨if miss then R.FSL_MISS_CNT else R.FSL_OVR_CNT, 0, 15⟩).clearBit
      ⟨if miss then R.FSL_MISS_CNT else R.FSL_OVR_CNT, 15, 1⟩
    else (u.lo ⟨if miss then R.FSL_MISS_CNT else R.FSL_OVR_CNT, 16, 15⟩).clearBit
      ⟨if miss then R.FSL_MISS_CNT else R.FSL_OVR_CNT, 31, 1⟩)) ∧
  (∀ (s : State) (t : Nat), let u := s.upTo t
    u.cpuOn = true →
    u.stores = true →
    exec (.cpxMinSatClear t) s = .next ((((u.clearBit F.CPX_MIN_CNT_SAT).lo F.CPX_MIN_CNT_MIN0).lo F.CPX_MIN_CNT_MIN1).lo F.CPX_MIN_CNT_MIN2)) ∧
  (∀ (s : State) (t : Nat) (a : Fin 2), let u := s.upTo t
    u.ctlOn = true →
    u.stores = true →
    exec (.maxClr t a) s = .next (u.lo (F.FSL_CYC_MAX a))) ∧
  (∀ (s : State) (t : Nat), let u := s.upTo t
    u.safeOn = true →
    u.stores = true →
    exec (.safFirstRearm t) s = .next (u.clearBit F.SAF_FIRST_VALID))

/-- With CTL powered and PLLB running: a reload point of the carrier's mode takes its set, a valley also enables the
outputs and resolves the legs; an update event latches the position and forms the set-points; COMMIT copies the staged
set outside RUN and LIMP and is ignored with WR_IGN in them; TRIP_CNT falls by one after TRIP_LEAK trip-free periods;
a phase error beyond T / 4 or a missing sync edge sets SYNC_LOST and raises event 0x0709, an edge aligns the valley;
and the delay-line span is recorded. The instants are the model's (log entries 4 and 7). Further choices of the model:
log entries 24, 47, 97, 117. -/
def Obligations.CarriersReloadAndStayInStep : Prop :=
  (∀ (s : State) (t : Nat) (c : Fin 2) (p : ReloadPoint), let u := s.upTo t
    u.ctlOn = true →
    u.power.pllbHeld = false →
    u.reloads c p = true →
    (c = 0 ∨ u.noCarrier1 = false ∨ u.quad = true) →
    u.pointDue c p = true →
    exec (.reload t c p) s = .next (
    let took := (u.car c).pending.any fun x => x.restart
    let v := (u.reloadSet c).modCar c fun k => { k with reloadAt := some u.now }
    match p with
    | .valley => ((v.outputEnable c).valley c).cond (took && ((v.outputEnable c).valley c).running c) fun s =>
        s.coastRelease c
    | p => v.midReload c p)) ∧
  (∀ (s : State) (t : Nat) (a : Fin 2), let u := s.upTo t
    u.ctlOn = true →
    u.power.pllbHeld = false →
    u.axes.contains a.val = true →
    u.updateDue a = true →
    ((u.fsa a).evAt = 0 ∨ (u.fsa a).evAt ≠ u.now) →
    exec (.updateEvent t a) s = .next (
    let v : State := { u with power := { u.power with roadHeld := false } }
    let v := v.posLatch a
    let v := v.cond (a.val == 0 && v.axes.length == 1) fun s => s.posLatch 1
    let v := v.modFsa a fun x => { x with
      evCt := v.ct, evAt := v.now, upd := if x.evAt = 0 then 0 else v.now - x.evAt }
    let e := v.emittedNow a
    let v := (v.modFc a fun f => { f with emitted := e, emitLen := 16 * (v.fsa a).upd }).emitAfresh a
    ((((v.setFormed a false).preMove a).motUpdate a).innerMail.hovUpdate a).innerMail)) ∧
  (∀ (s : State) (t : Nat) (c : Fin 2) (inGuard : Bool), let u := s.upTo t
    u.ctlOn = true →
    u.stores = true →
    inGuard = u.inGuard c 0 →
    u.running c = false →
    exec (.commitWord t c inGuard) s = .next (u.commitSet c false)) ∧
  (∀ (s : State) (t : Nat) (c : Fin 2) (inGuard : Bool), let u := s.upTo t
    u.ctlOn = true →
    u.stores = true →
    inGuard = u.inGuard c 0 →
    u.running c = true →
    exec (.commitWord t c inGuard) s = .next (u.hi (F.PWM_STAT_WR_IGN c))) ∧
  (∀ (s : State) (t : Nat) (c : Fin 2), let u := s.upTo t
    max 1 (u.rd (F.PWM_TRIP_TRIP_LEAK c)) ≤ (u.car c).freeRun →
    exec (.tripLeak t c) s = .next ((u.wr (F.PWM_STAT_TRIP_CNT c) (u.rd (F.PWM_STAT_TRIP_CNT c) - 1)).modCar c fun k => { k with freeRun := 0 })) ∧
  (∀ (s : State) (t : Nat) (c : Fin 2) (err : Nat), let u := s.upTo t
    u.ctlOn = true →
    u.syncMode c ≠ 0 →
    4 ≤ (u.car c).syncRun →
    u.periodSteps c (u.car c).per < 64 * err →
    exec (.syncLost t c err) s = .next (
    ((u.hi (F.PWM_STAT_SYNC_LOST c)).event 0x0709 c).modCar c fun k => { k with
      stepDue := ((u.hi (F.PWM_STAT_SYNC_LOST c)).event 0x0709 c).mode == 2, syncRun := 0 })) ∧
  (∀ (s : State) (t : Nat) (c : Fin 2), let u := s.upTo t
    u.ctlOn = true →
    u.syncMode c = 2 →
    exec (.syncInputEdge t c) s = .next (
    if Config.gpioDedicated 4 then
      u.modCar c fun k => { k with aligned := some (u.now + 4 * u.rd (F.PWM_CFG_PHASE c)), edgeAt := some u.now }
    else u)) ∧
  (∀ (s : State) (t : Nat) (c : Fin 2), let u := s.upTo t
    u.ctlOn = true →
    u.syncMode c = 2 →
    (∀ x, (u.car c).edgeAt = some x → 16 * x + 2 * u.periodSteps c (u.car c).per ≤ 16 * u.now) →
    exec (.syncEdgeMissing t c) s = .next (((u.hi (F.PWM_STAT_SYNC_LOST c)).event 0x0709 c).modCar c fun k => { k with aligned := none, edgeAt := none })) ∧
  (∀ (s : State) (t : Nat) (span : Nat), let u := s.upTo t
    u.ctlOn = true →
    u.power.pllbHeld = false →
    72 ≤ span →
    span ≤ 127 →
    exec (.delayLineCalibration t span) s = .next (({ ((u.wr F.PWM_CAL_SPAN span).hi F.PWM_CAL_DONE).lo F.PWM_CAL_COARSE with calFails := 0 } : State).runOk)) ∧
  (∀ (s : State) (t : Nat) (span : Nat), let u := s.upTo t
    u.ctlOn = true →
    u.power.pllbHeld = false →
    (span < 72 ∨ 127 < span) →
    exec (.delayLineCalibration t span) s = .next (
    let v := ((u.hi F.PWM_CAL_FAIL).bump F.PWM_CAL_FAIL_CNT).event 0x0706 0
    ({ v with calFails := v.calFails + 1 } : State).cond (v.calFails + 1 == 4) fun s =>
      (s.hi F.PWM_CAL_COARSE).event 0x0707 0))

/-- While the groups convert: a trigger point due in its carrier's period starts its scan at once on idle groups, goes
before a later one of the same clock, queues it behind others, or drops the last with TRIG_DROP and event 0x0907; the
head of the queue starts once nothing is taken; the oldest due scan is voted and judged, and a dropped one whose end
comes first forms a MISSING set where none was formed; a guard round and an internal check judge their results; the
cross-check compares the groups on one test DAC; a starved group sets CAL_STARVE, 100 ms of it clear CONV with event
0x0908; and a silent group is excluded. The instants are the model's (log entries 4 and 7). Further choices of the
model: log entries 24, 81. -/
def Obligations.ScansAndChecksComplete : Prop :=
  (∀ (s : State) (t : Nat) (c : Fin 2) (k : Fin 8), let u := s.upTo t
    u.trigDue c k = true →
    u.converting = true →
    u.maskOf (u.scanOf c k).list ≠ [] →
    (u.fire c k).retireScan.adc.taking = none →
    (u.fire c k).retireScan.adc.queue = [] →
    exec (.triggerPoint t c k) s = .next ((u.fire c k).retireScan.startScan (u.scanOf c k) false)) ∧
  (∀ (s : State) (t : Nat) (c : Fin 2) (k : Fin 8), let u := s.upTo t
    u.trigDue c k = true →
    u.converting = true →
    u.maskOf (u.scanOf c k).list ≠ [] →
    ((u.fire c k).retireScan.adc.taking ≠ none ∨ (u.fire c k).retireScan.adc.queue ≠ []) →
    (∀ x, (u.fire c k).retireScan.adc.taking = some x → State.scanBefore (u.scanOf c k) x = false ∨ x.t0 ≠ (x.at_ + 29) / 20 * 20) →
    (u.fire c k).retireScan.adc.queue.length < 4 →
    exec (.triggerPoint t c k) s = .next ((u.fire c k).retireScan.modAdc fun y => { y with queue := State.enqueueScan (u.scanOf c k) y.queue })) ∧
  (∀ (s : State) (t : Nat) (c : Fin 2) (k : Fin 8), let u := s.upTo t
    u.trigDue c k = true →
    u.converting = true →
    u.maskOf (u.scanOf c k).list ≠ [] →
    (∀ x, (u.fire c k).retireScan.adc.taking = some x → State.scanBefore (u.scanOf c k) x = false ∨ x.t0 ≠ (x.at_ + 29) / 20 * 20) →
    4 ≤ (u.fire c k).retireScan.adc.queue.length →
    exec (.triggerPoint t c k) s = .next (
    let v := (u.fire c k).retireScan
    let q := State.enqueueScan (u.scanOf c k) v.adc.queue
    let v := v.modAdc fun x => { x with queue := q.take 4 }
    match q.drop 4 with
    | [] => v
    | d :: _ =>
      let a := v.scanAxis d.car
      let v := (v.each [0, 1, 2] fun s g => s.hi (F.ADC_STAT_TRIG_DROP g)).event 0x0907 (0xF + 16 * d.car)
      v.cond (v.bit (F.ADC_SCAN_LOOP d.list) && v.fullMask a d.list) fun s =>
        s.modAdc fun x => { x with queue := State.addGhost ⟨a, (s.maskOf d.list).length, 0⟩ x.queue })) ∧
  (∀ (s : State) (t : Nat) (c : Fin 2) (k : Fin 8) (x : Scan), let u := s.upTo t
    u.trigDue c k = true →
    u.converting = true →
    u.maskOf (u.scanOf c k).list ≠ [] →
    (u.fire c k).retireScan.adc.taking = some x →
    State.scanBefore (u.scanOf c k) x = true →
    x.t0 = (x.at_ + 29) / 20 * 20 →
    exec (.triggerPoint t c k) s = .next (((u.fire c k).retireScan.startScan (u.scanOf c k) false).queueScan x)) ∧
  (∀ (s : State) (t : Nat) (c : Fin 2) (k : Fin 8), let u := s.upTo t
    u.trigDue c k = true →
    (u.converting = false ∨ u.maskOf (u.scanOf c k).list = []) →
    exec (.triggerPoint t c k) s = .next (u.fire c k)) ∧
  (∀ (s : State) (t : Nat) (c : Fin 2) (k : Fin 8), let u := s.upTo t
    u.trigDue c k = false →
    exec (.triggerPoint t c k) s = .next (u)) ∧
  (∀ (s : State) (t : Nat) (sc : Scan) (q : List Scan), let u := s.upTo t
    u.retireScan.adc.taking = none →
    u.retireScan.adc.queue = sc :: q →
    exec (.queuedScanStart t) s = .next ((u.retireScan.modAdc fun x => { x with queue := q }).startScan sc true)) ∧
  (∀ (s : State) (t : Nat) (res : List ConvResult) (sc : Scan) (rest : List Scan), let u := s.upTo t
    u.retireScan.ghostDue = none →
    u.retireScan.adc.due = sc :: rest →
    exec (.scanComplete t res) s = .next (
    let v := u.retireScan.modAdc fun x => { x with due := rest }
    let rs := res.filter (fun r => decide (r.group < 3) && (v.maskOf sc.list).contains r.input)
    let a := v.scanAxis sc.car
    let loop := v.bit (F.ADC_SCAN_LOOP sc.list)
    let v := ((rs.foldl (fun s r => s.storeResult sc r) v).tripRound rs).uzFromResults rs
    let v := v.cond loop fun s => s.castAtLoop a
    let vs := v.roundVotes sc rs
    let v := (vs.foldl (fun s x => s.storeVote sc x) v).judgeRound sc vs rs
    v.cond loop fun s => (s.loopMeans a rs).formSet a sc vs)) ∧
  (∀ (s : State) (t : Nat) (res : List ConvResult) (g : Ghost), let u := s.upTo t
    u.retireScan.ghostDue = some g →
    exec (.scanComplete t res) s = .next (
    (u.retireScan.modAdc fun x => { x with ghosts := x.ghosts.erase g }).cond (!u.retireScan.formedOf g.axis) fun s =>
      s.missingSet g.axis)) ∧
  (∀ (s : State) (t : Nat) (a : Fin 2) (res : List ConvResult), let u := s.upTo t
    u.converting = true →
    u.bit F.ADC_GUARD_EN = true →
    u.axes.contains a.val = true →
    u.guardCut 3 = false →
    exec (.guardRound t a res) s = .next (
    (u.tripRound (res.filter fun r => decide (r.group < 3) && u.phaseAxis r.input == some a.val)).uzFromResults
      (res.filter fun r => decide (r.group < 3) && u.phaseAxis r.input == some a.val))) ∧
  (∀ (s : State) (t : Nat) (res : List ConvResult), let u := s.upTo t
    u.converting = true →
    u.guardCut 1 = false →
    exec (.internalCheck t res) s = .next (
    let inside (r : ConvResult) : Bool :=
      decide (((icWindow r.input).1 : Int) ≤ convCode r) && decide (convCode r ≤ ((icWindow r.input).2 : Int))
    let l := res.filter (fun r => decide (r.group < 3)
      && (r.input == 18 || (decide (20 ≤ r.input) && decide (r.input ≤ 23))))
    l.foldl (fun s r =>
      let others := l.filter (fun q => q.input == r.input && q.group != r.group)
      let counts := !inside r && (r.input == 18 || (others.length == 2 && others.all inside))
      let k := r.group * 24 + r.input
      let run := if counts then kvGet (fun _ => 0) s.adc.icRun k + 1 else 0
      let s := s.modAdc fun x => { x with icRun := kvSet (fun _ => 0) x.icRun k (min 3 run) }
      if 3 ≤ run then s.excludeGroup r.group (if r.input = 18 then 2 else 3) else s) u)) ∧
  (∀ (s : State) (t : Nat) (a : Option Int) (b : Option Int) (c : Option Int) (x : Int) (y : Int) (z : Int), let u := s.upTo t
    u.converting = true →
    u.guardCut 1 = false →
    a = some x →
    b = some y →
    c = some z →
    exec (.crossCheck t a b c) s = .next (
    let drv := u.adc.xDriver
    let code := [0x200, 0x800, 0xE00].getD (u.adc.xRot % 3) 0x200
    let v := u.modAdc fun q => { q with
      dacHeld := kvSet (fun _ => 0) q.dacHeld drv code
      xDriver := (drv + 1) % 3
      xRot := if drv = 2 then (q.xRot + 1) % 3 else q.xRot }
    let ok (p q : Int) : Bool := decide (((p - q).natAbs : Int) ≤ (v.rd F.ADC_XCHK_TOL : Int))
    let dep := if !ok x y && !ok x z && ok y z then some 0
      else if !ok y x && !ok y z && ok x z then some 1
      else if !ok z x && !ok z y && ok x y then some 2 else none
    let v := v.each [0, 1, 2] fun s g =>
      if dep = some g then
        let run := kvGet (fun _ => 0) s.adc.xRun g + 1
        let s := s.adcCount (F.ADC_CNT_XCHK_CNT g) g
        let s := s.modAdc fun q => { q with xRun := kvSet (fun _ => 0) q.xRun g (min 2 run) }
        if 2 ≤ run then s.excludeGroup g 4 else s
      else s.modAdc fun q => { q with xRun := kvSet (fun _ => 0) q.xRun g 0 }
    if ok x y && ok x z && ok y z && !ok (median3 x y z) (((code : Int) - 2048) * 16) then
      (v.hi (F.ADC_STAT_DAC_FAIL drv)).event 0x090A drv
    else v)) ∧
  (∀ (s : State) (t : Nat) (g : Fin 3) (idle : Nat) (est : Mismatch) (res : Mismatch), let u := s.upTo t
    u.converting = true →
    idle < 10 →
    exec (.backgroundCorrection t g idle est res) s = .next (
    if kvGet (fun _ => 0) u.adc.starveAt g = 0 then
      (u.hi (F.ADC_STAT_CAL_STARVE g)).modAdc fun x => { x with starveAt := kvSet (fun _ => 0) x.starveAt g (u.now + 1) }
    else u.hi (F.ADC_STAT_CAL_STARVE g))) ∧
  (∀ (s : State) (t : Nat) (g : Fin 3) (idle : Nat) (est : Mismatch) (res : Mismatch), let u := s.upTo t
    u.converting = true →
    10 ≤ idle →
    exec (.backgroundCorrection t g idle est res) s = .next (
    let v := (u.modAdc fun x => { x with starveAt := kvSet (fun _ => 0) x.starveAt g 0 }).cond
      (decide (512 < est.offset) || decide (20000 < est.gain) || decide (32000 < est.skew)) fun s => s.excludeGroup g 6
    if decide (res.offset < 4) && decide (res.gain < 200) && decide (res.skew < 1000) then v.setConv g true
    else if (decide (16 < res.offset) || decide (800 < res.gain) || decide (4000 < res.skew)) && v.bit (F.ADC_STAT_CONV g)
    then (v.setConv g false).event 0x0909 g
    else v)) ∧
  (∀ (s : State) (t : Nat) (g : Fin 3), let u := s.upTo t
    kvGet (fun _ => 0) u.adc.starveAt g ≠ 0 →
    kvGet (fun _ => 0) u.adc.starveAt g + 100000000 ≤ u.now + 1 →
    exec (.calStarveTimeout t g) s = .next ((u.setConv g false).event 0x0908 g)) ∧
  (∀ (s : State) (t : Nat) (g : Fin 3), let u := s.upTo t
    u.converting = true →
    exec (.sliceSilence t g) s = .next (u.excludeGroup g 6))

/-- With at least two healthy converting groups a castling instant marks a castling for every axis in use, or is deferred;
FORCE does the same in READY, RUN and LIMP while no ramp runs. In READY with ANA powered, START of an idle test-DAC
procedure while the groups convert stores the masks and sets BUSY, outside READY it sets WR_IGN; its end records every
group's failures, excludes or reinstates the group and raises event 0x090B; leaving READY sets ABORT and clears BUSY.
The instants are the model's (log entries 4 and 7). Further choices of the model: log entries 81, 121. -/
def Obligations.CastlingAndTestDacComplete : Prop :=
  (∀ (s : State) (t : Nat), let u := s.upTo t
    2 ≤ u.healthy.length →
    u.converting = true →
    exec (.castlingInstant t) s = .next (if u.castBarred then u.hi F.ADC_CAST_DEFER else u.each u.axes fun s a => s.setCast a true)) ∧
  (∀ (s : State) (t : Nat), let u := s.upTo t
    u.stores = true →
    (u.mode = 2 ∨ u.mode = 3 ∨ u.mode = 4) →
    u.bit F.ADC_CAST_RAMPING = false →
    exec (.castlingForce t) s = .next (u.castInstant)) ∧
  (∀ (s : State) (t : Nat) (groups : BitVec 3) (inputs : BitVec 17), let u := s.upTo t
    u.anaOn = true →
    u.stores = true →
    u.mode = 2 →
    ((u.wr F.ADC_TDAC_CTL_GRP_MASK groups.toNat).wr F.ADC_TDAC_CTL_IN_MASK inputs.toNat).converting = true →
    ((u.wr F.ADC_TDAC_CTL_GRP_MASK groups.toNat).wr F.ADC_TDAC_CTL_IN_MASK inputs.toNat).bit F.ADC_TDAC_CTL_BUSY = false →
    exec (.tdacStart t groups inputs) s = .next (
    (((u.wr F.ADC_TDAC_CTL_GRP_MASK groups.toNat).wr F.ADC_TDAC_CTL_IN_MASK inputs.toNat).modAdc fun x => { x with
      tdGroups := groups.toNat, tdInputs := inputs.toNat }).hi F.ADC_TDAC_CTL_BUSY)) ∧
  (∀ (s : State) (t : Nat) (groups : BitVec 3) (inputs : BitVec 17), let u := s.upTo t
    u.anaOn = true →
    u.stores = true →
    u.mode ≠ 2 →
    exec (.tdacStart t groups inputs) s = .next (u.each [0, 1, 2] fun s g => s.hi (F.ADC_STAT_WR_IGN g))) ∧
  (∀ (s : State) (t : Nat) (res : List TdacMean), let u := s.upTo t
    u.bit F.ADC_TDAC_CTL_BUSY = true →
    u.mode = 2 →
    u.converting = true →
    exec (.tdacComplete t res) s = .next (
    let ins := u.adc.tdInputs
    (u.each ([0, 1, 2].filter (fun g => u.adc.tdGroups.testBit g)) fun s g =>
      let good (i c : Nat) : Bool := res.any fun m => m.group == g && m.input == i && m.dac == c
      let near (m : TdacMean) : Bool := decide ((m.sum - ((m.dac : Int) - 2048) * 256).natAbs ≤ 768)
      let bad (i : Nat) : Bool := ins.testBit i && !([0x100, 0x800, 0xF00].all (good i)
        && res.all (fun m => m.group != g || m.input != i || near m))
      let mask := (List.range 17).foldl (fun m i => if bad i then m + 2 ^ i else m) 0
      let s := s.setReg (R.ADC_TDAC_RES g) (BitVec.ofNat 32 (mask + 2 ^ 31))
      let core := [0, 1, 2, 3, 4, 5, 6, 7, 16]
      let s := if core.any bad then s.excludeGroup g 5
        else if mask = 0 ∧ core.all (fun i => ins.testBit i) ∧ s.excluded g ∧ s.bit (F.ADC_STAT_CONV g)
            ∧ ([18, 20, 21, 22, 23].all fun i => kvGet (fun _ => 0) s.adc.icRun (g * 24 + i) == 0) then
          let s := (s.lo (F.ADC_STAT_EXCL g)).lo (F.ADC_STAT_EXCL_CAUSE g)
          let s := s.modAdc fun x => { x with loops := x.loops.filter (fun e => e.1 % 3 != g) }
          s.cond (g == 1) fun s => { s with saf := { s.saf with adcbLost := false } }
        else s
      s.event 0x090B g).lo F.ADC_TDAC_CTL_BUSY)) ∧
  (∀ (s : State) (t : Nat) (res : List TdacMean), let u := s.upTo t
    u.bit F.ADC_TDAC_CTL_BUSY = true →
    u.mode ≠ 2 →
    exec (.tdacComplete t res) s = .next (u.tdacAbort)) ∧
  (∀ (s : State) (t : Nat), let u := s.upTo t
    u.bit F.ADC_TDAC_CTL_BUSY = true →
    u.mode ≠ 2 →
    exec (.tdacAbort t) s = .next (
    (u.each ([0, 1, 2].filter (fun g => u.adc.tdGroups.testBit g)) fun s g =>
      s.hi (F.ADC_TDAC_RES_ABORT g)).lo F.ADC_TDAC_CTL_BUSY))

/-- For every channel n: a used NO_LINK channel with its link goes to CONFIG; a verified exchange copies the words and
takes the channel on from CONFIG; the third failure latches it with cause CFG; a readback is recorded, and a mismatch
sets CFG_BAD and event 0x0808; a lost link or collapsed supply takes it to NO_LINK; a UVLO entry turns it off, and at
the third counted one latches it; both supplies back return it; over-temperature turns it off in THERMAL until it has
cooled. The instants are the model's (log entries 4 and 7). Further choices of the model: log entries 94. -/
def Obligations.ChannelsConfigureAndLoseTheirLink : Prop :=
  (∀ (s : State) (t : Nat) (n : Fin 12) (posOk : Bool) (negOk : Bool), let u := s.upTo t
    (u.ch n).st = .noLink →
    u.unused n = false →
    (u.ctlOn || (u.safeOn && u.bit F.SAF_STAT_SHADOW)) = true →
    exec (.channelLinkUp t n posOk negOk) s = .next (
    ((u.modCh n fun c => { c with supply := true, fails := 0, seenOff := false, exchange := true }).putCh n .config).supplyFlags
      n posOk negOk)) ∧
  (∀ (s : State) (t : Nat) (n : Fin 12) (ok : Bool), let u := s.upTo t
    (u.ch n).st ≠ .noLink →
    (u.ch n).exchange = true →
    ok = true →
    u.badBootstrap n = false →
    exec (.configExchangeDone t n ok) s = .next (
    let v := u.modCh n fun c => { c with copy := u.configWords n, exchange := false, fails := 0 }
    let v := v.wrB (F.GDC_STAT_HS_REACH n) (v.hsReach n)
    let v := v.modCh n fun k => { k with clamp := v.clamps n k.st }
    if (u.ch n).st = .config then
      if v.saf.latch.testBit n then v.putCh n .latched else v.comeBack n
    else v)) ∧
  (∀ (s : State) (t : Nat) (n : Fin 12) (ok : Bool), let u := s.upTo t
    (u.ch n).st ≠ .noLink →
    (u.ch n).exchange = true →
    (ok = false ∨ u.badBootstrap n = true) →
    exec (.configExchangeDone t n ok) s = .next (
    let v := (u.modCh n fun c => { c with fails := c.fails + 1 })
    let v := v.cond (decide ((v.ch n).fails = if v.badBootstrap n then 1 else 3)) fun s =>
      (s.hi (F.GDC_STAT_CFG_BAD n)).event 0x0808 n
    if (v.ch n).fails = 3 ∧ (u.ch n).st = .softOff then
      (v.hi (F.GDC_STAT_CFG_BAD n)).modCh n fun c => { c with matched := false }
    else if (v.ch n).fails = 3 ∧ (u.ch n).st ≠ .latched then
      (((v.hi (F.GDC_STAT_CFG_BAD n)).latchCh n 3).modCh n fun c => { c with matched := false }).legLoss n
    else v)) ∧
  (∀ (s : State) (t : Nat) (n : Fin 12) (copy : List Word), let u := s.upTo t
    (u.ch n).st ≠ .noLink →
    (u.ch n).st ≠ .config →
    (u.ch n).exchange = false →
    exec (.configReadback t n copy) s = .next (
    if copy = u.configWords n then u.modCh n fun c => { c with copy := copy, matched := true }
    else
      let v := u.modCh n fun c => { c with copy := copy, matched := false, exchange := true, fails := 0 }
      let v := (v.hi (F.GDC_STAT_CFG_BAD n)).event 0x0808 n
      if v.mayTake n 11 (fun x => x != .latched && x != .softOff && x != .noLink && x != .config) then
        (v.latchCh n 3).legLoss n
      else v)) ∧
  (∀ (s : State) (t : Nat) (n : Fin 12), let u := s.upTo t
    u.unused n = false →
    ((u.ch n).st ≠ .noLink ∨ u.rd (F.GDC_STAT_STATE n) ≠ 0) →
    exec (.linkTimeout t n) s = .next (((((u.turnOff n .noLink).hi (F.GDC_STAT_LINK_LOSS n)).gdcCount (F.GDC_CNT_LINK_CNT n) n).event 0x0806 n).legLoss n)) ∧
  (∀ (s : State) (t : Nat) (n : Fin 12), let u := s.upTo t
    (u.ch n).st = .noLink →
    exec (.supplyCollapse t n) s = .next (u.modCh n fun c => { c with supply := false })) ∧
  (∀ (s : State) (t : Nat) (n : Fin 12), let u := s.upTo t
    (u.ch n).st ≠ .noLink →
    exec (.supplyCollapse t n) s = .next (
    ((u.turnOff n .noLink).wr (F.GDC_STAT_STATE n) (u.rd (F.GDC_STAT_STATE n))).modCh n fun c =>
      { c with supply := false, posOk := false, negOk := false })) ∧
  (∀ (s : State) (t : Nat) (n : Fin 12) (pos : Bool) (neg : Bool), let u := s.upTo t
    (pos = true ∨ neg = true) →
    (u.ch n).st ≠ .noLink →
    u.mayTake n 7 (fun x => x == .off || x == .on || x == .disabled || x == .diag) = true →
    exec (.uvloEntry t n pos neg) s = .next (
    let v := u.supplyFlags n ((u.ch n).posOk && !pos) ((u.ch n).negOk && !neg)
    let v := v.cond pos fun s => s.event 0x0803 n
    let v := ((v.cond neg fun s => s.event 0x0804 n).superseded n).turnOff n .uvlo
    let v := if !(u.ch n).seenOff then v
      else
        let w := v.modCh n fun c => { c with uvAt := v.uvCounted n ++ [v.now] }
        let x := (w.gdcCount (F.GDC_CNT_UVLO_CNT n) n).wr (F.GDC_STAT_UV_WIN n) (min 3 (w.ch n).uvAt.length)
        if 3 ≤ (w.ch n).uvAt.length then (x.latchCh n 2).event 0x0805 n else x
    v.legLoss n)) ∧
  (∀ (s : State) (t : Nat) (n : Fin 12) (pos : Bool) (neg : Bool), let u := s.upTo t
    (pos = true ∨ neg = true) →
    (u.ch n).st ≠ .noLink →
    u.mayTake n 7 (fun x => x == .off || x == .on || x == .disabled || x == .diag) = false →
    exec (.uvloEntry t n pos neg) s = .next (
    ((u.supplyFlags n ((u.ch n).posOk && !pos) ((u.ch n).negOk && !neg)).cond pos fun s => s.event 0x0803 n).cond neg
      fun s => s.event 0x0804 n)) ∧
  (∀ (s : State) (t : Nat) (n : Fin 12), let u := s.upTo t
    (u.ch n).st ≠ .noLink →
    exec (.uvloRelease t n) s = .next (
    let v := (u.supplyFlags n true true).wr (F.GDC_STAT_UV_WIN n) (min 3 (u.uvCounted n).length)
    if (v.ch n).st = .uvlo then v.comeBack n else v)) ∧
  (∀ (s : State) (t : Nat) (n : Fin 12), let u := s.upTo t
    u.mayTake n 9 (fun x => x == .off || x == .on || x == .disabled || x == .uvlo || x == .diag) = true →
    exec (.channelOverTemp t n) s = .next ((((((u.superseded n).turnOff n .thermal).modCh n fun c => { c with hot := true }).hi (F.GDC_STAT_THERM n)).event 0x0807 n).legLoss n)) ∧
  (∀ (s : State) (t : Nat) (n : Fin 12), let u := s.upTo t
    exec (.channelTempOk t n) s = .next (
    let v := u.modCh n fun c => { c with hot := false }
    if (v.ch n).st = .thermal then v.comeBack n else v))

/-- A falling enable turns its bridge's channels off and ends an active short circuit; a rising one returns disabled
channels and judges each latched one under R107; a planned edge acts on a channel in OFF or ON; a profiled drive goes
to its next phase; blanking ends; desaturation after blanking and a hard short start soft turn-off, whose end latches
the channel; the on-state sample is stored; Uzodar's first report of a fault latches the channel and blocks the
bridge; and the final state follows when no channel of the bridge is in SOFT_OFF. The instants are the model's (log
entries 4 and 7). Further choices of the model: log entries 92, 94, 98, 117. -/
def Obligations.ChannelsSwitchAndProtect : Prop :=
  (∀ (s : State) (t : Nat) (b : Fin 2), let u := s.upTo t
    exec (.enaFall t b) s = .next (
    let was0 := u.enabled 0
    let was1 := u.enabled 1
    let v : State := { u with pins := if b = 0 then { u.pins with ena0 := false } else { u.pins with ena1 := false } }
    let v : State := { v with pins := { v.pins with
      ena0Fell := if was0 && !v.enabled 0 then v.now else v.pins.ena0Fell
      ena1Fell := if was1 && !v.enabled 1 then v.now else v.pins.ena1Fell } }
    v.each (v.axes.filter (fun a => !v.enabled a)) fun s a =>
      let s := s.each (s.channels a) fun s n =>
        if s.mayTake n 12 (fun x => x == .on || x == .off || x == .diag) then s.turnOff n .disabled else s
      let s := s.diagCut
      let s := s.cond (s.uzAx a).brakeStep fun s => s.ss1EndState a
      if State.isShort (s.uzAx a).gate then
        (s.putGate a .allOff (s.uzAx a).why).modUz a fun x => { x with enaEnded := true }
      else s)) ∧
  (∀ (s : State) (t : Nat) (b : Fin 2), let u := s.upTo t
    exec (.enaRise t b) s = .next (
    let was0 := u.enabled 0
    let was1 := u.enabled 1
    let v : State := { u with pins := if b = 0 then { u.pins with ena0 := true } else { u.pins with ena1 := true } }
    (v.each (v.axes.filter (fun a => v.enabled a && !(if a = 0 then was0 else was1))) fun s a =>
      let fell := if a = 0 then s.pins.ena0Fell else s.pins.ena1Fell
      let long := decide (fell + 10000 ≤ s.now)
      let s := s.each (s.channels a) fun s n =>
        if (s.ch n).st = .disabled then s.putCh n .off
        else if s.saf.latch.testBit n then
          if long && (s.ch n).st == .latched && (s.ch n).matched
              && ((s.ch n).cause != 2 || ((s.ch n).posOk && (s.ch n).negOk)) then
            ((s.setLatch n false).putCh n .off).event 0x0809 n
          else (s.hi (F.GDC_STAT_ENA_EARLY n)).event 0x080A n
        else s
      if (s.uzAx a).enaEnded then
        ((s.modUz a fun x => { x with enaEnded := false, why := .none }).substitute a).regate a
      else if State.isShort (s.uzAx a).gate then s.regate a
      else s).latchedBit)) ∧
  (∀ (s : State) (t : Nat) (n : Fin 12) (e : GateEdge), let u := s.upTo t
    e = .on →
    (u.ch n).st = .off →
    (u.uzAx (u.axisOf n)).gate = .free →
    u.pwmEdge n = true →
    u.onPlanned n = true →
    exec (.gateEdge t n e) s = .next (u.turnOn n false)) ∧
  (∀ (s : State) (t : Nat) (n : Fin 12) (e : GateEdge), let u := s.upTo t
    e = .off →
    (u.ch n).st = .on →
    (u.ch n).forced = false →
    u.innerHeld n = false →
    u.offPlanned n = true →
    exec (.gateEdge t n e) s = .next (u.turnOff n .off)) ∧
  (∀ (s : State) (t : Nat) (n : Fin 12) (e : GateEdge), let u := s.upTo t
    e = .force →
    exec (.gateEdge t n e) s = .next (u.uzGateToChannels (u.axisOf n) (u.uzAx (u.axisOf n)).gate)) ∧
  (∀ (s : State) (t : Nat) (n : Fin 12), let u := s.upTo t
    exec (.profilePhaseEnd t n) s = .next (
    u.modCh n fun c => { c with phase := match c.phase with
    | .pre => .slope
    | .slope => .strong
    | p => p })) ∧
  (∀ (s : State) (t : Nat) (n : Fin 12), let u := s.upTo t
    (u.ch n).st = .on →
    exec (.blankingEnd t n) s = .next (u.modCh n fun c => { c with blanked := true })) ∧
  (∀ (s : State) (t : Nat) (n : Fin 12), let u := s.upTo t
    (if (u.ch n).st = .on then (u.ch n).blanked else (u.ch n).wasBlanked) = true →
    u.mayTake n 5 (fun x => x == .on) = true →
    exec (.desaturation t n) s = .next (
    (((((u.modCh n fun k => { k with cause := 0, phase := .strong }).putCh n .softOff).hi (F.GDC_STAT_DESAT n)).wr (F.GDC_STAT_LATCH_CAUSE n) 0).gdcCount
      (F.GDC_CNT_DESAT_CNT n) n).event 0x0801 n)) ∧
  (∀ (s : State) (t : Nat) (n : Fin 12), let u := s.upTo t
    u.mayTake n 5 (fun x => x == .on) = true →
    u.chBit n 1 (F.GDC_DESAT_HS_EN n) = true →
    exec (.hardShort t n) s = .next (
    (((((u.modCh n fun k => { k with cause := 1, phase := .strong }).putCh n .softOff).hi (F.GDC_STAT_HSC n)).wr (F.GDC_STAT_LATCH_CAUSE n) 1).gdcCount
      (F.GDC_CNT_HSC_CNT n) n).event 0x0802 n)) ∧
  (∀ (s : State) (t : Nat) (n : Fin 12), let u := s.upTo t
    (u.ch n).st = .softOff →
    exec (.softOffEnd t n) s = .next (((u.putCh n .latched).setLatch n true).latchedBit)) ∧
  (∀ (s : State) (t : Nat) (n : Fin 12) (code : Nat), let u := s.upTo t
    (u.ch n).st = .on →
    (u.ch n).blanked = true →
    u.chBit n 3 (F.GDC_DRV_VON_EN n) = true →
    exec (.onStateSample t n code) s = .next (((u.wr (F.GDC_VON_VON n) (min code 0xFFF)).bump (F.GDC_VON_CNT n)).hi (F.GDC_VON_VALID n))) ∧
  (∀ (s : State) (t : Nat) (n : Fin 12), let u := s.upTo t
    ((u.ch n).st = .softOff ∨ (u.ch n).st = .latched) →
    u.saf.faulted.testBit n = false →
    exec (.scFaultReport t n) s = .next (
    let a := u.axisOf n
    let v := ({ u.setLatch n true with saf := { (u.setLatch n true).saf with faulted := u.saf.faulted + 2 ^ n.val } } : State).latchedBit
    let forced := match (v.uzAx a).gate with
      | .short h => v.isUpper n == h
      | _ => false
    let first := !v.bit (F.PWM_STAT_BLOCK a) && !(v.uzAx a).finalDue
    let v := v.cond first fun s => s.pwmBlock a
    let v := v.cond (v.running a) fun s => s.setAxMode a 5
    if forced then
      let v := v.modUz a fun x => { x with finalDue := false, final := some .allOff }
      (((v.regate a).lo (F.PWM_STAT_BLOCK a)).openContactors).requestDischarge
    else (v.cond first fun s => s.modUz a fun x => { x with finalDue := true, final := none }).regate a)) ∧
  (∀ (s : State) (t : Nat) (a : Fin 2), let u := s.upTo t
    (u.uzAx a).finalDue = true →
    (u.channels a).all (fun n => (u.ch n).st != .softOff) = true →
    exec (.finalStateDecision t a) s = .next (u.finalState a))

/-- With CTL powered, in READY, START with a test of an idle diagnostic stores mask and test, puts the first named
channels that are in OFF under test, one of a leg at a time, and sets BUSY; its end records the gate or DS result of
every channel, wave by wave, and returns it to OFF; an abort marks and takes out each channel that left READY or its
enable, and the last one ends the test. The instants are the model's (log entries 4 and 7). Further choices of the
model: log entries 95, 116, 121. -/
def Obligations.GateDiagnosticsComplete : Prop :=
  (∀ (s : State) (t : Nat) (mask : BitVec 12) (test : Fin 4), let u := s.upTo t
    u.ctlOn = true →
    u.stores = true →
    ((u.wr F.GDC_DIAG_CTL_CH_MASK mask.toNat).wr F.GDC_DIAG_CTL_TEST test).bit F.GDC_DIAG_CTL_BUSY = false →
    ((u.wr F.GDC_DIAG_CTL_CH_MASK mask.toNat).wr F.GDC_DIAG_CTL_TEST test).mode = 2 →
    test ≠ 0 →
    exec (.diagStart t mask test) s = .next (
    let v := (u.wr F.GDC_DIAG_CTL_CH_MASK mask.toNat).wr F.GDC_DIAG_CTL_TEST test
    (({ v with diag := ⟨mask.toNat, test, (State.maskList mask.toNat).filter (fun n => (v.ch n).st == .off)⟩ } : State).diagWave).hi
      F.GDC_DIAG_CTL_BUSY)) ∧
  (∀ (s : State) (t : Nat) (mask : BitVec 12) (test : Fin 4), let u := s.upTo t
    u.ctlOn = true →
    u.stores = true →
    ((u.wr F.GDC_DIAG_CTL_CH_MASK mask.toNat).wr F.GDC_DIAG_CTL_TEST test).mode ≠ 2 →
    exec (.diagStart t mask test) s = .next ((u.wr F.GDC_DIAG_CTL_CH_MASK mask.toNat).wr F.GDC_DIAG_CTL_TEST test)) ∧
  (∀ (s : State) (t : Nat) (meas : List DiagMeas), let u := s.upTo t
    u.bit F.GDC_DIAG_CTL_BUSY = true →
    exec (.diagComplete t meas) s = .next ((u.each [0, 1, 2, 3] fun s _ => (meas.foldl State.diagRecord s).diagWave).diagEnd)) ∧
  (∀ (s : State) (t : Nat), let u := s.upTo t
    u.bit F.GDC_DIAG_CTL_BUSY = true →
    exec (.diagAbort t) s = .next (
    (u.each ((State.maskList u.diag.mask).filter fun n => u.mode != 2 || !u.chEnabled n) fun s n =>
      if (s.ch n).st = .diag then s.putCh n (if s.chEnabled n then .off else .disabled) else s).diagWave.diagEnd))

/-- With CTL powered, the interface's source selected and the filter passed: a legal encoder edge counts one step, an
illegal one is counted as such; a Hall pattern sets the sector angle, a bad one HALL_BAD, and 1 ms of it fails the
source; a tooth edge counts a tooth, the first one with no interval yet; a qualified index sets the reference and
checks the line count; and a resolver pair at a crest of a driven excitation, with no scan running or waiting, is
discarded where it comes more than 2 µs late and else judged by its amplitude and moves the angle. Every one publishes
the outputs. The instants are the model's (log entries 4 and 7). Further choices of the model: log entries 23, 100,
101, 120. -/
def Obligations.PositionSourcesAdvance : Prop :=
  (∀ (s : State) (t : Nat) (a : Fin 2) (la : Bool) (lb : Bool) (ts : Nat), let u := s.upTo t
    u.ctlOn = true →
    u.posSrc a = 1 →
    u.accepted (u.rd (F.POS_FILT_ENC_N a)) (ts / 10 * 10) = true →
    (quadIndex la lb + 4 - quadIndex (u.pos a).a (u.pos a).b) % 4 = 2 →
    exec (.encoderEdge t a la lb ts) s = .next (((u.modPos a fun p => { p with a := la, b := lb, edges := p.edges + 1 }).posIllegal a).posPublish a)) ∧
  (∀ (s : State) (t : Nat) (a : Fin 2) (la : Bool) (lb : Bool) (ts : Nat), let u := s.upTo t
    u.ctlOn = true →
    u.posSrc a = 1 →
    u.accepted (u.rd (F.POS_FILT_ENC_N a)) (ts / 10 * 10) = true →
    (quadIndex la lb + 4 - quadIndex (u.pos a).a (u.pos a).b) % 4 ≠ 2 →
    (quadIndex la lb + 4 - quadIndex (u.pos a).a (u.pos a).b) % 4 ≠ 0 →
    exec (.encoderEdge t a la lb ts) s = .next (
    let v := u.modPos a fun p => { p with a := la, b := lb, edges := p.edges + 1 }
    let sg : Int :=
      if ((quadIndex la lb + 4 - quadIndex (u.pos a).a (u.pos a).b) % 4 = 1) = (v.bit (F.POS_CFG_INV a) = false) then 1 else -1
    let w := v.modPos a fun p => { p with count := p.count + sg }
    let dx := w.posBase a - v.posBase a
    ((w.posMove a (ts / 10 * 10) (if dx = 0 then sg else dx) (w.posStep a) [(v.posInterval a (ts / 10 * 10), dx)]).missingIndex a).posPublish a)) ∧
  (∀ (s : State) (t : Nat) (a : Fin 2) (pat : BitVec 3) (ts : Nat), let u := s.upTo t
    u.ctlOn = true →
    u.posSrc a = 3 →
    u.accepted (10 * u.rd (F.POS_FILT_HALL_N a)) (ts / 10 * 10) = true →
    hallSector (u.bit (F.POS_CFG_INV a)) pat = none →
    exec (.hallTransition t a pat ts) s = .next (
    let v := u.hi (F.POS_STAT_HALL_BAD a)
    (v.modPos a fun p => match p.hallBad with
      | some _ => p
      | none => { p with hallBad := some v.now, held := v.posLive a }).posPublish a)) ∧
  (∀ (s : State) (t : Nat) (a : Fin 2) (pat : BitVec 3) (ts : Nat) (k : Nat) (o : Nat), let u := s.upTo t
    u.ctlOn = true →
    u.posSrc a = 3 →
    u.accepted (10 * u.rd (F.POS_FILT_HALL_N a)) (ts / 10 * 10) = true →
    hallSector (u.bit (F.POS_CFG_INV a)) pat = some k →
    (u.pos a).sector = some o →
    (k + 6 - o) % 6 = 1 →
    exec (.hallTransition t a pat ts) s = .next (
    let v := u.modPos a fun p => { p with sector := some k, hallBad := none }
    let v := v.cond (v.posRef a == 0) fun s => s.wr (F.POS_ANG_REF a) 1
    let d : Int := signed 16 (State.hallBound k + v.rd (F.POS_REF_ANG_OFS a) + 65536 - wrapN 16 ((v.posBase a).fdiv 65536))
    let w := v.modPos a fun p => { p with edges := p.edges + 1, base := p.base + d * 65536 }
    (w.posMove a (ts / 10 * 10) (if d = 0 then 1 else d * 65536) ((State.hallBound (k + 1) + 65536 - State.hallBound k) % 65536 * 65536)
      [(w.posInterval a (ts / 10 * 10), d * 65536)]).posPublish a)) ∧
  (∀ (s : State) (t : Nat) (a : Fin 2) (x : Nat), let u := s.upTo t
    u.ctlOn = true →
    u.posSrc a = 3 →
    (u.pos a).hallBad = some x →
    x + 1000000 ≤ u.now →
    exec (.hallBadTimeout t a) s = .next ((u.posFail a 6).posPublish a)) ∧
  (∀ (s : State) (t : Nat) (a : Fin 2) (lb : Bool) (ts : Nat) (tp : Nat), let u := s.upTo t
    u.ctlOn = true →
    u.posSrc a = 4 →
    u.accepted (u.rd (F.POS_FILT_ENC_N a)) (ts / 10 * 10) = true →
    (u.pos a).tPrev = some tp →
    (u.pos a).refIv = 0 →
    exec (.toothEdge t a lb ts) s = .next (
    let neg := if u.bit (F.POS_CFG_TRAIN_B a) then lb else u.bit (F.POS_CFG_TRAIN_DIR a)
    let sg : Int := if neg = u.bit (F.POS_CFG_INV a) then 1 else -1
    let tooth : Int := u.rd (F.POS_TOOTH_TOOTH_ANG a)
    let v := u.modPos a fun p => { p with b := lb, tPrev := some (ts / 10 * 10), edges := p.edges + 1 }
    let v := v.modPos a fun p => { p with count := p.count + sg * (1 : Nat), teeth := p.teeth + 1 }
    let v := v.posMove a (ts / 10 * 10) (sg * tooth * (1 : Nat)) tooth.toNat [(ts / 10 * 10 - tp, sg * tooth)]
    ((v.modPos a fun p => { p with refIv := ts / 10 * 10 - tp }).missingIndex a).posPublish a)) ∧
  (∀ (s : State) (t : Nat) (a : Fin 2) (lb : Bool) (ts : Nat), let u := s.upTo t
    u.ctlOn = true →
    u.posSrc a = 4 →
    u.accepted (u.rd (F.POS_FILT_ENC_N a)) (ts / 10 * 10) = true →
    (u.pos a).tPrev = none →
    exec (.toothEdge t a lb ts) s = .next (
    let neg := if u.bit (F.POS_CFG_TRAIN_B a) then lb else u.bit (F.POS_CFG_TRAIN_DIR a)
    let sg : Int := if neg = u.bit (F.POS_CFG_INV a) then 1 else -1
    let tooth : Int := u.rd (F.POS_TOOTH_TOOTH_ANG a)
    let v := u.modPos a fun p => { p with b := lb, tPrev := some (ts / 10 * 10), edges := p.edges + 1 }
    let v := v.modPos a fun p => { p with count := p.count + sg * (1 : Nat), teeth := p.teeth + 1 }
    ((v.posMove a (ts / 10 * 10) (sg * tooth * (1 : Nat)) tooth.toNat []).missingIndex a).posPublish a)) ∧
  (∀ (s : State) (t : Nat) (a : Fin 2) (ts : Nat), let u := s.upTo t
    u.ctlOn = true →
    u.posSrc a = 1 →
    u.accepted (u.rd (F.POS_FILT_ENC_N a)) ts = true →
    u.bit (F.POS_CFG_Z_EN a) = true →
    (u.bit (F.POS_CFG_Z_GATE a) = false ∨ ((u.pos a).a = true ∧ (u.pos a).b = true)) →
    (u.pos a).indexMt = none →
    exec (.indexPulse t a ts) s = .next (
    ((u.atReference a).modPos a fun p => { p with
      indexMt := some (((u.atReference a).posBase a).fdiv 65536), travel := 0 }).posPublish a)) ∧
  (∀ (s : State) (t : Nat) (a : Fin 2) (ts : Nat) (m : Int), let u := s.upTo t
    u.ctlOn = true →
    u.posSrc a = 1 →
    u.accepted (u.rd (F.POS_FILT_ENC_N a)) ts = true →
    u.bit (F.POS_CFG_Z_EN a) = true →
    (u.bit (F.POS_CFG_Z_GATE a) = false ∨ ((u.pos a).a = true ∧ (u.pos a).b = true)) →
    (u.pos a).indexMt = some m →
    exec (.indexPulse t a ts) s = .next (
    let v := if u.posRef a = 2 then
        let mech : Int := u.polePairs a * 65536
        let d := (u.posBase a).fdiv 65536 - m
        let r := d - (d + mech / 2).fdiv mech * mech
        u.lineCount a (roundDiv (r * (4 * u.encLines a : Nat)) (u.polePairs a * 65536))
      else u
    ((v.atReference a).modPos a fun p => { p with
      indexMt := some (((v.atReference a).posBase a).fdiv 65536), travel := 0 }).posPublish a)) ∧
  (∀ (s : State) (t : Nat) (a : Fin 2) (sin : Int) (cos : Int) (neg : Bool) (discarded : Bool), let u := s.upTo t
    u.converting = true →
    u.posSrc a = 2 →
    (if a = 0 then u.pins.exc0 else u.pins.exc1) = true →
    (u.pos a).excAt + u.excHalf a / 2 + 100 * u.rd (F.POS_RES_RES_DLY a) ≤ u.now →
    (u.pos a).crest ≤ (u.now - ((u.pos a).excAt + u.excHalf a / 2 + 100 * u.rd (F.POS_RES_RES_DLY a))) / u.excHalf a →
    (u.adc.taking.any (fun sc => decide (u.now < sc.endAt)) || !u.adc.queue.isEmpty) = false →
    neg = (((u.now - ((u.pos a).excAt + u.excHalf a / 2 + 100 * u.rd (F.POS_RES_RES_DLY a))) / u.excHalf a) % 2 == 1) →
    discarded = decide ((u.pos a).excAt + u.excHalf a / 2 + 100 * u.rd (F.POS_RES_RES_DLY a) + ((u.now - ((u.pos a).excAt + u.excHalf a / 2 + 100 * u.rd (F.POS_RES_RES_DLY a))) / u.excHalf a) * u.excHalf a + 2000 < u.now) →
    ∃ r_ : State, exec (.resolverSample t a sin cos neg discarded) s = .next r_ ∧
      (fun r =>
      let first := (u.pos a).excAt + u.excHalf a / 2 + 100 * u.rd (F.POS_RES_RES_DLY a)
      let k := (u.now - first) / u.excHalf a
      let v := ((u.modPos a fun p => { p with crest := k + 1 }).modAdc fun x => { x with pairAt := u.now + 1 }).resolverLoss a sin cos discarded
      (discarded = true → r = v.posPublish a) ∧
      (discarded = false → r = (v.resolverTrack a (if neg then -sin else sin) (if neg then -cos else cos)).posPublish a) ∧
      (∀ w : State, w.resolverLoss a sin cos true = (
        let w := w.modPos a fun p => { p with discRun := p.discRun + 1 }
        let gap := decide (3 ≤ (w.pos a).discRun)
        let w := w.cond gap fun s => s.modPos a fun p => { p with discRun := 0 }
        let w := if gap then ((w.hi (F.POS_STAT_LOS a)).posCount (F.POS_CNT_RES_CNT a) a).modPos a fun p => { p with losRun := p.losRun + 1 }
          else w
        w.cond (decide (3 ≤ (w.pos a).losRun)) fun s => s.posFail a 4)) ∧
      (∀ w : State, w.resolverLoss a sin cos false = (
        let w := w.modPos a fun p => { p with discRun := 0 }
        let w := w.cond (decide (3 ≤ (w.pos a).discRun)) fun s => s.modPos a fun p => { p with discRun := 0 }
        let nom := 256 * w.rd (F.POS_RES_AMP_NOM a)
        let amp2 : Int := sin * sin + cos * cos
        let w := if decide (4 * amp2 < (nom * nom : Nat)) || decide ((9 * nom * nom : Nat) < 4 * amp2) then
            ((w.hi (F.POS_STAT_LOS a)).posCount (F.POS_CNT_RES_CNT a) a).modPos a fun p => { p with losRun := p.losRun + 1 }
          else w.modPos a fun p => { p with losRun := 0 }
        w.cond (decide (3 ≤ (w.pos a).losRun)) fun s => s.posFail a 4)) ∧
      ∀ (v : State) (sn cs : Int), v.resolverTrack a sn cs = (
        let th := Config.resolverLoop v.fresh (v.resBw a) sn cs
        let v : State := { v with fresh := v.fresh + 1 }
        let ratio := v.polePairs a / max 1 (v.rd (F.POS_RES_RES_PP a))
        let ang : Nat := (ratio * (th.1 % 2 ^ 32) + 65536 * v.rd (F.POS_REF_ANG_OFS a)) % 2 ^ 32
        let v := v.modPos a fun p =>
          let d := signed 32 ((ang : Int) - p.base % 2 ^ 32 + 2 ^ 32).toNat
          { p with base := p.base + d, spd := th.2.1 * ratio, sampleAt := v.now
                   lockRun := if th.2.2 * 256 < 2 ^ 32 then p.lockRun + 1 else 0
                   lotRun := if p.locked ∧ 2 ^ 32 < th.2.2 * 64 then p.lotRun + 1 else 0 }
        let v := v.cond (decide (0 < (v.pos a).lotRun)) fun s => (s.hi (F.POS_STAT_LOT a)).posCount (F.POS_CNT_RES_CNT a) a
        let v := v.cond (decide (3 ≤ (v.pos a).lotRun)) fun s => s.posFail a 5
        if 32 ≤ (v.pos a).lockRun ∧ (v.pos a).locked = false ∧ v.posCfgBad a = false then
          ((v.modPos a fun p => { p with locked := true }).wr (F.POS_ANG_REF a) 2).event 0x0A08 a
        else v)) r_)

/-- With CTL powered the speed follows the time since the last edge; with SAFE powered too, the next frame of an axis
carries its angle, speed, reference, FAIL and sequence number to Uzodar when it is valid, and only counts when it is
not; 10 µs without one make the position unavailable and activate row 13 in RUN and LIMP; a compare hit at a distance
that was negative, 50 ns or more after the last one, sets HIT with its chain time, advances CMP past the position, and
counts what it skipped. The instants are the model's (log entries 4 and 7). -/
def Obligations.PositionFramesAndCompareComplete : Prop :=
  (∀ (s : State) (t : Nat) (a : Fin 2), let u := s.upTo t
    u.ctlOn = true →
    exec (.edgeTimeout t a) s = .next (u.posPublish a)) ∧
  (∀ (s : State) (t : Nat) (a : Fin 2) (ok : Bool), let u := s.upTo t
    u.ctlOn = true →
    u.safeOn = true →
    exec (.positionFrame t a ok) s = .next (
    let v := (u.modPos a fun p => { p with fseq := (p.fseq + 1) % 16 }).posPublish a
    if ok then
      ((v.modUz a fun x => { x with
        posLost := false
        frame := some ⟨v.rd (F.POS_ANG_ANGLE a), signed 32 (v.reg (R.POS_SPD a)).toNat, v.posRef a,
          v.bit (F.POS_ANG_FAIL a), (v.pos a).fseq, v.now⟩ }).speedMark a |>.emfMark a).brakeTravel a
    else v)) ∧
  (∀ (s : State) (t : Nat) (a : Fin 2), let u := s.upTo t
    u.safeOn = true →
    (u.uzAx a).posLost = false →
    (u.uzAx a).frame = none →
    exec (.positionFrameTimeout t a) s = .next (
    let v := u.modUz a fun x => { x with posLost := true, frame := none, slowAt := none, fastAt := none }
    if v.running a then v.activateRow 13 a else v)) ∧
  (∀ (s : State) (t : Nat) (a : Fin 2) (f : PosFrame), let u := s.upTo t
    u.safeOn = true →
    (u.uzAx a).posLost = false →
    (u.uzAx a).frame = some f →
    f.at_ + 10000 ≤ u.now →
    exec (.positionFrameTimeout t a) s = .next (
    let v := u.modUz a fun x => { x with posLost := true, frame := none, slowAt := none, fastAt := none }
    if v.running a then v.activateRow 13 a else v)) ∧
  (∀ (s : State) (t : Nat) (a : Fin 2), let u := s.upTo t
    u.ctlOn = true →
    u.bit (F.POS_CMP_CTL_EN a) = true →
    0 ≤ signed 32 (u.liveMt a + 2 ^ 32 - (u.reg (R.POS_CMP a)).toNat) →
    (u.pos a).near = true →
    ((u.pos a).hitAt = 0 ∨ (u.pos a).hitAt + 50 ≤ u.now + 1) →
    0 < signed 32 (u.reg (R.POS_STEP a)).toNat →
    exec (.compareHit t a) s = .next (
    let step := signed 32 (u.reg (R.POS_STEP a)).toNat
    let cmp := (u.reg (R.POS_CMP a)).toNat
    let past := signed 32 (u.liveMt a + 2 ^ 32 - cmp)
    let skipped : Nat := past.toNat / step.natAbs
    let v := (u.modPos a fun p => { p with hitAt := u.now + 1 }).hi (F.POS_CMP_CTL_HIT a)
    let v := v.wr64 (R.POS_HIT_LO a) (R.POS_HIT_HI a) v.ct
    let v := v.cond (v.bit (F.POS_CMP_CTL_OUT a) && Config.gpioDedicated a) fun s => s.emit (.pulse a)
    let v := (v.setReg (R.POS_CMP a) (BitVec.ofNat 32 (wrapN 32 (cmp + step * (skipped + 1))))).cmpJudge a
    if skipped = 0 then v
    else ((v.wrSat (F.POS_CMP_CTL_SKIP_CNT a) (v.rd (F.POS_CMP_CTL_SKIP_CNT a) + skipped)).hi (F.POS_CMP_CTL_SKIP a)).event
      0x0A06 a)) ∧
  (∀ (s : State) (t : Nat) (a : Fin 2), let u := s.upTo t
    u.ctlOn = true →
    u.bit (F.POS_CMP_CTL_EN a) = true →
    0 ≤ signed 32 (u.liveMt a + 2 ^ 32 - (u.reg (R.POS_CMP a)).toNat) →
    (u.pos a).near = true →
    ((u.pos a).hitAt = 0 ∨ (u.pos a).hitAt + 50 ≤ u.now + 1) →
    signed 32 (u.reg (R.POS_STEP a)).toNat = 0 →
    exec (.compareHit t a) s = .next (
    let v := (u.modPos a fun p => { p with hitAt := u.now + 1 }).hi (F.POS_CMP_CTL_HIT a)
    let v := v.wr64 (R.POS_HIT_LO a) (R.POS_HIT_HI a) v.ct
    let v := v.cond (v.bit (F.POS_CMP_CTL_OUT a) && Config.gpioDedicated a) fun s => s.emit (.pulse a)
    ((v.setReg (R.POS_CMP a) (BitVec.ofNat 32 (wrapN 32 ((u.reg (R.POS_CMP a)).toNat)))).lo (F.POS_CMP_CTL_EN a)).cmpJudge a))

/-- REARM latches a new reference outside RUN and LIMP; a START held for RUN_OK begins its catch once RUN_OK is set and
completes TIMEOUT where it stays clear; a catch that has lasted 2.0 ms ends in RUN (at standstill, forward, or
backward with braking), in an I/f start, or with VETO and event 0x0628 or 0x0629; an I/f or braking limit takes the
axis to HOLD with event 0x062B; 20 ms of coast activate row 23; a due tick moves profile and handover; REARM, GO and
HALT act with CTL powered where a core or the debugger can store (log entry 114). The instants are the model's (log
entries 4 and 7). Further choices of the model: log entries 24, 26, 48, 83. -/
def Obligations.StartsAndMotionComplete : Prop :=
  (∀ (s : State) (t : Nat) (a : Fin 2), let u := s.upTo t
    u.ctlOn = true →
    u.stores = true →
    u.running a = false →
    exec (.rearm t a) s = .next (u.preLatch a)) ∧
  (∀ (s : State) (t : Nat) (a : Fin 2) (c : Cmd) (x : Nat), let u := s.upTo t
    (u.fc a).held = some (c, x) →
    u.bit F.SYS_MODE_RUN_OK = true →
    exec (.heldStartRelease t a) s = .next (u.startCatch a c)) ∧
  (∀ (s : State) (t : Nat) (a : Fin 2) (c : Cmd) (x : Nat), let u := s.upTo t
    (u.fc a).held = some (c, x) →
    u.bit F.SYS_MODE_RUN_OK = false →
    u.power.wokeAt + 10000000 ≤ u.now →
    x + 10000000 ≤ u.now →
    exec (.startTimeout t a) s = .next ((u.modFc a fun f => { f with held := none }).complete c stTimeout 0)) ∧
  (∀ (s : State) (t : Nat) (a : Fin 2) (pvSpd : Int) (pvE : Nat) (c : Cmd) (x : Nat), let u := s.upTo t
    (u.fc a).catch_ = some (c, x) →
    x + 2000000 ≤ u.now →
    u.posValid a = true →
    (u.fc a).implausible = false →
    exec (.catchEnd t a pvSpd pvE) s = .next (
    let w := u.posSpeed a
    let e : Nat := if u.pvNamed a then pvE else u.rd (F.FSL_FC_SAFE_KE a) * w.natAbs / 65536
    let ang := if u.posRef a == 2 then u.liveMt a % 65536
      else if 2 * e < u.rd (F.FSL_FC_OBS_E_MIN a) * 1000 then 0 else u.rd (F.FSL_FC_OBSA_OBS_ANG a)
    let v := ((u.setReg (R.FSL_FC_CATCHV a) (BitVec.ofNat 32 (wrapN 32 w))).wr (F.FSL_FC_CATCHA_CATCH_ANG a) ang).wrSat
      (F.FSL_FC_CATCHA_CATCH_E a) (e / 1000)
    if decide (v.votedVdcMv a ≤ e) || (v.fc a).diode then (v.endCatch a 5 stVeto c).event 0x0629 a
    else if u.still a w then
      match v.stillRow a with
      | 0 => v.runAfterCatch a 1 c
      | 1 => (v.runAfterCatch a 1 c).startIf a
      | _ => (v.endCatch a 1 stVeto c).event 0x0628 a
    else if v.direction a = 0 ∨ v.direction a = State.sgn w then
      (v.runAfterCatch a 2 c).modFc a fun f => { f with
        omega := w, preset := 1, presetE := e, rampAt := some (v.runAfterCatch a 2 c).now, rampD := 0#32, rampQ := 0#32 }
    else if v.bit (F.FSL_FC_CFG_BACK_BRAKE a) then
      (v.runAfterCatch a 3 c).modFc a fun f => { f with
        omega := w, brakeAt := some (v.runAfterCatch a 3 c).now, brakeUp := decide (0 < w) }
    else (v.endCatch a 4 stVeto c).event 0x0628 (a + 256))) ∧
  (∀ (s : State) (t : Nat) (a : Fin 2) (x : Nat), let u := s.upTo t
    ((u.fc a).ifAt = some x ∨ (u.fc a).brakeAt = some x) →
    x + max 1 (u.rd (F.FSL_FC_IF_IF_TMAX a)) * 100000000 ≤ u.now →
    exec (.ifTimeout t a) s = .next ((u.event 0x062B a).setAxMode a 5)) ∧
  (∀ (s : State) (t : Nat) (a : Fin 2), let u := s.upTo t
    u.bit (F.FSL_FC_STAT_COAST a) = true →
    (u.fc a).reacqDone = false →
    (u.fc a).coastAt + 20000000 ≤ u.now →
    exec (.coastTimeout t a) s = .next ((u.event 0x0626 a).activateRow 23 a)) ∧
  (∀ (s : State) (t : Nat) (a : Fin 2), let u := s.upTo t
    u.tickDue a = true →
    exec (.servoTick t a) s = .next (
    ((u.motTick a).hovTick a).innerMail.cond (((u.motTick a).hovTick a).innerMail.srcAxis == a) fun s =>
      { s with cores := { s.cores with ticks := s.cores.ticks + 1 } })) ∧
  (∀ (s : State) (t : Nat) (a : Fin 2) (table : Bool), let u := s.upTo t
    u.ctlOn = true →
    u.stores = true →
    exec (.go t a table) s = .next (u.motGo a table)) ∧
  (∀ (s : State) (t : Nat) (a : Fin 2) (table : Bool), let u := s.upTo t
    u.ctlOn = true →
    u.stores = true →
    exec (.halt t a table) s = .next (u.motHalt a table))

/-- A due giver sends PREARM; an awake unit that can take prepares for one, and one that is no neighbour answers ABORT; a
taker in READY whose gate-path test passed arms and sends READY, and a failed test activates row 31; the giver starts
the stream on a matching line signature, and a unit that gives nothing answers ABORT; a STATE frame is taken into the
taker's coordinates; an ECHO is compared, RELEASE hands the vehicle over, ABORT ends the handover, a missing STATE
frame counts, and IDLE_T after the last release requests WATCH. The instants are the model's (log entries 4 and 7).
Further choices of the model: log entries 24, 25, 69, 102, 121. -/
def Obligations.HandoversPassBetweenUnits : Prop :=
  (∀ (s : State) (t : Nat) (a : Fin 2), let u := s.upTo t
    u.segment a = true →
    u.running a = true →
    u.neighbour a (decide ((u.pos a).snap.speed < 0)) ≠ 0 →
    (u.pos a).snap.speed ≠ 0 →
    ((u.pos a).snap.speed < 0 → u.bit F.MOT_HOV_POL_ALLOW_REV = true) →
    State.hovReached (decide ((u.pos a).snap.speed < 0)) (u.snapMt a) (u.overlapEdges a (decide ((u.pos a).snap.speed < 0)) (decide ((u.pos a).snap.speed < 0))).1 = false →
    (signed 32 (u.snapMt a + 2 ^ 32 - (u.overlapEdges a (decide ((u.pos a).snap.speed < 0)) (decide ((u.pos a).snap.speed < 0))).1)).natAbs * 1000 ≤ max 5 (min 50 (u.rd F.MOT_HOV_POL_LEAD_MS)) * (u.pos a).snap.speed.natAbs →
    (u.hov a).prearmAt = none →
    u.hovState a = 0 →
    exec (.prearmSend t a) s = .next (
    let sp := (u.pos a).snap.speed
    let dir := decide (sp < 0)
    let dist := (signed 32 (u.snapMt a + 2 ^ 32 - (u.overlapEdges a dir dir).1)).natAbs
    let v := u.event 0x0B10 a
    let v := ((v.wr (F.MOT_HOV_STAT_STATE a) 1).wr (F.MOT_HOV_STAT_ROLE a) 1).wrB (F.MOT_HOV_STAT_DIR a) dir
    let v := v.modHov a fun h => { h with prearmAt := some v.now, solo := false, echoBad := 0, rx := none }
    (v.sendHov a dir 0x03 (beBytes 1 dir.toNat ++ beBytes 3 0
      ++ beBytes 8 ((v.ct + dist * 1000000000 / max 1 sp.natAbs) % 2 ^ 64))).innerMail)) ∧
  (∀ (s : State) (t : Nat) (a : Fin 2) (up : Bool) (dirUp : Bool), let u := s.upTo t
    u.awake = true →
    a.val = u.portAxis up →
    u.neighbour a up = 1 →
    u.segment a = true →
    u.axMode a ≠ 5 →
    u.running a = false →
    up ≠ dirUp →
    u.handingOver a = false →
    exec (.prearmReceive t a up dirUp) s = .next (
    let v : State := { u with chain := { u.chain with preWoke := false }, hovIdle := u.hovIdle.map fun _ => u.now }
    let v := ((v.wr (F.MOT_HOV_STAT_STATE a) 1).wr (F.MOT_HOV_STAT_ROLE a) 2).wrB (F.MOT_HOV_STAT_DIR a) dirUp
    let v := v.modHov a fun _ => {}
    v.cond u.chain.preWoke fun s => s.event 0x0B11 a)) ∧
  (∀ (s : State) (t : Nat) (a : Fin 2) (up : Bool) (dirUp : Bool), let u := s.upTo t
    u.awake = true →
    a.val = u.portAxis up →
    (u.segment a = false ∨ u.neighbour a up ≠ 1) →
    exec (.prearmReceive t a up dirUp) s = .next (
    (({ u with chain := { u.chain with preWoke := false }, hovIdle := u.hovIdle.map fun _ => u.now } : State).portAbort a up
      8).cond u.chain.preWoke fun s => s.event 0x0B11 a)) ∧
  (∀ (s : State) (t : Nat) (a : Fin 2) (pathOk : Bool), let u := s.upTo t
    u.segment a = true →
    u.hovTaker a = true →
    u.hovState a = 1 →
    u.axMode a = 2 →
    u.armable a = true →
    pathOk = true →
    exec (.takerReadySend t a pathOk) s = .next (
    let v := (u.modFc a fun f => { f with armed := true }).wr (F.MOT_HOV_STAT_STATE a) 2
    (v.sendHov a (v.hovSideUp a) 0x08 (beBytes 4 (Config.lineSignature (v.lineWords a)).toNat
      ++ beBytes 2 (v.hovDirUp a).toNat ++ beBytes 2 0)).innerMail)) ∧
  (∀ (s : State) (t : Nat) (a : Fin 2) (pathOk : Bool), let u := s.upTo t
    u.segment a = true →
    u.hovTaker a = true →
    u.hovState a = 1 →
    u.axMode a = 2 →
    u.armable a = true →
    pathOk = false →
    exec (.takerReadySend t a pathOk) s = .next (u.activateRow 31 a)) ∧
  (∀ (s : State) (t : Nat) (a : Fin 2) (sig : Word), let u := s.upTo t
    u.segment a = true →
    u.hears a (u.hovDirUp a) = true →
    u.hovTaker a = false →
    u.hovGiver a = true →
    u.running a = true →
    u.hovState a = 1 →
    State.hovReached (u.hovDirUp a) (u.snapMt a) (u.overlapEdges a (u.hovDirUp a) (u.hovDirUp a)).1 = false →
    exec (.readyReceive t a sig) s = .next (
    if sig = Config.lineSignature (u.lineWords a) then
      ((u.wr (F.MOT_HOV_STAT_STATE a) 3).modHov a fun h => { h with solo := false, echoBad := 0 }).event 0x0B12 a
    else (((u.sendAbort a (u.hovDirUp a) 2).hovAborted a).modHov a fun h => { h with solo := true }))) ∧
  (∀ (s : State) (t : Nat) (a : Fin 2) (sig : Word), let u := s.upTo t
    u.segment a = true →
    u.hears a (u.hovDirUp a) = true →
    u.hovTaker a = false →
    (u.hovGiver a = false ∨ u.running a = false) →
    exec (.readyReceive t a sig) s = .next (u.sendAbort a (u.hovDirUp a) 1)) ∧
  (∀ (s : State) (t : Nat) (a : Fin 2) (up : Bool) (mt : Word) (spd : BitVec 16) (cur : BitVec 16) (tFirst : Nat), let u := s.upTo t
    u.segment a = true →
    u.hears a up = true →
    u.hovTaker a = true →
    up = u.hovSideUp a →
    (u.hovState a = 2 ∨ u.hovState a = 4) →
    -32767 < signed 16 spd.toNat →
    signed 16 spd.toNat < 32767 →
    exec (.stateReceive t a up mt spd cur tFirst) s = .next (
    let dl := if u.neighbour a up = 2 then 0 else u.rd (F.CHN_DLINK_DLINK (if up then 0 else 1))
    let lat : Int := if u.neighbour a up = 2 then 0 else 104
    let r : HovRx := ⟨(mt.toNat + u.hovOfs a up) % 2 ^ 32, signed 16 spd.toNat * 1024, signed 16 cur.toNat,
      (tFirst : Int) - lat - looseDiv 11 dl 1000, up⟩
    (u.modHov a fun h => { h with rx := some r, rxAt := u.now, lost := 0 }).capture (.offer a r.cur))) ∧
  (∀ (s : State) (t : Nat) (a : Fin 2) (mt : Word) (flags : BitVec 16) (tFirst : Nat), let u := s.upTo t
    u.hears a (u.hovSideUp a) = true →
    u.hovGiver a = true →
    u.hovState a = 3 →
    exec (.echoReceive t a mt flags tFirst) s = .next (
    let far := decide (u.rd F.MOT_HOV_POL_POS_TOL
      < (signed 32 ((mt.toNat + u.hovOfs a (u.hovSideUp a)) % 2 ^ 32 + 2 ^ 32 - u.snapMt a)).natAbs)
    let n := if far then (u.hov a).echoBad + 1 else 0
    let v := (u.modHov a fun h => { h with echoBad := n }).keepEcho a ((mt.toNat + u.hovOfs a (u.hovSideUp a)) % 2 ^ 32)
      (flags.getLsbD 1) ((u.modHov a fun h => { h with echoBad := n }).capturedAt a (u.hovSideUp a) tFirst)
    if n = 3 then ((v.sendAbort a (u.hovSideUp a) 4).hovAborted a).modHov a fun h => { h with solo := true } else v)) ∧
  (∀ (s : State) (t : Nat) (a : Fin 2) (cur : BitVec 16), let u := s.upTo t
    u.hears a (u.hovSideUp a) = true →
    u.hovTaker a = true →
    u.hovState a = 4 →
    exec (.releaseReceive t a cur) s = .next ((u.modHov a fun h => { h with rx := h.rx.map fun r => { r with cur := signed 16 cur.toNat } }).hovHolding a)) ∧
  (∀ (s : State) (t : Nat) (a : Fin 2) (cur : BitVec 16), let u := s.upTo t
    u.hears a (u.hovSideUp a) = true →
    u.hovGiver a = true →
    u.hovTaker a = false →
    u.hovState a = 3 →
    exec (.releaseReceive t a cur) s = .next ((u.wr (F.MOT_HOV_STAT_STATE a) 5).modHov a fun h => { h with prearmAt := none, solo := false })) ∧
  (∀ (s : State) (t : Nat) (a : Fin 2) (reason : BitVec 8), let u := s.upTo t
    u.segment a = true →
    u.hears a (u.hovSideUp a) = true →
    exec (.abortReceive t a reason) s = .next (
    let v := ((u.hi (F.MOT_HOV_STAT_ABORT_RX a)).hovCountAbort a reason.toNat).event 0x0B17 (a + 256 * reason.toNat)
    if !v.handingOver a then v
    else if v.hovGiver a then (v.hovAborted a).modHov a fun h => { h with solo := true }
    else if v.hovState a = 4 then
      if reason = 4#8 then (v.stopAxis a).wr (F.MOT_HOV_STAT_STATE a) 0 else v.hovHolding a
    else if v.hovState a = 1 ∧ reason = 1#8 then v
    else (v.hovAborted a).modFc a fun f => { f with armed := false })) ∧
  (∀ (s : State) (t : Nat) (a : Fin 2), let u := s.upTo t
    u.hovTaker a = true →
    (u.hov a).rx.isSome = true →
    (u.hovState a = 2 ∨ u.hovState a = 4) →
    (u.hov a).rxAt + ((u.hov a).lost + 1) * u.tickPeriod a + 2000 ≤ u.now →
    exec (.stateFrameLoss t a) s = .next (
    let n := (u.hov a).lost + 1
    let v := u.modHov a fun h => { h with lost := n }
    if n = max 1 (v.rd F.MOT_HOV_POL_MISS_N) then
      if v.hovState a = 2 then
        (((v.sendAbort a (v.hovSideUp a) 3).hovAborted a).modFc a fun f => { f with armed := false }).innerMail
      else (v.hi (F.MOT_HOV_STAT_STATE_LOSS a)).event 0x0B18 a
    else v)) ∧
  (∀ (s : State) (t : Nat) (x : Nat), let u := s.upTo t
    u.hovIdle = some x →
    u.bit F.MOT_HOV_POL_AUTO_WATCH = true →
    x + max 1 (u.rd F.MOT_HOV_IDLE_IDLE_T) * 1000000 ≤ u.now →
    u.awake = true →
    u.passing = true →
    (u.axes.any u.running) = false →
    exec (.idleTimeout t) s = .next (
    let v := ({ u with hovIdle := none } : State).event 0x0B1A u.hovIdleAx
    if (u.axes.all fun a => u.axMode a == 2 || u.axMode a == 5)
        && !(u.axes.any fun a => (u.fc a).catch_.isSome || (u.fc a).held.isSome) then
      v.enterWatch
    else v))

/-- With AO powered, RESET_N low in Winter is only remembered and otherwise resets every domain but AO and SAFE, in READY
or above with row 4 first; its release resumes with a Thaw; a wake pin wakes where it is enabled; a rail inside its
window powers its domains; a missed window abandons the wake; a fallen rail takes the sequence on; AO power-on starts
a Thaw from Winter, and a brown-out takes every domain down. The instants are the model's (log entries 4 and 7).
Further choices of the model: log entries 9, 38, 51, 73, 75. -/
def Obligations.ResetAndWakeSequencesComplete : Prop :=
  (∀ (s : State) (t : Nat), let u := s.upTo t
    u.power.resetLow = false →
    u.power.ao = true →
    u.awake = false →
    u.power.phase = .rest →
    u.mode = 0 →
    exec (.resetNAssert t) s = .next (u.modPwr fun p => { p with resetLow := true })) ∧
  (∀ (s : State) (t : Nat), let u := s.upTo t
    u.power.resetLow = false →
    u.power.ao = true →
    u.awake = false →
    (u.power.phase ≠ .rest ∨ u.mode ≠ 0) →
    exec (.resetNAssert t) s = .next (u.resetAll.modPwr fun p => { p with resetLow := true, phase := .held, latched := 0 })) ∧
  (∀ (s : State) (t : Nat), let u := s.upTo t
    u.power.resetLow = false →
    u.power.ao = true →
    u.awake = true →
    exec (.resetNAssert t) s = .next (
    if (u.activateRow 4 0).power.phase == .rest && (u.activateRow 4 0).mode == 0 then
      (u.activateRow 4 0).modPwr fun p => { p with resetLow := true }
    else (u.activateRow 4 0).resetAll.modPwr fun p => { p with resetLow := true, phase := .held, latched := 0 })) ∧
  (∀ (s : State) (t : Nat) (wake : Bool) (boot : BootIn), let u := s.upTo t
    u.power.resetLow = true →
    exec (.resetNRelease t wake boot) s = .next (
    let v := (u.modPwr fun p => { p with resetLow := false, bistFails := min 1 p.bistFails }).hi F.PCK_WAKE_SRC_RESET_PIN
    let v := v.cond wake fun s => s.hi F.PCK_WAKE_SRC_WAKE_PIN
    let up := v.power.en3 && v.power.vio && v.power.vsafe && v.power.vcore && v.power.vana
    let v := v.cond v.power.vcore fun s => (s.modPwr fun p => { p with cpu := .on, ctl := .on }).commUp.gdcRefresh
    let v := (v.cond v.power.vana State.anaUp).startThaw
    if up then v.boot boot else v)) ∧
  (∀ (s : State) (t : Nat) (pin : Fin 3), let u := s.upTo t
    (pin = 1 → u.bit F.PCK_WAKE_EN_CAN0 = true) →
    (pin = 2 → u.bit F.PCK_WAKE_EN_CAN1 = true) →
    exec (.wakePinRequest t pin) s = .next (
    if pin = 0 then u.wake F.PCK_WAKE_SRC_WAKE_PIN
    else if pin = 1 then u.wake F.PCK_WAKE_SRC_CAN0 else u.wake F.PCK_WAKE_SRC_CAN1)) ∧
  (∀ (s : State) (t : Nat) (rail : Fin 4), let u := s.upTo t
    (rail = 0 ∨ rail = 1) →
    u.power.en0 = true →
    exec (.railInWindow t rail) s = .next (
    (if rail = 0 then (if u.power.vio then u else (u.modPwr fun p => { p with vio := true, io := true }).soUpdate)
    else if u.power.vsafe then u else (u.modPwr fun p => { p with vsafe := true }).safeUp).cond
      (u.power.phase == .thaw || u.power.phase == .wakeWatch) State.raise)) ∧
  (∀ (s : State) (t : Nat) (rail : Fin 4), let u := s.upTo t
    rail = 2 →
    u.power.en1 = true →
    u.power.vcore = false →
    exec (.railInWindow t rail) s = .next (
    (if u.power.resetLow then u.modPwr fun p => { p with vcore := true }
      else (u.modPwr fun p => { p with vcore := true }).coreUp).cond
        (u.power.phase == .thaw || u.power.phase == .wakeWatch) State.raise)) ∧
  (∀ (s : State) (t : Nat) (rail : Fin 4), let u := s.upTo t
    rail = 3 →
    u.power.en2 = true →
    u.power.vana = false →
    exec (.railInWindow t rail) s = .next (
    (if u.power.resetLow then u.modPwr fun p => { p with vana := true }
      else (u.modPwr fun p => { p with vana := true }).anaUp).cond
        (u.power.phase == .thaw || u.power.phase == .wakeWatch) State.raise)) ∧
  (∀ (s : State) (t : Nat), let u := s.upTo t
    ((u.power.en0 = true ∧ (u.power.vio = false ∨ u.power.vsafe = false)) ∨ (u.power.en1 = true ∧ u.power.vcore = false) ∨ (u.power.en2 = true ∧ u.power.vana = false)) →
    (u.power.phase = .thaw ∨ u.power.phase = .boot ∨ u.power.phase = .wakeWatch) →
    exec (.thawAbort t) s = .next ((((u.wr F.SYS_MODE_PHASE 0).recordHold).hi F.PCK_WAKE_SRC_THAW_ABORT).lower)) ∧
  (∀ (s : State) (t : Nat) (en : Fin 4), let u := s.upTo t
    en = 3 →
    u.power.en2 = true →
    u.power.en3 = false →
    (u.power.phase = .watchDown ∨ u.power.phase = .abort ∨ u.power.phase = .gateDown) →
    exec (.railFallen t en) s = .next (u.modPwr fun p => { p with en2 := false })) ∧
  (∀ (s : State) (t : Nat) (en : Fin 4), let u := s.upTo t
    en = 2 →
    u.power.en2 = false →
    u.power.en3 = false →
    u.power.phase = .watchDown →
    exec (.railFallen t en) s = .next (((u.modPwr fun p => { p with vana := false }).anaDown).asleep)) ∧
  (∀ (s : State) (t : Nat) (en : Fin 4), let u := s.upTo t
    en = 1 →
    u.power.en1 = false →
    (u.power.phase = .coreDown ∨ u.power.phase = .abort) →
    exec (.railFallen t en) s = .next ((u.modPwr fun p => { p with vcore := false, en0 := false }).coreDown)) ∧
  (∀ (s : State) (t : Nat) (en : Fin 4), let u := s.upTo t
    en = 0 →
    u.power.en0 = false →
    (u.power.phase = .coreDown ∨ u.power.phase = .abort) →
    exec (.railFallen t en) s = .next (u.winter)) ∧
  (∀ (s : State) (t : Nat), let u := s.upTo t
    (u.power.ao = false ∨ u.power.born = true) →
    exec (.aoPowerOn t) s = .next (
    if u.power.resetLow then
      ({ u with ct := 0, power := { resetLow := u.power.resetLow } } : State).classReset [.ao]
    else (({ u with ct := 0, power := { resetLow := u.power.resetLow } } : State).classReset [.ao]).startThaw)) ∧
  (∀ (s : State) (t : Nat), let u := s.upTo t
    u.power.ao = true →
    exec (.aoBrownOut t) s = .next ({ (((u.safeDown.coreDown).anaDown).ioDown).classReset [.ao] with power := { ao := false, resetLow := u.power.resetLow }, ct := 0 }))

/-- A lost domain takes the reaction of R76; a PLL's lock and loss of lock set their bits, count and raise their events,
and a loss while awake activates row 3, with the CPU lost too; a stable crystal starts the changeover, whose end
selects it, and a failing one is reported; the alarm wakes where it is enabled; one keeper tick adds 30,517 ns and a
fraction of 37/64 to CT; the BIST of SHUTDOWN passes on or fails; and BOOT_COMPLETE ends a boot or a wake. The
instants are the model's (log entries 4 and 7). Further choices of the model: log entries 51, 73, 74, 118, 123. -/
def Obligations.ClocksDomainsAndShutdownComplete : Prop :=
  (∀ (s : State) (t : Nat) (d : LostDomain), let u := s.upTo t
    u.awake = true →
    d = .ana →
    u.anaOn = true →
    exec (.domainLost t d) s = .next (((((u.event 0x0104 5).modPwr fun p => { p with vana := false }).anaDown).activateRow 1 0).runOk)) ∧
  (∀ (s : State) (t : Nat) (d : LostDomain), let u := s.upTo t
    u.awake = true →
    d = .ctl →
    u.ctlOn = true →
    exec (.domainLost t d) s = .next (
    ((((u.event 0x0104 3).each (u.event 0x0104 3).axes fun s a => (s.outputsOff a).rowModes a true false).keepDrive.modPwr
      fun p => { p with ctl := .off }).classReset [.ctl]).ctlClear.runOk)) ∧
  (∀ (s : State) (t : Nat) (d : LostDomain), let u := s.upTo t
    u.awake = true →
    d = .comm →
    u.commOn = true →
    exec (.domainLost t d) s = .next (
    let v := (u.event 0x0104 4).activateRow 25 0
    (((v.hif.syncHeld.foldl State.issue v.commandsDrop).modPwr fun p => { p with comm := .off }).classReset
      [.comm, .link]).commClear.runOk)) ∧
  (∀ (s : State) (t : Nat) (d : LostDomain), let u := s.upTo t
    u.awake = true →
    d = .cpu →
    u.cpuOn = true →
    exec (.domainLost t d) s = .next ((((u.modPwr fun p => { p with cpu := .off, lostTold := [2] }).classReset [.cpu]).cpuClear.runOk))) ∧
  (∀ (s : State) (t : Nat) (d : LostDomain), let u := s.upTo t
    u.awake = true →
    d = .safe →
    u.safeOn = true →
    exec (.domainLost t d) s = .next (
    (((u.event 0x0104 0).each (u.event 0x0104 0).axes fun s a => (s.outputsOff a).rowModes a true false).modPwr fun p =>
      { p with vsafe := false }).safeDown.faultN.lower)) ∧
  (∀ (s : State) (t : Nat) (d : LostDomain), let u := s.upTo t
    u.awake = true →
    d = .io →
    u.power.io = true →
    exec (.domainLost t d) s = .next (
    (((((((u.event 0x0104 1).ioDown).lo F.SAF_STAT_STO_A).lo F.SAF_STAT_STO_B).modSaf fun x =>
      { x with diffAt := none }).stoActive).openContactors).soUpdate)) ∧
  (∀ (s : State) (t : Nat) (d : LostDomain), let u := s.upTo t
    u.awake = true →
    d = .vcore →
    u.power.vcore = true →
    exec (.domainLost t d) s = .next (
    ((u.each u.axes fun s a => (s.outputsOff a).rowModes a true false).modPwr fun p =>
      { p with vcore := false, phase := .thaw, lostTold := [2, 3, 4] }).coreDown)) ∧
  (∀ (s : State) (t : Nat) (d : LostDomain) (n : Fin 12), let u := s.upTo t
    u.awake = true →
    d = .gdrv n →
    u.unused n = false →
    exec (.domainLost t d) s = .next ((u.event 0x0104 6).legLoss n)) ∧
  (∀ (s : State) (t : Nat) (d : LostDomain) (n : Fin 12), let u := s.upTo t
    u.awake = true →
    d = .gdrv n →
    u.unused n = true →
    exec (.domainLost t d) s = .next (u)) ∧
  (∀ (s : State) (t : Nat) (b : Bool) (boot : BootIn), let u := s.upTo t
    u.power.vcore = true →
    u.power.resetLow = false →
    u.pllLocked b = false →
    exec (.pllLock t b boot) s = .next (
    let v := ((u.pllSet b true).cond b State.pllbResume).runOk
    if v.power.phase == .wakeWatch && v.bothLocked then
      (v.modPwr fun p => { p with cpu := .on, ctl := .on }).showPlls.commWake.runOk
    else v.tryBoot boot)) ∧
  (∀ (s : State) (t : Nat) (b : Bool), let u := s.upTo t
    u.pllLocked b = true →
    exec (.pllLossOfLock t b) s = .next (
    let v := (u.pllSet b false).cond (u.pllSet b false).cpuOn fun s =>
      ((s.hi (if b then F.PCK_PLL_STAT_PLLB_LOSS else F.PCK_PLL_STAT_PLLA_LOSS)).count
        F.PCK_PLL_STAT_LOSS_CNT F.PCK_PLL_STAT_LOSS_SAT 0x0105 0).event (if b then 0x0102 else 0x0101) 0
    let v := v.cond v.awake fun s => s.activateRow 3 0
    (v.cond (b && v.ctlOn) State.pllbHalt).runOk)) ∧
  (∀ (s : State) (t : Nat), let u := s.upTo t
    u.power.xtal = true →
    exec (.xtalFail t) s = .next (
    ((((u.modPwr fun p => { p with xtal := false, changeover := false }).hi F.PCK_PLL_STAT_XTAL_FAIL).lo
      F.PCK_PLL_STAT_REF_XTAL).event 0x0103 0).runOk)) ∧
  (∀ (s : State) (t : Nat), let u := s.upTo t
    u.power.changeover = true →
    u.cpuOn = true →
    exec (.refChangeoverDone t) s = .next (((u.modPwr fun p => { p with changeover := false }).hi F.PCK_PLL_STAT_REF_XTAL).runOk)) ∧
  (∀ (s : State) (t : Nat), let u := s.upTo t
    u.power.vcore = true →
    u.cpuOn = true →
    u.power.xtal = false →
    exec (.xtal25Stable t) s = .next ((u.modPwr fun p => { p with xtal := true, changeover := true }).runOk)) ∧
  (∀ (s : State) (t : Nat), let u := s.upTo t
    exec (.x32CrystalFail t) s = .next (u.modPwr fun p => { p with aoRc := true })) ∧
  (∀ (s : State) (t : Nat), let u := s.upTo t
    u.rd F.PCK_ALARM_ALARM_S ≠ 0 →
    u.power.alarmAt + u.rd F.PCK_ALARM_ALARM_S * 1000000000 ≤ u.now →
    exec (.alarmExpire t) s = .next (
    if (u.setReg R.PCK_ALARM 0#32).bit F.PCK_WAKE_EN_ALARM then (u.setReg R.PCK_ALARM 0#32).wake F.PCK_WAKE_SRC_ALARM
    else u.setReg R.PCK_ALARM 0#32)) ∧
  (∀ (s : State) (t : Nat), let u := s.upTo t
    u.ctRuns = false →
    u.power.ao = true →
    exec (.ctKeeperTick t) s = .next (
    ({ u with ct := (u.ct + 30517 + (u.power.ctFrac + 37) / 64) % 2 ^ 64 } : State).modPwr fun p => { p with
      ctFrac := (u.power.ctFrac + 37) % 64 })) ∧
  (∀ (s : State) (t : Nat) (pass : Bool), let u := s.upTo t
    u.power.phase = .bist →
    exec (.shutdownBistDone t pass) s = .next (
    if pass then
      u.modPwr fun p => { p with bistPass := true, bistFails := 0, shutFail := false, phase := .coreDown, en1 := false }
    else (u.modPwr fun p => { p with shutFail := true, toReady := true }).bistFailed)) ∧
  (∀ (s : State) (t : Nat), let u := s.upTo t
    u.cpuOn = true →
    ((u.power.phase = .boot ∧ u.rd F.SEC_BOOT_STAT_STATE = 1) ∨ (u.power.phase = .wakeWatch ∧ u.bothLocked = true)) →
    exec (.bootComplete t) s = .next (u.bootDone))

/-- With SAFE powered: an STO demand that lasts the filter time records the inputs and applies STO, after SS1 where
STO_MODE is 1; both inputs high clear STO and a discrepancy seen low together; inputs that have differed for DISC_T
latch STO_DISC and apply STO; the cause of a row activates it; SS1 ends 10 ms after zero speed with the brake step or
at its deadline with the end state; a short circuit in HOLD ends when the back-EMF has been low for 10 ms, and three
computations at or above 0.9 x Vdc apply one. The instants are the model's (log entries 4 and 7). Further choices of
the model: log entries 28, 50, 81, 93, 108. -/
def Obligations.SafeTorqueOffAndStopsComplete : Prop :=
  (∀ (s : State) (t : Nat) (a : Bool) (b : Bool) (held : Nat), let u := s.upTo t
    u.safeOn = true →
    (a = false ∨ b = false) →
    10000 * max 10 (u.uz F.BLK_STO_STO_FILT) ≤ held →
    exec (.stoDemand t a b held) s = .next (
    let v := ((u.wrB F.SAF_STAT_STO_A a).wrB F.SAF_STAT_STO_B b).modSaf fun x => { x with
      diffAt := ((u.wrB F.SAF_STAT_STO_A a).wrB F.SAF_STAT_STO_B b).since u.saf.diffAt (a != b) }
    let v := v.cond (!a && !b && v.bit F.SAF_STAT_STO_DISC) fun s => s.modSaf fun x => { x with discLow := true }
    if v.bit F.SAF_STAT_STO_ACT then v else if v.uz F.BLK_STO_STO_MODE = 1 then v.stoSs1 else v.stoActive)) ∧
  (∀ (s : State) (t : Nat), let u := s.upTo t
    u.safeOn = true →
    u.power.io = true →
    exec (.stoRelease t) s = .next (
    ((((u.hi F.SAF_STAT_STO_A).hi F.SAF_STAT_STO_B).modSaf fun x => { x with diffAt := none }).cond u.saf.discLow fun s =>
      ((s.lo F.SAF_STAT_STO_DISC).modSaf fun x => { x with discLow := false }).latchedBit).stoClear)) ∧
  (∀ (s : State) (t : Nat), let u := s.upTo t
    u.safeOn = true →
    u.bit F.SAF_STAT_STO_A ≠ u.bit F.SAF_STAT_STO_B →
    u.stood u.saf.diffAt (max 1 (u.uz F.BLK_STO_DISC_T) * 10000000) = true →
    u.bit F.SAF_STAT_STO_DISC = false →
    exec (.stoDiscrepancy t) s = .next ((((((u.hi F.SAF_STAT_STO_DISC).modSaf fun x => { x with discLow := false })).event 0x0C03 0).stoActive).latchedBit)) ∧
  (∀ (s : State) (t : Nat) (k : Fin 32) (a : Fin 2), let u := s.upTo t
    exec (.safeStateRowActivate t k a) s = .next (u.activateRow k a)) ∧
  (∀ (s : State) (t : Nat) (a : Fin 2) (zero : Bool) (f : PosFrame), let u := s.upTo t
    u.safeOn = true →
    u.bit (State.fSs1 a) = true →
    zero = true →
    u.frameGood a = some f →
    u.stood (u.uzAx a).slowAt 10000000 = true →
    exec (.ss1End t a zero) s = .next (((((u.lo (State.fSs1 a)).modUz a fun x => { x with brakeStep := true, stepAt := u.now }).soUpdate).capture (.brakeStep a 0)).event 0x0C05 a)) ∧
  (∀ (s : State) (t : Nat) (a : Fin 2) (zero : Bool), let u := s.upTo t
    u.safeOn = true →
    u.bit (State.fSs1 a) = true →
    zero = false →
    (u.uzAx a).ss1Deadline ≤ u.now →
    exec (.ss1End t a zero) s = .next (((u.lo (State.fSs1 a)).event 0x0C05 (a + 256)).ss1EndState a)) ∧
  (∀ (s : State) (t : Nat) (a : Fin 2), let u := s.upTo t
    (u.uzAx a).brakeStep = true →
    (u.uzAx a).stepAt + u.uz F.BLK_TP_BRK_T * 10000000 ≤ u.now →
    exec (.brakeStepEnd t a) s = .next (u.ss1EndState a)) ∧
  (∀ (s : State) (t : Nat) (a : Fin 2) (e : Int), let u := s.upTo t
    u.axMode a = 5 →
    ((u.uzAx a).why = .rowAuto ∨ (u.uzAx a).why = .rowHalf) →
    State.isShort (u.uzAx a).gate = true →
    u.emf a = some e.toNat →
    u.measured = true →
    u.emfAtLeast a e.toNat (u.uz F.BLK_ASC_ASC_EXIT) 256 = false →
    u.stood (u.uzAx a).lowAt 10000000 = true →
    u.gateFixed a = false →
    exec (.ascExitTimer t a) s = .next ((u.putGate a .allOff (u.uzAx a).why).latchedBit)) ∧
  (∀ (s : State) (t : Nat) (a : Fin 2) (u_ : BitVec 16) (v : BitVec 16) (w : BitVec 16), let u := s.upTo t
    u.safeOn = true →
    u.measured = true →
    exec (.uzodarEmfCompute t a u_ v w) s = .next (
    let pv := u.uz (F.FSL_FC_SAFE_PV_IN a)
    let y := u
    let y := y.cond (decide (8 ≤ pv) && decide (pv ≤ 13)) fun s =>
      let e := s.pvEmf a (BitVec.toInt u_) v.toInt w.toInt
      s.modUz a fun x => { x with pvE := some e }
    let y := y.emfMark a
    let x := y.uzAx a
    let coast := x.why == .coast && x.coast && x.gate == .allOff
    let held := y.axMode a == 5 && x.why == .rowAuto && x.gate == .allOff && !y.gateFixed a
    let e := if coast then x.pvE.map (· * 65536) else y.emf a
    let high := (coast || held) && (match e with
      | some e => y.emfAtLeast a e 9 10
      | none => false)
    let run := if high then min 3 (x.hiRun + 1) else 0
    let y := y.modUz a fun x => { x with hiRun := run }
    if run < 3 then y
    else match y.pickHalf a with
      | none => y.activateRow 0 a
      | some half =>
        if y.refused a half then y.activateRow 0 a
        else if coast then
          let y := y.modFc a fun f => { f with hist := [], prevCand := none, prevVec := none }
          ((y.putGate a (.short half) .coast).hi (F.FSL_FC_STAT_COAST_ASC a)).event 0x0624 a
        else (y.putGate a (.short half) .rowAuto).latchedBit))

/-- With SAFE powered, in RUN or LIMP with a fresh frame and currents, one evaluation records the current and moves the
accumulator, and a full one activates row 14; LIMP's warning, limit and 100 ms of overspeed act in LIMP; a used output
without a fault passes a test pulse of its schedule or faults with the cause of R344, and 10 ms of mismatch give cause
5; a TEST_T of the brake test is followed by the second or judged; and an overdue test raises event 0x0C0C once. The
instants are the model's (log entries 4 and 7). Further choices of the model: log entries 24, 30, 68, 99, 108. -/
def Obligations.TorqueLimpAndOutputChecksComplete : Prop :=
  (∀ (s : State) (t : Nat) (a : Fin 2) (f : PosFrame), let u := s.upTo t
    u.safeOn = true →
    u.running a = true →
    (u.uzAx a).gotI = true →
    u.frameGood a = some f →
    u.now < f.at_ + 1000000 →
    exec (.torqueMonitorEval t a) s = .next (
    let adv := looseDiv 42 (f.speed * ((u.now - f.at_ : Nat) : Int)) 1000000000
    let iq := satS 16 (u.uzIq a (wrapN 16 ((f.angle : Int) + adv)))
    let w := u.torqueWindow a f.speed
    let acc := if decide (iq < w.1) || decide (w.2 < iq) then min 0xFFFF (u.rd (F.SAF_TMON_ACC a) + 1)
      else u.rd (F.SAF_TMON_ACC a) - 1
    let v := (u.wr (F.SAF_TMON_IQ a) (wrapN 16 iq)).wr (F.SAF_TMON_ACC a) acc
    let v := match v.saf.btest with
      | some b =>
        if b.axis = a.val ∧ 9 * v.uz F.BLK_BTEST_TEST_I ≤ 10 * iq.natAbs then
          v.modSaf fun x => { x with btest := some { b with enough := b.enough + 1 } }
        else v
      | none => v
    if 10 * max 1 (v.uz F.BLK_TMON_TMON_T) ≤ acc then v.activateRow 14 a else v)) ∧
  (∀ (s : State) (t : Nat) (a : Fin 2), let u := s.upTo t
    (u.limpCount a).axMode a = 4 →
    10 < (u.limpCount a).limpMax →
    ((u.limpCount a).uzAx a).limpWarned = false →
    (u.limpCount a).limpMax * 1000000000 ≤ ((u.limpCount a).uzAx a).limpNs + 10000000000 →
    exec (.limpWarning t a) s = .next (((u.limpCount a).modUz a fun x => { x with limpWarned := true }).event 0x0C09 a)) ∧
  (∀ (s : State) (t : Nat) (a : Fin 2), let u := s.upTo t
    (u.limpCount a).axMode a = 4 →
    (u.limpCount a).limpMax * 1000000000 ≤ ((u.limpCount a).uzAx a).limpNs →
    exec (.limpTimeout t a) s = .next ((u.limpCount a).activateRow 17 a)) ∧
  (∀ (s : State) (t : Nat) (a : Fin 2) (f : PosFrame), let u := s.upTo t
    u.axMode a = 4 →
    u.frameGood a = some f →
    u.stood (u.uzAx a).fastAt 100000000 = true →
    exec (.limpSpeedTimeout t a) s = .next (u.activateRow 18 a)) ∧
  (∀ (s : State) (t : Nat) (n : Fin 6) (hs : Bool) (pad : Bool) (x : Nat), let u := s.upTo t
    u.safeOn = true →
    u.soUsed n = true →
    u.soCause n = 0 →
    u.pulseStart n hs = some x →
    u.now ≤ x + u.tpWidth →
    kvGet (fun _ => 0) u.saf.soAt n ≤ x →
    exec (.testPulse t n hs pad) s = .next (
    let on := u.bit ⟨R.SAF_SO, 4 * n.val, 1⟩
    let v := u.modSaf fun y => { y with soPulse := some (n.val, hs, x + u.tpWidth) }
    if (if on then (if hs then !pad else pad) else (if hs then pad else !pad)) then v
    else v.soFault n (if on then (if hs then 1 else 2) else (if hs then 3 else 4)))) ∧
  (∀ (s : State) (t : Nat) (n : Fin 6), let u := s.upTo t
    u.safeOn = true →
    u.soUsed n = true →
    (u.saf.soPulse.any fun p => p.1 == n.val && decide (u.now < p.2.2)) = false →
    exec (.soShortTimeout t n) s = .next (u.soFault n 5)) ∧
  (∀ (s : State) (t : Nat) (b : BrakeTest), let u := s.upTo t
    u.saf.btest = some b →
    b.second = false →
    b.since + max 1 (u.uz F.BLK_BTEST_TEST_T) * 100000000 ≤ u.now →
    exec (.brakeTestPhaseEnd t) s = .next (
    (u.modSaf fun x => { x with btest := some { b with
        second := true, since := u.now, travel := 0, enough := 0
        lacked := decide (2 * b.enough < 10000 * max 1 (u.uz F.BLK_BTEST_TEST_T)) } }).capture (.brakeStep b.axis 2))) ∧
  (∀ (s : State) (t : Nat) (b : BrakeTest), let u := s.upTo t
    u.saf.btest = some b →
    b.second = true →
    b.since + max 1 (u.uz F.BLK_BTEST_TEST_T) * 100000000 ≤ u.now →
    exec (.brakeTestPhaseEnd t) s = .next (u.brakeResult b (if b.lacked || decide (2 * b.enough < 10000 * max 1 (u.uz F.BLK_BTEST_TEST_T)) then 3 else 1))) ∧
  (∀ (s : State) (t : Nat) (a : Fin 2), let u := s.upTo t
    u.safeOn = true →
    u.uz F.BLK_BTINT_BT_INT ≠ 0 →
    (u.uzAx a).btDue = false →
    ((u.uzAx a).btPassAt = 0 ∨ (u.uzAx a).btPassAt + u.uz F.BLK_BTINT_BT_INT * 3600000000000 ≤ u.now) →
    exec (.brakeTestDue t a) s = .next ((u.modUz a fun x => { x with btDue := true }).event 0x0C0C a))

/-- A pre-charge whose link has reached PRECH_V after PRECH_MIN closes CO0; 100 ms after FB0 shows it closed CO1 opens;
PRECH_MAX without it ends the pre-charge with event 0x0C0E; a contradicting feedback opens the contactors with its
cause and activates row 27; a register that differs from the loaded shadow activates row 30; the self-test outside RUN
and LIMP withdraws the permits and passes or is a lane fault; 24 h without one raise event 0x0C13; CORE_T without a
checkpoint activates row 4 while awake. The instants are the model's (log entries 4 and 7). Further choices of the
model: log entries 31, 58, 70, 81, 108. -/
def Obligations.ContactorsAndUzodarSelfChecksComplete : Prop :=
  (∀ (s : State) (t : Nat) (x : Nat), let u := s.upTo t
    u.saf.precharge = .co1 x →
    u.measured = true →
    ((32768 * u.uz F.BLK_PRECH_PRECH_V : Nat) : Int) ≤ u.vdcSmaller * Config.vfsVolts →
    (Config.co1Unused = true ∨ x + u.uz F.BLK_CON_PRECH_MIN * 10000000 ≤ u.now) →
    exec (.prechargeReached t) s = .next (((u.hi F.SAF_STAT_CO0_CMD).lo F.SAF_STAT_FB0).modSaf fun y => { y with co0At := u.now, precharge := .line u.now })) ∧
  (∀ (s : State) (t : Nat) (x : Nat), let u := s.upTo t
    u.saf.precharge = .line x →
    x + 100000000 ≤ u.now →
    exec (.prechargeCo1Open t) s = .next (u.openCo1.modSaf fun y => { y with precharge := .closed })) ∧
  (∀ (s : State) (t : Nat) (x : Nat), let u := s.upTo t
    u.saf.precharge = .co1 x →
    x + max 1 (u.uz F.BLK_CON_PRECH_MAX) * 100000000 ≤ u.now →
    exec (.prechargeTimeout t) s = .next ((u.openCo1.modSaf fun y => { y with precharge := .idle }).event 0x0C0E 0)) ∧
  (∀ (s : State) (t : Nat) (n : Fin 2) (shown : Bool), let u := s.upTo t
    u.safeOn = true →
    n = 0 →
    u.saf.co0At + max 1 (u.uz F.BLK_CON_FB_T) * 10000000 + 20000000 ≤ u.now →
    exec (.contactorFeedbackFault t n shown) s = .next (
    let closed := u.bit F.SAF_STAT_CO0_CMD
    let cause := if !closed then 1 else if shown then 3 else 2
    let v := (u.openContactors.wrB F.SAF_STAT_FB0 closed).cond (cause == 1 &&
        (u.openContactors.wrB F.SAF_STAT_FB0 closed).saf.discharge == .waitFb) fun s =>
      (s.event 0x0C11 0).dchDone stVeto
    ((((v.wr F.SAF_STAT_CON_CAUSE cause).event 0x0C0D (256 * cause)).activateRow
      27 0)).latchedBit)) ∧
  (∀ (s : State) (t : Nat) (n : Fin 2) (shown : Bool), let u := s.upTo t
    u.safeOn = true →
    n = 1 →
    u.saf.co1At + max 1 (u.uz F.BLK_CON_FB_T) * 10000000 + 20000000 ≤ u.now →
    exec (.contactorFeedbackFault t n shown) s = .next (
    if Config.co1Unused then u
    else
      let closed := u.bit F.SAF_STAT_CO1_CMD
      let cause := if !closed then 1 else if shown then 3 else 2
      (((((u.openContactors.wrB F.SAF_STAT_FB1 closed).wr F.SAF_STAT_CON_CAUSE cause).event 0x0C0D (256 * cause)).activateRow
        27 0)).latchedBit)) ∧
  (∀ (s : State) (t : Nat), let u := s.upTo t
    u.safeOn = true →
    u.cpuOn = true →
    u.bit F.SAF_STAT_SHADOW = true →
    u.bit F.BLK_CTL_LOCK = true →
    u.shadowSame = false →
    exec (.shadowCompare t) s = .next (u.activateRow 30 0)) ∧
  (∀ (s : State) (t : Nat) (pass : Bool), let u := s.upTo t
    u.safeOn = true →
    u.axes.any u.running = false →
    exec (.uzodarSelfTest t pass) s = .next (
    let v := u.each u.axes fun s a => s.uzGateToChannels a .allOff
    if pass then (v.each v.axes State.regate).modSaf fun x => { x with selfAt := v.now, selfDue := false }
    else v.laneFault)) ∧
  (∀ (s : State) (t : Nat), let u := s.upTo t
    u.safeOn = true →
    u.saf.selfDue = false →
    u.saf.selfAt + 86400000000000 ≤ u.now →
    exec (.selfTestOverdue t) s = .next ((u.modSaf fun x => { x with selfDue := true }).event 0x0C13 0)) ∧
  (∀ (s : State) (t : Nat), let u := s.upTo t
    u.safeOn = true →
    u.bit F.SAF_STAT_LANE_FAULT = false →
    exec (.laneFault t) s = .next (
    let v := ((u.hi F.SAF_STAT_LANE_FAULT).event 0x0C12 0).faultN.openContactors
    let v := v.each v.axes fun s a => (s.cond (s.ss1On a) fun s => s.clearSs1 a).rowModes a true false
    (v.each v.axes State.regate).soUpdate.latchedBit)) ∧
  (∀ (s : State) (t : Nat), let u := s.upTo t
    u.safeOn = true →
    u.awake = true →
    u.saf.ckptAt + max 1 (u.uz F.BLK_ASC_CORE_T) * 1000000 ≤ u.now →
    exec (.coreTimeout t) s = .next (u.activateRow 4 0))

/-- In an active discharge: once Uzodar's Vdc has stayed below DCH_VSAFE for 10 ms, DCH falls, DCH_FAIL clears and event
0x0C0F is raised; once DCH_TMAX has passed, DCH falls, and with a measurement DCH_FAIL is set and event 0x0C10 raised,
without one event 0x0C0F is raised and DCH_FAIL stays; before DCH_TMAX nothing happens. The waiting DISCHARGE commands
complete OK, or TIMEOUT with DCH_FAIL. The instants are the model's (log entries 4 and 7). Further choices of the
model: log entries 31, 62, 70, 81. -/
def Obligations.DischargeEndsAsTheRuleSays : Prop :=
  (∀ (s : State) (t : Nat) (x : Nat), let u := s.upTo t
    u.saf.discharge = .active x →
    u.measured = true →
    u.stood u.saf.safeAt 10000000 = true →
    exec (.dischargeEnd t) s = .next (
    (((((u.lo F.SAF_STAT_DCH_ACT).lo F.SAF_STAT_DCH_FAIL).modSaf fun y => { y with discharge := .idle }).event 0x0C0F
      0).dchDone stOk).latchedBit)) ∧
  (∀ (s : State) (t : Nat) (x : Nat), let u := s.upTo t
    u.saf.discharge = .active x →
    x + max 1 (u.uz F.BLK_DCH_DCH_TMAX) * 100000000 ≤ u.now →
    u.measured = true →
    exec (.dischargeTimeout t) s = .next (
    ((((((u.lo F.SAF_STAT_DCH_ACT).modSaf fun y => { y with discharge := .idle, dchTmaxAt := some u.now })).hi
      F.SAF_STAT_DCH_FAIL).event 0x0C10 0).dchDone stTimeout).latchedBit)) ∧
  (∀ (s : State) (t : Nat) (x : Nat), let u := s.upTo t
    u.saf.discharge = .active x →
    x + max 1 (u.uz F.BLK_DCH_DCH_TMAX) * 100000000 ≤ u.now →
    u.measured = false →
    exec (.dischargeTimeout t) s = .next (
    ((((u.lo F.SAF_STAT_DCH_ACT).modSaf fun y => { y with discharge := .idle, dchTmaxAt := some u.now }).event 0x0C0F
      0).dchDone stOk).latchedBit)) ∧
  (∀ (s : State) (t : Nat) (x : Nat), let u := s.upTo t
    u.saf.discharge = .active x →
    u.now < x + max 1 (u.uz F.BLK_DCH_DCH_TMAX) * 100000000 →
    exec (.dischargeTimeout t) s = .next (u)) ∧
  (∀ (s : State) (t : Nat), let u := s.upTo t
    u.safeOn = true →
    u.bit F.SAF_STAT_SHADOW = true →
    u.bit F.SAF_STAT_FB0 = true →
    u.saf.discharge = .waitFb →
    u.bit F.SAF_STAT_CO0_CMD = false →
    u.saf.co0At + 10000000 ≤ u.now →
    exec (.dischargeStart t) s = .next ((u.hi F.SAF_STAT_DCH_ACT).modSaf fun y => { y with discharge := .active u.now })) ∧
  (∀ (s : State) (t : Nat), let u := s.upTo t
    u.saf.discharge = .cool →
    (∀ x, u.saf.dchTmaxAt = some x → x + u.uz F.BLK_DCH_DCH_COOL * 1000000000 ≤ u.now) →
    exec (.dchCoolExpire t) s = .next (
    (u.openContactors.modSaf fun y => { y with discharge := .waitFb }).cond
      (!(u.openContactors.modSaf fun y => { y with discharge := .waitFb }).bit F.SAF_STAT_FB0) State.dchBarred))

/-- For a channel that is ON and whose blanking has not ended: a desaturation leaves the module as it is but for the time,
and a hard short with HS_EN set takes the channel to SOFT_OFF with HSC, latch cause 1, its count and event 0x0802. The
instants are the model's (log entries 4 and 7). -/
def Obligations.DesaturationIsMaskedWhileBlanking : Prop :=
  (∀ (s : State) (t : Nat) (n : Fin 12), let u := s.upTo t
    (u.ch n).st = .on →
    (u.ch n).blanked = false →
    exec (.desaturation t n) s = .next (u)) ∧
  (∀ (s : State) (t : Nat) (n : Fin 12), let u := s.upTo t
    (u.ch n).blanked = false →
    u.mayTake n 5 (fun x => x == .on) = true →
    u.chBit n 1 (F.GDC_DESAT_HS_EN n) = true →
    exec (.hardShort t n) s = .next (
    (((((u.modCh n fun k => { k with cause := 1, phase := .strong }).putCh n .softOff).hi (F.GDC_STAT_HSC n)).wr (F.GDC_STAT_LATCH_CAUSE n) 1).gdcCount
      (F.GDC_CNT_HSC_CNT n) n).event 0x0802 n))

/-- While IO is powered, a boundary-scan instruction is loaded and nothing but it and the time changes. Of the loaded
instruction, IDCODE, BYPASS and SAMPLE/PRELOAD act as they are at any time, and EXTEST, CLAMP and HIGHZ act while
STO_ACT is 1 and as BYPASS otherwise, from the instant that STO_ACT changes. While one acts, HIGHZ floats and EXTEST
and CLAMP drive each powered pad of the chain (log entry 29); the pads of STO, SO, CO and DCH are never driven from
it. The instants are the model's (log entries 4 and 7). -/
def Obligations.ScanInstructionsDrivePadsUnderStoOnly : Prop :=
  (∀ (s : State) (t : Nat) (ins : ScanIns), let u := s.upTo t
    u.power.io = true →
    ∃ r_ : State, exec (.boundaryScanInstruction t ins) s = .next r_ ∧
      (fun r => r = { u with pins := { u.pins with scan := ins } } ∧
      ∀ v : State, v.pins.scan = ins → v.scanActs =
        (if (ins = .extest ∨ ins = .clamp ∨ ins = .highz) ∧ v.bit F.SAF_STAT_STO_ACT = false then .bypass else ins) ∧
      (∀ p, v.padPower p = true → State.scanDrives p = true →
        (v.scanActs = .highz → v.pad p = .floats) ∧
        (v.scanActs = .extest ∨ v.scanActs = .clamp → v.pad p = .scanned)) ∧
      ∀ n, v.pad (.sto n) ≠ .scanned ∧ v.pad (.soHs n) ≠ .scanned ∧ v.pad (.soLs n) ≠ .scanned ∧
        v.pad (.co n) ≠ .scanned ∧ v.pad .dch ≠ .scanned) r_)

/-- With ANA and SAFE powered, BRK_SO naming one of the six outputs and the BRKI slot valid, 100 ms after the output's
last change: an energised output with a current below BRK_MIN raises event 0x100A, a de-energised one with a current
at or above BRK_MIN raises event 0x100B, and otherwise nothing is raised. Nothing else changes but the time. The
instants are the model's (log entries 4 and 7). Further choices of the model: log entries 46. -/
def Obligations.BrakeCoilIsJudgedAgainstItsOutput : Prop :=
  (∀ (s : State) (t : Nat), let u := s.upTo t
    u.anaOn = true →
    u.safeOn = true →
    u.rd F.HKP_BRK_BRK_SO < 6 →
    u.bit (F.HKP_VAL_VALID 19) = true →
    kvGet (fun _ => 0) u.saf.soAt (u.rd F.HKP_BRK_BRK_SO) + 100000000 ≤ u.now →
    exec (.brakeCoilCheck t) s = .next (
    if u.bit ⟨R.SAF_SO, 4 * u.rd F.HKP_BRK_BRK_SO, 1⟩ = true ∧ u.rd (F.HKP_VAL_VALUE 19) < u.rd F.HKP_BRK_BRK_MIN then
      u.event 0x100A 19
    else if u.bit ⟨R.SAF_SO, 4 * u.rd F.HKP_BRK_BRK_SO, 1⟩ = false ∧ u.rd F.HKP_BRK_BRK_MIN ≤ u.rd (F.HKP_VAL_VALUE 19) then
      u.event 0x100B 19
    else u))

/-- HKP_ROUND with ANA powered, outside the fall into WATCH and awake, stores and judges what the slots and the channels
deliver: afterwards each of the 24 slots reads either VALID or FAIL, and its ROUND reads the low bits of
HKP_STAT.ROUND. Otherwise the round changes nothing but the time. The instants are the model's (log entries 4 and 7).
Further choices of the model: log entries 3, 24, 45, 46, 113. -/
def Obligations.HousekeepingRoundsComplete : Prop :=
  (∀ (s : State) (t : Nat) (locals : List Int) (chans : List ChanReport), let u := s.upTo t
    u.anaOn = true →
    u.power.phase ≠ .watchDown →
    (u.power.phase ≠ .rest ∨ 1 < u.mode) →
    ∃ r_ : State, exec (.hkpRound t locals chans) s = .next r_ ∧
      (fun r => r = u.hkpStep locals chans ∧
      ∀ k, k < 24 → r.rd (F.HKP_VAL_VALID k) + r.rd (F.HKP_VAL_FAIL k) = 1 ∧
        r.rd (F.HKP_VAL_ROUND k) = r.rd F.HKP_STAT_ROUND % 256) r_) ∧
  (∀ (s : State) (t : Nat) (locals : List Int) (chans : List ChanReport), let u := s.upTo t
    (u.anaOn = false ∨ u.power.phase = .watchDown ∨ (u.power.phase = .rest ∧ u.mode ≤ 1)) →
    exec (.hkpRound t locals chans) s = .next (u))

/-- With the cores running: a due instant votes an unvoted interval and starts the next; a core at work that arrives is
counted toward the vote, and one whose outputs overflow stalls with RD_OVF; a replicated read is performed once and
returned to each core, boot ROM, local SRAM and the input queue are read directly, and the core's memory protection
bars the rest; the end of a copy gives the sitting core the registers and local SRAM of the lowest-numbered voter; an
uncorrectable error stalls its core; RESTART in HOLD after a Stalemate starts the cores afresh; a debugger halts and
resumes a core. The instants are the model's (log entries 4 and 7). Further choices of the model: log entries 14, 15,
16, 17, 76, 114, 121, 122, 124. -/
def Obligations.CoresVoteHaltAndResume : Prop :=
  (∀ (s : State) (t : Nat), let u := s.upTo t
    u.coresRun = true →
    u.pacerDue = true →
    exec (.checkpointInstant t) s = .next (((if u.cores.voted || u.copying || u.rd F.CPX_STAT_VOTE == 2 then u else u.vote3).haltRelease.instant).coreRegs)) ∧
  (∀ (s : State) (t : Nat) (core : Fin 3) (outs : List CoreOut) (pc : BitVec 32) (work : CoreWork), let u := s.upTo t
    u.atWork core = true →
    exec (.checkpointPortWrite t core outs pc work) s = .next (
    let l := outs.filter fun o => u.pmpAllows core true o.addr
    let v := u.coreWorks core pc work
    if 16384 < l.length * Config.outputBytes then
      (v.hi F.CPX_STAT_RD_OVF).modCpu fun c => { c with stalled := c.stalled ++ [core.val] }
    else
      (v.modCpu fun c => { c with
        arrived := c.arrived ++ [(core.val, ⟨l, BitVec.ofNat 32 (crc32c (v.sigBytes core))⟩)] }).tryVote)) ∧
  (∀ (s : State) (t : Nat) (core : Fin 3) (addr : BitVec 32), let u := s.upTo t
    u.atWork core = true →
    u.pmpAllows core false addr.toNat = true →
    0x20000000 ≤ addr.toNat →
    addr.toNat < 0x20100000 →
    kvGet (fun _ => 0) u.cores.rdCnt core < 1024 →
    u.cores.rdVals[kvGet (fun _ => 0) u.cores.rdCnt core]? = none →
    exec (.replicatedRead t core addr) s = .next (
    ((u.modCpu fun c => { c with rdCnt := kvSet (fun _ => 0) c.rdCnt core (kvGet (fun _ => 0) u.cores.rdCnt core + 1) }).modCpu
      fun c => { c with rdVals := c.rdVals ++ [memWord u.sram ((addr.toNat - 0x20000000) / 4 * 4)] }).emit
      (.read addr.toNat (memWord u.sram ((addr.toNat - 0x20000000) / 4 * 4))))) ∧
  (∀ (s : State) (t : Nat) (core : Fin 3) (addr : BitVec 32), let u := s.upTo t
    u.atWork core = true →
    u.pmpAllows core false addr.toNat = true →
    addr.toNat < 0x40000 →
    exec (.replicatedRead t core addr) s = .next (u.emit (.read addr.toNat (Config.romWord addr.toNat)))) ∧
  (∀ (s : State) (t : Nat) (core : Fin 3) (addr : BitVec 32), let u := s.upTo t
    u.atWork core = true →
    u.pmpAllows core false addr.toNat = true →
    0x10000000 ≤ addr.toNat →
    addr.toNat < 0x10080000 →
    exec (.replicatedRead t core addr) s = .next (u.emit (.read addr.toNat (memWord (u.localSram core) ((addr.toNat - 0x10000000) / 4 * 4))))) ∧
  (∀ (s : State) (t : Nat) (core : Fin 3) (addr : BitVec 32), let u := s.upTo t
    u.atWork core = true →
    u.pmpAllows core false addr.toNat = true →
    0x50000000 ≤ addr.toNat →
    addr.toNat < 0x50010000 →
    exec (.replicatedRead t core addr) s = .next (u.emit (.read addr.toNat (Config.queueWord u.cores.instants (addr.toNat - 0x50000000))))) ∧
  (∀ (s : State) (t : Nat) (core : Fin 3) (addr : BitVec 32), let u := s.upTo t
    u.pmpAllows core false addr.toNat = false →
    exec (.replicatedRead t core addr) s = .next (u)) ∧
  (∀ (s : State) (t : Nat) (core : Fin 3) (addr : BitVec 32), let u := s.upTo t
    u.atWork core = true →
    u.pmpAllows core false addr.toNat = true →
    0x40000000 ≤ addr.toNat →
    addr.toNat < 0x40120000 →
    kvGet (fun _ => 0) u.cores.rdCnt core < 1024 →
    u.cores.rdVals[kvGet (fun _ => 0) u.cores.rdCnt core]? = none →
    exec (.replicatedRead t core addr) s = .next (
    let v := u.modCpu fun c => { c with rdCnt := kvSet (fun _ => 0) c.rdCnt core (kvGet (fun _ => 0) u.cores.rdCnt core + 1) }
    ((v.readReg 1 (addr.toNat - 0x40000000)).2.modCpu fun c => { c with
      rdVals := c.rdVals ++ [(v.readReg 1 (addr.toNat - 0x40000000)).1] }).emit
      (.read addr.toNat (v.readReg 1 (addr.toNat - 0x40000000)).1))) ∧
  (∀ (s : State) (t : Nat) (core : Fin 3) (addr : BitVec 32) (x : Word), let u := s.upTo t
    u.atWork core = true →
    u.pmpAllows core false addr.toNat = true →
    ((0x20000000 ≤ addr.toNat ∧ addr.toNat < 0x20100000) ∨ (0x40000000 ≤ addr.toNat ∧ addr.toNat < 0x40120000)) →
    kvGet (fun _ => 0) u.cores.rdCnt core < 1024 →
    u.cores.rdVals[kvGet (fun _ => 0) u.cores.rdCnt core]? = some x →
    exec (.replicatedRead t core addr) s = .next (
    (u.modCpu fun c => { c with rdCnt := kvSet (fun _ => 0) c.rdCnt core (kvGet (fun _ => 0) u.cores.rdCnt core + 1) }).emit
      (.read addr.toNat x))) ∧
  (∀ (s : State) (t : Nat) (n : Nat), let u := s.upTo t
    u.cores.sitting = some n →
    u.cpuOn = true →
    u.copying = true →
    exec (.resyncComplete t) s = .next (
    let a := u.arch ((u.voters.head?).getD 0)
    let m := u.localSram ((u.voters.head?).getD 0)
    let v := (u.modCore n (fun _ => a) fun _ => m).modCpu fun c => { c with
      sitting := none, stalled := c.stalled.filter (· != n) }
    (((v.lo F.CPX_STAT_RESYNC).event 0x0502 n).coreRegs).haltRelease)) ∧
  (∀ (s : State) (t : Nat) (core : Fin 3), let u := s.upTo t
    u.atWork core = true →
    exec (.localSramEccError t core) s = .next (u.modCpu fun c => { c with stalled := c.stalled ++ [core.val] })) ∧
  (∀ (s : State) (t : Nat) (split : List Nat), let u := s.upTo t
    u.cpuOn = true →
    2 ≤ u.rd F.CPX_STAT_VOTE →
    u.mode = 5 →
    exec (.restart t split) s = .next (
    let r := u.each (u.cores.waiting.map (·.ring)) fun s n => s.setOpen n (s.openOn n - 1)
    let r := r.modCpu fun c => { repQ := [], cfgUsed := c.cfgUsed }
    let r : State := ((List.range 7).map fun i => R.CPX_CKPT_CFG + 4 * i).foldl (fun s o => s.setReg o (resetVal o)) r
    let i := (r.modCpu fun c => { c with cfgUsed := resetVal R.CPX_CKPT_CFG }).imageStep split
    if i.1 then
      ((((i.2.release.modSec fun c => { c with again := false }).wr F.SYS_MODE_PHASE 0).journalModule 1 5 0 0 false).event
        0x0507 0).bootReport
    else ((i.2.modSec fun c => { c with again := true }).wr F.SYS_MODE_PHASE 1).awaitRecovery)) ∧
  (∀ (s : State) (t : Nat) (core : Fin 3), let u := s.upTo t
    u.cpuOn = true →
    u.bit F.SEC_DBG_STAT_HALT = true →
    u.fenced core = false →
    u.halted core = false →
    exec (.debugHalt t core) s = .next (
    if u.haltWaits core then
      u.modCpu fun c => { c with haltHeld := c.haltHeld.filter (· != core.val) ++ [core.val] }
    else u.haltCore core)) ∧
  (∀ (s : State) (t : Nat) (core : Fin 3), let u := s.upTo t
    u.cpuOn = true →
    u.halted core = true →
    exec (.debugResume t core) s = .next (
    ((u.lo ⟨R.CPX_STAT, 6 + core, 1⟩).modCpu fun c => { c with
      resumed := c.resumed.filter (· != core.val) ++ [core.val], stalled := c.stalled ++ [core.val] }).coreRegs))

/-- While recovery is awaited, GO verifies the object in BAR2, records the cause, and boots it when there is none. A read
of the challenge makes a fresh nonce; a response that the policy admits and whose checks pass grants the scope of its
bits under BLK_DBG, writes journal entry and event 0x1104; another is refused with its cause. A report that is signed
reaches the cores as an input. The instants are the model's (log entries 4 and 7). Further choices of the model: log
entries 3, 19, 33, 37, 53, 66, 77, 80, 124, 126. -/
def Obligations.RecoveryDebugAndAttestComplete : Prop :=
  (∀ (s : State) (t : Nat) (boot : BootIn), let u := s.upTo t
    u.cpuOn = true →
    u.rd F.SEC_BOOT_STAT_STATE = 2 →
    exec (.recoveryGo t boot) s = .next (
    let bs := memBytes u.sram 0 (min 0x100000 (u.rd F.SEC_RECOVERY_LENGTH))
    let v := u.wr F.SEC_BOOT_STAT_STATE 3
    let c := if boot.split.contains 4 then 10 else v.verify 3 bs
    let v := v.wr F.SEC_BOOT_STAT_STG_CAUSE c
    if c ≠ 0 then v.wr F.SEC_BOOT_STAT_STATE 2
    else if ((v.loadImage 2 bs).bootEvent 0x1103 0).sec.again then ((v.loadImage 2 bs).bootEvent 0x1103 0).finishRestart
    else ((v.loadImage 2 bs).bootEvent 0x1103 0).finishBoot boot.puf)) ∧
  (∀ (s : State) (t : Nat), let u := s.upTo t
    u.cpuOn = true →
    exec (.debugChallengeRead t) s = .next (
    let k := (List.range 8).foldl (fun (r : List Byte × State) _ =>
      (r.1 ++ leBytes 4 (Config.freeWord r.2.nextFree.1).toNat, r.2.nextFree.2)) ([], u)
    let v := k.2.modSec fun c => { c with nonce := some k.1, chal := u.challenge k.1 }
    v.emit (.bytes 0 (v.challenge k.1 ++ List.replicate 16 0#8)))) ∧
  (∀ (s : State) (t : Nat) (bytes : List Byte) (split : Bool), let u := s.upTo t
    u.cpuOn = true →
    u.rd F.SYS_MODE_PHASE ≠ 1 →
    u.rd F.BLK_DBG_POLICY ≠ 0 →
    u.rd F.BLK_DBG_POLICY ≠ 3 →
    u.bit F.SEC_DBG_STAT_LOCKOUT = false →
    u.unmirrored < 2048 →
    exec (.debugResponse t bytes split) s = .next (
    if u.debugCause bytes split ≠ 0 then u.debugRefused (u.debugCause bytes split)
    else
      let scope := fieldLe bytes (17120 + 48) 4
      let halt := scope % 2 == 1 && u.bit F.BLK_DBG_HALT
      let mem := scope / 2 % 2 == 1 && u.bit F.BLK_DBG_MEM
      let v := ((u.hi F.SEC_DBG_STAT_UNLOCKED).wrB F.SEC_DBG_STAT_HALT halt).wrB F.SEC_DBG_STAT_MEM mem
      let v := v.wr F.SEC_DBG_STAT_KEY (fieldLe bytes 6 2)
      (v.journalModule 1 3 0 (halt.toNat + 2 * mem.toNat) false).event 0x1104 (halt.toNat + 2 * mem.toNat))) ∧
  (∀ (s : State) (t : Nat) (c : Cmd) (x : Nat), let u := s.upTo t
    u.sec.attest = some (c, x) →
    u.cpuOn = true →
    exec (.attestComplete t) s = .next ((u.modSec fun y => { y with attest := none }).capture (.signed c (u.report c x))))

/-- A write acts on BAR0 or BAR2 as the initiator may; a read of BAR2 leaves as the window's word, and a read of BAR0 as
the register's value with the freezes and snapshots of R446, R447 and R570. The instants are the model's (log entries
4 and 7). Further choices of the model: log entries 54, 55, 56, 57, 96. -/
def Obligations.RegistersReadAndWrite : Prop :=
  (∀ (s : State) (t : Nat) (src : Writer) (bar2 : Bool) (off : BitVec 21) (data : BitVec 32) (be : BitVec 4), let u := s.upTo t
    bar2 = false →
    exec (.registerWrite t src bar2 off data be) s = .next (u.writeReg src off.toNat data be)) ∧
  (∀ (s : State) (t : Nat) (src : Writer) (bar2 : Bool) (off : BitVec 21) (data : BitVec 32) (be : BitVec 4), let u := s.upTo t
    bar2 = true →
    exec (.registerWrite t src bar2 off data be) s = .next (u.writeSram src off.toNat data be)) ∧
  (∀ (s : State) (t : Nat) (who : Reader) (bar2 : Bool) (off : BitVec 21) (e : Ecc), let u := s.upTo t
    bar2 = true →
    exec (.splitLoRead t who bar2 off e) s = .next (u.emit (.read (2 ^ 31 + off.toNat) (u.readSram who.code off.toNat)))) ∧
  (∀ (s : State) (t : Nat) (who : Reader) (bar2 : Bool) (off : BitVec 21) (e : Ecc), let u := s.upTo t
    bar2 = false →
    exec (.splitLoRead t who bar2 off e) s = .next ((u.readReg who.code off.toNat e).2.emit (.read off.toNat (u.readReg who.code off.toNat e).1))) ∧
  (∀ (s : State) (t : Nat) (who : Reader) (slot : Nat), let u := s.upTo t
    slot < 1024 →
    exec (.journalApertureRead t who slot) s = .next (
    (u.readReg who.code (0x48000 + 32 * slot)).2.emit
      (.read (0x48000 + 32 * slot) (u.readReg who.code (0x48000 + 32 * slot)).1))) ∧
  (∀ (s : State) (t : Nat) (who : Reader), let u := s.upTo t
    exec (.journalHeadRead t who) s = .next ((u.readReg who.code R.JRN_HEAD_SEQ_LO).2.emit (.read R.JRN_HEAD_SEQ_LO (u.readReg who.code R.JRN_HEAD_SEQ_LO).1)))

/-- With the link open, a doorbell moves the index of an enabled ring within its bounds and stops the ring outside them;
an accepted EN sets up a disabled ring; a descriptor of the ring to be served is fetched; a stream without a record
for 10 ms writes a heartbeat; held events and merged interrupts leave; an expired watchdog sets WD_EXP and acts as
SET_MODE HOLD; resets, loss and return of the link act; a DMA error of the first copy's ring, and the end of that
copy, reach the cores as its end, and a DMA error of another enabled ring stops it. The instants are the model's (log
entries 4 and 7). Further choices of the model: log entries 14, 18, 52, 72, 109, 114, 125, 127. -/
def Obligations.RingsAndLinkComplete : Prop :=
  (∀ (s : State) (t : Nat) (r : Fin 11) (idx : BitVec 16), let u := s.upTo t
    u.hostOpen = true →
    u.bit (F.HIF_RCFG_EN r) = true →
    r.val < 4 →
    exec (.doorbell t r idx) s = .next (
    let ahead := (idx.toNat + 65536 - u.rd (F.HIF_RIDX_CONS r)) % 65536
    if u.ringHeld r ≤ ahead ∧ ahead ≤ u.ringSize r then
      (u.wr (F.HIF_RIDX_PROD r) idx.toNat).modHif fun h => { h with fedAt := u.now }
    else u.ringError r 1)) ∧
  (∀ (s : State) (t : Nat) (r : Fin 11) (idx : BitVec 16), let u := s.upTo t
    u.hostOpen = true →
    u.bit (F.HIF_RCFG_EN r) = true →
    4 ≤ r.val →
    exec (.doorbell t r idx) s = .next (
    if (idx.toNat + 65536 - u.rd (F.HIF_RIDX_CONS r)) % 65536 ≤ u.ringHeld r then
      (u.wr (F.HIF_RIDX_CONS r) idx.toNat).modHif fun h => { h with fedAt := u.now }
    else u.ringError r 1)) ∧
  (∀ (s : State) (t : Nat) (r : Fin 11) (idx : BitVec 16), let u := s.upTo t
    u.hostOpen = true →
    u.bit (F.HIF_RCFG_EN r) = false →
    exec (.doorbell t r idx) s = .next (u.hi F.HIF_STAT_WR_IGN)) ∧
  (∀ (s : State) (t : Nat) (r : Fin 11) (data : BitVec 32), let u := s.upTo t
    u.hostOpen = true →
    u.bit (F.HIF_RCFG_EN r) = false →
    exec (.ringEnable t r data) s = .next (u.ringConfig r (data ||| 0x80000000#32))) ∧
  (∀ (s : State) (t : Nat) (r : Fin 4) (bytes : List Byte), let u := s.upTo t
    u.canFetch r = true →
    (List.range r.val).any u.canFetch = false →
    exec (.descriptorFetch t r bytes) s = .next (
    let i := u.rd (F.HIF_RIDX_CONS r)
    let bs := if u.bit (F.HIF_RCFG_LOC r) then memBytes u.sram (u.ringBase r + i % u.ringSize r * 64) 64
      else (bytes ++ List.replicate 64 0#8).take 64
    let v := u.wr (F.HIF_RIDX_CONS r) (i + 1)
    ((v.setOpen r (v.openOn r + 1)).capture (.desc ⟨r, i, bs, v.hif.links⟩)).writeShadow r ((i + 1) % 65536))) ∧
  (∀ (s : State) (t : Nat) (k : Fin 2), let u := s.upTo t
    u.commOn = true →
    u.bit (F.HIF_TLM_CFG_EN k) = true →
    (u.str k).lastAt + 10000000 ≤ u.now →
    exec (.tlmHeartbeat t k) s = .next (u.writeTlm k (u.str k).lastCap (u.str k).lastVf [] true)) ∧
  (∀ (s : State) (t : Nat), let u := s.upTo t
    u.commOn = true →
    exec (.eventBacklogWrite t) s = .next (
    if (State.drainEvents 64 u).ringTakes 8 && (State.drainEvents 64 u).hif.backlog.isEmpty then
      (State.drainEvents 64 u).hif.late.foldl (fun s e => s.event e.1 e.2)
        ((State.drainEvents 64 u).modHif fun h => { h with late := [] })
    else State.drainEvents 64 u)) ∧
  (∀ (s : State) (t : Nat) (v : Fin 32) (r : Nat) (rest : List Nat), let u := s.upTo t
    (List.range 11).filter (fun r => kvGet (fun _ => false) u.hif.irqHeld r && u.rd (F.HIF_RCFG_VEC r) == v.val) = r :: rest →
    u.commOn = true →
    kvGet (fun _ => 0) u.hif.irqAt v - 1 + u.rd F.HIF_CTL_IRQ_HOLD * 1000 ≤ u.now →
    exec (.irqHoldExpire t v) s = .next (
    ((u.sendIrq r).each (r :: rest) fun s r =>
      s.modHif fun h => { h with irqHeld := kvSet (fun _ => false) h.irqHeld r false }).modHif fun h => { h with
      irqAt := kvSet (fun _ => 0) h.irqAt v (((u.sendIrq r).each (r :: rest) fun s r =>
        s.modHif fun h => { h with irqHeld := kvSet (fun _ => false) h.irqHeld r false }).now + 1) })) ∧
  (∀ (s : State) (t : Nat), let u := s.upTo t
    u.commOn = true →
    u.bit F.HIF_CTL_WD_EN = true →
    u.hif.fedAt + max 1 (u.rd F.HIF_CTL_WD_T) * 1000000 ≤ u.now →
    exec (.hostWatchdogExpire t) s = .next (
    let v := ((u.hi F.HIF_STAT_WD_EXP).modHif fun h => { h with fedAt := u.now }).event 0x0304 0
    if v.cores.fwRuns && v.axes.any v.running then v.activateFor 2 (v.axes.filter fun a => v.axMode a != 5) else v)) ∧
  (∀ (s : State) (t : Nat), let u := s.upTo t
    u.commOn = true →
    exec (.hotReset t) s = .next (u.linkReset F.HIF_STAT_FLR 0x0306)) ∧
  (∀ (s : State) (t : Nat) (perst : Bool), let u := s.upTo t
    u.commOn = true →
    (perst = true ∨ u.bit F.HIF_STAT_LINK_UP = true) →
    exec (.linkLoss t perst) s = .next ((u.cond perst fun s => { s with pins := { s.pins with perstN := false } }).linkReset F.HIF_STAT_LINK_LOSS 0x0305)) ∧
  (∀ (s : State) (t : Nat) (r : Fin 11), let u := s.upTo t
    (u.hif.mover.head?.any fun j => j.cmd.ring == r.val) = false →
    u.ringEn r = true →
    exec (.dmaError t r) s = .next (u.ringError r 2)) ∧
  (∀ (s : State) (t : Nat) (r : Fin 11) (j : MoverJob) (rest : List MoverJob), let u := s.upTo t
    u.hif.mover = j :: rest →
    j.cmd.ring = r.val →
    exec (.dmaError t r) s = .next ((u.modHif fun h => { h with mover := rest }).capture (.copyEnd j none))) ∧
  (∀ (s : State) (t : Nat) (cfg : PcieCfg), let u := s.upTo t
    u.commOn = true →
    u.awake = true →
    exec (.pcieLinkUp t cfg) s = .next (
    let v := ({ u.hi F.HIF_STAT_LINK_UP with pins := { u.pins with perstN := true } } : State).modHif fun h => { h with pcie := cfg }
    if !cfg.msixEn || v.msixShut then v
    else v.each (List.range 32) fun s k =>
      if s.bit ⟨R.HIF_MSIX_PBA, k, 1⟩ && !s.bit (F.HIF_MSIX_CTRL_MASK k) then (s.lo ⟨R.HIF_MSIX_PBA, k, 1⟩).emit (.msix k)
      else s)) ∧
  (∀ (s : State) (t : Nat) (data : List Byte) (j : MoverJob) (rest : List MoverJob), let u := s.upTo t
    u.hif.mover = j :: rest →
    u.cpuOn = true →
    u.commOn = true →
    exec (.dataMoverDone t data) s = .next (((u.modHif fun h => { h with mover := rest }).moverStores j).capture (.copyEnd j (some data))))

/-- When the firmware can run the command that holds its ring, the command begins and: NOP completes OK; QUERY_STATE
completes with SYS_MODE and SAF_STAT; SET_MODE completes MODE, ARG, BUSY, VETO or OK and changes the mode as R65 and
R573 say; ARM acts when nothing refuses it, and a failed gate-path test activates row 31 with VETO; START of an armed
READY axis begins its catch, or is held until RUN_OK; STOP stops an axis, or ends its start. The instants are the
model's (log entries 4 and 7). Further choices of the model: log entries 13, 50, 60, 61, 62, 114, 121, 123. -/
def Obligations.AxisCommandsRun : Prop :=
  (∀ (s : State) (t : Nat) (r : Fin 4) (c : Cmd), let u := s.upTo t
    u.mayRun r c →
    c.opcode = 0x01 →
    exec (.nop t r) s = .next (((u.begin_ r).complete c stOk 0).runEnd u.cores.finals.length)) ∧
  (∀ (s : State) (t : Nat) (r : Fin 4) (c : Cmd), let u := s.upTo t
    u.mayRun r c →
    c.opcode = 0x02 →
    exec (.queryState t r) s = .next (((u.begin_ r).complete c stOk (((u.begin_ r).reg R.SYS_MODE).toNat + 2 ^ 32 * ((u.begin_ r).reg R.SAF_STAT).toNat)).runEnd u.cores.finals.length)) ∧
  (∀ (s : State) (t : Nat) (r : Fin 4) (so : List Nat) (c : Cmd), let u := s.upTo t
    u.mayRun r c →
    c.opcode = 0x10 →
    c.arg 16 1 = 5 →
    exec (.setMode t r so) s = .next ((((u.begin_ r).activateFor 2 ((u.begin_ r).axes.filter fun a => (u.begin_ r).axMode a != 5)).done c stOk).runEnd u.cores.finals.length)) ∧
  (∀ (s : State) (t : Nat) (r : Fin 4) (so : List Nat) (c : Cmd), let u := s.upTo t
    u.mayRun r c →
    c.opcode = 0x10 →
    c.arg 16 1 = 2 →
    exec (.setMode t r so) s = .next (
    (if ((u.begin_ r).axes.filter fun a => (u.begin_ r).axMode a == 5).isEmpty then
      (u.begin_ r).done c (if (u.begin_ r).axes.any (u.begin_ r).running then stMode else stOk)
    else (u.begin_ r).holdToReady c ((u.begin_ r).axes.filter fun a => (u.begin_ r).axMode a == 5) so).runEnd u.cores.finals.length)) ∧
  (∀ (s : State) (t : Nat) (r : Fin 4) (so : List Nat) (c : Cmd), let u := s.upTo t
    u.mayRun r c →
    c.opcode = 0x10 →
    (c.arg 16 1 = 0 ∨ c.arg 16 1 = 1) →
    (u.begin_ r).axes.any (u.begin_ r).starting = false →
    (u.begin_ r).axes.any (u.begin_ r).running = false →
    (c.arg 16 1 = 0 → (u.begin_ r).unmirrored = 0 ∨ (u.begin_ r).bit F.JRN_STAT_BAN = false) →
    exec (.setMode t r so) s = .next (
    (if c.arg 16 1 = 1 then ((u.begin_ r).done c stOk).enterWatch
    else (((u.begin_ r).done c stOk).releaseHeld fun x => x.cmd == c).startShutdown).runEnd u.cores.finals.length)) ∧
  (∀ (s : State) (t : Nat) (r : Fin 4) (so : List Nat) (c : Cmd), let u := s.upTo t
    u.mayRun r c →
    c.opcode = 0x10 →
    (c.arg 16 1 = 3 ∨ c.arg 16 1 = 4 ∨ 6 ≤ c.arg 16 1) →
    exec (.setMode t r so) s = .next (((u.begin_ r).done c stArg).runEnd u.cores.finals.length)) ∧
  (∀ (s : State) (t : Nat) (r : Fin 4) (path : Bool) (c : Cmd), let u := s.upTo t
    u.mayRun r c →
    c.opcode = 0x11 →
    Nat.land (c.arg 18 1) (c.arg 19 1) = 0 →
    c.arg 17 1 ≠ 3 →
    (c.arg 16 1 ≠ 0xFF → (u.begin_ r).axMode (c.arg 16 1) = 2 ∧ (u.begin_ r).armable (c.arg 16 1) = true) →
    (c.arg 17 1 = 1 → (u.begin_ r).mode = 2 ∧ (u.begin_ r).rd F.SAF_STAT_CON_CAUSE = 0) →
    exec (.arm t r path) s = .next (
    (if c.arg 16 1 ≠ 0xFF ∧ path = false then ((u.begin_ r).activateRow 31 (c.arg 16 1)).done c stVeto
    else (u.begin_ r).armActs c).runEnd u.cores.finals.length)) ∧
  (∀ (s : State) (t : Nat) (r : Fin 4) (c : Cmd), let u := s.upTo t
    u.mayRun r c →
    c.opcode = 0x12 →
    (u.begin_ r).axMode (c.arg 16 1) = 2 →
    (u.begin_ r).axes.any (fun b => (u.begin_ r).axMode b == 5) = false →
    (u.begin_ r).starting (c.arg 16 1) = false →
    ((u.begin_ r).fc (c.arg 16 1)).armed = true →
    ((u.begin_ r).uz F.BLK_BTINT_BT_ENF ≠ 1 ∨ ((u.begin_ r).uzAx (c.arg 16 1)).btDue = false) →
    (u.begin_ r).taskRuns (c.arg 16 1) = true →
    exec (.start t r) s = .next (
    (let v := ({ u.begin_ r with hovIdle := none } : State).modUz (c.arg 16 1) fun x => { x with release := true }
    if v.bit F.SYS_MODE_RUN_OK then v.startCatch (c.arg 16 1) c
    else v.modFc (c.arg 16 1) fun f => { f with held := some (c, v.now) }).runEnd u.cores.finals.length)) ∧
  (∀ (s : State) (t : Nat) (r : Fin 4) (c : Cmd), let u := s.upTo t
    u.mayRun r c →
    c.opcode = 0x13 →
    (u.begin_ r).starting (c.arg 16 1) = true →
    exec (.stop t r) s = .next (((((u.begin_ r).catchAbort (c.arg 16 1) stMode).modUz (c.arg 16 1) fun x => { x with release := false }).done c stOk).runEnd u.cores.finals.length)) ∧
  (∀ (s : State) (t : Nat) (r : Fin 4) (c : Cmd), let u := s.upTo t
    u.mayRun r c →
    c.opcode = 0x13 →
    (u.begin_ r).starting (c.arg 16 1) = false →
    (u.begin_ r).running (c.arg 16 1) = true →
    (u.begin_ r).bit (F.FSL_FC_STAT_COAST (c.arg 16 1)) = false →
    exec (.stop t r) s = .next ((((u.begin_ r).stopAxis (c.arg 16 1)).done c stOk).runEnd u.cores.finals.length))

/-- When the firmware can run the command that holds its ring, SET_TORQUE, SET_SPEED and SET_LIMITS stage their words and
publish them; LOAD_PROFILE writes its words, queues its table copy, or drives FORM, GO and HALT; a BRAKE_TEST of an
armed READY axis with a brake begins; DISCHARGE outside RUN and LIMP is requested; the handover policy is written
while every segment axis is idle; and the trace is configured and armed. The instants are the model's (log entries 4
and 7). Further choices of the model: log entries 13, 59, 60, 63, 114, 121. -/
def Obligations.SetPointAndProfileCommandsRun : Prop :=
  (∀ (s : State) (t : Nat) (r : Fin 4) (c : Cmd), let u := s.upTo t
    u.mayRun r c →
    c.opcode = 0x14 →
    exec (.setTorque t r) s = .next (
    ((if c.arg 17 1 == 1 then
        (((u.begin_ r).setReg (R.FSL_SP (c.arg 16 1) 0) 0#32).setReg (R.FSL_SP (c.arg 16 1) 1) (c.word 20)).stageCommon c (c.arg 16 1)
      else (((u.begin_ r).setReg (R.FSL_SP (c.arg 16 1) 0) 1#32).setReg (R.FSL_SP (c.arg 16 1) 2) (c.word 20)).stageCommon c
        (c.arg 16 1)).publishCmd c (c.arg 16 1)).runEnd u.cores.finals.length)) ∧
  (∀ (s : State) (t : Nat) (r : Fin 4) (c : Cmd), let u := s.upTo t
    u.mayRun r c →
    c.opcode = 0x15 →
    exec (.setSpeed t r) s = .next (
    (((((u.begin_ r).setReg (R.FSL_SP (c.arg 16 1) 0) (if c.arg 17 1 = 1 then 6#32 else 2#32)).setReg (R.FSL_SP (c.arg 16 1) 3)
      (c.word 20)).stageCommon c (c.arg 16 1)).publishCmd c (c.arg 16 1)).runEnd u.cores.finals.length)) ∧
  (∀ (s : State) (t : Nat) (r : Fin 4) (c : Cmd), let u := s.upTo t
    u.mayRun r c →
    c.opcode = 0x16 →
    c.arg 17 1 = 0 →
    exec (.loadProfileParams t r) s = .next (
    (let a := c.arg 16 1
    let regs := [R.MOT_V_START a, R.MOT_V_BRK a, R.MOT_V_MAX a, R.MOT_V_STOP a, R.MOT_A1 a, R.MOT_A2 a, R.MOT_D1 a,
      R.MOT_D2 a, R.MOT_TARGET a]
    ((u.begin_ r).each (List.range 9) fun s i => s.setReg (regs.getD i 0) (c.word (20 + 4 * i))).done c stOk).runEnd u.cores.finals.length)) ∧
  (∀ (s : State) (t : Nat) (r : Fin 4) (c : Cmd), let u := s.upTo t
    u.mayRun r c →
    c.opcode = 0x16 →
    c.arg 17 1 = 1 →
    0 < c.arg 28 2 →
    c.arg 28 2 ≤ 1024 →
    0x2000 ≤ c.arg 32 4 / 16 * 16 →
    c.arg 32 4 / 16 * 16 + 16 * c.arg 28 2 ≤ 0x40000 →
    exec (.loadProfileTable t r) s = .next (
    ((u.begin_ r).modHif fun h => { h with
      mover := h.mover ++ [.profileTable c (c.arg 16 1) (c.arg 32 4 / 16 * 16) (c.arg 28 2) (c.arg 20 8)] }).runEnd u.cores.finals.length)) ∧
  (∀ (s : State) (t : Nat) (r : Fin 4) (c : Cmd), let u := s.upTo t
    u.mayRun r c →
    c.opcode = 0x16 →
    c.arg 17 1 = 2 →
    exec (.loadProfileControl t r) s = .next (
    (let a := c.arg 16 1
    let v := (u.begin_ r).plain (R.MOT_TBL a) (c.word 20)
    (if (c.arg 18 1).testBit 2 then v.motHalt a ((c.arg 18 1).testBit 0)
      else if (c.arg 18 1).testBit 1 then v.motGo a ((c.arg 18 1).testBit 0)
      else v.wrB (F.MOT_CTL_FORM a) ((c.arg 18 1).testBit 0)).done c stOk).runEnd u.cores.finals.length)) ∧
  (∀ (s : State) (t : Nat) (r : Fin 4) (c : Cmd), let u := s.upTo t
    u.mayRun r c →
    c.opcode = 0x17 →
    ((c.arg 17 1).testBit 0 = true → (u.begin_ r).axMode (c.arg 16 1) = 2) →
    exec (.setLimits t r) s = .next (
    (let a := c.arg 16 1
    let v := (u.begin_ r).cond ((c.arg 17 1).testBit 0) fun s =>
      ((((s.wrB (F.MOT_CFG_LIM_EN a) ((c.arg 17 1).testBit 1)).setReg (R.MOT_LIM_LO a) (c.word 24)).setReg (R.MOT_LIM_HI a)
        (c.word 28)).setReg (R.MOT_LIM_TOL a) (c.word 32)).limCfg a
    (v.setReg (R.FSL_SP a 4) (c.word 20)).publishCmd c a).runEnd u.cores.finals.length)) ∧
  (∀ (s : State) (t : Nat) (r : Fin 4) (c : Cmd), let u := s.upTo t
    u.mayRun r c →
    c.opcode = 0x18 →
    (u.begin_ r).axMode (c.arg 16 1) = 2 →
    ((u.begin_ r).fc (c.arg 16 1)).armed = true →
    (u.begin_ r).hasBrake (c.arg 16 1) = true →
    (u.begin_ r).starting (c.arg 16 1) = false →
    (u.begin_ r).saf.btest = none →
    exec (.brakeTest t r) s = .next (
    (let a := c.arg 16 1
    let v := ({ u.begin_ r with btCmd := some c } : State).modSaf fun x => { x with btest := some { axis := a, since := (u.begin_ r).now } }
    let v := (v.capture (.brakeStep a 1)).enterRun a
    v.commandCurrent a (v.testCurrent a false)).runEnd u.cores.finals.length)) ∧
  (∀ (s : State) (t : Nat) (r : Fin 4) (c : Cmd), let u := s.upTo t
    u.mayRun r c →
    c.opcode = 0x19 →
    (u.begin_ r).axes.any (u.begin_ r).running = false →
    exec (.discharge t r) s = .next (
    (let v := ({ u.begin_ r with dchCmds := (u.begin_ r).dchCmds ++ [c] } : State).requestDischarge
    if (u.begin_ r).saf.discharge == .waitFb && !v.bit F.SAF_STAT_FB0 then v.dchBarred else v).runEnd u.cores.finals.length)) ∧
  (∀ (s : State) (t : Nat) (r : Fin 4) (c : Cmd), let u := s.upTo t
    u.mayRun r c →
    c.opcode = 0x1A →
    (u.begin_ r).policyFree = true →
    exec (.handoverPolicy t r) s = .next (((((u.begin_ r).policyWrite R.MOT_HOV_POL (c.word 20)).policyWrite R.MOT_HOV_IDLE (c.word 24)).done c stOk).runEnd u.cores.finals.length)) ∧
  (∀ (s : State) (t : Nat) (r : Fin 4) (c : Cmd), let u := s.upTo t
    u.mayRun r c →
    c.opcode = 0x30 →
    exec (.traceArm t r) s = .next (
    (let v := ((u.begin_ r).plain R.FSL_TRC_TRIG (c.word 24)).plain R.FSL_TRC_LVL (c.word 28)
    let v := (v.each [0, 1, 2, 3] fun s m => s.plain (R.FSL_TRC_SEL m) (c.word (32 + 4 * m))).traceWrite
      (c.word 20 ||| 0x80000000#32)
    (v.cond ((c.word 20).getLsbD 29) fun s => s.effect execTraceForce).done c stOk).runEnd u.cores.finals.length))

/-- When the firmware can run the command that holds its ring and its arguments are in range: a frozen trace with the
marks of its flawed words, journal entries and records go to the data mover; a mark waits for the commit of its
record; a part of an object is staged; FW_COMMIT raises the counter, commits the boot record, or both; a report is
started; a frame is fetched for sending; and a telemetry stream is configured. The instants are the model's (log
entries 4 and 7). Further choices of the model: log entries 13, 64, 65, 66, 114, 121. -/
def Obligations.DataCommandsRun : Prop :=
  (∀ (s : State) (t : Nat) (r : Fin 4) (bads : List Nat) (fixed : List Nat) (c : Cmd), let u := s.upTo t
    u.mayRun r c →
    c.opcode = 0x31 →
    (u.begin_ r).rd F.FSL_TRC_STAT_STATE = 3 →
    c.arg 28 4 % 64 = 0 →
    c.arg 28 4 ≤ 524288 →
    exec (.traceRead t r bads fixed) s = .next (
    (let v := (u.begin_ r).traceFlaws (c.arg 28 4) bads fixed
    v.move (.toHost c (c.arg 20 8) (v.traceBytes.take (c.arg 28 4)) (v.traceBytes.take (c.arg 28 4)).length)).runEnd u.cores.finals.length)) ∧
  (∀ (s : State) (t : Nat) (r : Fin 4) (c : Cmd), let u := s.upTo t
    u.mayRun r c →
    c.opcode = 0x40 →
    0 < c.arg 20 8 →
    c.arg 20 8 ≤ (u.begin_ r).rd64 R.JRN_HEAD_SEQ_LO R.JRN_HEAD_SEQ_HI →
    0 < c.arg 36 2 →
    c.arg 36 2 ≤ 2048 →
    exec (.journalQuery t r) s = .next (
    (let js := (List.range (c.arg 36 2)).map (c.arg 20 8 + ·)
    (u.begin_ r).move (.toHost c (c.arg 28 8) (js.flatMap (u.begin_ r).queryBytes)
      (((js.filter fun j => ((u.begin_ r).findEntry j).isSome).getLast?).getD 0))).runEnd u.cores.finals.length)) ∧
  (∀ (s : State) (t : Nat) (r : Fin 4) (c : Cmd), let u := s.upTo t
    u.mayRun r c →
    c.opcode = 0x50 →
    c.arg 20 8 < (u.begin_ r).recd.rnum →
    exec (.recRead t r) s = .next (
    (let v := u.begin_ r
    let l := v.records.filter fun x => decide (c.arg 20 8 ≤ x.1.rnum)
    let x := v.fitRecords l (max (c.arg 20 8) (v.rd64 R.REC_TAIL_LO R.REC_TAIL_HI)) (c.arg 36 4) v.fresh
    ({ v with fresh := v.fresh + 2 * l.length } : State).move
      (.toHost c (c.arg 28 8) x.1 (x.1.length % 2 ^ 32 + 2 ^ 32 * (x.2 % 2 ^ 32)))).runEnd u.cores.finals.length)) ∧
  (∀ (s : State) (t : Nat) (r : Fin 4) (c : Cmd), let u := s.upTo t
    u.mayRun r c →
    c.opcode = 0x51 →
    (c.arg 17 1 = 1 → (u.begin_ r).bit F.SEC_BOOT_STAT_ID_OK = true) →
    (u.begin_ r).canWrite = true →
    ((u.begin_ r).recAdd 2 (u.begin_ r).ct (slice c.args 4 32) (c.arg 17 1 == 1)).recd.rnum ≠ (u.begin_ r).recd.rnum →
    exec (.recMark t r) s = .next (
    ((((u.begin_ r).recAdd 2 (u.begin_ r).ct (slice c.args 4 32) (c.arg 17 1 == 1)).modRec fun x => { x with
      marks := x.marks ++ [((u.begin_ r).recd.rnum, c)] }).flushStaging).runEnd u.cores.finals.length)) ∧
  (∀ (s : State) (t : Nat) (r : Fin 4) (c : Cmd), let u := s.upTo t
    u.mayRun r c →
    c.opcode = 0x60 →
    c.arg 16 1 ≤ 2 →
    c.arg 32 4 ≤ 65536 →
    c.arg 28 4 = 0 →
    c.arg 28 4 + c.arg 32 4 ≤ 17120 + payloadLimit (if c.arg 16 1 = 0 then 1 else if c.arg 16 1 = 1 then 2 else 5) →
    (u.begin_ r).canWrite = true →
    ((u.begin_ r).abandonStage.modRec fun x => { x with stage := some ⟨(u.begin_ r).stageTarget (c.arg 16 1), [], [], []⟩ }).partCmds = [] →
    exec (.fwStage t r) s = .next (
    (((u.begin_ r).abandonStage.modRec fun x => { x with stage := some ⟨(u.begin_ r).stageTarget (c.arg 16 1), [], [], []⟩ }).move
      (.fwPart c ((u.begin_ r).stageTarget (c.arg 16 1)) (c.arg 28 4) (c.arg 32 4) (c.arg 17 1 == 1) (c.arg 20 8))).runEnd u.cores.finals.length)) ∧
  (∀ (s : State) (t : Nat) (r : Fin 4) (c : Cmd) (g : Staging), let u := s.upTo t
    u.mayRun r c →
    c.opcode = 0x60 →
    c.arg 16 1 ≤ 2 →
    c.arg 32 4 ≤ 65536 →
    0 < c.arg 28 4 →
    c.arg 28 4 + c.arg 32 4 ≤ 17120 + payloadLimit (if c.arg 16 1 = 0 then 1 else if c.arg 16 1 = 1 then 2 else 5) →
    (u.begin_ r).canWrite = true →
    (u.begin_ r).recd.stage = some g →
    g.obj = (u.begin_ r).stageTarget (c.arg 16 1) →
    g.bytes.length = c.arg 28 4 →
    (u.begin_ r).partCmds = [] →
    exec (.fwStage t r) s = .next (((u.begin_ r).move (.fwPart c ((u.begin_ r).stageTarget (c.arg 16 1)) (c.arg 28 4) (c.arg 32 4) (c.arg 17 1 == 1) (c.arg 20 8))).runEnd u.cores.finals.length)) ∧
  (∀ (s : State) (t : Nat) (r : Fin 4) (c : Cmd), let u := s.upTo t
    u.mayRun r c →
    c.opcode = 0x61 →
    (c.arg 16 1).testBit 0 = true →
    (u.begin_ r).axes.any (u.begin_ r).running = false →
    ((c.arg 16 1).testBit 1 = true → (u.begin_ r).bit F.SEC_BOOT_STAT_FALLBACK = false ∧ (u.begin_ r).bit F.SEC_BOOT_STAT_CFG_FALLBACK = false ∧ (u.begin_ r).rd F.SEC_BOOT_STAT_SLOT ≠ 2) →
    (u.begin_ r).recd.ready ≠ [] →
    (u.begin_ r).canWrite = true →
    exec (.fwCommitActivate t r) s = .next (
    (let v := (u.begin_ r).cond ((c.arg 16 1).testBit 1) fun s =>
      let s := (s.advanceTo (min (s.rd F.SEC_ARB_IMG_SVN) (s.rd F.SEC_ARB_CFG_SVN))).arbRegs
      s.event 0x1106 s.rollback
    let img := (v.recd.ready.filter fun o => decide (o < 2)).getLast?
    let cfg := (v.recd.ready.filter fun o => decide (2 ≤ o)).getLast?
    v.modRec fun x => { x with
      ready := [], progs := x.progs ++ [.boot c (img.getD v.med.bootSlot) ((cfg.map (· - 2)).getD v.med.bootCopy)] }).runEnd u.cores.finals.length)) ∧
  (∀ (s : State) (t : Nat) (r : Fin 4) (c : Cmd), let u := s.upTo t
    u.mayRun r c →
    c.opcode = 0x61 →
    (c.arg 16 1).testBit 0 = false →
    (c.arg 16 1).testBit 1 = true →
    (u.begin_ r).axes.any (u.begin_ r).running = false →
    (u.begin_ r).bit F.SEC_BOOT_STAT_FALLBACK = false →
    (u.begin_ r).bit F.SEC_BOOT_STAT_CFG_FALLBACK = false →
    (u.begin_ r).rd F.SEC_BOOT_STAT_SLOT ≠ 2 →
    (u.begin_ r).canWrite = true →
    exec (.fwCommitAdvance t r) s = .next (
    (let v := ((u.begin_ r).advanceTo (min ((u.begin_ r).rd F.SEC_ARB_IMG_SVN) ((u.begin_ r).rd F.SEC_ARB_CFG_SVN))).arbRegs
    (v.event 0x1106 v.rollback).done c stOk).runEnd u.cores.finals.length)) ∧
  (∀ (s : State) (t : Nat) (r : Fin 4) (c : Cmd), let u := s.upTo t
    u.mayRun r c →
    c.opcode = 0x70 →
    (u.begin_ r).bit F.SEC_BOOT_STAT_ID_OK = true →
    (u.begin_ r).sec.attest = none →
    exec (.attest t r) s = .next (((u.begin_ r).modSec fun x => { x with attest := some (c, (u.begin_ r).ct) }).runEnd u.cores.finals.length)) ∧
  (∀ (s : State) (t : Nat) (r : Fin 4) (c : Cmd), let u := s.upTo t
    u.mayRun r c →
    c.opcode = 0x80 →
    (c.arg 22 1 = 2 ∨ (0x40 ≤ c.arg 22 1 ∧ c.arg 22 1 ≤ 0x7F)) →
    c.arg 32 2 ≤ 256 →
    c.arg 20 2 ≠ 0 →
    c.arg 20 2 ≠ (u.begin_ r).chainAddr →
    c.arg 20 2 ≤ 0x3FFF →
    exec (.chainSend t r) s = .next (((u.begin_ r).move (.chainSend c (c.arg 20 2) (c.arg 22 1) (c.arg 32 2) (c.arg 24 8))).runEnd u.cores.finals.length)) ∧
  (∀ (s : State) (t : Nat) (r : Fin 4) (c : Cmd), let u := s.upTo t
    u.mayRun r c →
    c.opcode = 0xA0 →
    c.arg 16 1 ≤ 1 →
    0 < c.arg 18 2 →
    (c.tlmItems.drop c.tlmUsed.length).any (fun w => w.getLsbD 31) = false →
    c.tlmUsed.all (fun w => w.toNat % 2 ^ 24 % 4 == 0 && decide (w.toNat % 2 ^ 24 < 0x120000) && !State.writeOnly (w.toNat % 2 ^ 24)) = true →
    exec (.tlmConfig t r) s = .next (
    (let k := c.arg 16 1
    let v := (u.begin_ r).wr (F.HIF_TLM_CFG_EN k) (c.arg 17 1)
    let v := (v.wr (F.HIF_TLM_CFG_NVAL k) c.tlmUsed.length).wr (F.HIF_TLM_CFG_PERIOD k) (c.arg 18 2)
    let v := v.wr (F.HIF_TLM_VF_VALID_FOR k) (if c.arg 20 4 = 0 then 100 * c.arg 18 2 else c.arg 20 4)
    let v := v.each (List.range 9) fun s i => s.setReg (R.HIF_TLM_ITEM k i) (c.tlmItems.getD i 0#32)
    (v.modStr k fun x => { x with
      cfgAt := v.now, nextMul := 1, lastAt := if (u.begin_ r).bit (F.HIF_TLM_CFG_EN k) then x.lastAt else v.now }).done c stOk).runEnd u.cores.finals.length))

/-- When the firmware can run the command that holds its ring: CONFIGURE and TRANSMIT of an object that is free fetch its
image; READ clears NEW and returns the image; DISABLE clears the object and ABORT its pending transmission; START
leaves INIT and waits for integration where the timing is valid; STOP enters INIT, at the end of a frame this
controller has on the bus; and RECOVER of a controller in bus-off starts the recovery. The instants are the model's
(log entries 4 and 7). Further choices of the model: log entries 13, 62, 111, 114, 121. -/
def Obligations.CanCommandsRun : Prop :=
  (∀ (s : State) (t : Nat) (r : Fin 4) (c : Cmd), let u := s.upTo t
    u.mayRun r c →
    c.opcode = 0x90 →
    c.arg 17 1 = 1 →
    (u.begin_ r).canOwns (c.arg 16 1) (c.arg 18 2) = false →
    exec (.canConfigure t r) s = .next (((u.begin_ r).move (.canImage c (c.arg 16 1) (c.arg 18 2) (c.arg 20 8))).runEnd u.cores.finals.length)) ∧
  (∀ (s : State) (t : Nat) (r : Fin 4) (c : Cmd), let u := s.upTo t
    u.mayRun r c →
    c.opcode = 0x90 →
    c.arg 17 1 = 2 →
    (u.begin_ r).canRefusal (c.arg 16 1) (c.arg 18 2) = none →
    exec (.canTransmit t r) s = .next (((u.begin_ r).move (.canImage c (c.arg 16 1) (c.arg 18 2) (c.arg 20 8))).runEnd u.cores.finals.length)) ∧
  (∀ (s : State) (t : Nat) (r : Fin 4) (c : Cmd), let u := s.upTo t
    u.mayRun r c →
    c.opcode = 0x90 →
    c.arg 17 1 = 3 →
    exec (.canRead t r) s = .next (
    (((u.begin_ r).putCanObj (c.arg 16 1) (c.arg 18 2)
      (((u.begin_ r).canObj (c.arg 16 1) (c.arg 18 2)).setFlag 7 false)).move
      (.toHost c (c.arg 20 8) ((u.begin_ r).canObj (c.arg 16 1) (c.arg 18 2)).image 0)).runEnd u.cores.finals.length)) ∧
  (∀ (s : State) (t : Nat) (r : Fin 4) (c : Cmd), let u := s.upTo t
    u.mayRun r c →
    c.opcode = 0x90 →
    c.arg 17 1 = 4 →
    (((u.begin_ r).canObj (c.arg 16 1) (c.arg 18 2)).flag 0 = false ∨ (u.begin_ r).canOwns (c.arg 16 1) (c.arg 18 2) = false) →
    exec (.canDisable t r) s = .next (
    ((((u.begin_ r).putCanObj (c.arg 16 1) (c.arg 18 2)
      (((u.begin_ r).canObj (c.arg 16 1) (c.arg 18 2)).setFlag 6 false)).canOwnBit (c.arg 16 1) (c.arg 18 2) false).done c stOk).runEnd u.cores.finals.length)) ∧
  (∀ (s : State) (t : Nat) (r : Fin 4) (onBus : Bool) (c : Cmd) (x : CanTx), let u := s.upTo t
    u.mayRun r c →
    c.opcode = 0x90 →
    c.arg 17 1 = 5 →
    ((u.begin_ r).can (c.arg 16 1)).pend.find? (fun x => x.obj == c.arg 18 2) = some x →
    exec (.canAbort t r onBus) s = .next ((if onBus then (u.begin_ r).done c stBusy else ((u.begin_ r).canFail (c.arg 16 1) x 8).done c stOk).runEnd u.cores.finals.length)) ∧
  (∀ (s : State) (t : Nat) (r : Fin 4) (onBus : Bool) (c : Cmd), let u := s.upTo t
    u.mayRun r c →
    c.opcode = 0x90 →
    c.arg 17 1 = 5 →
    ((u.begin_ r).can (c.arg 16 1)).pend.find? (fun x => x.obj == c.arg 18 2) = none →
    exec (.canAbort t r onBus) s = .next (((u.begin_ r).done c stOk).runEnd u.cores.finals.length)) ∧
  (∀ (s : State) (t : Nat) (r : Fin 4) (c : Cmd), let u := s.upTo t
    u.mayRun r c →
    c.opcode = 0x90 →
    c.arg 17 1 = 0x10 →
    (u.begin_ r).bit (F.CAN_CTL_INIT (c.arg 16 1)) = true →
    (u.begin_ r).canTimingBad (c.arg 16 1) = false →
    exec (.canStart t r) s = .next (((u.begin_ r).canLeaveInit (c.arg 16 1) (some c)).runEnd u.cores.finals.length)) ∧
  (∀ (s : State) (t : Nat) (r : Fin 4) (onBus : Bool) (c : Cmd), let u := s.upTo t
    u.mayRun r c →
    c.opcode = 0x90 →
    c.arg 17 1 = 0x11 →
    (onBus = false ∨ (u.begin_ r).canActive (c.arg 16 1) = false) →
    exec (.canStop t r onBus) s = .next ((((u.begin_ r).canInit (c.arg 16 1)).done c stOk).runEnd u.cores.finals.length)) ∧
  (∀ (s : State) (t : Nat) (r : Fin 4) (onBus : Bool) (c : Cmd), let u := s.upTo t
    u.mayRun r c →
    c.opcode = 0x90 →
    c.arg 17 1 = 0x11 →
    onBus = true →
    (u.begin_ r).canActive (c.arg 16 1) = true →
    exec (.canStop t r onBus) s = .next (((u.begin_ r).modCan (c.arg 16 1) fun x => { x with stopping := x.stopping ++ [c] }).runEnd u.cores.finals.length)) ∧
  (∀ (s : State) (t : Nat) (r : Fin 4) (c : Cmd), let u := s.upTo t
    u.mayRun r c →
    c.opcode = 0x90 →
    c.arg 17 1 = 0x12 →
    (u.begin_ r).rd (F.CAN_STAT_STATE (c.arg 16 1)) = 3 →
    ((u.begin_ r).can (c.arg 16 1)).recCmd = none →
    exec (.canRecover t r) s = .next (((u.begin_ r).modCan (c.arg 16 1) fun x => { x with recovering := true, recCmd := some c }).runEnd u.cores.finals.length))

/-- On an active controller: a frame that an object takes is stored and captured, and one that none takes counts RX_DROP;
an acknowledged transmission completes its command, and a failed single-shot one ends it with its cause and event
0x0E07, a transmitter delay above 127 making a frame fail with TDC_OVR; a bus error sets the error code and the
counters. A transmission past TX_TMAX fails with event 0x0E08; 11 recessive bits complete a START; recovery ends error
active with event 0x0E04; the epoch follows a wrap, and SNAP takes the pair of times. The instants are the model's
(log entries 4 and 7). Further choices of the model: log entries 11, 24, 111. -/
def Obligations.CanBusHappeningsComplete : Prop :=
  (∀ (s : State) (t : Nat) (n : Fin 2) (f : CanFrame) (sof : Nat) (err : BitVec 8), let u := s.upTo t
    u.canActive n = true →
    (f.fdf = false ∨ u.bit (F.CAN_CTL_FD_EN n) = true) →
    (u.canCounters n (u.rd (F.CAN_ERR_TEC n)) err.toNat).canTaker n f = none →
    exec (.canFrameReceive t n f sof err) s = .next (((u.canCounters n (u.rd (F.CAN_ERR_TEC n)) err.toNat).count (F.CAN_CNT_RX_DROP n) (F.CAN_CNT_SAT n) 0x0E09 n).canFrameEnd n)) ∧
  (∀ (s : State) (t : Nat) (n : Fin 2) (f : CanFrame) (sof : Nat) (err : BitVec 8) (k : Nat), let u := s.upTo t
    u.canActive n = true →
    (f.fdf = false ∨ u.bit (F.CAN_CTL_FD_EN n) = true) →
    (u.canCounters n (u.rd (F.CAN_ERR_TEC n)) err.toNat).canTaker n f = some k →
    ((u.canCounters n (u.rd (F.CAN_ERR_TEC n)) err.toNat).canObj n k).flag 7 = false →
    exec (.canFrameReceive t n f sof err) s = .next (
    let v := u.canCounters n (u.rd (F.CAN_ERR_TEC n)) err.toNat
    let st := v.canStamp sof
    let data := (f.data ++ List.replicate 64 0#8).take (dlcBytes f.fdf f.dlc.toNat)
    let o := ((((v.canObj n k).setFlag 1 f.fdf).setFlag 2 f.brs).setFlag 3 f.esi).setFlag 7 true
    let o := { o with id := f.word, dlc := f.dlc.toNat, ts := st.1, epoch := st.2, data := data }
    ((v.putCanObj n k o).capture (.canRx n k o st.1)).canFrameEnd n)) ∧
  (∀ (s : State) (t : Nat) (n : Fin 2) (obj : Fin 128) (e : CanEnd) (sof : Nat) (esi : Bool) (delay : Option Nat) (tec : Nat) (x : CanTx), let u := s.upTo t
    u.canActive n = true →
    u.bit (F.CAN_CTL_LISTEN n) = false →
    ((u.canObj n obj).flag 1 = false ∨ u.bit (F.CAN_CTL_FD_EN n) = true) →
    u.canSent n sof = some x →
    x.obj = obj.val →
    e = .acked →
    delay = none →
    exec (.canTransmitEnd t n obj e sof esi delay tec) s = .next (
    let st := u.canStamp sof
    let v := u.putCanObj n obj { (u.canObj n obj).setFlag 3 esi with ts := st.1, epoch := st.2 }
    let v := v.modCan n fun k => { k with pend := k.pend.filter fun y => y.obj != obj.val }
    let v := (v.canOwnBit n obj false).complete x.cmd stOk (State.canResult 0 st.1)
    (v.canCounters n tec (v.rd (F.CAN_ERR_REC n))).canFrameEnd n)) ∧
  (∀ (s : State) (t : Nat) (n : Fin 2) (obj : Fin 128) (e : CanEnd) (sof : Nat) (esi : Bool) (delay : Option Nat) (tec : Nat) (x : CanTx) (c : Fin 6), let u := s.upTo t
    u.canActive n = true →
    u.bit (F.CAN_CTL_LISTEN n) = false →
    ((u.canObj n obj).flag 1 = false ∨ u.bit (F.CAN_CTL_FD_EN n) = true) →
    u.canSent n sof = some x →
    x.obj = obj.val →
    e = .failed c →
    delay = none →
    exec (.canTransmitEnd t n obj e sof esi delay tec) s = .next (
    let st := u.canStamp sof
    let v := u.putCanObj n obj { (u.canObj n obj).setFlag 3 esi with ts := st.1, epoch := st.2 }
    let v := if (u.canObj n obj).flag 4 then (v.canFail n x c).event 0x0E07 (n + 256 * obj + 65536 * c) else v
    (v.canCounters n tec (v.rd (F.CAN_ERR_REC n))).canFrameEnd n)) ∧
  (∀ (s : State) (t : Nat) (n : Fin 2) (obj : Fin 128) (e : CanEnd) (sof : Nat) (esi : Bool) (delay : Option Nat) (tec : Nat) (x : CanTx) (d : Nat), let u := s.upTo t
    u.canActive n = true →
    u.bit (F.CAN_CTL_LISTEN n) = false →
    ((u.canObj n obj).flag 1 = false ∨ u.bit (F.CAN_CTL_FD_EN n) = true) →
    u.canSent n sof = some x →
    x.obj = obj.val →
    e = .acked →
    delay = some d →
    u.bit (F.CAN_TDC_TDC_EN n) = true →
    (u.canObj n obj).flag 1 = true →
    (u.canObj n obj).flag 2 = true →
    127 < d →
    (u.canObj n obj).flag 4 = false →
    exec (.canTransmitEnd t n obj e sof esi delay tec) s = .next (
    let v := (u.wr (F.CAN_STAT_TDCV n) 127).hi (F.CAN_STAT_TDC_OVR n)
    let st := v.canStamp sof
    let v := v.putCanObj n obj { (u.canObj n obj).setFlag 3 esi with ts := st.1, epoch := st.2 }
    (v.canCounters n tec (v.rd (F.CAN_ERR_REC n))).canFrameEnd n)) ∧
  (∀ (s : State) (t : Nat) (n : Fin 2) (obj : Fin 128) (x : CanTx), let u := s.upTo t
    (u.can n).pend.find? (fun x => x.obj == obj.val) = some x →
    u.commOn = true →
    u.rd (F.CAN_CTL_TX_TMAX n) ≠ 0 →
    (u.canObj n obj).flag 4 = false →
    x.since + u.rd (F.CAN_CTL_TX_TMAX n) * 1000000 ≤ u.now →
    exec (.canTxTimeout t n obj) s = .next ((u.canFail n x 9).event 0x0E08 (n + 256 * obj))) ∧
  (∀ (s : State) (t : Nat) (n : Fin 2) (lec : Fin 7) (dataPhase : Bool) (tec : Nat) (err : Nat), let u := s.upTo t
    u.canActive n = true →
    exec (.canBusError t n lec dataPhase tec err) s = .next (((u.wr (if dataPhase then F.CAN_STAT_DLEC n else F.CAN_STAT_LEC n) lec).canCounters n tec err).canFrameEnd n)) ∧
  (∀ (s : State) (t : Nat) (n : Fin 2) (c : Cmd), let u := s.upTo t
    u.commOn = true →
    u.bit (F.CAN_CTL_INIT n) = false →
    u.rd (F.CAN_STAT_STATE n) = 0 →
    (u.can n).starting = some c →
    exec (.canIntegrated t n) s = .next (((u.wr (F.CAN_STAT_STATE n) 1).modCan n fun k => { k with starting := none }).complete c stOk 0)) ∧
  (∀ (s : State) (t : Nat) (n : Fin 2), let u := s.upTo t
    u.commOn = true →
    u.bit (F.CAN_CTL_INIT n) = false →
    u.rd (F.CAN_STAT_STATE n) = 0 →
    (u.can n).starting = none →
    exec (.canIntegrated t n) s = .next (u.wr (F.CAN_STAT_STATE n) 1)) ∧
  (∀ (s : State) (t : Nat) (n : Fin 2), let u := s.upTo t
    u.commOn = true →
    (u.can n).recovering = true →
    exec (.canRecoveryDone t n) s = .next (
    let v := u.modCan n fun k => { k with recovering := false, recCmd := none }
    let v := (((v.setReg (R.CAN_ERR n) 0#32).wr (F.CAN_STAT_STATE n) 1).lo (F.CAN_STAT_WARN n)).event 0x0E04 n
    match (u.can n).recCmd with
    | none => v
    | some c => v.complete c stOk 0)) ∧
  (∀ (s : State) (t : Nat), let u := s.upTo t
    u.rd F.CAN_TS_EPOCH_EPOCH < u.canTicks / 2 ^ 32 →
    exec (.canTsWrap t) s = .next (u.wr F.CAN_TS_EPOCH_EPOCH (u.rd F.CAN_TS_EPOCH_EPOCH + 1))) ∧
  (∀ (s : State) (t : Nat), let u := s.upTo t
    u.commOn = true →
    u.stores = true →
    exec (.snap t) s = .next (u.canSnap))

/-- On a formatted medium a successful page program is a commit point, and a failed one retires its block; the first
record's FLUSH_T and FLUSH write the staging out; FORMAT under the recovery image makes a fresh medium with every log;
the scrubber reads the next LIVE page; the least-worn block moves once the spread exceeds WL_SPREAD; NTC3 inside its
window for 1 s lifts the ban with event 0x0F02; an erase frees or retires its block; and a due journal batch goes to
the recorder. The instants are the model's (log entries 4 and 7). Further choices of the model: log entries 9, 32, 53,
74, 107, 112, 121. -/
def Obligations.RecorderHappeningsComplete : Prop :=
  (∀ (s : State) (t : Nat) (ok : Bool) (split : Bool) (p : Prog) (rest : List Prog), let u := s.upTo t
    u.commOn = true →
    u.med.formatted = true →
    u.banned = false →
    u.recd.progs = p :: rest →
    exec (.pageProgramDone t ok split) s = .next (
    if ok then (((u.modRec fun r => { r with progs := rest }).progCommit p split).recRegs).shutdownStep
    else
      let v := u.retire (u.progBlk p)
      match p with
      | .journal _ =>
        ((({ v with jrn := { v.jrn with behind := true } } : State).hi F.JRN_STAT_MIR_ERR).count F.JRN_CNT_MIR_FAIL
          F.JRN_CNT_SAT 0x0407 0).event 0x0404 0
      | _ => v)) ∧
  (∀ (s : State) (t : Nat) (x : Nat), let u := s.upTo t
    u.recd.stagedAt = some x →
    x + max 1 (u.rd F.REC_CFG_FLUSH_T) * 100000000 ≤ u.now →
    exec (.flushTimeout t) s = .next (u.flushStaging)) ∧
  (∀ (s : State) (t : Nat), let u := s.upTo t
    u.commOn = true →
    u.stores = true →
    exec (.flush t) s = .next (u.flushStaging)) ∧
  (∀ (s : State) (t : Nat) (bad : List Nat), let u := s.upTo t
    u.commOn = true →
    u.stores = true →
    u.banned = false →
    u.rd F.SEC_BOOT_STAT_SLOT = 2 →
    exec (.format t bad) s = .next (
    let k := u.nextFree
    let cs0 := 512 * 2 ^ Config.flashCode.val
    let size := cs0 + (if u.bit F.REC_CFG_CS1_EN then Config.cs1Blocks else 0)
    let old := u.med.blks
    let fresh (b : Nat) : Blk :=
      let n := (kvGet (fun _ => ({} : Blk)) old b).erases
      if bad.contains b then { use := .bad, erased := false, erases := n } else { erases := n + 1 }
    let blks := (List.range size).foldl (fun m b => kvSet (fun _ => ({} : Blk)) m b (fresh b)) []
    let m : Medium := { formatted := true, cs0 := cs0, size := size, gen := 1, fmtid := (Config.freeWord k.1).toNat, anchorUsed := Config.anchorPages.val + 1 }
    let m : Medium := { m with blks := blks, scrubAt := u.ct, keys := none, certs := [] }
    let v : State := { k.2 with med := m }
    let anchors := ((List.range 8).filter fun b => !bad.contains b).take 2
    let v := v.each anchors fun s b => s.modBlk b fun x => { x with use := .anchor, erased := false }
    let v := v.each (anchors.take 1) fun s b => s.modBlk b fun x => { x with live := Config.anchorPages.val + 1 }
    let j := v.takeBlk v.med.cs0 .jlog
    let e := j.2.takeBlk j.2.med.size .elog
    let v := (e.2.putLog false ⟨[], 0, j.1, 0⟩).putLog true ⟨[], 0, e.1, 0⟩
    let v := v.dropWrites
    (v.lo F.REC_STAT_FMT_NONE).spareCheck.banBit.recRegs)) ∧
  (∀ (s : State) (t : Nat) (worst : Nat) (crc : Bool), let u := s.upTo t
    u.commOn = true →
    u.awake = true →
    u.bit F.REC_STAT_MOUNTED = true →
    u.med.formatted = true →
    (∀ x, u.recd.scrubbed = some x → x + (if u.bit F.REC_STAT_SCRUB_DUE then 1000000 else 10000000) ≤ u.now) →
    exec (.scrubRead t worst crc) s = .next (
    let v := u.modRec fun r => { r with scrubbed := some u.now }
    let l := v.livePages
    let at_ := l.getD v.recd.scrubPos (0, 0)
    let v := v.wr F.REC_CNT_MAXCORR (max (u.rd F.REC_CNT_MAXCORR) (min 40 worst))
    let v := v.cond (decide (40 < worst) || !crc) fun s => s.unreadable at_.1 at_.2
    let th := max 8 (min 39 (v.rd F.REC_CFG_SCRUB_TH))
    let v := v.cond (decide (th ≤ worst) && v.canWrite) fun s => (s.relocate at_.1).event 0x0F05 0
    let n := v.recd.scrubPos + 1
    let done := decide (l.length ≤ n)
    let v := v.modRec fun r => { r with scrubPos := if done then 0 else n }
    let v := v.cond done fun s => s.anchorRec.modMed fun m => { m with scrubAt := s.ct }
    let v := v.wrSat F.REC_SCRUB_BLK (((l.take (if done then 0 else n)).map (·.1)).eraseDups.length - 1)
    let age := (v.ct - v.med.scrubAt) / 3600000000000
    let v := v.wrSat F.REC_SCRUB_AGE age
    let due := decide (24 * max 1 (v.rd F.REC_CFG_SCRUB_DAYS) < age)
    (v.cond (due && !v.bit F.REC_STAT_SCRUB_DUE) fun s => s.event 0x0F06 0).wrB F.REC_STAT_SCRUB_DUE due)) ∧
  (∀ (s : State) (t : Nat) (b : Nat) (c : Nat), let u := s.upTo t
    u.leastWorn = some b →
    u.mostWornFree = some c →
    u.canWrite = true →
    (∀ x, u.recd.movedAt = some x → x + 60000000000 ≤ u.now) →
    1024 * max 1 (u.rd F.REC_CFG_WL_SPREAD) < u.wearSpread →
    exec (.wearLevelMove t) s = .next (
    let v := u.cond (!(u.blk c).erased) fun s => s.modBlk c fun k => { k with erases := k.erases + 1 }
    let v := ((v.moveBlk b c).freeBlk b).modRec fun r => { r with movedAt := some v.now }
    (v.recRegs).event 0x0F0D 0)) ∧
  (∀ (s : State) (t : Nat) (x : Nat), let u := s.upTo t
    u.commOn = true →
    u.bit F.REC_STAT_BAN = true →
    u.bit F.REC_STAT_NTC_BAD = false →
    u.recd.liftFrom = some x →
    x + 1000000000 ≤ u.now →
    exec (.writeBanLift t) s = .next ((((u.lo F.REC_STAT_BAN).hi F.HKP_STAT_NTC3_OK).event 0x0F02 0).banBit)) ∧
  (∀ (s : State) (t : Nat) (b : Nat) (ok : Bool), let u := s.upTo t
    u.commOn = true →
    b < u.med.size →
    (u.blk b).use = .free →
    (u.blk b).erased = false →
    exec (.blockEraseDone t b ok) s = .next (
    if ok then (u.modBlk b fun k => { k with erased := true, erases := k.erases + 1 }).recRegs
    else ((((u.modBlk b fun k => { k with use := .bad }).count F.REC_CNT_GROWN F.REC_CNT_SAT 0x0F0C 0).event 0x0F04 b).spareCheck).recRegs)) ∧
  (∀ (s : State) (t : Nat), let u := s.upTo t
    u.cpuOn = true →
    u.jrn.batch = false →
    u.nextBatch ≠ [] →
    exec (.mirrorBatchWrite t) s = .next (
    if u.canWrite then
      { u with jrn := { u.jrn with batch := true }, recd := { u.recd with progs := u.recd.progs ++ [.journal u.nextBatch] } }
    else if u.jrn.banTold then u
    else ({ u with jrn := { u.jrn with banTold := true, behind := true } } : State).event 0x0403 0))

/-- A link that comes up sets LINK with event 0x0D01 and makes an end port an end, a port in repeat repeat, or starts a
partner change; one that goes down clears LINK with event 0x0D02, and an active unit broadcasts BREAK; a frame is
taken in at a port that hears; a waiting frame leaves; chain hosts read and write; a BREAK of another unit is taken; a
frame wakes a repeating unit; CHAIN_SEND frames older than 10 ms complete TIMEOUT; a repeater mutes and resumes. The
instants are the model's (log entries 4 and 7). Further choices of the model: log entries 39, 43, 44, 67, 110. -/
def Obligations.ChainLinksAndFramesComplete : Prop :=
  (∀ (s : State) (t : Nat) (p : Fin 2), let u := s.upTo t
    u.power.comm ≠ .off →
    u.bit (F.CHN_PORT_LINK p) = false →
    exec (.chainLinkUp t p) s = .next (
    let v := (u.hi (F.CHN_PORT_LINK p)).event 0x0D01 p
    if v.rd (F.CHN_PORT_STATE p) = 1 then v
    else if v.portEnd p then v.wr (F.CHN_PORT_STATE p) 3
    else if !v.commOn then v.wr (F.CHN_PORT_STATE p) 1
    else (v.partnerStart p false).cond (v.chain.rollDue && p == 1) State.rollStart)) ∧
  (∀ (s : State) (t : Nat) (p : Fin 2) (errs : Nat), let u := s.upTo t
    u.portHears p = true →
    exec (.chainLinkDown t p errs) s = .next (
    let v := (u.lo (F.CHN_PORT_LINK p)).codeErrors p errs
    let v := (v.chnErr p (F.CHN_ERR_LINK_DN p)).event 0x0D02 p
    let v := (v.lo (F.CHN_PORT_HELD p)).modPort p fun k => { k with partner := .none, t1 := none, t3 := none }
    if u.rd (F.CHN_PORT_STATE p) = 1 ∨ u.rd (F.CHN_PORT_STATE p) = 3 then v
    else if !v.commOn then v.wr (F.CHN_PORT_STATE p) 1
    else if u.rd (F.CHN_PORT_STATE p) = 2 then
      (((v.wr (F.CHN_PORT_STATE p) 0).breakBound (v.wr (F.CHN_PORT_STATE p) 0).chainAddr (p == 1) false).breakSend p
        false).modPort p fun k => { k with healDue := true }
    else v.wr (F.CHN_PORT_STATE p) 0)) ∧
  (∀ (s : State) (t : Nat) (p : Fin 2) (bytes : List Byte) (ended : Bool), let u := s.upTo t
    u.portHears p = true →
    exec (.chainFrameReceive t p bytes ended) s = .next (u.frameIn p bytes ended)) ∧
  (∀ (s : State) (t : Nat) (p : Fin 2) (q : QFrame), let u := s.upTo t
    u.nextOut p = some q →
    exec (.frameForward t p) s = .next (u.sendOut p q)) ∧
  (∀ (s : State) (t : Nat) (src : BitVec 14) (payload : List Byte), let u := s.upTo t
    u.commOn = true →
    frameLenOk 0x10 payload.length = true →
    exec (.memRd t src payload) s = .next (u.memRead src payload)) ∧
  (∀ (s : State) (t : Nat) (src : BitVec 14) (payload : List Byte), let u := s.upTo t
    u.commOn = true →
    frameLenOk 0x11 payload.length = true →
    payload.length ≤ 256 →
    exec (.memWr t src payload) s = .next (u.memWrite src payload)) ∧
  (∀ (s : State) (t : Nat) (bnd : BitVec 14) (down : Bool) (healed : Bool), let u := s.upTo t
    u.commOn = true →
    bnd.toNat ≠ u.chainAddr →
    exec (.breakReceive t bnd down healed) s = .next (u.breakTake bnd.toNat down healed)) ∧
  (∀ (s : State) (t : Nat) (p : Fin 2) (bytes : List Byte) (ended : Bool), let u := s.upTo t
    u.portHears p = true →
    u.repeating p = true →
    exec (.wakeFrame t p bytes ended) s = .next (u.frameIn p bytes ended)) ∧
  (∀ (s : State) (t : Nat), let u := s.upTo t
    exec (.chainSendTimeout t) s = .next (
    let late (q : QFrame) : Bool := q.cmd.isSome && decide (q.since + 10000000 ≤ u.now)
    ((u.chain.queue.filterMap fun q => if late q then q.cmd else none).eraseDups).foldl
      (fun s c => s.complete c stTimeout 0) (u.modChain fun c => { c with queue := c.queue.filter fun q => !late q }))) ∧
  (∀ (s : State) (t : Nat) (p : Fin 2), let u := s.upTo t
    u.repeating p = true →
    exec (.repeatLoss t p) s = .next (u.modPort (1 - p) fun k => { k with mute := true })) ∧
  (∀ (s : State) (t : Nat) (p : Fin 2), let u := s.upTo t
    u.repeating p = true →
    exec (.repeaterResume t p) s = .next (u.modPort (1 - p) fun k => { k with mute := false }))

/-- An active port sends TIME_SYNC with CT and HOPS, answers DLY_REQ with T4, takes a valid TIME_SYNC, and completes the
exchange whose SEQ a valid DLY_RSP carries; a repeater passes each of them on, TIME_SYNC with HOPS one higher; an
ordered set whose complement check fails counts a code error; 1 ms without the source picks another, and 20 ms without
an exchange end SYNCED in HOLDOVER with event 0x0D07. The instants are the model's (log entries 4 and 7). Further
choices of the model: log entries 24, 35, 40, 41, 71. -/
def Obligations.ChainTimeComplete : Prop :=
  (∀ (s : State) (t : Nat) (p : Fin 2), let u := s.upTo t
    u.portActive p = true →
    exec (.timeSyncSend t p) s = .next (u.emit (.timeSync p u.ct (if u.bit F.BLK_ROLE_ROOT then 0 else u.rd F.CHN_TIME_HOPS)))) ∧
  (∀ (s : State) (t : Nat) (p : Fin 2) (ct : BitVec 64) (hops : BitVec 16) (frac : Fin 32) (lag : Nat) (ok : Bool), let u := s.upTo t
    u.portHears p = true →
    ok = true →
    u.repeating p = false →
    u.portActive p = true →
    exec (.timeSyncReceive t p ct hops frac lag ok) s = .next (u.syncTake p ct.toNat (hops.toNat % 16384) frac lag)) ∧
  (∀ (s : State) (t : Nat) (p : Fin 2) (ct : BitVec 64) (hops : BitVec 16) (frac : Fin 32) (lag : Nat) (ok : Bool), let u := s.upTo t
    u.portHears p = true →
    ok = true →
    u.repeating p = true →
    exec (.timeSyncReceive t p ct hops frac lag ok) s = .next (u.passOn p (.timeSync (1 - p) ct.toNat (min 0x3FFF (hops.toNat % 16384 + 1))))) ∧
  (∀ (s : State) (t : Nat) (p : Fin 2) (ct : BitVec 64) (hops : BitVec 16) (frac : Fin 32) (lag : Nat) (ok : Bool), let u := s.upTo t
    u.portHears p = true →
    ok = false →
    exec (.timeSyncReceive t p ct hops frac lag ok) s = .next (u.codeErrors p 1)) ∧
  (∀ (s : State) (t : Nat) (p : Fin 2) (seq : BitVec 8), let u := s.upTo t
    u.portHears p = true →
    u.repeating p = false →
    u.portActive p = true →
    exec (.dlyReqReceive t p seq) s = .next (u.emit (.dlyRsp p seq.toNat u.ct))) ∧
  (∀ (s : State) (t : Nat) (p : Fin 2) (seq : BitVec 8), let u := s.upTo t
    u.portHears p = true →
    u.repeating p = true →
    exec (.dlyReqReceive t p seq) s = .next (u.passOn p (.dlyReq (1 - p) seq.toNat))) ∧
  (∀ (s : State) (t : Nat) (p : Fin 2) (seq : BitVec 8) (t4 : BitVec 64) (ok : Bool), let u := s.upTo t
    u.portHears p = true →
    ok = true →
    u.repeating p = false →
    u.portActive p = true →
    seq.toNat = (u.port p).dseq →
    exec (.dlyRspReceive t p seq t4 ok) s = .next (u.exchange p t4.toNat)) ∧
  (∀ (s : State) (t : Nat) (p : Fin 2) (seq : BitVec 8) (t4 : BitVec 64) (ok : Bool), let u := s.upTo t
    u.portHears p = true →
    ok = true →
    u.repeating p = true →
    exec (.dlyRspReceive t p seq t4 ok) s = .next (u.passOn p (.dlyRsp (1 - p) seq.toNat t4.toNat))) ∧
  (∀ (s : State) (t : Nat) (p : Fin 2) (seq : BitVec 8) (t4 : BitVec 64) (ok : Bool), let u := s.upTo t
    u.portHears p = true →
    ok = false →
    exec (.dlyRspReceive t p seq t4 ok) s = .next (u.codeErrors p 1)) ∧
  (∀ (s : State) (t : Nat), let u := s.upTo t
    u.commOn = true →
    exec (.timeSourceTimeout t) s = .next (u.pickSource)) ∧
  (∀ (s : State) (t : Nat), let u := s.upTo t
    u.commOn = true →
    u.bit F.CHN_TIME_SYNCED = true →
    u.bit F.BLK_ROLE_ROOT = false →
    (∀ x, u.chain.exchAt = some x → x + 20000000 ≤ u.now) →
    exec (.holdoverTimeout t) s = .next ((((u.lo F.CHN_TIME_SYNCED).hi F.CHN_TIME_HOLDOVER).event 0x0D07 0).runOk))

/-- A CREDIT set whose complement matches is taken by an awake unit and passed on by a repeater, and another counts a code
error; an active port refreshes its CREDIT; a LINKCTL set is taken or passed on; 1 ms after its HOLD a partner change
finishes; after the changeover the next port joins; the root starts a roll when none runs; a ROLL set is taken or
counts a code error, and 20 ms without its return end it with event 0x0D0A; a pending address takes effect with no
axis running. The instants are the model's (log entries 4 and 7). Further choices of the model: log entries 42, 44. -/
def Obligations.ChainCreditsPartnersAndAddressesComplete : Prop :=
  (∀ (s : State) (t : Nat) (p : Fin 2) (freed : BitVec 8) (compl : BitVec 8), let u := s.upTo t
    u.portHears p = true →
    compl = ~~~freed →
    u.repeating p = false →
    u.commOn = true →
    exec (.creditReceive t p freed compl) s = .next (u.creditTake p freed.toNat)) ∧
  (∀ (s : State) (t : Nat) (p : Fin 2) (freed : BitVec 8) (compl : BitVec 8), let u := s.upTo t
    u.portHears p = true →
    compl = ~~~freed →
    u.repeating p = true →
    exec (.creditReceive t p freed compl) s = .next (u.passOn p (.credit (1 - p) freed.toNat))) ∧
  (∀ (s : State) (t : Nat) (p : Fin 2) (freed : BitVec 8) (compl : BitVec 8), let u := s.upTo t
    u.portHears p = true →
    compl ≠ ~~~freed →
    exec (.creditReceive t p freed compl) s = .next (u.codeErrors p 1)) ∧
  (∀ (s : State) (t : Nat) (p : Fin 2), let u := s.upTo t
    u.portActive p = true →
    exec (.creditRefresh t p) s = .next (u.emit (.credit p (u.port p).freed))) ∧
  (∀ (s : State) (t : Nat) (p : Fin 2) (code : BitVec 8), let u := s.upTo t
    u.portHears p = true →
    (u.repeating p = false ∨ (u.port p).partner ≠ .none) →
    (u.commOn = true ∨ (u.port p).partner ≠ .none) →
    exec (.linkctlReceive t p code) s = .next (u.linkctlTake p code.toNat)) ∧
  (∀ (s : State) (t : Nat) (p : Fin 2) (code : BitVec 8), let u := s.upTo t
    u.portHears p = true →
    u.repeating p = true →
    (u.port p).partner = .none →
    exec (.linkctlReceive t p code) s = .next (u.passOn p (.linkctl (1 - p) code.toNat))) ∧
  (∀ (s : State) (t : Nat) (p : Fin 2) (x : Nat) (y : Bool), let u := s.upTo t
    u.power.comm ≠ .off →
    (u.port p).partner = .changing x y →
    x + 1000000 ≤ u.now →
    exec (.partnerChangeTimeout t p) s = .next (u.partnerFinish p y)) ∧
  (∀ (s : State) (t : Nat), let u := s.upTo t
    u.commOn = true →
    u.bit F.PCK_PLL_STAT_REF_XTAL = true →
    u.power.changeover = false →
    exec (.portJoin t) s = .next (u.joinNext)) ∧
  (∀ (s : State) (t : Nat), let u := s.upTo t
    u.stores = true →
    u.bit F.BLK_ROLE_ROOT = true →
    u.rd F.CHN_ROLL_STATE ≠ 1 →
    u.commOn = true →
    exec (.roll t) s = .next (
    let v := ((u.addrTake 1).wr F.CHN_ROLL_STATE 1).emit (.roll 1 1 false)
    { v with chain := { v.chain with rollAt := some v.now, rollDue := false } })) ∧
  (∀ (s : State) (t : Nat) (p : Fin 2) (count : BitVec 16) (ok : Bool), let u := s.upTo t
    u.portHears p = true →
    ok = true →
    exec (.rollReceive t p count ok) s = .next (u.rollTake p (count.toNat % 16384) (count.getLsbD 15))) ∧
  (∀ (s : State) (t : Nat) (p : Fin 2) (count : BitVec 16) (ok : Bool), let u := s.upTo t
    u.portHears p = true →
    ok = false →
    exec (.rollReceive t p count ok) s = .next (u.codeErrors p 1)) ∧
  (∀ (s : State) (t : Nat) (x : Nat), let u := s.upTo t
    u.chain.rollAt = some x →
    x + 20000000 ≤ u.now →
    exec (.rollTimeout t) s = .next (((u.modChain fun c => { c with rollAt := none }).wr F.CHN_ROLL_STATE 3).event 0x0D0A 0)) ∧
  (∀ (s : State) (t : Nat), let u := s.upTo t
    u.bit F.CHN_ADDR_PEND = true →
    u.anyRunning = false →
    exec (.addressTakeEffect t) s = .next (u.addrTake (u.rd F.CHN_ADDR_NEW)))

/-- For a command that holds its ring and can run: SET_MODE WINTER or WATCH completes BUSY during a start, WATCH MODE in
RUN or LIMP; ARM completes ARG for both claims on an output or line code 3, MODE outside READY, VETO where the axis
cannot be armed; START completes MODE, BUSY or VETO; STOP and SET_LIMITS, BRAKE_TEST and DISCHARGE complete MODE in
the wrong mode, HANDOVER_POLICY BUSY in a handover; LOAD_PROFILE of a bad table ARG. Nothing else happens. The
instants are the model's (log entries 4 and 7). Further choices of the model: log entries 13, 60, 61, 62, 114, 121. -/
def Obligations.AxisCommandsAreTurnedAway : Prop :=
  (∀ (s : State) (t : Nat) (r : Fin 4) (so : List Nat) (c : Cmd), let u := s.upTo t
    u.mayRun r c →
    c.opcode = 0x10 →
    (c.arg 16 1 = 0 ∨ c.arg 16 1 = 1) →
    (u.begin_ r).axes.any (u.begin_ r).starting = true →
    exec (.setMode t r so) s = .next (((u.begin_ r).done c stBusy).runEnd u.cores.finals.length)) ∧
  (∀ (s : State) (t : Nat) (r : Fin 4) (so : List Nat) (c : Cmd), let u := s.upTo t
    u.mayRun r c →
    c.opcode = 0x10 →
    c.arg 16 1 = 1 →
    (u.begin_ r).axes.any (u.begin_ r).starting = false →
    (u.begin_ r).axes.any (u.begin_ r).running = true →
    exec (.setMode t r so) s = .next (((u.begin_ r).done c stMode).runEnd u.cores.finals.length)) ∧
  (∀ (s : State) (t : Nat) (r : Fin 4) (path : Bool) (c : Cmd), let u := s.upTo t
    u.mayRun r c →
    c.opcode = 0x11 →
    (Nat.land (c.arg 18 1) (c.arg 19 1) ≠ 0 ∨ c.arg 17 1 = 3) →
    exec (.arm t r path) s = .next (((u.begin_ r).done c stArg).runEnd u.cores.finals.length)) ∧
  (∀ (s : State) (t : Nat) (r : Fin 4) (path : Bool) (c : Cmd), let u := s.upTo t
    u.mayRun r c →
    c.opcode = 0x11 →
    Nat.land (c.arg 18 1) (c.arg 19 1) = 0 →
    c.arg 17 1 ≠ 3 →
    c.arg 16 1 ≠ 0xFF →
    (u.begin_ r).axMode (c.arg 16 1) ≠ 2 →
    exec (.arm t r path) s = .next (((u.begin_ r).done c stMode).runEnd u.cores.finals.length)) ∧
  (∀ (s : State) (t : Nat) (r : Fin 4) (path : Bool) (c : Cmd), let u := s.upTo t
    u.mayRun r c →
    c.opcode = 0x11 →
    Nat.land (c.arg 18 1) (c.arg 19 1) = 0 →
    (c.arg 17 1 = 0 ∨ c.arg 17 1 = 2) →
    c.arg 16 1 ≠ 0xFF →
    (u.begin_ r).axMode (c.arg 16 1) = 2 →
    (u.begin_ r).armable (c.arg 16 1) = false →
    exec (.arm t r path) s = .next (((u.begin_ r).done c stVeto).runEnd u.cores.finals.length)) ∧
  (∀ (s : State) (t : Nat) (r : Fin 4) (c : Cmd), let u := s.upTo t
    u.mayRun r c →
    c.opcode = 0x12 →
    ((u.begin_ r).axMode (c.arg 16 1) ≠ 2 ∨ (u.begin_ r).axes.any (fun b => (u.begin_ r).axMode b == 5) = true) →
    exec (.start t r) s = .next (((u.begin_ r).done c stMode).runEnd u.cores.finals.length)) ∧
  (∀ (s : State) (t : Nat) (r : Fin 4) (c : Cmd), let u := s.upTo t
    u.mayRun r c →
    c.opcode = 0x12 →
    (u.begin_ r).taskRuns (c.arg 16 1) = false →
    exec (.start t r) s = .next (((u.begin_ r).done c stMode).runEnd u.cores.finals.length)) ∧
  (∀ (s : State) (t : Nat) (r : Fin 4) (c : Cmd), let u := s.upTo t
    u.mayRun r c →
    c.opcode = 0x12 →
    (u.begin_ r).axMode (c.arg 16 1) = 2 →
    (u.begin_ r).axes.any (fun b => (u.begin_ r).axMode b == 5) = false →
    (u.begin_ r).starting (c.arg 16 1) = true →
    (u.begin_ r).taskRuns (c.arg 16 1) = true →
    exec (.start t r) s = .next (((u.begin_ r).done c stBusy).runEnd u.cores.finals.length)) ∧
  (∀ (s : State) (t : Nat) (r : Fin 4) (c : Cmd), let u := s.upTo t
    u.mayRun r c →
    c.opcode = 0x12 →
    (u.begin_ r).axMode (c.arg 16 1) = 2 →
    (u.begin_ r).axes.any (fun b => (u.begin_ r).axMode b == 5) = false →
    (u.begin_ r).starting (c.arg 16 1) = false →
    ((u.begin_ r).fc (c.arg 16 1)).armed = false →
    exec (.start t r) s = .next (((u.begin_ r).done c stMode).runEnd u.cores.finals.length)) ∧
  (∀ (s : State) (t : Nat) (r : Fin 4) (c : Cmd), let u := s.upTo t
    u.mayRun r c →
    c.opcode = 0x12 →
    (u.begin_ r).axMode (c.arg 16 1) = 2 →
    (u.begin_ r).axes.any (fun b => (u.begin_ r).axMode b == 5) = false →
    (u.begin_ r).starting (c.arg 16 1) = false →
    ((u.begin_ r).fc (c.arg 16 1)).armed = true →
    (u.begin_ r).uz F.BLK_BTINT_BT_ENF = 1 →
    ((u.begin_ r).uzAx (c.arg 16 1)).btDue = true →
    (u.begin_ r).taskRuns (c.arg 16 1) = true →
    exec (.start t r) s = .next (((u.begin_ r).done c stVeto).runEnd u.cores.finals.length)) ∧
  (∀ (s : State) (t : Nat) (r : Fin 4) (c : Cmd), let u := s.upTo t
    u.mayRun r c →
    c.opcode = 0x13 →
    (u.begin_ r).starting (c.arg 16 1) = false →
    (u.begin_ r).running (c.arg 16 1) = false →
    exec (.stop t r) s = .next (((u.begin_ r).done c stMode).runEnd u.cores.finals.length)) ∧
  (∀ (s : State) (t : Nat) (r : Fin 4) (c : Cmd), let u := s.upTo t
    u.mayRun r c →
    c.opcode = 0x16 →
    c.arg 17 1 = 1 →
    (c.arg 28 2 = 0 ∨ 1024 < c.arg 28 2 ∨ c.arg 32 4 / 16 * 16 < 0x2000 ∨ 0x40000 < c.arg 32 4 / 16 * 16 + 16 * c.arg 28 2) →
    exec (.loadProfileTable t r) s = .next (((u.begin_ r).done c stArg).runEnd u.cores.finals.length)) ∧
  (∀ (s : State) (t : Nat) (r : Fin 4) (c : Cmd), let u := s.upTo t
    u.mayRun r c →
    c.opcode = 0x17 →
    (c.arg 17 1).testBit 0 = true →
    (u.begin_ r).axMode (c.arg 16 1) ≠ 2 →
    exec (.setLimits t r) s = .next (((u.begin_ r).done c stMode).runEnd u.cores.finals.length)) ∧
  (∀ (s : State) (t : Nat) (r : Fin 4) (c : Cmd), let u := s.upTo t
    u.mayRun r c →
    c.opcode = 0x18 →
    ((u.begin_ r).axMode (c.arg 16 1) ≠ 2 ∨ ((u.begin_ r).fc (c.arg 16 1)).armed = false ∨ (u.begin_ r).hasBrake (c.arg 16 1) = false) →
    exec (.brakeTest t r) s = .next (((u.begin_ r).done c stMode).runEnd u.cores.finals.length)) ∧
  (∀ (s : State) (t : Nat) (r : Fin 4) (c : Cmd), let u := s.upTo t
    u.mayRun r c →
    c.opcode = 0x19 →
    (u.begin_ r).axes.any (u.begin_ r).running = true →
    exec (.discharge t r) s = .next (((u.begin_ r).done c stMode).runEnd u.cores.finals.length)) ∧
  (∀ (s : State) (t : Nat) (r : Fin 4) (c : Cmd), let u := s.upTo t
    u.mayRun r c →
    c.opcode = 0x1A →
    (u.begin_ r).policyFree = false →
    exec (.handoverPolicy t r) s = .next (((((u.begin_ r).policyWrite R.MOT_HOV_POL (c.word 20)).policyWrite R.MOT_HOV_IDLE (c.word 24)).done c stBusy).runEnd u.cores.finals.length))

/-- For a command that holds its ring and can run: TRACE_READ completes BUSY before the trace is frozen and ARG for a bad
length; JOURNAL_QUERY, REC_READ, FW_STAGE, CHAIN_SEND and TLM_CONFIG complete ARG outside their ranges; REC_MARK and
ATTEST complete LOCKED without an identity; FW_STAGE and REC_MARK BUSY where the medium takes no write, ATTEST BUSY
during a report, FW_COMMIT MODE in RUN or LIMP; the CAN actions complete BUSY, ARG or MODE. Nothing else happens. The
instants are the model's (log entries 4 and 7). Further choices of the model: log entries 13, 62, 64, 65, 114, 121. -/
def Obligations.DataCommandsAreTurnedAway : Prop :=
  (∀ (s : State) (t : Nat) (r : Fin 4) (bads : List Nat) (fixed : List Nat) (c : Cmd), let u := s.upTo t
    u.mayRun r c →
    c.opcode = 0x31 →
    (u.begin_ r).rd F.FSL_TRC_STAT_STATE ≠ 3 →
    exec (.traceRead t r bads fixed) s = .next (((u.begin_ r).done c stBusy).runEnd u.cores.finals.length)) ∧
  (∀ (s : State) (t : Nat) (r : Fin 4) (bads : List Nat) (fixed : List Nat) (c : Cmd), let u := s.upTo t
    u.mayRun r c →
    c.opcode = 0x31 →
    (u.begin_ r).rd F.FSL_TRC_STAT_STATE = 3 →
    (c.arg 28 4 % 64 ≠ 0 ∨ 524288 < c.arg 28 4) →
    exec (.traceRead t r bads fixed) s = .next (((u.begin_ r).done c stArg).runEnd u.cores.finals.length)) ∧
  (∀ (s : State) (t : Nat) (r : Fin 4) (c : Cmd), let u := s.upTo t
    u.mayRun r c →
    c.opcode = 0x40 →
    (c.arg 20 8 = 0 ∨ (u.begin_ r).rd64 R.JRN_HEAD_SEQ_LO R.JRN_HEAD_SEQ_HI < c.arg 20 8 ∨ c.arg 36 2 = 0 ∨ 2048 < c.arg 36 2) →
    exec (.journalQuery t r) s = .next (((u.begin_ r).done c stArg).runEnd u.cores.finals.length)) ∧
  (∀ (s : State) (t : Nat) (r : Fin 4) (c : Cmd), let u := s.upTo t
    u.mayRun r c →
    c.opcode = 0x50 →
    (u.begin_ r).recd.rnum ≤ c.arg 20 8 →
    exec (.recRead t r) s = .next (((u.begin_ r).done c stArg).runEnd u.cores.finals.length)) ∧
  (∀ (s : State) (t : Nat) (r : Fin 4) (c : Cmd), let u := s.upTo t
    u.mayRun r c →
    c.opcode = 0x51 →
    c.arg 17 1 = 1 →
    (u.begin_ r).bit F.SEC_BOOT_STAT_ID_OK = false →
    exec (.recMark t r) s = .next (((u.begin_ r).done c stLocked).runEnd u.cores.finals.length)) ∧
  (∀ (s : State) (t : Nat) (r : Fin 4) (c : Cmd), let u := s.upTo t
    u.mayRun r c →
    c.opcode = 0x51 →
    c.arg 17 1 ≠ 1 →
    (u.begin_ r).canWrite = false →
    exec (.recMark t r) s = .next (((u.begin_ r).done c stBusy).runEnd u.cores.finals.length)) ∧
  (∀ (s : State) (t : Nat) (r : Fin 4) (c : Cmd), let u := s.upTo t
    u.mayRun r c →
    c.opcode = 0x60 →
    (2 < c.arg 16 1 ∨ 65536 < c.arg 32 4) →
    exec (.fwStage t r) s = .next (((u.begin_ r).done c stArg).runEnd u.cores.finals.length)) ∧
  (∀ (s : State) (t : Nat) (r : Fin 4) (c : Cmd), let u := s.upTo t
    u.mayRun r c →
    c.opcode = 0x60 →
    c.arg 16 1 ≤ 2 →
    c.arg 32 4 ≤ 65536 →
    c.arg 28 4 + c.arg 32 4 ≤ 17120 + payloadLimit (if c.arg 16 1 = 0 then 1 else if c.arg 16 1 = 1 then 2 else 5) →
    (u.begin_ r).canWrite = false →
    exec (.fwStage t r) s = .next (((u.begin_ r).done c stBusy).runEnd u.cores.finals.length)) ∧
  (∀ (s : State) (t : Nat) (r : Fin 4) (c : Cmd), let u := s.upTo t
    u.mayRun r c →
    c.opcode = 0x61 →
    (c.arg 16 1).testBit 0 = true →
    (u.begin_ r).axes.any (u.begin_ r).running = true →
    exec (.fwCommitActivate t r) s = .next (((u.begin_ r).done c stMode).runEnd u.cores.finals.length)) ∧
  (∀ (s : State) (t : Nat) (r : Fin 4) (c : Cmd), let u := s.upTo t
    u.mayRun r c →
    c.opcode = 0x61 →
    (c.arg 16 1).testBit 0 = false →
    (u.begin_ r).axes.any (u.begin_ r).running = true →
    exec (.fwCommitAdvance t r) s = .next (((u.begin_ r).done c stMode).runEnd u.cores.finals.length)) ∧
  (∀ (s : State) (t : Nat) (r : Fin 4) (c : Cmd), let u := s.upTo t
    u.mayRun r c →
    c.opcode = 0x70 →
    (u.begin_ r).bit F.SEC_BOOT_STAT_ID_OK = false →
    exec (.attest t r) s = .next (((u.begin_ r).done c stLocked).runEnd u.cores.finals.length)) ∧
  (∀ (s : State) (t : Nat) (r : Fin 4) (c : Cmd), let u := s.upTo t
    u.mayRun r c →
    c.opcode = 0x70 →
    (u.begin_ r).bit F.SEC_BOOT_STAT_ID_OK = true →
    (u.begin_ r).sec.attest.isSome = true →
    exec (.attest t r) s = .next (((u.begin_ r).done c stBusy).runEnd u.cores.finals.length)) ∧
  (∀ (s : State) (t : Nat) (r : Fin 4) (c : Cmd), let u := s.upTo t
    u.mayRun r c →
    c.opcode = 0x80 →
    (256 < c.arg 32 2 ∨ c.arg 20 2 = 0 ∨ c.arg 20 2 = (u.begin_ r).chainAddr ∨ 0x3FFF < c.arg 20 2) →
    exec (.chainSend t r) s = .next (((u.begin_ r).done c stArg).runEnd u.cores.finals.length)) ∧
  (∀ (s : State) (t : Nat) (r : Fin 4) (c : Cmd), let u := s.upTo t
    u.mayRun r c →
    c.opcode = 0xA0 →
    (1 < c.arg 16 1 ∨ c.arg 18 2 = 0) →
    exec (.tlmConfig t r) s = .next (((u.begin_ r).done c stArg).runEnd u.cores.finals.length)) ∧
  (∀ (s : State) (t : Nat) (r : Fin 4) (c : Cmd), let u := s.upTo t
    u.mayRun r c →
    c.opcode = 0x90 →
    c.arg 17 1 = 1 →
    (u.begin_ r).canOwns (c.arg 16 1) (c.arg 18 2) = true →
    exec (.canConfigure t r) s = .next (((u.begin_ r).done c stBusy).runEnd u.cores.finals.length)) ∧
  (∀ (s : State) (t : Nat) (r : Fin 4) (c : Cmd) (x : Nat), let u := s.upTo t
    u.mayRun r c →
    c.opcode = 0x90 →
    c.arg 17 1 = 2 →
    (u.begin_ r).canRefusal (c.arg 16 1) (c.arg 18 2) = some x →
    exec (.canTransmit t r) s = .next (((u.begin_ r).done c x).runEnd u.cores.finals.length)) ∧
  (∀ (s : State) (t : Nat) (r : Fin 4) (c : Cmd), let u := s.upTo t
    u.mayRun r c →
    c.opcode = 0x90 →
    c.arg 17 1 = 4 →
    ((u.begin_ r).canObj (c.arg 16 1) (c.arg 18 2)).flag 0 = true →
    (u.begin_ r).canOwns (c.arg 16 1) (c.arg 18 2) = true →
    exec (.canDisable t r) s = .next (((u.begin_ r).done c stBusy).runEnd u.cores.finals.length)) ∧
  (∀ (s : State) (t : Nat) (r : Fin 4) (c : Cmd), let u := s.upTo t
    u.mayRun r c →
    c.opcode = 0x90 →
    c.arg 17 1 = 0x10 →
    (u.begin_ r).bit (F.CAN_CTL_INIT (c.arg 16 1)) = true →
    (u.begin_ r).canTimingBad (c.arg 16 1) = true →
    exec (.canStart t r) s = .next (((u.begin_ r).done c stArg).runEnd u.cores.finals.length)) ∧
  (∀ (s : State) (t : Nat) (r : Fin 4) (c : Cmd), let u := s.upTo t
    u.mayRun r c →
    c.opcode = 0x90 →
    c.arg 17 1 = 0x12 →
    (u.begin_ r).rd (F.CAN_STAT_STATE (c.arg 16 1)) ≠ 3 →
    exec (.canRecover t r) s = .next (((u.begin_ r).done c stMode).runEnd u.cores.finals.length))

/-- For every state and command: step with the command at the front of the queue is exec of that command on the state with
the queue's rest. With an empty queue step answers the state as it is: the model's choice of log entry 6. -/
def Obligations.StepRunsTheFrontCommand : Prop :=
  (∀ (s : State) (c : Instr) (rest : List Instr),
    step { s with pending := c :: rest } = exec c { s with pending := rest }) ∧
  ∀ s : State, step { s with pending := [] } = .next { s with pending := [] }

/-- For every state whose register table and shared SRAM stand in canonical form, and whatever command is at the front of
the queue: step answers a next state, whose queue is the rest, whose clock is the later of the clock and the command's
instant, and whose register table and shared SRAM are canonical again. The canonical form and the clock are the
model's own (log entries 2 and 4). -/
def Obligations.EveryStepKeepsTheInvariant : Prop :=
  ∀ (s : State) (c : Instr) (rest : List Instr), s.canon = true → s.pending = c :: rest →
    ∃ r : State, step s = .next r ∧ Kept rest (max s.now c.time) r

/-- For every state with canonical stores, running as many steps as commands wait answers a next state: no command stops
the module. Its queue is empty, its clock stands at the latest of the clock and the instants of all commands, and its
stores are canonical. Queue, clock and form are the model's own (log entries 2, 4 and 6). -/
def Obligations.EveryQueueRunsOut : Prop :=
  ∀ s : State, s.canon = true →
    ∃ r : State, Host.Core.run core s.pending.length s = .next r ∧
      Kept [] (s.pending.foldl (fun n c => max n c.time) s.now) r

/-- State.reset is canonical with an empty queue. It is AO power-on in Winter: CPU, CTL, COMM, ANA and SAFE are unpowered,
AO is powered and FAULT_N is low (log entry 9). PCK_WAKE_EN reads 1 in bits 0, 1 and 7, PCK_WAKE_SRC.POWER_ON reads 1,
and the CAN timings give 160 clocks a bit with 127 + 1 before the sample point and 40 with 29 + 1. Shared SRAM reads
0, which is the model's choice (log entry 9). -/
def Obligations.ResetStateIsAsTheRulesSay : Prop :=
  State.reset.canon = true ∧ State.reset.pending = [] ∧ State.reset.mode = 0 ∧ State.reset.awake = false ∧
    State.reset.ctlOn = false ∧ State.reset.cpuOn = false ∧ State.reset.commOn = false ∧ State.reset.anaOn = false ∧
    State.reset.safeOn = false ∧ State.reset.power.ao = true ∧ State.reset.power.faultLow = true ∧
    State.reset.rd F.PCK_WAKE_EN_POWER_ON = 1 ∧ State.reset.rd F.PCK_WAKE_EN_WAKE_PIN = 1 ∧
    State.reset.rd F.PCK_WAKE_EN_RESET_PIN = 1 ∧ State.reset.rd F.PCK_WAKE_SRC_POWER_ON = 1 ∧
    (∀ n, n < 2 →
      (State.reset.rd (F.CAN_NBT_NBRP n) + 1) * (1 + (State.reset.rd (F.CAN_NBT_NTSEG1 n) + 1)
        + (State.reset.rd (F.CAN_NBT_NTSEG2 n) + 1)) = 160 ∧
      State.reset.rd (F.CAN_NBT_NTSEG1 n) + 1 = 127 ∧
      (State.reset.rd (F.CAN_DBT_DBRP n) + 1) * (1 + (State.reset.rd (F.CAN_DBT_DTSEG1 n) + 1)
        + (State.reset.rd (F.CAN_DBT_DTSEG2 n) + 1)) = 40 ∧
      State.reset.rd (F.CAN_DBT_DTSEG1 n) + 1 = 29) ∧
    ∀ a, memGet State.reset.sram a = 0#8

/-- For every state and any two channels n and m, m in SOFT_OFF or LATCHED: an on-edge, an off-edge or a change of
Uzodar's force at channel n completes, and every field of channel m's state is as it was. R106 is stated here for the
row GATE_EDGE alone. -/
def Obligations.GateEdgeLeavesALatchedChannelOff : Prop :=
  ∀ (s : State) (t : Nat) (n m : Fin 12) (e : GateEdge), let u := s.upTo t
    ((u.ch m).st = .softOff ∨ (u.ch m).st = .latched) →
    ∃ r : State, exec (.gateEdge t n e) s = .next r ∧ r.ch m = u.ch m

/-- With CPU and COMM powered, a host write at an offset of BAR2 below 0x8_0000 completes. Every byte of shared SRAM reads
as before, except the bytes of the word at the offset, rounded down to 4, whose byte enables are set; these read the
data's bytes, least significant first. Everything else stays but the time. -/
def Obligations.HostWindowWriteTouchesItsWord : Prop :=
  ∀ (s : State) (t : Nat) (off : BitVec 21) (data : BitVec 32) (be : BitVec 4), let u := s.upTo t
    u.cpuOn = true → u.commOn = true → off.toNat < 0x80000 →
    ∃ r : State, exec (.registerWrite t .host true off data be) s = .next r ∧ r = { u with sram := r.sram } ∧
      ∀ a, memGet r.sram a =
        if off.toNat / 4 * 4 ≤ a ∧ a < off.toNat / 4 * 4 + 4 ∧ be.getLsbD (a - off.toNat / 4 * 4) = true then
          BitVec.ofNat 8 (data.toNat / 256 ^ (a - off.toNat / 4 * 4))
        else memGet u.sram a

/-- A read of a LO word of R447 and R570 that no earlier freeze of the initiator holds completes. If in any later state
the freezes are still those it left, a read of one of its HI words by the same initiator returns that word as it stood
at the LO read and ends that freeze, changing nothing else but the time and the output. Both reads are of powered
blocks outside BOOT, and the initiator may read them: a debugger inside its scope (R400), a host outside D3hot. -/
def Obligations.LoReadFreezesItsHi : Prop :=
  ∀ (s v : State) (t t' : Nat) (who : Reader) (lo hi : BitVec 21), let u := s.upTo t
    lo.toNat % 4 = 0 → hi.toNat ∈ State.freezes lo.toNat → u.blockPowered (lo.toNat / 0x10000) = true →
    u.rd F.SYS_MODE_PHASE ≠ 1 → u.granted who.code (lo.toNat / 0x10000) →
    (∀ f ∈ u.hif.frz, f.1 = who.code → f.2.1 ≠ lo.toNat) →
    ∃ r : State, exec (.splitLoRead t who false lo) s = .next r ∧
      ((v.upTo t').hif.frz = r.hif.frz → (v.upTo t').blockPowered (hi.toNat / 0x10000) = true →
        (v.upTo t').rd F.SYS_MODE_PHASE ≠ 1 → (v.upTo t').granted who.code (hi.toNat / 0x10000) →
        ∃ w : State, exec (.splitLoRead t' who false hi) v = .next (w.emit (.read hi.toNat (u.liveWord hi.toNat))) ∧
          w = { v.upTo t' with hif := w.hif } ∧ ∀ f ∈ w.hif.frz, ¬(f.1 = who.code ∧ f.2.1 = hi.toNat))

/-- A read of word 0 of slot 0 to 1,023 with CPU powered outside BOOT by an initiator that may read the block completes.
If in any later state the snapshots are still those it left, a read of word k = 1 to 7 of the slot by the same
initiator returns word k as the entry stood at the read of word 0, and changes nothing but the time and the output. -/
def Obligations.ApertureWordsComeFromTheSnapshot : Prop :=
  ∀ (s v : State) (t t' : Nat) (who : Reader) (slot k : Nat), let u := s.upTo t
    slot < 1024 → 0 < k → k < 8 → u.cpuOn = true → u.rd F.SYS_MODE_PHASE ≠ 1 → u.granted who.code 4 →
    ∃ r : State, exec (.journalApertureRead t who slot) s = .next r ∧
      ((v.upTo t').hif.snaps = r.hif.snaps → (v.upTo t').cpuOn = true → (v.upTo t').rd F.SYS_MODE_PHASE ≠ 1 →
        (v.upTo t').granted who.code 4 →
        exec (.splitLoRead t' who false (BitVec.ofNat 21 (0x48000 + 32 * slot + 4 * k))) v =
          .next ((v.upTo t').emit (.read (0x48000 + 32 * slot + 4 * k) ((u.apertureWords slot).getD k 0#32))))

/-- A read at an offset from 0x12_0000 up, in a block whose domain is unpowered, or at an offset that names no register
and lies outside the journal aperture and the receive queue of the chain, returns 0 and changes nothing but the time
and the output. -/
def Obligations.ReadsOfNothingReturnZero : Prop :=
  ∀ (s : State) (t : Nat) (who : Reader) (off : BitVec 21), let u := s.upTo t
    (0x120000 ≤ off.toNat ∨ u.blockPowered (off.toNat / 0x10000) = false ∨
      (findRow (off.toNat / 4 * 4) = none ∧ ¬(0x48000 ≤ off.toNat ∧ off.toNat < 0x50000) ∧
        ¬(0xD1000 ≤ off.toNat ∧ off.toNat < 0xD3000))) →
    exec (.splitLoRead t who false off) s = .next (u.emit (.read off.toNat 0#32))

/-- With COMM powered, outside BOOT and with the lock open, an aligned host write to BAR0 outside block 3, CPX_CTL and
SEC_RECOVERY, or to a telemetry register or an unnamed offset of block 3, sets HIF_STAT.WR_IGN and changes nothing
else but the time. -/
def Obligations.HostWritesElsewhereAreIgnored : Prop :=
  ∀ (s : State) (t : Nat) (off : BitVec 21) (data : BitVec 32) (be : BitVec 4), let u := s.upTo t
    off.toNat % 4 = 0 → u.commOn = true → u.rd F.SYS_MODE_PHASE ≠ 1 → u.bit F.BLK_CTL_LOCK = false →
    u.hif.pcie.d3hot = false →
    (off.toNat / 0x10000 ≠ 3 ∨ (0x30400 ≤ off.toNat ∧ off.toNat < 0x30480) ∨ findRow off.toNat = none) → off.toNat ≠ R.CPX_CTL →
    off.toNat ≠ R.SEC_RECOVERY →
    exec (.registerWrite t .host false off data be) s = .next (u.hi F.HIF_STAT_WR_IGN)

/-- A write to BAR0 at an offset that is no multiple of 4 changes nothing but the time, whoever sends it. So does a write
without all byte enables, by a core or a debugger to any offset and by a host or a chain host at CPX_CTL and in block
3 at a named register outside the telemetry registers. -/
def Obligations.PartialWritesAreDiscarded : Prop :=
  ∀ (s : State) (t : Nat) (src : Writer) (off : BitVec 21) (data : BitVec 32) (be : BitVec 4),
    (off.toNat % 4 ≠ 0 ∨ (be ≠ 0xF#4 ∧
      (src = .core ∨ src = .debugger ∨
        (off.toNat / 0x10000 = 3 ∧ ¬(0x30400 ≤ off.toNat ∧ off.toNat < 0x30480) ∧ findRow off.toNat ≠ none) ∨ off.toNat = R.CPX_CTL))) →
    exec (.registerWrite t src false off data be) s = .next (s.upTo t)

/-- A core's write to MOT_CFG_a, MOT_FE_a, MOT_LIM_LO_a, MOT_LIM_HI_a, MOT_LIM_TOL_a, MOT_RES_a, MOT_RESMAX_a or
MOT_GEN_VMAX_a with CTL powered, in the release of a passed checkpoint and not barred by the core's PMP, completes. In
READY it stores the writable bits of the register, CFG_BAD is set where limits are then enabled whose span R291 calls
invalid, and every other register and all else stay. In any other mode it is ignored and sets WR_IGN, and all else
stays. -/
def Obligations.MotionWritesAreAcceptedInReadyOnly : Prop :=
  ∀ (s : State) (t : Nat) (a : Fin 2) (off : BitVec 21) (data : BitVec 32), let u := s.upTo t
    off.toNat ∈ [R.MOT_CFG a, R.MOT_FE a, R.MOT_LIM_LO a, R.MOT_LIM_HI a, R.MOT_LIM_TOL a, R.MOT_RES a, R.MOT_RESMAX a,
      R.MOT_GEN_VMAX a] → u.ctlOn = true → u.passing = true → u.pmpAllows 0 true (0x40000000 + off.toNat) = true →
    (u.mode ≠ 2 → exec (.registerWrite t .core false off data 0xF) s = .next (u.hi (F.MOT_STAT_WR_IGN a))) ∧
    (u.mode = 2 → ∃ (r : State) (row : RegRow), findRow off.toNat = some row ∧
      exec (.registerWrite t .core false off data 0xF) s = .next r ∧
      r.reg off.toNat = row.merge (u.bit F.BLK_CTL_LOCK) (u.justSet off.toNat) (u.reg off.toNat) data ∧
      (∀ o, o ≠ off.toNat → o ≠ R.MOT_STAT a → r.reg o = u.reg o) ∧
      r.reg (R.MOT_STAT a) = (if r.bit (F.MOT_CFG_LIM_EN a) = true ∧ r.limitsAct a = false then
        (F.MOT_STAT_CFG_BAD a).put (u.reg (R.MOT_STAT a)) 1 else u.reg (R.MOT_STAT a)) ∧
      r = { u with regs := r.regs, sets := r.sets })

/-- For each instruction of Fesil with the cycles n of R255: where no task runs, n cycles more would pass the task's
limit, or CTL is unpowered, the instruction changes nothing but the time. That an instruction sent then is without
effect is the model's reading (log entry 12). -/
def Obligations.InstructionsRunInsideTheirTask : Prop :=
  (∀ (s : State) (t : Nat) (d : Fin 64) (item : LdiItem) (e : Ecc),
    (s.upTo t).noRoom 1 → exec (.ldi t d item e) s = .next (s.upTo t)) ∧
  (∀ (s : State) (t : Nat) (d : Fin 64) (item : LdsItem) (e : Ecc),
    (s.upTo t).noRoom 1 → exec (.lds t d item e) s = .next (s.upTo t)) ∧
  (∀ (s : State) (t : Nat) (fd : Fin 64) (m : MemRef) (e : Ecc),
    (s.upTo t).noRoom 1 → exec (.ldc t fd m e) s = .next (s.upTo t)) ∧
  (∀ (s : State) (t : Nat) (qd : Fin 16) (m : MemRef) (e : Ecc),
    (s.upTo t).noRoom 1 → exec (.ldc4 t qd m e) s = .next (s.upTo t)) ∧
  (∀ (s : State) (t : Nat) (m : MemRef) (fs : Fin 64) (e : Ecc),
    (s.upTo t).noRoom 1 → exec (.stc t m fs e) s = .next (s.upTo t)) ∧
  (∀ (s : State) (t : Nat) (m : MemRef) (qs : Fin 16) (e : Ecc),
    (s.upTo t).noRoom 1 → exec (.stc4 t m qs e) s = .next (s.upTo t)) ∧
  (∀ (s : State) (t : Nat) (ad : Fin 16) (m : MemRef) (e : Ecc),
    (s.upTo t).noRoom 1 → exec (.ldx t ad m e) s = .next (s.upTo t)) ∧
  (∀ (s : State) (t : Nat) (m : MemRef) (sa : Fin 16) (e : Ecc),
    (s.upTo t).noRoom 1 → exec (.stx t m sa e) s = .next (s.upTo t)) ∧
  (∀ (s : State) (t : Nat) (d : FReg) (imm : Word) (e : Ecc),
    (s.upTo t).noRoom 1 → exec (.movi t d imm e) s = .next (s.upTo t)) ∧
  (∀ (s : State) (t : Nat) (d : FReg) (r : FReg) (e : Ecc),
    (s.upTo t).noRoom 1 → exec (.mov t d r e) s = .next (s.upTo t)) ∧
  (∀ (s : State) (t : Nat) (fd : Fin 64) (fa : Fin 64) (fb : Fin 64) (e : Ecc),
    (s.upTo t).noRoom 1 → exec (.fadd t fd fa fb e) s = .next (s.upTo t)) ∧
  (∀ (s : State) (t : Nat) (fd : Fin 64) (fa : Fin 64) (fb : Fin 64) (e : Ecc),
    (s.upTo t).noRoom 1 → exec (.fsub t fd fa fb e) s = .next (s.upTo t)) ∧
  (∀ (s : State) (t : Nat) (fd : Fin 64) (fa : Fin 64) (fb : Fin 64) (e : Ecc),
    (s.upTo t).noRoom 1 → exec (.fmul t fd fa fb e) s = .next (s.upTo t)) ∧
  (∀ (s : State) (t : Nat) (fd : Fin 64) (fa : Fin 64) (fb : Fin 64) (e : Ecc),
    (s.upTo t).noRoom 1 → exec (.fmac t fd fa fb e) s = .next (s.upTo t)) ∧
  (∀ (s : State) (t : Nat) (fd : Fin 64) (fa : Fin 64) (fb : Fin 64) (e : Ecc),
    (s.upTo t).noRoom 1 → exec (.fmsu t fd fa fb e) s = .next (s.upTo t)) ∧
  (∀ (s : State) (t : Nat) (fd : Fin 64) (fs : Fin 64) (e : Ecc),
    (s.upTo t).noRoom 1 → exec (.fneg t fd fs e) s = .next (s.upTo t)) ∧
  (∀ (s : State) (t : Nat) (fd : Fin 64) (fs : Fin 64) (e : Ecc),
    (s.upTo t).noRoom 1 → exec (.fabs t fd fs e) s = .next (s.upTo t)) ∧
  (∀ (s : State) (t : Nat) (fd : Fin 64) (fa : Fin 64) (fb : Fin 64) (e : Ecc),
    (s.upTo t).noRoom 1 → exec (.fmin t fd fa fb e) s = .next (s.upTo t)) ∧
  (∀ (s : State) (t : Nat) (fd : Fin 64) (fa : Fin 64) (fb : Fin 64) (e : Ecc),
    (s.upTo t).noRoom 1 → exec (.fmax t fd fa fb e) s = .next (s.upTo t)) ∧
  (∀ (s : State) (t : Nat) (fd : Fin 64) (fs : Fin 64) (fl : Fin 64) (e : Ecc),
    (s.upTo t).noRoom 1 → exec (.fclmp t fd fs fl e) s = .next (s.upTo t)) ∧
  (∀ (s : State) (t : Nat) (fd : Fin 64) (qa : Fin 16) (qb : Fin 16) (e : Ecc),
    (s.upTo t).noRoom 2 → exec (.fdot t fd qa qb e) s = .next (s.upTo t)) ∧
  (∀ (s : State) (t : Nat) (fd : Fin 64) (fs : Fin 64) (e : Ecc),
    (s.upTo t).noRoom 4 → exec (.frcp t fd fs e) s = .next (s.upTo t)) ∧
  (∀ (s : State) (t : Nat) (fd : Fin 64) (fs : Fin 64) (e : Ecc),
    (s.upTo t).noRoom 4 → exec (.frsq t fd fs e) s = .next (s.upTo t)) ∧
  (∀ (s : State) (t : Nat) (fd : Fin 64) (fs : Fin 64) (e : Ecc),
    (s.upTo t).noRoom 5 → exec (.fsqrt t fd fs e) s = .next (s.upTo t)) ∧
  (∀ (s : State) (t : Nat) (fd : Fin 64) (fa : Fin 64) (fb : Fin 64) (e : Ecc),
    (s.upTo t).noRoom 8 → exec (.fdiv t fd fa fb e) s = .next (s.upTo t)) ∧
  (∀ (s : State) (t : Nat) (fd : Fin 64) (sa : Fin 16) (fk : Fin 64) (e : Ecc),
    (s.upTo t).noRoom 1 → exec (.cvqf t fd sa fk e) s = .next (s.upTo t)) ∧
  (∀ (s : State) (t : Nat) (ad : Fin 16) (fs : Fin 64) (fk : Fin 64) (e : Ecc),
    (s.upTo t).noRoom 1 → exec (.cvfq t ad fs fk e) s = .next (s.upTo t)) ∧
  (∀ (s : State) (t : Nat) (fd : Fin 64) (sa : Fin 16) (e : Ecc),
    (s.upTo t).noRoom 1 → exec (.cvaf t fd sa e) s = .next (s.upTo t)) ∧
  (∀ (s : State) (t : Nat) (ad : Fin 16) (fs : Fin 64) (e : Ecc),
    (s.upTo t).noRoom 1 → exec (.cvfa t ad fs e) s = .next (s.upTo t)) ∧
  (∀ (s : State) (t : Nat) (fd : Fin 64) (sa : Fin 16) (e : Ecc),
    (s.upTo t).noRoom 1 → exec (.cvif t fd sa e) s = .next (s.upTo t)) ∧
  (∀ (s : State) (t : Nat) (ad : Fin 16) (fs : Fin 64) (e : Ecc),
    (s.upTo t).noRoom 1 → exec (.cvfi t ad fs e) s = .next (s.upTo t)) ∧
  (∀ (s : State) (t : Nat) (ad : Fin 16) (aa : Fin 16) (ab : Fin 16) (e : Ecc),
    (s.upTo t).noRoom 1 → exec (.iadd t ad aa ab e) s = .next (s.upTo t)) ∧
  (∀ (s : State) (t : Nat) (ad : Fin 16) (aa : Fin 16) (ab : Fin 16) (e : Ecc),
    (s.upTo t).noRoom 1 → exec (.isub t ad aa ab e) s = .next (s.upTo t)) ∧
  (∀ (s : State) (t : Nat) (ad : Fin 16) (aa : Fin 16) (ab : Fin 16) (e : Ecc),
    (s.upTo t).noRoom 1 → exec (.iand t ad aa ab e) s = .next (s.upTo t)) ∧
  (∀ (s : State) (t : Nat) (ad : Fin 16) (aa : Fin 16) (ab : Fin 16) (e : Ecc),
    (s.upTo t).noRoom 1 → exec (.ior t ad aa ab e) s = .next (s.upTo t)) ∧
  (∀ (s : State) (t : Nat) (ad : Fin 16) (aa : Fin 16) (ab : Fin 16) (e : Ecc),
    (s.upTo t).noRoom 1 → exec (.ixor t ad aa ab e) s = .next (s.upTo t)) ∧
  (∀ (s : State) (t : Nat) (ad : Fin 16) (aa : Fin 16) (sh : Int) (e : Ecc),
    (s.upTo t).noRoom 1 → exec (.ish t ad aa sh e) s = .next (s.upTo t)) ∧
  (∀ (s : State) (t : Nat) (fd : Fin 64) (sa : Fin 16) (e : Ecc),
    (s.upTo t).noRoom 3 → exec (.sincos t fd sa e) s = .next (s.upTo t)) ∧
  (∀ (s : State) (t : Nat) (fd : Fin 64) (qs : Fin 16) (e : Ecc),
    (s.upTo t).noRoom 2 → exec (.clarke t fd qs e) s = .next (s.upTo t)) ∧
  (∀ (s : State) (t : Nat) (fd : Fin 64) (fs : Fin 64) (fc : Fin 64) (e : Ecc),
    (s.upTo t).noRoom 2 → exec (.park t fd fs fc e) s = .next (s.upTo t)) ∧
  (∀ (s : State) (t : Nat) (fd : Fin 64) (fs : Fin 64) (fc : Fin 64) (e : Ecc),
    (s.upTo t).noRoom 2 → exec (.ipark t fd fs fc e) s = .next (s.upTo t)) ∧
  (∀ (s : State) (t : Nat) (qd : Fin 16) (fs : Fin 64) (fv : Fin 64) (e : Ecc),
    (s.upTo t).noRoom 6 → exec (.svm t qd fs fv e) s = .next (s.upTo t)) ∧
  (∀ (s : State) (t : Nat) (qs : Fin 16) (e : Ecc),
    (s.upTo t).noRoom 4 → exec (.cmpq t qs e) s = .next (s.upTo t)) ∧
  (∀ (s : State) (t : Nat) (sa : Fin 16) (e : Ecc),
    (s.upTo t).noRoom 1 → exec (.stper t sa e) s = .next (s.upTo t)) ∧
  (∀ (s : State) (t : Nat) (j : Fin 8) (sa : Fin 16) (e : Ecc),
    (s.upTo t).noRoom 1 → exec (.sttrg t j sa e) s = .next (s.upTo t)) ∧
  (∀ (s : State) (t : Nat) (fd : Fin 64) (fr : Fin 64) (fm : Fin 64) (ff : Fin 64) (fl : Fin 64) (slot : Fin 8) (e : Ecc),
    (s.upTo t).noRoom 3 → exec (.pic t fd fr fm ff fl slot e) s = .next (s.upTo t)) ∧
  (∀ (s : State) (t : Nat) (fd : Fin 64) (fs : Fin 64) (coef : MemRef) (st : MemRef) (e : Ecc),
    (s.upTo t).noRoom 3 → exec (.biq t fd fs coef st e) s = .next (s.upTo t)) ∧
  (∀ (s : State) (t : Nat) (fa : Fin 64) (fb : Fin 64) (e : Ecc),
    (s.upTo t).noRoom 1 → exec (.fcmp t fa fb e) s = .next (s.upTo t)) ∧
  (∀ (s : State) (t : Nat) (aa : Fin 16) (ab : Fin 16) (e : Ecc),
    (s.upTo t).noRoom 1 → exec (.icmp t aa ab e) s = .next (s.upTo t)) ∧
  (∀ (s : State) (t : Nat) (c : BrCond) (label : Nat) (e : Ecc),
    (s.upTo t).noRoom ((s.upTo t).brCycles c) → exec (.br t c label e) s = .next (s.upTo t)) ∧
  (∀ (s : State) (t : Nat) (label : Nat) (e : Ecc),
    (s.upTo t).noRoom 2 → exec (.jmp t label e) s = .next (s.upTo t)) ∧
  (∀ (s : State) (t : Nat) (e : Ecc),
    (s.upTo t).noRoom 1 → exec (.commit t e) s = .next (s.upTo t)) ∧
  (∀ (s : State) (t : Nat) (e : Ecc),
    (s.upTo t).noRoom 2 → exec (.trc t e) s = .next (s.upTo t)) ∧
  (∀ (s : State) (t : Nat) (c : Fin 16) (sa : Fin 16) (e : Ecc),
    (s.upTo t).noRoom 1 → exec (.evt t c sa e) s = .next (s.upTo t)) ∧
  (∀ (s : State) (t : Nat) (e : Ecc),
    (s.upTo t).noRoom 1 → exec (.endProgram t e) s = .next (s.upTo t))

/-- For each row that is an action of an accepted command: where no command holds the ring, the module is not awake, no
checkpoint is being released, or the command has begun, the row changes nothing but the time. That a row sent then is
without effect is the model's reading (log entries 12 and 13). -/
def Obligations.CommandsWaitForTheirRing : Prop :=
  (∀ (s : State) (t : Nat) (r : Fin 4),
    (s.upTo t).heldBack r → exec (.nop t r) s = .next (s.upTo t)) ∧
  (∀ (s : State) (t : Nat) (r : Fin 4),
    (s.upTo t).heldBack r → exec (.queryState t r) s = .next (s.upTo t)) ∧
  (∀ (s : State) (t : Nat) (r : Fin 4) (so : List Nat),
    (s.upTo t).heldBack r → exec (.setMode t r so) s = .next (s.upTo t)) ∧
  (∀ (s : State) (t : Nat) (r : Fin 4) (path : Bool),
    (s.upTo t).heldBack r → exec (.arm t r path) s = .next (s.upTo t)) ∧
  (∀ (s : State) (t : Nat) (r : Fin 4),
    (s.upTo t).heldBack r → exec (.start t r) s = .next (s.upTo t)) ∧
  (∀ (s : State) (t : Nat) (r : Fin 4),
    (s.upTo t).heldBack r → exec (.stop t r) s = .next (s.upTo t)) ∧
  (∀ (s : State) (t : Nat) (r : Fin 4),
    (s.upTo t).heldBack r → exec (.setTorque t r) s = .next (s.upTo t)) ∧
  (∀ (s : State) (t : Nat) (r : Fin 4),
    (s.upTo t).heldBack r → exec (.setSpeed t r) s = .next (s.upTo t)) ∧
  (∀ (s : State) (t : Nat) (r : Fin 4),
    (s.upTo t).heldBack r → exec (.loadProfileParams t r) s = .next (s.upTo t)) ∧
  (∀ (s : State) (t : Nat) (r : Fin 4),
    (s.upTo t).heldBack r → exec (.loadProfileTable t r) s = .next (s.upTo t)) ∧
  (∀ (s : State) (t : Nat) (r : Fin 4),
    (s.upTo t).heldBack r → exec (.loadProfileControl t r) s = .next (s.upTo t)) ∧
  (∀ (s : State) (t : Nat) (r : Fin 4),
    (s.upTo t).heldBack r → exec (.setLimits t r) s = .next (s.upTo t)) ∧
  (∀ (s : State) (t : Nat) (r : Fin 4),
    (s.upTo t).heldBack r → exec (.brakeTest t r) s = .next (s.upTo t)) ∧
  (∀ (s : State) (t : Nat) (r : Fin 4),
    (s.upTo t).heldBack r → exec (.discharge t r) s = .next (s.upTo t)) ∧
  (∀ (s : State) (t : Nat) (r : Fin 4),
    (s.upTo t).heldBack r → exec (.handoverPolicy t r) s = .next (s.upTo t)) ∧
  (∀ (s : State) (t : Nat) (r : Fin 4),
    (s.upTo t).heldBack r → exec (.traceArm t r) s = .next (s.upTo t)) ∧
  (∀ (s : State) (t : Nat) (r : Fin 4) (bads fixed : List Nat),
    (s.upTo t).heldBack r → exec (.traceRead t r bads fixed) s = .next (s.upTo t)) ∧
  (∀ (s : State) (t : Nat) (r : Fin 4),
    (s.upTo t).heldBack r → exec (.journalQuery t r) s = .next (s.upTo t)) ∧
  (∀ (s : State) (t : Nat) (r : Fin 4),
    (s.upTo t).heldBack r → exec (.recRead t r) s = .next (s.upTo t)) ∧
  (∀ (s : State) (t : Nat) (r : Fin 4),
    (s.upTo t).heldBack r → exec (.recMark t r) s = .next (s.upTo t)) ∧
  (∀ (s : State) (t : Nat) (r : Fin 4),
    (s.upTo t).heldBack r → exec (.fwStage t r) s = .next (s.upTo t)) ∧
  (∀ (s : State) (t : Nat) (r : Fin 4),
    (s.upTo t).heldBack r → exec (.fwCommitActivate t r) s = .next (s.upTo t)) ∧
  (∀ (s : State) (t : Nat) (r : Fin 4),
    (s.upTo t).heldBack r → exec (.fwCommitAdvance t r) s = .next (s.upTo t)) ∧
  (∀ (s : State) (t : Nat) (r : Fin 4),
    (s.upTo t).heldBack r → exec (.attest t r) s = .next (s.upTo t)) ∧
  (∀ (s : State) (t : Nat) (r : Fin 4),
    (s.upTo t).heldBack r → exec (.chainSend t r) s = .next (s.upTo t)) ∧
  (∀ (s : State) (t : Nat) (r : Fin 4),
    (s.upTo t).heldBack r → exec (.canConfigure t r) s = .next (s.upTo t)) ∧
  (∀ (s : State) (t : Nat) (r : Fin 4),
    (s.upTo t).heldBack r → exec (.canTransmit t r) s = .next (s.upTo t)) ∧
  (∀ (s : State) (t : Nat) (r : Fin 4),
    (s.upTo t).heldBack r → exec (.canRead t r) s = .next (s.upTo t)) ∧
  (∀ (s : State) (t : Nat) (r : Fin 4),
    (s.upTo t).heldBack r → exec (.canDisable t r) s = .next (s.upTo t)) ∧
  (∀ (s : State) (t : Nat) (r : Fin 4) (onBus : Bool),
    (s.upTo t).heldBack r → exec (.canAbort t r onBus) s = .next (s.upTo t)) ∧
  (∀ (s : State) (t : Nat) (r : Fin 4),
    (s.upTo t).heldBack r → exec (.canStart t r) s = .next (s.upTo t)) ∧
  (∀ (s : State) (t : Nat) (r : Fin 4) (onBus : Bool),
    (s.upTo t).heldBack r → exec (.canStop t r onBus) s = .next (s.upTo t)) ∧
  (∀ (s : State) (t : Nat) (r : Fin 4),
    (s.upTo t).heldBack r → exec (.canRecover t r) s = .next (s.upTo t)) ∧
  (∀ (s : State) (t : Nat) (r : Fin 4),
    (s.upTo t).heldBack r → exec (.tlmConfig t r) s = .next (s.upTo t))

/-- For every state and initiator the row answers a next state. With CPU unpowered, during BOOT for any initiator but the
cores and a debugger, for a debugger outside its scope and for a host in D3hot, the read returns 0 and freezes
nothing. Otherwise it returns JRN_HEAD_SEQ_LO and freezes, for that initiator alone and in place of its earlier
freezes, HEAD's other half and both halves of MIRROR, TAIL and the four host heads, each as it stands. Where an
earlier read had frozen the word itself for the initiator, that value is returned and its freeze ends. What a read
returns stands in the list of what leaves the module (log entry 11). -/
def Obligations.JournalHeadReadCompletes : Prop :=
  ∀ (s : State) (t : Nat) (who : Reader), let u := s.upTo t
    ((u.cpuOn = false ∨ (u.rd F.SYS_MODE_PHASE = 1 ∧ who ≠ .core ∧ who ≠ .debugger) ∨ ¬u.granted who.code 4) →
      exec (.journalHeadRead t who) s = .next (u.emit (.read R.JRN_HEAD_SEQ_LO 0#32))) ∧
    (u.cpuOn = true → (u.rd F.SYS_MODE_PHASE = 1 → who = .core ∨ who = .debugger) → u.granted who.code 4 →
      (∀ f ∈ u.hif.frz, f.1 = who.code → f.2.1 ≠ R.JRN_HEAD_SEQ_LO) →
      exec (.journalHeadRead t who) s = .next
        (({ u with hif := { u.hif with
            frz := u.hif.frz.filter (fun f => f.1 != who.code) ++
              ([R.JRN_HEAD_SEQ_HI, R.JRN_MIRROR_SEQ_LO, R.JRN_MIRROR_SEQ_HI, R.JRN_TAIL_SEQ_LO, R.JRN_TAIL_SEQ_HI] ++
                [0, 1, 2, 3].map R.JRN_HEAD_HSEQ_LO ++ [0, 1, 2, 3].map R.JRN_HEAD_HSEQ_HI).map
                  fun o => (who.code, o, u.reg o) } } : State).emit
          (.read R.JRN_HEAD_SEQ_LO (u.reg R.JRN_HEAD_SEQ_LO)))) ∧
    ∀ f, u.cpuOn = true → (u.rd F.SYS_MODE_PHASE = 1 → who = .core ∨ who = .debugger) → u.granted who.code 4 →
      u.hif.frz.find? (fun f => f.1 == who.code && f.2.1 == R.JRN_HEAD_SEQ_LO) = some f →
      ∃ r : State, exec (.journalHeadRead t who) s = .next (r.emit (.read R.JRN_HEAD_SEQ_LO f.2.2)) ∧
        r = { u with hif := r.hif } ∧ ∀ g ∈ r.hif.frz, ¬(g.1 = who.code ∧ g.2.1 = R.JRN_HEAD_SEQ_LO)

/-- For all values and data: the metadata of a page is 32 bytes, little-endian: role, partition or log index, page index
in two bytes, erase count in four, sequence in eight, first number in eight, the CRC-32C over the data and bytes 0 to
23, and four bytes of 0, each value modulo its width. Which indexes the partitions and logs have is free (log entry
107). -/
def Obligations.PageMetadataIsLaidOutAsTheTableSays : Prop :=
  ∀ (role index page erases seq first : Nat) (data : List Byte),
    let m := pageMeta role index page erases seq first data
    m.length = 32 ∧ Machine.fieldLe m 0 1 = role % 256 ∧ Machine.fieldLe m 1 1 = index % 256 ∧ Machine.fieldLe m 2 2 = page % 2 ^ 16 ∧
      Machine.fieldLe m 4 4 = erases % 2 ^ 32 ∧ Machine.fieldLe m 8 8 = seq % 2 ^ 64 ∧ Machine.fieldLe m 16 8 = first % 2 ^ 64 ∧
      Machine.fieldLe m 24 4 = crc32c (data ++ m.take 24) % 2 ^ 32 ∧ Machine.fieldLe m 28 4 = 0
end

