-- ==== Sys2Proof/Laws/Store.lean ====
section
/-!
SUPPORT. The laws of the sparse tables and of the memories over them: a read after a write, and the canonical form that
every write keeps.
-/

namespace Sys2Proof.Machine

/-! ## Sparse tables -/

theorem kvGet_kvErase_same {α : Type} (d : Nat → α) (m : List (Nat × α)) (k : Nat) :
    kvGet d (kvErase m k) k = d k := by
  induction m with
  | nil => rfl
  | cons e m ih =>
    simp only [kvErase]
    split
    · exact ih
    · simp only [kvGet, if_neg ‹_›, ih]

theorem kvGet_kvErase_other {α : Type} (d : Nat → α) (m : List (Nat × α)) {k j : Nat} (h : j ≠ k) :
    kvGet d (kvErase m k) j = kvGet d m j := by
  induction m with
  | nil => rfl
  | cons e m ih =>
    simp only [kvErase, kvGet]
    split
    · subst k
      rw [if_neg (Ne.symm h), ih]
    · simp only [kvGet, ih]

theorem kvGet_kvInsert {α : Type} (d : Nat → α) (m : List (Nat × α)) (k j : Nat) (v : α) :
    kvGet d (kvInsert k v (kvErase m k)) j = if k = j then v else kvGet d m j := by
  induction m with
  | nil => rfl
  | cons e m ih =>
    simp only [kvErase]
    split
    · next h => rw [ih]; simp only [kvGet, h]; split <;> rfl
    · next h =>
      simp only [kvInsert]
      split
      · simp only [kvGet]
        split
        · rfl
        · next hj => rw [kvGet_kvErase_other d m (fun h' => hj h'.symm)]
      · simp only [kvGet, ih]
        split
        · next hj => rw [if_neg fun h' => h (hj.trans h'.symm)]
        · rfl

/-- A read after a write: the value written at its key, what was there at any other. -/
theorem kvGet_kvSet {α : Type} [DecidableEq α] (d : Nat → α) (m : List (Nat × α)) (k j : Nat) (v : α) :
    kvGet d (kvSet d m k v) j = if k = j then v else kvGet d m j := by
  unfold kvSet
  split
  · next hv =>
    split
    · next h => subst h; rw [kvGet_kvErase_same, hv]
    · next h => exact kvGet_kvErase_other d m (Ne.symm h)
  · exact kvGet_kvInsert d m k j v

theorem kvErase_mem {α : Type} {m : List (Nat × α)} {k : Nat} {e : Nat × α} (h : e ∈ kvErase m k) :
    e ∈ m ∧ e.1 ≠ k := by
  induction m with
  | nil => cases h
  | cons x m ih =>
    simp only [kvErase] at h
    split at h
    · next hx => exact ⟨List.mem_cons_of_mem _ (ih h).1, (ih h).2⟩
    · next hx =>
      rcases List.mem_cons.1 h with rfl | h
      · exact ⟨List.mem_cons_self, hx⟩
      · exact ⟨List.mem_cons_of_mem _ (ih h).1, (ih h).2⟩

theorem kvInsert_mem {α : Type} {m : List (Nat × α)} {k : Nat} {v : α} {e : Nat × α} (h : e ∈ kvInsert k v m) :
    e = (k, v) ∨ e ∈ m := by
  induction m with
  | nil => exact Or.inl (List.mem_singleton.1 h)
  | cons x m ih =>
    simp only [kvInsert] at h
    split at h
    · rcases List.mem_cons.1 h with h | h
      · exact Or.inl h
      · exact Or.inr h
    · rcases List.mem_cons.1 h with h | h
      · exact Or.inr (h ▸ List.mem_cons_self)
      · exact (ih h).imp_right (List.mem_cons_of_mem _)

theorem kvWf_kvErase {α : Type} [DecidableEq α] (d : Nat → α) {m : List (Nat × α)} (k : Nat) (h : kvWf d m = true) :
    kvWf d (kvErase m k) = true := by
  induction m with
  | nil => rfl
  | cons x m ih =>
    simp only [kvWf, Bool.and_eq_true, decide_eq_true_eq, List.all_eq_true] at h
    simp only [kvErase]
    split
    · exact ih h.2
    · simp only [kvWf, Bool.and_eq_true, decide_eq_true_eq, List.all_eq_true]
      exact ⟨⟨h.1.1, fun e he => h.1.2 e (kvErase_mem he).1⟩, ih h.2⟩

theorem kvWf_kvInsert {α : Type} [DecidableEq α] (d : Nat → α) {m : List (Nat × α)} {k : Nat} {v : α} (hv : v ≠ d k)
    (hk : ∀ e ∈ m, e.1 ≠ k) (h : kvWf d m = true) : kvWf d (kvInsert k v m) = true := by
  induction m with
  | nil => simp [kvInsert, kvWf, hv]
  | cons x m ih =>
    have h0 := h
    simp only [kvWf, Bool.and_eq_true, decide_eq_true_eq, List.all_eq_true] at h
    simp only [kvInsert]
    split
    · next hlt =>
      simp only [kvWf, Bool.and_eq_true, decide_eq_true_eq, List.all_eq_true]
      refine ⟨⟨hv, fun e he => ?_⟩, ⟨h.1.1, h.1.2⟩, h.2⟩
      rcases List.mem_cons.1 he with rfl | he
      · exact hlt
      · exact lt_trans hlt (h.1.2 e he)
    · next hlt =>
      simp only [kvWf, Bool.and_eq_true, decide_eq_true_eq, List.all_eq_true]
      have hx : x.1 ≠ k := hk x List.mem_cons_self
      refine ⟨⟨h.1.1, fun e he => ?_⟩, ih (fun e he => hk e (List.mem_cons_of_mem _ he)) h.2⟩
      rcases kvInsert_mem he with rfl | he
      · exact lt_of_le_of_ne (Nat.le_of_not_lt hlt) hx
      · exact h.1.2 e he

/-- A write keeps the canonical form. -/
theorem kvWf_kvSet {α : Type} [DecidableEq α] (d : Nat → α) {m : List (Nat × α)} (k : Nat) (v : α)
    (h : kvWf d m = true) : kvWf d (kvSet d m k v) = true := by
  unfold kvSet
  split
  · exact kvWf_kvErase d k h
  · next hv => exact kvWf_kvInsert d hv (fun e he => (kvErase_mem he).2) (kvWf_kvErase d k h)

/-- Keeping some entries, and changing the values of some to others that are not the default, keeps the form. -/
theorem kvWf_filterMap {α : Type} [DecidableEq α] (d : Nat → α) (f : Nat × α → Option (Nat × α))
    (hf : ∀ e x, f e = some x → x.1 = e.1 ∧ x.2 ≠ d x.1) {m : List (Nat × α)} (h : kvWf d m = true) :
    kvWf d (m.filterMap f) = true := by
  induction m with
  | nil => rfl
  | cons e m ih =>
    simp only [kvWf, Bool.and_eq_true, decide_eq_true_eq, List.all_eq_true] at h
    rw [List.filterMap_cons]
    cases hx : f e with
    | none => exact ih h.2
    | some x =>
      simp only [kvWf, Bool.and_eq_true, decide_eq_true_eq, List.all_eq_true]
      refine ⟨⟨(hf e x hx).2, fun y hy => ?_⟩, ih h.2⟩
      obtain ⟨z, hz, hzy⟩ := List.mem_filterMap.1 hy
      rw [(hf e x hx).1, (hf z y hzy).1]
      exact h.1.2 z hz

/-! ## Memories -/

theorem memGet_memSet (m : List Host.Cell) (a b : Nat) (v : Byte) :
    memGet (memSet m a v) b = if a = b then v else memGet m b := kvGet_kvSet _ m a b v

theorem memWf_memSet {m : List Host.Cell} (a : Nat) (v : Byte) (h : memWf m = true) : memWf (memSet m a v) = true :=
  kvWf_kvSet _ a v h

theorem memWf_memPut {m : List Host.Cell} (a : Nat) (bs : List Byte) (h : memWf m = true) :
    memWf (memPut m a bs) = true := by
  induction bs generalizing m a with
  | nil => exact h
  | cons b bs ih => exact ih (a + 1) (memWf_memSet a b h)

theorem memWf_memPutWord {m : List Host.Cell} (a : Nat) (w : BitVec 32) (h : memWf m = true) :
    memWf (memPutWord m a w) = true := memWf_memPut a _ h

theorem memWf_memPutBe {m : List Host.Cell} (a : Nat) (w : BitVec 32) (be : BitVec 4) (h : memWf m = true) :
    memWf (memPutBe m a w be) = true := by
  have put : ∀ (i : Nat) {m : List Host.Cell}, memWf m = true →
      memWf (if be.getLsbD i then memSet m (a + i) (BitVec.ofNat 8 (w.toNat / 256 ^ i)) else m) = true := by
    intro i m h
    split
    · exact memWf_memSet _ _ h
    · exact h
  exact put 3 (put 2 (put 1 (put 0 h)))

theorem memWf_memClearRange {m : List Host.Cell} (lo hi : Nat) (h : memWf m = true) :
    memWf (memClearRange m lo hi) = true := by
  have : memClearRange m lo hi
      = m.filterMap (fun c => if decide (c.1 < lo) || decide (hi ≤ c.1) then (if c.2 ≠ 0#8 then some c else none) else none) := by
    unfold memClearRange
    induction m with
    | nil => rfl
    | cons c m ih =>
      simp only [memWf, kvWf, Bool.and_eq_true, decide_eq_true_eq] at h
      simp only [List.filter_cons, List.filterMap_cons]
      split
      · next hc => simp only [ih h.2, h.1.1, if_true, ne_eq, not_false_eq_true]
      · exact ih h.2
  rw [this]
  refine kvWf_filterMap _ _ (fun e x hx => ?_) h
  split at hx
  · split at hx
    · next hn => cases hx; exact ⟨rfl, hn⟩
    · cases hx
  · cases hx

/-- A byte outside the bytes written reads as before; a byte of them reads as written. -/
theorem memGet_memPut (m : List Host.Cell) (a b : Nat) (bs : List Byte) :
    memGet (memPut m a bs) b = if a ≤ b ∧ b < a + bs.length then bs.getD (b - a) 0#8 else memGet m b := by
  induction bs generalizing m a with
  | nil => simp [memPut]
  | cons x bs ih =>
    rw [memPut, ih, memGet_memSet]
    by_cases h1 : a = b
    · subst h1; simp
    · by_cases h2 : a ≤ b ∧ b < a + (x :: bs).length
      · have h3 : a + 1 ≤ b ∧ b < a + 1 + bs.length := by simp at h2; omega
        rw [if_pos h2, if_pos h3]
        obtain ⟨k, rfl⟩ : ∃ k, b = a + 1 + k := ⟨b - (a + 1), by omega⟩
        have e1 : a + 1 + k - (a + 1) = k := by omega
        have e2 : a + 1 + k - a = k + 1 := by omega
        rw [e1, e2]; rfl
      · have h3 : ¬(a + 1 ≤ b ∧ b < a + 1 + bs.length) := by simp at h2; omega
        rw [if_neg h2, if_neg h3, if_neg h1]

end Sys2Proof.Machine
end

