-- ==== Sys2Proof/Laws/State.lean ====
section
/-!
SUPPORT. The laws of State: what each update leaves in each field, and what a register, a field of a register and an
entry of a table read as after a write.
-/

namespace Sys2Proof.Machine.State

/-! ## A register word -/

@[simp] theorem setReg_now (s : State) (o : Nat) (w : BitVec 32) : (s.setReg o w).now = s.now := rfl
@[simp] theorem setReg_ct (s : State) (o : Nat) (w : BitVec 32) : (s.setReg o w).ct = s.ct := rfl
@[simp] theorem setReg_ctFine (s : State) (o : Nat) (w : BitVec 32) : (s.setReg o w).ctFine = s.ctFine := rfl
@[simp] theorem setReg_regs (s : State) (o : Nat) (w : BitVec 32) : (s.setReg o w).regs = kvSet resetVal s.regs o w := rfl
@[simp] theorem setReg_sets (s : State) (o : Nat) (w : BitVec 32) : (s.setReg o w).sets = s.sets := rfl
@[simp] theorem setReg_power (s : State) (o : Nat) (w : BitVec 32) : (s.setReg o w).power = s.power := rfl
@[simp] theorem setReg_pins (s : State) (o : Nat) (w : BitVec 32) : (s.setReg o w).pins = s.pins := rfl
@[simp] theorem setReg_saf (s : State) (o : Nat) (w : BitVec 32) : (s.setReg o w).saf = s.saf := rfl
@[simp] theorem setReg_uzs (s : State) (o : Nat) (w : BitVec 32) : (s.setReg o w).uzs = s.uzs := rfl
@[simp] theorem setReg_hif (s : State) (o : Nat) (w : BitVec 32) : (s.setReg o w).hif = s.hif := rfl
@[simp] theorem setReg_cores (s : State) (o : Nat) (w : BitVec 32) : (s.setReg o w).cores = s.cores := rfl
@[simp] theorem setReg_jrn (s : State) (o : Nat) (w : BitVec 32) : (s.setReg o w).jrn = s.jrn := rfl
@[simp] theorem setReg_chain (s : State) (o : Nat) (w : BitVec 32) : (s.setReg o w).chain = s.chain := rfl
@[simp] theorem setReg_gates (s : State) (o : Nat) (w : BitVec 32) : (s.setReg o w).gates = s.gates := rfl
@[simp] theorem setReg_diag (s : State) (o : Nat) (w : BitVec 32) : (s.setReg o w).diag = s.diag := rfl
@[simp] theorem setReg_carriers (s : State) (o : Nat) (w : BitVec 32) : (s.setReg o w).carriers = s.carriers := rfl
@[simp] theorem setReg_calFails (s : State) (o : Nat) (w : BitVec 32) : (s.setReg o w).calFails = s.calFails := rfl
@[simp] theorem setReg_adc (s : State) (o : Nat) (w : BitVec 32) : (s.setReg o w).adc = s.adc := rfl
@[simp] theorem setReg_fsl (s : State) (o : Nat) (w : BitVec 32) : (s.setReg o w).fsl = s.fsl := rfl
@[simp] theorem setReg_fslAx (s : State) (o : Nat) (w : BitVec 32) : (s.setReg o w).fslAx = s.fslAx := rfl
@[simp] theorem setReg_poss (s : State) (o : Nat) (w : BitVec 32) : (s.setReg o w).poss = s.poss := rfl
@[simp] theorem setReg_fields (s : State) (o : Nat) (w : BitVec 32) : (s.setReg o w).fields = s.fields := rfl
@[simp] theorem setReg_mots (s : State) (o : Nat) (w : BitVec 32) : (s.setReg o w).mots = s.mots := rfl
@[simp] theorem setReg_hovs (s : State) (o : Nat) (w : BitVec 32) : (s.setReg o w).hovs = s.hovs := rfl
@[simp] theorem setReg_hovIdle (s : State) (o : Nat) (w : BitVec 32) : (s.setReg o w).hovIdle = s.hovIdle := rfl
@[simp] theorem setReg_hovIdleAx (s : State) (o : Nat) (w : BitVec 32) : (s.setReg o w).hovIdleAx = s.hovIdleAx := rfl
@[simp] theorem setReg_hovMail (s : State) (o : Nat) (w : BitVec 32) : (s.setReg o w).hovMail = s.hovMail := rfl
@[simp] theorem setReg_recd (s : State) (o : Nat) (w : BitVec 32) : (s.setReg o w).recd = s.recd := rfl
@[simp] theorem setReg_btCmd (s : State) (o : Nat) (w : BitVec 32) : (s.setReg o w).btCmd = s.btCmd := rfl
@[simp] theorem setReg_dchCmds (s : State) (o : Nat) (w : BitVec 32) : (s.setReg o w).dchCmds = s.dchCmds := rfl
@[simp] theorem setReg_med (s : State) (o : Nat) (w : BitVec 32) : (s.setReg o w).med = s.med := rfl
@[simp] theorem setReg_sec (s : State) (o : Nat) (w : BitVec 32) : (s.setReg o w).sec = s.sec := rfl
@[simp] theorem setReg_can0 (s : State) (o : Nat) (w : BitVec 32) : (s.setReg o w).can0 = s.can0 := rfl
@[simp] theorem setReg_can1 (s : State) (o : Nat) (w : BitVec 32) : (s.setReg o w).can1 = s.can1 := rfl
@[simp] theorem setReg_canFrom (s : State) (o : Nat) (w : BitVec 32) : (s.setReg o w).canFrom = s.canFrom := rfl
@[simp] theorem setReg_canBase (s : State) (o : Nat) (w : BitVec 32) : (s.setReg o w).canBase = s.canBase := rfl
@[simp] theorem setReg_hkp (s : State) (o : Nat) (w : BitVec 32) : (s.setReg o w).hkp = s.hkp := rfl
@[simp] theorem setReg_sram (s : State) (o : Nat) (w : BitVec 32) : (s.setReg o w).sram = s.sram := rfl
@[simp] theorem setReg_outbox (s : State) (o : Nat) (w : BitVec 32) : (s.setReg o w).outbox = s.outbox := rfl
@[simp] theorem setReg_fresh (s : State) (o : Nat) (w : BitVec 32) : (s.setReg o w).fresh = s.fresh := rfl
@[simp] theorem setReg_pending (s : State) (o : Nat) (w : BitVec 32) : (s.setReg o w).pending = s.pending := rfl

/-! ## A register field -/

@[simp] theorem wr_now (s : State) (f : Fld) (v : Nat) : (s.wr f v).now = s.now := rfl
@[simp] theorem wr_ct (s : State) (f : Fld) (v : Nat) : (s.wr f v).ct = s.ct := rfl
@[simp] theorem wr_ctFine (s : State) (f : Fld) (v : Nat) : (s.wr f v).ctFine = s.ctFine := rfl
@[simp] theorem wr_regs (s : State) (f : Fld) (v : Nat) : (s.wr f v).regs = kvSet resetVal s.regs f.off (f.put (s.reg f.off) v) := rfl
@[simp] theorem wr_sets (s : State) (f : Fld) (v : Nat) : (s.wr f v).sets = noteSet s.now f v s.sets := rfl
@[simp] theorem wr_power (s : State) (f : Fld) (v : Nat) : (s.wr f v).power = s.power := rfl
@[simp] theorem wr_pins (s : State) (f : Fld) (v : Nat) : (s.wr f v).pins = s.pins := rfl
@[simp] theorem wr_saf (s : State) (f : Fld) (v : Nat) : (s.wr f v).saf = s.saf := rfl
@[simp] theorem wr_uzs (s : State) (f : Fld) (v : Nat) : (s.wr f v).uzs = s.uzs := rfl
@[simp] theorem wr_hif (s : State) (f : Fld) (v : Nat) : (s.wr f v).hif = s.hif := rfl
@[simp] theorem wr_cores (s : State) (f : Fld) (v : Nat) : (s.wr f v).cores = s.cores := rfl
@[simp] theorem wr_jrn (s : State) (f : Fld) (v : Nat) : (s.wr f v).jrn = s.jrn := rfl
@[simp] theorem wr_chain (s : State) (f : Fld) (v : Nat) : (s.wr f v).chain = s.chain := rfl
@[simp] theorem wr_gates (s : State) (f : Fld) (v : Nat) : (s.wr f v).gates = s.gates := rfl
@[simp] theorem wr_diag (s : State) (f : Fld) (v : Nat) : (s.wr f v).diag = s.diag := rfl
@[simp] theorem wr_carriers (s : State) (f : Fld) (v : Nat) : (s.wr f v).carriers = s.carriers := rfl
@[simp] theorem wr_calFails (s : State) (f : Fld) (v : Nat) : (s.wr f v).calFails = s.calFails := rfl
@[simp] theorem wr_adc (s : State) (f : Fld) (v : Nat) : (s.wr f v).adc = s.adc := rfl
@[simp] theorem wr_fsl (s : State) (f : Fld) (v : Nat) : (s.wr f v).fsl = s.fsl := rfl
@[simp] theorem wr_fslAx (s : State) (f : Fld) (v : Nat) : (s.wr f v).fslAx = s.fslAx := rfl
@[simp] theorem wr_poss (s : State) (f : Fld) (v : Nat) : (s.wr f v).poss = s.poss := rfl
@[simp] theorem wr_fields (s : State) (f : Fld) (v : Nat) : (s.wr f v).fields = s.fields := rfl
@[simp] theorem wr_mots (s : State) (f : Fld) (v : Nat) : (s.wr f v).mots = s.mots := rfl
@[simp] theorem wr_hovs (s : State) (f : Fld) (v : Nat) : (s.wr f v).hovs = s.hovs := rfl
@[simp] theorem wr_hovIdle (s : State) (f : Fld) (v : Nat) : (s.wr f v).hovIdle = s.hovIdle := rfl
@[simp] theorem wr_hovIdleAx (s : State) (f : Fld) (v : Nat) : (s.wr f v).hovIdleAx = s.hovIdleAx := rfl
@[simp] theorem wr_hovMail (s : State) (f : Fld) (v : Nat) : (s.wr f v).hovMail = s.hovMail := rfl
@[simp] theorem wr_recd (s : State) (f : Fld) (v : Nat) : (s.wr f v).recd = s.recd := rfl
@[simp] theorem wr_btCmd (s : State) (f : Fld) (v : Nat) : (s.wr f v).btCmd = s.btCmd := rfl
@[simp] theorem wr_dchCmds (s : State) (f : Fld) (v : Nat) : (s.wr f v).dchCmds = s.dchCmds := rfl
@[simp] theorem wr_med (s : State) (f : Fld) (v : Nat) : (s.wr f v).med = s.med := rfl
@[simp] theorem wr_sec (s : State) (f : Fld) (v : Nat) : (s.wr f v).sec = s.sec := rfl
@[simp] theorem wr_can0 (s : State) (f : Fld) (v : Nat) : (s.wr f v).can0 = s.can0 := rfl
@[simp] theorem wr_can1 (s : State) (f : Fld) (v : Nat) : (s.wr f v).can1 = s.can1 := rfl
@[simp] theorem wr_canFrom (s : State) (f : Fld) (v : Nat) : (s.wr f v).canFrom = s.canFrom := rfl
@[simp] theorem wr_canBase (s : State) (f : Fld) (v : Nat) : (s.wr f v).canBase = s.canBase := rfl
@[simp] theorem wr_hkp (s : State) (f : Fld) (v : Nat) : (s.wr f v).hkp = s.hkp := rfl
@[simp] theorem wr_sram (s : State) (f : Fld) (v : Nat) : (s.wr f v).sram = s.sram := rfl
@[simp] theorem wr_outbox (s : State) (f : Fld) (v : Nat) : (s.wr f v).outbox = s.outbox := rfl
@[simp] theorem wr_fresh (s : State) (f : Fld) (v : Nat) : (s.wr f v).fresh = s.fresh := rfl
@[simp] theorem wr_pending (s : State) (f : Fld) (v : Nat) : (s.wr f v).pending = s.pending := rfl

/-! ## An output -/

@[simp] theorem emit_now (s : State) (x : Output) : (s.emit x).now = s.now := rfl
@[simp] theorem emit_ct (s : State) (x : Output) : (s.emit x).ct = s.ct := rfl
@[simp] theorem emit_ctFine (s : State) (x : Output) : (s.emit x).ctFine = s.ctFine := rfl
@[simp] theorem emit_regs (s : State) (x : Output) : (s.emit x).regs = s.regs := rfl
@[simp] theorem emit_sets (s : State) (x : Output) : (s.emit x).sets = s.sets := rfl
@[simp] theorem emit_power (s : State) (x : Output) : (s.emit x).power = s.power := rfl
@[simp] theorem emit_pins (s : State) (x : Output) : (s.emit x).pins = s.pins := rfl
@[simp] theorem emit_saf (s : State) (x : Output) : (s.emit x).saf = s.saf := rfl
@[simp] theorem emit_uzs (s : State) (x : Output) : (s.emit x).uzs = s.uzs := rfl
@[simp] theorem emit_hif (s : State) (x : Output) : (s.emit x).hif = s.hif := rfl
@[simp] theorem emit_cores (s : State) (x : Output) : (s.emit x).cores = s.cores := rfl
@[simp] theorem emit_jrn (s : State) (x : Output) : (s.emit x).jrn = s.jrn := rfl
@[simp] theorem emit_chain (s : State) (x : Output) : (s.emit x).chain = s.chain := rfl
@[simp] theorem emit_gates (s : State) (x : Output) : (s.emit x).gates = s.gates := rfl
@[simp] theorem emit_diag (s : State) (x : Output) : (s.emit x).diag = s.diag := rfl
@[simp] theorem emit_carriers (s : State) (x : Output) : (s.emit x).carriers = s.carriers := rfl
@[simp] theorem emit_calFails (s : State) (x : Output) : (s.emit x).calFails = s.calFails := rfl
@[simp] theorem emit_adc (s : State) (x : Output) : (s.emit x).adc = s.adc := rfl
@[simp] theorem emit_fsl (s : State) (x : Output) : (s.emit x).fsl = s.fsl := rfl
@[simp] theorem emit_fslAx (s : State) (x : Output) : (s.emit x).fslAx = s.fslAx := rfl
@[simp] theorem emit_poss (s : State) (x : Output) : (s.emit x).poss = s.poss := rfl
@[simp] theorem emit_fields (s : State) (x : Output) : (s.emit x).fields = s.fields := rfl
@[simp] theorem emit_mots (s : State) (x : Output) : (s.emit x).mots = s.mots := rfl
@[simp] theorem emit_hovs (s : State) (x : Output) : (s.emit x).hovs = s.hovs := rfl
@[simp] theorem emit_hovIdle (s : State) (x : Output) : (s.emit x).hovIdle = s.hovIdle := rfl
@[simp] theorem emit_hovIdleAx (s : State) (x : Output) : (s.emit x).hovIdleAx = s.hovIdleAx := rfl
@[simp] theorem emit_hovMail (s : State) (x : Output) : (s.emit x).hovMail = s.hovMail := rfl
@[simp] theorem emit_recd (s : State) (x : Output) : (s.emit x).recd = s.recd := rfl
@[simp] theorem emit_btCmd (s : State) (x : Output) : (s.emit x).btCmd = s.btCmd := rfl
@[simp] theorem emit_dchCmds (s : State) (x : Output) : (s.emit x).dchCmds = s.dchCmds := rfl
@[simp] theorem emit_med (s : State) (x : Output) : (s.emit x).med = s.med := rfl
@[simp] theorem emit_sec (s : State) (x : Output) : (s.emit x).sec = s.sec := rfl
@[simp] theorem emit_can0 (s : State) (x : Output) : (s.emit x).can0 = s.can0 := rfl
@[simp] theorem emit_can1 (s : State) (x : Output) : (s.emit x).can1 = s.can1 := rfl
@[simp] theorem emit_canFrom (s : State) (x : Output) : (s.emit x).canFrom = s.canFrom := rfl
@[simp] theorem emit_canBase (s : State) (x : Output) : (s.emit x).canBase = s.canBase := rfl
@[simp] theorem emit_hkp (s : State) (x : Output) : (s.emit x).hkp = s.hkp := rfl
@[simp] theorem emit_sram (s : State) (x : Output) : (s.emit x).sram = s.sram := rfl
@[simp] theorem emit_outbox (s : State) (x : Output) : (s.emit x).outbox = s.outbox ++ [x] := rfl
@[simp] theorem emit_fresh (s : State) (x : Output) : (s.emit x).fresh = s.fresh := rfl
@[simp] theorem emit_pending (s : State) (x : Output) : (s.emit x).pending = s.pending := rfl

/-! ## `saf` -/

@[simp] theorem modSaf_now (s : State) (g : Uzodar → Uzodar) : (s.modSaf g).now = s.now := rfl
@[simp] theorem modSaf_ct (s : State) (g : Uzodar → Uzodar) : (s.modSaf g).ct = s.ct := rfl
@[simp] theorem modSaf_ctFine (s : State) (g : Uzodar → Uzodar) : (s.modSaf g).ctFine = s.ctFine := rfl
@[simp] theorem modSaf_regs (s : State) (g : Uzodar → Uzodar) : (s.modSaf g).regs = s.regs := rfl
@[simp] theorem modSaf_sets (s : State) (g : Uzodar → Uzodar) : (s.modSaf g).sets = s.sets := rfl
@[simp] theorem modSaf_power (s : State) (g : Uzodar → Uzodar) : (s.modSaf g).power = s.power := rfl
@[simp] theorem modSaf_pins (s : State) (g : Uzodar → Uzodar) : (s.modSaf g).pins = s.pins := rfl
@[simp] theorem modSaf_saf (s : State) (g : Uzodar → Uzodar) : (s.modSaf g).saf = g s.saf := rfl
@[simp] theorem modSaf_uzs (s : State) (g : Uzodar → Uzodar) : (s.modSaf g).uzs = s.uzs := rfl
@[simp] theorem modSaf_hif (s : State) (g : Uzodar → Uzodar) : (s.modSaf g).hif = s.hif := rfl
@[simp] theorem modSaf_cores (s : State) (g : Uzodar → Uzodar) : (s.modSaf g).cores = s.cores := rfl
@[simp] theorem modSaf_jrn (s : State) (g : Uzodar → Uzodar) : (s.modSaf g).jrn = s.jrn := rfl
@[simp] theorem modSaf_chain (s : State) (g : Uzodar → Uzodar) : (s.modSaf g).chain = s.chain := rfl
@[simp] theorem modSaf_gates (s : State) (g : Uzodar → Uzodar) : (s.modSaf g).gates = s.gates := rfl
@[simp] theorem modSaf_diag (s : State) (g : Uzodar → Uzodar) : (s.modSaf g).diag = s.diag := rfl
@[simp] theorem modSaf_carriers (s : State) (g : Uzodar → Uzodar) : (s.modSaf g).carriers = s.carriers := rfl
@[simp] theorem modSaf_calFails (s : State) (g : Uzodar → Uzodar) : (s.modSaf g).calFails = s.calFails := rfl
@[simp] theorem modSaf_adc (s : State) (g : Uzodar → Uzodar) : (s.modSaf g).adc = s.adc := rfl
@[simp] theorem modSaf_fsl (s : State) (g : Uzodar → Uzodar) : (s.modSaf g).fsl = s.fsl := rfl
@[simp] theorem modSaf_fslAx (s : State) (g : Uzodar → Uzodar) : (s.modSaf g).fslAx = s.fslAx := rfl
@[simp] theorem modSaf_poss (s : State) (g : Uzodar → Uzodar) : (s.modSaf g).poss = s.poss := rfl
@[simp] theorem modSaf_fields (s : State) (g : Uzodar → Uzodar) : (s.modSaf g).fields = s.fields := rfl
@[simp] theorem modSaf_mots (s : State) (g : Uzodar → Uzodar) : (s.modSaf g).mots = s.mots := rfl
@[simp] theorem modSaf_hovs (s : State) (g : Uzodar → Uzodar) : (s.modSaf g).hovs = s.hovs := rfl
@[simp] theorem modSaf_hovIdle (s : State) (g : Uzodar → Uzodar) : (s.modSaf g).hovIdle = s.hovIdle := rfl
@[simp] theorem modSaf_hovIdleAx (s : State) (g : Uzodar → Uzodar) : (s.modSaf g).hovIdleAx = s.hovIdleAx := rfl
@[simp] theorem modSaf_hovMail (s : State) (g : Uzodar → Uzodar) : (s.modSaf g).hovMail = s.hovMail := rfl
@[simp] theorem modSaf_recd (s : State) (g : Uzodar → Uzodar) : (s.modSaf g).recd = s.recd := rfl
@[simp] theorem modSaf_btCmd (s : State) (g : Uzodar → Uzodar) : (s.modSaf g).btCmd = s.btCmd := rfl
@[simp] theorem modSaf_dchCmds (s : State) (g : Uzodar → Uzodar) : (s.modSaf g).dchCmds = s.dchCmds := rfl
@[simp] theorem modSaf_med (s : State) (g : Uzodar → Uzodar) : (s.modSaf g).med = s.med := rfl
@[simp] theorem modSaf_sec (s : State) (g : Uzodar → Uzodar) : (s.modSaf g).sec = s.sec := rfl
@[simp] theorem modSaf_can0 (s : State) (g : Uzodar → Uzodar) : (s.modSaf g).can0 = s.can0 := rfl
@[simp] theorem modSaf_can1 (s : State) (g : Uzodar → Uzodar) : (s.modSaf g).can1 = s.can1 := rfl
@[simp] theorem modSaf_canFrom (s : State) (g : Uzodar → Uzodar) : (s.modSaf g).canFrom = s.canFrom := rfl
@[simp] theorem modSaf_canBase (s : State) (g : Uzodar → Uzodar) : (s.modSaf g).canBase = s.canBase := rfl
@[simp] theorem modSaf_hkp (s : State) (g : Uzodar → Uzodar) : (s.modSaf g).hkp = s.hkp := rfl
@[simp] theorem modSaf_sram (s : State) (g : Uzodar → Uzodar) : (s.modSaf g).sram = s.sram := rfl
@[simp] theorem modSaf_outbox (s : State) (g : Uzodar → Uzodar) : (s.modSaf g).outbox = s.outbox := rfl
@[simp] theorem modSaf_fresh (s : State) (g : Uzodar → Uzodar) : (s.modSaf g).fresh = s.fresh := rfl
@[simp] theorem modSaf_pending (s : State) (g : Uzodar → Uzodar) : (s.modSaf g).pending = s.pending := rfl

/-! ## `adc` -/

@[simp] theorem modAdc_now (s : State) (g : Adc → Adc) : (s.modAdc g).now = s.now := rfl
@[simp] theorem modAdc_ct (s : State) (g : Adc → Adc) : (s.modAdc g).ct = s.ct := rfl
@[simp] theorem modAdc_ctFine (s : State) (g : Adc → Adc) : (s.modAdc g).ctFine = s.ctFine := rfl
@[simp] theorem modAdc_regs (s : State) (g : Adc → Adc) : (s.modAdc g).regs = s.regs := rfl
@[simp] theorem modAdc_sets (s : State) (g : Adc → Adc) : (s.modAdc g).sets = s.sets := rfl
@[simp] theorem modAdc_power (s : State) (g : Adc → Adc) : (s.modAdc g).power = s.power := rfl
@[simp] theorem modAdc_pins (s : State) (g : Adc → Adc) : (s.modAdc g).pins = s.pins := rfl
@[simp] theorem modAdc_saf (s : State) (g : Adc → Adc) : (s.modAdc g).saf = s.saf := rfl
@[simp] theorem modAdc_uzs (s : State) (g : Adc → Adc) : (s.modAdc g).uzs = s.uzs := rfl
@[simp] theorem modAdc_hif (s : State) (g : Adc → Adc) : (s.modAdc g).hif = s.hif := rfl
@[simp] theorem modAdc_cores (s : State) (g : Adc → Adc) : (s.modAdc g).cores = s.cores := rfl
@[simp] theorem modAdc_jrn (s : State) (g : Adc → Adc) : (s.modAdc g).jrn = s.jrn := rfl
@[simp] theorem modAdc_chain (s : State) (g : Adc → Adc) : (s.modAdc g).chain = s.chain := rfl
@[simp] theorem modAdc_gates (s : State) (g : Adc → Adc) : (s.modAdc g).gates = s.gates := rfl
@[simp] theorem modAdc_diag (s : State) (g : Adc → Adc) : (s.modAdc g).diag = s.diag := rfl
@[simp] theorem modAdc_carriers (s : State) (g : Adc → Adc) : (s.modAdc g).carriers = s.carriers := rfl
@[simp] theorem modAdc_calFails (s : State) (g : Adc → Adc) : (s.modAdc g).calFails = s.calFails := rfl
@[simp] theorem modAdc_adc (s : State) (g : Adc → Adc) : (s.modAdc g).adc = g s.adc := rfl
@[simp] theorem modAdc_fsl (s : State) (g : Adc → Adc) : (s.modAdc g).fsl = s.fsl := rfl
@[simp] theorem modAdc_fslAx (s : State) (g : Adc → Adc) : (s.modAdc g).fslAx = s.fslAx := rfl
@[simp] theorem modAdc_poss (s : State) (g : Adc → Adc) : (s.modAdc g).poss = s.poss := rfl
@[simp] theorem modAdc_fields (s : State) (g : Adc → Adc) : (s.modAdc g).fields = s.fields := rfl
@[simp] theorem modAdc_mots (s : State) (g : Adc → Adc) : (s.modAdc g).mots = s.mots := rfl
@[simp] theorem modAdc_hovs (s : State) (g : Adc → Adc) : (s.modAdc g).hovs = s.hovs := rfl
@[simp] theorem modAdc_hovIdle (s : State) (g : Adc → Adc) : (s.modAdc g).hovIdle = s.hovIdle := rfl
@[simp] theorem modAdc_hovIdleAx (s : State) (g : Adc → Adc) : (s.modAdc g).hovIdleAx = s.hovIdleAx := rfl
@[simp] theorem modAdc_hovMail (s : State) (g : Adc → Adc) : (s.modAdc g).hovMail = s.hovMail := rfl
@[simp] theorem modAdc_recd (s : State) (g : Adc → Adc) : (s.modAdc g).recd = s.recd := rfl
@[simp] theorem modAdc_btCmd (s : State) (g : Adc → Adc) : (s.modAdc g).btCmd = s.btCmd := rfl
@[simp] theorem modAdc_dchCmds (s : State) (g : Adc → Adc) : (s.modAdc g).dchCmds = s.dchCmds := rfl
@[simp] theorem modAdc_med (s : State) (g : Adc → Adc) : (s.modAdc g).med = s.med := rfl
@[simp] theorem modAdc_sec (s : State) (g : Adc → Adc) : (s.modAdc g).sec = s.sec := rfl
@[simp] theorem modAdc_can0 (s : State) (g : Adc → Adc) : (s.modAdc g).can0 = s.can0 := rfl
@[simp] theorem modAdc_can1 (s : State) (g : Adc → Adc) : (s.modAdc g).can1 = s.can1 := rfl
@[simp] theorem modAdc_canFrom (s : State) (g : Adc → Adc) : (s.modAdc g).canFrom = s.canFrom := rfl
@[simp] theorem modAdc_canBase (s : State) (g : Adc → Adc) : (s.modAdc g).canBase = s.canBase := rfl
@[simp] theorem modAdc_hkp (s : State) (g : Adc → Adc) : (s.modAdc g).hkp = s.hkp := rfl
@[simp] theorem modAdc_sram (s : State) (g : Adc → Adc) : (s.modAdc g).sram = s.sram := rfl
@[simp] theorem modAdc_outbox (s : State) (g : Adc → Adc) : (s.modAdc g).outbox = s.outbox := rfl
@[simp] theorem modAdc_fresh (s : State) (g : Adc → Adc) : (s.modAdc g).fresh = s.fresh := rfl
@[simp] theorem modAdc_pending (s : State) (g : Adc → Adc) : (s.modAdc g).pending = s.pending := rfl

/-! ## `fsl` -/

@[simp] theorem modFsl_now (s : State) (g : Fsl → Fsl) : (s.modFsl g).now = s.now := rfl
@[simp] theorem modFsl_ct (s : State) (g : Fsl → Fsl) : (s.modFsl g).ct = s.ct := rfl
@[simp] theorem modFsl_ctFine (s : State) (g : Fsl → Fsl) : (s.modFsl g).ctFine = s.ctFine := rfl
@[simp] theorem modFsl_regs (s : State) (g : Fsl → Fsl) : (s.modFsl g).regs = s.regs := rfl
@[simp] theorem modFsl_sets (s : State) (g : Fsl → Fsl) : (s.modFsl g).sets = s.sets := rfl
@[simp] theorem modFsl_power (s : State) (g : Fsl → Fsl) : (s.modFsl g).power = s.power := rfl
@[simp] theorem modFsl_pins (s : State) (g : Fsl → Fsl) : (s.modFsl g).pins = s.pins := rfl
@[simp] theorem modFsl_saf (s : State) (g : Fsl → Fsl) : (s.modFsl g).saf = s.saf := rfl
@[simp] theorem modFsl_uzs (s : State) (g : Fsl → Fsl) : (s.modFsl g).uzs = s.uzs := rfl
@[simp] theorem modFsl_hif (s : State) (g : Fsl → Fsl) : (s.modFsl g).hif = s.hif := rfl
@[simp] theorem modFsl_cores (s : State) (g : Fsl → Fsl) : (s.modFsl g).cores = s.cores := rfl
@[simp] theorem modFsl_jrn (s : State) (g : Fsl → Fsl) : (s.modFsl g).jrn = s.jrn := rfl
@[simp] theorem modFsl_chain (s : State) (g : Fsl → Fsl) : (s.modFsl g).chain = s.chain := rfl
@[simp] theorem modFsl_gates (s : State) (g : Fsl → Fsl) : (s.modFsl g).gates = s.gates := rfl
@[simp] theorem modFsl_diag (s : State) (g : Fsl → Fsl) : (s.modFsl g).diag = s.diag := rfl
@[simp] theorem modFsl_carriers (s : State) (g : Fsl → Fsl) : (s.modFsl g).carriers = s.carriers := rfl
@[simp] theorem modFsl_calFails (s : State) (g : Fsl → Fsl) : (s.modFsl g).calFails = s.calFails := rfl
@[simp] theorem modFsl_adc (s : State) (g : Fsl → Fsl) : (s.modFsl g).adc = s.adc := rfl
@[simp] theorem modFsl_fsl (s : State) (g : Fsl → Fsl) : (s.modFsl g).fsl = g s.fsl := rfl
@[simp] theorem modFsl_fslAx (s : State) (g : Fsl → Fsl) : (s.modFsl g).fslAx = s.fslAx := rfl
@[simp] theorem modFsl_poss (s : State) (g : Fsl → Fsl) : (s.modFsl g).poss = s.poss := rfl
@[simp] theorem modFsl_fields (s : State) (g : Fsl → Fsl) : (s.modFsl g).fields = s.fields := rfl
@[simp] theorem modFsl_mots (s : State) (g : Fsl → Fsl) : (s.modFsl g).mots = s.mots := rfl
@[simp] theorem modFsl_hovs (s : State) (g : Fsl → Fsl) : (s.modFsl g).hovs = s.hovs := rfl
@[simp] theorem modFsl_hovIdle (s : State) (g : Fsl → Fsl) : (s.modFsl g).hovIdle = s.hovIdle := rfl
@[simp] theorem modFsl_hovIdleAx (s : State) (g : Fsl → Fsl) : (s.modFsl g).hovIdleAx = s.hovIdleAx := rfl
@[simp] theorem modFsl_hovMail (s : State) (g : Fsl → Fsl) : (s.modFsl g).hovMail = s.hovMail := rfl
@[simp] theorem modFsl_recd (s : State) (g : Fsl → Fsl) : (s.modFsl g).recd = s.recd := rfl
@[simp] theorem modFsl_btCmd (s : State) (g : Fsl → Fsl) : (s.modFsl g).btCmd = s.btCmd := rfl
@[simp] theorem modFsl_dchCmds (s : State) (g : Fsl → Fsl) : (s.modFsl g).dchCmds = s.dchCmds := rfl
@[simp] theorem modFsl_med (s : State) (g : Fsl → Fsl) : (s.modFsl g).med = s.med := rfl
@[simp] theorem modFsl_sec (s : State) (g : Fsl → Fsl) : (s.modFsl g).sec = s.sec := rfl
@[simp] theorem modFsl_can0 (s : State) (g : Fsl → Fsl) : (s.modFsl g).can0 = s.can0 := rfl
@[simp] theorem modFsl_can1 (s : State) (g : Fsl → Fsl) : (s.modFsl g).can1 = s.can1 := rfl
@[simp] theorem modFsl_canFrom (s : State) (g : Fsl → Fsl) : (s.modFsl g).canFrom = s.canFrom := rfl
@[simp] theorem modFsl_canBase (s : State) (g : Fsl → Fsl) : (s.modFsl g).canBase = s.canBase := rfl
@[simp] theorem modFsl_hkp (s : State) (g : Fsl → Fsl) : (s.modFsl g).hkp = s.hkp := rfl
@[simp] theorem modFsl_sram (s : State) (g : Fsl → Fsl) : (s.modFsl g).sram = s.sram := rfl
@[simp] theorem modFsl_outbox (s : State) (g : Fsl → Fsl) : (s.modFsl g).outbox = s.outbox := rfl
@[simp] theorem modFsl_fresh (s : State) (g : Fsl → Fsl) : (s.modFsl g).fresh = s.fresh := rfl
@[simp] theorem modFsl_pending (s : State) (g : Fsl → Fsl) : (s.modFsl g).pending = s.pending := rfl

/-! ## `med` -/

@[simp] theorem modMed_now (s : State) (g : Medium → Medium) : (s.modMed g).now = s.now := rfl
@[simp] theorem modMed_ct (s : State) (g : Medium → Medium) : (s.modMed g).ct = s.ct := rfl
@[simp] theorem modMed_ctFine (s : State) (g : Medium → Medium) : (s.modMed g).ctFine = s.ctFine := rfl
@[simp] theorem modMed_regs (s : State) (g : Medium → Medium) : (s.modMed g).regs = s.regs := rfl
@[simp] theorem modMed_sets (s : State) (g : Medium → Medium) : (s.modMed g).sets = s.sets := rfl
@[simp] theorem modMed_power (s : State) (g : Medium → Medium) : (s.modMed g).power = s.power := rfl
@[simp] theorem modMed_pins (s : State) (g : Medium → Medium) : (s.modMed g).pins = s.pins := rfl
@[simp] theorem modMed_saf (s : State) (g : Medium → Medium) : (s.modMed g).saf = s.saf := rfl
@[simp] theorem modMed_uzs (s : State) (g : Medium → Medium) : (s.modMed g).uzs = s.uzs := rfl
@[simp] theorem modMed_hif (s : State) (g : Medium → Medium) : (s.modMed g).hif = s.hif := rfl
@[simp] theorem modMed_cores (s : State) (g : Medium → Medium) : (s.modMed g).cores = s.cores := rfl
@[simp] theorem modMed_jrn (s : State) (g : Medium → Medium) : (s.modMed g).jrn = s.jrn := rfl
@[simp] theorem modMed_chain (s : State) (g : Medium → Medium) : (s.modMed g).chain = s.chain := rfl
@[simp] theorem modMed_gates (s : State) (g : Medium → Medium) : (s.modMed g).gates = s.gates := rfl
@[simp] theorem modMed_diag (s : State) (g : Medium → Medium) : (s.modMed g).diag = s.diag := rfl
@[simp] theorem modMed_carriers (s : State) (g : Medium → Medium) : (s.modMed g).carriers = s.carriers := rfl
@[simp] theorem modMed_calFails (s : State) (g : Medium → Medium) : (s.modMed g).calFails = s.calFails := rfl
@[simp] theorem modMed_adc (s : State) (g : Medium → Medium) : (s.modMed g).adc = s.adc := rfl
@[simp] theorem modMed_fsl (s : State) (g : Medium → Medium) : (s.modMed g).fsl = s.fsl := rfl
@[simp] theorem modMed_fslAx (s : State) (g : Medium → Medium) : (s.modMed g).fslAx = s.fslAx := rfl
@[simp] theorem modMed_poss (s : State) (g : Medium → Medium) : (s.modMed g).poss = s.poss := rfl
@[simp] theorem modMed_fields (s : State) (g : Medium → Medium) : (s.modMed g).fields = s.fields := rfl
@[simp] theorem modMed_mots (s : State) (g : Medium → Medium) : (s.modMed g).mots = s.mots := rfl
@[simp] theorem modMed_hovs (s : State) (g : Medium → Medium) : (s.modMed g).hovs = s.hovs := rfl
@[simp] theorem modMed_hovIdle (s : State) (g : Medium → Medium) : (s.modMed g).hovIdle = s.hovIdle := rfl
@[simp] theorem modMed_hovIdleAx (s : State) (g : Medium → Medium) : (s.modMed g).hovIdleAx = s.hovIdleAx := rfl
@[simp] theorem modMed_hovMail (s : State) (g : Medium → Medium) : (s.modMed g).hovMail = s.hovMail := rfl
@[simp] theorem modMed_recd (s : State) (g : Medium → Medium) : (s.modMed g).recd = s.recd := rfl
@[simp] theorem modMed_btCmd (s : State) (g : Medium → Medium) : (s.modMed g).btCmd = s.btCmd := rfl
@[simp] theorem modMed_dchCmds (s : State) (g : Medium → Medium) : (s.modMed g).dchCmds = s.dchCmds := rfl
@[simp] theorem modMed_med (s : State) (g : Medium → Medium) : (s.modMed g).med = g s.med := rfl
@[simp] theorem modMed_sec (s : State) (g : Medium → Medium) : (s.modMed g).sec = s.sec := rfl
@[simp] theorem modMed_can0 (s : State) (g : Medium → Medium) : (s.modMed g).can0 = s.can0 := rfl
@[simp] theorem modMed_can1 (s : State) (g : Medium → Medium) : (s.modMed g).can1 = s.can1 := rfl
@[simp] theorem modMed_canFrom (s : State) (g : Medium → Medium) : (s.modMed g).canFrom = s.canFrom := rfl
@[simp] theorem modMed_canBase (s : State) (g : Medium → Medium) : (s.modMed g).canBase = s.canBase := rfl
@[simp] theorem modMed_hkp (s : State) (g : Medium → Medium) : (s.modMed g).hkp = s.hkp := rfl
@[simp] theorem modMed_sram (s : State) (g : Medium → Medium) : (s.modMed g).sram = s.sram := rfl
@[simp] theorem modMed_outbox (s : State) (g : Medium → Medium) : (s.modMed g).outbox = s.outbox := rfl
@[simp] theorem modMed_fresh (s : State) (g : Medium → Medium) : (s.modMed g).fresh = s.fresh := rfl
@[simp] theorem modMed_pending (s : State) (g : Medium → Medium) : (s.modMed g).pending = s.pending := rfl

/-! ## `recd` -/

@[simp] theorem modRec_now (s : State) (g : Recorder → Recorder) : (s.modRec g).now = s.now := rfl
@[simp] theorem modRec_ct (s : State) (g : Recorder → Recorder) : (s.modRec g).ct = s.ct := rfl
@[simp] theorem modRec_ctFine (s : State) (g : Recorder → Recorder) : (s.modRec g).ctFine = s.ctFine := rfl
@[simp] theorem modRec_regs (s : State) (g : Recorder → Recorder) : (s.modRec g).regs = s.regs := rfl
@[simp] theorem modRec_sets (s : State) (g : Recorder → Recorder) : (s.modRec g).sets = s.sets := rfl
@[simp] theorem modRec_power (s : State) (g : Recorder → Recorder) : (s.modRec g).power = s.power := rfl
@[simp] theorem modRec_pins (s : State) (g : Recorder → Recorder) : (s.modRec g).pins = s.pins := rfl
@[simp] theorem modRec_saf (s : State) (g : Recorder → Recorder) : (s.modRec g).saf = s.saf := rfl
@[simp] theorem modRec_uzs (s : State) (g : Recorder → Recorder) : (s.modRec g).uzs = s.uzs := rfl
@[simp] theorem modRec_hif (s : State) (g : Recorder → Recorder) : (s.modRec g).hif = s.hif := rfl
@[simp] theorem modRec_cores (s : State) (g : Recorder → Recorder) : (s.modRec g).cores = s.cores := rfl
@[simp] theorem modRec_jrn (s : State) (g : Recorder → Recorder) : (s.modRec g).jrn = s.jrn := rfl
@[simp] theorem modRec_chain (s : State) (g : Recorder → Recorder) : (s.modRec g).chain = s.chain := rfl
@[simp] theorem modRec_gates (s : State) (g : Recorder → Recorder) : (s.modRec g).gates = s.gates := rfl
@[simp] theorem modRec_diag (s : State) (g : Recorder → Recorder) : (s.modRec g).diag = s.diag := rfl
@[simp] theorem modRec_carriers (s : State) (g : Recorder → Recorder) : (s.modRec g).carriers = s.carriers := rfl
@[simp] theorem modRec_calFails (s : State) (g : Recorder → Recorder) : (s.modRec g).calFails = s.calFails := rfl
@[simp] theorem modRec_adc (s : State) (g : Recorder → Recorder) : (s.modRec g).adc = s.adc := rfl
@[simp] theorem modRec_fsl (s : State) (g : Recorder → Recorder) : (s.modRec g).fsl = s.fsl := rfl
@[simp] theorem modRec_fslAx (s : State) (g : Recorder → Recorder) : (s.modRec g).fslAx = s.fslAx := rfl
@[simp] theorem modRec_poss (s : State) (g : Recorder → Recorder) : (s.modRec g).poss = s.poss := rfl
@[simp] theorem modRec_fields (s : State) (g : Recorder → Recorder) : (s.modRec g).fields = s.fields := rfl
@[simp] theorem modRec_mots (s : State) (g : Recorder → Recorder) : (s.modRec g).mots = s.mots := rfl
@[simp] theorem modRec_hovs (s : State) (g : Recorder → Recorder) : (s.modRec g).hovs = s.hovs := rfl
@[simp] theorem modRec_hovIdle (s : State) (g : Recorder → Recorder) : (s.modRec g).hovIdle = s.hovIdle := rfl
@[simp] theorem modRec_hovIdleAx (s : State) (g : Recorder → Recorder) : (s.modRec g).hovIdleAx = s.hovIdleAx := rfl
@[simp] theorem modRec_hovMail (s : State) (g : Recorder → Recorder) : (s.modRec g).hovMail = s.hovMail := rfl
@[simp] theorem modRec_recd (s : State) (g : Recorder → Recorder) : (s.modRec g).recd = g s.recd := rfl
@[simp] theorem modRec_btCmd (s : State) (g : Recorder → Recorder) : (s.modRec g).btCmd = s.btCmd := rfl
@[simp] theorem modRec_dchCmds (s : State) (g : Recorder → Recorder) : (s.modRec g).dchCmds = s.dchCmds := rfl
@[simp] theorem modRec_med (s : State) (g : Recorder → Recorder) : (s.modRec g).med = s.med := rfl
@[simp] theorem modRec_sec (s : State) (g : Recorder → Recorder) : (s.modRec g).sec = s.sec := rfl
@[simp] theorem modRec_can0 (s : State) (g : Recorder → Recorder) : (s.modRec g).can0 = s.can0 := rfl
@[simp] theorem modRec_can1 (s : State) (g : Recorder → Recorder) : (s.modRec g).can1 = s.can1 := rfl
@[simp] theorem modRec_canFrom (s : State) (g : Recorder → Recorder) : (s.modRec g).canFrom = s.canFrom := rfl
@[simp] theorem modRec_canBase (s : State) (g : Recorder → Recorder) : (s.modRec g).canBase = s.canBase := rfl
@[simp] theorem modRec_hkp (s : State) (g : Recorder → Recorder) : (s.modRec g).hkp = s.hkp := rfl
@[simp] theorem modRec_sram (s : State) (g : Recorder → Recorder) : (s.modRec g).sram = s.sram := rfl
@[simp] theorem modRec_outbox (s : State) (g : Recorder → Recorder) : (s.modRec g).outbox = s.outbox := rfl
@[simp] theorem modRec_fresh (s : State) (g : Recorder → Recorder) : (s.modRec g).fresh = s.fresh := rfl
@[simp] theorem modRec_pending (s : State) (g : Recorder → Recorder) : (s.modRec g).pending = s.pending := rfl

/-! ## `power` -/

@[simp] theorem modPwr_now (s : State) (g : Power → Power) : (s.modPwr g).now = s.now := rfl
@[simp] theorem modPwr_ct (s : State) (g : Power → Power) : (s.modPwr g).ct = s.ct := rfl
@[simp] theorem modPwr_ctFine (s : State) (g : Power → Power) : (s.modPwr g).ctFine = s.ctFine := rfl
@[simp] theorem modPwr_regs (s : State) (g : Power → Power) : (s.modPwr g).regs = s.regs := rfl
@[simp] theorem modPwr_sets (s : State) (g : Power → Power) : (s.modPwr g).sets = s.sets := rfl
@[simp] theorem modPwr_power (s : State) (g : Power → Power) : (s.modPwr g).power = g s.power := rfl
@[simp] theorem modPwr_pins (s : State) (g : Power → Power) : (s.modPwr g).pins = s.pins := rfl
@[simp] theorem modPwr_saf (s : State) (g : Power → Power) : (s.modPwr g).saf = s.saf := rfl
@[simp] theorem modPwr_uzs (s : State) (g : Power → Power) : (s.modPwr g).uzs = s.uzs := rfl
@[simp] theorem modPwr_hif (s : State) (g : Power → Power) : (s.modPwr g).hif = s.hif := rfl
@[simp] theorem modPwr_cores (s : State) (g : Power → Power) : (s.modPwr g).cores = s.cores := rfl
@[simp] theorem modPwr_jrn (s : State) (g : Power → Power) : (s.modPwr g).jrn = s.jrn := rfl
@[simp] theorem modPwr_chain (s : State) (g : Power → Power) : (s.modPwr g).chain = s.chain := rfl
@[simp] theorem modPwr_gates (s : State) (g : Power → Power) : (s.modPwr g).gates = s.gates := rfl
@[simp] theorem modPwr_diag (s : State) (g : Power → Power) : (s.modPwr g).diag = s.diag := rfl
@[simp] theorem modPwr_carriers (s : State) (g : Power → Power) : (s.modPwr g).carriers = s.carriers := rfl
@[simp] theorem modPwr_calFails (s : State) (g : Power → Power) : (s.modPwr g).calFails = s.calFails := rfl
@[simp] theorem modPwr_adc (s : State) (g : Power → Power) : (s.modPwr g).adc = s.adc := rfl
@[simp] theorem modPwr_fsl (s : State) (g : Power → Power) : (s.modPwr g).fsl = s.fsl := rfl
@[simp] theorem modPwr_fslAx (s : State) (g : Power → Power) : (s.modPwr g).fslAx = s.fslAx := rfl
@[simp] theorem modPwr_poss (s : State) (g : Power → Power) : (s.modPwr g).poss = s.poss := rfl
@[simp] theorem modPwr_fields (s : State) (g : Power → Power) : (s.modPwr g).fields = s.fields := rfl
@[simp] theorem modPwr_mots (s : State) (g : Power → Power) : (s.modPwr g).mots = s.mots := rfl
@[simp] theorem modPwr_hovs (s : State) (g : Power → Power) : (s.modPwr g).hovs = s.hovs := rfl
@[simp] theorem modPwr_hovIdle (s : State) (g : Power → Power) : (s.modPwr g).hovIdle = s.hovIdle := rfl
@[simp] theorem modPwr_hovIdleAx (s : State) (g : Power → Power) : (s.modPwr g).hovIdleAx = s.hovIdleAx := rfl
@[simp] theorem modPwr_hovMail (s : State) (g : Power → Power) : (s.modPwr g).hovMail = s.hovMail := rfl
@[simp] theorem modPwr_recd (s : State) (g : Power → Power) : (s.modPwr g).recd = s.recd := rfl
@[simp] theorem modPwr_btCmd (s : State) (g : Power → Power) : (s.modPwr g).btCmd = s.btCmd := rfl
@[simp] theorem modPwr_dchCmds (s : State) (g : Power → Power) : (s.modPwr g).dchCmds = s.dchCmds := rfl
@[simp] theorem modPwr_med (s : State) (g : Power → Power) : (s.modPwr g).med = s.med := rfl
@[simp] theorem modPwr_sec (s : State) (g : Power → Power) : (s.modPwr g).sec = s.sec := rfl
@[simp] theorem modPwr_can0 (s : State) (g : Power → Power) : (s.modPwr g).can0 = s.can0 := rfl
@[simp] theorem modPwr_can1 (s : State) (g : Power → Power) : (s.modPwr g).can1 = s.can1 := rfl
@[simp] theorem modPwr_canFrom (s : State) (g : Power → Power) : (s.modPwr g).canFrom = s.canFrom := rfl
@[simp] theorem modPwr_canBase (s : State) (g : Power → Power) : (s.modPwr g).canBase = s.canBase := rfl
@[simp] theorem modPwr_hkp (s : State) (g : Power → Power) : (s.modPwr g).hkp = s.hkp := rfl
@[simp] theorem modPwr_sram (s : State) (g : Power → Power) : (s.modPwr g).sram = s.sram := rfl
@[simp] theorem modPwr_outbox (s : State) (g : Power → Power) : (s.modPwr g).outbox = s.outbox := rfl
@[simp] theorem modPwr_fresh (s : State) (g : Power → Power) : (s.modPwr g).fresh = s.fresh := rfl
@[simp] theorem modPwr_pending (s : State) (g : Power → Power) : (s.modPwr g).pending = s.pending := rfl

/-! ## `sec` -/

@[simp] theorem modSec_now (s : State) (g : Security → Security) : (s.modSec g).now = s.now := rfl
@[simp] theorem modSec_ct (s : State) (g : Security → Security) : (s.modSec g).ct = s.ct := rfl
@[simp] theorem modSec_ctFine (s : State) (g : Security → Security) : (s.modSec g).ctFine = s.ctFine := rfl
@[simp] theorem modSec_regs (s : State) (g : Security → Security) : (s.modSec g).regs = s.regs := rfl
@[simp] theorem modSec_sets (s : State) (g : Security → Security) : (s.modSec g).sets = s.sets := rfl
@[simp] theorem modSec_power (s : State) (g : Security → Security) : (s.modSec g).power = s.power := rfl
@[simp] theorem modSec_pins (s : State) (g : Security → Security) : (s.modSec g).pins = s.pins := rfl
@[simp] theorem modSec_saf (s : State) (g : Security → Security) : (s.modSec g).saf = s.saf := rfl
@[simp] theorem modSec_uzs (s : State) (g : Security → Security) : (s.modSec g).uzs = s.uzs := rfl
@[simp] theorem modSec_hif (s : State) (g : Security → Security) : (s.modSec g).hif = s.hif := rfl
@[simp] theorem modSec_cores (s : State) (g : Security → Security) : (s.modSec g).cores = s.cores := rfl
@[simp] theorem modSec_jrn (s : State) (g : Security → Security) : (s.modSec g).jrn = s.jrn := rfl
@[simp] theorem modSec_chain (s : State) (g : Security → Security) : (s.modSec g).chain = s.chain := rfl
@[simp] theorem modSec_gates (s : State) (g : Security → Security) : (s.modSec g).gates = s.gates := rfl
@[simp] theorem modSec_diag (s : State) (g : Security → Security) : (s.modSec g).diag = s.diag := rfl
@[simp] theorem modSec_carriers (s : State) (g : Security → Security) : (s.modSec g).carriers = s.carriers := rfl
@[simp] theorem modSec_calFails (s : State) (g : Security → Security) : (s.modSec g).calFails = s.calFails := rfl
@[simp] theorem modSec_adc (s : State) (g : Security → Security) : (s.modSec g).adc = s.adc := rfl
@[simp] theorem modSec_fsl (s : State) (g : Security → Security) : (s.modSec g).fsl = s.fsl := rfl
@[simp] theorem modSec_fslAx (s : State) (g : Security → Security) : (s.modSec g).fslAx = s.fslAx := rfl
@[simp] theorem modSec_poss (s : State) (g : Security → Security) : (s.modSec g).poss = s.poss := rfl
@[simp] theorem modSec_fields (s : State) (g : Security → Security) : (s.modSec g).fields = s.fields := rfl
@[simp] theorem modSec_mots (s : State) (g : Security → Security) : (s.modSec g).mots = s.mots := rfl
@[simp] theorem modSec_hovs (s : State) (g : Security → Security) : (s.modSec g).hovs = s.hovs := rfl
@[simp] theorem modSec_hovIdle (s : State) (g : Security → Security) : (s.modSec g).hovIdle = s.hovIdle := rfl
@[simp] theorem modSec_hovIdleAx (s : State) (g : Security → Security) : (s.modSec g).hovIdleAx = s.hovIdleAx := rfl
@[simp] theorem modSec_hovMail (s : State) (g : Security → Security) : (s.modSec g).hovMail = s.hovMail := rfl
@[simp] theorem modSec_recd (s : State) (g : Security → Security) : (s.modSec g).recd = s.recd := rfl
@[simp] theorem modSec_btCmd (s : State) (g : Security → Security) : (s.modSec g).btCmd = s.btCmd := rfl
@[simp] theorem modSec_dchCmds (s : State) (g : Security → Security) : (s.modSec g).dchCmds = s.dchCmds := rfl
@[simp] theorem modSec_med (s : State) (g : Security → Security) : (s.modSec g).med = s.med := rfl
@[simp] theorem modSec_sec (s : State) (g : Security → Security) : (s.modSec g).sec = g s.sec := rfl
@[simp] theorem modSec_can0 (s : State) (g : Security → Security) : (s.modSec g).can0 = s.can0 := rfl
@[simp] theorem modSec_can1 (s : State) (g : Security → Security) : (s.modSec g).can1 = s.can1 := rfl
@[simp] theorem modSec_canFrom (s : State) (g : Security → Security) : (s.modSec g).canFrom = s.canFrom := rfl
@[simp] theorem modSec_canBase (s : State) (g : Security → Security) : (s.modSec g).canBase = s.canBase := rfl
@[simp] theorem modSec_hkp (s : State) (g : Security → Security) : (s.modSec g).hkp = s.hkp := rfl
@[simp] theorem modSec_sram (s : State) (g : Security → Security) : (s.modSec g).sram = s.sram := rfl
@[simp] theorem modSec_outbox (s : State) (g : Security → Security) : (s.modSec g).outbox = s.outbox := rfl
@[simp] theorem modSec_fresh (s : State) (g : Security → Security) : (s.modSec g).fresh = s.fresh := rfl
@[simp] theorem modSec_pending (s : State) (g : Security → Security) : (s.modSec g).pending = s.pending := rfl

/-! ## `hif` -/

@[simp] theorem modHif_now (s : State) (g : HostIf → HostIf) : (s.modHif g).now = s.now := rfl
@[simp] theorem modHif_ct (s : State) (g : HostIf → HostIf) : (s.modHif g).ct = s.ct := rfl
@[simp] theorem modHif_ctFine (s : State) (g : HostIf → HostIf) : (s.modHif g).ctFine = s.ctFine := rfl
@[simp] theorem modHif_regs (s : State) (g : HostIf → HostIf) : (s.modHif g).regs = s.regs := rfl
@[simp] theorem modHif_sets (s : State) (g : HostIf → HostIf) : (s.modHif g).sets = s.sets := rfl
@[simp] theorem modHif_power (s : State) (g : HostIf → HostIf) : (s.modHif g).power = s.power := rfl
@[simp] theorem modHif_pins (s : State) (g : HostIf → HostIf) : (s.modHif g).pins = s.pins := rfl
@[simp] theorem modHif_saf (s : State) (g : HostIf → HostIf) : (s.modHif g).saf = s.saf := rfl
@[simp] theorem modHif_uzs (s : State) (g : HostIf → HostIf) : (s.modHif g).uzs = s.uzs := rfl
@[simp] theorem modHif_hif (s : State) (g : HostIf → HostIf) : (s.modHif g).hif = g s.hif := rfl
@[simp] theorem modHif_cores (s : State) (g : HostIf → HostIf) : (s.modHif g).cores = s.cores := rfl
@[simp] theorem modHif_jrn (s : State) (g : HostIf → HostIf) : (s.modHif g).jrn = s.jrn := rfl
@[simp] theorem modHif_chain (s : State) (g : HostIf → HostIf) : (s.modHif g).chain = s.chain := rfl
@[simp] theorem modHif_gates (s : State) (g : HostIf → HostIf) : (s.modHif g).gates = s.gates := rfl
@[simp] theorem modHif_diag (s : State) (g : HostIf → HostIf) : (s.modHif g).diag = s.diag := rfl
@[simp] theorem modHif_carriers (s : State) (g : HostIf → HostIf) : (s.modHif g).carriers = s.carriers := rfl
@[simp] theorem modHif_calFails (s : State) (g : HostIf → HostIf) : (s.modHif g).calFails = s.calFails := rfl
@[simp] theorem modHif_adc (s : State) (g : HostIf → HostIf) : (s.modHif g).adc = s.adc := rfl
@[simp] theorem modHif_fsl (s : State) (g : HostIf → HostIf) : (s.modHif g).fsl = s.fsl := rfl
@[simp] theorem modHif_fslAx (s : State) (g : HostIf → HostIf) : (s.modHif g).fslAx = s.fslAx := rfl
@[simp] theorem modHif_poss (s : State) (g : HostIf → HostIf) : (s.modHif g).poss = s.poss := rfl
@[simp] theorem modHif_fields (s : State) (g : HostIf → HostIf) : (s.modHif g).fields = s.fields := rfl
@[simp] theorem modHif_mots (s : State) (g : HostIf → HostIf) : (s.modHif g).mots = s.mots := rfl
@[simp] theorem modHif_hovs (s : State) (g : HostIf → HostIf) : (s.modHif g).hovs = s.hovs := rfl
@[simp] theorem modHif_hovIdle (s : State) (g : HostIf → HostIf) : (s.modHif g).hovIdle = s.hovIdle := rfl
@[simp] theorem modHif_hovIdleAx (s : State) (g : HostIf → HostIf) : (s.modHif g).hovIdleAx = s.hovIdleAx := rfl
@[simp] theorem modHif_hovMail (s : State) (g : HostIf → HostIf) : (s.modHif g).hovMail = s.hovMail := rfl
@[simp] theorem modHif_recd (s : State) (g : HostIf → HostIf) : (s.modHif g).recd = s.recd := rfl
@[simp] theorem modHif_btCmd (s : State) (g : HostIf → HostIf) : (s.modHif g).btCmd = s.btCmd := rfl
@[simp] theorem modHif_dchCmds (s : State) (g : HostIf → HostIf) : (s.modHif g).dchCmds = s.dchCmds := rfl
@[simp] theorem modHif_med (s : State) (g : HostIf → HostIf) : (s.modHif g).med = s.med := rfl
@[simp] theorem modHif_sec (s : State) (g : HostIf → HostIf) : (s.modHif g).sec = s.sec := rfl
@[simp] theorem modHif_can0 (s : State) (g : HostIf → HostIf) : (s.modHif g).can0 = s.can0 := rfl
@[simp] theorem modHif_can1 (s : State) (g : HostIf → HostIf) : (s.modHif g).can1 = s.can1 := rfl
@[simp] theorem modHif_canFrom (s : State) (g : HostIf → HostIf) : (s.modHif g).canFrom = s.canFrom := rfl
@[simp] theorem modHif_canBase (s : State) (g : HostIf → HostIf) : (s.modHif g).canBase = s.canBase := rfl
@[simp] theorem modHif_hkp (s : State) (g : HostIf → HostIf) : (s.modHif g).hkp = s.hkp := rfl
@[simp] theorem modHif_sram (s : State) (g : HostIf → HostIf) : (s.modHif g).sram = s.sram := rfl
@[simp] theorem modHif_outbox (s : State) (g : HostIf → HostIf) : (s.modHif g).outbox = s.outbox := rfl
@[simp] theorem modHif_fresh (s : State) (g : HostIf → HostIf) : (s.modHif g).fresh = s.fresh := rfl
@[simp] theorem modHif_pending (s : State) (g : HostIf → HostIf) : (s.modHif g).pending = s.pending := rfl

/-! ## `cores` -/

@[simp] theorem modCpu_now (s : State) (g : Cores → Cores) : (s.modCpu g).now = s.now := rfl
@[simp] theorem modCpu_ct (s : State) (g : Cores → Cores) : (s.modCpu g).ct = s.ct := rfl
@[simp] theorem modCpu_ctFine (s : State) (g : Cores → Cores) : (s.modCpu g).ctFine = s.ctFine := rfl
@[simp] theorem modCpu_regs (s : State) (g : Cores → Cores) : (s.modCpu g).regs = s.regs := rfl
@[simp] theorem modCpu_sets (s : State) (g : Cores → Cores) : (s.modCpu g).sets = s.sets := rfl
@[simp] theorem modCpu_power (s : State) (g : Cores → Cores) : (s.modCpu g).power = s.power := rfl
@[simp] theorem modCpu_pins (s : State) (g : Cores → Cores) : (s.modCpu g).pins = s.pins := rfl
@[simp] theorem modCpu_saf (s : State) (g : Cores → Cores) : (s.modCpu g).saf = s.saf := rfl
@[simp] theorem modCpu_uzs (s : State) (g : Cores → Cores) : (s.modCpu g).uzs = s.uzs := rfl
@[simp] theorem modCpu_hif (s : State) (g : Cores → Cores) : (s.modCpu g).hif = s.hif := rfl
@[simp] theorem modCpu_cores (s : State) (g : Cores → Cores) : (s.modCpu g).cores = g s.cores := rfl
@[simp] theorem modCpu_jrn (s : State) (g : Cores → Cores) : (s.modCpu g).jrn = s.jrn := rfl
@[simp] theorem modCpu_chain (s : State) (g : Cores → Cores) : (s.modCpu g).chain = s.chain := rfl
@[simp] theorem modCpu_gates (s : State) (g : Cores → Cores) : (s.modCpu g).gates = s.gates := rfl
@[simp] theorem modCpu_diag (s : State) (g : Cores → Cores) : (s.modCpu g).diag = s.diag := rfl
@[simp] theorem modCpu_carriers (s : State) (g : Cores → Cores) : (s.modCpu g).carriers = s.carriers := rfl
@[simp] theorem modCpu_calFails (s : State) (g : Cores → Cores) : (s.modCpu g).calFails = s.calFails := rfl
@[simp] theorem modCpu_adc (s : State) (g : Cores → Cores) : (s.modCpu g).adc = s.adc := rfl
@[simp] theorem modCpu_fsl (s : State) (g : Cores → Cores) : (s.modCpu g).fsl = s.fsl := rfl
@[simp] theorem modCpu_fslAx (s : State) (g : Cores → Cores) : (s.modCpu g).fslAx = s.fslAx := rfl
@[simp] theorem modCpu_poss (s : State) (g : Cores → Cores) : (s.modCpu g).poss = s.poss := rfl
@[simp] theorem modCpu_fields (s : State) (g : Cores → Cores) : (s.modCpu g).fields = s.fields := rfl
@[simp] theorem modCpu_mots (s : State) (g : Cores → Cores) : (s.modCpu g).mots = s.mots := rfl
@[simp] theorem modCpu_hovs (s : State) (g : Cores → Cores) : (s.modCpu g).hovs = s.hovs := rfl
@[simp] theorem modCpu_hovIdle (s : State) (g : Cores → Cores) : (s.modCpu g).hovIdle = s.hovIdle := rfl
@[simp] theorem modCpu_hovIdleAx (s : State) (g : Cores → Cores) : (s.modCpu g).hovIdleAx = s.hovIdleAx := rfl
@[simp] theorem modCpu_hovMail (s : State) (g : Cores → Cores) : (s.modCpu g).hovMail = s.hovMail := rfl
@[simp] theorem modCpu_recd (s : State) (g : Cores → Cores) : (s.modCpu g).recd = s.recd := rfl
@[simp] theorem modCpu_btCmd (s : State) (g : Cores → Cores) : (s.modCpu g).btCmd = s.btCmd := rfl
@[simp] theorem modCpu_dchCmds (s : State) (g : Cores → Cores) : (s.modCpu g).dchCmds = s.dchCmds := rfl
@[simp] theorem modCpu_med (s : State) (g : Cores → Cores) : (s.modCpu g).med = s.med := rfl
@[simp] theorem modCpu_sec (s : State) (g : Cores → Cores) : (s.modCpu g).sec = s.sec := rfl
@[simp] theorem modCpu_can0 (s : State) (g : Cores → Cores) : (s.modCpu g).can0 = s.can0 := rfl
@[simp] theorem modCpu_can1 (s : State) (g : Cores → Cores) : (s.modCpu g).can1 = s.can1 := rfl
@[simp] theorem modCpu_canFrom (s : State) (g : Cores → Cores) : (s.modCpu g).canFrom = s.canFrom := rfl
@[simp] theorem modCpu_canBase (s : State) (g : Cores → Cores) : (s.modCpu g).canBase = s.canBase := rfl
@[simp] theorem modCpu_hkp (s : State) (g : Cores → Cores) : (s.modCpu g).hkp = s.hkp := rfl
@[simp] theorem modCpu_sram (s : State) (g : Cores → Cores) : (s.modCpu g).sram = s.sram := rfl
@[simp] theorem modCpu_outbox (s : State) (g : Cores → Cores) : (s.modCpu g).outbox = s.outbox := rfl
@[simp] theorem modCpu_fresh (s : State) (g : Cores → Cores) : (s.modCpu g).fresh = s.fresh := rfl
@[simp] theorem modCpu_pending (s : State) (g : Cores → Cores) : (s.modCpu g).pending = s.pending := rfl

/-! ## `chain` -/

@[simp] theorem modChain_now (s : State) (g : Chain → Chain) : (s.modChain g).now = s.now := rfl
@[simp] theorem modChain_ct (s : State) (g : Chain → Chain) : (s.modChain g).ct = s.ct := rfl
@[simp] theorem modChain_ctFine (s : State) (g : Chain → Chain) : (s.modChain g).ctFine = s.ctFine := rfl
@[simp] theorem modChain_regs (s : State) (g : Chain → Chain) : (s.modChain g).regs = s.regs := rfl
@[simp] theorem modChain_sets (s : State) (g : Chain → Chain) : (s.modChain g).sets = s.sets := rfl
@[simp] theorem modChain_power (s : State) (g : Chain → Chain) : (s.modChain g).power = s.power := rfl
@[simp] theorem modChain_pins (s : State) (g : Chain → Chain) : (s.modChain g).pins = s.pins := rfl
@[simp] theorem modChain_saf (s : State) (g : Chain → Chain) : (s.modChain g).saf = s.saf := rfl
@[simp] theorem modChain_uzs (s : State) (g : Chain → Chain) : (s.modChain g).uzs = s.uzs := rfl
@[simp] theorem modChain_hif (s : State) (g : Chain → Chain) : (s.modChain g).hif = s.hif := rfl
@[simp] theorem modChain_cores (s : State) (g : Chain → Chain) : (s.modChain g).cores = s.cores := rfl
@[simp] theorem modChain_jrn (s : State) (g : Chain → Chain) : (s.modChain g).jrn = s.jrn := rfl
@[simp] theorem modChain_chain (s : State) (g : Chain → Chain) : (s.modChain g).chain = g s.chain := rfl
@[simp] theorem modChain_gates (s : State) (g : Chain → Chain) : (s.modChain g).gates = s.gates := rfl
@[simp] theorem modChain_diag (s : State) (g : Chain → Chain) : (s.modChain g).diag = s.diag := rfl
@[simp] theorem modChain_carriers (s : State) (g : Chain → Chain) : (s.modChain g).carriers = s.carriers := rfl
@[simp] theorem modChain_calFails (s : State) (g : Chain → Chain) : (s.modChain g).calFails = s.calFails := rfl
@[simp] theorem modChain_adc (s : State) (g : Chain → Chain) : (s.modChain g).adc = s.adc := rfl
@[simp] theorem modChain_fsl (s : State) (g : Chain → Chain) : (s.modChain g).fsl = s.fsl := rfl
@[simp] theorem modChain_fslAx (s : State) (g : Chain → Chain) : (s.modChain g).fslAx = s.fslAx := rfl
@[simp] theorem modChain_poss (s : State) (g : Chain → Chain) : (s.modChain g).poss = s.poss := rfl
@[simp] theorem modChain_fields (s : State) (g : Chain → Chain) : (s.modChain g).fields = s.fields := rfl
@[simp] theorem modChain_mots (s : State) (g : Chain → Chain) : (s.modChain g).mots = s.mots := rfl
@[simp] theorem modChain_hovs (s : State) (g : Chain → Chain) : (s.modChain g).hovs = s.hovs := rfl
@[simp] theorem modChain_hovIdle (s : State) (g : Chain → Chain) : (s.modChain g).hovIdle = s.hovIdle := rfl
@[simp] theorem modChain_hovIdleAx (s : State) (g : Chain → Chain) : (s.modChain g).hovIdleAx = s.hovIdleAx := rfl
@[simp] theorem modChain_hovMail (s : State) (g : Chain → Chain) : (s.modChain g).hovMail = s.hovMail := rfl
@[simp] theorem modChain_recd (s : State) (g : Chain → Chain) : (s.modChain g).recd = s.recd := rfl
@[simp] theorem modChain_btCmd (s : State) (g : Chain → Chain) : (s.modChain g).btCmd = s.btCmd := rfl
@[simp] theorem modChain_dchCmds (s : State) (g : Chain → Chain) : (s.modChain g).dchCmds = s.dchCmds := rfl
@[simp] theorem modChain_med (s : State) (g : Chain → Chain) : (s.modChain g).med = s.med := rfl
@[simp] theorem modChain_sec (s : State) (g : Chain → Chain) : (s.modChain g).sec = s.sec := rfl
@[simp] theorem modChain_can0 (s : State) (g : Chain → Chain) : (s.modChain g).can0 = s.can0 := rfl
@[simp] theorem modChain_can1 (s : State) (g : Chain → Chain) : (s.modChain g).can1 = s.can1 := rfl
@[simp] theorem modChain_canFrom (s : State) (g : Chain → Chain) : (s.modChain g).canFrom = s.canFrom := rfl
@[simp] theorem modChain_canBase (s : State) (g : Chain → Chain) : (s.modChain g).canBase = s.canBase := rfl
@[simp] theorem modChain_hkp (s : State) (g : Chain → Chain) : (s.modChain g).hkp = s.hkp := rfl
@[simp] theorem modChain_sram (s : State) (g : Chain → Chain) : (s.modChain g).sram = s.sram := rfl
@[simp] theorem modChain_outbox (s : State) (g : Chain → Chain) : (s.modChain g).outbox = s.outbox := rfl
@[simp] theorem modChain_fresh (s : State) (g : Chain → Chain) : (s.modChain g).fresh = s.fresh := rfl
@[simp] theorem modChain_pending (s : State) (g : Chain → Chain) : (s.modChain g).pending = s.pending := rfl

/-! ## `hkp` -/

@[simp] theorem modHkp_now (s : State) (g : Housekeeping → Housekeeping) : (s.modHkp g).now = s.now := rfl
@[simp] theorem modHkp_ct (s : State) (g : Housekeeping → Housekeeping) : (s.modHkp g).ct = s.ct := rfl
@[simp] theorem modHkp_ctFine (s : State) (g : Housekeeping → Housekeeping) : (s.modHkp g).ctFine = s.ctFine := rfl
@[simp] theorem modHkp_regs (s : State) (g : Housekeeping → Housekeeping) : (s.modHkp g).regs = s.regs := rfl
@[simp] theorem modHkp_sets (s : State) (g : Housekeeping → Housekeeping) : (s.modHkp g).sets = s.sets := rfl
@[simp] theorem modHkp_power (s : State) (g : Housekeeping → Housekeeping) : (s.modHkp g).power = s.power := rfl
@[simp] theorem modHkp_pins (s : State) (g : Housekeeping → Housekeeping) : (s.modHkp g).pins = s.pins := rfl
@[simp] theorem modHkp_saf (s : State) (g : Housekeeping → Housekeeping) : (s.modHkp g).saf = s.saf := rfl
@[simp] theorem modHkp_uzs (s : State) (g : Housekeeping → Housekeeping) : (s.modHkp g).uzs = s.uzs := rfl
@[simp] theorem modHkp_hif (s : State) (g : Housekeeping → Housekeeping) : (s.modHkp g).hif = s.hif := rfl
@[simp] theorem modHkp_cores (s : State) (g : Housekeeping → Housekeeping) : (s.modHkp g).cores = s.cores := rfl
@[simp] theorem modHkp_jrn (s : State) (g : Housekeeping → Housekeeping) : (s.modHkp g).jrn = s.jrn := rfl
@[simp] theorem modHkp_chain (s : State) (g : Housekeeping → Housekeeping) : (s.modHkp g).chain = s.chain := rfl
@[simp] theorem modHkp_gates (s : State) (g : Housekeeping → Housekeeping) : (s.modHkp g).gates = s.gates := rfl
@[simp] theorem modHkp_diag (s : State) (g : Housekeeping → Housekeeping) : (s.modHkp g).diag = s.diag := rfl
@[simp] theorem modHkp_carriers (s : State) (g : Housekeeping → Housekeeping) : (s.modHkp g).carriers = s.carriers := rfl
@[simp] theorem modHkp_calFails (s : State) (g : Housekeeping → Housekeeping) : (s.modHkp g).calFails = s.calFails := rfl
@[simp] theorem modHkp_adc (s : State) (g : Housekeeping → Housekeeping) : (s.modHkp g).adc = s.adc := rfl
@[simp] theorem modHkp_fsl (s : State) (g : Housekeeping → Housekeeping) : (s.modHkp g).fsl = s.fsl := rfl
@[simp] theorem modHkp_fslAx (s : State) (g : Housekeeping → Housekeeping) : (s.modHkp g).fslAx = s.fslAx := rfl
@[simp] theorem modHkp_poss (s : State) (g : Housekeeping → Housekeeping) : (s.modHkp g).poss = s.poss := rfl
@[simp] theorem modHkp_fields (s : State) (g : Housekeeping → Housekeeping) : (s.modHkp g).fields = s.fields := rfl
@[simp] theorem modHkp_mots (s : State) (g : Housekeeping → Housekeeping) : (s.modHkp g).mots = s.mots := rfl
@[simp] theorem modHkp_hovs (s : State) (g : Housekeeping → Housekeeping) : (s.modHkp g).hovs = s.hovs := rfl
@[simp] theorem modHkp_hovIdle (s : State) (g : Housekeeping → Housekeeping) : (s.modHkp g).hovIdle = s.hovIdle := rfl
@[simp] theorem modHkp_hovIdleAx (s : State) (g : Housekeeping → Housekeeping) : (s.modHkp g).hovIdleAx = s.hovIdleAx := rfl
@[simp] theorem modHkp_hovMail (s : State) (g : Housekeeping → Housekeeping) : (s.modHkp g).hovMail = s.hovMail := rfl
@[simp] theorem modHkp_recd (s : State) (g : Housekeeping → Housekeeping) : (s.modHkp g).recd = s.recd := rfl
@[simp] theorem modHkp_btCmd (s : State) (g : Housekeeping → Housekeeping) : (s.modHkp g).btCmd = s.btCmd := rfl
@[simp] theorem modHkp_dchCmds (s : State) (g : Housekeeping → Housekeeping) : (s.modHkp g).dchCmds = s.dchCmds := rfl
@[simp] theorem modHkp_med (s : State) (g : Housekeeping → Housekeeping) : (s.modHkp g).med = s.med := rfl
@[simp] theorem modHkp_sec (s : State) (g : Housekeeping → Housekeeping) : (s.modHkp g).sec = s.sec := rfl
@[simp] theorem modHkp_can0 (s : State) (g : Housekeeping → Housekeeping) : (s.modHkp g).can0 = s.can0 := rfl
@[simp] theorem modHkp_can1 (s : State) (g : Housekeeping → Housekeeping) : (s.modHkp g).can1 = s.can1 := rfl
@[simp] theorem modHkp_canFrom (s : State) (g : Housekeeping → Housekeeping) : (s.modHkp g).canFrom = s.canFrom := rfl
@[simp] theorem modHkp_canBase (s : State) (g : Housekeeping → Housekeeping) : (s.modHkp g).canBase = s.canBase := rfl
@[simp] theorem modHkp_hkp (s : State) (g : Housekeeping → Housekeeping) : (s.modHkp g).hkp = g s.hkp := rfl
@[simp] theorem modHkp_sram (s : State) (g : Housekeeping → Housekeeping) : (s.modHkp g).sram = s.sram := rfl
@[simp] theorem modHkp_outbox (s : State) (g : Housekeeping → Housekeeping) : (s.modHkp g).outbox = s.outbox := rfl
@[simp] theorem modHkp_fresh (s : State) (g : Housekeeping → Housekeeping) : (s.modHkp g).fresh = s.fresh := rfl
@[simp] theorem modHkp_pending (s : State) (g : Housekeeping → Housekeeping) : (s.modHkp g).pending = s.pending := rfl

/-! ## `gates` -/

@[simp] theorem modCh_now (s : State) (n : Nat) (g : GateCh → GateCh) : (s.modCh n g).now = s.now := rfl
@[simp] theorem modCh_ct (s : State) (n : Nat) (g : GateCh → GateCh) : (s.modCh n g).ct = s.ct := rfl
@[simp] theorem modCh_ctFine (s : State) (n : Nat) (g : GateCh → GateCh) : (s.modCh n g).ctFine = s.ctFine := rfl
@[simp] theorem modCh_regs (s : State) (n : Nat) (g : GateCh → GateCh) : (s.modCh n g).regs = s.regs := rfl
@[simp] theorem modCh_sets (s : State) (n : Nat) (g : GateCh → GateCh) : (s.modCh n g).sets = s.sets := rfl
@[simp] theorem modCh_power (s : State) (n : Nat) (g : GateCh → GateCh) : (s.modCh n g).power = s.power := rfl
@[simp] theorem modCh_pins (s : State) (n : Nat) (g : GateCh → GateCh) : (s.modCh n g).pins = s.pins := rfl
@[simp] theorem modCh_saf (s : State) (n : Nat) (g : GateCh → GateCh) : (s.modCh n g).saf = s.saf := rfl
@[simp] theorem modCh_uzs (s : State) (n : Nat) (g : GateCh → GateCh) : (s.modCh n g).uzs = s.uzs := rfl
@[simp] theorem modCh_hif (s : State) (n : Nat) (g : GateCh → GateCh) : (s.modCh n g).hif = s.hif := rfl
@[simp] theorem modCh_cores (s : State) (n : Nat) (g : GateCh → GateCh) : (s.modCh n g).cores = s.cores := rfl
@[simp] theorem modCh_jrn (s : State) (n : Nat) (g : GateCh → GateCh) : (s.modCh n g).jrn = s.jrn := rfl
@[simp] theorem modCh_chain (s : State) (n : Nat) (g : GateCh → GateCh) : (s.modCh n g).chain = s.chain := rfl
@[simp] theorem modCh_gates (s : State) (n : Nat) (g : GateCh → GateCh) : (s.modCh n g).gates = kvSet (fun _ => {}) s.gates n (g (s.ch n)) := rfl
@[simp] theorem modCh_diag (s : State) (n : Nat) (g : GateCh → GateCh) : (s.modCh n g).diag = s.diag := rfl
@[simp] theorem modCh_carriers (s : State) (n : Nat) (g : GateCh → GateCh) : (s.modCh n g).carriers = s.carriers := rfl
@[simp] theorem modCh_calFails (s : State) (n : Nat) (g : GateCh → GateCh) : (s.modCh n g).calFails = s.calFails := rfl
@[simp] theorem modCh_adc (s : State) (n : Nat) (g : GateCh → GateCh) : (s.modCh n g).adc = s.adc := rfl
@[simp] theorem modCh_fsl (s : State) (n : Nat) (g : GateCh → GateCh) : (s.modCh n g).fsl = s.fsl := rfl
@[simp] theorem modCh_fslAx (s : State) (n : Nat) (g : GateCh → GateCh) : (s.modCh n g).fslAx = s.fslAx := rfl
@[simp] theorem modCh_poss (s : State) (n : Nat) (g : GateCh → GateCh) : (s.modCh n g).poss = s.poss := rfl
@[simp] theorem modCh_fields (s : State) (n : Nat) (g : GateCh → GateCh) : (s.modCh n g).fields = s.fields := rfl
@[simp] theorem modCh_mots (s : State) (n : Nat) (g : GateCh → GateCh) : (s.modCh n g).mots = s.mots := rfl
@[simp] theorem modCh_hovs (s : State) (n : Nat) (g : GateCh → GateCh) : (s.modCh n g).hovs = s.hovs := rfl
@[simp] theorem modCh_hovIdle (s : State) (n : Nat) (g : GateCh → GateCh) : (s.modCh n g).hovIdle = s.hovIdle := rfl
@[simp] theorem modCh_hovIdleAx (s : State) (n : Nat) (g : GateCh → GateCh) : (s.modCh n g).hovIdleAx = s.hovIdleAx := rfl
@[simp] theorem modCh_hovMail (s : State) (n : Nat) (g : GateCh → GateCh) : (s.modCh n g).hovMail = s.hovMail := rfl
@[simp] theorem modCh_recd (s : State) (n : Nat) (g : GateCh → GateCh) : (s.modCh n g).recd = s.recd := rfl
@[simp] theorem modCh_btCmd (s : State) (n : Nat) (g : GateCh → GateCh) : (s.modCh n g).btCmd = s.btCmd := rfl
@[simp] theorem modCh_dchCmds (s : State) (n : Nat) (g : GateCh → GateCh) : (s.modCh n g).dchCmds = s.dchCmds := rfl
@[simp] theorem modCh_med (s : State) (n : Nat) (g : GateCh → GateCh) : (s.modCh n g).med = s.med := rfl
@[simp] theorem modCh_sec (s : State) (n : Nat) (g : GateCh → GateCh) : (s.modCh n g).sec = s.sec := rfl
@[simp] theorem modCh_can0 (s : State) (n : Nat) (g : GateCh → GateCh) : (s.modCh n g).can0 = s.can0 := rfl
@[simp] theorem modCh_can1 (s : State) (n : Nat) (g : GateCh → GateCh) : (s.modCh n g).can1 = s.can1 := rfl
@[simp] theorem modCh_canFrom (s : State) (n : Nat) (g : GateCh → GateCh) : (s.modCh n g).canFrom = s.canFrom := rfl
@[simp] theorem modCh_canBase (s : State) (n : Nat) (g : GateCh → GateCh) : (s.modCh n g).canBase = s.canBase := rfl
@[simp] theorem modCh_hkp (s : State) (n : Nat) (g : GateCh → GateCh) : (s.modCh n g).hkp = s.hkp := rfl
@[simp] theorem modCh_sram (s : State) (n : Nat) (g : GateCh → GateCh) : (s.modCh n g).sram = s.sram := rfl
@[simp] theorem modCh_outbox (s : State) (n : Nat) (g : GateCh → GateCh) : (s.modCh n g).outbox = s.outbox := rfl
@[simp] theorem modCh_fresh (s : State) (n : Nat) (g : GateCh → GateCh) : (s.modCh n g).fresh = s.fresh := rfl
@[simp] theorem modCh_pending (s : State) (n : Nat) (g : GateCh → GateCh) : (s.modCh n g).pending = s.pending := rfl

/-- An entry after an update of one. -/
theorem ch_modCh (s : State) (n m : Nat) (g : GateCh → GateCh) :
    (s.modCh n g).ch m = if n = m then g (s.ch n) else s.ch m := by
  simp only [ch, modCh, kvGet_kvSet]

/-! ## `carriers` -/

@[simp] theorem modCar_now (s : State) (n : Nat) (g : Carrier → Carrier) : (s.modCar n g).now = s.now := rfl
@[simp] theorem modCar_ct (s : State) (n : Nat) (g : Carrier → Carrier) : (s.modCar n g).ct = s.ct := rfl
@[simp] theorem modCar_ctFine (s : State) (n : Nat) (g : Carrier → Carrier) : (s.modCar n g).ctFine = s.ctFine := rfl
@[simp] theorem modCar_regs (s : State) (n : Nat) (g : Carrier → Carrier) : (s.modCar n g).regs = s.regs := rfl
@[simp] theorem modCar_sets (s : State) (n : Nat) (g : Carrier → Carrier) : (s.modCar n g).sets = s.sets := rfl
@[simp] theorem modCar_power (s : State) (n : Nat) (g : Carrier → Carrier) : (s.modCar n g).power = s.power := rfl
@[simp] theorem modCar_pins (s : State) (n : Nat) (g : Carrier → Carrier) : (s.modCar n g).pins = s.pins := rfl
@[simp] theorem modCar_saf (s : State) (n : Nat) (g : Carrier → Carrier) : (s.modCar n g).saf = s.saf := rfl
@[simp] theorem modCar_uzs (s : State) (n : Nat) (g : Carrier → Carrier) : (s.modCar n g).uzs = s.uzs := rfl
@[simp] theorem modCar_hif (s : State) (n : Nat) (g : Carrier → Carrier) : (s.modCar n g).hif = s.hif := rfl
@[simp] theorem modCar_cores (s : State) (n : Nat) (g : Carrier → Carrier) : (s.modCar n g).cores = s.cores := rfl
@[simp] theorem modCar_jrn (s : State) (n : Nat) (g : Carrier → Carrier) : (s.modCar n g).jrn = s.jrn := rfl
@[simp] theorem modCar_chain (s : State) (n : Nat) (g : Carrier → Carrier) : (s.modCar n g).chain = s.chain := rfl
@[simp] theorem modCar_gates (s : State) (n : Nat) (g : Carrier → Carrier) : (s.modCar n g).gates = s.gates := rfl
@[simp] theorem modCar_diag (s : State) (n : Nat) (g : Carrier → Carrier) : (s.modCar n g).diag = s.diag := rfl
@[simp] theorem modCar_carriers (s : State) (n : Nat) (g : Carrier → Carrier) : (s.modCar n g).carriers = kvSet (fun _ => {}) s.carriers n (g (s.car n)) := rfl
@[simp] theorem modCar_calFails (s : State) (n : Nat) (g : Carrier → Carrier) : (s.modCar n g).calFails = s.calFails := rfl
@[simp] theorem modCar_adc (s : State) (n : Nat) (g : Carrier → Carrier) : (s.modCar n g).adc = s.adc := rfl
@[simp] theorem modCar_fsl (s : State) (n : Nat) (g : Carrier → Carrier) : (s.modCar n g).fsl = s.fsl := rfl
@[simp] theorem modCar_fslAx (s : State) (n : Nat) (g : Carrier → Carrier) : (s.modCar n g).fslAx = s.fslAx := rfl
@[simp] theorem modCar_poss (s : State) (n : Nat) (g : Carrier → Carrier) : (s.modCar n g).poss = s.poss := rfl
@[simp] theorem modCar_fields (s : State) (n : Nat) (g : Carrier → Carrier) : (s.modCar n g).fields = s.fields := rfl
@[simp] theorem modCar_mots (s : State) (n : Nat) (g : Carrier → Carrier) : (s.modCar n g).mots = s.mots := rfl
@[simp] theorem modCar_hovs (s : State) (n : Nat) (g : Carrier → Carrier) : (s.modCar n g).hovs = s.hovs := rfl
@[simp] theorem modCar_hovIdle (s : State) (n : Nat) (g : Carrier → Carrier) : (s.modCar n g).hovIdle = s.hovIdle := rfl
@[simp] theorem modCar_hovIdleAx (s : State) (n : Nat) (g : Carrier → Carrier) : (s.modCar n g).hovIdleAx = s.hovIdleAx := rfl
@[simp] theorem modCar_hovMail (s : State) (n : Nat) (g : Carrier → Carrier) : (s.modCar n g).hovMail = s.hovMail := rfl
@[simp] theorem modCar_recd (s : State) (n : Nat) (g : Carrier → Carrier) : (s.modCar n g).recd = s.recd := rfl
@[simp] theorem modCar_btCmd (s : State) (n : Nat) (g : Carrier → Carrier) : (s.modCar n g).btCmd = s.btCmd := rfl
@[simp] theorem modCar_dchCmds (s : State) (n : Nat) (g : Carrier → Carrier) : (s.modCar n g).dchCmds = s.dchCmds := rfl
@[simp] theorem modCar_med (s : State) (n : Nat) (g : Carrier → Carrier) : (s.modCar n g).med = s.med := rfl
@[simp] theorem modCar_sec (s : State) (n : Nat) (g : Carrier → Carrier) : (s.modCar n g).sec = s.sec := rfl
@[simp] theorem modCar_can0 (s : State) (n : Nat) (g : Carrier → Carrier) : (s.modCar n g).can0 = s.can0 := rfl
@[simp] theorem modCar_can1 (s : State) (n : Nat) (g : Carrier → Carrier) : (s.modCar n g).can1 = s.can1 := rfl
@[simp] theorem modCar_canFrom (s : State) (n : Nat) (g : Carrier → Carrier) : (s.modCar n g).canFrom = s.canFrom := rfl
@[simp] theorem modCar_canBase (s : State) (n : Nat) (g : Carrier → Carrier) : (s.modCar n g).canBase = s.canBase := rfl
@[simp] theorem modCar_hkp (s : State) (n : Nat) (g : Carrier → Carrier) : (s.modCar n g).hkp = s.hkp := rfl
@[simp] theorem modCar_sram (s : State) (n : Nat) (g : Carrier → Carrier) : (s.modCar n g).sram = s.sram := rfl
@[simp] theorem modCar_outbox (s : State) (n : Nat) (g : Carrier → Carrier) : (s.modCar n g).outbox = s.outbox := rfl
@[simp] theorem modCar_fresh (s : State) (n : Nat) (g : Carrier → Carrier) : (s.modCar n g).fresh = s.fresh := rfl
@[simp] theorem modCar_pending (s : State) (n : Nat) (g : Carrier → Carrier) : (s.modCar n g).pending = s.pending := rfl

/-- An entry after an update of one. -/
theorem car_modCar (s : State) (n m : Nat) (g : Carrier → Carrier) :
    (s.modCar n g).car m = if n = m then g (s.car n) else s.car m := by
  simp only [car, modCar, kvGet_kvSet]

/-! ## `poss` -/

@[simp] theorem modPos_now (s : State) (n : Nat) (g : PosIf → PosIf) : (s.modPos n g).now = s.now := rfl
@[simp] theorem modPos_ct (s : State) (n : Nat) (g : PosIf → PosIf) : (s.modPos n g).ct = s.ct := rfl
@[simp] theorem modPos_ctFine (s : State) (n : Nat) (g : PosIf → PosIf) : (s.modPos n g).ctFine = s.ctFine := rfl
@[simp] theorem modPos_regs (s : State) (n : Nat) (g : PosIf → PosIf) : (s.modPos n g).regs = s.regs := rfl
@[simp] theorem modPos_sets (s : State) (n : Nat) (g : PosIf → PosIf) : (s.modPos n g).sets = s.sets := rfl
@[simp] theorem modPos_power (s : State) (n : Nat) (g : PosIf → PosIf) : (s.modPos n g).power = s.power := rfl
@[simp] theorem modPos_pins (s : State) (n : Nat) (g : PosIf → PosIf) : (s.modPos n g).pins = s.pins := rfl
@[simp] theorem modPos_saf (s : State) (n : Nat) (g : PosIf → PosIf) : (s.modPos n g).saf = s.saf := rfl
@[simp] theorem modPos_uzs (s : State) (n : Nat) (g : PosIf → PosIf) : (s.modPos n g).uzs = s.uzs := rfl
@[simp] theorem modPos_hif (s : State) (n : Nat) (g : PosIf → PosIf) : (s.modPos n g).hif = s.hif := rfl
@[simp] theorem modPos_cores (s : State) (n : Nat) (g : PosIf → PosIf) : (s.modPos n g).cores = s.cores := rfl
@[simp] theorem modPos_jrn (s : State) (n : Nat) (g : PosIf → PosIf) : (s.modPos n g).jrn = s.jrn := rfl
@[simp] theorem modPos_chain (s : State) (n : Nat) (g : PosIf → PosIf) : (s.modPos n g).chain = s.chain := rfl
@[simp] theorem modPos_gates (s : State) (n : Nat) (g : PosIf → PosIf) : (s.modPos n g).gates = s.gates := rfl
@[simp] theorem modPos_diag (s : State) (n : Nat) (g : PosIf → PosIf) : (s.modPos n g).diag = s.diag := rfl
@[simp] theorem modPos_carriers (s : State) (n : Nat) (g : PosIf → PosIf) : (s.modPos n g).carriers = s.carriers := rfl
@[simp] theorem modPos_calFails (s : State) (n : Nat) (g : PosIf → PosIf) : (s.modPos n g).calFails = s.calFails := rfl
@[simp] theorem modPos_adc (s : State) (n : Nat) (g : PosIf → PosIf) : (s.modPos n g).adc = s.adc := rfl
@[simp] theorem modPos_fsl (s : State) (n : Nat) (g : PosIf → PosIf) : (s.modPos n g).fsl = s.fsl := rfl
@[simp] theorem modPos_fslAx (s : State) (n : Nat) (g : PosIf → PosIf) : (s.modPos n g).fslAx = s.fslAx := rfl
@[simp] theorem modPos_poss (s : State) (n : Nat) (g : PosIf → PosIf) : (s.modPos n g).poss = kvSet (fun _ => {}) s.poss n (g (s.pos n)) := rfl
@[simp] theorem modPos_fields (s : State) (n : Nat) (g : PosIf → PosIf) : (s.modPos n g).fields = s.fields := rfl
@[simp] theorem modPos_mots (s : State) (n : Nat) (g : PosIf → PosIf) : (s.modPos n g).mots = s.mots := rfl
@[simp] theorem modPos_hovs (s : State) (n : Nat) (g : PosIf → PosIf) : (s.modPos n g).hovs = s.hovs := rfl
@[simp] theorem modPos_hovIdle (s : State) (n : Nat) (g : PosIf → PosIf) : (s.modPos n g).hovIdle = s.hovIdle := rfl
@[simp] theorem modPos_hovIdleAx (s : State) (n : Nat) (g : PosIf → PosIf) : (s.modPos n g).hovIdleAx = s.hovIdleAx := rfl
@[simp] theorem modPos_hovMail (s : State) (n : Nat) (g : PosIf → PosIf) : (s.modPos n g).hovMail = s.hovMail := rfl
@[simp] theorem modPos_recd (s : State) (n : Nat) (g : PosIf → PosIf) : (s.modPos n g).recd = s.recd := rfl
@[simp] theorem modPos_btCmd (s : State) (n : Nat) (g : PosIf → PosIf) : (s.modPos n g).btCmd = s.btCmd := rfl
@[simp] theorem modPos_dchCmds (s : State) (n : Nat) (g : PosIf → PosIf) : (s.modPos n g).dchCmds = s.dchCmds := rfl
@[simp] theorem modPos_med (s : State) (n : Nat) (g : PosIf → PosIf) : (s.modPos n g).med = s.med := rfl
@[simp] theorem modPos_sec (s : State) (n : Nat) (g : PosIf → PosIf) : (s.modPos n g).sec = s.sec := rfl
@[simp] theorem modPos_can0 (s : State) (n : Nat) (g : PosIf → PosIf) : (s.modPos n g).can0 = s.can0 := rfl
@[simp] theorem modPos_can1 (s : State) (n : Nat) (g : PosIf → PosIf) : (s.modPos n g).can1 = s.can1 := rfl
@[simp] theorem modPos_canFrom (s : State) (n : Nat) (g : PosIf → PosIf) : (s.modPos n g).canFrom = s.canFrom := rfl
@[simp] theorem modPos_canBase (s : State) (n : Nat) (g : PosIf → PosIf) : (s.modPos n g).canBase = s.canBase := rfl
@[simp] theorem modPos_hkp (s : State) (n : Nat) (g : PosIf → PosIf) : (s.modPos n g).hkp = s.hkp := rfl
@[simp] theorem modPos_sram (s : State) (n : Nat) (g : PosIf → PosIf) : (s.modPos n g).sram = s.sram := rfl
@[simp] theorem modPos_outbox (s : State) (n : Nat) (g : PosIf → PosIf) : (s.modPos n g).outbox = s.outbox := rfl
@[simp] theorem modPos_fresh (s : State) (n : Nat) (g : PosIf → PosIf) : (s.modPos n g).fresh = s.fresh := rfl
@[simp] theorem modPos_pending (s : State) (n : Nat) (g : PosIf → PosIf) : (s.modPos n g).pending = s.pending := rfl

/-- An entry after an update of one. -/
theorem pos_modPos (s : State) (n m : Nat) (g : PosIf → PosIf) :
    (s.modPos n g).pos m = if n = m then g (s.pos n) else s.pos m := by
  simp only [pos, modPos, kvGet_kvSet]

/-! ## `fields` -/

@[simp] theorem modFc_now (s : State) (n : Nat) (g : FieldAxis → FieldAxis) : (s.modFc n g).now = s.now := rfl
@[simp] theorem modFc_ct (s : State) (n : Nat) (g : FieldAxis → FieldAxis) : (s.modFc n g).ct = s.ct := rfl
@[simp] theorem modFc_ctFine (s : State) (n : Nat) (g : FieldAxis → FieldAxis) : (s.modFc n g).ctFine = s.ctFine := rfl
@[simp] theorem modFc_regs (s : State) (n : Nat) (g : FieldAxis → FieldAxis) : (s.modFc n g).regs = s.regs := rfl
@[simp] theorem modFc_sets (s : State) (n : Nat) (g : FieldAxis → FieldAxis) : (s.modFc n g).sets = s.sets := rfl
@[simp] theorem modFc_power (s : State) (n : Nat) (g : FieldAxis → FieldAxis) : (s.modFc n g).power = s.power := rfl
@[simp] theorem modFc_pins (s : State) (n : Nat) (g : FieldAxis → FieldAxis) : (s.modFc n g).pins = s.pins := rfl
@[simp] theorem modFc_saf (s : State) (n : Nat) (g : FieldAxis → FieldAxis) : (s.modFc n g).saf = s.saf := rfl
@[simp] theorem modFc_uzs (s : State) (n : Nat) (g : FieldAxis → FieldAxis) : (s.modFc n g).uzs = s.uzs := rfl
@[simp] theorem modFc_hif (s : State) (n : Nat) (g : FieldAxis → FieldAxis) : (s.modFc n g).hif = s.hif := rfl
@[simp] theorem modFc_cores (s : State) (n : Nat) (g : FieldAxis → FieldAxis) : (s.modFc n g).cores = s.cores := rfl
@[simp] theorem modFc_jrn (s : State) (n : Nat) (g : FieldAxis → FieldAxis) : (s.modFc n g).jrn = s.jrn := rfl
@[simp] theorem modFc_chain (s : State) (n : Nat) (g : FieldAxis → FieldAxis) : (s.modFc n g).chain = s.chain := rfl
@[simp] theorem modFc_gates (s : State) (n : Nat) (g : FieldAxis → FieldAxis) : (s.modFc n g).gates = s.gates := rfl
@[simp] theorem modFc_diag (s : State) (n : Nat) (g : FieldAxis → FieldAxis) : (s.modFc n g).diag = s.diag := rfl
@[simp] theorem modFc_carriers (s : State) (n : Nat) (g : FieldAxis → FieldAxis) : (s.modFc n g).carriers = s.carriers := rfl
@[simp] theorem modFc_calFails (s : State) (n : Nat) (g : FieldAxis → FieldAxis) : (s.modFc n g).calFails = s.calFails := rfl
@[simp] theorem modFc_adc (s : State) (n : Nat) (g : FieldAxis → FieldAxis) : (s.modFc n g).adc = s.adc := rfl
@[simp] theorem modFc_fsl (s : State) (n : Nat) (g : FieldAxis → FieldAxis) : (s.modFc n g).fsl = s.fsl := rfl
@[simp] theorem modFc_fslAx (s : State) (n : Nat) (g : FieldAxis → FieldAxis) : (s.modFc n g).fslAx = s.fslAx := rfl
@[simp] theorem modFc_poss (s : State) (n : Nat) (g : FieldAxis → FieldAxis) : (s.modFc n g).poss = s.poss := rfl
@[simp] theorem modFc_fields (s : State) (n : Nat) (g : FieldAxis → FieldAxis) : (s.modFc n g).fields = kvSet (fun _ => {}) s.fields n (g (s.fc n)) := rfl
@[simp] theorem modFc_mots (s : State) (n : Nat) (g : FieldAxis → FieldAxis) : (s.modFc n g).mots = s.mots := rfl
@[simp] theorem modFc_hovs (s : State) (n : Nat) (g : FieldAxis → FieldAxis) : (s.modFc n g).hovs = s.hovs := rfl
@[simp] theorem modFc_hovIdle (s : State) (n : Nat) (g : FieldAxis → FieldAxis) : (s.modFc n g).hovIdle = s.hovIdle := rfl
@[simp] theorem modFc_hovIdleAx (s : State) (n : Nat) (g : FieldAxis → FieldAxis) : (s.modFc n g).hovIdleAx = s.hovIdleAx := rfl
@[simp] theorem modFc_hovMail (s : State) (n : Nat) (g : FieldAxis → FieldAxis) : (s.modFc n g).hovMail = s.hovMail := rfl
@[simp] theorem modFc_recd (s : State) (n : Nat) (g : FieldAxis → FieldAxis) : (s.modFc n g).recd = s.recd := rfl
@[simp] theorem modFc_btCmd (s : State) (n : Nat) (g : FieldAxis → FieldAxis) : (s.modFc n g).btCmd = s.btCmd := rfl
@[simp] theorem modFc_dchCmds (s : State) (n : Nat) (g : FieldAxis → FieldAxis) : (s.modFc n g).dchCmds = s.dchCmds := rfl
@[simp] theorem modFc_med (s : State) (n : Nat) (g : FieldAxis → FieldAxis) : (s.modFc n g).med = s.med := rfl
@[simp] theorem modFc_sec (s : State) (n : Nat) (g : FieldAxis → FieldAxis) : (s.modFc n g).sec = s.sec := rfl
@[simp] theorem modFc_can0 (s : State) (n : Nat) (g : FieldAxis → FieldAxis) : (s.modFc n g).can0 = s.can0 := rfl
@[simp] theorem modFc_can1 (s : State) (n : Nat) (g : FieldAxis → FieldAxis) : (s.modFc n g).can1 = s.can1 := rfl
@[simp] theorem modFc_canFrom (s : State) (n : Nat) (g : FieldAxis → FieldAxis) : (s.modFc n g).canFrom = s.canFrom := rfl
@[simp] theorem modFc_canBase (s : State) (n : Nat) (g : FieldAxis → FieldAxis) : (s.modFc n g).canBase = s.canBase := rfl
@[simp] theorem modFc_hkp (s : State) (n : Nat) (g : FieldAxis → FieldAxis) : (s.modFc n g).hkp = s.hkp := rfl
@[simp] theorem modFc_sram (s : State) (n : Nat) (g : FieldAxis → FieldAxis) : (s.modFc n g).sram = s.sram := rfl
@[simp] theorem modFc_outbox (s : State) (n : Nat) (g : FieldAxis → FieldAxis) : (s.modFc n g).outbox = s.outbox := rfl
@[simp] theorem modFc_fresh (s : State) (n : Nat) (g : FieldAxis → FieldAxis) : (s.modFc n g).fresh = s.fresh := rfl
@[simp] theorem modFc_pending (s : State) (n : Nat) (g : FieldAxis → FieldAxis) : (s.modFc n g).pending = s.pending := rfl

/-- An entry after an update of one. -/
theorem fc_modFc (s : State) (n m : Nat) (g : FieldAxis → FieldAxis) :
    (s.modFc n g).fc m = if n = m then g (s.fc n) else s.fc m := by
  simp only [fc, modFc, kvGet_kvSet]

/-! ## `mots` -/

@[simp] theorem modMot_now (s : State) (n : Nat) (g : MotAxis → MotAxis) : (s.modMot n g).now = s.now := rfl
@[simp] theorem modMot_ct (s : State) (n : Nat) (g : MotAxis → MotAxis) : (s.modMot n g).ct = s.ct := rfl
@[simp] theorem modMot_ctFine (s : State) (n : Nat) (g : MotAxis → MotAxis) : (s.modMot n g).ctFine = s.ctFine := rfl
@[simp] theorem modMot_regs (s : State) (n : Nat) (g : MotAxis → MotAxis) : (s.modMot n g).regs = s.regs := rfl
@[simp] theorem modMot_sets (s : State) (n : Nat) (g : MotAxis → MotAxis) : (s.modMot n g).sets = s.sets := rfl
@[simp] theorem modMot_power (s : State) (n : Nat) (g : MotAxis → MotAxis) : (s.modMot n g).power = s.power := rfl
@[simp] theorem modMot_pins (s : State) (n : Nat) (g : MotAxis → MotAxis) : (s.modMot n g).pins = s.pins := rfl
@[simp] theorem modMot_saf (s : State) (n : Nat) (g : MotAxis → MotAxis) : (s.modMot n g).saf = s.saf := rfl
@[simp] theorem modMot_uzs (s : State) (n : Nat) (g : MotAxis → MotAxis) : (s.modMot n g).uzs = s.uzs := rfl
@[simp] theorem modMot_hif (s : State) (n : Nat) (g : MotAxis → MotAxis) : (s.modMot n g).hif = s.hif := rfl
@[simp] theorem modMot_cores (s : State) (n : Nat) (g : MotAxis → MotAxis) : (s.modMot n g).cores = s.cores := rfl
@[simp] theorem modMot_jrn (s : State) (n : Nat) (g : MotAxis → MotAxis) : (s.modMot n g).jrn = s.jrn := rfl
@[simp] theorem modMot_chain (s : State) (n : Nat) (g : MotAxis → MotAxis) : (s.modMot n g).chain = s.chain := rfl
@[simp] theorem modMot_gates (s : State) (n : Nat) (g : MotAxis → MotAxis) : (s.modMot n g).gates = s.gates := rfl
@[simp] theorem modMot_diag (s : State) (n : Nat) (g : MotAxis → MotAxis) : (s.modMot n g).diag = s.diag := rfl
@[simp] theorem modMot_carriers (s : State) (n : Nat) (g : MotAxis → MotAxis) : (s.modMot n g).carriers = s.carriers := rfl
@[simp] theorem modMot_calFails (s : State) (n : Nat) (g : MotAxis → MotAxis) : (s.modMot n g).calFails = s.calFails := rfl
@[simp] theorem modMot_adc (s : State) (n : Nat) (g : MotAxis → MotAxis) : (s.modMot n g).adc = s.adc := rfl
@[simp] theorem modMot_fsl (s : State) (n : Nat) (g : MotAxis → MotAxis) : (s.modMot n g).fsl = s.fsl := rfl
@[simp] theorem modMot_fslAx (s : State) (n : Nat) (g : MotAxis → MotAxis) : (s.modMot n g).fslAx = s.fslAx := rfl
@[simp] theorem modMot_poss (s : State) (n : Nat) (g : MotAxis → MotAxis) : (s.modMot n g).poss = s.poss := rfl
@[simp] theorem modMot_fields (s : State) (n : Nat) (g : MotAxis → MotAxis) : (s.modMot n g).fields = s.fields := rfl
@[simp] theorem modMot_mots (s : State) (n : Nat) (g : MotAxis → MotAxis) : (s.modMot n g).mots = kvSet (fun _ => {}) s.mots n (g (s.mot n)) := rfl
@[simp] theorem modMot_hovs (s : State) (n : Nat) (g : MotAxis → MotAxis) : (s.modMot n g).hovs = s.hovs := rfl
@[simp] theorem modMot_hovIdle (s : State) (n : Nat) (g : MotAxis → MotAxis) : (s.modMot n g).hovIdle = s.hovIdle := rfl
@[simp] theorem modMot_hovIdleAx (s : State) (n : Nat) (g : MotAxis → MotAxis) : (s.modMot n g).hovIdleAx = s.hovIdleAx := rfl
@[simp] theorem modMot_hovMail (s : State) (n : Nat) (g : MotAxis → MotAxis) : (s.modMot n g).hovMail = s.hovMail := rfl
@[simp] theorem modMot_recd (s : State) (n : Nat) (g : MotAxis → MotAxis) : (s.modMot n g).recd = s.recd := rfl
@[simp] theorem modMot_btCmd (s : State) (n : Nat) (g : MotAxis → MotAxis) : (s.modMot n g).btCmd = s.btCmd := rfl
@[simp] theorem modMot_dchCmds (s : State) (n : Nat) (g : MotAxis → MotAxis) : (s.modMot n g).dchCmds = s.dchCmds := rfl
@[simp] theorem modMot_med (s : State) (n : Nat) (g : MotAxis → MotAxis) : (s.modMot n g).med = s.med := rfl
@[simp] theorem modMot_sec (s : State) (n : Nat) (g : MotAxis → MotAxis) : (s.modMot n g).sec = s.sec := rfl
@[simp] theorem modMot_can0 (s : State) (n : Nat) (g : MotAxis → MotAxis) : (s.modMot n g).can0 = s.can0 := rfl
@[simp] theorem modMot_can1 (s : State) (n : Nat) (g : MotAxis → MotAxis) : (s.modMot n g).can1 = s.can1 := rfl
@[simp] theorem modMot_canFrom (s : State) (n : Nat) (g : MotAxis → MotAxis) : (s.modMot n g).canFrom = s.canFrom := rfl
@[simp] theorem modMot_canBase (s : State) (n : Nat) (g : MotAxis → MotAxis) : (s.modMot n g).canBase = s.canBase := rfl
@[simp] theorem modMot_hkp (s : State) (n : Nat) (g : MotAxis → MotAxis) : (s.modMot n g).hkp = s.hkp := rfl
@[simp] theorem modMot_sram (s : State) (n : Nat) (g : MotAxis → MotAxis) : (s.modMot n g).sram = s.sram := rfl
@[simp] theorem modMot_outbox (s : State) (n : Nat) (g : MotAxis → MotAxis) : (s.modMot n g).outbox = s.outbox := rfl
@[simp] theorem modMot_fresh (s : State) (n : Nat) (g : MotAxis → MotAxis) : (s.modMot n g).fresh = s.fresh := rfl
@[simp] theorem modMot_pending (s : State) (n : Nat) (g : MotAxis → MotAxis) : (s.modMot n g).pending = s.pending := rfl

/-- An entry after an update of one. -/
theorem mot_modMot (s : State) (n m : Nat) (g : MotAxis → MotAxis) :
    (s.modMot n g).mot m = if n = m then g (s.mot n) else s.mot m := by
  simp only [mot, modMot, kvGet_kvSet]

/-! ## `hovs` -/

@[simp] theorem modHov_now (s : State) (n : Nat) (g : HovAxis → HovAxis) : (s.modHov n g).now = s.now := rfl
@[simp] theorem modHov_ct (s : State) (n : Nat) (g : HovAxis → HovAxis) : (s.modHov n g).ct = s.ct := rfl
@[simp] theorem modHov_ctFine (s : State) (n : Nat) (g : HovAxis → HovAxis) : (s.modHov n g).ctFine = s.ctFine := rfl
@[simp] theorem modHov_regs (s : State) (n : Nat) (g : HovAxis → HovAxis) : (s.modHov n g).regs = s.regs := rfl
@[simp] theorem modHov_sets (s : State) (n : Nat) (g : HovAxis → HovAxis) : (s.modHov n g).sets = s.sets := rfl
@[simp] theorem modHov_power (s : State) (n : Nat) (g : HovAxis → HovAxis) : (s.modHov n g).power = s.power := rfl
@[simp] theorem modHov_pins (s : State) (n : Nat) (g : HovAxis → HovAxis) : (s.modHov n g).pins = s.pins := rfl
@[simp] theorem modHov_saf (s : State) (n : Nat) (g : HovAxis → HovAxis) : (s.modHov n g).saf = s.saf := rfl
@[simp] theorem modHov_uzs (s : State) (n : Nat) (g : HovAxis → HovAxis) : (s.modHov n g).uzs = s.uzs := rfl
@[simp] theorem modHov_hif (s : State) (n : Nat) (g : HovAxis → HovAxis) : (s.modHov n g).hif = s.hif := rfl
@[simp] theorem modHov_cores (s : State) (n : Nat) (g : HovAxis → HovAxis) : (s.modHov n g).cores = s.cores := rfl
@[simp] theorem modHov_jrn (s : State) (n : Nat) (g : HovAxis → HovAxis) : (s.modHov n g).jrn = s.jrn := rfl
@[simp] theorem modHov_chain (s : State) (n : Nat) (g : HovAxis → HovAxis) : (s.modHov n g).chain = s.chain := rfl
@[simp] theorem modHov_gates (s : State) (n : Nat) (g : HovAxis → HovAxis) : (s.modHov n g).gates = s.gates := rfl
@[simp] theorem modHov_diag (s : State) (n : Nat) (g : HovAxis → HovAxis) : (s.modHov n g).diag = s.diag := rfl
@[simp] theorem modHov_carriers (s : State) (n : Nat) (g : HovAxis → HovAxis) : (s.modHov n g).carriers = s.carriers := rfl
@[simp] theorem modHov_calFails (s : State) (n : Nat) (g : HovAxis → HovAxis) : (s.modHov n g).calFails = s.calFails := rfl
@[simp] theorem modHov_adc (s : State) (n : Nat) (g : HovAxis → HovAxis) : (s.modHov n g).adc = s.adc := rfl
@[simp] theorem modHov_fsl (s : State) (n : Nat) (g : HovAxis → HovAxis) : (s.modHov n g).fsl = s.fsl := rfl
@[simp] theorem modHov_fslAx (s : State) (n : Nat) (g : HovAxis → HovAxis) : (s.modHov n g).fslAx = s.fslAx := rfl
@[simp] theorem modHov_poss (s : State) (n : Nat) (g : HovAxis → HovAxis) : (s.modHov n g).poss = s.poss := rfl
@[simp] theorem modHov_fields (s : State) (n : Nat) (g : HovAxis → HovAxis) : (s.modHov n g).fields = s.fields := rfl
@[simp] theorem modHov_mots (s : State) (n : Nat) (g : HovAxis → HovAxis) : (s.modHov n g).mots = s.mots := rfl
@[simp] theorem modHov_hovs (s : State) (n : Nat) (g : HovAxis → HovAxis) : (s.modHov n g).hovs = kvSet (fun _ => {}) s.hovs n (g (s.hov n)) := rfl
@[simp] theorem modHov_hovIdle (s : State) (n : Nat) (g : HovAxis → HovAxis) : (s.modHov n g).hovIdle = s.hovIdle := rfl
@[simp] theorem modHov_hovIdleAx (s : State) (n : Nat) (g : HovAxis → HovAxis) : (s.modHov n g).hovIdleAx = s.hovIdleAx := rfl
@[simp] theorem modHov_hovMail (s : State) (n : Nat) (g : HovAxis → HovAxis) : (s.modHov n g).hovMail = s.hovMail := rfl
@[simp] theorem modHov_recd (s : State) (n : Nat) (g : HovAxis → HovAxis) : (s.modHov n g).recd = s.recd := rfl
@[simp] theorem modHov_btCmd (s : State) (n : Nat) (g : HovAxis → HovAxis) : (s.modHov n g).btCmd = s.btCmd := rfl
@[simp] theorem modHov_dchCmds (s : State) (n : Nat) (g : HovAxis → HovAxis) : (s.modHov n g).dchCmds = s.dchCmds := rfl
@[simp] theorem modHov_med (s : State) (n : Nat) (g : HovAxis → HovAxis) : (s.modHov n g).med = s.med := rfl
@[simp] theorem modHov_sec (s : State) (n : Nat) (g : HovAxis → HovAxis) : (s.modHov n g).sec = s.sec := rfl
@[simp] theorem modHov_can0 (s : State) (n : Nat) (g : HovAxis → HovAxis) : (s.modHov n g).can0 = s.can0 := rfl
@[simp] theorem modHov_can1 (s : State) (n : Nat) (g : HovAxis → HovAxis) : (s.modHov n g).can1 = s.can1 := rfl
@[simp] theorem modHov_canFrom (s : State) (n : Nat) (g : HovAxis → HovAxis) : (s.modHov n g).canFrom = s.canFrom := rfl
@[simp] theorem modHov_canBase (s : State) (n : Nat) (g : HovAxis → HovAxis) : (s.modHov n g).canBase = s.canBase := rfl
@[simp] theorem modHov_hkp (s : State) (n : Nat) (g : HovAxis → HovAxis) : (s.modHov n g).hkp = s.hkp := rfl
@[simp] theorem modHov_sram (s : State) (n : Nat) (g : HovAxis → HovAxis) : (s.modHov n g).sram = s.sram := rfl
@[simp] theorem modHov_outbox (s : State) (n : Nat) (g : HovAxis → HovAxis) : (s.modHov n g).outbox = s.outbox := rfl
@[simp] theorem modHov_fresh (s : State) (n : Nat) (g : HovAxis → HovAxis) : (s.modHov n g).fresh = s.fresh := rfl
@[simp] theorem modHov_pending (s : State) (n : Nat) (g : HovAxis → HovAxis) : (s.modHov n g).pending = s.pending := rfl

/-- An entry after an update of one. -/
theorem hov_modHov (s : State) (n m : Nat) (g : HovAxis → HovAxis) :
    (s.modHov n g).hov m = if n = m then g (s.hov n) else s.hov m := by
  simp only [hov, modHov, kvGet_kvSet]

/-! ## `uzs` -/

@[simp] theorem modUz_now (s : State) (n : Nat) (g : UzAxis → UzAxis) : (s.modUz n g).now = s.now := rfl
@[simp] theorem modUz_ct (s : State) (n : Nat) (g : UzAxis → UzAxis) : (s.modUz n g).ct = s.ct := rfl
@[simp] theorem modUz_ctFine (s : State) (n : Nat) (g : UzAxis → UzAxis) : (s.modUz n g).ctFine = s.ctFine := rfl
@[simp] theorem modUz_regs (s : State) (n : Nat) (g : UzAxis → UzAxis) : (s.modUz n g).regs = s.regs := rfl
@[simp] theorem modUz_sets (s : State) (n : Nat) (g : UzAxis → UzAxis) : (s.modUz n g).sets = s.sets := rfl
@[simp] theorem modUz_power (s : State) (n : Nat) (g : UzAxis → UzAxis) : (s.modUz n g).power = s.power := rfl
@[simp] theorem modUz_pins (s : State) (n : Nat) (g : UzAxis → UzAxis) : (s.modUz n g).pins = s.pins := rfl
@[simp] theorem modUz_saf (s : State) (n : Nat) (g : UzAxis → UzAxis) : (s.modUz n g).saf = s.saf := rfl
@[simp] theorem modUz_uzs (s : State) (n : Nat) (g : UzAxis → UzAxis) : (s.modUz n g).uzs = kvSet (fun _ => {}) s.uzs n (g (s.uzAx n)) := rfl
@[simp] theorem modUz_hif (s : State) (n : Nat) (g : UzAxis → UzAxis) : (s.modUz n g).hif = s.hif := rfl
@[simp] theorem modUz_cores (s : State) (n : Nat) (g : UzAxis → UzAxis) : (s.modUz n g).cores = s.cores := rfl
@[simp] theorem modUz_jrn (s : State) (n : Nat) (g : UzAxis → UzAxis) : (s.modUz n g).jrn = s.jrn := rfl
@[simp] theorem modUz_chain (s : State) (n : Nat) (g : UzAxis → UzAxis) : (s.modUz n g).chain = s.chain := rfl
@[simp] theorem modUz_gates (s : State) (n : Nat) (g : UzAxis → UzAxis) : (s.modUz n g).gates = s.gates := rfl
@[simp] theorem modUz_diag (s : State) (n : Nat) (g : UzAxis → UzAxis) : (s.modUz n g).diag = s.diag := rfl
@[simp] theorem modUz_carriers (s : State) (n : Nat) (g : UzAxis → UzAxis) : (s.modUz n g).carriers = s.carriers := rfl
@[simp] theorem modUz_calFails (s : State) (n : Nat) (g : UzAxis → UzAxis) : (s.modUz n g).calFails = s.calFails := rfl
@[simp] theorem modUz_adc (s : State) (n : Nat) (g : UzAxis → UzAxis) : (s.modUz n g).adc = s.adc := rfl
@[simp] theorem modUz_fsl (s : State) (n : Nat) (g : UzAxis → UzAxis) : (s.modUz n g).fsl = s.fsl := rfl
@[simp] theorem modUz_fslAx (s : State) (n : Nat) (g : UzAxis → UzAxis) : (s.modUz n g).fslAx = s.fslAx := rfl
@[simp] theorem modUz_poss (s : State) (n : Nat) (g : UzAxis → UzAxis) : (s.modUz n g).poss = s.poss := rfl
@[simp] theorem modUz_fields (s : State) (n : Nat) (g : UzAxis → UzAxis) : (s.modUz n g).fields = s.fields := rfl
@[simp] theorem modUz_mots (s : State) (n : Nat) (g : UzAxis → UzAxis) : (s.modUz n g).mots = s.mots := rfl
@[simp] theorem modUz_hovs (s : State) (n : Nat) (g : UzAxis → UzAxis) : (s.modUz n g).hovs = s.hovs := rfl
@[simp] theorem modUz_hovIdle (s : State) (n : Nat) (g : UzAxis → UzAxis) : (s.modUz n g).hovIdle = s.hovIdle := rfl
@[simp] theorem modUz_hovIdleAx (s : State) (n : Nat) (g : UzAxis → UzAxis) : (s.modUz n g).hovIdleAx = s.hovIdleAx := rfl
@[simp] theorem modUz_hovMail (s : State) (n : Nat) (g : UzAxis → UzAxis) : (s.modUz n g).hovMail = s.hovMail := rfl
@[simp] theorem modUz_recd (s : State) (n : Nat) (g : UzAxis → UzAxis) : (s.modUz n g).recd = s.recd := rfl
@[simp] theorem modUz_btCmd (s : State) (n : Nat) (g : UzAxis → UzAxis) : (s.modUz n g).btCmd = s.btCmd := rfl
@[simp] theorem modUz_dchCmds (s : State) (n : Nat) (g : UzAxis → UzAxis) : (s.modUz n g).dchCmds = s.dchCmds := rfl
@[simp] theorem modUz_med (s : State) (n : Nat) (g : UzAxis → UzAxis) : (s.modUz n g).med = s.med := rfl
@[simp] theorem modUz_sec (s : State) (n : Nat) (g : UzAxis → UzAxis) : (s.modUz n g).sec = s.sec := rfl
@[simp] theorem modUz_can0 (s : State) (n : Nat) (g : UzAxis → UzAxis) : (s.modUz n g).can0 = s.can0 := rfl
@[simp] theorem modUz_can1 (s : State) (n : Nat) (g : UzAxis → UzAxis) : (s.modUz n g).can1 = s.can1 := rfl
@[simp] theorem modUz_canFrom (s : State) (n : Nat) (g : UzAxis → UzAxis) : (s.modUz n g).canFrom = s.canFrom := rfl
@[simp] theorem modUz_canBase (s : State) (n : Nat) (g : UzAxis → UzAxis) : (s.modUz n g).canBase = s.canBase := rfl
@[simp] theorem modUz_hkp (s : State) (n : Nat) (g : UzAxis → UzAxis) : (s.modUz n g).hkp = s.hkp := rfl
@[simp] theorem modUz_sram (s : State) (n : Nat) (g : UzAxis → UzAxis) : (s.modUz n g).sram = s.sram := rfl
@[simp] theorem modUz_outbox (s : State) (n : Nat) (g : UzAxis → UzAxis) : (s.modUz n g).outbox = s.outbox := rfl
@[simp] theorem modUz_fresh (s : State) (n : Nat) (g : UzAxis → UzAxis) : (s.modUz n g).fresh = s.fresh := rfl
@[simp] theorem modUz_pending (s : State) (n : Nat) (g : UzAxis → UzAxis) : (s.modUz n g).pending = s.pending := rfl

/-- An entry after an update of one. -/
theorem uzAx_modUz (s : State) (n m : Nat) (g : UzAxis → UzAxis) :
    (s.modUz n g).uzAx m = if n = m then g (s.uzAx n) else s.uzAx m := by
  simp only [uzAx, modUz, kvGet_kvSet]

/-! ## `fslAx` -/

@[simp] theorem modFsa_now (s : State) (n : Nat) (g : FslAxis → FslAxis) : (s.modFsa n g).now = s.now := rfl
@[simp] theorem modFsa_ct (s : State) (n : Nat) (g : FslAxis → FslAxis) : (s.modFsa n g).ct = s.ct := rfl
@[simp] theorem modFsa_ctFine (s : State) (n : Nat) (g : FslAxis → FslAxis) : (s.modFsa n g).ctFine = s.ctFine := rfl
@[simp] theorem modFsa_regs (s : State) (n : Nat) (g : FslAxis → FslAxis) : (s.modFsa n g).regs = s.regs := rfl
@[simp] theorem modFsa_sets (s : State) (n : Nat) (g : FslAxis → FslAxis) : (s.modFsa n g).sets = s.sets := rfl
@[simp] theorem modFsa_power (s : State) (n : Nat) (g : FslAxis → FslAxis) : (s.modFsa n g).power = s.power := rfl
@[simp] theorem modFsa_pins (s : State) (n : Nat) (g : FslAxis → FslAxis) : (s.modFsa n g).pins = s.pins := rfl
@[simp] theorem modFsa_saf (s : State) (n : Nat) (g : FslAxis → FslAxis) : (s.modFsa n g).saf = s.saf := rfl
@[simp] theorem modFsa_uzs (s : State) (n : Nat) (g : FslAxis → FslAxis) : (s.modFsa n g).uzs = s.uzs := rfl
@[simp] theorem modFsa_hif (s : State) (n : Nat) (g : FslAxis → FslAxis) : (s.modFsa n g).hif = s.hif := rfl
@[simp] theorem modFsa_cores (s : State) (n : Nat) (g : FslAxis → FslAxis) : (s.modFsa n g).cores = s.cores := rfl
@[simp] theorem modFsa_jrn (s : State) (n : Nat) (g : FslAxis → FslAxis) : (s.modFsa n g).jrn = s.jrn := rfl
@[simp] theorem modFsa_chain (s : State) (n : Nat) (g : FslAxis → FslAxis) : (s.modFsa n g).chain = s.chain := rfl
@[simp] theorem modFsa_gates (s : State) (n : Nat) (g : FslAxis → FslAxis) : (s.modFsa n g).gates = s.gates := rfl
@[simp] theorem modFsa_diag (s : State) (n : Nat) (g : FslAxis → FslAxis) : (s.modFsa n g).diag = s.diag := rfl
@[simp] theorem modFsa_carriers (s : State) (n : Nat) (g : FslAxis → FslAxis) : (s.modFsa n g).carriers = s.carriers := rfl
@[simp] theorem modFsa_calFails (s : State) (n : Nat) (g : FslAxis → FslAxis) : (s.modFsa n g).calFails = s.calFails := rfl
@[simp] theorem modFsa_adc (s : State) (n : Nat) (g : FslAxis → FslAxis) : (s.modFsa n g).adc = s.adc := rfl
@[simp] theorem modFsa_fsl (s : State) (n : Nat) (g : FslAxis → FslAxis) : (s.modFsa n g).fsl = s.fsl := rfl
@[simp] theorem modFsa_fslAx (s : State) (n : Nat) (g : FslAxis → FslAxis) : (s.modFsa n g).fslAx = kvSet (fun _ => {}) s.fslAx n (g (s.fsa n)) := rfl
@[simp] theorem modFsa_poss (s : State) (n : Nat) (g : FslAxis → FslAxis) : (s.modFsa n g).poss = s.poss := rfl
@[simp] theorem modFsa_fields (s : State) (n : Nat) (g : FslAxis → FslAxis) : (s.modFsa n g).fields = s.fields := rfl
@[simp] theorem modFsa_mots (s : State) (n : Nat) (g : FslAxis → FslAxis) : (s.modFsa n g).mots = s.mots := rfl
@[simp] theorem modFsa_hovs (s : State) (n : Nat) (g : FslAxis → FslAxis) : (s.modFsa n g).hovs = s.hovs := rfl
@[simp] theorem modFsa_hovIdle (s : State) (n : Nat) (g : FslAxis → FslAxis) : (s.modFsa n g).hovIdle = s.hovIdle := rfl
@[simp] theorem modFsa_hovIdleAx (s : State) (n : Nat) (g : FslAxis → FslAxis) : (s.modFsa n g).hovIdleAx = s.hovIdleAx := rfl
@[simp] theorem modFsa_hovMail (s : State) (n : Nat) (g : FslAxis → FslAxis) : (s.modFsa n g).hovMail = s.hovMail := rfl
@[simp] theorem modFsa_recd (s : State) (n : Nat) (g : FslAxis → FslAxis) : (s.modFsa n g).recd = s.recd := rfl
@[simp] theorem modFsa_btCmd (s : State) (n : Nat) (g : FslAxis → FslAxis) : (s.modFsa n g).btCmd = s.btCmd := rfl
@[simp] theorem modFsa_dchCmds (s : State) (n : Nat) (g : FslAxis → FslAxis) : (s.modFsa n g).dchCmds = s.dchCmds := rfl
@[simp] theorem modFsa_med (s : State) (n : Nat) (g : FslAxis → FslAxis) : (s.modFsa n g).med = s.med := rfl
@[simp] theorem modFsa_sec (s : State) (n : Nat) (g : FslAxis → FslAxis) : (s.modFsa n g).sec = s.sec := rfl
@[simp] theorem modFsa_can0 (s : State) (n : Nat) (g : FslAxis → FslAxis) : (s.modFsa n g).can0 = s.can0 := rfl
@[simp] theorem modFsa_can1 (s : State) (n : Nat) (g : FslAxis → FslAxis) : (s.modFsa n g).can1 = s.can1 := rfl
@[simp] theorem modFsa_canFrom (s : State) (n : Nat) (g : FslAxis → FslAxis) : (s.modFsa n g).canFrom = s.canFrom := rfl
@[simp] theorem modFsa_canBase (s : State) (n : Nat) (g : FslAxis → FslAxis) : (s.modFsa n g).canBase = s.canBase := rfl
@[simp] theorem modFsa_hkp (s : State) (n : Nat) (g : FslAxis → FslAxis) : (s.modFsa n g).hkp = s.hkp := rfl
@[simp] theorem modFsa_sram (s : State) (n : Nat) (g : FslAxis → FslAxis) : (s.modFsa n g).sram = s.sram := rfl
@[simp] theorem modFsa_outbox (s : State) (n : Nat) (g : FslAxis → FslAxis) : (s.modFsa n g).outbox = s.outbox := rfl
@[simp] theorem modFsa_fresh (s : State) (n : Nat) (g : FslAxis → FslAxis) : (s.modFsa n g).fresh = s.fresh := rfl
@[simp] theorem modFsa_pending (s : State) (n : Nat) (g : FslAxis → FslAxis) : (s.modFsa n g).pending = s.pending := rfl

/-- An entry after an update of one. -/
theorem fsa_modFsa (s : State) (n m : Nat) (g : FslAxis → FslAxis) :
    (s.modFsa n g).fsa m = if n = m then g (s.fsa n) else s.fsa m := by
  simp only [fsa, modFsa, kvGet_kvSet]

/-! ## Registers and their fields -/

/-- A register after a field of one was written. -/
theorem reg_wr (s : State) (f : Fld) (v o : Nat) :
    (s.wr f v).reg o = if f.off = o then f.put (s.reg f.off) v else s.reg o := by
  simp only [wr, reg, kvGet_kvSet]

/-- A field of another register is as it was. -/
theorem rd_wr_other (s : State) (f g : Fld) (v : Nat) (h : f.off ≠ g.off) : (s.wr f v).rd g = s.rd g := by
  simp only [rd, reg_wr, if_neg h]

/-- The field that was written reads as the value's low bits. -/
theorem rd_wr_same (s : State) (f : Fld) (v : Nat) (h : f.lo + f.w ≤ 32) : (s.wr f v).rd f = v % 2 ^ f.w := by
  simp only [rd, reg_wr, if_true, Fld.put, Fld.get, BitVec.toNat_ofNat]
  generalize (s.reg f.off).toNat = x
  have h1 : v % 2 ^ f.w < 2 ^ f.w := Nat.mod_lt _ (Nat.two_pow_pos _)
  have h2 : x % 2 ^ f.lo < 2 ^ f.lo := Nat.mod_lt _ (Nat.two_pow_pos _)
  have e : (x / 2 ^ (f.lo + f.w) * 2 ^ (f.lo + f.w) + v % 2 ^ f.w * 2 ^ f.lo + x % 2 ^ f.lo) =
      x % 2 ^ f.lo + 2 ^ f.lo * (v % 2 ^ f.w + 2 ^ f.w * (x / 2 ^ (f.lo + f.w))) := by
    rw [pow_add]; ring
  obtain ⟨d, hd⟩ := Nat.exists_eq_add_of_le h
  have p : (2 : Nat) ^ 32 = 2 ^ f.lo * (2 ^ f.w * 2 ^ d) := by rw [hd, pow_add, pow_add]; ring
  rw [e, p, Nat.mod_mul_right_div_self, Nat.add_mul_div_left _ _ (Nat.two_pow_pos _), Nat.div_eq_of_lt h2, Nat.zero_add,
    Nat.mod_mod_of_dvd _ (Dvd.intro _ rfl), Nat.add_mul_mod_self_left, Nat.mod_eq_of_lt h1]

/-- Another field of a register that was written is as it was. -/
theorem rd_wr_apart (s : State) (f g : Fld) (v : Nat) (hf : f.lo + f.w ≤ 32)
    (h : f.lo + f.w ≤ g.lo ∨ g.lo + g.w ≤ f.lo) : (s.wr f v).rd g = s.rd g := by
  by_cases ho : f.off = g.off
  · simp only [rd, reg_wr, ho, if_true, Fld.put, Fld.get, BitVec.toNat_ofNat]
    have hx := (s.reg g.off).isLt
    generalize (s.reg g.off).toNat = x at hx ⊢
    have h1 : v % 2 ^ f.w < 2 ^ f.w := Nat.mod_lt _ (Nat.two_pow_pos _)
    have h2 : x % 2 ^ f.lo < 2 ^ f.lo := Nat.mod_lt _ (Nat.two_pow_pos _)
    generalize v % 2 ^ f.w = m at h1 ⊢
    have low : m * 2 ^ f.lo + x % 2 ^ f.lo < 2 ^ (f.lo + f.w) := by
      calc _ < m * 2 ^ f.lo + 2 ^ f.lo := by omega
        _ = (m + 1) * 2 ^ f.lo := by ring
        _ ≤ 2 ^ f.w * 2 ^ f.lo := Nat.mul_le_mul_right _ h1
        _ = _ := by rw [Nat.pow_add, Nat.mul_comm]
    obtain ⟨d, hd⟩ := Nat.exists_eq_add_of_le hf
    have top : x / 2 ^ (f.lo + f.w) < 2 ^ d := by
      rw [Nat.div_lt_iff_lt_mul (Nat.two_pow_pos _), ← Nat.pow_add, Nat.add_comm d, ← hd]; exact hx
    have hy : x / 2 ^ (f.lo + f.w) * 2 ^ (f.lo + f.w) + m * 2 ^ f.lo + x % 2 ^ f.lo < 2 ^ 32 := by
      rw [hd, Nat.pow_add 2 (f.lo + f.w) d, Nat.mul_comm (2 ^ (f.lo + f.w)) (2 ^ d)]
      calc _ < (x / 2 ^ (f.lo + f.w) + 1) * 2 ^ (f.lo + f.w) := by rw [Nat.add_mul]; omega
        _ ≤ _ := Nat.mul_le_mul_right _ top
    rw [Nat.mod_eq_of_lt hy]
    rcases h with h | h
    · obtain ⟨e, he⟩ := Nat.exists_eq_add_of_le h
      rw [he, Nat.pow_add 2 (f.lo + f.w) e, ← Nat.div_div_eq_div_mul, ← Nat.div_div_eq_div_mul, Nat.add_assoc,
        Nat.mul_comm _ (2 ^ (f.lo + f.w)), Nat.mul_add_div (Nat.two_pow_pos _), Nat.div_eq_of_lt low, Nat.add_zero]
    · rw [← Nat.mod_mul_right_div_self, ← Nat.mod_mul_right_div_self, ← Nat.pow_add]
      have hdvd : 2 ^ (g.lo + g.w) ∣ 2 ^ f.lo := Nat.pow_dvd_pow 2 h
      have e : (x / 2 ^ (f.lo + f.w) * 2 ^ (f.lo + f.w) + m * 2 ^ f.lo + x % 2 ^ f.lo) =
          x % 2 ^ f.lo + 2 ^ f.lo * (m + 2 ^ f.w * (x / 2 ^ (f.lo + f.w))) := by
        rw [Nat.pow_add]; ring
      rw [e, ← Nat.mod_mod_of_dvd _ hdvd, Nat.add_mul_mod_self_left, Nat.mod_mod, Nat.mod_mod_of_dvd _ hdvd]
  · exact rd_wr_other s f g v ho

end Sys2Proof.Machine.State
end

