-- ==== Sys2Proof/Laws/Access.lean ====
section
/-!
SUPPORT. The laws of the accesses of initiators: where a register read ends, which words a read of a LO word freezes, and
which bytes a write with byte enables changes.
-/

namespace Sys2Proof.Machine

/-- A read of a powered offset outside BOOT, case by case (R4, R446, R565). -/
theorem State.readReg_plain (x : State) (who off : Nat) (h0 : off < 0x120000) (h1 : off / 4 * 4 = off)
    (h2 : x.blockPowered (off / 0x10000) = true)
    (h3 : x.rd F.SYS_MODE_PHASE ≠ 1) (h4 : off ≠ R.SYS_MODE) (h5 : x.granted who (off / 0x10000)) : x.readReg who off =
  if 0x48000 ≤ off ∧ off < 0x50000 then x.apertureRead who ((off - 0x48000) / 32) (off % 32 / 4)
  else if 0xD1000 ≤ off ∧ off < 0xD3000 then (memWord x.chain.rxq (off - 0xD1000), x)
  else if off = R.FSL_MEM_DATA then
    let r := x.memWindow none .ok
    (r.1.getD 0#32, r.2)
  else if (findRow off).isNone then (0#32, x)
  else x.frozenRead who off := by
  have h3' : (x.rd F.SYS_MODE_PHASE == 1) = false := by simpa using h3
  have h4' : (off == R.SYS_MODE) = false := by simpa using h4
  unfold State.readReg
  simp only [h1, h4', h2, h3', h5.1, h5.2, decide_eq_false (show ¬ 0x120000 ≤ off by omega), Bool.not_true, Bool.or_false, Bool.false_and, Bool.and_false, Bool.false_or, Bool.or_self, Bool.false_eq_true, if_false]

/-- Both words of a pair of R570 are plain registers of the index. -/
theorem State.freezes_plain (lo hi : Nat) (h : hi ∈ State.freezes lo) : lo < 0x120000 ∧ hi < 0x120000 ∧ lo % 4 = 0 ∧ hi % 4 = 0 ∧ ¬ (0x48000 ≤ lo ∧ lo < 0x50000) ∧ ¬ (0x48000 ≤ hi ∧ hi < 0x50000) ∧
   ¬ (0xD1000 ≤ lo ∧ lo < 0xD3000) ∧ ¬ (0xD1000 ≤ hi ∧ hi < 0xD3000) ∧ lo ≠ R.FSL_MEM_DATA ∧ hi ≠ R.FSL_MEM_DATA ∧ lo ≠ R.SYS_MODE ∧ hi ≠ R.SYS_MODE ∧ (findRow lo).isNone = false ∧ (findRow hi).isNone = false := by
  unfold State.freezes at h
  split at h
  · next e => subst e; revert hi; decide
  split at h
  · rename_i e0 e; clear e0; simp only [List.contains_iff_mem] at e; simp only [List.mem_singleton] at h; subst h; revert lo; decide
  split at h
  · rename_i e0 e1 e; clear e0 e1; simp only [List.any_eq_true, decide_eq_true_eq] at e; obtain ⟨n, hn, rfl⟩ := e; simp only [List.mem_singleton] at h; subst h; revert n; decide
  split at h
  · next e => subst e; revert hi; decide
  split at h
  · next e => subst e; revert hi; decide
  · cases h

/-- A byte after a write of a word with byte enables (R409). -/
theorem memGet_memPutBe (m : List Host.Cell) (b a : Nat) (w : BitVec 32) (be : BitVec 4) :
    memGet (memPutBe m b w be) a =
      if b ≤ a ∧ a < b + 4 ∧ be.getLsbD (a - b) = true then BitVec.ofNat 8 (w.toNat / 256 ^ (a - b)) else memGet m a := by
  simp only [memPutBe]
  have g : ∀ (m : List Host.Cell) (i : Nat),
      memGet (if be.getLsbD i then memSet m (b + i) (BitVec.ofNat 8 (w.toNat / 256 ^ i)) else m) a =
      if a = b + i ∧ be.getLsbD i = true then BitVec.ofNat 8 (w.toNat / 256 ^ i) else memGet m a := by
    intro m i
    split
    · next h => rw [memGet_memSet]; simp only [h, and_true, eq_comm]
    · next h => simp only [h]; simp
  rw [g, g, g, g]
  by_cases hb : b ≤ a ∧ a < b + 4
  · obtain ⟨d, rfl⟩ := Nat.exists_eq_add_of_le hb.1
    have : d = 0 ∨ d = 1 ∨ d = 2 ∨ d = 3 := by omega
    rcases this with rfl | rfl | rfl | rfl <;> simp
  · have : ∀ i, i < 4 → a ≠ b + i := by intro i hi; omega
    rw [if_neg (fun h => this 3 (by omega) h.1), if_neg (fun h => this 2 (by omega) h.1),
      if_neg (fun h => this 1 (by omega) h.1), if_neg (fun h => this 0 (by omega) h.1),
      if_neg (fun h => hb ⟨h.1, h.2.1⟩)]

end Sys2Proof.Machine
end

