-- ==== Sys2Proof/Laws/Channels.lean ====
section
/-!
SUPPORT. What the shared operations of the gate channels leave alone: another channel's entry.
-/

namespace Sys2Proof.Machine

/-- A register field leaves the channels. -/
theorem State.ch_wr (s : State) (f : Fld) (w n : Nat) : (s.wr f w).ch n = s.ch n := rfl

/-- An update of one channel leaves another. -/
theorem State.ch_modCh_other (s : State) (f : GateCh → GateCh) (n m : Nat) (h : n ≠ m) : (s.modCh n f).ch m = s.ch m := by
  simp only [State.ch, State.modCh, kvGet_kvSet, if_neg h]

/-- A conditional operation leaves what its operation leaves. -/
theorem State.ch_cond (s : State) (b : Bool) (f : State → State) (m : Nat) (h : (f s).ch m = s.ch m) : (s.cond b f).ch m = s.ch m := by
  unfold State.cond; cases b
  · rfl
  · exact h

/-- A channel's mirror in the registers leaves the channels. -/
theorem State.ch_mirrorCh (s : State) (n m : Nat) : (s.mirrorCh n).ch m = s.ch m := by
  simp only [State.mirrorCh, State.wrB, State.ch_wr]
  exact State.ch_cond _ _ _ _ (State.ch_wr _ _ _ _)

/-- A new state of one channel leaves another. -/
theorem State.ch_putCh_other (s : State) (st : ChState) (n m : Nat) (h : n ≠ m) : (s.putCh n st).ch m = s.ch m := by
  unfold State.putCh
  extract_lets a b c
  rw [State.ch_mirrorCh, State.ch_modCh_other _ _ _ _ h]
  refine State.ch_cond _ _ _ _ ?_
  split
  · exact State.ch_wr _ _ _ _
  · exact State.ch_wr _ _ _ _

/-- A turn-off of one channel leaves another. -/
theorem State.ch_turnOff_other (s : State) (st : ChState) (n m : Nat) (h : n ≠ m) : (s.turnOff n st).ch m = s.ch m := by
  simp only [State.turnOff, State.ch_putCh_other _ _ _ _ h, State.cond]
  split
  · simp only [State.ch_modCh_other _ _ _ _ h]
  · rfl

/-- A turn-on of one channel leaves another. -/
theorem State.ch_turnOn_other (s : State) (b : Bool) (n m : Nat) (h : n ≠ m) : (s.turnOn n b).ch m = s.ch m := by
  have : ∀ s : State, ((s.lo (F.GDC_VON_CNT n)).lo (F.GDC_VON_VALID n)).ch m = s.ch m := by
    intro s; unfold State.lo; rw [State.ch_wr, State.ch_wr]
  simp only [State.turnOn, this, State.ch_modCh_other _ _ _ _ h, State.ch_putCh_other _ _ _ _ h]

/-- Dropping the switches that are on leaves a channel that is not on. -/
theorem State.ch_dropOn (s : State) (n m : Nat) (hm : (s.ch m).st ≠ .on) : (s.dropOn n).ch m = s.ch m := by
  unfold State.dropOn
  split
  · next h => exact State.ch_turnOff_other _ _ _ _ (fun e => hm (e ▸ h))
  · rfl

/-- A fold whose steps leave a channel with property P leaves it. -/
theorem State.ch_each {P : GateCh → Prop} (f : State → Nat → State) (m : Nat) (hf : ∀ s n, P (s.ch m) → (f s n).ch m = s.ch m) (l : List Nat) (s : State) (hp : P (s.ch m)) :
    (s.each l f).ch m = s.ch m := by
  unfold State.each
  induction l generalizing s with
  | nil => rfl
  | cons n l ih => simp only [List.foldl_cons]; rw [ih _ (by rw [hf _ _ hp]; exact hp), hf _ _ hp]

end Sys2Proof.Machine
end

