-- ==== Sys2Proof/Laws/Kept.lean ====
section
/-!
SUPPORT. How `Kept` passes through an update: any update of other fields keeps it, and so do folds over what keeps it.
-/

namespace Sys2Proof.Machine

theorem Kept.upd {q0 : List Instr} {n0 : Nat} {s : State} {ct : Nat} {ctFine : Nat} {sets : List (Nat × BitVec 32 ×
    Nat)} {power : Power} {pins : Pins} {saf : Uzodar} {uzs : List (Nat × UzAxis)} {hif : HostIf} {cores : Cores} {jrn
    : Journal} {chain : Chain} {gates : List (Nat × GateCh)} {diag : GateDiag} {carriers : List (Nat × Carrier)}
    {calFails : Nat} {adc : Adc} {fsl : Fsl} {fslAx : List (Nat × FslAxis)} {poss : List (Nat × PosIf)} {fields : List
    (Nat × FieldAxis)} {mots : List (Nat × MotAxis)} {hovs : List (Nat × HovAxis)} {hovIdle : Option Nat} {hovIdleAx :
    Nat} {hovMail : List (Nat × Nat × List Byte)} {recd : Recorder} {btCmd : Option Cmd} {dchCmds : List Cmd} {med :
    Medium} {sec : Security} {can0 : CanCtl} {can1 : CanCtl} {canFrom : Option Nat} {canBase : Nat} {hkp :
    Housekeeping} {outbox : List Output} {fresh : Nat} :
    Kept q0 n0 (⟨s.now, ct, ctFine, s.regs, sets, power, pins, saf, uzs, hif, cores, jrn, chain, gates, diag, carriers, calFails, adc,
    fsl, fslAx, poss, fields, mots, hovs, hovIdle, hovIdleAx, hovMail, recd, btCmd, dchCmds, med, sec, can0, can1,
    canFrom, canBase, hkp, s.sram, outbox, fresh, s.pending⟩) ↔ Kept q0 n0 s :=
  ⟨fun h => ⟨h.queue, h.clock, h.canon⟩, fun h => ⟨h.queue, h.clock, h.canon⟩⟩

theorem Kept.ite {q0 : List Instr} {n0 : Nat} {c : Prop} [Decidable c] {s s' : State} (h : Kept q0 n0 s)
    (h' : Kept q0 n0 s') : Kept q0 n0 (if c then s else s') := by split <;> assumption

theorem Kept.cut {q0 : List Instr} {n0 : Nat} {t : State} (s : State) (h : Kept q0 n0 s)
    (ht : Kept q0 n0 s → Kept q0 n0 t) : Kept q0 n0 t := ht h

theorem Kept.cut2 {q0 : List Instr} {n0 : Nat} {α : Type} {t : State} (r : α × State) (h : Kept q0 n0 r.2)
    (ht : Kept q0 n0 r.2 → Kept q0 n0 t) : Kept q0 n0 t := ht h

theorem foldl_kept {q0 : List Instr} {n0 : Nat} {α : Type} {f : State → α → State} {s : State} {l : List α}
    (hf : ∀ s x, Kept q0 n0 s → Kept q0 n0 (f s x)) (h : Kept q0 n0 s) : Kept q0 n0 (l.foldl f s) := by
  induction l generalizing s with
  | nil => exact h
  | cons x l ih => exact ih (hf s x h)

theorem foldl2_kept {q0 : List Instr} {n0 : Nat} {α β : Type} {f : β × State → α → β × State} {r : β × State} {l : List α}
    (hf : ∀ r x, Kept q0 n0 r.2 → Kept q0 n0 (f r x).2) (h : Kept q0 n0 r.2) : Kept q0 n0 (l.foldl f r).2 := by
  induction l generalizing r with
  | nil => exact h
  | cons x l ih => exact ih (hf r x h)

/-- Storing a whole word in the register table. -/
theorem Kept.regs {q0 : List Instr} {n0 : Nat} {s : State} {m : List (Nat × BitVec 32)} (h : Kept q0 n0 s)
    (hm : kvWf resetVal s.regs = true → kvWf resetVal m = true) : Kept q0 n0 { s with regs := m } := by
  have hc := h.canon
  simp only [State.canon, Bool.and_eq_true] at hc
  exact ⟨h.queue, h.clock, by simp only [State.canon, Bool.and_eq_true]; exact ⟨hm hc.1, hc.2⟩⟩

/-- Writing the shared SRAM. -/
theorem Kept.sram {q0 : List Instr} {n0 : Nat} {s : State} {m : List Host.Cell} (h : Kept q0 n0 s)
    (hm : memWf s.sram = true → memWf m = true) : Kept q0 n0 { s with sram := m } := by
  have hc := h.canon
  simp only [State.canon, Bool.and_eq_true] at hc
  exact ⟨h.queue, h.clock, by simp only [State.canon, Bool.and_eq_true]; exact ⟨hc.1, hm hc.2⟩⟩

theorem Kept.put {q0 : List Instr} {n0 : Nat} {s : State} {a : Nat} {bs : List Byte} (h : Kept q0 n0 s) :
    Kept q0 n0 { s with sram := memPut s.sram a bs } := h.sram (memWf_memPut a bs)

end Sys2Proof.Machine
end

