-- ==== Sys2Proof/Laws/KeptOps.lean ====
section
/-!
SUPPORT. What the operations of Machine/Ops keep: the queue, the clock and the form of the stores.
-/

namespace Sys2Proof.Machine

theorem State.setReg_kept {q0 : List Instr} {n0 : Nat} {s : State} (off : Nat) (w : BitVec 32) (h : Kept q0 n0 s) :
    Kept q0 n0 (State.setReg s off w) := h.regs (kvWf_kvSet resetVal off w)

theorem State.wr_kept {q0 : List Instr} {n0 : Nat} {s : State} (f : Fld) (v : ℕ) (h : Kept q0 n0 s) :
    Kept q0 n0 (State.wr s f v) := by
  have h1 := State.setReg_kept f.off (f.put (s.reg f.off) v) h
  exact ⟨h1.queue, h1.clock, h1.canon⟩

theorem State.hi_kept {q0 : List Instr} {n0 : Nat} {s : State} (f : Fld) (h : Kept q0 n0 s) : Kept q0 n0 (State.hi s f) := by
  unfold State.hi
  with_reducible repeat' first | assumption | apply State.wr_kept

theorem State.lo_kept {q0 : List Instr} {n0 : Nat} {s : State} (f : Fld) (h : Kept q0 n0 s) : Kept q0 n0 (State.lo s f) := by
  unfold State.lo
  with_reducible repeat' first | assumption | apply State.wr_kept

theorem State.wrB_kept {q0 : List Instr} {n0 : Nat} {s : State} (f : Fld) (b : Bool) (h : Kept q0 n0 s) : Kept q0 n0 (State.wrB s f b) := by
  unfold State.wrB
  with_reducible repeat' first | assumption | apply State.wr_kept

theorem State.clearCounts_kept {q0 : List Instr} {n0 : Nat} {s : State} (off : ℕ) (h : Kept q0 n0 s) : Kept q0 n0 (State.clearCounts s off) := by
  unfold State.clearCounts
  with_reducible repeat' first | assumption | apply State.setReg_kept

theorem State.clearBit_kept {q0 : List Instr} {n0 : Nat} {s : State} (f : Fld) (h : Kept q0 n0 s) :
    Kept q0 n0 (State.clearBit s f) := by
  have h1 := State.lo_kept f h
  unfold State.clearBit
  split
  · exact h
  · exact ⟨h1.queue, h1.clock, h1.canon⟩

theorem State.cond_kept {q0 : List Instr} {n0 : Nat} {s : State} (b : Bool) (f : State → State) (h : Kept q0 n0 s) (h_f : ∀ y0, Kept q0 n0 y0 → Kept q0 n0 (f y0)) : Kept q0 n0 (State.cond s b f) := by
  unfold State.cond
  with_reducible repeat' first | assumption | apply h_f | apply Kept.ite | dsimp -zeta only | (intro; intros) | split

theorem State.each_kept {q0 : List Instr} {n0 : Nat} {s : State} (l : List ℕ) (f : State → ℕ → State) (h : Kept q0 n0 s)
    (h_f : ∀ y0 y1, Kept q0 n0 y0 → Kept q0 n0 (f y0 y1)) : Kept q0 n0 (State.each s l f) := foldl_kept h_f h

theorem State.nextFree_kept {q0 : List Instr} {n0 : Nat} {s : State} (h : Kept q0 n0 s) : Kept q0 n0 (State.nextFree s).2 := by
  unfold State.nextFree
  with_reducible repeat' first | assumption | simp -zeta only [Kept.upd]

theorem State.emit_kept {q0 : List Instr} {n0 : Nat} {s : State} (o : Output) (h : Kept q0 n0 s) : Kept q0 n0 (State.emit s o) := by
  unfold State.emit
  with_reducible repeat' first | assumption | simp -zeta only [Kept.upd]

theorem State.upTo_kept {q0 : List Instr} {n0 : Nat} {s : State} (t : Nat) (h : Kept q0 n0 s) :
    Kept q0 (max n0 t) (State.upTo s t) := by
  obtain ⟨h1, h2, h3⟩ := h
  unfold State.upTo
  split
  · exact ⟨h1, by show t = _; omega, h3⟩
  · exact ⟨h1, by omega, h3⟩

end Sys2Proof.Machine
end

