-- ==== Sys2Proof/Laws/KeptFlags.lean ====
section
/-!
SUPPORT. What the operations of Machine/Flags keep: the queue, the clock and the form of the stores.
-/

namespace Sys2Proof.Machine

theorem State.bump_kept {q0 : List Instr} {n0 : Nat} {s : State} (f : Fld) (h : Kept q0 n0 s) : Kept q0 n0 (State.bump s f) := by
  unfold State.bump
  with_reducible repeat' first | assumption | apply State.wr_kept | apply Kept.ite | split

theorem State.wrSat_kept {q0 : List Instr} {n0 : Nat} {s : State} (f : Fld) (v : ℕ) (h : Kept q0 n0 s) : Kept q0 n0 (State.wrSat s f v) := by
  unfold State.wrSat
  with_reducible repeat' first | assumption | apply State.wr_kept

theorem State.wr64_kept {q0 : List Instr} {n0 : Nat} {s : State} (lo : ℕ) (hi : ℕ) (v : ℕ) (h : Kept q0 n0 s) : Kept q0 n0 (State.wr64 s lo hi v) := by
  unfold State.wr64
  with_reducible repeat' first | assumption | apply State.lo_kept | apply State.hi_kept | apply State.setReg_kept

theorem State.capture_kept {q0 : List Instr} {n0 : Nat} {s : State} (i : RepInput) (h : Kept q0 n0 s) : Kept q0 n0 (State.capture s i) := by
  unfold State.capture
  with_reducible repeat' first | assumption | simp -zeta only [Kept.upd] | apply Kept.ite | split

theorem State.traceHit_kept {q0 : List Instr} {n0 : Nat} {s : State} (src : ℕ) (h : Kept q0 n0 s) : Kept q0 n0 (State.traceHit s src) := by
  unfold State.traceHit
  with_reducible repeat' first | assumption | simp -zeta only [Kept.upd] | apply Kept.ite | split

theorem State.raised_kept {q0 : List Instr} {n0 : Nat} {s : State} (code : ℕ) (arg : ℕ) (h : Kept q0 n0 s) : Kept q0 n0 (State.raised s code arg) := by
  unfold State.raised
  with_reducible repeat' first | assumption | apply State.event_kept | apply State.traceHit_kept | apply State.capture_kept | apply Kept.ite | split

theorem State.recAdd_kept {q0 : List Instr} {n0 : Nat} {s : State} (kind : ℕ) (ct : ℕ) (payload : List Byte) (conf : Bool) (h : Kept q0 n0 s) : Kept q0 n0 (State.recAdd s kind ct payload conf) := by
  unfold State.recAdd
  with_reducible repeat' first | assumption | simp -zeta only [Kept.upd] | apply State.wr64_kept | apply State.bump_kept | apply State.hi_kept | apply State.raised_kept | apply Kept.ite | dsimp -zeta only | (extract_lets +onlyGivenNames z; first | (refine Kept.cut z ?_ ?_ <;> [subst z; (intro hz; clear_value z)]) | (refine Kept.cut2 z ?_ ?_ <;> [subst z; (intro hz; clear_value z)]) | (have hz : State → _ := z; clear hz; subst z) | clear_value z) | split

theorem State.ringStore_kept {q0 : List Instr} {n0 : Nat} {s : State} (r : Nat) (addr : Nat) (bs : List Byte)
    (h : Kept q0 n0 s) : Kept q0 n0 (State.ringStore s r addr bs) := by
  unfold State.ringStore
  exact Kept.ite (Kept.ite (h.sram (memWf_memPut addr bs)) h) (State.emit_kept _ h)

theorem State.writeShadow_kept {q0 : List Instr} {n0 : Nat} {s : State} (r : ℕ) (idx : ℕ) (h : Kept q0 n0 s) : Kept q0 n0 (State.writeShadow s r idx) := by
  unfold State.writeShadow
  with_reducible repeat' first | assumption | apply State.ringStore_kept | apply Kept.ite | dsimp -zeta only | (extract_lets +onlyGivenNames z; first | (refine Kept.cut z ?_ ?_ <;> [subst z; (intro hz; clear_value z)]) | (refine Kept.cut2 z ?_ ?_ <;> [subst z; (intro hz; clear_value z)]) | (have hz : State → _ := z; clear hz; subst z) | clear_value z) | split

theorem State.writeEntry_kept {q0 : List Instr} {n0 : Nat} {s : State} (r : ℕ) (flagByte : ℕ) (bs : List Byte) (h : Kept q0 n0 s) : Kept q0 n0 (State.writeEntry s r flagByte bs) := by
  unfold State.writeEntry
  with_reducible repeat' first | assumption | simp -zeta only [Kept.upd] | apply State.ringStore_kept | apply State.wr_kept | apply State.cond_kept | apply State.writeShadow_kept | apply Kept.ite | dsimp -zeta only | (extract_lets +onlyGivenNames z; first | (refine Kept.cut z ?_ ?_ <;> [subst z; (intro hz; clear_value z)]) | (refine Kept.cut2 z ?_ ?_ <;> [subst z; (intro hz; clear_value z)]) | (have hz : State → _ := z; clear hz; subst z) | clear_value z) | (intro; intros) | split

theorem State.sendFrame_kept {q0 : List Instr} {n0 : Nat} {s : State} (ty : ℕ) (dst : ℕ) (payload : List Byte) (cmd : Option Cmd) (h : Kept q0 n0 s) : Kept q0 n0 (State.sendFrame s ty dst payload cmd) := by
  unfold State.sendFrame
  with_reducible repeat' first | assumption | simp -zeta only [Kept.upd] | dsimp -zeta only | (extract_lets +onlyGivenNames z; first | (refine Kept.cut z ?_ ?_ <;> [subst z; (intro hz; clear_value z)]) | (refine Kept.cut2 z ?_ ?_ <;> [subst z; (intro hz; clear_value z)]) | (have hz : State → _ := z; clear hz; subst z) | clear_value z) | (intro; intros)

theorem State.sendIrq_kept {q0 : List Instr} {n0 : Nat} {s : State} (r : ℕ) (h : Kept q0 n0 s) : Kept q0 n0 (State.sendIrq s r) := by
  unfold State.sendIrq
  with_reducible repeat' first | assumption | apply State.sendFrame_kept | apply State.wr_kept | apply State.emit_kept | apply Kept.ite | dsimp -zeta only | (extract_lets +onlyGivenNames z; first | (refine Kept.cut z ?_ ?_ <;> [subst z; (intro hz; clear_value z)]) | (refine Kept.cut2 z ?_ ?_ <;> [subst z; (intro hz; clear_value z)]) | (have hz : State → _ := z; clear hz; subst z) | clear_value z) | split

theorem State.raiseIrq_kept {q0 : List Instr} {n0 : Nat} {s : State} (r : ℕ) (h : Kept q0 n0 s) : Kept q0 n0 (State.raiseIrq s r) := by
  unfold State.raiseIrq
  with_reducible repeat' first | assumption | simp -zeta only [Kept.upd] | apply State.sendIrq_kept | apply Kept.ite | dsimp -zeta only | (extract_lets +onlyGivenNames z; first | (refine Kept.cut z ?_ ?_ <;> [subst z; (intro hz; clear_value z)]) | (refine Kept.cut2 z ?_ ?_ <;> [subst z; (intro hz; clear_value z)]) | (have hz : State → _ := z; clear hz; subst z) | clear_value z) | (intro; intros) | split

theorem State.writeEvent_kept {q0 : List Instr} {n0 : Nat} {s : State} (e : Event) (direct : Bool) (h : Kept q0 n0 s) : Kept q0 n0 (State.writeEvent s e direct) := by
  unfold State.writeEvent
  with_reducible repeat' first | assumption | simp -zeta only [Kept.upd] | apply State.event_kept | apply State.writeEntry_kept | apply State.raiseIrq_kept | apply Kept.ite | dsimp -zeta only | (extract_lets +onlyGivenNames z; first | (refine Kept.cut z ?_ ?_ <;> [subst z; (intro hz; clear_value z)]) | (refine Kept.cut2 z ?_ ?_ <;> [subst z; (intro hz; clear_value z)]) | (have hz : State → _ := z; clear hz; subst z) | clear_value z) | split

theorem State.dropRecord_kept {q0 : List Instr} {n0 : Nat} {s : State} (r : ℕ) (h : Kept q0 n0 s) : Kept q0 n0 (State.dropRecord s r) := by
  unfold State.dropRecord
  with_reducible repeat' first | assumption | apply State.bump_kept | apply State.hi_kept | apply State.raised_kept | apply Kept.ite | dsimp -zeta only | (extract_lets +onlyGivenNames z; first | (refine Kept.cut z ?_ ?_ <;> [subst z; (intro hz; clear_value z)]) | (refine Kept.cut2 z ?_ ?_ <;> [subst z; (intro hz; clear_value z)]) | (have hz : State → _ := z; clear hz; subst z) | clear_value z) | split

theorem State.postEvent_kept {q0 : List Instr} {n0 : Nat} {s : State} (e : Event) (direct : Bool) (h : Kept q0 n0 s) : Kept q0 n0 (State.postEvent s e direct) := by
  unfold State.postEvent
  with_reducible repeat' first | assumption | simp -zeta only [Kept.upd] | apply State.event_kept | apply State.cond_kept | apply State.recAdd_kept | apply State.writeEvent_kept | apply State.dropRecord_kept | apply Kept.ite | dsimp -zeta only | (extract_lets +onlyGivenNames z; first | (refine Kept.cut z ?_ ?_ <;> [subst z; (intro hz; clear_value z)]) | (refine Kept.cut2 z ?_ ?_ <;> [subst z; (intro hz; clear_value z)]) | (have hz : State → _ := z; clear hz; subst z) | clear_value z) | (intro; intros) | split

theorem State.event_kept {q0 : List Instr} {n0 : Nat} {s : State} (code : ℕ) (arg : ℕ) (h : Kept q0 n0 s) : Kept q0 n0 (State.event s code arg) := by
  unfold State.event
  with_reducible repeat' first | assumption | simp -zeta only [Kept.upd] | apply State.traceHit_kept | apply State.postEvent_kept | apply State.raised_kept | apply Kept.ite | dsimp -zeta only | (extract_lets +onlyGivenNames z; first | (refine Kept.cut z ?_ ?_ <;> [subst z; (intro hz; clear_value z)]) | (refine Kept.cut2 z ?_ ?_ <;> [subst z; (intro hz; clear_value z)]) | (have hz : State → _ := z; clear hz; subst z) | clear_value z) | (intro; intros) | split

theorem State.count_kept {q0 : List Instr} {n0 : Nat} {s : State} (f : Fld) (sat : Fld) (code : ℕ) (arg : ℕ) (h : Kept q0 n0 s) : Kept q0 n0 (State.count s f sat code arg) := by
  unfold State.count
  with_reducible repeat' first | assumption | apply State.event_kept | apply State.raised_kept | apply State.bump_kept | apply State.hi_kept | apply Kept.ite | dsimp -zeta only | (extract_lets +onlyGivenNames z; first | (refine Kept.cut z ?_ ?_ <;> [subst z; (intro hz; clear_value z)]) | (refine Kept.cut2 z ?_ ?_ <;> [subst z; (intro hz; clear_value z)]) | (have hz : State → _ := z; clear hz; subst z) | clear_value z) | split

theorem State.journalRegs_kept {q0 : List Instr} {n0 : Nat} {s : State} (h : Kept q0 n0 s) : Kept q0 n0 (State.journalRegs s) := by
  unfold State.journalRegs
  with_reducible repeat' first | assumption | simp -zeta only [Kept.upd] | apply State.wr_kept | apply State.wrB_kept | apply State.wr64_kept | dsimp -zeta only | (extract_lets +onlyGivenNames z; first | (refine Kept.cut z ?_ ?_ <;> [subst z; (intro hz; clear_value z)]) | (refine Kept.cut2 z ?_ ?_ <;> [subst z; (intro hz; clear_value z)]) | (have hz : State → _ := z; clear hz; subst z) | clear_value z) | (intro; intros) | split

theorem State.journalAdd_kept {q0 : List Instr} {n0 : Nat} {s : State} (jump : ℕ) (e : JEntry) (h : Kept q0 n0 s) : Kept q0 n0 (State.journalAdd s jump e) := by
  unfold State.journalAdd
  with_reducible repeat' first | assumption | simp -zeta only [Kept.upd] | apply State.wr64_kept | apply State.journalRegs_kept | apply State.cond_kept | apply State.event_kept | dsimp -zeta only | (extract_lets +onlyGivenNames z; first | (refine Kept.cut z ?_ ?_ <;> [subst z; (intro hz; clear_value z)]) | (refine Kept.cut2 z ?_ ?_ <;> [subst z; (intro hz; clear_value z)]) | (have hz : State → _ := z; clear hz; subst z) | clear_value z) | (intro; intros)

theorem State.journalModule_kept {q0 : List Instr} {n0 : Nat} {s : State} (jump : ℕ) (kind : ℕ) (hseq : ℕ) (argh : ℕ) (gap : Bool) (h : Kept q0 n0 s) : Kept q0 n0 (State.journalModule s jump kind hseq argh gap) := by
  unfold State.journalModule
  with_reducible repeat' first | assumption | apply State.journalAdd_kept

theorem State.journalFinal_kept {q0 : List Instr} {n0 : Nat} {s : State} (jseq : ℕ) (status : ℕ) (h : Kept q0 n0 s) : Kept q0 n0 (State.journalFinal s jseq status) := by
  unfold State.journalFinal
  with_reducible repeat' first | assumption | simp -zeta only [Kept.upd] | apply Kept.ite | dsimp -zeta only | (intro; intros) | split

theorem State.setOpen_kept {q0 : List Instr} {n0 : Nat} {s : State} (r : ℕ) (n : ℕ) (h : Kept q0 n0 s) : Kept q0 n0 (State.setOpen s r n) := by
  unfold State.setOpen
  with_reducible repeat' first | assumption | simp -zeta only [Kept.upd] | apply State.wr_kept | apply Kept.ite | dsimp -zeta only | (extract_lets +onlyGivenNames z; first | (refine Kept.cut z ?_ ?_ <;> [subst z; (intro hz; clear_value z)]) | (refine Kept.cut2 z ?_ ?_ <;> [subst z; (intro hz; clear_value z)]) | (have hz : State → _ := z; clear hz; subst z) | clear_value z) | (intro; intros) | split

theorem State.setRunning_kept {q0 : List Instr} {n0 : Nat} {s : State} (r : ℕ) (c : Option Cmd) (h : Kept q0 n0 s) : Kept q0 n0 (State.setRunning s r c) := by
  unfold State.setRunning
  with_reducible repeat' first | assumption | simp -zeta only [Kept.upd] | dsimp -zeta only | (extract_lets +onlyGivenNames z; first | (refine Kept.cut z ?_ ?_ <;> [subst z; (intro hz; clear_value z)]) | (refine Kept.cut2 z ?_ ?_ <;> [subst z; (intro hz; clear_value z)]) | (have hz : State → _ := z; clear hz; subst z) | clear_value z) | (intro; intros) | split

theorem State.begin__kept {q0 : List Instr} {n0 : Nat} {s : State} (r : ℕ) (h : Kept q0 n0 s) : Kept q0 n0 (State.begin_ s r) := by
  unfold State.begin_
  with_reducible repeat' first | assumption | simp -zeta only [Kept.upd]

theorem State.writeCompletion_kept {q0 : List Instr} {n0 : Nat} {s : State} (c : Completion) (h : Kept q0 n0 s) : Kept q0 n0 (State.writeCompletion s c) := by
  unfold State.writeCompletion
  with_reducible repeat' first | assumption | apply State.setOpen_kept | apply State.writeEntry_kept | apply State.cond_kept | apply State.raiseIrq_kept | apply Kept.ite | dsimp -zeta only | (extract_lets +onlyGivenNames z; first | (refine Kept.cut z ?_ ?_ <;> [subst z; (intro hz; clear_value z)]) | (refine Kept.cut2 z ?_ ?_ <;> [subst z; (intro hz; clear_value z)]) | (have hz : State → _ := z; clear hz; subst z) | clear_value z) | (intro; intros) | split

theorem State.issue_kept {q0 : List Instr} {n0 : Nat} {s : State} (c : Completion) (h : Kept q0 n0 s) : Kept q0 n0 (State.issue s c) := by
  unfold State.issue
  with_reducible repeat' first | assumption | simp -zeta only [Kept.upd] | apply State.cond_kept | apply State.setRunning_kept | dsimp -zeta only | (extract_lets +onlyGivenNames z; first | (refine Kept.cut z ?_ ?_ <;> [subst z; (intro hz; clear_value z)]) | (refine Kept.cut2 z ?_ ?_ <;> [subst z; (intro hz; clear_value z)]) | (have hz : State → _ := z; clear hz; subst z) | clear_value z) | (intro; intros) | split

theorem State.settle_kept {q0 : List Instr} {n0 : Nat} {s : State} (c : Completion) (h : Kept q0 n0 s) : Kept q0 n0 (State.settle s c) := by
  unfold State.settle
  with_reducible repeat' first | assumption | simp -zeta only [Kept.upd] | apply State.journalFinal_kept | apply State.issue_kept | apply Kept.ite | dsimp -zeta only | (extract_lets +onlyGivenNames z; first | (refine Kept.cut z ?_ ?_ <;> [subst z; (intro hz; clear_value z)]) | (refine Kept.cut2 z ?_ ?_ <;> [subst z; (intro hz; clear_value z)]) | (have hz : State → _ := z; clear hz; subst z) | clear_value z) | split

theorem State.releaseFrom_kept {q0 : List Instr} {n0 : Nat} {s : State} (n : ℕ) (p : Completion → Bool) (h : Kept q0 n0 s) : Kept q0 n0 (State.releaseFrom s n p) := by
  unfold State.releaseFrom
  with_reducible repeat' first | assumption | simp -zeta only [Kept.upd] | apply State.drop_kept | apply State.settle_kept | apply State.writeCompletion_kept | apply foldl_kept | apply foldl2_kept | dsimp -zeta only | (extract_lets +onlyGivenNames z; first | (refine Kept.cut z ?_ ?_ <;> [subst z; (intro hz; clear_value z)]) | (refine Kept.cut2 z ?_ ?_ <;> [subst z; (intro hz; clear_value z)]) | (have hz : State → _ := z; clear hz; subst z) | clear_value z) | (intro; intros) | split

theorem State.releaseOwed_kept {q0 : List Instr} {n0 : Nat} {s : State} (h : Kept q0 n0 s) : Kept q0 n0 (State.releaseOwed s) := by
  unfold State.releaseOwed
  with_reducible repeat' first | assumption | apply State.releaseFrom_kept | dsimp -zeta only | (intro; intros)

theorem State.releaseHeld_kept {q0 : List Instr} {n0 : Nat} {s : State} (p : Completion → Bool) (h : Kept q0 n0 s) : Kept q0 n0 (State.releaseHeld s p) := by
  unfold State.releaseHeld
  with_reducible repeat' first | assumption | simp -zeta only [Kept.upd] | apply State.releaseOwed_kept | apply State.issue_kept | apply foldl_kept | apply foldl2_kept | apply Kept.ite | dsimp -zeta only | (extract_lets +onlyGivenNames z; first | (refine Kept.cut z ?_ ?_ <;> [subst z; (intro hz; clear_value z)]) | (refine Kept.cut2 z ?_ ?_ <;> [subst z; (intro hz; clear_value z)]) | (have hz : State → _ := z; clear hz; subst z) | clear_value z) | (intro; intros) | split

theorem State.complete_kept {q0 : List Instr} {n0 : Nat} {s : State} (c : Cmd) (status : ℕ) (result : ℕ) (h : Kept q0 n0 s) : Kept q0 n0 (State.complete s c status result) := by
  unfold State.complete
  with_reducible repeat' first | assumption | simp -zeta only [Kept.upd] | apply State.issue_kept | apply State.pass_kept | apply State.cond_kept | apply State.begin__kept | dsimp -zeta only | (extract_lets +onlyGivenNames z; first | (refine Kept.cut z ?_ ?_ <;> [subst z; (intro hz; clear_value z)]) | (refine Kept.cut2 z ?_ ?_ <;> [subst z; (intro hz; clear_value z)]) | (have hz : State → _ := z; clear hz; subst z) | clear_value z) | (intro; intros)

theorem State.abandonCopies_kept {q0 : List Instr} {n0 : Nat} {s : State} (h : Kept q0 n0 s) : Kept q0 n0 (State.abandonCopies s) := by
  unfold State.abandonCopies
  with_reducible repeat' first | assumption | simp -zeta only [Kept.upd] | apply State.complete_kept | apply foldl_kept | apply foldl2_kept | apply Kept.ite | dsimp -zeta only | (extract_lets +onlyGivenNames z; first | (refine Kept.cut z ?_ ?_ <;> [subst z; (intro hz; clear_value z)]) | (refine Kept.cut2 z ?_ ?_ <;> [subst z; (intro hz; clear_value z)]) | (have hz : State → _ := z; clear hz; subst z) | clear_value z) | (intro; intros) | split

end Sys2Proof.Machine
end

