-- ==== Sys2Proof/Laws/KeptChannels.lean ====
section
/-!
SUPPORT. What the operations of Machine/Channels keep: the queue, the clock and the form of the stores.
-/

namespace Sys2Proof.Machine

theorem State.modCh_kept {q0 : List Instr} {n0 : Nat} {s : State} (n : ℕ) (f : GateCh → GateCh) (h : Kept q0 n0 s) : Kept q0 n0 (State.modCh s n f) := by
  unfold State.modCh
  with_reducible repeat' first | assumption | simp -zeta only [Kept.upd] | dsimp -zeta only | (intro; intros)

theorem State.keepDrive_kept {q0 : List Instr} {n0 : Nat} {s : State} (h : Kept q0 n0 s) : Kept q0 n0 (State.keepDrive s) := by
  unfold State.keepDrive
  with_reducible repeat' first | assumption | simp -zeta only [Kept.upd] | apply foldl_kept | apply foldl2_kept | dsimp -zeta only | (extract_lets +onlyGivenNames z; first | (refine Kept.cut z ?_ ?_ <;> [subst z; (intro hz; clear_value z)]) | (refine Kept.cut2 z ?_ ?_ <;> [subst z; (intro hz; clear_value z)]) | (have hz : State → _ := z; clear hz; subst z) | clear_value z) | (intro; intros)

theorem State.showReach_kept {q0 : List Instr} {n0 : Nat} {s : State} (n : ℕ) (h : Kept q0 n0 s) : Kept q0 n0 (State.showReach s n) := by
  unfold State.showReach
  with_reducible repeat' first | assumption | simp -zeta only [Kept.upd] | apply State.wrB_kept | dsimp -zeta only | (intro; intros) | split

theorem State.gdcChanged_kept {q0 : List Instr} {n0 : Nat} {s : State} (n : ℕ) (h : Kept q0 n0 s) : Kept q0 n0 (State.gdcChanged s n) := by
  unfold State.gdcChanged
  with_reducible repeat' first | assumption | simp -zeta only [Kept.upd] | apply State.exchange_kept | apply State.count_kept | apply State.modCh_kept | apply State.wrB_kept | dsimp -zeta only | (intro; intros) | split

theorem State.mirrorCh_kept {q0 : List Instr} {n0 : Nat} {s : State} (n : ℕ) (h : Kept q0 n0 s) : Kept q0 n0 (State.mirrorCh s n) := by
  unfold State.mirrorCh
  with_reducible repeat' first | assumption | apply State.wr_kept | apply State.wrB_kept | apply State.cond_kept | dsimp -zeta only | (extract_lets +onlyGivenNames z; first | (refine Kept.cut z ?_ ?_ <;> [subst z; (intro hz; clear_value z)]) | (refine Kept.cut2 z ?_ ?_ <;> [subst z; (intro hz; clear_value z)]) | (have hz : State → _ := z; clear hz; subst z) | clear_value z) | (intro; intros) | split

theorem State.putCh_kept {q0 : List Instr} {n0 : Nat} {s : State} (n : ℕ) (st : ChState) (h : Kept q0 n0 s) : Kept q0 n0 (State.putCh s n st) := by
  unfold State.putCh
  with_reducible repeat' first | assumption | simp -zeta only [Kept.upd] | apply State.cond_kept | apply State.wr_kept | apply State.modCh_kept | apply State.mirrorCh_kept | apply Kept.ite | dsimp -zeta only | (extract_lets +onlyGivenNames z; first | (refine Kept.cut z ?_ ?_ <;> [subst z; (intro hz; clear_value z)]) | (refine Kept.cut2 z ?_ ?_ <;> [subst z; (intro hz; clear_value z)]) | (have hz : State → _ := z; clear hz; subst z) | clear_value z) | (intro; intros) | split

theorem State.turnOff_kept {q0 : List Instr} {n0 : Nat} {s : State} (n : ℕ) (st : ChState) (h : Kept q0 n0 s) : Kept q0 n0 (State.turnOff s n st) := by
  unfold State.turnOff
  with_reducible repeat' first | assumption | simp -zeta only [Kept.upd] | apply State.cond_kept | apply State.modCh_kept | apply State.putCh_kept | dsimp -zeta only | (extract_lets +onlyGivenNames z; first | (refine Kept.cut z ?_ ?_ <;> [subst z; (intro hz; clear_value z)]) | (refine Kept.cut2 z ?_ ?_ <;> [subst z; (intro hz; clear_value z)]) | (have hz : State → _ := z; clear hz; subst z) | clear_value z) | (intro; intros)

theorem State.turnOn_kept {q0 : List Instr} {n0 : Nat} {s : State} (n : ℕ) (force : Bool) (h : Kept q0 n0 s) : Kept q0 n0 (State.turnOn s n force) := by
  unfold State.turnOn
  with_reducible repeat' first | assumption | simp -zeta only [Kept.upd] | apply State.putCh_kept | apply State.modCh_kept | apply State.lo_kept | dsimp -zeta only | (extract_lets +onlyGivenNames z; first | (refine Kept.cut z ?_ ?_ <;> [subst z; (intro hz; clear_value z)]) | (refine Kept.cut2 z ?_ ?_ <;> [subst z; (intro hz; clear_value z)]) | (have hz : State → _ := z; clear hz; subst z) | clear_value z) | (intro; intros)

theorem State.dropOn_kept {q0 : List Instr} {n0 : Nat} {s : State} (n : ℕ) (h : Kept q0 n0 s) : Kept q0 n0 (State.dropOn s n) := by
  unfold State.dropOn
  with_reducible repeat' first | assumption | apply State.turnOff_kept | apply Kept.ite | split

theorem State.modCar_kept {q0 : List Instr} {n0 : Nat} {s : State} (c : ℕ) (f : Carrier → Carrier) (h : Kept q0 n0 s) : Kept q0 n0 (State.modCar s c f) := by
  unfold State.modCar
  with_reducible repeat' first | assumption | simp -zeta only [Kept.upd] | dsimp -zeta only | (intro; intros)

theorem State.modLeg_kept {q0 : List Instr} {n0 : Nat} {s : State} (c : ℕ) (x : ℕ) (f : PwmLeg → PwmLeg) (h : Kept q0 n0 s) : Kept q0 n0 (State.modLeg s c x f) := by
  unfold State.modLeg
  with_reducible repeat' first | assumption | simp -zeta only [Kept.upd] | apply State.modCar_kept | dsimp -zeta only | (intro; intros)

theorem State.dropPwm_kept {q0 : List Instr} {n0 : Nat} {s : State} (n : ℕ) (h : Kept q0 n0 s) : Kept q0 n0 (State.dropPwm s n) := by
  unfold State.dropPwm
  with_reducible repeat' first | assumption | simp -zeta only [Kept.upd] | apply State.modCh_kept | apply State.turnOff_kept | apply Kept.ite | dsimp -zeta only | (intro; intros) | split

theorem State.eachOff_kept {q0 : List Instr} {n0 : Nat} {s : State} (l : List ℕ) (f : State → ℕ → State) (h : Kept q0 n0 s) (h_f : ∀ y0 y1, Kept q0 n0 y0 → Kept q0 n0 (f y0 y1)) : Kept q0 n0 (State.eachOff s l f) := by
  unfold State.eachOff
  with_reducible repeat' first | assumption | apply h_f | apply State.each_kept | dsimp -zeta only | (extract_lets +onlyGivenNames z; first | (refine Kept.cut z ?_ ?_ <;> [subst z; (intro hz; clear_value z)]) | (refine Kept.cut2 z ?_ ?_ <;> [subst z; (intro hz; clear_value z)]) | (have hz : State → _ := z; clear hz; subst z) | clear_value z) | (intro; intros) | split

theorem State.bridgeOff_kept {q0 : List Instr} {n0 : Nat} {s : State} (a : ℕ) (h : Kept q0 n0 s) : Kept q0 n0 (State.bridgeOff s a) := by
  unfold State.bridgeOff
  with_reducible repeat' first | assumption | apply State.eachOff_kept | apply State.dropOn_kept | (intro; intros)

theorem State.pwmOff_kept {q0 : List Instr} {n0 : Nat} {s : State} (a : ℕ) (h : Kept q0 n0 s) : Kept q0 n0 (State.pwmOff s a) := by
  unfold State.pwmOff
  with_reducible repeat' first | assumption | apply State.eachOff_kept | apply State.dropPwm_kept | (intro; intros)

theorem State.setLatch_kept {q0 : List Instr} {n0 : Nat} {s : State} (n : ℕ) (b : Bool) (h : Kept q0 n0 s) : Kept q0 n0 (State.setLatch s n b) := by
  unfold State.setLatch
  with_reducible repeat' first | assumption | simp -zeta only [Kept.upd] | apply State.mirrorCh_kept | apply Kept.ite | dsimp -zeta only | (extract_lets +onlyGivenNames z; first | (refine Kept.cut z ?_ ?_ <;> [subst z; (intro hz; clear_value z)]) | (refine Kept.cut2 z ?_ ?_ <;> [subst z; (intro hz; clear_value z)]) | (have hz : State → _ := z; clear hz; subst z) | clear_value z) | split

theorem State.gdcLoaded_kept {q0 : List Instr} {n0 : Nat} {s : State} (was : ℕ → List (BitVec 32)) (h : Kept q0 n0 s) : Kept q0 n0 (State.gdcLoaded s was) := by
  unfold State.gdcLoaded
  with_reducible repeat' first | assumption | apply State.exchange_kept | apply State.each_kept | apply State.turnOff_kept | apply State.showReach_kept | apply State.gdcChanged_kept | apply Kept.ite | dsimp -zeta only | (intro; intros) | split

theorem State.gdcRefresh_kept {q0 : List Instr} {n0 : Nat} {s : State} (h : Kept q0 n0 s) : Kept q0 n0 (State.gdcRefresh s) := by
  unfold State.gdcRefresh
  with_reducible repeat' first | assumption | apply State.each_kept | apply State.supplies_kept | apply State.exchange_kept | apply State.mirrorCh_kept | apply State.wrB_kept | apply State.wr_kept | apply State.showReach_kept | apply State.cond_kept | apply State.gdcChanged_kept | apply Kept.ite | dsimp -zeta only | (extract_lets +onlyGivenNames z; first | (refine Kept.cut z ?_ ?_ <;> [subst z; (intro hz; clear_value z)]) | (refine Kept.cut2 z ?_ ?_ <;> [subst z; (intro hz; clear_value z)]) | (have hz : State → _ := z; clear hz; subst z) | clear_value z) | (intro; intros) | split

theorem State.forceOn_kept {q0 : List Instr} {n0 : Nat} {s : State} (n : ℕ) (h : Kept q0 n0 s) : Kept q0 n0 (State.forceOn s n) := by
  unfold State.forceOn
  with_reducible repeat' first | assumption | simp -zeta only [Kept.upd] | apply State.modCh_kept | apply State.turnOn_kept | apply Kept.ite | dsimp -zeta only | (extract_lets +onlyGivenNames z; first | (refine Kept.cut z ?_ ?_ <;> [subst z; (intro hz; clear_value z)]) | (refine Kept.cut2 z ?_ ?_ <;> [subst z; (intro hz; clear_value z)]) | (have hz : State → _ := z; clear hz; subst z) | clear_value z) | (intro; intros) | split

theorem State.noRise_kept {q0 : List Instr} {n0 : Nat} {s : State} (a : ℕ) (h : Kept q0 n0 s) : Kept q0 n0 (State.noRise s a) := by
  unfold State.noRise
  with_reducible repeat' first | assumption | simp -zeta only [Kept.upd] | apply State.each_kept | apply State.modCh_kept | apply Kept.ite | dsimp -zeta only | (intro; intros) | split

theorem State.uzGateToChannels_kept {q0 : List Instr} {n0 : Nat} {s : State} (a : ℕ) (g : UzGate) (h : Kept q0 n0 s) : Kept q0 n0 (State.uzGateToChannels s a g) := by
  unfold State.uzGateToChannels
  with_reducible repeat' first | assumption | simp -zeta only [Kept.upd] | apply State.eachOff_kept | apply State.dropOn_kept | apply State.noRise_kept | apply State.bridgeOff_kept | apply State.each_kept | apply State.forceOn_kept | apply Kept.ite | dsimp -zeta only | (extract_lets +onlyGivenNames z; first | (refine Kept.cut z ?_ ?_ <;> [subst z; (intro hz; clear_value z)]) | (refine Kept.cut2 z ?_ ?_ <;> [subst z; (intro hz; clear_value z)]) | (have hz : State → _ := z; clear hz; subst z) | clear_value z) | (intro; intros) | split

theorem State.diagMark_kept {q0 : List Instr} {n0 : Nat} {s : State} (n : ℕ) (h : Kept q0 n0 s) : Kept q0 n0 (State.diagMark s n) := by
  unfold State.diagMark
  with_reducible repeat' first | assumption | apply State.wr_kept | apply Kept.ite | split

theorem State.diagWave_kept {q0 : List Instr} {n0 : Nat} {s : State} (h : Kept q0 n0 s) : Kept q0 n0 (State.diagWave s) := by
  unfold State.diagWave
  with_reducible repeat' first | assumption | simp -zeta only [Kept.upd] | apply State.each_kept | apply State.diagMark_kept | apply State.putCh_kept | dsimp -zeta only | (extract_lets +onlyGivenNames z; first | (refine Kept.cut z ?_ ?_ <;> [subst z; (intro hz; clear_value z)]) | (refine Kept.cut2 z ?_ ?_ <;> [subst z; (intro hz; clear_value z)]) | (have hz : State → _ := z; clear hz; subst z) | clear_value z) | (intro; intros)

theorem State.diagEnd_kept {q0 : List Instr} {n0 : Nat} {s : State} (h : Kept q0 n0 s) : Kept q0 n0 (State.diagEnd s) := by
  unfold State.diagEnd
  with_reducible repeat' first | assumption | simp -zeta only [Kept.upd] | apply State.event_kept | apply State.lo_kept | apply Kept.ite | dsimp -zeta only | (extract_lets +onlyGivenNames z; first | (refine Kept.cut z ?_ ?_ <;> [subst z; (intro hz; clear_value z)]) | (refine Kept.cut2 z ?_ ?_ <;> [subst z; (intro hz; clear_value z)]) | (have hz : State → _ := z; clear hz; subst z) | clear_value z) | (intro; intros) | split

theorem State.diagLeave_kept {q0 : List Instr} {n0 : Nat} {s : State} (n : ℕ) (h : Kept q0 n0 s) : Kept q0 n0 (State.diagLeave s n) := by
  unfold State.diagLeave
  with_reducible repeat' first | assumption | apply State.putCh_kept | apply Kept.ite | split

theorem State.diagCut_kept {q0 : List Instr} {n0 : Nat} {s : State} (h : Kept q0 n0 s) : Kept q0 n0 (State.diagCut s) := by
  unfold State.diagCut
  with_reducible repeat' first | assumption | apply State.each_kept | apply State.diagLeave_kept | apply State.diagWave_kept | apply State.diagEnd_kept | apply Kept.ite | dsimp -zeta only | (intro; intros) | split

theorem State.putCarry_kept {q0 : List Instr} {n0 : Nat} {s : State} (c : ℕ) (x : ℕ) (v : ℤ) (h : Kept q0 n0 s) : Kept q0 n0 (State.putCarry s c x v) := by
  unfold State.putCarry
  with_reducible repeat' first | assumption | apply State.wr_kept

theorem State.clearCarry_kept {q0 : List Instr} {n0 : Nat} {s : State} (c : ℕ) (x : ℕ) (h : Kept q0 n0 s) : Kept q0 n0 (State.clearCarry s c x) := by
  unfold State.clearCarry
  with_reducible repeat' first | assumption | simp -zeta only [Kept.upd] | apply State.putCarry_kept | apply State.modLeg_kept | dsimp -zeta only | (intro; intros)

theorem State.clearCarries_kept {q0 : List Instr} {n0 : Nat} {s : State} (c : ℕ) (h : Kept q0 n0 s) : Kept q0 n0 (State.clearCarries s c) := by
  unfold State.clearCarries
  with_reducible repeat' first | assumption | apply State.each_kept | apply State.clearCarry_kept | dsimp -zeta only | (intro; intros)

theorem State.outputsOff_kept {q0 : List Instr} {n0 : Nat} {s : State} (a : ℕ) (h : Kept q0 n0 s) : Kept q0 n0 (State.outputsOff s a) := by
  unfold State.outputsOff
  with_reducible repeat' first | assumption | simp -zeta only [Kept.upd] | apply State.pwmOff_kept | apply State.lo_kept | apply State.modCar_kept | dsimp -zeta only | (intro; intros)

theorem State.pwmBlock_kept {q0 : List Instr} {n0 : Nat} {s : State} (a : ℕ) (h : Kept q0 n0 s) : Kept q0 n0 (State.pwmBlock s a) := by
  unfold State.pwmBlock
  with_reducible repeat' first | assumption | apply State.hi_kept | apply State.pwmOff_kept | apply State.clearCarries_kept

theorem State.markLeg_kept {q0 : List Instr} {n0 : Nat} {s : State} (a : ℕ) (x : ℕ) (h : Kept q0 n0 s) : Kept q0 n0 (State.markLeg s a x) := by
  unfold State.markLeg
  with_reducible repeat' first | assumption | apply State.wr_kept | apply State.eachOff_kept | apply State.dropPwm_kept | apply State.clearCarry_kept | apply State.event_kept | dsimp -zeta only | (extract_lets +onlyGivenNames z; first | (refine Kept.cut z ?_ ?_ <;> [subst z; (intro hz; clear_value z)]) | (refine Kept.cut2 z ?_ ?_ <;> [subst z; (intro hz; clear_value z)]) | (have hz : State → _ := z; clear hz; subst z) | clear_value z) | (intro; intros) | split

theorem State.pwmReady_kept {q0 : List Instr} {n0 : Nat} {s : State} (a : ℕ) (h : Kept q0 n0 s) : Kept q0 n0 (State.pwmReady s a) := by
  unfold State.pwmReady
  with_reducible repeat' first | assumption | simp -zeta only [Kept.upd] | apply State.count_kept | apply State.lo_kept | apply State.each_kept | apply State.clearCarry_kept | apply State.modCar_kept | apply Kept.ite | dsimp -zeta only | (extract_lets +onlyGivenNames z; first | (refine Kept.cut z ?_ ?_ <;> [subst z; (intro hz; clear_value z)]) | (refine Kept.cut2 z ?_ ?_ <;> [subst z; (intro hz; clear_value z)]) | (have hz : State → _ := z; clear hz; subst z) | clear_value z) | (intro; intros) | split

theorem State.pwmRun_kept {q0 : List Instr} {n0 : Nat} {s : State} (a : ℕ) (h : Kept q0 n0 s) : Kept q0 n0 (State.pwmRun s a) := by
  unfold State.pwmRun
  with_reducible repeat' first | assumption | simp -zeta only [Kept.upd] | apply State.modCar_kept | dsimp -zeta only | (extract_lets +onlyGivenNames z; first | (refine Kept.cut z ?_ ?_ <;> [subst z; (intro hz; clear_value z)]) | (refine Kept.cut2 z ?_ ?_ <;> [subst z; (intro hz; clear_value z)]) | (have hz : State → _ := z; clear hz; subst z) | clear_value z) | (intro; intros)

end Sys2Proof.Machine
end

