-- ==== Sys2Proof/Laws/KeptPosition.lean ====
section
/-!
SUPPORT. What the operations of Machine/Position keep: the queue, the clock and the form of the stores.
-/

namespace Sys2Proof.Machine

theorem State.modPos_kept {q0 : List Instr} {n0 : Nat} {s : State} (a : ℕ) (f : PosIf → PosIf) (h : Kept q0 n0 s) : Kept q0 n0 (State.modPos s a f) := by
  unfold State.modPos
  with_reducible repeat' first | assumption | simp -zeta only [Kept.upd] | dsimp -zeta only | (intro; intros)

theorem State.cmpJudge_kept {q0 : List Instr} {n0 : Nat} {s : State} (a : ℕ) (h : Kept q0 n0 s) : Kept q0 n0 (State.cmpJudge s a) := by
  unfold State.cmpJudge
  with_reducible repeat' first | assumption | simp -zeta only [Kept.upd] | apply State.modPos_kept | dsimp -zeta only | (extract_lets +onlyGivenNames z; first | (refine Kept.cut z ?_ ?_ <;> [subst z; (intro hz; clear_value z)]) | (refine Kept.cut2 z ?_ ?_ <;> [subst z; (intro hz; clear_value z)]) | (have hz : State → _ := z; clear hz; subst z) | clear_value z) | (intro; intros)

theorem State.posPublish_kept {q0 : List Instr} {n0 : Nat} {s : State} (a : ℕ) (h : Kept q0 n0 s) : Kept q0 n0 (State.posPublish s a) := by
  unfold State.posPublish
  with_reducible repeat' first | assumption | simp -zeta only [Kept.upd] | apply State.output_kept | apply State.cond_kept | apply State.modPos_kept | apply State.setReg_kept | apply State.wr_kept | apply State.wrB_kept | dsimp -zeta only | (extract_lets +onlyGivenNames z; first | (refine Kept.cut z ?_ ?_ <;> [subst z; (intro hz; clear_value z)]) | (refine Kept.cut2 z ?_ ?_ <;> [subst z; (intro hz; clear_value z)]) | (have hz : State → _ := z; clear hz; subst z) | clear_value z) | (intro; intros)

theorem State.posFail_kept {q0 : List Instr} {n0 : Nat} {s : State} (a : ℕ) (cause : ℕ) (h : Kept q0 n0 s) : Kept q0 n0 (State.posFail s a cause) := by
  unfold State.posFail
  with_reducible repeat' first | assumption | apply State.hi_kept | apply State.lo_kept | apply State.wr_kept | apply State.event_kept | apply Kept.ite | split

theorem State.posCount_kept {q0 : List Instr} {n0 : Nat} {s : State} (f : Fld) (a : ℕ) (h : Kept q0 n0 s) : Kept q0 n0 (State.posCount s f a) := by
  unfold State.posCount
  with_reducible repeat' first | assumption | apply State.count_kept

theorem State.posIllegal_kept {q0 : List Instr} {n0 : Nat} {s : State} (a : ℕ) (h : Kept q0 n0 s) : Kept q0 n0 (State.posIllegal s a) := by
  unfold State.posIllegal
  with_reducible repeat' first | assumption | simp -zeta only [Kept.upd] | apply State.hi_kept | apply State.posCount_kept | apply State.event_kept | apply State.modPos_kept | apply State.posFail_kept | apply Kept.ite | dsimp -zeta only | (extract_lets +onlyGivenNames z; first | (refine Kept.cut z ?_ ?_ <;> [subst z; (intro hz; clear_value z)]) | (refine Kept.cut2 z ?_ ?_ <;> [subst z; (intro hz; clear_value z)]) | (have hz : State → _ := z; clear hz; subst z) | clear_value z) | (intro; intros) | split

theorem State.motShift_kept {q0 : List Instr} {n0 : Nat} {s : State} (a : ℕ) (d : ℤ) (h : Kept q0 n0 s) : Kept q0 n0 (State.motShift s a d) := by
  unfold State.motShift
  with_reducible repeat' first | assumption | simp -zeta only [Kept.upd] | dsimp -zeta only | (extract_lets +onlyGivenNames z; first | (refine Kept.cut z ?_ ?_ <;> [subst z; (intro hz; clear_value z)]) | (refine Kept.cut2 z ?_ ?_ <;> [subst z; (intro hz; clear_value z)]) | (have hz : State → _ := z; clear hz; subst z) | clear_value z) | (intro; intros) | split

theorem State.posCorrect_kept {q0 : List Instr} {n0 : Nat} {s : State} (a : ℕ) (c : ℤ) (h : Kept q0 n0 s) : Kept q0 n0 (State.posCorrect s a c) := by
  unfold State.posCorrect
  with_reducible repeat' first | assumption | simp -zeta only [Kept.upd] | apply State.modPos_kept | apply State.hi_kept | apply State.motShift_kept | apply State.setReg_kept | apply Kept.ite | dsimp -zeta only | (extract_lets +onlyGivenNames z; first | (refine Kept.cut z ?_ ?_ <;> [subst z; (intro hz; clear_value z)]) | (refine Kept.cut2 z ?_ ?_ <;> [subst z; (intro hz; clear_value z)]) | (have hz : State → _ := z; clear hz; subst z) | clear_value z) | (intro; intros) | split

theorem State.posMove_kept {q0 : List Instr} {n0 : Nat} {s : State} (a : ℕ) (ts : ℕ) (d : ℤ) (next : ℕ) (ivs : List (ℕ × ℤ)) (h : Kept q0 n0 s) : Kept q0 n0 (State.posMove s a ts d next ivs) := by
  unfold State.posMove
  with_reducible repeat' first | assumption | simp -zeta only [Kept.upd] | apply State.modPos_kept | apply step_kept | apply Kept.ite | dsimp -zeta only | (extract_lets +onlyGivenNames z; first | (refine Kept.cut z ?_ ?_ <;> [subst z; (intro hz; clear_value z)]) | (refine Kept.cut2 z ?_ ?_ <;> [subst z; (intro hz; clear_value z)]) | (have hz : State → _ := z; clear hz; subst z) | clear_value z) | (intro; intros) | split

theorem State.posLatch_kept {q0 : List Instr} {n0 : Nat} {s : State} (a : ℕ) (h : Kept q0 n0 s) : Kept q0 n0 (State.posLatch s a) := by
  unfold State.posLatch
  with_reducible repeat' first | assumption | simp -zeta only [Kept.upd] | apply State.event_kept | apply State.posPublish_kept | apply State.modPos_kept | dsimp -zeta only | (extract_lets +onlyGivenNames z; first | (refine Kept.cut z ?_ ?_ <;> [subst z; (intro hz; clear_value z)]) | (refine Kept.cut2 z ?_ ?_ <;> [subst z; (intro hz; clear_value z)]) | (have hz : State → _ := z; clear hz; subst z) | clear_value z) | (intro; intros)

theorem State.excUpdate_kept {q0 : List Instr} {n0 : Nat} {s : State} (a : ℕ) (restart : Bool) (h : Kept q0 n0 s) : Kept q0 n0 (State.excUpdate s a restart) := by
  unfold State.excUpdate
  with_reducible repeat' first | assumption | simp -zeta only [Kept.upd] | apply State.cond_kept | apply State.modPos_kept | apply Kept.ite | dsimp -zeta only | (extract_lets +onlyGivenNames z; first | (refine Kept.cut z ?_ ?_ <;> [subst z; (intro hz; clear_value z)]) | (refine Kept.cut2 z ?_ ?_ <;> [subst z; (intro hz; clear_value z)]) | (have hz : State → _ := z; clear hz; subst z) | clear_value z) | (intro; intros) | split

theorem State.posReady_kept {q0 : List Instr} {n0 : Nat} {s : State} (a : ℕ) (h : Kept q0 n0 s) : Kept q0 n0 (State.posReady s a) := by
  unfold State.posReady
  with_reducible repeat' first | assumption | simp -zeta only [Kept.upd] | apply State.lo_kept | apply State.wr_kept | apply State.modPos_kept | apply State.hi_kept | apply State.posFail_kept | apply State.excUpdate_kept | apply State.posPublish_kept | apply Kept.ite | dsimp -zeta only | (extract_lets +onlyGivenNames z; first | (refine Kept.cut z ?_ ?_ <;> [subst z; (intro hz; clear_value z)]) | (refine Kept.cut2 z ?_ ?_ <;> [subst z; (intro hz; clear_value z)]) | (have hz : State → _ := z; clear hz; subst z) | clear_value z) | (intro; intros) | split

end Sys2Proof.Machine
end

