-- ==== Sys2Proof/Laws/KeptHooks.lean ====
section
/-!
SUPPORT. What the operations of Machine/Hooks keep: the queue, the clock and the form of the stores.
-/

namespace Sys2Proof.Machine

theorem State.modFc_kept {q0 : List Instr} {n0 : Nat} {s : State} (a : ℕ) (f : FieldAxis → FieldAxis) (h : Kept q0 n0 s) : Kept q0 n0 (State.modFc s a f) := by
  unfold State.modFc
  with_reducible repeat' first | assumption | simp -zeta only [Kept.upd] | dsimp -zeta only | (intro; intros)

theorem State.modMot_kept {q0 : List Instr} {n0 : Nat} {s : State} (a : ℕ) (f : MotAxis → MotAxis) (h : Kept q0 n0 s) : Kept q0 n0 (State.modMot s a f) := by
  unfold State.modMot
  with_reducible repeat' first | assumption | simp -zeta only [Kept.upd] | dsimp -zeta only | (intro; intros)

theorem State.modHov_kept {q0 : List Instr} {n0 : Nat} {s : State} (a : ℕ) (f : HovAxis → HovAxis) (h : Kept q0 n0 s) : Kept q0 n0 (State.modHov s a f) := by
  unfold State.modHov
  with_reducible repeat' first | assumption | simp -zeta only [Kept.upd] | dsimp -zeta only | (intro; intros)

theorem State.runOk_kept {q0 : List Instr} {n0 : Nat} {s : State} (h : Kept q0 n0 s) : Kept q0 n0 (State.runOk s) := by
  unfold State.runOk
  with_reducible repeat' first | assumption | apply State.wrB_kept

theorem State.sendHov_kept {q0 : List Instr} {n0 : Nat} {s : State} (a : ℕ) (up : Bool) (ty : ℕ) (payload : List Byte) (h : Kept q0 n0 s) : Kept q0 n0 (State.sendHov s a up ty payload) := by
  unfold State.sendHov
  with_reducible repeat' first | assumption | simp -zeta only [Kept.upd] | apply State.sendFrame_kept | apply Kept.ite | dsimp -zeta only | split

theorem State.hovCountAbort_kept {q0 : List Instr} {n0 : Nat} {s : State} (a : ℕ) (reason : ℕ) (h : Kept q0 n0 s) : Kept q0 n0 (State.hovCountAbort s a reason) := by
  unfold State.hovCountAbort
  with_reducible repeat' first | assumption | apply State.wr_kept | apply State.count_kept | dsimp -zeta only | (extract_lets +onlyGivenNames z; first | (refine Kept.cut z ?_ ?_ <;> [subst z; (intro hz; clear_value z)]) | (refine Kept.cut2 z ?_ ?_ <;> [subst z; (intro hz; clear_value z)]) | (have hz : State → _ := z; clear hz; subst z) | clear_value z)

theorem State.abortSent_kept {q0 : List Instr} {n0 : Nat} {s : State} (a : ℕ) (reason : ℕ) (h : Kept q0 n0 s) : Kept q0 n0 (State.abortSent s a reason) := by
  unfold State.abortSent
  with_reducible repeat' first | assumption | apply State.hi_kept | apply State.hovCountAbort_kept | apply State.event_kept

theorem State.sendAbort_kept {q0 : List Instr} {n0 : Nat} {s : State} (a : ℕ) (up : Bool) (reason : ℕ) (h : Kept q0 n0 s) : Kept q0 n0 (State.sendAbort s a up reason) := by
  unfold State.sendAbort
  with_reducible repeat' first | assumption | apply State.sendHov_kept | apply State.abortSent_kept

theorem State.portAbort_kept {q0 : List Instr} {n0 : Nat} {s : State} (a : ℕ) (up : Bool) (reason : ℕ) (h : Kept q0 n0 s) : Kept q0 n0 (State.portAbort s a up reason) := by
  unfold State.portAbort
  with_reducible repeat' first | assumption | apply State.sendFrame_kept | apply State.abortSent_kept | apply Kept.ite | split

theorem State.hovAborted_kept {q0 : List Instr} {n0 : Nat} {s : State} (a : ℕ) (h : Kept q0 n0 s) : Kept q0 n0 (State.hovAborted s a) := by
  unfold State.hovAborted
  with_reducible repeat' first | assumption | simp -zeta only [Kept.upd] | apply State.wr_kept | apply State.modHov_kept | dsimp -zeta only | (intro; intros)

theorem State.hovLose_kept {q0 : List Instr} {n0 : Nat} {s : State} (a : ℕ) (h : Kept q0 n0 s) : Kept q0 n0 (State.hovLose s a) := by
  unfold State.hovLose
  with_reducible repeat' first | assumption | simp -zeta only [Kept.upd] | apply State.sendAbort_kept | apply State.hovAborted_kept | apply State.modHov_kept | apply Kept.ite | dsimp -zeta only | (extract_lets +onlyGivenNames z; first | (refine Kept.cut z ?_ ?_ <;> [subst z; (intro hz; clear_value z)]) | (refine Kept.cut2 z ?_ ?_ <;> [subst z; (intro hz; clear_value z)]) | (have hz : State → _ := z; clear hz; subst z) | clear_value z) | (intro; intros) | split

theorem State.preLatch_kept {q0 : List Instr} {n0 : Nat} {s : State} (a : ℕ) (h : Kept q0 n0 s) : Kept q0 n0 (State.preLatch s a) := by
  unfold State.preLatch
  with_reducible repeat' first | assumption | simp -zeta only [Kept.upd] | apply State.modFc_kept | apply Kept.ite | dsimp -zeta only | (extract_lets +onlyGivenNames z; first | (refine Kept.cut z ?_ ?_ <;> [subst z; (intro hz; clear_value z)]) | (refine Kept.cut2 z ?_ ?_ <;> [subst z; (intro hz; clear_value z)]) | (have hz : State → _ := z; clear hz; subst z) | clear_value z) | (intro; intros) | split

theorem State.catchAbort_kept {q0 : List Instr} {n0 : Nat} {s : State} (a : ℕ) (status : ℕ) (h : Kept q0 n0 s) : Kept q0 n0 (State.catchAbort s a status) := by
  unfold State.catchAbort
  with_reducible repeat' first | assumption | simp -zeta only [Kept.upd] | apply State.modFc_kept | apply State.complete_kept | apply State.lo_kept | apply State.wr_kept | dsimp -zeta only | (extract_lets +onlyGivenNames z; first | (refine Kept.cut z ?_ ?_ <;> [subst z; (intro hz; clear_value z)]) | (refine Kept.cut2 z ?_ ?_ <;> [subst z; (intro hz; clear_value z)]) | (have hz : State → _ := z; clear hz; subst z) | clear_value z) | (intro; intros) | split

theorem State.genStop_kept {q0 : List Instr} {n0 : Nat} {s : State} (a : ℕ) (h : Kept q0 n0 s) : Kept q0 n0 (State.genStop s a) := by
  unfold State.genStop
  with_reducible repeat' first | assumption | simp -zeta only [Kept.upd] | apply State.modMot_kept | dsimp -zeta only | (intro; intros)

theorem State.fieldStopRun_kept {q0 : List Instr} {n0 : Nat} {s : State} (a : ℕ) (h : Kept q0 n0 s) : Kept q0 n0 (State.fieldStopRun s a) := by
  unfold State.fieldStopRun
  with_reducible repeat' first | assumption | simp -zeta only [Kept.upd] | apply State.cond_kept | apply State.genStop_kept | apply State.complete_kept | apply State.lo_kept | apply State.modFc_kept | dsimp -zeta only | (extract_lets +onlyGivenNames z; first | (refine Kept.cut z ?_ ?_ <;> [subst z; (intro hz; clear_value z)]) | (refine Kept.cut2 z ?_ ?_ <;> [subst z; (intro hz; clear_value z)]) | (have hz : State → _ := z; clear hz; subst z) | clear_value z) | (intro; intros) | split

theorem State.profileEnd_kept {q0 : List Instr} {n0 : Nat} {s : State} (a : ℕ) (h : Kept q0 n0 s) : Kept q0 n0 (State.profileEnd s a) := by
  unfold State.profileEnd
  with_reducible repeat' first | assumption | simp -zeta only [Kept.upd] | apply State.wr_kept | apply State.modMot_kept | dsimp -zeta only | (intro; intros)

theorem State.readyHook_kept {q0 : List Instr} {n0 : Nat} {s : State} (a : ℕ) (h : Kept q0 n0 s) : Kept q0 n0 (State.readyHook s a) := by
  unfold State.readyHook
  with_reducible repeat' first | assumption | simp -zeta only [Kept.upd] | apply State.count_kept | apply State.pwmReady_kept | apply State.posReady_kept | apply State.cond_kept | apply State.lo_kept | apply State.modFc_kept | apply State.preLatch_kept | apply State.wr_kept | apply State.modHov_kept | dsimp -zeta only | (extract_lets +onlyGivenNames z; first | (refine Kept.cut z ?_ ?_ <;> [subst z; (intro hz; clear_value z)]) | (refine Kept.cut2 z ?_ ?_ <;> [subst z; (intro hz; clear_value z)]) | (have hz : State → _ := z; clear hz; subst z) | clear_value z) | (intro; intros)

theorem State.runHook_kept {q0 : List Instr} {n0 : Nat} {s : State} (a : ℕ) (h : Kept q0 n0 s) : Kept q0 n0 (State.runHook s a) := by
  unfold State.runHook
  with_reducible repeat' first | assumption | simp -zeta only [Kept.upd] | apply State.cond_kept | apply State.pwmRun_kept | apply State.lo_kept | apply State.modFc_kept | apply State.modMot_kept | dsimp -zeta only | (extract_lets +onlyGivenNames z; first | (refine Kept.cut z ?_ ?_ <;> [subst z; (intro hz; clear_value z)]) | (refine Kept.cut2 z ?_ ?_ <;> [subst z; (intro hz; clear_value z)]) | (have hz : State → _ := z; clear hz; subst z) | clear_value z) | (intro; intros)

theorem State.limpHook_kept {q0 : List Instr} {n0 : Nat} {s : State} (a : ℕ) (h : Kept q0 n0 s) : Kept q0 n0 (State.limpHook s a) := by
  unfold State.limpHook
  with_reducible repeat' first | assumption | simp -zeta only [Kept.upd] | apply State.modMot_kept | dsimp -zeta only | (intro; intros)

theorem State.holdHook_kept {q0 : List Instr} {n0 : Nat} {s : State} (a : ℕ) (h : Kept q0 n0 s) : Kept q0 n0 (State.holdHook s a) := by
  unfold State.holdHook
  with_reducible repeat' first | assumption | simp -zeta only [Kept.upd] | apply State.catchAbort_kept | apply State.hovLose_kept | apply State.cond_kept | apply State.traceHit_kept | apply State.lo_kept | apply State.modFc_kept | apply State.preLatch_kept | dsimp -zeta only | (extract_lets +onlyGivenNames z; first | (refine Kept.cut z ?_ ?_ <;> [subst z; (intro hz; clear_value z)]) | (refine Kept.cut2 z ?_ ?_ <;> [subst z; (intro hz; clear_value z)]) | (have hz : State → _ := z; clear hz; subst z) | clear_value z) | (intro; intros)

end Sys2Proof.Machine
end

