-- ==== Sys2Proof/Laws/KeptModes.lean ====
section
/-!
SUPPORT. What the operations of Machine/Modes keep: the queue, the clock and the form of the stores.
-/

namespace Sys2Proof.Machine

theorem State.modUz_kept {q0 : List Instr} {n0 : Nat} {s : State} (a : ℕ) (f : UzAxis → UzAxis) (h : Kept q0 n0 s) : Kept q0 n0 (State.modUz s a f) := by
  unfold State.modUz
  with_reducible repeat' first | assumption | simp -zeta only [Kept.upd] | dsimp -zeta only | (intro; intros)

theorem State.modSaf_kept {q0 : List Instr} {n0 : Nat} {s : State} (f : Uzodar → Uzodar) (h : Kept q0 n0 s) : Kept q0 n0 (State.modSaf s f) := by
  unfold State.modSaf
  with_reducible repeat' first | assumption | simp -zeta only [Kept.upd]

theorem State.storeMode_kept {q0 : List Instr} {n0 : Nat} {s : State} (m : ℕ) (h : Kept q0 n0 s) : Kept q0 n0 (State.storeMode s m) := by
  unfold State.storeMode
  with_reducible repeat' first | assumption | simp -zeta only [Kept.upd] | apply State.cond_kept | apply State.wr_kept | apply State.diagCut_kept | apply Kept.ite | dsimp -zeta only | (extract_lets +onlyGivenNames z; first | (refine Kept.cut z ?_ ?_ <;> [subst z; (intro hz; clear_value z)]) | (refine Kept.cut2 z ?_ ?_ <;> [subst z; (intro hz; clear_value z)]) | (have hz : State → _ := z; clear hz; subst z) | clear_value z) | (intro; intros) | split

theorem State.faultN_kept {q0 : List Instr} {n0 : Nat} {s : State} (h : Kept q0 n0 s) : Kept q0 n0 (State.faultN s) := by
  unfold State.faultN
  with_reducible repeat' first | assumption | simp -zeta only [Kept.upd] | dsimp -zeta only | (extract_lets +onlyGivenNames z; first | (refine Kept.cut z ?_ ?_ <;> [subst z; (intro hz; clear_value z)]) | (refine Kept.cut2 z ?_ ?_ <;> [subst z; (intro hz; clear_value z)]) | (have hz : State → _ := z; clear hz; subst z) | clear_value z) | (intro; intros) | split

theorem State.limpCount_kept {q0 : List Instr} {n0 : Nat} {s : State} (a : ℕ) (h : Kept q0 n0 s) : Kept q0 n0 (State.limpCount s a) := by
  unfold State.limpCount
  with_reducible repeat' first | assumption | simp -zeta only [Kept.upd] | apply State.modUz_kept | apply State.wrSat_kept | dsimp -zeta only | (extract_lets +onlyGivenNames z; first | (refine Kept.cut z ?_ ?_ <;> [subst z; (intro hz; clear_value z)]) | (refine Kept.cut2 z ?_ ?_ <;> [subst z; (intro hz; clear_value z)]) | (have hz : State → _ := z; clear hz; subst z) | clear_value z) | (intro; intros) | split

theorem State.leaveRun_kept {q0 : List Instr} {n0 : Nat} {s : State} (a : ℕ) (h : Kept q0 n0 s) : Kept q0 n0 (State.leaveRun s a) := by
  unfold State.leaveRun
  with_reducible repeat' first | assumption | apply State.outputsOff_kept | apply State.profileEnd_kept | apply State.fieldStopRun_kept | dsimp -zeta only | (extract_lets +onlyGivenNames z; first | (refine Kept.cut z ?_ ?_ <;> [subst z; (intro hz; clear_value z)]) | (refine Kept.cut2 z ?_ ?_ <;> [subst z; (intro hz; clear_value z)]) | (have hz : State → _ := z; clear hz; subst z) | clear_value z)

theorem State.soDrive_kept {q0 : List Instr} {n0 : Nat} {s : State} (n : ℕ) (on : Bool) (h : Kept q0 n0 s) : Kept q0 n0 (State.soDrive s n on) := by
  unfold State.soDrive
  with_reducible repeat' first | assumption | simp -zeta only [Kept.upd] | apply State.output_kept | apply State.cond_kept | apply State.modSaf_kept | apply State.wrB_kept | apply Kept.ite | dsimp -zeta only | (extract_lets +onlyGivenNames z; first | (refine Kept.cut z ?_ ?_ <;> [subst z; (intro hz; clear_value z)]) | (refine Kept.cut2 z ?_ ?_ <;> [subst z; (intro hz; clear_value z)]) | (have hz : State → _ := z; clear hz; subst z) | clear_value z) | (intro; intros) | split

theorem State.soUpdate_kept {q0 : List Instr} {n0 : Nat} {s : State} (h : Kept q0 n0 s) : Kept q0 n0 (State.soUpdate s) := by
  unfold State.soUpdate
  with_reducible repeat' first | assumption | apply State.output_kept | apply State.each_kept | apply State.soDrive_kept | dsimp -zeta only | (intro; intros)

theorem State.brakeTestLost_kept {q0 : List Instr} {n0 : Nat} {s : State} (a : ℕ) (h : Kept q0 n0 s) : Kept q0 n0 (State.brakeTestLost s a) := by
  unfold State.brakeTestLost
  with_reducible repeat' first | assumption | simp -zeta only [Kept.upd] | apply State.done_kept | apply State.modSaf_kept | apply State.complete_kept | apply Kept.ite | dsimp -zeta only | (intro; intros) | split

theorem State.clearSs1_kept {q0 : List Instr} {n0 : Nat} {s : State} (a : ℕ) (h : Kept q0 n0 s) : Kept q0 n0 (State.clearSs1 s a) := by
  unfold State.clearSs1
  with_reducible repeat' first | assumption | simp -zeta only [Kept.upd] | apply State.event_kept | apply State.cond_kept | apply State.lo_kept | apply State.modUz_kept | dsimp -zeta only | (extract_lets +onlyGivenNames z; first | (refine Kept.cut z ?_ ?_ <;> [subst z; (intro hz; clear_value z)]) | (refine Kept.cut2 z ?_ ?_ <;> [subst z; (intro hz; clear_value z)]) | (have hz : State → _ := z; clear hz; subst z) | clear_value z) | (intro; intros) | split

theorem State.enterReady_kept {q0 : List Instr} {n0 : Nat} {s : State} (a : ℕ) (h : Kept q0 n0 s) : Kept q0 n0 (State.enterReady s a) := by
  unfold State.enterReady
  with_reducible repeat' first | assumption | simp -zeta only [Kept.upd] | apply State.readyHook_kept | apply State.wr_kept | apply State.modUz_kept | dsimp -zeta only | (intro; intros)

theorem State.setAxMode_kept {q0 : List Instr} {n0 : Nat} {s : State} (a : ℕ) (m : ℕ) (h : Kept q0 n0 s) : Kept q0 n0 (State.setAxMode s a m) := by
  unfold State.setAxMode
  with_reducible repeat' first | assumption | simp -zeta only [Kept.upd] | apply State.event_kept | apply State.limpCount_kept | apply State.wr_kept | apply State.cond_kept | apply State.leaveRun_kept | apply State.brakeTestLost_kept | apply State.clearSs1_kept | apply State.modUz_kept | apply State.enterReady_kept | apply State.runHook_kept | apply State.limpHook_kept | apply State.holdHook_kept | apply State.storeMode_kept | apply State.soUpdate_kept | apply State.faultN_kept | apply State.each_kept | apply State.catchAbort_kept | apply State.capture_kept | apply Kept.ite | dsimp -zeta only | (extract_lets +onlyGivenNames z; first | (refine Kept.cut z ?_ ?_ <;> [subst z; (intro hz; clear_value z)]) | (refine Kept.cut2 z ?_ ?_ <;> [subst z; (intro hz; clear_value z)]) | (have hz : State → _ := z; clear hz; subst z) | clear_value z) | (intro; intros) | split

theorem State.putGate_kept {q0 : List Instr} {n0 : Nat} {s : State} (a : ℕ) (g : UzGate) (w : UzWhy) (h : Kept q0 n0 s) : Kept q0 n0 (State.putGate s a g w) := by
  unfold State.putGate
  with_reducible repeat' first | assumption | simp -zeta only [Kept.upd] | apply State.modUz_kept | apply State.wrB_kept | apply State.uzGateToChannels_kept | apply State.cond_kept | apply State.event_kept | apply Kept.ite | dsimp -zeta only | (extract_lets +onlyGivenNames z; first | (refine Kept.cut z ?_ ?_ <;> [subst z; (intro hz; clear_value z)]) | (refine Kept.cut2 z ?_ ?_ <;> [subst z; (intro hz; clear_value z)]) | (have hz : State → _ := z; clear hz; subst z) | clear_value z) | (intro; intros) | split

theorem State.openCo1_kept {q0 : List Instr} {n0 : Nat} {s : State} (h : Kept q0 n0 s) : Kept q0 n0 (State.openCo1 s) := by
  unfold State.openCo1
  with_reducible repeat' first | assumption | simp -zeta only [Kept.upd] | apply State.cond_kept | apply State.lo_kept | apply State.hi_kept | apply State.modSaf_kept | dsimp -zeta only | (intro; intros)

theorem State.openContactors_kept {q0 : List Instr} {n0 : Nat} {s : State} (h : Kept q0 n0 s) : Kept q0 n0 (State.openContactors s) := by
  unfold State.openContactors
  with_reducible repeat' first | assumption | simp -zeta only [Kept.upd] | apply State.cond_kept | apply State.lo_kept | apply State.hi_kept | apply State.modSaf_kept | apply State.openCo1_kept | dsimp -zeta only | (extract_lets +onlyGivenNames z; first | (refine Kept.cut z ?_ ?_ <;> [subst z; (intro hz; clear_value z)]) | (refine Kept.cut2 z ?_ ?_ <;> [subst z; (intro hz; clear_value z)]) | (have hz : State → _ := z; clear hz; subst z) | clear_value z) | (intro; intros)

theorem State.dchDone_kept {q0 : List Instr} {n0 : Nat} {s : State} (status : ℕ) (h : Kept q0 n0 s) : Kept q0 n0 (State.dchDone s status) := by
  unfold State.dchDone
  with_reducible repeat' first | assumption | simp -zeta only [Kept.upd] | apply State.complete_kept | apply foldl_kept | apply foldl2_kept | dsimp -zeta only | (extract_lets +onlyGivenNames z; first | (refine Kept.cut z ?_ ?_ <;> [subst z; (intro hz; clear_value z)]) | (refine Kept.cut2 z ?_ ?_ <;> [subst z; (intro hz; clear_value z)]) | (have hz : State → _ := z; clear hz; subst z) | clear_value z) | (intro; intros)

theorem State.dchBarred_kept {q0 : List Instr} {n0 : Nat} {s : State} (h : Kept q0 n0 s) : Kept q0 n0 (State.dchBarred s) := by
  unfold State.dchBarred
  with_reducible repeat' first | assumption | apply State.event_kept | apply State.dchDone_kept

theorem State.requestDischarge_kept {q0 : List Instr} {n0 : Nat} {s : State} (h : Kept q0 n0 s) : Kept q0 n0 (State.requestDischarge s) := by
  unfold State.requestDischarge
  with_reducible repeat' first | assumption | simp -zeta only [Kept.upd] | apply State.openContactors_kept | apply State.modSaf_kept | apply State.cond_kept | apply State.dchBarred_kept | apply Kept.ite | dsimp -zeta only | (extract_lets +onlyGivenNames z; first | (refine Kept.cut z ?_ ?_ <;> [subst z; (intro hz; clear_value z)]) | (refine Kept.cut2 z ?_ ?_ <;> [subst z; (intro hz; clear_value z)]) | (have hz : State → _ := z; clear hz; subst z) | clear_value z) | (intro; intros) | split

theorem State.markRow_kept {q0 : List Instr} {n0 : Nat} {s : State} (a : ℕ) (k : ℕ) (h : Kept q0 n0 s) : Kept q0 n0 (State.markRow s a k) := by
  unfold State.markRow
  with_reducible repeat' first | assumption | apply State.event_kept | apply State.wr_kept | apply State.hi_kept | apply Kept.ite | dsimp -zeta only | (extract_lets +onlyGivenNames z; first | (refine Kept.cut z ?_ ?_ <;> [subst z; (intro hz; clear_value z)]) | (refine Kept.cut2 z ?_ ?_ <;> [subst z; (intro hz; clear_value z)]) | (have hz : State → _ := z; clear hz; subst z) | clear_value z) | split

theorem State.rowModes_kept {q0 : List Instr} {n0 : Nat} {s : State} (a : ℕ) (hold : Bool) (limp : Bool) (h : Kept q0 n0 s) : Kept q0 n0 (State.rowModes s a hold limp) := by
  unfold State.rowModes
  with_reducible repeat' first | assumption | apply State.effect_kept | apply State.hold_kept | apply State.setAxMode_kept | apply Kept.ite | dsimp -zeta only | (extract_lets +onlyGivenNames z; first | (refine Kept.cut z ?_ ?_ <;> [subst z; (intro hz; clear_value z)]) | (refine Kept.cut2 z ?_ ?_ <;> [subst z; (intro hz; clear_value z)]) | (have hz : State → _ := z; clear hz; subst z) | clear_value z) | split

theorem State.otherAxis_kept {q0 : List Instr} {n0 : Nat} {s : State} (a : ℕ) (k : ℕ) (h : Kept q0 n0 s) : Kept q0 n0 (State.otherAxis s a k) := by
  unfold State.otherAxis
  with_reducible repeat' first | assumption | simp -zeta only [Kept.upd] | apply State.cond_kept | apply State.modUz_kept | apply State.rowModes_kept | dsimp -zeta only | (extract_lets +onlyGivenNames z; first | (refine Kept.cut z ?_ ?_ <;> [subst z; (intro hz; clear_value z)]) | (refine Kept.cut2 z ?_ ?_ <;> [subst z; (intro hz; clear_value z)]) | (have hz : State → _ := z; clear hz; subst z) | clear_value z) | (intro; intros)

theorem State.ss1Other_kept {q0 : List Instr} {n0 : Nat} {s : State} (a : ℕ) (h : Kept q0 n0 s) : Kept q0 n0 (State.ss1Other s a) := by
  unfold State.ss1Other
  with_reducible repeat' first | assumption | simp -zeta only [Kept.upd] | apply State.modUz_kept | apply State.each_kept | apply State.otherAxis_kept | apply Kept.ite | dsimp -zeta only | (extract_lets +onlyGivenNames z; first | (refine Kept.cut z ?_ ?_ <;> [subst z; (intro hz; clear_value z)]) | (refine Kept.cut2 z ?_ ?_ <;> [subst z; (intro hz; clear_value z)]) | (have hz : State → _ := z; clear hz; subst z) | clear_value z) | (intro; intros) | split

theorem State.regate_kept {q0 : List Instr} {n0 : Nat} {s : State} (a : ℕ) (h : Kept q0 n0 s) : Kept q0 n0 (State.regate s a) := by
  unfold State.regate
  with_reducible repeat' first | assumption | apply State.ss1Other_kept | apply State.putGate_kept | dsimp -zeta only | (extract_lets +onlyGivenNames z; first | (refine Kept.cut z ?_ ?_ <;> [subst z; (intro hz; clear_value z)]) | (refine Kept.cut2 z ?_ ?_ <;> [subst z; (intro hz; clear_value z)]) | (have hz : State → _ := z; clear hz; subst z) | clear_value z)

theorem State.latchedBit_kept {q0 : List Instr} {n0 : Nat} {s : State} (h : Kept q0 n0 s) : Kept q0 n0 (State.latchedBit s) := by
  unfold State.latchedBit
  with_reducible repeat' first | assumption | apply State.wrB_kept

theorem State.stoActive_kept {q0 : List Instr} {n0 : Nat} {s : State} (h : Kept q0 n0 s) : Kept q0 n0 (State.stoActive s) := by
  unfold State.stoActive
  with_reducible repeat' first | assumption | apply State.hi_kept | apply State.event_kept | apply State.each_kept | apply State.cond_kept | apply State.clearSs1_kept | apply State.rowModes_kept | apply State.regate_kept | apply State.soUpdate_kept | apply State.latchedBit_kept | apply Kept.ite | dsimp -zeta only | (extract_lets +onlyGivenNames z; first | (refine Kept.cut z ?_ ?_ <;> [subst z; (intro hz; clear_value z)]) | (refine Kept.cut2 z ?_ ?_ <;> [subst z; (intro hz; clear_value z)]) | (have hz : State → _ := z; clear hz; subst z) | clear_value z) | (intro; intros) | split

theorem State.endSs1_kept {q0 : List Instr} {n0 : Nat} {s : State} (a : ℕ) (h : Kept q0 n0 s) : Kept q0 n0 (State.endSs1 s a) := by
  unfold State.endSs1
  with_reducible repeat' first | assumption | simp -zeta only [Kept.upd] | apply State.clearSs1_kept | apply State.cond_kept | apply State.modUz_kept | dsimp -zeta only | (extract_lets +onlyGivenNames z; first | (refine Kept.cut z ?_ ?_ <;> [subst z; (intro hz; clear_value z)]) | (refine Kept.cut2 z ?_ ?_ <;> [subst z; (intro hz; clear_value z)]) | (have hz : State → _ := z; clear hz; subst z) | clear_value z) | (intro; intros)

theorem State.startSs1_kept {q0 : List Instr} {n0 : Nat} {s : State} (a : ℕ) (sto : Bool) (h : Kept q0 n0 s) : Kept q0 n0 (State.startSs1 s a sto) := by
  unfold State.startSs1
  with_reducible repeat' first | assumption | simp -zeta only [Kept.upd] | apply State.event_kept | apply State.modUz_kept | apply State.hi_kept | apply State.capture_kept | apply Kept.ite | dsimp -zeta only | (extract_lets +onlyGivenNames z; first | (refine Kept.cut z ?_ ?_ <;> [subst z; (intro hz; clear_value z)]) | (refine Kept.cut2 z ?_ ?_ <;> [subst z; (intro hz; clear_value z)]) | (have hz : State → _ := z; clear hz; subst z) | clear_value z) | (intro; intros) | split

theorem State.enterRun_kept {q0 : List Instr} {n0 : Nat} {s : State} (a : ℕ) (h : Kept q0 n0 s) : Kept q0 n0 (State.enterRun s a) := by
  unfold State.enterRun
  with_reducible repeat' first | assumption | apply State.setAxMode_kept | apply Kept.ite | dsimp -zeta only | (extract_lets +onlyGivenNames z; first | (refine Kept.cut z ?_ ?_ <;> [subst z; (intro hz; clear_value z)]) | (refine Kept.cut2 z ?_ ?_ <;> [subst z; (intro hz; clear_value z)]) | (have hz : State → _ := z; clear hz; subst z) | clear_value z) | (intro; intros) | split

theorem State.activateRaw_kept {q0 : List Instr} {n0 : Nat} {s : State} (k : ℕ) (l : List ℕ) (h : Kept q0 n0 s) : Kept q0 n0 (State.activateRaw s k l) := by
  unfold State.activateRaw
  with_reducible repeat' first | assumption | simp -zeta only [Kept.upd] | apply State.each_kept | apply State.markRow_kept | apply State.startSs1_kept | apply State.rowModes_kept | apply State.cond_kept | apply State.endSs1_kept | apply State.modUz_kept | apply State.otherAxis_kept | apply State.openContactors_kept | apply State.requestDischarge_kept | apply State.regate_kept | apply Kept.ite | dsimp -zeta only | (extract_lets +onlyGivenNames z; first | (refine Kept.cut z ?_ ?_ <;> [subst z; (intro hz; clear_value z)]) | (refine Kept.cut2 z ?_ ?_ <;> [subst z; (intro hz; clear_value z)]) | (have hz : State → _ := z; clear hz; subst z) | clear_value z) | (intro; intros) | split

theorem State.putSub_kept {q0 : List Instr} {n0 : Nat} {s : State} (a : ℕ) (x2 : State.Subst) (h : Kept q0 n0 s) : Kept q0 n0 (State.putSub s a x2) := by
  unfold State.putSub
  with_reducible repeat' first | assumption | apply State.activateRaw_kept | split

theorem State.stoClear_kept {q0 : List Instr} {n0 : Nat} {s : State} (h : Kept q0 n0 s) : Kept q0 n0 (State.stoClear s) := by
  unfold State.stoClear
  with_reducible repeat' first | assumption | simp -zeta only [Kept.upd] | apply State.lo_kept | apply State.event_kept | apply State.each_kept | apply State.modUz_kept | apply State.putSub_kept | apply State.regate_kept | apply State.soUpdate_kept | apply State.latchedBit_kept | apply Kept.ite | dsimp -zeta only | (extract_lets +onlyGivenNames z; first | (refine Kept.cut z ?_ ?_ <;> [subst z; (intro hz; clear_value z)]) | (refine Kept.cut2 z ?_ ?_ <;> [subst z; (intro hz; clear_value z)]) | (have hz : State → _ := z; clear hz; subst z) | clear_value z) | (intro; intros) | split

theorem State.stoAfter_kept {q0 : List Instr} {n0 : Nat} {s : State} (had : Bool) (h : Kept q0 n0 s) : Kept q0 n0 (State.stoAfter s had) := by
  unfold State.stoAfter
  with_reducible repeat' first | assumption | apply State.stoActive_kept | apply State.stoClear_kept | apply Kept.ite | dsimp -zeta only | (intro; intros) | split

theorem State.activateOn_kept {q0 : List Instr} {n0 : Nat} {s : State} (k : ℕ) (l : List ℕ) (h : Kept q0 n0 s) : Kept q0 n0 (State.activateOn s k l) := by
  unfold State.activateOn
  with_reducible repeat' first | assumption | apply State.activateRaw_kept | apply State.stoAfter_kept | dsimp -zeta only | (extract_lets +onlyGivenNames z; first | (refine Kept.cut z ?_ ?_ <;> [subst z; (intro hz; clear_value z)]) | (refine Kept.cut2 z ?_ ?_ <;> [subst z; (intro hz; clear_value z)]) | (have hz : State → _ := z; clear hz; subst z) | clear_value z) | (intro; intros)

theorem State.substituteBy_kept {q0 : List Instr} {n0 : Nat} {s : State} (a : ℕ) (x2 : State.Subst) (h : Kept q0 n0 s) : Kept q0 n0 (State.substituteBy s a x2) := by
  unfold State.substituteBy
  with_reducible repeat' first | assumption | apply State.activateOn_kept | split

theorem State.substitute_kept {q0 : List Instr} {n0 : Nat} {s : State} (a : ℕ) (h : Kept q0 n0 s) : Kept q0 n0 (State.substitute s a) := by
  unfold State.substitute
  with_reducible repeat' first | assumption | apply State.substituteBy_kept

theorem State.activateFor_kept {q0 : List Instr} {n0 : Nat} {s : State} (k : ℕ) (l : List ℕ) (h : Kept q0 n0 s) : Kept q0 n0 (State.activateFor s k l) := by
  unfold State.activateFor
  with_reducible repeat' first | assumption | simp -zeta only [Kept.upd] | apply State.each_kept | apply State.wr_kept | apply State.modUz_kept | apply State.substituteBy_kept | apply State.activateOn_kept | apply foldl_kept | apply foldl2_kept | apply Kept.ite | dsimp -zeta only | (extract_lets +onlyGivenNames z; first | (refine Kept.cut z ?_ ?_ <;> [subst z; (intro hz; clear_value z)]) | (refine Kept.cut2 z ?_ ?_ <;> [subst z; (intro hz; clear_value z)]) | (have hz : State → _ := z; clear hz; subst z) | clear_value z) | (intro; intros) | split

theorem State.activateRow_kept {q0 : List Instr} {n0 : Nat} {s : State} (k : ℕ) (a : ℕ) (h : Kept q0 n0 s) : Kept q0 n0 (State.activateRow s k a) := by
  unfold State.activateRow
  with_reducible repeat' first | assumption | apply State.activateFor_kept | apply Kept.ite | split

theorem State.rejudge_kept {q0 : List Instr} {n0 : Nat} {s : State} (a : ℕ) (h : Kept q0 n0 s) : Kept q0 n0 (State.rejudge s a) := by
  unfold State.rejudge
  with_reducible repeat' first | assumption | apply State.substitute_kept | apply State.regate_kept | apply Kept.ite | split

theorem State.ss1EndState_kept {q0 : List Instr} {n0 : Nat} {s : State} (a : ℕ) (h : Kept q0 n0 s) : Kept q0 n0 (State.ss1EndState s a) := by
  unfold State.ss1EndState
  with_reducible repeat' first | assumption | apply State.endSs1_kept | apply State.rowModes_kept | apply State.substitute_kept | apply State.regate_kept | apply State.soUpdate_kept | apply State.stoAfter_kept | dsimp -zeta only | (extract_lets +onlyGivenNames z; first | (refine Kept.cut z ?_ ?_ <;> [subst z; (intro hz; clear_value z)]) | (refine Kept.cut2 z ?_ ?_ <;> [subst z; (intro hz; clear_value z)]) | (have hz : State → _ := z; clear hz; subst z) | clear_value z)

theorem State.speedMark_kept {q0 : List Instr} {n0 : Nat} {s : State} (a : ℕ) (h : Kept q0 n0 s) : Kept q0 n0 (State.speedMark s a) := by
  unfold State.speedMark
  with_reducible repeat' first | assumption | simp -zeta only [Kept.upd] | apply State.modUz_kept | dsimp -zeta only | (extract_lets +onlyGivenNames z; first | (refine Kept.cut z ?_ ?_ <;> [subst z; (intro hz; clear_value z)]) | (refine Kept.cut2 z ?_ ?_ <;> [subst z; (intro hz; clear_value z)]) | (have hz : State → _ := z; clear hz; subst z) | clear_value z) | (intro; intros)

theorem State.emfMark_kept {q0 : List Instr} {n0 : Nat} {s : State} (a : ℕ) (h : Kept q0 n0 s) : Kept q0 n0 (State.emfMark s a) := by
  unfold State.emfMark
  with_reducible repeat' first | assumption | simp -zeta only [Kept.upd] | apply State.modUz_kept | dsimp -zeta only | (extract_lets +onlyGivenNames z; first | (refine Kept.cut z ?_ ?_ <;> [subst z; (intro hz; clear_value z)]) | (refine Kept.cut2 z ?_ ?_ <;> [subst z; (intro hz; clear_value z)]) | (have hz : State → _ := z; clear hz; subst z) | clear_value z) | (intro; intros)

end Sys2Proof.Machine
end

