-- ==== Sys2Proof/Laws/KeptPwm.lean ====
section
/-!
SUPPORT. What the operations of Machine/Pwm keep: the queue, the clock and the form of the stores.
-/

namespace Sys2Proof.Machine

theorem State.commitSet_kept {q0 : List Instr} {n0 : Nat} {s : State} (c : ℕ) (restart : Bool) (h : Kept q0 n0 s) : Kept q0 n0 (State.commitSet s c restart) := by
  unfold State.commitSet
  with_reducible repeat' first | assumption | simp -zeta only [Kept.upd] | apply State.reload_kept | apply State.hi_kept | apply State.modCar_kept | apply Kept.ite | dsimp -zeta only | (extract_lets +onlyGivenNames z; first | (refine Kept.cut z ?_ ?_ <;> [subst z; (intro hz; clear_value z)]) | (refine Kept.cut2 z ?_ ?_ <;> [subst z; (intro hz; clear_value z)]) | (have hz : State → _ := z; clear hz; subst z) | clear_value z) | (intro; intros) | split

theorem State.keepCarry_kept {q0 : List Instr} {n0 : Nat} {s : State} (c : ℕ) (x : ℕ) (t : ℕ) (v : ℤ) (h : Kept q0 n0 s) : Kept q0 n0 (State.keepCarry s c x t v) := by
  unfold State.keepCarry
  with_reducible repeat' first | assumption | simp -zeta only [Kept.upd] | apply State.putCarry_kept | apply State.modLeg_kept | apply State.count_kept | apply Kept.ite | dsimp -zeta only | (extract_lets +onlyGivenNames z; first | (refine Kept.cut z ?_ ?_ <;> [subst z; (intro hz; clear_value z)]) | (refine Kept.cut2 z ?_ ?_ <;> [subst z; (intro hz; clear_value z)]) | (have hz : State → _ := z; clear hz; subst z) | clear_value z) | (intro; intros) | split

theorem State.emitAfresh_kept {q0 : List Instr} {n0 : Nat} {s : State} (c : ℕ) (h : Kept q0 n0 s) : Kept q0 n0 (State.emitAfresh s c) := by
  unfold State.emitAfresh
  with_reducible repeat' first | assumption | simp -zeta only [Kept.upd] | apply State.each_kept | apply State.modLeg_kept | dsimp -zeta only | (intro; intros)

theorem State.pastLeg_kept {q0 : List Instr} {n0 : Nat} {s : State} (c : ℕ) (x : ℕ) (h : Kept q0 n0 s) : Kept q0 n0 (State.pastLeg s c x) := by
  unfold State.pastLeg
  with_reducible repeat' first | assumption | simp -zeta only [Kept.upd] | apply State.valley_kept | apply State.modLeg_kept | apply foldl_kept | apply foldl2_kept | apply Kept.ite | dsimp -zeta only | (extract_lets +onlyGivenNames z; first | (refine Kept.cut z ?_ ?_ <;> [subst z; (intro hz; clear_value z)]) | (refine Kept.cut2 z ?_ ?_ <;> [subst z; (intro hz; clear_value z)]) | (have hz : State → _ := z; clear hz; subst z) | clear_value z) | (intro; intros) | split

theorem State.markWindows_kept {q0 : List Instr} {n0 : Nat} {s : State} (c : ℕ) (ws : List (ℕ × ℤ × ℤ)) (edges : List ℤ) (h : Kept q0 n0 s) : Kept q0 n0 (State.markWindows s c ws edges) := by
  unfold State.markWindows
  with_reducible repeat' first | assumption | simp -zeta only [Kept.upd] | apply State.modCar_kept | apply foldl_kept | apply foldl2_kept | dsimp -zeta only | (intro; intros) | split

theorem State.shiftLeg_kept {q0 : List Instr} {n0 : Nat} {s : State} (c : ℕ) (x : ℕ) (t : ℕ) (dt : ℕ) (lo : ℕ) (ws : List (ℕ × ℤ × ℤ)) (h : Kept q0 n0 s) : Kept q0 n0 (State.shiftLeg s c x t dt lo ws) := by
  unfold State.shiftLeg
  with_reducible repeat' first | assumption | apply State.lo_kept | apply State.modLeg_kept | apply State.markWindows_kept | dsimp -zeta only | (extract_lets +onlyGivenNames z; first | (refine Kept.cut z ?_ ?_ <;> [subst z; (intro hz; clear_value z)]) | (refine Kept.cut2 z ?_ ?_ <;> [subst z; (intro hz; clear_value z)]) | (have hz : State → _ := z; clear hz; subst z) | clear_value z) | (intro; intros)

theorem State.refreshDue_kept {q0 : List Instr} {n0 : Nat} {s : State} (c : ℕ) (x : ℕ) (h : Kept q0 n0 s) : Kept q0 n0 (State.refreshDue s c x).2 := by
  unfold State.refreshDue
  with_reducible repeat' first | assumption | simp -zeta only [Kept.upd] | apply State.modLeg_kept | apply State.event_kept | apply Kept.ite | dsimp -zeta only | (extract_lets +onlyGivenNames z; first | (refine Kept.cut z ?_ ?_ <;> [subst z; (intro hz; clear_value z)]) | (refine Kept.cut2 z ?_ ?_ <;> [subst z; (intro hz; clear_value z)]) | (have hz : State → _ := z; clear hz; subst z) | clear_value z) | (intro; intros) | split

theorem State.resolveLeg_kept {q0 : List Instr} {n0 : Nat} {s : State} (c : ℕ) (x : ℕ) (per : ℕ) (ws : List (BitVec 32)) (wins : List (ℕ × ℤ × ℤ)) (h : Kept q0 n0 s) : Kept q0 n0 (State.resolveLeg s c x per ws wins) := by
  unfold State.resolveLeg
  with_reducible repeat' first | assumption | simp -zeta only [Kept.upd] | apply State.refreshDue_kept | apply State.modLeg_kept | apply State.cond_kept | apply State.markWindows_kept | apply State.keepCarry_kept | apply State.emit_kept | apply State.shiftLeg_kept | apply foldl_kept | apply foldl2_kept | apply Kept.ite | dsimp -zeta only | (extract_lets +onlyGivenNames z; first | (refine Kept.cut z ?_ ?_ <;> [subst z; (intro hz; clear_value z)]) | (refine Kept.cut2 z ?_ ?_ <;> [subst z; (intro hz; clear_value z)]) | (have hz : State → _ := z; clear hz; subst z) | clear_value z) | (intro; intros) | split

theorem State.resolvePhase_kept {q0 : List Instr} {n0 : Nat} {s : State} (x : ℕ) (per : ℕ) (d : ℤ) (wins : List (ℕ × ℤ × ℤ)) (h : Kept q0 n0 s) : Kept q0 n0 (State.resolvePhase s x per d wins) := by
  unfold State.resolvePhase
  with_reducible repeat' first | assumption | simp -zeta only [Kept.upd] | apply step_kept | apply State.emit_kept | apply State.lo_kept | apply State.modLeg_kept | apply State.keepCarry_kept | apply State.shiftLeg_kept | apply Kept.ite | dsimp -zeta only | (extract_lets +onlyGivenNames z; first | (refine Kept.cut z ?_ ?_ <;> [subst z; (intro hz; clear_value z)]) | (refine Kept.cut2 z ?_ ?_ <;> [subst z; (intro hz; clear_value z)]) | (have hz : State → _ := z; clear hz; subst z) | clear_value z) | (intro; intros) | split

theorem State.valley_kept {q0 : List Instr} {n0 : Nat} {s : State} (c : ℕ) (h : Kept q0 n0 s) : Kept q0 n0 (State.valley s c) := by
  unfold State.valley
  with_reducible repeat' first | assumption | simp -zeta only [Kept.upd] | apply State.each_kept | apply State.pastLeg_kept | apply State.cond_kept | apply State.hi_kept | apply State.event_kept | apply State.modCar_kept | apply State.emit_kept | apply State.resolvePhase_kept | apply State.resolveLeg_kept | apply Kept.ite | dsimp -zeta only | (extract_lets +onlyGivenNames z; first | (refine Kept.cut z ?_ ?_ <;> [subst z; (intro hz; clear_value z)]) | (refine Kept.cut2 z ?_ ?_ <;> [subst z; (intro hz; clear_value z)]) | (have hz : State → _ := z; clear hz; subst z) | clear_value z) | (intro; intros) | split

theorem State.amendLeg_kept {q0 : List Instr} {n0 : Nat} {s : State} (c : ℕ) (x : ℕ) (rel : ℕ) (ws : List (BitVec 32)) (wins : List (ℕ × ℤ × ℤ)) (h : Kept q0 n0 s) : Kept q0 n0 (State.amendLeg s c x rel ws wins) := by
  unfold State.amendLeg
  with_reducible repeat' first | assumption | simp -zeta only [Kept.upd] | apply State.reload_kept | apply State.valley_kept | apply State.keepCarry_kept | apply State.modLeg_kept | apply State.markWindows_kept | apply Kept.ite | dsimp -zeta only | (extract_lets +onlyGivenNames z; first | (refine Kept.cut z ?_ ?_ <;> [subst z; (intro hz; clear_value z)]) | (refine Kept.cut2 z ?_ ?_ <;> [subst z; (intro hz; clear_value z)]) | (have hz : State → _ := z; clear hz; subst z) | clear_value z) | (intro; intros) | split

theorem State.midReload_kept {q0 : List Instr} {n0 : Nat} {s : State} (c : ℕ) (p : ReloadPoint) (h : Kept q0 n0 s) : Kept q0 n0 (State.midReload s c p) := by
  unfold State.midReload
  with_reducible repeat' first | assumption | simp -zeta only [Kept.upd] | apply State.reload_kept | apply State.valley_kept | apply State.each_kept | apply State.amendLeg_kept | apply State.modCar_kept | apply foldl_kept | apply foldl2_kept | apply Kept.ite | dsimp -zeta only | (extract_lets +onlyGivenNames z; first | (refine Kept.cut z ?_ ?_ <;> [subst z; (intro hz; clear_value z)]) | (refine Kept.cut2 z ?_ ?_ <;> [subst z; (intro hz; clear_value z)]) | (have hz : State → _ := z; clear hz; subst z) | clear_value z) | (intro; intros) | split

theorem State.outputEnable_kept {q0 : List Instr} {n0 : Nat} {s : State} (c : ℕ) (h : Kept q0 n0 s) : Kept q0 n0 (State.outputEnable s c) := by
  unfold State.outputEnable
  with_reducible repeat' first | assumption | apply State.valley_kept | apply State.hi_kept | apply State.clearCarries_kept | apply Kept.ite | split

theorem State.commutate_kept {q0 : List Instr} {n0 : Nat} {s : State} (c : ℕ) (x : ℕ) (positive : Bool) (h : Kept q0 n0 s) : Kept q0 n0 (State.commutate s c x positive) := by
  unfold State.commutate
  with_reducible repeat' first | assumption | simp -zeta only [Kept.upd] | apply State.valley_kept | apply State.modLeg_kept | apply State.each_kept | apply State.dropPwm_kept | apply Kept.ite | dsimp -zeta only | (extract_lets +onlyGivenNames z; first | (refine Kept.cut z ?_ ?_ <;> [subst z; (intro hz; clear_value z)]) | (refine Kept.cut2 z ?_ ?_ <;> [subst z; (intro hz; clear_value z)]) | (have hz : State → _ := z; clear hz; subst z) | clear_value z) | (intro; intros) | split

theorem State.tripPhase_kept {q0 : List Instr} {n0 : Nat} {s : State} (c : ℕ) (x : ℕ) (positive : Bool) (h : Kept q0 n0 s) : Kept q0 n0 (State.tripPhase s c x positive) := by
  unfold State.tripPhase
  with_reducible repeat' first | assumption | simp -zeta only [Kept.upd] | apply State.cond_kept | apply State.commutate_kept | apply State.modCar_kept | apply State.wr_kept | apply State.hi_kept | apply State.pwmOff_kept | apply State.event_kept | apply State.activateRow_kept | apply Kept.ite | dsimp -zeta only | (extract_lets +onlyGivenNames z; first | (refine Kept.cut z ?_ ?_ <;> [subst z; (intro hz; clear_value z)]) | (refine Kept.cut2 z ?_ ?_ <;> [subst z; (intro hz; clear_value z)]) | (have hz : State → _ := z; clear hz; subst z) | clear_value z) | (intro; intros) | split

theorem execCommitWord_kept {q0 : List Instr} {n0 : Nat} (t : ℕ) (c : Fin 2) (inGuard : Bool) {s : State} (h : Kept q0 n0 s) :
    ∃ s', execCommitWord t c inGuard s = .next s' ∧ Kept q0 (max n0 t) s' := by
  refine ⟨_, rfl, ?_⟩
  have h := State.upTo_kept t h
  with_reducible repeat' first | assumption | apply State.upTo_kept | apply State.hi_kept | apply State.commitSet_kept | apply Kept.ite | dsimp -zeta only | (extract_lets +onlyGivenNames z; first | (refine Kept.cut z ?_ ?_ <;> [subst z; (intro hz; clear_value z)]) | (refine Kept.cut2 z ?_ ?_ <;> [subst z; (intro hz; clear_value z)]) | (have hz : State → _ := z; clear hz; subst z) | clear_value z) | split

theorem execTripLeak_kept {q0 : List Instr} {n0 : Nat} (t : ℕ) (c : Fin 2) {s : State} (h : Kept q0 n0 s) :
    ∃ s', execTripLeak t c s = .next s' ∧ Kept q0 (max n0 t) s' := by
  refine ⟨_, rfl, ?_⟩
  have h := State.upTo_kept t h
  with_reducible repeat' first | assumption | simp -zeta only [Kept.upd] | apply State.lower_kept | apply State.upTo_kept | apply State.wr_kept | apply State.modCar_kept | apply Kept.ite | dsimp -zeta only | (extract_lets +onlyGivenNames z; first | (refine Kept.cut z ?_ ?_ <;> [subst z; (intro hz; clear_value z)]) | (refine Kept.cut2 z ?_ ?_ <;> [subst z; (intro hz; clear_value z)]) | (have hz : State → _ := z; clear hz; subst z) | clear_value z) | (intro; intros) | split

theorem execSyncLost_kept {q0 : List Instr} {n0 : Nat} (t : ℕ) (c : Fin 2) (err : ℕ) {s : State} (h : Kept q0 n0 s) :
    ∃ s', execSyncLost t c err s = .next s' ∧ Kept q0 (max n0 t) s' := by
  refine ⟨_, rfl, ?_⟩
  have h := State.upTo_kept t h
  with_reducible repeat' first | assumption | simp -zeta only [Kept.upd] | apply State.valley_kept | apply State.upTo_kept | apply State.hi_kept | apply State.event_kept | apply State.modCar_kept | apply Kept.ite | dsimp -zeta only | (extract_lets +onlyGivenNames z; first | (refine Kept.cut z ?_ ?_ <;> [subst z; (intro hz; clear_value z)]) | (refine Kept.cut2 z ?_ ?_ <;> [subst z; (intro hz; clear_value z)]) | (have hz : State → _ := z; clear hz; subst z) | clear_value z) | (intro; intros) | split

theorem execSyncInputEdge_kept {q0 : List Instr} {n0 : Nat} (t : ℕ) (c : Fin 2) {s : State} (h : Kept q0 n0 s) :
    ∃ s', execSyncInputEdge t c s = .next s' ∧ Kept q0 (max n0 t) s' := by
  refine ⟨_, rfl, ?_⟩
  have h := State.upTo_kept t h
  with_reducible repeat' first | assumption | simp -zeta only [Kept.upd] | apply State.valley_kept | apply State.upTo_kept | apply State.modCar_kept | apply Kept.ite | dsimp -zeta only | (extract_lets +onlyGivenNames z; first | (refine Kept.cut z ?_ ?_ <;> [subst z; (intro hz; clear_value z)]) | (refine Kept.cut2 z ?_ ?_ <;> [subst z; (intro hz; clear_value z)]) | (have hz : State → _ := z; clear hz; subst z) | clear_value z) | (intro; intros) | split

theorem execSyncEdgeMissing_kept {q0 : List Instr} {n0 : Nat} (t : ℕ) (c : Fin 2) {s : State} (h : Kept q0 n0 s) :
    ∃ s', execSyncEdgeMissing t c s = .next s' ∧ Kept q0 (max n0 t) s' := by
  refine ⟨_, rfl, ?_⟩
  have h := State.upTo_kept t h
  with_reducible repeat' first | assumption | simp -zeta only [Kept.upd] | apply State.upTo_kept | apply State.hi_kept | apply State.event_kept | apply State.modCar_kept | apply Kept.ite | dsimp -zeta only | (extract_lets +onlyGivenNames z; first | (refine Kept.cut z ?_ ?_ <;> [subst z; (intro hz; clear_value z)]) | (refine Kept.cut2 z ?_ ?_ <;> [subst z; (intro hz; clear_value z)]) | (have hz : State → _ := z; clear hz; subst z) | clear_value z) | (intro; intros) | split

theorem execPwmLdiscSatClear_kept {q0 : List Instr} {n0 : Nat} (t : ℕ) (c : Fin 2) {s : State} (h : Kept q0 n0 s) :
    ∃ s', execPwmLdiscSatClear t c s = .next s' ∧ Kept q0 (max n0 t) s' := by
  refine ⟨_, rfl, ?_⟩
  have h := State.upTo_kept t h
  with_reducible repeat' first | assumption | apply State.upTo_kept | apply State.clearCounts_kept | apply Kept.ite | dsimp -zeta only | (extract_lets +onlyGivenNames z; first | (refine Kept.cut z ?_ ?_ <;> [subst z; (intro hz; clear_value z)]) | (refine Kept.cut2 z ?_ ?_ <;> [subst z; (intro hz; clear_value z)]) | (have hz : State → _ := z; clear hz; subst z) | clear_value z) | split

end Sys2Proof.Machine
end

