-- ==== Sys2Proof/Laws/KeptUzMeas.lean ====
section
/-!
SUPPORT. What the operations of Machine/UzMeas keep: the queue, the clock and the form of the stores.
-/

namespace Sys2Proof.Machine

theorem State.adcbSet_kept {q0 : List Instr} {n0 : Nat} {s : State} (a : ℕ) (cur : Option (ℤ × ℤ × ℤ)) (vdc : Option ℤ) (h : Kept q0 n0 s) : Kept q0 n0 (State.adcbSet s a cur vdc) := by
  unfold State.adcbSet
  with_reducible repeat' first | assumption | simp -zeta only [Kept.upd] | apply State.modUz_kept | apply State.activateRow_kept | apply State.modSaf_kept | apply State.emfMark_kept | apply Kept.ite | dsimp -zeta only | (extract_lets +onlyGivenNames z; first | (refine Kept.cut z ?_ ?_ <;> [subst z; (intro hz; clear_value z)]) | (refine Kept.cut2 z ?_ ?_ <;> [subst z; (intro hz; clear_value z)]) | (have hz : State → _ := z; clear hz; subst z) | clear_value z) | (intro; intros) | split

theorem State.overVolt_kept {q0 : List Instr} {n0 : Nat} {s : State} (h : Kept q0 n0 s) : Kept q0 n0 (State.overVolt s) := by
  unfold State.overVolt
  with_reducible repeat' first | assumption | simp -zeta only [Kept.upd] | apply State.modUz_kept | apply State.activateRow_kept | apply Kept.ite | dsimp -zeta only | (extract_lets +onlyGivenNames z; first | (refine Kept.cut z ?_ ?_ <;> [subst z; (intro hz; clear_value z)]) | (refine Kept.cut2 z ?_ ?_ <;> [subst z; (intro hz; clear_value z)]) | (have hz : State → _ := z; clear hz; subst z) | clear_value z) | (intro; intros) | split

theorem State.brakeResult_kept {q0 : List Instr} {n0 : Nat} {s : State} (b : BrakeTest) (res : ℕ) (h : Kept q0 n0 s) : Kept q0 n0 (State.brakeResult s b res) := by
  unfold State.brakeResult
  with_reducible repeat' first | assumption | simp -zeta only [Kept.upd] | apply State.event_kept | apply State.modSaf_kept | apply State.wr_kept | apply State.cond_kept | apply State.lo_kept | apply State.modUz_kept | apply State.activateRow_kept | apply State.setAxMode_kept | apply State.regate_kept | apply State.complete_kept | apply Kept.ite | dsimp -zeta only | (extract_lets +onlyGivenNames z; first | (refine Kept.cut z ?_ ?_ <;> [subst z; (intro hz; clear_value z)]) | (refine Kept.cut2 z ?_ ?_ <;> [subst z; (intro hz; clear_value z)]) | (have hz : State → _ := z; clear hz; subst z) | clear_value z) | (intro; intros) | split

theorem State.brakeTravel_kept {q0 : List Instr} {n0 : Nat} {s : State} (a : ℕ) (h : Kept q0 n0 s) : Kept q0 n0 (State.brakeTravel s a) := by
  unfold State.brakeTravel
  with_reducible repeat' first | assumption | simp -zeta only [Kept.upd] | apply State.brakeResult_kept | apply State.modSaf_kept | apply Kept.ite | dsimp -zeta only | (extract_lets +onlyGivenNames z; first | (refine Kept.cut z ?_ ?_ <;> [subst z; (intro hz; clear_value z)]) | (refine Kept.cut2 z ?_ ?_ <;> [subst z; (intro hz; clear_value z)]) | (have hz : State → _ := z; clear hz; subst z) | clear_value z) | (intro; intros) | split

end Sys2Proof.Machine
end

