-- ==== Sys2Proof/Laws/KeptAdc.lean ====
section
/-!
SUPPORT. What the operations of Machine/Adc keep: the queue, the clock and the form of the stores.
-/

namespace Sys2Proof.Machine

theorem State.modAdc_kept {q0 : List Instr} {n0 : Nat} {s : State} (f : Adc → Adc) (h : Kept q0 n0 s) : Kept q0 n0 (State.modAdc s f) := by
  unfold State.modAdc
  with_reducible repeat' first | assumption | simp -zeta only [Kept.upd]

theorem State.startScan_kept {q0 : List Instr} {n0 : Nat} {s : State} (sc : Scan) (queued : Bool) (h : Kept q0 n0 s) : Kept q0 n0 (State.startScan s sc queued) := by
  unfold State.startScan
  with_reducible repeat' first | assumption | simp -zeta only [Kept.upd] | apply State.modAdc_kept | apply State.each_kept | apply State.hi_kept | apply Kept.ite | dsimp -zeta only | (extract_lets +onlyGivenNames z; first | (refine Kept.cut z ?_ ?_ <;> [subst z; (intro hz; clear_value z)]) | (refine Kept.cut2 z ?_ ?_ <;> [subst z; (intro hz; clear_value z)]) | (have hz : State → _ := z; clear hz; subst z) | clear_value z) | (intro; intros) | split

theorem State.retireScan_kept {q0 : List Instr} {n0 : Nat} {s : State} (h : Kept q0 n0 s) : Kept q0 n0 (State.retireScan s) := by
  unfold State.retireScan
  with_reducible repeat' first | assumption | simp -zeta only [Kept.upd] | apply State.modAdc_kept | apply Kept.ite | dsimp -zeta only | (intro; intros) | split

theorem State.setFormed_kept {q0 : List Instr} {n0 : Nat} {s : State} (a : ℕ) (b : Bool) (h : Kept q0 n0 s) : Kept q0 n0 (State.setFormed s a b) := by
  unfold State.setFormed
  with_reducible repeat' first | assumption | simp -zeta only [Kept.upd] | apply State.modAdc_kept | apply Kept.ite | dsimp -zeta only | (intro; intros) | split

theorem State.modFsa_kept {q0 : List Instr} {n0 : Nat} {s : State} (a : ℕ) (f : FslAxis → FslAxis) (h : Kept q0 n0 s) : Kept q0 n0 (State.modFsa s a f) := by
  unfold State.modFsa
  with_reducible repeat' first | assumption | simp -zeta only [Kept.upd] | dsimp -zeta only | (intro; intros)

theorem State.diodeCheck_kept {q0 : List Instr} {n0 : Nat} {s : State} (a : ℕ) (i : InputSet) (h : Kept q0 n0 s) : Kept q0 n0 (State.diodeCheck s a i) := by
  unfold State.diodeCheck
  with_reducible repeat' first | assumption | simp -zeta only [Kept.upd] | apply State.cond_kept | apply State.modFc_kept | dsimp -zeta only | (intro; intros)

theorem State.inputSetReady_kept {q0 : List Instr} {n0 : Nat} {s : State} (a : ℕ) (i : InputSet) (h : Kept q0 n0 s) : Kept q0 n0 (State.inputSetReady s a i) := by
  unfold State.inputSetReady
  with_reducible repeat' first | assumption | simp -zeta only [Kept.upd] | apply State.cond_kept | apply State.diodeCheck_kept | apply State.modFsa_kept | apply State.hi_kept | apply Kept.ite | dsimp -zeta only | (extract_lets +onlyGivenNames z; first | (refine Kept.cut z ?_ ?_ <;> [subst z; (intro hz; clear_value z)]) | (refine Kept.cut2 z ?_ ?_ <;> [subst z; (intro hz; clear_value z)]) | (have hz : State → _ := z; clear hz; subst z) | clear_value z) | (intro; intros) | split

theorem State.missingSet_kept {q0 : List Instr} {n0 : Nat} {s : State} (a : ℕ) (h : Kept q0 n0 s) : Kept q0 n0 (State.missingSet s a) := by
  unfold State.missingSet
  with_reducible repeat' first | assumption | simp -zeta only [Kept.upd] | apply State.setFormed_kept | apply State.inputSetReady_kept | apply State.minority_kept

theorem State.setAct_kept {q0 : List Instr} {n0 : Nat} {s : State} (a : ℕ) (g : ℕ) (h : Kept q0 n0 s) : Kept q0 n0 (State.setAct s a g) := by
  unfold State.setAct
  with_reducible repeat' first | assumption | simp -zeta only [Kept.upd] | apply State.modAdc_kept | apply Kept.ite | dsimp -zeta only | (intro; intros) | split

theorem State.setRamp_kept {q0 : List Instr} {n0 : Nat} {s : State} (a : ℕ) (r : Option ℕ) (h : Kept q0 n0 s) : Kept q0 n0 (State.setRamp s a r) := by
  unfold State.setRamp
  with_reducible repeat' first | assumption | simp -zeta only [Kept.upd] | apply State.modAdc_kept | apply Kept.ite | dsimp -zeta only | (intro; intros) | split

theorem State.setCast_kept {q0 : List Instr} {n0 : Nat} {s : State} (a : ℕ) (b : Bool) (h : Kept q0 n0 s) : Kept q0 n0 (State.setCast s a b) := by
  unfold State.setCast
  with_reducible repeat' first | assumption | simp -zeta only [Kept.upd] | apply State.modAdc_kept | apply Kept.ite | dsimp -zeta only | (intro; intros) | split

theorem State.mirrorActive_kept {q0 : List Instr} {n0 : Nat} {s : State} (h : Kept q0 n0 s) : Kept q0 n0 (State.mirrorActive s) := by
  unfold State.mirrorActive
  with_reducible repeat' first | assumption | apply State.wr_kept | apply State.each_kept | apply State.wrB_kept | apply Kept.ite | dsimp -zeta only | (extract_lets +onlyGivenNames z; first | (refine Kept.cut z ?_ ?_ <;> [subst z; (intro hz; clear_value z)]) | (refine Kept.cut2 z ?_ ?_ <;> [subst z; (intro hz; clear_value z)]) | (have hz : State → _ := z; clear hz; subst z) | clear_value z) | (intro; intros) | split

theorem State.castle_kept {q0 : List Instr} {n0 : Nat} {s : State} (a : ℕ) (g : ℕ) (off : ℕ → ℤ) (h : Kept q0 n0 s) : Kept q0 n0 (State.castle s a g off) := by
  unfold State.castle
  with_reducible repeat' first | assumption | simp -zeta only [Kept.upd] | apply State.modAdc_kept | apply State.setAct_kept | apply State.setRamp_kept | apply State.setCast_kept | apply State.mirrorActive_kept | apply foldl_kept | apply foldl2_kept | dsimp -zeta only | (extract_lets +onlyGivenNames z; first | (refine Kept.cut z ?_ ?_ <;> [subst z; (intro hz; clear_value z)]) | (refine Kept.cut2 z ?_ ?_ <;> [subst z; (intro hz; clear_value z)]) | (have hz : State → _ := z; clear hz; subst z) | clear_value z) | (intro; intros)

theorem State.forceCastle_kept {q0 : List Instr} {n0 : Nat} {s : State} (a : ℕ) (h : Kept q0 n0 s) : Kept q0 n0 (State.forceCastle s a) := by
  unfold State.forceCastle
  with_reducible repeat' first | assumption | simp -zeta only [Kept.upd] | apply State.output_kept | apply State.castle_kept | apply State.event_kept | apply Kept.ite | dsimp -zeta only | (extract_lets +onlyGivenNames z; first | (refine Kept.cut z ?_ ?_ <;> [subst z; (intro hz; clear_value z)]) | (refine Kept.cut2 z ?_ ?_ <;> [subst z; (intro hz; clear_value z)]) | (have hz : State → _ := z; clear hz; subst z) | clear_value z) | split

theorem State.excludeGroup_kept {q0 : List Instr} {n0 : Nat} {s : State} (g : ℕ) (cause : ℕ) (h : Kept q0 n0 s) : Kept q0 n0 (State.excludeGroup s g cause) := by
  unfold State.excludeGroup
  with_reducible repeat' first | assumption | simp -zeta only [Kept.upd] | apply State.hi_kept | apply State.wr_kept | apply State.event_kept | apply State.each_kept | apply State.forceCastle_kept | apply State.activateRow_kept | apply Kept.ite | dsimp -zeta only | (extract_lets +onlyGivenNames z; first | (refine Kept.cut z ?_ ?_ <;> [subst z; (intro hz; clear_value z)]) | (refine Kept.cut2 z ?_ ?_ <;> [subst z; (intro hz; clear_value z)]) | (have hz : State → _ := z; clear hz; subst z) | clear_value z) | (intro; intros) | split

theorem State.castInstant_kept {q0 : List Instr} {n0 : Nat} {s : State} (h : Kept q0 n0 s) : Kept q0 n0 (State.castInstant s) := by
  unfold State.castInstant
  with_reducible repeat' first | assumption | apply State.instant_kept | apply State.each_kept | apply State.hi_kept | apply State.setCast_kept | apply Kept.ite | dsimp -zeta only | (intro; intros) | split

theorem State.castAtLoop_kept {q0 : List Instr} {n0 : Nat} {s : State} (a : ℕ) (h : Kept q0 n0 s) : Kept q0 n0 (State.castAtLoop s a) := by
  unfold State.castAtLoop
  with_reducible repeat' first | assumption | simp -zeta only [Kept.upd] | apply State.instant_kept | apply step_kept | apply State.lo_kept | apply State.each_kept | apply State.setCast_kept | apply State.castle_kept | apply State.setRamp_kept | apply State.modAdc_kept | apply State.mirrorActive_kept | apply State.event_kept | apply Kept.ite | dsimp -zeta only | (extract_lets +onlyGivenNames z; first | (refine Kept.cut z ?_ ?_ <;> [subst z; (intro hz; clear_value z)]) | (refine Kept.cut2 z ?_ ?_ <;> [subst z; (intro hz; clear_value z)]) | (have hz : State → _ := z; clear hz; subst z) | clear_value z) | (intro; intros) | split

theorem State.storeResult_kept {q0 : List Instr} {n0 : Nat} {s : State} (sc : Scan) (r : ConvResult) (h : Kept q0 n0 s) : Kept q0 n0 (State.storeResult s sc r) := by
  unfold State.storeResult
  with_reducible repeat' first | assumption | simp -zeta only [Kept.upd] | apply State.setReg_kept | apply State.modAdc_kept | apply Kept.ite | dsimp -zeta only | (extract_lets +onlyGivenNames z; first | (refine Kept.cut z ?_ ?_ <;> [subst z; (intro hz; clear_value z)]) | (refine Kept.cut2 z ?_ ?_ <;> [subst z; (intro hz; clear_value z)]) | (have hz : State → _ := z; clear hz; subst z) | clear_value z) | (intro; intros) | split

theorem State.tripCheck_kept {q0 : List Instr} {n0 : Nat} {s : State} (a : ℕ) (ph : ℕ) (g : ℕ) (v : ℤ) (h : Kept q0 n0 s) : Kept q0 n0 (State.tripCheck s a ph g v) := by
  unfold State.tripCheck
  with_reducible repeat' first | assumption | simp -zeta only [Kept.upd] | apply State.modAdc_kept | apply State.tripPhase_kept | apply Kept.ite | dsimp -zeta only | (extract_lets +onlyGivenNames z; first | (refine Kept.cut z ?_ ?_ <;> [subst z; (intro hz; clear_value z)]) | (refine Kept.cut2 z ?_ ?_ <;> [subst z; (intro hz; clear_value z)]) | (have hz : State → _ := z; clear hz; subst z) | clear_value z) | (intro; intros) | split

theorem State.tripRound_kept {q0 : List Instr} {n0 : Nat} {s : State} (res : List ConvResult) (h : Kept q0 n0 s) : Kept q0 n0 (State.tripRound s res) := by
  unfold State.tripRound
  with_reducible repeat' first | assumption | simp -zeta only [Kept.upd] | apply State.tripCheck_kept | apply foldl_kept | apply foldl2_kept | dsimp -zeta only | (intro; intros) | split

theorem State.uzAxisResults_kept {q0 : List Instr} {n0 : Nat} {s : State} (res : List ConvResult) (h : Kept q0 n0 s) : Kept q0 n0 (State.uzAxisResults s res) := by
  unfold State.uzAxisResults
  with_reducible repeat' first | assumption | simp -zeta only [Kept.upd] | apply State.each_kept | apply State.adcbSet_kept | apply Kept.ite | dsimp -zeta only | (extract_lets +onlyGivenNames z; first | (refine Kept.cut z ?_ ?_ <;> [subst z; (intro hz; clear_value z)]) | (refine Kept.cut2 z ?_ ?_ <;> [subst z; (intro hz; clear_value z)]) | (have hz : State → _ := z; clear hz; subst z) | clear_value z) | (intro; intros) | split

theorem State.uzFromResults_kept {q0 : List Instr} {n0 : Nat} {s : State} (res : List ConvResult) (h : Kept q0 n0 s) : Kept q0 n0 (State.uzFromResults s res) := by
  unfold State.uzFromResults
  with_reducible repeat' first | assumption | apply State.each_kept | apply State.uzAxisResults_kept | apply State.cond_kept | apply State.overVolt_kept | dsimp -zeta only | (extract_lets +onlyGivenNames z; first | (refine Kept.cut z ?_ ?_ <;> [subst z; (intro hz; clear_value z)]) | (refine Kept.cut2 z ?_ ?_ <;> [subst z; (intro hz; clear_value z)]) | (have hz : State → _ := z; clear hz; subst z) | clear_value z) | (intro; intros)

theorem State.storeVote_kept {q0 : List Instr} {n0 : Nat} {s : State} (sc : Scan) (v : ℕ × ℕ × State.Vote) (h : Kept q0 n0 s) : Kept q0 n0 (State.storeVote s sc v) := by
  unfold State.storeVote
  with_reducible repeat' first | assumption | simp -zeta only [Kept.upd] | apply State.setReg_kept | apply Kept.ite | dsimp -zeta only | (extract_lets +onlyGivenNames z; first | (refine Kept.cut z ?_ ?_ <;> [subst z; (intro hz; clear_value z)]) | (refine Kept.cut2 z ?_ ?_ <;> [subst z; (intro hz; clear_value z)]) | (have hz : State → _ := z; clear hz; subst z) | clear_value z) | split

theorem State.setNomaj_kept {q0 : List Instr} {n0 : Nat} {s : State} (a : ℕ) (n : ℕ) (h : Kept q0 n0 s) : Kept q0 n0 (State.setNomaj s a n) := by
  unfold State.setNomaj
  with_reducible repeat' first | assumption | simp -zeta only [Kept.upd] | apply State.modAdc_kept | apply Kept.ite | dsimp -zeta only | (intro; intros) | split

theorem State.adcCount_kept {q0 : List Instr} {n0 : Nat} {s : State} (f : Fld) (g : ℕ) (h : Kept q0 n0 s) : Kept q0 n0 (State.adcCount s f g) := by
  unfold State.adcCount
  with_reducible repeat' first | assumption | apply State.count_kept

theorem State.judgeGroup_kept {q0 : List Instr} {n0 : Nat} {s : State} (vs : List (ℕ × ℕ × State.Vote)) (res : List ConvResult) (g : ℕ) (h : Kept q0 n0 s) : Kept q0 n0 (State.judgeGroup s vs res g) := by
  unfold State.judgeGroup
  with_reducible repeat' first | assumption | apply State.minority_kept | apply State.adcCount_kept | apply State.event_kept | apply State.bump_kept | apply State.excludeGroup_kept | apply State.lo_kept | apply Kept.ite | dsimp -zeta only | (extract_lets +onlyGivenNames z; first | (refine Kept.cut z ?_ ?_ <;> [subst z; (intro hz; clear_value z)]) | (refine Kept.cut2 z ?_ ?_ <;> [subst z; (intro hz; clear_value z)]) | (have hz : State → _ := z; clear hz; subst z) | clear_value z) | (intro; intros) | split

theorem State.judgeAxis_kept {q0 : List Instr} {n0 : Nat} {s : State} (vs : List (ℕ × ℕ × State.Vote)) (a : ℕ) (h : Kept q0 n0 s) : Kept q0 n0 (State.judgeAxis s vs a) := by
  unfold State.judgeAxis
  with_reducible repeat' first | assumption | apply State.count_kept | apply State.setNomaj_kept | apply State.event_kept | apply State.activateRow_kept | apply Kept.ite | dsimp -zeta only | (extract_lets +onlyGivenNames z; first | (refine Kept.cut z ?_ ?_ <;> [subst z; (intro hz; clear_value z)]) | (refine Kept.cut2 z ?_ ?_ <;> [subst z; (intro hz; clear_value z)]) | (have hz : State → _ := z; clear hz; subst z) | clear_value z) | (intro; intros) | split

theorem State.judgeRound_kept {q0 : List Instr} {n0 : Nat} {s : State} (sc : Scan) (vs : List (ℕ × ℕ × State.Vote)) (res : List ConvResult) (h : Kept q0 n0 s) : Kept q0 n0 (State.judgeRound s sc vs res) := by
  unfold State.judgeRound
  with_reducible repeat' first | assumption | apply State.each_kept | apply State.forceCastle_kept | apply State.judgeGroup_kept | apply State.judgeAxis_kept | apply Kept.ite | dsimp -zeta only | (extract_lets +onlyGivenNames z; first | (refine Kept.cut z ?_ ?_ <;> [subst z; (intro hz; clear_value z)]) | (refine Kept.cut2 z ?_ ?_ <;> [subst z; (intro hz; clear_value z)]) | (have hz : State → _ := z; clear hz; subst z) | clear_value z) | (intro; intros) | split

theorem State.loopMeans_kept {q0 : List Instr} {n0 : Nat} {s : State} (a : ℕ) (res : List ConvResult) (h : Kept q0 n0 s) : Kept q0 n0 (State.loopMeans s a res) := by
  unfold State.loopMeans
  with_reducible repeat' first | assumption | simp -zeta only [Kept.upd] | apply State.modAdc_kept | apply foldl_kept | apply foldl2_kept | apply Kept.ite | dsimp -zeta only | (extract_lets +onlyGivenNames z; first | (refine Kept.cut z ?_ ?_ <;> [subst z; (intro hz; clear_value z)]) | (refine Kept.cut2 z ?_ ?_ <;> [subst z; (intro hz; clear_value z)]) | (have hz : State → _ := z; clear hz; subst z) | clear_value z) | (intro; intros) | split

theorem State.formSet_kept {q0 : List Instr} {n0 : Nat} {s : State} (a : ℕ) (sc : Scan) (vs : List (ℕ × ℕ × State.Vote)) (h : Kept q0 n0 s) : Kept q0 n0 (State.formSet s a sc vs) := by
  unfold State.formSet
  with_reducible repeat' first | assumption | simp -zeta only [Kept.upd] | apply State.each_kept | apply State.hi_kept | apply State.setFormed_kept | apply State.inputSetReady_kept | apply State.minority_kept | apply foldl_kept | apply foldl2_kept | apply Kept.ite | dsimp -zeta only | (extract_lets +onlyGivenNames z; first | (refine Kept.cut z ?_ ?_ <;> [subst z; (intro hz; clear_value z)]) | (refine Kept.cut2 z ?_ ?_ <;> [subst z; (intro hz; clear_value z)]) | (have hz : State → _ := z; clear hz; subst z) | clear_value z) | (intro; intros) | split

theorem State.dropScan_kept {q0 : List Instr} {n0 : Nat} {s : State} (sc : Scan) (h : Kept q0 n0 s) : Kept q0 n0 (State.dropScan s sc) := by
  unfold State.dropScan
  with_reducible repeat' first | assumption | simp -zeta only [Kept.upd] | apply State.instant_kept | apply State.each_kept | apply State.hi_kept | apply State.event_kept | apply State.cond_kept | apply State.modAdc_kept | dsimp -zeta only | (extract_lets +onlyGivenNames z; first | (refine Kept.cut z ?_ ?_ <;> [subst z; (intro hz; clear_value z)]) | (refine Kept.cut2 z ?_ ?_ <;> [subst z; (intro hz; clear_value z)]) | (have hz : State → _ := z; clear hz; subst z) | clear_value z) | (intro; intros)

theorem State.queueScan_kept {q0 : List Instr} {n0 : Nat} {s : State} (sc : Scan) (h : Kept q0 n0 s) : Kept q0 n0 (State.queueScan s sc) := by
  unfold State.queueScan
  with_reducible repeat' first | assumption | simp -zeta only [Kept.upd] | apply State.modAdc_kept | apply State.drop_kept | apply State.dropScan_kept | dsimp -zeta only | (extract_lets +onlyGivenNames z; first | (refine Kept.cut z ?_ ?_ <;> [subst z; (intro hz; clear_value z)]) | (refine Kept.cut2 z ?_ ?_ <;> [subst z; (intro hz; clear_value z)]) | (have hz : State → _ := z; clear hz; subst z) | clear_value z) | (intro; intros) | split

theorem State.offerScan_kept {q0 : List Instr} {n0 : Nat} {s : State} (sc : Scan) (h : Kept q0 n0 s) : Kept q0 n0 (State.offerScan s sc) := by
  unfold State.offerScan
  with_reducible repeat' first | assumption | simp -zeta only [Kept.upd] | apply State.startScan_kept | apply State.queueScan_kept | apply Kept.ite | dsimp -zeta only | split

theorem execTriggerPoint_kept {q0 : List Instr} {n0 : Nat} (t : ℕ) (c : Fin 2) (k : Fin 8) {s : State} (h : Kept q0 n0 s) :
    ∃ s', execTriggerPoint t c k s = .next s' ∧ Kept q0 (max n0 t) s' := by
  refine ⟨_, rfl, ?_⟩
  have h := State.upTo_kept t h
  with_reducible repeat' first | assumption | simp -zeta only [Kept.upd] | apply State.upTo_kept | apply State.modCar_kept | apply State.retireScan_kept | apply State.offerScan_kept | apply Kept.ite | dsimp -zeta only | (extract_lets +onlyGivenNames z; first | (refine Kept.cut z ?_ ?_ <;> [subst z; (intro hz; clear_value z)]) | (refine Kept.cut2 z ?_ ?_ <;> [subst z; (intro hz; clear_value z)]) | (have hz : State → _ := z; clear hz; subst z) | clear_value z) | (intro; intros) | split

theorem execQueuedScanStart_kept {q0 : List Instr} {n0 : Nat} (t : ℕ) {s : State} (h : Kept q0 n0 s) :
    ∃ s', execQueuedScanStart t s = .next s' ∧ Kept q0 (max n0 t) s' := by
  refine ⟨_, rfl, ?_⟩
  have h := State.upTo_kept t h
  with_reducible repeat' first | assumption | simp -zeta only [Kept.upd] | apply State.upTo_kept | apply State.retireScan_kept | apply State.modAdc_kept | apply State.startScan_kept | dsimp -zeta only | (extract_lets +onlyGivenNames z; first | (refine Kept.cut z ?_ ?_ <;> [subst z; (intro hz; clear_value z)]) | (refine Kept.cut2 z ?_ ?_ <;> [subst z; (intro hz; clear_value z)]) | (have hz : State → _ := z; clear hz; subst z) | clear_value z) | (intro; intros) | split

theorem execScanComplete_kept {q0 : List Instr} {n0 : Nat} (t : ℕ) (res : List ConvResult) {s : State} (h : Kept q0 n0 s) :
    ∃ s', execScanComplete t res s = .next s' ∧ Kept q0 (max n0 t) s' := by
  refine ⟨_, rfl, ?_⟩
  have h := State.upTo_kept t h
  with_reducible repeat' first | assumption | simp -zeta only [Kept.upd] | apply State.event_kept | apply State.upTo_kept | apply State.retireScan_kept | apply State.modAdc_kept | apply State.cond_kept | apply State.missingSet_kept | apply State.storeResult_kept | apply State.tripRound_kept | apply State.uzFromResults_kept | apply State.castAtLoop_kept | apply State.storeVote_kept | apply State.judgeRound_kept | apply State.loopMeans_kept | apply State.formSet_kept | apply foldl_kept | apply foldl2_kept | dsimp -zeta only | (extract_lets +onlyGivenNames z; first | (refine Kept.cut z ?_ ?_ <;> [subst z; (intro hz; clear_value z)]) | (refine Kept.cut2 z ?_ ?_ <;> [subst z; (intro hz; clear_value z)]) | (have hz : State → _ := z; clear hz; subst z) | clear_value z) | (intro; intros) | split

theorem execGuardRound_kept {q0 : List Instr} {n0 : Nat} (t : ℕ) (a : Fin 2) (res : List ConvResult) {s : State} (h : Kept q0 n0 s) :
    ∃ s', execGuardRound t a res s = .next s' ∧ Kept q0 (max n0 t) s' := by
  refine ⟨_, rfl, ?_⟩
  have h := State.upTo_kept t h
  with_reducible repeat' first | assumption | apply State.instant_kept | apply State.upTo_kept | apply State.tripRound_kept | apply State.uzFromResults_kept | apply Kept.ite | dsimp -zeta only | (extract_lets +onlyGivenNames z; first | (refine Kept.cut z ?_ ?_ <;> [subst z; (intro hz; clear_value z)]) | (refine Kept.cut2 z ?_ ?_ <;> [subst z; (intro hz; clear_value z)]) | (have hz : State → _ := z; clear hz; subst z) | clear_value z) | (intro; intros) | split

theorem execInternalCheck_kept {q0 : List Instr} {n0 : Nat} (t : ℕ) (res : List ConvResult) {s : State} (h : Kept q0 n0 s) :
    ∃ s', execInternalCheck t res s = .next s' ∧ Kept q0 (max n0 t) s' := by
  refine ⟨_, rfl, ?_⟩
  have h := State.upTo_kept t h
  with_reducible repeat' first | assumption | simp -zeta only [Kept.upd] | apply State.upTo_kept | apply State.modAdc_kept | apply State.excludeGroup_kept | apply foldl_kept | apply foldl2_kept | apply Kept.ite | dsimp -zeta only | (extract_lets +onlyGivenNames z; first | (refine Kept.cut z ?_ ?_ <;> [subst z; (intro hz; clear_value z)]) | (refine Kept.cut2 z ?_ ?_ <;> [subst z; (intro hz; clear_value z)]) | (have hz : State → _ := z; clear hz; subst z) | clear_value z) | (intro; intros) | split

theorem execCrossCheck_kept {q0 : List Instr} {n0 : Nat} (t : ℕ) (a : Option ℤ) (b : Option ℤ) (c : Option ℤ) {s : State} (h : Kept q0 n0 s) :
    ∃ s', execCrossCheck t a b c s = .next s' ∧ Kept q0 (max n0 t) s' := by
  refine ⟨_, rfl, ?_⟩
  have h := State.upTo_kept t h
  with_reducible repeat' first | assumption | simp -zeta only [Kept.upd] | apply State.upTo_kept | apply State.modAdc_kept | apply State.each_kept | apply State.adcCount_kept | apply State.excludeGroup_kept | apply State.hi_kept | apply State.event_kept | apply Kept.ite | dsimp -zeta only | (extract_lets +onlyGivenNames z; first | (refine Kept.cut z ?_ ?_ <;> [subst z; (intro hz; clear_value z)]) | (refine Kept.cut2 z ?_ ?_ <;> [subst z; (intro hz; clear_value z)]) | (have hz : State → _ := z; clear hz; subst z) | clear_value z) | (intro; intros) | split

theorem State.setConv_kept {q0 : List Instr} {n0 : Nat} {s : State} (g : ℕ) (b : Bool) (h : Kept q0 n0 s) : Kept q0 n0 (State.setConv s g b) := by
  unfold State.setConv
  with_reducible repeat' first | assumption | apply State.wrB_kept | apply State.runOk_kept

theorem execBackgroundCorrection_kept {q0 : List Instr} {n0 : Nat} (t : ℕ) (g : Fin 3) (idle : ℕ) (est : Mismatch) (res : Mismatch) {s : State} (h : Kept q0 n0 s) :
    ∃ s', execBackgroundCorrection t g idle est res s = .next s' ∧ Kept q0 (max n0 t) s' := by
  refine ⟨_, rfl, ?_⟩
  have h := State.upTo_kept t h
  with_reducible repeat' first | assumption | simp -zeta only [Kept.upd] | apply step_kept | apply State.upTo_kept | apply State.hi_kept | apply State.modAdc_kept | apply State.cond_kept | apply State.excludeGroup_kept | apply State.setConv_kept | apply State.event_kept | apply Kept.ite | dsimp -zeta only | (extract_lets +onlyGivenNames z; first | (refine Kept.cut z ?_ ?_ <;> [subst z; (intro hz; clear_value z)]) | (refine Kept.cut2 z ?_ ?_ <;> [subst z; (intro hz; clear_value z)]) | (have hz : State → _ := z; clear hz; subst z) | clear_value z) | (intro; intros) | split

theorem execCalStarveTimeout_kept {q0 : List Instr} {n0 : Nat} (t : ℕ) (g : Fin 3) {s : State} (h : Kept q0 n0 s) :
    ∃ s', execCalStarveTimeout t g s = .next s' ∧ Kept q0 (max n0 t) s' := by
  refine ⟨_, rfl, ?_⟩
  have h := State.upTo_kept t h
  with_reducible repeat' first | assumption | apply State.upTo_kept | apply State.setConv_kept | apply State.event_kept | apply Kept.ite | dsimp -zeta only | (extract_lets +onlyGivenNames z; first | (refine Kept.cut z ?_ ?_ <;> [subst z; (intro hz; clear_value z)]) | (refine Kept.cut2 z ?_ ?_ <;> [subst z; (intro hz; clear_value z)]) | (have hz : State → _ := z; clear hz; subst z) | clear_value z) | (intro; intros) | split

theorem execSliceSilence_kept {q0 : List Instr} {n0 : Nat} (t : ℕ) (g : Fin 3) {s : State} (h : Kept q0 n0 s) :
    ∃ s', execSliceSilence t g s = .next s' ∧ Kept q0 (max n0 t) s' := by
  refine ⟨_, rfl, ?_⟩
  have h := State.upTo_kept t h
  with_reducible repeat' first | assumption | apply State.upTo_kept | apply State.excludeGroup_kept | apply Kept.ite | dsimp -zeta only | (extract_lets +onlyGivenNames z; first | (refine Kept.cut z ?_ ?_ <;> [subst z; (intro hz; clear_value z)]) | (refine Kept.cut2 z ?_ ?_ <;> [subst z; (intro hz; clear_value z)]) | (have hz : State → _ := z; clear hz; subst z) | clear_value z) | split

theorem execCastlingInstant_kept {q0 : List Instr} {n0 : Nat} (t : ℕ) {s : State} (h : Kept q0 n0 s) :
    ∃ s', execCastlingInstant t s = .next s' ∧ Kept q0 (max n0 t) s' := by
  refine ⟨_, rfl, ?_⟩
  have h := State.upTo_kept t h
  with_reducible repeat' first | assumption | apply State.instant_kept | apply State.upTo_kept | apply State.castInstant_kept | dsimp -zeta only | (extract_lets +onlyGivenNames z; first | (refine Kept.cut z ?_ ?_ <;> [subst z; (intro hz; clear_value z)]) | (refine Kept.cut2 z ?_ ?_ <;> [subst z; (intro hz; clear_value z)]) | (have hz : State → _ := z; clear hz; subst z) | clear_value z)

theorem execCastlingForce_kept {q0 : List Instr} {n0 : Nat} (t : ℕ) {s : State} (h : Kept q0 n0 s) :
    ∃ s', execCastlingForce t s = .next s' ∧ Kept q0 (max n0 t) s' := by
  refine ⟨_, rfl, ?_⟩
  have h := State.upTo_kept t h
  with_reducible repeat' first | assumption | apply State.upTo_kept | apply State.castInstant_kept | apply Kept.ite | dsimp -zeta only | (extract_lets +onlyGivenNames z; first | (refine Kept.cut z ?_ ?_ <;> [subst z; (intro hz; clear_value z)]) | (refine Kept.cut2 z ?_ ?_ <;> [subst z; (intro hz; clear_value z)]) | (have hz : State → _ := z; clear hz; subst z) | clear_value z) | split

theorem execTdacStart_kept {q0 : List Instr} {n0 : Nat} (t : ℕ) (groups : BitVec 3) (inputs : BitVec 17) {s : State} (h : Kept q0 n0 s) :
    ∃ s', execTdacStart t groups inputs s = .next s' ∧ Kept q0 (max n0 t) s' := by
  refine ⟨_, rfl, ?_⟩
  have h := State.upTo_kept t h
  with_reducible repeat' first | assumption | simp -zeta only [Kept.upd] | apply State.upTo_kept | apply State.each_kept | apply State.hi_kept | apply State.wr_kept | apply State.modAdc_kept | apply Kept.ite | dsimp -zeta only | (extract_lets +onlyGivenNames z; first | (refine Kept.cut z ?_ ?_ <;> [subst z; (intro hz; clear_value z)]) | (refine Kept.cut2 z ?_ ?_ <;> [subst z; (intro hz; clear_value z)]) | (have hz : State → _ := z; clear hz; subst z) | clear_value z) | (intro; intros) | split

theorem State.tdacAbort_kept {q0 : List Instr} {n0 : Nat} {s : State} (h : Kept q0 n0 s) : Kept q0 n0 (State.tdacAbort s) := by
  unfold State.tdacAbort
  with_reducible repeat' first | assumption | apply State.each_kept | apply State.hi_kept | apply State.lo_kept | dsimp -zeta only | (intro; intros)

theorem execTdacComplete_kept {q0 : List Instr} {n0 : Nat} (t : ℕ) (res : List TdacMean) {s : State} (h : Kept q0 n0 s) :
    ∃ s', execTdacComplete t res s = .next s' ∧ Kept q0 (max n0 t) s' := by
  refine ⟨_, rfl, ?_⟩
  have h := State.upTo_kept t h
  with_reducible repeat' first | assumption | simp -zeta only [Kept.upd] | apply State.event_kept | apply State.convert_kept | apply State.upTo_kept | apply State.tdacAbort_kept | apply State.each_kept | apply State.setReg_kept | apply State.excludeGroup_kept | apply State.lo_kept | apply State.modAdc_kept | apply State.cond_kept | apply foldl_kept | apply foldl2_kept | apply Kept.ite | dsimp -zeta only | (extract_lets +onlyGivenNames z; first | (refine Kept.cut z ?_ ?_ <;> [subst z; (intro hz; clear_value z)]) | (refine Kept.cut2 z ?_ ?_ <;> [subst z; (intro hz; clear_value z)]) | (have hz : State → _ := z; clear hz; subst z) | clear_value z) | (intro; intros) | split

theorem execTdacAbort_kept {q0 : List Instr} {n0 : Nat} (t : ℕ) {s : State} (h : Kept q0 n0 s) :
    ∃ s', execTdacAbort t s = .next s' ∧ Kept q0 (max n0 t) s' := by
  refine ⟨_, rfl, ?_⟩
  have h := State.upTo_kept t h
  with_reducible repeat' first | assumption | apply State.upTo_kept | apply State.tdacAbort_kept | apply Kept.ite | dsimp -zeta only | (extract_lets +onlyGivenNames z; first | (refine Kept.cut z ?_ ?_ <;> [subst z; (intro hz; clear_value z)]) | (refine Kept.cut2 z ?_ ?_ <;> [subst z; (intro hz; clear_value z)]) | (have hz : State → _ := z; clear hz; subst z) | clear_value z) | split

theorem execAdcCntSatClear_kept {q0 : List Instr} {n0 : Nat} (t : ℕ) (g : Fin 3) {s : State} (h : Kept q0 n0 s) :
    ∃ s', execAdcCntSatClear t g s = .next s' ∧ Kept q0 (max n0 t) s' := by
  refine ⟨_, rfl, ?_⟩
  have h := State.upTo_kept t h
  with_reducible repeat' first | assumption | apply State.upTo_kept | apply State.clearCounts_kept | apply Kept.ite | dsimp -zeta only | (extract_lets +onlyGivenNames z; first | (refine Kept.cut z ?_ ?_ <;> [subst z; (intro hz; clear_value z)]) | (refine Kept.cut2 z ?_ ?_ <;> [subst z; (intro hz; clear_value z)]) | (have hz : State → _ := z; clear hz; subst z) | clear_value z) | split

theorem execAdcNomajSatClear_kept {q0 : List Instr} {n0 : Nat} (t : ℕ) (a : Fin 2) {s : State} (h : Kept q0 n0 s) :
    ∃ s', execAdcNomajSatClear t a s = .next s' ∧ Kept q0 (max n0 t) s' := by
  refine ⟨_, rfl, ?_⟩
  have h := State.upTo_kept t h
  with_reducible repeat' first | assumption | apply State.count_kept | apply State.upTo_kept | apply State.lo_kept | apply State.clearBit_kept | apply Kept.ite | dsimp -zeta only | (extract_lets +onlyGivenNames z; first | (refine Kept.cut z ?_ ?_ <;> [subst z; (intro hz; clear_value z)]) | (refine Kept.cut2 z ?_ ?_ <;> [subst z; (intro hz; clear_value z)]) | (have hz : State → _ := z; clear hz; subst z) | clear_value z) | split

end Sys2Proof.Machine
end

