-- ==== Sys2Proof/Laws/KeptUzCtl.lean ====
section
/-!
SUPPORT. What the operations of Machine/UzCtl keep: the queue, the clock and the form of the stores.
-/

namespace Sys2Proof.Machine

theorem State.stoAxis_kept {q0 : List Instr} {n0 : Nat} {s : State} (a : ℕ) (h : Kept q0 n0 s) : Kept q0 n0 (State.stoAxis s a) := by
  unfold State.stoAxis
  with_reducible repeat' first | assumption | simp -zeta only [Kept.upd] | apply State.modUz_kept | apply State.rowModes_kept | apply State.regate_kept | dsimp -zeta only | (extract_lets +onlyGivenNames z; first | (refine Kept.cut z ?_ ?_ <;> [subst z; (intro hz; clear_value z)]) | (refine Kept.cut2 z ?_ ?_ <;> [subst z; (intro hz; clear_value z)]) | (have hz : State → _ := z; clear hz; subst z) | clear_value z) | (intro; intros)

theorem State.stoSs1_kept {q0 : List Instr} {n0 : Nat} {s : State} (h : Kept q0 n0 s) : Kept q0 n0 (State.stoSs1 s) := by
  unfold State.stoSs1
  with_reducible repeat' first | assumption | apply State.stoActive_kept | apply State.each_kept | apply State.startSs1_kept | apply State.stoAxis_kept | apply Kept.ite | dsimp -zeta only | (extract_lets +onlyGivenNames z; first | (refine Kept.cut z ?_ ?_ <;> [subst z; (intro hz; clear_value z)]) | (refine Kept.cut2 z ?_ ?_ <;> [subst z; (intro hz; clear_value z)]) | (have hz : State → _ := z; clear hz; subst z) | clear_value z) | (intro; intros) | split

theorem State.soFault_kept {q0 : List Instr} {n0 : Nat} {s : State} (n : ℕ) (cause : ℕ) (h : Kept q0 n0 s) : Kept q0 n0 (State.soFault s n cause) := by
  unfold State.soFault
  with_reducible repeat' first | assumption | apply State.output_kept | apply State.wr_kept | apply State.soUpdate_kept | apply State.event_kept | apply State.activateRow_kept | apply State.latchedBit_kept | apply Kept.ite | dsimp -zeta only | (extract_lets +onlyGivenNames z; first | (refine Kept.cut z ?_ ?_ <;> [subst z; (intro hz; clear_value z)]) | (refine Kept.cut2 z ?_ ?_ <;> [subst z; (intro hz; clear_value z)]) | (have hz : State → _ := z; clear hz; subst z) | clear_value z) | split

theorem State.lineClose_kept {q0 : List Instr} {n0 : Nat} {s : State} (h : Kept q0 n0 s) : Kept q0 n0 (State.lineClose s) := by
  unfold State.lineClose
  with_reducible repeat' first | assumption | simp -zeta only [Kept.upd] | apply State.effect_kept | apply State.modSaf_kept | apply State.hi_kept | apply State.lo_kept | apply Kept.ite | dsimp -zeta only | (extract_lets +onlyGivenNames z; first | (refine Kept.cut z ?_ ?_ <;> [subst z; (intro hz; clear_value z)]) | (refine Kept.cut2 z ?_ ?_ <;> [subst z; (intro hz; clear_value z)]) | (have hz : State → _ := z; clear hz; subst z) | clear_value z) | (intro; intros) | split

theorem State.laneFault_kept {q0 : List Instr} {n0 : Nat} {s : State} (h : Kept q0 n0 s) : Kept q0 n0 (State.laneFault s) := by
  unfold State.laneFault
  with_reducible repeat' first | assumption | apply State.output_kept | apply State.hi_kept | apply State.event_kept | apply State.faultN_kept | apply State.openContactors_kept | apply State.each_kept | apply State.cond_kept | apply State.clearSs1_kept | apply State.rowModes_kept | apply State.regate_kept | apply State.soUpdate_kept | apply State.latchedBit_kept | apply Kept.ite | dsimp -zeta only | (extract_lets +onlyGivenNames z; first | (refine Kept.cut z ?_ ?_ <;> [subst z; (intro hz; clear_value z)]) | (refine Kept.cut2 z ?_ ?_ <;> [subst z; (intro hz; clear_value z)]) | (have hz : State → _ := z; clear hz; subst z) | clear_value z) | (intro; intros) | split

theorem State.shadowAtLock_kept {q0 : List Instr} {n0 : Nat} {s : State} (h : Kept q0 n0 s) : Kept q0 n0 (State.shadowAtLock s) := by
  unfold State.shadowAtLock
  with_reducible repeat' first | assumption | simp -zeta only [Kept.upd] | apply State.activateRow_kept | apply State.modSaf_kept | apply State.hi_kept | apply State.each_kept | apply State.regate_kept | apply State.soUpdate_kept | apply foldl_kept | apply foldl2_kept | apply Kept.ite | dsimp -zeta only | (extract_lets +onlyGivenNames z; first | (refine Kept.cut z ?_ ?_ <;> [subst z; (intro hz; clear_value z)]) | (refine Kept.cut2 z ?_ ?_ <;> [subst z; (intro hz; clear_value z)]) | (have hz : State → _ := z; clear hz; subst z) | clear_value z) | (intro; intros) | split

end Sys2Proof.Machine
end

