-- ==== Sys2Proof/Laws/KeptRec.lean ====
section
/-!
SUPPORT. What the operations of Machine/Rec keep: the queue, the clock and the form of the stores.
-/

namespace Sys2Proof.Machine

theorem State.modMed_kept {q0 : List Instr} {n0 : Nat} {s : State} (f : Medium → Medium) (h : Kept q0 n0 s) : Kept q0 n0 (State.modMed s f) := by
  unfold State.modMed
  with_reducible repeat' first | assumption | simp -zeta only [Kept.upd]

theorem State.modRec_kept {q0 : List Instr} {n0 : Nat} {s : State} (f : Recorder → Recorder) (h : Kept q0 n0 s) : Kept q0 n0 (State.modRec s f) := by
  unfold State.modRec
  with_reducible repeat' first | assumption | simp -zeta only [Kept.upd]

theorem State.modBlk_kept {q0 : List Instr} {n0 : Nat} {s : State} (b : ℕ) (f : Blk → Blk) (h : Kept q0 n0 s) : Kept q0 n0 (State.modBlk s b f) := by
  unfold State.modBlk
  with_reducible repeat' first | assumption | simp -zeta only [Kept.upd] | apply State.modMed_kept | dsimp -zeta only | (intro; intros)

theorem State.recRegs_kept {q0 : List Instr} {n0 : Nat} {s : State} (h : Kept q0 n0 s) : Kept q0 n0 (State.recRegs s) := by
  unfold State.recRegs
  with_reducible repeat' first | assumption | simp -zeta only [Kept.upd] | apply State.setReg_kept | apply State.wr64_kept | apply State.wrSat_kept | apply foldl_kept | apply foldl2_kept | dsimp -zeta only | (extract_lets +onlyGivenNames z; first | (refine Kept.cut z ?_ ?_ <;> [subst z; (intro hz; clear_value z)]) | (refine Kept.cut2 z ?_ ?_ <;> [subst z; (intro hz; clear_value z)]) | (have hz : State → _ := z; clear hz; subst z) | clear_value z) | (intro; intros) | split

theorem State.banBit_kept {q0 : List Instr} {n0 : Nat} {s : State} (h : Kept q0 n0 s) : Kept q0 n0 (State.banBit s) := by
  unfold State.banBit
  with_reducible repeat' first | assumption | simp -zeta only [Kept.upd] | apply State.cond_kept | apply State.wrB_kept | dsimp -zeta only | (extract_lets +onlyGivenNames z; first | (refine Kept.cut z ?_ ?_ <;> [subst z; (intro hz; clear_value z)]) | (refine Kept.cut2 z ?_ ?_ <;> [subst z; (intro hz; clear_value z)]) | (have hz : State → _ := z; clear hz; subst z) | clear_value z) | (intro; intros) | split

theorem State.banEnter_kept {q0 : List Instr} {n0 : Nat} {s : State} (h : Kept q0 n0 s) : Kept q0 n0 (State.banEnter s) := by
  unfold State.banEnter
  with_reducible repeat' first | assumption | simp -zeta only [Kept.upd] | apply State.modRec_kept | apply State.hi_kept | apply State.event_kept | apply State.banBit_kept | apply Kept.ite | dsimp -zeta only | (extract_lets +onlyGivenNames z; first | (refine Kept.cut z ?_ ?_ <;> [subst z; (intro hz; clear_value z)]) | (refine Kept.cut2 z ?_ ?_ <;> [subst z; (intro hz; clear_value z)]) | (have hz : State → _ := z; clear hz; subst z) | clear_value z) | (intro; intros) | split

theorem State.spareCheck_kept {q0 : List Instr} {n0 : Nat} {s : State} (h : Kept q0 n0 s) : Kept q0 n0 (State.spareCheck s) := by
  unfold State.spareCheck
  with_reducible repeat' first | assumption | apply State.hi_kept | apply State.event_kept | apply State.banBit_kept | apply Kept.ite | split

theorem State.takeBlk_kept {q0 : List Instr} {n0 : Nat} {s : State} (bound : ℕ) (u : BlkUse) (h : Kept q0 n0 s) : Kept q0 n0 (State.takeBlk s bound u).2 := by
  unfold State.takeBlk
  with_reducible repeat' first | assumption | simp -zeta only [Kept.upd] | apply State.modBlk_kept | apply State.spareCheck_kept | dsimp -zeta only | (intro; intros) | split

theorem State.takeBlks_kept {q0 : List Instr} {n0 : Nat} {s : State} (u : BlkUse) (n : ℕ) (h : Kept q0 n0 s) :
    Kept q0 n0 (State.takeBlks s u n).2 := by
  induction n with
  | zero => exact h
  | succ n ih =>
    have h1 := State.takeBlk_kept (State.takeBlks s u n).2.med.cs0 u ih
    simp only [State.takeBlks]
    split
    · next heq => rw [heq] at h1; exact h1
    · next heq => rw [heq] at h1; exact h1

theorem State.freeBlk_kept {q0 : List Instr} {n0 : Nat} {s : State} (b : ℕ) (h : Kept q0 n0 s) : Kept q0 n0 (State.freeBlk s b) := by
  unfold State.freeBlk
  with_reducible repeat' first | assumption | simp -zeta only [Kept.upd] | apply State.modBlk_kept | dsimp -zeta only | (intro; intros)

theorem State.anchorRec_kept {q0 : List Instr} {n0 : Nat} {s : State} (h : Kept q0 n0 s) : Kept q0 n0 (State.anchorRec s) := by
  unfold State.anchorRec
  with_reducible repeat' first | assumption | simp -zeta only [Kept.upd] | apply State.modMed_kept | apply State.modBlk_kept | apply Kept.ite | dsimp -zeta only | (extract_lets +onlyGivenNames z; first | (refine Kept.cut z ?_ ?_ <;> [subst z; (intro hz; clear_value z)]) | (refine Kept.cut2 z ?_ ?_ <;> [subst z; (intro hz; clear_value z)]) | (have hz : State → _ := z; clear hz; subst z) | clear_value z) | (intro; intros) | split

theorem State.anchorTurn_kept {q0 : List Instr} {n0 : Nat} {s : State} (h : Kept q0 n0 s) : Kept q0 n0 (State.anchorTurn s) := by
  unfold State.anchorTurn
  with_reducible repeat' first | assumption | simp -zeta only [Kept.upd] | apply State.modMed_kept | apply State.anchorRec_kept | dsimp -zeta only | (intro; intros)

theorem State.moveBlk_kept {q0 : List Instr} {n0 : Nat} {s : State} (b : ℕ) (c : ℕ) (h : Kept q0 n0 s) : Kept q0 n0 (State.moveBlk s b c) := by
  unfold State.moveBlk
  with_reducible repeat' first | assumption | simp -zeta only [Kept.upd] | apply State.modBlk_kept | apply State.anchorRec_kept | apply State.modMed_kept | apply State.modRec_kept | apply Kept.ite | dsimp -zeta only | (extract_lets +onlyGivenNames z; first | (refine Kept.cut z ?_ ?_ <;> [subst z; (intro hz; clear_value z)]) | (refine Kept.cut2 z ?_ ?_ <;> [subst z; (intro hz; clear_value z)]) | (have hz : State → _ := z; clear hz; subst z) | clear_value z) | (intro; intros) | split

theorem State.anchorLost_kept {q0 : List Instr} {n0 : Nat} {s : State} (b : ℕ) (h : Kept q0 n0 s) : Kept q0 n0 (State.anchorLost s b) := by
  unfold State.anchorLost
  with_reducible repeat' first | assumption | simp -zeta only [Kept.upd] | apply State.modBlk_kept | apply State.modMed_kept | apply State.anchorTurn_kept | dsimp -zeta only | (extract_lets +onlyGivenNames z; first | (refine Kept.cut z ?_ ?_ <;> [subst z; (intro hz; clear_value z)]) | (refine Kept.cut2 z ?_ ?_ <;> [subst z; (intro hz; clear_value z)]) | (have hz : State → _ := z; clear hz; subst z) | clear_value z) | (intro; intros) | split

theorem State.retire_kept {q0 : List Instr} {n0 : Nat} {s : State} (b : ℕ) (h : Kept q0 n0 s) : Kept q0 n0 (State.retire s b) := by
  unfold State.retire
  with_reducible repeat' first | assumption | simp -zeta only [Kept.upd] | apply State.anchorLost_kept | apply State.moveBlk_kept | apply State.anchorRec_kept | apply State.modBlk_kept | apply State.count_kept | apply State.event_kept | apply State.spareCheck_kept | apply State.recRegs_kept | apply Kept.ite | dsimp -zeta only | (extract_lets +onlyGivenNames z; first | (refine Kept.cut z ?_ ?_ <;> [subst z; (intro hz; clear_value z)]) | (refine Kept.cut2 z ?_ ?_ <;> [subst z; (intro hz; clear_value z)]) | (have hz : State → _ := z; clear hz; subst z) | clear_value z) | (intro; intros) | split

theorem State.putLog_kept {q0 : List Instr} {n0 : Nat} {s : State} (ev : Bool) (g : RLog) (h : Kept q0 n0 s) : Kept q0 n0 (State.putLog s ev g) := by
  unfold State.putLog
  with_reducible repeat' first | assumption | simp -zeta only [Kept.upd] | apply State.modMed_kept | apply Kept.ite | dsimp -zeta only | (intro; intros) | split

theorem State.openLog_kept {q0 : List Instr} {n0 : Nat} {s : State} (ev : Bool) (h : Kept q0 n0 s) : Kept q0 n0 (State.openLog s ev) := by
  unfold State.openLog
  with_reducible repeat' first | assumption | simp -zeta only [Kept.upd] | apply State.anchorRec_kept | apply State.takeBlk_kept | apply State.putLog_kept | apply State.modBlk_kept | apply State.modMed_kept | apply State.event_kept | apply Kept.ite | dsimp -zeta only | (extract_lets +onlyGivenNames z; first | (refine Kept.cut z ?_ ?_ <;> [subst z; (intro hz; clear_value z)]) | (refine Kept.cut2 z ?_ ?_ <;> [subst z; (intro hz; clear_value z)]) | (have hz : State → _ := z; clear hz; subst z) | clear_value z) | (intro; intros) | split

theorem State.roomLog_kept {q0 : List Instr} {n0 : Nat} {s : State} (ev : Bool) (h : Kept q0 n0 s) : Kept q0 n0 (State.roomLog s ev) := by
  unfold State.roomLog
  with_reducible repeat' first | assumption | apply State.openLog_kept | apply Kept.ite | dsimp -zeta only | (extract_lets +onlyGivenNames z; first | (refine Kept.cut z ?_ ?_ <;> [subst z; (intro hz; clear_value z)]) | (refine Kept.cut2 z ?_ ?_ <;> [subst z; (intro hz; clear_value z)]) | (have hz : State → _ := z; clear hz; subst z) | clear_value z) | split

theorem State.usePage_kept {q0 : List Instr} {n0 : Nat} {s : State} (ev : Bool) (h : Kept q0 n0 s) : Kept q0 n0 (State.usePage s ev) := by
  unfold State.usePage
  with_reducible repeat' first | assumption | simp -zeta only [Kept.upd] | apply State.modBlk_kept | apply State.putLog_kept | dsimp -zeta only | (extract_lets +onlyGivenNames z; first | (refine Kept.cut z ?_ ?_ <;> [subst z; (intro hz; clear_value z)]) | (refine Kept.cut2 z ?_ ?_ <;> [subst z; (intro hz; clear_value z)]) | (have hz : State → _ := z; clear hz; subst z) | clear_value z) | (intro; intros)

theorem State.batchCommit_kept {q0 : List Instr} {n0 : Nat} {s : State} (es : List JEntry) (h : Kept q0 n0 s) : Kept q0 n0 (State.batchCommit s es) := by
  unfold State.batchCommit
  with_reducible repeat' first | assumption | simp -zeta only [Kept.upd] | apply State.roomLog_kept | apply State.modMed_kept | apply State.usePage_kept | apply State.wr64_kept | apply State.journalRegs_kept | apply State.issue_kept | apply State.event_kept | apply foldl_kept | apply foldl2_kept | apply Kept.ite | dsimp -zeta only | (extract_lets +onlyGivenNames z; first | (refine Kept.cut z ?_ ?_ <;> [subst z; (intro hz; clear_value z)]) | (refine Kept.cut2 z ?_ ?_ <;> [subst z; (intro hz; clear_value z)]) | (have hz : State → _ := z; clear hz; subst z) | clear_value z) | (intro; intros) | split

theorem State.flushStaging_kept {q0 : List Instr} {n0 : Nat} {s : State} (h : Kept q0 n0 s) : Kept q0 n0 (State.flushStaging s) := by
  unfold State.flushStaging
  with_reducible repeat' first | assumption | simp -zeta only [Kept.upd] | apply State.modRec_kept | apply Kept.ite | dsimp -zeta only | (intro; intros) | split

theorem State.eventPage_kept {q0 : List Instr} {n0 : Nat} {s : State} (items : List RecItem) (h : Kept q0 n0 s) : Kept q0 n0 (State.eventPage s items) := by
  unfold State.eventPage
  with_reducible repeat' first | assumption | simp -zeta only [Kept.upd] | apply State.event_kept | apply State.roomLog_kept | apply State.modMed_kept | apply State.usePage_kept | dsimp -zeta only | (extract_lets +onlyGivenNames z; first | (refine Kept.cut z ?_ ?_ <;> [subst z; (intro hz; clear_value z)]) | (refine Kept.cut2 z ?_ ?_ <;> [subst z; (intro hz; clear_value z)]) | (have hz : State → _ := z; clear hz; subst z) | clear_value z) | (intro; intros)

theorem State.eventsCommit_kept {q0 : List Instr} {n0 : Nat} {s : State} (items : List RecItem) (h : Kept q0 n0 s) : Kept q0 n0 (State.eventsCommit s items) := by
  unfold State.eventsCommit
  with_reducible repeat' first | assumption | simp -zeta only [Kept.upd] | apply State.event_kept | apply State.complete_kept | apply State.eventPage_kept | apply State.modMed_kept | apply State.modRec_kept | apply State.cond_kept | apply State.recRegs_kept | apply foldl_kept | apply foldl2_kept | dsimp -zeta only | (extract_lets +onlyGivenNames z; first | (refine Kept.cut z ?_ ?_ <;> [subst z; (intro hz; clear_value z)]) | (refine Kept.cut2 z ?_ ?_ <;> [subst z; (intro hz; clear_value z)]) | (have hz : State → _ := z; clear hz; subst z) | clear_value z) | (intro; intros)

theorem State.tear_kept {q0 : List Instr} {n0 : Nat} {s : State} (h : Kept q0 n0 s) : Kept q0 n0 (State.tear s) := by
  unfold State.tear
  with_reducible repeat' first | assumption | simp -zeta only [Kept.upd] | apply State.modMed_kept | apply Kept.ite | dsimp -zeta only | (intro; intros) | split

theorem State.closeTorn_kept {q0 : List Instr} {n0 : Nat} {s : State} (ev : Bool) (h : Kept q0 n0 s) : Kept q0 n0 (State.closeTorn s ev) := by
  unfold State.closeTorn
  with_reducible repeat' first | assumption | simp -zeta only [Kept.upd] | apply State.unreadable_kept | apply State.cond_kept | apply State.putLog_kept | apply State.modMed_kept | apply Kept.ite | dsimp -zeta only | (extract_lets +onlyGivenNames z; first | (refine Kept.cut z ?_ ?_ <;> [subst z; (intro hz; clear_value z)]) | (refine Kept.cut2 z ?_ ?_ <;> [subst z; (intro hz; clear_value z)]) | (have hz : State → _ := z; clear hz; subst z) | clear_value z) | (intro; intros) | split

theorem State.mount_kept {q0 : List Instr} {n0 : Nat} {s : State} (h : Kept q0 n0 s) : Kept q0 n0 (State.mount s) := by
  unfold State.mount
  with_reducible repeat' first | assumption | simp -zeta only [Kept.upd] | apply State.closeTorn_kept | apply State.wrB_kept | apply State.modRec_kept | apply State.hi_kept | apply State.cond_kept | apply State.event_kept | apply State.banBit_kept | apply State.recRegs_kept | apply Kept.ite | dsimp -zeta only | (extract_lets +onlyGivenNames z; first | (refine Kept.cut z ?_ ?_ <;> [subst z; (intro hz; clear_value z)]) | (refine Kept.cut2 z ?_ ?_ <;> [subst z; (intro hz; clear_value z)]) | (have hz : State → _ := z; clear hz; subst z) | clear_value z) | (intro; intros) | split

theorem State.journalRebuild_kept {q0 : List Instr} {n0 : Nat} {s : State} (h : Kept q0 n0 s) : Kept q0 n0 (State.journalRebuild s) := by
  unfold State.journalRebuild
  with_reducible repeat' first | assumption | simp -zeta only [Kept.upd] | apply State.drop_kept | apply State.wr64_kept | apply State.each_kept | apply State.wrB_kept | apply State.journalModule_kept | apply State.cond_kept | apply State.event_kept | apply Kept.ite | dsimp -zeta only | (extract_lets +onlyGivenNames z; first | (refine Kept.cut z ?_ ?_ <;> [subst z; (intro hz; clear_value z)]) | (refine Kept.cut2 z ?_ ?_ <;> [subst z; (intro hz; clear_value z)]) | (have hz : State → _ := z; clear hz; subst z) | clear_value z) | (intro; intros) | split

end Sys2Proof.Machine
end

