-- ==== Sys2Proof/Laws/KeptSec.lean ====
section
/-!
SUPPORT. What the operations of Machine/Sec keep: the queue, the clock and the form of the stores.
-/

namespace Sys2Proof.Machine

theorem State.blow_kept {q0 : List Instr} {n0 : Nat} {s : State} (a : ℕ) (b : Byte) (h : Kept q0 n0 s) : Kept q0 n0 (State.blow s a b) := by
  unfold State.blow
  with_reducible repeat' first | assumption | simp -zeta only [Kept.upd] | split

theorem State.advanceTo_kept {q0 : List Instr} {n0 : Nat} {s : State} (v : ℕ) (h : Kept q0 n0 s) : Kept q0 n0 (State.advanceTo s v) := by
  unfold State.advanceTo
  with_reducible repeat' first | assumption | apply State.each_kept | apply State.blow_kept | apply Kept.ite | dsimp -zeta only | (intro; intros) | split

theorem State.arbRegs_kept {q0 : List Instr} {n0 : Nat} {s : State} (h : Kept q0 n0 s) : Kept q0 n0 (State.arbRegs s) := by
  unfold State.arbRegs
  with_reducible repeat' first | assumption | apply State.wr_kept | apply foldl_kept | apply foldl2_kept | dsimp -zeta only | (extract_lets +onlyGivenNames z; first | (refine Kept.cut z ?_ ?_ <;> [subst z; (intro hz; clear_value z)]) | (refine Kept.cut2 z ?_ ?_ <;> [subst z; (intro hz; clear_value z)]) | (have hz : State → _ := z; clear hz; subst z) | clear_value z) | (intro; intros)

end Sys2Proof.Machine
end

