-- ==== Sys2Proof/Laws/KeptRecRows.lean ====
section
/-!
SUPPORT. What the operations of Machine/RecRows keep: the queue, the clock and the form of the stores.
-/

namespace Sys2Proof.Machine

theorem State.shutdownStep_kept {q0 : List Instr} {n0 : Nat} {s : State} (h : Kept q0 n0 s) : Kept q0 n0 (State.shutdownStep s) := by
  unfold State.shutdownStep
  with_reducible repeat' first | assumption | simp -zeta only [Kept.upd] | apply Kept.ite | split

theorem State.dropStage_kept {q0 : List Instr} {n0 : Nat} {s : State} (h : Kept q0 n0 s) : Kept q0 n0 (State.dropStage s) := by
  unfold State.dropStage
  with_reducible repeat' first | assumption | simp -zeta only [Kept.upd] | apply State.freeBlk_kept | apply State.modRec_kept | apply foldl_kept | apply foldl2_kept | dsimp -zeta only | (intro; intros) | split

theorem State.revoke_kept {q0 : List Instr} {n0 : Nat} {s : State} (bs : List Byte) (c : Cmd) (h : Kept q0 n0 s) : Kept q0 n0 (State.revoke s bs c) := by
  unfold State.revoke
  with_reducible repeat' first | assumption | apply State.complete_kept | apply State.blow_kept | apply State.arbRegs_kept | apply State.event_kept | apply Kept.ite | dsimp -zeta only | (extract_lets +onlyGivenNames z; first | (refine Kept.cut z ?_ ?_ <;> [subst z; (intro hz; clear_value z)]) | (refine Kept.cut2 z ?_ ?_ <;> [subst z; (intro hz; clear_value z)]) | (have hz : State → _ := z; clear hz; subst z) | clear_value z) | (intro; intros) | split

theorem State.stageLast_kept {q0 : List Instr} {n0 : Nat} {s : State} (c : Cmd) (split : Bool) (h : Kept q0 n0 s) : Kept q0 n0 (State.stageLast s c split) := by
  unfold State.stageLast
  with_reducible repeat' first | assumption | simp -zeta only [Kept.upd] | apply State.complete_kept | apply State.dropStage_kept | apply State.wr_kept | apply State.event_kept | apply State.revoke_kept | apply State.modRec_kept | apply Kept.ite | dsimp -zeta only | (extract_lets +onlyGivenNames z; first | (refine Kept.cut z ?_ ?_ <;> [subst z; (intro hz; clear_value z)]) | (refine Kept.cut2 z ?_ ?_ <;> [subst z; (intro hz; clear_value z)]) | (have hz : State → _ := z; clear hz; subst z) | clear_value z) | (intro; intros) | split

theorem State.partDone_kept {q0 : List Instr} {n0 : Nat} {s : State} (c : Cmd) (data : List Byte) (last : Bool) (split : Bool) (h : Kept q0 n0 s) : Kept q0 n0 (State.partDone s c data last split) := by
  unfold State.partDone
  with_reducible repeat' first | assumption | simp -zeta only [Kept.upd] | apply State.modRec_kept | apply State.each_kept | apply State.modBlk_kept | apply State.stageLast_kept | apply State.complete_kept | apply Kept.ite | dsimp -zeta only | (extract_lets +onlyGivenNames z; first | (refine Kept.cut z ?_ ?_ <;> [subst z; (intro hz; clear_value z)]) | (refine Kept.cut2 z ?_ ?_ <;> [subst z; (intro hz; clear_value z)]) | (have hz : State → _ := z; clear hz; subst z) | clear_value z) | (intro; intros) | split

theorem State.objectCommit_kept {q0 : List Instr} {n0 : Nat} {s : State} (c : Cmd) (h : Kept q0 n0 s) : Kept q0 n0 (State.objectCommit s c) := by
  unfold State.objectCommit
  with_reducible repeat' first | assumption | simp -zeta only [Kept.upd] | apply State.complete_kept | apply State.freeBlk_kept | apply State.anchorRec_kept | apply State.modMed_kept | apply State.modRec_kept | apply State.recRegs_kept | apply foldl_kept | apply foldl2_kept | dsimp -zeta only | (extract_lets +onlyGivenNames z; first | (refine Kept.cut z ?_ ?_ <;> [subst z; (intro hz; clear_value z)]) | (refine Kept.cut2 z ?_ ?_ <;> [subst z; (intro hz; clear_value z)]) | (have hz : State → _ := z; clear hz; subst z) | clear_value z) | (intro; intros) | split

theorem State.progCommit_kept {q0 : List Instr} {n0 : Nat} {s : State} (p : Prog) (split : Bool) (h : Kept q0 n0 s) : Kept q0 n0 (State.progCommit s p split) := by
  unfold State.progCommit
  with_reducible repeat' first | assumption | simp -zeta only [Kept.upd] | apply State.batchCommit_kept | apply State.eventsCommit_kept | apply State.eventPage_kept | apply State.modMed_kept | apply State.modRec_kept | apply State.partDone_kept | apply State.objectCommit_kept | apply State.boot_kept | apply State.anchorRec_kept | apply State.complete_kept | apply Kept.ite | dsimp -zeta only | (intro; intros) | split

theorem execPageProgramDone_kept {q0 : List Instr} {n0 : Nat} (t : ℕ) (ok : Bool) {s : State} (split : optParam Bool Bool.false) (h : Kept q0 n0 s) :
    ∃ s', execPageProgramDone t ok s split = .next s' ∧ Kept q0 (max n0 t) s' := by
  refine ⟨_, rfl, ?_⟩
  have h := State.upTo_kept t h
  with_reducible repeat' first | assumption | simp -zeta only [Kept.upd] | apply State.upTo_kept | apply State.cond_kept | apply State.modRec_kept | apply State.progCommit_kept | apply State.recRegs_kept | apply State.shutdownStep_kept | apply State.retire_kept | apply State.hi_kept | apply State.count_kept | apply State.event_kept | apply Kept.ite | dsimp -zeta only | (extract_lets +onlyGivenNames z; first | (refine Kept.cut z ?_ ?_ <;> [subst z; (intro hz; clear_value z)]) | (refine Kept.cut2 z ?_ ?_ <;> [subst z; (intro hz; clear_value z)]) | (have hz : State → _ := z; clear hz; subst z) | clear_value z) | (intro; intros) | split

theorem execFlushTimeout_kept {q0 : List Instr} {n0 : Nat} (t : ℕ) {s : State} (h : Kept q0 n0 s) :
    ∃ s', execFlushTimeout t s = .next s' ∧ Kept q0 (max n0 t) s' := by
  refine ⟨_, rfl, ?_⟩
  have h := State.upTo_kept t h
  with_reducible repeat' first | assumption | simp -zeta only [Kept.upd] | apply State.upTo_kept | apply State.flushStaging_kept | apply Kept.ite | dsimp -zeta only | (extract_lets +onlyGivenNames z; first | (refine Kept.cut z ?_ ?_ <;> [subst z; (intro hz; clear_value z)]) | (refine Kept.cut2 z ?_ ?_ <;> [subst z; (intro hz; clear_value z)]) | (have hz : State → _ := z; clear hz; subst z) | clear_value z) | split

theorem execFlush_kept {q0 : List Instr} {n0 : Nat} (t : ℕ) {s : State} (h : Kept q0 n0 s) :
    ∃ s', execFlush t s = .next s' ∧ Kept q0 (max n0 t) s' := by
  refine ⟨_, rfl, ?_⟩
  have h := State.upTo_kept t h
  with_reducible repeat' first | assumption | apply State.upTo_kept | apply State.flushStaging_kept | apply Kept.ite | dsimp -zeta only | (extract_lets +onlyGivenNames z; first | (refine Kept.cut z ?_ ?_ <;> [subst z; (intro hz; clear_value z)]) | (refine Kept.cut2 z ?_ ?_ <;> [subst z; (intro hz; clear_value z)]) | (have hz : State → _ := z; clear hz; subst z) | clear_value z) | split

theorem State.dropWrites_kept {q0 : List Instr} {n0 : Nat} {s : State} (h : Kept q0 n0 s) : Kept q0 n0 (State.dropWrites s) := by
  unfold State.dropWrites
  with_reducible repeat' first | assumption | simp -zeta only [Kept.upd] | apply State.modRec_kept | apply State.complete_kept | apply foldl_kept | apply foldl2_kept | dsimp -zeta only | (extract_lets +onlyGivenNames z; first | (refine Kept.cut z ?_ ?_ <;> [subst z; (intro hz; clear_value z)]) | (refine Kept.cut2 z ?_ ?_ <;> [subst z; (intro hz; clear_value z)]) | (have hz : State → _ := z; clear hz; subst z) | clear_value z) | (intro; intros)

theorem execFormat_kept {q0 : List Instr} {n0 : Nat} (t : ℕ) (bad : List ℕ) {s : State} (h : Kept q0 n0 s) :
    ∃ s', execFormat t bad s = .next s' ∧ Kept q0 (max n0 t) s' := by
  refine ⟨_, rfl, ?_⟩
  have h := State.upTo_kept t h
  with_reducible repeat' first | assumption | simp -zeta only [Kept.upd] | apply State.upTo_kept | apply State.nextFree_kept | apply State.each_kept | apply State.modBlk_kept | apply State.takeBlk_kept | apply State.putLog_kept | apply State.dropWrites_kept | apply State.lo_kept | apply State.spareCheck_kept | apply State.banBit_kept | apply State.recRegs_kept | apply foldl_kept | apply foldl2_kept | simp -zeta only [id] | apply Kept.ite | dsimp -zeta only | (extract_lets +onlyGivenNames z; first | (refine Kept.cut z ?_ ?_ <;> [subst z; (intro hz; clear_value z)]) | (refine Kept.cut2 z ?_ ?_ <;> [subst z; (intro hz; clear_value z)]) | (have hz : State → _ := z; clear hz; subst z) | clear_value z) | (intro; intros) | split

theorem State.unreadable_kept {q0 : List Instr} {n0 : Nat} {s : State} (b : ℕ) (p : ℕ) (h : Kept q0 n0 s) : Kept q0 n0 (State.unreadable s b p) := by
  unfold State.unreadable
  with_reducible repeat' first | assumption | simp -zeta only [Kept.upd] | apply State.hi_kept | apply State.count_kept | apply State.modMed_kept | apply State.event_kept | apply Kept.ite | dsimp -zeta only | (extract_lets +onlyGivenNames z; first | (refine Kept.cut z ?_ ?_ <;> [subst z; (intro hz; clear_value z)]) | (refine Kept.cut2 z ?_ ?_ <;> [subst z; (intro hz; clear_value z)]) | (have hz : State → _ := z; clear hz; subst z) | clear_value z) | (intro; intros) | split

theorem State.relocate_kept {q0 : List Instr} {n0 : Nat} {s : State} (b : ℕ) (h : Kept q0 n0 s) : Kept q0 n0 (State.relocate s b) := by
  unfold State.relocate
  with_reducible repeat' first | assumption | simp -zeta only [Kept.upd] | apply State.anchorTurn_kept | apply State.recRegs_kept | apply State.moveBlk_kept | apply State.freeBlk_kept | apply State.spareCheck_kept | apply Kept.ite | dsimp -zeta only | split

theorem execScrubRead_kept {q0 : List Instr} {n0 : Nat} (t : ℕ) (worst : ℕ) {s : State} (crc : optParam Bool Bool.true) (h : Kept q0 n0 s) :
    ∃ s', execScrubRead t worst s crc = .next s' ∧ Kept q0 (max n0 t) s' := by
  refine ⟨_, rfl, ?_⟩
  have h := State.upTo_kept t h
  with_reducible repeat' first | assumption | simp -zeta only [Kept.upd] | apply State.pass_kept | apply State.upTo_kept | apply State.modRec_kept | apply State.wr_kept | apply State.cond_kept | apply State.unreadable_kept | apply State.relocate_kept | apply State.event_kept | apply State.done_kept | apply State.anchorRec_kept | apply State.modMed_kept | apply State.wrSat_kept | apply State.wrB_kept | apply Kept.ite | dsimp -zeta only | (extract_lets +onlyGivenNames z; first | (refine Kept.cut z ?_ ?_ <;> [subst z; (intro hz; clear_value z)]) | (refine Kept.cut2 z ?_ ?_ <;> [subst z; (intro hz; clear_value z)]) | (have hz : State → _ := z; clear hz; subst z) | clear_value z) | (intro; intros) | split

theorem execWearLevelMove_kept {q0 : List Instr} {n0 : Nat} (t : ℕ) {s : State} (h : Kept q0 n0 s) :
    ∃ s', execWearLevelMove t s = .next s' ∧ Kept q0 (max n0 t) s' := by
  refine ⟨_, rfl, ?_⟩
  have h := State.upTo_kept t h
  with_reducible repeat' first | assumption | simp -zeta only [Kept.upd] | apply State.count_kept | apply State.upTo_kept | apply State.cond_kept | apply State.modBlk_kept | apply State.moveBlk_kept | apply State.freeBlk_kept | apply State.modRec_kept | apply State.recRegs_kept | apply State.event_kept | apply foldl_kept | apply foldl2_kept | apply Kept.ite | dsimp -zeta only | (extract_lets +onlyGivenNames z; first | (refine Kept.cut z ?_ ?_ <;> [subst z; (intro hz; clear_value z)]) | (refine Kept.cut2 z ?_ ?_ <;> [subst z; (intro hz; clear_value z)]) | (have hz : State → _ := z; clear hz; subst z) | clear_value z) | (intro; intros) | split

theorem execWriteBanLift_kept {q0 : List Instr} {n0 : Nat} (t : ℕ) {s : State} (h : Kept q0 n0 s) :
    ∃ s', execWriteBanLift t s = .next s' ∧ Kept q0 (max n0 t) s' := by
  refine ⟨_, rfl, ?_⟩
  have h := State.upTo_kept t h
  with_reducible repeat' first | assumption | simp -zeta only [Kept.upd] | apply State.upTo_kept | apply State.lo_kept | apply State.hi_kept | apply State.event_kept | apply State.banBit_kept | apply Kept.ite | dsimp -zeta only | (extract_lets +onlyGivenNames z; first | (refine Kept.cut z ?_ ?_ <;> [subst z; (intro hz; clear_value z)]) | (refine Kept.cut2 z ?_ ?_ <;> [subst z; (intro hz; clear_value z)]) | (have hz : State → _ := z; clear hz; subst z) | clear_value z) | split

theorem execRecCntSatClear_kept {q0 : List Instr} {n0 : Nat} (t : ℕ) {s : State} (h : Kept q0 n0 s) :
    ∃ s', execRecCntSatClear t s = .next s' ∧ Kept q0 (max n0 t) s' := by
  refine ⟨_, rfl, ?_⟩
  have h := State.upTo_kept t h
  with_reducible repeat' first | assumption | apply State.upTo_kept | apply State.clearCounts_kept | apply Kept.ite | dsimp -zeta only | (extract_lets +onlyGivenNames z; first | (refine Kept.cut z ?_ ?_ <;> [subst z; (intro hz; clear_value z)]) | (refine Kept.cut2 z ?_ ?_ <;> [subst z; (intro hz; clear_value z)]) | (have hz : State → _ := z; clear hz; subst z) | clear_value z) | split

theorem execBlockEraseDone_kept {q0 : List Instr} {n0 : Nat} (t : ℕ) (b : ℕ) (ok : Bool) {s : State} (h : Kept q0 n0 s) :
    ∃ s', execBlockEraseDone t b ok s = .next s' ∧ Kept q0 (max n0 t) s' := by
  refine ⟨_, rfl, ?_⟩
  have h := State.upTo_kept t h
  with_reducible repeat' first | assumption | simp -zeta only [Kept.upd] | apply State.upTo_kept | apply State.modBlk_kept | apply State.recRegs_kept | apply State.count_kept | apply State.event_kept | apply State.spareCheck_kept | apply Kept.ite | dsimp -zeta only | (extract_lets +onlyGivenNames z; first | (refine Kept.cut z ?_ ?_ <;> [subst z; (intro hz; clear_value z)]) | (refine Kept.cut2 z ?_ ?_ <;> [subst z; (intro hz; clear_value z)]) | (have hz : State → _ := z; clear hz; subst z) | clear_value z) | (intro; intros) | split

theorem execMirrorBatchWrite_kept {q0 : List Instr} {n0 : Nat} (t : ℕ) {s : State} (h : Kept q0 n0 s) :
    ∃ s', execMirrorBatchWrite t s = .next s' ∧ Kept q0 (max n0 t) s' := by
  refine ⟨_, rfl, ?_⟩
  have h := State.upTo_kept t h
  with_reducible repeat' first | assumption | simp -zeta only [Kept.upd] | apply State.upTo_kept | apply State.event_kept | apply Kept.ite | dsimp -zeta only | (extract_lets +onlyGivenNames z; first | (refine Kept.cut z ?_ ?_ <;> [subst z; (intro hz; clear_value z)]) | (refine Kept.cut2 z ?_ ?_ <;> [subst z; (intro hz; clear_value z)]) | (have hz : State → _ := z; clear hz; subst z) | clear_value z) | split

theorem execJrnCntSatClear_kept {q0 : List Instr} {n0 : Nat} (t : ℕ) {s : State} (h : Kept q0 n0 s) :
    ∃ s', execJrnCntSatClear t s = .next s' ∧ Kept q0 (max n0 t) s' := by
  refine ⟨_, rfl, ?_⟩
  have h := State.upTo_kept t h
  with_reducible repeat' first | assumption | apply State.upTo_kept | apply State.clearCounts_kept | apply Kept.ite | dsimp -zeta only | (extract_lets +onlyGivenNames z; first | (refine Kept.cut z ?_ ?_ <;> [subst z; (intro hz; clear_value z)]) | (refine Kept.cut2 z ?_ ?_ <;> [subst z; (intro hz; clear_value z)]) | (have hz : State → _ := z; clear hz; subst z) | clear_value z) | split

end Sys2Proof.Machine
end

