-- ==== Sys2Proof/Laws/KeptField.lean ====
section
/-!
SUPPORT. What the operations of Machine/Field keep: the queue, the clock and the form of the stores.
-/

namespace Sys2Proof.Machine

theorem State.putCoef_kept {q0 : List Instr} {n0 : Nat} {s : State} (addr : ℕ) (w : BitVec 32) (h : Kept q0 n0 s) : Kept q0 n0 (State.putCoef s addr w) := by
  unfold State.putCoef
  with_reducible repeat' first | assumption | simp -zeta only [Kept.upd] | dsimp -zeta only | (intro; intros)

theorem State.blendAngle_kept {q0 : List Instr} {n0 : Nat} {s : State} (a : ℕ) (th : ℕ) (fresh : Bool) (h : Kept q0 n0 s) : Kept q0 n0 (State.blendAngle s a th fresh) := by
  unfold State.blendAngle
  with_reducible repeat' first | assumption | simp -zeta only [Kept.upd] | apply State.modFc_kept | apply Kept.ite | dsimp -zeta only | (extract_lets +onlyGivenNames z; first | (refine Kept.cut z ?_ ?_ <;> [subst z; (intro hz; clear_value z)]) | (refine Kept.cut2 z ?_ ?_ <;> [subst z; (intro hz; clear_value z)]) | (have hz : State → _ := z; clear hz; subst z) | clear_value z) | (intro; intros) | split

theorem State.limpOnSource_kept {q0 : List Instr} {n0 : Nat} {s : State} (a : ℕ) (src : ℕ) (h : Kept q0 n0 s) : Kept q0 n0 (State.limpOnSource s a src) := by
  unfold State.limpOnSource
  with_reducible repeat' first | assumption | apply State.hi_kept | apply State.event_kept | apply State.activateRow_kept | apply Kept.ite | split

theorem State.fieldCfg_kept {q0 : List Instr} {n0 : Nat} {s : State} (a : ℕ) (h : Kept q0 n0 s) : Kept q0 n0 (State.fieldCfg s a) := by
  unfold State.fieldCfg
  with_reducible repeat' first | assumption | apply State.event_kept | apply State.wrB_kept | apply State.cond_kept | dsimp -zeta only | (extract_lets +onlyGivenNames z; first | (refine Kept.cut z ?_ ?_ <;> [subst z; (intro hz; clear_value z)]) | (refine Kept.cut2 z ?_ ?_ <;> [subst z; (intro hz; clear_value z)]) | (have hz : State → _ := z; clear hz; subst z) | clear_value z) | (intro; intros) | split

theorem State.applyPreset_kept {q0 : List Instr} {n0 : Nat} {s : State} (a : ℕ) (h : Kept q0 n0 s) : Kept q0 n0 (State.applyPreset s a) := by
  unfold State.applyPreset
  with_reducible repeat' first | assumption | simp -zeta only [Kept.upd] | apply State.putCoef_kept | apply State.modFc_kept | apply Kept.ite | dsimp -zeta only | (extract_lets +onlyGivenNames z; first | (refine Kept.cut z ?_ ?_ <;> [subst z; (intro hz; clear_value z)]) | (refine Kept.cut2 z ?_ ?_ <;> [subst z; (intro hz; clear_value z)]) | (have hz : State → _ := z; clear hz; subst z) | clear_value z) | (intro; intros) | split

theorem State.uzCoast_kept {q0 : List Instr} {n0 : Nat} {s : State} (a : ℕ) (h : Kept q0 n0 s) : Kept q0 n0 (State.uzCoast s a) := by
  unfold State.uzCoast
  with_reducible repeat' first | assumption | simp -zeta only [Kept.upd] | apply State.activateRow_kept | apply State.modUz_kept | apply State.putGate_kept | apply State.hi_kept | apply Kept.ite | dsimp -zeta only | (extract_lets +onlyGivenNames z; first | (refine Kept.cut z ?_ ?_ <;> [subst z; (intro hz; clear_value z)]) | (refine Kept.cut2 z ?_ ?_ <;> [subst z; (intro hz; clear_value z)]) | (have hz : State → _ := z; clear hz; subst z) | clear_value z) | (intro; intros) | split

theorem State.enterCoast_kept {q0 : List Instr} {n0 : Nat} {s : State} (a : ℕ) (h : Kept q0 n0 s) : Kept q0 n0 (State.enterCoast s a) := by
  unfold State.enterCoast
  with_reducible repeat' first | assumption | simp -zeta only [Kept.upd] | apply State.hi_kept | apply State.modFc_kept | apply State.hovLose_kept | apply State.modMot_kept | apply State.uzCoast_kept | apply State.event_kept | dsimp -zeta only | (extract_lets +onlyGivenNames z; first | (refine Kept.cut z ?_ ?_ <;> [subst z; (intro hz; clear_value z)]) | (refine Kept.cut2 z ?_ ?_ <;> [subst z; (intro hz; clear_value z)]) | (have hz : State → _ := z; clear hz; subst z) | clear_value z) | (intro; intros)

theorem State.coastSuccess_kept {q0 : List Instr} {n0 : Nat} {s : State} (a : ℕ) (h : Kept q0 n0 s) : Kept q0 n0 (State.coastSuccess s a) := by
  unfold State.coastSuccess
  with_reducible repeat' first | assumption | simp -zeta only [Kept.upd] | apply State.fieldStopRun_kept | apply State.modFc_kept | apply State.applyPreset_kept | apply State.event_kept | apply State.hi_kept | apply State.activateRow_kept | apply Kept.ite | dsimp -zeta only | (extract_lets +onlyGivenNames z; first | (refine Kept.cut z ?_ ?_ <;> [subst z; (intro hz; clear_value z)]) | (refine Kept.cut2 z ?_ ?_ <;> [subst z; (intro hz; clear_value z)]) | (have hz : State → _ := z; clear hz; subst z) | clear_value z) | (intro; intros) | split

theorem State.stopAxis_kept {q0 : List Instr} {n0 : Nat} {s : State} (a : ℕ) (h : Kept q0 n0 s) : Kept q0 n0 (State.stopAxis s a) := by
  unfold State.stopAxis
  with_reducible repeat' first | assumption | simp -zeta only [Kept.upd] | apply State.release_kept | apply State.setAxMode_kept | apply State.regate_kept | apply State.modUz_kept | apply State.soUpdate_kept | dsimp -zeta only | (intro; intros)

theorem State.coastRelease_kept {q0 : List Instr} {n0 : Nat} {s : State} (a : ℕ) (h : Kept q0 n0 s) : Kept q0 n0 (State.coastRelease s a) := by
  unfold State.coastRelease
  with_reducible repeat' first | assumption | simp -zeta only [Kept.upd] | apply State.valley_kept | apply State.reload_kept | apply State.lo_kept | apply State.modUz_kept | apply State.regate_kept | apply State.modFc_kept | apply State.stopAxis_kept | apply State.complete_kept | apply Kept.ite | dsimp -zeta only | (extract_lets +onlyGivenNames z; first | (refine Kept.cut z ?_ ?_ <;> [subst z; (intro hz; clear_value z)]) | (refine Kept.cut2 z ?_ ?_ <;> [subst z; (intro hz; clear_value z)]) | (have hz : State → _ := z; clear hz; subst z) | clear_value z) | (intro; intros) | split

theorem State.reacquire_kept {q0 : List Instr} {n0 : Nat} {s : State} (a : ℕ) (h : Kept q0 n0 s) : Kept q0 n0 (State.reacquire s a) := by
  unfold State.reacquire
  with_reducible repeat' first | assumption | simp -zeta only [Kept.upd] | apply step_kept | apply State.modFc_kept | apply State.coastSuccess_kept | apply Kept.ite | dsimp -zeta only | (extract_lets +onlyGivenNames z; first | (refine Kept.cut z ?_ ?_ <;> [subst z; (intro hz; clear_value z)]) | (refine Kept.cut2 z ?_ ?_ <;> [subst z; (intro hz; clear_value z)]) | (have hz : State → _ := z; clear hz; subst z) | clear_value z) | (intro; intros) | split

theorem State.observerStep_kept {q0 : List Instr} {n0 : Nat} {s : State} (a : ℕ) (h : Kept q0 n0 s) : Kept q0 n0 (State.observerStep s a) := by
  unfold State.observerStep
  with_reducible repeat' first | assumption | simp -zeta only [Kept.upd] | apply step_kept | apply State.wr_kept | apply State.modFc_kept | apply Kept.ite | dsimp -zeta only | (extract_lets +onlyGivenNames z; first | (refine Kept.cut z ?_ ?_ <;> [subst z; (intro hz; clear_value z)]) | (refine Kept.cut2 z ?_ ?_ <;> [subst z; (intro hz; clear_value z)]) | (have hz : State → _ := z; clear hz; subst z) | clear_value z) | (intro; intros) | split

theorem State.plausStep_kept {q0 : List Instr} {n0 : Nat} {s : State} (a : ℕ) (h : Kept q0 n0 s) : Kept q0 n0 (State.plausStep s a) := by
  unfold State.plausStep
  with_reducible repeat' first | assumption | simp -zeta only [Kept.upd] | apply State.modFc_kept | apply State.hi_kept | apply State.event_kept | apply Kept.ite | dsimp -zeta only | (extract_lets +onlyGivenNames z; first | (refine Kept.cut z ?_ ?_ <;> [subst z; (intro hz; clear_value z)]) | (refine Kept.cut2 z ?_ ?_ <;> [subst z; (intro hz; clear_value z)]) | (have hz : State → _ := z; clear hz; subst z) | clear_value z) | (intro; intros) | split

theorem State.startIf_kept {q0 : List Instr} {n0 : Nat} {s : State} (a : ℕ) (h : Kept q0 n0 s) : Kept q0 n0 (State.startIf s a) := by
  unfold State.startIf
  with_reducible repeat' first | assumption | simp -zeta only [Kept.upd] | apply State.modMot_kept | apply State.lo_kept | apply State.modFc_kept | dsimp -zeta only | (extract_lets +onlyGivenNames z; first | (refine Kept.cut z ?_ ?_ <;> [subst z; (intro hz; clear_value z)]) | (refine Kept.cut2 z ?_ ?_ <;> [subst z; (intro hz; clear_value z)]) | (have hz : State → _ := z; clear hz; subst z) | clear_value z) | (intro; intros)

theorem State.endIf_kept {q0 : List Instr} {n0 : Nat} {s : State} (a : ℕ) (h : Kept q0 n0 s) : Kept q0 n0 (State.endIf s a) := by
  unfold State.endIf
  with_reducible repeat' first | assumption | simp -zeta only [Kept.upd] | apply State.genStop_kept | apply State.modFc_kept | dsimp -zeta only | (intro; intros)

theorem State.startCatch_kept {q0 : List Instr} {n0 : Nat} {s : State} (a : ℕ) (c : Cmd) (h : Kept q0 n0 s) : Kept q0 n0 (State.startCatch s a c) := by
  unfold State.startCatch
  with_reducible repeat' first | assumption | simp -zeta only [Kept.upd] | apply State.hi_kept | apply State.lo_kept | apply State.modFc_kept | dsimp -zeta only | (extract_lets +onlyGivenNames z; first | (refine Kept.cut z ?_ ?_ <;> [subst z; (intro hz; clear_value z)]) | (refine Kept.cut2 z ?_ ?_ <;> [subst z; (intro hz; clear_value z)]) | (have hz : State → _ := z; clear hz; subst z) | clear_value z) | (intro; intros)

theorem State.endCatch_kept {q0 : List Instr} {n0 : Nat} {s : State} (a : ℕ) (res : ℕ) (status : ℕ) (c : Cmd) (h : Kept q0 n0 s) : Kept q0 n0 (State.endCatch s a res status c) := by
  unfold State.endCatch
  with_reducible repeat' first | assumption | simp -zeta only [Kept.upd] | apply State.lo_kept | apply State.wr_kept | apply State.modFc_kept | apply State.event_kept | apply State.complete_kept | dsimp -zeta only | (extract_lets +onlyGivenNames z; first | (refine Kept.cut z ?_ ?_ <;> [subst z; (intro hz; clear_value z)]) | (refine Kept.cut2 z ?_ ?_ <;> [subst z; (intro hz; clear_value z)]) | (have hz : State → _ := z; clear hz; subst z) | clear_value z) | (intro; intros)

theorem State.runAfterCatch_kept {q0 : List Instr} {n0 : Nat} {s : State} (a : ℕ) (res : ℕ) (c : Cmd) (h : Kept q0 n0 s) : Kept q0 n0 (State.runAfterCatch s a res c) := by
  unfold State.runAfterCatch
  with_reducible repeat' first | assumption | simp -zeta only [Kept.upd] | apply State.modFc_kept | apply State.endCatch_kept | apply State.enterRun_kept | dsimp -zeta only | (extract_lets +onlyGivenNames z; first | (refine Kept.cut z ?_ ?_ <;> [subst z; (intro hz; clear_value z)]) | (refine Kept.cut2 z ?_ ?_ <;> [subst z; (intro hz; clear_value z)]) | (have hz : State → _ := z; clear hz; subst z) | clear_value z) | (intro; intros)

theorem State.startsStep_kept {q0 : List Instr} {n0 : Nat} {s : State} (a : ℕ) (h : Kept q0 n0 s) : Kept q0 n0 (State.startsStep s a) := by
  unfold State.startsStep
  with_reducible repeat' first | assumption | simp -zeta only [Kept.upd] | apply State.modFc_kept | apply State.endIf_kept | apply State.startIf_kept | apply State.stopAxis_kept | apply State.event_kept | apply Kept.ite | dsimp -zeta only | (extract_lets +onlyGivenNames z; first | (refine Kept.cut z ?_ ?_ <;> [subst z; (intro hz; clear_value z)]) | (refine Kept.cut2 z ?_ ?_ <;> [subst z; (intro hz; clear_value z)]) | (have hz : State → _ := z; clear hz; subst z) | clear_value z) | (intro; intros) | split

theorem State.sourceStep_kept {q0 : List Instr} {n0 : Nat} {s : State} (a : ℕ) (h : Kept q0 n0 s) : Kept q0 n0 (State.sourceStep s a) := by
  unfold State.sourceStep
  with_reducible repeat' first | assumption | simp -zeta only [Kept.upd] | apply State.modFc_kept | apply State.enterCoast_kept | apply Kept.ite | dsimp -zeta only | (extract_lets +onlyGivenNames z; first | (refine Kept.cut z ?_ ?_ <;> [subst z; (intro hz; clear_value z)]) | (refine Kept.cut2 z ?_ ?_ <;> [subst z; (intro hz; clear_value z)]) | (have hz : State → _ := z; clear hz; subst z) | clear_value z) | (intro; intros) | split

theorem State.fieldEpilogue_kept {q0 : List Instr} {n0 : Nat} {s : State} (a : ℕ) (h : Kept q0 n0 s) : Kept q0 n0 (State.fieldEpilogue s a) := by
  unfold State.fieldEpilogue
  with_reducible repeat' first | assumption | simp -zeta only [Kept.upd] | apply State.epilogue_kept | apply State.observerStep_kept | apply State.modFc_kept | apply State.plausStep_kept | apply State.startsStep_kept | apply State.sourceStep_kept | apply Kept.ite | dsimp -zeta only | (extract_lets +onlyGivenNames z; first | (refine Kept.cut z ?_ ?_ <;> [subst z; (intro hz; clear_value z)]) | (refine Kept.cut2 z ?_ ?_ <;> [subst z; (intro hz; clear_value z)]) | (have hz : State → _ := z; clear hz; subst z) | clear_value z) | (intro; intros) | split

theorem State.fieldStep_kept {q0 : List Instr} {n0 : Nat} {s : State} (a : ℕ) (h : Kept q0 n0 s) : Kept q0 n0 (State.fieldStep s a) := by
  unfold State.fieldStep
  with_reducible repeat' first | assumption | simp -zeta only [Kept.upd] | apply step_kept | apply State.prelude_kept | apply State.applyPreset_kept | apply State.cond_kept | apply State.reacquire_kept | apply State.blendAngle_kept | apply State.modFc_kept | apply State.wr_kept | apply State.event_kept | apply State.limpOnSource_kept | dsimp -zeta only | (extract_lets +onlyGivenNames z; first | (refine Kept.cut z ?_ ?_ <;> [subst z; (intro hz; clear_value z)]) | (refine Kept.cut2 z ?_ ?_ <;> [subst z; (intro hz; clear_value z)]) | (have hz : State → _ := z; clear hz; subst z) | clear_value z) | (intro; intros) | split

theorem execRearm_kept {q0 : List Instr} {n0 : Nat} (t : ℕ) (a : Fin 2) {s : State} (h : Kept q0 n0 s) :
    ∃ s', execRearm t a s = .next s' ∧ Kept q0 (max n0 t) s' := by
  refine ⟨_, rfl, ?_⟩
  have h := State.upTo_kept t h
  with_reducible repeat' first | assumption | apply State.upTo_kept | apply State.preLatch_kept | apply Kept.ite | dsimp -zeta only | (extract_lets +onlyGivenNames z; first | (refine Kept.cut z ?_ ?_ <;> [subst z; (intro hz; clear_value z)]) | (refine Kept.cut2 z ?_ ?_ <;> [subst z; (intro hz; clear_value z)]) | (have hz : State → _ := z; clear hz; subst z) | clear_value z) | split

theorem execHeldStartRelease_kept {q0 : List Instr} {n0 : Nat} (t : ℕ) (a : Fin 2) {s : State} (h : Kept q0 n0 s) :
    ∃ s', execHeldStartRelease t a s = .next s' ∧ Kept q0 (max n0 t) s' := by
  refine ⟨_, rfl, ?_⟩
  have h := State.upTo_kept t h
  with_reducible repeat' first | assumption | simp -zeta only [Kept.upd] | apply State.upTo_kept | apply State.startCatch_kept | apply Kept.ite | dsimp -zeta only | (extract_lets +onlyGivenNames z; first | (refine Kept.cut z ?_ ?_ <;> [subst z; (intro hz; clear_value z)]) | (refine Kept.cut2 z ?_ ?_ <;> [subst z; (intro hz; clear_value z)]) | (have hz : State → _ := z; clear hz; subst z) | clear_value z) | split

theorem execStartTimeout_kept {q0 : List Instr} {n0 : Nat} (t : ℕ) (a : Fin 2) {s : State} (h : Kept q0 n0 s) :
    ∃ s', execStartTimeout t a s = .next s' ∧ Kept q0 (max n0 t) s' := by
  refine ⟨_, rfl, ?_⟩
  have h := State.upTo_kept t h
  with_reducible repeat' first | assumption | simp -zeta only [Kept.upd] | apply State.upTo_kept | apply State.modFc_kept | apply State.complete_kept | apply Kept.ite | dsimp -zeta only | (extract_lets +onlyGivenNames z; first | (refine Kept.cut z ?_ ?_ <;> [subst z; (intro hz; clear_value z)]) | (refine Kept.cut2 z ?_ ?_ <;> [subst z; (intro hz; clear_value z)]) | (have hz : State → _ := z; clear hz; subst z) | clear_value z) | (intro; intros) | split

theorem execCatchEnd_kept {q0 : List Instr} {n0 : Nat} (t : ℕ) (a : Fin 2) (pvSpd : ℤ) (pvE : ℕ) {s : State} (h : Kept q0 n0 s) :
    ∃ s', execCatchEnd t a pvSpd pvE s = .next s' ∧ Kept q0 (max n0 t) s' := by
  refine ⟨_, rfl, ?_⟩
  have h := State.upTo_kept t h
  with_reducible repeat' first | assumption | simp -zeta only [Kept.upd] | apply State.upTo_kept | apply State.setReg_kept | apply State.wr_kept | apply State.wrSat_kept | apply State.endCatch_kept | apply State.event_kept | apply State.runAfterCatch_kept | apply State.startIf_kept | apply State.modFc_kept | apply Kept.ite | dsimp -zeta only | (extract_lets +onlyGivenNames z; first | (refine Kept.cut z ?_ ?_ <;> [subst z; (intro hz; clear_value z)]) | (refine Kept.cut2 z ?_ ?_ <;> [subst z; (intro hz; clear_value z)]) | (have hz : State → _ := z; clear hz; subst z) | clear_value z) | (intro; intros) | split

theorem execIfTimeout_kept {q0 : List Instr} {n0 : Nat} (t : ℕ) (a : Fin 2) {s : State} (h : Kept q0 n0 s) :
    ∃ s', execIfTimeout t a s = .next s' ∧ Kept q0 (max n0 t) s' := by
  refine ⟨_, rfl, ?_⟩
  have h := State.upTo_kept t h
  with_reducible repeat' first | assumption | apply State.upTo_kept | apply State.event_kept | apply State.setAxMode_kept | apply Kept.ite | dsimp -zeta only | (extract_lets +onlyGivenNames z; first | (refine Kept.cut z ?_ ?_ <;> [subst z; (intro hz; clear_value z)]) | (refine Kept.cut2 z ?_ ?_ <;> [subst z; (intro hz; clear_value z)]) | (have hz : State → _ := z; clear hz; subst z) | clear_value z) | (intro; intros) | split

theorem execCoastTimeout_kept {q0 : List Instr} {n0 : Nat} (t : ℕ) (a : Fin 2) {s : State} (h : Kept q0 n0 s) :
    ∃ s', execCoastTimeout t a s = .next s' ∧ Kept q0 (max n0 t) s' := by
  refine ⟨_, rfl, ?_⟩
  have h := State.upTo_kept t h
  with_reducible repeat' first | assumption | apply State.upTo_kept | apply State.event_kept | apply State.activateRow_kept | apply Kept.ite | dsimp -zeta only | (extract_lets +onlyGivenNames z; first | (refine Kept.cut z ?_ ?_ <;> [subst z; (intro hz; clear_value z)]) | (refine Kept.cut2 z ?_ ?_ <;> [subst z; (intro hz; clear_value z)]) | (have hz : State → _ := z; clear hz; subst z) | clear_value z) | split

end Sys2Proof.Machine
end

