-- ==== Sys2Proof/Laws/KeptMotion.lean ====
section
/-!
SUPPORT. What the operations of Machine/Motion keep: the queue, the clock and the form of the stores.
-/

namespace Sys2Proof.Machine

theorem State.motStop_kept {q0 : List Instr} {n0 : Nat} {s : State} (a : ℕ) (g : MotRegs) (next : Bool) (h : Kept q0 n0 s) : Kept q0 n0 (State.motStop s a g next) := by
  unfold State.motStop
  with_reducible repeat' first | assumption | simp -zeta only [Kept.upd] | apply State.modMot_kept | dsimp -zeta only | (extract_lets +onlyGivenNames z; first | (refine Kept.cut z ?_ ?_ <;> [subst z; (intro hz; clear_value z)]) | (refine Kept.cut2 z ?_ ?_ <;> [subst z; (intro hz; clear_value z)]) | (have hz : State → _ := z; clear hz; subst z) | clear_value z) | (intro; intros)

theorem State.motHaltSelf_kept {q0 : List Instr} {n0 : Nat} {s : State} (a : ℕ) (h : Kept q0 n0 s) : Kept q0 n0 (State.motHaltSelf s a) := by
  unfold State.motHaltSelf
  with_reducible repeat' first | assumption | apply State.motStop_kept | apply State.wr_kept

theorem State.motHaltRunning_kept {q0 : List Instr} {n0 : Nat} {s : State} (a : ℕ) (h : Kept q0 n0 s) : Kept q0 n0 (State.motHaltRunning s a) := by
  unfold State.motHaltRunning
  with_reducible repeat' first | assumption | apply State.cond_kept | apply State.motHaltSelf_kept | dsimp -zeta only | (intro; intros)

theorem State.motPlan_kept {q0 : List Instr} {n0 : Nat} {s : State} (a : ℕ) (g : MotRegs) (go : Bool) (table : Bool) (last : Bool) (h : Kept q0 n0 s) : Kept q0 n0 (State.motPlan s a g go table last) := by
  unfold State.motPlan
  with_reducible repeat' first | assumption | simp -zeta only [Kept.upd] | apply State.wr_kept | apply State.motStop_kept | apply State.hi_kept | apply State.event_kept | apply State.modMot_kept | apply Kept.ite | dsimp -zeta only | (extract_lets +onlyGivenNames z; first | (refine Kept.cut z ?_ ?_ <;> [subst z; (intro hz; clear_value z)]) | (refine Kept.cut2 z ?_ ?_ <;> [subst z; (intro hz; clear_value z)]) | (have hz : State → _ := z; clear hz; subst z) | clear_value z) | (intro; intros) | split

theorem State.motBad_kept {q0 : List Instr} {n0 : Nat} {s : State} (a : ℕ) (h : Kept q0 n0 s) : Kept q0 n0 (State.motBad s a) := by
  unfold State.motBad
  with_reducible repeat' first | assumption | apply State.motHaltSelf_kept | apply State.hi_kept | apply State.event_kept

theorem State.motDone_kept {q0 : List Instr} {n0 : Nat} {s : State} (a : ℕ) (h : Kept q0 n0 s) : Kept q0 n0 (State.motDone s a) := by
  unfold State.motDone
  with_reducible repeat' first | assumption | simp -zeta only [Kept.upd] | apply State.done_kept | apply State.modMot_kept | apply State.wr_kept | apply State.event_kept | dsimp -zeta only | (intro; intros)

theorem State.motEntry_kept {q0 : List Instr} {n0 : Nat} {s : State} (a : ℕ) (i : ℕ) (h : Kept q0 n0 s) : Kept q0 n0 (State.motEntry s a i) := by
  unfold State.motEntry
  with_reducible repeat' first | assumption | simp -zeta only [Kept.upd] | apply State.motBad_kept | apply State.wr_kept | apply State.modMot_kept | apply Kept.ite | dsimp -zeta only | (extract_lets +onlyGivenNames z; first | (refine Kept.cut z ?_ ?_ <;> [subst z; (intro hz; clear_value z)]) | (refine Kept.cut2 z ?_ ?_ <;> [subst z; (intro hz; clear_value z)]) | (have hz : State → _ := z; clear hz; subst z) | clear_value z) | (intro; intros) | split

theorem State.motBegin_kept {q0 : List Instr} {n0 : Nat} {s : State} (a : ℕ) (g : MotRegs) (h : Kept q0 n0 s) : Kept q0 n0 (State.motBegin s a g) := by
  unfold State.motBegin
  with_reducible repeat' first | assumption | simp -zeta only [Kept.upd] | apply State.modMot_kept | apply State.motEntry_kept | apply State.motPlan_kept | apply Kept.ite | dsimp -zeta only | (extract_lets +onlyGivenNames z; first | (refine Kept.cut z ?_ ?_ <;> [subst z; (intro hz; clear_value z)]) | (refine Kept.cut2 z ?_ ?_ <;> [subst z; (intro hz; clear_value z)]) | (have hz : State → _ := z; clear hz; subst z) | clear_value z) | (intro; intros) | split

theorem State.clipTarget_kept {q0 : List Instr} {n0 : Nat} {s : State} (a : ℕ) (g : MotRegs) (h : Kept q0 n0 s) : Kept q0 n0 (State.clipTarget s a g).2 := by
  unfold State.clipTarget
  with_reducible repeat' first | assumption | simp -zeta only [Kept.upd] | apply State.hi_kept | apply State.event_kept | apply Kept.ite | dsimp -zeta only | (extract_lets +onlyGivenNames z; first | (refine Kept.cut z ?_ ?_ <;> [subst z; (intro hz; clear_value z)]) | (refine Kept.cut2 z ?_ ?_ <;> [subst z; (intro hz; clear_value z)]) | (have hz : State → _ := z; clear hz; subst z) | clear_value z) | split

theorem State.motRefuse_kept {q0 : List Instr} {n0 : Nat} {s : State} (a : ℕ) (h : Kept q0 n0 s) : Kept q0 n0 (State.motRefuse s a) := by
  unfold State.motRefuse
  with_reducible repeat' first | assumption | apply State.hi_kept | apply State.event_kept

theorem State.segEnd_kept {q0 : List Instr} {n0 : Nat} {s : State} (a : ℕ) (last : Bool) (trap : Bool) (evt : Bool) (h : Kept q0 n0 s) : Kept q0 n0 (State.segEnd s a last trap evt) := by
  unfold State.segEnd
  with_reducible repeat' first | assumption | simp -zeta only [Kept.upd] | apply State.cond_kept | apply State.event_kept | apply State.clipTarget_kept | apply State.modMot_kept | apply State.motPlan_kept | apply State.motRefuse_kept | apply State.motDone_kept | apply State.motEntry_kept | apply Kept.ite | dsimp -zeta only | (extract_lets +onlyGivenNames z; first | (refine Kept.cut z ?_ ?_ <;> [subst z; (intro hz; clear_value z)]) | (refine Kept.cut2 z ?_ ?_ <;> [subst z; (intro hz; clear_value z)]) | (have hz : State → _ := z; clear hz; subst z) | clear_value z) | (intro; intros) | split

theorem State.motSample_kept {q0 : List Instr} {n0 : Nat} {s : State} (a : ℕ) (h : Kept q0 n0 s) : Kept q0 n0 (State.motSample s a) := by
  unfold State.motSample
  with_reducible repeat' first | assumption | simp -zeta only [Kept.upd] | apply State.modMot_kept | apply State.motEntry_kept | apply State.motDone_kept | apply State.segEnd_kept | apply State.motPlan_kept | apply State.wr_kept | apply Kept.ite | dsimp -zeta only | (extract_lets +onlyGivenNames z; first | (refine Kept.cut z ?_ ?_ <;> [subst z; (intro hz; clear_value z)]) | (refine Kept.cut2 z ?_ ?_ <;> [subst z; (intro hz; clear_value z)]) | (have hz : State → _ := z; clear hz; subst z) | clear_value z) | (intro; intros) | split

theorem State.motReplan_kept {q0 : List Instr} {n0 : Nat} {s : State} (a : ℕ) (coasted : Bool) (h : Kept q0 n0 s) : Kept q0 n0 (State.motReplan s a coasted) := by
  unfold State.motReplan
  with_reducible repeat' first | assumption | simp -zeta only [Kept.upd] | apply State.motPlan_kept | apply State.modMot_kept | apply State.motStop_kept | dsimp -zeta only | (extract_lets +onlyGivenNames z; first | (refine Kept.cut z ?_ ?_ <;> [subst z; (intro hz; clear_value z)]) | (refine Kept.cut2 z ?_ ?_ <;> [subst z; (intro hz; clear_value z)]) | (have hz : State → _ := z; clear hz; subst z) | clear_value z) | (intro; intros) | split

theorem State.motSettle_kept {q0 : List Instr} {n0 : Nat} {s : State} (a : ℕ) (h : Kept q0 n0 s) : Kept q0 n0 (State.motSettle s a) := by
  unfold State.motSettle
  with_reducible repeat' first | assumption | simp -zeta only [Kept.upd] | apply State.motSample_kept | dsimp -zeta only | split

theorem State.motFollow_kept {q0 : List Instr} {n0 : Nat} {s : State} (a : ℕ) (h : Kept q0 n0 s) : Kept q0 n0 (State.motFollow s a) := by
  unfold State.motFollow
  with_reducible repeat' first | assumption | simp -zeta only [Kept.upd] | apply State.modMot_kept | dsimp -zeta only | (intro; intros)

theorem State.limitCheck_kept {q0 : List Instr} {n0 : Nat} {s : State} (a : ℕ) (h : Kept q0 n0 s) : Kept q0 n0 (State.limitCheck s a) := by
  unfold State.limitCheck
  with_reducible repeat' first | assumption | simp -zeta only [Kept.upd] | apply State.each_kept | apply State.modMot_kept | apply State.motHaltRunning_kept | apply State.hi_kept | apply State.event_kept | apply Kept.ite | dsimp -zeta only | (extract_lets +onlyGivenNames z; first | (refine Kept.cut z ?_ ?_ <;> [subst z; (intro hz; clear_value z)]) | (refine Kept.cut2 z ?_ ?_ <;> [subst z; (intro hz; clear_value z)]) | (have hz : State → _ := z; clear hz; subst z) | clear_value z) | (intro; intros) | split

theorem State.followCheck_kept {q0 : List Instr} {n0 : Nat} {s : State} (a : ℕ) (h : Kept q0 n0 s) : Kept q0 n0 (State.followCheck s a) := by
  unfold State.followCheck
  with_reducible repeat' first | assumption | simp -zeta only [Kept.upd] | apply State.modMot_kept | apply State.motHaltRunning_kept | apply State.hi_kept | apply State.event_kept | apply Kept.ite | dsimp -zeta only | (extract_lets +onlyGivenNames z; first | (refine Kept.cut z ?_ ?_ <;> [subst z; (intro hz; clear_value z)]) | (refine Kept.cut2 z ?_ ?_ <;> [subst z; (intro hz; clear_value z)]) | (have hz : State → _ := z; clear hz; subst z) | clear_value z) | (intro; intros) | split

theorem State.reserveStep_kept {q0 : List Instr} {n0 : Nat} {s : State} (a : ℕ) (h : Kept q0 n0 s) : Kept q0 n0 (State.reserveStep s a) := by
  unfold State.reserveStep
  with_reducible repeat' first | assumption | simp -zeta only [Kept.upd] | apply State.wr_kept | apply State.wrB_kept | apply State.modMot_kept | apply State.event_kept | apply Kept.ite | dsimp -zeta only | (extract_lets +onlyGivenNames z; first | (refine Kept.cut z ?_ ?_ <;> [subst z; (intro hz; clear_value z)]) | (refine Kept.cut2 z ?_ ?_ <;> [subst z; (intro hz; clear_value z)]) | (have hz : State → _ := z; clear hz; subst z) | clear_value z) | (intro; intros) | split

theorem State.genStep_kept {q0 : List Instr} {n0 : Nat} {s : State} (a : ℕ) (h : Kept q0 n0 s) : Kept q0 n0 (State.genStep s a) := by
  unfold State.genStep
  with_reducible repeat' first | assumption | simp -zeta only [Kept.upd] | apply State.event_kept | apply step_kept | apply State.cond_kept | apply State.modFc_kept | apply State.modMot_kept | apply Kept.ite | dsimp -zeta only | (extract_lets +onlyGivenNames z; first | (refine Kept.cut z ?_ ?_ <;> [subst z; (intro hz; clear_value z)]) | (refine Kept.cut2 z ?_ ?_ <;> [subst z; (intro hz; clear_value z)]) | (have hz : State → _ := z; clear hz; subst z) | clear_value z) | (intro; intros) | split

theorem State.motUpdate_kept {q0 : List Instr} {n0 : Nat} {s : State} (a : ℕ) (h : Kept q0 n0 s) : Kept q0 n0 (State.motUpdate s a) := by
  unfold State.motUpdate
  with_reducible repeat' first | assumption | simp -zeta only [Kept.upd] | apply State.event_kept | apply State.genStep_kept | apply State.cond_kept | apply State.modMot_kept | apply State.motFollow_kept | apply State.judge_kept | apply State.limitCheck_kept | apply State.lo_kept | apply State.motShift_kept | apply State.hi_kept | apply Kept.ite | dsimp -zeta only | (extract_lets +onlyGivenNames z; first | (refine Kept.cut z ?_ ?_ <;> [subst z; (intro hz; clear_value z)]) | (refine Kept.cut2 z ?_ ?_ <;> [subst z; (intro hz; clear_value z)]) | (have hz : State → _ := z; clear hz; subst z) | clear_value z) | (intro; intros) | split

theorem State.motTick_kept {q0 : List Instr} {n0 : Nat} {s : State} (a : ℕ) (h : Kept q0 n0 s) : Kept q0 n0 (State.motTick s a) := by
  unfold State.motTick
  with_reducible repeat' first | assumption | simp -zeta only [Kept.upd] | apply State.modMot_kept | apply State.motFollow_kept | apply State.motSample_kept | apply State.motBegin_kept | apply State.motSettle_kept | apply State.motReplan_kept | apply State.limitCheck_kept | apply State.followCheck_kept | apply State.reserveStep_kept | apply State.wr_kept | apply State.setReg_kept | apply Kept.ite | dsimp -zeta only | (extract_lets +onlyGivenNames z; first | (refine Kept.cut z ?_ ?_ <;> [subst z; (intro hz; clear_value z)]) | (refine Kept.cut2 z ?_ ?_ <;> [subst z; (intro hz; clear_value z)]) | (have hz : State → _ := z; clear hz; subst z) | clear_value z) | (intro; intros) | split

theorem State.limCfg_kept {q0 : List Instr} {n0 : Nat} {s : State} (a : ℕ) (h : Kept q0 n0 s) : Kept q0 n0 (State.limCfg s a) := by
  unfold State.limCfg
  with_reducible repeat' first | assumption | apply State.cond_kept | apply State.hi_kept | dsimp -zeta only | (intro; intros)

theorem State.motGo_kept {q0 : List Instr} {n0 : Nat} {s : State} (a : ℕ) (table : Bool) (h : Kept q0 n0 s) : Kept q0 n0 (State.motGo s a table) := by
  unfold State.motGo
  with_reducible repeat' first | assumption | simp -zeta only [Kept.upd] | apply State.wrB_kept | apply State.limCfg_kept | apply State.motRefuse_kept | apply State.clipTarget_kept | apply State.modMot_kept | apply State.cond_kept | apply State.wr_kept | apply Kept.ite | dsimp -zeta only | (extract_lets +onlyGivenNames z; first | (refine Kept.cut z ?_ ?_ <;> [subst z; (intro hz; clear_value z)]) | (refine Kept.cut2 z ?_ ?_ <;> [subst z; (intro hz; clear_value z)]) | (have hz : State → _ := z; clear hz; subst z) | clear_value z) | (intro; intros) | split

theorem State.motHalt_kept {q0 : List Instr} {n0 : Nat} {s : State} (a : ℕ) (table : Bool) (h : Kept q0 n0 s) : Kept q0 n0 (State.motHalt s a table) := by
  unfold State.motHalt
  with_reducible repeat' first | assumption | simp -zeta only [Kept.upd] | apply State.wrB_kept | apply State.modMot_kept | apply State.motStop_kept | apply State.wr_kept | apply Kept.ite | dsimp -zeta only | (extract_lets +onlyGivenNames z; first | (refine Kept.cut z ?_ ?_ <;> [subst z; (intro hz; clear_value z)]) | (refine Kept.cut2 z ?_ ?_ <;> [subst z; (intro hz; clear_value z)]) | (have hz : State → _ := z; clear hz; subst z) | clear_value z) | (intro; intros) | split

theorem execGo_kept {q0 : List Instr} {n0 : Nat} (t : ℕ) (a : Fin 2) (table : Bool) {s : State} (h : Kept q0 n0 s) :
    ∃ s', execGo t a table s = .next s' ∧ Kept q0 (max n0 t) s' := by
  refine ⟨_, rfl, ?_⟩
  have h := State.upTo_kept t h
  with_reducible repeat' first | assumption | apply State.upTo_kept | apply State.motGo_kept | apply Kept.ite | dsimp -zeta only | (extract_lets +onlyGivenNames z; first | (refine Kept.cut z ?_ ?_ <;> [subst z; (intro hz; clear_value z)]) | (refine Kept.cut2 z ?_ ?_ <;> [subst z; (intro hz; clear_value z)]) | (have hz : State → _ := z; clear hz; subst z) | clear_value z) | split

theorem execHalt_kept {q0 : List Instr} {n0 : Nat} (t : ℕ) (a : Fin 2) (table : Bool) {s : State} (h : Kept q0 n0 s) :
    ∃ s', execHalt t a table s = .next s' ∧ Kept q0 (max n0 t) s' := by
  refine ⟨_, rfl, ?_⟩
  have h := State.upTo_kept t h
  with_reducible repeat' first | assumption | apply State.upTo_kept | apply State.motHalt_kept | apply Kept.ite | dsimp -zeta only | (extract_lets +onlyGivenNames z; first | (refine Kept.cut z ?_ ?_ <;> [subst z; (intro hz; clear_value z)]) | (refine Kept.cut2 z ?_ ?_ <;> [subst z; (intro hz; clear_value z)]) | (have hz : State → _ := z; clear hz; subst z) | clear_value z) | split

end Sys2Proof.Machine
end

