-- ==== Sys2Proof/Laws/KeptHandover.lean ====
section
/-!
SUPPORT. What the operations of Machine/Handover keep: the queue, the clock and the form of the stores.
-/

namespace Sys2Proof.Machine

theorem State.uzCommand_kept {q0 : List Instr} {n0 : Nat} {s : State} (a : ℕ) (w : List (BitVec 32)) (h : Kept q0 n0 s) : Kept q0 n0 (State.uzCommand s a w) := by
  unfold State.uzCommand
  with_reducible repeat' first | assumption | simp -zeta only [Kept.upd] | apply State.hi_kept | apply State.lo_kept | apply State.modUz_kept | apply Kept.ite | dsimp -zeta only | (extract_lets +onlyGivenNames z; first | (refine Kept.cut z ?_ ?_ <;> [subst z; (intro hz; clear_value z)]) | (refine Kept.cut2 z ?_ ?_ <;> [subst z; (intro hz; clear_value z)]) | (have hz : State → _ := z; clear hz; subst z) | clear_value z) | (intro; intros) | split

theorem State.publishSet_kept {q0 : List Instr} {n0 : Nat} {s : State} (a : ℕ) (w : List (BitVec 32)) (own : Bool) (h : Kept q0 n0 s) : Kept q0 n0 (State.publishSet s a w own) := by
  unfold State.publishSet
  with_reducible repeat' first | assumption | simp -zeta only [Kept.upd] | apply State.hi_kept | apply State.event_kept | apply State.modFsa_kept | apply State.uzCommand_kept | apply Kept.ite | dsimp -zeta only | (extract_lets +onlyGivenNames z; first | (refine Kept.cut z ?_ ?_ <;> [subst z; (intro hz; clear_value z)]) | (refine Kept.cut2 z ?_ ?_ <;> [subst z; (intro hz; clear_value z)]) | (have hz : State → _ := z; clear hz; subst z) | clear_value z) | (intro; intros) | split

theorem State.publish_kept {q0 : List Instr} {n0 : Nat} {s : State} (a : ℕ) (h : Kept q0 n0 s) : Kept q0 n0 (State.publish s a) := by
  unfold State.publish
  with_reducible repeat' first | assumption | apply State.publishSet_kept

theorem State.hovCfg_kept {q0 : List Instr} {n0 : Nat} {s : State} (h : Kept q0 n0 s) : Kept q0 n0 (State.hovCfg s) := by
  unfold State.hovCfg
  with_reducible repeat' first | assumption | apply State.wrB_kept | apply Kept.ite | dsimp -zeta only | (extract_lets +onlyGivenNames z; first | (refine Kept.cut z ?_ ?_ <;> [subst z; (intro hz; clear_value z)]) | (refine Kept.cut2 z ?_ ?_ <;> [subst z; (intro hz; clear_value z)]) | (have hz : State → _ := z; clear hz; subst z) | clear_value z) | split

theorem State.hovRelease_kept {q0 : List Instr} {n0 : Nat} {s : State} (a : ℕ) (counted : Bool) (h : Kept q0 n0 s) : Kept q0 n0 (State.hovRelease s a counted) := by
  unfold State.hovRelease
  with_reducible repeat' first | assumption | simp -zeta only [Kept.upd] | apply State.sendHov_kept | apply State.event_kept | apply State.cond_kept | apply State.count_kept | apply State.stopAxis_kept | dsimp -zeta only | (extract_lets +onlyGivenNames z; first | (refine Kept.cut z ?_ ?_ <;> [subst z; (intro hz; clear_value z)]) | (refine Kept.cut2 z ?_ ?_ <;> [subst z; (intro hz; clear_value z)]) | (have hz : State → _ := z; clear hz; subst z) | clear_value z) | (intro; intros)

theorem State.hovHolding_kept {q0 : List Instr} {n0 : Nat} {s : State} (a : ℕ) (h : Kept q0 n0 s) : Kept q0 n0 (State.hovHolding s a) := by
  unfold State.hovHolding
  with_reducible repeat' first | assumption | simp -zeta only [Kept.upd] | apply State.publishSet_kept | apply State.wr_kept | apply State.modHov_kept | dsimp -zeta only | (extract_lets +onlyGivenNames z; first | (refine Kept.cut z ?_ ?_ <;> [subst z; (intro hz; clear_value z)]) | (refine Kept.cut2 z ?_ ?_ <;> [subst z; (intro hz; clear_value z)]) | (have hz : State → _ := z; clear hz; subst z) | clear_value z) | (intro; intros) | split

theorem State.posPlace_kept {q0 : List Instr} {n0 : Nat} {s : State} (a : ℕ) (mt : ℕ) (h : Kept q0 n0 s) : Kept q0 n0 (State.posPlace s a mt) := by
  unfold State.posPlace
  with_reducible repeat' first | assumption | simp -zeta only [Kept.upd] | apply State.modPos_kept | apply State.motShift_kept | apply State.posPublish_kept | dsimp -zeta only | (extract_lets +onlyGivenNames z; first | (refine Kept.cut z ?_ ?_ <;> [subst z; (intro hz; clear_value z)]) | (refine Kept.cut2 z ?_ ?_ <;> [subst z; (intro hz; clear_value z)]) | (have hz : State → _ := z; clear hz; subst z) | clear_value z) | (intro; intros)

theorem State.hovTake_kept {q0 : List Instr} {n0 : Nat} {s : State} (a : ℕ) (ext : ℕ) (edges : ℕ × ℕ) (h : Kept q0 n0 s) : Kept q0 n0 (State.hovTake s a ext edges) := by
  unfold State.hovTake
  with_reducible repeat' first | assumption | simp -zeta only [Kept.upd] | apply State.event_kept | apply State.modHov_kept | apply State.posPlace_kept | apply State.enterRun_kept | apply State.modFc_kept | apply State.wr_kept | dsimp -zeta only | (extract_lets +onlyGivenNames z; first | (refine Kept.cut z ?_ ?_ <;> [subst z; (intro hz; clear_value z)]) | (refine Kept.cut2 z ?_ ?_ <;> [subst z; (intro hz; clear_value z)]) | (have hz : State → _ := z; clear hz; subst z) | clear_value z) | (intro; intros)

theorem State.hovUpdate_kept {q0 : List Instr} {n0 : Nat} {s : State} (a : ℕ) (h : Kept q0 n0 s) : Kept q0 n0 (State.hovUpdate s a) := by
  unfold State.hovUpdate
  with_reducible repeat' first | assumption | simp -zeta only [Kept.upd] | apply State.event_kept | apply State.hovTake_kept | apply State.hovHolding_kept | apply State.hovRelease_kept | apply State.modHov_kept | apply State.sendAbort_kept | apply State.hovAborted_kept | apply Kept.ite | dsimp -zeta only | (extract_lets +onlyGivenNames z; first | (refine Kept.cut z ?_ ?_ <;> [subst z; (intro hz; clear_value z)]) | (refine Kept.cut2 z ?_ ?_ <;> [subst z; (intro hz; clear_value z)]) | (have hz : State → _ := z; clear hz; subst z) | clear_value z) | (intro; intros) | split

theorem State.hovTick_kept {q0 : List Instr} {n0 : Nat} {s : State} (a : ℕ) (h : Kept q0 n0 s) : Kept q0 n0 (State.hovTick s a) := by
  unfold State.hovTick
  with_reducible repeat' first | assumption | apply State.sendHov_kept | apply Kept.ite | dsimp -zeta only | (extract_lets +onlyGivenNames z; first | (refine Kept.cut z ?_ ?_ <;> [subst z; (intro hz; clear_value z)]) | (refine Kept.cut2 z ?_ ?_ <;> [subst z; (intro hz; clear_value z)]) | (have hz : State → _ := z; clear hz; subst z) | clear_value z) | split

theorem State.keepEcho_kept {q0 : List Instr} {n0 : Nat} {s : State} (a : ℕ) (own : ℕ) (fine : Bool) (at_ : ℤ) (h : Kept q0 n0 s) : Kept q0 n0 (State.keepEcho s a own fine at_) := by
  unfold State.keepEcho
  with_reducible repeat' first | assumption | simp -zeta only [Kept.upd] | apply State.modHov_kept | apply Kept.ite | dsimp -zeta only | (extract_lets +onlyGivenNames z; first | (refine Kept.cut z ?_ ?_ <;> [subst z; (intro hz; clear_value z)]) | (refine Kept.cut2 z ?_ ?_ <;> [subst z; (intro hz; clear_value z)]) | (have hz : State → _ := z; clear hz; subst z) | clear_value z) | (intro; intros) | split

theorem State.recvPrearm_kept {q0 : List Instr} {n0 : Nat} {s : State} (a : ℕ) (up : Bool) (dirUp : Bool) (port : Bool) (h : Kept q0 n0 s) : Kept q0 n0 (State.recvPrearm s a up dirUp port) := by
  unfold State.recvPrearm
  with_reducible repeat' first | assumption | simp -zeta only [Kept.upd] | apply State.portAbort_kept | apply State.sendAbort_kept | apply State.wr_kept | apply State.wrB_kept | apply State.modHov_kept | apply Kept.ite | dsimp -zeta only | (extract_lets +onlyGivenNames z; first | (refine Kept.cut z ?_ ?_ <;> [subst z; (intro hz; clear_value z)]) | (refine Kept.cut2 z ?_ ?_ <;> [subst z; (intro hz; clear_value z)]) | (have hz : State → _ := z; clear hz; subst z) | clear_value z) | (intro; intros) | split

theorem State.recvReady_kept {q0 : List Instr} {n0 : Nat} {s : State} (a : ℕ) (sig : Word) (h : Kept q0 n0 s) : Kept q0 n0 (State.recvReady s a sig) := by
  unfold State.recvReady
  with_reducible repeat' first | assumption | simp -zeta only [Kept.upd] | apply State.sendAbort_kept | apply State.cond_kept | apply State.hovAborted_kept | apply State.modHov_kept | apply State.wr_kept | apply State.hi_kept | apply State.event_kept | apply Kept.ite | dsimp -zeta only | (extract_lets +onlyGivenNames z; first | (refine Kept.cut z ?_ ?_ <;> [subst z; (intro hz; clear_value z)]) | (refine Kept.cut2 z ?_ ?_ <;> [subst z; (intro hz; clear_value z)]) | (have hz : State → _ := z; clear hz; subst z) | clear_value z) | (intro; intros) | split

theorem State.recvState_kept {q0 : List Instr} {n0 : Nat} {s : State} (a : ℕ) (up : Bool) (mt : Word) (spd : BitVec 16) (cur : BitVec 16) (tFirst : ℕ) (h : Kept q0 n0 s) : Kept q0 n0 (State.recvState s a up mt spd cur tFirst) := by
  unfold State.recvState
  with_reducible repeat' first | assumption | simp -zeta only [Kept.upd] | apply State.sendAbort_kept | apply State.hovAborted_kept | apply State.hovHolding_kept | apply State.modHov_kept | apply State.capture_kept | apply Kept.ite | dsimp -zeta only | (extract_lets +onlyGivenNames z; first | (refine Kept.cut z ?_ ?_ <;> [subst z; (intro hz; clear_value z)]) | (refine Kept.cut2 z ?_ ?_ <;> [subst z; (intro hz; clear_value z)]) | (have hz : State → _ := z; clear hz; subst z) | clear_value z) | (intro; intros) | split

theorem State.recvEcho_kept {q0 : List Instr} {n0 : Nat} {s : State} (a : ℕ) (mt : Word) (flags : BitVec 16) (tFirst : ℕ) (h : Kept q0 n0 s) : Kept q0 n0 (State.recvEcho s a mt flags tFirst) := by
  unfold State.recvEcho
  with_reducible repeat' first | assumption | simp -zeta only [Kept.upd] | apply State.modHov_kept | apply State.keepEcho_kept | apply State.sendAbort_kept | apply State.hovAborted_kept | apply Kept.ite | dsimp -zeta only | (extract_lets +onlyGivenNames z; first | (refine Kept.cut z ?_ ?_ <;> [subst z; (intro hz; clear_value z)]) | (refine Kept.cut2 z ?_ ?_ <;> [subst z; (intro hz; clear_value z)]) | (have hz : State → _ := z; clear hz; subst z) | clear_value z) | (intro; intros) | split

theorem State.recvRelease_kept {q0 : List Instr} {n0 : Nat} {s : State} (a : ℕ) (cur : BitVec 16) (h : Kept q0 n0 s) : Kept q0 n0 (State.recvRelease s a cur) := by
  unfold State.recvRelease
  with_reducible repeat' first | assumption | simp -zeta only [Kept.upd] | apply State.hold_kept | apply State.modHov_kept | apply State.hovHolding_kept | apply State.wr_kept | apply Kept.ite | dsimp -zeta only | (extract_lets +onlyGivenNames z; first | (refine Kept.cut z ?_ ?_ <;> [subst z; (intro hz; clear_value z)]) | (refine Kept.cut2 z ?_ ?_ <;> [subst z; (intro hz; clear_value z)]) | (have hz : State → _ := z; clear hz; subst z) | clear_value z) | (intro; intros) | split

theorem State.recvAbort_kept {q0 : List Instr} {n0 : Nat} {s : State} (a : ℕ) (reason : BitVec 8) (h : Kept q0 n0 s) : Kept q0 n0 (State.recvAbort s a reason) := by
  unfold State.recvAbort
  with_reducible repeat' first | assumption | simp -zeta only [Kept.upd] | apply State.hi_kept | apply State.hovCountAbort_kept | apply State.event_kept | apply State.hovAborted_kept | apply State.modHov_kept | apply State.stopAxis_kept | apply State.wr_kept | apply State.hovHolding_kept | apply State.modFc_kept | apply Kept.ite | dsimp -zeta only | (extract_lets +onlyGivenNames z; first | (refine Kept.cut z ?_ ?_ <;> [subst z; (intro hz; clear_value z)]) | (refine Kept.cut2 z ?_ ?_ <;> [subst z; (intro hz; clear_value z)]) | (have hz : State → _ := z; clear hz; subst z) | clear_value z) | (intro; intros) | split

theorem State.innerFrame_kept {q0 : List Instr} {n0 : Nat} {s : State} (m : ℕ × ℕ × List Byte) (h : Kept q0 n0 s) : Kept q0 n0 (State.innerFrame s m) := by
  unfold State.innerFrame
  with_reducible repeat' first | assumption | simp -zeta only [Kept.upd] | apply State.recvPrearm_kept | apply State.recvReady_kept | apply State.recvState_kept | apply State.recvEcho_kept | apply State.recvRelease_kept | apply State.recvAbort_kept | dsimp -zeta only | (extract_lets +onlyGivenNames z; first | (refine Kept.cut z ?_ ?_ <;> [subst z; (intro hz; clear_value z)]) | (refine Kept.cut2 z ?_ ?_ <;> [subst z; (intro hz; clear_value z)]) | (have hz : State → _ := z; clear hz; subst z) | clear_value z) | split

theorem State.deliver_kept {q0 : List Instr} {n0 : Nat} (k : ℕ) {s : State} (h : Kept q0 n0 s) :
    Kept q0 n0 (State.deliver k s) := by
  induction k generalizing s with
  | zero => exact h
  | succ k ih =>
    unfold State.deliver
    split
    · exact h
    · exact ih (State.innerFrame_kept _ (by simpa -zeta only [Kept.upd] using h))

theorem State.innerMail_kept {q0 : List Instr} {n0 : Nat} {s : State} (h : Kept q0 n0 s) : Kept q0 n0 (State.innerMail s) := by
  unfold State.innerMail
  with_reducible repeat' first | assumption | apply State.exchange_kept | apply State.deliver_kept

theorem execServoTick_kept {q0 : List Instr} {n0 : Nat} (t : ℕ) (a : Fin 2) {s : State} (h : Kept q0 n0 s) :
    ∃ s', execServoTick t a s = .next s' ∧ Kept q0 (max n0 t) s' := by
  refine ⟨_, rfl, ?_⟩
  have h := State.upTo_kept t h
  with_reducible repeat' first | assumption | simp -zeta only [Kept.upd] | apply State.event_kept | apply State.upTo_kept | apply State.motTick_kept | apply State.hovTick_kept | apply State.innerMail_kept | apply State.cond_kept | apply Kept.ite | dsimp -zeta only | (extract_lets +onlyGivenNames z; first | (refine Kept.cut z ?_ ?_ <;> [subst z; (intro hz; clear_value z)]) | (refine Kept.cut2 z ?_ ?_ <;> [subst z; (intro hz; clear_value z)]) | (have hz : State → _ := z; clear hz; subst z) | clear_value z) | (intro; intros) | split

theorem execPrearmSend_kept {q0 : List Instr} {n0 : Nat} (t : ℕ) (a : Fin 2) {s : State} (h : Kept q0 n0 s) :
    ∃ s', execPrearmSend t a s = .next s' ∧ Kept q0 (max n0 t) s' := by
  refine ⟨_, rfl, ?_⟩
  have h := State.upTo_kept t h
  with_reducible repeat' first | assumption | simp -zeta only [Kept.upd] | apply State.upTo_kept | apply State.cond_kept | apply State.event_kept | apply State.wr_kept | apply State.wrB_kept | apply State.modHov_kept | apply State.sendHov_kept | apply State.innerMail_kept | apply Kept.ite | dsimp -zeta only | (extract_lets +onlyGivenNames z; first | (refine Kept.cut z ?_ ?_ <;> [subst z; (intro hz; clear_value z)]) | (refine Kept.cut2 z ?_ ?_ <;> [subst z; (intro hz; clear_value z)]) | (have hz : State → _ := z; clear hz; subst z) | clear_value z) | (intro; intros) | split

theorem execPrearmReceive_kept {q0 : List Instr} {n0 : Nat} (t : ℕ) (a : Fin 2) (up : Bool) (dirUp : Bool) {s : State} (h : Kept q0 n0 s) :
    ∃ s', execPrearmReceive t a up dirUp s = .next s' ∧ Kept q0 (max n0 t) s' := by
  refine ⟨_, rfl, ?_⟩
  have h := State.upTo_kept t h
  with_reducible repeat' first | assumption | simp -zeta only [Kept.upd] | apply State.event_kept | apply State.upTo_kept | apply State.recvPrearm_kept | apply State.cond_kept | apply Kept.ite | dsimp -zeta only | (extract_lets +onlyGivenNames z; first | (refine Kept.cut z ?_ ?_ <;> [subst z; (intro hz; clear_value z)]) | (refine Kept.cut2 z ?_ ?_ <;> [subst z; (intro hz; clear_value z)]) | (have hz : State → _ := z; clear hz; subst z) | clear_value z) | (intro; intros) | split

theorem execTakerReadySend_kept {q0 : List Instr} {n0 : Nat} (t : ℕ) (a : Fin 2) (pathOk : Bool) {s : State} (h : Kept q0 n0 s) :
    ∃ s', execTakerReadySend t a pathOk s = .next s' ∧ Kept q0 (max n0 t) s' := by
  refine ⟨_, rfl, ?_⟩
  have h := State.upTo_kept t h
  with_reducible repeat' first | assumption | simp -zeta only [Kept.upd] | apply State.upTo_kept | apply State.modFc_kept | apply State.wr_kept | apply State.sendHov_kept | apply State.innerMail_kept | apply State.activateRow_kept | apply Kept.ite | dsimp -zeta only | (extract_lets +onlyGivenNames z; first | (refine Kept.cut z ?_ ?_ <;> [subst z; (intro hz; clear_value z)]) | (refine Kept.cut2 z ?_ ?_ <;> [subst z; (intro hz; clear_value z)]) | (have hz : State → _ := z; clear hz; subst z) | clear_value z) | (intro; intros) | split

theorem execReadyReceive_kept {q0 : List Instr} {n0 : Nat} (t : ℕ) (a : Fin 2) (sig : Word) {s : State} (h : Kept q0 n0 s) :
    ∃ s', execReadyReceive t a sig s = .next s' ∧ Kept q0 (max n0 t) s' := by
  refine ⟨_, rfl, ?_⟩
  have h := State.upTo_kept t h
  with_reducible repeat' first | assumption | apply State.upTo_kept | apply State.recvReady_kept | apply Kept.ite | dsimp -zeta only | (extract_lets +onlyGivenNames z; first | (refine Kept.cut z ?_ ?_ <;> [subst z; (intro hz; clear_value z)]) | (refine Kept.cut2 z ?_ ?_ <;> [subst z; (intro hz; clear_value z)]) | (have hz : State → _ := z; clear hz; subst z) | clear_value z) | split

theorem execStateReceive_kept {q0 : List Instr} {n0 : Nat} (t : ℕ) (a : Fin 2) (up : Bool) (mt : Word) (spd : BitVec 16) (cur : BitVec 16) (tFirst : ℕ) {s : State} (h : Kept q0 n0 s) :
    ∃ s', execStateReceive t a up mt spd cur tFirst s = .next s' ∧ Kept q0 (max n0 t) s' := by
  refine ⟨_, rfl, ?_⟩
  have h := State.upTo_kept t h
  with_reducible repeat' first | assumption | apply State.upTo_kept | apply State.recvState_kept | apply Kept.ite | dsimp -zeta only | (extract_lets +onlyGivenNames z; first | (refine Kept.cut z ?_ ?_ <;> [subst z; (intro hz; clear_value z)]) | (refine Kept.cut2 z ?_ ?_ <;> [subst z; (intro hz; clear_value z)]) | (have hz : State → _ := z; clear hz; subst z) | clear_value z) | split

theorem execEchoReceive_kept {q0 : List Instr} {n0 : Nat} (t : ℕ) (a : Fin 2) (mt : Word) {s : State} (flags : optParam (BitVec 16) 0) (tFirst : optParam ℕ 0) (h : Kept q0 n0 s) :
    ∃ s', execEchoReceive t a mt s flags tFirst = .next s' ∧ Kept q0 (max n0 t) s' := by
  refine ⟨_, rfl, ?_⟩
  have h := State.upTo_kept t h
  with_reducible repeat' first | assumption | apply State.upTo_kept | apply State.recvEcho_kept | apply Kept.ite | dsimp -zeta only | (extract_lets +onlyGivenNames z; first | (refine Kept.cut z ?_ ?_ <;> [subst z; (intro hz; clear_value z)]) | (refine Kept.cut2 z ?_ ?_ <;> [subst z; (intro hz; clear_value z)]) | (have hz : State → _ := z; clear hz; subst z) | clear_value z) | split

theorem execReleaseReceive_kept {q0 : List Instr} {n0 : Nat} (t : ℕ) (a : Fin 2) (cur : BitVec 16) {s : State} (h : Kept q0 n0 s) :
    ∃ s', execReleaseReceive t a cur s = .next s' ∧ Kept q0 (max n0 t) s' := by
  refine ⟨_, rfl, ?_⟩
  have h := State.upTo_kept t h
  with_reducible repeat' first | assumption | apply State.upTo_kept | apply State.recvRelease_kept | apply Kept.ite | dsimp -zeta only | (extract_lets +onlyGivenNames z; first | (refine Kept.cut z ?_ ?_ <;> [subst z; (intro hz; clear_value z)]) | (refine Kept.cut2 z ?_ ?_ <;> [subst z; (intro hz; clear_value z)]) | (have hz : State → _ := z; clear hz; subst z) | clear_value z) | split

theorem execAbortReceive_kept {q0 : List Instr} {n0 : Nat} (t : ℕ) (a : Fin 2) (reason : BitVec 8) {s : State} (h : Kept q0 n0 s) :
    ∃ s', execAbortReceive t a reason s = .next s' ∧ Kept q0 (max n0 t) s' := by
  refine ⟨_, rfl, ?_⟩
  have h := State.upTo_kept t h
  with_reducible repeat' first | assumption | apply State.upTo_kept | apply State.recvAbort_kept | apply Kept.ite | dsimp -zeta only | (extract_lets +onlyGivenNames z; first | (refine Kept.cut z ?_ ?_ <;> [subst z; (intro hz; clear_value z)]) | (refine Kept.cut2 z ?_ ?_ <;> [subst z; (intro hz; clear_value z)]) | (have hz : State → _ := z; clear hz; subst z) | clear_value z) | split

theorem execStateFrameLoss_kept {q0 : List Instr} {n0 : Nat} (t : ℕ) (a : Fin 2) {s : State} (h : Kept q0 n0 s) :
    ∃ s', execStateFrameLoss t a s = .next s' ∧ Kept q0 (max n0 t) s' := by
  refine ⟨_, rfl, ?_⟩
  have h := State.upTo_kept t h
  with_reducible repeat' first | assumption | simp -zeta only [Kept.upd] | apply State.each_kept | apply State.upTo_kept | apply State.modHov_kept | apply State.sendAbort_kept | apply State.hovAborted_kept | apply State.modFc_kept | apply State.innerMail_kept | apply State.hi_kept | apply State.event_kept | apply Kept.ite | dsimp -zeta only | (extract_lets +onlyGivenNames z; first | (refine Kept.cut z ?_ ?_ <;> [subst z; (intro hz; clear_value z)]) | (refine Kept.cut2 z ?_ ?_ <;> [subst z; (intro hz; clear_value z)]) | (have hz : State → _ := z; clear hz; subst z) | clear_value z) | (intro; intros) | split

theorem execMotHovSatClear_kept {q0 : List Instr} {n0 : Nat} (t : ℕ) (a : Fin 2) {s : State} (h : Kept q0 n0 s) :
    ∃ s', execMotHovSatClear t a s = .next s' ∧ Kept q0 (max n0 t) s' := by
  refine ⟨_, rfl, ?_⟩
  have h := State.upTo_kept t h
  with_reducible repeat' first | assumption | apply State.upTo_kept | apply State.clearCounts_kept | apply Kept.ite | dsimp -zeta only | (extract_lets +onlyGivenNames z; first | (refine Kept.cut z ?_ ?_ <;> [subst z; (intro hz; clear_value z)]) | (refine Kept.cut2 z ?_ ?_ <;> [subst z; (intro hz; clear_value z)]) | (have hz : State → _ := z; clear hz; subst z) | clear_value z) | split

end Sys2Proof.Machine
end

