-- ==== Sys2Proof/Laws/KeptFesil.lean ====
section
/-!
SUPPORT. What the operations of Machine/Fesil keep: the queue, the clock and the form of the stores.
-/

namespace Sys2Proof.Machine

theorem State.modFsl_kept {q0 : List Instr} {n0 : Nat} {s : State} (f : Fsl → Fsl) (h : Kept q0 n0 s) : Kept q0 n0 (State.modFsl s f) := by
  unfold State.modFsl
  with_reducible repeat' first | assumption | simp -zeta only [Kept.upd]

theorem State.fslEccFixed_kept {q0 : List Instr} {n0 : Nat} {s : State} (h : Kept q0 n0 s) : Kept q0 n0 (State.fslEccFixed s) := by
  unfold State.fslEccFixed
  with_reducible repeat' first | assumption | apply State.hi_kept | apply State.bump_kept | apply State.cond_kept | dsimp -zeta only | (extract_lets +onlyGivenNames z; first | (refine Kept.cut z ?_ ?_ <;> [subst z; (intro hz; clear_value z)]) | (refine Kept.cut2 z ?_ ?_ <;> [subst z; (intro hz; clear_value z)]) | (have hz : State → _ := z; clear hz; subst z) | clear_value z) | (intro; intros)

theorem State.fslEccBad_kept {q0 : List Instr} {n0 : Nat} {s : State} (h : Kept q0 n0 s) : Kept q0 n0 (State.fslEccBad s) := by
  unfold State.fslEccBad
  with_reducible repeat' first | assumption | simp -zeta only [Kept.upd] | apply State.epilogue_kept | apply State.modFsl_kept | apply State.hi_kept | apply State.event_kept | apply State.activateRow_kept | dsimp -zeta only | (extract_lets +onlyGivenNames z; first | (refine Kept.cut z ?_ ?_ <;> [subst z; (intro hz; clear_value z)]) | (refine Kept.cut2 z ?_ ?_ <;> [subst z; (intro hz; clear_value z)]) | (have hz : State → _ := z; clear hz; subst z) | clear_value z) | (intro; intros)

theorem State.withEcc_kept {q0 : List Instr} {n0 : Nat} {s : State} (e : Ecc) (f : State → State) (h : Kept q0 n0 s) (h_f : ∀ y0, Kept q0 n0 y0 → Kept q0 n0 (f y0)) : Kept q0 n0 (State.withEcc s e f) := by
  unfold State.withEcc
  with_reducible repeat' first | assumption | simp -zeta only [Kept.upd] | apply h_f | apply State.fslEccFixed_kept | apply State.fslEccBad_kept | dsimp -zeta only | (intro; intros) | split

theorem State.piSlot_kept {q0 : List Instr} {n0 : Nat} {s : State} (a : ℕ) (slot : ℕ) (ref : BitVec 32) (meas : BitVec 32) (ff : BitVec 32) (lim : BitVec 32) (run : Bool) (h : Kept q0 n0 s) : Kept q0 n0 (State.piSlot s a slot ref meas ff lim run).2 := by
  unfold State.piSlot
  with_reducible repeat' first | assumption | apply step_kept | apply State.putCoef_kept | dsimp -zeta only | (extract_lets +onlyGivenNames z; first | (refine Kept.cut z ?_ ?_ <;> [subst z; (intro hz; clear_value z)]) | (refine Kept.cut2 z ?_ ?_ <;> [subst z; (intro hz; clear_value z)]) | (have hz : State → _ := z; clear hz; subst z) | clear_value z)

theorem State.biquad_kept {q0 : List Instr} {n0 : Nat} {s : State} (x : BitVec 32) (coef : ℕ) (st : ℕ) (h : Kept q0 n0 s) : Kept q0 n0 (State.biquad s x coef st).2 := by
  unfold State.biquad
  with_reducible repeat' first | assumption | apply step_kept | apply State.putCoef_kept | dsimp -zeta only | (extract_lets +onlyGivenNames z; first | (refine Kept.cut z ?_ ?_ <;> [subst z; (intro hz; clear_value z)]) | (refine Kept.cut2 z ?_ ?_ <;> [subst z; (intro hz; clear_value z)]) | (have hz : State → _ := z; clear hz; subst z) | clear_value z)

theorem State.notch_kept {q0 : List Instr} {n0 : Nat} {s : State} (a : ℕ) (n : ℕ) (was : ℕ) (x : BitVec 32) (h : Kept q0 n0 s) : Kept q0 n0 (State.notch s a n was x).2 := by
  unfold State.notch
  with_reducible repeat' first | assumption | apply State.putCoef_kept | apply State.biquad_kept | apply Kept.ite | dsimp -zeta only | (extract_lets +onlyGivenNames z; first | (refine Kept.cut z ?_ ?_ <;> [subst z; (intro hz; clear_value z)]) | (refine Kept.cut2 z ?_ ?_ <;> [subst z; (intro hz; clear_value z)]) | (have hz : State → _ := z; clear hz; subst z) | clear_value z) | split

theorem State.swapBanks_kept {q0 : List Instr} {n0 : Nat} {s : State} (a : ℕ) (h : Kept q0 n0 s) : Kept q0 n0 (State.swapBanks s a) := by
  unfold State.swapBanks
  with_reducible repeat' first | assumption | apply State.hi_kept

theorem State.takeSets_kept {q0 : List Instr} {n0 : Nat} {s : State} (a : ℕ) (h : Kept q0 n0 s) : Kept q0 n0 (State.takeSets s a).2 := by
  unfold State.takeSets
  with_reducible repeat' first | assumption | simp -zeta only [Kept.upd] | apply State.effect_kept | apply State.modFsa_kept | apply State.lo_kept | apply State.wr_kept | apply Kept.ite | dsimp -zeta only | (extract_lets +onlyGivenNames z; first | (refine Kept.cut z ?_ ?_ <;> [subst z; (intro hz; clear_value z)]) | (refine Kept.cut2 z ?_ ?_ <;> [subst z; (intro hz; clear_value z)]) | (have hz : State → _ := z; clear hz; subst z) | clear_value z) | (intro; intros) | split

theorem State.formI_kept {q0 : List Instr} {n0 : Nat} {s : State} (a : ℕ) (run : Bool) (h : Kept q0 n0 s) : Kept q0 n0 (State.formI s a run).2 := by
  unfold State.formI
  with_reducible repeat' first | assumption | simp -zeta only [Kept.upd] | apply State.move_kept | apply State.putCoef_kept | apply State.modHov_kept | apply State.piSlot_kept | apply State.modFsa_kept | apply Kept.ite | dsimp -zeta only | (extract_lets +onlyGivenNames z; first | (refine Kept.cut z ?_ ?_ <;> [subst z; (intro hz; clear_value z)]) | (refine Kept.cut2 z ?_ ?_ <;> [subst z; (intro hz; clear_value z)]) | (have hz : State → _ := z; clear hz; subst z) | clear_value z) | (intro; intros) | split

theorem State.countMissing_kept {q0 : List Instr} {n0 : Nat} {s : State} (a : ℕ) (missing : Bool) (h : Kept q0 n0 s) : Kept q0 n0 (State.countMissing s a missing) := by
  unfold State.countMissing
  with_reducible repeat' first | assumption | apply State.lo_kept | apply State.wr_kept | apply State.count_kept | apply State.event_kept | apply State.activateRow_kept | apply Kept.ite | dsimp -zeta only | (extract_lets +onlyGivenNames z; first | (refine Kept.cut z ?_ ?_ <;> [subst z; (intro hz; clear_value z)]) | (refine Kept.cut2 z ?_ ?_ <;> [subst z; (intro hz; clear_value z)]) | (have hz : State → _ := z; clear hz; subst z) | clear_value z) | split

theorem State.prelude_kept {q0 : List Instr} {n0 : Nat} {s : State} (a : ℕ) (i : InputSet) (h : Kept q0 n0 s) : Kept q0 n0 (State.prelude s a i) := by
  unfold State.prelude
  with_reducible repeat' first | assumption | simp -zeta only [Kept.upd] | apply State.takeSets_kept | apply State.countMissing_kept | apply State.fieldStep_kept | apply State.formI_kept | apply State.notch_kept | apply State.modFsa_kept | dsimp -zeta only | (extract_lets +onlyGivenNames z; first | (refine Kept.cut z ?_ ?_ <;> [subst z; (intro hz; clear_value z)]) | (refine Kept.cut2 z ?_ ?_ <;> [subst z; (intro hz; clear_value z)]) | (have hz : State → _ := z; clear hz; subst z) | clear_value z) | (intro; intros)

theorem State.writeBack_kept {q0 : List Instr} {n0 : Nat} {s : State} (a : ℕ) (h : Kept q0 n0 s) : Kept q0 n0 (State.writeBack s a) := by
  unfold State.writeBack
  with_reducible repeat' first | assumption | simp -zeta only [Kept.upd] | apply State.each_kept | apply State.putCoef_kept | dsimp -zeta only | (extract_lets +onlyGivenNames z; first | (refine Kept.cut z ?_ ?_ <;> [subst z; (intro hz; clear_value z)]) | (refine Kept.cut2 z ?_ ?_ <;> [subst z; (intro hz; clear_value z)]) | (have hz : State → _ := z; clear hz; subst z) | clear_value z) | (intro; intros)

theorem State.epilogue_kept {q0 : List Instr} {n0 : Nat} {s : State} (cut : Bool) (h : Kept q0 n0 s) : Kept q0 n0 (State.epilogue s cut) := by
  unfold State.epilogue
  with_reducible repeat' first | assumption | simp -zeta only [Kept.upd] | apply State.modFsl_kept | apply State.fieldEpilogue_kept | apply State.writeBack_kept | apply State.wr_kept | apply State.cond_kept | apply State.modFsa_kept | apply State.hi_kept | apply State.event_kept | apply Kept.ite | dsimp -zeta only | (extract_lets +onlyGivenNames z; first | (refine Kept.cut z ?_ ?_ <;> [subst z; (intro hz; clear_value z)]) | (refine Kept.cut2 z ?_ ?_ <;> [subst z; (intro hz; clear_value z)]) | (have hz : State → _ := z; clear hz; subst z) | clear_value z) | (intro; intros) | split

theorem State.instr_kept {q0 : List Instr} {n0 : Nat} {s : State} (n : ℕ) (e : Ecc) (body : FTask → State → State) (h : Kept q0 n0 s) (h_body : ∀ y0 y1, Kept q0 n0 y1 → Kept q0 n0 (body y0 y1)) : Kept q0 n0 (State.instr s n e body) := by
  unfold State.instr
  with_reducible repeat' first | assumption | simp -zeta only [Kept.upd] | apply h_body | apply State.effect_kept | apply State.modFsl_kept | apply State.withEcc_kept | apply Kept.ite | dsimp -zeta only | (intro; intros) | split

theorem State.modTask_kept {q0 : List Instr} {n0 : Nat} {s : State} (f : FTask → FTask) (h : Kept q0 n0 s) : Kept q0 n0 (State.modTask s f) := by
  unfold State.modTask
  with_reducible repeat' first | assumption | simp -zeta only [Kept.upd] | apply State.modFsl_kept | dsimp -zeta only | (intro; intros)

theorem State.setF_kept {q0 : List Instr} {n0 : Nat} {s : State} (n : ℕ) (v : BitVec 32) (h : Kept q0 n0 s) : Kept q0 n0 (State.setF s n v) := by
  unfold State.setF
  with_reducible repeat' first | assumption | simp -zeta only [Kept.upd] | apply State.modTask_kept | dsimp -zeta only | (intro; intros)

theorem State.setA_kept {q0 : List Instr} {n0 : Nat} {s : State} (n : ℕ) (v : BitVec 32) (h : Kept q0 n0 s) : Kept q0 n0 (State.setA s n v) := by
  unfold State.setA
  with_reducible repeat' first | assumption | simp -zeta only [Kept.upd] | apply State.modTask_kept | dsimp -zeta only | (intro; intros)

theorem State.setFs_kept {q0 : List Instr} {n0 : Nat} {s : State} (n : ℕ) (l : List (BitVec 32)) (h : Kept q0 n0 s) :
    Kept q0 n0 (State.setFs s n l) := by
  induction l generalizing s n with
  | nil => exact h
  | cons v l ih => exact ih (n + 1) (State.setF_kept n v h)

theorem State.noteNan_kept {q0 : List Instr} {n0 : Nat} {s : State} (l : List (BitVec 32)) (h : Kept q0 n0 s) : Kept q0 n0 (State.noteNan s l) := by
  unfold State.noteNan
  with_reducible repeat' first | assumption | apply State.cond_kept | apply State.hi_kept | dsimp -zeta only | (intro; intros)

theorem State.memStore_kept {q0 : List Instr} {n0 : Nat} {s : State} (x : ℕ) (w : BitVec 32) (h : Kept q0 n0 s) : Kept q0 n0 (State.memStore s x w) := by
  unfold State.memStore
  with_reducible repeat' first | assumption | apply State.putCoef_kept | apply Kept.ite | dsimp -zeta only | (extract_lets +onlyGivenNames z; first | (refine Kept.cut z ?_ ?_ <;> [subst z; (intro hz; clear_value z)]) | (refine Kept.cut2 z ?_ ?_ <;> [subst z; (intro hz; clear_value z)]) | (have hz : State → _ := z; clear hz; subst z) | clear_value z) | split

theorem State.stageDuties_kept {q0 : List Instr} {n0 : Nat} {s : State} (c : ℕ) (d : List (BitVec 32)) (h : Kept q0 n0 s) : Kept q0 n0 (State.stageDuties s c d) := by
  unfold State.stageDuties
  with_reducible repeat' first | assumption | apply State.each_kept | apply State.setReg_kept | apply Kept.ite | dsimp -zeta only | (extract_lets +onlyGivenNames z; first | (refine Kept.cut z ?_ ?_ <;> [subst z; (intro hz; clear_value z)]) | (refine Kept.cut2 z ?_ ?_ <;> [subst z; (intro hz; clear_value z)]) | (have hz : State → _ := z; clear hz; subst z) | clear_value z) | (intro; intros) | split

theorem State.traceArm_kept {q0 : List Instr} {n0 : Nat} {s : State} (h : Kept q0 n0 s) : Kept q0 n0 (State.traceArm s) := by
  unfold State.traceArm
  with_reducible repeat' first | assumption | simp -zeta only [Kept.upd] | apply State.modFsl_kept | apply State.setReg_kept | apply State.wr_kept | dsimp -zeta only | (extract_lets +onlyGivenNames z; first | (refine Kept.cut z ?_ ?_ <;> [subst z; (intro hz; clear_value z)]) | (refine Kept.cut2 z ?_ ?_ <;> [subst z; (intro hz; clear_value z)]) | (have hz : State → _ := z; clear hz; subst z) | clear_value z) | (intro; intros)

theorem State.traceTrigger_kept {q0 : List Instr} {n0 : Nat} {s : State} (a : ℕ) (h : Kept q0 n0 s) : Kept q0 n0 (State.traceTrigger s a) := by
  unfold State.traceTrigger
  with_reducible repeat' first | assumption | simp -zeta only [Kept.upd] | apply State.event_kept | apply State.wr_kept | apply State.cond_kept | apply State.hi_kept | apply State.modFsl_kept | apply State.emit_kept | dsimp -zeta only | (extract_lets +onlyGivenNames z; first | (refine Kept.cut z ?_ ?_ <;> [subst z; (intro hz; clear_value z)]) | (refine Kept.cut2 z ?_ ?_ <;> [subst z; (intro hz; clear_value z)]) | (have hz : State → _ := z; clear hz; subst z) | clear_value z) | (intro; intros)

theorem State.traceFreeze_kept {q0 : List Instr} {n0 : Nat} {s : State} (a : ℕ) (h : Kept q0 n0 s) : Kept q0 n0 (State.traceFreeze s a) := by
  unfold State.traceFreeze
  with_reducible repeat' first | assumption | apply State.wr_kept | apply State.event_kept

theorem State.traceRecord_kept {q0 : List Instr} {n0 : Nat} {s : State} (k : FTask) (h : Kept q0 n0 s) : Kept q0 n0 (State.traceRecord s k) := by
  unfold State.traceRecord
  with_reducible repeat' first | assumption | simp -zeta only [Kept.upd] | apply State.modFsa_kept | apply State.cond_kept | apply State.traceTrigger_kept | apply State.wr_kept | apply State.modFsl_kept | apply State.traceFreeze_kept | apply foldl_kept | apply foldl2_kept | apply Kept.ite | dsimp -zeta only | (extract_lets +onlyGivenNames z; first | (refine Kept.cut z ?_ ?_ <;> [subst z; (intro hz; clear_value z)]) | (refine Kept.cut2 z ?_ ?_ <;> [subst z; (intro hz; clear_value z)]) | (have hz : State → _ := z; clear hz; subst z) | clear_value z) | (intro; intros) | split

theorem State.overrun_kept {q0 : List Instr} {n0 : Nat} {s : State} (a : ℕ) (h : Kept q0 n0 s) : Kept q0 n0 (State.overrun s a) := by
  unfold State.overrun
  with_reducible repeat' first | assumption | simp -zeta only [Kept.upd] | apply State.count_kept | apply State.wr_kept | apply State.modFsa_kept | apply State.event_kept | apply State.cond_kept | apply State.traceHit_kept | apply State.activateRow_kept | apply Kept.ite | dsimp -zeta only | (extract_lets +onlyGivenNames z; first | (refine Kept.cut z ?_ ?_ <;> [subst z; (intro hz; clear_value z)]) | (refine Kept.cut2 z ?_ ?_ <;> [subst z; (intro hz; clear_value z)]) | (have hz : State → _ := z; clear hz; subst z) | clear_value z) | (intro; intros) | split

theorem State.overrunFree_kept {q0 : List Instr} {n0 : Nat} {s : State} (a : ℕ) (h : Kept q0 n0 s) : Kept q0 n0 (State.overrunFree s a) := by
  unfold State.overrunFree
  with_reducible repeat' first | assumption | apply State.reload_kept | apply State.lo_kept | apply Kept.ite | split

theorem State.traceRead_kept {q0 : List Instr} {n0 : Nat} {s : State} (e : Ecc) (n : ℕ) (h : Kept q0 n0 s) : Kept q0 n0 (State.traceRead s e n) := by
  unfold State.traceRead
  with_reducible repeat' first | assumption | simp -zeta only [Kept.upd] | apply State.modFsl_kept | dsimp -zeta only | (extract_lets +onlyGivenNames z; first | (refine Kept.cut z ?_ ?_ <;> [subst z; (intro hz; clear_value z)]) | (refine Kept.cut2 z ?_ ?_ <;> [subst z; (intro hz; clear_value z)]) | (have hz : State → _ := z; clear hz; subst z) | clear_value z) | (intro; intros) | split

theorem State.putProg_kept {q0 : List Instr} {n0 : Nat} {s : State} (i : ℕ) (w : Word) (h : Kept q0 n0 s) : Kept q0 n0 (State.putProg s i w) := by
  unfold State.putProg
  with_reducible repeat' first | assumption | simp -zeta only [Kept.upd] | apply State.effect_kept | apply State.modFsl_kept | apply Kept.ite | dsimp -zeta only | (extract_lets +onlyGivenNames z; first | (refine Kept.cut z ?_ ?_ <;> [subst z; (intro hz; clear_value z)]) | (refine Kept.cut2 z ?_ ?_ <;> [subst z; (intro hz; clear_value z)]) | (have hz : State → _ := z; clear hz; subst z) | clear_value z) | (intro; intros) | split

theorem State.windowWord_kept {q0 : List Instr} {n0 : Nat} {s : State} (e : Ecc) (w : BitVec 32) (h : Kept q0 n0 s) : Kept q0 n0 (State.windowWord s e w).2 := by
  unfold State.windowWord
  with_reducible repeat' first | assumption | simp -zeta only [Kept.upd] | apply State.fslEccFixed_kept | dsimp -zeta only | split

theorem State.memWindow_kept {q0 : List Instr} {n0 : Nat} {s : State} (wr : Option Word) (e : Ecc) (h : Kept q0 n0 s) : Kept q0 n0 (State.memWindow s wr e).2 := by
  unfold State.memWindow
  with_reducible repeat' first | assumption | simp -zeta only [Kept.upd] | apply State.wr_kept | apply State.hi_kept | apply State.windowWord_kept | apply State.putProg_kept | apply State.putCoef_kept | apply State.modFsl_kept | apply State.traceRead_kept | apply State.cond_kept | apply Kept.ite | dsimp -zeta only | (extract_lets +onlyGivenNames z; first | (refine Kept.cut z ?_ ?_ <;> [subst z; (intro hz; clear_value z)]) | (refine Kept.cut2 z ?_ ?_ <;> [subst z; (intro hz; clear_value z)]) | (have hz : State → _ := z; clear hz; subst z) | clear_value z) | (intro; intros) | split

end Sys2Proof.Machine
end

