-- ==== Sys2Proof/Laws/KeptFesilCtl.lean ====
section
/-!
SUPPORT. What the operations of Machine/FesilCtl keep: the queue, the clock and the form of the stores.
-/

namespace Sys2Proof.Machine

theorem State.limpLimit_kept {q0 : List Instr} {n0 : Nat} {s : State} (a : ℕ) (h : Kept q0 n0 s) : Kept q0 n0 (State.limpLimit s a) := by
  unfold State.limpLimit
  with_reducible repeat' first | assumption | simp -zeta only [Kept.upd] | apply State.setReg_kept | dsimp -zeta only | split

theorem State.publishSp_kept {q0 : List Instr} {n0 : Nat} {s : State} (a : ℕ) (h : Kept q0 n0 s) : Kept q0 n0 (State.publishSp s a) := by
  unfold State.publishSp
  with_reducible repeat' first | assumption | apply State.limpLimit_kept | apply State.publish_kept

theorem State.publishReceived_kept {q0 : List Instr} {n0 : Nat} {s : State} (a : ℕ) (iq : BitVec 32) (h : Kept q0 n0 s) : Kept q0 n0 (State.publishReceived s a iq) := by
  unfold State.publishReceived
  with_reducible repeat' first | assumption | apply State.limpLimit_kept | apply State.publishSet_kept | dsimp -zeta only | (extract_lets +onlyGivenNames z; first | (refine Kept.cut z ?_ ?_ <;> [subst z; (intro hz; clear_value z)]) | (refine Kept.cut2 z ?_ ?_ <;> [subst z; (intro hz; clear_value z)]) | (have hz : State → _ := z; clear hz; subst z) | clear_value z)

theorem State.commandCurrent_kept {q0 : List Instr} {n0 : Nat} {s : State} (a : ℕ) (iq : BitVec 32) (h : Kept q0 n0 s) : Kept q0 n0 (State.commandCurrent s a iq) := by
  unfold State.commandCurrent
  with_reducible repeat' first | assumption | apply State.setReg_kept | apply State.publishSp_kept

theorem State.startTask_kept {q0 : List Instr} {n0 : Nat} {s : State} (e : Ecc) (h : Kept q0 n0 s) : Kept q0 n0 (State.startTask s e) := by
  unfold State.startTask
  with_reducible repeat' first | assumption | simp -zeta only [Kept.upd] | apply State.modFsl_kept | apply State.modFsa_kept | apply State.withEcc_kept | apply State.prelude_kept | apply State.missed_kept | apply Kept.ite | dsimp -zeta only | (extract_lets +onlyGivenNames z; first | (refine Kept.cut z ?_ ?_ <;> [subst z; (intro hz; clear_value z)]) | (refine Kept.cut2 z ?_ ?_ <;> [subst z; (intro hz; clear_value z)]) | (have hz : State → _ := z; clear hz; subst z) | clear_value z) | (intro; intros) | split

theorem State.scrub_kept {q0 : List Instr} {n0 : Nat} {s : State} (n : ℕ) (h : Kept q0 n0 s) : Kept q0 n0 (State.scrub s n) := by
  unfold State.scrub
  with_reducible repeat' first | assumption | apply State.each_kept | apply State.fslEccFixed_kept | apply Kept.ite | dsimp -zeta only | (intro; intros) | split

theorem State.traceWrite_kept {q0 : List Instr} {n0 : Nat} {s : State} (w : Word) (h : Kept q0 n0 s) : Kept q0 n0 (State.traceWrite s w) := by
  unfold State.traceWrite
  with_reducible repeat' first | assumption | apply State.setReg_kept | apply State.traceArm_kept | apply Kept.ite | dsimp -zeta only | (extract_lets +onlyGivenNames z; first | (refine Kept.cut z ?_ ?_ <;> [subst z; (intro hz; clear_value z)]) | (refine Kept.cut2 z ?_ ?_ <;> [subst z; (intro hz; clear_value z)]) | (have hz : State → _ := z; clear hz; subst z) | clear_value z) | split

theorem execFesilTaskStart_kept {q0 : List Instr} {n0 : Nat} (t : ℕ) (e : Ecc) {s : State} (scrubbed : optParam ℕ 0) (h : Kept q0 n0 s) :
    ∃ s', execFesilTaskStart t e s scrubbed = .next s' ∧ Kept q0 (max n0 t) s' := by
  refine ⟨_, rfl, ?_⟩
  have h := State.upTo_kept t h
  with_reducible repeat' first | assumption | apply State.prelude_kept | apply State.upTo_kept | apply State.scrub_kept | apply State.startTask_kept | dsimp -zeta only

theorem execReloadGuardOpen_kept {q0 : List Instr} {n0 : Nat} (t : ℕ) (c : Fin 2) {s : State} (e : optParam Ecc Ecc.ok) (h : Kept q0 n0 s) :
    ∃ s', execReloadGuardOpen t c s e = .next s' ∧ Kept q0 (max n0 t) s' := by
  refine ⟨_, rfl, ?_⟩
  have h := State.upTo_kept t h
  with_reducible repeat' first | assumption | simp -zeta only [Kept.upd] | apply State.reload_kept | apply State.upTo_kept | apply State.withEcc_kept | apply State.epilogue_kept | apply Kept.ite | dsimp -zeta only | (extract_lets +onlyGivenNames z; first | (refine Kept.cut z ?_ ?_ <;> [subst z; (intro hz; clear_value z)]) | (refine Kept.cut2 z ?_ ?_ <;> [subst z; (intro hz; clear_value z)]) | (have hz : State → _ := z; clear hz; subst z) | clear_value z) | (intro; intros) | split

theorem execTaskLimitReached_kept {q0 : List Instr} {n0 : Nat} (t : ℕ) {s : State} (e : optParam Ecc Ecc.ok) (h : Kept q0 n0 s) :
    ∃ s', execTaskLimitReached t s e = .next s' ∧ Kept q0 (max n0 t) s' := by
  refine ⟨_, rfl, ?_⟩
  have h := State.upTo_kept t h
  with_reducible repeat' first | assumption | simp -zeta only [Kept.upd] | apply State.upTo_kept | apply State.modTask_kept | apply State.withEcc_kept | apply State.epilogue_kept | apply Kept.ite | dsimp -zeta only | (extract_lets +onlyGivenNames z; first | (refine Kept.cut z ?_ ?_ <;> [subst z; (intro hz; clear_value z)]) | (refine Kept.cut2 z ?_ ?_ <;> [subst z; (intro hz; clear_value z)]) | (have hz : State → _ := z; clear hz; subst z) | clear_value z) | (intro; intros) | split

theorem execPub_kept {q0 : List Instr} {n0 : Nat} (t : ℕ) (a : Fin 2) {s : State} (h : Kept q0 n0 s) :
    ∃ s', execPub t a s = .next s' ∧ Kept q0 (max n0 t) s' := by
  refine ⟨_, rfl, ?_⟩
  have h := State.upTo_kept t h
  with_reducible repeat' first | assumption | apply State.upTo_kept | apply State.publish_kept | apply Kept.ite | dsimp -zeta only | (extract_lets +onlyGivenNames z; first | (refine Kept.cut z ?_ ?_ <;> [subst z; (intro hz; clear_value z)]) | (refine Kept.cut2 z ?_ ?_ <;> [subst z; (intro hz; clear_value z)]) | (have hz : State → _ := z; clear hz; subst z) | clear_value z) | split

theorem execSwap_kept {q0 : List Instr} {n0 : Nat} (t : ℕ) (a : Fin 2) {s : State} (h : Kept q0 n0 s) :
    ∃ s', execSwap t a s = .next s' ∧ Kept q0 (max n0 t) s' := by
  refine ⟨_, rfl, ?_⟩
  have h := State.upTo_kept t h
  with_reducible repeat' first | assumption | apply State.upTo_kept | apply State.swapBanks_kept | apply Kept.ite | dsimp -zeta only | (extract_lets +onlyGivenNames z; first | (refine Kept.cut z ?_ ?_ <;> [subst z; (intro hz; clear_value z)]) | (refine Kept.cut2 z ?_ ?_ <;> [subst z; (intro hz; clear_value z)]) | (have hz : State → _ := z; clear hz; subst z) | clear_value z) | split

theorem execRun_kept {q0 : List Instr} {n0 : Nat} (t : ℕ) (v : Bool) {s : State} (h : Kept q0 n0 s) :
    ∃ s', execRun t v s = .next s' ∧ Kept q0 (max n0 t) s' := by
  refine ⟨_, rfl, ?_⟩
  have h := State.upTo_kept t h
  with_reducible repeat' first | assumption | simp -zeta only [Kept.upd] | apply State.epilogue_kept | apply State.upTo_kept | apply State.modFsl_kept | apply State.each_kept | apply State.modFsa_kept | apply State.lo_kept | apply State.hi_kept | apply Kept.ite | dsimp -zeta only | (extract_lets +onlyGivenNames z; first | (refine Kept.cut z ?_ ?_ <;> [subst z; (intro hz; clear_value z)]) | (refine Kept.cut2 z ?_ ?_ <;> [subst z; (intro hz; clear_value z)]) | (have hz : State → _ := z; clear hz; subst z) | clear_value z) | (intro; intros) | split

theorem execProgramCheckDone_kept {q0 : List Instr} {n0 : Nat} (t : ℕ) {s : State} (e : optParam Ecc Ecc.ok) (h : Kept q0 n0 s) :
    ∃ s', execProgramCheckDone t s e = .next s' ∧ Kept q0 (max n0 t) s' := by
  refine ⟨_, rfl, ?_⟩
  have h := State.upTo_kept t h
  with_reducible repeat' first | assumption | simp -zeta only [Kept.upd] | apply State.upTo_kept | apply State.modFsl_kept | apply State.fslEccFixed_kept | apply State.hi_kept | apply State.lo_kept | apply State.event_kept | apply Kept.ite | dsimp -zeta only | (extract_lets +onlyGivenNames z; first | (refine Kept.cut z ?_ ?_ <;> [subst z; (intro hz; clear_value z)]) | (refine Kept.cut2 z ?_ ?_ <;> [subst z; (intro hz; clear_value z)]) | (have hz : State → _ := z; clear hz; subst z) | clear_value z) | (intro; intros) | split

theorem execMemWindowAccess_kept {q0 : List Instr} {n0 : Nat} (t : ℕ) (w : Option Word) (e : Ecc) {s : State} (h : Kept q0 n0 s) :
    ∃ s', execMemWindowAccess t w e s = .next s' ∧ Kept q0 (max n0 t) s' := by
  refine ⟨_, rfl, ?_⟩
  have h := State.upTo_kept t h
  with_reducible repeat' first | assumption | simp -zeta only [Kept.upd] | apply State.upTo_kept | apply State.cond_kept | apply State.emit_kept | apply State.memWindow_kept | apply Kept.ite | dsimp -zeta only | (extract_lets +onlyGivenNames z; first | (refine Kept.cut z ?_ ?_ <;> [subst z; (intro hz; clear_value z)]) | (refine Kept.cut2 z ?_ ?_ <;> [subst z; (intro hz; clear_value z)]) | (have hz : State → _ := z; clear hz; subst z) | clear_value z) | (intro; intros) | split

theorem execMaxClr_kept {q0 : List Instr} {n0 : Nat} (t : ℕ) (a : Fin 2) {s : State} (h : Kept q0 n0 s) :
    ∃ s', execMaxClr t a s = .next s' ∧ Kept q0 (max n0 t) s' := by
  refine ⟨_, rfl, ?_⟩
  have h := State.upTo_kept t h
  with_reducible repeat' first | assumption | apply State.upTo_kept | apply State.lo_kept | apply Kept.ite | dsimp -zeta only | (extract_lets +onlyGivenNames z; first | (refine Kept.cut z ?_ ?_ <;> [subst z; (intro hz; clear_value z)]) | (refine Kept.cut2 z ?_ ?_ <;> [subst z; (intro hz; clear_value z)]) | (have hz : State → _ := z; clear hz; subst z) | clear_value z) | split

theorem execTraceCfgArm_kept {q0 : List Instr} {n0 : Nat} (t : ℕ) (w : Word) {s : State} (h : Kept q0 n0 s) :
    ∃ s', execTraceCfgArm t w s = .next s' ∧ Kept q0 (max n0 t) s' := by
  refine ⟨_, rfl, ?_⟩
  have h := State.upTo_kept t h
  with_reducible repeat' first | assumption | apply State.upTo_kept | apply State.traceWrite_kept | apply Kept.ite | dsimp -zeta only | (extract_lets +onlyGivenNames z; first | (refine Kept.cut z ?_ ?_ <;> [subst z; (intro hz; clear_value z)]) | (refine Kept.cut2 z ?_ ?_ <;> [subst z; (intro hz; clear_value z)]) | (have hz : State → _ := z; clear hz; subst z) | clear_value z) | split

theorem execTraceForce_kept {q0 : List Instr} {n0 : Nat} (t : ℕ) {s : State} (h : Kept q0 n0 s) :
    ∃ s', execTraceForce t s = .next s' ∧ Kept q0 (max n0 t) s' := by
  refine ⟨_, rfl, ?_⟩
  have h := State.upTo_kept t h
  with_reducible repeat' first | assumption | simp -zeta only [Kept.upd] | apply State.upTo_kept | apply State.traceTrigger_kept | apply State.modFsl_kept | apply Kept.ite | dsimp -zeta only | (extract_lets +onlyGivenNames z; first | (refine Kept.cut z ?_ ?_ <;> [subst z; (intro hz; clear_value z)]) | (refine Kept.cut2 z ?_ ?_ <;> [subst z; (intro hz; clear_value z)]) | (have hz : State → _ := z; clear hz; subst z) | clear_value z) | (intro; intros) | split

theorem execTraceTriggerInput_kept {q0 : List Instr} {n0 : Nat} (t : ℕ) (rising : Bool) {s : State} (h : Kept q0 n0 s) :
    ∃ s', execTraceTriggerInput t rising s = .next s' ∧ Kept q0 (max n0 t) s' := by
  refine ⟨_, rfl, ?_⟩
  have h := State.upTo_kept t h
  with_reducible repeat' first | assumption | apply State.upTo_kept | apply State.traceHit_kept | apply Kept.ite | dsimp -zeta only | (extract_lets +onlyGivenNames z; first | (refine Kept.cut z ?_ ?_ <;> [subst z; (intro hz; clear_value z)]) | (refine Kept.cut2 z ?_ ?_ <;> [subst z; (intro hz; clear_value z)]) | (have hz : State → _ := z; clear hz; subst z) | clear_value z) | split

theorem execFslCtlSatClear_kept {q0 : List Instr} {n0 : Nat} (t : ℕ) {s : State} (h : Kept q0 n0 s) :
    ∃ s', execFslCtlSatClear t s = .next s' ∧ Kept q0 (max n0 t) s' := by
  refine ⟨_, rfl, ?_⟩
  have h := State.upTo_kept t h
  with_reducible repeat' first | assumption | apply State.upTo_kept | apply State.clearBit_kept | apply State.lo_kept | apply Kept.ite | dsimp -zeta only | (extract_lets +onlyGivenNames z; first | (refine Kept.cut z ?_ ?_ <;> [subst z; (intro hz; clear_value z)]) | (refine Kept.cut2 z ?_ ?_ <;> [subst z; (intro hz; clear_value z)]) | (have hz : State → _ := z; clear hz; subst z) | clear_value z) | split

theorem execFslOvrSatClear_kept {q0 : List Instr} {n0 : Nat} (t : ℕ) (miss : Bool) (a : Fin 2) {s : State} (h : Kept q0 n0 s) :
    ∃ s', execFslOvrSatClear t miss a s = .next s' ∧ Kept q0 (max n0 t) s' := by
  refine ⟨_, rfl, ?_⟩
  have h := State.upTo_kept t h
  with_reducible repeat' first | assumption | apply State.overrun_kept | apply State.count_kept | apply State.upTo_kept | apply State.lo_kept | apply State.clearBit_kept | apply Kept.ite | dsimp -zeta only | (extract_lets +onlyGivenNames z; first | (refine Kept.cut z ?_ ?_ <;> [subst z; (intro hz; clear_value z)]) | (refine Kept.cut2 z ?_ ?_ <;> [subst z; (intro hz; clear_value z)]) | (have hz : State → _ := z; clear hz; subst z) | clear_value z) | split

end Sys2Proof.Machine
end

