-- ==== Sys2Proof/Laws/KeptReload.lean ====
section
/-!
SUPPORT. What the operations of Machine/Reload keep: the queue, the clock and the form of the stores.
-/

namespace Sys2Proof.Machine

theorem State.reloadSet_kept {q0 : List Instr} {n0 : Nat} {s : State} (c : ℕ) (h : Kept q0 n0 s) : Kept q0 n0 (State.reloadSet s c) := by
  unfold State.reloadSet
  with_reducible repeat' first | assumption | simp -zeta only [Kept.upd] | apply State.reload_kept | apply State.modCar_kept | apply State.wrB_kept | apply State.overrunFree_kept | apply State.cond_kept | apply State.hi_kept | apply State.event_kept | apply State.overrun_kept | dsimp -zeta only | (extract_lets +onlyGivenNames z; first | (refine Kept.cut z ?_ ?_ <;> [subst z; (intro hz; clear_value z)]) | (refine Kept.cut2 z ?_ ?_ <;> [subst z; (intro hz; clear_value z)]) | (have hz : State → _ := z; clear hz; subst z) | clear_value z) | (intro; intros) | split

theorem State.reload_kept {q0 : List Instr} {n0 : Nat} {s : State} (c : ℕ) (p : ReloadPoint) (h : Kept q0 n0 s) : Kept q0 n0 (State.reload s c p) := by
  unfold State.reload
  with_reducible repeat' first | assumption | simp -zeta only [Kept.upd] | apply State.reloadSet_kept | apply State.modCar_kept | apply State.valley_kept | apply State.outputEnable_kept | apply State.release_kept | apply State.cond_kept | apply State.coastRelease_kept | apply State.midReload_kept | apply Kept.ite | dsimp -zeta only | (extract_lets +onlyGivenNames z; first | (refine Kept.cut z ?_ ?_ <;> [subst z; (intro hz; clear_value z)]) | (refine Kept.cut2 z ?_ ?_ <;> [subst z; (intro hz; clear_value z)]) | (have hz : State → _ := z; clear hz; subst z) | clear_value z) | (intro; intros) | split

theorem State.preMove_kept {q0 : List Instr} {n0 : Nat} {s : State} (a : ℕ) (h : Kept q0 n0 s) : Kept q0 n0 (State.preMove s a) := by
  unfold State.preMove
  with_reducible repeat' first | assumption | simp -zeta only [Kept.upd] | apply State.event_kept | apply State.modFc_kept | apply State.hi_kept | apply State.wrB_kept | apply Kept.ite | dsimp -zeta only | (extract_lets +onlyGivenNames z; first | (refine Kept.cut z ?_ ?_ <;> [subst z; (intro hz; clear_value z)]) | (refine Kept.cut2 z ?_ ?_ <;> [subst z; (intro hz; clear_value z)]) | (have hz : State → _ := z; clear hz; subst z) | clear_value z) | (intro; intros) | split

theorem State.updateEvent_kept {q0 : List Instr} {n0 : Nat} {s : State} (a : ℕ) (h : Kept q0 n0 s) : Kept q0 n0 (State.updateEvent s a) := by
  unfold State.updateEvent
  with_reducible repeat' first | assumption | simp -zeta only [Kept.upd] | apply State.event_kept | apply State.reload_kept | apply State.posLatch_kept | apply State.cond_kept | apply State.modFsa_kept | apply State.modFc_kept | apply State.emitAfresh_kept | apply State.setFormed_kept | apply State.preMove_kept | apply State.motUpdate_kept | apply State.innerMail_kept | apply State.hovUpdate_kept | apply Kept.ite | dsimp -zeta only | (extract_lets +onlyGivenNames z; first | (refine Kept.cut z ?_ ?_ <;> [subst z; (intro hz; clear_value z)]) | (refine Kept.cut2 z ?_ ?_ <;> [subst z; (intro hz; clear_value z)]) | (have hz : State → _ := z; clear hz; subst z) | clear_value z) | (intro; intros) | split

theorem State.calibrate_kept {q0 : List Instr} {n0 : Nat} {s : State} (span : ℕ) (h : Kept q0 n0 s) : Kept q0 n0 (State.calibrate s span) := by
  unfold State.calibrate
  with_reducible repeat' first | assumption | simp -zeta only [Kept.upd] | apply State.wr_kept | apply State.hi_kept | apply State.lo_kept | apply State.runOk_kept | apply State.bump_kept | apply State.event_kept | apply State.cond_kept | apply Kept.ite | dsimp -zeta only | (extract_lets +onlyGivenNames z; first | (refine Kept.cut z ?_ ?_ <;> [subst z; (intro hz; clear_value z)]) | (refine Kept.cut2 z ?_ ?_ <;> [subst z; (intro hz; clear_value z)]) | (have hz : State → _ := z; clear hz; subst z) | clear_value z) | (intro; intros) | split

theorem execReload_kept {q0 : List Instr} {n0 : Nat} (t : ℕ) (c : Fin 2) (p : ReloadPoint) {s : State} (h : Kept q0 n0 s) :
    ∃ s', execReload t c p s = .next s' ∧ Kept q0 (max n0 t) s' := by
  refine ⟨_, rfl, ?_⟩
  have h := State.upTo_kept t h
  with_reducible repeat' first | assumption | apply State.reload_kept | apply State.upTo_kept | dsimp -zeta only

theorem execUpdateEvent_kept {q0 : List Instr} {n0 : Nat} (t : ℕ) (a : Fin 2) {s : State} (h : Kept q0 n0 s) :
    ∃ s', execUpdateEvent t a s = .next s' ∧ Kept q0 (max n0 t) s' := by
  refine ⟨_, rfl, ?_⟩
  have h := State.upTo_kept t h
  with_reducible repeat' first | assumption | apply State.event_kept | apply State.upTo_kept | apply State.updateEvent_kept | dsimp -zeta only

theorem execDelayLineCalibration_kept {q0 : List Instr} {n0 : Nat} (t : ℕ) (span : ℕ) {s : State} (h : Kept q0 n0 s) :
    ∃ s', execDelayLineCalibration t span s = .next s' ∧ Kept q0 (max n0 t) s' := by
  refine ⟨_, rfl, ?_⟩
  have h := State.upTo_kept t h
  with_reducible repeat' first | assumption | apply State.upTo_kept | apply State.calibrate_kept | apply Kept.ite | dsimp -zeta only | (extract_lets +onlyGivenNames z; first | (refine Kept.cut z ?_ ?_ <;> [subst z; (intro hz; clear_value z)]) | (refine Kept.cut2 z ?_ ?_ <;> [subst z; (intro hz; clear_value z)]) | (have hz : State → _ := z; clear hz; subst z) | clear_value z) | split

end Sys2Proof.Machine
end

