-- ==== Sys2Proof/Laws/KeptPower.lean ====
section
/-!
SUPPORT. What the operations of Machine/Power keep: the queue, the clock and the form of the stores.
-/

namespace Sys2Proof.Machine

theorem State.modPwr_kept {q0 : List Instr} {n0 : Nat} {s : State} (f : Power → Power) (h : Kept q0 n0 s) : Kept q0 n0 (State.modPwr s f) := by
  unfold State.modPwr
  with_reducible repeat' first | assumption | simp -zeta only [Kept.upd]

theorem State.classReset_kept {q0 : List Instr} {n0 : Nat} {s : State} (cls : List RegClass) (h : Kept q0 n0 s) :
    Kept q0 n0 (State.classReset s cls) := by
  refine h.regs (kvWf_filterMap resetVal _ fun e x hx => ?_)
  dsimp only at hx
  split at hx
  · cases hx
  · next hn => cases hx; exact ⟨rfl, hn⟩

theorem State.ctlClear_kept {q0 : List Instr} {n0 : Nat} {s : State} (h : Kept q0 n0 s) : Kept q0 n0 (State.ctlClear s) := by
  unfold State.ctlClear
  with_reducible repeat' first | assumption | simp -zeta only [Kept.upd] | apply State.each_kept | apply State.diagLeave_kept | dsimp -zeta only | (extract_lets +onlyGivenNames z; first | (refine Kept.cut z ?_ ?_ <;> [subst z; (intro hz; clear_value z)]) | (refine Kept.cut2 z ?_ ?_ <;> [subst z; (intro hz; clear_value z)]) | (have hz : State → _ := z; clear hz; subst z) | clear_value z) | (intro; intros)

theorem State.cpuClear_kept {q0 : List Instr} {n0 : Nat} {s : State} (h : Kept q0 n0 s) :
    Kept q0 n0 (State.cpuClear s) := by
  have h1 : Kept q0 n0 { s with sram := [] } := h.sram fun _ => rfl
  exact ⟨h1.queue, h1.clock, h1.canon⟩

theorem State.anaClear_kept {q0 : List Instr} {n0 : Nat} {s : State} (h : Kept q0 n0 s) : Kept q0 n0 (State.anaClear s) := by
  unfold State.anaClear
  with_reducible repeat' first | assumption | simp -zeta only [Kept.upd] | apply Kept.ite | dsimp -zeta only | (extract_lets +onlyGivenNames z; first | (refine Kept.cut z ?_ ?_ <;> [subst z; (intro hz; clear_value z)]) | (refine Kept.cut2 z ?_ ?_ <;> [subst z; (intro hz; clear_value z)]) | (have hz : State → _ := z; clear hz; subst z) | clear_value z) | split

theorem State.commClear_kept {q0 : List Instr} {n0 : Nat} {s : State} (h : Kept q0 n0 s) : Kept q0 n0 (State.commClear s) := by
  unfold State.commClear
  with_reducible repeat' first | assumption | simp -zeta only [Kept.upd] | apply State.tear_kept | apply Kept.ite | dsimp -zeta only | (extract_lets +onlyGivenNames z; first | (refine Kept.cut z ?_ ?_ <;> [subst z; (intro hz; clear_value z)]) | (refine Kept.cut2 z ?_ ?_ <;> [subst z; (intro hz; clear_value z)]) | (have hz : State → _ := z; clear hz; subst z) | clear_value z) | split

theorem State.anaUp_kept {q0 : List Instr} {n0 : Nat} {s : State} (h : Kept q0 n0 s) : Kept q0 n0 (State.anaUp s) := by
  unfold State.anaUp
  with_reducible repeat' first | assumption | simp -zeta only [Kept.upd] | apply State.modPwr_kept | apply State.classReset_kept | apply State.anaClear_kept | apply State.mirrorActive_kept | apply State.modRec_kept | apply State.lo_kept | apply State.hi_kept | apply State.banBit_kept | dsimp -zeta only | (extract_lets +onlyGivenNames z; first | (refine Kept.cut z ?_ ?_ <;> [subst z; (intro hz; clear_value z)]) | (refine Kept.cut2 z ?_ ?_ <;> [subst z; (intro hz; clear_value z)]) | (have hz : State → _ := z; clear hz; subst z) | clear_value z) | (intro; intros)

theorem State.commUp_kept {q0 : List Instr} {n0 : Nat} {s : State} (h : Kept q0 n0 s) : Kept q0 n0 (State.commUp s) := by
  unfold State.commUp
  with_reducible repeat' first | assumption | simp -zeta only [Kept.upd] | apply State.modPwr_kept | apply State.classReset_kept | apply State.commClear_kept | apply State.hi_kept | dsimp -zeta only | (intro; intros)

theorem State.commWake_kept {q0 : List Instr} {n0 : Nat} {s : State} (h : Kept q0 n0 s) : Kept q0 n0 (State.commWake s) := by
  unfold State.commWake
  with_reducible repeat' first | assumption | simp -zeta only [Kept.upd] | apply State.wake_kept | apply State.commUp_kept | apply State.each_kept | apply State.wr_kept | apply State.wrB_kept | apply State.cond_kept | apply State.hi_kept | apply State.banBit_kept | apply State.recRegs_kept | dsimp -zeta only | (extract_lets +onlyGivenNames z; first | (refine Kept.cut z ?_ ?_ <;> [subst z; (intro hz; clear_value z)]) | (refine Kept.cut2 z ?_ ?_ <;> [subst z; (intro hz; clear_value z)]) | (have hz : State → _ := z; clear hz; subst z) | clear_value z) | (intro; intros)

theorem State.coreUp_kept {q0 : List Instr} {n0 : Nat} {s : State} (h : Kept q0 n0 s) : Kept q0 n0 (State.coreUp s) := by
  unfold State.coreUp
  with_reducible repeat' first | assumption | simp -zeta only [Kept.upd] | apply State.modPwr_kept | apply State.classReset_kept | apply State.cpuClear_kept | apply State.ctlClear_kept | apply State.commUp_kept | apply State.gdcRefresh_kept | dsimp -zeta only | (extract_lets +onlyGivenNames z; first | (refine Kept.cut z ?_ ?_ <;> [subst z; (intro hz; clear_value z)]) | (refine Kept.cut2 z ?_ ?_ <;> [subst z; (intro hz; clear_value z)]) | (have hz : State → _ := z; clear hz; subst z) | clear_value z) | (intro; intros)

theorem State.coreDown_kept {q0 : List Instr} {n0 : Nat} {s : State} (h : Kept q0 n0 s) : Kept q0 n0 (State.coreDown s) := by
  unfold State.coreDown
  with_reducible repeat' first | assumption | simp -zeta only [Kept.upd] | apply State.keepDrive_kept | apply State.modPwr_kept | apply State.classReset_kept | apply State.cpuClear_kept | apply State.ctlClear_kept | apply State.commClear_kept | apply State.runOk_kept | dsimp -zeta only | (extract_lets +onlyGivenNames z; first | (refine Kept.cut z ?_ ?_ <;> [subst z; (intro hz; clear_value z)]) | (refine Kept.cut2 z ?_ ?_ <;> [subst z; (intro hz; clear_value z)]) | (have hz : State → _ := z; clear hz; subst z) | clear_value z) | (intro; intros)

theorem State.anaDown_kept {q0 : List Instr} {n0 : Nat} {s : State} (h : Kept q0 n0 s) : Kept q0 n0 (State.anaDown s) := by
  unfold State.anaDown
  with_reducible repeat' first | assumption | simp -zeta only [Kept.upd] | apply State.modPwr_kept | apply State.classReset_kept | apply State.anaClear_kept | dsimp -zeta only | (intro; intros)

theorem State.safeUp_kept {q0 : List Instr} {n0 : Nat} {s : State} (h : Kept q0 n0 s) : Kept q0 n0 (State.safeUp s) := by
  unfold State.safeUp
  with_reducible repeat' first | assumption | simp -zeta only [Kept.upd] | apply State.modPwr_kept | apply State.classReset_kept | apply State.hi_kept | apply State.each_kept | apply State.regate_kept | dsimp -zeta only | (extract_lets +onlyGivenNames z; first | (refine Kept.cut z ?_ ?_ <;> [subst z; (intro hz; clear_value z)]) | (refine Kept.cut2 z ?_ ?_ <;> [subst z; (intro hz; clear_value z)]) | (have hz : State → _ := z; clear hz; subst z) | clear_value z) | (intro; intros)

theorem State.safeDown_kept {q0 : List Instr} {n0 : Nat} {s : State} (h : Kept q0 n0 s) : Kept q0 n0 (State.safeDown s) := by
  unfold State.safeDown
  with_reducible repeat' first | assumption | simp -zeta only [Kept.upd] | apply State.each_kept | apply State.uzGateToChannels_kept | apply State.soDrive_kept | apply State.modPwr_kept | apply State.classReset_kept | apply State.modSaf_kept | apply State.mirrorCh_kept | dsimp -zeta only | (extract_lets +onlyGivenNames z; first | (refine Kept.cut z ?_ ?_ <;> [subst z; (intro hz; clear_value z)]) | (refine Kept.cut2 z ?_ ?_ <;> [subst z; (intro hz; clear_value z)]) | (have hz : State → _ := z; clear hz; subst z) | clear_value z) | (intro; intros)

theorem State.raise_kept {q0 : List Instr} {n0 : Nat} {s : State} (h : Kept q0 n0 s) : Kept q0 n0 (State.raise s) := by
  unfold State.raise
  with_reducible repeat' first | assumption | simp -zeta only [Kept.upd] | apply State.modPwr_kept | apply State.cond_kept | dsimp -zeta only | (extract_lets +onlyGivenNames z; first | (refine Kept.cut z ?_ ?_ <;> [subst z; (intro hz; clear_value z)]) | (refine Kept.cut2 z ?_ ?_ <;> [subst z; (intro hz; clear_value z)]) | (have hz : State → _ := z; clear hz; subst z) | clear_value z) | (intro; intros)

theorem State.startThaw_kept {q0 : List Instr} {n0 : Nat} {s : State} (h : Kept q0 n0 s) : Kept q0 n0 (State.startThaw s) := by
  unfold State.startThaw
  with_reducible repeat' first | assumption | simp -zeta only [Kept.upd] | apply State.modPwr_kept | apply State.raise_kept | dsimp -zeta only | (intro; intros)

theorem State.startWatchWake_kept {q0 : List Instr} {n0 : Nat} {s : State} (h : Kept q0 n0 s) : Kept q0 n0 (State.startWatchWake s) := by
  unfold State.startWatchWake
  with_reducible repeat' first | assumption | simp -zeta only [Kept.upd] | apply State.wake_kept | apply State.modPwr_kept | apply State.raise_kept | dsimp -zeta only | (intro; intros)

theorem State.wake_kept {q0 : List Instr} {n0 : Nat} {s : State} (cause : Fld) (h : Kept q0 n0 s) : Kept q0 n0 (State.wake s cause) := by
  unfold State.wake
  with_reducible repeat' first | assumption | simp -zeta only [Kept.upd] | apply State.hi_kept | apply State.startThaw_kept | apply State.startWatchWake_kept | apply State.coreDown_kept | apply State.modPwr_kept | apply State.boot_kept | apply Kept.ite | dsimp -zeta only | (extract_lets +onlyGivenNames z; first | (refine Kept.cut z ?_ ?_ <;> [subst z; (intro hz; clear_value z)]) | (refine Kept.cut2 z ?_ ?_ <;> [subst z; (intro hz; clear_value z)]) | (have hz : State → _ := z; clear hz; subst z) | clear_value z) | (intro; intros) | split

theorem State.asleep_kept {q0 : List Instr} {n0 : Nat} {s : State} (h : Kept q0 n0 s) : Kept q0 n0 (State.asleep s) := by
  unfold State.asleep
  with_reducible repeat' first | assumption | simp -zeta only [Kept.upd] | apply State.complete_kept | apply State.wake_kept | apply State.modPwr_kept | apply State.startThaw_kept | apply State.startWatchWake_kept | apply Kept.ite | dsimp -zeta only | (extract_lets +onlyGivenNames z; first | (refine Kept.cut z ?_ ?_ <;> [subst z; (intro hz; clear_value z)]) | (refine Kept.cut2 z ?_ ?_ <;> [subst z; (intro hz; clear_value z)]) | (have hz : State → _ := z; clear hz; subst z) | clear_value z) | (intro; intros) | split

theorem State.clocksOff_kept {q0 : List Instr} {n0 : Nat} {s : State} (h : Kept q0 n0 s) : Kept q0 n0 (State.clocksOff s) := by
  unfold State.clocksOff
  with_reducible repeat' first | assumption | simp -zeta only [Kept.upd] | apply State.lo_kept | apply State.hi_kept | apply State.modPwr_kept | apply State.runOk_kept | dsimp -zeta only | (extract_lets +onlyGivenNames z; first | (refine Kept.cut z ?_ ?_ <;> [subst z; (intro hz; clear_value z)]) | (refine Kept.cut2 z ?_ ?_ <;> [subst z; (intro hz; clear_value z)]) | (have hz : State → _ := z; clear hz; subst z) | clear_value z) | (intro; intros)

theorem State.canRebase_kept {q0 : List Instr} {n0 : Nat} {s : State} (h : Kept q0 n0 s) : Kept q0 n0 (State.canRebase s) := by
  unfold State.canRebase
  with_reducible repeat' first | assumption | simp -zeta only [Kept.upd] | apply Kept.ite | split

theorem State.showPlls_kept {q0 : List Instr} {n0 : Nat} {s : State} (h : Kept q0 n0 s) : Kept q0 n0 (State.showPlls s) := by
  unfold State.showPlls
  with_reducible repeat' first | assumption | apply State.wrB_kept | dsimp -zeta only | (extract_lets +onlyGivenNames z; first | (refine Kept.cut z ?_ ?_ <;> [subst z; (intro hz; clear_value z)]) | (refine Kept.cut2 z ?_ ?_ <;> [subst z; (intro hz; clear_value z)]) | (have hz : State → _ := z; clear hz; subst z) | clear_value z)

theorem State.pllSet_kept {q0 : List Instr} {n0 : Nat} {s : State} (b : Bool) (locked : Bool) (h : Kept q0 n0 s) : Kept q0 n0 (State.pllSet s b locked) := by
  unfold State.pllSet
  with_reducible repeat' first | assumption | simp -zeta only [Kept.upd] | apply State.canRebase_kept | apply State.modPwr_kept | apply State.cond_kept | apply State.showPlls_kept | apply Kept.ite | dsimp -zeta only | (extract_lets +onlyGivenNames z; first | (refine Kept.cut z ?_ ?_ <;> [subst z; (intro hz; clear_value z)]) | (refine Kept.cut2 z ?_ ?_ <;> [subst z; (intro hz; clear_value z)]) | (have hz : State → _ := z; clear hz; subst z) | clear_value z) | (intro; intros) | split

theorem State.roadStop_kept {q0 : List Instr} {n0 : Nat} {s : State} (h : Kept q0 n0 s) : Kept q0 n0 (State.roadStop s) := by
  unfold State.roadStop
  with_reducible repeat' first | assumption | simp -zeta only [Kept.upd] | apply State.epilogue_kept | apply State.valley_kept | apply State.event_kept | apply State.modPwr_kept | apply State.each_kept | apply State.modCar_kept | apply State.modAdc_kept | apply State.modFsa_kept | dsimp -zeta only | (extract_lets +onlyGivenNames z; first | (refine Kept.cut z ?_ ?_ <;> [subst z; (intro hz; clear_value z)]) | (refine Kept.cut2 z ?_ ?_ <;> [subst z; (intro hz; clear_value z)]) | (have hz : State → _ := z; clear hz; subst z) | clear_value z) | (intro; intros)

theorem State.pllbHalt_kept {q0 : List Instr} {n0 : Nat} {s : State} (h : Kept q0 n0 s) : Kept q0 n0 (State.pllbHalt s) := by
  unfold State.pllbHalt
  with_reducible repeat' first | assumption | simp -zeta only [Kept.upd] | apply State.modPwr_kept | apply State.lo_kept | apply State.each_kept | apply State.outputsOff_kept | apply State.roadStop_kept | dsimp -zeta only | (extract_lets +onlyGivenNames z; first | (refine Kept.cut z ?_ ?_ <;> [subst z; (intro hz; clear_value z)]) | (refine Kept.cut2 z ?_ ?_ <;> [subst z; (intro hz; clear_value z)]) | (have hz : State → _ := z; clear hz; subst z) | clear_value z) | (intro; intros)

theorem State.pllbResume_kept {q0 : List Instr} {n0 : Nat} {s : State} (h : Kept q0 n0 s) : Kept q0 n0 (State.pllbResume s) := by
  unfold State.pllbResume
  with_reducible repeat' first | assumption | simp -zeta only [Kept.upd] | apply State.modPwr_kept | dsimp -zeta only | (intro; intros)

theorem State.modCan_kept {q0 : List Instr} {n0 : Nat} {s : State} (n : ℕ) (f : CanCtl → CanCtl) (h : Kept q0 n0 s) : Kept q0 n0 (State.modCan s n f) := by
  unfold State.modCan
  with_reducible repeat' first | assumption | simp -zeta only [Kept.upd] | apply Kept.ite | split

theorem State.canOwnBit_kept {q0 : List Instr} {n0 : Nat} {s : State} (n : ℕ) (obj : ℕ) (b : Bool) (h : Kept q0 n0 s) : Kept q0 n0 (State.canOwnBit s n obj b) := by
  unfold State.canOwnBit
  with_reducible repeat' first | assumption | apply State.wrB_kept

theorem State.canFail_kept {q0 : List Instr} {n0 : Nat} {s : State} (n : ℕ) (x : CanTx) (cause : ℕ) (h : Kept q0 n0 s) : Kept q0 n0 (State.canFail s n x cause) := by
  unfold State.canFail
  with_reducible repeat' first | assumption | simp -zeta only [Kept.upd] | apply State.modCan_kept | apply State.canOwnBit_kept | apply State.count_kept | apply State.complete_kept | dsimp -zeta only | (extract_lets +onlyGivenNames z; first | (refine Kept.cut z ?_ ?_ <;> [subst z; (intro hz; clear_value z)]) | (refine Kept.cut2 z ?_ ?_ <;> [subst z; (intro hz; clear_value z)]) | (have hz : State → _ := z; clear hz; subst z) | clear_value z) | (intro; intros)

theorem State.canClock_kept {q0 : List Instr} {n0 : Nat} {s : State} (h : Kept q0 n0 s) : Kept q0 n0 (State.canClock s) := by
  unfold State.canClock
  with_reducible repeat' first | assumption | simp -zeta only [Kept.upd] | apply State.setReg_kept | apply Kept.ite | dsimp -zeta only | (extract_lets +onlyGivenNames z; first | (refine Kept.cut z ?_ ?_ <;> [subst z; (intro hz; clear_value z)]) | (refine Kept.cut2 z ?_ ?_ <;> [subst z; (intro hz; clear_value z)]) | (have hz : State → _ := z; clear hz; subst z) | clear_value z) | split

theorem State.canInit_kept {q0 : List Instr} {n0 : Nat} {s : State} (n : ℕ) (h : Kept q0 n0 s) : Kept q0 n0 (State.canInit s n) := by
  unfold State.canInit
  with_reducible repeat' first | assumption | simp -zeta only [Kept.upd] | apply State.hi_kept | apply State.wr_kept | apply State.cond_kept | apply State.setReg_kept | apply State.lo_kept | apply State.canFail_kept | apply State.complete_kept | apply State.modCan_kept | apply State.canClock_kept | apply foldl_kept | apply foldl2_kept | dsimp -zeta only | (extract_lets +onlyGivenNames z; first | (refine Kept.cut z ?_ ?_ <;> [subst z; (intro hz; clear_value z)]) | (refine Kept.cut2 z ?_ ?_ <;> [subst z; (intro hz; clear_value z)]) | (have hz : State → _ := z; clear hz; subst z) | clear_value z) | (intro; intros) | split

theorem State.portsRepeat_kept {q0 : List Instr} {n0 : Nat} {s : State} (h : Kept q0 n0 s) : Kept q0 n0 (State.portsRepeat s) := by
  unfold State.portsRepeat
  with_reducible repeat' first | assumption | simp -zeta only [Kept.upd] | apply State.each_kept | apply State.emit_kept | apply State.hi_kept | apply State.wr_kept | apply Kept.ite | dsimp -zeta only | (extract_lets +onlyGivenNames z; first | (refine Kept.cut z ?_ ?_ <;> [subst z; (intro hz; clear_value z)]) | (refine Kept.cut2 z ?_ ?_ <;> [subst z; (intro hz; clear_value z)]) | (have hz : State → _ := z; clear hz; subst z) | clear_value z) | (intro; intros) | split

theorem State.addrTake_kept {q0 : List Instr} {n0 : Nat} {s : State} (n : ℕ) (h : Kept q0 n0 s) : Kept q0 n0 (State.addrTake s n) := by
  unfold State.addrTake
  with_reducible repeat' first | assumption | apply State.wr_kept | apply State.hi_kept | apply State.lo_kept | apply State.event_kept | apply Kept.ite | dsimp -zeta only | (extract_lets +onlyGivenNames z; first | (refine Kept.cut z ?_ ?_ <;> [subst z; (intro hz; clear_value z)]) | (refine Kept.cut2 z ?_ ?_ <;> [subst z; (intro hz; clear_value z)]) | (have hz : State → _ := z; clear hz; subst z) | clear_value z) | split

theorem State.rollStart_kept {q0 : List Instr} {n0 : Nat} {s : State} (h : Kept q0 n0 s) : Kept q0 n0 (State.rollStart s) := by
  unfold State.rollStart
  with_reducible repeat' first | assumption | simp -zeta only [Kept.upd] | apply State.addrTake_kept | apply State.wr_kept | apply State.emit_kept | apply Kept.ite | dsimp -zeta only | (extract_lets +onlyGivenNames z; first | (refine Kept.cut z ?_ ?_ <;> [subst z; (intro hz; clear_value z)]) | (refine Kept.cut2 z ?_ ?_ <;> [subst z; (intro hz; clear_value z)]) | (have hz : State → _ := z; clear hz; subst z) | clear_value z) | split

theorem State.disarm_kept {q0 : List Instr} {n0 : Nat} {s : State} (h : Kept q0 n0 s) : Kept q0 n0 (State.disarm s) := by
  unfold State.disarm
  with_reducible repeat' first | assumption | simp -zeta only [Kept.upd] | apply State.each_kept | apply State.modFc_kept | dsimp -zeta only | (intro; intros)

theorem State.sleepMode_kept {q0 : List Instr} {n0 : Nat} {s : State} (m : ℕ) (h : Kept q0 n0 s) : Kept q0 n0 (State.sleepMode s m) := by
  unfold State.sleepMode
  with_reducible repeat' first | assumption | apply State.storeMode_kept | apply State.capture_kept | apply State.event_kept | dsimp -zeta only | (extract_lets +onlyGivenNames z; first | (refine Kept.cut z ?_ ?_ <;> [subst z; (intro hz; clear_value z)]) | (refine Kept.cut2 z ?_ ?_ <;> [subst z; (intro hz; clear_value z)]) | (have hz : State → _ := z; clear hz; subst z) | clear_value z)

theorem State.commandsDrop_kept {q0 : List Instr} {n0 : Nat} {s : State} (h : Kept q0 n0 s) : Kept q0 n0 (State.commandsDrop s) := by
  unfold State.commandsDrop
  with_reducible repeat' first | assumption | simp -zeta only [Kept.upd] | apply State.abandonCopies_kept | apply State.complete_kept | apply foldl_kept | apply foldl2_kept | dsimp -zeta only | (extract_lets +onlyGivenNames z; first | (refine Kept.cut z ?_ ?_ <;> [subst z; (intro hz; clear_value z)]) | (refine Kept.cut2 z ?_ ?_ <;> [subst z; (intro hz; clear_value z)]) | (have hz : State → _ := z; clear hz; subst z) | clear_value z) | (intro; intros)

theorem State.enterWatch_kept {q0 : List Instr} {n0 : Nat} {s : State} (h : Kept q0 n0 s) : Kept q0 n0 (State.enterWatch s) := by
  unfold State.enterWatch
  with_reducible repeat' first | assumption | simp -zeta only [Kept.upd] | apply State.canInit_kept | apply State.commandsDrop_kept | apply State.releaseHeld_kept | apply State.portsRepeat_kept | apply State.disarm_kept | apply State.sleepMode_kept | apply State.clocksOff_kept | apply State.modSaf_kept | apply State.roadStop_kept | apply State.modPwr_kept | apply State.faultN_kept | dsimp -zeta only | (extract_lets +onlyGivenNames z; first | (refine Kept.cut z ?_ ?_ <;> [subst z; (intro hz; clear_value z)]) | (refine Kept.cut2 z ?_ ?_ <;> [subst z; (intro hz; clear_value z)]) | (have hz : State → _ := z; clear hz; subst z) | clear_value z) | (intro; intros)

theorem State.startShutdown_kept {q0 : List Instr} {n0 : Nat} {s : State} (h : Kept q0 n0 s) : Kept q0 n0 (State.startShutdown s) := by
  unfold State.startShutdown
  with_reducible repeat' first | assumption | simp -zeta only [Kept.upd] | apply State.event_kept | apply State.wr_kept | apply State.lo_kept | apply State.canInit_kept | apply State.disarm_kept | apply State.releaseOwed_kept | apply State.journalModule_kept | apply State.flushStaging_kept | apply State.modRec_kept | apply State.modPwr_kept | apply State.shutdownStep_kept | dsimp -zeta only | (extract_lets +onlyGivenNames z; first | (refine Kept.cut z ?_ ?_ <;> [subst z; (intro hz; clear_value z)]) | (refine Kept.cut2 z ?_ ?_ <;> [subst z; (intro hz; clear_value z)]) | (have hz : State → _ := z; clear hz; subst z) | clear_value z) | (intro; intros) | split

theorem State.ioDown_kept {q0 : List Instr} {n0 : Nat} {s : State} (h : Kept q0 n0 s) : Kept q0 n0 (State.ioDown s) := by
  unfold State.ioDown
  with_reducible repeat' first | assumption | simp -zeta only [Kept.upd] | apply State.modPwr_kept | dsimp -zeta only | (extract_lets +onlyGivenNames z; first | (refine Kept.cut z ?_ ?_ <;> [subst z; (intro hz; clear_value z)]) | (refine Kept.cut2 z ?_ ?_ <;> [subst z; (intro hz; clear_value z)]) | (have hz : State → _ := z; clear hz; subst z) | clear_value z) | (intro; intros)

theorem State.winter_kept {q0 : List Instr} {n0 : Nat} {s : State} (h : Kept q0 n0 s) : Kept q0 n0 (State.winter s) := by
  unfold State.winter
  with_reducible repeat' first | assumption | simp -zeta only [Kept.upd] | apply State.ioDown_kept | apply State.modPwr_kept | apply State.safeDown_kept | apply State.wr_kept | apply State.storeMode_kept | apply State.faultN_kept | apply State.asleep_kept | dsimp -zeta only | (extract_lets +onlyGivenNames z; first | (refine Kept.cut z ?_ ?_ <;> [subst z; (intro hz; clear_value z)]) | (refine Kept.cut2 z ?_ ?_ <;> [subst z; (intro hz; clear_value z)]) | (have hz : State → _ := z; clear hz; subst z) | clear_value z) | (intro; intros)

theorem State.railFallen_kept {q0 : List Instr} {n0 : Nat} {s : State} (en : ℕ) (h : Kept q0 n0 s) : Kept q0 n0 (State.railFallen s en) := by
  unfold State.railFallen
  with_reducible repeat' first | assumption | simp -zeta only [Kept.upd] | apply State.modPwr_kept | apply State.anaDown_kept | apply State.asleep_kept | apply State.keepDrive_kept | apply State.runOk_kept | apply State.coreDown_kept | apply State.winter_kept | apply Kept.ite | dsimp -zeta only | (extract_lets +onlyGivenNames z; first | (refine Kept.cut z ?_ ?_ <;> [subst z; (intro hz; clear_value z)]) | (refine Kept.cut2 z ?_ ?_ <;> [subst z; (intro hz; clear_value z)]) | (have hz : State → _ := z; clear hz; subst z) | clear_value z) | (intro; intros) | split

theorem State.lower_kept {q0 : List Instr} {n0 : Nat} {s : State} (h : Kept q0 n0 s) : Kept q0 n0 (State.lower s) := by
  unfold State.lower
  with_reducible repeat' first | assumption | simp -zeta only [Kept.upd] | apply State.modPwr_kept | apply Kept.ite | dsimp -zeta only | (extract_lets +onlyGivenNames z; first | (refine Kept.cut z ?_ ?_ <;> [subst z; (intro hz; clear_value z)]) | (refine Kept.cut2 z ?_ ?_ <;> [subst z; (intro hz; clear_value z)]) | (have hz : State → _ := z; clear hz; subst z) | clear_value z) | (intro; intros) | split

theorem State.recordHold_kept {q0 : List Instr} {n0 : Nat} {s : State} (h : Kept q0 n0 s) : Kept q0 n0 (State.recordHold s) := by
  unfold State.recordHold
  with_reducible repeat' first | assumption | apply State.each_kept | apply State.wr_kept | apply State.storeMode_kept | apply State.faultN_kept | dsimp -zeta only | (extract_lets +onlyGivenNames z; first | (refine Kept.cut z ?_ ?_ <;> [subst z; (intro hz; clear_value z)]) | (refine Kept.cut2 z ?_ ?_ <;> [subst z; (intro hz; clear_value z)]) | (have hz : State → _ := z; clear hz; subst z) | clear_value z) | (intro; intros)

theorem State.resetAll_kept {q0 : List Instr} {n0 : Nat} {s : State} (h : Kept q0 n0 s) : Kept q0 n0 (State.resetAll s) := by
  unfold State.resetAll
  with_reducible repeat' first | assumption | simp -zeta only [Kept.upd] | apply State.modPwr_kept | apply State.keepDrive_kept | apply State.classReset_kept | apply State.cpuClear_kept | apply State.ctlClear_kept | apply State.commClear_kept | apply State.anaClear_kept | apply State.lo_kept | apply State.wr_kept | dsimp -zeta only | (extract_lets +onlyGivenNames z; first | (refine Kept.cut z ?_ ?_ <;> [subst z; (intro hz; clear_value z)]) | (refine Kept.cut2 z ?_ ?_ <;> [subst z; (intro hz; clear_value z)]) | (have hz : State → _ := z; clear hz; subst z) | clear_value z) | (intro; intros)

end Sys2Proof.Machine
end

