-- ==== Sys2Proof/Laws/KeptBoot.lean ====
section
/-!
SUPPORT. What the operations of Machine/Boot keep: the queue, the clock and the form of the stores.
-/

namespace Sys2Proof.Machine

theorem State.modSec_kept {q0 : List Instr} {n0 : Nat} {s : State} (f : Security → Security) (h : Kept q0 n0 s) : Kept q0 n0 (State.modSec s f) := by
  unfold State.modSec
  with_reducible repeat' first | assumption | simp -zeta only [Kept.upd]

theorem State.bootEvent_kept {q0 : List Instr} {n0 : Nat} {s : State} (code : ℕ) (arg : ℕ) (h : Kept q0 n0 s) : Kept q0 n0 (State.bootEvent s code arg) := by
  unfold State.bootEvent
  with_reducible repeat' first | assumption | simp -zeta only [Kept.upd] | apply State.event_kept | apply State.boot_kept | apply State.modSec_kept | dsimp -zeta only | (intro; intros)

theorem State.bistFailed_kept {q0 : List Instr} {n0 : Nat} {s : State} (h : Kept q0 n0 s) : Kept q0 n0 (State.bistFailed s) := by
  unfold State.bistFailed
  with_reducible repeat' first | assumption | simp -zeta only [Kept.upd] | apply State.resetAll_kept | apply State.modPwr_kept | apply State.faultN_kept | apply State.commUp_kept | apply State.gdcRefresh_kept | apply State.cond_kept | apply State.anaUp_kept | apply State.raise_kept | apply Kept.ite | dsimp -zeta only | (extract_lets +onlyGivenNames z; first | (refine Kept.cut z ?_ ?_ <;> [subst z; (intro hz; clear_value z)]) | (refine Kept.cut2 z ?_ ?_ <;> [subst z; (intro hz; clear_value z)]) | (have hz : State → _ := z; clear hz; subst z) | clear_value z) | (intro; intros) | split

theorem State.bistStep_kept {q0 : List Instr} {n0 : Nat} {s : State} (h : Kept q0 n0 s) : Kept q0 n0 (State.bistStep s) := by
  unfold State.bistStep
  with_reducible repeat' first | assumption | simp -zeta only [Kept.upd] | apply State.pass_kept | apply State.modPwr_kept | apply State.hi_kept | apply State.cond_kept | apply State.wrB_kept | apply State.bootEvent_kept | apply Kept.ite | dsimp -zeta only | (extract_lets +onlyGivenNames z; first | (refine Kept.cut z ?_ ?_ <;> [subst z; (intro hz; clear_value z)]) | (refine Kept.cut2 z ?_ ?_ <;> [subst z; (intro hz; clear_value z)]) | (have hz : State → _ := z; clear hz; subst z) | clear_value z) | (intro; intros) | split

theorem State.axisInUse_kept {q0 : List Instr} {n0 : Nat} {s : State} (h : Kept q0 n0 s) : Kept q0 n0 (State.axisInUse s) := by
  unfold State.axisInUse
  with_reducible repeat' first | assumption | apply State.wr_kept | apply Kept.ite | split

theorem State.loadConfig_kept {q0 : List Instr} {n0 : Nat} {s : State} (copy : ℕ) (bs : List Byte) (h : Kept q0 n0 s) : Kept q0 n0 (State.loadConfig s copy bs) := by
  unfold State.loadConfig
  with_reducible repeat' first | assumption | simp -zeta only [Kept.upd] | apply State.setReg_kept | apply State.hi_kept | apply State.wr_kept | apply State.modSec_kept | apply State.axisInUse_kept | apply State.gdcLoaded_kept | apply State.shadowAtLock_kept | apply State.each_kept | apply State.fieldCfg_kept | apply State.hovCfg_kept | apply State.cond_kept | apply State.wrB_kept | apply State.mirrorActive_kept | apply State.runOk_kept | apply foldl_kept | apply foldl2_kept | dsimp -zeta only | (extract_lets +onlyGivenNames z; first | (refine Kept.cut z ?_ ?_ <;> [subst z; (intro hz; clear_value z)]) | (refine Kept.cut2 z ?_ ?_ <;> [subst z; (intro hz; clear_value z)]) | (have hz : State → _ := z; clear hz; subst z) | clear_value z) | (intro; intros)

theorem State.awaitRecovery_kept {q0 : List Instr} {n0 : Nat} {s : State} (h : Kept q0 n0 s) : Kept q0 n0 (State.awaitRecovery s) := by
  unfold State.awaitRecovery
  with_reducible repeat' first | assumption | simp -zeta only [Kept.upd] | apply State.boot_kept | apply State.wr_kept | apply State.modPwr_kept | apply State.recordHold_kept | dsimp -zeta only | (intro; intros)

theorem State.configStep_kept {q0 : List Instr} {n0 : Nat} {s : State} (split : List ℕ) (h : Kept q0 n0 s) : Kept q0 n0 (State.configStep s split) := by
  unfold State.configStep
  with_reducible repeat' first | assumption | apply State.boot_kept | apply State.wr_kept | apply State.loadConfig_kept | apply State.hi_kept | apply State.bootEvent_kept | apply Kept.ite | dsimp -zeta only | (extract_lets +onlyGivenNames z; first | (refine Kept.cut z ?_ ?_ <;> [subst z; (intro hz; clear_value z)]) | (refine Kept.cut2 z ?_ ?_ <;> [subst z; (intro hz; clear_value z)]) | (have hz : State → _ := z; clear hz; subst z) | clear_value z) | split

theorem State.loadImage_kept {q0 : List Instr} {n0 : Nat} {s : State} (slot : ℕ) (bs : List Byte) (h : Kept q0 n0 s) : Kept q0 n0 (State.loadImage s slot bs) := by
  unfold State.loadImage
  with_reducible repeat' first | assumption | simp -zeta only [Kept.upd] | apply State.each_kept | apply State.putCoef_kept | apply State.wr_kept | apply State.modSec_kept | apply foldl_kept | apply foldl2_kept | apply Kept.put | dsimp -zeta only | (extract_lets +onlyGivenNames z; first | (refine Kept.cut z ?_ ?_ <;> [subst z; (intro hz; clear_value z)]) | (refine Kept.cut2 z ?_ ?_ <;> [subst z; (intro hz; clear_value z)]) | (have hz : State → _ := z; clear hz; subst z) | clear_value z) | (intro; intros)

theorem State.noImage_kept {q0 : List Instr} {n0 : Nat} {s : State} (h : Kept q0 n0 s) : Kept q0 n0 (State.noImage s) := by
  unfold State.noImage
  with_reducible repeat' first | assumption | simp -zeta only [Kept.upd] | apply State.wr_kept | apply State.modSec_kept | dsimp -zeta only | (extract_lets +onlyGivenNames z; first | (refine Kept.cut z ?_ ?_ <;> [subst z; (intro hz; clear_value z)]) | (refine Kept.cut2 z ?_ ?_ <;> [subst z; (intro hz; clear_value z)]) | (have hz : State → _ := z; clear hz; subst z) | clear_value z) | (intro; intros)

theorem State.imageStep_kept {q0 : List Instr} {n0 : Nat} {s : State} (split : List ℕ) (h : Kept q0 n0 s) : Kept q0 n0 (State.imageStep s split).2 := by
  unfold State.imageStep
  with_reducible repeat' first | assumption | apply State.boot_kept | apply State.wr_kept | apply State.lo_kept | apply State.loadImage_kept | apply State.hi_kept | apply State.bootEvent_kept | apply State.noImage_kept | apply Kept.ite | dsimp -zeta only | (extract_lets +onlyGivenNames z; first | (refine Kept.cut z ?_ ?_ <;> [subst z; (intro hz; clear_value z)]) | (refine Kept.cut2 z ?_ ?_ <;> [subst z; (intro hz; clear_value z)]) | (have hz : State → _ := z; clear hz; subst z) | clear_value z) | split

theorem State.release_kept {q0 : List Instr} {n0 : Nat} {s : State} (h : Kept q0 n0 s) : Kept q0 n0 (State.release s) := by
  unfold State.release
  with_reducible repeat' first | assumption | simp -zeta only [Kept.upd] | apply State.each_kept | apply State.wr_kept | dsimp -zeta only | (extract_lets +onlyGivenNames z; first | (refine Kept.cut z ?_ ?_ <;> [subst z; (intro hz; clear_value z)]) | (refine Kept.cut2 z ?_ ?_ <;> [subst z; (intro hz; clear_value z)]) | (have hz : State → _ := z; clear hz; subst z) | clear_value z)

theorem State.bootReport_kept {q0 : List Instr} {n0 : Nat} {s : State} (h : Kept q0 n0 s) : Kept q0 n0 (State.bootReport s) := by
  unfold State.bootReport
  with_reducible repeat' first | assumption | simp -zeta only [Kept.upd] | apply State.boot_kept | apply State.modSec_kept | apply State.modPwr_kept | apply State.event_kept | apply foldl_kept | apply foldl2_kept | dsimp -zeta only | (extract_lets +onlyGivenNames z; first | (refine Kept.cut z ?_ ?_ <;> [subst z; (intro hz; clear_value z)]) | (refine Kept.cut2 z ?_ ?_ <;> [subst z; (intro hz; clear_value z)]) | (have hz : State → _ := z; clear hz; subst z) | clear_value z) | (intro; intros)

theorem State.finishRestart_kept {q0 : List Instr} {n0 : Nat} {s : State} (h : Kept q0 n0 s) : Kept q0 n0 (State.finishRestart s) := by
  unfold State.finishRestart
  with_reducible repeat' first | assumption | simp -zeta only [Kept.upd] | apply State.release_kept | apply State.modSec_kept | apply State.wr_kept | apply State.journalModule_kept | apply State.event_kept | apply State.bootReport_kept | dsimp -zeta only | (extract_lets +onlyGivenNames z; first | (refine Kept.cut z ?_ ?_ <;> [subst z; (intro hz; clear_value z)]) | (refine Kept.cut2 z ?_ ?_ <;> [subst z; (intro hz; clear_value z)]) | (have hz : State → _ := z; clear hz; subst z) | clear_value z) | (intro; intros)

theorem State.finishBoot_kept {q0 : List Instr} {n0 : Nat} {s : State} (puf : Bool) (h : Kept q0 n0 s) : Kept q0 n0 (State.finishBoot s puf) := by
  unfold State.finishBoot
  with_reducible repeat' first | assumption | simp -zeta only [Kept.upd] | apply State.boot_kept | apply State.release_kept | apply State.mount_kept | apply State.wrB_kept | apply State.cond_kept | apply State.bootEvent_kept | apply State.journalRebuild_kept | apply State.bootReport_kept | dsimp -zeta only | (extract_lets +onlyGivenNames z; first | (refine Kept.cut z ?_ ?_ <;> [subst z; (intro hz; clear_value z)]) | (refine Kept.cut2 z ?_ ?_ <;> [subst z; (intro hz; clear_value z)]) | (have hz : State → _ := z; clear hz; subst z) | clear_value z) | (intro; intros)

theorem State.boot_kept {q0 : List Instr} {n0 : Nat} {s : State} (b : BootIn) (h : Kept q0 n0 s) : Kept q0 n0 (State.boot s b) := by
  unfold State.boot
  with_reducible repeat' first | assumption | simp -zeta only [Kept.upd] | apply State.modPwr_kept | apply State.wr_kept | apply State.bistFailed_kept | apply State.bistStep_kept | apply State.arbRegs_kept | apply State.configStep_kept | apply State.awaitRecovery_kept | apply State.imageStep_kept | apply State.finishBoot_kept | apply Kept.ite | dsimp -zeta only | (extract_lets +onlyGivenNames z; first | (refine Kept.cut z ?_ ?_ <;> [subst z; (intro hz; clear_value z)]) | (refine Kept.cut2 z ?_ ?_ <;> [subst z; (intro hz; clear_value z)]) | (have hz : State → _ := z; clear hz; subst z) | clear_value z) | (intro; intros) | split

theorem State.tryBoot_kept {q0 : List Instr} {n0 : Nat} {s : State} (b : BootIn) (h : Kept q0 n0 s) : Kept q0 n0 (State.tryBoot s b) := by
  unfold State.tryBoot
  with_reducible repeat' first | assumption | apply State.boot_kept | apply Kept.ite | split

theorem State.bootDone_kept {q0 : List Instr} {n0 : Nat} {s : State} (h : Kept q0 n0 s) : Kept q0 n0 (State.bootDone s) := by
  unfold State.bootDone
  with_reducible repeat' first | assumption | simp -zeta only [Kept.upd] | apply State.hold_kept | apply State.wr_kept | apply State.modPwr_kept | apply State.modSaf_kept | apply State.cond_kept | apply State.each_kept | apply State.enterReady_kept | apply State.sleepMode_kept | apply State.excUpdate_kept | apply State.regate_kept | apply State.soUpdate_kept | apply State.storeMode_kept | apply State.faultN_kept | apply State.event_kept | apply State.rollStart_kept | apply State.capture_kept | apply foldl_kept | apply foldl2_kept | apply Kept.ite | dsimp -zeta only | (extract_lets +onlyGivenNames z; first | (refine Kept.cut z ?_ ?_ <;> [subst z; (intro hz; clear_value z)]) | (refine Kept.cut2 z ?_ ?_ <;> [subst z; (intro hz; clear_value z)]) | (have hz : State → _ := z; clear hz; subst z) | clear_value z) | (intro; intros) | split

end Sys2Proof.Machine
end

