-- ==== Sys2Proof/Laws/KeptGate.lean ====
section
/-!
SUPPORT. What the operations of Machine/Gate keep: the queue, the clock and the form of the stores.
-/

namespace Sys2Proof.Machine

theorem State.supplyFlags_kept {q0 : List Instr} {n0 : Nat} {s : State} (n : ℕ) (pos : Bool) (neg : Bool) (h : Kept q0 n0 s) : Kept q0 n0 (State.supplyFlags s n pos neg) := by
  unfold State.supplyFlags
  with_reducible repeat' first | assumption | simp -zeta only [Kept.upd] | apply State.modCh_kept | apply State.wrB_kept | dsimp -zeta only | (extract_lets +onlyGivenNames z; first | (refine Kept.cut z ?_ ?_ <;> [subst z; (intro hz; clear_value z)]) | (refine Kept.cut2 z ?_ ?_ <;> [subst z; (intro hz; clear_value z)]) | (have hz : State → _ := z; clear hz; subst z) | clear_value z) | (intro; intros)

theorem State.latchCh_kept {q0 : List Instr} {n0 : Nat} {s : State} (n : ℕ) (cause : ℕ) (h : Kept q0 n0 s) : Kept q0 n0 (State.latchCh s n cause) := by
  unfold State.latchCh
  with_reducible repeat' first | assumption | simp -zeta only [Kept.upd] | apply State.modCh_kept | apply State.turnOff_kept | apply State.wr_kept | apply State.setLatch_kept | apply State.latchedBit_kept | dsimp -zeta only | (extract_lets +onlyGivenNames z; first | (refine Kept.cut z ?_ ?_ <;> [subst z; (intro hz; clear_value z)]) | (refine Kept.cut2 z ?_ ?_ <;> [subst z; (intro hz; clear_value z)]) | (have hz : State → _ := z; clear hz; subst z) | clear_value z) | (intro; intros)

theorem State.gdcCount_kept {q0 : List Instr} {n0 : Nat} {s : State} (f : Fld) (n : ℕ) (h : Kept q0 n0 s) : Kept q0 n0 (State.gdcCount s f n) := by
  unfold State.gdcCount
  with_reducible repeat' first | assumption | apply State.event_kept | apply State.count_kept

theorem State.legLoss_kept {q0 : List Instr} {n0 : Nat} {s : State} (n : ℕ) (h : Kept q0 n0 s) : Kept q0 n0 (State.legLoss s n) := by
  unfold State.legLoss
  with_reducible repeat' first | assumption | apply State.cond_kept | apply State.markLeg_kept | apply State.activateRow_kept | apply State.rejudge_kept | dsimp -zeta only | (extract_lets +onlyGivenNames z; first | (refine Kept.cut z ?_ ?_ <;> [subst z; (intro hz; clear_value z)]) | (refine Kept.cut2 z ?_ ?_ <;> [subst z; (intro hz; clear_value z)]) | (have hz : State → _ := z; clear hz; subst z) | clear_value z) | (intro; intros)

theorem State.comeBack_kept {q0 : List Instr} {n0 : Nat} {s : State} (n : ℕ) (h : Kept q0 n0 s) : Kept q0 n0 (State.comeBack s n) := by
  unfold State.comeBack
  with_reducible repeat' first | assumption | apply State.supplies_kept | apply State.hold_kept | apply State.putCh_kept | apply State.rejudge_kept

theorem State.superseded_kept {q0 : List Instr} {n0 : Nat} {s : State} (n : ℕ) (h : Kept q0 n0 s) : Kept q0 n0 (State.superseded s n) := by
  unfold State.superseded
  with_reducible repeat' first | assumption | apply State.setLatch_kept | apply Kept.ite | split

theorem State.finalState_kept {q0 : List Instr} {n0 : Nat} {s : State} (a : ℕ) (h : Kept q0 n0 s) : Kept q0 n0 (State.finalState s a) := by
  unfold State.finalState
  with_reducible repeat' first | assumption | simp -zeta only [Kept.upd] | apply State.modUz_kept | apply State.regate_kept | apply State.lo_kept | apply State.activateRow_kept | apply State.openContactors_kept | apply State.requestDischarge_kept | apply Kept.ite | dsimp -zeta only | (extract_lets +onlyGivenNames z; first | (refine Kept.cut z ?_ ?_ <;> [subst z; (intro hz; clear_value z)]) | (refine Kept.cut2 z ?_ ?_ <;> [subst z; (intro hz; clear_value z)]) | (have hz : State → _ := z; clear hz; subst z) | clear_value z) | (intro; intros) | split

theorem execEnaFall_kept {q0 : List Instr} {n0 : Nat} (t : ℕ) (b : Fin 2) {s : State} (h : Kept q0 n0 s) :
    ∃ s', execEnaFall t b s = .next s' ∧ Kept q0 (max n0 t) s' := by
  refine ⟨_, rfl, ?_⟩
  have h := State.upTo_kept t h
  with_reducible repeat' first | assumption | simp -zeta only [Kept.upd] | apply State.upTo_kept | apply State.each_kept | apply State.turnOff_kept | apply State.diagCut_kept | apply step_kept | apply State.cond_kept | apply State.ss1EndState_kept | apply State.putGate_kept | apply State.modUz_kept | apply Kept.ite | dsimp -zeta only | (extract_lets +onlyGivenNames z; first | (refine Kept.cut z ?_ ?_ <;> [subst z; (intro hz; clear_value z)]) | (refine Kept.cut2 z ?_ ?_ <;> [subst z; (intro hz; clear_value z)]) | (have hz : State → _ := z; clear hz; subst z) | clear_value z) | (intro; intros) | split

theorem execEnaRise_kept {q0 : List Instr} {n0 : Nat} (t : ℕ) (b : Fin 2) {s : State} (h : Kept q0 n0 s) :
    ∃ s', execEnaRise t b s = .next s' ∧ Kept q0 (max n0 t) s' := by
  refine ⟨_, rfl, ?_⟩
  have h := State.upTo_kept t h
  with_reducible repeat' first | assumption | simp -zeta only [Kept.upd] | apply State.each_kept | apply State.upTo_kept | apply State.putCh_kept | apply State.setLatch_kept | apply State.event_kept | apply State.hi_kept | apply State.modUz_kept | apply State.substitute_kept | apply State.regate_kept | apply State.latchedBit_kept | apply Kept.ite | dsimp -zeta only | (extract_lets +onlyGivenNames z; first | (refine Kept.cut z ?_ ?_ <;> [subst z; (intro hz; clear_value z)]) | (refine Kept.cut2 z ?_ ?_ <;> [subst z; (intro hz; clear_value z)]) | (have hz : State → _ := z; clear hz; subst z) | clear_value z) | (intro; intros) | split

theorem execChannelLinkUp_kept {q0 : List Instr} {n0 : Nat} (t : ℕ) (n : Fin 12) (posOk : Bool) (negOk : Bool) {s : State} (h : Kept q0 n0 s) :
    ∃ s', execChannelLinkUp t n posOk negOk s = .next s' ∧ Kept q0 (max n0 t) s' := by
  refine ⟨_, rfl, ?_⟩
  have h := State.upTo_kept t h
  with_reducible repeat' first | assumption | simp -zeta only [Kept.upd] | apply State.upTo_kept | apply State.modCh_kept | apply State.exchange_kept | apply State.putCh_kept | apply State.supplyFlags_kept | apply Kept.ite | dsimp -zeta only | (extract_lets +onlyGivenNames z; first | (refine Kept.cut z ?_ ?_ <;> [subst z; (intro hz; clear_value z)]) | (refine Kept.cut2 z ?_ ?_ <;> [subst z; (intro hz; clear_value z)]) | (have hz : State → _ := z; clear hz; subst z) | clear_value z) | (intro; intros) | split

theorem execConfigExchangeDone_kept {q0 : List Instr} {n0 : Nat} (t : ℕ) (n : Fin 12) (ok : Bool) {s : State} (h : Kept q0 n0 s) :
    ∃ s', execConfigExchangeDone t n ok s = .next s' ∧ Kept q0 (max n0 t) s' := by
  refine ⟨_, rfl, ?_⟩
  have h := State.upTo_kept t h
  with_reducible repeat' first | assumption | simp -zeta only [Kept.upd] | apply State.exchange_kept | apply State.upTo_kept | apply State.modCh_kept | apply State.wrB_kept | apply State.putCh_kept | apply State.comeBack_kept | apply State.cond_kept | apply State.hi_kept | apply State.event_kept | apply State.latchCh_kept | apply State.legLoss_kept | apply Kept.ite | dsimp -zeta only | (extract_lets +onlyGivenNames z; first | (refine Kept.cut z ?_ ?_ <;> [subst z; (intro hz; clear_value z)]) | (refine Kept.cut2 z ?_ ?_ <;> [subst z; (intro hz; clear_value z)]) | (have hz : State → _ := z; clear hz; subst z) | clear_value z) | (intro; intros) | split

theorem execConfigReadback_kept {q0 : List Instr} {n0 : Nat} (t : ℕ) (n : Fin 12) (copy : List Word) {s : State} (h : Kept q0 n0 s) :
    ∃ s', execConfigReadback t n copy s = .next s' ∧ Kept q0 (max n0 t) s' := by
  refine ⟨_, rfl, ?_⟩
  have h := State.upTo_kept t h
  with_reducible repeat' first | assumption | simp -zeta only [Kept.upd] | apply State.exchange_kept | apply State.upTo_kept | apply State.modCh_kept | apply State.hi_kept | apply State.event_kept | apply State.latchCh_kept | apply State.legLoss_kept | apply Kept.ite | dsimp -zeta only | (extract_lets +onlyGivenNames z; first | (refine Kept.cut z ?_ ?_ <;> [subst z; (intro hz; clear_value z)]) | (refine Kept.cut2 z ?_ ?_ <;> [subst z; (intro hz; clear_value z)]) | (have hz : State → _ := z; clear hz; subst z) | clear_value z) | (intro; intros) | split

theorem execLinkTimeout_kept {q0 : List Instr} {n0 : Nat} (t : ℕ) (n : Fin 12) {s : State} (h : Kept q0 n0 s) :
    ∃ s', execLinkTimeout t n s = .next s' ∧ Kept q0 (max n0 t) s' := by
  refine ⟨_, rfl, ?_⟩
  have h := State.upTo_kept t h
  with_reducible repeat' first | assumption | apply State.upTo_kept | apply State.turnOff_kept | apply State.hi_kept | apply State.gdcCount_kept | apply State.event_kept | apply State.legLoss_kept | apply Kept.ite | dsimp -zeta only | (extract_lets +onlyGivenNames z; first | (refine Kept.cut z ?_ ?_ <;> [subst z; (intro hz; clear_value z)]) | (refine Kept.cut2 z ?_ ?_ <;> [subst z; (intro hz; clear_value z)]) | (have hz : State → _ := z; clear hz; subst z) | clear_value z) | split

theorem execSupplyCollapse_kept {q0 : List Instr} {n0 : Nat} (t : ℕ) (n : Fin 12) {s : State} (h : Kept q0 n0 s) :
    ∃ s', execSupplyCollapse t n s = .next s' ∧ Kept q0 (max n0 t) s' := by
  refine ⟨_, rfl, ?_⟩
  have h := State.upTo_kept t h
  with_reducible repeat' first | assumption | simp -zeta only [Kept.upd] | apply State.hold_kept | apply State.upTo_kept | apply State.modCh_kept | apply State.turnOff_kept | apply State.wr_kept | apply Kept.ite | dsimp -zeta only | (extract_lets +onlyGivenNames z; first | (refine Kept.cut z ?_ ?_ <;> [subst z; (intro hz; clear_value z)]) | (refine Kept.cut2 z ?_ ?_ <;> [subst z; (intro hz; clear_value z)]) | (have hz : State → _ := z; clear hz; subst z) | clear_value z) | (intro; intros) | split

theorem execUvloEntry_kept {q0 : List Instr} {n0 : Nat} (t : ℕ) (n : Fin 12) (pos : Bool) (neg : Bool) {s : State} (h : Kept q0 n0 s) :
    ∃ s', execUvloEntry t n pos neg s = .next s' ∧ Kept q0 (max n0 t) s' := by
  refine ⟨_, rfl, ?_⟩
  have h := State.upTo_kept t h
  with_reducible repeat' first | assumption | simp -zeta only [Kept.upd] | apply State.upTo_kept | apply State.supplyFlags_kept | apply State.cond_kept | apply State.event_kept | apply State.superseded_kept | apply State.turnOff_kept | apply State.modCh_kept | apply State.gdcCount_kept | apply State.wr_kept | apply State.latchCh_kept | apply State.legLoss_kept | apply Kept.ite | dsimp -zeta only | (extract_lets +onlyGivenNames z; first | (refine Kept.cut z ?_ ?_ <;> [subst z; (intro hz; clear_value z)]) | (refine Kept.cut2 z ?_ ?_ <;> [subst z; (intro hz; clear_value z)]) | (have hz : State → _ := z; clear hz; subst z) | clear_value z) | (intro; intros) | split

theorem execUvloRelease_kept {q0 : List Instr} {n0 : Nat} (t : ℕ) (n : Fin 12) {s : State} (h : Kept q0 n0 s) :
    ∃ s', execUvloRelease t n s = .next s' ∧ Kept q0 (max n0 t) s' := by
  refine ⟨_, rfl, ?_⟩
  have h := State.upTo_kept t h
  with_reducible repeat' first | assumption | apply State.supplies_kept | apply State.release_kept | apply State.upTo_kept | apply State.supplyFlags_kept | apply State.wr_kept | apply State.comeBack_kept | apply Kept.ite | dsimp -zeta only | (extract_lets +onlyGivenNames z; first | (refine Kept.cut z ?_ ?_ <;> [subst z; (intro hz; clear_value z)]) | (refine Kept.cut2 z ?_ ?_ <;> [subst z; (intro hz; clear_value z)]) | (have hz : State → _ := z; clear hz; subst z) | clear_value z) | split

theorem execChannelOverTemp_kept {q0 : List Instr} {n0 : Nat} (t : ℕ) (n : Fin 12) {s : State} (h : Kept q0 n0 s) :
    ∃ s', execChannelOverTemp t n s = .next s' ∧ Kept q0 (max n0 t) s' := by
  refine ⟨_, rfl, ?_⟩
  have h := State.upTo_kept t h
  with_reducible repeat' first | assumption | simp -zeta only [Kept.upd] | apply State.upTo_kept | apply State.superseded_kept | apply State.turnOff_kept | apply State.modCh_kept | apply State.hi_kept | apply State.event_kept | apply State.legLoss_kept | apply Kept.ite | dsimp -zeta only | (extract_lets +onlyGivenNames z; first | (refine Kept.cut z ?_ ?_ <;> [subst z; (intro hz; clear_value z)]) | (refine Kept.cut2 z ?_ ?_ <;> [subst z; (intro hz; clear_value z)]) | (have hz : State → _ := z; clear hz; subst z) | clear_value z) | (intro; intros) | split

theorem execChannelTempOk_kept {q0 : List Instr} {n0 : Nat} (t : ℕ) (n : Fin 12) {s : State} (h : Kept q0 n0 s) :
    ∃ s', execChannelTempOk t n s = .next s' ∧ Kept q0 (max n0 t) s' := by
  refine ⟨_, rfl, ?_⟩
  have h := State.upTo_kept t h
  with_reducible repeat' first | assumption | simp -zeta only [Kept.upd] | apply State.upTo_kept | apply State.modCh_kept | apply State.comeBack_kept | apply Kept.ite | dsimp -zeta only | (extract_lets +onlyGivenNames z; first | (refine Kept.cut z ?_ ?_ <;> [subst z; (intro hz; clear_value z)]) | (refine Kept.cut2 z ?_ ?_ <;> [subst z; (intro hz; clear_value z)]) | (have hz : State → _ := z; clear hz; subst z) | clear_value z) | (intro; intros) | split

theorem execGateEdge_kept {q0 : List Instr} {n0 : Nat} (t : ℕ) (n : Fin 12) (e : GateEdge) {s : State} (h : Kept q0 n0 s) :
    ∃ s', execGateEdge t n e s = .next s' ∧ Kept q0 (max n0 t) s' := by
  refine ⟨_, rfl, ?_⟩
  have h := State.upTo_kept t h
  with_reducible repeat' first | assumption | simp -zeta only [Kept.upd] | apply State.upTo_kept | apply State.turnOn_kept | apply State.turnOff_kept | apply State.uzGateToChannels_kept | apply Kept.ite | dsimp -zeta only | (extract_lets +onlyGivenNames z; first | (refine Kept.cut z ?_ ?_ <;> [subst z; (intro hz; clear_value z)]) | (refine Kept.cut2 z ?_ ?_ <;> [subst z; (intro hz; clear_value z)]) | (have hz : State → _ := z; clear hz; subst z) | clear_value z) | split

theorem execProfilePhaseEnd_kept {q0 : List Instr} {n0 : Nat} (t : ℕ) (n : Fin 12) {s : State} (h : Kept q0 n0 s) :
    ∃ s', execProfilePhaseEnd t n s = .next s' ∧ Kept q0 (max n0 t) s' := by
  refine ⟨_, rfl, ?_⟩
  have h := State.upTo_kept t h
  with_reducible repeat' first | assumption | simp -zeta only [Kept.upd] | apply State.upTo_kept | apply State.modCh_kept | dsimp -zeta only | (extract_lets +onlyGivenNames z; first | (refine Kept.cut z ?_ ?_ <;> [subst z; (intro hz; clear_value z)]) | (refine Kept.cut2 z ?_ ?_ <;> [subst z; (intro hz; clear_value z)]) | (have hz : State → _ := z; clear hz; subst z) | clear_value z) | (intro; intros) | split

theorem execBlankingEnd_kept {q0 : List Instr} {n0 : Nat} (t : ℕ) (n : Fin 12) {s : State} (h : Kept q0 n0 s) :
    ∃ s', execBlankingEnd t n s = .next s' ∧ Kept q0 (max n0 t) s' := by
  refine ⟨_, rfl, ?_⟩
  have h := State.upTo_kept t h
  with_reducible repeat' first | assumption | simp -zeta only [Kept.upd] | apply State.upTo_kept | apply State.modCh_kept | apply Kept.ite | dsimp -zeta only | (extract_lets +onlyGivenNames z; first | (refine Kept.cut z ?_ ?_ <;> [subst z; (intro hz; clear_value z)]) | (refine Kept.cut2 z ?_ ?_ <;> [subst z; (intro hz; clear_value z)]) | (have hz : State → _ := z; clear hz; subst z) | clear_value z) | (intro; intros) | split

theorem execDesaturation_kept {q0 : List Instr} {n0 : Nat} (t : ℕ) (n : Fin 12) {s : State} (h : Kept q0 n0 s) :
    ∃ s', execDesaturation t n s = .next s' ∧ Kept q0 (max n0 t) s' := by
  refine ⟨_, rfl, ?_⟩
  have h := State.upTo_kept t h
  with_reducible repeat' first | assumption | simp -zeta only [Kept.upd] | apply State.upTo_kept | apply State.modCh_kept | apply State.putCh_kept | apply State.hi_kept | apply State.wr_kept | apply State.gdcCount_kept | apply State.event_kept | apply Kept.ite | dsimp -zeta only | (extract_lets +onlyGivenNames z; first | (refine Kept.cut z ?_ ?_ <;> [subst z; (intro hz; clear_value z)]) | (refine Kept.cut2 z ?_ ?_ <;> [subst z; (intro hz; clear_value z)]) | (have hz : State → _ := z; clear hz; subst z) | clear_value z) | (intro; intros) | split

theorem execHardShort_kept {q0 : List Instr} {n0 : Nat} (t : ℕ) (n : Fin 12) {s : State} (h : Kept q0 n0 s) :
    ∃ s', execHardShort t n s = .next s' ∧ Kept q0 (max n0 t) s' := by
  refine ⟨_, rfl, ?_⟩
  have h := State.upTo_kept t h
  with_reducible repeat' first | assumption | simp -zeta only [Kept.upd] | apply State.upTo_kept | apply State.modCh_kept | apply State.putCh_kept | apply State.hi_kept | apply State.wr_kept | apply State.gdcCount_kept | apply State.event_kept | apply Kept.ite | dsimp -zeta only | (extract_lets +onlyGivenNames z; first | (refine Kept.cut z ?_ ?_ <;> [subst z; (intro hz; clear_value z)]) | (refine Kept.cut2 z ?_ ?_ <;> [subst z; (intro hz; clear_value z)]) | (have hz : State → _ := z; clear hz; subst z) | clear_value z) | (intro; intros) | split

theorem execSoftOffEnd_kept {q0 : List Instr} {n0 : Nat} (t : ℕ) (n : Fin 12) {s : State} (h : Kept q0 n0 s) :
    ∃ s', execSoftOffEnd t n s = .next s' ∧ Kept q0 (max n0 t) s' := by
  refine ⟨_, rfl, ?_⟩
  have h := State.upTo_kept t h
  with_reducible repeat' first | assumption | apply State.upTo_kept | apply State.putCh_kept | apply State.setLatch_kept | apply State.latchedBit_kept | apply Kept.ite | dsimp -zeta only | (extract_lets +onlyGivenNames z; first | (refine Kept.cut z ?_ ?_ <;> [subst z; (intro hz; clear_value z)]) | (refine Kept.cut2 z ?_ ?_ <;> [subst z; (intro hz; clear_value z)]) | (have hz : State → _ := z; clear hz; subst z) | clear_value z) | split

theorem execOnStateSample_kept {q0 : List Instr} {n0 : Nat} (t : ℕ) (n : Fin 12) (code : ℕ) {s : State} (h : Kept q0 n0 s) :
    ∃ s', execOnStateSample t n code s = .next s' ∧ Kept q0 (max n0 t) s' := by
  refine ⟨_, rfl, ?_⟩
  have h := State.upTo_kept t h
  with_reducible repeat' first | assumption | apply State.upTo_kept | apply State.wr_kept | apply State.bump_kept | apply State.hi_kept | apply Kept.ite | dsimp -zeta only | (extract_lets +onlyGivenNames z; first | (refine Kept.cut z ?_ ?_ <;> [subst z; (intro hz; clear_value z)]) | (refine Kept.cut2 z ?_ ?_ <;> [subst z; (intro hz; clear_value z)]) | (have hz : State → _ := z; clear hz; subst z) | clear_value z) | split

theorem execScFaultReport_kept {q0 : List Instr} {n0 : Nat} (t : ℕ) (n : Fin 12) {s : State} (h : Kept q0 n0 s) :
    ∃ s', execScFaultReport t n s = .next s' ∧ Kept q0 (max n0 t) s' := by
  refine ⟨_, rfl, ?_⟩
  have h := State.upTo_kept t h
  with_reducible repeat' first | assumption | simp -zeta only [Kept.upd] | apply State.upTo_kept | apply State.setLatch_kept | apply State.latchedBit_kept | apply State.cond_kept | apply State.pwmBlock_kept | apply State.setAxMode_kept | apply State.modUz_kept | apply State.regate_kept | apply State.lo_kept | apply State.openContactors_kept | apply State.requestDischarge_kept | apply Kept.ite | dsimp -zeta only | (extract_lets +onlyGivenNames z; first | (refine Kept.cut z ?_ ?_ <;> [subst z; (intro hz; clear_value z)]) | (refine Kept.cut2 z ?_ ?_ <;> [subst z; (intro hz; clear_value z)]) | (have hz : State → _ := z; clear hz; subst z) | clear_value z) | (intro; intros) | split

theorem execFinalStateDecision_kept {q0 : List Instr} {n0 : Nat} (t : ℕ) (a : Fin 2) {s : State} (h : Kept q0 n0 s) :
    ∃ s', execFinalStateDecision t a s = .next s' ∧ Kept q0 (max n0 t) s' := by
  refine ⟨_, rfl, ?_⟩
  have h := State.upTo_kept t h
  with_reducible repeat' first | assumption | apply State.upTo_kept | apply State.finalState_kept | apply Kept.ite | dsimp -zeta only | (extract_lets +onlyGivenNames z; first | (refine Kept.cut z ?_ ?_ <;> [subst z; (intro hz; clear_value z)]) | (refine Kept.cut2 z ?_ ?_ <;> [subst z; (intro hz; clear_value z)]) | (have hz : State → _ := z; clear hz; subst z) | clear_value z) | (intro; intros) | split

theorem execDiagStart_kept {q0 : List Instr} {n0 : Nat} (t : ℕ) (mask : BitVec 12) (test : Fin 4) {s : State} (h : Kept q0 n0 s) :
    ∃ s', execDiagStart t mask test s = .next s' ∧ Kept q0 (max n0 t) s' := by
  refine ⟨_, rfl, ?_⟩
  have h := State.upTo_kept t h
  with_reducible repeat' first | assumption | simp -zeta only [Kept.upd] | apply State.upTo_kept | apply State.wr_kept | apply State.diagWave_kept | apply State.hi_kept | apply Kept.ite | dsimp -zeta only | (extract_lets +onlyGivenNames z; first | (refine Kept.cut z ?_ ?_ <;> [subst z; (intro hz; clear_value z)]) | (refine Kept.cut2 z ?_ ?_ <;> [subst z; (intro hz; clear_value z)]) | (have hz : State → _ := z; clear hz; subst z) | clear_value z) | (intro; intros) | split

theorem State.diagRecord_kept {q0 : List Instr} {n0 : Nat} {s : State} (m : DiagMeas) (h : Kept q0 n0 s) : Kept q0 n0 (State.diagRecord s m) := by
  unfold State.diagRecord
  with_reducible repeat' first | assumption | apply State.hold_kept | apply State.putCh_kept | apply State.wr_kept | apply Kept.ite | dsimp -zeta only | (extract_lets +onlyGivenNames z; first | (refine Kept.cut z ?_ ?_ <;> [subst z; (intro hz; clear_value z)]) | (refine Kept.cut2 z ?_ ?_ <;> [subst z; (intro hz; clear_value z)]) | (have hz : State → _ := z; clear hz; subst z) | clear_value z) | split

theorem execDiagComplete_kept {q0 : List Instr} {n0 : Nat} (t : ℕ) (meas : List DiagMeas) {s : State} (h : Kept q0 n0 s) :
    ∃ s', execDiagComplete t meas s = .next s' ∧ Kept q0 (max n0 t) s' := by
  refine ⟨_, rfl, ?_⟩
  have h := State.upTo_kept t h
  with_reducible repeat' first | assumption | apply State.hold_kept | apply State.upTo_kept | apply State.diagRecord_kept | apply State.diagWave_kept | apply State.each_kept | apply State.diagEnd_kept | apply foldl_kept | apply foldl2_kept | apply Kept.ite | dsimp -zeta only | (extract_lets +onlyGivenNames z; first | (refine Kept.cut z ?_ ?_ <;> [subst z; (intro hz; clear_value z)]) | (refine Kept.cut2 z ?_ ?_ <;> [subst z; (intro hz; clear_value z)]) | (have hz : State → _ := z; clear hz; subst z) | clear_value z) | (intro; intros) | split

theorem execDiagAbort_kept {q0 : List Instr} {n0 : Nat} (t : ℕ) {s : State} (h : Kept q0 n0 s) :
    ∃ s', execDiagAbort t s = .next s' ∧ Kept q0 (max n0 t) s' := by
  refine ⟨_, rfl, ?_⟩
  have h := State.upTo_kept t h
  with_reducible repeat' first | assumption | apply State.upTo_kept | apply State.diagCut_kept | dsimp -zeta only

theorem execGdcCntSatClear_kept {q0 : List Instr} {n0 : Nat} (t : ℕ) (n : Fin 12) {s : State} (h : Kept q0 n0 s) :
    ∃ s', execGdcCntSatClear t n s = .next s' ∧ Kept q0 (max n0 t) s' := by
  refine ⟨_, rfl, ?_⟩
  have h := State.upTo_kept t h
  with_reducible repeat' first | assumption | apply State.upTo_kept | apply State.clearCounts_kept | apply Kept.ite | dsimp -zeta only | (extract_lets +onlyGivenNames z; first | (refine Kept.cut z ?_ ?_ <;> [subst z; (intro hz; clear_value z)]) | (refine Kept.cut2 z ?_ ?_ <;> [subst z; (intro hz; clear_value z)]) | (have hz : State → _ := z; clear hz; subst z) | clear_value z) | split

end Sys2Proof.Machine
end

