-- ==== Sys2Proof/Laws/KeptPowerRows.lean ====
section
/-!
SUPPORT. What the operations of Machine/PowerRows keep: the queue, the clock and the form of the stores.
-/

namespace Sys2Proof.Machine

theorem execResetNAssert_kept {q0 : List Instr} {n0 : Nat} (t : ℕ) {s : State} (h : Kept q0 n0 s) :
    ∃ s', execResetNAssert t s = .next s' ∧ Kept q0 (max n0 t) s' := by
  refine ⟨_, rfl, ?_⟩
  have h := State.upTo_kept t h
  with_reducible repeat' first | assumption | simp -zeta only [Kept.upd] | apply State.upTo_kept | apply State.cond_kept | apply State.activateRow_kept | apply State.modPwr_kept | apply State.resetAll_kept | apply Kept.ite | dsimp -zeta only | (extract_lets +onlyGivenNames z; first | (refine Kept.cut z ?_ ?_ <;> [subst z; (intro hz; clear_value z)]) | (refine Kept.cut2 z ?_ ?_ <;> [subst z; (intro hz; clear_value z)]) | (have hz : State → _ := z; clear hz; subst z) | clear_value z) | (intro; intros) | split

theorem execResetNRelease_kept {q0 : List Instr} {n0 : Nat} (t : ℕ) (wake : Bool) (boot : BootIn) {s : State} (h : Kept q0 n0 s) :
    ∃ s', execResetNRelease t wake boot s = .next s' ∧ Kept q0 (max n0 t) s' := by
  refine ⟨_, rfl, ?_⟩
  have h := State.upTo_kept t h
  with_reducible repeat' first | assumption | simp -zeta only [Kept.upd] | apply State.boot_kept | apply State.wake_kept | apply State.upTo_kept | apply State.modPwr_kept | apply State.hi_kept | apply State.cond_kept | apply State.commUp_kept | apply State.gdcRefresh_kept | apply State.anaUp_kept | apply State.startThaw_kept | apply Kept.ite | dsimp -zeta only | (extract_lets +onlyGivenNames z; first | (refine Kept.cut z ?_ ?_ <;> [subst z; (intro hz; clear_value z)]) | (refine Kept.cut2 z ?_ ?_ <;> [subst z; (intro hz; clear_value z)]) | (have hz : State → _ := z; clear hz; subst z) | clear_value z) | (intro; intros) | split

theorem execWakePinRequest_kept {q0 : List Instr} {n0 : Nat} (t : ℕ) (pin : Fin 3) {s : State} (h : Kept q0 n0 s) :
    ∃ s', execWakePinRequest t pin s = .next s' ∧ Kept q0 (max n0 t) s' := by
  refine ⟨_, rfl, ?_⟩
  have h := State.upTo_kept t h
  with_reducible repeat' first | assumption | simp -zeta only [Kept.upd] | apply State.wake_kept | apply State.upTo_kept | apply Kept.ite | dsimp -zeta only | (extract_lets +onlyGivenNames z; first | (refine Kept.cut z ?_ ?_ <;> [subst z; (intro hz; clear_value z)]) | (refine Kept.cut2 z ?_ ?_ <;> [subst z; (intro hz; clear_value z)]) | (have hz : State → _ := z; clear hz; subst z) | clear_value z) | split

theorem execRailInWindow_kept {q0 : List Instr} {n0 : Nat} (t : ℕ) (rail : Fin 4) {s : State} (h : Kept q0 n0 s) :
    ∃ s', execRailInWindow t rail s = .next s' ∧ Kept q0 (max n0 t) s' := by
  refine ⟨_, rfl, ?_⟩
  have h := State.upTo_kept t h
  with_reducible repeat' first | assumption | simp -zeta only [Kept.upd] | apply State.upTo_kept | apply State.modPwr_kept | apply State.soUpdate_kept | apply State.safeUp_kept | apply State.coreUp_kept | apply State.anaUp_kept | apply State.cond_kept | apply State.raise_kept | apply Kept.ite | dsimp -zeta only | (extract_lets +onlyGivenNames z; first | (refine Kept.cut z ?_ ?_ <;> [subst z; (intro hz; clear_value z)]) | (refine Kept.cut2 z ?_ ?_ <;> [subst z; (intro hz; clear_value z)]) | (have hz : State → _ := z; clear hz; subst z) | clear_value z) | (intro; intros) | split

theorem execThawAbort_kept {q0 : List Instr} {n0 : Nat} (t : ℕ) {s : State} (h : Kept q0 n0 s) :
    ∃ s', execThawAbort t s = .next s' ∧ Kept q0 (max n0 t) s' := by
  refine ⟨_, rfl, ?_⟩
  have h := State.upTo_kept t h
  with_reducible repeat' first | assumption | apply State.missed_kept | apply State.wake_kept | apply State.upTo_kept | apply State.boot_kept | apply State.wr_kept | apply State.recordHold_kept | apply State.hi_kept | apply State.lower_kept | apply Kept.ite | dsimp -zeta only | (extract_lets +onlyGivenNames z; first | (refine Kept.cut z ?_ ?_ <;> [subst z; (intro hz; clear_value z)]) | (refine Kept.cut2 z ?_ ?_ <;> [subst z; (intro hz; clear_value z)]) | (have hz : State → _ := z; clear hz; subst z) | clear_value z) | split

theorem execRailFallen_kept {q0 : List Instr} {n0 : Nat} (t : ℕ) (en : Fin 4) {s : State} (h : Kept q0 n0 s) :
    ∃ s', execRailFallen t en s = .next s' ∧ Kept q0 (max n0 t) s' := by
  refine ⟨_, rfl, ?_⟩
  have h := State.upTo_kept t h
  with_reducible repeat' first | assumption | apply State.upTo_kept | apply State.railFallen_kept | dsimp -zeta only

theorem execAoPowerOn_kept {q0 : List Instr} {n0 : Nat} (t : ℕ) {s : State} (h : Kept q0 n0 s) :
    ∃ s', execAoPowerOn t s = .next s' ∧ Kept q0 (max n0 t) s' := by
  refine ⟨_, rfl, ?_⟩
  have h := State.upTo_kept t h
  with_reducible repeat' first | assumption | simp -zeta only [Kept.upd] | apply State.upTo_kept | apply State.classReset_kept | apply State.startThaw_kept | apply Kept.ite | dsimp -zeta only | (extract_lets +onlyGivenNames z; first | (refine Kept.cut z ?_ ?_ <;> [subst z; (intro hz; clear_value z)]) | (refine Kept.cut2 z ?_ ?_ <;> [subst z; (intro hz; clear_value z)]) | (have hz : State → _ := z; clear hz; subst z) | clear_value z) | split

theorem execAoBrownOut_kept {q0 : List Instr} {n0 : Nat} (t : ℕ) {s : State} (h : Kept q0 n0 s) :
    ∃ s', execAoBrownOut t s = .next s' ∧ Kept q0 (max n0 t) s' := by
  refine ⟨_, rfl, ?_⟩
  have h := State.upTo_kept t h
  with_reducible repeat' first | assumption | simp -zeta only [Kept.upd] | apply State.upTo_kept | apply State.safeDown_kept | apply State.coreDown_kept | apply State.anaDown_kept | apply State.ioDown_kept | apply State.classReset_kept | apply Kept.ite | dsimp -zeta only | (extract_lets +onlyGivenNames z; first | (refine Kept.cut z ?_ ?_ <;> [subst z; (intro hz; clear_value z)]) | (refine Kept.cut2 z ?_ ?_ <;> [subst z; (intro hz; clear_value z)]) | (have hz : State → _ := z; clear hz; subst z) | clear_value z) | split

theorem execDomainLost_kept {q0 : List Instr} {n0 : Nat} (t : ℕ) (d : LostDomain) {s : State} (h : Kept q0 n0 s) :
    ∃ s', execDomainLost t d s = .next s' ∧ Kept q0 (max n0 t) s' := by
  refine ⟨_, rfl, ?_⟩
  have h := State.upTo_kept t h
  with_reducible repeat' first | assumption | simp -zeta only [Kept.upd] | apply State.upTo_kept | apply State.hold_kept | apply State.each_kept | apply State.outputsOff_kept | apply State.rowModes_kept | apply State.event_kept | apply State.modPwr_kept | apply State.safeDown_kept | apply State.faultN_kept | apply State.lower_kept | apply State.ioDown_kept | apply State.lo_kept | apply State.modSaf_kept | apply State.stoActive_kept | apply State.openContactors_kept | apply State.soUpdate_kept | apply State.coreDown_kept | apply State.classReset_kept | apply State.cpuClear_kept | apply State.runOk_kept | apply State.keepDrive_kept | apply State.ctlClear_kept | apply State.anaDown_kept | apply State.activateRow_kept | apply State.issue_kept | apply State.commandsDrop_kept | apply State.commClear_kept | apply State.legLoss_kept | apply foldl_kept | apply foldl2_kept | apply Kept.ite | dsimp -zeta only | (extract_lets +onlyGivenNames z; first | (refine Kept.cut z ?_ ?_ <;> [subst z; (intro hz; clear_value z)]) | (refine Kept.cut2 z ?_ ?_ <;> [subst z; (intro hz; clear_value z)]) | (have hz : State → _ := z; clear hz; subst z) | clear_value z) | (intro; intros) | split

theorem execPllLock_kept {q0 : List Instr} {n0 : Nat} (t : ℕ) (b : Bool) (boot : BootIn) {s : State} (h : Kept q0 n0 s) :
    ∃ s', execPllLock t b boot s = .next s' ∧ Kept q0 (max n0 t) s' := by
  refine ⟨_, rfl, ?_⟩
  have h := State.upTo_kept t h
  with_reducible repeat' first | assumption | simp -zeta only [Kept.upd] | apply State.boot_kept | apply State.upTo_kept | apply State.pllSet_kept | apply State.cond_kept | apply State.pllbResume_kept | apply State.runOk_kept | apply State.modPwr_kept | apply State.showPlls_kept | apply State.commWake_kept | apply State.tryBoot_kept | apply Kept.ite | dsimp -zeta only | (extract_lets +onlyGivenNames z; first | (refine Kept.cut z ?_ ?_ <;> [subst z; (intro hz; clear_value z)]) | (refine Kept.cut2 z ?_ ?_ <;> [subst z; (intro hz; clear_value z)]) | (have hz : State → _ := z; clear hz; subst z) | clear_value z) | (intro; intros) | split

theorem execPllLossOfLock_kept {q0 : List Instr} {n0 : Nat} (t : ℕ) (b : Bool) {s : State} (h : Kept q0 n0 s) :
    ∃ s', execPllLossOfLock t b s = .next s' ∧ Kept q0 (max n0 t) s' := by
  refine ⟨_, rfl, ?_⟩
  have h := State.upTo_kept t h
  with_reducible repeat' first | assumption | apply State.upTo_kept | apply State.pllSet_kept | apply State.cond_kept | apply State.hi_kept | apply State.count_kept | apply State.event_kept | apply State.activateRow_kept | apply State.pllbHalt_kept | apply State.runOk_kept | apply Kept.ite | dsimp -zeta only | (extract_lets +onlyGivenNames z; first | (refine Kept.cut z ?_ ?_ <;> [subst z; (intro hz; clear_value z)]) | (refine Kept.cut2 z ?_ ?_ <;> [subst z; (intro hz; clear_value z)]) | (have hz : State → _ := z; clear hz; subst z) | clear_value z) | (intro; intros) | split

theorem execXtalFail_kept {q0 : List Instr} {n0 : Nat} (t : ℕ) {s : State} (h : Kept q0 n0 s) :
    ∃ s', execXtalFail t s = .next s' ∧ Kept q0 (max n0 t) s' := by
  refine ⟨_, rfl, ?_⟩
  have h := State.upTo_kept t h
  with_reducible repeat' first | assumption | simp -zeta only [Kept.upd] | apply State.upTo_kept | apply State.modPwr_kept | apply State.hi_kept | apply State.lo_kept | apply State.event_kept | apply State.runOk_kept | apply Kept.ite | dsimp -zeta only | (extract_lets +onlyGivenNames z; first | (refine Kept.cut z ?_ ?_ <;> [subst z; (intro hz; clear_value z)]) | (refine Kept.cut2 z ?_ ?_ <;> [subst z; (intro hz; clear_value z)]) | (have hz : State → _ := z; clear hz; subst z) | clear_value z) | (intro; intros) | split

theorem execRefChangeoverDone_kept {q0 : List Instr} {n0 : Nat} (t : ℕ) {s : State} (h : Kept q0 n0 s) :
    ∃ s', execRefChangeoverDone t s = .next s' ∧ Kept q0 (max n0 t) s' := by
  refine ⟨_, rfl, ?_⟩
  have h := State.upTo_kept t h
  with_reducible repeat' first | assumption | simp -zeta only [Kept.upd] | apply State.upTo_kept | apply State.modPwr_kept | apply State.hi_kept | apply State.runOk_kept | apply Kept.ite | dsimp -zeta only | (extract_lets +onlyGivenNames z; first | (refine Kept.cut z ?_ ?_ <;> [subst z; (intro hz; clear_value z)]) | (refine Kept.cut2 z ?_ ?_ <;> [subst z; (intro hz; clear_value z)]) | (have hz : State → _ := z; clear hz; subst z) | clear_value z) | (intro; intros) | split

theorem execXtal25Stable_kept {q0 : List Instr} {n0 : Nat} (t : ℕ) {s : State} (h : Kept q0 n0 s) :
    ∃ s', execXtal25Stable t s = .next s' ∧ Kept q0 (max n0 t) s' := by
  refine ⟨_, rfl, ?_⟩
  have h := State.upTo_kept t h
  with_reducible repeat' first | assumption | simp -zeta only [Kept.upd] | apply State.upTo_kept | apply State.modPwr_kept | apply State.runOk_kept | apply Kept.ite | dsimp -zeta only | (extract_lets +onlyGivenNames z; first | (refine Kept.cut z ?_ ?_ <;> [subst z; (intro hz; clear_value z)]) | (refine Kept.cut2 z ?_ ?_ <;> [subst z; (intro hz; clear_value z)]) | (have hz : State → _ := z; clear hz; subst z) | clear_value z) | (intro; intros) | split

theorem execX32CrystalFail_kept {q0 : List Instr} {n0 : Nat} (t : ℕ) {s : State} (h : Kept q0 n0 s) :
    ∃ s', execX32CrystalFail t s = .next s' ∧ Kept q0 (max n0 t) s' := by
  refine ⟨_, rfl, ?_⟩
  have h := State.upTo_kept t h
  with_reducible repeat' first | assumption | simp -zeta only [Kept.upd] | apply State.upTo_kept | apply State.modPwr_kept | dsimp -zeta only | (intro; intros)

theorem execAlarmExpire_kept {q0 : List Instr} {n0 : Nat} (t : ℕ) {s : State} (h : Kept q0 n0 s) :
    ∃ s', execAlarmExpire t s = .next s' ∧ Kept q0 (max n0 t) s' := by
  refine ⟨_, rfl, ?_⟩
  have h := State.upTo_kept t h
  with_reducible repeat' first | assumption | apply State.upTo_kept | apply State.setReg_kept | apply State.wake_kept | apply Kept.ite | dsimp -zeta only | (extract_lets +onlyGivenNames z; first | (refine Kept.cut z ?_ ?_ <;> [subst z; (intro hz; clear_value z)]) | (refine Kept.cut2 z ?_ ?_ <;> [subst z; (intro hz; clear_value z)]) | (have hz : State → _ := z; clear hz; subst z) | clear_value z) | split

theorem execCtKeeperTick_kept {q0 : List Instr} {n0 : Nat} (t : ℕ) {s : State} (h : Kept q0 n0 s) :
    ∃ s', execCtKeeperTick t s = .next s' ∧ Kept q0 (max n0 t) s' := by
  refine ⟨_, rfl, ?_⟩
  have h := State.upTo_kept t h
  with_reducible repeat' first | assumption | simp -zeta only [Kept.upd] | apply State.upTo_kept | apply State.modPwr_kept | apply Kept.ite | dsimp -zeta only | (extract_lets +onlyGivenNames z; first | (refine Kept.cut z ?_ ?_ <;> [subst z; (intro hz; clear_value z)]) | (refine Kept.cut2 z ?_ ?_ <;> [subst z; (intro hz; clear_value z)]) | (have hz : State → _ := z; clear hz; subst z) | clear_value z) | (intro; intros) | split

theorem execShutdownBistDone_kept {q0 : List Instr} {n0 : Nat} (t : ℕ) (pass : Bool) {s : State} (h : Kept q0 n0 s) :
    ∃ s', execShutdownBistDone t pass s = .next s' ∧ Kept q0 (max n0 t) s' := by
  refine ⟨_, rfl, ?_⟩
  have h := State.upTo_kept t h
  with_reducible repeat' first | assumption | simp -zeta only [Kept.upd] | apply State.pass_kept | apply State.upTo_kept | apply State.modPwr_kept | apply State.coreDown_kept | apply State.bistFailed_kept | apply Kept.ite | dsimp -zeta only | (extract_lets +onlyGivenNames z; first | (refine Kept.cut z ?_ ?_ <;> [subst z; (intro hz; clear_value z)]) | (refine Kept.cut2 z ?_ ?_ <;> [subst z; (intro hz; clear_value z)]) | (have hz : State → _ := z; clear hz; subst z) | clear_value z) | (intro; intros) | split

theorem execLossSatClear_kept {q0 : List Instr} {n0 : Nat} (t : ℕ) {s : State} (h : Kept q0 n0 s) :
    ∃ s', execLossSatClear t s = .next s' ∧ Kept q0 (max n0 t) s' := by
  refine ⟨_, rfl, ?_⟩
  have h := State.upTo_kept t h
  with_reducible repeat' first | assumption | apply State.upTo_kept | apply State.clearBit_kept | apply State.wr_kept | apply Kept.ite | dsimp -zeta only | (extract_lets +onlyGivenNames z; first | (refine Kept.cut z ?_ ?_ <;> [subst z; (intro hz; clear_value z)]) | (refine Kept.cut2 z ?_ ?_ <;> [subst z; (intro hz; clear_value z)]) | (have hz : State → _ := z; clear hz; subst z) | clear_value z) | split

theorem execBootComplete_kept {q0 : List Instr} {n0 : Nat} (t : ℕ) {s : State} (h : Kept q0 n0 s) :
    ∃ s', execBootComplete t s = .next s' ∧ Kept q0 (max n0 t) s' := by
  refine ⟨_, rfl, ?_⟩
  have h := State.upTo_kept t h
  with_reducible repeat' first | assumption | apply State.wake_kept | apply State.upTo_kept | apply State.boot_kept | apply State.bootDone_kept | apply Kept.ite | dsimp -zeta only | (extract_lets +onlyGivenNames z; first | (refine Kept.cut z ?_ ?_ <;> [subst z; (intro hz; clear_value z)]) | (refine Kept.cut2 z ?_ ?_ <;> [subst z; (intro hz; clear_value z)]) | (have hz : State → _ := z; clear hz; subst z) | clear_value z) | split

theorem execIdleTimeout_kept {q0 : List Instr} {n0 : Nat} (t : ℕ) {s : State} (h : Kept q0 n0 s) :
    ∃ s', execIdleTimeout t s = .next s' ∧ Kept q0 (max n0 t) s' := by
  refine ⟨_, rfl, ?_⟩
  have h := State.upTo_kept t h
  with_reducible repeat' first | assumption | simp -zeta only [Kept.upd] | apply State.release_kept | apply State.upTo_kept | apply State.event_kept | apply State.enterWatch_kept | apply Kept.ite | dsimp -zeta only | (extract_lets +onlyGivenNames z; first | (refine Kept.cut z ?_ ?_ <;> [subst z; (intro hz; clear_value z)]) | (refine Kept.cut2 z ?_ ?_ <;> [subst z; (intro hz; clear_value z)]) | (have hz : State → _ := z; clear hz; subst z) | clear_value z) | (intro; intros) | split

end Sys2Proof.Machine
end

