-- ==== Sys2Proof/Laws/KeptRegRead.lean ====
section
/-!
SUPPORT. What the operations of Machine/RegRead keep: the queue, the clock and the form of the stores.
-/

namespace Sys2Proof.Machine

theorem State.modHif_kept {q0 : List Instr} {n0 : Nat} {s : State} (f : HostIf → HostIf) (h : Kept q0 n0 s) : Kept q0 n0 (State.modHif s f) := by
  unfold State.modHif
  with_reducible repeat' first | assumption | simp -zeta only [Kept.upd] | apply Kept.ite | split

theorem State.frozenRead_kept {q0 : List Instr} {n0 : Nat} {s : State} (who : ℕ) (off : ℕ) (h : Kept q0 n0 s) : Kept q0 n0 (State.frozenRead s who off).2 := by
  unfold State.frozenRead
  with_reducible repeat' first | assumption | simp -zeta only [Kept.upd] | apply State.modHif_kept | apply Kept.ite | dsimp -zeta only | (extract_lets +onlyGivenNames z; first | (refine Kept.cut z ?_ ?_ <;> [subst z; (intro hz; clear_value z)]) | (refine Kept.cut2 z ?_ ?_ <;> [subst z; (intro hz; clear_value z)]) | (have hz : State → _ := z; clear hz; subst z) | clear_value z) | (intro; intros) | split

theorem State.apertureRead_kept {q0 : List Instr} {n0 : Nat} {s : State} (who : ℕ) (slot : ℕ) (word : ℕ) (h : Kept q0 n0 s) : Kept q0 n0 (State.apertureRead s who slot word).2 := by
  unfold State.apertureRead
  with_reducible repeat' first | assumption | simp -zeta only [Kept.upd] | apply State.modHif_kept | apply Kept.ite | dsimp -zeta only | (extract_lets +onlyGivenNames z; first | (refine Kept.cut z ?_ ?_ <;> [subst z; (intro hz; clear_value z)]) | (refine Kept.cut2 z ?_ ?_ <;> [subst z; (intro hz; clear_value z)]) | (have hz : State → _ := z; clear hz; subst z) | clear_value z) | (intro; intros) | split

theorem State.readReg_kept {q0 : List Instr} {n0 : Nat} {s : State} (who : ℕ) (off : ℕ) (e : optParam Ecc Ecc.ok) (h : Kept q0 n0 s) : Kept q0 n0 (State.readReg s who off e).2 := by
  unfold State.readReg
  with_reducible repeat' first | assumption | apply State.effect_kept | apply State.apertureRead_kept | apply State.memWindow_kept | apply State.frozenRead_kept | apply Kept.ite | dsimp -zeta only | (extract_lets +onlyGivenNames z; first | (refine Kept.cut z ?_ ?_ <;> [subst z; (intro hz; clear_value z)]) | (refine Kept.cut2 z ?_ ?_ <;> [subst z; (intro hz; clear_value z)]) | (have hz : State → _ := z; clear hz; subst z) | clear_value z) | split

theorem State.readOut_kept {q0 : List Instr} {n0 : Nat} {s : State} (who : ℕ) (off : ℕ) (e : optParam Ecc Ecc.ok) (h : Kept q0 n0 s) : Kept q0 n0 (State.readOut s who off e) := by
  unfold State.readOut
  with_reducible repeat' first | assumption | apply State.readReg_kept | apply State.emit_kept | dsimp -zeta only | (extract_lets +onlyGivenNames z; first | (refine Kept.cut z ?_ ?_ <;> [subst z; (intro hz; clear_value z)]) | (refine Kept.cut2 z ?_ ?_ <;> [subst z; (intro hz; clear_value z)]) | (have hz : State → _ := z; clear hz; subst z) | clear_value z)

theorem execSplitLoRead_kept {q0 : List Instr} {n0 : Nat} (t : ℕ) (who : Reader) (bar2 : Bool) (off : BitVec 21) {s : State} (e : optParam Ecc Ecc.ok) (h : Kept q0 n0 s) :
    ∃ s', execSplitLoRead t who bar2 off s e = .next s' ∧ Kept q0 (max n0 t) s' := by
  refine ⟨_, rfl, ?_⟩
  have h := State.upTo_kept t h
  with_reducible repeat' first | assumption | apply State.upTo_kept | apply State.emit_kept | apply State.readOut_kept | apply Kept.ite | dsimp -zeta only | (extract_lets +onlyGivenNames z; first | (refine Kept.cut z ?_ ?_ <;> [subst z; (intro hz; clear_value z)]) | (refine Kept.cut2 z ?_ ?_ <;> [subst z; (intro hz; clear_value z)]) | (have hz : State → _ := z; clear hz; subst z) | clear_value z) | split

theorem execJournalApertureRead_kept {q0 : List Instr} {n0 : Nat} (t : ℕ) (who : Reader) (slot : ℕ) {s : State} (h : Kept q0 n0 s) :
    ∃ s', execJournalApertureRead t who slot s = .next s' ∧ Kept q0 (max n0 t) s' := by
  refine ⟨_, rfl, ?_⟩
  have h := State.upTo_kept t h
  with_reducible repeat' first | assumption | apply State.upTo_kept | apply State.readOut_kept | dsimp -zeta only

theorem execJournalHeadRead_kept {q0 : List Instr} {n0 : Nat} (t : ℕ) (who : Reader) {s : State} (h : Kept q0 n0 s) :
    ∃ s', execJournalHeadRead t who s = .next s' ∧ Kept q0 (max n0 t) s' := by
  refine ⟨_, rfl, ?_⟩
  have h := State.upTo_kept t h
  with_reducible repeat' first | assumption | apply State.upTo_kept | apply State.readOut_kept | dsimp -zeta only

end Sys2Proof.Machine
end

