-- ==== Sys2Proof/Laws/KeptSecRows.lean ====
section
/-!
SUPPORT. What the operations of Machine/SecRows keep: the queue, the clock and the form of the stores.
-/

namespace Sys2Proof.Machine

theorem State.modCpu_kept {q0 : List Instr} {n0 : Nat} {s : State} (f : Cores → Cores) (h : Kept q0 n0 s) : Kept q0 n0 (State.modCpu s f) := by
  unfold State.modCpu
  with_reducible repeat' first | assumption | simp -zeta only [Kept.upd]

theorem State.debugRefused_kept {q0 : List Instr} {n0 : Nat} {s : State} (cause : ℕ) (h : Kept q0 n0 s) : Kept q0 n0 (State.debugRefused s cause) := by
  unfold State.debugRefused
  with_reducible repeat' first | assumption | apply State.wr_kept | apply State.cond_kept | apply State.hi_kept | apply State.event_kept | dsimp -zeta only | (extract_lets +onlyGivenNames z; first | (refine Kept.cut z ?_ ?_ <;> [subst z; (intro hz; clear_value z)]) | (refine Kept.cut2 z ?_ ?_ <;> [subst z; (intro hz; clear_value z)]) | (have hz : State → _ := z; clear hz; subst z) | clear_value z) | (intro; intros)

theorem execRecoveryGo_kept {q0 : List Instr} {n0 : Nat} (t : ℕ) (boot : BootIn) {s : State} (h : Kept q0 n0 s) :
    ∃ s', execRecoveryGo t boot s = .next s' ∧ Kept q0 (max n0 t) s' := by
  refine ⟨_, rfl, ?_⟩
  have h := State.upTo_kept t h
  with_reducible repeat' first | assumption | apply State.pass_kept | apply step_kept | apply State.boot_kept | apply State.upTo_kept | apply State.wr_kept | apply State.loadImage_kept | apply State.bootEvent_kept | apply State.finishRestart_kept | apply State.finishBoot_kept | apply Kept.ite | dsimp -zeta only | (extract_lets +onlyGivenNames z; first | (refine Kept.cut z ?_ ?_ <;> [subst z; (intro hz; clear_value z)]) | (refine Kept.cut2 z ?_ ?_ <;> [subst z; (intro hz; clear_value z)]) | (have hz : State → _ := z; clear hz; subst z) | clear_value z) | split

theorem execRestart_kept {q0 : List Instr} {n0 : Nat} (t : ℕ) (split : List ℕ) {s : State} (h : Kept q0 n0 s) :
    ∃ s', execRestart t split s = .next s' ∧ Kept q0 (max n0 t) s' := by
  refine ⟨_, rfl, ?_⟩
  have h := State.upTo_kept t h
  with_reducible repeat' first | assumption | simp -zeta only [Kept.upd] | apply State.upTo_kept | apply State.hi_kept | apply State.each_kept | apply State.setOpen_kept | apply State.modCpu_kept | apply State.setReg_kept | apply State.imageStep_kept | apply State.finishRestart_kept | apply State.modSec_kept | apply State.wr_kept | apply State.awaitRecovery_kept | apply foldl_kept | apply foldl2_kept | apply Kept.ite | dsimp -zeta only | (extract_lets +onlyGivenNames z; first | (refine Kept.cut z ?_ ?_ <;> [subst z; (intro hz; clear_value z)]) | (refine Kept.cut2 z ?_ ?_ <;> [subst z; (intro hz; clear_value z)]) | (have hz : State → _ := z; clear hz; subst z) | clear_value z) | (intro; intros) | split

theorem execDebugChallengeRead_kept {q0 : List Instr} {n0 : Nat} (t : ℕ) {s : State} (h : Kept q0 n0 s) :
    ∃ s', execDebugChallengeRead t s = .next s' ∧ Kept q0 (max n0 t) s' := by
  refine ⟨_, rfl, ?_⟩
  have h := State.upTo_kept t h
  with_reducible repeat' first | assumption | simp -zeta only [Kept.upd] | apply State.each_kept | apply State.upTo_kept | apply State.nextFree_kept | apply State.modSec_kept | apply State.emit_kept | apply foldl_kept | apply foldl2_kept | apply Kept.ite | dsimp -zeta only | (extract_lets +onlyGivenNames z; first | (refine Kept.cut z ?_ ?_ <;> [subst z; (intro hz; clear_value z)]) | (refine Kept.cut2 z ?_ ?_ <;> [subst z; (intro hz; clear_value z)]) | (have hz : State → _ := z; clear hz; subst z) | clear_value z) | (intro; intros) | split

theorem execDebugResponse_kept {q0 : List Instr} {n0 : Nat} (t : ℕ) (bytes : List Byte) (split : Bool) {s : State} (h : Kept q0 n0 s) :
    ∃ s', execDebugResponse t bytes split s = .next s' ∧ Kept q0 (max n0 t) s' := by
  refine ⟨_, rfl, ?_⟩
  have h := State.upTo_kept t h
  with_reducible repeat' first | assumption | apply State.upTo_kept | apply State.debugRefused_kept | apply State.hi_kept | apply State.wrB_kept | apply State.wr_kept | apply State.journalModule_kept | apply State.event_kept | apply Kept.ite | dsimp -zeta only | (extract_lets +onlyGivenNames z; first | (refine Kept.cut z ?_ ?_ <;> [subst z; (intro hz; clear_value z)]) | (refine Kept.cut2 z ?_ ?_ <;> [subst z; (intro hz; clear_value z)]) | (have hz : State → _ := z; clear hz; subst z) | clear_value z) | split

theorem execBoundaryScanInstruction_kept {q0 : List Instr} {n0 : Nat} (t : ℕ) (i : ScanIns) {s : State} (h : Kept q0 n0 s) :
    ∃ s', execBoundaryScanInstruction t i s = .next s' ∧ Kept q0 (max n0 t) s' := by
  refine ⟨_, rfl, ?_⟩
  have h := State.upTo_kept t h
  with_reducible repeat' first | assumption | simp -zeta only [Kept.upd] | apply State.upTo_kept | apply Kept.ite | dsimp -zeta only | (extract_lets +onlyGivenNames z; first | (refine Kept.cut z ?_ ?_ <;> [subst z; (intro hz; clear_value z)]) | (refine Kept.cut2 z ?_ ?_ <;> [subst z; (intro hz; clear_value z)]) | (have hz : State → _ := z; clear hz; subst z) | clear_value z) | split

end Sys2Proof.Machine
end

