-- ==== Sys2Proof/Laws/KeptHostRings.lean ====
section
/-!
SUPPORT. What the operations of Machine/HostRings keep: the queue, the clock and the form of the stores.
-/

namespace Sys2Proof.Machine

theorem State.ringError_kept {q0 : List Instr} {n0 : Nat} {s : State} (r : ℕ) (cause : ℕ) (h : Kept q0 n0 s) : Kept q0 n0 (State.ringError s r cause) := by
  unfold State.ringError
  with_reducible repeat' first | assumption | apply State.lo_kept | apply State.hi_kept | apply State.cond_kept | apply State.event_kept | dsimp -zeta only | (extract_lets +onlyGivenNames z; first | (refine Kept.cut z ?_ ?_ <;> [subst z; (intro hz; clear_value z)]) | (refine Kept.cut2 z ?_ ?_ <;> [subst z; (intro hz; clear_value z)]) | (have hz : State → _ := z; clear hz; subst z) | clear_value z) | (intro; intros)

theorem State.doorbell_kept {q0 : List Instr} {n0 : Nat} {s : State} (r : ℕ) (d : ℕ) (h : Kept q0 n0 s) : Kept q0 n0 (State.doorbell s r d) := by
  unfold State.doorbell
  with_reducible repeat' first | assumption | simp -zeta only [Kept.upd] | apply State.hi_kept | apply State.modHif_kept | apply State.wr_kept | apply State.ringError_kept | apply Kept.ite | dsimp -zeta only | (extract_lets +onlyGivenNames z; first | (refine Kept.cut z ?_ ?_ <;> [subst z; (intro hz; clear_value z)]) | (refine Kept.cut2 z ?_ ?_ <;> [subst z; (intro hz; clear_value z)]) | (have hz : State → _ := z; clear hz; subst z) | clear_value z) | (intro; intros) | split

theorem State.ringConfig_kept {q0 : List Instr} {n0 : Nat} {s : State} (r : ℕ) (data : BitVec 32) (h : Kept q0 n0 s) : Kept q0 n0 (State.ringConfig s r data) := by
  unfold State.ringConfig
  with_reducible repeat' first | assumption | simp -zeta only [Kept.upd] | apply State.setReg_kept | apply State.hi_kept | apply State.lo_kept | apply State.modHif_kept | apply State.ringError_kept | apply Kept.ite | dsimp -zeta only | (extract_lets +onlyGivenNames z; first | (refine Kept.cut z ?_ ?_ <;> [subst z; (intro hz; clear_value z)]) | (refine Kept.cut2 z ?_ ?_ <;> [subst z; (intro hz; clear_value z)]) | (have hz : State → _ := z; clear hz; subst z) | clear_value z) | (intro; intros) | split

theorem State.modStr_kept {q0 : List Instr} {n0 : Nat} {s : State} (k : ℕ) (f : Stream → Stream) (h : Kept q0 n0 s) : Kept q0 n0 (State.modStr s k f) := by
  unfold State.modStr
  with_reducible repeat' first | assumption | simp -zeta only [Kept.upd] | apply State.modHif_kept | apply Kept.ite | dsimp -zeta only | (intro; intros) | split

theorem State.writeTlm_kept {q0 : List Instr} {n0 : Nat} {s : State} (k : ℕ) (capCt : ℕ) (vf : ℕ) (vals : List (BitVec 32)) (beat : Bool) (h : Kept q0 n0 s) : Kept q0 n0 (State.writeTlm s k capCt vf vals beat) := by
  unfold State.writeTlm
  with_reducible repeat' first | assumption | simp -zeta only [Kept.upd] | apply State.cond_kept | apply State.wr_kept | apply State.writeEntry_kept | apply State.modStr_kept | apply State.raiseIrq_kept | apply State.dropRecord_kept | apply State.modHif_kept | apply Kept.ite | dsimp -zeta only | (extract_lets +onlyGivenNames z; first | (refine Kept.cut z ?_ ?_ <;> [subst z; (intro hz; clear_value z)]) | (refine Kept.cut2 z ?_ ?_ <;> [subst z; (intro hz; clear_value z)]) | (have hz : State → _ := z; clear hz; subst z) | clear_value z) | (intro; intros) | split

theorem State.linkReset_kept {q0 : List Instr} {n0 : Nat} {s : State} (f : Fld) (code : ℕ) (h : Kept q0 n0 s) : Kept q0 n0 (State.linkReset s f code) := by
  unfold State.linkReset
  with_reducible repeat' first | assumption | simp -zeta only [Kept.upd] | apply State.classReset_kept | apply State.hi_kept | apply State.modHif_kept | apply State.abandonCopies_kept | apply Kept.ite | dsimp -zeta only | (extract_lets +onlyGivenNames z; first | (refine Kept.cut z ?_ ?_ <;> [subst z; (intro hz; clear_value z)]) | (refine Kept.cut2 z ?_ ?_ <;> [subst z; (intro hz; clear_value z)]) | (have hz : State → _ := z; clear hz; subst z) | clear_value z) | (intro; intros) | split

theorem State.drainEvents_kept {q0 : List Instr} {n0 : Nat} (k : ℕ) {s : State} (h : Kept q0 n0 s) :
    Kept q0 n0 (State.drainEvents k s) := by
  induction k generalizing s with
  | zero => exact h
  | succ k ih =>
    unfold State.drainEvents
    split
    · exact h
    · split
      · exact ih (State.writeEvent_kept _ _ (State.modHif_kept _ h))
      · exact h

theorem execDoorbell_kept {q0 : List Instr} {n0 : Nat} (t : ℕ) (r : Fin 11) (idx : BitVec 16) {s : State} (h : Kept q0 n0 s) :
    ∃ s', execDoorbell t r idx s = .next s' ∧ Kept q0 (max n0 t) s' := by
  refine ⟨_, rfl, ?_⟩
  have h := State.upTo_kept t h
  with_reducible repeat' first | assumption | apply State.doorbell_kept | apply State.upTo_kept | dsimp -zeta only

theorem execRingEnable_kept {q0 : List Instr} {n0 : Nat} (t : ℕ) (r : Fin 11) (data : Word) {s : State} (h : Kept q0 n0 s) :
    ∃ s', execRingEnable t r data s = .next s' ∧ Kept q0 (max n0 t) s' := by
  refine ⟨_, rfl, ?_⟩
  have h := State.upTo_kept t h
  with_reducible repeat' first | assumption | apply State.upTo_kept | apply State.hi_kept | apply State.ringConfig_kept | apply Kept.ite | dsimp -zeta only | (extract_lets +onlyGivenNames z; first | (refine Kept.cut z ?_ ?_ <;> [subst z; (intro hz; clear_value z)]) | (refine Kept.cut2 z ?_ ?_ <;> [subst z; (intro hz; clear_value z)]) | (have hz : State → _ := z; clear hz; subst z) | clear_value z) | split

theorem execDescriptorFetch_kept {q0 : List Instr} {n0 : Nat} (t : ℕ) (r : Fin 4) (bytes : List Byte) {s : State} (h : Kept q0 n0 s) :
    ∃ s', execDescriptorFetch t r bytes s = .next s' ∧ Kept q0 (max n0 t) s' := by
  refine ⟨_, rfl, ?_⟩
  have h := State.upTo_kept t h
  with_reducible repeat' first | assumption | apply State.upTo_kept | apply State.wr_kept | apply State.setOpen_kept | apply State.capture_kept | apply State.writeShadow_kept | apply Kept.ite | dsimp -zeta only | (extract_lets +onlyGivenNames z; first | (refine Kept.cut z ?_ ?_ <;> [subst z; (intro hz; clear_value z)]) | (refine Kept.cut2 z ?_ ?_ <;> [subst z; (intro hz; clear_value z)]) | (have hz : State → _ := z; clear hz; subst z) | clear_value z) | split

theorem execTlmHeartbeat_kept {q0 : List Instr} {n0 : Nat} (t : ℕ) (k : Fin 2) {s : State} (h : Kept q0 n0 s) :
    ∃ s', execTlmHeartbeat t k s = .next s' ∧ Kept q0 (max n0 t) s' := by
  refine ⟨_, rfl, ?_⟩
  have h := State.upTo_kept t h
  with_reducible repeat' first | assumption | apply State.upTo_kept | apply State.writeTlm_kept | apply Kept.ite | dsimp -zeta only | (extract_lets +onlyGivenNames z; first | (refine Kept.cut z ?_ ?_ <;> [subst z; (intro hz; clear_value z)]) | (refine Kept.cut2 z ?_ ?_ <;> [subst z; (intro hz; clear_value z)]) | (have hz : State → _ := z; clear hz; subst z) | clear_value z) | split

theorem execEventBacklogWrite_kept {q0 : List Instr} {n0 : Nat} (t : ℕ) {s : State} (h : Kept q0 n0 s) :
    ∃ s', execEventBacklogWrite t s = .next s' ∧ Kept q0 (max n0 t) s' := by
  refine ⟨_, rfl, ?_⟩
  have h := State.upTo_kept t h
  with_reducible repeat' first | assumption | simp -zeta only [Kept.upd] | apply State.upTo_kept | apply State.drainEvents_kept | apply State.modHif_kept | apply State.event_kept | apply foldl_kept | apply foldl2_kept | apply Kept.ite | dsimp -zeta only | (extract_lets +onlyGivenNames z; first | (refine Kept.cut z ?_ ?_ <;> [subst z; (intro hz; clear_value z)]) | (refine Kept.cut2 z ?_ ?_ <;> [subst z; (intro hz; clear_value z)]) | (have hz : State → _ := z; clear hz; subst z) | clear_value z) | (intro; intros) | split

theorem execIrqHoldExpire_kept {q0 : List Instr} {n0 : Nat} (t : ℕ) (v : Fin 32) {s : State} (h : Kept q0 n0 s) :
    ∃ s', execIrqHoldExpire t v s = .next s' ∧ Kept q0 (max n0 t) s' := by
  refine ⟨_, rfl, ?_⟩
  have h := State.upTo_kept t h
  with_reducible repeat' first | assumption | simp -zeta only [Kept.upd] | apply State.upTo_kept | apply State.sendIrq_kept | apply State.each_kept | apply State.modHif_kept | apply Kept.ite | dsimp -zeta only | (extract_lets +onlyGivenNames z; first | (refine Kept.cut z ?_ ?_ <;> [subst z; (intro hz; clear_value z)]) | (refine Kept.cut2 z ?_ ?_ <;> [subst z; (intro hz; clear_value z)]) | (have hz : State → _ := z; clear hz; subst z) | clear_value z) | (intro; intros) | split

theorem execHostWatchdogExpire_kept {q0 : List Instr} {n0 : Nat} (t : ℕ) {s : State} (h : Kept q0 n0 s) :
    ∃ s', execHostWatchdogExpire t s = .next s' ∧ Kept q0 (max n0 t) s' := by
  refine ⟨_, rfl, ?_⟩
  have h := State.upTo_kept t h
  with_reducible repeat' first | assumption | simp -zeta only [Kept.upd] | apply State.doorbell_kept | apply State.upTo_kept | apply State.hi_kept | apply State.modHif_kept | apply State.event_kept | apply State.activateFor_kept | apply Kept.ite | dsimp -zeta only | (extract_lets +onlyGivenNames z; first | (refine Kept.cut z ?_ ?_ <;> [subst z; (intro hz; clear_value z)]) | (refine Kept.cut2 z ?_ ?_ <;> [subst z; (intro hz; clear_value z)]) | (have hz : State → _ := z; clear hz; subst z) | clear_value z) | (intro; intros) | split

theorem execHotReset_kept {q0 : List Instr} {n0 : Nat} (t : ℕ) {s : State} (h : Kept q0 n0 s) :
    ∃ s', execHotReset t s = .next s' ∧ Kept q0 (max n0 t) s' := by
  refine ⟨_, rfl, ?_⟩
  have h := State.upTo_kept t h
  with_reducible repeat' first | assumption | apply State.upTo_kept | apply State.linkReset_kept | apply Kept.ite | dsimp -zeta only | (extract_lets +onlyGivenNames z; first | (refine Kept.cut z ?_ ?_ <;> [subst z; (intro hz; clear_value z)]) | (refine Kept.cut2 z ?_ ?_ <;> [subst z; (intro hz; clear_value z)]) | (have hz : State → _ := z; clear hz; subst z) | clear_value z) | split

theorem execLinkLoss_kept {q0 : List Instr} {n0 : Nat} (t : ℕ) (perst : Bool) {s : State} (h : Kept q0 n0 s) :
    ∃ s', execLinkLoss t perst s = .next s' ∧ Kept q0 (max n0 t) s' := by
  refine ⟨_, rfl, ?_⟩
  have h := State.upTo_kept t h
  with_reducible repeat' first | assumption | simp -zeta only [Kept.upd] | apply State.upTo_kept | apply State.cond_kept | apply State.linkReset_kept | apply Kept.ite | dsimp -zeta only | (extract_lets +onlyGivenNames z; first | (refine Kept.cut z ?_ ?_ <;> [subst z; (intro hz; clear_value z)]) | (refine Kept.cut2 z ?_ ?_ <;> [subst z; (intro hz; clear_value z)]) | (have hz : State → _ := z; clear hz; subst z) | clear_value z) | (intro; intros) | split

theorem execDmaError_kept {q0 : List Instr} {n0 : Nat} (t : ℕ) (r : Fin 11) {s : State} (h : Kept q0 n0 s) :
    ∃ s', execDmaError t r s = .next s' ∧ Kept q0 (max n0 t) s' := by
  refine ⟨_, rfl, ?_⟩
  have h := State.upTo_kept t h
  with_reducible repeat' first | assumption | simp -zeta only [Kept.upd] | apply State.upTo_kept | apply State.ringError_kept | apply State.modHif_kept | apply State.capture_kept | apply Kept.ite | dsimp -zeta only | (extract_lets +onlyGivenNames z; first | (refine Kept.cut z ?_ ?_ <;> [subst z; (intro hz; clear_value z)]) | (refine Kept.cut2 z ?_ ?_ <;> [subst z; (intro hz; clear_value z)]) | (have hz : State → _ := z; clear hz; subst z) | clear_value z) | (intro; intros) | split

theorem execHifRcntSatClear_kept {q0 : List Instr} {n0 : Nat} (t : ℕ) (r : Fin 11) {s : State} (h : Kept q0 n0 s) :
    ∃ s', execHifRcntSatClear t r s = .next s' ∧ Kept q0 (max n0 t) s' := by
  refine ⟨_, rfl, ?_⟩
  have h := State.upTo_kept t h
  with_reducible repeat' first | assumption | apply State.upTo_kept | apply State.hi_kept | apply State.clearCounts_kept | apply Kept.ite | dsimp -zeta only | (extract_lets +onlyGivenNames z; first | (refine Kept.cut z ?_ ?_ <;> [subst z; (intro hz; clear_value z)]) | (refine Kept.cut2 z ?_ ?_ <;> [subst z; (intro hz; clear_value z)]) | (have hz : State → _ := z; clear hz; subst z) | clear_value z) | split

theorem execPcieLinkUp_kept {q0 : List Instr} {n0 : Nat} (t : ℕ) {s : State} (cfg : optParam PcieCfg { }) (h : Kept q0 n0 s) :
    ∃ s', execPcieLinkUp t s cfg = .next s' ∧ Kept q0 (max n0 t) s' := by
  refine ⟨_, rfl, ?_⟩
  have h := State.upTo_kept t h
  with_reducible repeat' first | assumption | simp -zeta only [Kept.upd] | apply State.upTo_kept | apply State.hi_kept | apply State.modHif_kept | apply State.each_kept | apply State.lo_kept | apply State.emit_kept | apply Kept.ite | dsimp -zeta only | (extract_lets +onlyGivenNames z; first | (refine Kept.cut z ?_ ?_ <;> [subst z; (intro hz; clear_value z)]) | (refine Kept.cut2 z ?_ ?_ <;> [subst z; (intro hz; clear_value z)]) | (have hz : State → _ := z; clear hz; subst z) | clear_value z) | (intro; intros) | split

end Sys2Proof.Machine
end

