-- ==== Sys2Proof/Laws/KeptCan.lean ====
section
/-!
SUPPORT. What the operations of Machine/Can keep: the queue, the clock and the form of the stores.
-/

namespace Sys2Proof.Machine

theorem State.putCanObj_kept {q0 : List Instr} {n0 : Nat} {s : State} (n : ℕ) (k : ℕ) (o : CanObj) (h : Kept q0 n0 s) : Kept q0 n0 (State.putCanObj s n k o) := by
  unfold State.putCanObj
  with_reducible repeat' first | assumption | simp -zeta only [Kept.upd] | apply State.modCan_kept | dsimp -zeta only | (intro; intros)

theorem State.canLeaveInit_kept {q0 : List Instr} {n0 : Nat} {s : State} (n : ℕ) (c : Option Cmd) (h : Kept q0 n0 s) : Kept q0 n0 (State.canLeaveInit s n c) := by
  unfold State.canLeaveInit
  with_reducible repeat' first | assumption | simp -zeta only [Kept.upd] | apply State.lo_kept | apply State.setReg_kept | apply State.wr_kept | apply State.modCan_kept | apply State.canClock_kept | dsimp -zeta only | (extract_lets +onlyGivenNames z; first | (refine Kept.cut z ?_ ?_ <;> [subst z; (intro hz; clear_value z)]) | (refine Kept.cut2 z ?_ ?_ <;> [subst z; (intro hz; clear_value z)]) | (have hz : State → _ := z; clear hz; subst z) | clear_value z) | (intro; intros)

theorem State.canCounters_kept {q0 : List Instr} {n0 : Nat} {s : State} (n : ℕ) (tec : ℕ) (rec_ : ℕ) (h : Kept q0 n0 s) : Kept q0 n0 (State.canCounters s n tec rec_) := by
  unfold State.canCounters
  with_reducible repeat' first | assumption | simp -zeta only [Kept.upd] | apply State.wr_kept | apply State.wrB_kept | apply State.cond_kept | apply State.event_kept | apply State.canFail_kept | apply State.modCan_kept | apply foldl_kept | apply foldl2_kept | apply Kept.ite | dsimp -zeta only | (extract_lets +onlyGivenNames z; first | (refine Kept.cut z ?_ ?_ <;> [subst z; (intro hz; clear_value z)]) | (refine Kept.cut2 z ?_ ?_ <;> [subst z; (intro hz; clear_value z)]) | (have hz : State → _ := z; clear hz; subst z) | clear_value z) | (intro; intros) | split

theorem State.canFrameEnd_kept {q0 : List Instr} {n0 : Nat} {s : State} (n : ℕ) (h : Kept q0 n0 s) : Kept q0 n0 (State.canFrameEnd s n) := by
  unfold State.canFrameEnd
  with_reducible repeat' first | assumption | apply State.effect_kept | apply State.cond_kept | apply State.canInit_kept | dsimp -zeta only | (intro; intros)

theorem execCanFrameReceive_kept {q0 : List Instr} {n0 : Nat} (t : ℕ) (n : Fin 2) (f : CanFrame) (sof : ℕ) (err : BitVec 8) {s : State} (h : Kept q0 n0 s) :
    ∃ s', execCanFrameReceive t n f sof err s = .next s' ∧ Kept q0 (max n0 t) s' := by
  refine ⟨_, rfl, ?_⟩
  have h := State.upTo_kept t h
  with_reducible repeat' first | assumption | simp -zeta only [Kept.upd] | apply State.upTo_kept | apply State.canCounters_kept | apply State.canFrameEnd_kept | apply State.count_kept | apply State.cond_kept | apply State.event_kept | apply State.putCanObj_kept | apply State.capture_kept | simp -zeta only [id] | apply Kept.ite | dsimp -zeta only | (extract_lets +onlyGivenNames z; first | (refine Kept.cut z ?_ ?_ <;> [subst z; (intro hz; clear_value z)]) | (refine Kept.cut2 z ?_ ?_ <;> [subst z; (intro hz; clear_value z)]) | (have hz : State → _ := z; clear hz; subst z) | clear_value z) | (intro; intros) | split

theorem execCanTransmitEnd_kept {q0 : List Instr} {n0 : Nat} (t : ℕ) (n : Fin 2) (obj : Fin 128) (e : CanEnd) (sof : ℕ) (esi : Bool) (delay : Option ℕ) (tec : ℕ) {s : State} (h : Kept q0 n0 s) :
    ∃ s', execCanTransmitEnd t n obj e sof esi delay tec s = .next s' ∧ Kept q0 (max n0 t) s' := by
  refine ⟨_, rfl, ?_⟩
  have h := State.upTo_kept t h
  with_reducible repeat' first | assumption | simp -zeta only [Kept.upd] | apply State.upTo_kept | apply State.wr_kept | apply State.cond_kept | apply State.hi_kept | apply State.done_kept | apply State.putCanObj_kept | apply State.modCan_kept | apply State.canOwnBit_kept | apply State.complete_kept | apply State.canFail_kept | apply State.event_kept | apply State.canCounters_kept | apply State.canFrameEnd_kept | apply Kept.ite | dsimp -zeta only | (extract_lets +onlyGivenNames z; first | (refine Kept.cut z ?_ ?_ <;> [subst z; (intro hz; clear_value z)]) | (refine Kept.cut2 z ?_ ?_ <;> [subst z; (intro hz; clear_value z)]) | (have hz : State → _ := z; clear hz; subst z) | clear_value z) | (intro; intros) | split

theorem execCanTxTimeout_kept {q0 : List Instr} {n0 : Nat} (t : ℕ) (n : Fin 2) (obj : Fin 128) {s : State} (h : Kept q0 n0 s) :
    ∃ s', execCanTxTimeout t n obj s = .next s' ∧ Kept q0 (max n0 t) s' := by
  refine ⟨_, rfl, ?_⟩
  have h := State.upTo_kept t h
  with_reducible repeat' first | assumption | simp -zeta only [Kept.upd] | apply State.upTo_kept | apply State.canFail_kept | apply State.event_kept | apply Kept.ite | dsimp -zeta only | (extract_lets +onlyGivenNames z; first | (refine Kept.cut z ?_ ?_ <;> [subst z; (intro hz; clear_value z)]) | (refine Kept.cut2 z ?_ ?_ <;> [subst z; (intro hz; clear_value z)]) | (have hz : State → _ := z; clear hz; subst z) | clear_value z) | (intro; intros) | split

theorem execCanBusError_kept {q0 : List Instr} {n0 : Nat} (t : ℕ) (n : Fin 2) (lec : Fin 7) (dataPhase : Bool) (tec : ℕ) (err : ℕ) {s : State} (h : Kept q0 n0 s) :
    ∃ s', execCanBusError t n lec dataPhase tec err s = .next s' ∧ Kept q0 (max n0 t) s' := by
  refine ⟨_, rfl, ?_⟩
  have h := State.upTo_kept t h
  with_reducible repeat' first | assumption | apply State.upTo_kept | apply State.wr_kept | apply State.canCounters_kept | apply State.canFrameEnd_kept | apply Kept.ite | dsimp -zeta only | (extract_lets +onlyGivenNames z; first | (refine Kept.cut z ?_ ?_ <;> [subst z; (intro hz; clear_value z)]) | (refine Kept.cut2 z ?_ ?_ <;> [subst z; (intro hz; clear_value z)]) | (have hz : State → _ := z; clear hz; subst z) | clear_value z) | split

theorem execCanIntegrated_kept {q0 : List Instr} {n0 : Nat} (t : ℕ) (n : Fin 2) {s : State} (h : Kept q0 n0 s) :
    ∃ s', execCanIntegrated t n s = .next s' ∧ Kept q0 (max n0 t) s' := by
  refine ⟨_, rfl, ?_⟩
  have h := State.upTo_kept t h
  with_reducible repeat' first | assumption | simp -zeta only [Kept.upd] | apply State.upTo_kept | apply State.wr_kept | apply State.modCan_kept | apply State.complete_kept | apply Kept.ite | dsimp -zeta only | (extract_lets +onlyGivenNames z; first | (refine Kept.cut z ?_ ?_ <;> [subst z; (intro hz; clear_value z)]) | (refine Kept.cut2 z ?_ ?_ <;> [subst z; (intro hz; clear_value z)]) | (have hz : State → _ := z; clear hz; subst z) | clear_value z) | (intro; intros) | split

theorem execCanRecoveryDone_kept {q0 : List Instr} {n0 : Nat} (t : ℕ) (n : Fin 2) {s : State} (h : Kept q0 n0 s) :
    ∃ s', execCanRecoveryDone t n s = .next s' ∧ Kept q0 (max n0 t) s' := by
  refine ⟨_, rfl, ?_⟩
  have h := State.upTo_kept t h
  with_reducible repeat' first | assumption | simp -zeta only [Kept.upd] | apply State.upTo_kept | apply State.modCan_kept | apply State.setReg_kept | apply State.wr_kept | apply State.lo_kept | apply State.event_kept | apply State.complete_kept | apply Kept.ite | dsimp -zeta only | (extract_lets +onlyGivenNames z; first | (refine Kept.cut z ?_ ?_ <;> [subst z; (intro hz; clear_value z)]) | (refine Kept.cut2 z ?_ ?_ <;> [subst z; (intro hz; clear_value z)]) | (have hz : State → _ := z; clear hz; subst z) | clear_value z) | (intro; intros) | split

theorem execCanTsWrap_kept {q0 : List Instr} {n0 : Nat} (t : ℕ) {s : State} (h : Kept q0 n0 s) :
    ∃ s', execCanTsWrap t s = .next s' ∧ Kept q0 (max n0 t) s' := by
  refine ⟨_, rfl, ?_⟩
  have h := State.upTo_kept t h
  with_reducible repeat' first | assumption | apply State.upTo_kept | apply State.wr_kept | apply Kept.ite | dsimp -zeta only | (extract_lets +onlyGivenNames z; first | (refine Kept.cut z ?_ ?_ <;> [subst z; (intro hz; clear_value z)]) | (refine Kept.cut2 z ?_ ?_ <;> [subst z; (intro hz; clear_value z)]) | (have hz : State → _ := z; clear hz; subst z) | clear_value z) | split

theorem State.canSnap_kept {q0 : List Instr} {n0 : Nat} {s : State} (h : Kept q0 n0 s) : Kept q0 n0 (State.canSnap s) := by
  unfold State.canSnap
  with_reducible repeat' first | assumption | apply State.setReg_kept | apply State.wr64_kept | dsimp -zeta only | (extract_lets +onlyGivenNames z; first | (refine Kept.cut z ?_ ?_ <;> [subst z; (intro hz; clear_value z)]) | (refine Kept.cut2 z ?_ ?_ <;> [subst z; (intro hz; clear_value z)]) | (have hz : State → _ := z; clear hz; subst z) | clear_value z)

theorem execSnap_kept {q0 : List Instr} {n0 : Nat} (t : ℕ) {s : State} (h : Kept q0 n0 s) :
    ∃ s', execSnap t s = .next s' ∧ Kept q0 (max n0 t) s' := by
  refine ⟨_, rfl, ?_⟩
  have h := State.upTo_kept t h
  with_reducible repeat' first | assumption | apply State.upTo_kept | apply State.canSnap_kept | apply Kept.ite | dsimp -zeta only | (extract_lets +onlyGivenNames z; first | (refine Kept.cut z ?_ ?_ <;> [subst z; (intro hz; clear_value z)]) | (refine Kept.cut2 z ?_ ?_ <;> [subst z; (intro hz; clear_value z)]) | (have hz : State → _ := z; clear hz; subst z) | clear_value z) | split

theorem execCanCntSatClear_kept {q0 : List Instr} {n0 : Nat} (t : ℕ) (n : Fin 2) {s : State} (h : Kept q0 n0 s) :
    ∃ s', execCanCntSatClear t n s = .next s' ∧ Kept q0 (max n0 t) s' := by
  refine ⟨_, rfl, ?_⟩
  have h := State.upTo_kept t h
  with_reducible repeat' first | assumption | apply State.upTo_kept | apply State.clearCounts_kept | apply Kept.ite | dsimp -zeta only | (extract_lets +onlyGivenNames z; first | (refine Kept.cut z ?_ ?_ <;> [subst z; (intro hz; clear_value z)]) | (refine Kept.cut2 z ?_ ?_ <;> [subst z; (intro hz; clear_value z)]) | (have hz : State → _ := z; clear hz; subst z) | clear_value z) | split

end Sys2Proof.Machine
end

