-- ==== Sys2Proof/Laws/KeptChain.lean ====
section
/-!
SUPPORT. What the operations of Machine/Chain keep: the queue, the clock and the form of the stores.
-/

namespace Sys2Proof.Machine

theorem State.modChain_kept {q0 : List Instr} {n0 : Nat} {s : State} (f : Chain → Chain) (h : Kept q0 n0 s) : Kept q0 n0 (State.modChain s f) := by
  unfold State.modChain
  with_reducible repeat' first | assumption | simp -zeta only [Kept.upd]

theorem State.modPort_kept {q0 : List Instr} {n0 : Nat} {s : State} (p : ℕ) (f : ChainPort → ChainPort) (h : Kept q0 n0 s) : Kept q0 n0 (State.modPort s p f) := by
  unfold State.modPort
  with_reducible repeat' first | assumption | simp -zeta only [Kept.upd] | apply State.modChain_kept | apply Kept.ite | dsimp -zeta only | (intro; intros) | split

theorem State.chnErr_kept {q0 : List Instr} {n0 : Nat} {s : State} (p : ℕ) (f : Fld) (h : Kept q0 n0 s) : Kept q0 n0 (State.chnErr s p f) := by
  unfold State.chnErr
  with_reducible repeat' first | assumption | apply State.event_kept | apply State.count_kept

theorem State.chnDrop_kept {q0 : List Instr} {n0 : Nat} {s : State} (f : Fld) (h : Kept q0 n0 s) : Kept q0 n0 (State.chnDrop s f) := by
  unfold State.chnDrop
  with_reducible repeat' first | assumption | apply State.count_kept | apply State.event_kept

theorem State.codeErrors_kept {q0 : List Instr} {n0 : Nat} {s : State} (p : ℕ) (n : ℕ) (h : Kept q0 n0 s) : Kept q0 n0 (State.codeErrors s p n) := by
  unfold State.codeErrors
  with_reducible repeat' first | assumption | apply State.count_kept | apply State.wr_kept | apply State.cond_kept | apply State.hi_kept | apply State.event_kept | dsimp -zeta only | (extract_lets +onlyGivenNames z; first | (refine Kept.cut z ?_ ?_ <;> [subst z; (intro hz; clear_value z)]) | (refine Kept.cut2 z ?_ ?_ <;> [subst z; (intro hz; clear_value z)]) | (have hz : State → _ := z; clear hz; subst z) | clear_value z) | (intro; intros)

theorem State.partnerStart_kept {q0 : List Instr} {n0 : Nat} {s : State} (p : ℕ) (toRepeat : Bool) (h : Kept q0 n0 s) : Kept q0 n0 (State.partnerStart s p toRepeat) := by
  unfold State.partnerStart
  with_reducible repeat' first | assumption | simp -zeta only [Kept.upd] | apply State.emit_kept | apply State.hi_kept | apply State.modPort_kept | dsimp -zeta only | (extract_lets +onlyGivenNames z; first | (refine Kept.cut z ?_ ?_ <;> [subst z; (intro hz; clear_value z)]) | (refine Kept.cut2 z ?_ ?_ <;> [subst z; (intro hz; clear_value z)]) | (have hz : State → _ := z; clear hz; subst z) | clear_value z) | (intro; intros) | split

theorem State.partnerReset_kept {q0 : List Instr} {n0 : Nat} {s : State} (p : ℕ) (h : Kept q0 n0 s) : Kept q0 n0 (State.partnerReset s p) := by
  unfold State.partnerReset
  with_reducible repeat' first | assumption | simp -zeta only [Kept.upd] | apply State.lo_kept | apply State.wr_kept | apply State.modPort_kept | dsimp -zeta only | (extract_lets +onlyGivenNames z; first | (refine Kept.cut z ?_ ?_ <;> [subst z; (intro hz; clear_value z)]) | (refine Kept.cut2 z ?_ ?_ <;> [subst z; (intro hz; clear_value z)]) | (have hz : State → _ := z; clear hz; subst z) | clear_value z) | (intro; intros)

theorem State.breakSend_kept {q0 : List Instr} {n0 : Nat} {s : State} (p : ℕ) (healed : Bool) (h : Kept q0 n0 s) : Kept q0 n0 (State.breakSend s p healed) := by
  unfold State.breakSend
  with_reducible repeat' first | assumption | simp -zeta only [Kept.upd] | apply State.modChain_kept | apply Kept.ite | dsimp -zeta only | (extract_lets +onlyGivenNames z; first | (refine Kept.cut z ?_ ?_ <;> [subst z; (intro hz; clear_value z)]) | (refine Kept.cut2 z ?_ ?_ <;> [subst z; (intro hz; clear_value z)]) | (have hz : State → _ := z; clear hz; subst z) | clear_value z) | (intro; intros) | split

theorem State.breakBound_kept {q0 : List Instr} {n0 : Nat} {s : State} (bnd : ℕ) (down : Bool) (healed : Bool) (h : Kept q0 n0 s) : Kept q0 n0 (State.breakBound s bnd down healed) := by
  unfold State.breakBound
  with_reducible repeat' first | assumption | apply State.cond_kept | apply State.lo_kept | apply State.wr_kept | apply State.hi_kept | apply Kept.ite | dsimp -zeta only | (extract_lets +onlyGivenNames z; first | (refine Kept.cut z ?_ ?_ <;> [subst z; (intro hz; clear_value z)]) | (refine Kept.cut2 z ?_ ?_ <;> [subst z; (intro hz; clear_value z)]) | (have hz : State → _ := z; clear hz; subst z) | clear_value z) | (intro; intros) | split

theorem State.breakTake_kept {q0 : List Instr} {n0 : Nat} {s : State} (bnd : ℕ) (down : Bool) (healed : Bool) (h : Kept q0 n0 s) : Kept q0 n0 (State.breakTake s bnd down healed) := by
  unfold State.breakTake
  with_reducible repeat' first | assumption | apply State.breakBound_kept | apply State.event_kept | apply Kept.ite | split

theorem State.partnerFinish_kept {q0 : List Instr} {n0 : Nat} {s : State} (p : ℕ) (toRepeat : Bool) (h : Kept q0 n0 s) : Kept q0 n0 (State.partnerFinish s p toRepeat) := by
  unfold State.partnerFinish
  with_reducible repeat' first | assumption | simp -zeta only [Kept.upd] | apply step_kept | apply State.emit_kept | apply State.partnerReset_kept | apply State.wr_kept | apply State.modPort_kept | apply State.breakBound_kept | apply State.breakSend_kept | apply Kept.ite | dsimp -zeta only | (extract_lets +onlyGivenNames z; first | (refine Kept.cut z ?_ ?_ <;> [subst z; (intro hz; clear_value z)]) | (refine Kept.cut2 z ?_ ?_ <;> [subst z; (intro hz; clear_value z)]) | (have hz : State → _ := z; clear hz; subst z) | clear_value z) | (intro; intros) | split

theorem State.drainReply_kept {q0 : List Instr} {n0 : Nat} {s : State} (p : ℕ) (h : Kept q0 n0 s) : Kept q0 n0 (State.drainReply s p) := by
  unfold State.drainReply
  with_reducible repeat' first | assumption | simp -zeta only [Kept.upd] | apply step_kept | apply State.emit_kept | apply State.modPort_kept | apply Kept.ite | dsimp -zeta only | (intro; intros) | split

theorem State.freeBuffer_kept {q0 : List Instr} {n0 : Nat} {s : State} (p : ℕ) (h : Kept q0 n0 s) : Kept q0 n0 (State.freeBuffer s p) := by
  unfold State.freeBuffer
  with_reducible repeat' first | assumption | simp -zeta only [Kept.upd] | apply State.modPort_kept | apply State.emit_kept | dsimp -zeta only | (extract_lets +onlyGivenNames z; first | (refine Kept.cut z ?_ ?_ <;> [subst z; (intro hz; clear_value z)]) | (refine Kept.cut2 z ?_ ?_ <;> [subst z; (intro hz; clear_value z)]) | (have hz : State → _ := z; clear hz; subst z) | clear_value z) | (intro; intros)

theorem State.rollEnd_kept {q0 : List Instr} {n0 : Nat} {s : State} (count : ℕ) (h : Kept q0 n0 s) : Kept q0 n0 (State.rollEnd s count) := by
  unfold State.rollEnd
  with_reducible repeat' first | assumption | simp -zeta only [Kept.upd] | apply State.count_kept | apply State.modChain_kept | apply State.wr_kept | apply State.event_kept | apply Kept.ite | dsimp -zeta only | (extract_lets +onlyGivenNames z; first | (refine Kept.cut z ?_ ?_ <;> [subst z; (intro hz; clear_value z)]) | (refine Kept.cut2 z ?_ ?_ <;> [subst z; (intro hz; clear_value z)]) | (have hz : State → _ := z; clear hz; subst z) | clear_value z) | (intro; intros) | split

theorem State.pickSource_kept {q0 : List Instr} {n0 : Nat} {s : State} (h : Kept q0 n0 s) : Kept q0 n0 (State.pickSource s) := by
  unfold State.pickSource
  with_reducible repeat' first | assumption | simp -zeta only [Kept.upd] | apply State.wrB_kept | apply State.wr_kept | apply State.modChain_kept | apply State.event_kept | apply Kept.ite | dsimp -zeta only | (extract_lets +onlyGivenNames z; first | (refine Kept.cut z ?_ ?_ <;> [subst z; (intro hz; clear_value z)]) | (refine Kept.cut2 z ?_ ?_ <;> [subst z; (intro hz; clear_value z)]) | (have hz : State → _ := z; clear hz; subst z) | clear_value z) | (intro; intros) | split

theorem State.correct_kept {q0 : List Instr} {n0 : Nat} {s : State} (o : ℤ) (h : Kept q0 n0 s) : Kept q0 n0 (State.correct s o) := by
  unfold State.correct
  with_reducible repeat' first | assumption | simp -zeta only [Kept.upd] | apply step_kept | apply State.setReg_kept | apply State.modChain_kept | apply State.hi_kept | apply State.event_kept | apply State.nextFree_kept | apply State.lo_kept | apply State.runOk_kept | apply Kept.ite | dsimp -zeta only | (extract_lets +onlyGivenNames z; first | (refine Kept.cut z ?_ ?_ <;> [subst z; (intro hz; clear_value z)]) | (refine Kept.cut2 z ?_ ?_ <;> [subst z; (intro hz; clear_value z)]) | (have hz : State → _ := z; clear hz; subst z) | clear_value z) | (intro; intros) | split

theorem State.memRsp_kept {q0 : List Instr} {n0 : Nat} {s : State} (src : ℕ) (tag : ℕ) (status : ℕ) (data : List Byte) (h : Kept q0 n0 s) : Kept q0 n0 (State.memRsp s src tag status data) := by
  unfold State.memRsp
  with_reducible repeat' first | assumption | apply State.sendFrame_kept

theorem State.memDenied_kept {q0 : List Instr} {n0 : Nat} {s : State} (src : ℕ) (tag : ℕ) (h : Kept q0 n0 s) : Kept q0 n0 (State.memDenied s src tag) := by
  unfold State.memDenied
  with_reducible repeat' first | assumption | apply State.count_kept | apply State.event_kept | apply State.memRsp_kept

theorem State.passOn_kept {q0 : List Instr} {n0 : Nat} {s : State} (p : ℕ) (o : Output) (h : Kept q0 n0 s) : Kept q0 n0 (State.passOn s p o) := by
  unfold State.passOn
  with_reducible repeat' first | assumption | apply State.emit_kept | apply Kept.ite | split

theorem execChnErrSatClear_kept {q0 : List Instr} {n0 : Nat} (t : ℕ) (p : Fin 2) {s : State} (h : Kept q0 n0 s) :
    ∃ s', execChnErrSatClear t p s = .next s' ∧ Kept q0 (max n0 t) s' := by
  refine ⟨_, rfl, ?_⟩
  have h := State.upTo_kept t h
  with_reducible repeat' first | assumption | apply State.upTo_kept | apply State.clearCounts_kept | apply Kept.ite | dsimp -zeta only | (extract_lets +onlyGivenNames z; first | (refine Kept.cut z ?_ ?_ <;> [subst z; (intro hz; clear_value z)]) | (refine Kept.cut2 z ?_ ?_ <;> [subst z; (intro hz; clear_value z)]) | (have hz : State → _ := z; clear hz; subst z) | clear_value z) | split

theorem execChnDropSatClear_kept {q0 : List Instr} {n0 : Nat} (t : ℕ) {s : State} (h : Kept q0 n0 s) :
    ∃ s', execChnDropSatClear t s = .next s' ∧ Kept q0 (max n0 t) s' := by
  refine ⟨_, rfl, ?_⟩
  have h := State.upTo_kept t h
  with_reducible repeat' first | assumption | apply State.upTo_kept | apply State.clearCounts_kept | apply Kept.ite | dsimp -zeta only | (extract_lets +onlyGivenNames z; first | (refine Kept.cut z ?_ ?_ <;> [subst z; (intro hz; clear_value z)]) | (refine Kept.cut2 z ?_ ?_ <;> [subst z; (intro hz; clear_value z)]) | (have hz : State → _ := z; clear hz; subst z) | clear_value z) | split

theorem execRoll_kept {q0 : List Instr} {n0 : Nat} (t : ℕ) {s : State} (h : Kept q0 n0 s) :
    ∃ s', execRoll t s = .next s' ∧ Kept q0 (max n0 t) s' := by
  refine ⟨_, rfl, ?_⟩
  have h := State.upTo_kept t h
  with_reducible repeat' first | assumption | apply State.upTo_kept | apply State.cond_kept | apply State.rollStart_kept | dsimp -zeta only | (intro; intros)

end Sys2Proof.Machine
end

