-- ==== Sys2Proof/Laws/KeptFesilInstr.lean ====
section
/-!
SUPPORT. What the operations of Machine/FesilInstr keep: the queue, the clock and the form of the stores.
-/

namespace Sys2Proof.Machine

theorem State.stageTrigger_kept {q0 : List Instr} {n0 : Nat} {s : State} (c : ℕ) (j : ℕ) (w : BitVec 32) (h : Kept q0 n0 s) : Kept q0 n0 (State.stageTrigger s c j w) := by
  unfold State.stageTrigger
  with_reducible repeat' first | assumption | apply State.setReg_kept

theorem State.programBiquad_kept {q0 : List Instr} {n0 : Nat} {s : State} (k : FTask) (fd : ℕ) (x : BitVec 32) (coef : ℕ) (st : ℕ) (h : Kept q0 n0 s) : Kept q0 n0 (State.programBiquad s k fd x coef st) := by
  unfold State.programBiquad
  with_reducible repeat' first | assumption | apply State.memStore_kept | apply State.setF_kept | dsimp -zeta only | (extract_lets +onlyGivenNames z; first | (refine Kept.cut z ?_ ?_ <;> [subst z; (intro hz; clear_value z)]) | (refine Kept.cut2 z ?_ ?_ <;> [subst z; (intro hz; clear_value z)]) | (have hz : State → _ := z; clear hz; subst z) | clear_value z)

theorem execLdi_kept {q0 : List Instr} {n0 : Nat} (t : ℕ) (d : Fin 64) (item : LdiItem) {s : State} (e : optParam Ecc Ecc.ok) (h : Kept q0 n0 s) :
    ∃ s', execLdi t d item s e = .next s' ∧ Kept q0 (max n0 t) s' := by
  refine ⟨_, rfl, ?_⟩
  have h := State.upTo_kept t h
  with_reducible repeat' first | assumption | simp -zeta only [Kept.upd] | apply State.upTo_kept | apply State.instr_kept | apply State.setFs_kept | apply State.setF_kept | apply State.setA_kept | dsimp -zeta only | (intro; intros) | split

theorem execLds_kept {q0 : List Instr} {n0 : Nat} (t : ℕ) (d : Fin 64) (item : LdsItem) {s : State} (e : optParam Ecc Ecc.ok) (h : Kept q0 n0 s) :
    ∃ s', execLds t d item s e = .next s' ∧ Kept q0 (max n0 t) s' := by
  refine ⟨_, rfl, ?_⟩
  have h := State.upTo_kept t h
  with_reducible repeat' first | assumption | simp -zeta only [Kept.upd] | apply State.upTo_kept | apply State.instr_kept | apply State.setA_kept | apply State.setF_kept | apply State.setFs_kept | dsimp -zeta only | (extract_lets +onlyGivenNames z; first | (refine Kept.cut z ?_ ?_ <;> [subst z; (intro hz; clear_value z)]) | (refine Kept.cut2 z ?_ ?_ <;> [subst z; (intro hz; clear_value z)]) | (have hz : State → _ := z; clear hz; subst z) | clear_value z) | (intro; intros) | split

theorem execLdc_kept {q0 : List Instr} {n0 : Nat} (t : ℕ) (fd : Fin 64) (m : MemRef) (e : Ecc) {s : State} (h : Kept q0 n0 s) :
    ∃ s', execLdc t fd m e s = .next s' ∧ Kept q0 (max n0 t) s' := by
  refine ⟨_, rfl, ?_⟩
  have h := State.upTo_kept t h
  with_reducible repeat' first | assumption | apply State.upTo_kept | apply State.instr_kept | apply State.setF_kept | dsimp -zeta only | (intro; intros)

theorem execLdc4_kept {q0 : List Instr} {n0 : Nat} (t : ℕ) (qd : Fin 16) (m : MemRef) (e : Ecc) {s : State} (h : Kept q0 n0 s) :
    ∃ s', execLdc4 t qd m e s = .next s' ∧ Kept q0 (max n0 t) s' := by
  refine ⟨_, rfl, ?_⟩
  have h := State.upTo_kept t h
  with_reducible repeat' first | assumption | apply State.upTo_kept | apply State.instr_kept | apply State.setFs_kept | dsimp -zeta only | (intro; intros)

theorem execStc_kept {q0 : List Instr} {n0 : Nat} (t : ℕ) (m : MemRef) (fs : Fin 64) {s : State} (e : optParam Ecc Ecc.ok) (h : Kept q0 n0 s) :
    ∃ s', execStc t m fs s e = .next s' ∧ Kept q0 (max n0 t) s' := by
  refine ⟨_, rfl, ?_⟩
  have h := State.upTo_kept t h
  with_reducible repeat' first | assumption | apply State.upTo_kept | apply State.instr_kept | apply State.memStore_kept | dsimp -zeta only | (intro; intros)

theorem execStc4_kept {q0 : List Instr} {n0 : Nat} (t : ℕ) (m : MemRef) (qs : Fin 16) {s : State} (e : optParam Ecc Ecc.ok) (h : Kept q0 n0 s) :
    ∃ s', execStc4 t m qs s e = .next s' ∧ Kept q0 (max n0 t) s' := by
  refine ⟨_, rfl, ?_⟩
  have h := State.upTo_kept t h
  with_reducible repeat' first | assumption | apply State.upTo_kept | apply State.instr_kept | apply State.each_kept | apply State.memStore_kept | dsimp -zeta only | (intro; intros)

theorem execLdx_kept {q0 : List Instr} {n0 : Nat} (t : ℕ) (ad : Fin 16) (m : MemRef) (e : Ecc) {s : State} (h : Kept q0 n0 s) :
    ∃ s', execLdx t ad m e s = .next s' ∧ Kept q0 (max n0 t) s' := by
  refine ⟨_, rfl, ?_⟩
  have h := State.upTo_kept t h
  with_reducible repeat' first | assumption | apply State.upTo_kept | apply State.instr_kept | apply State.setA_kept | dsimp -zeta only | (intro; intros)

theorem execStx_kept {q0 : List Instr} {n0 : Nat} (t : ℕ) (m : MemRef) (sa : Fin 16) {s : State} (e : optParam Ecc Ecc.ok) (h : Kept q0 n0 s) :
    ∃ s', execStx t m sa s e = .next s' ∧ Kept q0 (max n0 t) s' := by
  refine ⟨_, rfl, ?_⟩
  have h := State.upTo_kept t h
  with_reducible repeat' first | assumption | apply State.upTo_kept | apply State.instr_kept | apply State.memStore_kept | dsimp -zeta only | (intro; intros)

theorem execMovi_kept {q0 : List Instr} {n0 : Nat} (t : ℕ) (d : FReg) (imm : Word) {s : State} (e : optParam Ecc Ecc.ok) (h : Kept q0 n0 s) :
    ∃ s', execMovi t d imm s e = .next s' ∧ Kept q0 (max n0 t) s' := by
  refine ⟨_, rfl, ?_⟩
  have h := State.upTo_kept t h
  with_reducible repeat' first | assumption | simp -zeta only [Kept.upd] | apply State.upTo_kept | apply State.instr_kept | apply State.setF_kept | apply State.setA_kept | dsimp -zeta only | (intro; intros) | split

theorem execMov_kept {q0 : List Instr} {n0 : Nat} (t : ℕ) (d : FReg) (r : FReg) {s : State} (e : optParam Ecc Ecc.ok) (h : Kept q0 n0 s) :
    ∃ s', execMov t d r s e = .next s' ∧ Kept q0 (max n0 t) s' := by
  refine ⟨_, rfl, ?_⟩
  have h := State.upTo_kept t h
  with_reducible repeat' first | assumption | simp -zeta only [Kept.upd] | apply State.upTo_kept | apply State.instr_kept | apply State.setF_kept | apply State.setA_kept | dsimp -zeta only | (extract_lets +onlyGivenNames z; first | (refine Kept.cut z ?_ ?_ <;> [subst z; (intro hz; clear_value z)]) | (refine Kept.cut2 z ?_ ?_ <;> [subst z; (intro hz; clear_value z)]) | (have hz : State → _ := z; clear hz; subst z) | clear_value z) | (intro; intros) | split

theorem execFadd_kept {q0 : List Instr} {n0 : Nat} (t : ℕ) (fd : Fin 64) (fa : Fin 64) (fb : Fin 64) {s : State} (e : optParam Ecc Ecc.ok) (h : Kept q0 n0 s) :
    ∃ s', execFadd t fd fa fb s e = .next s' ∧ Kept q0 (max n0 t) s' := by
  refine ⟨_, rfl, ?_⟩
  have h := State.upTo_kept t h
  with_reducible repeat' first | assumption | apply State.upTo_kept | apply State.instr_kept | apply State.setF_kept | dsimp -zeta only | (intro; intros)

theorem execFsub_kept {q0 : List Instr} {n0 : Nat} (t : ℕ) (fd : Fin 64) (fa : Fin 64) (fb : Fin 64) {s : State} (e : optParam Ecc Ecc.ok) (h : Kept q0 n0 s) :
    ∃ s', execFsub t fd fa fb s e = .next s' ∧ Kept q0 (max n0 t) s' := by
  refine ⟨_, rfl, ?_⟩
  have h := State.upTo_kept t h
  with_reducible repeat' first | assumption | apply State.upTo_kept | apply State.instr_kept | apply State.setF_kept | dsimp -zeta only | (intro; intros)

theorem execFmul_kept {q0 : List Instr} {n0 : Nat} (t : ℕ) (fd : Fin 64) (fa : Fin 64) (fb : Fin 64) {s : State} (e : optParam Ecc Ecc.ok) (h : Kept q0 n0 s) :
    ∃ s', execFmul t fd fa fb s e = .next s' ∧ Kept q0 (max n0 t) s' := by
  refine ⟨_, rfl, ?_⟩
  have h := State.upTo_kept t h
  with_reducible repeat' first | assumption | apply State.upTo_kept | apply State.instr_kept | apply State.setF_kept | dsimp -zeta only | (intro; intros)

theorem execFmac_kept {q0 : List Instr} {n0 : Nat} (t : ℕ) (fd : Fin 64) (fa : Fin 64) (fb : Fin 64) {s : State} (e : optParam Ecc Ecc.ok) (h : Kept q0 n0 s) :
    ∃ s', execFmac t fd fa fb s e = .next s' ∧ Kept q0 (max n0 t) s' := by
  refine ⟨_, rfl, ?_⟩
  have h := State.upTo_kept t h
  with_reducible repeat' first | assumption | apply State.upTo_kept | apply State.instr_kept | apply State.setF_kept | dsimp -zeta only | (intro; intros)

theorem execFmsu_kept {q0 : List Instr} {n0 : Nat} (t : ℕ) (fd : Fin 64) (fa : Fin 64) (fb : Fin 64) {s : State} (e : optParam Ecc Ecc.ok) (h : Kept q0 n0 s) :
    ∃ s', execFmsu t fd fa fb s e = .next s' ∧ Kept q0 (max n0 t) s' := by
  refine ⟨_, rfl, ?_⟩
  have h := State.upTo_kept t h
  with_reducible repeat' first | assumption | apply State.upTo_kept | apply State.instr_kept | apply State.setF_kept | dsimp -zeta only | (intro; intros)

theorem execFneg_kept {q0 : List Instr} {n0 : Nat} (t : ℕ) (fd : Fin 64) (fs : Fin 64) {s : State} (e : optParam Ecc Ecc.ok) (h : Kept q0 n0 s) :
    ∃ s', execFneg t fd fs s e = .next s' ∧ Kept q0 (max n0 t) s' := by
  refine ⟨_, rfl, ?_⟩
  have h := State.upTo_kept t h
  with_reducible repeat' first | assumption | apply State.upTo_kept | apply State.instr_kept | apply State.setF_kept | dsimp -zeta only | (intro; intros)

theorem execFabs_kept {q0 : List Instr} {n0 : Nat} (t : ℕ) (fd : Fin 64) (fs : Fin 64) {s : State} (e : optParam Ecc Ecc.ok) (h : Kept q0 n0 s) :
    ∃ s', execFabs t fd fs s e = .next s' ∧ Kept q0 (max n0 t) s' := by
  refine ⟨_, rfl, ?_⟩
  have h := State.upTo_kept t h
  with_reducible repeat' first | assumption | apply State.upTo_kept | apply State.instr_kept | apply State.setF_kept | dsimp -zeta only | (intro; intros)

theorem execFmin_kept {q0 : List Instr} {n0 : Nat} (t : ℕ) (fd : Fin 64) (fa : Fin 64) (fb : Fin 64) {s : State} (e : optParam Ecc Ecc.ok) (h : Kept q0 n0 s) :
    ∃ s', execFmin t fd fa fb s e = .next s' ∧ Kept q0 (max n0 t) s' := by
  refine ⟨_, rfl, ?_⟩
  have h := State.upTo_kept t h
  with_reducible repeat' first | assumption | apply State.upTo_kept | apply State.instr_kept | apply State.setF_kept | dsimp -zeta only | (intro; intros)

theorem execFmax_kept {q0 : List Instr} {n0 : Nat} (t : ℕ) (fd : Fin 64) (fa : Fin 64) (fb : Fin 64) {s : State} (e : optParam Ecc Ecc.ok) (h : Kept q0 n0 s) :
    ∃ s', execFmax t fd fa fb s e = .next s' ∧ Kept q0 (max n0 t) s' := by
  refine ⟨_, rfl, ?_⟩
  have h := State.upTo_kept t h
  with_reducible repeat' first | assumption | apply State.upTo_kept | apply State.instr_kept | apply State.setF_kept | dsimp -zeta only | (intro; intros)

theorem execFclmp_kept {q0 : List Instr} {n0 : Nat} (t : ℕ) (fd : Fin 64) (fs : Fin 64) (fl : Fin 64) {s : State} (e : optParam Ecc Ecc.ok) (h : Kept q0 n0 s) :
    ∃ s', execFclmp t fd fs fl s e = .next s' ∧ Kept q0 (max n0 t) s' := by
  refine ⟨_, rfl, ?_⟩
  have h := State.upTo_kept t h
  with_reducible repeat' first | assumption | apply State.upTo_kept | apply State.instr_kept | apply State.setF_kept | dsimp -zeta only | (intro; intros)

theorem execFdot_kept {q0 : List Instr} {n0 : Nat} (t : ℕ) (fd : Fin 64) (qa : Fin 16) (qb : Fin 16) {s : State} (e : optParam Ecc Ecc.ok) (h : Kept q0 n0 s) :
    ∃ s', execFdot t fd qa qb s e = .next s' ∧ Kept q0 (max n0 t) s' := by
  refine ⟨_, rfl, ?_⟩
  have h := State.upTo_kept t h
  with_reducible repeat' first | assumption | apply State.upTo_kept | apply State.instr_kept | apply State.setF_kept | dsimp -zeta only | (extract_lets +onlyGivenNames z; first | (refine Kept.cut z ?_ ?_ <;> [subst z; (intro hz; clear_value z)]) | (refine Kept.cut2 z ?_ ?_ <;> [subst z; (intro hz; clear_value z)]) | (have hz : State → _ := z; clear hz; subst z) | clear_value z) | (intro; intros)

theorem execFrcp_kept {q0 : List Instr} {n0 : Nat} (t : ℕ) (fd : Fin 64) (fs : Fin 64) {s : State} (e : optParam Ecc Ecc.ok) (h : Kept q0 n0 s) :
    ∃ s', execFrcp t fd fs s e = .next s' ∧ Kept q0 (max n0 t) s' := by
  refine ⟨_, rfl, ?_⟩
  have h := State.upTo_kept t h
  with_reducible repeat' first | assumption | apply State.upTo_kept | apply State.instr_kept | apply State.setF_kept | dsimp -zeta only | (intro; intros)

theorem execFrsq_kept {q0 : List Instr} {n0 : Nat} (t : ℕ) (fd : Fin 64) (fs : Fin 64) {s : State} (e : optParam Ecc Ecc.ok) (h : Kept q0 n0 s) :
    ∃ s', execFrsq t fd fs s e = .next s' ∧ Kept q0 (max n0 t) s' := by
  refine ⟨_, rfl, ?_⟩
  have h := State.upTo_kept t h
  with_reducible repeat' first | assumption | apply State.upTo_kept | apply State.instr_kept | apply State.setF_kept | dsimp -zeta only | (intro; intros)

theorem execFsqrt_kept {q0 : List Instr} {n0 : Nat} (t : ℕ) (fd : Fin 64) (fs : Fin 64) {s : State} (e : optParam Ecc Ecc.ok) (h : Kept q0 n0 s) :
    ∃ s', execFsqrt t fd fs s e = .next s' ∧ Kept q0 (max n0 t) s' := by
  refine ⟨_, rfl, ?_⟩
  have h := State.upTo_kept t h
  with_reducible repeat' first | assumption | apply State.upTo_kept | apply State.instr_kept | apply State.setF_kept | dsimp -zeta only | (intro; intros)

theorem execFdiv_kept {q0 : List Instr} {n0 : Nat} (t : ℕ) (fd : Fin 64) (fa : Fin 64) (fb : Fin 64) {s : State} (e : optParam Ecc Ecc.ok) (h : Kept q0 n0 s) :
    ∃ s', execFdiv t fd fa fb s e = .next s' ∧ Kept q0 (max n0 t) s' := by
  refine ⟨_, rfl, ?_⟩
  have h := State.upTo_kept t h
  with_reducible repeat' first | assumption | apply State.upTo_kept | apply State.instr_kept | apply State.setF_kept | dsimp -zeta only | (intro; intros)

theorem execCvqf_kept {q0 : List Instr} {n0 : Nat} (t : ℕ) (fd : Fin 64) (sa : Fin 16) (fk : Fin 64) {s : State} (e : optParam Ecc Ecc.ok) (h : Kept q0 n0 s) :
    ∃ s', execCvqf t fd sa fk s e = .next s' ∧ Kept q0 (max n0 t) s' := by
  refine ⟨_, rfl, ?_⟩
  have h := State.upTo_kept t h
  with_reducible repeat' first | assumption | apply State.upTo_kept | apply State.instr_kept | apply State.setF_kept | dsimp -zeta only | (intro; intros)

theorem execCvfq_kept {q0 : List Instr} {n0 : Nat} (t : ℕ) (ad : Fin 16) (fs : Fin 64) (fk : Fin 64) {s : State} (e : optParam Ecc Ecc.ok) (h : Kept q0 n0 s) :
    ∃ s', execCvfq t ad fs fk s e = .next s' ∧ Kept q0 (max n0 t) s' := by
  refine ⟨_, rfl, ?_⟩
  have h := State.upTo_kept t h
  with_reducible repeat' first | assumption | apply State.upTo_kept | apply State.instr_kept | apply State.setA_kept | dsimp -zeta only | (intro; intros)

theorem execCvaf_kept {q0 : List Instr} {n0 : Nat} (t : ℕ) (fd : Fin 64) (sa : Fin 16) {s : State} (e : optParam Ecc Ecc.ok) (h : Kept q0 n0 s) :
    ∃ s', execCvaf t fd sa s e = .next s' ∧ Kept q0 (max n0 t) s' := by
  refine ⟨_, rfl, ?_⟩
  have h := State.upTo_kept t h
  with_reducible repeat' first | assumption | apply State.upTo_kept | apply State.instr_kept | apply State.setF_kept | dsimp -zeta only | (intro; intros)

theorem execCvfa_kept {q0 : List Instr} {n0 : Nat} (t : ℕ) (ad : Fin 16) (fs : Fin 64) {s : State} (e : optParam Ecc Ecc.ok) (h : Kept q0 n0 s) :
    ∃ s', execCvfa t ad fs s e = .next s' ∧ Kept q0 (max n0 t) s' := by
  refine ⟨_, rfl, ?_⟩
  have h := State.upTo_kept t h
  with_reducible repeat' first | assumption | apply State.upTo_kept | apply State.instr_kept | apply State.setA_kept | dsimp -zeta only | (intro; intros)

theorem execCvif_kept {q0 : List Instr} {n0 : Nat} (t : ℕ) (fd : Fin 64) (sa : Fin 16) {s : State} (e : optParam Ecc Ecc.ok) (h : Kept q0 n0 s) :
    ∃ s', execCvif t fd sa s e = .next s' ∧ Kept q0 (max n0 t) s' := by
  refine ⟨_, rfl, ?_⟩
  have h := State.upTo_kept t h
  with_reducible repeat' first | assumption | apply State.upTo_kept | apply State.instr_kept | apply State.setF_kept | apply Kept.ite | dsimp -zeta only | (intro; intros) | split

theorem execCvfi_kept {q0 : List Instr} {n0 : Nat} (t : ℕ) (ad : Fin 16) (fs : Fin 64) {s : State} (e : optParam Ecc Ecc.ok) (h : Kept q0 n0 s) :
    ∃ s', execCvfi t ad fs s e = .next s' ∧ Kept q0 (max n0 t) s' := by
  refine ⟨_, rfl, ?_⟩
  have h := State.upTo_kept t h
  with_reducible repeat' first | assumption | apply State.upTo_kept | apply State.instr_kept | apply State.setA_kept | dsimp -zeta only | (intro; intros)

theorem execIadd_kept {q0 : List Instr} {n0 : Nat} (t : ℕ) (ad : Fin 16) (aa : Fin 16) (ab : Fin 16) {s : State} (e : optParam Ecc Ecc.ok) (h : Kept q0 n0 s) :
    ∃ s', execIadd t ad aa ab s e = .next s' ∧ Kept q0 (max n0 t) s' := by
  refine ⟨_, rfl, ?_⟩
  have h := State.upTo_kept t h
  with_reducible repeat' first | assumption | apply State.upTo_kept | apply State.instr_kept | apply State.setA_kept | dsimp -zeta only | (intro; intros)

theorem execIsub_kept {q0 : List Instr} {n0 : Nat} (t : ℕ) (ad : Fin 16) (aa : Fin 16) (ab : Fin 16) {s : State} (e : optParam Ecc Ecc.ok) (h : Kept q0 n0 s) :
    ∃ s', execIsub t ad aa ab s e = .next s' ∧ Kept q0 (max n0 t) s' := by
  refine ⟨_, rfl, ?_⟩
  have h := State.upTo_kept t h
  with_reducible repeat' first | assumption | apply State.upTo_kept | apply State.instr_kept | apply State.setA_kept | dsimp -zeta only | (intro; intros)

theorem execIand_kept {q0 : List Instr} {n0 : Nat} (t : ℕ) (ad : Fin 16) (aa : Fin 16) (ab : Fin 16) {s : State} (e : optParam Ecc Ecc.ok) (h : Kept q0 n0 s) :
    ∃ s', execIand t ad aa ab s e = .next s' ∧ Kept q0 (max n0 t) s' := by
  refine ⟨_, rfl, ?_⟩
  have h := State.upTo_kept t h
  with_reducible repeat' first | assumption | apply State.upTo_kept | apply State.instr_kept | apply State.setA_kept | dsimp -zeta only | (intro; intros)

theorem execIor_kept {q0 : List Instr} {n0 : Nat} (t : ℕ) (ad : Fin 16) (aa : Fin 16) (ab : Fin 16) {s : State} (e : optParam Ecc Ecc.ok) (h : Kept q0 n0 s) :
    ∃ s', execIor t ad aa ab s e = .next s' ∧ Kept q0 (max n0 t) s' := by
  refine ⟨_, rfl, ?_⟩
  have h := State.upTo_kept t h
  with_reducible repeat' first | assumption | apply State.upTo_kept | apply State.instr_kept | apply State.setA_kept | dsimp -zeta only | (intro; intros) | split

theorem execIxor_kept {q0 : List Instr} {n0 : Nat} (t : ℕ) (ad : Fin 16) (aa : Fin 16) (ab : Fin 16) {s : State} (e : optParam Ecc Ecc.ok) (h : Kept q0 n0 s) :
    ∃ s', execIxor t ad aa ab s e = .next s' ∧ Kept q0 (max n0 t) s' := by
  refine ⟨_, rfl, ?_⟩
  have h := State.upTo_kept t h
  with_reducible repeat' first | assumption | apply State.upTo_kept | apply State.instr_kept | apply State.setA_kept | dsimp -zeta only | (intro; intros)

theorem execIsh_kept {q0 : List Instr} {n0 : Nat} (t : ℕ) (ad : Fin 16) (aa : Fin 16) (sh : ℤ) {s : State} (e : optParam Ecc Ecc.ok) (h : Kept q0 n0 s) :
    ∃ s', execIsh t ad aa sh s e = .next s' ∧ Kept q0 (max n0 t) s' := by
  refine ⟨_, rfl, ?_⟩
  have h := State.upTo_kept t h
  with_reducible repeat' first | assumption | apply State.upTo_kept | apply State.instr_kept | apply State.setA_kept | apply Kept.ite | dsimp -zeta only | (intro; intros) | split

theorem execSincos_kept {q0 : List Instr} {n0 : Nat} (t : ℕ) (fd : Fin 64) (sa : Fin 16) {s : State} (e : optParam Ecc Ecc.ok) (h : Kept q0 n0 s) :
    ∃ s', execSincos t fd sa s e = .next s' ∧ Kept q0 (max n0 t) s' := by
  refine ⟨_, rfl, ?_⟩
  have h := State.upTo_kept t h
  with_reducible repeat' first | assumption | apply State.upTo_kept | apply State.instr_kept | apply State.setFs_kept | dsimp -zeta only | (extract_lets +onlyGivenNames z; first | (refine Kept.cut z ?_ ?_ <;> [subst z; (intro hz; clear_value z)]) | (refine Kept.cut2 z ?_ ?_ <;> [subst z; (intro hz; clear_value z)]) | (have hz : State → _ := z; clear hz; subst z) | clear_value z) | (intro; intros)

theorem execClarke_kept {q0 : List Instr} {n0 : Nat} (t : ℕ) (fd : Fin 64) (qs : Fin 16) {s : State} (e : optParam Ecc Ecc.ok) (h : Kept q0 n0 s) :
    ∃ s', execClarke t fd qs s e = .next s' ∧ Kept q0 (max n0 t) s' := by
  refine ⟨_, rfl, ?_⟩
  have h := State.upTo_kept t h
  with_reducible repeat' first | assumption | apply State.upTo_kept | apply State.instr_kept | apply State.setFs_kept | dsimp -zeta only | (intro; intros)

theorem execPark_kept {q0 : List Instr} {n0 : Nat} (t : ℕ) (fd : Fin 64) (fs : Fin 64) (fc : Fin 64) {s : State} (e : optParam Ecc Ecc.ok) (h : Kept q0 n0 s) :
    ∃ s', execPark t fd fs fc s e = .next s' ∧ Kept q0 (max n0 t) s' := by
  refine ⟨_, rfl, ?_⟩
  have h := State.upTo_kept t h
  with_reducible repeat' first | assumption | apply State.upTo_kept | apply State.instr_kept | apply State.setFs_kept | dsimp -zeta only | (intro; intros)

theorem execIpark_kept {q0 : List Instr} {n0 : Nat} (t : ℕ) (fd : Fin 64) (fs : Fin 64) (fc : Fin 64) {s : State} (e : optParam Ecc Ecc.ok) (h : Kept q0 n0 s) :
    ∃ s', execIpark t fd fs fc s e = .next s' ∧ Kept q0 (max n0 t) s' := by
  refine ⟨_, rfl, ?_⟩
  have h := State.upTo_kept t h
  with_reducible repeat' first | assumption | apply State.upTo_kept | apply State.instr_kept | apply State.setFs_kept | dsimp -zeta only | (intro; intros)

theorem execSvm_kept {q0 : List Instr} {n0 : Nat} (t : ℕ) (qd : Fin 16) (fs : Fin 64) (fv : Fin 64) {s : State} (e : optParam Ecc Ecc.ok) (h : Kept q0 n0 s) :
    ∃ s', execSvm t qd fs fv s e = .next s' ∧ Kept q0 (max n0 t) s' := by
  refine ⟨_, rfl, ?_⟩
  have h := State.upTo_kept t h
  with_reducible repeat' first | assumption | apply State.upTo_kept | apply State.instr_kept | apply State.setFs_kept | apply State.noteNan_kept | dsimp -zeta only | (extract_lets +onlyGivenNames z; first | (refine Kept.cut z ?_ ?_ <;> [subst z; (intro hz; clear_value z)]) | (refine Kept.cut2 z ?_ ?_ <;> [subst z; (intro hz; clear_value z)]) | (have hz : State → _ := z; clear hz; subst z) | clear_value z) | (intro; intros)

theorem execCmpq_kept {q0 : List Instr} {n0 : Nat} (t : ℕ) (qs : Fin 16) {s : State} (e : optParam Ecc Ecc.ok) (h : Kept q0 n0 s) :
    ∃ s', execCmpq t qs s e = .next s' ∧ Kept q0 (max n0 t) s' := by
  refine ⟨_, rfl, ?_⟩
  have h := State.upTo_kept t h
  with_reducible repeat' first | assumption | apply State.upTo_kept | apply State.instr_kept | apply State.noteNan_kept | apply State.event_kept | apply State.epilogue_kept | apply State.stageDuties_kept | apply Kept.ite | dsimp -zeta only | (extract_lets +onlyGivenNames z; first | (refine Kept.cut z ?_ ?_ <;> [subst z; (intro hz; clear_value z)]) | (refine Kept.cut2 z ?_ ?_ <;> [subst z; (intro hz; clear_value z)]) | (have hz : State → _ := z; clear hz; subst z) | clear_value z) | (intro; intros) | split

theorem execStper_kept {q0 : List Instr} {n0 : Nat} (t : ℕ) (sa : Fin 16) {s : State} (e : optParam Ecc Ecc.ok) (h : Kept q0 n0 s) :
    ∃ s', execStper t sa s e = .next s' ∧ Kept q0 (max n0 t) s' := by
  refine ⟨_, rfl, ?_⟩
  have h := State.upTo_kept t h
  with_reducible repeat' first | assumption | apply State.upTo_kept | apply State.instr_kept | apply State.setReg_kept | dsimp -zeta only | (intro; intros)

theorem execSttrg_kept {q0 : List Instr} {n0 : Nat} (t : ℕ) (j : Fin 8) (sa : Fin 16) {s : State} (e : optParam Ecc Ecc.ok) (h : Kept q0 n0 s) :
    ∃ s', execSttrg t j sa s e = .next s' ∧ Kept q0 (max n0 t) s' := by
  refine ⟨_, rfl, ?_⟩
  have h := State.upTo_kept t h
  with_reducible repeat' first | assumption | apply State.upTo_kept | apply State.instr_kept | apply State.stageTrigger_kept | dsimp -zeta only | (intro; intros)

theorem execPic_kept {q0 : List Instr} {n0 : Nat} (t : ℕ) (fd : Fin 64) (fr : Fin 64) (fm : Fin 64) (ff : Fin 64) (fl : Fin 64) (slot : Fin 8) (e : Ecc) {s : State} (h : Kept q0 n0 s) :
    ∃ s', execPic t fd fr fm ff fl slot e s = .next s' ∧ Kept q0 (max n0 t) s' := by
  refine ⟨_, rfl, ?_⟩
  have h := State.upTo_kept t h
  with_reducible repeat' first | assumption | apply State.upTo_kept | apply State.instr_kept | apply State.piSlot_kept | apply State.setF_kept | apply State.noteNan_kept | dsimp -zeta only | (extract_lets +onlyGivenNames z; first | (refine Kept.cut z ?_ ?_ <;> [subst z; (intro hz; clear_value z)]) | (refine Kept.cut2 z ?_ ?_ <;> [subst z; (intro hz; clear_value z)]) | (have hz : State → _ := z; clear hz; subst z) | clear_value z) | (intro; intros)

theorem execBiq_kept {q0 : List Instr} {n0 : Nat} (t : ℕ) (fd : Fin 64) (fs : Fin 64) (coef : MemRef) (st : MemRef) (e : Ecc) {s : State} (h : Kept q0 n0 s) :
    ∃ s', execBiq t fd fs coef st e s = .next s' ∧ Kept q0 (max n0 t) s' := by
  refine ⟨_, rfl, ?_⟩
  have h := State.upTo_kept t h
  with_reducible repeat' first | assumption | apply State.upTo_kept | apply State.instr_kept | apply State.programBiquad_kept | dsimp -zeta only | (intro; intros)

theorem execFcmp_kept {q0 : List Instr} {n0 : Nat} (t : ℕ) (fa : Fin 64) (fb : Fin 64) {s : State} (e : optParam Ecc Ecc.ok) (h : Kept q0 n0 s) :
    ∃ s', execFcmp t fa fb s e = .next s' ∧ Kept q0 (max n0 t) s' := by
  refine ⟨_, rfl, ?_⟩
  have h := State.upTo_kept t h
  with_reducible repeat' first | assumption | simp -zeta only [Kept.upd] | apply State.upTo_kept | apply State.instr_kept | apply State.modTask_kept | apply State.cond_kept | dsimp -zeta only | (extract_lets +onlyGivenNames z; first | (refine Kept.cut z ?_ ?_ <;> [subst z; (intro hz; clear_value z)]) | (refine Kept.cut2 z ?_ ?_ <;> [subst z; (intro hz; clear_value z)]) | (have hz : State → _ := z; clear hz; subst z) | clear_value z) | (intro; intros) | split

theorem execIcmp_kept {q0 : List Instr} {n0 : Nat} (t : ℕ) (aa : Fin 16) (ab : Fin 16) {s : State} (e : optParam Ecc Ecc.ok) (h : Kept q0 n0 s) :
    ∃ s', execIcmp t aa ab s e = .next s' ∧ Kept q0 (max n0 t) s' := by
  refine ⟨_, rfl, ?_⟩
  have h := State.upTo_kept t h
  with_reducible repeat' first | assumption | simp -zeta only [Kept.upd] | apply State.upTo_kept | apply State.instr_kept | apply State.modTask_kept | apply State.cond_kept | apply Kept.ite | dsimp -zeta only | (extract_lets +onlyGivenNames z; first | (refine Kept.cut z ?_ ?_ <;> [subst z; (intro hz; clear_value z)]) | (refine Kept.cut2 z ?_ ?_ <;> [subst z; (intro hz; clear_value z)]) | (have hz : State → _ := z; clear hz; subst z) | clear_value z) | (intro; intros) | split

theorem execBr_kept {q0 : List Instr} {n0 : Nat} (t : ℕ) (c : BrCond) (label : ℕ) {s : State} (e : optParam Ecc Ecc.ok) (h : Kept q0 n0 s) :
    ∃ s', execBr t c label s e = .next s' ∧ Kept q0 (max n0 t) s' := by
  refine ⟨_, rfl, ?_⟩
  have h := State.upTo_kept t h
  with_reducible repeat' first | assumption | simp -zeta only [Kept.upd] | apply State.upTo_kept | apply State.instr_kept | apply State.cond_kept | apply State.modTask_kept | dsimp -zeta only | (intro; intros)

theorem execJmp_kept {q0 : List Instr} {n0 : Nat} (t : ℕ) (label : ℕ) {s : State} (e : optParam Ecc Ecc.ok) (h : Kept q0 n0 s) :
    ∃ s', execJmp t label s e = .next s' ∧ Kept q0 (max n0 t) s' := by
  refine ⟨_, rfl, ?_⟩
  have h := State.upTo_kept t h
  with_reducible repeat' first | assumption | simp -zeta only [Kept.upd] | apply State.upTo_kept | apply State.instr_kept | apply State.modTask_kept | dsimp -zeta only | (intro; intros)

theorem execCommit_kept {q0 : List Instr} {n0 : Nat} (t : ℕ) {s : State} (e : optParam Ecc Ecc.ok) (h : Kept q0 n0 s) :
    ∃ s', execCommit t s e = .next s' ∧ Kept q0 (max n0 t) s' := by
  refine ⟨_, rfl, ?_⟩
  have h := State.upTo_kept t h
  with_reducible repeat' first | assumption | simp -zeta only [Kept.upd] | apply State.instant_kept | apply State.upTo_kept | apply State.instr_kept | apply State.hi_kept | apply State.modTask_kept | apply State.commitSet_kept | apply Kept.ite | dsimp -zeta only | (intro; intros) | split

theorem execTrc_kept {q0 : List Instr} {n0 : Nat} (t : ℕ) {s : State} (e : optParam Ecc Ecc.ok) (h : Kept q0 n0 s) :
    ∃ s', execTrc t s e = .next s' ∧ Kept q0 (max n0 t) s' := by
  refine ⟨_, rfl, ?_⟩
  have h := State.upTo_kept t h
  with_reducible repeat' first | assumption | apply State.instant_kept | apply State.upTo_kept | apply State.instr_kept | apply State.traceRecord_kept | dsimp -zeta only | (intro; intros)

theorem execEvt_kept {q0 : List Instr} {n0 : Nat} (t : ℕ) (c : Fin 16) (sa : Fin 16) {s : State} (e : optParam Ecc Ecc.ok) (h : Kept q0 n0 s) :
    ∃ s', execEvt t c sa s e = .next s' ∧ Kept q0 (max n0 t) s' := by
  refine ⟨_, rfl, ?_⟩
  have h := State.upTo_kept t h
  with_reducible repeat' first | assumption | apply State.event_kept | apply State.upTo_kept | apply State.instr_kept | dsimp -zeta only | (intro; intros)

theorem execEndProgram_kept {q0 : List Instr} {n0 : Nat} (t : ℕ) {s : State} (e : optParam Ecc Ecc.ok) (h : Kept q0 n0 s) :
    ∃ s', execEndProgram t s e = .next s' ∧ Kept q0 (max n0 t) s' := by
  refine ⟨_, rfl, ?_⟩
  have h := State.upTo_kept t h
  with_reducible repeat' first | assumption | apply State.instant_kept | apply State.upTo_kept | apply State.instr_kept | apply State.epilogue_kept | dsimp -zeta only | (intro; intros)

end Sys2Proof.Machine
end

