-- ==== Sys2Proof/Laws/KeptPos.lean ====
section
/-!
SUPPORT. What the operations of Machine/Pos keep: the queue, the clock and the form of the stores.
-/

namespace Sys2Proof.Machine

theorem State.missingIndex_kept {q0 : List Instr} {n0 : Nat} {s : State} (a : ℕ) (h : Kept q0 n0 s) : Kept q0 n0 (State.missingIndex s a) := by
  unfold State.missingIndex
  with_reducible repeat' first | assumption | apply State.hi_kept | apply State.posFail_kept | apply Kept.ite | split

theorem execEncoderEdge_kept {q0 : List Instr} {n0 : Nat} (t : ℕ) (a : Fin 2) (la : Bool) (lb : Bool) (ts : ℕ) {s : State} (h : Kept q0 n0 s) :
    ∃ s', execEncoderEdge t a la lb ts s = .next s' ∧ Kept q0 (max n0 t) s' := by
  refine ⟨_, rfl, ?_⟩
  have h := State.upTo_kept t h
  with_reducible repeat' first | assumption | simp -zeta only [Kept.upd] | apply State.upTo_kept | apply State.modPos_kept | apply State.posIllegal_kept | apply State.posPublish_kept | apply State.count_kept | apply State.posMove_kept | apply State.missingIndex_kept | apply Kept.ite | dsimp -zeta only | (extract_lets +onlyGivenNames z; first | (refine Kept.cut z ?_ ?_ <;> [subst z; (intro hz; clear_value z)]) | (refine Kept.cut2 z ?_ ?_ <;> [subst z; (intro hz; clear_value z)]) | (have hz : State → _ := z; clear hz; subst z) | clear_value z) | (intro; intros) | split

theorem execHallTransition_kept {q0 : List Instr} {n0 : Nat} (t : ℕ) (a : Fin 2) (pat : BitVec 3) (ts : ℕ) {s : State} (h : Kept q0 n0 s) :
    ∃ s', execHallTransition t a pat ts s = .next s' ∧ Kept q0 (max n0 t) s' := by
  refine ⟨_, rfl, ?_⟩
  have h := State.upTo_kept t h
  with_reducible repeat' first | assumption | simp -zeta only [Kept.upd] | apply State.upTo_kept | apply State.hi_kept | apply State.modPos_kept | apply State.posPublish_kept | apply State.cond_kept | apply State.wr_kept | apply State.posMove_kept | apply State.posIllegal_kept | apply State.posCorrect_kept | apply Kept.ite | dsimp -zeta only | (extract_lets +onlyGivenNames z; first | (refine Kept.cut z ?_ ?_ <;> [subst z; (intro hz; clear_value z)]) | (refine Kept.cut2 z ?_ ?_ <;> [subst z; (intro hz; clear_value z)]) | (have hz : State → _ := z; clear hz; subst z) | clear_value z) | (intro; intros) | split

theorem execHallBadTimeout_kept {q0 : List Instr} {n0 : Nat} (t : ℕ) (a : Fin 2) {s : State} (h : Kept q0 n0 s) :
    ∃ s', execHallBadTimeout t a s = .next s' ∧ Kept q0 (max n0 t) s' := by
  refine ⟨_, rfl, ?_⟩
  have h := State.upTo_kept t h
  with_reducible repeat' first | assumption | apply State.upTo_kept | apply State.posFail_kept | apply State.posPublish_kept | apply Kept.ite | dsimp -zeta only | (extract_lets +onlyGivenNames z; first | (refine Kept.cut z ?_ ?_ <;> [subst z; (intro hz; clear_value z)]) | (refine Kept.cut2 z ?_ ?_ <;> [subst z; (intro hz; clear_value z)]) | (have hz : State → _ := z; clear hz; subst z) | clear_value z) | (intro; intros) | split

theorem State.lineCount_kept {q0 : List Instr} {n0 : Nat} {s : State} (a : ℕ) (e : ℤ) (h : Kept q0 n0 s) : Kept q0 n0 (State.lineCount s a e) := by
  unfold State.lineCount
  with_reducible repeat' first | assumption | simp -zeta only [Kept.upd] | apply State.count_kept | apply State.wr_kept | apply State.hi_kept | apply State.posCount_kept | apply State.event_kept | apply State.modPos_kept | apply State.posFail_kept | apply Kept.ite | dsimp -zeta only | (extract_lets +onlyGivenNames z; first | (refine Kept.cut z ?_ ?_ <;> [subst z; (intro hz; clear_value z)]) | (refine Kept.cut2 z ?_ ?_ <;> [subst z; (intro hz; clear_value z)]) | (have hz : State → _ := z; clear hz; subst z) | clear_value z) | (intro; intros) | split

theorem State.atReference_kept {q0 : List Instr} {n0 : Nat} {s : State} (a : ℕ) (h : Kept q0 n0 s) : Kept q0 n0 (State.atReference s a) := by
  unfold State.atReference
  with_reducible repeat' first | assumption | apply State.wr_kept | apply State.posCorrect_kept | apply State.event_kept | apply Kept.ite | dsimp -zeta only | (extract_lets +onlyGivenNames z; first | (refine Kept.cut z ?_ ?_ <;> [subst z; (intro hz; clear_value z)]) | (refine Kept.cut2 z ?_ ?_ <;> [subst z; (intro hz; clear_value z)]) | (have hz : State → _ := z; clear hz; subst z) | clear_value z) | split

theorem execIndexPulse_kept {q0 : List Instr} {n0 : Nat} (t : ℕ) (a : Fin 2) {s : State} (ts : optParam ℕ 0) (h : Kept q0 n0 s) :
    ∃ s', execIndexPulse t a s ts = .next s' ∧ Kept q0 (max n0 t) s' := by
  refine ⟨_, rfl, ?_⟩
  have h := State.upTo_kept t h
  with_reducible repeat' first | assumption | simp -zeta only [Kept.upd] | apply State.count_kept | apply State.upTo_kept | apply State.lineCount_kept | apply State.atReference_kept | apply State.modPos_kept | apply State.posPublish_kept | apply Kept.ite | dsimp -zeta only | (extract_lets +onlyGivenNames z; first | (refine Kept.cut z ?_ ?_ <;> [subst z; (intro hz; clear_value z)]) | (refine Kept.cut2 z ?_ ?_ <;> [subst z; (intro hz; clear_value z)]) | (have hz : State → _ := z; clear hz; subst z) | clear_value z) | (intro; intros) | split

theorem State.trainMark_kept {q0 : List Instr} {n0 : Nat} {s : State} (a : ℕ) (h : Kept q0 n0 s) : Kept q0 n0 (State.trainMark s a) := by
  unfold State.trainMark
  with_reducible repeat' first | assumption | simp -zeta only [Kept.upd] | apply State.lineCount_kept | apply State.atReference_kept | apply State.modPos_kept | apply Kept.ite | dsimp -zeta only | (extract_lets +onlyGivenNames z; first | (refine Kept.cut z ?_ ?_ <;> [subst z; (intro hz; clear_value z)]) | (refine Kept.cut2 z ?_ ?_ <;> [subst z; (intro hz; clear_value z)]) | (have hz : State → _ := z; clear hz; subst z) | clear_value z) | (intro; intros) | split

theorem execToothEdge_kept {q0 : List Instr} {n0 : Nat} (t : ℕ) (a : Fin 2) (lb : Bool) (ts : ℕ) {s : State} (h : Kept q0 n0 s) :
    ∃ s', execToothEdge t a lb ts s = .next s' ∧ Kept q0 (max n0 t) s' := by
  refine ⟨_, rfl, ?_⟩
  have h := State.upTo_kept t h
  with_reducible repeat' first | assumption | simp -zeta only [Kept.upd] | apply State.upTo_kept | apply State.modPos_kept | apply State.count_kept | apply State.posMove_kept | apply State.posIllegal_kept | apply State.trainMark_kept | apply State.missingIndex_kept | apply State.posPublish_kept | apply Kept.ite | dsimp -zeta only | (extract_lets +onlyGivenNames z; first | (refine Kept.cut z ?_ ?_ <;> [subst z; (intro hz; clear_value z)]) | (refine Kept.cut2 z ?_ ?_ <;> [subst z; (intro hz; clear_value z)]) | (have hz : State → _ := z; clear hz; subst z) | clear_value z) | (intro; intros) | split

theorem State.resolverLoss_kept {q0 : List Instr} {n0 : Nat} {s : State} (a : ℕ) (sin : ℤ) (cos : ℤ) (discarded : Bool) (h : Kept q0 n0 s) : Kept q0 n0 (State.resolverLoss s a sin cos discarded) := by
  unfold State.resolverLoss
  with_reducible repeat' first | assumption | simp -zeta only [Kept.upd] | apply State.modPos_kept | apply State.cond_kept | apply State.hi_kept | apply State.posCount_kept | apply State.posFail_kept | apply Kept.ite | dsimp -zeta only | (extract_lets +onlyGivenNames z; first | (refine Kept.cut z ?_ ?_ <;> [subst z; (intro hz; clear_value z)]) | (refine Kept.cut2 z ?_ ?_ <;> [subst z; (intro hz; clear_value z)]) | (have hz : State → _ := z; clear hz; subst z) | clear_value z) | (intro; intros) | split

theorem State.resolverTrack_kept {q0 : List Instr} {n0 : Nat} {s : State} (a : ℕ) (sn : ℤ) (cs : ℤ) (h : Kept q0 n0 s) : Kept q0 n0 (State.resolverTrack s a sn cs) := by
  unfold State.resolverTrack
  with_reducible repeat' first | assumption | simp -zeta only [Kept.upd] | apply State.modPos_kept | apply State.cond_kept | apply State.hi_kept | apply State.posCount_kept | apply State.posFail_kept | apply State.wr_kept | apply State.event_kept | apply Kept.ite | dsimp -zeta only | (extract_lets +onlyGivenNames z; first | (refine Kept.cut z ?_ ?_ <;> [subst z; (intro hz; clear_value z)]) | (refine Kept.cut2 z ?_ ?_ <;> [subst z; (intro hz; clear_value z)]) | (have hz : State → _ := z; clear hz; subst z) | clear_value z) | (intro; intros) | split

theorem execResolverSample_kept {q0 : List Instr} {n0 : Nat} (t : ℕ) (a : Fin 2) (sin : ℤ) (cos : ℤ) (neg : Bool) (discarded : Bool) {s : State} (h : Kept q0 n0 s) :
    ∃ s', execResolverSample t a sin cos neg discarded s = .next s' ∧ Kept q0 (max n0 t) s' := by
  refine ⟨_, rfl, ?_⟩
  have h := State.upTo_kept t h
  with_reducible repeat' first | assumption | simp -zeta only [Kept.upd] | apply State.upTo_kept | apply State.modPos_kept | apply State.modAdc_kept | apply State.resolverLoss_kept | apply State.posPublish_kept | apply State.resolverTrack_kept | apply Kept.ite | dsimp -zeta only | (extract_lets +onlyGivenNames z; first | (refine Kept.cut z ?_ ?_ <;> [subst z; (intro hz; clear_value z)]) | (refine Kept.cut2 z ?_ ?_ <;> [subst z; (intro hz; clear_value z)]) | (have hz : State → _ := z; clear hz; subst z) | clear_value z) | (intro; intros) | split

theorem execEdgeTimeout_kept {q0 : List Instr} {n0 : Nat} (t : ℕ) (a : Fin 2) {s : State} (h : Kept q0 n0 s) :
    ∃ s', execEdgeTimeout t a s = .next s' ∧ Kept q0 (max n0 t) s' := by
  refine ⟨_, rfl, ?_⟩
  have h := State.upTo_kept t h
  with_reducible repeat' first | assumption | apply State.upTo_kept | apply State.posPublish_kept | apply Kept.ite | dsimp -zeta only | (extract_lets +onlyGivenNames z; first | (refine Kept.cut z ?_ ?_ <;> [subst z; (intro hz; clear_value z)]) | (refine Kept.cut2 z ?_ ?_ <;> [subst z; (intro hz; clear_value z)]) | (have hz : State → _ := z; clear hz; subst z) | clear_value z) | split

theorem execPositionFrame_kept {q0 : List Instr} {n0 : Nat} (t : ℕ) (a : Fin 2) (ok : Bool) {s : State} (h : Kept q0 n0 s) :
    ∃ s', execPositionFrame t a ok s = .next s' ∧ Kept q0 (max n0 t) s' := by
  refine ⟨_, rfl, ?_⟩
  have h := State.upTo_kept t h
  with_reducible repeat' first | assumption | simp -zeta only [Kept.upd] | apply State.upTo_kept | apply State.modPos_kept | apply State.posPublish_kept | apply State.modUz_kept | apply State.speedMark_kept | apply State.emfMark_kept | apply State.brakeTravel_kept | apply Kept.ite | dsimp -zeta only | (extract_lets +onlyGivenNames z; first | (refine Kept.cut z ?_ ?_ <;> [subst z; (intro hz; clear_value z)]) | (refine Kept.cut2 z ?_ ?_ <;> [subst z; (intro hz; clear_value z)]) | (have hz : State → _ := z; clear hz; subst z) | clear_value z) | (intro; intros) | split

theorem execPositionFrameTimeout_kept {q0 : List Instr} {n0 : Nat} (t : ℕ) (a : Fin 2) {s : State} (h : Kept q0 n0 s) :
    ∃ s', execPositionFrameTimeout t a s = .next s' ∧ Kept q0 (max n0 t) s' := by
  refine ⟨_, rfl, ?_⟩
  have h := State.upTo_kept t h
  with_reducible repeat' first | assumption | simp -zeta only [Kept.upd] | apply State.upTo_kept | apply State.modUz_kept | apply State.activateRow_kept | apply Kept.ite | dsimp -zeta only | (extract_lets +onlyGivenNames z; first | (refine Kept.cut z ?_ ?_ <;> [subst z; (intro hz; clear_value z)]) | (refine Kept.cut2 z ?_ ?_ <;> [subst z; (intro hz; clear_value z)]) | (have hz : State → _ := z; clear hz; subst z) | clear_value z) | (intro; intros) | split

theorem execCompareHit_kept {q0 : List Instr} {n0 : Nat} (t : ℕ) (a : Fin 2) {s : State} (h : Kept q0 n0 s) :
    ∃ s', execCompareHit t a s = .next s' ∧ Kept q0 (max n0 t) s' := by
  refine ⟨_, rfl, ?_⟩
  have h := State.upTo_kept t h
  with_reducible repeat' first | assumption | simp -zeta only [Kept.upd] | apply State.upTo_kept | apply step_kept | apply State.modPos_kept | apply State.hi_kept | apply State.wr64_kept | apply State.cond_kept | apply State.emit_kept | apply State.setReg_kept | apply State.lo_kept | apply State.cmpJudge_kept | apply State.wrSat_kept | apply State.event_kept | apply Kept.ite | dsimp -zeta only | (extract_lets +onlyGivenNames z; first | (refine Kept.cut z ?_ ?_ <;> [subst z; (intro hz; clear_value z)]) | (refine Kept.cut2 z ?_ ?_ <;> [subst z; (intro hz; clear_value z)]) | (have hz : State → _ := z; clear hz; subst z) | clear_value z) | (intro; intros) | split

theorem execPosCntSatClear_kept {q0 : List Instr} {n0 : Nat} (t : ℕ) (a : Fin 2) {s : State} (h : Kept q0 n0 s) :
    ∃ s', execPosCntSatClear t a s = .next s' ∧ Kept q0 (max n0 t) s' := by
  refine ⟨_, rfl, ?_⟩
  have h := State.upTo_kept t h
  with_reducible repeat' first | assumption | apply State.upTo_kept | apply State.clearCounts_kept | apply Kept.ite | dsimp -zeta only | (extract_lets +onlyGivenNames z; first | (refine Kept.cut z ?_ ?_ <;> [subst z; (intro hz; clear_value z)]) | (refine Kept.cut2 z ?_ ?_ <;> [subst z; (intro hz; clear_value z)]) | (have hz : State → _ := z; clear hz; subst z) | clear_value z) | split

end Sys2Proof.Machine
end

