-- ==== Sys2Proof/Laws/KeptRegWrite.lean ====
section
/-!
SUPPORT. What the operations of Machine/RegWrite keep: the queue, the clock and the form of the stores.
-/

namespace Sys2Proof.Machine

theorem execCpxMinSatClear_kept {q0 : List Instr} {n0 : Nat} (t : ℕ) {s : State} (h : Kept q0 n0 s) :
    ∃ s', execCpxMinSatClear t s = .next s' ∧ Kept q0 (max n0 t) s' := by
  refine ⟨_, rfl, ?_⟩
  have h := State.upTo_kept t h
  with_reducible repeat' first | assumption | apply State.upTo_kept | apply State.clearBit_kept | apply State.lo_kept | apply Kept.ite | dsimp -zeta only | (extract_lets +onlyGivenNames z; first | (refine Kept.cut z ?_ ?_ <;> [subst z; (intro hz; clear_value z)]) | (refine Kept.cut2 z ?_ ?_ <;> [subst z; (intro hz; clear_value z)]) | (have hz : State → _ := z; clear hz; subst z) | clear_value z) | split

theorem State.effect_kept {q0 : List Instr} {n0 : Nat} {s : State} (f : ℕ → State → Host.Outcome State Fault Refusal)
    (h : Kept q0 n0 s) (hf : ∃ s', f s.now s = .next s' ∧ Kept q0 (max n0 s.now) s') : Kept q0 n0 (State.effect s f) := by
  obtain ⟨s', h1, h2⟩ := hf
  have hn : max n0 s.now = n0 := by rw [h.clock, Nat.max_self]
  unfold State.effect
  rw [h1]
  exact hn ▸ h2

theorem State.plain_kept {q0 : List Instr} {n0 : Nat} {s : State} (off : ℕ) (d : BitVec 32) (h : Kept q0 n0 s) : Kept q0 n0 (State.plain s off d) := by
  unfold State.plain
  with_reducible repeat' first | assumption | simp -zeta only [Kept.upd] | apply State.setReg_kept | dsimp -zeta only | split

theorem State.plainBl_kept {q0 : List Instr} {n0 : Nat} {s : State} (off : ℕ) (d : BitVec 32) (h : Kept q0 n0 s) : Kept q0 n0 (State.plainBl s off d) := by
  unfold State.plainBl
  with_reducible repeat' first | assumption | simp -zeta only [Kept.upd] | apply State.boot_kept | apply State.setReg_kept | apply Kept.ite | dsimp -zeta only | split

theorem State.readyOnly_kept {q0 : List Instr} {n0 : Nat} {s : State} (off : ℕ) (d : BitVec 32) (flag : State → State) (f : State → State) (h : Kept q0 n0 s) (h_flag : ∀ y0, Kept q0 n0 y0 → Kept q0 n0 (flag y0)) (h_f : ∀ y0, Kept q0 n0 y0 → Kept q0 n0 (f y0)) : Kept q0 n0 (State.readyOnly s off d flag f) := by
  unfold State.readyOnly
  with_reducible repeat' first | assumption | apply h_flag | apply h_f | apply State.boot_kept | apply State.cond_kept | apply State.plainBl_kept | apply Kept.ite | dsimp -zeta only | (intro; intros) | split

theorem State.wrPck_kept {q0 : List Instr} {n0 : Nat} {s : State} (off : ℕ) (d : BitVec 32) (h : Kept q0 n0 s) : Kept q0 n0 (State.wrPck s off d) := by
  unfold State.wrPck
  with_reducible repeat' first | assumption | simp -zeta only [Kept.upd] | apply State.plain_kept | apply State.modPwr_kept | apply State.cond_kept | apply State.effect_kept | apply execLossSatClear_kept | apply Kept.ite | dsimp -zeta only | (extract_lets +onlyGivenNames z; first | (refine Kept.cut z ?_ ?_ <;> [subst z; (intro hz; clear_value z)]) | (refine Kept.cut2 z ?_ ?_ <;> [subst z; (intro hz; clear_value z)]) | (have hz : State → _ := z; clear hz; subst z) | clear_value z) | (intro; intros) | split

theorem State.wrRing_kept {q0 : List Instr} {n0 : Nat} {s : State} (r : Fin 11) (rel : ℕ) (off : ℕ) (d : BitVec 32) (h : Kept q0 n0 s) : Kept q0 n0 (State.wrRing s r rel off d) := by
  unfold State.wrRing
  with_reducible repeat' first | assumption | apply State.lo_kept | apply State.cond_kept | apply State.hi_kept | apply State.effect_kept | apply execHifRcntSatClear_kept | apply State.ringConfig_kept | apply State.plain_kept | apply Kept.ite | dsimp -zeta only | (extract_lets +onlyGivenNames z; first | (refine Kept.cut z ?_ ?_ <;> [subst z; (intro hz; clear_value z)]) | (refine Kept.cut2 z ?_ ?_ <;> [subst z; (intro hz; clear_value z)]) | (have hz : State → _ := z; clear hz; subst z) | clear_value z) | (intro; intros) | split

theorem State.wrMsix_kept {q0 : List Instr} {n0 : Nat} {s : State} (off : ℕ) (d : BitVec 32) (h : Kept q0 n0 s) : Kept q0 n0 (State.wrMsix s off d) := by
  unfold State.wrMsix
  with_reducible repeat' first | assumption | apply State.plain_kept | apply State.lo_kept | apply State.emit_kept | apply Kept.ite | dsimp -zeta only | (extract_lets +onlyGivenNames z; first | (refine Kept.cut z ?_ ?_ <;> [subst z; (intro hz; clear_value z)]) | (refine Kept.cut2 z ?_ ?_ <;> [subst z; (intro hz; clear_value z)]) | (have hz : State → _ := z; clear hz; subst z) | clear_value z) | split

theorem State.wrHif_kept {q0 : List Instr} {n0 : Nat} {s : State} (off : ℕ) (d : BitVec 32) (h : Kept q0 n0 s) : Kept q0 n0 (State.wrHif s off d) := by
  unfold State.wrHif
  with_reducible repeat' first | assumption | simp -zeta only [Kept.upd] | apply State.plain_kept | apply State.cond_kept | apply State.modHif_kept | apply State.wrRing_kept | apply State.doorbell_kept | apply State.wrMsix_kept | apply Kept.ite | dsimp -zeta only | (extract_lets +onlyGivenNames z; first | (refine Kept.cut z ?_ ?_ <;> [subst z; (intro hz; clear_value z)]) | (refine Kept.cut2 z ?_ ?_ <;> [subst z; (intro hz; clear_value z)]) | (have hz : State → _ := z; clear hz; subst z) | clear_value z) | (intro; intros) | split

theorem State.wrCpx_kept {q0 : List Instr} {n0 : Nat} {s : State} (off : ℕ) (d : BitVec 32) (h : Kept q0 n0 s) : Kept q0 n0 (State.wrCpx s off d) := by
  unfold State.wrCpx
  with_reducible repeat' first | assumption | simp -zeta only [Kept.upd] | apply State.instant_kept | apply State.readyOnly_kept | apply State.hi_kept | apply State.plain_kept | apply State.modCpu_kept | apply State.cond_kept | apply State.effect_kept | apply execCpxMinSatClear_kept | apply execRestart_kept | apply Kept.ite | dsimp -zeta only | (extract_lets +onlyGivenNames z; first | (refine Kept.cut z ?_ ?_ <;> [subst z; (intro hz; clear_value z)]) | (refine Kept.cut2 z ?_ ?_ <;> [subst z; (intro hz; clear_value z)]) | (have hz : State → _ := z; clear hz; subst z) | clear_value z) | (intro; intros) | split

theorem State.wrFslAxis_kept {q0 : List Instr} {n0 : Nat} {s : State} (a : Fin 2) (rel : ℕ) (off : ℕ) (d : BitVec 32) (h : Kept q0 n0 s) : Kept q0 n0 (State.wrFslAxis s a rel off d) := by
  unfold State.wrFslAxis
  with_reducible repeat' first | assumption | apply State.readyOnly_kept | apply State.hi_kept | apply State.plain_kept | apply State.cond_kept | apply State.effect_kept | apply execMaxClr_kept | apply execSwap_kept | apply execPub_kept | apply Kept.ite | dsimp -zeta only | (extract_lets +onlyGivenNames z; first | (refine Kept.cut z ?_ ?_ <;> [subst z; (intro hz; clear_value z)]) | (refine Kept.cut2 z ?_ ?_ <;> [subst z; (intro hz; clear_value z)]) | (have hz : State → _ := z; clear hz; subst z) | clear_value z) | (intro; intros) | split

theorem State.wrField_kept {q0 : List Instr} {n0 : Nat} {s : State} (a : Fin 2) (rel : ℕ) (off : ℕ) (d : BitVec 32) (h : Kept q0 n0 s) : Kept q0 n0 (State.wrField s a rel off d) := by
  unfold State.wrField
  with_reducible repeat' first | assumption | apply State.plain_kept | apply State.moved_kept | apply State.readyOnly_kept | apply State.cond_kept | apply State.hi_kept | apply State.fieldCfg_kept | apply State.effect_kept | apply execRearm_kept | apply Kept.ite | dsimp -zeta only | (extract_lets +onlyGivenNames z; first | (refine Kept.cut z ?_ ?_ <;> [subst z; (intro hz; clear_value z)]) | (refine Kept.cut2 z ?_ ?_ <;> [subst z; (intro hz; clear_value z)]) | (have hz : State → _ := z; clear hz; subst z) | clear_value z) | (intro; intros) | split

theorem State.wrFsl_kept {q0 : List Instr} {n0 : Nat} {s : State} (off : ℕ) (d : BitVec 32) (h : Kept q0 n0 s) : Kept q0 n0 (State.wrFsl s off d) := by
  unfold State.wrFsl
  with_reducible repeat' first | assumption | apply State.plain_kept | apply State.wrB_kept | apply State.cond_kept | apply State.effect_kept | apply execFslCtlSatClear_kept | apply execRun_kept | apply execMemWindowAccess_kept | apply execFslOvrSatClear_kept | apply State.wrFslAxis_kept | apply State.traceWrite_kept | apply execTraceForce_kept | apply State.wrField_kept | apply Kept.ite | dsimp -zeta only | (extract_lets +onlyGivenNames z; first | (refine Kept.cut z ?_ ?_ <;> [subst z; (intro hz; clear_value z)]) | (refine Kept.cut2 z ?_ ?_ <;> [subst z; (intro hz; clear_value z)]) | (have hz : State → _ := z; clear hz; subst z) | clear_value z) | (intro; intros) | split

theorem State.wrCarrier_kept {q0 : List Instr} {n0 : Nat} {s : State} (c : Fin 2) (rel : ℕ) (off : ℕ) (d : BitVec 32) (h : Kept q0 n0 s) : Kept q0 n0 (State.wrCarrier s c rel off d) := by
  unfold State.wrCarrier
  with_reducible repeat' first | assumption | simp -zeta only [Kept.upd] | apply State.plain_kept | apply State.cond_kept | apply State.effect_kept | apply execPwmLdiscSatClear_kept | apply State.modCar_kept | apply execCommitWord_kept | apply State.hi_kept | apply State.readyOnly_kept | apply Kept.ite | dsimp -zeta only | (extract_lets +onlyGivenNames z; first | (refine Kept.cut z ?_ ?_ <;> [subst z; (intro hz; clear_value z)]) | (refine Kept.cut2 z ?_ ?_ <;> [subst z; (intro hz; clear_value z)]) | (have hz : State → _ := z; clear hz; subst z) | clear_value z) | (intro; intros) | split

theorem State.wrPwm_kept {q0 : List Instr} {n0 : Nat} {s : State} (off : ℕ) (d : BitVec 32) (h : Kept q0 n0 s) : Kept q0 n0 (State.wrPwm s off d) := by
  unfold State.wrPwm
  with_reducible repeat' first | assumption | apply State.wrCarrier_kept | apply State.readyOnly_kept | apply State.hi_kept | apply State.plain_kept | apply Kept.ite | dsimp -zeta only | (intro; intros) | split

theorem State.gdcWrite_kept {q0 : List Instr} {n0 : Nat} {s : State} (n : ℕ) (off : ℕ) (d : BitVec 32) (h : Kept q0 n0 s) : Kept q0 n0 (State.gdcWrite s n off d) := by
  unfold State.gdcWrite
  with_reducible repeat' first | assumption | apply State.plain_kept | apply State.cond_kept | apply State.gdcChanged_kept | dsimp -zeta only | (extract_lets +onlyGivenNames z; first | (refine Kept.cut z ?_ ?_ <;> [subst z; (intro hz; clear_value z)]) | (refine Kept.cut2 z ?_ ?_ <;> [subst z; (intro hz; clear_value z)]) | (have hz : State → _ := z; clear hz; subst z) | clear_value z) | (intro; intros)

theorem State.wrGdc_kept {q0 : List Instr} {n0 : Nat} {s : State} (off : ℕ) (d : BitVec 32) (h : Kept q0 n0 s) : Kept q0 n0 (State.wrGdc s off d) := by
  unfold State.wrGdc
  with_reducible repeat' first | assumption | apply State.effect_kept | apply execDiagStart_kept | apply State.plain_kept | apply State.readyOnly_kept | apply State.hi_kept | apply State.gdcWrite_kept | apply State.cond_kept | apply execGdcCntSatClear_kept | apply Kept.ite | dsimp -zeta only | (extract_lets +onlyGivenNames z; first | (refine Kept.cut z ?_ ?_ <;> [subst z; (intro hz; clear_value z)]) | (refine Kept.cut2 z ?_ ?_ <;> [subst z; (intro hz; clear_value z)]) | (have hz : State → _ := z; clear hz; subst z) | clear_value z) | (intro; intros) | split

theorem State.wrAdc_kept {q0 : List Instr} {n0 : Nat} {s : State} (off : ℕ) (d : BitVec 32) (h : Kept q0 n0 s) : Kept q0 n0 (State.wrAdc s off d) := by
  unfold State.wrAdc
  with_reducible repeat' first | assumption | apply State.cond_kept | apply State.effect_kept | apply execAdcNomajSatClear_kept | apply State.plain_kept | apply execAdcCntSatClear_kept | apply execTdacStart_kept | apply State.moved_kept | apply State.readyOnly_kept | apply State.each_kept | apply State.hi_kept | apply execCastlingForce_kept | apply Kept.ite | dsimp -zeta only | (extract_lets +onlyGivenNames z; first | (refine Kept.cut z ?_ ?_ <;> [subst z; (intro hz; clear_value z)]) | (refine Kept.cut2 z ?_ ?_ <;> [subst z; (intro hz; clear_value z)]) | (have hz : State → _ := z; clear hz; subst z) | clear_value z) | (intro; intros) | split

theorem State.wrPos_kept {q0 : List Instr} {n0 : Nat} {s : State} (off : ℕ) (d : BitVec 32) (h : Kept q0 n0 s) : Kept q0 n0 (State.wrPos s off d) := by
  unfold State.wrPos
  with_reducible repeat' first | assumption | apply State.cond_kept | apply State.effect_kept | apply execPosCntSatClear_kept | apply execCompareHit_kept | apply State.plain_kept | apply State.cmpJudge_kept | apply State.readyOnly_kept | apply State.hi_kept | apply State.excUpdate_kept | apply Kept.ite | dsimp -zeta only | (extract_lets +onlyGivenNames z; first | (refine Kept.cut z ?_ ?_ <;> [subst z; (intro hz; clear_value z)]) | (refine Kept.cut2 z ?_ ?_ <;> [subst z; (intro hz; clear_value z)]) | (have hz : State → _ := z; clear hz; subst z) | clear_value z) | (intro; intros) | split

theorem State.policyWrite_kept {q0 : List Instr} {n0 : Nat} {s : State} (off : ℕ) (d : BitVec 32) (h : Kept q0 n0 s) : Kept q0 n0 (State.policyWrite s off d) := by
  unfold State.policyWrite
  with_reducible repeat' first | assumption | apply State.plain_kept | apply State.each_kept | apply State.hi_kept | apply Kept.ite | dsimp -zeta only | (intro; intros) | split

theorem State.wrMot_kept {q0 : List Instr} {n0 : Nat} {s : State} (off : ℕ) (d : BitVec 32) (h : Kept q0 n0 s) : Kept q0 n0 (State.wrMot s off d) := by
  unfold State.wrMot
  with_reducible repeat' first | assumption | apply State.policyWrite_kept | apply State.plain_kept | apply State.cond_kept | apply State.effect_kept | apply execMotHovSatClear_kept | apply execHalt_kept | apply execGo_kept | apply State.readyOnly_kept | apply State.hi_kept | apply State.limCfg_kept | apply Kept.ite | dsimp -zeta only | (extract_lets +onlyGivenNames z; first | (refine Kept.cut z ?_ ?_ <;> [subst z; (intro hz; clear_value z)]) | (refine Kept.cut2 z ?_ ?_ <;> [subst z; (intro hz; clear_value z)]) | (have hz : State → _ := z; clear hz; subst z) | clear_value z) | (intro; intros) | split

theorem State.wrChn_kept {q0 : List Instr} {n0 : Nat} {s : State} (off : ℕ) (d : BitVec 32) (h : Kept q0 n0 s) : Kept q0 n0 (State.wrChn s off d) := by
  unfold State.wrChn
  with_reducible repeat' first | assumption | apply State.cond_kept | apply State.rollStart_kept | apply State.effect_kept | apply execChnDropSatClear_kept | apply execChnErrSatClear_kept | apply State.plain_kept | apply Kept.ite | dsimp -zeta only | (intro; intros) | split

theorem State.wrCan_kept {q0 : List Instr} {n0 : Nat} {s : State} (off : ℕ) (d : BitVec 32) (h : Kept q0 n0 s) : Kept q0 n0 (State.wrCan s off d) := by
  unfold State.wrCan
  with_reducible repeat' first | assumption | apply State.cond_kept | apply State.plain_kept | apply State.canSnap_kept | apply State.hi_kept | apply State.wrB_kept | apply State.canLeaveInit_kept | apply State.canInit_kept | apply State.effect_kept | apply execCanCntSatClear_kept | apply Kept.ite | dsimp -zeta only | (extract_lets +onlyGivenNames z; first | (refine Kept.cut z ?_ ?_ <;> [subst z; (intro hz; clear_value z)]) | (refine Kept.cut2 z ?_ ?_ <;> [subst z; (intro hz; clear_value z)]) | (have hz : State → _ := z; clear hz; subst z) | clear_value z) | (intro; intros) | split

theorem State.wrRec_kept {q0 : List Instr} {n0 : Nat} {s : State} (off : ℕ) (d : BitVec 32) (h : Kept q0 n0 s) : Kept q0 n0 (State.wrRec s off d) := by
  unfold State.wrRec
  with_reducible repeat' first | assumption | apply State.cond_kept | apply State.effect_kept | apply execFlush_kept | apply execFormat_kept | apply execRecCntSatClear_kept | apply State.plain_kept | apply Kept.ite | dsimp -zeta only | (extract_lets +onlyGivenNames z; first | (refine Kept.cut z ?_ ?_ <;> [subst z; (intro hz; clear_value z)]) | (refine Kept.cut2 z ?_ ?_ <;> [subst z; (intro hz; clear_value z)]) | (have hz : State → _ := z; clear hz; subst z) | clear_value z) | (intro; intros) | split

theorem State.wrJrn_kept {q0 : List Instr} {n0 : Nat} {s : State} (off : ℕ) (d : BitVec 32) (h : Kept q0 n0 s) : Kept q0 n0 (State.wrJrn s off d) := by
  unfold State.wrJrn
  with_reducible repeat' first | assumption | apply State.plain_kept | apply State.cond_kept | apply State.effect_kept | apply execJrnCntSatClear_kept | dsimp -zeta only | (intro; intros)

theorem State.wrSec_kept {q0 : List Instr} {n0 : Nat} {s : State} (off : ℕ) (d : BitVec 32) (h : Kept q0 n0 s) : Kept q0 n0 (State.wrSec s off d) := by
  unfold State.wrSec
  with_reducible repeat' first | assumption | apply State.plain_kept | apply State.cond_kept | apply State.effect_kept | apply execRecoveryGo_kept | apply Kept.ite | dsimp -zeta only | (extract_lets +onlyGivenNames z; first | (refine Kept.cut z ?_ ?_ <;> [subst z; (intro hz; clear_value z)]) | (refine Kept.cut2 z ?_ ?_ <;> [subst z; (intro hz; clear_value z)]) | (have hz : State → _ := z; clear hz; subst z) | clear_value z) | (intro; intros) | split

theorem State.putReg_kept {q0 : List Instr} {n0 : Nat} {s : State} (off : ℕ) (d : BitVec 32) (h : Kept q0 n0 s) : Kept q0 n0 (State.putReg s off d) := by
  unfold State.putReg
  with_reducible repeat' first | assumption | simp -zeta only [Kept.upd] | apply State.wrPck_kept | apply State.wrHif_kept | apply State.wrJrn_kept | apply State.wrCpx_kept | apply State.wrFsl_kept | apply State.wrPwm_kept | apply State.wrGdc_kept | apply State.wrAdc_kept | apply State.wrPos_kept | apply State.wrMot_kept | apply State.cond_kept | apply State.effect_kept | apply execSafFirstRearm_kept | apply State.plain_kept | apply State.wrChn_kept | apply State.wrCan_kept | apply State.wrRec_kept | apply State.wrSec_kept | apply Kept.ite | dsimp -zeta only | (intro; intros) | split

theorem State.lockCount_kept {q0 : List Instr} {n0 : Nat} {s : State} (src : Writer) (h : Kept q0 n0 s) : Kept q0 n0 (State.lockCount s src) := by
  unfold State.lockCount
  with_reducible repeat' first | assumption | apply State.bump_kept | apply State.wr_kept | apply State.cond_kept | apply State.hi_kept | apply State.event_kept | dsimp -zeta only | (extract_lets +onlyGivenNames z; first | (refine Kept.cut z ?_ ?_ <;> [subst z; (intro hz; clear_value z)]) | (refine Kept.cut2 z ?_ ?_ <;> [subst z; (intro hz; clear_value z)]) | (have hz : State → _ := z; clear hz; subst z) | clear_value z) | (intro; intros)

theorem State.hostWrite_kept {q0 : List Instr} {n0 : Nat} {s : State} (src : Writer) (off : ℕ) (d : BitVec 32) (full : Bool) (h : Kept q0 n0 s) : Kept q0 n0 (State.hostWrite s src off d full) := by
  unfold State.hostWrite
  with_reducible repeat' first | assumption | apply State.putReg_kept | apply State.cond_kept | apply State.lockCount_kept | apply State.hi_kept | apply Kept.ite | dsimp -zeta only | (extract_lets +onlyGivenNames z; first | (refine Kept.cut z ?_ ?_ <;> [subst z; (intro hz; clear_value z)]) | (refine Kept.cut2 z ?_ ?_ <;> [subst z; (intro hz; clear_value z)]) | (have hz : State → _ := z; clear hz; subst z) | clear_value z) | (intro; intros) | split

theorem State.innerWrite_kept {q0 : List Instr} {n0 : Nat} {s : State} (src : Writer) (off : ℕ) (d : BitVec 32) (h : Kept q0 n0 s) : Kept q0 n0 (State.innerWrite s src off d) := by
  unfold State.innerWrite
  with_reducible repeat' first | assumption | simp -zeta only [Kept.upd] | apply State.lockCount_kept | apply State.putReg_kept | apply Kept.ite | dsimp -zeta only | (extract_lets +onlyGivenNames z; first | (refine Kept.cut z ?_ ?_ <;> [subst z; (intro hz; clear_value z)]) | (refine Kept.cut2 z ?_ ?_ <;> [subst z; (intro hz; clear_value z)]) | (have hz : State → _ := z; clear hz; subst z) | clear_value z) | split

theorem State.writeReg_kept {q0 : List Instr} {n0 : Nat} {s : State} (src : Writer) (off : ℕ) (d : BitVec 32) (be : BitVec 4) (h : Kept q0 n0 s) : Kept q0 n0 (State.writeReg s src off d be) := by
  unfold State.writeReg
  with_reducible repeat' first | assumption | simp -zeta only [Kept.upd] | apply State.hostWrite_kept | apply State.innerWrite_kept | apply Kept.ite | dsimp -zeta only | (extract_lets +onlyGivenNames z; first | (refine Kept.cut z ?_ ?_ <;> [subst z; (intro hz; clear_value z)]) | (refine Kept.cut2 z ?_ ?_ <;> [subst z; (intro hz; clear_value z)]) | (have hz : State → _ := z; clear hz; subst z) | clear_value z) | split

theorem State.writeSram_kept {q0 : List Instr} {n0 : Nat} {s : State} (src : Writer) (off : ℕ) (d : BitVec 32)
    (be : BitVec 4) (h : Kept q0 n0 s) : Kept q0 n0 (State.writeSram s src off d be) := by
  unfold State.writeSram
  exact Kept.ite (h.sram (memWf_memPutBe _ d be)) h

theorem execRegisterWrite_kept {q0 : List Instr} {n0 : Nat} (t : ℕ) (src : Writer) (bar2 : Bool) (off : BitVec 21) (data : Word) (be : BitVec 4) {s : State} (h : Kept q0 n0 s) :
    ∃ s', execRegisterWrite t src bar2 off data be s = .next s' ∧ Kept q0 (max n0 t) s' := by
  refine ⟨_, rfl, ?_⟩
  have h := State.upTo_kept t h
  with_reducible repeat' first | assumption | apply State.upTo_kept | apply State.writeSram_kept | apply State.writeReg_kept | apply Kept.ite | dsimp -zeta only | (extract_lets +onlyGivenNames z; first | (refine Kept.cut z ?_ ?_ <;> [subst z; (intro hz; clear_value z)]) | (refine Kept.cut2 z ?_ ?_ <;> [subst z; (intro hz; clear_value z)]) | (have hz : State → _ := z; clear hz; subst z) | clear_value z) | split

end Sys2Proof.Machine
end

