-- ==== Sys2Proof/Laws/KeptCommands.lean ====
section
/-!
SUPPORT. What the operations of Machine/Commands keep: the queue, the clock and the form of the stores.
-/

namespace Sys2Proof.Machine

theorem State.runEnd_kept {q0 : List Instr} {n0 : Nat} {s : State} (n : ℕ) (h : Kept q0 n0 s) : Kept q0 n0 (State.runEnd s n) := by
  unfold State.runEnd
  with_reducible repeat' first | assumption | apply State.releaseFrom_kept | dsimp -zeta only | (intro; intros)

theorem State.runCmd_kept {q0 : List Instr} {n0 : Nat} {s : State} (r : ℕ) (is : Cmd → Bool) (f : State → Cmd → State) (h : Kept q0 n0 s) (h_f : ∀ y0 y1, Kept q0 n0 y0 → Kept q0 n0 (f y0 y1)) : Kept q0 n0 (State.runCmd s r is f) := by
  unfold State.runCmd
  with_reducible repeat' first | assumption | simp -zeta only [Kept.upd] | apply h_f | apply State.release_kept | apply State.begin__kept | apply State.runEnd_kept | apply Kept.ite | dsimp -zeta only | (intro; intros) | split

theorem State.runOp_kept {q0 : List Instr} {n0 : Nat} {s : State} (r : ℕ) (op : ℕ) (f : State → Cmd → State) (h : Kept q0 n0 s) (h_f : ∀ y0 y1, Kept q0 n0 y0 → Kept q0 n0 (f y0 y1)) : Kept q0 n0 (State.runOp s r op f) := by
  unfold State.runOp
  with_reducible repeat' first | assumption | apply h_f | apply State.runCmd_kept | dsimp -zeta only | (intro; intros)

theorem State.done_kept {q0 : List Instr} {n0 : Nat} {s : State} (c : Cmd) (status : ℕ) (h : Kept q0 n0 s) : Kept q0 n0 (State.done s c status) := by
  unfold State.done
  with_reducible repeat' first | assumption | apply State.complete_kept

theorem State.soRetest_kept {q0 : List Instr} {n0 : Nat} {s : State} (fail : List ℕ) (h : Kept q0 n0 s) : Kept q0 n0 (State.soRetest s fail) := by
  unfold State.soRetest
  with_reducible repeat' first | assumption | apply State.each_kept | apply State.output_kept | apply State.wr_kept | apply State.soUpdate_kept | apply State.latchedBit_kept | apply Kept.ite | dsimp -zeta only | (extract_lets +onlyGivenNames z; first | (refine Kept.cut z ?_ ?_ <;> [subst z; (intro hz; clear_value z)]) | (refine Kept.cut2 z ?_ ?_ <;> [subst z; (intro hz; clear_value z)]) | (have hz : State → _ := z; clear hz; subst z) | clear_value z) | (intro; intros) | split

theorem State.holdToReady_kept {q0 : List Instr} {n0 : Nat} {s : State} (c : Cmd) (l : List ℕ) (fail : List ℕ) (h : Kept q0 n0 s) : Kept q0 n0 (State.holdToReady s c l fail) := by
  unfold State.holdToReady
  with_reducible repeat' first | assumption | simp -zeta only [Kept.upd] | apply State.soRetest_kept | apply State.done_kept | apply State.each_kept | apply State.setAxMode_kept | apply State.modUz_kept | apply State.wr_kept | apply State.regate_kept | apply State.soUpdate_kept | apply State.latchedBit_kept | apply Kept.ite | dsimp -zeta only | (extract_lets +onlyGivenNames z; first | (refine Kept.cut z ?_ ?_ <;> [subst z; (intro hz; clear_value z)]) | (refine Kept.cut2 z ?_ ?_ <;> [subst z; (intro hz; clear_value z)]) | (have hz : State → _ := z; clear hz; subst z) | clear_value z) | (intro; intros) | split

theorem State.setMode_kept {q0 : List Instr} {n0 : Nat} {s : State} (c : Cmd) (fail : List ℕ) (h : Kept q0 n0 s) : Kept q0 n0 (State.setMode s c fail) := by
  unfold State.setMode
  with_reducible repeat' first | assumption | apply State.complete_kept | apply State.done_kept | apply State.activateFor_kept | apply State.holdToReady_kept | apply State.enterWatch_kept | apply State.releaseHeld_kept | apply State.startShutdown_kept | apply Kept.ite | dsimp -zeta only | (extract_lets +onlyGivenNames z; first | (refine Kept.cut z ?_ ?_ <;> [subst z; (intro hz; clear_value z)]) | (refine Kept.cut2 z ?_ ?_ <;> [subst z; (intro hz; clear_value z)]) | (have hz : State → _ := z; clear hz; subst z) | clear_value z) | (intro; intros) | split

theorem State.armActs_kept {q0 : List Instr} {n0 : Nat} {s : State} (c : Cmd) (h : Kept q0 n0 s) : Kept q0 n0 (State.armActs s c) := by
  unfold State.armActs
  with_reducible repeat' first | assumption | simp -zeta only [Kept.upd] | apply State.modFc_kept | apply State.lineClose_kept | apply State.openContactors_kept | apply State.modSaf_kept | apply State.soUpdate_kept | apply State.done_kept | apply Kept.ite | dsimp -zeta only | (extract_lets +onlyGivenNames z; first | (refine Kept.cut z ?_ ?_ <;> [subst z; (intro hz; clear_value z)]) | (refine Kept.cut2 z ?_ ?_ <;> [subst z; (intro hz; clear_value z)]) | (have hz : State → _ := z; clear hz; subst z) | clear_value z) | (intro; intros) | split

theorem State.armCmd_kept {q0 : List Instr} {n0 : Nat} {s : State} (c : Cmd) (path : Bool) (h : Kept q0 n0 s) : Kept q0 n0 (State.armCmd s c path) := by
  unfold State.armCmd
  with_reducible repeat' first | assumption | apply State.done_kept | apply State.activateRow_kept | apply State.armActs_kept | apply Kept.ite | dsimp -zeta only | (extract_lets +onlyGivenNames z; first | (refine Kept.cut z ?_ ?_ <;> [subst z; (intro hz; clear_value z)]) | (refine Kept.cut2 z ?_ ?_ <;> [subst z; (intro hz; clear_value z)]) | (have hz : State → _ := z; clear hz; subst z) | clear_value z) | split

theorem State.startCmd_kept {q0 : List Instr} {n0 : Nat} {s : State} (c : Cmd) (h : Kept q0 n0 s) : Kept q0 n0 (State.startCmd s c) := by
  unfold State.startCmd
  with_reducible repeat' first | assumption | simp -zeta only [Kept.upd] | apply State.done_kept | apply State.modUz_kept | apply State.release_kept | apply State.startCatch_kept | apply State.modFc_kept | apply Kept.ite | dsimp -zeta only | (extract_lets +onlyGivenNames z; first | (refine Kept.cut z ?_ ?_ <;> [subst z; (intro hz; clear_value z)]) | (refine Kept.cut2 z ?_ ?_ <;> [subst z; (intro hz; clear_value z)]) | (have hz : State → _ := z; clear hz; subst z) | clear_value z) | (intro; intros) | split

theorem State.stopCmd_kept {q0 : List Instr} {n0 : Nat} {s : State} (c : Cmd) (h : Kept q0 n0 s) : Kept q0 n0 (State.stopCmd s c) := by
  unfold State.stopCmd
  with_reducible repeat' first | assumption | simp -zeta only [Kept.upd] | apply State.catchAbort_kept | apply State.modUz_kept | apply State.release_kept | apply State.done_kept | apply State.modFc_kept | apply State.stopAxis_kept | apply Kept.ite | dsimp -zeta only | (extract_lets +onlyGivenNames z; first | (refine Kept.cut z ?_ ?_ <;> [subst z; (intro hz; clear_value z)]) | (refine Kept.cut2 z ?_ ?_ <;> [subst z; (intro hz; clear_value z)]) | (have hz : State → _ := z; clear hz; subst z) | clear_value z) | (intro; intros) | split

theorem State.publishCmd_kept {q0 : List Instr} {n0 : Nat} {s : State} (c : Cmd) (a : ℕ) (h : Kept q0 n0 s) : Kept q0 n0 (State.publishCmd s c a) := by
  unfold State.publishCmd
  with_reducible repeat' first | assumption | apply State.publishSp_kept | apply State.done_kept | apply Kept.ite | dsimp -zeta only | (extract_lets +onlyGivenNames z; first | (refine Kept.cut z ?_ ?_ <;> [subst z; (intro hz; clear_value z)]) | (refine Kept.cut2 z ?_ ?_ <;> [subst z; (intro hz; clear_value z)]) | (have hz : State → _ := z; clear hz; subst z) | clear_value z) | split

theorem State.stageCommon_kept {q0 : List Instr} {n0 : Nat} {s : State} (c : Cmd) (a : ℕ) (h : Kept q0 n0 s) : Kept q0 n0 (State.stageCommon s c a) := by
  unfold State.stageCommon
  with_reducible repeat' first | assumption | apply State.setReg_kept | dsimp -zeta only | (extract_lets +onlyGivenNames z; first | (refine Kept.cut z ?_ ?_ <;> [subst z; (intro hz; clear_value z)]) | (refine Kept.cut2 z ?_ ?_ <;> [subst z; (intro hz; clear_value z)]) | (have hz : State → _ := z; clear hz; subst z) | clear_value z)

theorem State.setTorqueCmd_kept {q0 : List Instr} {n0 : Nat} {s : State} (c : Cmd) (h : Kept q0 n0 s) : Kept q0 n0 (State.setTorqueCmd s c) := by
  unfold State.setTorqueCmd
  with_reducible repeat' first | assumption | apply State.setReg_kept | apply State.stageCommon_kept | apply State.publishCmd_kept | apply Kept.ite | dsimp -zeta only | (extract_lets +onlyGivenNames z; first | (refine Kept.cut z ?_ ?_ <;> [subst z; (intro hz; clear_value z)]) | (refine Kept.cut2 z ?_ ?_ <;> [subst z; (intro hz; clear_value z)]) | (have hz : State → _ := z; clear hz; subst z) | clear_value z) | split

theorem State.setSpeedCmd_kept {q0 : List Instr} {n0 : Nat} {s : State} (c : Cmd) (h : Kept q0 n0 s) : Kept q0 n0 (State.setSpeedCmd s c) := by
  unfold State.setSpeedCmd
  with_reducible repeat' first | assumption | apply State.setReg_kept | apply State.stageCommon_kept | apply State.publishCmd_kept | apply Kept.ite | dsimp -zeta only | (extract_lets +onlyGivenNames z; first | (refine Kept.cut z ?_ ?_ <;> [subst z; (intro hz; clear_value z)]) | (refine Kept.cut2 z ?_ ?_ <;> [subst z; (intro hz; clear_value z)]) | (have hz : State → _ := z; clear hz; subst z) | clear_value z) | split

theorem State.profileParams_kept {q0 : List Instr} {n0 : Nat} {s : State} (c : Cmd) (h : Kept q0 n0 s) : Kept q0 n0 (State.profileParams s c) := by
  unfold State.profileParams
  with_reducible repeat' first | assumption | apply State.each_kept | apply State.setReg_kept | apply State.done_kept | dsimp -zeta only | (extract_lets +onlyGivenNames z; first | (refine Kept.cut z ?_ ?_ <;> [subst z; (intro hz; clear_value z)]) | (refine Kept.cut2 z ?_ ?_ <;> [subst z; (intro hz; clear_value z)]) | (have hz : State → _ := z; clear hz; subst z) | clear_value z) | (intro; intros)

theorem State.profileControl_kept {q0 : List Instr} {n0 : Nat} {s : State} (c : Cmd) (h : Kept q0 n0 s) : Kept q0 n0 (State.profileControl s c) := by
  unfold State.profileControl
  with_reducible repeat' first | assumption | apply State.plain_kept | apply State.motHalt_kept | apply State.motGo_kept | apply State.wrB_kept | apply State.done_kept | apply Kept.ite | dsimp -zeta only | (extract_lets +onlyGivenNames z; first | (refine Kept.cut z ?_ ?_ <;> [subst z; (intro hz; clear_value z)]) | (refine Kept.cut2 z ?_ ?_ <;> [subst z; (intro hz; clear_value z)]) | (have hz : State → _ := z; clear hz; subst z) | clear_value z) | split

theorem State.setLimitsCmd_kept {q0 : List Instr} {n0 : Nat} {s : State} (c : Cmd) (h : Kept q0 n0 s) : Kept q0 n0 (State.setLimitsCmd s c) := by
  unfold State.setLimitsCmd
  with_reducible repeat' first | assumption | apply State.done_kept | apply State.cond_kept | apply State.wrB_kept | apply State.setReg_kept | apply State.limCfg_kept | apply State.publishCmd_kept | apply Kept.ite | dsimp -zeta only | (extract_lets +onlyGivenNames z; first | (refine Kept.cut z ?_ ?_ <;> [subst z; (intro hz; clear_value z)]) | (refine Kept.cut2 z ?_ ?_ <;> [subst z; (intro hz; clear_value z)]) | (have hz : State → _ := z; clear hz; subst z) | clear_value z) | (intro; intros) | split

theorem State.brakeTestCmd_kept {q0 : List Instr} {n0 : Nat} {s : State} (c : Cmd) (h : Kept q0 n0 s) : Kept q0 n0 (State.brakeTestCmd s c) := by
  unfold State.brakeTestCmd
  with_reducible repeat' first | assumption | simp -zeta only [Kept.upd] | apply State.done_kept | apply State.modSaf_kept | apply State.capture_kept | apply State.enterRun_kept | apply State.commandCurrent_kept | apply Kept.ite | dsimp -zeta only | (extract_lets +onlyGivenNames z; first | (refine Kept.cut z ?_ ?_ <;> [subst z; (intro hz; clear_value z)]) | (refine Kept.cut2 z ?_ ?_ <;> [subst z; (intro hz; clear_value z)]) | (have hz : State → _ := z; clear hz; subst z) | clear_value z) | (intro; intros) | split

theorem State.dischargeCmd_kept {q0 : List Instr} {n0 : Nat} {s : State} (c : Cmd) (h : Kept q0 n0 s) : Kept q0 n0 (State.dischargeCmd s c) := by
  unfold State.dischargeCmd
  with_reducible repeat' first | assumption | simp -zeta only [Kept.upd] | apply State.done_kept | apply State.requestDischarge_kept | apply State.dchBarred_kept | apply Kept.ite | dsimp -zeta only | (extract_lets +onlyGivenNames z; first | (refine Kept.cut z ?_ ?_ <;> [subst z; (intro hz; clear_value z)]) | (refine Kept.cut2 z ?_ ?_ <;> [subst z; (intro hz; clear_value z)]) | (have hz : State → _ := z; clear hz; subst z) | clear_value z) | split

theorem State.policyCmd_kept {q0 : List Instr} {n0 : Nat} {s : State} (c : Cmd) (h : Kept q0 n0 s) : Kept q0 n0 (State.policyCmd s c) := by
  unfold State.policyCmd
  with_reducible repeat' first | assumption | apply State.policyWrite_kept | apply State.done_kept | apply Kept.ite | dsimp -zeta only | (extract_lets +onlyGivenNames z; first | (refine Kept.cut z ?_ ?_ <;> [subst z; (intro hz; clear_value z)]) | (refine Kept.cut2 z ?_ ?_ <;> [subst z; (intro hz; clear_value z)]) | (have hz : State → _ := z; clear hz; subst z) | clear_value z) | split

theorem execNop_kept {q0 : List Instr} {n0 : Nat} (t : ℕ) (r : Fin 4) {s : State} (h : Kept q0 n0 s) :
    ∃ s', execNop t r s = .next s' ∧ Kept q0 (max n0 t) s' := by
  refine ⟨_, rfl, ?_⟩
  have h := State.upTo_kept t h
  with_reducible repeat' first | assumption | apply State.upTo_kept | apply State.runOp_kept | apply State.done_kept | dsimp -zeta only | (intro; intros)

theorem execQueryState_kept {q0 : List Instr} {n0 : Nat} (t : ℕ) (r : Fin 4) {s : State} (h : Kept q0 n0 s) :
    ∃ s', execQueryState t r s = .next s' ∧ Kept q0 (max n0 t) s' := by
  refine ⟨_, rfl, ?_⟩
  have h := State.upTo_kept t h
  with_reducible repeat' first | assumption | apply State.upTo_kept | apply State.runOp_kept | apply State.complete_kept | dsimp -zeta only | (intro; intros)

theorem execSetMode_kept {q0 : List Instr} {n0 : Nat} (t : ℕ) (r : Fin 4) (so : List ℕ) {s : State} (h : Kept q0 n0 s) :
    ∃ s', execSetMode t r so s = .next s' ∧ Kept q0 (max n0 t) s' := by
  refine ⟨_, rfl, ?_⟩
  have h := State.upTo_kept t h
  with_reducible repeat' first | assumption | apply State.upTo_kept | apply State.runOp_kept | apply State.setMode_kept | dsimp -zeta only | (intro; intros)

theorem execArm_kept {q0 : List Instr} {n0 : Nat} (t : ℕ) (r : Fin 4) (path : Bool) {s : State} (h : Kept q0 n0 s) :
    ∃ s', execArm t r path s = .next s' ∧ Kept q0 (max n0 t) s' := by
  refine ⟨_, rfl, ?_⟩
  have h := State.upTo_kept t h
  with_reducible repeat' first | assumption | apply State.upTo_kept | apply State.runOp_kept | apply State.armCmd_kept | dsimp -zeta only | (intro; intros)

theorem execStart_kept {q0 : List Instr} {n0 : Nat} (t : ℕ) (r : Fin 4) {s : State} (h : Kept q0 n0 s) :
    ∃ s', execStart t r s = .next s' ∧ Kept q0 (max n0 t) s' := by
  refine ⟨_, rfl, ?_⟩
  have h := State.upTo_kept t h
  with_reducible repeat' first | assumption | apply State.upTo_kept | apply State.runOp_kept | apply State.startCmd_kept | dsimp -zeta only

theorem execStop_kept {q0 : List Instr} {n0 : Nat} (t : ℕ) (r : Fin 4) {s : State} (h : Kept q0 n0 s) :
    ∃ s', execStop t r s = .next s' ∧ Kept q0 (max n0 t) s' := by
  refine ⟨_, rfl, ?_⟩
  have h := State.upTo_kept t h
  with_reducible repeat' first | assumption | apply State.upTo_kept | apply State.runOp_kept | apply State.stopCmd_kept | dsimp -zeta only

theorem execSetTorque_kept {q0 : List Instr} {n0 : Nat} (t : ℕ) (r : Fin 4) {s : State} (h : Kept q0 n0 s) :
    ∃ s', execSetTorque t r s = .next s' ∧ Kept q0 (max n0 t) s' := by
  refine ⟨_, rfl, ?_⟩
  have h := State.upTo_kept t h
  with_reducible repeat' first | assumption | apply State.upTo_kept | apply State.runOp_kept | apply State.setTorqueCmd_kept | dsimp -zeta only

theorem execSetSpeed_kept {q0 : List Instr} {n0 : Nat} (t : ℕ) (r : Fin 4) {s : State} (h : Kept q0 n0 s) :
    ∃ s', execSetSpeed t r s = .next s' ∧ Kept q0 (max n0 t) s' := by
  refine ⟨_, rfl, ?_⟩
  have h := State.upTo_kept t h
  with_reducible repeat' first | assumption | apply State.upTo_kept | apply State.runOp_kept | apply State.setSpeedCmd_kept | dsimp -zeta only

theorem execLoadProfileParams_kept {q0 : List Instr} {n0 : Nat} (t : ℕ) (r : Fin 4) {s : State} (h : Kept q0 n0 s) :
    ∃ s', execLoadProfileParams t r s = .next s' ∧ Kept q0 (max n0 t) s' := by
  refine ⟨_, rfl, ?_⟩
  have h := State.upTo_kept t h
  with_reducible repeat' first | assumption | apply State.upTo_kept | apply State.runCmd_kept | apply State.profileParams_kept | dsimp -zeta only | (intro; intros)

theorem execLoadProfileTable_kept {q0 : List Instr} {n0 : Nat} (t : ℕ) (r : Fin 4) {s : State} (h : Kept q0 n0 s) :
    ∃ s', execLoadProfileTable t r s = .next s' ∧ Kept q0 (max n0 t) s' := by
  refine ⟨_, rfl, ?_⟩
  have h := State.upTo_kept t h
  with_reducible repeat' first | assumption | simp -zeta only [Kept.upd] | apply State.upTo_kept | apply State.runCmd_kept | apply State.done_kept | apply State.modHif_kept | apply Kept.ite | dsimp -zeta only | (extract_lets +onlyGivenNames z; first | (refine Kept.cut z ?_ ?_ <;> [subst z; (intro hz; clear_value z)]) | (refine Kept.cut2 z ?_ ?_ <;> [subst z; (intro hz; clear_value z)]) | (have hz : State → _ := z; clear hz; subst z) | clear_value z) | (intro; intros) | split

theorem execLoadProfileControl_kept {q0 : List Instr} {n0 : Nat} (t : ℕ) (r : Fin 4) {s : State} (h : Kept q0 n0 s) :
    ∃ s', execLoadProfileControl t r s = .next s' ∧ Kept q0 (max n0 t) s' := by
  refine ⟨_, rfl, ?_⟩
  have h := State.upTo_kept t h
  with_reducible repeat' first | assumption | apply State.upTo_kept | apply State.runCmd_kept | apply State.profileControl_kept | dsimp -zeta only | (intro; intros)

theorem execSetLimits_kept {q0 : List Instr} {n0 : Nat} (t : ℕ) (r : Fin 4) {s : State} (h : Kept q0 n0 s) :
    ∃ s', execSetLimits t r s = .next s' ∧ Kept q0 (max n0 t) s' := by
  refine ⟨_, rfl, ?_⟩
  have h := State.upTo_kept t h
  with_reducible repeat' first | assumption | apply State.upTo_kept | apply State.runOp_kept | apply State.setLimitsCmd_kept | dsimp -zeta only

theorem execBrakeTest_kept {q0 : List Instr} {n0 : Nat} (t : ℕ) (r : Fin 4) {s : State} (h : Kept q0 n0 s) :
    ∃ s', execBrakeTest t r s = .next s' ∧ Kept q0 (max n0 t) s' := by
  refine ⟨_, rfl, ?_⟩
  have h := State.upTo_kept t h
  with_reducible repeat' first | assumption | apply State.upTo_kept | apply State.runOp_kept | apply State.brakeTestCmd_kept | dsimp -zeta only

theorem execDischarge_kept {q0 : List Instr} {n0 : Nat} (t : ℕ) (r : Fin 4) {s : State} (h : Kept q0 n0 s) :
    ∃ s', execDischarge t r s = .next s' ∧ Kept q0 (max n0 t) s' := by
  refine ⟨_, rfl, ?_⟩
  have h := State.upTo_kept t h
  with_reducible repeat' first | assumption | apply State.upTo_kept | apply State.runOp_kept | apply State.dischargeCmd_kept | dsimp -zeta only

theorem execHandoverPolicy_kept {q0 : List Instr} {n0 : Nat} (t : ℕ) (r : Fin 4) {s : State} (h : Kept q0 n0 s) :
    ∃ s', execHandoverPolicy t r s = .next s' ∧ Kept q0 (max n0 t) s' := by
  refine ⟨_, rfl, ?_⟩
  have h := State.upTo_kept t h
  with_reducible repeat' first | assumption | apply State.upTo_kept | apply State.runOp_kept | apply State.policyCmd_kept | dsimp -zeta only

end Sys2Proof.Machine
end

