-- ==== Sys2Proof/Laws/KeptDataCmds.lean ====
section
/-!
SUPPORT. What the operations of Machine/DataCmds keep: the queue, the clock and the form of the stores.
-/

namespace Sys2Proof.Machine

theorem State.move_kept {q0 : List Instr} {n0 : Nat} {s : State} (j : MoverJob) (h : Kept q0 n0 s) : Kept q0 n0 (State.move s j) := by
  unfold State.move
  with_reducible repeat' first | assumption | simp -zeta only [Kept.upd] | apply State.modHif_kept | apply Kept.ite | dsimp -zeta only | (intro; intros) | split

theorem State.traceArmCmd_kept {q0 : List Instr} {n0 : Nat} {s : State} (c : Cmd) (h : Kept q0 n0 s) : Kept q0 n0 (State.traceArmCmd s c) := by
  unfold State.traceArmCmd
  with_reducible repeat' first | assumption | apply State.plain_kept | apply State.each_kept | apply State.traceWrite_kept | apply State.cond_kept | apply State.effect_kept | apply execTraceForce_kept | apply State.done_kept | dsimp -zeta only | (extract_lets +onlyGivenNames z; first | (refine Kept.cut z ?_ ?_ <;> [subst z; (intro hz; clear_value z)]) | (refine Kept.cut2 z ?_ ?_ <;> [subst z; (intro hz; clear_value z)]) | (have hz : State → _ := z; clear hz; subst z) | clear_value z) | (intro; intros) | split

theorem State.traceFlaws_kept {q0 : List Instr} {n0 : Nat} {s : State} (n : ℕ) (bads : List ℕ) (fixed : List ℕ) (h : Kept q0 n0 s) : Kept q0 n0 (State.traceFlaws s n bads fixed) := by
  unfold State.traceFlaws
  with_reducible repeat' first | assumption | apply State.each_kept | apply State.fslEccFixed_kept | apply State.traceRead_kept | dsimp -zeta only | (extract_lets +onlyGivenNames z; first | (refine Kept.cut z ?_ ?_ <;> [subst z; (intro hz; clear_value z)]) | (refine Kept.cut2 z ?_ ?_ <;> [subst z; (intro hz; clear_value z)]) | (have hz : State → _ := z; clear hz; subst z) | clear_value z) | (intro; intros)

theorem State.traceReadCmd_kept {q0 : List Instr} {n0 : Nat} {s : State} (bads : List ℕ) (fixed : List ℕ) (c : Cmd) (h : Kept q0 n0 s) : Kept q0 n0 (State.traceReadCmd s bads fixed c) := by
  unfold State.traceReadCmd
  with_reducible repeat' first | assumption | apply State.done_kept | apply State.traceFlaws_kept | apply State.move_kept | apply Kept.ite | dsimp -zeta only | (extract_lets +onlyGivenNames z; first | (refine Kept.cut z ?_ ?_ <;> [subst z; (intro hz; clear_value z)]) | (refine Kept.cut2 z ?_ ?_ <;> [subst z; (intro hz; clear_value z)]) | (have hz : State → _ := z; clear hz; subst z) | clear_value z) | split

theorem State.journalQueryCmd_kept {q0 : List Instr} {n0 : Nat} {s : State} (c : Cmd) (h : Kept q0 n0 s) : Kept q0 n0 (State.journalQueryCmd s c) := by
  unfold State.journalQueryCmd
  with_reducible repeat' first | assumption | apply State.done_kept | apply State.move_kept | apply Kept.ite | dsimp -zeta only | (extract_lets +onlyGivenNames z; first | (refine Kept.cut z ?_ ?_ <;> [subst z; (intro hz; clear_value z)]) | (refine Kept.cut2 z ?_ ?_ <;> [subst z; (intro hz; clear_value z)]) | (have hz : State → _ := z; clear hz; subst z) | clear_value z) | (intro; intros) | split

theorem State.recReadCmd_kept {q0 : List Instr} {n0 : Nat} {s : State} (c : Cmd) (h : Kept q0 n0 s) : Kept q0 n0 (State.recReadCmd s c) := by
  unfold State.recReadCmd
  with_reducible repeat' first | assumption | simp -zeta only [Kept.upd] | apply State.done_kept | apply State.move_kept | apply Kept.ite | dsimp -zeta only | (extract_lets +onlyGivenNames z; first | (refine Kept.cut z ?_ ?_ <;> [subst z; (intro hz; clear_value z)]) | (refine Kept.cut2 z ?_ ?_ <;> [subst z; (intro hz; clear_value z)]) | (have hz : State → _ := z; clear hz; subst z) | clear_value z) | (intro; intros) | split

theorem State.recMarkCmd_kept {q0 : List Instr} {n0 : Nat} {s : State} (c : Cmd) (h : Kept q0 n0 s) : Kept q0 n0 (State.recMarkCmd s c) := by
  unfold State.recMarkCmd
  with_reducible repeat' first | assumption | simp -zeta only [Kept.upd] | apply State.done_kept | apply State.recAdd_kept | apply State.modRec_kept | apply State.flushStaging_kept | apply Kept.ite | dsimp -zeta only | (extract_lets +onlyGivenNames z; first | (refine Kept.cut z ?_ ?_ <;> [subst z; (intro hz; clear_value z)]) | (refine Kept.cut2 z ?_ ?_ <;> [subst z; (intro hz; clear_value z)]) | (have hz : State → _ := z; clear hz; subst z) | clear_value z) | (intro; intros) | split

theorem State.abandonStage_kept {q0 : List Instr} {n0 : Nat} {s : State} (h : Kept q0 n0 s) : Kept q0 n0 (State.abandonStage s) := by
  unfold State.abandonStage
  with_reducible repeat' first | assumption | simp -zeta only [Kept.upd] | apply State.dropStage_kept | apply State.modRec_kept | apply State.modHif_kept | apply State.done_kept | apply foldl_kept | apply foldl2_kept | apply Kept.ite | dsimp -zeta only | (extract_lets +onlyGivenNames z; first | (refine Kept.cut z ?_ ?_ <;> [subst z; (intro hz; clear_value z)]) | (refine Kept.cut2 z ?_ ?_ <;> [subst z; (intro hz; clear_value z)]) | (have hz : State → _ := z; clear hz; subst z) | clear_value z) | (intro; intros) | split

theorem State.fwStageCmd_kept {q0 : List Instr} {n0 : Nat} {s : State} (c : Cmd) (h : Kept q0 n0 s) : Kept q0 n0 (State.fwStageCmd s c) := by
  unfold State.fwStageCmd
  with_reducible repeat' first | assumption | simp -zeta only [Kept.upd] | apply State.done_kept | apply State.abandonStage_kept | apply State.modRec_kept | apply State.move_kept | apply Kept.ite | dsimp -zeta only | (extract_lets +onlyGivenNames z; first | (refine Kept.cut z ?_ ?_ <;> [subst z; (intro hz; clear_value z)]) | (refine Kept.cut2 z ?_ ?_ <;> [subst z; (intro hz; clear_value z)]) | (have hz : State → _ := z; clear hz; subst z) | clear_value z) | (intro; intros) | split

theorem State.fwPartMoved_kept {q0 : List Instr} {n0 : Nat} {s : State} (c : Cmd) (obj : ℕ) (off : ℕ) (len : ℕ) (last : Bool) (data : List Byte) (h : Kept q0 n0 s) : Kept q0 n0 (State.fwPartMoved s c obj off len last data) := by
  unfold State.fwPartMoved
  with_reducible repeat' first | assumption | simp -zeta only [Kept.upd] | apply State.done_kept | apply State.takeBlks_kept | apply State.modRec_kept | apply State.partDone_kept | apply Kept.ite | dsimp -zeta only | (extract_lets +onlyGivenNames z; first | (refine Kept.cut z ?_ ?_ <;> [subst z; (intro hz; clear_value z)]) | (refine Kept.cut2 z ?_ ?_ <;> [subst z; (intro hz; clear_value z)]) | (have hz : State → _ := z; clear hz; subst z) | clear_value z) | (intro; intros) | split

theorem State.fwCommitCmd_kept {q0 : List Instr} {n0 : Nat} {s : State} (c : Cmd) (h : Kept q0 n0 s) : Kept q0 n0 (State.fwCommitCmd s c) := by
  unfold State.fwCommitCmd
  with_reducible repeat' first | assumption | simp -zeta only [Kept.upd] | apply State.boot_kept | apply step_kept | apply State.done_kept | apply State.cond_kept | apply State.advanceTo_kept | apply State.arbRegs_kept | apply State.event_kept | apply State.modRec_kept | apply Kept.ite | dsimp -zeta only | (extract_lets +onlyGivenNames z; first | (refine Kept.cut z ?_ ?_ <;> [subst z; (intro hz; clear_value z)]) | (refine Kept.cut2 z ?_ ?_ <;> [subst z; (intro hz; clear_value z)]) | (have hz : State → _ := z; clear hz; subst z) | clear_value z) | (intro; intros) | split

theorem State.attestCmd_kept {q0 : List Instr} {n0 : Nat} {s : State} (c : Cmd) (h : Kept q0 n0 s) : Kept q0 n0 (State.attestCmd s c) := by
  unfold State.attestCmd
  with_reducible repeat' first | assumption | simp -zeta only [Kept.upd] | apply State.done_kept | apply State.modSec_kept | apply Kept.ite | dsimp -zeta only | (intro; intros) | split

theorem State.chainSendCmd_kept {q0 : List Instr} {n0 : Nat} {s : State} (c : Cmd) (h : Kept q0 n0 s) : Kept q0 n0 (State.chainSendCmd s c) := by
  unfold State.chainSendCmd
  with_reducible repeat' first | assumption | apply State.done_kept | apply State.move_kept | apply Kept.ite | dsimp -zeta only | (extract_lets +onlyGivenNames z; first | (refine Kept.cut z ?_ ?_ <;> [subst z; (intro hz; clear_value z)]) | (refine Kept.cut2 z ?_ ?_ <;> [subst z; (intro hz; clear_value z)]) | (have hz : State → _ := z; clear hz; subst z) | clear_value z) | split

theorem State.chainSendMoved_kept {q0 : List Instr} {n0 : Nat} {s : State} (c : Cmd) (dst : ℕ) (ty : ℕ) (data : List Byte) (h : Kept q0 n0 s) : Kept q0 n0 (State.chainSendMoved s c dst ty data) := by
  unfold State.chainSendMoved
  with_reducible repeat' first | assumption | simp -zeta only [Kept.upd] | apply State.modChain_kept | apply Kept.ite | dsimp -zeta only | (extract_lets +onlyGivenNames z; first | (refine Kept.cut z ?_ ?_ <;> [subst z; (intro hz; clear_value z)]) | (refine Kept.cut2 z ?_ ?_ <;> [subst z; (intro hz; clear_value z)]) | (have hz : State → _ := z; clear hz; subst z) | clear_value z) | (intro; intros) | split

theorem State.canConfigured_kept {q0 : List Instr} {n0 : Nat} {s : State} (c : Cmd) (n : ℕ) (k : ℕ) (bs : List Byte) (h : Kept q0 n0 s) : Kept q0 n0 (State.canConfigured s c n k bs) := by
  unfold State.canConfigured
  with_reducible repeat' first | assumption | apply State.done_kept | apply State.putCanObj_kept | apply State.canOwnBit_kept | apply Kept.ite | dsimp -zeta only | (extract_lets +onlyGivenNames z; first | (refine Kept.cut z ?_ ?_ <;> [subst z; (intro hz; clear_value z)]) | (refine Kept.cut2 z ?_ ?_ <;> [subst z; (intro hz; clear_value z)]) | (have hz : State → _ := z; clear hz; subst z) | clear_value z) | split

theorem State.canTransmitted_kept {q0 : List Instr} {n0 : Nat} {s : State} (c : Cmd) (n : ℕ) (k : ℕ) (bs : List Byte) (h : Kept q0 n0 s) : Kept q0 n0 (State.canTransmitted s c n k bs) := by
  unfold State.canTransmitted
  with_reducible repeat' first | assumption | simp -zeta only [Kept.upd] | apply State.done_kept | apply State.putCanObj_kept | apply State.canOwnBit_kept | apply State.modCan_kept | dsimp -zeta only | (extract_lets +onlyGivenNames z; first | (refine Kept.cut z ?_ ?_ <;> [subst z; (intro hz; clear_value z)]) | (refine Kept.cut2 z ?_ ?_ <;> [subst z; (intro hz; clear_value z)]) | (have hz : State → _ := z; clear hz; subst z) | clear_value z) | (intro; intros) | split

theorem State.runCan_kept {q0 : List Instr} {n0 : Nat} {s : State} (r : ℕ) (action : ℕ) (f : State → Cmd → ℕ → ℕ → State) (h : Kept q0 n0 s) (h_f : ∀ y0 y1 y2 y3, Kept q0 n0 y0 → Kept q0 n0 (f y0 y1 y2 y3)) : Kept q0 n0 (State.runCan s r action f) := by
  unfold State.runCan
  with_reducible repeat' first | assumption | apply h_f | apply State.runCmd_kept | dsimp -zeta only | (intro; intros)

theorem State.tlmConfigCmd_kept {q0 : List Instr} {n0 : Nat} {s : State} (c : Cmd) (h : Kept q0 n0 s) : Kept q0 n0 (State.tlmConfigCmd s c) := by
  unfold State.tlmConfigCmd
  with_reducible repeat' first | assumption | simp -zeta only [Kept.upd] | apply State.drop_kept | apply State.done_kept | apply State.wr_kept | apply State.each_kept | apply State.setReg_kept | apply State.modStr_kept | apply Kept.ite | dsimp -zeta only | (extract_lets +onlyGivenNames z; first | (refine Kept.cut z ?_ ?_ <;> [subst z; (intro hz; clear_value z)]) | (refine Kept.cut2 z ?_ ?_ <;> [subst z; (intro hz; clear_value z)]) | (have hz : State → _ := z; clear hz; subst z) | clear_value z) | (intro; intros) | split

theorem State.moverStores_kept {q0 : List Instr} {n0 : Nat} {s : State} (j : MoverJob) (h : Kept q0 n0 s) : Kept q0 n0 (State.moverStores s j) := by
  unfold State.moverStores
  with_reducible repeat' first | assumption | simp -zeta only [Kept.upd] | apply State.cond_kept | apply State.emit_kept | apply State.hostWrite_kept | apply Kept.put | apply Kept.ite | dsimp -zeta only | (intro; intros) | split

theorem State.moved_kept {q0 : List Instr} {n0 : Nat} {s : State} (j : MoverJob) (data : List Byte) (h : Kept q0 n0 s) : Kept q0 n0 (State.moved s j data) := by
  unfold State.moved
  with_reducible repeat' first | assumption | simp -zeta only [Kept.upd] | apply State.done_kept | apply State.complete_kept | apply State.each_kept | apply State.putCoef_kept | apply State.fwPartMoved_kept | apply State.chainSendMoved_kept | apply State.canConfigured_kept | apply State.canTransmitted_kept | apply Kept.ite | dsimp -zeta only | (extract_lets +onlyGivenNames z; first | (refine Kept.cut z ?_ ?_ <;> [subst z; (intro hz; clear_value z)]) | (refine Kept.cut2 z ?_ ?_ <;> [subst z; (intro hz; clear_value z)]) | (have hz : State → _ := z; clear hz; subst z) | clear_value z) | (intro; intros) | split

theorem execTraceArm_kept {q0 : List Instr} {n0 : Nat} (t : ℕ) (r : Fin 4) {s : State} (h : Kept q0 n0 s) :
    ∃ s', execTraceArm t r s = .next s' ∧ Kept q0 (max n0 t) s' := by
  refine ⟨_, rfl, ?_⟩
  have h := State.upTo_kept t h
  with_reducible repeat' first | assumption | apply State.upTo_kept | apply State.runOp_kept | apply State.traceArmCmd_kept | dsimp -zeta only

theorem execTraceRead_kept {q0 : List Instr} {n0 : Nat} (t : ℕ) (r : Fin 4) {s : State} (bads : optParam (List ℕ) []) (fixed : optParam (List ℕ) []) (h : Kept q0 n0 s) :
    ∃ s', execTraceRead t r s bads fixed = .next s' ∧ Kept q0 (max n0 t) s' := by
  refine ⟨_, rfl, ?_⟩
  have h := State.upTo_kept t h
  with_reducible repeat' first | assumption | apply State.upTo_kept | apply State.runOp_kept | apply State.traceReadCmd_kept | dsimp -zeta only | (intro; intros)

theorem execJournalQuery_kept {q0 : List Instr} {n0 : Nat} (t : ℕ) (r : Fin 4) {s : State} (h : Kept q0 n0 s) :
    ∃ s', execJournalQuery t r s = .next s' ∧ Kept q0 (max n0 t) s' := by
  refine ⟨_, rfl, ?_⟩
  have h := State.upTo_kept t h
  with_reducible repeat' first | assumption | apply State.upTo_kept | apply State.runOp_kept | apply State.journalQueryCmd_kept | dsimp -zeta only

theorem execRecRead_kept {q0 : List Instr} {n0 : Nat} (t : ℕ) (r : Fin 4) {s : State} (h : Kept q0 n0 s) :
    ∃ s', execRecRead t r s = .next s' ∧ Kept q0 (max n0 t) s' := by
  refine ⟨_, rfl, ?_⟩
  have h := State.upTo_kept t h
  with_reducible repeat' first | assumption | apply State.upTo_kept | apply State.runOp_kept | apply State.recReadCmd_kept | dsimp -zeta only

theorem execRecMark_kept {q0 : List Instr} {n0 : Nat} (t : ℕ) (r : Fin 4) {s : State} (h : Kept q0 n0 s) :
    ∃ s', execRecMark t r s = .next s' ∧ Kept q0 (max n0 t) s' := by
  refine ⟨_, rfl, ?_⟩
  have h := State.upTo_kept t h
  with_reducible repeat' first | assumption | apply State.upTo_kept | apply State.runOp_kept | apply State.recMarkCmd_kept | dsimp -zeta only

theorem execFwStage_kept {q0 : List Instr} {n0 : Nat} (t : ℕ) (r : Fin 4) {s : State} (h : Kept q0 n0 s) :
    ∃ s', execFwStage t r s = .next s' ∧ Kept q0 (max n0 t) s' := by
  refine ⟨_, rfl, ?_⟩
  have h := State.upTo_kept t h
  with_reducible repeat' first | assumption | apply State.upTo_kept | apply State.runOp_kept | apply State.fwStageCmd_kept | dsimp -zeta only

theorem execFwCommitActivate_kept {q0 : List Instr} {n0 : Nat} (t : ℕ) (r : Fin 4) {s : State} (h : Kept q0 n0 s) :
    ∃ s', execFwCommitActivate t r s = .next s' ∧ Kept q0 (max n0 t) s' := by
  refine ⟨_, rfl, ?_⟩
  have h := State.upTo_kept t h
  with_reducible repeat' first | assumption | apply State.upTo_kept | apply State.runCmd_kept | apply State.fwCommitCmd_kept | dsimp -zeta only | (intro; intros)

theorem execFwCommitAdvance_kept {q0 : List Instr} {n0 : Nat} (t : ℕ) (r : Fin 4) {s : State} (h : Kept q0 n0 s) :
    ∃ s', execFwCommitAdvance t r s = .next s' ∧ Kept q0 (max n0 t) s' := by
  refine ⟨_, rfl, ?_⟩
  have h := State.upTo_kept t h
  with_reducible repeat' first | assumption | apply State.upTo_kept | apply State.runCmd_kept | apply State.fwCommitCmd_kept | dsimp -zeta only | (intro; intros)

theorem execAttest_kept {q0 : List Instr} {n0 : Nat} (t : ℕ) (r : Fin 4) {s : State} (h : Kept q0 n0 s) :
    ∃ s', execAttest t r s = .next s' ∧ Kept q0 (max n0 t) s' := by
  refine ⟨_, rfl, ?_⟩
  have h := State.upTo_kept t h
  with_reducible repeat' first | assumption | apply State.upTo_kept | apply State.runOp_kept | apply State.attestCmd_kept | dsimp -zeta only

theorem execAttestComplete_kept {q0 : List Instr} {n0 : Nat} (t : ℕ) {s : State} (h : Kept q0 n0 s) :
    ∃ s', execAttestComplete t s = .next s' ∧ Kept q0 (max n0 t) s' := by
  refine ⟨_, rfl, ?_⟩
  have h := State.upTo_kept t h
  with_reducible repeat' first | assumption | simp -zeta only [Kept.upd] | apply State.upTo_kept | apply State.modSec_kept | apply State.capture_kept | apply Kept.ite | dsimp -zeta only | (extract_lets +onlyGivenNames z; first | (refine Kept.cut z ?_ ?_ <;> [subst z; (intro hz; clear_value z)]) | (refine Kept.cut2 z ?_ ?_ <;> [subst z; (intro hz; clear_value z)]) | (have hz : State → _ := z; clear hz; subst z) | clear_value z) | (intro; intros) | split

theorem execChainSend_kept {q0 : List Instr} {n0 : Nat} (t : ℕ) (r : Fin 4) {s : State} (h : Kept q0 n0 s) :
    ∃ s', execChainSend t r s = .next s' ∧ Kept q0 (max n0 t) s' := by
  refine ⟨_, rfl, ?_⟩
  have h := State.upTo_kept t h
  with_reducible repeat' first | assumption | apply State.upTo_kept | apply State.runOp_kept | apply State.chainSendCmd_kept | dsimp -zeta only

theorem execCanConfigure_kept {q0 : List Instr} {n0 : Nat} (t : ℕ) (r : Fin 4) {s : State} (h : Kept q0 n0 s) :
    ∃ s', execCanConfigure t r s = .next s' ∧ Kept q0 (max n0 t) s' := by
  refine ⟨_, rfl, ?_⟩
  have h := State.upTo_kept t h
  with_reducible repeat' first | assumption | apply State.upTo_kept | apply State.runCan_kept | apply State.done_kept | apply State.move_kept | apply Kept.ite | dsimp -zeta only | (intro; intros) | split

theorem execCanTransmit_kept {q0 : List Instr} {n0 : Nat} (t : ℕ) (r : Fin 4) {s : State} (h : Kept q0 n0 s) :
    ∃ s', execCanTransmit t r s = .next s' ∧ Kept q0 (max n0 t) s' := by
  refine ⟨_, rfl, ?_⟩
  have h := State.upTo_kept t h
  with_reducible repeat' first | assumption | simp -zeta only [Kept.upd] | apply State.upTo_kept | apply State.runCan_kept | apply State.done_kept | apply State.move_kept | dsimp -zeta only | (intro; intros) | split

theorem execCanRead_kept {q0 : List Instr} {n0 : Nat} (t : ℕ) (r : Fin 4) {s : State} (h : Kept q0 n0 s) :
    ∃ s', execCanRead t r s = .next s' ∧ Kept q0 (max n0 t) s' := by
  refine ⟨_, rfl, ?_⟩
  have h := State.upTo_kept t h
  with_reducible repeat' first | assumption | apply State.upTo_kept | apply State.runCan_kept | apply State.putCanObj_kept | apply State.move_kept | dsimp -zeta only | (extract_lets +onlyGivenNames z; first | (refine Kept.cut z ?_ ?_ <;> [subst z; (intro hz; clear_value z)]) | (refine Kept.cut2 z ?_ ?_ <;> [subst z; (intro hz; clear_value z)]) | (have hz : State → _ := z; clear hz; subst z) | clear_value z) | (intro; intros)

theorem execCanDisable_kept {q0 : List Instr} {n0 : Nat} (t : ℕ) (r : Fin 4) {s : State} (h : Kept q0 n0 s) :
    ∃ s', execCanDisable t r s = .next s' ∧ Kept q0 (max n0 t) s' := by
  refine ⟨_, rfl, ?_⟩
  have h := State.upTo_kept t h
  with_reducible repeat' first | assumption | apply State.upTo_kept | apply State.runCan_kept | apply State.done_kept | apply State.putCanObj_kept | apply State.canOwnBit_kept | apply Kept.ite | dsimp -zeta only | (extract_lets +onlyGivenNames z; first | (refine Kept.cut z ?_ ?_ <;> [subst z; (intro hz; clear_value z)]) | (refine Kept.cut2 z ?_ ?_ <;> [subst z; (intro hz; clear_value z)]) | (have hz : State → _ := z; clear hz; subst z) | clear_value z) | (intro; intros) | split

theorem execCanAbort_kept {q0 : List Instr} {n0 : Nat} (t : ℕ) (r : Fin 4) (onBus : Bool) {s : State} (h : Kept q0 n0 s) :
    ∃ s', execCanAbort t r onBus s = .next s' ∧ Kept q0 (max n0 t) s' := by
  refine ⟨_, rfl, ?_⟩
  have h := State.upTo_kept t h
  with_reducible repeat' first | assumption | simp -zeta only [Kept.upd] | apply State.upTo_kept | apply State.runCan_kept | apply State.done_kept | apply State.canFail_kept | apply Kept.ite | dsimp -zeta only | (intro; intros) | split

theorem execCanStart_kept {q0 : List Instr} {n0 : Nat} (t : ℕ) (r : Fin 4) {s : State} (h : Kept q0 n0 s) :
    ∃ s', execCanStart t r s = .next s' ∧ Kept q0 (max n0 t) s' := by
  refine ⟨_, rfl, ?_⟩
  have h := State.upTo_kept t h
  with_reducible repeat' first | assumption | simp -zeta only [Kept.upd] | apply State.upTo_kept | apply State.runCan_kept | apply State.done_kept | apply State.canLeaveInit_kept | apply State.modCan_kept | apply Kept.ite | dsimp -zeta only | (intro; intros) | split

theorem execCanStop_kept {q0 : List Instr} {n0 : Nat} (t : ℕ) (r : Fin 4) {s : State} (onBus : optParam Bool Bool.false) (h : Kept q0 n0 s) :
    ∃ s', execCanStop t r s onBus = .next s' ∧ Kept q0 (max n0 t) s' := by
  refine ⟨_, rfl, ?_⟩
  have h := State.upTo_kept t h
  with_reducible repeat' first | assumption | simp -zeta only [Kept.upd] | apply State.upTo_kept | apply State.runCan_kept | apply State.modCan_kept | apply State.canInit_kept | apply State.done_kept | apply Kept.ite | dsimp -zeta only | (intro; intros) | split

theorem execCanRecover_kept {q0 : List Instr} {n0 : Nat} (t : ℕ) (r : Fin 4) {s : State} (h : Kept q0 n0 s) :
    ∃ s', execCanRecover t r s = .next s' ∧ Kept q0 (max n0 t) s' := by
  refine ⟨_, rfl, ?_⟩
  have h := State.upTo_kept t h
  with_reducible repeat' first | assumption | simp -zeta only [Kept.upd] | apply State.upTo_kept | apply State.runCan_kept | apply State.done_kept | apply State.modCan_kept | apply Kept.ite | dsimp -zeta only | (intro; intros) | split

theorem execTlmConfig_kept {q0 : List Instr} {n0 : Nat} (t : ℕ) (r : Fin 4) {s : State} (h : Kept q0 n0 s) :
    ∃ s', execTlmConfig t r s = .next s' ∧ Kept q0 (max n0 t) s' := by
  refine ⟨_, rfl, ?_⟩
  have h := State.upTo_kept t h
  with_reducible repeat' first | assumption | apply State.upTo_kept | apply State.runOp_kept | apply State.tlmConfigCmd_kept | dsimp -zeta only

theorem execDataMoverDone_kept {q0 : List Instr} {n0 : Nat} (t : ℕ) (data : List Byte) {s : State} (h : Kept q0 n0 s) :
    ∃ s', execDataMoverDone t data s = .next s' ∧ Kept q0 (max n0 t) s' := by
  refine ⟨_, rfl, ?_⟩
  have h := State.upTo_kept t h
  with_reducible repeat' first | assumption | simp -zeta only [Kept.upd] | apply State.done_kept | apply State.upTo_kept | apply State.modHif_kept | apply State.moverStores_kept | apply State.capture_kept | apply Kept.ite | dsimp -zeta only | (extract_lets +onlyGivenNames z; first | (refine Kept.cut z ?_ ?_ <;> [subst z; (intro hz; clear_value z)]) | (refine Kept.cut2 z ?_ ?_ <;> [subst z; (intro hz; clear_value z)]) | (have hz : State → _ := z; clear hz; subst z) | clear_value z) | (intro; intros) | split

end Sys2Proof.Machine
end

