-- ==== Sys2Proof/Laws/KeptChainRows.lean ====
section
/-!
SUPPORT. What the operations of Machine/ChainRows keep: the queue, the clock and the form of the stores.
-/

namespace Sys2Proof.Machine

theorem State.wakeTake_kept {q0 : List Instr} {n0 : Nat} {s : State} (p : ℕ) (f : Frame) (h : Kept q0 n0 s) : Kept q0 n0 (State.wakeTake s p f) := by
  unfold State.wakeTake
  with_reducible repeat' first | assumption | simp -zeta only [Kept.upd] | apply State.wake_kept | apply State.capture_kept | apply State.modChain_kept | apply Kept.ite | dsimp -zeta only | (extract_lets +onlyGivenNames z; first | (refine Kept.cut z ?_ ?_ <;> [subst z; (intro hz; clear_value z)]) | (refine Kept.cut2 z ?_ ?_ <;> [subst z; (intro hz; clear_value z)]) | (have hz : State → _ := z; clear hz; subst z) | clear_value z) | (intro; intros) | split

theorem State.frameRepeat_kept {q0 : List Instr} {n0 : Nat} {s : State} (p : ℕ) (f : Frame) (h : Kept q0 n0 s) : Kept q0 n0 (State.frameRepeat s p f) := by
  unfold State.frameRepeat
  with_reducible repeat' first | assumption | apply State.wakeTake_kept | apply State.passOn_kept | apply State.chnDrop_kept | apply Kept.ite | dsimp -zeta only | (extract_lets +onlyGivenNames z; first | (refine Kept.cut z ?_ ?_ <;> [subst z; (intro hz; clear_value z)]) | (refine Kept.cut2 z ?_ ?_ <;> [subst z; (intro hz; clear_value z)]) | (have hz : State → _ := z; clear hz; subst z) | clear_value z) | split

theorem State.appTake_kept {q0 : List Instr} {n0 : Nat} {s : State} (f : Frame) (h : Kept q0 n0 s) : Kept q0 n0 (State.appTake s f) := by
  unfold State.appTake
  with_reducible repeat' first | assumption | simp -zeta only [Kept.upd] | apply State.modChain_kept | apply State.setReg_kept | apply State.capture_kept | apply State.event_kept | apply Kept.put | dsimp -zeta only | (extract_lets +onlyGivenNames z; first | (refine Kept.cut z ?_ ?_ <;> [subst z; (intro hz; clear_value z)]) | (refine Kept.cut2 z ?_ ?_ <;> [subst z; (intro hz; clear_value z)]) | (have hz : State → _ := z; clear hz; subst z) | clear_value z) | (intro; intros)

theorem State.frameTake_kept {q0 : List Instr} {n0 : Nat} {s : State} (p : ℕ) (f : Frame) (h : Kept q0 n0 s) : Kept q0 n0 (State.frameTake s p f) := by
  unfold State.frameTake
  with_reducible repeat' first | assumption | simp -zeta only [Kept.upd] | apply State.modChain_kept | apply State.chnDrop_kept | apply State.cond_kept | apply State.wake_kept | apply State.appTake_kept | apply Kept.ite | dsimp -zeta only | (extract_lets +onlyGivenNames z; first | (refine Kept.cut z ?_ ?_ <;> [subst z; (intro hz; clear_value z)]) | (refine Kept.cut2 z ?_ ?_ <;> [subst z; (intro hz; clear_value z)]) | (have hz : State → _ := z; clear hz; subst z) | clear_value z) | (intro; intros) | split

theorem State.frameOn_kept {q0 : List Instr} {n0 : Nat} {s : State} (p : ℕ) (f : Frame) (h : Kept q0 n0 s) : Kept q0 n0 (State.frameOn s p f) := by
  unfold State.frameOn
  with_reducible repeat' first | assumption | simp -zeta only [Kept.upd] | apply State.modChain_kept | apply State.chnDrop_kept | apply State.freeBuffer_kept | apply Kept.ite | dsimp -zeta only | (intro; intros) | split

theorem State.frameActive_kept {q0 : List Instr} {n0 : Nat} {s : State} (p : ℕ) (f : Frame) (h : Kept q0 n0 s) : Kept q0 n0 (State.frameActive s p f) := by
  unfold State.frameActive
  with_reducible repeat' first | assumption | apply State.freeBuffer_kept | apply State.frameTake_kept | apply State.frameOn_kept | apply Kept.ite | dsimp -zeta only | (extract_lets +onlyGivenNames z; first | (refine Kept.cut z ?_ ?_ <;> [subst z; (intro hz; clear_value z)]) | (refine Kept.cut2 z ?_ ?_ <;> [subst z; (intro hz; clear_value z)]) | (have hz : State → _ := z; clear hz; subst z) | clear_value z) | split

theorem State.frameBad_kept {q0 : List Instr} {n0 : Nat} {s : State} (p : ℕ) (bytes : List Byte) (h : Kept q0 n0 s) : Kept q0 n0 (State.frameBad s p bytes) := by
  unfold State.frameBad
  with_reducible repeat' first | assumption | simp -zeta only [Kept.upd] | apply State.cond_kept | apply State.emit_kept | apply State.modPort_kept | apply State.wr_kept | apply State.count_kept | apply State.freeBuffer_kept | dsimp -zeta only | (extract_lets +onlyGivenNames z; first | (refine Kept.cut z ?_ ?_ <;> [subst z; (intro hz; clear_value z)]) | (refine Kept.cut2 z ?_ ?_ <;> [subst z; (intro hz; clear_value z)]) | (have hz : State → _ := z; clear hz; subst z) | clear_value z) | (intro; intros) | split

theorem State.frameIn_kept {q0 : List Instr} {n0 : Nat} {s : State} (p : ℕ) (bytes : List Byte) (ended : Bool) (h : Kept q0 n0 s) : Kept q0 n0 (State.frameIn s p bytes ended) := by
  unfold State.frameIn
  with_reducible repeat' first | assumption | simp -zeta only [Kept.upd] | apply State.wake_kept | apply State.frameRepeat_kept | apply State.frameActive_kept | apply State.wakeTake_kept | apply State.frameBad_kept | apply Kept.ite | dsimp -zeta only | split

theorem State.sendOut_kept {q0 : List Instr} {n0 : Nat} {s : State} (p : ℕ) (q : QFrame) (h : Kept q0 n0 s) : Kept q0 n0 (State.sendOut s p q) := by
  unfold State.sendOut
  with_reducible repeat' first | assumption | simp -zeta only [Kept.upd] | apply State.modChain_kept | apply State.emit_kept | apply State.modPort_kept | apply State.wr_kept | apply State.cond_kept | apply State.freeBuffer_kept | apply State.complete_kept | apply Kept.ite | dsimp -zeta only | (extract_lets +onlyGivenNames z; first | (refine Kept.cut z ?_ ?_ <;> [subst z; (intro hz; clear_value z)]) | (refine Kept.cut2 z ?_ ?_ <;> [subst z; (intro hz; clear_value z)]) | (have hz : State → _ := z; clear hz; subst z) | clear_value z) | (intro; intros) | split

theorem State.sendExpire_kept {q0 : List Instr} {n0 : Nat} {s : State} (h : Kept q0 n0 s) : Kept q0 n0 (State.sendExpire s) := by
  unfold State.sendExpire
  with_reducible repeat' first | assumption | simp -zeta only [Kept.upd] | apply State.modChain_kept | apply State.complete_kept | apply foldl_kept | apply foldl2_kept | apply Kept.ite | dsimp -zeta only | (extract_lets +onlyGivenNames z; first | (refine Kept.cut z ?_ ?_ <;> [subst z; (intro hz; clear_value z)]) | (refine Kept.cut2 z ?_ ?_ <;> [subst z; (intro hz; clear_value z)]) | (have hz : State → _ := z; clear hz; subst z) | clear_value z) | (intro; intros) | split

theorem State.memWords_kept {q0 : List Instr} {n0 : Nat} {s : State} (who : ℕ) (bar2 : Bool) (off n : ℕ)
    (h : Kept q0 n0 s) : Kept q0 n0 (State.memWords s who bar2 off n).2 := by
  induction n generalizing s off with
  | zero => exact h
  | succ n ih =>
    unfold State.memWords
    split
    · exact ih _ h
    · exact ih _ (State.readReg_kept _ _ _ h)

theorem State.memFill_kept {q0 : List Instr} {n0 : Nat} {s : State} (bar2 : Bool) (off : ℕ) (bs : List Byte) (n : ℕ)
    (h : Kept q0 n0 s) : Kept q0 n0 (State.memFill s bar2 off bs n) := by
  induction n generalizing s off bs with
  | zero => exact h
  | succ n ih =>
    unfold State.memFill
    exact ih _ _ (Kept.ite (State.writeSram_kept _ _ _ _ h) (State.writeReg_kept _ _ _ _ h))

theorem State.memRead_kept {q0 : List Instr} {n0 : Nat} {s : State} (src : BitVec 14) (payload : List Byte) (h : Kept q0 n0 s) : Kept q0 n0 (State.memRead s src payload) := by
  unfold State.memRead
  with_reducible repeat' first | assumption | apply State.memDenied_kept | apply State.memRsp_kept | apply State.memWords_kept | apply Kept.ite | dsimp -zeta only | (extract_lets +onlyGivenNames z; first | (refine Kept.cut z ?_ ?_ <;> [subst z; (intro hz; clear_value z)]) | (refine Kept.cut2 z ?_ ?_ <;> [subst z; (intro hz; clear_value z)]) | (have hz : State → _ := z; clear hz; subst z) | clear_value z) | split

theorem State.memWrite_kept {q0 : List Instr} {n0 : Nat} {s : State} (src : BitVec 14) (payload : List Byte) (h : Kept q0 n0 s) : Kept q0 n0 (State.memWrite s src payload) := by
  unfold State.memWrite
  with_reducible repeat' first | assumption | apply State.drop_kept | apply State.memDenied_kept | apply State.cond_kept | apply State.memRsp_kept | apply State.memFill_kept | apply Kept.ite | dsimp -zeta only | (extract_lets +onlyGivenNames z; first | (refine Kept.cut z ?_ ?_ <;> [subst z; (intro hz; clear_value z)]) | (refine Kept.cut2 z ?_ ?_ <;> [subst z; (intro hz; clear_value z)]) | (have hz : State → _ := z; clear hz; subst z) | clear_value z) | (intro; intros) | split

theorem State.creditTake_kept {q0 : List Instr} {n0 : Nat} {s : State} (p : ℕ) (freed : ℕ) (h : Kept q0 n0 s) : Kept q0 n0 (State.creditTake s p freed) := by
  unfold State.creditTake
  with_reducible repeat' first | assumption | apply State.partnerStart_kept | apply State.wr_kept | apply State.drainReply_kept | apply Kept.ite | dsimp -zeta only | (extract_lets +onlyGivenNames z; first | (refine Kept.cut z ?_ ?_ <;> [subst z; (intro hz; clear_value z)]) | (refine Kept.cut2 z ?_ ?_ <;> [subst z; (intro hz; clear_value z)]) | (have hz : State → _ := z; clear hz; subst z) | clear_value z) | split

theorem State.holdTake_kept {q0 : List Instr} {n0 : Nat} {s : State} (p : ℕ) (h : Kept q0 n0 s) : Kept q0 n0 (State.holdTake s p) := by
  unfold State.holdTake
  with_reducible repeat' first | assumption | simp -zeta only [Kept.upd] | apply State.emit_kept | apply State.hi_kept | apply State.modPort_kept | apply State.drainReply_kept | apply Kept.ite | dsimp -zeta only | (extract_lets +onlyGivenNames z; first | (refine Kept.cut z ?_ ?_ <;> [subst z; (intro hz; clear_value z)]) | (refine Kept.cut2 z ?_ ?_ <;> [subst z; (intro hz; clear_value z)]) | (have hz : State → _ := z; clear hz; subst z) | clear_value z) | (intro; intros) | split

theorem State.resetTake_kept {q0 : List Instr} {n0 : Nat} {s : State} (p : ℕ) (h : Kept q0 n0 s) : Kept q0 n0 (State.resetTake s p) := by
  unfold State.resetTake
  with_reducible repeat' first | assumption | simp -zeta only [Kept.upd] | apply State.count_kept | apply State.partnerReset_kept | apply State.hi_kept | apply State.modPort_kept | dsimp -zeta only | (intro; intros) | split

theorem State.linkctlTake_kept {q0 : List Instr} {n0 : Nat} {s : State} (p : ℕ) (code : ℕ) (h : Kept q0 n0 s) : Kept q0 n0 (State.linkctlTake s p code) := by
  unfold State.linkctlTake
  with_reducible repeat' first | assumption | simp -zeta only [Kept.upd] | apply State.holdTake_kept | apply State.partnerFinish_kept | apply State.resetTake_kept | apply Kept.ite | dsimp -zeta only | split

theorem State.join_kept {q0 : List Instr} {n0 : Nat} {s : State} (p : ℕ) (h : Kept q0 n0 s) : Kept q0 n0 (State.join s p) := by
  unfold State.join
  with_reducible repeat' first | assumption | apply State.partnerStart_kept | apply State.wr_kept | apply Kept.ite | split

theorem State.joinNext_kept {q0 : List Instr} {n0 : Nat} {s : State} (h : Kept q0 n0 s) : Kept q0 n0 (State.joinNext s) := by
  unfold State.joinNext
  with_reducible repeat' first | assumption | apply State.join_kept | apply State.wake_kept | apply Kept.ite | dsimp -zeta only | (extract_lets +onlyGivenNames z; first | (refine Kept.cut z ?_ ?_ <;> [subst z; (intro hz; clear_value z)]) | (refine Kept.cut2 z ?_ ?_ <;> [subst z; (intro hz; clear_value z)]) | (have hz : State → _ := z; clear hz; subst z) | clear_value z) | split

theorem State.syncTake_kept {q0 : List Instr} {n0 : Nat} {s : State} (p : ℕ) (ct : ℕ) (hops : ℕ) (frac : ℕ) (lag : ℕ) (h : Kept q0 n0 s) : Kept q0 n0 (State.syncTake s p ct hops frac lag) := by
  unfold State.syncTake
  with_reducible repeat' first | assumption | simp -zeta only [Kept.upd] | apply State.event_kept | apply State.wr_kept | apply State.modPort_kept | apply State.emit_kept | apply State.pickSource_kept | apply Kept.ite | dsimp -zeta only | (extract_lets +onlyGivenNames z; first | (refine Kept.cut z ?_ ?_ <;> [subst z; (intro hz; clear_value z)]) | (refine Kept.cut2 z ?_ ?_ <;> [subst z; (intro hz; clear_value z)]) | (have hz : State → _ := z; clear hz; subst z) | clear_value z) | (intro; intros) | split

theorem State.exchange_kept {q0 : List Instr} {n0 : Nat} {s : State} (p : ℕ) (t4 : ℕ) (h : Kept q0 n0 s) : Kept q0 n0 (State.exchange s p t4) := by
  unfold State.exchange
  with_reducible repeat' first | assumption | simp -zeta only [Kept.upd] | apply State.modPort_kept | apply State.wr_kept | apply State.correct_kept | apply foldl_kept | apply foldl2_kept | apply Kept.ite | dsimp -zeta only | (extract_lets +onlyGivenNames z; first | (refine Kept.cut z ?_ ?_ <;> [subst z; (intro hz; clear_value z)]) | (refine Kept.cut2 z ?_ ?_ <;> [subst z; (intro hz; clear_value z)]) | (have hz : State → _ := z; clear hz; subst z) | clear_value z) | (intro; intros) | split

theorem State.rollPass_kept {q0 : List Instr} {n0 : Nat} {s : State} (c : ℕ) (h : Kept q0 n0 s) : Kept q0 n0 (State.rollPass s c) := by
  unfold State.rollPass
  with_reducible repeat' first | assumption | apply State.wrB_kept | apply State.addrTake_kept | apply State.emit_kept | apply Kept.ite | dsimp -zeta only | (extract_lets +onlyGivenNames z; first | (refine Kept.cut z ?_ ?_ <;> [subst z; (intro hz; clear_value z)]) | (refine Kept.cut2 z ?_ ?_ <;> [subst z; (intro hz; clear_value z)]) | (have hz : State → _ := z; clear hz; subst z) | clear_value z) | split

theorem State.rollTake_kept {q0 : List Instr} {n0 : Nat} {s : State} (p : ℕ) (c : ℕ) (back : Bool) (h : Kept q0 n0 s) : Kept q0 n0 (State.rollTake s p c back) := by
  unfold State.rollTake
  with_reducible repeat' first | assumption | apply State.rollEnd_kept | apply State.emit_kept | apply State.rollPass_kept | apply Kept.ite | dsimp -zeta only | (extract_lets +onlyGivenNames z; first | (refine Kept.cut z ?_ ?_ <;> [subst z; (intro hz; clear_value z)]) | (refine Kept.cut2 z ?_ ?_ <;> [subst z; (intro hz; clear_value z)]) | (have hz : State → _ := z; clear hz; subst z) | clear_value z) | split

theorem execChainLinkUp_kept {q0 : List Instr} {n0 : Nat} (t : ℕ) (p : Fin 2) {s : State} (h : Kept q0 n0 s) :
    ∃ s', execChainLinkUp t p s = .next s' ∧ Kept q0 (max n0 t) s' := by
  refine ⟨_, rfl, ?_⟩
  have h := State.upTo_kept t h
  with_reducible repeat' first | assumption | apply State.boot_kept | apply State.upTo_kept | apply State.hi_kept | apply State.event_kept | apply State.wr_kept | apply State.partnerStart_kept | apply State.cond_kept | apply State.rollStart_kept | apply Kept.ite | dsimp -zeta only | (extract_lets +onlyGivenNames z; first | (refine Kept.cut z ?_ ?_ <;> [subst z; (intro hz; clear_value z)]) | (refine Kept.cut2 z ?_ ?_ <;> [subst z; (intro hz; clear_value z)]) | (have hz : State → _ := z; clear hz; subst z) | clear_value z) | (intro; intros) | split

theorem execChainLinkDown_kept {q0 : List Instr} {n0 : Nat} (t : ℕ) (p : Fin 2) (errs : ℕ) {s : State} (h : Kept q0 n0 s) :
    ∃ s', execChainLinkDown t p errs s = .next s' ∧ Kept q0 (max n0 t) s' := by
  refine ⟨_, rfl, ?_⟩
  have h := State.upTo_kept t h
  with_reducible repeat' first | assumption | simp -zeta only [Kept.upd] | apply State.upTo_kept | apply State.lo_kept | apply State.codeErrors_kept | apply State.chnErr_kept | apply State.event_kept | apply State.modPort_kept | apply State.wr_kept | apply State.breakBound_kept | apply State.breakSend_kept | apply Kept.ite | dsimp -zeta only | (extract_lets +onlyGivenNames z; first | (refine Kept.cut z ?_ ?_ <;> [subst z; (intro hz; clear_value z)]) | (refine Kept.cut2 z ?_ ?_ <;> [subst z; (intro hz; clear_value z)]) | (have hz : State → _ := z; clear hz; subst z) | clear_value z) | (intro; intros) | split

theorem execChainFrameReceive_kept {q0 : List Instr} {n0 : Nat} (t : ℕ) (p : Fin 2) (bytes : List Byte) (ended : Bool) {s : State} (h : Kept q0 n0 s) :
    ∃ s', execChainFrameReceive t p bytes ended s = .next s' ∧ Kept q0 (max n0 t) s' := by
  refine ⟨_, rfl, ?_⟩
  have h := State.upTo_kept t h
  with_reducible repeat' first | assumption | apply State.upTo_kept | apply State.frameIn_kept | apply Kept.ite | dsimp -zeta only | (extract_lets +onlyGivenNames z; first | (refine Kept.cut z ?_ ?_ <;> [subst z; (intro hz; clear_value z)]) | (refine Kept.cut2 z ?_ ?_ <;> [subst z; (intro hz; clear_value z)]) | (have hz : State → _ := z; clear hz; subst z) | clear_value z) | split

theorem execFrameForward_kept {q0 : List Instr} {n0 : Nat} (t : ℕ) (p : Fin 2) {s : State} (h : Kept q0 n0 s) :
    ∃ s', execFrameForward t p s = .next s' ∧ Kept q0 (max n0 t) s' := by
  refine ⟨_, rfl, ?_⟩
  have h := State.upTo_kept t h
  with_reducible repeat' first | assumption | simp -zeta only [Kept.upd] | apply State.upTo_kept | apply State.sendOut_kept | dsimp -zeta only | (extract_lets +onlyGivenNames z; first | (refine Kept.cut z ?_ ?_ <;> [subst z; (intro hz; clear_value z)]) | (refine Kept.cut2 z ?_ ?_ <;> [subst z; (intro hz; clear_value z)]) | (have hz : State → _ := z; clear hz; subst z) | clear_value z) | split

theorem execMemRd_kept {q0 : List Instr} {n0 : Nat} (t : ℕ) (src : BitVec 14) (payload : List Byte) {s : State} (h : Kept q0 n0 s) :
    ∃ s', execMemRd t src payload s = .next s' ∧ Kept q0 (max n0 t) s' := by
  refine ⟨_, rfl, ?_⟩
  have h := State.upTo_kept t h
  with_reducible repeat' first | assumption | apply State.upTo_kept | apply State.memRead_kept | apply Kept.ite | dsimp -zeta only | (extract_lets +onlyGivenNames z; first | (refine Kept.cut z ?_ ?_ <;> [subst z; (intro hz; clear_value z)]) | (refine Kept.cut2 z ?_ ?_ <;> [subst z; (intro hz; clear_value z)]) | (have hz : State → _ := z; clear hz; subst z) | clear_value z) | split

theorem execMemWr_kept {q0 : List Instr} {n0 : Nat} (t : ℕ) (src : BitVec 14) (payload : List Byte) {s : State} (h : Kept q0 n0 s) :
    ∃ s', execMemWr t src payload s = .next s' ∧ Kept q0 (max n0 t) s' := by
  refine ⟨_, rfl, ?_⟩
  have h := State.upTo_kept t h
  with_reducible repeat' first | assumption | apply State.upTo_kept | apply State.memWrite_kept | apply Kept.ite | dsimp -zeta only | (extract_lets +onlyGivenNames z; first | (refine Kept.cut z ?_ ?_ <;> [subst z; (intro hz; clear_value z)]) | (refine Kept.cut2 z ?_ ?_ <;> [subst z; (intro hz; clear_value z)]) | (have hz : State → _ := z; clear hz; subst z) | clear_value z) | split

theorem execBreakReceive_kept {q0 : List Instr} {n0 : Nat} (t : ℕ) (bnd : BitVec 14) (down : Bool) (healed : Bool) {s : State} (h : Kept q0 n0 s) :
    ∃ s', execBreakReceive t bnd down healed s = .next s' ∧ Kept q0 (max n0 t) s' := by
  refine ⟨_, rfl, ?_⟩
  have h := State.upTo_kept t h
  with_reducible repeat' first | assumption | apply State.upTo_kept | apply State.breakTake_kept | apply Kept.ite | dsimp -zeta only | (extract_lets +onlyGivenNames z; first | (refine Kept.cut z ?_ ?_ <;> [subst z; (intro hz; clear_value z)]) | (refine Kept.cut2 z ?_ ?_ <;> [subst z; (intro hz; clear_value z)]) | (have hz : State → _ := z; clear hz; subst z) | clear_value z) | split

theorem execWakeFrame_kept {q0 : List Instr} {n0 : Nat} (t : ℕ) (p : Fin 2) (bytes : List Byte) (ended : Bool) {s : State} (h : Kept q0 n0 s) :
    ∃ s', execWakeFrame t p bytes ended s = .next s' ∧ Kept q0 (max n0 t) s' := by
  refine ⟨_, rfl, ?_⟩
  have h := State.upTo_kept t h
  with_reducible repeat' first | assumption | apply State.upTo_kept | apply State.frameIn_kept | apply Kept.ite | dsimp -zeta only | (extract_lets +onlyGivenNames z; first | (refine Kept.cut z ?_ ?_ <;> [subst z; (intro hz; clear_value z)]) | (refine Kept.cut2 z ?_ ?_ <;> [subst z; (intro hz; clear_value z)]) | (have hz : State → _ := z; clear hz; subst z) | clear_value z) | split

theorem execChainSendTimeout_kept {q0 : List Instr} {n0 : Nat} (t : ℕ) {s : State} (h : Kept q0 n0 s) :
    ∃ s', execChainSendTimeout t s = .next s' ∧ Kept q0 (max n0 t) s' := by
  refine ⟨_, rfl, ?_⟩
  have h := State.upTo_kept t h
  with_reducible repeat' first | assumption | apply State.upTo_kept | apply State.sendExpire_kept | dsimp -zeta only

theorem execTimeSyncSend_kept {q0 : List Instr} {n0 : Nat} (t : ℕ) (p : Fin 2) {s : State} (h : Kept q0 n0 s) :
    ∃ s', execTimeSyncSend t p s = .next s' ∧ Kept q0 (max n0 t) s' := by
  refine ⟨_, rfl, ?_⟩
  have h := State.upTo_kept t h
  with_reducible repeat' first | assumption | apply State.upTo_kept | apply State.emit_kept | apply Kept.ite | dsimp -zeta only | (extract_lets +onlyGivenNames z; first | (refine Kept.cut z ?_ ?_ <;> [subst z; (intro hz; clear_value z)]) | (refine Kept.cut2 z ?_ ?_ <;> [subst z; (intro hz; clear_value z)]) | (have hz : State → _ := z; clear hz; subst z) | clear_value z) | split

theorem execTimeSyncReceive_kept {q0 : List Instr} {n0 : Nat} (t : ℕ) (p : Fin 2) (ct : BitVec 64) (hops : BitVec 16) (frac : Fin 32) (lag : ℕ) (ok : Bool) {s : State} (h : Kept q0 n0 s) :
    ∃ s', execTimeSyncReceive t p ct hops frac lag ok s = .next s' ∧ Kept q0 (max n0 t) s' := by
  refine ⟨_, rfl, ?_⟩
  have h := State.upTo_kept t h
  with_reducible repeat' first | assumption | apply State.upTo_kept | apply State.codeErrors_kept | apply State.passOn_kept | apply State.syncTake_kept | apply Kept.ite | dsimp -zeta only | (extract_lets +onlyGivenNames z; first | (refine Kept.cut z ?_ ?_ <;> [subst z; (intro hz; clear_value z)]) | (refine Kept.cut2 z ?_ ?_ <;> [subst z; (intro hz; clear_value z)]) | (have hz : State → _ := z; clear hz; subst z) | clear_value z) | split

theorem execDlyReqReceive_kept {q0 : List Instr} {n0 : Nat} (t : ℕ) (p : Fin 2) (seq : BitVec 8) {s : State} (h : Kept q0 n0 s) :
    ∃ s', execDlyReqReceive t p seq s = .next s' ∧ Kept q0 (max n0 t) s' := by
  refine ⟨_, rfl, ?_⟩
  have h := State.upTo_kept t h
  with_reducible repeat' first | assumption | apply State.upTo_kept | apply State.passOn_kept | apply State.emit_kept | apply Kept.ite | dsimp -zeta only | (extract_lets +onlyGivenNames z; first | (refine Kept.cut z ?_ ?_ <;> [subst z; (intro hz; clear_value z)]) | (refine Kept.cut2 z ?_ ?_ <;> [subst z; (intro hz; clear_value z)]) | (have hz : State → _ := z; clear hz; subst z) | clear_value z) | split

theorem execDlyRspReceive_kept {q0 : List Instr} {n0 : Nat} (t : ℕ) (p : Fin 2) (seq : BitVec 8) (t4 : BitVec 64) (ok : Bool) {s : State} (h : Kept q0 n0 s) :
    ∃ s', execDlyRspReceive t p seq t4 ok s = .next s' ∧ Kept q0 (max n0 t) s' := by
  refine ⟨_, rfl, ?_⟩
  have h := State.upTo_kept t h
  with_reducible repeat' first | assumption | apply State.exchange_kept | apply State.upTo_kept | apply State.codeErrors_kept | apply State.passOn_kept | apply Kept.ite | dsimp -zeta only | (extract_lets +onlyGivenNames z; first | (refine Kept.cut z ?_ ?_ <;> [subst z; (intro hz; clear_value z)]) | (refine Kept.cut2 z ?_ ?_ <;> [subst z; (intro hz; clear_value z)]) | (have hz : State → _ := z; clear hz; subst z) | clear_value z) | split

theorem execTimeSourceTimeout_kept {q0 : List Instr} {n0 : Nat} (t : ℕ) {s : State} (h : Kept q0 n0 s) :
    ∃ s', execTimeSourceTimeout t s = .next s' ∧ Kept q0 (max n0 t) s' := by
  refine ⟨_, rfl, ?_⟩
  have h := State.upTo_kept t h
  with_reducible repeat' first | assumption | apply State.upTo_kept | apply State.pickSource_kept | apply Kept.ite | dsimp -zeta only | (extract_lets +onlyGivenNames z; first | (refine Kept.cut z ?_ ?_ <;> [subst z; (intro hz; clear_value z)]) | (refine Kept.cut2 z ?_ ?_ <;> [subst z; (intro hz; clear_value z)]) | (have hz : State → _ := z; clear hz; subst z) | clear_value z) | split

theorem execHoldoverTimeout_kept {q0 : List Instr} {n0 : Nat} (t : ℕ) {s : State} (h : Kept q0 n0 s) :
    ∃ s', execHoldoverTimeout t s = .next s' ∧ Kept q0 (max n0 t) s' := by
  refine ⟨_, rfl, ?_⟩
  have h := State.upTo_kept t h
  with_reducible repeat' first | assumption | simp -zeta only [Kept.upd] | apply State.exchange_kept | apply State.upTo_kept | apply State.lo_kept | apply State.hi_kept | apply State.event_kept | apply State.runOk_kept | apply Kept.ite | dsimp -zeta only | (extract_lets +onlyGivenNames z; first | (refine Kept.cut z ?_ ?_ <;> [subst z; (intro hz; clear_value z)]) | (refine Kept.cut2 z ?_ ?_ <;> [subst z; (intro hz; clear_value z)]) | (have hz : State → _ := z; clear hz; subst z) | clear_value z) | split

theorem execCreditReceive_kept {q0 : List Instr} {n0 : Nat} (t : ℕ) (p : Fin 2) (freed : BitVec 8) (compl : BitVec 8) {s : State} (h : Kept q0 n0 s) :
    ∃ s', execCreditReceive t p freed compl s = .next s' ∧ Kept q0 (max n0 t) s' := by
  refine ⟨_, rfl, ?_⟩
  have h := State.upTo_kept t h
  with_reducible repeat' first | assumption | apply State.upTo_kept | apply State.codeErrors_kept | apply State.passOn_kept | apply State.creditTake_kept | apply Kept.ite | dsimp -zeta only | (extract_lets +onlyGivenNames z; first | (refine Kept.cut z ?_ ?_ <;> [subst z; (intro hz; clear_value z)]) | (refine Kept.cut2 z ?_ ?_ <;> [subst z; (intro hz; clear_value z)]) | (have hz : State → _ := z; clear hz; subst z) | clear_value z) | split

theorem execCreditRefresh_kept {q0 : List Instr} {n0 : Nat} (t : ℕ) (p : Fin 2) {s : State} (h : Kept q0 n0 s) :
    ∃ s', execCreditRefresh t p s = .next s' ∧ Kept q0 (max n0 t) s' := by
  refine ⟨_, rfl, ?_⟩
  have h := State.upTo_kept t h
  with_reducible repeat' first | assumption | apply State.upTo_kept | apply State.emit_kept | apply Kept.ite | dsimp -zeta only | (extract_lets +onlyGivenNames z; first | (refine Kept.cut z ?_ ?_ <;> [subst z; (intro hz; clear_value z)]) | (refine Kept.cut2 z ?_ ?_ <;> [subst z; (intro hz; clear_value z)]) | (have hz : State → _ := z; clear hz; subst z) | clear_value z) | split

theorem execLinkctlReceive_kept {q0 : List Instr} {n0 : Nat} (t : ℕ) (p : Fin 2) (code : BitVec 8) {s : State} (h : Kept q0 n0 s) :
    ∃ s', execLinkctlReceive t p code s = .next s' ∧ Kept q0 (max n0 t) s' := by
  refine ⟨_, rfl, ?_⟩
  have h := State.upTo_kept t h
  with_reducible repeat' first | assumption | apply State.upTo_kept | apply State.passOn_kept | apply State.linkctlTake_kept | apply Kept.ite | dsimp -zeta only | (extract_lets +onlyGivenNames z; first | (refine Kept.cut z ?_ ?_ <;> [subst z; (intro hz; clear_value z)]) | (refine Kept.cut2 z ?_ ?_ <;> [subst z; (intro hz; clear_value z)]) | (have hz : State → _ := z; clear hz; subst z) | clear_value z) | split

theorem execPartnerChangeTimeout_kept {q0 : List Instr} {n0 : Nat} (t : ℕ) (p : Fin 2) {s : State} (h : Kept q0 n0 s) :
    ∃ s', execPartnerChangeTimeout t p s = .next s' ∧ Kept q0 (max n0 t) s' := by
  refine ⟨_, rfl, ?_⟩
  have h := State.upTo_kept t h
  with_reducible repeat' first | assumption | simp -zeta only [Kept.upd] | apply State.upTo_kept | apply State.partnerFinish_kept | apply State.drainReply_kept | apply Kept.ite | dsimp -zeta only | (extract_lets +onlyGivenNames z; first | (refine Kept.cut z ?_ ?_ <;> [subst z; (intro hz; clear_value z)]) | (refine Kept.cut2 z ?_ ?_ <;> [subst z; (intro hz; clear_value z)]) | (have hz : State → _ := z; clear hz; subst z) | clear_value z) | split

theorem execPortJoin_kept {q0 : List Instr} {n0 : Nat} (t : ℕ) {s : State} (h : Kept q0 n0 s) :
    ∃ s', execPortJoin t s = .next s' ∧ Kept q0 (max n0 t) s' := by
  refine ⟨_, rfl, ?_⟩
  have h := State.upTo_kept t h
  with_reducible repeat' first | assumption | apply State.upTo_kept | apply State.joinNext_kept | apply Kept.ite | dsimp -zeta only | (extract_lets +onlyGivenNames z; first | (refine Kept.cut z ?_ ?_ <;> [subst z; (intro hz; clear_value z)]) | (refine Kept.cut2 z ?_ ?_ <;> [subst z; (intro hz; clear_value z)]) | (have hz : State → _ := z; clear hz; subst z) | clear_value z) | split

theorem execRepeatLoss_kept {q0 : List Instr} {n0 : Nat} (t : ℕ) (p : Fin 2) {s : State} (h : Kept q0 n0 s) :
    ∃ s', execRepeatLoss t p s = .next s' ∧ Kept q0 (max n0 t) s' := by
  refine ⟨_, rfl, ?_⟩
  have h := State.upTo_kept t h
  with_reducible repeat' first | assumption | simp -zeta only [Kept.upd] | apply State.upTo_kept | apply State.modPort_kept | apply Kept.ite | dsimp -zeta only | (extract_lets +onlyGivenNames z; first | (refine Kept.cut z ?_ ?_ <;> [subst z; (intro hz; clear_value z)]) | (refine Kept.cut2 z ?_ ?_ <;> [subst z; (intro hz; clear_value z)]) | (have hz : State → _ := z; clear hz; subst z) | clear_value z) | (intro; intros) | split

theorem execRepeaterResume_kept {q0 : List Instr} {n0 : Nat} (t : ℕ) (p : Fin 2) {s : State} (h : Kept q0 n0 s) :
    ∃ s', execRepeaterResume t p s = .next s' ∧ Kept q0 (max n0 t) s' := by
  refine ⟨_, rfl, ?_⟩
  have h := State.upTo_kept t h
  with_reducible repeat' first | assumption | simp -zeta only [Kept.upd] | apply State.upTo_kept | apply State.modPort_kept | apply Kept.ite | dsimp -zeta only | (extract_lets +onlyGivenNames z; first | (refine Kept.cut z ?_ ?_ <;> [subst z; (intro hz; clear_value z)]) | (refine Kept.cut2 z ?_ ?_ <;> [subst z; (intro hz; clear_value z)]) | (have hz : State → _ := z; clear hz; subst z) | clear_value z) | (intro; intros) | split

theorem execRollReceive_kept {q0 : List Instr} {n0 : Nat} (t : ℕ) (p : Fin 2) (count : BitVec 16) (ok : Bool) {s : State} (h : Kept q0 n0 s) :
    ∃ s', execRollReceive t p count ok s = .next s' ∧ Kept q0 (max n0 t) s' := by
  refine ⟨_, rfl, ?_⟩
  have h := State.upTo_kept t h
  with_reducible repeat' first | assumption | apply State.count_kept | apply State.upTo_kept | apply State.codeErrors_kept | apply State.rollTake_kept | apply Kept.ite | dsimp -zeta only | (extract_lets +onlyGivenNames z; first | (refine Kept.cut z ?_ ?_ <;> [subst z; (intro hz; clear_value z)]) | (refine Kept.cut2 z ?_ ?_ <;> [subst z; (intro hz; clear_value z)]) | (have hz : State → _ := z; clear hz; subst z) | clear_value z) | split

theorem execRollTimeout_kept {q0 : List Instr} {n0 : Nat} (t : ℕ) {s : State} (h : Kept q0 n0 s) :
    ∃ s', execRollTimeout t s = .next s' ∧ Kept q0 (max n0 t) s' := by
  refine ⟨_, rfl, ?_⟩
  have h := State.upTo_kept t h
  with_reducible repeat' first | assumption | simp -zeta only [Kept.upd] | apply State.upTo_kept | apply State.modChain_kept | apply State.wr_kept | apply State.event_kept | apply Kept.ite | dsimp -zeta only | (extract_lets +onlyGivenNames z; first | (refine Kept.cut z ?_ ?_ <;> [subst z; (intro hz; clear_value z)]) | (refine Kept.cut2 z ?_ ?_ <;> [subst z; (intro hz; clear_value z)]) | (have hz : State → _ := z; clear hz; subst z) | clear_value z) | (intro; intros) | split

theorem execAddressTakeEffect_kept {q0 : List Instr} {n0 : Nat} (t : ℕ) {s : State} (h : Kept q0 n0 s) :
    ∃ s', execAddressTakeEffect t s = .next s' ∧ Kept q0 (max n0 t) s' := by
  refine ⟨_, rfl, ?_⟩
  have h := State.upTo_kept t h
  with_reducible repeat' first | assumption | apply State.upTo_kept | apply State.addrTake_kept | apply Kept.ite | dsimp -zeta only | (extract_lets +onlyGivenNames z; first | (refine Kept.cut z ?_ ?_ <;> [subst z; (intro hz; clear_value z)]) | (refine Kept.cut2 z ?_ ?_ <;> [subst z; (intro hz; clear_value z)]) | (have hz : State → _ := z; clear hz; subst z) | clear_value z) | split

end Sys2Proof.Machine
end

