-- ==== Sys2Proof/Laws/KeptCores.lean ====
section
/-!
SUPPORT. What the operations of Machine/Cores keep: the queue, the clock and the form of the stores.
-/

namespace Sys2Proof.Machine

theorem State.coreRegs_kept {q0 : List Instr} {n0 : Nat} {s : State} (h : Kept q0 n0 s) : Kept q0 n0 (State.coreRegs s) := by
  unfold State.coreRegs
  with_reducible repeat' first | assumption | simp -zeta only [Kept.upd] | apply State.minority_kept | apply State.wr_kept | apply State.each_kept | apply foldl_kept | apply foldl2_kept | apply Kept.ite | dsimp -zeta only | (extract_lets +onlyGivenNames z; first | (refine Kept.cut z ?_ ?_ <;> [subst z; (intro hz; clear_value z)]) | (refine Kept.cut2 z ?_ ?_ <;> [subst z; (intro hz; clear_value z)]) | (have hz : State → _ := z; clear hz; subst z) | clear_value z) | (intro; intros) | split

theorem State.modCore_kept {q0 : List Instr} {n0 : Nat} {s : State} (n : ℕ) (f : CoreArch → CoreArch) (g : List Host.Cell → List Host.Cell) (h : Kept q0 n0 s) : Kept q0 n0 (State.modCore s n f g) := by
  unfold State.modCore
  with_reducible repeat' first | assumption | simp -zeta only [Kept.upd] | apply State.modCpu_kept | apply Kept.ite | dsimp -zeta only | (intro; intros) | split

theorem State.coreWorks_kept {q0 : List Instr} {n0 : Nat} {s : State} (n : ℕ) (pc : BitVec 32) (w : CoreWork) (h : Kept q0 n0 s) : Kept q0 n0 (State.coreWorks s n pc w) := by
  unfold State.coreWorks
  with_reducible repeat' first | assumption | simp -zeta only [Kept.upd] | apply State.each_kept | apply State.modCore_kept | apply foldl_kept | apply foldl2_kept | dsimp -zeta only | (extract_lets +onlyGivenNames z; first | (refine Kept.cut z ?_ ?_ <;> [subst z; (intro hz; clear_value z)]) | (refine Kept.cut2 z ?_ ?_ <;> [subst z; (intro hz; clear_value z)]) | (have hz : State → _ := z; clear hz; subst z) | clear_value z) | (intro; intros)

theorem State.judge_kept {q0 : List Instr} {n0 : Nat} {s : State} (d : Desc) (h : Kept q0 n0 s) : Kept q0 n0 (State.judge s d) := by
  unfold State.judge
  with_reducible repeat' first | assumption | simp -zeta only [Kept.upd] | apply State.count_kept | apply State.event_kept | apply State.issue_kept | apply State.journalAdd_kept | apply State.wr64_kept | apply State.setRunning_kept | apply State.complete_kept | apply Kept.ite | dsimp -zeta only | (extract_lets +onlyGivenNames z; first | (refine Kept.cut z ?_ ?_ <;> [subst z; (intro hz; clear_value z)]) | (refine Kept.cut2 z ?_ ?_ <;> [subst z; (intro hz; clear_value z)]) | (have hz : State → _ := z; clear hz; subst z) | clear_value z) | split

theorem State.judgeAll_kept {q0 : List Instr} {n0 : Nat} (k : ℕ) {s : State} (h : Kept q0 n0 s) :
    Kept q0 n0 (State.judgeAll k s) := by
  induction k generalizing s with
  | zero => exact h
  | succ k ih =>
    unfold State.judgeAll
    split
    · exact h
    · exact ih (State.judge_kept _ (State.modCpu_kept _ h))

theorem State.output_kept {q0 : List Instr} {n0 : Nat} {s : State} (o : CoreOut) (h : Kept q0 n0 s) : Kept q0 n0 (State.output s o) := by
  unfold State.output
  with_reducible repeat' first | assumption | apply State.effect_kept | apply State.writeSram_kept | apply State.writeReg_kept | apply Kept.ite | split

theorem State.publishOffer_kept {q0 : List Instr} {n0 : Nat} {s : State} (a : ℕ) (cur : ℤ) (h : Kept q0 n0 s) : Kept q0 n0 (State.publishOffer s a cur) := by
  unfold State.publishOffer
  with_reducible repeat' first | assumption | apply State.publishReceived_kept | apply Kept.ite | dsimp -zeta only | (extract_lets +onlyGivenNames z; first | (refine Kept.cut z ?_ ?_ <;> [subst z; (intro hz; clear_value z)]) | (refine Kept.cut2 z ?_ ?_ <;> [subst z; (intro hz; clear_value z)]) | (have hz : State → _ := z; clear hz; subst z) | clear_value z) | split

theorem State.consume_kept {q0 : List Instr} {n0 : Nat} {s : State} (e : RepEntry) (h : Kept q0 n0 s) : Kept q0 n0 (State.consume s e) := by
  unfold State.consume
  with_reducible repeat' first | assumption | simp -zeta only [Kept.upd] | apply State.event_kept | apply State.postEvent_kept | apply State.modCpu_kept | apply State.publishOffer_kept | apply State.cond_kept | apply State.rollStart_kept | apply State.each_kept | apply State.publishSp_kept | apply State.commandCurrent_kept | apply State.moved_kept | apply State.complete_kept | apply State.move_kept | dsimp -zeta only | (intro; intros) | split

theorem State.releaseTlm_kept {q0 : List Instr} {n0 : Nat} {s : State} (k : ℕ) (h : Kept q0 n0 s) : Kept q0 n0 (State.releaseTlm s k) := by
  unfold State.releaseTlm
  with_reducible repeat' first | assumption | simp -zeta only [Kept.upd] | apply State.modStr_kept | apply State.writeTlm_kept | dsimp -zeta only | (intro; intros) | split

theorem State.pass_kept {q0 : List Instr} {n0 : Nat} {s : State} (outs : List CoreOut) (h : Kept q0 n0 s) : Kept q0 n0 (State.pass s outs) := by
  unfold State.pass
  with_reducible repeat' first | assumption | simp -zeta only [Kept.upd] | apply State.wr64_kept | apply State.wr_kept | apply State.modSaf_kept | apply State.modCpu_kept | apply State.output_kept | apply State.consume_kept | apply State.releaseTlm_kept | apply State.judgeAll_kept | apply State.releaseOwed_kept | apply foldl_kept | apply foldl2_kept | dsimp -zeta only | (extract_lets +onlyGivenNames z; first | (refine Kept.cut z ?_ ?_ <;> [subst z; (intro hz; clear_value z)]) | (refine Kept.cut2 z ?_ ?_ <;> [subst z; (intro hz; clear_value z)]) | (have hz : State → _ := z; clear hz; subst z) | clear_value z) | (intro; intros)

theorem State.minority_kept {q0 : List Instr} {n0 : Nat} {s : State} (n : ℕ) (absent : Bool) (h : Kept q0 n0 s) : Kept q0 n0 (State.minority s n absent) := by
  unfold State.minority
  with_reducible repeat' first | assumption | simp -zeta only [Kept.upd] | apply State.event_kept | apply State.wr_kept | apply State.count_kept | apply State.modCpu_kept | apply State.hi_kept | apply State.coreRegs_kept | apply Kept.ite | dsimp -zeta only | (extract_lets +onlyGivenNames z; first | (refine Kept.cut z ?_ ?_ <;> [subst z; (intro hz; clear_value z)]) | (refine Kept.cut2 z ?_ ?_ <;> [subst z; (intro hz; clear_value z)]) | (have hz : State → _ := z; clear hz; subst z) | clear_value z) | (intro; intros) | split

theorem State.startCopy_kept {q0 : List Instr} {n0 : Nat} {s : State} (h : Kept q0 n0 s) : Kept q0 n0 (State.startCopy s) := by
  unfold State.startCopy
  with_reducible repeat' first | assumption | apply State.minority_kept | apply State.cond_kept | apply State.hi_kept | dsimp -zeta only | (intro; intros)

theorem State.stalemate_kept {q0 : List Instr} {n0 : Nat} {s : State} (h : Kept q0 n0 s) : Kept q0 n0 (State.stalemate s) := by
  unfold State.stalemate
  with_reducible repeat' first | assumption | apply State.wr_kept | apply State.event_kept | apply State.activateRow_kept

theorem State.missed_kept {q0 : List Instr} {n0 : Nat} {s : State} (absent : List ℕ) (h : Kept q0 n0 s) : Kept q0 n0 (State.missed s absent) := by
  unfold State.missed
  with_reducible repeat' first | assumption | simp -zeta only [Kept.upd] | apply State.modCpu_kept | apply State.bump_kept | apply State.event_kept | dsimp -zeta only | (intro; intros)

theorem State.vote3_kept {q0 : List Instr} {n0 : Nat} {s : State} (h : Kept q0 n0 s) : Kept q0 n0 (State.vote3 s) := by
  unfold State.vote3
  with_reducible repeat' first | assumption | simp -zeta only [Kept.upd] | apply State.modCpu_kept | apply State.missed_kept | apply State.startCopy_kept | apply State.pass_kept | apply State.minority_kept | apply State.stalemate_kept | apply Kept.ite | dsimp -zeta only | (extract_lets +onlyGivenNames z; first | (refine Kept.cut z ?_ ?_ <;> [subst z; (intro hz; clear_value z)]) | (refine Kept.cut2 z ?_ ?_ <;> [subst z; (intro hz; clear_value z)]) | (have hz : State → _ := z; clear hz; subst z) | clear_value z) | (intro; intros) | split

theorem State.tryVote_kept {q0 : List Instr} {n0 : Nat} {s : State} (h : Kept q0 n0 s) : Kept q0 n0 (State.tryVote s) := by
  unfold State.tryVote
  with_reducible repeat' first | assumption | apply State.vote3_kept | apply Kept.ite | dsimp -zeta only | (intro; intros) | split

theorem State.haltCore_kept {q0 : List Instr} {n0 : Nat} {s : State} (n : ℕ) (h : Kept q0 n0 s) : Kept q0 n0 (State.haltCore s n) := by
  unfold State.haltCore
  with_reducible repeat' first | assumption | simp -zeta only [Kept.upd] | apply State.effect_kept | apply State.hi_kept | apply State.bump_kept | apply State.modCpu_kept | apply State.journalModule_kept | apply State.activateRow_kept | apply State.event_kept | apply State.coreRegs_kept | apply State.tryVote_kept | apply Kept.ite | dsimp -zeta only | (extract_lets +onlyGivenNames z; first | (refine Kept.cut z ?_ ?_ <;> [subst z; (intro hz; clear_value z)]) | (refine Kept.cut2 z ?_ ?_ <;> [subst z; (intro hz; clear_value z)]) | (have hz : State → _ := z; clear hz; subst z) | clear_value z) | (intro; intros) | split

theorem State.haltRelease_kept {q0 : List Instr} {n0 : Nat} {s : State} (h : Kept q0 n0 s) : Kept q0 n0 (State.haltRelease s) := by
  unfold State.haltRelease
  with_reducible repeat' first | assumption | apply State.effect_kept | apply State.each_kept | apply State.haltCore_kept | apply Kept.ite | dsimp -zeta only | (intro; intros) | split

theorem State.captureTlm_kept {q0 : List Instr} {n0 : Nat} {s : State} (k : ℕ) (h : Kept q0 n0 s) : Kept q0 n0 (State.captureTlm s k) := by
  unfold State.captureTlm
  with_reducible repeat' first | assumption | simp -zeta only [Kept.upd] | apply State.instant_kept | apply State.each_kept | apply State.readReg_kept | apply State.modStr_kept | apply foldl_kept | apply foldl2_kept | apply Kept.ite | dsimp -zeta only | (extract_lets +onlyGivenNames z; first | (refine Kept.cut z ?_ ?_ <;> [subst z; (intro hz; clear_value z)]) | (refine Kept.cut2 z ?_ ?_ <;> [subst z; (intro hz; clear_value z)]) | (have hz : State → _ := z; clear hz; subst z) | clear_value z) | (intro; intros) | split

theorem State.instant_kept {q0 : List Instr} {n0 : Nat} {s : State} (h : Kept q0 n0 s) : Kept q0 n0 (State.instant s) := by
  unfold State.instant
  with_reducible repeat' first | assumption | simp -zeta only [Kept.upd] | apply State.modCpu_kept | apply State.capture_kept | apply State.missed_kept | apply State.captureTlm_kept | apply Kept.ite | dsimp -zeta only | (extract_lets +onlyGivenNames z; first | (refine Kept.cut z ?_ ?_ <;> [subst z; (intro hz; clear_value z)]) | (refine Kept.cut2 z ?_ ?_ <;> [subst z; (intro hz; clear_value z)]) | (have hz : State → _ := z; clear hz; subst z) | clear_value z) | (intro; intros) | split

theorem execCheckpointInstant_kept {q0 : List Instr} {n0 : Nat} (t : ℕ) {s : State} (h : Kept q0 n0 s) :
    ∃ s', execCheckpointInstant t s = .next s' ∧ Kept q0 (max n0 t) s' := by
  refine ⟨_, rfl, ?_⟩
  have h := State.upTo_kept t h
  with_reducible repeat' first | assumption | apply State.upTo_kept | apply State.vote3_kept | apply State.haltRelease_kept | apply State.instant_kept | apply State.coreRegs_kept | apply Kept.ite | dsimp -zeta only | (extract_lets +onlyGivenNames z; first | (refine Kept.cut z ?_ ?_ <;> [subst z; (intro hz; clear_value z)]) | (refine Kept.cut2 z ?_ ?_ <;> [subst z; (intro hz; clear_value z)]) | (have hz : State → _ := z; clear hz; subst z) | clear_value z) | split

theorem execCheckpointPortWrite_kept {q0 : List Instr} {n0 : Nat} (t : ℕ) (core : Fin 3) (outs : List CoreOut) (pc : Word) {s : State} (work : optParam CoreWork { }) (h : Kept q0 n0 s) :
    ∃ s', execCheckpointPortWrite t core outs pc s work = .next s' ∧ Kept q0 (max n0 t) s' := by
  refine ⟨_, rfl, ?_⟩
  have h := State.upTo_kept t h
  with_reducible repeat' first | assumption | simp -zeta only [Kept.upd] | apply State.output_kept | apply State.upTo_kept | apply State.coreWorks_kept | apply State.hi_kept | apply State.modCpu_kept | apply State.tryVote_kept | apply Kept.ite | dsimp -zeta only | (extract_lets +onlyGivenNames z; first | (refine Kept.cut z ?_ ?_ <;> [subst z; (intro hz; clear_value z)]) | (refine Kept.cut2 z ?_ ?_ <;> [subst z; (intro hz; clear_value z)]) | (have hz : State → _ := z; clear hz; subst z) | clear_value z) | (intro; intros) | split

theorem execReplicatedRead_kept {q0 : List Instr} {n0 : Nat} (t : ℕ) (core : Fin 3) (addr : Word) {s : State} (h : Kept q0 n0 s) :
    ∃ s', execReplicatedRead t core addr s = .next s' ∧ Kept q0 (max n0 t) s' := by
  refine ⟨_, rfl, ?_⟩
  have h := State.upTo_kept t h
  with_reducible repeat' first | assumption | simp -zeta only [Kept.upd] | apply State.boot_kept | apply State.upTo_kept | apply State.emit_kept | apply State.hi_kept | apply State.modCpu_kept | apply State.readReg_kept | apply Kept.ite | dsimp -zeta only | (extract_lets +onlyGivenNames z; first | (refine Kept.cut z ?_ ?_ <;> [subst z; (intro hz; clear_value z)]) | (refine Kept.cut2 z ?_ ?_ <;> [subst z; (intro hz; clear_value z)]) | (have hz : State → _ := z; clear hz; subst z) | clear_value z) | (intro; intros) | split

theorem execResyncComplete_kept {q0 : List Instr} {n0 : Nat} (t : ℕ) {s : State} (h : Kept q0 n0 s) :
    ∃ s', execResyncComplete t s = .next s' ∧ Kept q0 (max n0 t) s' := by
  refine ⟨_, rfl, ?_⟩
  have h := State.upTo_kept t h
  with_reducible repeat' first | assumption | simp -zeta only [Kept.upd] | apply State.effect_kept | apply State.upTo_kept | apply State.modCore_kept | apply State.modCpu_kept | apply State.lo_kept | apply State.event_kept | apply State.coreRegs_kept | apply State.haltRelease_kept | apply Kept.ite | dsimp -zeta only | (extract_lets +onlyGivenNames z; first | (refine Kept.cut z ?_ ?_ <;> [subst z; (intro hz; clear_value z)]) | (refine Kept.cut2 z ?_ ?_ <;> [subst z; (intro hz; clear_value z)]) | (have hz : State → _ := z; clear hz; subst z) | clear_value z) | (intro; intros) | split

theorem execLocalSramEccError_kept {q0 : List Instr} {n0 : Nat} (t : ℕ) (core : Fin 3) {s : State} (h : Kept q0 n0 s) :
    ∃ s', execLocalSramEccError t core s = .next s' ∧ Kept q0 (max n0 t) s' := by
  refine ⟨_, rfl, ?_⟩
  have h := State.upTo_kept t h
  with_reducible repeat' first | assumption | simp -zeta only [Kept.upd] | apply State.upTo_kept | apply State.modCpu_kept | apply Kept.ite | dsimp -zeta only | (extract_lets +onlyGivenNames z; first | (refine Kept.cut z ?_ ?_ <;> [subst z; (intro hz; clear_value z)]) | (refine Kept.cut2 z ?_ ?_ <;> [subst z; (intro hz; clear_value z)]) | (have hz : State → _ := z; clear hz; subst z) | clear_value z) | (intro; intros) | split

theorem execDebugHalt_kept {q0 : List Instr} {n0 : Nat} (t : ℕ) (core : Fin 3) {s : State} (h : Kept q0 n0 s) :
    ∃ s', execDebugHalt t core s = .next s' ∧ Kept q0 (max n0 t) s' := by
  refine ⟨_, rfl, ?_⟩
  have h := State.upTo_kept t h
  with_reducible repeat' first | assumption | simp -zeta only [Kept.upd] | apply State.upTo_kept | apply State.modCpu_kept | apply State.haltCore_kept | apply Kept.ite | dsimp -zeta only | (extract_lets +onlyGivenNames z; first | (refine Kept.cut z ?_ ?_ <;> [subst z; (intro hz; clear_value z)]) | (refine Kept.cut2 z ?_ ?_ <;> [subst z; (intro hz; clear_value z)]) | (have hz : State → _ := z; clear hz; subst z) | clear_value z) | (intro; intros) | split

theorem execDebugResume_kept {q0 : List Instr} {n0 : Nat} (t : ℕ) (core : Fin 3) {s : State} (h : Kept q0 n0 s) :
    ∃ s', execDebugResume t core s = .next s' ∧ Kept q0 (max n0 t) s' := by
  refine ⟨_, rfl, ?_⟩
  have h := State.upTo_kept t h
  with_reducible repeat' first | assumption | simp -zeta only [Kept.upd] | apply State.minority_kept | apply State.upTo_kept | apply State.lo_kept | apply State.modCpu_kept | apply State.coreRegs_kept | apply Kept.ite | dsimp -zeta only | (extract_lets +onlyGivenNames z; first | (refine Kept.cut z ?_ ?_ <;> [subst z; (intro hz; clear_value z)]) | (refine Kept.cut2 z ?_ ?_ <;> [subst z; (intro hz; clear_value z)]) | (have hz : State → _ := z; clear hz; subst z) | clear_value z) | (intro; intros) | split

end Sys2Proof.Machine
end

