-- ==== Sys2Proof/Laws/KeptHousekeeping.lean ====
section
/-!
SUPPORT. What the operations of Machine/Housekeeping keep: the queue, the clock and the form of the stores.
-/

namespace Sys2Proof.Machine

theorem State.modHkp_kept {q0 : List Instr} {n0 : Nat} {s : State} (f : Housekeeping → Housekeeping) (h : Kept q0 n0 s) : Kept q0 n0 (State.modHkp s f) := by
  unfold State.modHkp
  with_reducible repeat' first | assumption | simp -zeta only [Kept.upd]

theorem State.hold_kept {q0 : List Instr} {n0 : Nat} {s : State} (key : ℕ) (h : Kept q0 n0 s) : Kept q0 n0 (State.hold s key) := by
  unfold State.hold
  with_reducible repeat' first | assumption | simp -zeta only [Kept.upd] | apply State.modHkp_kept | dsimp -zeta only | (intro; intros)

theorem State.drop_kept {q0 : List Instr} {n0 : Nat} {s : State} (key : ℕ) (h : Kept q0 n0 s) : Kept q0 n0 (State.drop s key) := by
  unfold State.drop
  with_reducible repeat' first | assumption | simp -zeta only [Kept.upd] | apply State.modHkp_kept | dsimp -zeta only | (intro; intros)

theorem State.thrice_kept {q0 : List Instr} {n0 : Nat} {s : State} (key : ℕ) (b : Bool) (h : Kept q0 n0 s) : Kept q0 n0 (State.thrice s key b).2 := by
  unfold State.thrice
  with_reducible repeat' first | assumption | simp -zeta only [Kept.upd] | apply State.modHkp_kept | apply Kept.ite | dsimp -zeta only | (extract_lets +onlyGivenNames z; first | (refine Kept.cut z ?_ ?_ <;> [subst z; (intro hz; clear_value z)]) | (refine Kept.cut2 z ?_ ?_ <;> [subst z; (intro hz; clear_value z)]) | (have hz : State → _ := z; clear hz; subst z) | clear_value z) | (intro; intros) | split

theorem State.declare_kept {q0 : List Instr} {n0 : Nat} {s : State} (key : ℕ) (slot : ℕ) (warns : List ℕ) (h : Kept q0 n0 s) : Kept q0 n0 (State.declare s key slot warns) := by
  unfold State.declare
  with_reducible repeat' first | assumption | apply State.event_kept | apply State.hold_kept | apply State.each_kept | apply State.drop_kept | apply Kept.ite | dsimp -zeta only | (extract_lets +onlyGivenNames z; first | (refine Kept.cut z ?_ ?_ <;> [subst z; (intro hz; clear_value z)]) | (refine Kept.cut2 z ?_ ?_ <;> [subst z; (intro hz; clear_value z)]) | (have hz : State → _ := z; clear hz; subst z) | clear_value z) | (intro; intros) | split

theorem State.failStep_kept {q0 : List Instr} {n0 : Nat} {s : State} (key : ℕ) (slot : ℕ) (b : Bool) (warns : List ℕ) (h : Kept q0 n0 s) : Kept q0 n0 (State.failStep s key slot b warns) := by
  unfold State.failStep
  with_reducible repeat' first | assumption | apply State.thrice_kept | apply State.cond_kept | apply State.declare_kept | dsimp -zeta only | (extract_lets +onlyGivenNames z; first | (refine Kept.cut z ?_ ?_ <;> [subst z; (intro hz; clear_value z)]) | (refine Kept.cut2 z ?_ ?_ <;> [subst z; (intro hz; clear_value z)]) | (have hz : State → _ := z; clear hz; subst z) | clear_value z) | (intro; intros)

theorem State.supplyStep_kept {q0 : List Instr} {n0 : Nat} {s : State} (slot : ℕ) (judged : Bool) (bad : Bool) (h : Kept q0 n0 s) : Kept q0 n0 (State.supplyStep s slot judged bad) := by
  unfold State.supplyStep
  with_reducible repeat' first | assumption | apply State.drop_kept | apply State.hold_kept | apply State.event_kept | apply Kept.ite | dsimp -zeta only | (extract_lets +onlyGivenNames z; first | (refine Kept.cut z ?_ ?_ <;> [subst z; (intro hz; clear_value z)]) | (refine Kept.cut2 z ?_ ?_ <;> [subst z; (intro hz; clear_value z)]) | (have hz : State → _ := z; clear hz; subst z) | clear_value z) | split

theorem State.warnStep_kept {q0 : List Instr} {n0 : Nat} {s : State} (key : ℕ) (slot : ℕ) (code : ℕ) (valid : Bool) (v : ℤ) (deg : ℕ) (act : State → State) (h : Kept q0 n0 s) (h_act : ∀ y0, Kept q0 n0 y0 → Kept q0 n0 (act y0)) : Kept q0 n0 (State.warnStep s key slot code valid v deg act) := by
  unfold State.warnStep
  with_reducible repeat' first | assumption | apply h_act | apply State.drop_kept | apply State.thrice_kept | apply State.cond_kept | apply State.hold_kept | apply State.event_kept | apply Kept.ite | dsimp -zeta only | (extract_lets +onlyGivenNames z; first | (refine Kept.cut z ?_ ?_ <;> [subst z; (intro hz; clear_value z)]) | (refine Kept.cut2 z ?_ ?_ <;> [subst z; (intro hz; clear_value z)]) | (have hz : State → _ := z; clear hz; subst z) | clear_value z) | (intro; intros) | split

theorem State.hotHold_kept {q0 : List Instr} {n0 : Nat} {s : State} (h : Kept q0 n0 s) : Kept q0 n0 (State.hotHold s) := by
  unfold State.hotHold
  with_reducible repeat' first | assumption | apply State.activateFor_kept | apply Kept.ite | dsimp -zeta only | (intro; intros) | split

theorem State.putVal_kept {q0 : List Instr} {n0 : Nat} {s : State} (slot : ℕ) (v : ℤ) (h : Kept q0 n0 s) : Kept q0 n0 (State.putVal s slot v) := by
  unfold State.putVal
  with_reducible repeat' first | assumption | apply State.wr_kept

theorem State.ntc_kept {q0 : List Instr} {n0 : Nat} {s : State} (code : ℕ) (r25 : ℕ) (b : ℕ) (h : Kept q0 n0 s) : Kept q0 n0 (State.ntc s code r25 b).2 := by
  unfold State.ntc
  with_reducible repeat' first | assumption | simp -zeta only [Kept.upd] | apply State.nextFree_kept | dsimp -zeta only | (extract_lets +onlyGivenNames z; first | (refine Kept.cut z ?_ ?_ <;> [subst z; (intro hz; clear_value z)]) | (refine Kept.cut2 z ?_ ?_ <;> [subst z; (intro hz; clear_value z)]) | (have hz : State → _ := z; clear hz; subst z) | clear_value z) | split

theorem State.convert_kept {q0 : List Instr} {n0 : Nat} {s : State} (locals : List ℤ) (slot : ℕ) (h : Kept q0 n0 s) : Kept q0 n0 (State.convert s locals slot) := by
  unfold State.convert
  with_reducible repeat' first | assumption | apply State.putVal_kept | apply State.ntc_kept | apply State.nextFree_kept | apply Kept.ite | dsimp -zeta only | (extract_lets +onlyGivenNames z; first | (refine Kept.cut z ?_ ?_ <;> [subst z; (intro hz; clear_value z)]) | (refine Kept.cut2 z ?_ ?_ <;> [subst z; (intro hz; clear_value z)]) | (have hz : State → _ := z; clear hz; subst z) | clear_value z) | split

theorem State.takeReport_kept {q0 : List Instr} {n0 : Nat} {s : State} (n : ℕ) (c : ChanReport) (h : Kept q0 n0 s) : Kept q0 n0 (State.takeReport s n c) := by
  unfold State.takeReport
  with_reducible repeat' first | assumption | apply State.wr_kept | apply State.ntc_kept | apply Kept.ite | dsimp -zeta only | (extract_lets +onlyGivenNames z; first | (refine Kept.cut z ?_ ?_ <;> [subst z; (intro hz; clear_value z)]) | (refine Kept.cut2 z ?_ ?_ <;> [subst z; (intro hz; clear_value z)]) | (have hz : State → _ := z; clear hz; subst z) | clear_value z) | split

theorem State.judgeDie_kept {q0 : List Instr} {n0 : Nat} {s : State} (slot : ℕ) (h : Kept q0 n0 s) : Kept q0 n0 (State.judgeDie s slot) := by
  unfold State.judgeDie
  with_reducible repeat' first | assumption | apply State.failStep_kept | dsimp -zeta only | (extract_lets +onlyGivenNames z; first | (refine Kept.cut z ?_ ?_ <;> [subst z; (intro hz; clear_value z)]) | (refine Kept.cut2 z ?_ ?_ <;> [subst z; (intro hz; clear_value z)]) | (have hz : State → _ := z; clear hz; subst z) | clear_value z) | (intro; intros)

theorem State.judgeChannel_kept {q0 : List Instr} {n0 : Nat} {s : State} (n : ℕ) (h : Kept q0 n0 s) : Kept q0 n0 (State.judgeChannel s n) := by
  unfold State.judgeChannel
  with_reducible repeat' first | assumption | simp -zeta only [Kept.upd] | apply State.failStep_kept | dsimp -zeta only | (extract_lets +onlyGivenNames z; first | (refine Kept.cut z ?_ ?_ <;> [subst z; (intro hz; clear_value z)]) | (refine Kept.cut2 z ?_ ?_ <;> [subst z; (intro hz; clear_value z)]) | (have hz : State → _ := z; clear hz; subst z) | clear_value z) | split

theorem State.judgeConverter_kept {q0 : List Instr} {n0 : Nat} {s : State} (codes : List ℤ) (h : Kept q0 n0 s) : Kept q0 n0 (State.judgeConverter s codes) := by
  unfold State.judgeConverter
  with_reducible repeat' first | assumption | apply State.thrice_kept | apply State.hi_kept | apply State.each_kept | apply State.declare_kept | apply Kept.ite | dsimp -zeta only | (extract_lets +onlyGivenNames z; first | (refine Kept.cut z ?_ ?_ <;> [subst z; (intro hz; clear_value z)]) | (refine Kept.cut2 z ?_ ?_ <;> [subst z; (intro hz; clear_value z)]) | (have hz : State → _ := z; clear hz; subst z) | clear_value z) | (intro; intros) | split

theorem State.judgeNtcs_kept {q0 : List Instr} {n0 : Nat} {s : State} (codes : List ℤ) (chans : List ChanReport) (h : Kept q0 n0 s) : Kept q0 n0 (State.judgeNtcs s codes chans) := by
  unfold State.judgeNtcs
  with_reducible repeat' first | assumption | apply State.each_kept | apply State.failStep_kept | apply State.thrice_kept | apply State.cond_kept | apply State.declare_kept | apply State.hold_kept | dsimp -zeta only | (extract_lets +onlyGivenNames z; first | (refine Kept.cut z ?_ ?_ <;> [subst z; (intro hz; clear_value z)]) | (refine Kept.cut2 z ?_ ?_ <;> [subst z; (intro hz; clear_value z)]) | (have hz : State → _ := z; clear hz; subst z) | clear_value z) | (intro; intros) | split

theorem State.ntc3Ban_kept {q0 : List Instr} {n0 : Nat} {s : State} (h : Kept q0 n0 s) : Kept q0 n0 (State.ntc3Ban s) := by
  unfold State.ntc3Ban
  with_reducible repeat' first | assumption | simp -zeta only [Kept.upd] | apply State.cond_kept | apply State.hi_kept | apply State.banEnter_kept | apply State.lo_kept | apply State.modRec_kept | apply Kept.ite | dsimp -zeta only | (extract_lets +onlyGivenNames z; first | (refine Kept.cut z ?_ ?_ <;> [subst z; (intro hz; clear_value z)]) | (refine Kept.cut2 z ?_ ?_ <;> [subst z; (intro hz; clear_value z)]) | (have hz : State → _ := z; clear hz; subst z) | clear_value z) | (intro; intros) | split

theorem State.supplies_kept {q0 : List Instr} {n0 : Nat} {s : State} (locals : List ℤ) (h : Kept q0 n0 s) : Kept q0 n0 (State.supplies s locals) := by
  unfold State.supplies
  with_reducible repeat' first | assumption | apply State.each_kept | apply State.supplyStep_kept | dsimp -zeta only | (extract_lets +onlyGivenNames z; first | (refine Kept.cut z ?_ ?_ <;> [subst z; (intro hz; clear_value z)]) | (refine Kept.cut2 z ?_ ?_ <;> [subst z; (intro hz; clear_value z)]) | (have hz : State → _ := z; clear hz; subst z) | clear_value z) | (intro; intros) | split

theorem State.refreshLevels_kept {q0 : List Instr} {n0 : Nat} {s : State} (h : Kept q0 n0 s) : Kept q0 n0 (State.refreshLevels s) := by
  unfold State.refreshLevels
  with_reducible repeat' first | assumption | simp -zeta only [Kept.upd] | apply State.each_kept | apply State.cond_kept | apply State.modLeg_kept | dsimp -zeta only | (extract_lets +onlyGivenNames z; first | (refine Kept.cut z ?_ ?_ <;> [subst z; (intro hz; clear_value z)]) | (refine Kept.cut2 z ?_ ?_ <;> [subst z; (intro hz; clear_value z)]) | (have hz : State → _ := z; clear hz; subst z) | clear_value z) | (intro; intros)

theorem State.temperatures_kept {q0 : List Instr} {n0 : Nat} {s : State} (h : Kept q0 n0 s) : Kept q0 n0 (State.temperatures s) := by
  unfold State.temperatures
  with_reducible repeat' first | assumption | apply State.each_kept | apply State.warnStep_kept | apply State.hotHold_kept | apply State.thrice_kept | apply State.cond_kept | apply State.nextFree_kept | apply State.hold_kept | apply State.event_kept | simp -zeta only [id] | dsimp -zeta only | (extract_lets +onlyGivenNames z; first | (refine Kept.cut z ?_ ?_ <;> [subst z; (intro hz; clear_value z)]) | (refine Kept.cut2 z ?_ ?_ <;> [subst z; (intro hz; clear_value z)]) | (have hz : State → _ := z; clear hz; subst z) | clear_value z) | (intro; intros)

theorem State.showValid_kept {q0 : List Instr} {n0 : Nat} {s : State} (h : Kept q0 n0 s) : Kept q0 n0 (State.showValid s) := by
  unfold State.showValid
  with_reducible repeat' first | assumption | apply State.each_kept | apply State.wrB_kept | apply State.wr_kept | dsimp -zeta only | (extract_lets +onlyGivenNames z; first | (refine Kept.cut z ?_ ?_ <;> [subst z; (intro hz; clear_value z)]) | (refine Kept.cut2 z ?_ ?_ <;> [subst z; (intro hz; clear_value z)]) | (have hz : State → _ := z; clear hz; subst z) | clear_value z) | (intro; intros)

theorem State.hkpStep_kept {q0 : List Instr} {n0 : Nat} {s : State} (codes : List ℤ) (chans : List ChanReport) (h : Kept q0 n0 s) : Kept q0 n0 (State.hkpStep s codes chans) := by
  unfold State.hkpStep
  with_reducible repeat' first | assumption | apply State.hi_kept | apply State.wr_kept | apply State.each_kept | apply State.convert_kept | apply State.takeReport_kept | apply State.judgeConverter_kept | apply State.judgeDie_kept | apply State.judgeChannel_kept | apply State.judgeNtcs_kept | apply State.supplies_kept | apply State.temperatures_kept | apply State.ntc3Ban_kept | apply State.refreshLevels_kept | apply State.showValid_kept | dsimp -zeta only | (extract_lets +onlyGivenNames z; first | (refine Kept.cut z ?_ ?_ <;> [subst z; (intro hz; clear_value z)]) | (refine Kept.cut2 z ?_ ?_ <;> [subst z; (intro hz; clear_value z)]) | (have hz : State → _ := z; clear hz; subst z) | clear_value z) | (intro; intros)

theorem execHkpRound_kept {q0 : List Instr} {n0 : Nat} (t : ℕ) (locals : List ℤ) (chans : List ChanReport) {s : State} (h : Kept q0 n0 s) :
    ∃ s', execHkpRound t locals chans s = .next s' ∧ Kept q0 (max n0 t) s' := by
  refine ⟨_, rfl, ?_⟩
  have h := State.upTo_kept t h
  with_reducible repeat' first | assumption | apply State.upTo_kept | apply State.hkpStep_kept | apply Kept.ite | dsimp -zeta only | (extract_lets +onlyGivenNames z; first | (refine Kept.cut z ?_ ?_ <;> [subst z; (intro hz; clear_value z)]) | (refine Kept.cut2 z ?_ ?_ <;> [subst z; (intro hz; clear_value z)]) | (have hz : State → _ := z; clear hz; subst z) | clear_value z) | split

theorem execBrakeCoilCheck_kept {q0 : List Instr} {n0 : Nat} (t : ℕ) {s : State} (h : Kept q0 n0 s) :
    ∃ s', execBrakeCoilCheck t s = .next s' ∧ Kept q0 (max n0 t) s' := by
  refine ⟨_, rfl, ?_⟩
  have h := State.upTo_kept t h
  with_reducible repeat' first | assumption | apply State.output_kept | apply State.upTo_kept | apply State.event_kept | apply Kept.ite | dsimp -zeta only | (extract_lets +onlyGivenNames z; first | (refine Kept.cut z ?_ ?_ <;> [subst z; (intro hz; clear_value z)]) | (refine Kept.cut2 z ?_ ?_ <;> [subst z; (intro hz; clear_value z)]) | (have hz : State → _ := z; clear hz; subst z) | clear_value z) | (intro; intros) | split

end Sys2Proof.Machine
end

