-- ==== Sys2Proof/Laws/Exec.lean ====
section
/-!
SUPPORT. Every command answers a next state, and keeps the rest of the queue, the clock and the form of the stores.
-/

namespace Sys2Proof.Machine

theorem exec_kept {q0 : List Instr} {n0 : Nat} (c : Instr) {s : State} (h : Kept q0 n0 s) :
    ∃ s', exec c s = .next s' ∧ Kept q0 (max n0 c.time) s' := by
  cases c with
  | registerWrite _ _ _ _ _ _ => simp only [exec, Instr.time]; exact execRegisterWrite_kept _ _ _ _ _ _ h
  | splitLoRead _ _ _ _ _ => simp only [exec, Instr.time]; exact execSplitLoRead_kept _ _ _ _ _ h
  | updateEvent _ _ => simp only [exec, Instr.time]; exact execUpdateEvent_kept _ _ h
  | reload _ _ _ => simp only [exec, Instr.time]; exact execReload_kept _ _ _ h
  | reloadGuardOpen _ _ _ => simp only [exec, Instr.time]; exact execReloadGuardOpen_kept _ _ _ h
  | taskLimitReached _ _ => simp only [exec, Instr.time]; exact execTaskLimitReached_kept _ _ h
  | commitWord _ _ _ => simp only [exec, Instr.time]; exact execCommitWord_kept _ _ _ h
  | triggerPoint _ _ _ => simp only [exec, Instr.time]; exact execTriggerPoint_kept _ _ _ h
  | queuedScanStart _ => simp only [exec, Instr.time]; exact execQueuedScanStart_kept _ h
  | scanComplete _ _ => simp only [exec, Instr.time]; exact execScanComplete_kept _ _ h
  | tripLeak _ _ => simp only [exec, Instr.time]; exact execTripLeak_kept _ _ h
  | fesilTaskStart _ _ _ => simp only [exec, Instr.time]; exact execFesilTaskStart_kept _ _ _ h
  | ldi _ _ _ _ => simp only [exec, Instr.time]; exact execLdi_kept _ _ _ _ h
  | lds _ _ _ _ => simp only [exec, Instr.time]; exact execLds_kept _ _ _ _ h
  | ldc _ _ _ _ => simp only [exec, Instr.time]; exact execLdc_kept _ _ _ _ h
  | ldc4 _ _ _ _ => simp only [exec, Instr.time]; exact execLdc4_kept _ _ _ _ h
  | stc _ _ _ _ => simp only [exec, Instr.time]; exact execStc_kept _ _ _ _ h
  | stc4 _ _ _ _ => simp only [exec, Instr.time]; exact execStc4_kept _ _ _ _ h
  | ldx _ _ _ _ => simp only [exec, Instr.time]; exact execLdx_kept _ _ _ _ h
  | stx _ _ _ _ => simp only [exec, Instr.time]; exact execStx_kept _ _ _ _ h
  | movi _ _ _ _ => simp only [exec, Instr.time]; exact execMovi_kept _ _ _ _ h
  | mov _ _ _ _ => simp only [exec, Instr.time]; exact execMov_kept _ _ _ _ h
  | fadd _ _ _ _ _ => simp only [exec, Instr.time]; exact execFadd_kept _ _ _ _ _ h
  | fsub _ _ _ _ _ => simp only [exec, Instr.time]; exact execFsub_kept _ _ _ _ _ h
  | fmul _ _ _ _ _ => simp only [exec, Instr.time]; exact execFmul_kept _ _ _ _ _ h
  | fmac _ _ _ _ _ => simp only [exec, Instr.time]; exact execFmac_kept _ _ _ _ _ h
  | fmsu _ _ _ _ _ => simp only [exec, Instr.time]; exact execFmsu_kept _ _ _ _ _ h
  | fneg _ _ _ _ => simp only [exec, Instr.time]; exact execFneg_kept _ _ _ _ h
  | fabs _ _ _ _ => simp only [exec, Instr.time]; exact execFabs_kept _ _ _ _ h
  | fmin _ _ _ _ _ => simp only [exec, Instr.time]; exact execFmin_kept _ _ _ _ _ h
  | fmax _ _ _ _ _ => simp only [exec, Instr.time]; exact execFmax_kept _ _ _ _ _ h
  | fclmp _ _ _ _ _ => simp only [exec, Instr.time]; exact execFclmp_kept _ _ _ _ _ h
  | fdot _ _ _ _ _ => simp only [exec, Instr.time]; exact execFdot_kept _ _ _ _ _ h
  | frcp _ _ _ _ => simp only [exec, Instr.time]; exact execFrcp_kept _ _ _ _ h
  | frsq _ _ _ _ => simp only [exec, Instr.time]; exact execFrsq_kept _ _ _ _ h
  | fsqrt _ _ _ _ => simp only [exec, Instr.time]; exact execFsqrt_kept _ _ _ _ h
  | fdiv _ _ _ _ _ => simp only [exec, Instr.time]; exact execFdiv_kept _ _ _ _ _ h
  | cvqf _ _ _ _ _ => simp only [exec, Instr.time]; exact execCvqf_kept _ _ _ _ _ h
  | cvfq _ _ _ _ _ => simp only [exec, Instr.time]; exact execCvfq_kept _ _ _ _ _ h
  | cvaf _ _ _ _ => simp only [exec, Instr.time]; exact execCvaf_kept _ _ _ _ h
  | cvfa _ _ _ _ => simp only [exec, Instr.time]; exact execCvfa_kept _ _ _ _ h
  | cvif _ _ _ _ => simp only [exec, Instr.time]; exact execCvif_kept _ _ _ _ h
  | cvfi _ _ _ _ => simp only [exec, Instr.time]; exact execCvfi_kept _ _ _ _ h
  | iadd _ _ _ _ _ => simp only [exec, Instr.time]; exact execIadd_kept _ _ _ _ _ h
  | isub _ _ _ _ _ => simp only [exec, Instr.time]; exact execIsub_kept _ _ _ _ _ h
  | iand _ _ _ _ _ => simp only [exec, Instr.time]; exact execIand_kept _ _ _ _ _ h
  | ior _ _ _ _ _ => simp only [exec, Instr.time]; exact execIor_kept _ _ _ _ _ h
  | ixor _ _ _ _ _ => simp only [exec, Instr.time]; exact execIxor_kept _ _ _ _ _ h
  | ish _ _ _ _ _ => simp only [exec, Instr.time]; exact execIsh_kept _ _ _ _ _ h
  | sincos _ _ _ _ => simp only [exec, Instr.time]; exact execSincos_kept _ _ _ _ h
  | clarke _ _ _ _ => simp only [exec, Instr.time]; exact execClarke_kept _ _ _ _ h
  | park _ _ _ _ _ => simp only [exec, Instr.time]; exact execPark_kept _ _ _ _ _ h
  | ipark _ _ _ _ _ => simp only [exec, Instr.time]; exact execIpark_kept _ _ _ _ _ h
  | svm _ _ _ _ _ => simp only [exec, Instr.time]; exact execSvm_kept _ _ _ _ _ h
  | cmpq _ _ _ => simp only [exec, Instr.time]; exact execCmpq_kept _ _ _ h
  | stper _ _ _ => simp only [exec, Instr.time]; exact execStper_kept _ _ _ h
  | sttrg _ _ _ _ => simp only [exec, Instr.time]; exact execSttrg_kept _ _ _ _ h
  | pic _ _ _ _ _ _ _ _ => simp only [exec, Instr.time]; exact execPic_kept _ _ _ _ _ _ _ _ h
  | biq _ _ _ _ _ _ => simp only [exec, Instr.time]; exact execBiq_kept _ _ _ _ _ _ h
  | fcmp _ _ _ _ => simp only [exec, Instr.time]; exact execFcmp_kept _ _ _ _ h
  | icmp _ _ _ _ => simp only [exec, Instr.time]; exact execIcmp_kept _ _ _ _ h
  | br _ _ _ _ => simp only [exec, Instr.time]; exact execBr_kept _ _ _ _ h
  | jmp _ _ _ => simp only [exec, Instr.time]; exact execJmp_kept _ _ _ h
  | commit _ _ => simp only [exec, Instr.time]; exact execCommit_kept _ _ h
  | trc _ _ => simp only [exec, Instr.time]; exact execTrc_kept _ _ h
  | evt _ _ _ _ => simp only [exec, Instr.time]; exact execEvt_kept _ _ _ _ h
  | endProgram _ _ => simp only [exec, Instr.time]; exact execEndProgram_kept _ _ h
  | coastTimeout _ _ => simp only [exec, Instr.time]; exact execCoastTimeout_kept _ _ h
  | pub _ _ => simp only [exec, Instr.time]; exact execPub_kept _ _ h
  | swap _ _ => simp only [exec, Instr.time]; exact execSwap_kept _ _ h
  | run _ _ => simp only [exec, Instr.time]; exact execRun_kept _ _ h
  | programCheckDone _ _ => simp only [exec, Instr.time]; exact execProgramCheckDone_kept _ _ h
  | memWindowAccess _ _ _ => simp only [exec, Instr.time]; exact execMemWindowAccess_kept _ _ _ h
  | maxClr _ _ => simp only [exec, Instr.time]; exact execMaxClr_kept _ _ h
  | traceCfgArm _ _ => simp only [exec, Instr.time]; exact execTraceCfgArm_kept _ _ h
  | traceForce _ => simp only [exec, Instr.time]; exact execTraceForce_kept _ h
  | fslCtlSatClear _ => simp only [exec, Instr.time]; exact execFslCtlSatClear_kept _ h
  | fslOvrSatClear _ _ _ => simp only [exec, Instr.time]; exact execFslOvrSatClear_kept _ _ _ h
  | delayLineCalibration _ _ => simp only [exec, Instr.time]; exact execDelayLineCalibration_kept _ _ h
  | syncLost _ _ _ => simp only [exec, Instr.time]; exact execSyncLost_kept _ _ _ h
  | syncInputEdge _ _ => simp only [exec, Instr.time]; exact execSyncInputEdge_kept _ _ h
  | syncEdgeMissing _ _ => simp only [exec, Instr.time]; exact execSyncEdgeMissing_kept _ _ h
  | pwmLdiscSatClear _ _ => simp only [exec, Instr.time]; exact execPwmLdiscSatClear_kept _ _ h
  | resetNAssert _ => simp only [exec, Instr.time]; exact execResetNAssert_kept _ h
  | resetNRelease _ _ _ => simp only [exec, Instr.time]; exact execResetNRelease_kept _ _ _ h
  | wakePinRequest _ _ => simp only [exec, Instr.time]; exact execWakePinRequest_kept _ _ h
  | railInWindow _ _ => simp only [exec, Instr.time]; exact execRailInWindow_kept _ _ h
  | thawAbort _ => simp only [exec, Instr.time]; exact execThawAbort_kept _ h
  | railFallen _ _ => simp only [exec, Instr.time]; exact execRailFallen_kept _ _ h
  | aoPowerOn _ => simp only [exec, Instr.time]; exact execAoPowerOn_kept _ h
  | aoBrownOut _ => simp only [exec, Instr.time]; exact execAoBrownOut_kept _ h
  | domainLost _ _ => simp only [exec, Instr.time]; exact execDomainLost_kept _ _ h
  | pllLock _ _ _ => simp only [exec, Instr.time]; exact execPllLock_kept _ _ _ h
  | pllLossOfLock _ _ => simp only [exec, Instr.time]; exact execPllLossOfLock_kept _ _ h
  | xtalFail _ => simp only [exec, Instr.time]; exact execXtalFail_kept _ h
  | refChangeoverDone _ => simp only [exec, Instr.time]; exact execRefChangeoverDone_kept _ h
  | heldStartRelease _ _ => simp only [exec, Instr.time]; exact execHeldStartRelease_kept _ _ h
  | startTimeout _ _ => simp only [exec, Instr.time]; exact execStartTimeout_kept _ _ h
  | alarmExpire _ => simp only [exec, Instr.time]; exact execAlarmExpire_kept _ h
  | ctKeeperTick _ => simp only [exec, Instr.time]; exact execCtKeeperTick_kept _ h
  | shutdownBistDone _ _ => simp only [exec, Instr.time]; exact execShutdownBistDone_kept _ _ h
  | lossSatClear _ => simp only [exec, Instr.time]; exact execLossSatClear_kept _ h
  | enaFall _ _ => simp only [exec, Instr.time]; exact execEnaFall_kept _ _ h
  | enaRise _ _ => simp only [exec, Instr.time]; exact execEnaRise_kept _ _ h
  | channelLinkUp _ _ _ _ => simp only [exec, Instr.time]; exact execChannelLinkUp_kept _ _ _ _ h
  | configExchangeDone _ _ _ => simp only [exec, Instr.time]; exact execConfigExchangeDone_kept _ _ _ h
  | configReadback _ _ _ => simp only [exec, Instr.time]; exact execConfigReadback_kept _ _ _ h
  | linkTimeout _ _ => simp only [exec, Instr.time]; exact execLinkTimeout_kept _ _ h
  | supplyCollapse _ _ => simp only [exec, Instr.time]; exact execSupplyCollapse_kept _ _ h
  | uvloEntry _ _ _ _ => simp only [exec, Instr.time]; exact execUvloEntry_kept _ _ _ _ h
  | uvloRelease _ _ => simp only [exec, Instr.time]; exact execUvloRelease_kept _ _ h
  | channelOverTemp _ _ => simp only [exec, Instr.time]; exact execChannelOverTemp_kept _ _ h
  | channelTempOk _ _ => simp only [exec, Instr.time]; exact execChannelTempOk_kept _ _ h
  | gateEdge _ _ _ => simp only [exec, Instr.time]; exact execGateEdge_kept _ _ _ h
  | profilePhaseEnd _ _ => simp only [exec, Instr.time]; exact execProfilePhaseEnd_kept _ _ h
  | blankingEnd _ _ => simp only [exec, Instr.time]; exact execBlankingEnd_kept _ _ h
  | desaturation _ _ => simp only [exec, Instr.time]; exact execDesaturation_kept _ _ h
  | hardShort _ _ => simp only [exec, Instr.time]; exact execHardShort_kept _ _ h
  | softOffEnd _ _ => simp only [exec, Instr.time]; exact execSoftOffEnd_kept _ _ h
  | onStateSample _ _ _ => simp only [exec, Instr.time]; exact execOnStateSample_kept _ _ _ h
  | scFaultReport _ _ => simp only [exec, Instr.time]; exact execScFaultReport_kept _ _ h
  | finalStateDecision _ _ => simp only [exec, Instr.time]; exact execFinalStateDecision_kept _ _ h
  | diagStart _ _ _ => simp only [exec, Instr.time]; exact execDiagStart_kept _ _ _ h
  | diagComplete _ _ => simp only [exec, Instr.time]; exact execDiagComplete_kept _ _ h
  | diagAbort _ => simp only [exec, Instr.time]; exact execDiagAbort_kept _ h
  | gdcCntSatClear _ _ => simp only [exec, Instr.time]; exact execGdcCntSatClear_kept _ _ h
  | guardRound _ _ _ => simp only [exec, Instr.time]; exact execGuardRound_kept _ _ _ h
  | internalCheck _ _ => simp only [exec, Instr.time]; exact execInternalCheck_kept _ _ h
  | crossCheck _ _ _ _ => simp only [exec, Instr.time]; exact execCrossCheck_kept _ _ _ _ h
  | backgroundCorrection _ _ _ _ _ => simp only [exec, Instr.time]; exact execBackgroundCorrection_kept _ _ _ _ _ h
  | calStarveTimeout _ _ => simp only [exec, Instr.time]; exact execCalStarveTimeout_kept _ _ h
  | sliceSilence _ _ => simp only [exec, Instr.time]; exact execSliceSilence_kept _ _ h
  | castlingInstant _ => simp only [exec, Instr.time]; exact execCastlingInstant_kept _ h
  | castlingForce _ => simp only [exec, Instr.time]; exact execCastlingForce_kept _ h
  | tdacStart _ _ _ => simp only [exec, Instr.time]; exact execTdacStart_kept _ _ _ h
  | tdacComplete _ _ => simp only [exec, Instr.time]; exact execTdacComplete_kept _ _ h
  | tdacAbort _ => simp only [exec, Instr.time]; exact execTdacAbort_kept _ h
  | adcCntSatClear _ _ => simp only [exec, Instr.time]; exact execAdcCntSatClear_kept _ _ h
  | adcNomajSatClear _ _ => simp only [exec, Instr.time]; exact execAdcNomajSatClear_kept _ _ h
  | resolverSample _ _ _ _ _ _ => simp only [exec, Instr.time]; exact execResolverSample_kept _ _ _ _ _ _ h
  | encoderEdge _ _ _ _ _ => simp only [exec, Instr.time]; exact execEncoderEdge_kept _ _ _ _ _ h
  | hallTransition _ _ _ _ => simp only [exec, Instr.time]; exact execHallTransition_kept _ _ _ _ h
  | hallBadTimeout _ _ => simp only [exec, Instr.time]; exact execHallBadTimeout_kept _ _ h
  | toothEdge _ _ _ _ => simp only [exec, Instr.time]; exact execToothEdge_kept _ _ _ _ h
  | indexPulse _ _ _ => simp only [exec, Instr.time]; exact execIndexPulse_kept _ _ _ h
  | edgeTimeout _ _ => simp only [exec, Instr.time]; exact execEdgeTimeout_kept _ _ h
  | positionFrame _ _ _ => simp only [exec, Instr.time]; exact execPositionFrame_kept _ _ _ h
  | positionFrameTimeout _ _ => simp only [exec, Instr.time]; exact execPositionFrameTimeout_kept _ _ h
  | compareHit _ _ => simp only [exec, Instr.time]; exact execCompareHit_kept _ _ h
  | posCntSatClear _ _ => simp only [exec, Instr.time]; exact execPosCntSatClear_kept _ _ h
  | rearm _ _ => simp only [exec, Instr.time]; exact execRearm_kept _ _ h
  | catchEnd _ _ _ _ => simp only [exec, Instr.time]; exact execCatchEnd_kept _ _ _ _ h
  | ifTimeout _ _ => simp only [exec, Instr.time]; exact execIfTimeout_kept _ _ h
  | uzodarEmfCompute _ _ _ _ _ => simp only [exec, Instr.time]; exact execUzodarEmfCompute_kept _ _ _ _ _ h
  | servoTick _ _ => simp only [exec, Instr.time]; exact execServoTick_kept _ _ h
  | go _ _ _ => simp only [exec, Instr.time]; exact execGo_kept _ _ _ h
  | halt _ _ _ => simp only [exec, Instr.time]; exact execHalt_kept _ _ _ h
  | prearmSend _ _ => simp only [exec, Instr.time]; exact execPrearmSend_kept _ _ h
  | prearmReceive _ _ _ _ => simp only [exec, Instr.time]; exact execPrearmReceive_kept _ _ _ _ h
  | takerReadySend _ _ _ => simp only [exec, Instr.time]; exact execTakerReadySend_kept _ _ _ h
  | readyReceive _ _ _ => simp only [exec, Instr.time]; exact execReadyReceive_kept _ _ _ h
  | stateReceive _ _ _ _ _ _ _ => simp only [exec, Instr.time]; exact execStateReceive_kept _ _ _ _ _ _ _ h
  | echoReceive _ _ _ _ _ => simp only [exec, Instr.time]; exact execEchoReceive_kept _ _ _ _ _ h
  | releaseReceive _ _ _ => simp only [exec, Instr.time]; exact execReleaseReceive_kept _ _ _ h
  | abortReceive _ _ _ => simp only [exec, Instr.time]; exact execAbortReceive_kept _ _ _ h
  | stateFrameLoss _ _ => simp only [exec, Instr.time]; exact execStateFrameLoss_kept _ _ h
  | idleTimeout _ => simp only [exec, Instr.time]; exact execIdleTimeout_kept _ h
  | motHovSatClear _ _ => simp only [exec, Instr.time]; exact execMotHovSatClear_kept _ _ h
  | stoDemand _ _ _ _ => simp only [exec, Instr.time]; exact execStoDemand_kept _ _ _ _ h
  | stoRelease _ => simp only [exec, Instr.time]; exact execStoRelease_kept _ h
  | stoDiscrepancy _ => simp only [exec, Instr.time]; exact execStoDiscrepancy_kept _ h
  | safeStateRowActivate _ _ _ => simp only [exec, Instr.time]; exact execSafeStateRowActivate_kept _ _ _ h
  | ss1End _ _ _ => simp only [exec, Instr.time]; exact execSs1End_kept _ _ _ h
  | brakeStepEnd _ _ => simp only [exec, Instr.time]; exact execBrakeStepEnd_kept _ _ h
  | ascExitTimer _ _ => simp only [exec, Instr.time]; exact execAscExitTimer_kept _ _ h
  | torqueMonitorEval _ _ => simp only [exec, Instr.time]; exact execTorqueMonitorEval_kept _ _ h
  | limpWarning _ _ => simp only [exec, Instr.time]; exact execLimpWarning_kept _ _ h
  | limpTimeout _ _ => simp only [exec, Instr.time]; exact execLimpTimeout_kept _ _ h
  | limpSpeedTimeout _ _ => simp only [exec, Instr.time]; exact execLimpSpeedTimeout_kept _ _ h
  | testPulse _ _ _ _ => simp only [exec, Instr.time]; exact execTestPulse_kept _ _ _ _ h
  | soShortTimeout _ _ => simp only [exec, Instr.time]; exact execSoShortTimeout_kept _ _ h
  | brakeTestPhaseEnd _ => simp only [exec, Instr.time]; exact execBrakeTestPhaseEnd_kept _ h
  | brakeTestDue _ _ => simp only [exec, Instr.time]; exact execBrakeTestDue_kept _ _ h
  | prechargeReached _ => simp only [exec, Instr.time]; exact execPrechargeReached_kept _ h
  | prechargeCo1Open _ => simp only [exec, Instr.time]; exact execPrechargeCo1Open_kept _ h
  | prechargeTimeout _ => simp only [exec, Instr.time]; exact execPrechargeTimeout_kept _ h
  | contactorFeedbackFault _ _ _ => simp only [exec, Instr.time]; exact execContactorFeedbackFault_kept _ _ _ h
  | dischargeStart _ => simp only [exec, Instr.time]; exact execDischargeStart_kept _ h
  | dischargeEnd _ => simp only [exec, Instr.time]; exact execDischargeEnd_kept _ h
  | dischargeTimeout _ => simp only [exec, Instr.time]; exact execDischargeTimeout_kept _ h
  | shadowCompare _ => simp only [exec, Instr.time]; exact execShadowCompare_kept _ h
  | uzodarSelfTest _ _ => simp only [exec, Instr.time]; exact execUzodarSelfTest_kept _ _ h
  | selfTestOverdue _ => simp only [exec, Instr.time]; exact execSelfTestOverdue_kept _ h
  | laneFault _ => simp only [exec, Instr.time]; exact execLaneFault_kept _ h
  | safFirstRearm _ => simp only [exec, Instr.time]; exact execSafFirstRearm_kept _ h
  | checkpointInstant _ => simp only [exec, Instr.time]; exact execCheckpointInstant_kept _ h
  | checkpointPortWrite _ _ _ _ _ => simp only [exec, Instr.time]; exact execCheckpointPortWrite_kept _ _ _ _ _ h
  | replicatedRead _ _ _ => simp only [exec, Instr.time]; exact execReplicatedRead_kept _ _ _ h
  | resyncComplete _ => simp only [exec, Instr.time]; exact execResyncComplete_kept _ h
  | localSramEccError _ _ => simp only [exec, Instr.time]; exact execLocalSramEccError_kept _ _ h
  | restart _ _ => simp only [exec, Instr.time]; exact execRestart_kept _ _ h
  | debugHalt _ _ => simp only [exec, Instr.time]; exact execDebugHalt_kept _ _ h
  | debugResume _ _ => simp only [exec, Instr.time]; exact execDebugResume_kept _ _ h
  | cpxMinSatClear _ => simp only [exec, Instr.time]; exact execCpxMinSatClear_kept _ h
  | recoveryGo _ _ => simp only [exec, Instr.time]; exact execRecoveryGo_kept _ _ h
  | debugChallengeRead _ => simp only [exec, Instr.time]; exact execDebugChallengeRead_kept _ h
  | debugResponse _ _ _ => simp only [exec, Instr.time]; exact execDebugResponse_kept _ _ _ h
  | boundaryScanInstruction _ _ => simp only [exec, Instr.time]; exact execBoundaryScanInstruction_kept _ _ h
  | doorbell _ _ _ => simp only [exec, Instr.time]; exact execDoorbell_kept _ _ _ h
  | ringEnable _ _ _ => simp only [exec, Instr.time]; exact execRingEnable_kept _ _ _ h
  | descriptorFetch _ _ _ => simp only [exec, Instr.time]; exact execDescriptorFetch_kept _ _ _ h
  | nop _ _ => simp only [exec, Instr.time]; exact execNop_kept _ _ h
  | queryState _ _ => simp only [exec, Instr.time]; exact execQueryState_kept _ _ h
  | setMode _ _ _ => simp only [exec, Instr.time]; exact execSetMode_kept _ _ _ h
  | arm _ _ _ => simp only [exec, Instr.time]; exact execArm_kept _ _ _ h
  | start _ _ => simp only [exec, Instr.time]; exact execStart_kept _ _ h
  | stop _ _ => simp only [exec, Instr.time]; exact execStop_kept _ _ h
  | setTorque _ _ => simp only [exec, Instr.time]; exact execSetTorque_kept _ _ h
  | setSpeed _ _ => simp only [exec, Instr.time]; exact execSetSpeed_kept _ _ h
  | loadProfileParams _ _ => simp only [exec, Instr.time]; exact execLoadProfileParams_kept _ _ h
  | loadProfileTable _ _ => simp only [exec, Instr.time]; exact execLoadProfileTable_kept _ _ h
  | loadProfileControl _ _ => simp only [exec, Instr.time]; exact execLoadProfileControl_kept _ _ h
  | setLimits _ _ => simp only [exec, Instr.time]; exact execSetLimits_kept _ _ h
  | brakeTest _ _ => simp only [exec, Instr.time]; exact execBrakeTest_kept _ _ h
  | discharge _ _ => simp only [exec, Instr.time]; exact execDischarge_kept _ _ h
  | handoverPolicy _ _ => simp only [exec, Instr.time]; exact execHandoverPolicy_kept _ _ h
  | traceArm _ _ => simp only [exec, Instr.time]; exact execTraceArm_kept _ _ h
  | traceRead _ _ _ _ => simp only [exec, Instr.time]; exact execTraceRead_kept _ _ _ _ h
  | journalQuery _ _ => simp only [exec, Instr.time]; exact execJournalQuery_kept _ _ h
  | recRead _ _ => simp only [exec, Instr.time]; exact execRecRead_kept _ _ h
  | recMark _ _ => simp only [exec, Instr.time]; exact execRecMark_kept _ _ h
  | fwStage _ _ => simp only [exec, Instr.time]; exact execFwStage_kept _ _ h
  | fwCommitActivate _ _ => simp only [exec, Instr.time]; exact execFwCommitActivate_kept _ _ h
  | fwCommitAdvance _ _ => simp only [exec, Instr.time]; exact execFwCommitAdvance_kept _ _ h
  | attest _ _ => simp only [exec, Instr.time]; exact execAttest_kept _ _ h
  | attestComplete _ => simp only [exec, Instr.time]; exact execAttestComplete_kept _ h
  | chainSend _ _ => simp only [exec, Instr.time]; exact execChainSend_kept _ _ h
  | canConfigure _ _ => simp only [exec, Instr.time]; exact execCanConfigure_kept _ _ h
  | canTransmit _ _ => simp only [exec, Instr.time]; exact execCanTransmit_kept _ _ h
  | canRead _ _ => simp only [exec, Instr.time]; exact execCanRead_kept _ _ h
  | canDisable _ _ => simp only [exec, Instr.time]; exact execCanDisable_kept _ _ h
  | canAbort _ _ _ => simp only [exec, Instr.time]; exact execCanAbort_kept _ _ _ h
  | canStart _ _ => simp only [exec, Instr.time]; exact execCanStart_kept _ _ h
  | canStop _ _ _ => simp only [exec, Instr.time]; exact execCanStop_kept _ _ _ h
  | canRecover _ _ => simp only [exec, Instr.time]; exact execCanRecover_kept _ _ h
  | tlmConfig _ _ => simp only [exec, Instr.time]; exact execTlmConfig_kept _ _ h
  | dataMoverDone _ _ => simp only [exec, Instr.time]; exact execDataMoverDone_kept _ _ h
  | tlmHeartbeat _ _ => simp only [exec, Instr.time]; exact execTlmHeartbeat_kept _ _ h
  | eventBacklogWrite _ => simp only [exec, Instr.time]; exact execEventBacklogWrite_kept _ h
  | irqHoldExpire _ _ => simp only [exec, Instr.time]; exact execIrqHoldExpire_kept _ _ h
  | hostWatchdogExpire _ => simp only [exec, Instr.time]; exact execHostWatchdogExpire_kept _ h
  | hotReset _ => simp only [exec, Instr.time]; exact execHotReset_kept _ h
  | linkLoss _ _ => simp only [exec, Instr.time]; exact execLinkLoss_kept _ _ h
  | dmaError _ _ => simp only [exec, Instr.time]; exact execDmaError_kept _ _ h
  | hifRcntSatClear _ _ => simp only [exec, Instr.time]; exact execHifRcntSatClear_kept _ _ h
  | mirrorBatchWrite _ => simp only [exec, Instr.time]; exact execMirrorBatchWrite_kept _ h
  | journalApertureRead _ _ _ => simp only [exec, Instr.time]; exact execJournalApertureRead_kept _ _ _ h
  | journalHeadRead _ _ => simp only [exec, Instr.time]; exact execJournalHeadRead_kept _ _ h
  | jrnCntSatClear _ => simp only [exec, Instr.time]; exact execJrnCntSatClear_kept _ h
  | chainLinkUp _ _ => simp only [exec, Instr.time]; exact execChainLinkUp_kept _ _ h
  | chainLinkDown _ _ _ => simp only [exec, Instr.time]; exact execChainLinkDown_kept _ _ _ h
  | chainFrameReceive _ _ _ _ => simp only [exec, Instr.time]; exact execChainFrameReceive_kept _ _ _ _ h
  | frameForward _ _ => simp only [exec, Instr.time]; exact execFrameForward_kept _ _ h
  | memRd _ _ _ => simp only [exec, Instr.time]; exact execMemRd_kept _ _ _ h
  | memWr _ _ _ => simp only [exec, Instr.time]; exact execMemWr_kept _ _ _ h
  | breakReceive _ _ _ _ => simp only [exec, Instr.time]; exact execBreakReceive_kept _ _ _ _ h
  | wakeFrame _ _ _ _ => simp only [exec, Instr.time]; exact execWakeFrame_kept _ _ _ _ h
  | chainSendTimeout _ => simp only [exec, Instr.time]; exact execChainSendTimeout_kept _ h
  | timeSyncSend _ _ => simp only [exec, Instr.time]; exact execTimeSyncSend_kept _ _ h
  | timeSyncReceive _ _ _ _ _ _ _ => simp only [exec, Instr.time]; exact execTimeSyncReceive_kept _ _ _ _ _ _ _ h
  | dlyReqReceive _ _ _ => simp only [exec, Instr.time]; exact execDlyReqReceive_kept _ _ _ h
  | dlyRspReceive _ _ _ _ _ => simp only [exec, Instr.time]; exact execDlyRspReceive_kept _ _ _ _ _ h
  | timeSourceTimeout _ => simp only [exec, Instr.time]; exact execTimeSourceTimeout_kept _ h
  | holdoverTimeout _ => simp only [exec, Instr.time]; exact execHoldoverTimeout_kept _ h
  | creditReceive _ _ _ _ => simp only [exec, Instr.time]; exact execCreditReceive_kept _ _ _ _ h
  | creditRefresh _ _ => simp only [exec, Instr.time]; exact execCreditRefresh_kept _ _ h
  | linkctlReceive _ _ _ => simp only [exec, Instr.time]; exact execLinkctlReceive_kept _ _ _ h
  | partnerChangeTimeout _ _ => simp only [exec, Instr.time]; exact execPartnerChangeTimeout_kept _ _ h
  | portJoin _ => simp only [exec, Instr.time]; exact execPortJoin_kept _ h
  | repeatLoss _ _ => simp only [exec, Instr.time]; exact execRepeatLoss_kept _ _ h
  | roll _ => simp only [exec, Instr.time]; exact execRoll_kept _ h
  | rollReceive _ _ _ _ => simp only [exec, Instr.time]; exact execRollReceive_kept _ _ _ _ h
  | rollTimeout _ => simp only [exec, Instr.time]; exact execRollTimeout_kept _ h
  | addressTakeEffect _ => simp only [exec, Instr.time]; exact execAddressTakeEffect_kept _ h
  | chnErrSatClear _ _ => simp only [exec, Instr.time]; exact execChnErrSatClear_kept _ _ h
  | chnDropSatClear _ => simp only [exec, Instr.time]; exact execChnDropSatClear_kept _ h
  | canFrameReceive _ _ _ _ _ => simp only [exec, Instr.time]; exact execCanFrameReceive_kept _ _ _ _ _ h
  | canTransmitEnd _ _ _ _ _ _ _ _ => simp only [exec, Instr.time]; exact execCanTransmitEnd_kept _ _ _ _ _ _ _ _ h
  | canTxTimeout _ _ _ => simp only [exec, Instr.time]; exact execCanTxTimeout_kept _ _ _ h
  | canBusError _ _ _ _ _ _ => simp only [exec, Instr.time]; exact execCanBusError_kept _ _ _ _ _ _ h
  | canIntegrated _ _ => simp only [exec, Instr.time]; exact execCanIntegrated_kept _ _ h
  | canRecoveryDone _ _ => simp only [exec, Instr.time]; exact execCanRecoveryDone_kept _ _ h
  | canTsWrap _ => simp only [exec, Instr.time]; exact execCanTsWrap_kept _ h
  | snap _ => simp only [exec, Instr.time]; exact execSnap_kept _ h
  | canCntSatClear _ _ => simp only [exec, Instr.time]; exact execCanCntSatClear_kept _ _ h
  | pageProgramDone _ _ _ => simp only [exec, Instr.time]; exact execPageProgramDone_kept _ _ _ h
  | flushTimeout _ => simp only [exec, Instr.time]; exact execFlushTimeout_kept _ h
  | flush _ => simp only [exec, Instr.time]; exact execFlush_kept _ h
  | format _ _ => simp only [exec, Instr.time]; exact execFormat_kept _ _ h
  | scrubRead _ _ _ => simp only [exec, Instr.time]; exact execScrubRead_kept _ _ _ h
  | wearLevelMove _ => simp only [exec, Instr.time]; exact execWearLevelMove_kept _ h
  | writeBanLift _ => simp only [exec, Instr.time]; exact execWriteBanLift_kept _ h
  | recCntSatClear _ => simp only [exec, Instr.time]; exact execRecCntSatClear_kept _ h
  | hkpRound _ _ _ => simp only [exec, Instr.time]; exact execHkpRound_kept _ _ _ h
  | brakeCoilCheck _ => simp only [exec, Instr.time]; exact execBrakeCoilCheck_kept _ h
  | coreTimeout _ => simp only [exec, Instr.time]; exact execCoreTimeout_kept _ h
  | xtal25Stable _ => simp only [exec, Instr.time]; exact execXtal25Stable_kept _ h
  | x32CrystalFail _ => simp only [exec, Instr.time]; exact execX32CrystalFail_kept _ h
  | repeaterResume _ _ => simp only [exec, Instr.time]; exact execRepeaterResume_kept _ _ h
  | dchCoolExpire _ => simp only [exec, Instr.time]; exact execDchCoolExpire_kept _ h
  | traceTriggerInput _ _ => simp only [exec, Instr.time]; exact execTraceTriggerInput_kept _ _ h
  | blockEraseDone _ _ _ => simp only [exec, Instr.time]; exact execBlockEraseDone_kept _ _ _ h
  | pcieLinkUp _ _ => simp only [exec, Instr.time]; exact execPcieLinkUp_kept _ _ h
  | bootComplete _ => simp only [exec, Instr.time]; exact execBootComplete_kept _ h

end Sys2Proof.Machine
end

