-- ==== Sys2Proof/Laws/Runs.lean ====
section
/-!
SUPPORT. The laws of the shared frames of a command: an instruction of a running task, a command that holds its ring, a
cleared register. A statement about one row cites them in place of unfolding the frame.
-/

namespace Sys2Proof.Machine

theorem kvGet_ovSet {α : Type} (d : Nat → α) (m : List (Nat × α)) (k j : Nat) (v : α) :
    kvGet d (ovSet m k v) j = if k = j then v else kvGet d m j := kvGet_kvInsert d m k j v

/-- A read of a register after a write of one. -/
theorem State.reg_setReg (s : State) (off o : Nat) (w : BitVec 32) :
    (s.setReg off w).reg o = if off = o then w else s.reg o := kvGet_kvSet resetVal s.regs off o w

/-- An instruction of a running task with room for its cycles is its body after those cycles, as far as its reads are
sound. -/
theorem State.instr_of {u : State} {k : FTask} {n : Nat} {e : Ecc} {body : FTask → State → State} (h : u.runsFor k n) :
    u.instr n e body = (u.after k n).withEcc e (body k) := by
  simp only [State.instr, h.1, h.2.1, h.2.2, decide_true, Bool.and_self, if_true, State.after]

/-- Without a task an instruction does nothing. -/
theorem State.instr_none {u : State} {n : Nat} {e : Ecc} {body : FTask → State → State} (h : u.fsl.task = none) :
    u.instr n e body = u := by
  simp only [State.instr, h]

/-- A command that can run is its body, once it has begun, with its completions released. -/
theorem State.runCmd_of {u : State} {c : Cmd} {r : Nat} {is : Cmd → Bool} {f : State → Cmd → State} (h : u.mayRun r c)
    (hi : is c = true) : u.runCmd r is f = (f (u.begin_ r) c).runEnd u.cores.finals.length := by
  obtain ⟨h1, h2, h3, h4⟩ := h
  simp only [State.runCmd, h1, h2, h3, h4, hi, Bool.not_false, Bool.and_self, if_true]

/-- On a ring that no command holds, nothing runs. -/
theorem State.runCmd_none {u : State} {r : Nat} {is : Cmd → Bool} {f : State → Cmd → State}
    (h : u.runningCmd r = none) : u.runCmd r is f = u := by
  simp only [State.runCmd, h]

/-- Without power, without a task, or past its limit, an instruction does nothing (R245). -/
theorem State.instr_out {u : State} {n : Nat} {e : Ecc} {body : FTask → State → State}
    (h : u.ctlOn = false ∨ u.fsl.task = none ∨ ∃ k, u.fsl.task = some k ∧ u.taskLimit k.axis < k.cyc + n) :
    u.instr n e body = u := by
  rcases h with h | h | ⟨k, h, h'⟩
  · unfold State.instr
    split
    · rfl
    · rw [h]; rfl
  · exact State.instr_none h
  · simp only [State.instr, h]
    rw [decide_eq_false (by omega), Bool.and_false]
    rfl

/-- A ring without a command to run, firmware that does not run, or a command that has begun: nothing happens (R370,
R420). -/
theorem State.runCmd_out {u : State} {r : Nat} {is : Cmd → Bool} {f : State → Cmd → State}
    (h : u.runningCmd r = none ∨ u.awake = false ∨ u.passing = false ∨ u.cores.begun.contains r = true) :
    u.runCmd r is f = u := by
  unfold State.runCmd
  split
  · rfl
  · next h' => rcases h with h | h | h | h <;> simp_all

/-- The correction of an error leaves the task, and the task the correction. -/
theorem State.judged_after (u : State) (k : FTask) (n : Nat) (e : Ecc) :
    (u.after k n).judged e = (u.judged e).after k n := by
  cases e
  · rfl
  · show (u.after k n).fslEccFixed = (u.fslEccFixed).after k n
    have hw : ∀ (v : State) (f : Fld) (x : Nat), (v.after k n).wr f x = (v.wr f x).after k n := fun _ _ _ => rfl
    have hr : ∀ (v : State) (f : Fld), (v.after k n).rd f = v.rd f := fun _ _ => rfl
    have hb : ∀ (v : State) (f : Fld), (v.after k n).bump f = (v.bump f).after k n := by
      intro v f
      unfold State.bump
      rw [hr]
      split
      · exact hw _ _ _
      · exact hw _ _ _
    have hc : ∀ (b : Bool) (v : State) (f : Fld),
        (v.after k n).cond b (fun s => s.hi f) = (v.cond b fun s => s.hi f).after k n := by
      intro b v f
      cases b
      · rfl
      · exact hw _ _ _
    simp only [State.fslEccFixed, State.hi, hw, hb, hr]
    exact hc _ _ _
  · rfl

/-- What is sound or corrected runs on, after the correction. -/
theorem State.withEcc_judged (u : State) (e : Ecc) (f : State → State) (h : e ≠ .bad) :
    u.withEcc e f = f (u.judged e) := by
  cases e
  · rfl
  · rfl
  · exact absurd rfl h

/-- What is beyond correction ends the task. -/
theorem State.withEcc_bad (u : State) (f : State → State) : u.withEcc .bad f = u.fslEccBad := rfl

/-- Correction leaves the engine's own state. -/
theorem State.judged_fsl (u : State) (e : Ecc) : (u.judged e).fsl = u.fsl := by
  cases e
  · rfl
  · show (u.fslEccFixed).fsl = u.fsl
    have hw : ∀ (v : State) (f : Fld) (x : Nat), (v.wr f x).fsl = v.fsl := fun _ _ _ => rfl
    have hb : ∀ (v : State) (f : Fld), (v.bump f).fsl = v.fsl := by
      intro v f
      unfold State.bump
      split
      · exact hw _ _ _
      · exact hw _ _ _
    have hc : ∀ (b : Bool) (v : State) (f : Fld), (v.cond b fun s => s.hi f).fsl = v.fsl := by
      intro b v f
      cases b
      · rfl
      · exact hw _ _ _
    unfold State.fslEccFixed
    exact (hc _ _ _).trans ((hb _ _).trans (hw _ _ _))
  · rfl

/-- The float register alone changes. -/
theorem State.setF_after (u : State) (k : FTask) (n : Nat) (e : Ecc) (fd : Nat) (v : BitVec 32) :
    u.wroteF k n e fd v ((u.after k n).withEcc e fun s => s.setF fd v) := by
  refine ⟨fun h => by rw [h]; rfl, fun h => ?_⟩
  rw [State.withEcc_judged _ _ _ h, State.judged_after]
  refine ⟨{ k with cyc := k.cyc + n, pc := k.pc + 1, f := ovSet k.f fd v }, ?_, rfl, rfl, ?_, ?_, fun _ => rfl, rfl, rfl,
    rfl, rfl, rfl, rfl, rfl⟩
  · rw [← State.judged_fsl u e]; rfl
  · simp only [FTask.fr, kvGet_ovSet, if_true]
  · intro i hi
    simp only [FTask.fr, kvGet_ovSet, if_neg (Ne.symm hi)]

/-- The integer register alone changes. -/
theorem State.setA_after (u : State) (k : FTask) (n : Nat) (e : Ecc) (ad : Nat) (v : BitVec 32) :
    u.wroteA k n e ad v ((u.after k n).withEcc e fun s => s.setA ad v) := by
  refine ⟨fun h => by rw [h]; rfl, fun h => ?_⟩
  rw [State.withEcc_judged _ _ _ h, State.judged_after]
  refine ⟨{ k with cyc := k.cyc + n, pc := k.pc + 1, a := ovSet k.a ad v }, ?_, rfl, rfl, ?_, ?_, fun _ => rfl, rfl, rfl,
    rfl, rfl, rfl, rfl, rfl⟩
  · rw [← State.judged_fsl u e]; rfl
  · simp only [FTask.ar, kvGet_ovSet, if_true]
  · intro i hi
    simp only [FTask.ar, kvGet_ovSet, if_neg (Ne.symm hi)]

/-- The counters of a register are cleared, and no other register changes. -/
theorem State.clearCounts_zeroed (u : State) (off : Nat) : u.zeroed off (u.clearCounts off) := by
  refine ⟨?_, ?_, rfl⟩
  · simp only [State.clearCounts, State.reg_setReg, if_true]
  · intro i hi
    simp only [State.clearCounts, State.reg_setReg, if_neg (Ne.symm hi)]

/-- With no bit set of late, a register whose counters are cleared reads 0. -/
theorem State.zeroed_zero {u r : State} {off : Nat} (h : u.zeroed off r) (hs : u.sets = []) : r.reg off = 0#32 := by
  rw [h.1, State.justSet, hs]
  simp

end Sys2Proof.Machine
end

