-- ==== Sys2Proof/Tests/Slice0.lean ====
section
/-!
SUPPORT. Tests: ill-formed commands that the checks refuse, worked examples of the spec, and for every statement with
hypotheses a state and operands that meet all of them together.
-/

namespace Sys2Proof.Tests

open Sys2Proof.Machine

/-! ## Small states -/

/-- A module in READY with every domain powered and its firmware running. -/
def live : State :=
  ({ State.reset with
      power := { vio := true, vsafe := true, vcore := true, vana := true, safe := true, io := true, cpu := .on, ctl := .on
                 comm := .on, ana := .on, born := false }
      saf := { vdcSeen := true }
      cores := { fwRuns := true, passAt := some 0 } } : State).each
    [0] fun s _ => ((s.wr F.SYS_MODE_MODE 2).wr F.SYS_MODE_AX0_MODE 2).wr F.SYS_MODE_AX1_MODE 2

def cmdArgs (op : Nat) (args : List Byte) : Cmd := ⟨0, 0, 0, op, 0, 0, false, false, args, 0⟩
def cmdOf (op : Nat) : Cmd := cmdArgs op []
def cmd0 : Cmd := cmdOf 0

/-- `live` with a command that holds ring 0. -/
def commandedArgs (op : Nat) (args : List Byte) : State :=
  { live with cores := { fwRuns := true, passAt := some 0, running := [(0, cmdArgs op args)] } }
def commanded (op : Nat) : State := commandedArgs op []
def tableArgs : List Byte := [0#8, 1#8] ++ List.replicate 10 0#8 ++ [1#8, 0#8, 0#8, 0#8, 0x00#8, 0x20#8]
def queryArgs : List Byte := List.replicate 4 0#8 ++ [1#8] ++ List.replicate 15 0#8 ++ [1#8]
def stageArgs : List Byte := List.replicate 12 0#8 ++ [1#8]
def sendArgs : List Byte := List.replicate 4 0#8 ++ [5#8, 0#8, 2#8]
def itemArgs : List Byte := [0#8, 1#8, 1#8, 0#8, 0#8, 0#8, 0#8, 0#8, 0#8, 0#8, 0#8, 0x80#8]

def task0 : FTask := { axis := 0, set := {}, base := 0, cyc := 0 }
def tasked : State := { live.wr (F.FSL_TASK_LIMIT 0) 1000 with fsl := { live.fsl with task := some task0 } }
def taskZero : FTask := { task0 with f := [(0, 0#32), (1, 0#32), (2, 0#32)] }
def taskedZero : State := { tasked with fsl := { live.fsl with task := some taskZero } }
def taskNan : FTask := { task0 with f := [(0, 0x7FC00000#32)] }
def taskedNan : State := { tasked with fsl := { live.fsl with task := some taskNan } }
/-- `tasked` 64 ns before the valley of its carrier. -/
def taskedLate : State := { tasked with carriers := [(0, { per := 2000, started := true })] }
def taskEq : FTask := { task0 with cond := some 1 }
def taskedEq : State := { tasked with fsl := { live.fsl with task := some taskEq } }
def taskDone : FTask := { task0 with committed := true }
def taskedDone : State := { tasked with fsl := { live.fsl with task := some taskDone } }
def mem0 : MemRef := ⟨.cb, 0, none⟩
def taskReady : State :=
  { (live.wr F.FSL_CTL_RUN 1).wr (F.FSL_TASK_EN 0) 1 with
    fsl := { live.fsl with ready := [0] }, fslAx := [(0, { waiting := some {} })] }

def driving : State := { (live.wr F.SYS_MODE_MODE 3).wr F.SYS_MODE_AX0_MODE 3 with mots := [(0, { upds := 10 })] }
def limping : State :=
  { (live.wr F.SYS_MODE_MODE 4).wr F.SYS_MODE_AX0_MODE 4 with
    saf := { shadow := [(F.BLK_LIMP_LIMP_MAX_S.off, F.BLK_LIMP_LIMP_MAX_S.put 0#32 100)] } }

/-- A fresh position frame at 80 turns/s. -/
def fastFrame : PosFrame := ⟨0, 0x500000, 2, false, 0, 10 ^ 8⟩

/-- `limping` past LIMP_MAX_S. -/
def limpedOut : State := { limping with uzs := [(0, { limpNs := 10 ^ 11 })] }

def unusedLeg : State := live.wr (F.GDC_UVLO_UNUSED 11) 1
def gateOff : State := { live with gates := [(0, { st := .off })] }
def gateOn : State := { live with gates := [(0, { st := .on, blanked := true })] }
/-- A copy of the channel's words with HS_EN set, and one with VON_EN set. -/
def shortWords : List Word := [0#32, (F.GDC_DESAT_HS_EN 0).put 0#32 1]
def vonWords : List Word := [0#32, 0#32, 0#32, (F.GDC_DRV_VON_EN 0).put 0#32 1]
def gateShort : State := { live with gates := [(0, { st := .on, blanked := true, copy := shortWords })] }
def gateVon : State := { live with gates := [(0, { st := .on, blanked := true, copy := vonWords })] }

/-- Outputs enabled at the valley at instant 0, whose period starts low: channel 1 is to turn on there. -/
def drivingOff : State :=
  { live.wr (F.PWM_STAT_OUT_EN 0) 1 with
    gates := [(1, { st := .off })], carriers := [(0, { per := 2000, started := true })] }
/-- Channel 1 is on until its leg goes high at 2 µs. -/
def gateOnPlanned : State :=
  { live with
    gates := [(1, { st := .on, blanked := true })]
    carriers := [(0, { per := 2000, started := true, legs := [(0, { pulse := some (32000, 64000) })] })] }

/-- A carrier of 16 µs, stopped, and running from a valley at instant 0. -/
def atValley : State := { live with carriers := [(0, { per := 2000 })] }
def atUpdate : State := { live with carriers := [(0, { per := 2000, started := true })] }

/-- Trigger word 0 of carrier 0 enabled at 1,000 PWM clocks. -/
def trigSet : List Word := (List.replicate 7 0#32) ++ [0x800003E8#32]
def trigNow : State := { live.wr (F.ADC_SCAN_MASK 0) 1 with carriers := [(0, { per := 2000, started := true, cur := trigSet })] }
def scan0 : Scan := { car := 0, trig := 0, list := 0, at_ := 0, endAt := 1000 }
def trigBusy : State := { trigNow with adc := { taking := some { scan0 with endAt := 10 ^ 6 } } }
def scanLater : Scan := { scan0 with trig := 1, at_ := 4000, t0 := 4020, endAt := 4040 }
def trigAhead : State := { trigNow with adc := { taking := some scanLater } }
def trigOff : State := trigNow.wr (F.ADC_SCAN_MASK 0) 0
def trigFull : State := { trigNow with adc := { queue := [scan0, scan0, scan0, scan0] } }

def encoder : State := live.wr (F.POS_CFG_SRC 0) 1
def resolver : State := { live.wr (F.POS_CFG_SRC 0) 2 with pins := { live.pins with exc0 := true } }
def hall : State := live.wr (F.POS_CFG_SRC 0) 3
def hallAt : State := { hall with poss := [(0, { sector := some 0 })] }
def hallPat : BitVec 3 := 6#3
def train : State := { live.wr (F.POS_CFG_SRC 0) 4 with poss := [(0, { tPrev := some 10 })] }
def catching : State := { encoder with fields := [(0, { catch_ := some (cmd0, 0) })] }

def segmentOn : State := (live.setReg (R.MOT_HOV_CFG 0) 0xB#32).wr F.BLK_ROLE_ROLE 1
def linked1 : State := segmentOn
def linked2 : State := live.wr (F.MOT_HOV_CFG_DN_NB 0) 2
/-- Moving at 1 turn/s, 100 steps short of the overlap at its DOWN end. -/
def giving : State :=
  { ((segmentOn.wr F.SYS_MODE_AX0_MODE 3).wr (F.MOT_HOV_DN_START_DN_START 0) 100) with
    poss := [(0, { snap := { speed := 65536 } })] }
def giving1 : State := (giving.wr (F.MOT_HOV_STAT_STATE 0) 1).wr (F.MOT_HOV_STAT_ROLE 0) 1
def taking : State := (segmentOn.wr (F.MOT_HOV_STAT_STATE 0) 1).wr (F.MOT_HOV_STAT_ROLE 0) 2
def takingArm : State :=
  { (taking.wr F.SYS_MODE_RUN_OK 1).wr F.SAF_STAT_STO_ACT 0 with
    gates := (List.range 12).map fun n => (n, { st := .off }) }

def boot0 : BootIn := ⟨true, true, []⟩
def ss1Frame : PosFrame := ⟨0, 0, 2, false, 0, 10 ^ 7⟩
def ss1Slow : State :=
  { live.wr (State.fSs1 0) 1 with
    uzs := [(0, { frame := some ss1Frame, slowAt := some 0 })]
    saf := { shadow := [(F.BLK_SS1_SS1_ZERO.off, F.BLK_SS1_SS1_ZERO.put 0#32 1)] } }
def shortLow : State :=
  { live.wr F.SYS_MODE_AX0_MODE 5 with uzs := [(0, { gate := .short false, why := .rowAuto, vdc := 100, pvE := some 0, lowAt := some 0 })] }
def measuring : State := live
def monitored : State :=
  { (live.wr F.SYS_MODE_MODE 3).wr F.SYS_MODE_AX0_MODE 3 with
    uzs := [(0, { gotI := true, frame := some ⟨0, 0, 2, false, 0, 0⟩ })] }
def brakeOut : State := { live with saf := { shadow := [(R.BLK_SO, 1#32)] } }
def btInterval : State := { live with saf := { shadow := [(F.BLK_BTINT_BT_INT.off, F.BLK_BTINT_BT_INT.put 0#32 1)] } }
def shadowed : State :=
  { (live.wr F.SAF_STAT_SHADOW 1).wr F.BLK_CTL_LOCK 1 with saf := { shadow := [(R.BLK_SO, 1#32)] } }
def dischargedLow : State :=
  { live with
    saf := { vdcSeen := true, discharge := .active 0, shadow := [(F.BLK_DCH_DCH_VSAFE.off, F.BLK_DCH_DCH_VSAFE.put 0#32 60)] } }
def precharging : State :=
  { live with saf := { vdcSeen := true, precharge := .co1 0, shadow := [(F.BLK_PRECH_PRECH_V.off, F.BLK_PRECH_PRECH_V.put (resetVal F.BLK_PRECH_PRECH_V.off) 0)] } }
def dischargedBlind : State := { dischargedLow with power := { live.power with ana := .off } }

def paced : State := live
def coreOn : State := live
def working : State := { live with cores := { fwRuns := true, voted := false, passAt := some 0 } }
def barred : State :=
  { working with cores := { working.cores with
      arch0 := { pmp := [(0, { lo := 0x40110000, hi := 0x40120000, read := false, write := false, locked := true })] } } }
def copyingCore : State := { live.wr F.CPX_STAT_RESYNC 1 with cores := { fwRuns := true, sitting := some 2 } }
def ringUp : State := live.wr (F.HIF_RCFG_EN 0) 1
def ringFull : State := ringUp.wr (F.HIF_RIDX_PROD 0) 1
def writable (op : Nat) (args : List Byte) : State :=
  ((commandedArgs op args).wr F.REC_STAT_MOUNTED 1).wr F.REC_STAT_FMT_NONE 0
def canStopping : State :=
  ((commandedArgs 0x90 [0#8, 0x11#8]).wr (F.CAN_CTL_INIT 0) 0).wr (F.CAN_STAT_STATE 0) 1
def braked : State :=
  { commanded 0x18 with fields := [(0, { armed := true })], saf := { shadow := [(R.BLK_SO, 1#32)] } }
def canTimed : State :=
  (((((commandedArgs 0x90 [0#8, 0x10#8]).wr (F.CAN_NBT_NTSEG1 0) 62).wr (F.CAN_NBT_NTSEG2 0) 15).wr (F.CAN_DBT_DTSEG1 0) 14).wr
    (F.CAN_NBT_NSJW 0) 0).wr (F.CAN_DBT_DSJW 0) 0
def canOn : State := (live.wr (F.CAN_CTL_INIT 0) 0).wr (F.CAN_STAT_STATE 0) 1
def canFrame0 : CanFrame := ⟨0#29, false, false, 0#4, false, false, false, []⟩
def canListening : State := { canOn with can0 := { objs := [(0, { flags := 0x40 })] } }
def canSending : State := { canOn with can0 := { pend := [⟨0, cmd0, 0⟩] } }
def canSendingFd : State :=
  { (canOn.wr (F.CAN_CTL_FD_EN 0) 1).wr (F.CAN_TDC_TDC_EN 0) 1 with
    can0 := { pend := [⟨0, cmd0, 0⟩], objs := [(0, { flags := 0x07 })] } }
def worn : State :=
  { (live.wr F.REC_STAT_MOUNTED 1).wr F.REC_STAT_FMT_NONE 0 with
    med := { formatted := true, size := 2, blks := [(0, { use := .jlog, erased := false }), (1, { erases := 100000 })] } }
def journaled : State := { live with jrn := { entries := [⟨1, 0, 0, 0, 1, 0, 0, true, false, 0⟩] } }
def linked : State := ((live.wr (F.CHN_PORT_LINK 0) 1).wr (F.CHN_PORT_STATE 0) 2)
def repeatingUnit : State := ((live.wr (F.CHN_PORT_LINK 0) 1).wr (F.CHN_PORT_STATE 0) 1)
def qframe0 : QFrame := ⟨0, true, ⟨2, 5, 1, 0, []⟩, none, 0⟩
def frameDue : State := { linked.wr (F.CHN_PORT_CREDIT 0) 4 with chain := { queue := [qframe0] } }

/-- Comparisons against VFS, whose value is open, at readings that decide them for every value. -/
theorem short_low : (shortLow.upTo (10 ^ 7)).emfAtLeast 0 0 ((shortLow.upTo (10 ^ 7)).uz F.BLK_ASC_ASC_EXIT) 256 = false := by
  have h : (shortLow.upTo (10 ^ 7)).vdcU 0 = 100 * ((Config.vfsVolts * 1000 : Nat) : Int) := rfl
  have hu : (shortLow.upTo (10 ^ 7)).uz F.BLK_ASC_ASC_EXIT = 51 := by decide
  simp only [State.emfAtLeast, h, hu, Config.vfsVolts, decide_eq_false_iff_not]
  omega

theorem precharge_high : ((32768 * (precharging.upTo (10 ^ 12)).uz F.BLK_PRECH_PRECH_V : Nat) : Int) ≤
    (precharging.upTo (10 ^ 12)).vdcSmaller * Config.vfsVolts := by
  have h : (precharging.upTo (10 ^ 12)).vdcSmaller = 0 := by decide
  have hu : (precharging.upTo (10 ^ 12)).uz F.BLK_PRECH_PRECH_V = 0 := by decide
  rw [h, hu]
  omega

/-! ## Ill-formed commands -/

theorem test_wf_scanComplete_group : (.scanComplete 0 [⟨3, 0, 0⟩] : Instr).wf = false := by decide
theorem test_wf_ldi_input : (.ldi 0 0 (.inp 24) .ok : Instr).wf = false := by decide
theorem test_wf_ldc_misaligned : (.ldc 0 0 ⟨.cb, 2, none⟩ .ok : Instr).wf = false := by decide
theorem test_wf_ldc4_outside : (.ldc4 0 0 ⟨.tb, 0x40000, none⟩ .ok : Instr).wf = false := by decide
theorem test_wf_stc_misaligned : (.stc 0 ⟨.sb, 1, none⟩ 0 .ok : Instr).wf = false := by decide
theorem test_wf_stc4_outside : (.stc4 0 ⟨.cb, 0x40000, none⟩ 0 .ok : Instr).wf = false := by decide
theorem test_wf_ldx_misaligned : (.ldx 0 0 ⟨.cb, 3, some 1⟩ .ok : Instr).wf = false := by decide
theorem test_wf_stx_outside : (.stx 0 ⟨.sb, 0x40004, none⟩ 0 .ok : Instr).wf = false := by decide
theorem test_wf_mov_kinds : (.mov 0 (.f 0) (.a 0) .ok : Instr).wf = false := by decide
theorem test_wf_ish_amount : (.ish 0 0 0 32 .ok : Instr).wf = false := by decide
theorem test_wf_biq_memory : (.biq 0 0 0 ⟨.cb, 2, none⟩ ⟨.sb, 0, none⟩ .ok : Instr).wf = false := by decide
theorem test_wf_br_label : (.br 0 .eq 8192 .ok : Instr).wf = false := by decide
theorem test_wf_jmp_label : (.jmp 0 8192 .ok : Instr).wf = false := by decide
theorem test_wf_resetNRelease_object : (.resetNRelease 0 false ⟨true, true, [5]⟩ : Instr).wf = false := by decide
theorem test_wf_pllLock_object : (.pllLock 0 false ⟨true, true, [5]⟩ : Instr).wf = false := by decide
theorem test_wf_configReadback_words : (.configReadback 0 0 [] : Instr).wf = false := by decide
theorem test_wf_diagComplete_channel : (.diagComplete 0 [⟨12, true, 0, 0, 0, 0, 0⟩] : Instr).wf = false := by decide
theorem test_wf_guardRound_input : (.guardRound 0 0 [⟨0, 24, 0⟩] : Instr).wf = false := by decide
theorem test_wf_internalCheck_group : (.internalCheck 0 [⟨3, 0, 0⟩] : Instr).wf = false := by decide
theorem test_wf_crossCheck_code : (.crossCheck 0 (some 32768) none none : Instr).wf = false := by decide
theorem test_wf_backgroundCorrection_share : (.backgroundCorrection 0 0 101 ⟨0, 0, 0⟩ ⟨0, 0, 0⟩ : Instr).wf = false := by decide
theorem test_wf_tdacComplete_input : (.tdacComplete 0 [⟨0, 17, 0, 0⟩] : Instr).wf = false := by decide
theorem test_wf_resolverSample_code : (.resolverSample 0 0 (-32769) 0 false false : Instr).wf = false := by decide
theorem test_wf_stateReceive_time : (.stateReceive 0 0 true 0 0 0 (2 ^ 64) : Instr).wf = false := by decide
theorem test_wf_restart_object : (.restart 0 [5] : Instr).wf = false := by decide
theorem test_wf_recoveryGo_object : (.recoveryGo 0 ⟨true, true, [7]⟩ : Instr).wf = false := by decide
theorem test_wf_descriptorFetch_bytes : (.descriptorFetch 0 0 [] : Instr).wf = false := by decide
theorem test_wf_setMode_output : (.setMode 0 0 [6] : Instr).wf = false := by decide
theorem test_wf_journalApertureRead_slot : (.journalApertureRead 0 .host 1024 : Instr).wf = false := by decide
theorem test_wf_memRd_payload : (.memRd 0 0 [] : Instr).wf = false := by decide
set_option maxRecDepth 2000 in
theorem test_wf_memWr_payload : (.memWr 0 0 (List.replicate 257 0#8) : Instr).wf = false := by decide
theorem test_wf_canFrameReceive_length : (.canFrameReceive 0 0 ⟨0, false, false, 8, false, false, false, []⟩ 0 0 : Instr).wf = false := by decide
theorem test_wf_canFrameReceive_identifier : (.canFrameReceive 0 0 ⟨2048, false, false, 0, false, false, false, []⟩ 0 0 : Instr).wf = false := by decide
theorem test_wf_hkpRound_slots : (.hkpRound 0 [] [] : Instr).wf = false := by decide

/-! ## Worked examples of the spec -/

/-- Section 20: NTC3 with 10.0 kΩ and 3,435 K at code 412 reports 95.0 °C. -/
theorem test_ntc_412 : ntcTemp 412 100 3435 = some 0x05F0 := by rfl
theorem test_ntc_411 : ntcTemp 411 100 3435 = some 0x05F2 := by rfl

/-- Section 17, the exchange with a partner 250 ns behind over 500 ns of delay: d is 500 ns. -/
theorem test_exchange_delay :
    (({ live with chain := { up := { t1 := some 0, t2 := 750 * 32, t3 := some (20000 * 32) } } } : State).exchange 0 20250).rd
      (F.CHN_DLINK_DLINK 0) = 500000 := by decide

/-- R104: a desaturation in blanking leaves the channel ON; after blanking it starts soft turn-off. -/
theorem test_desaturation_blanked :
    exec (.desaturation 0 0) { live with gates := [(0, { st := .on })] } = .next { live with gates := [(0, { st := .on })] } := by
  rfl

/-- R409: the window stops below 0x8_0000. -/
theorem test_window_bound :
    exec (.registerWrite 0 .host true 0x80000 5 0xF) live = .next live ∧
      exec (.registerWrite 0 .host true 0x7FFFC 5 0xF) live = .next { live with sram := [(0x7FFFC, 5#8)] } := ⟨rfl, rfl⟩

/-- R565: an offset above the blocks reads 0. -/
theorem test_read_above : exec (.splitLoRead 0 .host false 0x120000) live = .next (live.emit (.read 0x120000 0#32)) := by
  rfl

/-- The empty queue idles. -/
theorem test_idle : step State.reset = .next State.reset := rfl

/-! ## Witnesses -/

theorem witness_FesilLoadsAndStores_0_ldi :
    ∃ (s : State) (t : Nat) (k : FTask),
      (s.upTo t).runsFor k 1 := by
  exact ⟨tasked, 0, task0, by decide⟩

theorem witness_FesilLoadsAndStores_1_lds :
    ∃ (s : State) (t : Nat) (k : FTask),
      (s.upTo t).runsFor k 1 := by
  exact ⟨tasked, 0, task0, by decide⟩

theorem witness_FesilLoadsAndStores_2_ldc :
    ∃ (s : State) (t : Nat) (k : FTask),
      (s.upTo t).runsFor k 1 := by
  exact ⟨tasked, 0, task0, by decide⟩

theorem witness_FesilLoadsAndStores_3_ldc4 :
    ∃ (s : State) (t : Nat) (k : FTask),
      (s.upTo t).runsFor k 1 := by
  exact ⟨tasked, 0, task0, by decide⟩

theorem witness_FesilLoadsAndStores_4_stc :
    ∃ (s : State) (t : Nat) (k : FTask),
      (s.upTo t).runsFor k 1 := by
  exact ⟨tasked, 0, task0, by decide⟩

theorem witness_FesilLoadsAndStores_5_stc4 :
    ∃ (s : State) (t : Nat) (k : FTask),
      (s.upTo t).runsFor k 1 := by
  exact ⟨tasked, 0, task0, by decide⟩

theorem witness_FesilLoadsAndStores_6_ldx :
    ∃ (s : State) (t : Nat) (k : FTask),
      (s.upTo t).runsFor k 1 := by
  exact ⟨tasked, 0, task0, by decide⟩

theorem witness_FesilLoadsAndStores_7_stx :
    ∃ (s : State) (t : Nat) (k : FTask),
      (s.upTo t).runsFor k 1 := by
  exact ⟨tasked, 0, task0, by decide⟩

theorem witness_FesilLoadsAndStores_8_movi :
    ∃ (s : State) (t : Nat) (k : FTask),
      (s.upTo t).runsFor k 1 := by
  exact ⟨tasked, 0, task0, by decide⟩

theorem witness_FesilLoadsAndStores_9_mov :
    ∃ (s : State) (t : Nat) (k : FTask),
      (s.upTo t).runsFor k 1 := by
  exact ⟨tasked, 0, task0, by decide⟩

theorem witness_FesilFloatArithmetic_0_fadd :
    ∃ (s : State) (t : Nat) (k : FTask),
      (s.upTo t).runsFor k 1 := by
  exact ⟨tasked, 0, task0, by decide⟩

theorem witness_FesilFloatArithmetic_1_fsub :
    ∃ (s : State) (t : Nat) (k : FTask),
      (s.upTo t).runsFor k 1 := by
  exact ⟨tasked, 0, task0, by decide⟩

theorem witness_FesilFloatArithmetic_2_fmul :
    ∃ (s : State) (t : Nat) (k : FTask),
      (s.upTo t).runsFor k 1 := by
  exact ⟨tasked, 0, task0, by decide⟩

theorem witness_FesilFloatArithmetic_3_fmac :
    ∃ (s : State) (t : Nat) (k : FTask),
      (s.upTo t).runsFor k 1 := by
  exact ⟨tasked, 0, task0, by decide⟩

theorem witness_FesilFloatArithmetic_4_fmsu :
    ∃ (s : State) (t : Nat) (k : FTask),
      (s.upTo t).runsFor k 1 := by
  exact ⟨tasked, 0, task0, by decide⟩

theorem witness_FesilFloatArithmetic_5_fneg :
    ∃ (s : State) (t : Nat) (k : FTask),
      (s.upTo t).runsFor k 1 := by
  exact ⟨tasked, 0, task0, by decide⟩

theorem witness_FesilFloatArithmetic_6_fabs :
    ∃ (s : State) (t : Nat) (k : FTask),
      (s.upTo t).runsFor k 1 := by
  exact ⟨tasked, 0, task0, by decide⟩

theorem witness_FesilFloatArithmetic_7_fmin :
    ∃ (s : State) (t : Nat) (k : FTask),
      (s.upTo t).runsFor k 1 := by
  exact ⟨tasked, 0, task0, by decide⟩

theorem witness_FesilFloatArithmetic_8_fmax :
    ∃ (s : State) (t : Nat) (k : FTask),
      (s.upTo t).runsFor k 1 := by
  exact ⟨tasked, 0, task0, by decide⟩

theorem witness_FesilFloatArithmetic_9_fclmp :
    ∃ (s : State) (t : Nat) (k : FTask),
      (s.upTo t).runsFor k 1 := by
  exact ⟨tasked, 0, task0, by decide⟩

theorem witness_FesilFloatArithmetic_10_fdot :
    ∃ (s : State) (t : Nat) (k : FTask),
      (s.upTo t).runsFor k 2 := by
  exact ⟨tasked, 0, task0, by decide⟩

theorem witness_FesilFloatArithmetic_11_frcp :
    ∃ (s : State) (t : Nat) (k : FTask),
      (s.upTo t).runsFor k 4 := by
  exact ⟨tasked, 0, task0, by decide⟩

theorem witness_FesilFloatArithmetic_12_frsq :
    ∃ (s : State) (t : Nat) (k : FTask),
      (s.upTo t).runsFor k 4 := by
  exact ⟨tasked, 0, task0, by decide⟩

theorem witness_FesilFloatArithmetic_13_fsqrt :
    ∃ (s : State) (t : Nat) (k : FTask),
      (s.upTo t).runsFor k 5 := by
  exact ⟨tasked, 0, task0, by decide⟩

theorem witness_FesilFloatArithmetic_14_fdiv :
    ∃ (s : State) (t : Nat) (k : FTask),
      (s.upTo t).runsFor k 8 := by
  exact ⟨tasked, 0, task0, by decide⟩

theorem witness_FesilConversionsAndIntegers_0_cvqf :
    ∃ (s : State) (t : Nat) (k : FTask),
      (s.upTo t).runsFor k 1 := by
  exact ⟨tasked, 0, task0, by decide⟩

theorem witness_FesilConversionsAndIntegers_1_cvaf :
    ∃ (s : State) (t : Nat) (k : FTask),
      (s.upTo t).runsFor k 1 := by
  exact ⟨tasked, 0, task0, by decide⟩

theorem witness_FesilConversionsAndIntegers_2_cvif :
    ∃ (s : State) (t : Nat) (k : FTask),
      (s.upTo t).runsFor k 1 := by
  exact ⟨tasked, 0, task0, by decide⟩

theorem witness_FesilConversionsAndIntegers_3_cvfq :
    ∃ (s : State) (t : Nat) (k : FTask),
      (s.upTo t).runsFor k 1 := by
  exact ⟨tasked, 0, task0, by decide⟩

theorem witness_FesilConversionsAndIntegers_4_cvfa :
    ∃ (s : State) (t : Nat) (k : FTask),
      (s.upTo t).runsFor k 1 := by
  exact ⟨tasked, 0, task0, by decide⟩

theorem witness_FesilConversionsAndIntegers_5_cvfi :
    ∃ (s : State) (t : Nat) (k : FTask),
      (s.upTo t).runsFor k 1 := by
  exact ⟨tasked, 0, task0, by decide⟩

theorem witness_FesilConversionsAndIntegers_6_iadd :
    ∃ (s : State) (t : Nat) (k : FTask),
      (s.upTo t).runsFor k 1 := by
  exact ⟨tasked, 0, task0, by decide⟩

theorem witness_FesilConversionsAndIntegers_7_isub :
    ∃ (s : State) (t : Nat) (k : FTask),
      (s.upTo t).runsFor k 1 := by
  exact ⟨tasked, 0, task0, by decide⟩

theorem witness_FesilConversionsAndIntegers_8_iand :
    ∃ (s : State) (t : Nat) (k : FTask),
      (s.upTo t).runsFor k 1 := by
  exact ⟨tasked, 0, task0, by decide⟩

theorem witness_FesilConversionsAndIntegers_9_ior :
    ∃ (s : State) (t : Nat) (k : FTask),
      (s.upTo t).runsFor k 1 := by
  exact ⟨tasked, 0, task0, by decide⟩

theorem witness_FesilConversionsAndIntegers_10_ixor :
    ∃ (s : State) (t : Nat) (k : FTask),
      (s.upTo t).runsFor k 1 := by
  exact ⟨tasked, 0, task0, by decide⟩

theorem witness_FesilConversionsAndIntegers_11_ish :
    ∃ (s : State) (t : Nat) (k : FTask),
      (s.upTo t).runsFor k 1 := by
  exact ⟨tasked, 0, task0, by decide⟩

theorem witness_FesilControlInstructions_0_sincos :
    ∃ (s : State) (t : Nat) (k : FTask),
      (s.upTo t).runsFor k 3 := by
  exact ⟨tasked, 0, task0, by decide⟩

theorem witness_FesilControlInstructions_1_clarke :
    ∃ (s : State) (t : Nat) (k : FTask),
      (s.upTo t).runsFor k 2 := by
  exact ⟨tasked, 0, task0, by decide⟩

theorem witness_FesilControlInstructions_2_park :
    ∃ (s : State) (t : Nat) (k : FTask),
      (s.upTo t).runsFor k 2 := by
  exact ⟨tasked, 0, task0, by decide⟩

theorem witness_FesilControlInstructions_3_ipark :
    ∃ (s : State) (t : Nat) (k : FTask),
      (s.upTo t).runsFor k 2 := by
  exact ⟨tasked, 0, task0, by decide⟩

theorem witness_FesilControlInstructions_4_svm :
    ∃ (s : State) (t : Nat) (k : FTask),
      (s.upTo t).runsFor k 6 := by
  exact ⟨tasked, 0, task0, by decide⟩

theorem witness_FesilControlInstructions_5_cmpq :
    ∃ (s : State) (t : Nat) (qs : Fin 16) (k : FTask),
      (s.upTo t).runsFor k 4 ∧
      State.anyBad [k.fr (4 * qs), k.fr (4 * qs + 1), k.fr (4 * qs + 2)] = false := by
  exact ⟨taskedZero, 0, 0, taskZero, by decide⟩

theorem witness_FesilControlInstructions_6_cmpq :
    ∃ (s : State) (t : Nat) (qs : Fin 16) (k : FTask),
      (s.upTo t).runsFor k 4 ∧
      State.anyBad [k.fr (4 * qs), k.fr (4 * qs + 1), k.fr (4 * qs + 2)] = true := by
  exact ⟨taskedNan, 0, 0, taskNan, by decide⟩

theorem witness_FesilControlInstructions_7_stper :
    ∃ (s : State) (t : Nat) (k : FTask),
      (s.upTo t).runsFor k 1 := by
  exact ⟨tasked, 0, task0, by decide⟩

theorem witness_FesilControlInstructions_8_sttrg :
    ∃ (s : State) (t : Nat) (k : FTask),
      (s.upTo t).runsFor k 1 := by
  exact ⟨tasked, 0, task0, by decide⟩

theorem witness_FesilControlInstructions_9_pic :
    ∃ (s : State) (t : Nat) (k : FTask),
      (s.upTo t).runsFor k 3 := by
  exact ⟨tasked, 0, task0, by decide⟩

theorem witness_FesilControlInstructions_10_biq :
    ∃ (s : State) (t : Nat) (k : FTask),
      (s.upTo t).runsFor k 3 := by
  exact ⟨tasked, 0, task0, by decide⟩

theorem witness_FesilFlowAndCommit_0_fcmp :
    ∃ (s : State) (t : Nat) (k : FTask),
      (s.upTo t).runsFor k 1 := by
  exact ⟨tasked, 0, task0, by decide⟩

theorem witness_FesilFlowAndCommit_1_icmp :
    ∃ (s : State) (t : Nat) (k : FTask),
      (s.upTo t).runsFor k 1 := by
  exact ⟨tasked, 0, task0, by decide⟩

theorem witness_FesilFlowAndCommit_2_br :
    ∃ (s : State) (t : Nat) (c : BrCond) (k : FTask),
      (s.upTo t).runsFor k 2 ∧
      State.brTaken c k.condOf = true := by
  exact ⟨taskedEq, 0, .eq, taskEq, by decide⟩

theorem witness_FesilFlowAndCommit_3_br :
    ∃ (s : State) (t : Nat) (c : BrCond) (k : FTask),
      (s.upTo t).runsFor k 1 ∧
      State.brTaken c k.condOf = false := by
  exact ⟨taskedEq, 0, .lt, taskEq, by decide⟩

theorem witness_FesilFlowAndCommit_4_jmp :
    ∃ (s : State) (t : Nat) (k : FTask),
      (s.upTo t).runsFor k 2 := by
  exact ⟨tasked, 0, task0, by decide⟩

theorem witness_FesilFlowAndCommit_5_commit :
    ∃ (s : State) (t : Nat) (k : FTask),
      (s.upTo t).runsFor k 1 ∧
      k.committed = false := by
  exact ⟨tasked, 0, task0, by decide⟩

theorem witness_FesilFlowAndCommit_6_commit :
    ∃ (s : State) (t : Nat) (k : FTask),
      (s.upTo t).runsFor k 1 ∧
      k.committed = true := by
  exact ⟨taskedDone, 0, taskDone, by decide⟩

theorem witness_FesilFlowAndCommit_7_trc :
    ∃ (s : State) (t : Nat) (k : FTask),
      (s.upTo t).runsFor k 2 := by
  exact ⟨tasked, 0, task0, by decide⟩

theorem witness_FesilFlowAndCommit_8_evt :
    ∃ (s : State) (t : Nat) (k : FTask),
      (s.upTo t).runsFor k 1 := by
  exact ⟨tasked, 0, task0, by decide⟩

theorem witness_FesilFlowAndCommit_9_endProgram :
    ∃ (s : State) (t : Nat) (k : FTask),
      (s.upTo t).runsFor k 1 := by
  exact ⟨tasked, 0, task0, by decide⟩

theorem witness_FesilTasksAndTrace_0_fesilTaskStart :
    ∃ (s : State) (t : Nat) (scrubbed : Nat) (v : State) (a : Nat) (rest : List Nat) (i : InputSet),
      v = (s.upTo t).scrub scrubbed ∧
      v.fsl.task = none ∧
      v.power.pllbHeld = false ∧
      v.power.roadHeld = false ∧
      v.fsl.ready = a :: rest ∧
      (v.fsa a).waiting = some i ∧
      ((v.modFsl fun x => { x with ready := rest }).modFsa a fun x => { x with waiting := none }).taskRuns a = true := by
  exact ⟨taskReady, 0, 0, (taskReady.upTo 0).scrub 0, 0, [], {}, rfl, by decide, by decide, by decide, by decide, by decide, by decide⟩

theorem witness_FesilTasksAndTrace_1_fesilTaskStart :
    ∃ (s : State) (t : Nat),
      (s.upTo t).ctlOn = true ∧
      (s.upTo t).power.pllbHeld = false ∧
      (s.upTo t).fsl.ready = [] := by
  exact ⟨live, 0, by decide⟩

theorem witness_FesilTasksAndTrace_2_reloadGuardOpen :
    ∃ (s : State) (t : Nat) (c : Fin 2) (k : FTask),
      (s.upTo t).fsl.task = some k ∧
      k.axis = c ∧
      (s.upTo t).cutDue k = true := by
  exact ⟨taskedLate, 15950, 0, task0, by decide⟩

theorem witness_FesilTasksAndTrace_3_taskLimitReached :
    ∃ (s : State) (t : Nat) (k : FTask),
      (s.upTo t).fsl.task = some k ∧
      (s.upTo t).taskRan k = true := by
  exact ⟨tasked, 4000, task0, by decide⟩

theorem witness_FesilTasksAndTrace_4_pub :
    ∃ (s : State) (t : Nat),
      (s.upTo t).ctlOn = true ∧
      (s.upTo t).stores = true := by
  exact ⟨live, 0, by decide⟩

theorem witness_FesilTasksAndTrace_5_swap :
    ∃ (s : State) (t : Nat),
      (s.upTo t).ctlOn = true ∧
      (s.upTo t).stores = true := by
  exact ⟨live, 0, by decide⟩

theorem witness_FesilTasksAndTrace_6_run :
    ∃ (s : State) (t : Nat) (v : Bool),
      (s.upTo t).ctlOn = true ∧
      (s.upTo t).stores = true ∧
      v = true ∧
      (s.upTo t).bit F.FSL_CTL_RUN = false := by
  exact ⟨live, 0, true, by decide⟩

theorem witness_FesilTasksAndTrace_7_run :
    ∃ (s : State) (t : Nat) (v : Bool),
      (s.upTo t).ctlOn = true ∧
      (s.upTo t).stores = true ∧
      v = false ∧
      (s.upTo t).mode = 2 := by
  exact ⟨live, 0, false, by decide⟩

theorem witness_FesilTasksAndTrace_8_run :
    ∃ (s : State) (t : Nat) (v : Bool),
      (s.upTo t).ctlOn = true ∧
      (s.upTo t).stores = true ∧
      v = false ∧
      (s.upTo t).mode ≠ 2 := by
  exact ⟨live.wr F.SYS_MODE_MODE 3, 0, false, by decide⟩

theorem witness_FesilTasksAndTrace_9_programCheckDone :
    ∃ (s : State) (t : Nat),
      (s.upTo t).fsl.checking = true ∧
      (s.upTo t).ctlOn = true ∧
      (s.upTo t).power.pllbHeld = false := by
  exact ⟨{ live with fsl := { live.fsl with checking := true } }, 0, by decide⟩

theorem witness_FesilTasksAndTrace_10_memWindowAccess :
    ∃ (s : State) (t : Nat) (w : Option Word) (x : Word),
      (s.upTo t).ctlOn = true ∧
      w = some x ∧
      (s.upTo t).stores = true := by
  exact ⟨live, 0, some 5#32, 5#32, by decide⟩

theorem witness_FesilTasksAndTrace_11_memWindowAccess :
    ∃ (s : State) (t : Nat) (w : Option Word) (e : Ecc) (x : Word),
      (s.upTo t).ctlOn = true ∧
      w = none ∧
      ((s.upTo t).memWindow none e).1 = some x := by
  exact ⟨live, 0, none, .ok, 0#32, by decide⟩

theorem witness_FesilTasksAndTrace_12_traceCfgArm :
    ∃ (s : State) (t : Nat),
      (s.upTo t).ctlOn = true ∧
      (s.upTo t).stores = true := by
  exact ⟨live, 0, by decide⟩

theorem witness_FesilTasksAndTrace_13_traceForce :
    ∃ (s : State) (t : Nat),
      (s.upTo t).ctlOn = true ∧
      (s.upTo t).stores = true ∧
      (s.upTo t).rd F.FSL_TRC_STAT_STATE = 1 := by
  exact ⟨live.wr F.FSL_TRC_STAT_STATE 1, 0, by decide⟩

theorem witness_FesilTasksAndTrace_14_traceTriggerInput :
    ∃ (s : State) (t : Nat),
      (s.upTo t).ctlOn = true := by
  exact ⟨live, 0, by decide⟩

theorem witness_CounterClearsZeroTheirRegister_0_pwmLdiscSatClear :
    ∃ (s : State) (t : Nat),
      (s.upTo t).ctlOn = true ∧
      (s.upTo t).stores = true := by
  exact ⟨live, 0, by decide⟩

theorem witness_CounterClearsZeroTheirRegister_1_gdcCntSatClear :
    ∃ (s : State) (t : Nat),
      (s.upTo t).ctlOn = true ∧
      (s.upTo t).stores = true := by
  exact ⟨live, 0, by decide⟩

theorem witness_CounterClearsZeroTheirRegister_2_adcCntSatClear :
    ∃ (s : State) (t : Nat),
      (s.upTo t).anaOn = true ∧
      (s.upTo t).stores = true := by
  exact ⟨live, 0, by decide⟩

theorem witness_CounterClearsZeroTheirRegister_3_posCntSatClear :
    ∃ (s : State) (t : Nat),
      (s.upTo t).ctlOn = true ∧
      (s.upTo t).stores = true := by
  exact ⟨live, 0, by decide⟩

theorem witness_CounterClearsZeroTheirRegister_4_motHovSatClear :
    ∃ (s : State) (t : Nat),
      (s.upTo t).ctlOn = true ∧
      (s.upTo t).stores = true := by
  exact ⟨live, 0, by decide⟩

theorem witness_CounterClearsZeroTheirRegister_5_hifRcntSatClear :
    ∃ (s : State) (t : Nat) (r : Fin 11),
      (s.upTo t).commOn = true ∧
      (s.upTo t).bit (F.HIF_RCFG_EN r) = false := by
  exact ⟨live, 0, 0, by decide⟩

theorem witness_CounterClearsZeroTheirRegister_6_hifRcntSatClear :
    ∃ (s : State) (t : Nat) (r : Fin 11),
      (s.upTo t).commOn = true ∧
      (s.upTo t).bit (F.HIF_RCFG_EN r) = true := by
  exact ⟨ringUp, 0, 0, by decide⟩

theorem witness_CounterClearsZeroTheirRegister_7_jrnCntSatClear :
    ∃ (s : State) (t : Nat),
      (s.upTo t).cpuOn = true ∧
      (s.upTo t).stores = true := by
  exact ⟨live, 0, by decide⟩

theorem witness_CounterClearsZeroTheirRegister_8_chnErrSatClear :
    ∃ (s : State) (t : Nat),
      (s.upTo t).commOn = true ∧
      (s.upTo t).stores = true := by
  exact ⟨live, 0, by decide⟩

theorem witness_CounterClearsZeroTheirRegister_9_chnDropSatClear :
    ∃ (s : State) (t : Nat),
      (s.upTo t).commOn = true ∧
      (s.upTo t).stores = true := by
  exact ⟨live, 0, by decide⟩

theorem witness_CounterClearsZeroTheirRegister_10_canCntSatClear :
    ∃ (s : State) (t : Nat),
      (s.upTo t).commOn = true ∧
      (s.upTo t).stores = true := by
  exact ⟨live, 0, by decide⟩

theorem witness_CounterClearsZeroTheirRegister_11_recCntSatClear :
    ∃ (s : State) (t : Nat),
      (s.upTo t).commOn = true ∧
      (s.upTo t).stores = true := by
  exact ⟨live, 0, by decide⟩

theorem witness_CounterClearsZeroTheirFields_0_lossSatClear :
    ∃ (s : State) (t : Nat),
      (s.upTo t).cpuOn = true ∧
      (s.upTo t).stores = true := by
  exact ⟨live, 0, by decide⟩

theorem witness_CounterClearsZeroTheirFields_1_adcNomajSatClear :
    ∃ (s : State) (t : Nat),
      (s.upTo t).anaOn = true ∧
      (s.upTo t).stores = true := by
  exact ⟨live, 0, by decide⟩

theorem witness_CounterClearsZeroTheirFields_2_fslCtlSatClear :
    ∃ (s : State) (t : Nat),
      (s.upTo t).ctlOn = true ∧
      (s.upTo t).stores = true := by
  exact ⟨live, 0, by decide⟩

theorem witness_CounterClearsZeroTheirFields_3_fslOvrSatClear :
    ∃ (s : State) (t : Nat),
      (s.upTo t).ctlOn = true ∧
      (s.upTo t).stores = true := by
  exact ⟨live, 0, by decide⟩

theorem witness_CounterClearsZeroTheirFields_4_cpxMinSatClear :
    ∃ (s : State) (t : Nat),
      (s.upTo t).cpuOn = true ∧
      (s.upTo t).stores = true := by
  exact ⟨live, 0, by decide⟩

theorem witness_CounterClearsZeroTheirFields_5_maxClr :
    ∃ (s : State) (t : Nat),
      (s.upTo t).ctlOn = true ∧
      (s.upTo t).stores = true := by
  exact ⟨live, 0, by decide⟩

theorem witness_CounterClearsZeroTheirFields_6_safFirstRearm :
    ∃ (s : State) (t : Nat),
      (s.upTo t).safeOn = true ∧
      (s.upTo t).stores = true := by
  exact ⟨live, 0, by decide⟩

theorem witness_CarriersReloadAndStayInStep_0_reload :
    ∃ (s : State) (t : Nat) (c : Fin 2) (p : ReloadPoint),
      (s.upTo t).ctlOn = true ∧
      (s.upTo t).power.pllbHeld = false ∧
      (s.upTo t).reloads c p = true ∧
      (c = 0 ∨ (s.upTo t).noCarrier1 = false ∨ (s.upTo t).quad = true) ∧
      (s.upTo t).pointDue c p = true := by
  exact ⟨atValley, 64000, 0, .valley, by decide⟩

theorem witness_CarriersReloadAndStayInStep_1_updateEvent :
    ∃ (s : State) (t : Nat) (a : Fin 2),
      (s.upTo t).ctlOn = true ∧
      (s.upTo t).power.pllbHeld = false ∧
      (s.upTo t).axes.contains a.val = true ∧
      (s.upTo t).updateDue a = true ∧
      (((s.upTo t).fsa a).evAt = 0 ∨ ((s.upTo t).fsa a).evAt ≠ (s.upTo t).now) := by
  exact ⟨atUpdate, 64000, 0, by decide⟩

theorem witness_CarriersReloadAndStayInStep_2_commitWord :
    ∃ (s : State) (t : Nat) (c : Fin 2) (inGuard : Bool),
      (s.upTo t).ctlOn = true ∧
      (s.upTo t).stores = true ∧
      inGuard = (s.upTo t).inGuard c 0 ∧
      (s.upTo t).running c = false := by
  exact ⟨live, 0, 0, false, by decide⟩

theorem witness_CarriersReloadAndStayInStep_3_commitWord :
    ∃ (s : State) (t : Nat) (c : Fin 2) (inGuard : Bool),
      (s.upTo t).ctlOn = true ∧
      (s.upTo t).stores = true ∧
      inGuard = (s.upTo t).inGuard c 0 ∧
      (s.upTo t).running c = true := by
  exact ⟨driving, 0, 0, false, by decide⟩

theorem witness_CarriersReloadAndStayInStep_4_tripLeak :
    ∃ (s : State) (t : Nat) (c : Fin 2),
      max 1 ((s.upTo t).rd (F.PWM_TRIP_TRIP_LEAK c)) ≤ ((s.upTo t).car c).freeRun := by
  exact ⟨{ live with carriers := [(0, { freeRun := 2000 })] }, 0, 0, by decide⟩

theorem witness_CarriersReloadAndStayInStep_5_syncLost :
    ∃ (s : State) (t : Nat) (c : Fin 2) (err : Nat),
      (s.upTo t).ctlOn = true ∧
      (s.upTo t).syncMode c ≠ 0 ∧
      4 ≤ ((s.upTo t).car c).syncRun ∧
      (s.upTo t).periodSteps c ((s.upTo t).car c).per < 64 * err := by
  exact ⟨{ live.wr (F.PWM_CFG_SYNC 0) 2 with carriers := [(0, { syncRun := 4 })] }, 0, 0, 10 ^ 9, by decide⟩

theorem witness_CarriersReloadAndStayInStep_6_syncInputEdge :
    ∃ (s : State) (t : Nat) (c : Fin 2),
      (s.upTo t).ctlOn = true ∧
      (s.upTo t).syncMode c = 2 := by
  exact ⟨live.wr (F.PWM_CFG_SYNC 0) 2, 0, 0, by decide⟩

theorem witness_CarriersReloadAndStayInStep_7_syncEdgeMissing :
    ∃ (s : State) (t : Nat) (c : Fin 2),
      (s.upTo t).ctlOn = true ∧
      (s.upTo t).syncMode c = 2 ∧
      (∀ x, ((s.upTo t).car c).edgeAt = some x → 16 * x + 2 * (s.upTo t).periodSteps c ((s.upTo t).car c).per ≤ 16 * (s.upTo t).now) := by
  exact ⟨live.wr (F.PWM_CFG_SYNC 0) 2, 0, 0, by decide⟩

theorem witness_CarriersReloadAndStayInStep_8_delayLineCalibration :
    ∃ (s : State) (t : Nat) (span : Nat),
      (s.upTo t).ctlOn = true ∧
      (s.upTo t).power.pllbHeld = false ∧
      72 ≤ span ∧
      span ≤ 127 := by
  exact ⟨live, 0, 72, by decide⟩

theorem witness_CarriersReloadAndStayInStep_9_delayLineCalibration :
    ∃ (s : State) (t : Nat) (span : Nat),
      (s.upTo t).ctlOn = true ∧
      (s.upTo t).power.pllbHeld = false ∧
      (span < 72 ∨ 127 < span) := by
  exact ⟨live, 0, 71, by decide⟩

theorem witness_ScansAndChecksComplete_0_triggerPoint :
    ∃ (s : State) (t : Nat) (c : Fin 2) (k : Fin 8),
      (s.upTo t).trigDue c k = true ∧
      (s.upTo t).converting = true ∧
      (s.upTo t).maskOf ((s.upTo t).scanOf c k).list ≠ [] ∧
      ((s.upTo t).fire c k).retireScan.adc.taking = none ∧
      ((s.upTo t).fire c k).retireScan.adc.queue = [] := by
  exact ⟨trigNow, 4000, 0, 0, by decide⟩

theorem witness_ScansAndChecksComplete_1_triggerPoint :
    ∃ (s : State) (t : Nat) (c : Fin 2) (k : Fin 8),
      (s.upTo t).trigDue c k = true ∧
      (s.upTo t).converting = true ∧
      (s.upTo t).maskOf ((s.upTo t).scanOf c k).list ≠ [] ∧
      (((s.upTo t).fire c k).retireScan.adc.taking ≠ none ∨ ((s.upTo t).fire c k).retireScan.adc.queue ≠ []) ∧
      (∀ x, ((s.upTo t).fire c k).retireScan.adc.taking = some x → State.scanBefore ((s.upTo t).scanOf c k) x = false ∨ x.t0 ≠ (x.at_ + 29) / 20 * 20) ∧
      ((s.upTo t).fire c k).retireScan.adc.queue.length < 4 := by
  exact ⟨trigBusy, 4000, 0, 0, by decide⟩

theorem witness_ScansAndChecksComplete_2_triggerPoint :
    ∃ (s : State) (t : Nat) (c : Fin 2) (k : Fin 8),
      (s.upTo t).trigDue c k = true ∧
      (s.upTo t).converting = true ∧
      (s.upTo t).maskOf ((s.upTo t).scanOf c k).list ≠ [] ∧
      (∀ x, ((s.upTo t).fire c k).retireScan.adc.taking = some x → State.scanBefore ((s.upTo t).scanOf c k) x = false ∨ x.t0 ≠ (x.at_ + 29) / 20 * 20) ∧
      4 ≤ ((s.upTo t).fire c k).retireScan.adc.queue.length := by
  exact ⟨trigFull, 4000, 0, 0, by decide⟩

theorem witness_ScansAndChecksComplete_3_triggerPoint :
    ∃ (s : State) (t : Nat) (c : Fin 2) (k : Fin 8) (x : Scan),
      (s.upTo t).trigDue c k = true ∧
      (s.upTo t).converting = true ∧
      (s.upTo t).maskOf ((s.upTo t).scanOf c k).list ≠ [] ∧
      ((s.upTo t).fire c k).retireScan.adc.taking = some x ∧
      State.scanBefore ((s.upTo t).scanOf c k) x = true ∧
      x.t0 = (x.at_ + 29) / 20 * 20 := by
  exact ⟨trigAhead, 4000, 0, 0, scanLater, by decide⟩

theorem witness_ScansAndChecksComplete_4_triggerPoint :
    ∃ (s : State) (t : Nat) (c : Fin 2) (k : Fin 8),
      (s.upTo t).trigDue c k = true ∧
      ((s.upTo t).converting = false ∨ (s.upTo t).maskOf ((s.upTo t).scanOf c k).list = []) := by
  exact ⟨trigOff, 4000, 0, 0, by decide⟩

theorem witness_ScansAndChecksComplete_5_triggerPoint :
    ∃ (s : State) (t : Nat) (c : Fin 2) (k : Fin 8),
      (s.upTo t).trigDue c k = false := by
  exact ⟨live, 0, 0, 0, by decide⟩

theorem witness_ScansAndChecksComplete_6_queuedScanStart :
    ∃ (s : State) (t : Nat) (sc : Scan) (q : List Scan),
      (s.upTo t).retireScan.adc.taking = none ∧
      (s.upTo t).retireScan.adc.queue = sc :: q := by
  exact ⟨{ live with adc := { queue := [scan0] } }, 0, scan0, [], by decide⟩

theorem witness_ScansAndChecksComplete_7_scanComplete :
    ∃ (s : State) (t : Nat) (sc : Scan) (rest : List Scan),
      (s.upTo t).retireScan.ghostDue = none ∧
      (s.upTo t).retireScan.adc.due = sc :: rest := by
  exact ⟨{ live with adc := { due := [scan0] } }, 0, scan0, [], by decide⟩

theorem witness_ScansAndChecksComplete_8_scanComplete :
    ∃ (s : State) (t : Nat) (g : Ghost),
      (s.upTo t).retireScan.ghostDue = some g := by
  exact ⟨{ live with adc := { ghosts := [⟨0, 1, 0⟩] } }, 0, ⟨0, 1, 0⟩, by decide⟩

theorem witness_ScansAndChecksComplete_9_guardRound :
    ∃ (s : State) (t : Nat) (a : Fin 2),
      (s.upTo t).converting = true ∧
      (s.upTo t).bit F.ADC_GUARD_EN = true ∧
      (s.upTo t).axes.contains a.val = true ∧
      (s.upTo t).guardCut 3 = false := by
  exact ⟨live.wr F.ADC_GUARD_EN 1, 0, 0, by decide⟩

theorem witness_ScansAndChecksComplete_10_internalCheck :
    ∃ (s : State) (t : Nat),
      (s.upTo t).converting = true ∧
      (s.upTo t).guardCut 1 = false := by
  exact ⟨live, 0, by decide⟩

theorem witness_ScansAndChecksComplete_11_crossCheck :
    ∃ (s : State) (t : Nat) (a : Option Int) (b : Option Int) (c : Option Int) (x : Int) (y : Int) (z : Int),
      (s.upTo t).converting = true ∧
      (s.upTo t).guardCut 1 = false ∧
      a = some x ∧
      b = some y ∧
      c = some z := by
  exact ⟨live, 0, some 0, some 0, some 0, 0, 0, 0, by decide⟩

theorem witness_ScansAndChecksComplete_12_backgroundCorrection :
    ∃ (s : State) (t : Nat) (idle : Nat),
      (s.upTo t).converting = true ∧
      idle < 10 := by
  exact ⟨live, 0, 9, by decide⟩

theorem witness_ScansAndChecksComplete_13_backgroundCorrection :
    ∃ (s : State) (t : Nat) (idle : Nat),
      (s.upTo t).converting = true ∧
      10 ≤ idle := by
  exact ⟨live, 0, 10, by decide⟩

theorem witness_ScansAndChecksComplete_14_calStarveTimeout :
    ∃ (s : State) (t : Nat) (g : Fin 3),
      kvGet (fun _ => 0) (s.upTo t).adc.starveAt g ≠ 0 ∧
      kvGet (fun _ => 0) (s.upTo t).adc.starveAt g + 100000000 ≤ (s.upTo t).now + 1 := by
  exact ⟨{ live with adc := { starveAt := [(0, 1)] } }, 10 ^ 8, 0, by decide⟩

theorem witness_ScansAndChecksComplete_15_sliceSilence :
    ∃ (s : State) (t : Nat),
      (s.upTo t).converting = true := by
  exact ⟨live, 0, by decide⟩

theorem witness_CastlingAndTestDacComplete_0_castlingInstant :
    ∃ (s : State) (t : Nat),
      2 ≤ (s.upTo t).healthy.length ∧
      (s.upTo t).converting = true := by
  exact ⟨live, 0, by decide⟩

theorem witness_CastlingAndTestDacComplete_1_castlingForce :
    ∃ (s : State) (t : Nat),
      (s.upTo t).stores = true ∧
      ((s.upTo t).mode = 2 ∨ (s.upTo t).mode = 3 ∨ (s.upTo t).mode = 4) ∧
      (s.upTo t).bit F.ADC_CAST_RAMPING = false := by
  exact ⟨live, 0, by decide⟩

theorem witness_CastlingAndTestDacComplete_2_tdacStart :
    ∃ (s : State) (t : Nat) (groups : BitVec 3) (inputs : BitVec 17),
      (s.upTo t).anaOn = true ∧
      (s.upTo t).stores = true ∧
      (s.upTo t).mode = 2 ∧
      (((s.upTo t).wr F.ADC_TDAC_CTL_GRP_MASK groups.toNat).wr F.ADC_TDAC_CTL_IN_MASK inputs.toNat).converting = true ∧
      (((s.upTo t).wr F.ADC_TDAC_CTL_GRP_MASK groups.toNat).wr F.ADC_TDAC_CTL_IN_MASK inputs.toNat).bit F.ADC_TDAC_CTL_BUSY = false := by
  exact ⟨live, 0, 0#3, 0#17, by decide⟩

theorem witness_CastlingAndTestDacComplete_3_tdacStart :
    ∃ (s : State) (t : Nat),
      (s.upTo t).anaOn = true ∧
      (s.upTo t).stores = true ∧
      (s.upTo t).mode ≠ 2 := by
  exact ⟨live.wr F.SYS_MODE_MODE 3, 0, by decide⟩

theorem witness_CastlingAndTestDacComplete_4_tdacComplete :
    ∃ (s : State) (t : Nat),
      (s.upTo t).bit F.ADC_TDAC_CTL_BUSY = true ∧
      (s.upTo t).mode = 2 ∧
      (s.upTo t).converting = true := by
  exact ⟨live.wr F.ADC_TDAC_CTL_BUSY 1, 0, by decide⟩

theorem witness_CastlingAndTestDacComplete_5_tdacComplete :
    ∃ (s : State) (t : Nat),
      (s.upTo t).bit F.ADC_TDAC_CTL_BUSY = true ∧
      (s.upTo t).mode ≠ 2 := by
  exact ⟨(live.wr F.ADC_TDAC_CTL_BUSY 1).wr F.SYS_MODE_MODE 3, 0, by decide⟩

theorem witness_CastlingAndTestDacComplete_6_tdacAbort :
    ∃ (s : State) (t : Nat),
      (s.upTo t).bit F.ADC_TDAC_CTL_BUSY = true ∧
      (s.upTo t).mode ≠ 2 := by
  exact ⟨(live.wr F.ADC_TDAC_CTL_BUSY 1).wr F.SYS_MODE_MODE 3, 0, by decide⟩

theorem witness_ChannelsConfigureAndLoseTheirLink_0_channelLinkUp :
    ∃ (s : State) (t : Nat) (n : Fin 12),
      ((s.upTo t).ch n).st = .noLink ∧
      (s.upTo t).unused n = false ∧
      ((s.upTo t).ctlOn || ((s.upTo t).safeOn && (s.upTo t).bit F.SAF_STAT_SHADOW)) = true := by
  exact ⟨live, 0, 0, by decide⟩

theorem witness_ChannelsConfigureAndLoseTheirLink_1_configExchangeDone :
    ∃ (s : State) (t : Nat) (n : Fin 12) (ok : Bool),
      ((s.upTo t).ch n).st ≠ .noLink ∧
      ((s.upTo t).ch n).exchange = true ∧
      ok = true ∧
      (s.upTo t).badBootstrap n = false := by
  exact ⟨{ live with gates := [(0, { st := .config, exchange := true })] }, 0, 0, true, by decide⟩

theorem witness_ChannelsConfigureAndLoseTheirLink_2_configExchangeDone :
    ∃ (s : State) (t : Nat) (n : Fin 12) (ok : Bool),
      ((s.upTo t).ch n).st ≠ .noLink ∧
      ((s.upTo t).ch n).exchange = true ∧
      (ok = false ∨ (s.upTo t).badBootstrap n = true) := by
  exact ⟨{ live with gates := [(0, { st := .config, exchange := true })] }, 0, 0, false, by decide⟩

theorem witness_ChannelsConfigureAndLoseTheirLink_3_configReadback :
    ∃ (s : State) (t : Nat) (n : Fin 12),
      ((s.upTo t).ch n).st ≠ .noLink ∧
      ((s.upTo t).ch n).st ≠ .config ∧
      ((s.upTo t).ch n).exchange = false := by
  exact ⟨gateOff, 0, 0, by decide⟩

theorem witness_ChannelsConfigureAndLoseTheirLink_4_linkTimeout :
    ∃ (s : State) (t : Nat) (n : Fin 12),
      (s.upTo t).unused n = false ∧
      (((s.upTo t).ch n).st ≠ .noLink ∨ (s.upTo t).rd (F.GDC_STAT_STATE n) ≠ 0) := by
  exact ⟨gateOff, 0, 0, by decide⟩

theorem witness_ChannelsConfigureAndLoseTheirLink_5_supplyCollapse :
    ∃ (s : State) (t : Nat) (n : Fin 12),
      ((s.upTo t).ch n).st = .noLink := by
  exact ⟨live, 0, 0, by decide⟩

theorem witness_ChannelsConfigureAndLoseTheirLink_6_supplyCollapse :
    ∃ (s : State) (t : Nat) (n : Fin 12),
      ((s.upTo t).ch n).st ≠ .noLink := by
  exact ⟨gateOff, 0, 0, by decide⟩

theorem witness_ChannelsConfigureAndLoseTheirLink_7_uvloEntry :
    ∃ (s : State) (t : Nat) (n : Fin 12) (pos : Bool) (neg : Bool),
      (pos = true ∨ neg = true) ∧
      ((s.upTo t).ch n).st ≠ .noLink ∧
      (s.upTo t).mayTake n 7 (fun x => x == .off || x == .on || x == .disabled || x == .diag) = true := by
  exact ⟨gateOff, 0, 0, true, false, by decide⟩

theorem witness_ChannelsConfigureAndLoseTheirLink_8_uvloEntry :
    ∃ (s : State) (t : Nat) (n : Fin 12) (pos : Bool) (neg : Bool),
      (pos = true ∨ neg = true) ∧
      ((s.upTo t).ch n).st ≠ .noLink ∧
      (s.upTo t).mayTake n 7 (fun x => x == .off || x == .on || x == .disabled || x == .diag) = false := by
  exact ⟨{ live with gates := [(0, { st := .uvlo })] }, 0, 0, true, false, by decide⟩

theorem witness_ChannelsConfigureAndLoseTheirLink_9_uvloRelease :
    ∃ (s : State) (t : Nat) (n : Fin 12),
      ((s.upTo t).ch n).st ≠ .noLink := by
  exact ⟨{ live with gates := [(0, { st := .uvlo })] }, 0, 0, by decide⟩

theorem witness_ChannelsConfigureAndLoseTheirLink_10_channelOverTemp :
    ∃ (s : State) (t : Nat) (n : Fin 12),
      (s.upTo t).mayTake n 9 (fun x => x == .off || x == .on || x == .disabled || x == .uvlo || x == .diag) = true := by
  exact ⟨gateOff, 0, 0, by decide⟩

theorem witness_ChannelsSwitchAndProtect_2_gateEdge :
    ∃ (s : State) (t : Nat) (n : Fin 12) (e : GateEdge),
      e = .on ∧
      ((s.upTo t).ch n).st = .off ∧
      ((s.upTo t).uzAx ((s.upTo t).axisOf n)).gate = .free ∧
      (s.upTo t).pwmEdge n = true ∧
      (s.upTo t).onPlanned n = true := by
  exact ⟨drivingOff, 0, 1, .on, by decide⟩

theorem witness_ChannelsSwitchAndProtect_3_gateEdge :
    ∃ (s : State) (t : Nat) (n : Fin 12) (e : GateEdge),
      e = .off ∧
      ((s.upTo t).ch n).st = .on ∧
      ((s.upTo t).ch n).forced = false ∧
      (s.upTo t).innerHeld n = false ∧
      (s.upTo t).offPlanned n = true := by
  exact ⟨gateOnPlanned, 2000, 1, .off, by decide⟩

theorem witness_ChannelsSwitchAndProtect_4_gateEdge :
    ∃ (s : State) (t : Nat) (e : GateEdge),
      e = .force := by
  exact ⟨live, 0, .force, by decide⟩

theorem witness_ChannelsSwitchAndProtect_6_blankingEnd :
    ∃ (s : State) (t : Nat) (n : Fin 12),
      ((s.upTo t).ch n).st = .on := by
  exact ⟨gateOn, 0, 0, by decide⟩

theorem witness_ChannelsSwitchAndProtect_7_desaturation :
    ∃ (s : State) (t : Nat) (n : Fin 12),
      (if ((s.upTo t).ch n).st = .on then ((s.upTo t).ch n).blanked else ((s.upTo t).ch n).wasBlanked) = true ∧
      (s.upTo t).mayTake n 5 (fun x => x == .on) = true := by
  exact ⟨gateOn, 0, 0, by decide⟩

theorem witness_ChannelsSwitchAndProtect_8_hardShort :
    ∃ (s : State) (t : Nat) (n : Fin 12),
      (s.upTo t).mayTake n 5 (fun x => x == .on) = true ∧
      (s.upTo t).chBit n 1 (F.GDC_DESAT_HS_EN n) = true := by
  exact ⟨gateShort, 0, 0, by decide⟩

theorem witness_ChannelsSwitchAndProtect_9_softOffEnd :
    ∃ (s : State) (t : Nat) (n : Fin 12),
      ((s.upTo t).ch n).st = .softOff := by
  exact ⟨{ live with gates := [(0, { st := .softOff })] }, 0, 0, by decide⟩

theorem witness_ChannelsSwitchAndProtect_10_onStateSample :
    ∃ (s : State) (t : Nat) (n : Fin 12),
      ((s.upTo t).ch n).st = .on ∧
      ((s.upTo t).ch n).blanked = true ∧
      (s.upTo t).chBit n 3 (F.GDC_DRV_VON_EN n) = true := by
  exact ⟨gateVon, 0, 0, by decide⟩

theorem witness_ChannelsSwitchAndProtect_11_scFaultReport :
    ∃ (s : State) (t : Nat) (n : Fin 12),
      (((s.upTo t).ch n).st = .softOff ∨ ((s.upTo t).ch n).st = .latched) ∧
      (s.upTo t).saf.faulted.testBit n = false := by
  exact ⟨{ live with gates := [(0, { st := .softOff })] }, 0, 0, by decide⟩

theorem witness_ChannelsSwitchAndProtect_12_finalStateDecision :
    ∃ (s : State) (t : Nat) (a : Fin 2),
      ((s.upTo t).uzAx a).finalDue = true ∧
      ((s.upTo t).channels a).all (fun n => ((s.upTo t).ch n).st != .softOff) = true := by
  exact ⟨{ live with uzs := [(0, { finalDue := true })] }, 0, 0, by decide⟩

theorem witness_GateDiagnosticsComplete_0_diagStart :
    ∃ (s : State) (t : Nat) (mask : BitVec 12) (test : Fin 4),
      (s.upTo t).ctlOn = true ∧
      (s.upTo t).stores = true ∧
      (((s.upTo t).wr F.GDC_DIAG_CTL_CH_MASK mask.toNat).wr F.GDC_DIAG_CTL_TEST test).bit F.GDC_DIAG_CTL_BUSY = false ∧
      (((s.upTo t).wr F.GDC_DIAG_CTL_CH_MASK mask.toNat).wr F.GDC_DIAG_CTL_TEST test).mode = 2 ∧
      test ≠ 0 := by
  exact ⟨live, 0, 0#12, 1, by decide⟩

theorem witness_GateDiagnosticsComplete_1_diagStart :
    ∃ (s : State) (t : Nat) (mask : BitVec 12) (test : Fin 4),
      (s.upTo t).ctlOn = true ∧
      (s.upTo t).stores = true ∧
      (((s.upTo t).wr F.GDC_DIAG_CTL_CH_MASK mask.toNat).wr F.GDC_DIAG_CTL_TEST test).mode ≠ 2 := by
  exact ⟨live.wr F.SYS_MODE_MODE 3, 0, 0#12, 1, by decide⟩

theorem witness_GateDiagnosticsComplete_2_diagComplete :
    ∃ (s : State) (t : Nat),
      (s.upTo t).bit F.GDC_DIAG_CTL_BUSY = true := by
  exact ⟨live.wr F.GDC_DIAG_CTL_BUSY 1, 0, by decide⟩

theorem witness_GateDiagnosticsComplete_3_diagAbort :
    ∃ (s : State) (t : Nat),
      (s.upTo t).bit F.GDC_DIAG_CTL_BUSY = true := by
  exact ⟨live.wr F.GDC_DIAG_CTL_BUSY 1, 0, by decide⟩

theorem witness_PositionSourcesAdvance_0_encoderEdge :
    ∃ (s : State) (t : Nat) (a : Fin 2) (la : Bool) (lb : Bool) (ts : Nat),
      (s.upTo t).ctlOn = true ∧
      (s.upTo t).posSrc a = 1 ∧
      (s.upTo t).accepted ((s.upTo t).rd (F.POS_FILT_ENC_N a)) (ts / 10 * 10) = true ∧
      (quadIndex la lb + 4 - quadIndex ((s.upTo t).pos a).a ((s.upTo t).pos a).b) % 4 = 2 := by
  exact ⟨encoder, 10 ^ 6, 0, true, true, 0, by decide⟩

theorem witness_PositionSourcesAdvance_1_encoderEdge :
    ∃ (s : State) (t : Nat) (a : Fin 2) (la : Bool) (lb : Bool) (ts : Nat),
      (s.upTo t).ctlOn = true ∧
      (s.upTo t).posSrc a = 1 ∧
      (s.upTo t).accepted ((s.upTo t).rd (F.POS_FILT_ENC_N a)) (ts / 10 * 10) = true ∧
      (quadIndex la lb + 4 - quadIndex ((s.upTo t).pos a).a ((s.upTo t).pos a).b) % 4 ≠ 2 ∧
      (quadIndex la lb + 4 - quadIndex ((s.upTo t).pos a).a ((s.upTo t).pos a).b) % 4 ≠ 0 := by
  exact ⟨encoder, 10 ^ 6, 0, true, false, 0, by decide⟩

theorem witness_PositionSourcesAdvance_2_hallTransition :
    ∃ (s : State) (t : Nat) (a : Fin 2) (pat : BitVec 3) (ts : Nat),
      (s.upTo t).ctlOn = true ∧
      (s.upTo t).posSrc a = 3 ∧
      (s.upTo t).accepted (10 * (s.upTo t).rd (F.POS_FILT_HALL_N a)) (ts / 10 * 10) = true ∧
      hallSector ((s.upTo t).bit (F.POS_CFG_INV a)) pat = none := by
  exact ⟨hall, 10 ^ 6, 0, 0, 0, by decide⟩

theorem witness_PositionSourcesAdvance_3_hallTransition :
    ∃ (s : State) (t : Nat) (a : Fin 2) (pat : BitVec 3) (ts : Nat) (k : Nat) (o : Nat),
      (s.upTo t).ctlOn = true ∧
      (s.upTo t).posSrc a = 3 ∧
      (s.upTo t).accepted (10 * (s.upTo t).rd (F.POS_FILT_HALL_N a)) (ts / 10 * 10) = true ∧
      hallSector ((s.upTo t).bit (F.POS_CFG_INV a)) pat = some k ∧
      ((s.upTo t).pos a).sector = some o ∧
      (k + 6 - o) % 6 = 1 := by
  exact ⟨hallAt, 10 ^ 6, 0, hallPat, 0, 1, 0, by decide⟩

theorem witness_PositionSourcesAdvance_4_hallBadTimeout :
    ∃ (s : State) (t : Nat) (a : Fin 2) (x : Nat),
      (s.upTo t).ctlOn = true ∧
      (s.upTo t).posSrc a = 3 ∧
      ((s.upTo t).pos a).hallBad = some x ∧
      x + 1000000 ≤ (s.upTo t).now := by
  exact ⟨{ hall with poss := [(0, { hallBad := some 0 })] }, 10 ^ 6, 0, 0, by decide⟩

theorem witness_PositionSourcesAdvance_5_toothEdge :
    ∃ (s : State) (t : Nat) (a : Fin 2) (ts : Nat) (tp : Nat),
      (s.upTo t).ctlOn = true ∧
      (s.upTo t).posSrc a = 4 ∧
      (s.upTo t).accepted ((s.upTo t).rd (F.POS_FILT_ENC_N a)) (ts / 10 * 10) = true ∧
      ((s.upTo t).pos a).tPrev = some tp ∧
      ((s.upTo t).pos a).refIv = 0 := by
  exact ⟨train, 10 ^ 6, 0, 20, 10, by decide⟩

theorem witness_PositionSourcesAdvance_6_toothEdge :
    ∃ (s : State) (t : Nat) (a : Fin 2) (ts : Nat),
      (s.upTo t).ctlOn = true ∧
      (s.upTo t).posSrc a = 4 ∧
      (s.upTo t).accepted ((s.upTo t).rd (F.POS_FILT_ENC_N a)) (ts / 10 * 10) = true ∧
      ((s.upTo t).pos a).tPrev = none := by
  exact ⟨live.wr (F.POS_CFG_SRC 0) 4, 10 ^ 6, 0, 0, by decide⟩

theorem witness_PositionSourcesAdvance_7_indexPulse :
    ∃ (s : State) (t : Nat) (a : Fin 2) (ts : Nat),
      (s.upTo t).ctlOn = true ∧
      (s.upTo t).posSrc a = 1 ∧
      (s.upTo t).accepted ((s.upTo t).rd (F.POS_FILT_ENC_N a)) ts = true ∧
      (s.upTo t).bit (F.POS_CFG_Z_EN a) = true ∧
      ((s.upTo t).bit (F.POS_CFG_Z_GATE a) = false ∨ (((s.upTo t).pos a).a = true ∧ ((s.upTo t).pos a).b = true)) ∧
      ((s.upTo t).pos a).indexMt = none := by
  exact ⟨(encoder.wr (F.POS_CFG_Z_EN 0) 1).wr (F.POS_CFG_Z_GATE 0) 0, 10 ^ 6, 0, 0, by decide⟩

theorem witness_PositionSourcesAdvance_8_indexPulse :
    ∃ (s : State) (t : Nat) (a : Fin 2) (ts : Nat) (m : Int),
      (s.upTo t).ctlOn = true ∧
      (s.upTo t).posSrc a = 1 ∧
      (s.upTo t).accepted ((s.upTo t).rd (F.POS_FILT_ENC_N a)) ts = true ∧
      (s.upTo t).bit (F.POS_CFG_Z_EN a) = true ∧
      ((s.upTo t).bit (F.POS_CFG_Z_GATE a) = false ∨ (((s.upTo t).pos a).a = true ∧ ((s.upTo t).pos a).b = true)) ∧
      ((s.upTo t).pos a).indexMt = some m := by
  exact ⟨{ (encoder.wr (F.POS_CFG_Z_EN 0) 1).wr (F.POS_CFG_Z_GATE 0) 0 with poss := [(0, { indexMt := some 0 })] }, 10 ^ 6, 0, 0, 0, by decide⟩

theorem witness_PositionSourcesAdvance_9_resolverSample :
    ∃ (s : State) (t : Nat) (a : Fin 2) (neg : Bool) (discarded : Bool),
      (s.upTo t).converting = true ∧
      (s.upTo t).posSrc a = 2 ∧
      (if a = 0 then (s.upTo t).pins.exc0 else (s.upTo t).pins.exc1) = true ∧
      ((s.upTo t).pos a).excAt + (s.upTo t).excHalf a / 2 + 100 * (s.upTo t).rd (F.POS_RES_RES_DLY a) ≤ (s.upTo t).now ∧
      ((s.upTo t).pos a).crest ≤ ((s.upTo t).now - (((s.upTo t).pos a).excAt + (s.upTo t).excHalf a / 2 + 100 * (s.upTo t).rd (F.POS_RES_RES_DLY a))) / (s.upTo t).excHalf a ∧
      ((s.upTo t).adc.taking.any (fun sc => decide ((s.upTo t).now < sc.endAt)) || !(s.upTo t).adc.queue.isEmpty) = false ∧
      neg = ((((s.upTo t).now - (((s.upTo t).pos a).excAt + (s.upTo t).excHalf a / 2 + 100 * (s.upTo t).rd (F.POS_RES_RES_DLY a))) / (s.upTo t).excHalf a) % 2 == 1) ∧
      discarded = decide (((s.upTo t).pos a).excAt + (s.upTo t).excHalf a / 2 + 100 * (s.upTo t).rd (F.POS_RES_RES_DLY a) + (((s.upTo t).now - (((s.upTo t).pos a).excAt + (s.upTo t).excHalf a / 2 + 100 * (s.upTo t).rd (F.POS_RES_RES_DLY a))) / (s.upTo t).excHalf a) * (s.upTo t).excHalf a + 2000 < (s.upTo t).now) := by
  exact ⟨resolver, 1026000, 0, false, false, by decide⟩

theorem witness_PositionFramesAndCompareComplete_0_edgeTimeout :
    ∃ (s : State) (t : Nat),
      (s.upTo t).ctlOn = true := by
  exact ⟨live, 0, by decide⟩

theorem witness_PositionFramesAndCompareComplete_1_positionFrame :
    ∃ (s : State) (t : Nat),
      (s.upTo t).ctlOn = true ∧
      (s.upTo t).safeOn = true := by
  exact ⟨live, 0, by decide⟩

theorem witness_PositionFramesAndCompareComplete_2_positionFrameTimeout :
    ∃ (s : State) (t : Nat) (a : Fin 2),
      (s.upTo t).safeOn = true ∧
      ((s.upTo t).uzAx a).posLost = false ∧
      ((s.upTo t).uzAx a).frame = none := by
  exact ⟨live, 0, 0, by decide⟩

theorem witness_PositionFramesAndCompareComplete_3_positionFrameTimeout :
    ∃ (s : State) (t : Nat) (a : Fin 2) (f : PosFrame),
      (s.upTo t).safeOn = true ∧
      ((s.upTo t).uzAx a).posLost = false ∧
      ((s.upTo t).uzAx a).frame = some f ∧
      f.at_ + 10000 ≤ (s.upTo t).now := by
  exact ⟨{ live with uzs := [(0, { frame := some ⟨0, 0, 0, false, 0, 0⟩ })] }, 10000, 0, ⟨0, 0, 0, false, 0, 0⟩, by decide⟩

theorem witness_PositionFramesAndCompareComplete_4_compareHit :
    ∃ (s : State) (t : Nat) (a : Fin 2),
      (s.upTo t).ctlOn = true ∧
      (s.upTo t).bit (F.POS_CMP_CTL_EN a) = true ∧
      0 ≤ signed 32 ((s.upTo t).liveMt a + 2 ^ 32 - ((s.upTo t).reg (R.POS_CMP a)).toNat) ∧
      ((s.upTo t).pos a).near = true ∧
      (((s.upTo t).pos a).hitAt = 0 ∨ ((s.upTo t).pos a).hitAt + 50 ≤ (s.upTo t).now + 1) ∧
      0 < signed 32 ((s.upTo t).reg (R.POS_STEP a)).toNat := by
  exact ⟨{ (live.wr (F.POS_CMP_CTL_EN 0) 1).setReg (R.POS_STEP 0) 100#32 with poss := [(0, { near := true })] }, 0, 0, by decide⟩

theorem witness_PositionFramesAndCompareComplete_5_compareHit :
    ∃ (s : State) (t : Nat) (a : Fin 2),
      (s.upTo t).ctlOn = true ∧
      (s.upTo t).bit (F.POS_CMP_CTL_EN a) = true ∧
      0 ≤ signed 32 ((s.upTo t).liveMt a + 2 ^ 32 - ((s.upTo t).reg (R.POS_CMP a)).toNat) ∧
      ((s.upTo t).pos a).near = true ∧
      (((s.upTo t).pos a).hitAt = 0 ∨ ((s.upTo t).pos a).hitAt + 50 ≤ (s.upTo t).now + 1) ∧
      signed 32 ((s.upTo t).reg (R.POS_STEP a)).toNat = 0 := by
  exact ⟨{ live.wr (F.POS_CMP_CTL_EN 0) 1 with poss := [(0, { near := true })] }, 0, 0, by decide⟩

theorem witness_StartsAndMotionComplete_0_rearm :
    ∃ (s : State) (t : Nat) (a : Fin 2),
      (s.upTo t).ctlOn = true ∧
      (s.upTo t).stores = true ∧
      (s.upTo t).running a = false := by
  exact ⟨live, 0, 0, by decide⟩

theorem witness_StartsAndMotionComplete_1_heldStartRelease :
    ∃ (s : State) (t : Nat) (a : Fin 2) (c : Cmd) (x : Nat),
      ((s.upTo t).fc a).held = some (c, x) ∧
      (s.upTo t).bit F.SYS_MODE_RUN_OK = true := by
  exact ⟨{ live.wr F.SYS_MODE_RUN_OK 1 with fields := [(0, { held := some (cmd0, 0) })] }, 0, 0, cmd0, 0, by decide⟩

theorem witness_StartsAndMotionComplete_2_startTimeout :
    ∃ (s : State) (t : Nat) (a : Fin 2) (c : Cmd) (x : Nat),
      ((s.upTo t).fc a).held = some (c, x) ∧
      (s.upTo t).bit F.SYS_MODE_RUN_OK = false ∧
      (s.upTo t).power.wokeAt + 10000000 ≤ (s.upTo t).now ∧
      x + 10000000 ≤ (s.upTo t).now := by
  exact ⟨{ live.wr F.SYS_MODE_RUN_OK 0 with fields := [(0, { held := some (cmd0, 0) })] }, 10 ^ 7, 0, cmd0, 0, by decide⟩

theorem witness_StartsAndMotionComplete_3_catchEnd :
    ∃ (s : State) (t : Nat) (a : Fin 2) (c : Cmd) (x : Nat),
      ((s.upTo t).fc a).catch_ = some (c, x) ∧
      x + 2000000 ≤ (s.upTo t).now ∧
      (s.upTo t).posValid a = true ∧
      ((s.upTo t).fc a).implausible = false := by
  exact ⟨catching, 2 * 10 ^ 6, 0, cmd0, 0, by decide⟩

theorem witness_StartsAndMotionComplete_4_ifTimeout :
    ∃ (s : State) (t : Nat) (a : Fin 2) (x : Nat),
      (((s.upTo t).fc a).ifAt = some x ∨ ((s.upTo t).fc a).brakeAt = some x) ∧
      x + max 1 ((s.upTo t).rd (F.FSL_FC_IF_IF_TMAX a)) * 100000000 ≤ (s.upTo t).now := by
  exact ⟨{ live with fields := [(0, { ifAt := some 0 })] }, 10 ^ 11, 0, 0, by decide⟩

theorem witness_StartsAndMotionComplete_5_coastTimeout :
    ∃ (s : State) (t : Nat) (a : Fin 2),
      (s.upTo t).bit (F.FSL_FC_STAT_COAST a) = true ∧
      ((s.upTo t).fc a).reacqDone = false ∧
      ((s.upTo t).fc a).coastAt + 20000000 ≤ (s.upTo t).now := by
  exact ⟨live.wr (F.FSL_FC_STAT_COAST 0) 1, 2 * 10 ^ 7, 0, by decide⟩

theorem witness_StartsAndMotionComplete_6_servoTick :
    ∃ (s : State) (t : Nat) (a : Fin 2),
      (s.upTo t).tickDue a = true := by
  exact ⟨driving, 0, 0, by decide⟩

theorem witness_StartsAndMotionComplete_7_go :
    ∃ (s : State) (t : Nat),
      (s.upTo t).ctlOn = true ∧
      (s.upTo t).stores = true := by
  exact ⟨live, 0, by decide⟩

theorem witness_StartsAndMotionComplete_8_halt :
    ∃ (s : State) (t : Nat),
      (s.upTo t).ctlOn = true ∧
      (s.upTo t).stores = true := by
  exact ⟨live, 0, by decide⟩

theorem witness_HandoversPassBetweenUnits_0_prearmSend :
    ∃ (s : State) (t : Nat) (a : Fin 2),
      (s.upTo t).segment a = true ∧
      (s.upTo t).running a = true ∧
      (s.upTo t).neighbour a (decide (((s.upTo t).pos a).snap.speed < 0)) ≠ 0 ∧
      ((s.upTo t).pos a).snap.speed ≠ 0 ∧
      (((s.upTo t).pos a).snap.speed < 0 → (s.upTo t).bit F.MOT_HOV_POL_ALLOW_REV = true) ∧
      State.hovReached (decide (((s.upTo t).pos a).snap.speed < 0)) ((s.upTo t).snapMt a) ((s.upTo t).overlapEdges a (decide (((s.upTo t).pos a).snap.speed < 0)) (decide (((s.upTo t).pos a).snap.speed < 0))).1 = false ∧
      (signed 32 ((s.upTo t).snapMt a + 2 ^ 32 - ((s.upTo t).overlapEdges a (decide (((s.upTo t).pos a).snap.speed < 0)) (decide (((s.upTo t).pos a).snap.speed < 0))).1)).natAbs * 1000 ≤ max 5 (min 50 ((s.upTo t).rd F.MOT_HOV_POL_LEAD_MS)) * ((s.upTo t).pos a).snap.speed.natAbs ∧
      ((s.upTo t).hov a).prearmAt = none ∧
      (s.upTo t).hovState a = 0 := by
  exact ⟨giving, 0, 0, by decide⟩

theorem witness_HandoversPassBetweenUnits_1_prearmReceive :
    ∃ (s : State) (t : Nat) (a : Fin 2) (up : Bool) (dirUp : Bool),
      (s.upTo t).awake = true ∧
      a.val = (s.upTo t).portAxis up ∧
      (s.upTo t).neighbour a up = 1 ∧
      (s.upTo t).segment a = true ∧
      (s.upTo t).axMode a ≠ 5 ∧
      (s.upTo t).running a = false ∧
      up ≠ dirUp ∧
      (s.upTo t).handingOver a = false := by
  exact ⟨segmentOn, 0, 0, true, false, by decide⟩

theorem witness_HandoversPassBetweenUnits_2_prearmReceive :
    ∃ (s : State) (t : Nat) (a : Fin 2) (up : Bool),
      (s.upTo t).awake = true ∧
      a.val = (s.upTo t).portAxis up ∧
      ((s.upTo t).segment a = false ∨ (s.upTo t).neighbour a up ≠ 1) := by
  exact ⟨linked2, 0, 0, false, by decide⟩

theorem witness_HandoversPassBetweenUnits_3_takerReadySend :
    ∃ (s : State) (t : Nat) (a : Fin 2) (pathOk : Bool),
      (s.upTo t).segment a = true ∧
      (s.upTo t).hovTaker a = true ∧
      (s.upTo t).hovState a = 1 ∧
      (s.upTo t).axMode a = 2 ∧
      (s.upTo t).armable a = true ∧
      pathOk = true := by
  exact ⟨takingArm, 0, 0, true, by decide⟩

theorem witness_HandoversPassBetweenUnits_4_takerReadySend :
    ∃ (s : State) (t : Nat) (a : Fin 2) (pathOk : Bool),
      (s.upTo t).segment a = true ∧
      (s.upTo t).hovTaker a = true ∧
      (s.upTo t).hovState a = 1 ∧
      (s.upTo t).axMode a = 2 ∧
      (s.upTo t).armable a = true ∧
      pathOk = false := by
  exact ⟨takingArm, 0, 0, false, by decide⟩

theorem witness_HandoversPassBetweenUnits_5_readyReceive :
    ∃ (s : State) (t : Nat) (a : Fin 2),
      (s.upTo t).segment a = true ∧
      (s.upTo t).hears a ((s.upTo t).hovDirUp a) = true ∧
      (s.upTo t).hovTaker a = false ∧
      (s.upTo t).hovGiver a = true ∧
      (s.upTo t).running a = true ∧
      (s.upTo t).hovState a = 1 ∧
      State.hovReached ((s.upTo t).hovDirUp a) ((s.upTo t).snapMt a) ((s.upTo t).overlapEdges a ((s.upTo t).hovDirUp a) ((s.upTo t).hovDirUp a)).1 = false := by
  exact ⟨giving1, 0, 0, by decide⟩

theorem witness_HandoversPassBetweenUnits_6_readyReceive :
    ∃ (s : State) (t : Nat) (a : Fin 2),
      (s.upTo t).segment a = true ∧
      (s.upTo t).hears a ((s.upTo t).hovDirUp a) = true ∧
      (s.upTo t).hovTaker a = false ∧
      ((s.upTo t).hovGiver a = false ∨ (s.upTo t).running a = false) := by
  exact ⟨linked1, 0, 0, by decide⟩

theorem witness_HandoversPassBetweenUnits_7_stateReceive :
    ∃ (s : State) (t : Nat) (a : Fin 2) (up : Bool) (spd : BitVec 16),
      (s.upTo t).segment a = true ∧
      (s.upTo t).hears a up = true ∧
      (s.upTo t).hovTaker a = true ∧
      up = (s.upTo t).hovSideUp a ∧
      ((s.upTo t).hovState a = 2 ∨ (s.upTo t).hovState a = 4) ∧
      -32767 < signed 16 spd.toNat ∧
      signed 16 spd.toNat < 32767 := by
  exact ⟨taking.wr (F.MOT_HOV_STAT_STATE 0) 2, 0, 0, (taking.wr (F.MOT_HOV_STAT_STATE 0) 2).hovSideUp 0, 0#16, by decide⟩

theorem witness_HandoversPassBetweenUnits_8_echoReceive :
    ∃ (s : State) (t : Nat) (a : Fin 2),
      (s.upTo t).hears a ((s.upTo t).hovSideUp a) = true ∧
      (s.upTo t).hovGiver a = true ∧
      (s.upTo t).hovState a = 3 := by
  exact ⟨giving1.wr (F.MOT_HOV_STAT_STATE 0) 3, 0, 0, by decide⟩

theorem witness_HandoversPassBetweenUnits_9_releaseReceive :
    ∃ (s : State) (t : Nat) (a : Fin 2),
      (s.upTo t).hears a ((s.upTo t).hovSideUp a) = true ∧
      (s.upTo t).hovTaker a = true ∧
      (s.upTo t).hovState a = 4 := by
  exact ⟨taking.wr (F.MOT_HOV_STAT_STATE 0) 4, 0, 0, by decide⟩

theorem witness_HandoversPassBetweenUnits_10_releaseReceive :
    ∃ (s : State) (t : Nat) (a : Fin 2),
      (s.upTo t).hears a ((s.upTo t).hovSideUp a) = true ∧
      (s.upTo t).hovGiver a = true ∧
      (s.upTo t).hovTaker a = false ∧
      (s.upTo t).hovState a = 3 := by
  exact ⟨giving1.wr (F.MOT_HOV_STAT_STATE 0) 3, 0, 0, by decide⟩

theorem witness_HandoversPassBetweenUnits_11_abortReceive :
    ∃ (s : State) (t : Nat) (a : Fin 2),
      (s.upTo t).segment a = true ∧
      (s.upTo t).hears a ((s.upTo t).hovSideUp a) = true := by
  exact ⟨giving1, 0, 0, by decide⟩

theorem witness_HandoversPassBetweenUnits_12_stateFrameLoss :
    ∃ (s : State) (t : Nat) (a : Fin 2),
      (s.upTo t).hovTaker a = true ∧
      ((s.upTo t).hov a).rx.isSome = true ∧
      ((s.upTo t).hovState a = 2 ∨ (s.upTo t).hovState a = 4) ∧
      ((s.upTo t).hov a).rxAt + (((s.upTo t).hov a).lost + 1) * (s.upTo t).tickPeriod a + 2000 ≤ (s.upTo t).now := by
  exact ⟨{ taking.wr (F.MOT_HOV_STAT_STATE 0) 2 with hovs := [(0, { rx := some ⟨0, 0, 0, 0, true⟩ })] }, 10 ^ 6, 0, by decide⟩

theorem witness_HandoversPassBetweenUnits_13_idleTimeout :
    ∃ (s : State) (t : Nat) (x : Nat),
      (s.upTo t).hovIdle = some x ∧
      (s.upTo t).bit F.MOT_HOV_POL_AUTO_WATCH = true ∧
      x + max 1 ((s.upTo t).rd F.MOT_HOV_IDLE_IDLE_T) * 1000000 ≤ (s.upTo t).now ∧
      (s.upTo t).awake = true ∧
      (s.upTo t).passing = true ∧
      ((s.upTo t).axes.any (s.upTo t).running) = false := by
  exact ⟨{ live.wr F.MOT_HOV_POL_AUTO_WATCH 1 with hovIdle := some 0, cores := { fwRuns := true, passAt := some (10 ^ 12) } }, 10 ^ 12, 0, by decide⟩

theorem witness_ResetAndWakeSequencesComplete_0_resetNAssert :
    ∃ (s : State) (t : Nat),
      (s.upTo t).power.resetLow = false ∧
      (s.upTo t).power.ao = true ∧
      (s.upTo t).awake = false ∧
      (s.upTo t).power.phase = .rest ∧
      (s.upTo t).mode = 0 := by
  exact ⟨State.reset, 0, by decide⟩

theorem witness_ResetAndWakeSequencesComplete_1_resetNAssert :
    ∃ (s : State) (t : Nat),
      (s.upTo t).power.resetLow = false ∧
      (s.upTo t).power.ao = true ∧
      (s.upTo t).awake = false ∧
      ((s.upTo t).power.phase ≠ .rest ∨ (s.upTo t).mode ≠ 0) := by
  exact ⟨{ State.reset with power := { phase := .thaw } }, 0, by decide⟩

theorem witness_ResetAndWakeSequencesComplete_2_resetNAssert :
    ∃ (s : State) (t : Nat),
      (s.upTo t).power.resetLow = false ∧
      (s.upTo t).power.ao = true ∧
      (s.upTo t).awake = true := by
  exact ⟨live, 0, by decide⟩

theorem witness_ResetAndWakeSequencesComplete_3_resetNRelease :
    ∃ (s : State) (t : Nat),
      (s.upTo t).power.resetLow = true := by
  exact ⟨{ State.reset with power := { resetLow := true } }, 0, by decide⟩

theorem witness_ResetAndWakeSequencesComplete_4_wakePinRequest :
    ∃ (s : State) (t : Nat) (pin : Fin 3),
      (pin = 1 → (s.upTo t).bit F.PCK_WAKE_EN_CAN0 = true) ∧
      (pin = 2 → (s.upTo t).bit F.PCK_WAKE_EN_CAN1 = true) := by
  exact ⟨live, 0, 0, by decide⟩

theorem witness_ResetAndWakeSequencesComplete_5_railInWindow :
    ∃ (s : State) (t : Nat) (rail : Fin 4),
      (rail = 0 ∨ rail = 1) ∧
      (s.upTo t).power.en0 = true := by
  exact ⟨{ State.reset with power := { en0 := true, phase := .thaw } }, 0, 0, by decide⟩

theorem witness_ResetAndWakeSequencesComplete_6_railInWindow :
    ∃ (s : State) (t : Nat) (rail : Fin 4),
      rail = 2 ∧
      (s.upTo t).power.en1 = true ∧
      (s.upTo t).power.vcore = false := by
  exact ⟨{ State.reset with power := { en1 := true, phase := .thaw } }, 0, 2, by decide⟩

theorem witness_ResetAndWakeSequencesComplete_7_railInWindow :
    ∃ (s : State) (t : Nat) (rail : Fin 4),
      rail = 3 ∧
      (s.upTo t).power.en2 = true ∧
      (s.upTo t).power.vana = false := by
  exact ⟨{ State.reset with power := { en2 := true, phase := .thaw } }, 0, 3, by decide⟩

theorem witness_ResetAndWakeSequencesComplete_8_thawAbort :
    ∃ (s : State) (t : Nat),
      (((s.upTo t).power.en0 = true ∧ ((s.upTo t).power.vio = false ∨ (s.upTo t).power.vsafe = false)) ∨ ((s.upTo t).power.en1 = true ∧ (s.upTo t).power.vcore = false) ∨ ((s.upTo t).power.en2 = true ∧ (s.upTo t).power.vana = false)) ∧
      ((s.upTo t).power.phase = .thaw ∨ (s.upTo t).power.phase = .boot ∨ (s.upTo t).power.phase = .wakeWatch) := by
  exact ⟨{ State.reset with power := { en0 := true, phase := .thaw } }, 0, by decide⟩

theorem witness_ResetAndWakeSequencesComplete_9_railFallen :
    ∃ (s : State) (t : Nat) (en : Fin 4),
      en = 3 ∧
      (s.upTo t).power.en2 = true ∧
      (s.upTo t).power.en3 = false ∧
      ((s.upTo t).power.phase = .watchDown ∨ (s.upTo t).power.phase = .abort ∨ (s.upTo t).power.phase = .gateDown) := by
  exact ⟨{ State.reset with power := { en2 := true, phase := .watchDown } }, 0, 3, by decide⟩

theorem witness_ResetAndWakeSequencesComplete_10_railFallen :
    ∃ (s : State) (t : Nat) (en : Fin 4),
      en = 2 ∧
      (s.upTo t).power.en2 = false ∧
      (s.upTo t).power.en3 = false ∧
      (s.upTo t).power.phase = .watchDown := by
  exact ⟨{ State.reset with power := { phase := .watchDown } }, 0, 2, by decide⟩

theorem witness_ResetAndWakeSequencesComplete_11_railFallen :
    ∃ (s : State) (t : Nat) (en : Fin 4),
      en = 1 ∧
      (s.upTo t).power.en1 = false ∧
      ((s.upTo t).power.phase = .coreDown ∨ (s.upTo t).power.phase = .abort) := by
  exact ⟨{ State.reset with power := { phase := .coreDown } }, 0, 1, by decide⟩

theorem witness_ResetAndWakeSequencesComplete_12_railFallen :
    ∃ (s : State) (t : Nat) (en : Fin 4),
      en = 0 ∧
      (s.upTo t).power.en0 = false ∧
      ((s.upTo t).power.phase = .coreDown ∨ (s.upTo t).power.phase = .abort) := by
  exact ⟨{ State.reset with power := { phase := .coreDown } }, 0, 0, by decide⟩

theorem witness_ResetAndWakeSequencesComplete_13_aoPowerOn :
    ∃ (s : State) (t : Nat),
      ((s.upTo t).power.ao = false ∨ (s.upTo t).power.born = true) := by
  exact ⟨State.reset, 0, by decide⟩

theorem witness_ResetAndWakeSequencesComplete_14_aoBrownOut :
    ∃ (s : State) (t : Nat),
      (s.upTo t).power.ao = true := by
  exact ⟨live, 0, by decide⟩

theorem witness_ClocksDomainsAndShutdownComplete_0_domainLost :
    ∃ (s : State) (t : Nat) (d : LostDomain),
      (s.upTo t).awake = true ∧
      d = .ana ∧
      (s.upTo t).anaOn = true := by
  exact ⟨live, 0, .ana, by decide⟩

theorem witness_ClocksDomainsAndShutdownComplete_1_domainLost :
    ∃ (s : State) (t : Nat) (d : LostDomain),
      (s.upTo t).awake = true ∧
      d = .ctl ∧
      (s.upTo t).ctlOn = true := by
  exact ⟨live, 0, .ctl, by decide⟩

theorem witness_ClocksDomainsAndShutdownComplete_2_domainLost :
    ∃ (s : State) (t : Nat) (d : LostDomain),
      (s.upTo t).awake = true ∧
      d = .comm ∧
      (s.upTo t).commOn = true := by
  exact ⟨live, 0, .comm, by decide⟩

theorem witness_ClocksDomainsAndShutdownComplete_3_domainLost :
    ∃ (s : State) (t : Nat) (d : LostDomain),
      (s.upTo t).awake = true ∧
      d = .cpu ∧
      (s.upTo t).cpuOn = true := by
  exact ⟨live, 0, .cpu, by decide⟩

theorem witness_ClocksDomainsAndShutdownComplete_4_domainLost :
    ∃ (s : State) (t : Nat) (d : LostDomain),
      (s.upTo t).awake = true ∧
      d = .safe ∧
      (s.upTo t).safeOn = true := by
  exact ⟨live, 0, .safe, by decide⟩

theorem witness_ClocksDomainsAndShutdownComplete_5_domainLost :
    ∃ (s : State) (t : Nat) (d : LostDomain),
      (s.upTo t).awake = true ∧
      d = .io ∧
      (s.upTo t).power.io = true := by
  exact ⟨live, 0, .io, by decide⟩

theorem witness_ClocksDomainsAndShutdownComplete_6_domainLost :
    ∃ (s : State) (t : Nat) (d : LostDomain),
      (s.upTo t).awake = true ∧
      d = .vcore ∧
      (s.upTo t).power.vcore = true := by
  exact ⟨live, 0, .vcore, by decide⟩

theorem witness_ClocksDomainsAndShutdownComplete_7_domainLost :
    ∃ (s : State) (t : Nat) (d : LostDomain) (n : Fin 12),
      (s.upTo t).awake = true ∧
      d = .gdrv n ∧
      (s.upTo t).unused n = false := by
  exact ⟨live, 0, .gdrv 11, 11, by decide⟩

theorem witness_ClocksDomainsAndShutdownComplete_8_domainLost :
    ∃ (s : State) (t : Nat) (d : LostDomain) (n : Fin 12),
      (s.upTo t).awake = true ∧
      d = .gdrv n ∧
      (s.upTo t).unused n = true := by
  exact ⟨unusedLeg, 0, .gdrv 11, 11, by decide⟩

theorem witness_ClocksDomainsAndShutdownComplete_9_pllLock :
    ∃ (s : State) (t : Nat) (b : Bool),
      (s.upTo t).power.vcore = true ∧
      (s.upTo t).power.resetLow = false ∧
      (s.upTo t).pllLocked b = false := by
  exact ⟨{ State.reset with power := { vcore := true } }, 0, true, by decide⟩

theorem witness_ClocksDomainsAndShutdownComplete_10_pllLossOfLock :
    ∃ (s : State) (t : Nat) (b : Bool),
      (s.upTo t).pllLocked b = true := by
  exact ⟨{ live with power := { live.power with pllA := true } }, 0, false, by decide⟩

theorem witness_ClocksDomainsAndShutdownComplete_11_xtalFail :
    ∃ (s : State) (t : Nat),
      (s.upTo t).power.xtal = true := by
  exact ⟨{ live with power := { live.power with xtal := true } }, 0, by decide⟩

theorem witness_ClocksDomainsAndShutdownComplete_12_refChangeoverDone :
    ∃ (s : State) (t : Nat),
      (s.upTo t).power.changeover = true ∧
      (s.upTo t).cpuOn = true := by
  exact ⟨{ live with power := { live.power with changeover := true } }, 0, by decide⟩

theorem witness_ClocksDomainsAndShutdownComplete_13_xtal25Stable :
    ∃ (s : State) (t : Nat),
      (s.upTo t).power.vcore = true ∧
      (s.upTo t).cpuOn = true ∧
      (s.upTo t).power.xtal = false := by
  exact ⟨live, 0, by decide⟩

theorem witness_ClocksDomainsAndShutdownComplete_15_alarmExpire :
    ∃ (s : State) (t : Nat),
      (s.upTo t).rd F.PCK_ALARM_ALARM_S ≠ 0 ∧
      (s.upTo t).power.alarmAt + (s.upTo t).rd F.PCK_ALARM_ALARM_S * 1000000000 ≤ (s.upTo t).now := by
  exact ⟨live.setReg R.PCK_ALARM 1#32, 1000000000, by decide⟩

theorem witness_ClocksDomainsAndShutdownComplete_16_ctKeeperTick :
    ∃ (s : State) (t : Nat),
      (s.upTo t).ctRuns = false ∧
      (s.upTo t).power.ao = true := by
  exact ⟨State.reset, 0, by decide⟩

theorem witness_ClocksDomainsAndShutdownComplete_17_shutdownBistDone :
    ∃ (s : State) (t : Nat),
      (s.upTo t).power.phase = .bist := by
  exact ⟨{ State.reset with power := { phase := .bist } }, 0, by decide⟩

theorem witness_ClocksDomainsAndShutdownComplete_18_bootComplete :
    ∃ (s : State) (t : Nat),
      (s.upTo t).cpuOn = true ∧
      (((s.upTo t).power.phase = .boot ∧ (s.upTo t).rd F.SEC_BOOT_STAT_STATE = 1) ∨ ((s.upTo t).power.phase = .wakeWatch ∧ (s.upTo t).bothLocked = true)) := by
  exact ⟨{ live.wr F.SEC_BOOT_STAT_STATE 1 with power := { live.power with phase := .boot } }, 0, by decide⟩

theorem witness_SafeTorqueOffAndStopsComplete_0_stoDemand :
    ∃ (s : State) (t : Nat) (a : Bool) (b : Bool) (held : Nat),
      (s.upTo t).safeOn = true ∧
      (a = false ∨ b = false) ∧
      10000 * max 10 ((s.upTo t).uz F.BLK_STO_STO_FILT) ≤ held := by
  exact ⟨live, 0, false, true, 2550000, by decide⟩

theorem witness_SafeTorqueOffAndStopsComplete_1_stoRelease :
    ∃ (s : State) (t : Nat),
      (s.upTo t).safeOn = true ∧
      (s.upTo t).power.io = true := by
  exact ⟨live, 0, by decide⟩

theorem witness_SafeTorqueOffAndStopsComplete_2_stoDiscrepancy :
    ∃ (s : State) (t : Nat),
      (s.upTo t).safeOn = true ∧
      (s.upTo t).bit F.SAF_STAT_STO_A ≠ (s.upTo t).bit F.SAF_STAT_STO_B ∧
      (s.upTo t).stood (s.upTo t).saf.diffAt (max 1 ((s.upTo t).uz F.BLK_STO_DISC_T) * 10000000) = true ∧
      (s.upTo t).bit F.SAF_STAT_STO_DISC = false := by
  exact ⟨{ live.wr F.SAF_STAT_STO_A 1 with saf := { diffAt := some 0 } }, 10 ^ 11, by decide⟩

theorem witness_SafeTorqueOffAndStopsComplete_4_ss1End :
    ∃ (s : State) (t : Nat) (a : Fin 2) (zero : Bool) (f : PosFrame),
      (s.upTo t).safeOn = true ∧
      (s.upTo t).bit (State.fSs1 a) = true ∧
      zero = true ∧
      (s.upTo t).frameGood a = some f ∧
      (s.upTo t).stood ((s.upTo t).uzAx a).slowAt 10000000 = true := by
  exact ⟨ss1Slow, 10 ^ 7, 0, true, ss1Frame, by decide⟩

theorem witness_SafeTorqueOffAndStopsComplete_5_ss1End :
    ∃ (s : State) (t : Nat) (a : Fin 2) (zero : Bool),
      (s.upTo t).safeOn = true ∧
      (s.upTo t).bit (State.fSs1 a) = true ∧
      zero = false ∧
      ((s.upTo t).uzAx a).ss1Deadline ≤ (s.upTo t).now := by
  exact ⟨live.wr (State.fSs1 0) 1, 0, 0, false, by decide⟩

theorem witness_SafeTorqueOffAndStopsComplete_6_brakeStepEnd :
    ∃ (s : State) (t : Nat) (a : Fin 2),
      ((s.upTo t).uzAx a).brakeStep = true ∧
      ((s.upTo t).uzAx a).stepAt + (s.upTo t).uz F.BLK_TP_BRK_T * 10000000 ≤ (s.upTo t).now := by
  exact ⟨{ live with uzs := [(0, { brakeStep := true })] }, 10 ^ 12, 0, by decide⟩

theorem witness_SafeTorqueOffAndStopsComplete_7_ascExitTimer :
    ∃ (s : State) (t : Nat) (a : Fin 2) (e : Int),
      (s.upTo t).axMode a = 5 ∧
      (((s.upTo t).uzAx a).why = .rowAuto ∨ ((s.upTo t).uzAx a).why = .rowHalf) ∧
      State.isShort ((s.upTo t).uzAx a).gate = true ∧
      (s.upTo t).emf a = some e.toNat ∧
      (s.upTo t).measured = true ∧
      (s.upTo t).emfAtLeast a e.toNat ((s.upTo t).uz F.BLK_ASC_ASC_EXIT) 256 = false ∧
      (s.upTo t).stood ((s.upTo t).uzAx a).lowAt 10000000 = true ∧
      (s.upTo t).gateFixed a = false := by
  exact ⟨shortLow, 10 ^ 7, 0, 0, by decide, by decide, by decide, by decide, by decide, short_low, by decide, by decide⟩

theorem witness_SafeTorqueOffAndStopsComplete_8_uzodarEmfCompute :
    ∃ (s : State) (t : Nat),
      (s.upTo t).safeOn = true ∧
      (s.upTo t).measured = true := by
  exact ⟨measuring, 0, by decide⟩

theorem witness_TorqueLimpAndOutputChecksComplete_0_torqueMonitorEval :
    ∃ (s : State) (t : Nat) (a : Fin 2) (f : PosFrame),
      (s.upTo t).safeOn = true ∧
      (s.upTo t).running a = true ∧
      ((s.upTo t).uzAx a).gotI = true ∧
      (s.upTo t).frameGood a = some f ∧
      (s.upTo t).now < f.at_ + 1000000 := by
  exact ⟨monitored, 0, 0, ⟨0, 0, 2, false, 0, 0⟩, by decide⟩

theorem witness_TorqueLimpAndOutputChecksComplete_1_limpWarning :
    ∃ (s : State) (t : Nat) (a : Fin 2),
      ((s.upTo t).limpCount a).axMode a = 4 ∧
      10 < ((s.upTo t).limpCount a).limpMax ∧
      (((s.upTo t).limpCount a).uzAx a).limpWarned = false ∧
      ((s.upTo t).limpCount a).limpMax * 1000000000 ≤ (((s.upTo t).limpCount a).uzAx a).limpNs + 10000000000 := by
  exact ⟨limpedOut, 0, 0, by decide⟩

theorem witness_TorqueLimpAndOutputChecksComplete_2_limpTimeout :
    ∃ (s : State) (t : Nat) (a : Fin 2),
      ((s.upTo t).limpCount a).axMode a = 4 ∧
      ((s.upTo t).limpCount a).limpMax * 1000000000 ≤ (((s.upTo t).limpCount a).uzAx a).limpNs := by
  exact ⟨limpedOut, 0, 0, by decide⟩

theorem witness_TorqueLimpAndOutputChecksComplete_3_limpSpeedTimeout :
    ∃ (s : State) (t : Nat) (a : Fin 2) (f : PosFrame),
      (s.upTo t).axMode a = 4 ∧
      (s.upTo t).frameGood a = some f ∧
      (s.upTo t).stood ((s.upTo t).uzAx a).fastAt 100000000 = true := by
  exact ⟨{ limping with uzs := [(0, { frame := some fastFrame, fastAt := some 0 })] }, 10 ^ 8, 0, fastFrame, by decide⟩

theorem witness_TorqueLimpAndOutputChecksComplete_4_testPulse :
    ∃ (s : State) (t : Nat) (n : Fin 6) (hs : Bool) (x : Nat),
      (s.upTo t).safeOn = true ∧
      (s.upTo t).soUsed n = true ∧
      (s.upTo t).soCause n = 0 ∧
      (s.upTo t).pulseStart n hs = some x ∧
      (s.upTo t).now ≤ x + (s.upTo t).tpWidth ∧
      kvGet (fun _ => 0) (s.upTo t).saf.soAt n ≤ x := by
  exact ⟨brakeOut, 0, 0, true, 0, by decide⟩

theorem witness_TorqueLimpAndOutputChecksComplete_5_soShortTimeout :
    ∃ (s : State) (t : Nat) (n : Fin 6),
      (s.upTo t).safeOn = true ∧
      (s.upTo t).soUsed n = true ∧
      ((s.upTo t).saf.soPulse.any fun p => p.1 == n.val && decide ((s.upTo t).now < p.2.2)) = false := by
  exact ⟨brakeOut, 0, 0, by decide⟩

theorem witness_TorqueLimpAndOutputChecksComplete_6_brakeTestPhaseEnd :
    ∃ (s : State) (t : Nat) (b : BrakeTest),
      (s.upTo t).saf.btest = some b ∧
      b.second = false ∧
      b.since + max 1 ((s.upTo t).uz F.BLK_BTEST_TEST_T) * 100000000 ≤ (s.upTo t).now := by
  exact ⟨{ live with saf := { btest := some { axis := 0 } } }, 10 ^ 12, { axis := 0 }, by decide⟩

theorem witness_TorqueLimpAndOutputChecksComplete_7_brakeTestPhaseEnd :
    ∃ (s : State) (t : Nat) (b : BrakeTest),
      (s.upTo t).saf.btest = some b ∧
      b.second = true ∧
      b.since + max 1 ((s.upTo t).uz F.BLK_BTEST_TEST_T) * 100000000 ≤ (s.upTo t).now := by
  exact ⟨{ live with saf := { btest := some { axis := 0, second := true } } }, 10 ^ 12, { axis := 0, second := true }, by decide⟩

theorem witness_TorqueLimpAndOutputChecksComplete_8_brakeTestDue :
    ∃ (s : State) (t : Nat) (a : Fin 2),
      (s.upTo t).safeOn = true ∧
      (s.upTo t).uz F.BLK_BTINT_BT_INT ≠ 0 ∧
      ((s.upTo t).uzAx a).btDue = false ∧
      (((s.upTo t).uzAx a).btPassAt = 0 ∨ ((s.upTo t).uzAx a).btPassAt + (s.upTo t).uz F.BLK_BTINT_BT_INT * 3600000000000 ≤ (s.upTo t).now) := by
  exact ⟨btInterval, 0, 0, by decide⟩

theorem witness_ContactorsAndUzodarSelfChecksComplete_0_prechargeReached :
    ∃ (s : State) (t : Nat) (x : Nat),
      (s.upTo t).saf.precharge = .co1 x ∧
      (s.upTo t).measured = true ∧
      ((32768 * (s.upTo t).uz F.BLK_PRECH_PRECH_V : Nat) : Int) ≤ (s.upTo t).vdcSmaller * Config.vfsVolts ∧
      (Config.co1Unused = true ∨ x + (s.upTo t).uz F.BLK_CON_PRECH_MIN * 10000000 ≤ (s.upTo t).now) := by
  exact ⟨precharging, 10 ^ 12, 0, by decide, by decide, precharge_high, Or.inr (by decide)⟩

theorem witness_ContactorsAndUzodarSelfChecksComplete_1_prechargeCo1Open :
    ∃ (s : State) (t : Nat) (x : Nat),
      (s.upTo t).saf.precharge = .line x ∧
      x + 100000000 ≤ (s.upTo t).now := by
  exact ⟨{ live with saf := { precharge := .line 0 } }, 100000000, 0, by decide⟩

theorem witness_ContactorsAndUzodarSelfChecksComplete_2_prechargeTimeout :
    ∃ (s : State) (t : Nat) (x : Nat),
      (s.upTo t).saf.precharge = .co1 x ∧
      x + max 1 ((s.upTo t).uz F.BLK_CON_PRECH_MAX) * 100000000 ≤ (s.upTo t).now := by
  exact ⟨precharging, 10 ^ 12, 0, by decide⟩

theorem witness_ContactorsAndUzodarSelfChecksComplete_3_contactorFeedbackFault :
    ∃ (s : State) (t : Nat) (n : Fin 2),
      (s.upTo t).safeOn = true ∧
      n = 0 ∧
      (s.upTo t).saf.co0At + max 1 ((s.upTo t).uz F.BLK_CON_FB_T) * 10000000 + 20000000 ≤ (s.upTo t).now := by
  exact ⟨live, 10 ^ 12, 0, by decide⟩

theorem witness_ContactorsAndUzodarSelfChecksComplete_4_contactorFeedbackFault :
    ∃ (s : State) (t : Nat) (n : Fin 2),
      (s.upTo t).safeOn = true ∧
      n = 1 ∧
      (s.upTo t).saf.co1At + max 1 ((s.upTo t).uz F.BLK_CON_FB_T) * 10000000 + 20000000 ≤ (s.upTo t).now := by
  exact ⟨live, 10 ^ 12, 1, by decide⟩

theorem witness_ContactorsAndUzodarSelfChecksComplete_5_shadowCompare :
    ∃ (s : State) (t : Nat),
      (s.upTo t).safeOn = true ∧
      (s.upTo t).cpuOn = true ∧
      (s.upTo t).bit F.SAF_STAT_SHADOW = true ∧
      (s.upTo t).bit F.BLK_CTL_LOCK = true ∧
      (s.upTo t).shadowSame = false := by
  exact ⟨shadowed, 0, by decide⟩

theorem witness_ContactorsAndUzodarSelfChecksComplete_6_uzodarSelfTest :
    ∃ (s : State) (t : Nat),
      (s.upTo t).safeOn = true ∧
      (s.upTo t).axes.any (s.upTo t).running = false := by
  exact ⟨live, 0, by decide⟩

theorem witness_ContactorsAndUzodarSelfChecksComplete_7_selfTestOverdue :
    ∃ (s : State) (t : Nat),
      (s.upTo t).safeOn = true ∧
      (s.upTo t).saf.selfDue = false ∧
      (s.upTo t).saf.selfAt + 86400000000000 ≤ (s.upTo t).now := by
  exact ⟨live, 86400000000000, by decide⟩

theorem witness_ContactorsAndUzodarSelfChecksComplete_8_laneFault :
    ∃ (s : State) (t : Nat),
      (s.upTo t).safeOn = true ∧
      (s.upTo t).bit F.SAF_STAT_LANE_FAULT = false := by
  exact ⟨live, 0, by decide⟩

theorem witness_ContactorsAndUzodarSelfChecksComplete_9_coreTimeout :
    ∃ (s : State) (t : Nat),
      (s.upTo t).safeOn = true ∧
      (s.upTo t).awake = true ∧
      (s.upTo t).saf.ckptAt + max 1 ((s.upTo t).uz F.BLK_ASC_CORE_T) * 1000000 ≤ (s.upTo t).now := by
  exact ⟨live, 10 ^ 12, by decide⟩

theorem witness_DischargeEndsAsTheRuleSays_0_dischargeEnd :
    ∃ (s : State) (t : Nat) (x : Nat),
      (s.upTo t).saf.discharge = .active x ∧
      (s.upTo t).measured = true ∧
      (s.upTo t).stood (s.upTo t).saf.safeAt 10000000 = true := by
  exact ⟨{ dischargedLow with saf := { dischargedLow.saf with safeAt := some 0 } }, 10 ^ 7, 0, by decide⟩

theorem witness_DischargeEndsAsTheRuleSays_1_dischargeTimeout :
    ∃ (s : State) (t : Nat) (x : Nat),
      (s.upTo t).saf.discharge = .active x ∧
      x + max 1 ((s.upTo t).uz F.BLK_DCH_DCH_TMAX) * 100000000 ≤ (s.upTo t).now ∧
      (s.upTo t).measured = true := by
  exact ⟨dischargedLow, 10 ^ 12, 0, by decide⟩

theorem witness_DischargeEndsAsTheRuleSays_2_dischargeTimeout :
    ∃ (s : State) (t : Nat) (x : Nat),
      (s.upTo t).saf.discharge = .active x ∧
      x + max 1 ((s.upTo t).uz F.BLK_DCH_DCH_TMAX) * 100000000 ≤ (s.upTo t).now ∧
      (s.upTo t).measured = false := by
  exact ⟨dischargedBlind, 10 ^ 12, 0, by decide⟩

theorem witness_DischargeEndsAsTheRuleSays_3_dischargeTimeout :
    ∃ (s : State) (t : Nat) (x : Nat),
      (s.upTo t).saf.discharge = .active x ∧
      (s.upTo t).now < x + max 1 ((s.upTo t).uz F.BLK_DCH_DCH_TMAX) * 100000000 := by
  exact ⟨dischargedLow, 0, 0, by decide⟩

theorem witness_DischargeEndsAsTheRuleSays_4_dischargeStart :
    ∃ (s : State) (t : Nat),
      (s.upTo t).safeOn = true ∧
      (s.upTo t).bit F.SAF_STAT_SHADOW = true ∧
      (s.upTo t).bit F.SAF_STAT_FB0 = true ∧
      (s.upTo t).saf.discharge = .waitFb ∧
      (s.upTo t).bit F.SAF_STAT_CO0_CMD = false ∧
      (s.upTo t).saf.co0At + 10000000 ≤ (s.upTo t).now := by
  exact ⟨{ (live.wr F.SAF_STAT_SHADOW 1).wr F.SAF_STAT_FB0 1 with saf := { discharge := .waitFb } }, 10 ^ 7, by decide⟩

theorem witness_DischargeEndsAsTheRuleSays_5_dchCoolExpire :
    ∃ (s : State) (t : Nat),
      (s.upTo t).saf.discharge = .cool ∧
      (∀ x, (s.upTo t).saf.dchTmaxAt = some x → x + (s.upTo t).uz F.BLK_DCH_DCH_COOL * 1000000000 ≤ (s.upTo t).now) := by
  exact ⟨{ live with saf := { discharge := .cool } }, 0, by decide⟩

theorem witness_DesaturationIsMaskedWhileBlanking_0_desaturation :
    ∃ (s : State) (t : Nat) (n : Fin 12),
      ((s.upTo t).ch n).st = .on ∧
      ((s.upTo t).ch n).blanked = false := by
  exact ⟨{ live with gates := [(0, { st := .on })] }, 0, 0, by decide⟩

theorem witness_DesaturationIsMaskedWhileBlanking_1_hardShort :
    ∃ (s : State) (t : Nat) (n : Fin 12),
      ((s.upTo t).ch n).blanked = false ∧
      (s.upTo t).mayTake n 5 (fun x => x == .on) = true ∧
      (s.upTo t).chBit n 1 (F.GDC_DESAT_HS_EN n) = true := by
  exact ⟨{ gateShort with gates := [(0, { st := .on, copy := shortWords })] }, 0, 0, by decide⟩

theorem witness_ScanInstructionsDrivePadsUnderStoOnly_0_boundaryScanInstruction :
    ∃ (s : State) (t : Nat),
      (s.upTo t).power.io = true := by
  exact ⟨live, 0, by decide⟩

theorem witness_BrakeCoilIsJudgedAgainstItsOutput_0_brakeCoilCheck :
    ∃ (s : State) (t : Nat),
      (s.upTo t).anaOn = true ∧
      (s.upTo t).safeOn = true ∧
      (s.upTo t).rd F.HKP_BRK_BRK_SO < 6 ∧
      (s.upTo t).bit (F.HKP_VAL_VALID 19) = true ∧
      kvGet (fun _ => 0) (s.upTo t).saf.soAt ((s.upTo t).rd F.HKP_BRK_BRK_SO) + 100000000 ≤ (s.upTo t).now := by
  exact ⟨(live.wr F.HKP_BRK_BRK_SO 5).wr (F.HKP_VAL_VALID 19) 1, 100000000, by decide⟩

theorem witness_HousekeepingRoundsComplete_0_hkpRound :
    ∃ (s : State) (t : Nat),
      (s.upTo t).anaOn = true ∧
      (s.upTo t).power.phase ≠ .watchDown ∧
      ((s.upTo t).power.phase ≠ .rest ∨ 1 < (s.upTo t).mode) := by
  exact ⟨live, 0, by decide⟩

theorem witness_HousekeepingRoundsComplete_1_hkpRound :
    ∃ (s : State) (t : Nat),
      ((s.upTo t).anaOn = false ∨ (s.upTo t).power.phase = .watchDown ∨ ((s.upTo t).power.phase = .rest ∧ (s.upTo t).mode ≤ 1)) := by
  exact ⟨State.reset, 0, by decide⟩

theorem witness_CoresVoteHaltAndResume_0_checkpointInstant :
    ∃ (s : State) (t : Nat),
      (s.upTo t).coresRun = true ∧
      (s.upTo t).pacerDue = true := by
  exact ⟨paced, 10 ^ 9, by decide⟩

theorem witness_CoresVoteHaltAndResume_1_checkpointPortWrite :
    ∃ (s : State) (t : Nat) (core : Fin 3),
      (s.upTo t).atWork core = true := by
  exact ⟨working, 0, 0, by decide⟩

theorem witness_CoresVoteHaltAndResume_2_replicatedRead :
    ∃ (s : State) (t : Nat) (core : Fin 3) (addr : BitVec 32),
      (s.upTo t).atWork core = true ∧
      (s.upTo t).pmpAllows core false addr.toNat = true ∧
      0x20000000 ≤ addr.toNat ∧
      addr.toNat < 0x20100000 ∧
      kvGet (fun _ => 0) (s.upTo t).cores.rdCnt core < 1024 ∧
      (s.upTo t).cores.rdVals[kvGet (fun _ => 0) (s.upTo t).cores.rdCnt core]? = none := by
  exact ⟨working, 0, 0, 0x200FFFFF#32, by decide⟩

theorem witness_CoresVoteHaltAndResume_3_replicatedRead :
    ∃ (s : State) (t : Nat) (core : Fin 3) (addr : BitVec 32),
      (s.upTo t).atWork core = true ∧
      (s.upTo t).pmpAllows core false addr.toNat = true ∧
      addr.toNat < 0x40000 := by
  exact ⟨working, 0, 0, 0x3FFFF#32, by decide⟩

theorem witness_CoresVoteHaltAndResume_4_replicatedRead :
    ∃ (s : State) (t : Nat) (core : Fin 3) (addr : BitVec 32),
      (s.upTo t).atWork core = true ∧
      (s.upTo t).pmpAllows core false addr.toNat = true ∧
      0x10000000 ≤ addr.toNat ∧
      addr.toNat < 0x10080000 := by
  exact ⟨working, 0, 0, 0x1007FFFF#32, by decide⟩

theorem witness_CoresVoteHaltAndResume_5_replicatedRead :
    ∃ (s : State) (t : Nat) (core : Fin 3) (addr : BitVec 32),
      (s.upTo t).atWork core = true ∧
      (s.upTo t).pmpAllows core false addr.toNat = true ∧
      0x50000000 ≤ addr.toNat ∧
      addr.toNat < 0x50010000 := by
  exact ⟨working, 0, 0, 0x5000FFFF#32, by decide⟩

theorem witness_CoresVoteHaltAndResume_6_replicatedRead :
    ∃ (s : State) (t : Nat) (core : Fin 3) (addr : BitVec 32),
      (s.upTo t).pmpAllows core false addr.toNat = false := by
  exact ⟨barred, 0, 0, 0x40110000#32, by decide⟩

theorem witness_CoresVoteHaltAndResume_7_replicatedRead :
    ∃ (s : State) (t : Nat) (core : Fin 3) (addr : BitVec 32),
      (s.upTo t).atWork core = true ∧
      (s.upTo t).pmpAllows core false addr.toNat = true ∧
      0x40000000 ≤ addr.toNat ∧
      addr.toNat < 0x40120000 ∧
      kvGet (fun _ => 0) (s.upTo t).cores.rdCnt core < 1024 ∧
      (s.upTo t).cores.rdVals[kvGet (fun _ => 0) (s.upTo t).cores.rdCnt core]? = none := by
  exact ⟨working, 0, 0, 0x40000000#32, by decide⟩

theorem witness_CoresVoteHaltAndResume_8_replicatedRead :
    ∃ (s : State) (t : Nat) (core : Fin 3) (addr : BitVec 32) (x : Word),
      (s.upTo t).atWork core = true ∧
      (s.upTo t).pmpAllows core false addr.toNat = true ∧
      ((0x20000000 ≤ addr.toNat ∧ addr.toNat < 0x20100000) ∨ (0x40000000 ≤ addr.toNat ∧ addr.toNat < 0x40120000)) ∧
      kvGet (fun _ => 0) (s.upTo t).cores.rdCnt core < 1024 ∧
      (s.upTo t).cores.rdVals[kvGet (fun _ => 0) (s.upTo t).cores.rdCnt core]? = some x := by
  exact ⟨{ working with cores := { working.cores with rdVals := [7#32] } }, 0, 0, 0x20000000#32, 7#32, by decide⟩

theorem witness_CoresVoteHaltAndResume_9_resyncComplete :
    ∃ (s : State) (t : Nat) (n : Nat),
      (s.upTo t).cores.sitting = some n ∧
      (s.upTo t).cpuOn = true ∧
      (s.upTo t).copying = true := by
  exact ⟨copyingCore, 0, 2, by decide⟩

theorem witness_CoresVoteHaltAndResume_10_localSramEccError :
    ∃ (s : State) (t : Nat) (core : Fin 3),
      (s.upTo t).atWork core = true := by
  exact ⟨working, 0, 0, by decide⟩

theorem witness_CoresVoteHaltAndResume_11_restart :
    ∃ (s : State) (t : Nat),
      (s.upTo t).cpuOn = true ∧
      2 ≤ (s.upTo t).rd F.CPX_STAT_VOTE ∧
      (s.upTo t).mode = 5 := by
  exact ⟨(live.wr F.CPX_STAT_VOTE 2).wr F.SYS_MODE_MODE 5, 0, by decide⟩

theorem witness_CoresVoteHaltAndResume_12_debugHalt :
    ∃ (s : State) (t : Nat) (core : Fin 3),
      (s.upTo t).cpuOn = true ∧
      (s.upTo t).bit F.SEC_DBG_STAT_HALT = true ∧
      (s.upTo t).fenced core = false ∧
      (s.upTo t).halted core = false := by
  exact ⟨live.wr F.SEC_DBG_STAT_HALT 1, 0, 0, by decide⟩

theorem witness_CoresVoteHaltAndResume_13_debugResume :
    ∃ (s : State) (t : Nat) (core : Fin 3),
      (s.upTo t).cpuOn = true ∧
      (s.upTo t).halted core = true := by
  exact ⟨live.wr ⟨R.CPX_STAT, 6, 1⟩ 1, 0, 0, by decide⟩

theorem witness_RecoveryDebugAndAttestComplete_0_recoveryGo :
    ∃ (s : State) (t : Nat),
      (s.upTo t).cpuOn = true ∧
      (s.upTo t).rd F.SEC_BOOT_STAT_STATE = 2 := by
  exact ⟨live.wr F.SEC_BOOT_STAT_STATE 2, 0, by decide⟩

theorem witness_RecoveryDebugAndAttestComplete_1_debugChallengeRead :
    ∃ (s : State) (t : Nat),
      (s.upTo t).cpuOn = true := by
  exact ⟨live, 0, by decide⟩

theorem witness_RecoveryDebugAndAttestComplete_2_debugResponse :
    ∃ (s : State) (t : Nat),
      (s.upTo t).cpuOn = true ∧
      (s.upTo t).rd F.SYS_MODE_PHASE ≠ 1 ∧
      (s.upTo t).rd F.BLK_DBG_POLICY ≠ 0 ∧
      (s.upTo t).rd F.BLK_DBG_POLICY ≠ 3 ∧
      (s.upTo t).bit F.SEC_DBG_STAT_LOCKOUT = false ∧
      (s.upTo t).unmirrored < 2048 := by
  exact ⟨live.wr F.BLK_DBG_POLICY 1, 0, by decide⟩

theorem witness_RecoveryDebugAndAttestComplete_3_attestComplete :
    ∃ (s : State) (t : Nat) (c : Cmd) (x : Nat),
      (s.upTo t).sec.attest = some (c, x) ∧
      (s.upTo t).cpuOn = true := by
  exact ⟨{ live with sec := { attest := some (cmd0, 0) } }, 0, cmd0, 0, by decide⟩

theorem witness_RegistersReadAndWrite_0_registerWrite :
    ∃ (s : State) (t : Nat) (bar2 : Bool),
      bar2 = false := by
  exact ⟨live, 0, false, by decide⟩

theorem witness_RegistersReadAndWrite_1_registerWrite :
    ∃ (s : State) (t : Nat) (bar2 : Bool),
      bar2 = true := by
  exact ⟨live, 0, true, by decide⟩

theorem witness_RegistersReadAndWrite_2_splitLoRead :
    ∃ (s : State) (t : Nat) (bar2 : Bool),
      bar2 = true := by
  exact ⟨live, 0, true, by decide⟩

theorem witness_RegistersReadAndWrite_3_splitLoRead :
    ∃ (s : State) (t : Nat) (bar2 : Bool),
      bar2 = false := by
  exact ⟨live, 0, false, by decide⟩

theorem witness_RegistersReadAndWrite_4_journalApertureRead :
    ∃ (s : State) (t : Nat) (slot : Nat),
      slot < 1024 := by
  exact ⟨live, 0, 1023, by decide⟩

theorem witness_RingsAndLinkComplete_0_doorbell :
    ∃ (s : State) (t : Nat) (r : Fin 11),
      (s.upTo t).hostOpen = true ∧
      (s.upTo t).bit (F.HIF_RCFG_EN r) = true ∧
      r.val < 4 := by
  exact ⟨ringUp, 0, 0, by decide⟩

theorem witness_RingsAndLinkComplete_1_doorbell :
    ∃ (s : State) (t : Nat) (r : Fin 11),
      (s.upTo t).hostOpen = true ∧
      (s.upTo t).bit (F.HIF_RCFG_EN r) = true ∧
      4 ≤ r.val := by
  exact ⟨live.wr (F.HIF_RCFG_EN 8) 1, 0, 8, by decide⟩

theorem witness_RingsAndLinkComplete_2_doorbell :
    ∃ (s : State) (t : Nat) (r : Fin 11),
      (s.upTo t).hostOpen = true ∧
      (s.upTo t).bit (F.HIF_RCFG_EN r) = false := by
  exact ⟨live, 0, 0, by decide⟩

theorem witness_RingsAndLinkComplete_3_ringEnable :
    ∃ (s : State) (t : Nat) (r : Fin 11),
      (s.upTo t).hostOpen = true ∧
      (s.upTo t).bit (F.HIF_RCFG_EN r) = false := by
  exact ⟨live, 0, 0, by decide⟩

theorem witness_RingsAndLinkComplete_4_descriptorFetch :
    ∃ (s : State) (t : Nat) (r : Fin 4),
      (s.upTo t).canFetch r = true ∧
      (List.range r.val).any (s.upTo t).canFetch = false := by
  exact ⟨ringFull, 0, 0, by decide⟩

theorem witness_RingsAndLinkComplete_5_tlmHeartbeat :
    ∃ (s : State) (t : Nat) (k : Fin 2),
      (s.upTo t).commOn = true ∧
      (s.upTo t).bit (F.HIF_TLM_CFG_EN k) = true ∧
      ((s.upTo t).str k).lastAt + 10000000 ≤ (s.upTo t).now := by
  exact ⟨live.wr (F.HIF_TLM_CFG_EN 0) 1, 10000000, 0, by decide⟩

theorem witness_RingsAndLinkComplete_6_eventBacklogWrite :
    ∃ (s : State) (t : Nat),
      (s.upTo t).commOn = true := by
  exact ⟨live, 0, by decide⟩

theorem witness_RingsAndLinkComplete_7_irqHoldExpire :
    ∃ (s : State) (t : Nat) (v : Fin 32) (r : Nat) (rest : List Nat),
      (List.range 11).filter (fun r => kvGet (fun _ => false) (s.upTo t).hif.irqHeld r && (s.upTo t).rd (F.HIF_RCFG_VEC r) == v.val) = r :: rest ∧
      (s.upTo t).commOn = true ∧
      kvGet (fun _ => 0) (s.upTo t).hif.irqAt v - 1 + (s.upTo t).rd F.HIF_CTL_IRQ_HOLD * 1000 ≤ (s.upTo t).now := by
  exact ⟨{ live with hif := { irqHeld := [(8, true)] } }, 10 ^ 9, 0, 8, [], by decide⟩

theorem witness_RingsAndLinkComplete_8_hostWatchdogExpire :
    ∃ (s : State) (t : Nat),
      (s.upTo t).commOn = true ∧
      (s.upTo t).bit F.HIF_CTL_WD_EN = true ∧
      (s.upTo t).hif.fedAt + max 1 ((s.upTo t).rd F.HIF_CTL_WD_T) * 1000000 ≤ (s.upTo t).now := by
  exact ⟨live.wr F.HIF_CTL_WD_EN 1, 10 ^ 12, by decide⟩

theorem witness_RingsAndLinkComplete_9_hotReset :
    ∃ (s : State) (t : Nat),
      (s.upTo t).commOn = true := by
  exact ⟨live, 0, by decide⟩

theorem witness_RingsAndLinkComplete_10_linkLoss :
    ∃ (s : State) (t : Nat) (perst : Bool),
      (s.upTo t).commOn = true ∧
      (perst = true ∨ (s.upTo t).bit F.HIF_STAT_LINK_UP = true) := by
  exact ⟨live, 0, true, by decide⟩

theorem witness_RingsAndLinkComplete_11_dmaError :
    ∃ (s : State) (t : Nat) (r : Fin 11),
      ((s.upTo t).hif.mover.head?.any fun j => j.cmd.ring == r.val) = false ∧
      (s.upTo t).ringEn r = true := by
  exact ⟨ringUp, 0, 0, by decide⟩

theorem witness_RingsAndLinkComplete_12_dmaError :
    ∃ (s : State) (t : Nat) (r : Fin 11) (j : MoverJob) (rest : List MoverJob),
      (s.upTo t).hif.mover = j :: rest ∧
      j.cmd.ring = r.val := by
  exact ⟨{ live with hif := { mover := [.toHost cmd0 0 [] 0] } }, 0, 0, .toHost cmd0 0 [] 0, [], by decide⟩

theorem witness_RingsAndLinkComplete_13_pcieLinkUp :
    ∃ (s : State) (t : Nat),
      (s.upTo t).commOn = true ∧
      (s.upTo t).awake = true := by
  exact ⟨live, 0, by decide⟩

theorem witness_RingsAndLinkComplete_14_dataMoverDone :
    ∃ (s : State) (t : Nat) (j : MoverJob) (rest : List MoverJob),
      (s.upTo t).hif.mover = j :: rest ∧
      (s.upTo t).cpuOn = true ∧
      (s.upTo t).commOn = true := by
  exact ⟨{ coreOn with hif := { mover := [.toHost cmd0 0 [] 0] } }, 0, .toHost cmd0 0 [] 0, [], by decide⟩

theorem witness_AxisCommandsRun_0_nop :
    ∃ (s : State) (t : Nat) (r : Fin 4) (c : Cmd),
      (s.upTo t).mayRun r c ∧
      c.opcode = 0x01 := by
  exact ⟨commanded 0x01, 0, 0, cmdOf 0x01, by decide⟩

theorem witness_AxisCommandsRun_1_queryState :
    ∃ (s : State) (t : Nat) (r : Fin 4) (c : Cmd),
      (s.upTo t).mayRun r c ∧
      c.opcode = 0x02 := by
  exact ⟨commanded 0x02, 0, 0, cmdOf 0x02, by decide⟩

theorem witness_AxisCommandsRun_2_setMode :
    ∃ (s : State) (t : Nat) (r : Fin 4) (c : Cmd),
      (s.upTo t).mayRun r c ∧
      c.opcode = 0x10 ∧
      c.arg 16 1 = 5 := by
  exact ⟨commandedArgs 0x10 [5#8], 0, 0, cmdArgs 0x10 [5#8], by decide⟩

theorem witness_AxisCommandsRun_3_setMode :
    ∃ (s : State) (t : Nat) (r : Fin 4) (c : Cmd),
      (s.upTo t).mayRun r c ∧
      c.opcode = 0x10 ∧
      c.arg 16 1 = 2 := by
  exact ⟨commandedArgs 0x10 [2#8], 0, 0, cmdArgs 0x10 [2#8], by decide⟩

theorem witness_AxisCommandsRun_4_setMode :
    ∃ (s : State) (t : Nat) (r : Fin 4) (c : Cmd),
      (s.upTo t).mayRun r c ∧
      c.opcode = 0x10 ∧
      (c.arg 16 1 = 0 ∨ c.arg 16 1 = 1) ∧
      ((s.upTo t).begin_ r).axes.any ((s.upTo t).begin_ r).starting = false ∧
      ((s.upTo t).begin_ r).axes.any ((s.upTo t).begin_ r).running = false ∧
      (c.arg 16 1 = 0 → ((s.upTo t).begin_ r).unmirrored = 0 ∨ ((s.upTo t).begin_ r).bit F.JRN_STAT_BAN = false) := by
  exact ⟨commandedArgs 0x10 [1#8], 0, 0, cmdArgs 0x10 [1#8], by decide⟩

theorem witness_AxisCommandsRun_5_setMode :
    ∃ (s : State) (t : Nat) (r : Fin 4) (c : Cmd),
      (s.upTo t).mayRun r c ∧
      c.opcode = 0x10 ∧
      (c.arg 16 1 = 3 ∨ c.arg 16 1 = 4 ∨ 6 ≤ c.arg 16 1) := by
  exact ⟨commandedArgs 0x10 [3#8], 0, 0, cmdArgs 0x10 [3#8], by decide⟩

theorem witness_AxisCommandsRun_6_arm :
    ∃ (s : State) (t : Nat) (r : Fin 4) (c : Cmd),
      (s.upTo t).mayRun r c ∧
      c.opcode = 0x11 ∧
      Nat.land (c.arg 18 1) (c.arg 19 1) = 0 ∧
      c.arg 17 1 ≠ 3 ∧
      (c.arg 16 1 ≠ 0xFF → ((s.upTo t).begin_ r).axMode (c.arg 16 1) = 2 ∧ ((s.upTo t).begin_ r).armable (c.arg 16 1) = true) ∧
      (c.arg 17 1 = 1 → ((s.upTo t).begin_ r).mode = 2 ∧ ((s.upTo t).begin_ r).rd F.SAF_STAT_CON_CAUSE = 0) := by
  exact ⟨commandedArgs 0x11 [0xFF#8], 0, 0, cmdArgs 0x11 [0xFF#8], by decide⟩

theorem witness_AxisCommandsRun_7_start :
    ∃ (s : State) (t : Nat) (r : Fin 4) (c : Cmd),
      (s.upTo t).mayRun r c ∧
      c.opcode = 0x12 ∧
      ((s.upTo t).begin_ r).axMode (c.arg 16 1) = 2 ∧
      ((s.upTo t).begin_ r).axes.any (fun b => ((s.upTo t).begin_ r).axMode b == 5) = false ∧
      ((s.upTo t).begin_ r).starting (c.arg 16 1) = false ∧
      (((s.upTo t).begin_ r).fc (c.arg 16 1)).armed = true ∧
      (((s.upTo t).begin_ r).uz F.BLK_BTINT_BT_ENF ≠ 1 ∨ (((s.upTo t).begin_ r).uzAx (c.arg 16 1)).btDue = false) ∧
      ((s.upTo t).begin_ r).taskRuns (c.arg 16 1) = true := by
  exact ⟨{ ((commanded 0x12).wr F.FSL_CTL_RUN 1).wr (F.FSL_TASK_EN 0) 1 with fields := [(0, { armed := true })] }, 0, 0, cmdOf 0x12, by decide⟩

theorem witness_AxisCommandsRun_8_stop :
    ∃ (s : State) (t : Nat) (r : Fin 4) (c : Cmd),
      (s.upTo t).mayRun r c ∧
      c.opcode = 0x13 ∧
      ((s.upTo t).begin_ r).starting (c.arg 16 1) = true := by
  exact ⟨{ commanded 0x13 with fields := [(0, { held := some (cmd0, 0) })] }, 0, 0, cmdOf 0x13, by decide⟩

theorem witness_AxisCommandsRun_9_stop :
    ∃ (s : State) (t : Nat) (r : Fin 4) (c : Cmd),
      (s.upTo t).mayRun r c ∧
      c.opcode = 0x13 ∧
      ((s.upTo t).begin_ r).starting (c.arg 16 1) = false ∧
      ((s.upTo t).begin_ r).running (c.arg 16 1) = true ∧
      ((s.upTo t).begin_ r).bit (F.FSL_FC_STAT_COAST (c.arg 16 1)) = false := by
  exact ⟨(commanded 0x13).wr F.SYS_MODE_AX0_MODE 3, 0, 0, cmdOf 0x13, by decide⟩

theorem witness_SetPointAndProfileCommandsRun_0_setTorque :
    ∃ (s : State) (t : Nat) (r : Fin 4) (c : Cmd),
      (s.upTo t).mayRun r c ∧
      c.opcode = 0x14 := by
  exact ⟨commanded 0x14, 0, 0, cmdOf 0x14, by decide⟩

theorem witness_SetPointAndProfileCommandsRun_1_setSpeed :
    ∃ (s : State) (t : Nat) (r : Fin 4) (c : Cmd),
      (s.upTo t).mayRun r c ∧
      c.opcode = 0x15 := by
  exact ⟨commanded 0x15, 0, 0, cmdOf 0x15, by decide⟩

theorem witness_SetPointAndProfileCommandsRun_2_loadProfileParams :
    ∃ (s : State) (t : Nat) (r : Fin 4) (c : Cmd),
      (s.upTo t).mayRun r c ∧
      c.opcode = 0x16 ∧
      c.arg 17 1 = 0 := by
  exact ⟨commanded 0x16, 0, 0, cmdOf 0x16, by decide⟩

theorem witness_SetPointAndProfileCommandsRun_3_loadProfileTable :
    ∃ (s : State) (t : Nat) (r : Fin 4) (c : Cmd),
      (s.upTo t).mayRun r c ∧
      c.opcode = 0x16 ∧
      c.arg 17 1 = 1 ∧
      0 < c.arg 28 2 ∧
      c.arg 28 2 ≤ 1024 ∧
      0x2000 ≤ c.arg 32 4 / 16 * 16 ∧
      c.arg 32 4 / 16 * 16 + 16 * c.arg 28 2 ≤ 0x40000 := by
  exact ⟨commandedArgs 0x16 tableArgs, 0, 0, cmdArgs 0x16 tableArgs, by decide⟩

theorem witness_SetPointAndProfileCommandsRun_4_loadProfileControl :
    ∃ (s : State) (t : Nat) (r : Fin 4) (c : Cmd),
      (s.upTo t).mayRun r c ∧
      c.opcode = 0x16 ∧
      c.arg 17 1 = 2 := by
  exact ⟨commandedArgs 0x16 [0#8, 2#8], 0, 0, cmdArgs 0x16 [0#8, 2#8], by decide⟩

theorem witness_SetPointAndProfileCommandsRun_5_setLimits :
    ∃ (s : State) (t : Nat) (r : Fin 4) (c : Cmd),
      (s.upTo t).mayRun r c ∧
      c.opcode = 0x17 ∧
      ((c.arg 17 1).testBit 0 = true → ((s.upTo t).begin_ r).axMode (c.arg 16 1) = 2) := by
  exact ⟨commandedArgs 0x17 [0#8, 1#8], 0, 0, cmdArgs 0x17 [0#8, 1#8], by decide⟩

theorem witness_SetPointAndProfileCommandsRun_6_brakeTest :
    ∃ (s : State) (t : Nat) (r : Fin 4) (c : Cmd),
      (s.upTo t).mayRun r c ∧
      c.opcode = 0x18 ∧
      ((s.upTo t).begin_ r).axMode (c.arg 16 1) = 2 ∧
      (((s.upTo t).begin_ r).fc (c.arg 16 1)).armed = true ∧
      ((s.upTo t).begin_ r).hasBrake (c.arg 16 1) = true ∧
      ((s.upTo t).begin_ r).starting (c.arg 16 1) = false ∧
      ((s.upTo t).begin_ r).saf.btest = none := by
  exact ⟨braked, 0, 0, cmdOf 0x18, by decide⟩

theorem witness_SetPointAndProfileCommandsRun_7_discharge :
    ∃ (s : State) (t : Nat) (r : Fin 4) (c : Cmd),
      (s.upTo t).mayRun r c ∧
      c.opcode = 0x19 ∧
      ((s.upTo t).begin_ r).axes.any ((s.upTo t).begin_ r).running = false := by
  exact ⟨commanded 0x19, 0, 0, cmdOf 0x19, by decide⟩

theorem witness_SetPointAndProfileCommandsRun_8_handoverPolicy :
    ∃ (s : State) (t : Nat) (r : Fin 4) (c : Cmd),
      (s.upTo t).mayRun r c ∧
      c.opcode = 0x1A ∧
      ((s.upTo t).begin_ r).policyFree = true := by
  exact ⟨commanded 0x1A, 0, 0, cmdOf 0x1A, by decide⟩

theorem witness_SetPointAndProfileCommandsRun_9_traceArm :
    ∃ (s : State) (t : Nat) (r : Fin 4) (c : Cmd),
      (s.upTo t).mayRun r c ∧
      c.opcode = 0x30 := by
  exact ⟨commanded 0x30, 0, 0, cmdOf 0x30, by decide⟩

theorem witness_DataCommandsRun_0_traceRead :
    ∃ (s : State) (t : Nat) (r : Fin 4) (c : Cmd),
      (s.upTo t).mayRun r c ∧
      c.opcode = 0x31 ∧
      ((s.upTo t).begin_ r).rd F.FSL_TRC_STAT_STATE = 3 ∧
      c.arg 28 4 % 64 = 0 ∧
      c.arg 28 4 ≤ 524288 := by
  exact ⟨(commanded 0x31).wr F.FSL_TRC_STAT_STATE 3, 0, 0, cmdOf 0x31, by decide⟩

theorem witness_DataCommandsRun_1_journalQuery :
    ∃ (s : State) (t : Nat) (r : Fin 4) (c : Cmd),
      (s.upTo t).mayRun r c ∧
      c.opcode = 0x40 ∧
      0 < c.arg 20 8 ∧
      c.arg 20 8 ≤ ((s.upTo t).begin_ r).rd64 R.JRN_HEAD_SEQ_LO R.JRN_HEAD_SEQ_HI ∧
      0 < c.arg 36 2 ∧
      c.arg 36 2 ≤ 2048 := by
  exact ⟨(commandedArgs 0x40 queryArgs).setReg R.JRN_HEAD_SEQ_LO 1#32, 0, 0, cmdArgs 0x40 queryArgs, by decide⟩

theorem witness_DataCommandsRun_2_recRead :
    ∃ (s : State) (t : Nat) (r : Fin 4) (c : Cmd),
      (s.upTo t).mayRun r c ∧
      c.opcode = 0x50 ∧
      c.arg 20 8 < ((s.upTo t).begin_ r).recd.rnum := by
  exact ⟨{ commanded 0x50 with recd := { rnum := 1 } }, 0, 0, cmdOf 0x50, by decide⟩

theorem witness_DataCommandsRun_3_recMark :
    ∃ (s : State) (t : Nat) (r : Fin 4) (c : Cmd),
      (s.upTo t).mayRun r c ∧
      c.opcode = 0x51 ∧
      (c.arg 17 1 = 1 → ((s.upTo t).begin_ r).bit F.SEC_BOOT_STAT_ID_OK = true) ∧
      ((s.upTo t).begin_ r).canWrite = true ∧
      (((s.upTo t).begin_ r).recAdd 2 ((s.upTo t).begin_ r).ct (slice c.args 4 32) (c.arg 17 1 == 1)).recd.rnum ≠ ((s.upTo t).begin_ r).recd.rnum := by
  exact ⟨writable 0x51 [], 0, 0, cmdArgs 0x51 [], by decide⟩

theorem witness_DataCommandsRun_4_fwStage :
    ∃ (s : State) (t : Nat) (r : Fin 4) (c : Cmd),
      (s.upTo t).mayRun r c ∧
      c.opcode = 0x60 ∧
      c.arg 16 1 ≤ 2 ∧
      c.arg 32 4 ≤ 65536 ∧
      c.arg 28 4 = 0 ∧
      c.arg 28 4 + c.arg 32 4 ≤ 17120 + payloadLimit (if c.arg 16 1 = 0 then 1 else if c.arg 16 1 = 1 then 2 else 5) ∧
      ((s.upTo t).begin_ r).canWrite = true ∧
      (((s.upTo t).begin_ r).abandonStage.modRec fun x => { x with stage := some ⟨((s.upTo t).begin_ r).stageTarget (c.arg 16 1), [], [], []⟩ }).partCmds = [] := by
  exact ⟨writable 0x60 [], 0, 0, cmdArgs 0x60 [], by decide⟩

theorem witness_DataCommandsRun_5_fwStage :
    ∃ (s : State) (t : Nat) (r : Fin 4) (c : Cmd) (g : Staging),
      (s.upTo t).mayRun r c ∧
      c.opcode = 0x60 ∧
      c.arg 16 1 ≤ 2 ∧
      c.arg 32 4 ≤ 65536 ∧
      0 < c.arg 28 4 ∧
      c.arg 28 4 + c.arg 32 4 ≤ 17120 + payloadLimit (if c.arg 16 1 = 0 then 1 else if c.arg 16 1 = 1 then 2 else 5) ∧
      ((s.upTo t).begin_ r).canWrite = true ∧
      ((s.upTo t).begin_ r).recd.stage = some g ∧
      g.obj = ((s.upTo t).begin_ r).stageTarget (c.arg 16 1) ∧
      g.bytes.length = c.arg 28 4 ∧
      ((s.upTo t).begin_ r).partCmds = [] := by
  exact ⟨{ writable 0x60 stageArgs with recd := { stage := some ⟨0, [0#8], [], []⟩ } }, 0, 0, cmdArgs 0x60 stageArgs, ⟨0, [0#8], [], []⟩, by decide⟩

theorem witness_DataCommandsRun_6_fwCommitActivate :
    ∃ (s : State) (t : Nat) (r : Fin 4) (c : Cmd),
      (s.upTo t).mayRun r c ∧
      c.opcode = 0x61 ∧
      (c.arg 16 1).testBit 0 = true ∧
      ((s.upTo t).begin_ r).axes.any ((s.upTo t).begin_ r).running = false ∧
      ((c.arg 16 1).testBit 1 = true → ((s.upTo t).begin_ r).bit F.SEC_BOOT_STAT_FALLBACK = false ∧ ((s.upTo t).begin_ r).bit F.SEC_BOOT_STAT_CFG_FALLBACK = false ∧ ((s.upTo t).begin_ r).rd F.SEC_BOOT_STAT_SLOT ≠ 2) ∧
      ((s.upTo t).begin_ r).recd.ready ≠ [] ∧
      ((s.upTo t).begin_ r).canWrite = true := by
  exact ⟨{ writable 0x61 [1#8] with recd := { ready := [1] } }, 0, 0, cmdArgs 0x61 [1#8], by decide⟩

theorem witness_DataCommandsRun_7_fwCommitAdvance :
    ∃ (s : State) (t : Nat) (r : Fin 4) (c : Cmd),
      (s.upTo t).mayRun r c ∧
      c.opcode = 0x61 ∧
      (c.arg 16 1).testBit 0 = false ∧
      (c.arg 16 1).testBit 1 = true ∧
      ((s.upTo t).begin_ r).axes.any ((s.upTo t).begin_ r).running = false ∧
      ((s.upTo t).begin_ r).bit F.SEC_BOOT_STAT_FALLBACK = false ∧
      ((s.upTo t).begin_ r).bit F.SEC_BOOT_STAT_CFG_FALLBACK = false ∧
      ((s.upTo t).begin_ r).rd F.SEC_BOOT_STAT_SLOT ≠ 2 ∧
      ((s.upTo t).begin_ r).canWrite = true := by
  exact ⟨writable 0x61 [2#8], 0, 0, cmdArgs 0x61 [2#8], by decide⟩

theorem witness_DataCommandsRun_8_attest :
    ∃ (s : State) (t : Nat) (r : Fin 4) (c : Cmd),
      (s.upTo t).mayRun r c ∧
      c.opcode = 0x70 ∧
      ((s.upTo t).begin_ r).bit F.SEC_BOOT_STAT_ID_OK = true ∧
      ((s.upTo t).begin_ r).sec.attest = none := by
  exact ⟨(commanded 0x70).wr F.SEC_BOOT_STAT_ID_OK 1, 0, 0, cmdOf 0x70, by decide⟩

theorem witness_DataCommandsRun_9_chainSend :
    ∃ (s : State) (t : Nat) (r : Fin 4) (c : Cmd),
      (s.upTo t).mayRun r c ∧
      c.opcode = 0x80 ∧
      (c.arg 22 1 = 2 ∨ (0x40 ≤ c.arg 22 1 ∧ c.arg 22 1 ≤ 0x7F)) ∧
      c.arg 32 2 ≤ 256 ∧
      c.arg 20 2 ≠ 0 ∧
      c.arg 20 2 ≠ ((s.upTo t).begin_ r).chainAddr ∧
      c.arg 20 2 ≤ 0x3FFF := by
  exact ⟨commandedArgs 0x80 sendArgs, 0, 0, cmdArgs 0x80 sendArgs, by decide⟩

theorem witness_DataCommandsRun_10_tlmConfig :
    ∃ (s : State) (t : Nat) (r : Fin 4) (c : Cmd),
      (s.upTo t).mayRun r c ∧
      c.opcode = 0xA0 ∧
      c.arg 16 1 ≤ 1 ∧
      0 < c.arg 18 2 ∧
      (c.tlmItems.drop c.tlmUsed.length).any (fun w => w.getLsbD 31) = false ∧
      c.tlmUsed.all (fun w => w.toNat % 2 ^ 24 % 4 == 0 && decide (w.toNat % 2 ^ 24 < 0x120000) && !State.writeOnly (w.toNat % 2 ^ 24)) = true := by
  exact ⟨commandedArgs 0xA0 itemArgs, 0, 0, cmdArgs 0xA0 itemArgs, by decide⟩

theorem witness_CanCommandsRun_0_canConfigure :
    ∃ (s : State) (t : Nat) (r : Fin 4) (c : Cmd),
      (s.upTo t).mayRun r c ∧
      c.opcode = 0x90 ∧
      c.arg 17 1 = 1 ∧
      ((s.upTo t).begin_ r).canOwns (c.arg 16 1) (c.arg 18 2) = false := by
  exact ⟨commandedArgs 0x90 [0#8, 1#8], 0, 0, cmdArgs 0x90 [0#8, 1#8], by decide⟩

theorem witness_CanCommandsRun_1_canTransmit :
    ∃ (s : State) (t : Nat) (r : Fin 4) (c : Cmd),
      (s.upTo t).mayRun r c ∧
      c.opcode = 0x90 ∧
      c.arg 17 1 = 2 ∧
      ((s.upTo t).begin_ r).canRefusal (c.arg 16 1) (c.arg 18 2) = none := by
  exact ⟨{ commandedArgs 0x90 [0#8, 2#8] with can0 := { objs := [(0, { flags := 0x41 })] } }, 0, 0, cmdArgs 0x90 [0#8, 2#8], by decide⟩

theorem witness_CanCommandsRun_2_canRead :
    ∃ (s : State) (t : Nat) (r : Fin 4) (c : Cmd),
      (s.upTo t).mayRun r c ∧
      c.opcode = 0x90 ∧
      c.arg 17 1 = 3 := by
  exact ⟨commandedArgs 0x90 [0#8, 3#8], 0, 0, cmdArgs 0x90 [0#8, 3#8], by decide⟩

theorem witness_CanCommandsRun_3_canDisable :
    ∃ (s : State) (t : Nat) (r : Fin 4) (c : Cmd),
      (s.upTo t).mayRun r c ∧
      c.opcode = 0x90 ∧
      c.arg 17 1 = 4 ∧
      ((((s.upTo t).begin_ r).canObj (c.arg 16 1) (c.arg 18 2)).flag 0 = false ∨ ((s.upTo t).begin_ r).canOwns (c.arg 16 1) (c.arg 18 2) = false) := by
  exact ⟨commandedArgs 0x90 [0#8, 4#8], 0, 0, cmdArgs 0x90 [0#8, 4#8], by decide⟩

theorem witness_CanCommandsRun_4_canAbort :
    ∃ (s : State) (t : Nat) (r : Fin 4) (c : Cmd) (x : CanTx),
      (s.upTo t).mayRun r c ∧
      c.opcode = 0x90 ∧
      c.arg 17 1 = 5 ∧
      (((s.upTo t).begin_ r).can (c.arg 16 1)).pend.find? (fun x => x.obj == c.arg 18 2) = some x := by
  exact ⟨{ commandedArgs 0x90 [0#8, 5#8] with can0 := { pend := [⟨0, cmd0, 0⟩] } }, 0, 0, cmdArgs 0x90 [0#8, 5#8], ⟨0, cmd0, 0⟩, by decide⟩

theorem witness_CanCommandsRun_5_canAbort :
    ∃ (s : State) (t : Nat) (r : Fin 4) (c : Cmd),
      (s.upTo t).mayRun r c ∧
      c.opcode = 0x90 ∧
      c.arg 17 1 = 5 ∧
      (((s.upTo t).begin_ r).can (c.arg 16 1)).pend.find? (fun x => x.obj == c.arg 18 2) = none := by
  exact ⟨commandedArgs 0x90 [0#8, 5#8], 0, 0, cmdArgs 0x90 [0#8, 5#8], by decide⟩

theorem witness_CanCommandsRun_6_canStart :
    ∃ (s : State) (t : Nat) (r : Fin 4) (c : Cmd),
      (s.upTo t).mayRun r c ∧
      c.opcode = 0x90 ∧
      c.arg 17 1 = 0x10 ∧
      ((s.upTo t).begin_ r).bit (F.CAN_CTL_INIT (c.arg 16 1)) = true ∧
      ((s.upTo t).begin_ r).canTimingBad (c.arg 16 1) = false := by
  exact ⟨canTimed, 0, 0, cmdArgs 0x90 [0#8, 0x10#8], by decide⟩

theorem witness_CanCommandsRun_7_canStop :
    ∃ (s : State) (t : Nat) (r : Fin 4) (onBus : Bool) (c : Cmd),
      (s.upTo t).mayRun r c ∧
      c.opcode = 0x90 ∧
      c.arg 17 1 = 0x11 ∧
      (onBus = false ∨ ((s.upTo t).begin_ r).canActive (c.arg 16 1) = false) := by
  exact ⟨commandedArgs 0x90 [0#8, 0x11#8], 0, 0, false, cmdArgs 0x90 [0#8, 0x11#8], by decide⟩

theorem witness_CanCommandsRun_8_canStop :
    ∃ (s : State) (t : Nat) (r : Fin 4) (onBus : Bool) (c : Cmd),
      (s.upTo t).mayRun r c ∧
      c.opcode = 0x90 ∧
      c.arg 17 1 = 0x11 ∧
      onBus = true ∧
      ((s.upTo t).begin_ r).canActive (c.arg 16 1) = true := by
  exact ⟨canStopping, 0, 0, true, cmdArgs 0x90 [0#8, 0x11#8], by decide⟩

theorem witness_CanCommandsRun_9_canRecover :
    ∃ (s : State) (t : Nat) (r : Fin 4) (c : Cmd),
      (s.upTo t).mayRun r c ∧
      c.opcode = 0x90 ∧
      c.arg 17 1 = 0x12 ∧
      ((s.upTo t).begin_ r).rd (F.CAN_STAT_STATE (c.arg 16 1)) = 3 ∧
      (((s.upTo t).begin_ r).can (c.arg 16 1)).recCmd = none := by
  exact ⟨(commandedArgs 0x90 [0#8, 0x12#8]).wr (F.CAN_STAT_STATE 0) 3, 0, 0, cmdArgs 0x90 [0#8, 0x12#8], by decide⟩

theorem witness_CanBusHappeningsComplete_0_canFrameReceive :
    ∃ (s : State) (t : Nat) (n : Fin 2) (f : CanFrame) (err : BitVec 8),
      (s.upTo t).canActive n = true ∧
      (f.fdf = false ∨ (s.upTo t).bit (F.CAN_CTL_FD_EN n) = true) ∧
      ((s.upTo t).canCounters n ((s.upTo t).rd (F.CAN_ERR_TEC n)) err.toNat).canTaker n f = none := by
  exact ⟨canOn, 0, 0, canFrame0, 0#8, by decide⟩

theorem witness_CanBusHappeningsComplete_1_canFrameReceive :
    ∃ (s : State) (t : Nat) (n : Fin 2) (f : CanFrame) (err : BitVec 8) (k : Nat),
      (s.upTo t).canActive n = true ∧
      (f.fdf = false ∨ (s.upTo t).bit (F.CAN_CTL_FD_EN n) = true) ∧
      ((s.upTo t).canCounters n ((s.upTo t).rd (F.CAN_ERR_TEC n)) err.toNat).canTaker n f = some k ∧
      (((s.upTo t).canCounters n ((s.upTo t).rd (F.CAN_ERR_TEC n)) err.toNat).canObj n k).flag 7 = false := by
  exact ⟨canListening, 0, 0, canFrame0, 0#8, 0, by decide⟩

theorem witness_CanBusHappeningsComplete_2_canTransmitEnd :
    ∃ (s : State) (t : Nat) (n : Fin 2) (obj : Fin 128) (e : CanEnd) (sof : Nat) (delay : Option Nat) (x : CanTx),
      (s.upTo t).canActive n = true ∧
      (s.upTo t).bit (F.CAN_CTL_LISTEN n) = false ∧
      (((s.upTo t).canObj n obj).flag 1 = false ∨ (s.upTo t).bit (F.CAN_CTL_FD_EN n) = true) ∧
      (s.upTo t).canSent n sof = some x ∧
      x.obj = obj.val ∧
      e = .acked ∧
      delay = none := by
  exact ⟨canSending, 0, 0, 0, .acked, 0, none, ⟨0, cmd0, 0⟩, by decide⟩

theorem witness_CanBusHappeningsComplete_3_canTransmitEnd :
    ∃ (s : State) (t : Nat) (n : Fin 2) (obj : Fin 128) (e : CanEnd) (sof : Nat) (delay : Option Nat) (x : CanTx) (c : Fin 6),
      (s.upTo t).canActive n = true ∧
      (s.upTo t).bit (F.CAN_CTL_LISTEN n) = false ∧
      (((s.upTo t).canObj n obj).flag 1 = false ∨ (s.upTo t).bit (F.CAN_CTL_FD_EN n) = true) ∧
      (s.upTo t).canSent n sof = some x ∧
      x.obj = obj.val ∧
      e = .failed c ∧
      delay = none := by
  exact ⟨canSending, 0, 0, 0, .failed 5, 0, none, ⟨0, cmd0, 0⟩, 5, by decide⟩

theorem witness_CanBusHappeningsComplete_4_canTransmitEnd :
    ∃ (s : State) (t : Nat) (n : Fin 2) (obj : Fin 128) (e : CanEnd) (sof : Nat) (delay : Option Nat) (x : CanTx) (d : Nat),
      (s.upTo t).canActive n = true ∧
      (s.upTo t).bit (F.CAN_CTL_LISTEN n) = false ∧
      (((s.upTo t).canObj n obj).flag 1 = false ∨ (s.upTo t).bit (F.CAN_CTL_FD_EN n) = true) ∧
      (s.upTo t).canSent n sof = some x ∧
      x.obj = obj.val ∧
      e = .acked ∧
      delay = some d ∧
      (s.upTo t).bit (F.CAN_TDC_TDC_EN n) = true ∧
      ((s.upTo t).canObj n obj).flag 1 = true ∧
      ((s.upTo t).canObj n obj).flag 2 = true ∧
      127 < d ∧
      ((s.upTo t).canObj n obj).flag 4 = false := by
  exact ⟨canSendingFd, 0, 0, 0, .acked, 0, some 200, ⟨0, cmd0, 0⟩, 200, by decide⟩

theorem witness_CanBusHappeningsComplete_5_canTxTimeout :
    ∃ (s : State) (t : Nat) (n : Fin 2) (obj : Fin 128) (x : CanTx),
      ((s.upTo t).can n).pend.find? (fun x => x.obj == obj.val) = some x ∧
      (s.upTo t).commOn = true ∧
      (s.upTo t).rd (F.CAN_CTL_TX_TMAX n) ≠ 0 ∧
      ((s.upTo t).canObj n obj).flag 4 = false ∧
      x.since + (s.upTo t).rd (F.CAN_CTL_TX_TMAX n) * 1000000 ≤ (s.upTo t).now := by
  exact ⟨canSending.wr (F.CAN_CTL_TX_TMAX 0) 1, 1000000, 0, 0, ⟨0, cmd0, 0⟩, by decide⟩

theorem witness_CanBusHappeningsComplete_6_canBusError :
    ∃ (s : State) (t : Nat) (n : Fin 2),
      (s.upTo t).canActive n = true := by
  exact ⟨canOn, 0, 0, by decide⟩

theorem witness_CanBusHappeningsComplete_7_canIntegrated :
    ∃ (s : State) (t : Nat) (n : Fin 2) (c : Cmd),
      (s.upTo t).commOn = true ∧
      (s.upTo t).bit (F.CAN_CTL_INIT n) = false ∧
      (s.upTo t).rd (F.CAN_STAT_STATE n) = 0 ∧
      ((s.upTo t).can n).starting = some c := by
  exact ⟨{ live.wr (F.CAN_CTL_INIT 0) 0 with can0 := { starting := some cmd0 } }, 0, 0, cmd0, by decide⟩

theorem witness_CanBusHappeningsComplete_8_canIntegrated :
    ∃ (s : State) (t : Nat) (n : Fin 2),
      (s.upTo t).commOn = true ∧
      (s.upTo t).bit (F.CAN_CTL_INIT n) = false ∧
      (s.upTo t).rd (F.CAN_STAT_STATE n) = 0 ∧
      ((s.upTo t).can n).starting = none := by
  exact ⟨live.wr (F.CAN_CTL_INIT 0) 0, 0, 0, by decide⟩

theorem witness_CanBusHappeningsComplete_9_canRecoveryDone :
    ∃ (s : State) (t : Nat) (n : Fin 2),
      (s.upTo t).commOn = true ∧
      ((s.upTo t).can n).recovering = true := by
  exact ⟨{ live with can0 := { recovering := true } }, 0, 0, by decide⟩

theorem witness_CanBusHappeningsComplete_10_canTsWrap :
    ∃ (s : State) (t : Nat),
      (s.upTo t).rd F.CAN_TS_EPOCH_EPOCH < (s.upTo t).canTicks / 2 ^ 32 := by
  exact ⟨{ live with canFrom := some 0 }, 10 ^ 15, by decide⟩

theorem witness_CanBusHappeningsComplete_11_snap :
    ∃ (s : State) (t : Nat),
      (s.upTo t).commOn = true ∧
      (s.upTo t).stores = true := by
  exact ⟨live, 0, by decide⟩

theorem witness_RecorderHappeningsComplete_0_pageProgramDone :
    ∃ (s : State) (t : Nat) (p : Prog) (rest : List Prog),
      (s.upTo t).commOn = true ∧
      (s.upTo t).med.formatted = true ∧
      (s.upTo t).banned = false ∧
      (s.upTo t).recd.progs = p :: rest := by
  exact ⟨{ live with med := { formatted := true }, recd := { progs := [.close] } }, 0, .close, [], by decide⟩

theorem witness_RecorderHappeningsComplete_1_flushTimeout :
    ∃ (s : State) (t : Nat) (x : Nat),
      (s.upTo t).recd.stagedAt = some x ∧
      x + max 1 ((s.upTo t).rd F.REC_CFG_FLUSH_T) * 100000000 ≤ (s.upTo t).now := by
  exact ⟨{ live with recd := { stagedAt := some 0 } }, 10 ^ 12, 0, by decide⟩

theorem witness_RecorderHappeningsComplete_2_flush :
    ∃ (s : State) (t : Nat),
      (s.upTo t).commOn = true ∧
      (s.upTo t).stores = true := by
  exact ⟨live, 0, by decide⟩

theorem witness_RecorderHappeningsComplete_3_format :
    ∃ (s : State) (t : Nat),
      (s.upTo t).commOn = true ∧
      (s.upTo t).stores = true ∧
      (s.upTo t).banned = false ∧
      (s.upTo t).rd F.SEC_BOOT_STAT_SLOT = 2 := by
  exact ⟨live.wr F.SEC_BOOT_STAT_SLOT 2, 0, by decide⟩

theorem witness_RecorderHappeningsComplete_4_scrubRead :
    ∃ (s : State) (t : Nat),
      (s.upTo t).commOn = true ∧
      (s.upTo t).awake = true ∧
      (s.upTo t).bit F.REC_STAT_MOUNTED = true ∧
      (s.upTo t).med.formatted = true ∧
      (∀ x, (s.upTo t).recd.scrubbed = some x → x + (if (s.upTo t).bit F.REC_STAT_SCRUB_DUE then 1000000 else 10000000) ≤ (s.upTo t).now) := by
  exact ⟨{ live.wr F.REC_STAT_MOUNTED 1 with med := { formatted := true } }, 0, by decide⟩

theorem witness_RecorderHappeningsComplete_5_wearLevelMove :
    ∃ (s : State) (t : Nat) (b : Nat) (c : Nat),
      (s.upTo t).leastWorn = some b ∧
      (s.upTo t).mostWornFree = some c ∧
      (s.upTo t).canWrite = true ∧
      (∀ x, (s.upTo t).recd.movedAt = some x → x + 60000000000 ≤ (s.upTo t).now) ∧
      1024 * max 1 ((s.upTo t).rd F.REC_CFG_WL_SPREAD) < (s.upTo t).wearSpread := by
  exact ⟨worn, 0, 0, 1, by decide⟩

theorem witness_RecorderHappeningsComplete_6_writeBanLift :
    ∃ (s : State) (t : Nat) (x : Nat),
      (s.upTo t).commOn = true ∧
      (s.upTo t).bit F.REC_STAT_BAN = true ∧
      (s.upTo t).bit F.REC_STAT_NTC_BAD = false ∧
      (s.upTo t).recd.liftFrom = some x ∧
      x + 1000000000 ≤ (s.upTo t).now := by
  exact ⟨{ live.wr F.REC_STAT_BAN 1 with recd := { liftFrom := some 0 } }, 1000000000, 0, by decide⟩

theorem witness_RecorderHappeningsComplete_7_blockEraseDone :
    ∃ (s : State) (t : Nat) (b : Nat),
      (s.upTo t).commOn = true ∧
      b < (s.upTo t).med.size ∧
      ((s.upTo t).blk b).use = .free ∧
      ((s.upTo t).blk b).erased = false := by
  exact ⟨{ live with med := { size := 1, blks := [(0, { erased := false })] } }, 0, 0, by decide⟩

theorem witness_RecorderHappeningsComplete_8_mirrorBatchWrite :
    ∃ (s : State) (t : Nat),
      (s.upTo t).cpuOn = true ∧
      (s.upTo t).jrn.batch = false ∧
      (s.upTo t).nextBatch ≠ [] := by
  exact ⟨journaled, 0, by decide⟩

theorem witness_ChainLinksAndFramesComplete_0_chainLinkUp :
    ∃ (s : State) (t : Nat) (p : Fin 2),
      (s.upTo t).power.comm ≠ .off ∧
      (s.upTo t).bit (F.CHN_PORT_LINK p) = false := by
  exact ⟨live, 0, 0, by decide⟩

theorem witness_ChainLinksAndFramesComplete_1_chainLinkDown :
    ∃ (s : State) (t : Nat) (p : Fin 2),
      (s.upTo t).portHears p = true := by
  exact ⟨linked, 0, 0, by decide⟩

theorem witness_ChainLinksAndFramesComplete_2_chainFrameReceive :
    ∃ (s : State) (t : Nat) (p : Fin 2),
      (s.upTo t).portHears p = true := by
  exact ⟨linked, 0, 0, by decide⟩

theorem witness_ChainLinksAndFramesComplete_3_frameForward :
    ∃ (s : State) (t : Nat) (p : Fin 2) (q : QFrame),
      (s.upTo t).nextOut p = some q := by
  exact ⟨frameDue, 0, 0, qframe0, by decide⟩

theorem witness_ChainLinksAndFramesComplete_4_memRd :
    ∃ (s : State) (t : Nat) (payload : List Byte),
      (s.upTo t).commOn = true ∧
      frameLenOk 0x10 payload.length = true := by
  exact ⟨live, 0, List.replicate 8 0#8, by decide⟩

theorem witness_ChainLinksAndFramesComplete_5_memWr :
    ∃ (s : State) (t : Nat) (payload : List Byte),
      (s.upTo t).commOn = true ∧
      frameLenOk 0x11 payload.length = true ∧
      payload.length ≤ 256 := by
  exact ⟨live, 0, List.replicate 12 0#8, by decide⟩

theorem witness_ChainLinksAndFramesComplete_6_breakReceive :
    ∃ (s : State) (t : Nat) (bnd : BitVec 14),
      (s.upTo t).commOn = true ∧
      bnd.toNat ≠ (s.upTo t).chainAddr := by
  exact ⟨live, 0, 5, by decide⟩

theorem witness_ChainLinksAndFramesComplete_7_wakeFrame :
    ∃ (s : State) (t : Nat) (p : Fin 2),
      (s.upTo t).portHears p = true ∧
      (s.upTo t).repeating p = true := by
  exact ⟨repeatingUnit, 0, 0, by decide⟩

theorem witness_ChainLinksAndFramesComplete_9_repeatLoss :
    ∃ (s : State) (t : Nat) (p : Fin 2),
      (s.upTo t).repeating p = true := by
  exact ⟨repeatingUnit, 0, 0, by decide⟩

theorem witness_ChainLinksAndFramesComplete_10_repeaterResume :
    ∃ (s : State) (t : Nat) (p : Fin 2),
      (s.upTo t).repeating p = true := by
  exact ⟨repeatingUnit, 0, 0, by decide⟩

theorem witness_ChainTimeComplete_0_timeSyncSend :
    ∃ (s : State) (t : Nat) (p : Fin 2),
      (s.upTo t).portActive p = true := by
  exact ⟨linked, 0, 0, by decide⟩

theorem witness_ChainTimeComplete_1_timeSyncReceive :
    ∃ (s : State) (t : Nat) (p : Fin 2) (ok : Bool),
      (s.upTo t).portHears p = true ∧
      ok = true ∧
      (s.upTo t).repeating p = false ∧
      (s.upTo t).portActive p = true := by
  exact ⟨linked, 0, 0, true, by decide⟩

theorem witness_ChainTimeComplete_2_timeSyncReceive :
    ∃ (s : State) (t : Nat) (p : Fin 2) (ok : Bool),
      (s.upTo t).portHears p = true ∧
      ok = true ∧
      (s.upTo t).repeating p = true := by
  exact ⟨repeatingUnit, 0, 0, true, by decide⟩

theorem witness_ChainTimeComplete_3_timeSyncReceive :
    ∃ (s : State) (t : Nat) (p : Fin 2) (ok : Bool),
      (s.upTo t).portHears p = true ∧
      ok = false := by
  exact ⟨linked, 0, 0, false, by decide⟩

theorem witness_ChainTimeComplete_4_dlyReqReceive :
    ∃ (s : State) (t : Nat) (p : Fin 2),
      (s.upTo t).portHears p = true ∧
      (s.upTo t).repeating p = false ∧
      (s.upTo t).portActive p = true := by
  exact ⟨linked, 0, 0, by decide⟩

theorem witness_ChainTimeComplete_5_dlyReqReceive :
    ∃ (s : State) (t : Nat) (p : Fin 2),
      (s.upTo t).portHears p = true ∧
      (s.upTo t).repeating p = true := by
  exact ⟨repeatingUnit, 0, 0, by decide⟩

theorem witness_ChainTimeComplete_6_dlyRspReceive :
    ∃ (s : State) (t : Nat) (p : Fin 2) (seq : BitVec 8) (ok : Bool),
      (s.upTo t).portHears p = true ∧
      ok = true ∧
      (s.upTo t).repeating p = false ∧
      (s.upTo t).portActive p = true ∧
      seq.toNat = ((s.upTo t).port p).dseq := by
  exact ⟨linked, 0, 0, 0#8, true, by decide⟩

theorem witness_ChainTimeComplete_7_dlyRspReceive :
    ∃ (s : State) (t : Nat) (p : Fin 2) (ok : Bool),
      (s.upTo t).portHears p = true ∧
      ok = true ∧
      (s.upTo t).repeating p = true := by
  exact ⟨repeatingUnit, 0, 0, true, by decide⟩

theorem witness_ChainTimeComplete_8_dlyRspReceive :
    ∃ (s : State) (t : Nat) (p : Fin 2) (ok : Bool),
      (s.upTo t).portHears p = true ∧
      ok = false := by
  exact ⟨linked, 0, 0, false, by decide⟩

theorem witness_ChainTimeComplete_9_timeSourceTimeout :
    ∃ (s : State) (t : Nat),
      (s.upTo t).commOn = true := by
  exact ⟨live, 0, by decide⟩

theorem witness_ChainTimeComplete_10_holdoverTimeout :
    ∃ (s : State) (t : Nat),
      (s.upTo t).commOn = true ∧
      (s.upTo t).bit F.CHN_TIME_SYNCED = true ∧
      (s.upTo t).bit F.BLK_ROLE_ROOT = false ∧
      (∀ x, (s.upTo t).chain.exchAt = some x → x + 20000000 ≤ (s.upTo t).now) := by
  exact ⟨live.wr F.CHN_TIME_SYNCED 1, 0, by decide⟩

theorem witness_ChainCreditsPartnersAndAddressesComplete_0_creditReceive :
    ∃ (s : State) (t : Nat) (p : Fin 2) (freed : BitVec 8) (compl : BitVec 8),
      (s.upTo t).portHears p = true ∧
      compl = ~~~freed ∧
      (s.upTo t).repeating p = false ∧
      (s.upTo t).commOn = true := by
  exact ⟨linked, 0, 0, 0#8, 0xFF#8, by decide⟩

theorem witness_ChainCreditsPartnersAndAddressesComplete_1_creditReceive :
    ∃ (s : State) (t : Nat) (p : Fin 2) (freed : BitVec 8) (compl : BitVec 8),
      (s.upTo t).portHears p = true ∧
      compl = ~~~freed ∧
      (s.upTo t).repeating p = true := by
  exact ⟨repeatingUnit, 0, 0, 0#8, 0xFF#8, by decide⟩

theorem witness_ChainCreditsPartnersAndAddressesComplete_2_creditReceive :
    ∃ (s : State) (t : Nat) (p : Fin 2) (freed : BitVec 8) (compl : BitVec 8),
      (s.upTo t).portHears p = true ∧
      compl ≠ ~~~freed := by
  exact ⟨linked, 0, 0, 0#8, 0xFE#8, by decide⟩

theorem witness_ChainCreditsPartnersAndAddressesComplete_3_creditRefresh :
    ∃ (s : State) (t : Nat) (p : Fin 2),
      (s.upTo t).portActive p = true := by
  exact ⟨linked, 0, 0, by decide⟩

theorem witness_ChainCreditsPartnersAndAddressesComplete_4_linkctlReceive :
    ∃ (s : State) (t : Nat) (p : Fin 2),
      (s.upTo t).portHears p = true ∧
      ((s.upTo t).repeating p = false ∨ ((s.upTo t).port p).partner ≠ .none) ∧
      ((s.upTo t).commOn = true ∨ ((s.upTo t).port p).partner ≠ .none) := by
  exact ⟨linked, 0, 0, by decide⟩

theorem witness_ChainCreditsPartnersAndAddressesComplete_5_linkctlReceive :
    ∃ (s : State) (t : Nat) (p : Fin 2),
      (s.upTo t).portHears p = true ∧
      (s.upTo t).repeating p = true ∧
      ((s.upTo t).port p).partner = .none := by
  exact ⟨repeatingUnit, 0, 0, by decide⟩

theorem witness_ChainCreditsPartnersAndAddressesComplete_6_partnerChangeTimeout :
    ∃ (s : State) (t : Nat) (p : Fin 2) (x : Nat) (y : Bool),
      (s.upTo t).power.comm ≠ .off ∧
      ((s.upTo t).port p).partner = .changing x y ∧
      x + 1000000 ≤ (s.upTo t).now := by
  exact ⟨{ live with chain := { up := { partner := .changing 0 true } } }, 1000000, 0, 0, true, by decide⟩

theorem witness_ChainCreditsPartnersAndAddressesComplete_7_portJoin :
    ∃ (s : State) (t : Nat),
      (s.upTo t).commOn = true ∧
      (s.upTo t).bit F.PCK_PLL_STAT_REF_XTAL = true ∧
      (s.upTo t).power.changeover = false := by
  exact ⟨live.wr F.PCK_PLL_STAT_REF_XTAL 1, 0, by decide⟩

theorem witness_ChainCreditsPartnersAndAddressesComplete_8_roll :
    ∃ (s : State) (t : Nat),
      (s.upTo t).stores = true ∧
      (s.upTo t).bit F.BLK_ROLE_ROOT = true ∧
      (s.upTo t).rd F.CHN_ROLL_STATE ≠ 1 ∧
      (s.upTo t).commOn = true := by
  exact ⟨live.wr F.BLK_ROLE_ROOT 1, 0, by decide⟩

theorem witness_ChainCreditsPartnersAndAddressesComplete_9_rollReceive :
    ∃ (s : State) (t : Nat) (p : Fin 2) (ok : Bool),
      (s.upTo t).portHears p = true ∧
      ok = true := by
  exact ⟨linked, 0, 0, true, by decide⟩

theorem witness_ChainCreditsPartnersAndAddressesComplete_10_rollReceive :
    ∃ (s : State) (t : Nat) (p : Fin 2) (ok : Bool),
      (s.upTo t).portHears p = true ∧
      ok = false := by
  exact ⟨linked, 0, 0, false, by decide⟩

theorem witness_ChainCreditsPartnersAndAddressesComplete_11_rollTimeout :
    ∃ (s : State) (t : Nat) (x : Nat),
      (s.upTo t).chain.rollAt = some x ∧
      x + 20000000 ≤ (s.upTo t).now := by
  exact ⟨{ live with chain := { rollAt := some 0 } }, 20000000, 0, by decide⟩

theorem witness_ChainCreditsPartnersAndAddressesComplete_12_addressTakeEffect :
    ∃ (s : State) (t : Nat),
      (s.upTo t).bit F.CHN_ADDR_PEND = true ∧
      (s.upTo t).anyRunning = false := by
  exact ⟨live.wr F.CHN_ADDR_PEND 1, 0, by decide⟩

theorem witness_AxisCommandsAreTurnedAway_0_setMode :
    ∃ (s : State) (t : Nat) (r : Fin 4) (c : Cmd),
      (s.upTo t).mayRun r c ∧
      c.opcode = 0x10 ∧
      (c.arg 16 1 = 0 ∨ c.arg 16 1 = 1) ∧
      ((s.upTo t).begin_ r).axes.any ((s.upTo t).begin_ r).starting = true := by
  exact ⟨{ commandedArgs 0x10 [1#8] with fields := [(0, { held := some (cmd0, 0) })] }, 0, 0, cmdArgs 0x10 [1#8], by decide⟩

theorem witness_AxisCommandsAreTurnedAway_1_setMode :
    ∃ (s : State) (t : Nat) (r : Fin 4) (c : Cmd),
      (s.upTo t).mayRun r c ∧
      c.opcode = 0x10 ∧
      c.arg 16 1 = 1 ∧
      ((s.upTo t).begin_ r).axes.any ((s.upTo t).begin_ r).starting = false ∧
      ((s.upTo t).begin_ r).axes.any ((s.upTo t).begin_ r).running = true := by
  exact ⟨(commandedArgs 0x10 [1#8]).wr F.SYS_MODE_AX0_MODE 3, 0, 0, cmdArgs 0x10 [1#8], by decide⟩

theorem witness_AxisCommandsAreTurnedAway_2_arm :
    ∃ (s : State) (t : Nat) (r : Fin 4) (c : Cmd),
      (s.upTo t).mayRun r c ∧
      c.opcode = 0x11 ∧
      (Nat.land (c.arg 18 1) (c.arg 19 1) ≠ 0 ∨ c.arg 17 1 = 3) := by
  exact ⟨commandedArgs 0x11 [0#8, 3#8], 0, 0, cmdArgs 0x11 [0#8, 3#8], by decide⟩

theorem witness_AxisCommandsAreTurnedAway_3_arm :
    ∃ (s : State) (t : Nat) (r : Fin 4) (c : Cmd),
      (s.upTo t).mayRun r c ∧
      c.opcode = 0x11 ∧
      Nat.land (c.arg 18 1) (c.arg 19 1) = 0 ∧
      c.arg 17 1 ≠ 3 ∧
      c.arg 16 1 ≠ 0xFF ∧
      ((s.upTo t).begin_ r).axMode (c.arg 16 1) ≠ 2 := by
  exact ⟨(commandedArgs 0x11 []).wr F.SYS_MODE_AX0_MODE 5, 0, 0, cmdArgs 0x11 [], by decide⟩

theorem witness_AxisCommandsAreTurnedAway_4_arm :
    ∃ (s : State) (t : Nat) (r : Fin 4) (c : Cmd),
      (s.upTo t).mayRun r c ∧
      c.opcode = 0x11 ∧
      Nat.land (c.arg 18 1) (c.arg 19 1) = 0 ∧
      (c.arg 17 1 = 0 ∨ c.arg 17 1 = 2) ∧
      c.arg 16 1 ≠ 0xFF ∧
      ((s.upTo t).begin_ r).axMode (c.arg 16 1) = 2 ∧
      ((s.upTo t).begin_ r).armable (c.arg 16 1) = false := by
  exact ⟨commandedArgs 0x11 [], 0, 0, cmdArgs 0x11 [], by decide⟩

theorem witness_AxisCommandsAreTurnedAway_5_start :
    ∃ (s : State) (t : Nat) (r : Fin 4) (c : Cmd),
      (s.upTo t).mayRun r c ∧
      c.opcode = 0x12 ∧
      (((s.upTo t).begin_ r).axMode (c.arg 16 1) ≠ 2 ∨ ((s.upTo t).begin_ r).axes.any (fun b => ((s.upTo t).begin_ r).axMode b == 5) = true) := by
  exact ⟨(commanded 0x12).wr F.SYS_MODE_AX0_MODE 5, 0, 0, cmdOf 0x12, by decide⟩

theorem witness_AxisCommandsAreTurnedAway_6_start :
    ∃ (s : State) (t : Nat) (r : Fin 4) (c : Cmd),
      (s.upTo t).mayRun r c ∧
      c.opcode = 0x12 ∧
      ((s.upTo t).begin_ r).taskRuns (c.arg 16 1) = false := by
  exact ⟨commanded 0x12, 0, 0, cmdOf 0x12, by decide⟩

theorem witness_AxisCommandsAreTurnedAway_7_start :
    ∃ (s : State) (t : Nat) (r : Fin 4) (c : Cmd),
      (s.upTo t).mayRun r c ∧
      c.opcode = 0x12 ∧
      ((s.upTo t).begin_ r).axMode (c.arg 16 1) = 2 ∧
      ((s.upTo t).begin_ r).axes.any (fun b => ((s.upTo t).begin_ r).axMode b == 5) = false ∧
      ((s.upTo t).begin_ r).starting (c.arg 16 1) = true ∧
      ((s.upTo t).begin_ r).taskRuns (c.arg 16 1) = true := by
  exact ⟨{ (((commanded 0x12).wr F.FSL_CTL_RUN 1).wr (F.FSL_TASK_EN 0) 1) with fields := [(0, { held := some (cmd0, 0) })] }, 0, 0, cmdOf 0x12, by decide⟩

theorem witness_AxisCommandsAreTurnedAway_8_start :
    ∃ (s : State) (t : Nat) (r : Fin 4) (c : Cmd),
      (s.upTo t).mayRun r c ∧
      c.opcode = 0x12 ∧
      ((s.upTo t).begin_ r).axMode (c.arg 16 1) = 2 ∧
      ((s.upTo t).begin_ r).axes.any (fun b => ((s.upTo t).begin_ r).axMode b == 5) = false ∧
      ((s.upTo t).begin_ r).starting (c.arg 16 1) = false ∧
      (((s.upTo t).begin_ r).fc (c.arg 16 1)).armed = false := by
  exact ⟨commanded 0x12, 0, 0, cmdOf 0x12, by decide⟩

theorem witness_AxisCommandsAreTurnedAway_9_start :
    ∃ (s : State) (t : Nat) (r : Fin 4) (c : Cmd),
      (s.upTo t).mayRun r c ∧
      c.opcode = 0x12 ∧
      ((s.upTo t).begin_ r).axMode (c.arg 16 1) = 2 ∧
      ((s.upTo t).begin_ r).axes.any (fun b => ((s.upTo t).begin_ r).axMode b == 5) = false ∧
      ((s.upTo t).begin_ r).starting (c.arg 16 1) = false ∧
      (((s.upTo t).begin_ r).fc (c.arg 16 1)).armed = true ∧
      ((s.upTo t).begin_ r).uz F.BLK_BTINT_BT_ENF = 1 ∧
      (((s.upTo t).begin_ r).uzAx (c.arg 16 1)).btDue = true ∧
      ((s.upTo t).begin_ r).taskRuns (c.arg 16 1) = true := by
  exact ⟨{ (((commanded 0x12).wr F.FSL_CTL_RUN 1).wr (F.FSL_TASK_EN 0) 1) with fields := [(0, { armed := true })], uzs := [(0, { btDue := true })], saf := { shadow := [(F.BLK_BTINT_BT_ENF.off, F.BLK_BTINT_BT_ENF.put 0#32 1)] } }, 0, 0, cmdOf 0x12, by decide⟩

theorem witness_AxisCommandsAreTurnedAway_10_stop :
    ∃ (s : State) (t : Nat) (r : Fin 4) (c : Cmd),
      (s.upTo t).mayRun r c ∧
      c.opcode = 0x13 ∧
      ((s.upTo t).begin_ r).starting (c.arg 16 1) = false ∧
      ((s.upTo t).begin_ r).running (c.arg 16 1) = false := by
  exact ⟨commanded 0x13, 0, 0, cmdOf 0x13, by decide⟩

theorem witness_AxisCommandsAreTurnedAway_11_loadProfileTable :
    ∃ (s : State) (t : Nat) (r : Fin 4) (c : Cmd),
      (s.upTo t).mayRun r c ∧
      c.opcode = 0x16 ∧
      c.arg 17 1 = 1 ∧
      (c.arg 28 2 = 0 ∨ 1024 < c.arg 28 2 ∨ c.arg 32 4 / 16 * 16 < 0x2000 ∨ 0x40000 < c.arg 32 4 / 16 * 16 + 16 * c.arg 28 2) := by
  exact ⟨commandedArgs 0x16 [0#8, 1#8], 0, 0, cmdArgs 0x16 [0#8, 1#8], by decide⟩

theorem witness_AxisCommandsAreTurnedAway_12_setLimits :
    ∃ (s : State) (t : Nat) (r : Fin 4) (c : Cmd),
      (s.upTo t).mayRun r c ∧
      c.opcode = 0x17 ∧
      (c.arg 17 1).testBit 0 = true ∧
      ((s.upTo t).begin_ r).axMode (c.arg 16 1) ≠ 2 := by
  exact ⟨(commandedArgs 0x17 [0#8, 1#8]).wr F.SYS_MODE_AX0_MODE 3, 0, 0, cmdArgs 0x17 [0#8, 1#8], by decide⟩

theorem witness_AxisCommandsAreTurnedAway_13_brakeTest :
    ∃ (s : State) (t : Nat) (r : Fin 4) (c : Cmd),
      (s.upTo t).mayRun r c ∧
      c.opcode = 0x18 ∧
      (((s.upTo t).begin_ r).axMode (c.arg 16 1) ≠ 2 ∨ (((s.upTo t).begin_ r).fc (c.arg 16 1)).armed = false ∨ ((s.upTo t).begin_ r).hasBrake (c.arg 16 1) = false) := by
  exact ⟨commanded 0x18, 0, 0, cmdOf 0x18, by decide⟩

theorem witness_AxisCommandsAreTurnedAway_14_discharge :
    ∃ (s : State) (t : Nat) (r : Fin 4) (c : Cmd),
      (s.upTo t).mayRun r c ∧
      c.opcode = 0x19 ∧
      ((s.upTo t).begin_ r).axes.any ((s.upTo t).begin_ r).running = true := by
  exact ⟨(commanded 0x19).wr F.SYS_MODE_AX0_MODE 3, 0, 0, cmdOf 0x19, by decide⟩

theorem witness_AxisCommandsAreTurnedAway_15_handoverPolicy :
    ∃ (s : State) (t : Nat) (r : Fin 4) (c : Cmd),
      (s.upTo t).mayRun r c ∧
      c.opcode = 0x1A ∧
      ((s.upTo t).begin_ r).policyFree = false := by
  exact ⟨((commanded 0x1A).wr (F.MOT_HOV_CFG_EN 0) 1).wr (F.MOT_HOV_STAT_STATE 0) 1, 0, 0, cmdOf 0x1A, by decide⟩

theorem witness_DataCommandsAreTurnedAway_0_traceRead :
    ∃ (s : State) (t : Nat) (r : Fin 4) (c : Cmd),
      (s.upTo t).mayRun r c ∧
      c.opcode = 0x31 ∧
      ((s.upTo t).begin_ r).rd F.FSL_TRC_STAT_STATE ≠ 3 := by
  exact ⟨commanded 0x31, 0, 0, cmdOf 0x31, by decide⟩

theorem witness_DataCommandsAreTurnedAway_1_traceRead :
    ∃ (s : State) (t : Nat) (r : Fin 4) (c : Cmd),
      (s.upTo t).mayRun r c ∧
      c.opcode = 0x31 ∧
      ((s.upTo t).begin_ r).rd F.FSL_TRC_STAT_STATE = 3 ∧
      (c.arg 28 4 % 64 ≠ 0 ∨ 524288 < c.arg 28 4) := by
  exact ⟨(commandedArgs 0x31 stageArgs).wr F.FSL_TRC_STAT_STATE 3, 0, 0, cmdArgs 0x31 stageArgs, by decide⟩

theorem witness_DataCommandsAreTurnedAway_2_journalQuery :
    ∃ (s : State) (t : Nat) (r : Fin 4) (c : Cmd),
      (s.upTo t).mayRun r c ∧
      c.opcode = 0x40 ∧
      (c.arg 20 8 = 0 ∨ ((s.upTo t).begin_ r).rd64 R.JRN_HEAD_SEQ_LO R.JRN_HEAD_SEQ_HI < c.arg 20 8 ∨ c.arg 36 2 = 0 ∨ 2048 < c.arg 36 2) := by
  exact ⟨commanded 0x40, 0, 0, cmdOf 0x40, by decide⟩

theorem witness_DataCommandsAreTurnedAway_3_recRead :
    ∃ (s : State) (t : Nat) (r : Fin 4) (c : Cmd),
      (s.upTo t).mayRun r c ∧
      c.opcode = 0x50 ∧
      ((s.upTo t).begin_ r).recd.rnum ≤ c.arg 20 8 := by
  exact ⟨commanded 0x50, 0, 0, cmdOf 0x50, by decide⟩

theorem witness_DataCommandsAreTurnedAway_4_recMark :
    ∃ (s : State) (t : Nat) (r : Fin 4) (c : Cmd),
      (s.upTo t).mayRun r c ∧
      c.opcode = 0x51 ∧
      c.arg 17 1 = 1 ∧
      ((s.upTo t).begin_ r).bit F.SEC_BOOT_STAT_ID_OK = false := by
  exact ⟨commandedArgs 0x51 [0#8, 1#8], 0, 0, cmdArgs 0x51 [0#8, 1#8], by decide⟩

theorem witness_DataCommandsAreTurnedAway_5_recMark :
    ∃ (s : State) (t : Nat) (r : Fin 4) (c : Cmd),
      (s.upTo t).mayRun r c ∧
      c.opcode = 0x51 ∧
      c.arg 17 1 ≠ 1 ∧
      ((s.upTo t).begin_ r).canWrite = false := by
  exact ⟨commanded 0x51, 0, 0, cmdOf 0x51, by decide⟩

theorem witness_DataCommandsAreTurnedAway_6_fwStage :
    ∃ (s : State) (t : Nat) (r : Fin 4) (c : Cmd),
      (s.upTo t).mayRun r c ∧
      c.opcode = 0x60 ∧
      (2 < c.arg 16 1 ∨ 65536 < c.arg 32 4) := by
  exact ⟨commandedArgs 0x60 [3#8], 0, 0, cmdArgs 0x60 [3#8], by decide⟩

theorem witness_DataCommandsAreTurnedAway_7_fwStage :
    ∃ (s : State) (t : Nat) (r : Fin 4) (c : Cmd),
      (s.upTo t).mayRun r c ∧
      c.opcode = 0x60 ∧
      c.arg 16 1 ≤ 2 ∧
      c.arg 32 4 ≤ 65536 ∧
      c.arg 28 4 + c.arg 32 4 ≤ 17120 + payloadLimit (if c.arg 16 1 = 0 then 1 else if c.arg 16 1 = 1 then 2 else 5) ∧
      ((s.upTo t).begin_ r).canWrite = false := by
  exact ⟨commanded 0x60, 0, 0, cmdOf 0x60, by decide⟩

theorem witness_DataCommandsAreTurnedAway_8_fwCommitActivate :
    ∃ (s : State) (t : Nat) (r : Fin 4) (c : Cmd),
      (s.upTo t).mayRun r c ∧
      c.opcode = 0x61 ∧
      (c.arg 16 1).testBit 0 = true ∧
      ((s.upTo t).begin_ r).axes.any ((s.upTo t).begin_ r).running = true := by
  exact ⟨(commandedArgs 0x61 [1#8]).wr F.SYS_MODE_AX0_MODE 3, 0, 0, cmdArgs 0x61 [1#8], by decide⟩

theorem witness_DataCommandsAreTurnedAway_9_fwCommitAdvance :
    ∃ (s : State) (t : Nat) (r : Fin 4) (c : Cmd),
      (s.upTo t).mayRun r c ∧
      c.opcode = 0x61 ∧
      (c.arg 16 1).testBit 0 = false ∧
      ((s.upTo t).begin_ r).axes.any ((s.upTo t).begin_ r).running = true := by
  exact ⟨(commandedArgs 0x61 [2#8]).wr F.SYS_MODE_AX0_MODE 3, 0, 0, cmdArgs 0x61 [2#8], by decide⟩

theorem witness_DataCommandsAreTurnedAway_10_attest :
    ∃ (s : State) (t : Nat) (r : Fin 4) (c : Cmd),
      (s.upTo t).mayRun r c ∧
      c.opcode = 0x70 ∧
      ((s.upTo t).begin_ r).bit F.SEC_BOOT_STAT_ID_OK = false := by
  exact ⟨commanded 0x70, 0, 0, cmdOf 0x70, by decide⟩

theorem witness_DataCommandsAreTurnedAway_11_attest :
    ∃ (s : State) (t : Nat) (r : Fin 4) (c : Cmd),
      (s.upTo t).mayRun r c ∧
      c.opcode = 0x70 ∧
      ((s.upTo t).begin_ r).bit F.SEC_BOOT_STAT_ID_OK = true ∧
      ((s.upTo t).begin_ r).sec.attest.isSome = true := by
  exact ⟨{ (commanded 0x70).wr F.SEC_BOOT_STAT_ID_OK 1 with sec := { attest := some (cmd0, 0) } }, 0, 0, cmdOf 0x70, by decide⟩

theorem witness_DataCommandsAreTurnedAway_12_chainSend :
    ∃ (s : State) (t : Nat) (r : Fin 4) (c : Cmd),
      (s.upTo t).mayRun r c ∧
      c.opcode = 0x80 ∧
      (256 < c.arg 32 2 ∨ c.arg 20 2 = 0 ∨ c.arg 20 2 = ((s.upTo t).begin_ r).chainAddr ∨ 0x3FFF < c.arg 20 2) := by
  exact ⟨commanded 0x80, 0, 0, cmdOf 0x80, by decide⟩

theorem witness_DataCommandsAreTurnedAway_13_tlmConfig :
    ∃ (s : State) (t : Nat) (r : Fin 4) (c : Cmd),
      (s.upTo t).mayRun r c ∧
      c.opcode = 0xA0 ∧
      (1 < c.arg 16 1 ∨ c.arg 18 2 = 0) := by
  exact ⟨commanded 0xA0, 0, 0, cmdOf 0xA0, by decide⟩

theorem witness_DataCommandsAreTurnedAway_14_canConfigure :
    ∃ (s : State) (t : Nat) (r : Fin 4) (c : Cmd),
      (s.upTo t).mayRun r c ∧
      c.opcode = 0x90 ∧
      c.arg 17 1 = 1 ∧
      ((s.upTo t).begin_ r).canOwns (c.arg 16 1) (c.arg 18 2) = true := by
  exact ⟨(commandedArgs 0x90 [0#8, 1#8]).wr ⟨R.CAN_OWN 0 0, 0, 1⟩ 1, 0, 0, cmdArgs 0x90 [0#8, 1#8], by decide⟩

theorem witness_DataCommandsAreTurnedAway_15_canTransmit :
    ∃ (s : State) (t : Nat) (r : Fin 4) (c : Cmd) (x : Nat),
      (s.upTo t).mayRun r c ∧
      c.opcode = 0x90 ∧
      c.arg 17 1 = 2 ∧
      ((s.upTo t).begin_ r).canRefusal (c.arg 16 1) (c.arg 18 2) = some x := by
  exact ⟨commandedArgs 0x90 [0#8, 2#8], 0, 0, cmdArgs 0x90 [0#8, 2#8], stArg, by decide⟩

theorem witness_DataCommandsAreTurnedAway_16_canDisable :
    ∃ (s : State) (t : Nat) (r : Fin 4) (c : Cmd),
      (s.upTo t).mayRun r c ∧
      c.opcode = 0x90 ∧
      c.arg 17 1 = 4 ∧
      (((s.upTo t).begin_ r).canObj (c.arg 16 1) (c.arg 18 2)).flag 0 = true ∧
      ((s.upTo t).begin_ r).canOwns (c.arg 16 1) (c.arg 18 2) = true := by
  exact ⟨{ (commandedArgs 0x90 [0#8, 4#8]).wr ⟨R.CAN_OWN 0 0, 0, 1⟩ 1 with can0 := { objs := [(0, { flags := 1 })] } }, 0, 0, cmdArgs 0x90 [0#8, 4#8], by decide⟩

theorem witness_DataCommandsAreTurnedAway_17_canStart :
    ∃ (s : State) (t : Nat) (r : Fin 4) (c : Cmd),
      (s.upTo t).mayRun r c ∧
      c.opcode = 0x90 ∧
      c.arg 17 1 = 0x10 ∧
      ((s.upTo t).begin_ r).bit (F.CAN_CTL_INIT (c.arg 16 1)) = true ∧
      ((s.upTo t).begin_ r).canTimingBad (c.arg 16 1) = true := by
  exact ⟨canTimed.wr (F.CAN_NBT_NTSEG1 0) 0, 0, 0, cmdArgs 0x90 [0#8, 0x10#8], by decide⟩

theorem witness_DataCommandsAreTurnedAway_18_canRecover :
    ∃ (s : State) (t : Nat) (r : Fin 4) (c : Cmd),
      (s.upTo t).mayRun r c ∧
      c.opcode = 0x90 ∧
      c.arg 17 1 = 0x12 ∧
      ((s.upTo t).begin_ r).rd (F.CAN_STAT_STATE (c.arg 16 1)) ≠ 3 := by
  exact ⟨commandedArgs 0x90 [0#8, 0x12#8], 0, 0, cmdArgs 0x90 [0#8, 0x12#8], by decide⟩

/-! ## Witnesses of the statements about the whole machine -/

theorem witness_EveryStepKeepsTheInvariant :
    ∃ (s : State) (c : Instr) (rest : List Instr), s.canon = true ∧ s.pending = c :: rest :=
  ⟨{ live with pending := [.desaturation 5 0] }, .desaturation 5 0, [], by decide⟩

theorem witness_EveryQueueRunsOut : ∃ s : State, s.canon = true ∧ s.pending.length = 2 :=
  ⟨{ live with pending := [.desaturation 5 0, .hardShort 7 11] }, by decide⟩

theorem witness_GateEdgeLeavesALatchedChannelOff_softOff :
    ∃ (s : State) (t : Nat) (m : Fin 12), ((s.upTo t).ch m).st = .softOff :=
  ⟨{ live with gates := [(11, { st := .softOff })] }, 0, 11, by decide⟩

theorem witness_GateEdgeLeavesALatchedChannelOff_latched :
    ∃ (s : State) (t : Nat) (m : Fin 12), ((s.upTo t).ch m).st = .latched :=
  ⟨{ live with gates := [(0, { st := .latched })] }, 0, 0, by decide⟩

theorem witness_HostWindowWriteTouchesItsWord :
    ∃ (s : State) (t : Nat) (off : BitVec 21),
      (s.upTo t).cpuOn = true ∧ (s.upTo t).commOn = true ∧ off.toNat < 0x80000 :=
  ⟨live, 0, 0x7FFFF, by decide⟩

/-- The module after a host's read of REC_HEAD_LO. -/
def headRead : State := live.readOut 0 R.REC_HEAD_LO

theorem witness_LoReadFreezesItsHi :
    ∃ (s v : State) (t t' : Nat) (who : Reader) (lo hi : BitVec 21) (r : State),
      lo.toNat % 4 = 0 ∧ hi.toNat ∈ State.freezes lo.toNat ∧ (s.upTo t).blockPowered (lo.toNat / 0x10000) = true ∧
      (s.upTo t).rd F.SYS_MODE_PHASE ≠ 1 ∧ (s.upTo t).granted who.code (lo.toNat / 0x10000) ∧ (∀ f ∈ (s.upTo t).hif.frz, f.1 = who.code → f.2.1 ≠ lo.toNat) ∧
      exec (.splitLoRead t who false lo) s = .next r ∧ (v.upTo t').hif.frz = r.hif.frz ∧
      (v.upTo t').blockPowered (hi.toNat / 0x10000) = true ∧ (v.upTo t').rd F.SYS_MODE_PHASE ≠ 1 ∧
      (v.upTo t').granted who.code (hi.toNat / 0x10000) :=
  ⟨live, headRead, 0, 0, .host, BitVec.ofNat 21 R.REC_HEAD_LO, BitVec.ofNat 21 (R.REC_HEAD_LO + 4), headRead, by decide,
    by decide, by decide, by decide, by decide, by decide, rfl, rfl, by decide, by decide, by decide⟩

/-- The module after a host's read of word 0 of the last slot of the aperture. -/
def slotRead : State := live.readOut 0 (0x48000 + 32 * 1023)

theorem witness_ApertureWordsComeFromTheSnapshot :
    ∃ (s v : State) (t t' : Nat) (who : Reader) (slot k : Nat) (r : State),
      slot < 1024 ∧ 0 < k ∧ k < 8 ∧ (s.upTo t).cpuOn = true ∧ (s.upTo t).rd F.SYS_MODE_PHASE ≠ 1 ∧
      (s.upTo t).granted who.code 4 ∧ exec (.journalApertureRead t who slot) s = .next r ∧ (v.upTo t').hif.snaps = r.hif.snaps ∧
      (v.upTo t').cpuOn = true ∧ (v.upTo t').rd F.SYS_MODE_PHASE ≠ 1 ∧ (v.upTo t').granted who.code 4 :=
  ⟨live, slotRead, 0, 0, .host, 1023, 7, slotRead, by decide, by decide, by decide, by decide, by decide, by decide, rfl,
    rfl, by decide, by decide, by decide⟩

theorem witness_ReadsOfNothingReturnZero_above : ∃ off : BitVec 21, 0x120000 ≤ off.toNat := ⟨0x120000, by decide⟩

theorem witness_ReadsOfNothingReturnZero_unpowered :
    ∃ (s : State) (t : Nat) (off : BitVec 21), (s.upTo t).blockPowered (off.toNat / 0x10000) = false :=
  ⟨State.reset, 0, 0x60000, by decide⟩

theorem witness_ReadsOfNothingReturnZero_unnamed :
    ∃ off : BitVec 21, findRow (off.toNat / 4 * 4) = none ∧ ¬(0x48000 ≤ off.toNat ∧ off.toNat < 0x50000) ∧
      ¬(0xD1000 ≤ off.toNat ∧ off.toNat < 0xD3000) :=
  ⟨0x6FFFF, by decide, by decide, by decide⟩

theorem witness_HostWritesElsewhereAreIgnored :
    ∃ (s : State) (t : Nat) (off : BitVec 21),
      off.toNat % 4 = 0 ∧ (s.upTo t).commOn = true ∧ (s.upTo t).rd F.SYS_MODE_PHASE ≠ 1 ∧
      (s.upTo t).bit F.BLK_CTL_LOCK = false ∧ (s.upTo t).hif.pcie.d3hot = false ∧
      (off.toNat / 0x10000 ≠ 3 ∨ (0x30400 ≤ off.toNat ∧ off.toNat < 0x30480) ∨ findRow off.toNat = none) ∧ off.toNat ≠ R.CPX_CTL ∧
      off.toNat ≠ R.SEC_RECOVERY :=
  ⟨live, 0, 0x40000, by decide⟩

theorem witness_HostWritesElsewhereAreIgnored_telemetry :
    ∃ (s : State) (t : Nat) (off : BitVec 21),
      off.toNat % 4 = 0 ∧ (s.upTo t).commOn = true ∧ (s.upTo t).rd F.SYS_MODE_PHASE ≠ 1 ∧
      (s.upTo t).bit F.BLK_CTL_LOCK = false ∧ (s.upTo t).hif.pcie.d3hot = false ∧ 0x30400 ≤ off.toNat ∧ off.toNat < 0x30480 ∧ off.toNat ≠ R.CPX_CTL ∧
      off.toNat ≠ R.SEC_RECOVERY :=
  ⟨live, 0, 0x3047C, by decide⟩

theorem witness_HostWritesElsewhereAreIgnored_unnamed :
    ∃ (s : State) (t : Nat) (off : BitVec 21),
      off.toNat % 4 = 0 ∧ (s.upTo t).commOn = true ∧ (s.upTo t).rd F.SYS_MODE_PHASE ≠ 1 ∧
      (s.upTo t).bit F.BLK_CTL_LOCK = false ∧ (s.upTo t).hif.pcie.d3hot = false ∧ findRow off.toNat = none ∧
      off.toNat ≠ R.CPX_CTL ∧ off.toNat ≠ R.SEC_RECOVERY :=
  ⟨live, 0, 0x30008, by decide⟩

theorem witness_PartialWritesAreDiscarded_misaligned : ∃ off : BitVec 21, off.toNat % 4 ≠ 0 := ⟨3, by decide⟩

theorem witness_PartialWritesAreDiscarded_enables :
    ∃ (src : Writer) (off : BitVec 21) (be : BitVec 4), be ≠ 0xF#4 ∧
      (src = .core ∨ src = .debugger ∨ 
        (off.toNat / 0x10000 = 3 ∧ ¬(0x30400 ≤ off.toNat ∧ off.toNat < 0x30480) ∧ findRow off.toNat ≠ none) ∨
        off.toNat = R.CPX_CTL) :=
  ⟨.host, BitVec.ofNat 21 (R.HIF_RCFG 0), 7#4, by decide⟩

theorem witness_InstructionsRunInsideTheirTask_off : ∃ (s : State) (t : Nat), (s.upTo t).ctlOn = false ∧ (s.upTo t).noRoom 1 :=
  ⟨State.reset, 0, by decide, Or.inl (by decide)⟩

theorem witness_InstructionsRunInsideTheirTask_none :
    ∃ (s : State) (t : Nat), (s.upTo t).ctlOn = true ∧ (s.upTo t).fsl.task = none ∧ (s.upTo t).noRoom 8 :=
  ⟨live, 0, by decide, by decide, Or.inr (Or.inl (by decide))⟩

theorem witness_InstructionsRunInsideTheirTask_limit :
    ∃ (s : State) (t : Nat) (k : FTask), (s.upTo t).ctlOn = true ∧ (s.upTo t).fsl.task = some k ∧ (s.upTo t).noRoom 1 :=
  ⟨{ tasked with fsl := { live.fsl with task := some { task0 with cyc := 2000 } } }, 0, { task0 with cyc := 2000 }, by decide, by decide, Or.inr (Or.inr ⟨{ task0 with cyc := 2000 }, by decide, by decide⟩)⟩

theorem witness_CommandsWaitForTheirRing :
    ∃ (s : State) (t : Nat) (r : Fin 4), (s.upTo t).runningCmd r = none ∧ (s.upTo t).awake = false ∧
      (s.upTo t).heldBack r :=
  ⟨State.reset, 0, 3, by decide, by decide, Or.inl (by decide)⟩

theorem witness_CommandsWaitForTheirRing_stalemate :
    ∃ (s : State) (t : Nat) (r : Fin 4), (s.upTo t).rd F.CPX_STAT_VOTE = 2 ∧
      (s.upTo t).cores.begun.contains r.val = true ∧ (s.upTo t).heldBack r :=
  ⟨{ live.wr F.CPX_STAT_VOTE 2 with cores := { begun := [3] } }, 0, 3, by decide, by decide,
    Or.inr (Or.inr (Or.inl (by decide)))⟩

theorem witness_JournalHeadReadCompletes_unpowered : ∃ (s : State) (t : Nat), (s.upTo t).cpuOn = false :=
  ⟨State.reset, 0, by decide⟩

theorem witness_JournalHeadReadCompletes_barred : ∃ (s : State) (t : Nat), ¬(s.upTo t).granted (Reader.code .debugger) 4 :=
  ⟨live, 0, by decide⟩

theorem witness_JournalHeadReadCompletes :
    ∃ (s : State) (t : Nat) (who : Reader), (s.upTo t).cpuOn = true ∧ ((s.upTo t).rd F.SYS_MODE_PHASE = 1 → who = .core ∨ who = .debugger) ∧
      (s.upTo t).granted who.code 4 ∧ ∀ f ∈ (s.upTo t).hif.frz, f.1 = who.code → f.2.1 ≠ R.JRN_HEAD_SEQ_LO :=
  ⟨live, 0, .host, by decide⟩

theorem witness_JournalHeadReadCompletes_frozen :
    ∃ (s : State) (t : Nat) (who : Reader) (f : Nat × Nat × BitVec 32), (s.upTo t).cpuOn = true ∧
      ((s.upTo t).rd F.SYS_MODE_PHASE = 1 → who = .core ∨ who = .debugger) ∧ (s.upTo t).granted who.code 4 ∧
      (s.upTo t).hif.frz.find? (fun f => f.1 == who.code && f.2.1 == R.JRN_HEAD_SEQ_LO) = some f :=
  ⟨{ live with hif := { live.hif with frz := [(0, R.JRN_HEAD_SEQ_LO, 7#32)] } }, 0, .host, (0, R.JRN_HEAD_SEQ_LO, 7#32), by decide⟩

theorem witness_HousekeepingRoundsComplete_operands :
    (.hkpRound 0 (List.replicate 24 512) (List.replicate 12 ⟨0, 0, 0, 0⟩) : Instr).wf = true := by decide

theorem witness_MotionWritesAreAcceptedInReadyOnly_ready :
    ∃ (s : State) (t : Nat) (a : Fin 2) (off : BitVec 21), off.toNat = R.MOT_GEN_VMAX a ∧ (s.upTo t).ctlOn = true ∧
      (s.upTo t).passing = true ∧ (s.upTo t).pmpAllows 0 true (0x40000000 + off.toNat) = true ∧ (s.upTo t).mode = 2 :=
  ⟨live, 0, 1, BitVec.ofNat 21 (R.MOT_GEN_VMAX 1), by decide⟩

theorem witness_MotionWritesAreAcceptedInReadyOnly_other :
    ∃ (s : State) (t : Nat) (a : Fin 2) (off : BitVec 21), off.toNat = R.MOT_CFG a ∧ (s.upTo t).ctlOn = true ∧
      (s.upTo t).passing = true ∧ (s.upTo t).pmpAllows 0 true (0x40000000 + off.toNat) = true ∧ (s.upTo t).mode ≠ 2 :=
  ⟨driving, 0, 0, BitVec.ofNat 21 (R.MOT_CFG 0), by decide⟩

end Sys2Proof.Tests
end

section
/-!
PROOFS. The statements of 00_scope.md: the step and the run of the queue keep the invariant, register accesses end in the
shared read and write of an initiator, and a misaligned or partial write leaves only the time.
-/

namespace Sys2Proof.Machine

/-! ## The queue and its run (log entries 2, 4 and 6) -/

/-- The form of the stores and the clock do not depend on what waits. -/
theorem Kept.withQueue {q p : List Instr} {n : Nat} {s : State} (h : Kept q n s) :
    Kept p n { s with pending := p } := ⟨rfl, h.clock, h.canon⟩

theorem step_of_pending {s : State} {c : Instr} {rest : List Instr} (h : s.pending = c :: rest) :
    step s = exec c { s with pending := rest } := by
  unfold step
  rw [h]

/-- The invariant through one step: the front command leaves the queue and moves the clock up to its instant. -/
theorem step_kept {c : Instr} {rest : List Instr} {n : Nat} {s : State} (h : Kept (c :: rest) n s) :
    ∃ r : State, step s = .next r ∧ Kept rest (max n c.time) r := by
  rw [step_of_pending h.queue]
  exact exec_kept c h.withQueue

theorem run_succ_of_step {M : Host.Core} {s r : M.State} (k : Nat) (h : M.step s = .next r) :
    M.run (k + 1) s = M.run k r := by
  simp only [Host.Core.run, h]

/-- The invariant through a whole queue: no command stops the run, and the clock takes every instant on its way. -/
theorem run_kept {q : List Instr} {n : Nat} {s : State} (h : Kept q n s) :
    ∃ r : State, Host.Core.run core q.length s = .next r ∧ Kept [] (q.foldl (fun n c => max n c.time) n) r := by
  induction q generalizing n s with
  | nil => exact ⟨s, rfl, h⟩
  | cons c rest ih =>
    obtain ⟨r, hstep, hr⟩ := step_kept h
    rw [List.length_cons, run_succ_of_step (M := core) rest.length hstep, List.foldl_cons]
    exact ih hr

/-- Settles O45: the invariant of `Kept` holds of the front command's queue, and one step keeps it. -/
theorem everyStepKeepsTheInvariant : Obligations.EveryStepKeepsTheInvariant := by
  intro s c rest hcanon hq
  exact step_kept ⟨hq, rfl, hcanon⟩

/-- Settles O46, by induction on the queue. -/
theorem everyQueueRunsOut : Obligations.EveryQueueRunsOut := by
  intro s hcanon
  exact run_kept ⟨rfl, rfl, hcanon⟩

/-! ## Where register accesses end (R4, R446, R447, R570) -/

theorem exec_registerWrite_bar0 (s : State) (t : Nat) (src : Writer) (off : BitVec 21) (data : BitVec 32) (be : BitVec 4) :
    exec (.registerWrite t src false off data be) s = .next ((s.upTo t).writeReg src off.toNat data be) := rfl

theorem exec_registerWrite_bar2 (s : State) (t : Nat) (src : Writer) (off : BitVec 21) (data : BitVec 32) (be : BitVec 4) :
    exec (.registerWrite t src true off data be) s = .next ((s.upTo t).writeSram src off.toNat data be) := rfl

theorem exec_splitLoRead_bar0 (s : State) (t : Nat) (who : Reader) (off : BitVec 21) (e : Ecc) :
    exec (.splitLoRead t who false off e) s = .next ((s.upTo t).readOut who.code off.toNat e) := rfl

theorem exec_splitLoRead_bar2 (s : State) (t : Nat) (who : Reader) (off : BitVec 21) (e : Ecc) :
    exec (.splitLoRead t who true off e) s =
      .next ((s.upTo t).emit (.read (2 ^ 31 + off.toNat) ((s.upTo t).readSram who.code off.toNat))) := rfl

/-- The aperture has 1,024 slots, and a slot inside it is read where it stands (R446). -/
theorem exec_journalApertureRead (s : State) (t : Nat) (who : Reader) {slot : Nat} (h : slot < 1024) :
    exec (.journalApertureRead t who slot) s = .next ((s.upTo t).readOut who.code (0x48000 + 32 * slot)) := by
  show Host.Outcome.next ((s.upTo t).readOut who.code (0x48000 + 32 * (slot % 1024))) = _
  rw [Nat.mod_eq_of_lt h]

theorem exec_journalHeadRead (s : State) (t : Nat) (who : Reader) :
    exec (.journalHeadRead t who) s = .next ((s.upTo t).readOut who.code R.JRN_HEAD_SEQ_LO) := rfl

/-- Settles O31: each row in the read or write it ends in. -/
theorem registersReadAndWrite : Obligations.RegistersReadAndWrite := by
  refine ⟨?_, ?_, ?_, ?_, ?_, ?_⟩
  · rintro s t src _ off data be u rfl
    exact exec_registerWrite_bar0 s t src off data be
  · rintro s t src _ off data be u rfl
    exact exec_registerWrite_bar2 s t src off data be
  · rintro s t who _ off e u rfl
    exact exec_splitLoRead_bar2 s t who off e
  · rintro s t who _ off e u rfl
    exact exec_splitLoRead_bar0 s t who off e
  · intro s t who slot u hslot
    exact exec_journalApertureRead s t who hslot
  · exact exec_journalHeadRead

/-! ## Writes that are discarded (R4, log entry 56) -/

theorem State.writeReg_misaligned (s : State) (src : Writer) {off : Nat} (d : BitVec 32) (be : BitVec 4)
    (h : off % 4 ≠ 0) : s.writeReg src off d be = s := by
  unfold State.writeReg
  exact if_pos h

/-- A core and a debugger write whole words only. -/
theorem State.writeReg_inner_partial (s : State) {src : Writer} (off : Nat) (d : BitVec 32) {be : BitVec 4}
    (hsrc : src = .core ∨ src = .debugger) (hbe : be ≠ 0xF#4) : s.writeReg src off d be = s := by
  have hfull : (be == 0xF#4) = false := by simpa using hbe
  rcases hsrc with rfl | rfl <;> simp only [State.writeReg, hfull, Bool.false_eq_true, if_false, ite_self]

/-- At a named register where host writes take effect, SEC_RECOVERY apart, a partial write does nothing: it is no write
of a locked field, it is not out of place, and only a whole word is stored. -/
theorem State.hostWrite_partial (s : State) (src : Writer) {off : Nat} (d : BitVec 32) (hplace : State.hostPlace off = true)
    (hrec : off ≠ R.SEC_RECOVERY) (hrow : findRow off ≠ none) : s.hostWrite src off d false = s := by
  have hnone : (findRow off).isNone = false := Option.isNone_eq_false_iff.mpr (Option.isSome_iff_ne_none.mpr hrow)
  unfold State.hostWrite
  split
  · rfl
  · split
    · rw [if_neg (fun h => hrec h.1)]
      rfl
    · rw [hplace, hnone, bne_iff_ne.mpr hrec]
      rfl

/-- Block 3 outside the telemetry registers takes host writes (R408); SEC_RECOVERY lies in block 17. -/
theorem State.hostPlace_of_hif {off : Nat} (hblk : off / 0x10000 = 3) (htlm : ¬(0x30400 ≤ off ∧ off < 0x30480)) :
    State.hostPlace off = true ∧ off ≠ R.SEC_RECOVERY := by
  refine ⟨?_, ?_⟩
  · have h : (decide (0x30400 ≤ off) && decide (off < 0x30480)) = false := by
      rw [← Bool.decide_and, decide_eq_false htlm]
    rw [State.hostPlace, hblk, h]
    rfl
  · rintro rfl
    exact absurd hblk (by decide)

/-- CPX_CTL is a named register that takes host writes (R408). -/
theorem State.hostPlace_cpxCtl :
    State.hostPlace R.CPX_CTL = true ∧ R.CPX_CTL ≠ R.SEC_RECOVERY ∧ findRow R.CPX_CTL ≠ none := by decide

/-- Whoever sends it, a partial write to a named place of host writes is discarded: hosts come to `hostWrite`, and the
others write whole words only. -/
theorem State.writeReg_partial (s : State) (src : Writer) {off : Nat} (d : BitVec 32) {be : BitVec 4} (hbe : be ≠ 0xF#4)
    (hplace : State.hostPlace off = true) (hrec : off ≠ R.SEC_RECOVERY) (hrow : findRow off ≠ none) :
    s.writeReg src off d be = s := by
  have hfull : (be == 0xF#4) = false := by simpa using hbe
  have hhost : ∀ w, s.hostWrite w off d false = s := fun w => s.hostWrite_partial w d hplace hrec hrow
  cases src with
  | core => exact s.writeReg_inner_partial off d (.inl rfl) hbe
  | debugger => exact s.writeReg_inner_partial off d (.inr rfl) hbe
  | host => simp only [State.writeReg, hfull, hhost, ite_self]
  | chainHost => simp only [State.writeReg, hfull, hhost, ite_self]

/-- Settles O54, by the reason for which the write is discarded. -/
theorem partialWritesAreDiscarded : Obligations.PartialWritesAreDiscarded := by
  intro s t src off data be h
  rw [exec_registerWrite_bar0]
  refine congrArg Host.Outcome.next ?_
  rcases h with halign | ⟨hbe, hcore | hdbg | ⟨hblk, htlm, hrow⟩ | hcpx⟩
  · exact State.writeReg_misaligned _ src data be halign
  · exact State.writeReg_inner_partial _ _ data (.inl hcore) hbe
  · exact State.writeReg_inner_partial _ _ data (.inr hdbg) hbe
  · obtain ⟨hplace, hrec⟩ := State.hostPlace_of_hif hblk htlm
    exact State.writeReg_partial _ src data hbe hplace hrec hrow
  · obtain ⟨hplace, hrec, hrow⟩ := State.hostPlace_cpxCtl
    rw [hcpx]
    exact State.writeReg_partial _ src data hbe hplace hrec hrow

end Sys2Proof.Machine
end

section
/-!
PROOFS. The statements of 01_architecture.md: the carriers' reloads and update events, and the commands of the PWM
generator that keep the carriers in step.
-/

namespace Sys2Proof.Machine

/-! ## Reloads and update events (R14, R127, R133) -/

/-- Carrier 1 reloads where it has outputs of its own, or as the shadow of carrier 0 (R122, R128). -/
theorem State.carrier1_not_idle {s : State} {c : Fin 2} (h : c = 0 ∨ s.noCarrier1 = false ∨ s.quad = true) :
    (c.val == 1 && s.noCarrier1 && !s.quad) = false := by
  rcases h with rfl | h | h
  · rfl
  · simp [h]
  · simp [h]

/-- Nothing holds a reload back: the guard of `State.reload` stays open (R127, R156). -/
theorem State.reload_not_barred {s : State} {c : Fin 2} {p : ReloadPoint} (hctl : s.ctlOn = true)
    (hpll : s.power.pllbHeld = false) (hmode : s.reloads c p = true)
    (hcar : c = 0 ∨ s.noCarrier1 = false ∨ s.quad = true) (hdue : s.pointDue c p = true) :
    ¬(!s.ctlOn || s.power.pllbHeld || !s.reloads c p || (c.val == 1 && s.noCarrier1 && !s.quad) || !s.pointDue c p) =
      true := by
  rw [State.carrier1_not_idle hcar]
  simp [hctl, hpll, hmode, hdue]

/-- An update event that is due is issued once in its instant: the guard of `State.updateEvent` stays open (R14). -/
theorem State.updateEvent_not_barred {s : State} {a : Fin 2} (hctl : s.ctlOn = true) (hpll : s.power.pllbHeld = false)
    (haxis : s.axes.contains a.val = true) (hdue : s.updateDue a = true)
    (hfresh : (s.fsa a).evAt = 0 ∨ (s.fsa a).evAt ≠ s.now) :
    ¬(!s.ctlOn || s.power.pllbHeld || !s.axes.contains a.val || !s.updateDue a ||
      ((s.fsa a).evAt != 0 && (s.fsa a).evAt == s.now)) = true := by
  have hissued : ((s.fsa a).evAt != 0 && (s.fsa a).evAt == s.now) = false := by
    rcases hfresh with h | h
    · simp [h]
    · simp [h]
  rw [hissued, haxis]
  simp [hctl, hpll, hdue]

/-! ## Commits (R133, R134, R136) -/

theorem exec_commitWord_of_powered {s : State} {t : Nat} {c : Fin 2} {inGuard : Bool} (hctl : (s.upTo t).ctlOn = true)
    (hstores : (s.upTo t).stores = true) (hguard : inGuard = (s.upTo t).inGuard c 0) :
    exec (.commitWord t c inGuard) s = .next (if (s.upTo t).running c then (s.upTo t).hi (F.PWM_STAT_WR_IGN c)
      else (s.upTo t).commitSet c false) := by
  refine congrArg Host.Outcome.next (if_neg ?_)
  simp [hctl, hstores, hguard]

/-! ## The external sync input (R126) -/

/-- The last edge, where there was one, is two periods old: it does not count as present. -/
theorem edge_not_recent {edgeAt : Option Nat} {now per : Nat} (h : ∀ x, edgeAt = some x → 16 * x + 2 * per ≤ 16 * now) :
    (edgeAt.any fun x => decide (16 * now < 16 * x + 2 * per)) = false := by
  cases edgeAt with
  | none => rfl
  | some x => exact decide_eq_false (not_lt.mpr (h x rfl))

/-- A GPIO4 edge counts only where the pin has its dedicated function (R48). -/
theorem exec_syncInputEdge_of_external {s : State} {t : Nat} {c : Fin 2} (hctl : (s.upTo t).ctlOn = true)
    (hsync : (s.upTo t).syncMode c = 2) :
    exec (.syncInputEdge t c) s = .next (if Config.gpioDedicated 4 then
      (s.upTo t).modCar c fun k => { k with
        aligned := some ((s.upTo t).now + 4 * (s.upTo t).rd (F.PWM_CFG_PHASE c)), edgeAt := some (s.upTo t).now }
      else s.upTo t) := by
  refine congrArg Host.Outcome.next ?_
  by_cases hpin : Config.gpioDedicated 4 = true
  · rw [if_pos ⟨hctl, hsync, hpin⟩, if_pos hpin]
  · rw [if_neg fun ⟨_, _, h⟩ => hpin h, if_neg hpin]

/-! ## Calibration (R131) -/

/-- Every calibration runs while CTL is powered and PLLB is not held. -/
theorem exec_delayLineCalibration_of_powered {s : State} {t : Nat} (span : Nat) (hctl : (s.upTo t).ctlOn = true)
    (hpll : (s.upTo t).power.pllbHeld = false) :
    exec (.delayLineCalibration t span) s = .next ((s.upTo t).calibrate span) := by
  refine congrArg Host.Outcome.next (if_pos ?_)
  simp [hctl, hpll]

/-- Settles O9: for each row, its hypotheses decide the guard of the operation that the row ends in. -/
theorem carriersReloadAndStayInStep : Obligations.CarriersReloadAndStayInStep := by
  refine ⟨?_, ?_, ?_, ?_, ?_, ?_, ?_, ?_, ?_, ?_⟩
  · intro s t c p u hctl hpll hmode hcar hdue
    refine congrArg Host.Outcome.next ((if_neg (State.reload_not_barred hctl hpll hmode hcar hdue)).trans ?_)
    cases p <;> rfl
  · intro s t a u hctl hpll haxis hdue hfresh
    exact congrArg Host.Outcome.next (if_neg (State.updateEvent_not_barred hctl hpll haxis hdue hfresh))
  · intro s t c inGuard u hctl hstores hguard hstopped
    rw [exec_commitWord_of_powered hctl hstores hguard, hstopped]
    rfl
  · intro s t c inGuard u hctl hstores hguard hruns
    rw [exec_commitWord_of_powered hctl hstores hguard, hruns]
    rfl
  · intro s t c u hleak
    exact congrArg Host.Outcome.next (if_pos hleak)
  · intro s t c err u hctl hsync hrun herr
    exact congrArg Host.Outcome.next (if_pos ⟨hctl, hsync, hrun, herr⟩)
  · intro s t c u hctl hsync
    exact exec_syncInputEdge_of_external hctl hsync
  · intro s t c u hctl hsync hmissing
    exact congrArg Host.Outcome.next (if_pos ⟨hctl, hsync, edge_not_recent hmissing⟩)
  · intro s t span u hctl hpll hlow hhigh
    rw [exec_delayLineCalibration_of_powered span hctl hpll]
    exact congrArg Host.Outcome.next (if_pos ⟨hlow, hhigh⟩)
  · intro s t span u hctl hpll hout
    rw [exec_delayLineCalibration_of_powered span hctl hpll]
    exact congrArg Host.Outcome.next (if_neg (by omega))

end Sys2Proof.Machine
end

section
/-!
PROOFS. The statements of 02_module_and_pins.md: the reset pin, the wake pins, the rails of the power sequence, and the
supply of AO.
-/

namespace Sys2Proof.Machine

/-! ## RESET_N and the wake pins (R45, R46, R68, R574, R575) -/

theorem State.cond_of_eq_true {s : State} {b : Bool} (f : State → State) (h : b = true) : s.cond b f = f s := if_pos h

theorem State.cond_of_eq_false {s : State} {b : Bool} (f : State → State) (h : b = false) : s.cond b f = s :=
  if_neg (by simp [h])

/-- A first low of RESET_N acts on the state `v` that row 4 leaves where the module is awake. -/
theorem exec_resetNAssert_of_powered {s v : State} {t : Nat} (hhigh : (s.upTo t).power.resetLow = false)
    (hao : (s.upTo t).power.ao = true)
    (hv : (s.upTo t).cond (s.upTo t).awake (fun u => u.activateRow 4 0) = v) :
    exec (.resetNAssert t) s = .next (if v.power.phase == .rest && v.mode == 0 then
        v.modPwr fun p => { p with resetLow := true }
      else v.resetAll.modPwr fun p => { p with resetLow := true, phase := .held, latched := 0 }) := by
  subst hv
  exact congrArg Host.Outcome.next (if_neg (by simp [hhigh, hao]))

/-- Where the module sleeps, no row acts first. -/
theorem exec_resetNAssert_of_asleep {s : State} {t : Nat} (hhigh : (s.upTo t).power.resetLow = false)
    (hao : (s.upTo t).power.ao = true) (hasleep : (s.upTo t).awake = false) :
    exec (.resetNAssert t) s = .next (if (s.upTo t).power.phase == .rest && (s.upTo t).mode == 0 then
        (s.upTo t).modPwr fun p => { p with resetLow := true }
      else (s.upTo t).resetAll.modPwr fun p => { p with resetLow := true, phase := .held, latched := 0 }) :=
  exec_resetNAssert_of_powered hhigh hao (State.cond_of_eq_false _ hasleep)

/-- A CAN wake pad counts only where PCK_WAKE_EN enables it; WAKE_N always does (R68). -/
theorem exec_wakePinRequest_of_enabled {s : State} {t : Nat} {pin : Fin 3}
    (hcan0 : pin = 1 → (s.upTo t).bit F.PCK_WAKE_EN_CAN0 = true)
    (hcan1 : pin = 2 → (s.upTo t).bit F.PCK_WAKE_EN_CAN1 = true) :
    exec (.wakePinRequest t pin) s = .next (if pin = 0 then (s.upTo t).wake F.PCK_WAKE_SRC_WAKE_PIN
      else if pin = 1 then (s.upTo t).wake F.PCK_WAKE_SRC_CAN0 else (s.upTo t).wake F.PCK_WAKE_SRC_CAN1) := by
  match pin, hcan0, hcan1 with
  | 0, _, _ => rfl
  | 1, hcan0, _ => exact congrArg Host.Outcome.next (if_pos (hcan0 rfl))
  | 2, _, hcan1 => exact congrArg Host.Outcome.next (if_pos (hcan1 rfl))

/-! ## Rails that rise (R51, R567) -/

/-- A guard that asks for a rail's enable, where that enable is up: the rail that is inside its window already changes
nothing. -/
theorem ite_and_not_of_eq_true {α : Type} {en up : Bool} (a b : α) (hen : en = true) :
    (if en && !up then a else b) = if up then b else a := by
  subst hen
  cases up
  · rfl
  · rfl

/-- The enable is up and the rail was outside its window: the guard of a rail that rises is open. -/
theorem rail_rises {en up : Bool} (hen : en = true) (hup : up = false) : (en && !up) = true := by simp [hen, hup]

/-- What follows the powered domains, the next enables of a wake, follows from equal states. -/
theorem next_cond_congr {v w : State} (b : Bool) (f : State → State) (h : v = w) :
    (.next (v.cond b f) : Host.Outcome State Fault Refusal) = .next (w.cond b f) := by rw [h]

/-- A rail of an enable that is up is outside its window while a wake or boot is under way (R51, R72). -/
theorem thaw_missed {p : Power}
    (hmissed : (p.en0 = true ∧ (p.vio = false ∨ p.vsafe = false)) ∨ (p.en1 = true ∧ p.vcore = false) ∨
      (p.en2 = true ∧ p.vana = false))
    (hphase : p.phase = .thaw ∨ p.phase = .boot ∨ p.phase = .wakeWatch) :
    (((p.en0 && !(p.vio && p.vsafe)) || (p.en1 && !p.vcore) || (p.en2 && !p.vana)) &&
      (p.phase == .thaw || p.phase == .boot || p.phase == .wakeWatch)) = true := by
  rw [Bool.and_eq_true]
  refine ⟨?_, ?_⟩
  · rcases hmissed with ⟨hen, hvio | hvsafe⟩ | ⟨hen, hvcore⟩ | ⟨hen, hvana⟩
    · simp [hen, hvio]
    · simp [hen, hvsafe]
    · simp [hen, hvcore]
    · simp [hen, hvana]
  · simpa [or_assoc] using hphase

/-! ## Rails that fall (R52, R72, R77) -/

theorem State.railFallen_en3 {s : State} (hen2 : s.power.en2 = true) (hen3 : s.power.en3 = false)
    (hphase : s.power.phase = .watchDown ∨ s.power.phase = .abort ∨ s.power.phase = .gateDown) :
    s.railFallen 3 = s.modPwr fun p => { p with en2 := false } :=
  if_pos (by simpa [hen2, hen3, or_assoc] using hphase)

/-- The entry to WATCH is complete once PWR_EN2's rails are down (R52). -/
theorem State.railFallen_en2_watch {s : State} (hen2 : s.power.en2 = false) (hen3 : s.power.en3 = false)
    (hphase : s.power.phase = .watchDown) :
    s.railFallen 2 = ((s.modPwr fun p => { p with vana := false }).anaDown).asleep := by
  simp only [State.railFallen, hen2, hen3, hphase, Bool.or_self, Bool.false_eq_true, if_false]

theorem State.railFallen_en1 {s : State} (hen1 : s.power.en1 = false)
    (hphase : s.power.phase = .coreDown ∨ s.power.phase = .abort) :
    s.railFallen 1 = (s.modPwr fun p => { p with vcore := false, en0 := false }).coreDown := by
  rcases hphase with h | h <;> simp only [State.railFallen, hen1, h, Bool.false_eq_true, if_false]

theorem State.railFallen_en0 {s : State} (hen0 : s.power.en0 = false)
    (hphase : s.power.phase = .coreDown ∨ s.power.phase = .abort) : s.railFallen 0 = s.winter := by
  rcases hphase with h | h <;> simp only [State.railFallen, hen0, h, Bool.false_eq_true, if_false]

/-- Settles O19: for each row, its hypotheses decide the guard and the branch that the row takes. -/
theorem resetAndWakeSequencesComplete : Obligations.ResetAndWakeSequencesComplete := by
  refine ⟨?_, ?_, ?_, ?_, ?_, ?_, ?_, ?_, ?_, ?_, ?_, ?_, ?_, ?_, ?_⟩
  · intro s t u hhigh hao hasleep hrest hwinter
    rw [exec_resetNAssert_of_asleep hhigh hao hasleep]
    exact congrArg Host.Outcome.next (if_pos (by simp [u, hrest, hwinter]))
  · intro s t u hhigh hao hasleep hnot
    rw [exec_resetNAssert_of_asleep hhigh hao hasleep]
    exact congrArg Host.Outcome.next (if_neg (by simpa [u, imp_iff_not_or] using hnot))
  · intro s t u hhigh hao hawake
    exact exec_resetNAssert_of_powered hhigh hao (State.cond_of_eq_true _ hawake)
  · intro s t wake boot u hlow
    exact congrArg Host.Outcome.next (if_neg (by simp [u, hlow]))
  · intro s t pin u hcan0 hcan1
    exact exec_wakePinRequest_of_enabled hcan0 hcan1
  · rintro s t rail u (rfl | rfl) hen
    · exact next_cond_congr _ _ (ite_and_not_of_eq_true _ _ hen)
    · exact next_cond_congr _ _ (ite_and_not_of_eq_true _ _ hen)
  · rintro s t _ u rfl hen hdown
    exact next_cond_congr _ _ (if_pos (rail_rises hen hdown))
  · rintro s t _ u rfl hen hdown
    exact next_cond_congr _ _ (if_pos (rail_rises hen hdown))
  · intro s t u hmissed hphase
    exact congrArg Host.Outcome.next (if_pos (thaw_missed hmissed hphase))
  · rintro s t _ u rfl hen2 hen3 hphase
    exact congrArg Host.Outcome.next (State.railFallen_en3 hen2 hen3 hphase)
  · rintro s t _ u rfl hen2 hen3 hphase
    exact congrArg Host.Outcome.next (State.railFallen_en2_watch hen2 hen3 hphase)
  · rintro s t _ u rfl hen1 hphase
    exact congrArg Host.Outcome.next (State.railFallen_en1 hen1 hphase)
  · rintro s t _ u rfl hen0 hphase
    exact congrArg Host.Outcome.next (State.railFallen_en0 hen0 hphase)
  · intro s t u hstart
    exact congrArg Host.Outcome.next (if_neg (by rcases hstart with h | h <;> simp [u, h]))
  · intro s t u hao
    exact congrArg Host.Outcome.next (if_neg (by simp [u, hao]))

end Sys2Proof.Machine
end

section
/-!
PROOFS. The statements of 03_power_clocks_modes.md: the reset state, the losses of domains and clocks, the counters that
a write clears, starts and motion, and the axis commands, run or turned away.
-/

namespace Sys2Proof.Machine

/-! ## Guards -/

/-- A guard of two conditions, as of a domain's power and the release of stores, with both up: the row takes its effect. -/
theorem next_ite_and {p q : Bool} (a b : State) (hp : p = true) (hq : q = true) :
    (.next (if p && q then a else b) : Host.Outcome State Fault Refusal) = .next a :=
  congrArg Host.Outcome.next (if_pos (Bool.and_eq_true_iff.mpr ⟨hp, hq⟩))

/-- A guard that stops a row where its condition is down, with the condition up. -/
theorem ite_not_of_eq_true {α : Type} {p : Bool} (a b : α) (hp : p = true) : (if !p then a else b) = b :=
  if_neg (by rw [hp]; exact Bool.false_ne_true)

/-- The same where either of two conditions stops it. -/
theorem next_ite_or_not {p q : Bool} (a b : State) (hp : p = true) (hq : q = true) :
    (.next (if !p || !q then a else b) : Host.Outcome State Fault Refusal) = .next b :=
  congrArg Host.Outcome.next (if_neg (by rw [hp, hq]; exact Bool.false_ne_true))

/-! ## The state after reset (R50, R61, R68, R487, R488) -/

/-- No register has been written: each field reads its reset value. -/
theorem State.rd_reset (f : Fld) : State.reset.rd f = f.get (resetVal f.off) := rfl

theorem canTimings_resetVal {n : Nat} (hn : n < 2) :
    (F.CAN_NBT_NBRP n).get (resetVal (F.CAN_NBT_NBRP n).off) = 0 ∧
      (F.CAN_NBT_NTSEG1 n).get (resetVal (F.CAN_NBT_NTSEG1 n).off) = 126 ∧
      (F.CAN_NBT_NTSEG2 n).get (resetVal (F.CAN_NBT_NTSEG2 n).off) = 31 ∧
      (F.CAN_DBT_DBRP n).get (resetVal (F.CAN_DBT_DBRP n).off) = 0 ∧
      (F.CAN_DBT_DTSEG1 n).get (resetVal (F.CAN_DBT_DTSEG1 n).off) = 28 ∧
      (F.CAN_DBT_DTSEG2 n).get (resetVal (F.CAN_DBT_DTSEG2 n).off) = 9 := by
  interval_cases n
  · exact ⟨rfl, rfl, rfl, rfl, rfl, rfl⟩
  · exact ⟨rfl, rfl, rfl, rfl, rfl, rfl⟩

/-- Settles O47: nothing is listed in the state's tables, so each clause evaluates on the reset values. -/
theorem resetStateIsAsTheRulesSay : Obligations.ResetStateIsAsTheRulesSay := by
  refine ⟨rfl, rfl, rfl, rfl, rfl, rfl, rfl, rfl, rfl, rfl, rfl, rfl, rfl, rfl, rfl, fun n hn => ?_, fun _ => rfl⟩
  obtain ⟨hnbrp, hntseg1, hntseg2, hdbrp, hdtseg1, hdtseg2⟩ := canTimings_resetVal hn
  simp only [State.rd_reset, hnbrp, hntseg1, hntseg2, hdbrp, hdtseg1, hdtseg2, and_self]

/-! ## Counters that a write clears (R60, R187, R270, R272, R273, R358, R379) -/

/-- Settles O8: in each row the powered block and the open checkpoint open the guard of the clear. -/
theorem counterClearsZeroTheirFields : Obligations.CounterClearsZeroTheirFields := by
  refine ⟨?_, ?_, ?_, ?_, ?_, ?_, ?_⟩
  · intro s t u hcpu hstores
    exact next_ite_and _ _ hcpu hstores
  · intro s t a u hana hstores
    exact congrArg Host.Outcome.next (if_neg (by simp [u, hana, hstores]))
  · intro s t u hctl hstores
    exact next_ite_and _ _ hctl hstores
  · intro s t miss a u hctl hstores
    exact next_ite_or_not _ _ hctl hstores
  · intro s t u hcpu hstores
    exact next_ite_and _ _ hcpu hstores
  · intro s t a u hctl hstores
    exact next_ite_and _ _ hctl hstores
  · intro s t u hsafe hstores
    exact next_ite_and _ _ hsafe hstores

/-! ## Domains, clocks and the end of a boot (R54, R56, R57, R62, R69, R71, R76, R77, R80) -/

/-- Settles O20: for each row, its hypotheses decide the guard that the row stands under; a loss has the guard of the
awake module first, then that of its own domain. -/
theorem clocksDomainsAndShutdownComplete : Obligations.ClocksDomainsAndShutdownComplete := by
  refine ⟨?_, ?_, ?_, ?_, ?_, ?_, ?_, ?_, ?_, ?_, ?_, ?_, ?_, ?_, ?_, ?_, ?_, ?_, ?_⟩
  · rintro s t _ u hawake rfl hana
    exact congrArg Host.Outcome.next ((ite_not_of_eq_true _ _ hawake).trans (if_pos hana))
  · rintro s t _ u hawake rfl hctl
    exact congrArg Host.Outcome.next ((ite_not_of_eq_true _ _ hawake).trans (if_pos hctl))
  · rintro s t _ u hawake rfl hcomm
    exact congrArg Host.Outcome.next ((ite_not_of_eq_true _ _ hawake).trans (if_pos hcomm))
  · rintro s t _ u hawake rfl hcpu
    exact congrArg Host.Outcome.next ((ite_not_of_eq_true _ _ hawake).trans (if_pos hcpu))
  · rintro s t _ u hawake rfl hsafe
    exact congrArg Host.Outcome.next ((ite_not_of_eq_true _ _ hawake).trans (ite_not_of_eq_true _ _ hsafe))
  · rintro s t _ u hawake rfl hio
    exact congrArg Host.Outcome.next ((ite_not_of_eq_true _ _ hawake).trans (ite_not_of_eq_true _ _ hio))
  · rintro s t _ u hawake rfl hcore
    exact congrArg Host.Outcome.next ((ite_not_of_eq_true _ _ hawake).trans (ite_not_of_eq_true _ _ hcore))
  · rintro s t _ n u hawake rfl hused
    exact congrArg Host.Outcome.next ((ite_not_of_eq_true _ _ hawake).trans (if_neg (Bool.eq_false_iff.mp hused)))
  · rintro s t _ n u hawake rfl hunused
    exact congrArg Host.Outcome.next ((ite_not_of_eq_true _ _ hawake).trans (if_pos hunused))
  · intro s t b boot u hcore hhigh hunlocked
    exact congrArg Host.Outcome.next (if_neg (by simp [u, hcore, hhigh, hunlocked]))
  · intro s t b u hlocked
    exact congrArg Host.Outcome.next (ite_not_of_eq_true _ _ hlocked)
  · intro s t u hxtal
    exact congrArg Host.Outcome.next (ite_not_of_eq_true _ _ hxtal)
  · intro s t u hchange hcpu
    exact next_ite_and _ _ hchange hcpu
  · intro s t u hcore hcpu hnone
    exact next_ite_and _ _ (Bool.and_eq_true_iff.mpr ⟨hcore, hcpu⟩) ((Bool.not_eq_true' _).mpr hnone)
  · intro s t u
    rfl
  · intro s t u hset hpast
    exact congrArg Host.Outcome.next (if_neg (not_or.mpr ⟨hset, not_lt.mpr hpast⟩))
  · intro s t u hrest hao
    exact congrArg Host.Outcome.next (if_neg (by simp [u, hrest, hao]))
  · intro s t pass u hbist
    exact congrArg Host.Outcome.next (if_neg (by simp [u, hbist]))
  · intro s t u hcpu hphase
    exact congrArg Host.Outcome.next (if_pos (by simpa [u, hcpu] using hphase))

/-! ## Starts and motion (R74, R225 to R230, R235, R276, R288, R289) -/

/-- The time limit has passed since I/f or braking began, whichever of the two runs (R225, R230). -/
theorem any_timeLimit_past {p q : Option Nat} {x d now : Nat} (hstart : p = some x ∨ q = some x) (hpast : x + d ≤ now) :
    ((p.any fun x => decide (x + d ≤ now)) || (q.any fun x => decide (x + d ≤ now))) = true := by
  rcases hstart with rfl | rfl
  · simp [hpast]
  · simp [hpast]

/-- Settles O17: for each row, its hypotheses decide the guard that the row stands under. A catch that ends by the primary
sensor judges standstill by the speed alone (R227). -/
theorem startsAndMotionComplete : Obligations.StartsAndMotionComplete := by
  refine ⟨?_, ?_, ?_, ?_, ?_, ?_, ?_, ?_, ?_⟩
  · intro s t a u hctl hstores hstopped
    exact next_ite_and _ _ (Bool.and_eq_true_iff.mpr ⟨hctl, hstores⟩) ((Bool.not_eq_true' _).mpr hstopped)
  · intro s t a c x u hheld hok
    refine congrArg Host.Outcome.next ?_
    rw [hheld]
    exact if_pos hok
  · intro s t a c x u hheld hok hwoke hwaits
    refine congrArg Host.Outcome.next ?_
    have hdue : ¬u.now < max u.power.wokeAt x + 10000000 := by omega
    rw [hheld]
    exact if_neg (by simpa [u, hok] using hdue)
  · intro s t a pvSpd pvE c x u hcatch hage hvalid hplausible
    have hprim : (u.posValid a && !(u.fc a).implausible) = true := by rw [hvalid, hplausible]; rfl
    refine congrArg Host.Outcome.next ?_
    rw [hcatch]
    refine (if_neg (not_lt.mpr hage)).trans ?_
    rw [hprim]
    exact if_congr Iff.rfl rfl (if_congr (by rw [Bool.not_true, Bool.false_and, Bool.or_false, if_pos rfl]) rfl rfl)
  · intro s t a x u hstart hpast
    exact congrArg Host.Outcome.next (if_pos (any_timeLimit_past hstart hpast))
  · intro s t a u hcoast hfirst hpast
    exact next_ite_and _ _ (Bool.and_eq_true_iff.mpr ⟨hcoast, (Bool.not_eq_true' _).mpr hfirst⟩) (decide_eq_true hpast)
  · intro s t a u hdue
    exact congrArg Host.Outcome.next (if_pos hdue)
  · intro s t a table u hctl hstores
    exact next_ite_and _ _ hctl hstores
  · intro s t a table u hctl hstores
    exact next_ite_and _ _ hctl hstores

/-! ## Commands that hold their ring (R19, R367, R420) -/

/-- The command that holds its ring and can run begins, takes the effect of its row, and ends the run with it. -/
theorem State.runCmd_of_mayRun {u v : State} {r : Nat} {c : Cmd} {is : Cmd → Bool} {f : State → Cmd → State}
    (hrun : u.mayRun r c) (his : is c = true) (hf : f (u.begin_ r) c = v) :
    u.runCmd r is f = v.runEnd u.cores.finals.length := by
  obtain ⟨hholds, hawake, hpass, hfresh⟩ := hrun
  subst hf
  unfold State.runCmd
  rw [hholds]
  exact if_pos (by simp only [hawake, hpass, hfresh, his, Bool.not_false, Bool.and_self])

/-- The same of a row that one opcode names: its outcome follows from what the command's operation answers. -/
theorem State.next_runOp_of_mayRun {u v : State} {r op : Nat} {c : Cmd} {f : State → Cmd → State} (hrun : u.mayRun r c)
    (hop : c.opcode = op) (hf : f (u.begin_ r) c = v) :
    (.next (u.runOp r op f) : Host.Outcome State Fault Refusal) = .next (v.runEnd u.cores.finals.length) :=
  congrArg Host.Outcome.next (State.runCmd_of_mayRun hrun (beq_iff_eq.mpr hop) hf)

/-! ## SET_MODE (R65, R78, R573) -/

section SetMode
variable {s : State} {c : Cmd} (so : List Nat)

theorem State.setMode_of_noTarget (h : c.arg 16 1 = 3 ∨ c.arg 16 1 = 4 ∨ 6 ≤ c.arg 16 1) :
    s.setMode c so = s.done c stArg := if_pos h

theorem State.setMode_hold (h : c.arg 16 1 = 5) :
    s.setMode c so = (s.activateFor 2 (s.axes.filter fun a => s.axMode a != 5)).done c stOk :=
  (if_neg (by omega)).trans (if_pos h)

theorem State.setMode_ready (h : c.arg 16 1 = 2) :
    s.setMode c so =
      if (s.axes.filter fun a => s.axMode a == 5).isEmpty then s.done c (if s.axes.any s.running then stMode else stOk)
      else s.holdToReady c (s.axes.filter fun a => s.axMode a == 5) so :=
  (if_neg (by omega)).trans ((if_neg (by omega)).trans (if_pos h))

/-- WINTER and WATCH complete BUSY while an axis starts (R65). -/
theorem State.setMode_sleep_starting (h : c.arg 16 1 = 0 ∨ c.arg 16 1 = 1) (hstart : s.axes.any s.starting = true) :
    s.setMode c so = s.done c stBusy :=
  (if_neg (by omega)).trans ((if_neg (by omega)).trans ((if_neg (by omega)).trans (if_pos hstart)))

/-- Entries that the flash write ban keeps unmirrored hold WINTER back (R78); without them, only RUN and LIMP refuse. -/
theorem State.setMode_sleep_saved (h : c.arg 16 1 = 0 ∨ c.arg 16 1 = 1) (hstart : s.axes.any s.starting = false)
    (hsaved : c.arg 16 1 = 0 → s.unmirrored = 0 ∨ s.bit F.JRN_STAT_BAN = false) :
    s.setMode c so =
      if s.axes.any s.running then s.done c stMode
      else if c.arg 16 1 = 1 then (s.done c stOk).enterWatch
      else ((s.done c stOk).releaseHeld fun x => x.cmd == c).startShutdown := by
  refine (if_neg (by omega)).trans ((if_neg (by omega)).trans ((if_neg (by omega)).trans ?_))
  refine (if_neg (by simp only [hstart, Bool.false_eq_true, not_false_eq_true])).trans (if_neg ?_)
  rcases h with h | h
  · rcases hsaved h with h | h
    · simp [h]
    · simp [h]
  · simp [h]

end SetMode

/-! ## ARM (R342, R348, R353, R421) -/

/-- A guard over an axis that is named and a line contactor that is to close stays shut where each of them passes. -/
theorem arm_not_barred {m n : Nat} {p q : Bool} (hp : m ≠ 0xFF → p = true) (hq : n = 1 → q = true) :
    ¬((m != 0xFF && !p) || (n == 1 && !q)) = true := by
  simp only [Bool.or_eq_true, Bool.and_eq_true, bne_iff_ne, beq_iff_eq, Bool.not_eq_true']
  rintro (⟨hm, hnot⟩ | ⟨hn, hnot⟩)
  · exact Bool.false_ne_true (hnot.symm.trans (hp hm))
  · exact Bool.false_ne_true (hnot.symm.trans (hq hn))

section Arm
variable {s : State} {c : Cmd} (path : Bool)

theorem State.armCmd_of_badArg (h : Nat.land (c.arg 18 1) (c.arg 19 1) ≠ 0 ∨ c.arg 17 1 = 3) :
    s.armCmd c path = s.done c stArg := if_pos h

theorem State.armCmd_outOfReady (hout : Nat.land (c.arg 18 1) (c.arg 19 1) = 0) (hline : c.arg 17 1 ≠ 3)
    (hax : c.arg 16 1 ≠ 0xFF) (hmode : s.axMode (c.arg 16 1) ≠ 2) : s.armCmd c path = s.done c stMode :=
  (if_neg (not_or.mpr ⟨not_not.mpr hout, hline⟩)).trans (if_pos (by simp [hax, hmode]))

/-- Where the line contactor is not to close, only the axis can be turned away. -/
theorem State.armCmd_unarmable (hout : Nat.land (c.arg 18 1) (c.arg 19 1) = 0) (hline : c.arg 17 1 = 0 ∨ c.arg 17 1 = 2)
    (hax : c.arg 16 1 ≠ 0xFF) (hmode : s.axMode (c.arg 16 1) = 2) (harm : s.armable (c.arg 16 1) = false) :
    s.armCmd c path = s.done c stVeto := by
  have hnone : c.arg 17 1 ≠ 3 := by omega
  have hopen : c.arg 17 1 ≠ 1 := by omega
  refine (if_neg (not_or.mpr ⟨not_not.mpr hout, hnone⟩)).trans ((if_neg ?_).trans (if_pos ?_))
  · simp [hmode, hopen]
  · simp [hax, harm]

/-- Nothing refuses the axis nor the line contactor: the gate-path test decides, where an axis is armed. -/
theorem State.armCmd_of_accepted (hout : Nat.land (c.arg 18 1) (c.arg 19 1) = 0) (hline : c.arg 17 1 ≠ 3)
    (hax : c.arg 16 1 ≠ 0xFF → s.axMode (c.arg 16 1) = 2 ∧ s.armable (c.arg 16 1) = true)
    (hclose : c.arg 17 1 = 1 → s.mode = 2 ∧ s.rd F.SAF_STAT_CON_CAUSE = 0) :
    s.armCmd c path =
      if c.arg 16 1 ≠ 0xFF ∧ path = false then (s.activateRow 31 (c.arg 16 1)).done c stVeto else s.armActs c := by
  have hready : ¬((c.arg 16 1 != 0xFF && s.axMode (c.arg 16 1) != 2) || (c.arg 17 1 == 1 && s.mode != 2)) = true :=
    arm_not_barred (fun h => beq_iff_eq.mpr (hax h).1) (fun h => beq_iff_eq.mpr (hclose h).1)
  have hfree : ¬((c.arg 16 1 != 0xFF && !s.armable (c.arg 16 1)) ||
      (c.arg 17 1 == 1 && s.rd F.SAF_STAT_CON_CAUSE != 0)) = true :=
    arm_not_barred (fun h => (hax h).2) (fun h => beq_iff_eq.mpr (hclose h).2)
  refine (if_neg (not_or.mpr ⟨not_not.mpr hout, hline⟩)).trans ((if_neg hready).trans ((if_neg hfree).trans ?_))
  exact if_congr (by simp) rfl rfl

end Arm

/-! ## START and STOP (R74, R227, R231, R236) -/

section Start
variable {s : State} {c : Cmd}

/-- The axis is in READY, none is in HOLD, and its task runs: START's first guard stays shut. -/
theorem State.start_not_barred (hmode : s.axMode (c.arg 16 1) = 2) (hhold : s.axes.any (fun b => s.axMode b == 5) = false)
    (htask : s.taskRuns (c.arg 16 1) = true) :
    ¬(s.axMode (c.arg 16 1) ≠ 2 ∨ s.axes.any (fun b => s.axMode b == 5) = true ∨ s.taskRuns (c.arg 16 1) = false) := by
  simp only [hmode, hhold, htask, ne_eq, not_true_eq_false, Bool.false_eq_true, Bool.true_eq_false, or_self, not_false_eq_true]

theorem State.startCmd_of_barred
    (h : s.axMode (c.arg 16 1) ≠ 2 ∨ s.axes.any (fun b => s.axMode b == 5) = true ∨ s.taskRuns (c.arg 16 1) = false) :
    s.startCmd c = s.done c stMode := if_pos h

section
variable (hmode : s.axMode (c.arg 16 1) = 2) (hhold : s.axes.any (fun b => s.axMode b == 5) = false)
include hmode hhold

theorem State.startCmd_starting (htask : s.taskRuns (c.arg 16 1) = true) (hstart : s.starting (c.arg 16 1) = true) :
    s.startCmd c = s.done c stBusy :=
  (if_neg (State.start_not_barred hmode hhold htask)).trans (if_pos hstart)

/-- Without its task or without ARM, the axis does not start. -/
theorem State.startCmd_unarmed (hstart : s.starting (c.arg 16 1) = false) (harm : (s.fc (c.arg 16 1)).armed = false) :
    s.startCmd c = s.done c stMode := by
  cases htask : s.taskRuns (c.arg 16 1) with
  | false => exact State.startCmd_of_barred (.inr (.inr htask))
  | true =>
    refine (if_neg (State.start_not_barred hmode hhold htask)).trans ((if_neg ?_).trans (if_pos ?_))
    · simp [hstart]
    · simp [harm]

/-- An armed axis whose brake test is enforced and due gets VETO; any other begins its catch or waits for RUN_OK. -/
theorem State.startCmd_armed (hstart : s.starting (c.arg 16 1) = false) (harm : (s.fc (c.arg 16 1)).armed = true)
    (htask : s.taskRuns (c.arg 16 1) = true) :
    s.startCmd c =
      if s.uz F.BLK_BTINT_BT_ENF = 1 ∧ (s.uzAx (c.arg 16 1)).btDue = true then s.done c stVeto
      else
        let v := ({ s with hovIdle := none } : State).modUz (c.arg 16 1) fun x => { x with release := true }
        if v.bit F.SYS_MODE_RUN_OK then v.startCatch (c.arg 16 1) c
        else v.modFc (c.arg 16 1) fun f => { f with held := some (c, v.now) } := by
  refine (if_neg (State.start_not_barred hmode hhold htask)).trans ((if_neg ?_).trans (if_neg ?_))
  · simp [hstart]
  · simp [harm]

end
end Start

section Stop
variable {s : State} {c : Cmd}

theorem State.stopCmd_starting (h : s.starting (c.arg 16 1) = true) :
    s.stopCmd c =
      ((s.catchAbort (c.arg 16 1) stMode).modUz (c.arg 16 1) fun x => { x with release := false }).done c stOk := if_pos h

theorem State.stopCmd_stopped (hstart : s.starting (c.arg 16 1) = false) (hrun : s.running (c.arg 16 1) = false) :
    s.stopCmd c = s.done c stMode :=
  (if_neg (by simp [hstart])).trans (if_pos (by simp [hrun]))

theorem State.stopCmd_running (hstart : s.starting (c.arg 16 1) = false) (hrun : s.running (c.arg 16 1) = true)
    (hcoast : s.bit (F.FSL_FC_STAT_COAST (c.arg 16 1)) = false) :
    s.stopCmd c = (s.stopAxis (c.arg 16 1)).done c stOk :=
  (if_neg (by simp [hstart])).trans ((if_neg (by simp [hrun])).trans (if_neg (by simp [hcoast])))

end Stop

/-! ## LOAD_PROFILE, SET_LIMITS, BRAKE_TEST, DISCHARGE and HANDOVER_POLICY (R247, R317, R346, R350) -/

theorem exec_loadProfileTable_of_badTable {s : State} {t : Nat} {r : Fin 4} {c : Cmd} (hrun : (s.upTo t).mayRun r c)
    (hop : c.opcode = 0x16) (hform : c.arg 17 1 = 1)
    (hbad : c.arg 28 2 = 0 ∨ 1024 < c.arg 28 2 ∨ c.arg 32 4 / 16 * 16 < 0x2000 ∨
      0x40000 < c.arg 32 4 / 16 * 16 + 16 * c.arg 28 2) :
    exec (.loadProfileTable t r) s =
      .next ((((s.upTo t).begin_ r).done c stArg).runEnd (s.upTo t).cores.finals.length) := by
  refine congrArg Host.Outcome.next (State.runCmd_of_mayRun hrun ?_ (if_pos hbad))
  rw [hop, hform]
  rfl

theorem State.setLimitsCmd_outOfReady {s : State} {c : Cmd} (hmotion : (c.arg 17 1).testBit 0 = true)
    (hmode : s.axMode (c.arg 16 1) ≠ 2) : s.setLimitsCmd c = s.done c stMode :=
  if_pos (Bool.and_eq_true_iff.mpr ⟨hmotion, bne_iff_ne.mpr hmode⟩)

theorem State.brakeTestCmd_of_unfit {s : State} {c : Cmd}
    (h : s.axMode (c.arg 16 1) ≠ 2 ∨ (s.fc (c.arg 16 1)).armed = false ∨ s.hasBrake (c.arg 16 1) = false) :
    s.brakeTestCmd c = s.done c stMode :=
  if_pos (h.imp_right (·.imp_right .inl))

theorem State.dischargeCmd_running {s : State} {c : Cmd} (h : s.axes.any s.running = true) :
    s.dischargeCmd c = s.done c stMode := if_pos h

/-- The two writes of the policy are ignored while a segment axis is in a handover, and BUSY says so (R317). -/
theorem State.policyCmd_busy {s : State} {c : Cmd} (h : s.policyFree = false) :
    s.policyCmd c =
      ((s.policyWrite R.MOT_HOV_POL (c.word 20)).policyWrite R.MOT_HOV_IDLE (c.word 24)).done c stBusy := by
  unfold State.policyCmd
  rw [h]
  rfl

/-- Settles O33: each command runs, and its hypotheses choose the branch of its operation. -/
theorem axisCommandsRun : Obligations.AxisCommandsRun := by
  refine ⟨?_, ?_, ?_, ?_, ?_, ?_, ?_, ?_, ?_, ?_⟩
  · intro s t r c u hrun hop
    exact State.next_runOp_of_mayRun hrun hop rfl
  · intro s t r c u hrun hop
    exact State.next_runOp_of_mayRun hrun hop rfl
  · intro s t r so c u hrun hop hhold
    exact State.next_runOp_of_mayRun hrun hop (State.setMode_hold so hhold)
  · intro s t r so c u hrun hop hready
    exact State.next_runOp_of_mayRun hrun hop (State.setMode_ready so hready)
  · intro s t r so c u hrun hop hsleep hstart hstopped hsaved
    refine State.next_runOp_of_mayRun hrun hop ((State.setMode_sleep_saved so hsleep hstart hsaved).trans (if_neg ?_))
    simp [u, hstopped]
  · intro s t r so c u hrun hop hnone
    exact State.next_runOp_of_mayRun hrun hop (State.setMode_of_noTarget so hnone)
  · intro s t r path c u hrun hop hout hline hax hclose
    exact State.next_runOp_of_mayRun hrun hop (State.armCmd_of_accepted path hout hline hax hclose)
  · intro s t r c u hrun hop hmode hhold hstart harm hbt htask
    refine State.next_runOp_of_mayRun hrun hop ((State.startCmd_armed hmode hhold hstart harm htask).trans (if_neg ?_))
    exact not_and_or.mpr (hbt.imp_right Bool.eq_false_iff.mp)
  · intro s t r c u hrun hop hstart
    exact State.next_runOp_of_mayRun hrun hop (State.stopCmd_starting hstart)
  · intro s t r c u hrun hop hstart hruns hcoast
    exact State.next_runOp_of_mayRun hrun hop (State.stopCmd_running hstart hruns hcoast)

/-- Settles O42: each command runs, and its hypotheses choose the refusal in its operation. -/
theorem axisCommandsAreTurnedAway : Obligations.AxisCommandsAreTurnedAway := by
  refine ⟨?_, ?_, ?_, ?_, ?_, ?_, ?_, ?_, ?_, ?_, ?_, ?_, ?_, ?_, ?_, ?_⟩
  · intro s t r so c u hrun hop hsleep hstart
    exact State.next_runOp_of_mayRun hrun hop (State.setMode_sleep_starting so hsleep hstart)
  · intro s t r so c u hrun hop hwatch hstart hruns
    refine State.next_runOp_of_mayRun hrun hop
      ((State.setMode_sleep_saved so (.inr hwatch) hstart fun h => ?_).trans (if_pos hruns))
    omega
  · intro s t r path c u hrun hop hbad
    exact State.next_runOp_of_mayRun hrun hop (State.armCmd_of_badArg path hbad)
  · intro s t r path c u hrun hop hout hline hax hmode
    exact State.next_runOp_of_mayRun hrun hop (State.armCmd_outOfReady path hout hline hax hmode)
  · intro s t r path c u hrun hop hout hline hax hmode harm
    exact State.next_runOp_of_mayRun hrun hop (State.armCmd_unarmable path hout hline hax hmode harm)
  · intro s t r c u hrun hop hbarred
    exact State.next_runOp_of_mayRun hrun hop (State.startCmd_of_barred (hbarred.imp_right .inl))
  · intro s t r c u hrun hop htask
    exact State.next_runOp_of_mayRun hrun hop (State.startCmd_of_barred (.inr (.inr htask)))
  · intro s t r c u hrun hop hmode hhold hstart htask
    exact State.next_runOp_of_mayRun hrun hop (State.startCmd_starting hmode hhold htask hstart)
  · intro s t r c u hrun hop hmode hhold hstart harm
    exact State.next_runOp_of_mayRun hrun hop (State.startCmd_unarmed hmode hhold hstart harm)
  · intro s t r c u hrun hop hmode hhold hstart harm henf hdue htask
    exact State.next_runOp_of_mayRun hrun hop
      ((State.startCmd_armed hmode hhold hstart harm htask).trans (if_pos ⟨henf, hdue⟩))
  · intro s t r c u hrun hop hstart hstopped
    exact State.next_runOp_of_mayRun hrun hop (State.stopCmd_stopped hstart hstopped)
  · intro s t r c u hrun hop hform hbad
    exact exec_loadProfileTable_of_badTable hrun hop hform hbad
  · intro s t r c u hrun hop hmotion hmode
    exact State.next_runOp_of_mayRun hrun hop (State.setLimitsCmd_outOfReady hmotion hmode)
  · intro s t r c u hrun hop hunfit
    exact State.next_runOp_of_mayRun hrun hop (State.brakeTestCmd_of_unfit hunfit)
  · intro s t r c u hrun hop hruns
    exact State.next_runOp_of_mayRun hrun hop (State.dischargeCmd_running hruns)
  · intro s t r c u hrun hop hbusy
    exact State.next_runOp_of_mayRun hrun hop (State.policyCmd_busy hbusy)

end Sys2Proof.Machine
end

section
/-!
PROOFS. The statements of 04_gate_channels.md: the counters that a write to SAT clears, the link, configuration, supplies
and temperature of a gate channel, its edges and protection, the off-state diagnostics, and what no edge or force changes.
-/

namespace Sys2Proof.Machine

/-! ## What an edge or a force leaves alone (R106) -/

/-- `State.ch_each` through the two passes of a three-level leg: its outer switches first, then all. -/
theorem State.ch_eachOff {P : GateCh → Prop} (f : State → Nat → State) (m : Nat)
    (hf : ∀ s n, P (s.ch m) → (f s n).ch m = s.ch m) (l : List Nat) (s : State) (hp : P (s.ch m)) :
    (s.eachOff l f).ch m = s.ch m := by
  have houter := fun l => State.ch_each f m hf l s hp
  unfold State.eachOff
  exact (State.ch_each f m hf l _ (by rwa [houter])).trans (houter _)

/-- A switch that is not on has nothing to turn off. -/
theorem State.ch_bridgeOff (s : State) (a m : Nat) (hm : (s.ch m).st ≠ .on) : (s.bridgeOff a).ch m = s.ch m :=
  State.ch_eachOff (P := fun c => c.st ≠ .on) dropOn m (fun s n => s.ch_dropOn n m) _ s hm

/-- A force-on waits on a channel in OFF alone. -/
theorem State.ch_noRise (s : State) (a m : Nat) (hm : (s.ch m).st ≠ .off) : (s.noRise a).ch m = s.ch m := by
  refine State.ch_each (P := fun c => c.st ≠ .off) _ m (fun s n hoff => ?_) _ s hm
  split
  case isTrue h => exact s.ch_modCh_other _ n m (fun e => hoff (e ▸ h))
  case isFalse => rfl

/-- A force-on closes, or waits to close, a switch in OFF alone. -/
theorem State.ch_forceOn (s : State) (n m : Nat) (hm : (s.ch m).st ≠ .off) : (s.forceOn n).ch m = s.ch m := by
  unfold State.forceOn
  extract_lets c
  split
  case isTrue h =>
    have hne : n ≠ m := fun e => hm (e ▸ h.1)
    split
    · exact s.ch_modCh_other _ n m hne
    · split
      · exact s.ch_turnOn_other true n m hne
      · rfl
  case isFalse => rfl

/-- Whatever Uzodar's gate lines do to a bridge, they turn off switches that are on and close switches in OFF. -/
theorem State.ch_uzGateToChannels (s : State) (a : Nat) (g : UzGate) (m : Nat) (hon : (s.ch m).st ≠ .on)
    (hoff : (s.ch m).st ≠ .off) : (s.uzGateToChannels a g).ch m = s.ch m := by
  have hfree : ∀ (s : State) (n : Nat), (s.ch m).st ≠ .on →
      (if (s.ch n).forced then s.dropOn n else s).ch m = s.ch m := by
    intro s n h
    split
    · exact s.ch_dropOn n m h
    · rfl
  cases g with
  | free =>
    have hdrop := fun l => State.ch_eachOff (P := fun c => c.st ≠ .on) _ m hfree l s hon
    exact (State.ch_noRise _ a m (by rwa [hdrop])).trans (hdrop _)
  | allOff =>
    have hdrop := s.ch_bridgeOff a m hon
    exact (State.ch_noRise _ a m (by rwa [hdrop])).trans hdrop
  | short u =>
    have hdrop := fun l => State.ch_eachOff (P := fun c => c.st ≠ .on) dropOn m (fun s n => s.ch_dropOn n m) l s hon
    exact (State.ch_each (P := fun c => c.st ≠ .off) forceOn m (fun s n => s.ch_forceOn n m) _ _
      (by rwa [hdrop])).trans (hdrop _)

/-- An on-edge finds its channel in OFF, an off-edge finds it ON, and a force acts by Uzodar's gate lines. -/
theorem exec_gateEdge_leaves (s : State) (t : Nat) (n : Fin 12) (e : GateEdge) (m : Nat)
    (hon : ((s.upTo t).ch m).st ≠ .on) (hoff : ((s.upTo t).ch m).st ≠ .off) :
    ∃ r : State, exec (.gateEdge t n e) s = .next r ∧ r.ch m = (s.upTo t).ch m := by
  refine ⟨_, rfl, ?_⟩
  cases e with
  | on =>
    dsimp only
    split
    case isTrue h => exact State.ch_turnOn_other _ false n m fun e => hoff (e ▸ h.1)
    case isFalse => rfl
  | off =>
    dsimp only
    split
    case isTrue h => exact State.ch_turnOff_other _ .off n m fun e => hon (e ▸ h.1)
    case isFalse => rfl
  | force => exact State.ch_uzGateToChannels _ _ _ m hon hoff

/-- Settles O48: SOFT_OFF and LATCHED are neither ON nor OFF. -/
theorem gateEdgeLeavesALatchedChannelOff : Obligations.GateEdgeLeavesALatchedChannelOff := by
  intro s t n m e u hm
  have hst : (u.ch m).st ≠ .on ∧ (u.ch m).st ≠ .off := by
    rcases hm with h | h
    · rw [h]; decide
    · rw [h]; decide
  exact exec_gateEdge_leaves s t n e m hst.1 hst.2

/-! ## Counters that a write to SAT clears (R114, R142, R187, R212, R318, R412, R450, R483, R502, R530) -/

/-- A row that clears the counters of a register under one condition, which holds. -/
theorem next_clearCounts_of_open {u : State} {p : Bool} (off : Nat) (hp : p = true) :
    ∃ r : State, (.next (if p then u.clearCounts off else u) : Host.Outcome State Fault Refusal) = .next r ∧
      u.zeroed off r :=
  ⟨u.clearCounts off, congrArg Host.Outcome.next (if_pos hp), u.clearCounts_zeroed off⟩

/-- The same under a block's power and an open release of stores. -/
theorem next_clearCounts_of_stores {u : State} {p q : Bool} (off : Nat) (hp : p = true) (hq : q = true) :
    ∃ r : State, (.next (if p && q then u.clearCounts off else u) : Host.Outcome State Fault Refusal) = .next r ∧
      u.zeroed off r :=
  next_clearCounts_of_open off (Bool.and_eq_true_iff.mpr ⟨hp, hq⟩)

/-- With COMM powered, a clear of a ring's counters asks whether the ring is enabled (R412). -/
theorem exec_hifRcntSatClear_of_powered {s : State} {t : Nat} (r : Fin 11) (hcomm : (s.upTo t).commOn = true) :
    exec (.hifRcntSatClear t r) s = .next (if (s.upTo t).bit (F.HIF_RCFG_EN r) then (s.upTo t).hi F.HIF_STAT_WR_IGN
      else (s.upTo t).clearCounts (R.HIF_RCNT r)) :=
  congrArg Host.Outcome.next (ite_not_of_eq_true _ _ hcomm)

/-- Settles O7: in each row the powered block and the open release let the clear through. -/
theorem counterClearsZeroTheirRegister : Obligations.CounterClearsZeroTheirRegister := by
  refine ⟨?_, ?_, ?_, ?_, ?_, ?_, ?_, ?_, ?_, ?_, ?_, ?_⟩
  · intro s t c u hctl hstores
    exact next_clearCounts_of_stores _ hctl hstores
  · intro s t n u hctl hstores
    exact next_clearCounts_of_stores _ hctl hstores
  · intro s t g u hana hstores
    exact next_clearCounts_of_stores _ hana hstores
  · intro s t a u hctl hstores
    exact next_clearCounts_of_stores _ hctl hstores
  · intro s t a u hctl hstores
    exact next_clearCounts_of_stores _ hctl hstores
  · intro s t r u hcomm hidle
    rw [exec_hifRcntSatClear_of_powered r hcomm]
    exact ⟨_, congrArg Host.Outcome.next (if_neg (Bool.eq_false_iff.mp hidle)), u.clearCounts_zeroed _⟩
  · intro s t r u hcomm hrun
    rw [exec_hifRcntSatClear_of_powered r hcomm]
    exact congrArg Host.Outcome.next (if_pos hrun)
  · intro s t u hcpu _
    exact next_clearCounts_of_open _ hcpu
  · intro s t p u hcomm hstores
    exact next_clearCounts_of_stores _ hcomm hstores
  · intro s t u hcomm hstores
    exact next_clearCounts_of_stores _ hcomm hstores
  · intro s t n u hcomm hstores
    exact next_clearCounts_of_stores _ hcomm hstores
  · intro s t u hcomm hstores
    exact next_clearCounts_of_stores _ hcomm hstores

/-! ## Link, configuration, supplies and temperature (R82, R83, R85, R98, R99, R112, R576, R577) -/

/-- A linked channel whose exchange runs: the guard of CONFIG_EXCHANGE_DONE is open. -/
theorem State.exchange_runs {u : State} {n : Nat} (hlink : (u.ch n).st ≠ .noLink) (hex : (u.ch n).exchange = true) :
    ¬((u.ch n).st = .noLink ∨ (u.ch n).exchange = false) :=
  not_or.mpr ⟨hlink, by simp [hex]⟩

/-- An exchange that failed, or that a bootstrap supply out of place condemns, is not verified (R83). -/
theorem not_verified {ok bad : Bool} (h : ok = false ∨ bad = true) : ¬(ok = true ∧ bad = false) := by
  rcases h with rfl | rfl
  · simp
  · simp

/-- A supply below its threshold on a linked channel: the guard of UVLO_ENTRY is open (R98). -/
theorem State.supply_fails {u : State} {n : Nat} {pos neg : Bool} (hsup : pos = true ∨ neg = true)
    (hlink : (u.ch n).st ≠ .noLink) : ¬(!(pos || neg) || (u.ch n).st == .noLink) = true := by
  have hlow : (pos || neg) = true := Bool.or_eq_true_iff.mpr hsup
  simpa [hlow] using hlink

/-- Settles O12: for each row, its hypotheses decide the guards that the row stands under; a die that has cooled stands
under none. -/
theorem channelsConfigureAndLoseTheirLink : Obligations.ChannelsConfigureAndLoseTheirLink := by
  refine ⟨?_, ?_, ?_, ?_, ?_, ?_, ?_, ?_, ?_, ?_, ?_, ?_⟩
  · intro s t n posOk negOk u hst hused hserved
    exact congrArg Host.Outcome.next (if_pos ⟨hst, hused, hserved⟩)
  · intro s t n ok u hlink hex hok hboot
    exact congrArg Host.Outcome.next ((if_neg (State.exchange_runs hlink hex)).trans (if_pos ⟨hok, hboot⟩))
  · intro s t n ok u hlink hex hfail
    exact congrArg Host.Outcome.next ((if_neg (State.exchange_runs hlink hex)).trans (if_neg (not_verified hfail)))
  · intro s t n copy u hlink hcfg hidle
    exact congrArg Host.Outcome.next (if_neg (by simp [u, hlink, hcfg, hidle]))
  · intro s t n u hused hshown
    refine congrArg Host.Outcome.next (if_neg (not_or.mpr ⟨Bool.eq_false_iff.mp hused, ?_⟩))
    exact not_and_or.mpr hshown
  · intro s t n u hst
    exact congrArg Host.Outcome.next (if_pos hst)
  · intro s t n u hlink
    exact congrArg Host.Outcome.next (if_neg hlink)
  · intro s t n pos neg u hsup hlink henters
    exact congrArg Host.Outcome.next ((if_neg (State.supply_fails hsup hlink)).trans (ite_not_of_eq_true _ _ henters))
  · intro s t n pos neg u hsup hlink hstays
    refine congrArg Host.Outcome.next ((if_neg (State.supply_fails hsup hlink)).trans (if_pos ?_))
    exact (Bool.not_eq_true' _).mpr hstays
  · intro s t n u hlink
    exact congrArg Host.Outcome.next (if_neg hlink)
  · intro s t n u hmay
    exact congrArg Host.Outcome.next (if_pos hmay)
  · intro s t n u
    rfl

/-! ## Enables, edges and protection (R87, R89, R101, R102, R105, R107 to R111, R116, R355) -/

/-- A channel in SOFT_OFF or LATCHED that Uzodar has not reported: the guard of SC_FAULT_REPORT is open (R109). -/
theorem first_report {st : ChState} {told : Bool} (hst : st = .softOff ∨ st = .latched) (hnew : told = false) :
    ¬(!(st == .softOff || st == .latched) || told) = true := by
  rw [hnew]
  rcases hst with rfl | rfl
  · decide
  · decide

/-- Settles O13: for each row, its hypotheses decide the guard that the row stands under; the enables' edges, a change of
force and the end of a drive phase stand under none. -/
theorem channelsSwitchAndProtect : Obligations.ChannelsSwitchAndProtect := by
  refine ⟨?_, ?_, ?_, ?_, ?_, ?_, ?_, ?_, ?_, ?_, ?_, ?_, ?_⟩
  · intro s t b u
    rfl
  · intro s t b u
    rfl
  · rintro s t n _ u rfl hst hfree hedge hplan
    exact congrArg Host.Outcome.next (if_pos ⟨hst, hfree, hedge, hplan⟩)
  · rintro s t n _ u rfl hst hforced hinner hplan
    exact congrArg Host.Outcome.next (if_pos ⟨hst, hforced, hinner, Bool.or_eq_true_iff.mpr (.inl hplan)⟩)
  · rintro s t n _ u rfl
    rfl
  · intro s t n u
    rfl
  · intro s t n u hst
    exact congrArg Host.Outcome.next (if_pos hst)
  · intro s t n u hblanked hmay
    exact next_ite_and _ _ hmay hblanked
  · intro s t n u hmay hen
    exact next_ite_and _ _ hmay hen
  · intro s t n u hst
    exact congrArg Host.Outcome.next (if_pos hst)
  · intro s t n code u hst hblanked hen
    exact congrArg Host.Outcome.next (if_pos ⟨hst, hblanked, hen⟩)
  · intro s t n u hst hnew
    exact congrArg Host.Outcome.next (if_neg (first_report hst hnew))
  · intro s t a u hdue hnone
    exact congrArg Host.Outcome.next (if_pos ⟨hdue, hnone⟩)

/-- Settles O25: before the end of blanking the guard of a desaturation is closed, and that of a hard short has no
condition on it. -/
theorem desaturationIsMaskedWhileBlanking : Obligations.DesaturationIsMaskedWhileBlanking := by
  refine ⟨?_, ?_⟩
  · intro s t n u hst hblanking
    have hmasked : (if (u.ch n).st = .on then (u.ch n).blanked else (u.ch n).wasBlanked) = false :=
      (if_pos hst).trans hblanking
    exact congrArg Host.Outcome.next (if_neg (by simp [u, hmasked]))
  · intro s t n u _ hmay hen
    exact next_ite_and _ _ hmay hen

/-! ## Off-state diagnostics (R117 to R120) -/

/-- Settles O14: for each row, its hypotheses decide the guards that the row stands under. -/
theorem gateDiagnosticsComplete : Obligations.GateDiagnosticsComplete := by
  refine ⟨?_, ?_, ?_, ?_⟩
  · intro s t mask test u hctl hstores hidle hready htest
    refine (next_ite_or_not _ _ hctl hstores).trans (congrArg Host.Outcome.next (if_neg ?_))
    exact not_or.mpr ⟨Bool.eq_false_iff.mp hidle, not_or.mpr ⟨not_not_intro hready, htest⟩⟩
  · intro s t mask test u hctl hstores hout
    exact (next_ite_or_not _ _ hctl hstores).trans (congrArg Host.Outcome.next (if_pos (.inr (.inl hout))))
  · intro s t meas u hbusy
    exact congrArg Host.Outcome.next (ite_not_of_eq_true _ _ hbusy)
  · intro s t u hbusy
    exact congrArg Host.Outcome.next (ite_not_of_eq_true _ _ hbusy)

end Sys2Proof.Machine
end

section
/-!
PROOFS. The statements of 05_pwm.md: the trigger points, the scans that they start, queue or drop, and the rounds and
checks of the converter groups.
-/

namespace Sys2Proof.Machine

/-! ## Trigger points and the queue of scans (R129, R165 to R167) -/

theorem State.car_fire (u : State) (c k : Nat) :
    (u.fire c k).car c = { u.car c with fired := (u.car c).fired ||| 2 ^ k } :=
  (State.car_modCar u c c _).trans (if_pos rfl)

/-- That a point has fired is not part of what its scan copies. -/
theorem State.scanOf_fire (u : State) (c k : Nat) : (u.fire c k).scanOf c k = u.scanOf c k := by
  simp only [State.scanOf, State.car_fire]
  rfl

/-- A point that is due fires, whatever becomes of its scan. -/
theorem exec_triggerPoint_of_due {s : State} {t : Nat} {c : Fin 2} {k : Fin 8} (hdue : (s.upTo t).trigDue c k = true) :
    exec (.triggerPoint t c k) s = .next (
      if (s.upTo t).converting = false ∨ (s.upTo t).maskOf ((s.upTo t).scanOf c k).list = [] then (s.upTo t).fire c k
      else ((s.upTo t).fire c k).retireScan.offerScan ((s.upTo t).scanOf c k)) := by
  rw [← State.scanOf_fire]
  exact congrArg Host.Outcome.next (ite_not_of_eq_true _ _ hdue)

/-- A point that is due offers its scan while the groups convert and its list holds an input. -/
theorem exec_triggerPoint_of_offer {s : State} {t : Nat} {c : Fin 2} {k : Fin 8} (hdue : (s.upTo t).trigDue c k = true)
    (hconv : (s.upTo t).converting = true) (hlist : (s.upTo t).maskOf ((s.upTo t).scanOf c k).list ≠ []) :
    exec (.triggerPoint t c k) s =
      .next (((s.upTo t).fire c k).retireScan.offerScan ((s.upTo t).scanOf c k)) :=
  (exec_triggerPoint_of_due hdue).trans
    (congrArg Host.Outcome.next (if_neg (not_or.mpr ⟨ne_false_of_eq_true hconv, hlist⟩)))

section Offer
variable {s : State} {sc x : Scan}

theorem State.offerScan_idle (htaking : s.adc.taking = none) (hqueue : s.adc.queue = []) :
    s.offerScan sc = s.startScan sc false := by
  simp [State.offerScan, htaking, hqueue]

/-- The scan that R167 puts first takes the place of one that has taken no sample yet. -/
theorem State.offerScan_ahead (htaking : s.adc.taking = some x) (hbefore : State.scanBefore sc x = true)
    (hfresh : x.t0 = (x.at_ + 29) / 20 * 20) : s.offerScan sc = (s.startScan sc false).queueScan x := by
  simp only [State.offerScan, htaking]
  exact if_pos (Bool.and_eq_true_iff.mpr ⟨hbefore, beq_iff_eq.mpr hfresh⟩)

/-- Behind a scan that does not give way, or behind others in the queue, a scan waits. -/
theorem State.offerScan_behind (hbusy : s.adc.taking ≠ none ∨ s.adc.queue ≠ [])
    (hstays : ∀ x, s.adc.taking = some x → State.scanBefore sc x = false ∨ x.t0 ≠ (x.at_ + 29) / 20 * 20) :
    s.offerScan sc = s.queueScan sc := by
  cases htaking : s.adc.taking with
  | none =>
    have hqueue : s.adc.queue ≠ [] := hbusy.resolve_left (not_not_intro htaking)
    simp [State.offerScan, htaking, hqueue]
  | some x =>
    simp only [State.offerScan, htaking]
    refine if_neg fun hahead => ?_
    obtain ⟨hbefore, hfresh⟩ := Bool.and_eq_true_iff.mp hahead
    rcases hstays x htaking with hafter | hsampled
    · exact Bool.false_ne_true (hafter.symm.trans hbefore)
    · exact hsampled (beq_iff_eq.mp hfresh)

end Offer

theorem State.length_enqueueScan (sc : Scan) (q : List Scan) : (State.enqueueScan sc q).length = q.length + 1 := by
  induction q with
  | nil => rfl
  | cons d q ih =>
    unfold State.enqueueScan
    split
    · rfl
    · exact congrArg (· + 1) ih

/-- A queue with a free place takes the scan and drops none (R167). -/
theorem State.queueScan_of_room {s : State} (sc : Scan) (hroom : s.adc.queue.length < 4) :
    s.queueScan sc = s.modAdc fun y => { y with queue := State.enqueueScan sc y.queue } := by
  have hlen : (State.enqueueScan sc s.adc.queue).length ≤ 4 := (State.length_enqueueScan sc _).trans_le hroom
  simp only [State.queueScan, List.drop_eq_nil_of_le hlen, List.take_of_length_le hlen]
  rfl

theorem exec_queuedScanStart_of_waiting {s : State} {t : Nat} {sc : Scan} {q : List Scan}
    (htaking : (s.upTo t).retireScan.adc.taking = none) (hqueue : (s.upTo t).retireScan.adc.queue = sc :: q) :
    exec (.queuedScanStart t) s =
      .next (((s.upTo t).retireScan.modAdc fun x => { x with queue := q }).startScan sc true) := by
  simp only [exec, execQueuedScanStart, htaking, hqueue]

/-! ## Rounds and checks (R159, R161, R164, R169, R179) -/

/-- A round or check that its conditions allow and no scan or resolver pair has cut short: its guard is open (R195). -/
theorem check_not_barred {allowed cut : Bool} (hallowed : allowed = true) (hcut : cut = false) :
    ¬(allowed = false ∨ cut = true) :=
  not_or.mpr ⟨ne_false_of_eq_true hallowed, ne_true_of_eq_false hcut⟩

/-- Settles O10: a trigger point goes by `State.offerScan` on what is being taken and on the queue; for each other row its
hypotheses decide the guard or the branch that the row stands under. -/
theorem scansAndChecksComplete : Obligations.ScansAndChecksComplete := by
  refine ⟨?_, ?_, ?_, ?_, ?_, ?_, ?_, ?_, ?_, ?_, ?_, ?_, ?_, ?_, ?_, ?_⟩
  · intro s t c k u hdue hconv hlist htaking hqueue
    rw [exec_triggerPoint_of_offer hdue hconv hlist, State.offerScan_idle htaking hqueue]
  · intro s t c k u hdue hconv hlist hbusy hstays hroom
    rw [exec_triggerPoint_of_offer hdue hconv hlist, State.offerScan_behind hbusy hstays,
      State.queueScan_of_room _ hroom]
  · intro s t c k u hdue hconv hlist hstays hfull
    have hqueue : (u.fire c k).retireScan.adc.queue ≠ [] := List.ne_nil_of_length_pos (by omega)
    rw [exec_triggerPoint_of_offer hdue hconv hlist, State.offerScan_behind (.inr hqueue) hstays]
    rfl
  · intro s t c k x u hdue hconv hlist htaking hbefore hfresh
    rw [exec_triggerPoint_of_offer hdue hconv hlist, State.offerScan_ahead htaking hbefore hfresh]
  · intro s t c k u hdue hnone
    exact (exec_triggerPoint_of_due hdue).trans (congrArg Host.Outcome.next (if_pos hnone))
  · intro s t c k u hearly
    exact congrArg Host.Outcome.next (if_pos ((Bool.not_eq_true' _).mpr hearly))
  · intro s t sc q u htaking hqueue
    exact exec_queuedScanStart_of_waiting htaking hqueue
  · intro s t res sc rest u hghost hdue
    simp only [exec, execScanComplete, u, hghost, hdue]
  · intro s t res g u hghost
    simp only [exec, execScanComplete, u, hghost]
  · intro s t a res u hconv hen haxis hcut
    refine congrArg Host.Outcome.next (if_neg (not_or.mpr ⟨ne_false_of_eq_true hconv, ?_⟩))
    exact not_or.mpr ⟨ne_false_of_eq_true hen, check_not_barred haxis hcut⟩
  · intro s t res u hconv hcut
    exact congrArg Host.Outcome.next (if_neg (check_not_barred hconv hcut))
  · rintro s t _ _ _ x y z u hconv hcut rfl rfl rfl
    exact congrArg Host.Outcome.next (if_neg (check_not_barred hconv hcut))
  · intro s t g idle est res u hconv hstarved
    exact congrArg Host.Outcome.next ((if_neg (ne_false_of_eq_true hconv)).trans (if_pos hstarved))
  · intro s t g idle est res u hconv hidle
    refine congrArg Host.Outcome.next ((if_neg (ne_false_of_eq_true hconv)).trans (if_neg ?_))
    exact Nat.not_lt.mpr hidle
  · intro s t g u hstarved hlong
    exact congrArg Host.Outcome.next (if_neg (not_or.mpr ⟨hstarved, Nat.not_lt.mpr hlong⟩))
  · intro s t g u hconv
    exact congrArg Host.Outcome.next (if_pos hconv)

end Sys2Proof.Machine
end

section
/-!
PROOFS. The statements of 06_converter_groups.md: castling and the test-DAC procedure of the converter groups.
-/

namespace Sys2Proof.Machine

/-! ## Castling and the test-DAC procedure (R180, R183 to R185) -/

/-- With two healthy groups that convert there is a group to castle to: the instant is deferred or marks every axis. -/
theorem State.castInstant_of_healthy {u : State} (hhealthy : 2 ≤ u.healthy.length) (hconv : u.converting = true) :
    u.castInstant = if u.castBarred then u.hi F.ADC_CAST_DEFER else u.each u.axes fun s a => s.setCast a true :=
  if_neg (not_or.mpr ⟨Nat.not_lt.mpr hhealthy, ne_false_of_eq_true hconv⟩)

/-- With ANA powered and stores released, the guard of a write of ADC_TDAC_CTL is open. -/
theorem State.tdacWrite_open {u : State} (hana : u.anaOn = true) (hstores : u.stores = true) :
    ¬(u.anaOn = false ∨ u.stores = false) :=
  not_or.mpr ⟨ne_false_of_eq_true hana, ne_false_of_eq_true hstores⟩

/-- The masks stored, an idle procedure starts while the groups convert: the last guard of START is open. -/
theorem State.tdacIdle_open {v : State} (hconv : v.converting = true) (hidle : v.bit F.ADC_TDAC_CTL_BUSY = false) :
    ¬(v.bit F.ADC_TDAC_CTL_BUSY || !v.converting) = true := by
  rw [hidle, hconv]
  exact Bool.false_ne_true

/-- Out of READY a procedure that runs is aborted, whichever row meets it first. -/
theorem exec_tdacComplete_of_left {s : State} {t : Nat} (res : List TdacMean)
    (hbusy : (s.upTo t).bit F.ADC_TDAC_CTL_BUSY = true) (hleft : (s.upTo t).mode ≠ 2) :
    exec (.tdacComplete t res) s = .next (s.upTo t).tdacAbort :=
  congrArg Host.Outcome.next ((ite_not_of_eq_true _ _ hbusy).trans (if_pos hleft))

theorem exec_tdacAbort_of_left {s : State} {t : Nat}
    (hbusy : (s.upTo t).bit F.ADC_TDAC_CTL_BUSY = true) (hleft : (s.upTo t).mode ≠ 2) :
    exec (.tdacAbort t) s = .next (s.upTo t).tdacAbort :=
  congrArg Host.Outcome.next (if_pos ⟨hbusy, hleft⟩)

/-- Settles O11: a castling instant goes by `State.castInstant`; for each other row its hypotheses decide the guards and
the mode that the row stands under. -/
theorem castlingAndTestDacComplete : Obligations.CastlingAndTestDacComplete := by
  refine ⟨?_, ?_, ?_, ?_, ?_, ?_, ?_⟩
  · intro s t u hhealthy hconv
    exact congrArg Host.Outcome.next (State.castInstant_of_healthy hhealthy hconv)
  · intro s t u hstores hmode hsteady
    exact congrArg Host.Outcome.next (if_pos ⟨hstores, hmode, hsteady⟩)
  · intro s t groups inputs u hana hstores hready hconv hidle
    refine congrArg Host.Outcome.next ((if_neg (State.tdacWrite_open hana hstores)).trans ?_)
    exact (if_neg (not_not_intro hready)).trans (if_neg (State.tdacIdle_open hconv hidle))
  · intro s t groups inputs u hana hstores hout
    exact congrArg Host.Outcome.next ((if_neg (State.tdacWrite_open hana hstores)).trans (if_pos hout))
  · intro s t res u hbusy hready hconv
    refine congrArg Host.Outcome.next ((ite_not_of_eq_true _ _ hbusy).trans ?_)
    exact (if_neg (not_not_intro hready)).trans (ite_not_of_eq_true _ _ hconv)
  · intro s t res u hbusy hleft
    exact exec_tdacComplete_of_left res hbusy hleft
  · intro s t u hbusy hleft
    exact exec_tdacAbort_of_left hbusy hleft

end Sys2Proof.Machine
end

section
/-!
PROOFS. The statements of 07_position_feedback.md: what the edges, patterns, marks and samples of a position source do, the
frames to Uzodar, and the position compare.
-/

namespace Sys2Proof.Machine

/-! ## Encoder, Hall, toothed train, index and resolver (R190, R192 to R196, R200 to R202) -/

/-- With CTL powered, the row's source selected and the filter passed, the guard of an accepted edge is open (R190). -/
theorem State.edge_counts {u : State} {a k n ts : Nat} (hctl : u.ctlOn = true) (hsrc : u.posSrc a = k)
    (hacc : u.accepted n ts = true) : ¬(u.ctlOn = false ∨ u.posSrc a ≠ k ∨ u.accepted n ts = false) :=
  not_or.mpr ⟨ne_false_of_eq_true hctl, not_or.mpr ⟨not_not_intro hsrc, ne_false_of_eq_true hacc⟩⟩

/-- The same of a pattern of the Hall source; the aid of an encoder is the guard's other way in (R200). -/
theorem State.pattern_counts {u : State} {a n ts : Nat} {aid : Bool} (hctl : u.ctlOn = true) (hsrc : u.posSrc a = 3)
    (hacc : u.accepted n ts = true) :
    ¬(u.ctlOn = false ∨ (!(u.posSrc a == 3 || aid)) = true ∨ u.accepted n ts = false) := by
  simp [hctl, hsrc, hacc]

/-- With the index enabled and, where it is gated, A and B high, an accepted pulse is qualified (R200). -/
theorem State.index_counts {u : State} {a n ts : Nat} {en gate la lb : Bool} (hctl : u.ctlOn = true)
    (hsrc : u.posSrc a = 1) (hacc : u.accepted n ts = true) (hen : en = true)
    (hgate : gate = false ∨ (la = true ∧ lb = true)) :
    ¬(u.ctlOn = false ∨ u.posSrc a ≠ 1 ∨ u.accepted n ts = false ∨ en = false ∨
      (gate = true ∧ (!(la && lb)) = true)) := by
  rcases hgate with hfree | ⟨hla, hlb⟩
  · simp [hctl, hsrc, hacc, hen, hfree]
  · simp [hctl, hsrc, hacc, hen, hla, hlb]

/-- At or after the crest that is due, with the excitation driven and no scan in the way, a pair that carries the crest's
sign and its lateness is taken (R195). -/
theorem pair_taken {conv on scans neg odd disc late : Bool} {src first now crest k : Nat} (hconv : conv = true)
    (hsrc : src = 2) (hon : on = true) (hfirst : first ≤ now) (hcrest : crest ≤ k) (hscans : scans = false)
    (hneg : neg = odd) (hdisc : disc = late) :
    ¬(conv = false ∨ src ≠ 2 ∨ on = false ∨ now < first ∨ k < crest ∨ scans = true ∨ neg ≠ odd ∨ disc ≠ late) := by
  simp [hconv, hsrc, hon, hfirst, hcrest, hscans, hneg, hdisc]

/-- Settles O15: for each row, its hypotheses decide the guard and the branches that the row stands under; the amplitude
check of a pair is `State.resolverLoss` read for a discarded and for a judged one. -/
theorem positionSourcesAdvance : Obligations.PositionSourcesAdvance := by
  refine ⟨?_, ?_, ?_, ?_, ?_, ?_, ?_, ?_, ?_, ?_⟩
  · intro s t a la lb ts u hctl hsrc hacc hillegal
    exact congrArg Host.Outcome.next ((if_neg (State.edge_counts hctl hsrc hacc)).trans (if_pos hillegal))
  · intro s t a la lb ts u hctl hsrc hacc hlegal hmoved
    refine congrArg Host.Outcome.next ((if_neg (State.edge_counts hctl hsrc hacc)).trans ?_)
    exact (if_neg hlegal).trans (if_neg hmoved)
  · intro s t a pat ts u hctl hsrc hacc hbad
    refine congrArg Host.Outcome.next ((if_neg (State.pattern_counts hctl hsrc hacc)).trans ?_)
    rewrite [hbad]
    rfl
  · intro s t a pat ts k o u hctl hsrc hacc hpat hsec hnext
    refine congrArg Host.Outcome.next ((if_neg (State.pattern_counts hctl hsrc hacc)).trans ?_)
    rw [hpat]
    simp only [u, hsrc, hsec, hnext, beq_self_eq_true, Bool.true_and, one_ne_zero, true_or, if_true, if_false,
      decide_true]
  · intro s t a x u hctl hsrc hbad hlong
    refine congrArg Host.Outcome.next (if_pos ⟨hctl, hsrc, ?_⟩)
    rw [hbad, Option.any_some]
    exact decide_eq_true hlong
  · intro s t a lb ts tp u hctl hsrc hacc hprev hfirst
    refine congrArg Host.Outcome.next ((if_neg (State.edge_counts hctl hsrc hacc)).trans ?_)
    simp only [u, hprev, hfirst]
    rfl
  · intro s t a lb ts u hctl hsrc hacc hprev
    refine congrArg Host.Outcome.next ((if_neg (State.edge_counts hctl hsrc hacc)).trans ?_)
    simp only [u, hprev]
  · intro s t a ts u hctl hsrc hacc hen hgate hnone
    refine congrArg Host.Outcome.next ((if_neg (State.index_counts hctl hsrc hacc hen hgate)).trans ?_)
    simp only [u, hnone]
  · intro s t a ts m u hctl hsrc hacc hen hgate hlast
    refine congrArg Host.Outcome.next ((if_neg (State.index_counts hctl hsrc hacc hen hgate)).trans ?_)
    simp only [u, hlast]
  · intro s t a sin cos neg discarded u hconv hsrc hon hfirst hcrest hscans hneg hlate
    refine ⟨_, congrArg Host.Outcome.next (if_neg (pair_taken hconv hsrc hon hfirst hcrest hscans hneg hlate)), ?_⟩
    subst hlate
    refine ⟨?_, ?_, ?_, ?_, ?_⟩
    · intro hlate
      exact if_pos hlate
    · intro hlate
      exact if_neg (ne_true_of_eq_false hlate)
    · intro w
      rfl
    · intro w
      rfl
    · intro v sn cs
      rfl

/-! ## Speed, frames and compare (R199, R205 to R207) -/

/-- Where no frame is held, or one of 10 µs ago, and the position is not yet lost, it becomes unavailable, and a running
axis activates row 13 (R205, R330). -/
theorem exec_positionFrameTimeout_of_late {s : State} {t : Nat} {a : Fin 2} (hsafe : (s.upTo t).safeOn = true)
    (hheld : ((s.upTo t).uzAx a).posLost = false)
    (hlate : ∀ f, ((s.upTo t).uzAx a).frame = some f → f.at_ + 10000 ≤ (s.upTo t).now) :
    exec (.positionFrameTimeout t a) s = .next (
      let v := (s.upTo t).modUz a fun x => { x with posLost := true, frame := none, slowAt := none, fastAt := none }
      if v.running a then v.activateRow 13 a else v) := by
  refine congrArg Host.Outcome.next (if_neg (not_or.mpr ⟨ne_false_of_eq_true hsafe, ?_⟩))
  refine not_or.mpr ⟨ne_false_of_eq_true ?_, ne_true_of_eq_false hheld⟩
  cases hframe : ((s.upTo t).uzAx a).frame with
  | none => rfl
  | some f => exact decide_eq_true (hlate f hframe)

/-- MT at or past CMP from the near side, 50 ns or more after the last hit: the guard of a compare hit is open (R206). -/
theorem State.compare_hits {u : State} {a : Nat} {past : Int} {en : Bool} (hctl : u.ctlOn = true) (hen : en = true)
    (hpast : 0 ≤ past) (hnear : (u.pos a).near = true)
    (hspaced : (u.pos a).hitAt = 0 ∨ (u.pos a).hitAt + 50 ≤ u.now + 1) :
    ¬(u.ctlOn = false ∨ en = false ∨ past < 0 ∨ (u.pos a).near = false ∨
      ((u.pos a).hitAt ≠ 0 ∧ u.now + 1 < (u.pos a).hitAt + 50)) := by
  simp only [hctl, hen, hnear, Bool.true_eq_false, false_or, not_or]
  omega

/-- What a compare hit does with the step `step` and MT `past` beyond CMP in its direction (R206, R207): `execCompareHit`
beyond its guard (`exec_compareHit_of_forward`). -/
def State.takeHit (u : State) (a : Nat) (step past : Int) : State :=
  let skipped : Nat := if step = 0 then 0 else past.toNat / step.natAbs
  let v := (u.modPos a fun p => { p with hitAt := u.now + 1 }).hi (F.POS_CMP_CTL_HIT a)
  let v := v.wr64 (R.POS_HIT_LO a) (R.POS_HIT_HI a) v.ct
  let v := v.cond (v.bit (F.POS_CMP_CTL_OUT a) && Config.gpioDedicated a) fun s => s.emit (.pulse a)
  let v := v.setReg (R.POS_CMP a) (BitVec.ofNat 32 (wrapN 32 ((u.reg (R.POS_CMP a)).toNat + step * (skipped + 1))))
  let v := (v.cond (step == 0) fun s => s.lo (F.POS_CMP_CTL_EN a)).cmpJudge a
  if skipped = 0 then v
  else ((v.wrSat (F.POS_CMP_CTL_SKIP_CNT a) (v.rd (F.POS_CMP_CTL_SKIP_CNT a) + skipped)).hi (F.POS_CMP_CTL_SKIP a)).event
    0x0A06 a

/-- Without a step to go back, MT at or past CMP from the near side hits, 50 ns or more after the last hit (R206). -/
theorem exec_compareHit_of_forward {s : State} {t : Nat} {a : Fin 2} (hctl : (s.upTo t).ctlOn = true)
    (hen : (s.upTo t).bit (F.POS_CMP_CTL_EN a) = true)
    (hpast : 0 ≤ signed 32 ((s.upTo t).liveMt a + 2 ^ 32 - ((s.upTo t).reg (R.POS_CMP a)).toNat))
    (hnear : ((s.upTo t).pos a).near = true)
    (hspaced : ((s.upTo t).pos a).hitAt = 0 ∨ ((s.upTo t).pos a).hitAt + 50 ≤ (s.upTo t).now + 1)
    (hstep : 0 ≤ signed 32 ((s.upTo t).reg (R.POS_STEP a)).toNat) :
    exec (.compareHit t a) s = .next ((s.upTo t).takeHit a (signed 32 ((s.upTo t).reg (R.POS_STEP a)).toNat)
      (signed 32 ((s.upTo t).liveMt a + 2 ^ 32 - ((s.upTo t).reg (R.POS_CMP a)).toNat))) := by
  simp only [exec, execCompareHit, if_neg (not_lt.mpr hstep)]
  exact congrArg Host.Outcome.next (if_neg (State.compare_hits hctl hen hpast hnear hspaced))

/-- Settles O16: for each row, its hypotheses decide the guard that the row stands under; a compare hit then goes by
`State.takeHit`, with a STEP that is positive or 0. -/
theorem positionFramesAndCompareComplete : Obligations.PositionFramesAndCompareComplete := by
  refine ⟨?_, ?_, ?_, ?_, ?_, ?_⟩
  · intro s t a u hctl
    exact congrArg Host.Outcome.next (if_pos hctl)
  · intro s t a ok u hctl hsafe
    exact congrArg Host.Outcome.next
      (if_neg (not_or.mpr ⟨ne_false_of_eq_true hctl, ne_false_of_eq_true hsafe⟩))
  · intro s t a u hsafe hheld hnone
    exact exec_positionFrameTimeout_of_late hsafe hheld fun f hf => absurd (hf.symm.trans hnone) (Option.some_ne_none f)
  · intro s t a f u hsafe hheld hframe hold
    exact exec_positionFrameTimeout_of_late hsafe hheld fun g hg => (Option.some.inj (hframe.symm.trans hg)) ▸ hold
  · intro s t a u hctl hen hpast hnear hspaced hstep
    have hmoves : signed 32 (u.reg (R.POS_STEP a)).toNat ≠ 0 := ne_of_gt hstep
    rw [exec_compareHit_of_forward hctl hen hpast hnear hspaced (le_of_lt hstep)]
    simp only [State.takeHit, u, if_neg hmoves, beq_eq_false_iff_ne.mpr hmoves]
    rfl
  · intro s t a u hctl hen hpast hnear hspaced hstep
    rw [exec_compareHit_of_forward hctl hen hpast hnear hspaced (le_of_eq hstep.symm), hstep]
    simp only [State.takeHit, if_pos, zero_mul, add_zero]
    rfl

end Sys2Proof.Machine
end

section
/-!
PROOFS. The statements of 08_field_control.md: an STO demand, its release and discrepancy, the rows, SS1 and its brake step,
and the short-circuit supervision of the field control.
-/

namespace Sys2Proof.Machine

/-! ## STO (R324 to R326) -/

/-- An input that has been low for the filter time, and any low input, open the guard of an STO demand (R324). -/
theorem demand_stands {safe a b : Bool} {filter held : Nat} (hsafe : safe = true) (hlow : a = false ∨ b = false)
    (hheld : filter ≤ held) : ¬(!safe || (a && b) || decide (held < filter)) = true := by
  have hboth : (a && b) = false := Bool.and_eq_false_iff.mpr hlow
  simp [hsafe, hboth, hheld]

/-- Inputs that differ and have done so for the whole time, with no discrepancy latched, open the guard of one (R325). -/
theorem discrepancy_stands {safe a b stood disc : Bool} (hsafe : safe = true) (hdiffer : a ≠ b) (hstood : stood = true)
    (hnew : disc = false) : ¬(!safe || a == b || !stood || disc) = true := by
  simp [hsafe, hdiffer, hstood, hnew]

/-! ## SS1 (R327, R328) -/

/-- An end by zero speed waits for a slow frame; an end by the deadline does not. -/
theorem ss1_ends {safe ss1 zero slow : Bool} (hsafe : safe = true) (hss1 : ss1 = true)
    (hslow : zero = true → slow = true) : ¬(!safe || !ss1 || (zero && !slow)) = true := by
  simpa [hsafe, hss1] using hslow

/-! ## Short circuits (R335) -/

/-- A measured back-EMF below the exit threshold counts as low once it has stood (R335). -/
theorem State.emf_low {u : State} {a e num den : Nat} {stood : Bool} (hmeas : u.measured = true)
    (hemf : u.emf a = some e) (hbelow : u.emfAtLeast a e num den = false) (hstood : stood = true) :
    (u.measured && (u.emf a).any (fun x => !u.emfAtLeast a x num den) && stood) = true := by
  rw [hemf, Option.any_some, hbelow, hmeas, hstood]
  rfl

/-- In HOLD a short circuit that a row applied, on a bridge that nothing else fixes, is given up while `low` holds (R335). -/
theorem short_ends {m : Nat} {why : UzWhy} {short low fixed : Bool} (hhold : m = 5)
    (hrow : why = .rowAuto ∨ why = .rowHalf) (hshort : short = true) (hlow : low = true) (hfree : fixed = false) :
    (m == 5 && (why == .rowAuto || why == .rowHalf) && short && low && !fixed) = true := by
  have hofRow : (why == .rowAuto || why == .rowHalf) = true := by simpa using hrow
  rw [hofRow, hhold, hshort, hlow, hfree]
  rfl

/-- Settles O21: for each row, its hypotheses decide the guard and the branches that the row stands under; the cause of a
row stands under none. -/
theorem safeTorqueOffAndStopsComplete : Obligations.SafeTorqueOffAndStopsComplete := by
  refine ⟨?_, ?_, ?_, ?_, ?_, ?_, ?_, ?_, ?_⟩
  · intro s t a b held u hsafe hlow hheld
    exact congrArg Host.Outcome.next (if_neg (demand_stands hsafe hlow hheld))
  · intro s t u hsafe hio
    exact next_ite_or_not _ _ hsafe hio
  · intro s t u hsafe hdiffer hstood hnew
    exact congrArg Host.Outcome.next (if_neg (discrepancy_stands hsafe hdiffer hstood hnew))
  · intro s t k a u
    rfl
  · rintro s t a _ f u hsafe hss1 rfl hframe hslow
    have hstops : ((u.frameGood a).isSome && u.stood (u.uzAx a).slowAt 10000000) = true := by
      rw [hframe, hslow]
      rfl
    exact congrArg Host.Outcome.next ((if_neg (ss1_ends hsafe hss1 fun _ => hstops)).trans (if_pos rfl))
  · rintro s t a _ u hsafe hss1 rfl hdue
    refine congrArg Host.Outcome.next ((if_neg (ss1_ends hsafe hss1 fun h => absurd h Bool.false_ne_true)).trans ?_)
    exact (if_neg Bool.false_ne_true).trans (if_neg (not_lt.mpr hdue))
  · intro s t a u hstep hpast
    exact next_ite_and _ _ hstep ((Bool.not_eq_true' _).mpr (decide_eq_false (not_lt.mpr hpast)))
  · intro s t a e u hhold hrow hshort hemf hmeas hbelow hstood hfree
    exact congrArg Host.Outcome.next
      (if_pos (short_ends hhold hrow hshort (State.emf_low hmeas hemf hbelow hstood) hfree))
  · intro s t a u_ v w u hsafe hmeas
    exact next_ite_or_not _ _ hsafe hmeas

end Sys2Proof.Machine
end

section
/-!
PROOFS. The statements of 09_fesil_engine.md: the instructions of a running task, task starts and cut-offs, the trace, and
the commands of set-points, profiles and data, run or turned away.
-/

namespace Sys2Proof.Machine

/-! ## The frame of an instruction (R245, R255, R265) -/

/-- Where no task runs with room, an instruction leaves the module as it is, whatever its effect (R245). -/
theorem State.next_instr_of_noRoom {u : State} {n : Nat} {e : Ecc} {body : FTask → State → State} (h : u.noRoom n) :
    (.next (u.instr n e body) : Host.Outcome State Fault Refusal) = .next u :=
  congrArg Host.Outcome.next (State.instr_out h)

section Runs
variable {u : State} {k : FTask} {n : Nat} {e : Ecc} {body : FTask → State → State}

/-- With room in the task, an instruction is its effect on that task, once its reads have been judged (R265). -/
theorem State.next_instr_of_runsFor {f : State → State} (h : u.runsFor k n) (hbody : body k = f) :
    (.next (u.instr n e body) : Host.Outcome State Fault Refusal) = .next ((u.after k n).withEcc e f) := by
  rw [State.instr_of h, hbody]

/-- An instruction whose effect is one float register. -/
theorem State.next_instr_wroteF {fd : Nat} {v : BitVec 32} (h : u.runsFor k n)
    (hbody : body k = fun s => s.setF fd v) :
    ∃ r : State, (.next (u.instr n e body) : Host.Outcome State Fault Refusal) = .next r ∧ u.wroteF k n e fd v r :=
  ⟨_, State.next_instr_of_runsFor h hbody, State.setF_after u k n e fd v⟩

/-- An instruction whose effect is one integer register. -/
theorem State.next_instr_wroteA {ad : Nat} {v : BitVec 32} (h : u.runsFor k n)
    (hbody : body k = fun s => s.setA ad v) :
    ∃ r : State, (.next (u.instr n e body) : Host.Outcome State Fault Refusal) = .next r ∧ u.wroteA k n e ad v r :=
  ⟨_, State.next_instr_of_runsFor h hbody, State.setA_after u k n e ad v⟩

end Runs

/-- A branch costs two cycles where it is taken, one where it is not, and sets the pc only where it is. -/
theorem exec_br_of_runsFor {s : State} {t label n : Nat} {c : BrCond} {e : Ecc} {k : FTask} {taken : Bool}
    (hrun : (s.upTo t).runsFor k n) (htaken : State.brTaken c k.condOf = taken) (hn : (if taken then 2 else 1) = n) :
    exec (.br t c label e) s = .next (((s.upTo t).after k n).withEcc e fun v =>
      v.cond taken fun v => v.modTask fun x => { x with pc := label % 8192 }) := by
  subst htaken
  have hcycles : (s.upTo t).brCycles c = n := by
    simp only [State.brCycles, hrun.1, hn]
  subst hcycles
  exact State.next_instr_of_runsFor hrun rfl

/-- Settles O2: each of the fifteen is an instruction whose effect is its destination register. -/
theorem fesilFloatArithmetic : Obligations.FesilFloatArithmetic := by
  unfold Obligations.FesilFloatArithmetic
  and_intros
  all_goals
    intros
    rename_i hrun
    exact State.next_instr_wroteF hrun rfl

/-- Settles O3: three of the conversions write a float register; every other row writes an integer register. -/
theorem fesilConversionsAndIntegers : Obligations.FesilConversionsAndIntegers := by
  refine ⟨?cvqf, ?cvaf, ?cvif, ?cvfq, ?cvfa, ?cvfi, ?iadd, ?isub, ?iand, ?ior, ?ixor, ?ish⟩
  case cvqf | cvaf | cvif =>
    intros
    rename_i hrun
    exact State.next_instr_wroteF hrun rfl
  all_goals
    intros
    rename_i hrun
    exact State.next_instr_wroteA hrun rfl

/-- Settles O1: each row is an instruction in the frame of the running task; MOV goes by the kinds of its two registers. -/
theorem fesilLoadsAndStores : Obligations.FesilLoadsAndStores := by
  refine ⟨?ldi, ?lds, ?ldc, ?ldc4, ?stc, ?stc4, ?ldx, ?stx, ?movi, ?mov⟩
  case mov =>
    intro s t d r e k u hrun
    refine State.next_instr_of_runsFor hrun ?_
    cases d <;> cases r <;> rfl
  all_goals
    intros
    rename_i hrun
    exact State.next_instr_of_runsFor hrun rfl

/-- Settles O4: each row is an instruction in the frame of the running task; CMPQ goes by whether its duties are finite. -/
theorem fesilControlInstructions : Obligations.FesilControlInstructions := by
  refine ⟨?sincos, ?clarke, ?park, ?ipark, ?svm, ?cmpqFinite, ?cmpqBad, ?stper, ?sttrg, ?pic, ?biq⟩
  case cmpqFinite =>
    intro s t qs e k u hrun hfinite
    exact State.next_instr_of_runsFor hrun (funext fun v => if_neg (Bool.eq_false_iff.mp hfinite))
  case cmpqBad =>
    intro s t qs e k u hrun hbad
    exact State.next_instr_of_runsFor hrun (funext fun v => if_pos hbad)
  all_goals
    intros
    rename_i hrun
    exact State.next_instr_of_runsFor hrun rfl

/-- Settles O5: each row is an instruction in the frame of the running task; BR goes by its condition, COMMIT by whether
the task has committed before. -/
theorem fesilFlowAndCommit : Obligations.FesilFlowAndCommit := by
  refine ⟨?fcmp, ?icmp, ?brTaken, ?brNotTaken, ?jmp, ?firstCommit, ?furtherCommit, ?trc, ?evt, ?endProgram⟩
  case brTaken =>
    intro s t c label e k u hrun htaken
    exact exec_br_of_runsFor hrun htaken rfl
  case brNotTaken =>
    intro s t c label e k u hrun hnot
    exact exec_br_of_runsFor hrun hnot rfl
  case firstCommit =>
    intro s t e k u hrun hfirst
    exact State.next_instr_of_runsFor hrun (funext fun v => if_neg (Bool.eq_false_iff.mp hfirst))
  case furtherCommit =>
    intro s t e k u hrun hagain
    exact State.next_instr_of_runsFor hrun (funext fun v => if_pos hagain)
  all_goals
    intros
    rename_i hrun
    exact State.next_instr_of_runsFor hrun rfl

/-- Settles O56: all 55 stand in one frame, which is closed without a task, without room, and without power. -/
theorem instructionsRunInsideTheirTask : Obligations.InstructionsRunInsideTheirTask := by
  unfold Obligations.InstructionsRunInsideTheirTask
  and_intros
  all_goals
    intros
    rename_i hout
    exact State.next_instr_of_noRoom hout

/-! ## Task starts (R242, R265) -/

/-- The idle scrub corrects words with CTL powered and its clock held by nothing. -/
theorem State.scrub_of_clocked {u : State} (n : Nat) (hctl : u.ctlOn = true) (hclock : u.power.pllbHeld = false) :
    u.scrub n = u.each (List.range (min 255 n)) fun s _ => s.fslEccFixed :=
  if_pos (by rw [hctl, hclock]; rfl)

/-- Corrections leave the engine's own state, however many they are. -/
theorem State.each_fslEccFixed_fsl (l : List Nat) (u : State) : (u.each l fun s _ => s.fslEccFixed).fsl = u.fsl := by
  induction l generalizing u with
  | nil => rfl
  | cons _ l ih => exact (ih u.fslEccFixed).trans (u.judged_fsl .corrected)

theorem State.startTask_of_noneReady {v : State} (e : Ecc) (hready : v.fsl.ready = []) : v.startTask e = v := by
  unfold State.startTask
  split
  · rfl
  · rw [hready]

/-- A free engine whose clock runs takes the first ready axis, which leaves `w`, and runs it with the input set that waits
for it. -/
theorem State.startTask_of_ready {v w : State} (e : Ecc) {a : Nat} {rest : List Nat} {i : InputSet}
    (hfree : v.fsl.task = none) (hpllb : v.power.pllbHeld = false) (hroad : v.power.roadHeld = false)
    (hready : v.fsl.ready = a :: rest) (hwaits : (v.fsa a).waiting = some i)
    (hw : ((v.modFsl fun x => { x with ready := rest }).modFsa a fun x => { x with waiting := none }) = w)
    (hruns : w.taskRuns a = true) :
    v.startTask e = w.withEcc e fun v =>
      let w := ({ v with fresh := v.fresh + 2 ^ 33 } : State).prelude a i
      w.modFsl fun x => { x with
        task := some { axis := a, set := i, base := v.fresh, pc := w.rd (F.FSL_TASK_ENTRY a), start := w.now
                       missed := w.reloadMissed a } } := by
  unfold State.startTask
  simp only [hfree, hpllb, hroad, hready, hwaits, hw, hruns, Option.isSome_none, Bool.or_self, Bool.false_eq_true, if_false,
    Bool.not_true]

/-- Settles O6: for each row, its hypotheses decide the guards that the row stands under; a task start goes by
`State.startTask` on the axes that are ready. -/
theorem fesilTasksAndTrace : Obligations.FesilTasksAndTrace := by
  refine ⟨?taskStart, ?noneReady, ?guardOpens, ?limitReached, ?pub, ?swap, ?runSet, ?runCleared, ?runBarred, ?checked,
    ?stored, ?read, ?armed, ?forced, ?triggered⟩
  case taskStart =>
    rintro s t e scrubbed _ a rest i u rfl hfree hpllb hroad hready hwaits hruns
    exact congrArg Host.Outcome.next (State.startTask_of_ready e hfree hpllb hroad hready hwaits rfl hruns)
  case noneReady =>
    intro s t e scrubbed u hctl hclock hready
    have hscrub := State.scrub_of_clocked scrubbed hctl hclock
    have hnone : (u.scrub scrubbed).fsl.ready = [] := by rw [hscrub, State.each_fslEccFixed_fsl, hready]
    exact congrArg Host.Outcome.next ((State.startTask_of_noneReady e hnone).trans hscrub)
  case guardOpens =>
    intro s t c e k u htask haxis hdue
    refine congrArg Host.Outcome.next ?_
    rw [htask]
    exact if_pos ⟨haxis, hdue⟩
  case limitReached =>
    intro s t e k u htask hran
    refine congrArg Host.Outcome.next ?_
    rw [htask]
    exact if_pos hran
  case pub =>
    intro s t a u hctl hstores
    exact next_ite_and _ _ hctl hstores
  case swap =>
    intro s t a u hctl hstores
    exact next_ite_and _ _ hctl hstores
  case runSet =>
    rintro s t _ u hctl hstores rfl hstopped
    exact (next_ite_or_not _ _ hctl hstores).trans
      (congrArg Host.Outcome.next (if_neg (Bool.eq_false_iff.mp hstopped)))
  case runCleared =>
    rintro s t _ u hctl hstores rfl hready
    exact (next_ite_or_not _ _ hctl hstores).trans (congrArg Host.Outcome.next (if_pos hready))
  case runBarred =>
    rintro s t _ u hctl hstores rfl hready
    exact (next_ite_or_not _ _ hctl hstores).trans (congrArg Host.Outcome.next (if_neg hready))
  case checked =>
    intro s t e u hchecking hctl hclock
    refine congrArg Host.Outcome.next ((if_neg (by simp [u, hchecking, hctl, hclock])).trans ?_)
    cases e <;> rfl
  case stored =>
    rintro s t _ e x u hctl rfl hstores
    refine congrArg Host.Outcome.next ((ite_not_of_eq_true _ _ hctl).trans ((ite_not_of_eq_true _ _ hstores).trans ?_))
    generalize u.memWindow (some x) e = r
    obtain ⟨_ | word, v⟩ := r <;> rfl
  case read =>
    rintro s t _ e x u hctl rfl hword
    refine congrArg Host.Outcome.next ((ite_not_of_eq_true _ _ hctl).trans ?_)
    extract_lets r
    rw [hword]
    rfl
  case armed =>
    intro s t w u hctl hstores
    exact next_ite_and _ _ hctl hstores
  case forced =>
    intro s t u hctl hstores hstate
    exact next_ite_and _ _ (Bool.and_eq_true_iff.mpr ⟨hctl, hstores⟩) (beq_iff_eq.mpr hstate)
  case triggered =>
    intro s t rising u hctl
    refine congrArg Host.Outcome.next ?_
    rw [hctl]
    rfl

/-! ## Commands of one opcode and one part (R421) -/

/-- A row that one opcode and one argument's value name: its outcome follows from what the command's operation answers. -/
theorem State.next_runCmd_of_mayRun {u v : State} {r op : Nat} {c : Cmd} {p : Cmd → Bool} {f : State → Cmd → State}
    (hrun : u.mayRun r c) (hop : c.opcode = op) (hpart : p c = true) (hf : f (u.begin_ r) c = v) :
    (.next (u.runCmd r (fun c => c.opcode == op && p c) f) : Host.Outcome State Fault Refusal) =
      .next (v.runEnd u.cores.finals.length) :=
  congrArg Host.Outcome.next
    (State.runCmd_of_mayRun hrun (Bool.and_eq_true_iff.mpr ⟨beq_iff_eq.mpr hop, hpart⟩) hf)

section Commands
variable {s : State} {c : Cmd}

/-! ## Set-points, limits, brake test, discharge and policy (R250, R291, R317, R346, R350) -/

/-- SET_TORQUE stages FORM 0 with SP_IQ for a current, FORM 1 with SP_TQ for a torque (R248). -/
theorem State.setTorqueCmd_eq :
    s.setTorqueCmd c =
      (if c.arg 17 1 == 1 then
        ((s.setReg (R.FSL_SP (c.arg 16 1) 0) 0#32).setReg (R.FSL_SP (c.arg 16 1) 1) (c.word 20)).stageCommon c (c.arg 16 1)
      else ((s.setReg (R.FSL_SP (c.arg 16 1) 0) 1#32).setReg (R.FSL_SP (c.arg 16 1) 2) (c.word 20)).stageCommon c
        (c.arg 16 1)).publishCmd c (c.arg 16 1) := by
  unfold State.setTorqueCmd
  cases c.arg 17 1 == 1 <;> rfl

/-- Without VLIM, or in READY, SET_LIMITS is accepted (R291). -/
theorem State.limits_not_barred {a : Nat} {vlim : Bool} (h : vlim = true → s.axMode a = 2) :
    ¬(vlim && s.axMode a != 2) = true := by
  simpa using h

theorem State.brakeTestCmd_of_fit (hmode : s.axMode (c.arg 16 1) = 2) (harmed : (s.fc (c.arg 16 1)).armed = true)
    (hbrake : s.hasBrake (c.arg 16 1) = true) (hstart : s.starting (c.arg 16 1) = false) (hfree : s.saf.btest = none) :
    s.brakeTestCmd c =
      let v := ({ s with btCmd := some c } : State).modSaf fun x =>
        { x with btest := some { axis := c.arg 16 1, since := s.now } }
      let v := (v.capture (.brakeStep (c.arg 16 1) 1)).enterRun (c.arg 16 1)
      v.commandCurrent (c.arg 16 1) (v.testCurrent (c.arg 16 1) false) :=
  if_neg (by simp [hmode, harmed, hbrake, hstart, hfree])

theorem State.dischargeCmd_stopped (h : s.axes.any s.running = false) :
    s.dischargeCmd c =
      let v := ({ s with dchCmds := s.dchCmds ++ [c] } : State).requestDischarge
      if s.saf.discharge == .waitFb && !v.bit F.SAF_STAT_FB0 then v.dchBarred else v :=
  if_neg (Bool.eq_false_iff.mp h)

theorem State.policyCmd_free (h : s.policyFree = true) :
    s.policyCmd c =
      ((s.policyWrite R.MOT_HOV_POL (c.word 20)).policyWrite R.MOT_HOV_IDLE (c.word 24)).done c stOk := by
  unfold State.policyCmd
  rw [h]
  rfl

end Commands

/-- A table copy whose entry count and place lie inside TB is not refused (R285). -/
theorem table_not_barred {n tb : Nat} (hsome : 0 < n) (hmax : n ≤ 1024) (hlow : 0x2000 ≤ tb)
    (hhigh : tb + 16 * n ≤ 0x40000) :
    ¬(n = 0 ∨ 1024 < n ∨ tb < 0x2000 ∨ 0x40000 < tb + 16 * n) := by
  omega

/-- Settles O34: each command runs, and its hypotheses choose the branch of its operation. -/
theorem setPointAndProfileCommandsRun : Obligations.SetPointAndProfileCommandsRun := by
  refine ⟨?setTorque, ?setSpeed, ?profileParams, ?profileTable, ?profileControl, ?setLimits, ?brakeTest, ?discharge,
    ?handoverPolicy, ?traceArm⟩
  case setTorque =>
    intro s t r c u hrun hop
    exact State.next_runOp_of_mayRun hrun hop State.setTorqueCmd_eq
  case profileParams =>
    intro s t r c u hrun hop hpart
    exact State.next_runCmd_of_mayRun hrun hop (beq_iff_eq.mpr hpart) rfl
  case profileTable =>
    intro s t r c u hrun hop hpart hsome hmax hlow hhigh
    exact State.next_runCmd_of_mayRun hrun hop (beq_iff_eq.mpr hpart)
      (if_neg (table_not_barred hsome hmax hlow hhigh))
  case profileControl =>
    intro s t r c u hrun hop hpart
    exact State.next_runCmd_of_mayRun hrun hop (beq_iff_eq.mpr hpart) rfl
  case setLimits =>
    intro s t r c u hrun hop hvlim
    exact State.next_runOp_of_mayRun hrun hop (if_neg (State.limits_not_barred hvlim))
  case brakeTest =>
    intro s t r c u hrun hop hmode harmed hbrake hstart hfree
    exact State.next_runOp_of_mayRun hrun hop (State.brakeTestCmd_of_fit hmode harmed hbrake hstart hfree)
  case discharge =>
    intro s t r c u hrun hop hstopped
    exact State.next_runOp_of_mayRun hrun hop (State.dischargeCmd_stopped hstopped)
  case handoverPolicy =>
    intro s t r c u hrun hop hfree
    exact State.next_runOp_of_mayRun hrun hop (State.policyCmd_free hfree)
  case setSpeed | traceArm =>
    intro s t r c u hrun hop
    exact State.next_runOp_of_mayRun hrun hop rfl

section Data
variable {s : State} {c : Cmd}

/-! ## TRACE_READ, JOURNAL_QUERY and REC_READ (R269, R448, R517) -/

theorem State.traceReadCmd_unfrozen (bads fixed : List Nat) (h : s.rd F.FSL_TRC_STAT_STATE ≠ 3) :
    s.traceReadCmd bads fixed c = s.done c stBusy := if_pos h

/-- A frozen trace is copied in whole records of at most its size. -/
theorem State.traceReadCmd_frozen (bads fixed : List Nat) (h : s.rd F.FSL_TRC_STAT_STATE = 3) :
    s.traceReadCmd bads fixed c =
      if c.arg 28 4 % 64 ≠ 0 ∨ 524288 < c.arg 28 4 then s.done c stArg
      else
        let v := s.traceFlaws (c.arg 28 4) bads fixed
        v.move (.toHost c (c.arg 20 8) (v.traceBytes.take (c.arg 28 4)) (v.traceBytes.take (c.arg 28 4)).length) :=
  if_neg (not_not.mpr h)

/-- A query names entries from 1 to the head, and 1 to 2,048 of them (R448). -/
theorem query_not_barred {first head n : Nat} (hfirst : 0 < first) (hhead : first ≤ head) (hsome : 0 < n)
    (hmax : n ≤ 2048) :
    ¬(first = 0 ∨ head < first ∨ n = 0 ∨ 2048 < n) := by
  omega

theorem State.recReadCmd_past (h : s.recd.rnum ≤ c.arg 20 8) : s.recReadCmd c = s.done c stArg := if_pos h

/-! ## REC_MARK (R514, R516) -/

theorem State.recMarkCmd_locked (hconf : c.arg 17 1 = 1) (hid : s.bit F.SEC_BOOT_STAT_ID_OK = false) :
    s.recMarkCmd c = s.done c stLocked :=
  if_pos (by simp [hconf, hid])

/-- A mark that needs no identity, or has one, waits for the medium and for a place in staging. -/
theorem State.recMarkCmd_identified (hid : c.arg 17 1 = 1 → s.bit F.SEC_BOOT_STAT_ID_OK = true) :
    s.recMarkCmd c =
      if !s.canWrite then s.done c stBusy
      else
        let v := s.recAdd 2 s.ct (slice c.args 4 32) (c.arg 17 1 == 1)
        if v.recd.rnum = s.recd.rnum then v.done c stBusy
        else (v.modRec fun x => { x with marks := x.marks ++ [(s.recd.rnum, c)] }).flushStaging :=
  if_neg (by simpa using hid)

/-! ## FW_STAGE (R394, R528) -/

theorem State.fwStageCmd_of_badArg (h : 2 < c.arg 16 1 ∨ 65536 < c.arg 32 4) : s.fwStageCmd c = s.done c stArg :=
  if_pos (h.imp_right Or.inl)

section Part
variable (hkind : c.arg 16 1 ≤ 2) (hlen : c.arg 32 4 ≤ 65536)
  (hlimit : c.arg 28 4 + c.arg 32 4 ≤
    17120 + payloadLimit (if c.arg 16 1 = 0 then 1 else if c.arg 16 1 = 1 then 2 else 5))
include hkind hlen hlimit

theorem State.fwStageCmd_unwritable (hwrite : s.canWrite = false) : s.fwStageCmd c = s.done c stBusy :=
  (if_neg (by omega)).trans (if_pos (by rw [hwrite]; rfl))

/-- Nothing refuses the part's arguments nor the medium, and the part follows the bytes that its object has in staging: in
`v`, where a first part has opened a staging of its own. -/
theorem State.fwStageCmd_follows {v : State} {g : Staging} (hwrite : s.canWrite = true)
    (hv : (if c.arg 28 4 = 0 then
      s.abandonStage.modRec fun x => { x with stage := some ⟨s.stageTarget (c.arg 16 1), [], [], []⟩ } else s) = v)
    (hstage : v.recd.stage = some g) (hobj : g.obj = s.stageTarget (c.arg 16 1))
    (hbytes : g.bytes.length = c.arg 28 4) (hnone : v.partCmds = []) :
    s.fwStageCmd c = v.move
      (.fwPart c (s.stageTarget (c.arg 16 1)) (c.arg 28 4) (c.arg 32 4) (c.arg 17 1 == 1) (c.arg 20 8)) := by
  refine (if_neg (by omega)).trans ((ite_not_of_eq_true _ _ hwrite).trans ?_)
  simp only [hv, hstage]
  exact if_pos ⟨hobj, hbytes, hnone⟩

end Part

/-! ## FW_COMMIT (R395) -/

theorem State.fwCommitCmd_running (h : s.axes.any s.running = true) : s.fwCommitCmd c = s.done c stMode := if_pos h

/-- ADVANCE asks that the module runs the committed image and configuration. -/
theorem advance_not_barred {adv x y : Bool} {slot : Nat}
    (h : adv = true → x = false ∧ y = false ∧ slot ≠ 2) : (adv && (x || y || slot == 2)) = false := by
  cases adv with
  | false => rfl
  | true =>
    obtain ⟨hx, hy, hslot⟩ := h rfl
    simp [hx, hy, hslot]

/-- With every axis stopped, its arguments in order and the medium open, FW_COMMIT takes its steps. -/
theorem State.fwCommitCmd_open (hstopped : s.axes.any s.running = false)
    (hadv : (c.arg 16 1).testBit 1 = true → s.bit F.SEC_BOOT_STAT_FALLBACK = false ∧
      s.bit F.SEC_BOOT_STAT_CFG_FALLBACK = false ∧ s.rd F.SEC_BOOT_STAT_SLOT ≠ 2)
    (hready : (c.arg 16 1).testBit 0 = true → s.recd.ready ≠ []) (hwrite : s.canWrite = true) :
    s.fwCommitCmd c =
      let v := s.cond ((c.arg 16 1).testBit 1) fun s =>
        let s := (s.advanceTo (min (s.rd F.SEC_ARB_IMG_SVN) (s.rd F.SEC_ARB_CFG_SVN))).arbRegs
        s.event 0x1106 s.rollback
      if (c.arg 16 1).testBit 0 then
        let img := (v.recd.ready.filter fun o => decide (o < 2)).getLast?
        let cfg := (v.recd.ready.filter fun o => decide (2 ≤ o)).getLast?
        v.modRec fun x => { x with
          ready := [],
          progs := x.progs ++ [.boot c (img.getD v.med.bootSlot) ((cfg.map (· - 2)).getD v.med.bootCopy)] }
      else v.done c stOk := by
  refine (if_neg (Bool.eq_false_iff.mp hstopped)).trans ((if_neg ?_).trans (ite_not_of_eq_true _ _ hwrite))
  rw [advance_not_barred hadv]
  simpa using hready

/-! ## ATTEST (R397) -/

theorem State.attestCmd_locked (hid : s.bit F.SEC_BOOT_STAT_ID_OK = false) : s.attestCmd c = s.done c stLocked :=
  if_pos (by rw [hid]; rfl)

theorem State.attestCmd_identified (hid : s.bit F.SEC_BOOT_STAT_ID_OK = true) :
    s.attestCmd c =
      if s.sec.attest.isSome then s.done c stBusy else s.modSec fun x => { x with attest := some (c, s.ct) } :=
  ite_not_of_eq_true _ _ hid

/-! ## CHAIN_SEND (R481) -/

theorem State.chainSendCmd_of_badArg
    (h : 256 < c.arg 32 2 ∨ c.arg 20 2 = 0 ∨ c.arg 20 2 = s.chainAddr ∨ 0x3FFF < c.arg 20 2) :
    s.chainSendCmd c = s.done c stArg := by
  refine if_pos ?_
  simp only [Bool.or_eq_true, decide_eq_true_eq, beq_iff_eq]
  tauto

theorem State.chainSendCmd_in_range (htype : c.arg 22 1 = 2 ∨ 0x40 ≤ c.arg 22 1 ∧ c.arg 22 1 ≤ 0x7F)
    (hlen : c.arg 32 2 ≤ 256) (hsome : c.arg 20 2 ≠ 0) (hother : c.arg 20 2 ≠ s.chainAddr) (hmax : c.arg 20 2 ≤ 0x3FFF) :
    s.chainSendCmd c = s.move (.chainSend c (c.arg 20 2) (c.arg 22 1) (c.arg 32 2) (c.arg 24 8)) := by
  refine if_neg ?_
  simp only [Bool.or_eq_true, Bool.not_eq_true', Bool.or_eq_false_iff, Bool.and_eq_false_iff, decide_eq_true_eq,
    decide_eq_false_iff_not, beq_iff_eq, beq_eq_false_iff_ne]
  omega

/-! ## TLM_CONFIG (R427) -/

theorem State.tlmConfigCmd_of_badStream (h : 1 < c.arg 16 1 ∨ c.arg 18 2 = 0) : s.tlmConfigCmd c = s.done c stArg :=
  if_pos (h.imp_right Or.inl)

/-- The word names a register that can be read (R427). -/
def State.tlmReadable (w : BitVec 32) : Bool :=
  w.toNat % 2 ^ 24 % 4 == 0 && decide (w.toNat % 2 ^ 24 < 0x120000) && !State.writeOnly (w.toNat % 2 ^ 24)

/-- A word that can be read passes each of the three tests that TLM_CONFIG refuses by. -/
theorem State.tlmReadable_not_bad {w : BitVec 32} (h : State.tlmReadable w = true) :
    ¬(w.toNat % 2 ^ 24 % 4 != 0 || decide (0x120000 ≤ w.toNat % 2 ^ 24) ||
      State.writeOnly (w.toNat % 2 ^ 24)) = true := by
  simp only [State.tlmReadable, Bool.and_eq_true, beq_iff_eq, decide_eq_true_eq, Bool.not_eq_true'] at h
  obtain ⟨⟨halign, hrange⟩, hreads⟩ := h
  rw [halign, decide_eq_false (not_le.mpr hrange), hreads]
  exact Bool.false_ne_true

/-- A stream with its enabled words at the head, each naming a register that can be read, is configured. -/
theorem State.tlmConfigCmd_in_range (hstream : c.arg 16 1 ≤ 1) (hper : 0 < c.arg 18 2)
    (hhead : (c.tlmItems.drop c.tlmUsed.length).any (fun w => w.getLsbD 31) = false)
    (hitems : c.tlmUsed.all State.tlmReadable = true) :
    s.tlmConfigCmd c =
      let k := c.arg 16 1
      let v := s.wr (F.HIF_TLM_CFG_EN k) (c.arg 17 1)
      let v := (v.wr (F.HIF_TLM_CFG_NVAL k) c.tlmUsed.length).wr (F.HIF_TLM_CFG_PERIOD k) (c.arg 18 2)
      let v := v.wr (F.HIF_TLM_VF_VALID_FOR k) (if c.arg 20 4 = 0 then 100 * c.arg 18 2 else c.arg 20 4)
      let v := v.each (List.range 9) fun s i => s.setReg (R.HIF_TLM_ITEM k i) (c.tlmItems.getD i 0#32)
      (v.modStr k fun x => { x with
        cfgAt := v.now, nextMul := 1,
        lastAt := if s.bit (F.HIF_TLM_CFG_EN k) then x.lastAt else v.now }).done c stOk := by
  refine if_neg (not_or.mpr ⟨not_lt.mpr hstream, not_or.mpr ⟨hper.ne', not_or.mpr ⟨?_, ?_⟩⟩⟩)
  · exact Bool.eq_false_iff.mp hhead
  · refine Bool.eq_false_iff.mp (List.any_eq_false.mpr fun w hw => ?_)
    exact State.tlmReadable_not_bad (List.all_eq_true.mp hitems w hw)

end Data

/-- Settles O35: each command runs, and its hypotheses rule out every refusal of its operation. -/
theorem dataCommandsRun : Obligations.DataCommandsRun := by
  refine ⟨?trace, ?query, ?records, ?mark, ?firstPart, ?nextPart, ?activate, ?advance, ?attest, ?chain, ?telemetry⟩
  case trace =>
    intro s t r bads fixed c u hrun hop hstate hwhole hmax
    exact State.next_runOp_of_mayRun hrun hop ((State.traceReadCmd_frozen bads fixed hstate).trans
      (if_neg (not_or.mpr ⟨not_not.mpr hwhole, not_lt.mpr hmax⟩)))
  case query =>
    intro s t r c u hrun hop hfirst hhead hsome hmax
    exact State.next_runOp_of_mayRun hrun hop (if_neg (query_not_barred hfirst hhead hsome hmax))
  case records =>
    intro s t r c u hrun hop hfirst
    exact State.next_runOp_of_mayRun hrun hop (if_neg (not_le.mpr hfirst))
  case mark =>
    intro s t r c u hrun hop hid hwrite hroom
    exact State.next_runOp_of_mayRun hrun hop ((State.recMarkCmd_identified hid).trans
      ((ite_not_of_eq_true _ _ hwrite).trans (if_neg hroom)))
  case firstPart =>
    intro s t r c u hrun hop hkind hlen hoff hlimit hwrite hnone
    exact State.next_runOp_of_mayRun hrun hop
      (State.fwStageCmd_follows hkind hlen hlimit hwrite (if_pos hoff) rfl rfl hoff.symm hnone)
  case nextPart =>
    intro s t r c g u hrun hop hkind hlen hoff hlimit hwrite hstage hobj hbytes hnone
    exact State.next_runOp_of_mayRun hrun hop
      (State.fwStageCmd_follows hkind hlen hlimit hwrite (if_neg hoff.ne') hstage hobj hbytes hnone)
  case activate =>
    intro s t r c u hrun hop hact hstopped hadv hready hwrite
    exact State.next_runCmd_of_mayRun hrun hop hact
      ((State.fwCommitCmd_open hstopped hadv (fun _ => hready) hwrite).trans (if_pos hact))
  case advance =>
    intro s t r c u hrun hop hact hadv hstopped himg hcfg hslot hwrite
    have hnotAct : ¬(c.arg 16 1).testBit 0 = true := Bool.eq_false_iff.mp hact
    refine State.next_runCmd_of_mayRun hrun hop ((Bool.not_eq_true' _).mpr hact)
      ((State.fwCommitCmd_open hstopped (fun _ => ⟨himg, hcfg, hslot⟩) (absurd · hnotAct) hwrite).trans
        ((if_neg hnotAct).trans ?_))
    rw [State.cond_of_eq_true _ hadv]
  case attest =>
    intro s t r c u hrun hop hid hfree
    refine State.next_runOp_of_mayRun hrun hop ((State.attestCmd_identified hid).trans (if_neg ?_))
    simp [u, hfree]
  case chain =>
    intro s t r c u hrun hop htype hlen hsome hother hmax
    exact State.next_runOp_of_mayRun hrun hop (State.chainSendCmd_in_range htype hlen hsome hother hmax)
  case telemetry =>
    intro s t r c u hrun hop hstream hper hhead hitems
    exact State.next_runOp_of_mayRun hrun hop (State.tlmConfigCmd_in_range hstream hper hhead hitems)

/-- Settles O43: each command runs, and its hypotheses choose the refusal in its operation. -/
theorem dataCommandsAreTurnedAway : Obligations.DataCommandsAreTurnedAway := by
  refine ⟨?traceRunning, ?traceLength, ?query, ?records, ?markLocked, ?markBusy, ?stageArg, ?stageBusy, ?activate,
    ?advance, ?attestLocked, ?attestBusy, ?chain, ?telemetry, ?canConfigure, ?canTransmit, ?canDisable, ?canStart,
    ?canRecover⟩
  case traceRunning =>
    intro s t r bads fixed c u hrun hop hstate
    exact State.next_runOp_of_mayRun hrun hop (State.traceReadCmd_unfrozen bads fixed hstate)
  case traceLength =>
    intro s t r bads fixed c u hrun hop hstate hlength
    exact State.next_runOp_of_mayRun hrun hop ((State.traceReadCmd_frozen bads fixed hstate).trans (if_pos hlength))
  case query =>
    intro s t r c u hrun hop hrange
    exact State.next_runOp_of_mayRun hrun hop (if_pos hrange)
  case records =>
    intro s t r c u hrun hop hpast
    exact State.next_runOp_of_mayRun hrun hop (State.recReadCmd_past hpast)
  case markLocked =>
    intro s t r c u hrun hop hconf hid
    exact State.next_runOp_of_mayRun hrun hop (State.recMarkCmd_locked hconf hid)
  case markBusy =>
    intro s t r c u hrun hop hopen hwrite
    exact State.next_runOp_of_mayRun hrun hop
      ((State.recMarkCmd_identified fun h => absurd h hopen).trans (if_pos (by rw [hwrite]; rfl)))
  case stageArg =>
    intro s t r c u hrun hop hbad
    exact State.next_runOp_of_mayRun hrun hop (State.fwStageCmd_of_badArg hbad)
  case stageBusy =>
    intro s t r c u hrun hop hkind hlen hlimit hwrite
    exact State.next_runOp_of_mayRun hrun hop (State.fwStageCmd_unwritable hkind hlen hlimit hwrite)
  case activate =>
    intro s t r c u hrun hop hact hruns
    exact State.next_runCmd_of_mayRun hrun hop hact (State.fwCommitCmd_running hruns)
  case advance =>
    intro s t r c u hrun hop hadv hruns
    exact State.next_runCmd_of_mayRun hrun hop ((Bool.not_eq_true' _).mpr hadv) (State.fwCommitCmd_running hruns)
  case attestLocked =>
    intro s t r c u hrun hop hid
    exact State.next_runOp_of_mayRun hrun hop (State.attestCmd_locked hid)
  case attestBusy =>
    intro s t r c u hrun hop hid hreport
    exact State.next_runOp_of_mayRun hrun hop ((State.attestCmd_identified hid).trans (if_pos hreport))
  case chain =>
    intro s t r c u hrun hop hbad
    exact State.next_runOp_of_mayRun hrun hop (State.chainSendCmd_of_badArg hbad)
  case telemetry =>
    intro s t r c u hrun hop hbad
    exact State.next_runOp_of_mayRun hrun hop (State.tlmConfigCmd_of_badStream hbad)
  case canConfigure =>
    intro s t r c u hrun hop hact howned
    exact State.next_runCmd_of_mayRun hrun hop (beq_iff_eq.mpr hact) (if_pos howned)
  case canTransmit =>
    intro s t r c x u hrun hop hact hrefused
    refine State.next_runCmd_of_mayRun hrun hop (beq_iff_eq.mpr hact) ?_
    beta_reduce
    rw [hrefused]
  case canDisable =>
    intro s t r c u hrun hop hact htransmit howned
    exact State.next_runCmd_of_mayRun hrun hop (beq_iff_eq.mpr hact)
      (if_pos (Bool.and_eq_true_iff.mpr ⟨htransmit, howned⟩))
  case canStart =>
    intro s t r c u hrun hop hact hinit hbad
    exact State.next_runCmd_of_mayRun hrun hop (beq_iff_eq.mpr hact) ((if_pos hinit).trans (if_pos hbad))
  case canRecover =>
    intro s t r c u hrun hop hact hstate
    exact State.next_runCmd_of_mayRun hrun hop (beq_iff_eq.mpr hact) (if_pos hstate)
end Sys2Proof.Machine
end

section
/-!
PROOFS. The statements of 10_motion_profiles.md: a core's write to a configuration register of the motion engine, which is
stored in READY and flagged in every other mode (R293).
-/

namespace Sys2Proof.Machine

/-! ## Writes by access type (R5, R6) -/

section Access
variable {s : State} {off : Nat} {row : RegRow} {d : BitVec 32}

theorem State.plain_of_row (hrow : findRow off = some row) :
    s.plain off d = s.setReg off (row.merge (s.bit F.BLK_CTL_LOCK) (s.justSet off) (s.reg off) d) := by
  simp only [State.plain, hrow]

theorem State.plainBl_of_noBl (hrow : findRow off = some row) (hbl : row.bl = 0) : s.plainBl off d = s := by
  simp only [State.plainBl, hrow, hbl, beq_self_eq_true, Bool.or_true, if_true]

theorem State.touchesLock_of_noBl (hrow : findRow off = some row) (hbl : row.bl = 0) : s.touchesLock off d = false := by
  simp only [State.touchesLock, hrow, hbl, bne_self_eq_false, Bool.and_false, Bool.false_and]

theorem State.hasRw_of_row (hrow : findRow off = some row) (hrw : row.rw ≠ 0) : State.hasRw off = true := by
  simpa only [State.hasRw, hrow, Option.any_some, bne_iff_ne] using hrw

theorem State.readyOnly_ready {flag f : State → State} (hmode : s.mode = 2) : s.readyOnly off d flag f = f s :=
  if_pos hmode

/-- Outside READY an RW register without boot-locked fields is flagged and stays (R6). -/
theorem State.readyOnly_elsewhere {flag f : State → State} (hmode : s.mode ≠ 2) (hrow : findRow off = some row)
    (hrw : row.rw ≠ 0) (hbl : row.bl = 0) : s.readyOnly off d flag f = flag s := by
  rw [State.readyOnly, if_neg hmode, State.hasRw_of_row hrow hrw, State.cond_of_eq_true flag rfl,
    State.plainBl_of_noBl hrow hbl]

/-- A core's write that is released, that its PMP lets pass, and that meets a powered register without boot-locked fields,
comes to the register's block (R19, R372, R391). -/
theorem State.writeReg_core (halign : off % 4 = 0) (hpass : s.passing = true) (hblk : off / 0x10000 ≠ 4)
    (hpmp : s.pmpAllows 0 true (0x40000000 + off) = true) (hpow : s.blockPowered (off / 0x10000) = true)
    (hrow : findRow off = some row) (hbl : row.bl = 0) : s.writeReg .core off d 0xF = s.putReg off d := by
  have hinner : s.innerWrite .core off d = s.putReg off d := by
    simp [State.innerWrite, hpass, hblk, hpmp, hpow, hrow, State.touchesLock_of_noBl hrow hbl]
  exact (if_neg (not_not.mpr halign)).trans hinner

end Access

/-! ## The configuration registers of the motion engine (R293) -/

/-- The registers that R293 opens in READY only. -/
def motCfgRegs (a : Fin 2) : List Nat :=
  [R.MOT_CFG a, R.MOT_FE a, R.MOT_LIM_LO a, R.MOT_LIM_HI a, R.MOT_LIM_TOL a, R.MOT_RES a, R.MOT_RESMAX a, R.MOT_GEN_VMAX a]

/-- The index holds each of them with RW fields and without boot-locked ones. -/
theorem findRow_motCfg {a : Fin 2} {off : Nat} (h : off ∈ motCfgRegs a) :
    ∃ row, findRow off = some row ∧ row.rw ≠ 0 ∧ row.bl = 0 := by
  have hall : ∀ a : Fin 2, ∀ o ∈ motCfgRegs a, (findRow o).any (fun r => r.rw != 0 && r.bl == 0) = true := by decide
  obtain ⟨row, hrow, hfields⟩ := (Option.any_eq_true _ _).mp (hall a off h)
  obtain ⟨hrw, hbl⟩ := Bool.and_eq_true_iff.mp hfields
  exact ⟨row, hrow, bne_iff_ne.mp hrw, beq_iff_eq.mp hbl⟩

/-- They are words of block MOT. -/
theorem motCfg_block : ∀ a : Fin 2, ∀ off ∈ motCfgRegs a, off / 0x10000 = 11 ∧ off % 4 = 0 := by decide

theorem motCfg_ne_stat : ∀ a : Fin 2, ∀ off ∈ motCfgRegs a, off ≠ R.MOT_STAT a := by decide

/-- They lie below the handover registers, in the part of their axis, at the places that READY alone opens. -/
theorem motCfg_part : ∀ a : Fin 2, ∀ off ∈ motCfgRegs a,
    off < 0xB0800 ∧ State.idx2 off 0x100 = a ∧ off % 0x100 ≠ 0x38 ∧
      (off % 0x100 = 0 ∨ off % 0x100 = 4 ∨ (0x40 ≤ off % 0x100 ∧ off % 0x100 ≤ 0x54)) := by decide

theorem State.wrMot_motCfg {a : Fin 2} {off : Nat} {s : State} {d : BitVec 32} (h : off ∈ motCfgRegs a) :
    s.wrMot off d = s.readyOnly off d (fun s => s.hi (F.MOT_STAT_WR_IGN a)) fun s => (s.plain off d).limCfg a := by
  obtain ⟨hlow, haxis, hctl, hrel⟩ := motCfg_part a off h
  have hhov : ¬(off = R.MOT_HOV_POL ∨ off = R.MOT_HOV_IDLE) := by
    rw [show R.MOT_HOV_POL = 0xB0900 from rfl, show R.MOT_HOV_IDLE = 0xB0904 from rfl]
    omega
  rw [State.wrMot, if_neg hhov, if_neg (Nat.not_le.mpr hlow), if_neg hctl, if_pos hrel, haxis]

/-- Where a core's released write to one of them ends. -/
theorem exec_registerWrite_motCfg {a : Fin 2} {s : State} {t : Nat} {off : BitVec 21} (d : BitVec 32)
    (h : off.toNat ∈ motCfgRegs a) (hctl : (s.upTo t).ctlOn = true) (hpass : (s.upTo t).passing = true)
    (hpmp : (s.upTo t).pmpAllows 0 true (0x40000000 + off.toNat) = true) :
    exec (.registerWrite t .core false off d 0xF) s = .next ((s.upTo t).readyOnly off.toNat d
      (fun s => s.hi (F.MOT_STAT_WR_IGN a)) fun s => (s.plain off.toNat d).limCfg a) := by
  obtain ⟨hblk, halign⟩ := motCfg_block a _ h
  obtain ⟨row, hrow, -, hbl⟩ := findRow_motCfg h
  have hpow : (s.upTo t).blockPowered (off.toNat / 0x10000) = true := by rw [hblk]; exact hctl
  have hput : (s.upTo t).putReg off.toNat d = (s.upTo t).wrMot off.toNat d := by simp only [State.putReg, hblk]
  rw [exec_registerWrite_bar0, State.writeReg_core halign hpass (by rw [hblk]; decide) hpmp hpow hrow hbl, hput,
    State.wrMot_motCfg h]

/-! ## The judgement of the virtual limits (R291) -/

section Limits
variable (s : State) (a : Nat)

theorem State.limCfg_reg_other {o : Nat} (h : o ≠ R.MOT_STAT a) : (s.limCfg a).reg o = s.reg o := by
  unfold State.limCfg State.cond
  split
  · exact (State.reg_wr s (F.MOT_STAT_CFG_BAD a) 1 o).trans (if_neg h.symm)
  · rfl

theorem State.limCfg_reg_stat : (s.limCfg a).reg (R.MOT_STAT a) =
    if s.bit (F.MOT_CFG_LIM_EN a) = true ∧ s.limitsAct a = false then
      (F.MOT_STAT_CFG_BAD a).put (s.reg (R.MOT_STAT a)) 1 else s.reg (R.MOT_STAT a) := by
  simp only [State.limCfg, State.cond, Bool.and_eq_true, Bool.not_eq_true']
  split
  · exact (State.reg_wr s (F.MOT_STAT_CFG_BAD a) 1 (R.MOT_STAT a)).trans (if_pos rfl)
  · rfl

theorem State.limCfg_frame : s.limCfg a = { s with regs := (s.limCfg a).regs, sets := (s.limCfg a).sets } := by
  unfold State.limCfg State.cond
  split <;> rfl

theorem State.limCfg_rd {f : Fld} (h : f.off ≠ R.MOT_STAT a) : (s.limCfg a).rd f = s.rd f := by
  rw [State.rd, State.limCfg_reg_other s a h, State.rd]

theorem State.limCfg_bit_limEn : (s.limCfg a).bit (F.MOT_CFG_LIM_EN a) = s.bit (F.MOT_CFG_LIM_EN a) := by
  have hcfg : R.MOT_CFG a ≠ R.MOT_STAT a := by unfold R.MOT_CFG R.MOT_STAT; omega
  rw [State.bit, State.limCfg_rd s a (f := F.MOT_CFG_LIM_EN a) hcfg, State.bit]

theorem State.limCfg_limitsAct : (s.limCfg a).limitsAct a = s.limitsAct a := by
  have hhi : R.MOT_LIM_HI a ≠ R.MOT_STAT a := by unfold R.MOT_LIM_HI R.MOT_STAT; omega
  have hlo : R.MOT_LIM_LO a ≠ R.MOT_STAT a := by unfold R.MOT_LIM_LO R.MOT_STAT; omega
  rw [State.limitsAct, State.limCfg_bit_limEn, State.limCfg_rd s a (f := F.MOT_LIM_HI_LIM_HI a) hhi,
    State.limCfg_rd s a (f := F.MOT_LIM_LO_LIM_LO a) hlo, State.limitsAct]

end Limits

/-- Settles O55: in READY the register takes the data and the limits are judged after it; in any other mode the write ends in
its flag. -/
theorem motionWritesAreAcceptedInReadyOnly : Obligations.MotionWritesAreAcceptedInReadyOnly := by
  intro s t a off data u hoff hctl hpass hpmp
  rw [exec_registerWrite_motCfg data hoff hctl hpass hpmp]
  obtain ⟨row, hrow, hrw, hbl⟩ := findRow_motCfg hoff
  have hstat := motCfg_ne_stat a _ hoff
  refine ⟨fun hmode => congrArg _ (State.readyOnly_elsewhere hmode hrow hrw hbl), fun hmode => ?_⟩
  refine ⟨_, row, hrow, congrArg _ (State.readyOnly_ready hmode), ?_, ?_, ?_, ?_⟩
  · rw [State.limCfg_reg_other _ _ hstat, State.plain_of_row hrow, State.reg_setReg, if_pos rfl]
  · intro o hne ho
    rw [State.limCfg_reg_other _ _ ho, State.plain_of_row hrow, State.reg_setReg, if_neg hne.symm]
  · rw [State.limCfg_bit_limEn, State.limCfg_limitsAct, State.limCfg_reg_stat]
    have hkept : (u.plain off.toNat data).reg (R.MOT_STAT a) = u.reg (R.MOT_STAT a) := by
      rw [State.plain_of_row hrow, State.reg_setReg, if_neg hstat]
    rw [hkept]
  · rw [State.plain_of_row hrow]
    exact State.limCfg_frame _ _

end Sys2Proof.Machine
end

section
/-!
PROOFS. The statements of 15_host_rings.md, 16_journal_and_recovery.md and 22_register_index.md about reads and writes of the
host windows: what a read returns, freezes and snapshots, and which host writes act.
-/

namespace Sys2Proof.Machine

/-! ## Reads of nothing (R565) -/

/-- Above the blocks, and in a block without power, a read returns 0 and leaves the module (R565). -/
theorem State.readReg_unreachable {s : State} {who off : Nat} {e : Ecc}
    (h : 0x120000 ≤ off ∨ s.blockPowered (off / 0x10000) = false) : s.readReg who off e = (0#32, s) := by
  have hblk : off / 4 * 4 / 0x10000 = off / 0x10000 := by omega
  refine if_pos ?_
  rw [hblk]
  rcases h with h | h
  · simp [show 0x120000 ≤ off / 4 * 4 by omega]
  · simp [h]

theorem findRow_fslMemData : findRow R.FSL_MEM_DATA ≠ none := by decide

/-- An offset that names no register, in neither of the two memories of BAR0, reads as 0 (R565). -/
theorem State.readReg_unnamed {s : State} {who off : Nat} {e : Ecc} (hrow : findRow (off / 4 * 4) = none)
    (hap : ¬(0x48000 ≤ off ∧ off < 0x50000)) (hrxq : ¬(0xD1000 ≤ off ∧ off < 0xD3000)) :
    s.readReg who off e = (0#32, s) := by
  have hap' : ¬(0x48000 ≤ off / 4 * 4 ∧ off / 4 * 4 < 0x50000) := by omega
  have hrxq' : ¬(0xD1000 ≤ off / 4 * 4 ∧ off / 4 * 4 < 0xD3000) := by omega
  have hmem : off / 4 * 4 ≠ R.FSL_MEM_DATA := fun h => findRow_fslMemData (h ▸ hrow)
  have hnone : (findRow (off / 4 * 4)).isNone = true := by rw [hrow]; rfl
  simp only [State.readReg, if_neg hap', if_neg hrxq', if_neg hmem, if_pos hnone, ite_self]

/-- A read that returns 0 and leaves the module leaves it as its output. -/
theorem State.readOut_of_zero {s : State} {who off : Nat} {e : Ecc} (h : s.readReg who off e = (0#32, s)) :
    s.readOut who off e = s.emit (.read off 0#32) := by
  simp only [State.readOut, h]

/-- Settles O52, by the reason for which there is nothing to read. -/
theorem readsOfNothingReturnZero : Obligations.ReadsOfNothingReturnZero := by
  intro s t who off u h
  rw [exec_splitLoRead_bar0]
  refine congrArg Host.Outcome.next (State.readOut_of_zero ?_)
  rcases h with h | h | ⟨hrow, hap, hrxq⟩
  · exact State.readReg_unreachable (.inl h)
  · exact State.readReg_unreachable (.inr h)
  · exact State.readReg_unnamed hrow hap hrxq

/-! ## Reads of plain registers, and their freezes (R447, R570) -/

/-- The offset names a register that a read takes as it stands, with its freezes: no memory of BAR0, no window, and not
SYS_MODE. -/
def plainWord (off : Nat) : Prop :=
  off < 0x120000 ∧ off % 4 = 0 ∧ ¬(0x48000 ≤ off ∧ off < 0x50000) ∧ ¬(0xD1000 ≤ off ∧ off < 0xD3000) ∧
    off ≠ R.FSL_MEM_DATA ∧ off ≠ R.SYS_MODE ∧ (findRow off).isNone = false

theorem plainWord_of_freezes {lo hi : Nat} (h : hi ∈ State.freezes lo) : plainWord lo ∧ plainWord hi := by
  obtain ⟨hlo, hhi, alo, ahi, plo, phi, qlo, qhi, mlo, mhi, slo, shi, rlo, rhi⟩ := State.freezes_plain lo hi h
  exact ⟨⟨hlo, alo, plo, qlo, mlo, slo, rlo⟩, hhi, ahi, phi, qhi, mhi, shi, rhi⟩

/-- A plain register is read outside BOOT, and by the cores and a debugger during it (R387). -/
theorem State.readReg_plainWord {s : State} {who off : Nat} {e : Ecc} (hoff : plainWord off)
    (hpow : s.blockPowered (off / 0x10000) = true) (hboot : s.rd F.SYS_MODE_PHASE = 1 → who = 1 ∨ who = 0x4002)
    (hgr : s.granted who (off / 0x10000)) : s.readReg who off e = s.frozenRead who off := by
  obtain ⟨hlt, halign, hap, hrxq, hmem, hsys, hrow⟩ := hoff
  obtain ⟨hd3, hdbg⟩ := hgr
  have hword : off / 4 * 4 = off := by omega
  have hfree : (s.rd F.SYS_MODE_PHASE == 1 && who != 1 && who != 0x4002) = false := by
    by_cases hphase : s.rd F.SYS_MODE_PHASE = 1
    · rcases hboot hphase with rfl | rfl
      · simp
      · simp
    · simp [hphase]
  have hopen : ¬(decide (0x120000 ≤ off) || (who == 0 && s.hif.pcie.d3hot) || !s.blockPowered (off / 0x10000) ||
      !s.dbgReads who (off / 0x10000)) = true := by
    rw [hd3, hpow, hdbg, decide_eq_false (not_le.mpr hlt)]
    exact Bool.false_ne_true
  have hnamed : ¬(findRow off).isNone = true := ne_true_of_eq_false hrow
  simp only [State.readReg, hword, hfree, beq_eq_false_iff_ne.mpr hsys, Bool.false_and, Bool.false_eq_true, if_false,
    if_neg hopen, if_neg hap, if_neg hrxq, if_neg hmem, if_neg hnamed]

/-- `s` once the initiator's freeze of a word has ended (R570); `State.frozenRead_of_frozen` is the read that ends it. -/
def State.endFreeze (s : State) (who off : Nat) : State :=
  s.modHif fun h => { h with frz := h.frz.filter fun g => !(g.1 == who && g.2.1 == off) }

theorem State.endFreeze_ends {s : State} {who off : Nat} :
    ∀ f ∈ (s.endFreeze who off).hif.frz, ¬(f.1 = who ∧ f.2.1 = off) := by
  rintro f hf ⟨hwho, hoff⟩
  simp [State.endFreeze, State.modHif, hwho, hoff] at hf

/-- What is frozen is returned, and its freeze ends. -/
theorem State.frozenRead_of_frozen {s : State} {who off : Nat} {f : Nat × Nat × BitVec 32}
    (h : s.hif.frz.find? (fun f => f.1 == who && f.2.1 == off) = some f) :
    s.frozenRead who off = (f.2.2, s.endFreeze who off) := by
  simp only [State.frozenRead, h, State.endFreeze]

/-- No freeze of the initiator is of this word. -/
theorem find_frz_eq_none {l : List (Nat × Nat × BitVec 32)} {who off : Nat}
    (h : ∀ f ∈ l, f.1 = who → f.2.1 ≠ off) : l.find? (fun f => f.1 == who && f.2.1 == off) = none := by
  refine List.find?_eq_none.mpr fun f hf hmatch => ?_
  obtain ⟨hwho, hoff⟩ := Bool.and_eq_true_iff.mp hmatch
  exact h f hf (beq_iff_eq.mp hwho) (beq_iff_eq.mp hoff)

/-- The freezes of the read of a LO word, in place of the initiator's earlier ones (R570). -/
def State.frozenBy (s : State) (who off : Nat) : List (Nat × Nat × BitVec 32) :=
  s.hif.frz.filter (fun g => g.1 != who) ++ (State.freezes off).map fun o => (who, o, s.liveWord o)

theorem State.frozenRead_of_lo {s : State} {who off : Nat} (hnone : ∀ f ∈ s.hif.frz, f.1 = who → f.2.1 ≠ off)
    (hlo : State.freezes off ≠ []) :
    s.frozenRead who off = (s.liveWord off, s.modHif fun h => { h with frz := s.frozenBy who off }) := by
  have hsome : ¬(State.freezes off).isEmpty = true := fun h => hlo (List.isEmpty_iff.mp h)
  simp only [State.frozenRead, find_frz_eq_none hnone, if_neg hsome]
  rfl

/-- Of the freezes that the read of a LO word leaves, a HI word's is the word as it stood. -/
theorem State.find_frozenBy {s : State} {who lo hi : Nat} (h : hi ∈ State.freezes lo) :
    (s.frozenBy who lo).find? (fun f => f.1 == who && f.2.1 == hi) = some (who, hi, s.liveWord hi) := by
  have hold : (s.hif.frz.filter fun g => g.1 != who).find? (fun f => f.1 == who && f.2.1 == hi) = none :=
    find_frz_eq_none fun f hf hwho => absurd hwho (bne_iff_ne.mp (List.mem_filter.mp hf).2)
  have hnew : ∀ l : List Nat, hi ∈ l → (l.map fun o => (who, o, s.liveWord o)).find?
      (fun f => f.1 == who && f.2.1 == hi) = some (who, hi, s.liveWord hi) := by
    intro l hl
    induction l with
    | nil => cases hl
    | cons o l ih =>
      by_cases ho : o = hi
      · simp [ho]
      · simpa [ho] using ih (List.mem_of_ne_of_mem (Ne.symm ho) hl)
  rw [State.frozenBy, List.find?_append, hold, Option.none_or]
  exact hnew _ h

/-- Settles O50: the read of the LO word takes the freezes, and the read of the HI word finds its own among them. -/
theorem loReadFreezesItsHi : Obligations.LoReadFreezesItsHi := by
  intro s v t t' who lo hi u _ hmem hpow hphase hgr hnone
  obtain ⟨hlo, hhi⟩ := plainWord_of_freezes hmem
  have hread : u.readReg who.code lo.toNat = (u.liveWord lo.toNat,
      u.modHif fun h => { h with frz := u.frozenBy who.code lo.toNat }) :=
    (State.readReg_plainWord hlo hpow (absurd · hphase) hgr).trans
      (State.frozenRead_of_lo hnone (List.ne_nil_of_mem hmem))
  refine ⟨_, exec_splitLoRead_bar0 s t who lo .ok, ?_⟩
  intro hfrz hpow' hphase' hgr'
  have hkept : (v.upTo t').hif.frz = u.frozenBy who.code lo.toNat := by
    rw [hfrz, State.readOut, hread]
    rfl
  have hfind : (v.upTo t').hif.frz.find? (fun f => f.1 == who.code && f.2.1 == hi.toNat) =
      some (who.code, hi.toNat, u.liveWord hi.toNat) := by
    rw [hkept]
    exact State.find_frozenBy hmem
  refine ⟨(v.upTo t').endFreeze who.code hi.toNat, ?_, rfl, State.endFreeze_ends⟩
  rw [exec_splitLoRead_bar0, State.readOut,
    State.readReg_plainWord hhi hpow' (absurd · hphase') hgr', State.frozenRead_of_frozen hfind]

/-! ## The heads of the journal (R447) -/

theorem Reader.code_inner {who : Reader} : who.code = 1 ∨ who.code = 0x4002 ↔ who = .core ∨ who = .debugger := by
  cases who with
  | host => decide
  | core => decide
  | debugger => decide
  | chainHost src =>
    have hsrc := src.isLt
    have hcode : (Reader.chainHost src).code = 2 + src.toNat := rfl
    simp only [hcode, reduceCtorEq, or_self, iff_false]
    omega

/-- In BOOT a read by anyone but the cores and a debugger returns 0, SYS_MODE, SEC_BOOT_STAT and BLK_CTL apart (R387). -/
theorem State.readReg_booting {s : State} {who off : Nat} {e : Ecc} (halign : off % 4 = 0)
    (hphase : s.rd F.SYS_MODE_PHASE = 1) (hcore : who ≠ 1) (hdbg : who ≠ 0x4002) (hsys : off ≠ R.SYS_MODE)
    (hstat : off ≠ R.SEC_BOOT_STAT) (hctl : off ≠ R.BLK_CTL) : s.readReg who off e = (0#32, s) := by
  have hword : off / 4 * 4 = off := by omega
  simp [State.readReg, hword, hphase, hcore, hdbg, hsys, hstat, hctl]

/-- An access that is not granted returns 0 (R400, R407). -/
theorem State.readReg_notGranted {s : State} {who off : Nat} {e : Ecc} (h : ¬s.granted who (off / 0x10000)) :
    s.readReg who off e = (0#32, s) := by
  have hblk : off / 4 * 4 / 0x10000 = off / 0x10000 := by omega
  refine if_pos ?_
  rw [hblk]
  cases hd3 : (who == 0 && s.hif.pcie.d3hot) with
  | true => simp
  | false =>
    have hdbg : s.dbgReads who (off / 0x10000) = false := Bool.eq_false_iff.mpr fun hd => h ⟨hd3, hd⟩
    simp [hdbg]

/-- The journal's registers stand still: none of them is computed at its read. -/
theorem State.liveWord_of_journal {s : State} {off : Nat} (h : off / 0x10000 = 4) : s.liveWord off = s.reg off := by
  have hne : ∀ {r : Nat}, r / 0x10000 ≠ 4 → off ≠ r := fun hr he => hr (he ▸ h)
  have hgates : ∀ n ∈ List.range 12, R.GDC_STAT n / 0x10000 ≠ 4 := by decide
  have hgate : ((List.range 12).find? fun n => off = R.GDC_STAT n) = none :=
    List.find?_eq_none.mpr fun n hn => by simpa using hne (hgates n hn)
  have hpos : ∀ {r p q : Nat}, r / 0x10000 ≠ 4 → p / 0x10000 ≠ 4 → q / 0x10000 ≠ 4 → ¬(off = r ∨ off = p ∨ off = q) :=
    fun hr hp hq => not_or.mpr ⟨hne hr, not_or.mpr ⟨hne hp, hne hq⟩⟩
  unfold State.liveWord
  rw [if_neg (hne (by decide)), if_neg (hne (by decide)), if_neg (not_and_of_not_left _ (hne (by decide))),
    if_neg (hne (by decide)), if_neg (hpos (by decide) (by decide) (by decide)),
    if_neg (hpos (by decide) (by decide) (by decide)), if_neg (hne (by decide)), if_neg (hne (by decide)),
    if_neg (not_or.mpr ⟨hne (by decide), hne (by decide)⟩), if_neg (hne (by decide)), if_neg (hne (by decide)),
    if_neg (hne (by decide)), hgate]

theorem plainWord_jrnHead : plainWord R.JRN_HEAD_SEQ_LO :=
  (plainWord_of_freezes (lo := R.JRN_HEAD_SEQ_LO) (hi := R.JRN_HEAD_SEQ_HI) (by decide)).1

/-- The words that the read of the head freezes lie in the journal's block. -/
theorem freezes_jrnHead_block : ∀ o ∈ State.freezes R.JRN_HEAD_SEQ_LO, o / 0x10000 = 4 := by decide

/-- Each of them is frozen as it stands in the registers. -/
theorem State.frozenBy_jrnHead {s : State} {who : Nat} :
    s.frozenBy who R.JRN_HEAD_SEQ_LO = s.hif.frz.filter (fun f => f.1 != who) ++
      ([R.JRN_HEAD_SEQ_HI, R.JRN_MIRROR_SEQ_LO, R.JRN_MIRROR_SEQ_HI, R.JRN_TAIL_SEQ_LO, R.JRN_TAIL_SEQ_HI] ++
        [0, 1, 2, 3].map R.JRN_HEAD_HSEQ_LO ++ [0, 1, 2, 3].map R.JRN_HEAD_HSEQ_HI).map fun o => (who, o, s.reg o) := by
  refine congrArg _ (List.map_congr_left fun o ho => ?_)
  rw [State.liveWord_of_journal (freezes_jrnHead_block o ho)]

/-- Settles O58, by what bars the read and by whether an earlier read froze the word. -/
theorem journalHeadReadCompletes : Obligations.JournalHeadReadCompletes := by
  intro s t who u
  have hread : ∀ {e : Ecc}, u.cpuOn = true → (u.rd F.SYS_MODE_PHASE = 1 → who = .core ∨ who = .debugger) →
      u.granted who.code 4 → u.readReg who.code R.JRN_HEAD_SEQ_LO e = u.frozenRead who.code R.JRN_HEAD_SEQ_LO :=
    fun hcpu hboot hgr => State.readReg_plainWord plainWord_jrnHead hcpu (fun h => Reader.code_inner.mpr (hboot h)) hgr
  refine ⟨fun h => ?_, fun hcpu hboot hgr hnone => ?_, fun f hcpu hboot hgr hfind => ?_⟩
  · refine congrArg Host.Outcome.next (State.readOut_of_zero ?_)
    rcases h with hcpu | ⟨hphase, hcore, hdbg⟩ | hgr
    · exact State.readReg_unreachable (.inr hcpu)
    · have hinner : ¬(who.code = 1 ∨ who.code = 0x4002) := Reader.code_inner.not.mpr (not_or.mpr ⟨hcore, hdbg⟩)
      obtain ⟨hcore', hdbg'⟩ := not_or.mp hinner
      exact State.readReg_booting (by decide) hphase hcore' hdbg' (by decide) (by decide) (by decide)
    · exact State.readReg_notGranted hgr
  · rw [exec_journalHeadRead, State.readOut, hread hcpu hboot hgr,
      State.frozenRead_of_lo hnone (by decide), State.frozenBy_jrnHead, State.liveWord_of_journal (by decide)]
    rfl
  · refine ⟨u.endFreeze who.code R.JRN_HEAD_SEQ_LO, ?_, rfl, State.endFreeze_ends⟩
    rw [exec_journalHeadRead, State.readOut, hread hcpu hboot hgr, State.frozenRead_of_frozen hfind]

/-! ## The aperture of the journal (R446) -/

/-- Where a read of a word of a slot ends: in the aperture, outside BOOT (R446). -/
theorem State.readReg_aperture {s : State} {who slot k : Nat} (hslot : slot < 1024) (hk : k < 8) (hcpu : s.cpuOn = true)
    (hphase : s.rd F.SYS_MODE_PHASE ≠ 1) (hgr : s.granted who 4) :
    s.readReg who (0x48000 + 32 * slot + 4 * k) = s.apertureRead who slot k := by
  have hblk : (0x48000 + 32 * slot + 4 * k) / 0x10000 = 4 := by omega
  have hsys : 0x48000 + 32 * slot + 4 * k ≠ R.SYS_MODE := fun h => absurd (h ▸ hblk) (by decide)
  have hslot' : (0x48000 + 32 * slot + 4 * k - 0x48000) / 32 = slot := by omega
  have hk' : (0x48000 + 32 * slot + 4 * k) % 32 / 4 = k := by omega
  rw [State.readReg_plain s who _ (by omega) (by omega) (by rw [hblk]; exact hcpu) hphase hsys (by rw [hblk]; exact hgr),
    if_pos (by omega), hslot', hk']

/-- The read of word 0 takes the snapshot, in place of the initiator's earlier one (R446). -/
theorem State.apertureRead_zero {s : State} {who slot : Nat} : (s.apertureRead who slot 0).2 = s.modHif fun h =>
    { h with snaps := h.snaps.filter (fun g => g.1 != who) ++ [(who, slot, s.apertureWords slot)] } := rfl

/-- A further word comes from the snapshot of its slot (R446). -/
theorem State.apertureRead_of_snapshot {s : State} {who slot k : Nat} {g : Nat × Nat × List (BitVec 32)} (hk : k ≠ 0)
    (h : s.hif.snaps.find? (fun g => g.1 == who && g.2.1 == slot) = some g) :
    s.apertureRead who slot k = (g.2.2.getD k 0#32, s) := by
  simp only [State.apertureRead, if_neg hk, h]

/-- The snapshot just taken is the one that is found. -/
theorem find_snapshot {l : List (Nat × Nat × List (BitVec 32))} {who slot : Nat} {ws : List (BitVec 32)} :
    (l.filter (fun g => g.1 != who) ++ [(who, slot, ws)]).find? (fun g => g.1 == who && g.2.1 == slot) =
      some (who, slot, ws) := by
  have hold : (l.filter fun g => g.1 != who).find? (fun g => g.1 == who && g.2.1 == slot) = none := by
    refine List.find?_eq_none.mpr fun g hg hmatch => ?_
    exact bne_iff_ne.mp (List.mem_filter.mp hg).2 (beq_iff_eq.mp (Bool.and_eq_true_iff.mp hmatch).1)
  rw [List.find?_append, hold, Option.none_or, List.find?_singleton]
  simp

/-- Settles O51: the read of word 0 takes the snapshot, and the read of a further word finds it. -/
theorem apertureWordsComeFromTheSnapshot : Obligations.ApertureWordsComeFromTheSnapshot := by
  intro s v t t' who slot k u hslot hpos hk hcpu hphase hgr
  refine ⟨_, exec_journalApertureRead s t who hslot, fun hsnaps hcpu' hphase' hgr' => ?_⟩
  have hkept : (v.upTo t').hif.snaps =
      u.hif.snaps.filter (fun g => g.1 != who.code) ++ [(who.code, slot, u.apertureWords slot)] := by
    have hread : u.readReg who.code (0x48000 + 32 * slot) = u.apertureRead who.code slot 0 := by
      simpa only [mul_zero, add_zero] using State.readReg_aperture (k := 0) hslot (by omega) hcpu hphase hgr
    rw [hsnaps, State.readOut, hread, State.apertureRead_zero]
    rfl
  have hfind : (v.upTo t').hif.snaps.find? (fun g => g.1 == who.code && g.2.1 == slot) =
      some (who.code, slot, u.apertureWords slot) := by
    rw [hkept]
    exact find_snapshot
  have hoff : (BitVec.ofNat 21 (0x48000 + 32 * slot + 4 * k)).toNat = 0x48000 + 32 * slot + 4 * k := by
    rw [BitVec.toNat_ofNat]
    omega
  rw [exec_splitLoRead_bar0, hoff, State.readOut, State.readReg_aperture hslot hk hcpu' hphase' hgr',
    State.apertureRead_of_snapshot hpos.ne' hfind]

/-! ## Writes by a host (R408, R409) -/

/-- Settles O49: the window is open to the host, and the write changes the enabled bytes of the word. -/
theorem hostWindowWriteTouchesItsWord : Obligations.HostWindowWriteTouchesItsWord := by
  intro s t off data be u hcpu hcomm hoff
  have hopen : (u.cpuOn && (u.commOn && (decide (off.toNat < 0x80000) || u.awaiting)) &&
      decide (off.toNat < 0x100000)) = true := by
    have hmem : off.toNat < 0x100000 := by omega
    simp [hcpu, hcomm, hoff, hmem]
  have hwrite : u.writeSram .host off.toNat data be = { u with sram := memPutBe u.sram (off.toNat / 4 * 4) data be } :=
    if_pos hopen
  refine ⟨_, exec_registerWrite_bar2 s t .host off data be, ?_, ?_⟩
  · rw [hwrite]
  · rw [hwrite]
    exact fun a => memGet_memPutBe u.sram (off.toNat / 4 * 4) a data be

/-- With the lock open no write meets a locked field (R391). -/
theorem State.touchesLock_unlocked {s : State} {off : Nat} {d : BitVec 32} (h : s.bit F.BLK_CTL_LOCK = false) :
    s.touchesLock off d = false := by
  unfold State.touchesLock
  split
  · rw [h]
    rfl
  · rfl

/-- An unnamed offset, and any place where host writes do not act, is flagged (R408). -/
theorem State.hostWrite_ignored {s : State} {off : Nat} {d : BitVec 32} {full : Bool} (hcomm : s.commOn = true)
    (hd3 : s.hif.pcie.d3hot = false) (hphase : s.rd F.SYS_MODE_PHASE ≠ 1) (hlock : s.bit F.BLK_CTL_LOCK = false)
    (hrec : off ≠ R.SEC_RECOVERY) (hout : State.hostPlace off = false ∨ findRow off = none) :
    s.hostWrite .host off d full = s.hi F.HIF_STAT_WR_IGN := by
  have hon : ¬(!s.commOn || (Writer.host == .host && s.hif.pcie.d3hot)) = true := by simp [hcomm, hd3]
  have hrun : ¬(s.rd F.SYS_MODE_PHASE == 1) = true := by simpa using hphase
  refine (if_neg hon).trans ((if_neg hrun).trans ?_)
  cases hplace : State.hostPlace off with
  | true =>
    have hrow : findRow off = none := hout.resolve_left (by simp [hplace])
    rw [if_pos (by simp [hrec]), hrow]
    rfl
  | false =>
    rw [Bool.false_and, State.touchesLock_unlocked hlock, Bool.and_false]
    rfl

/-- Settles O53: outside the places of R408, or at an offset without a register, the write is flagged. -/
theorem hostWritesElsewhereAreIgnored : Obligations.HostWritesElsewhereAreIgnored := by
  intro s t off data be u halign hcomm hphase hlock hd3 hplace hcpx hrec
  rw [exec_registerWrite_bar0]
  refine congrArg Host.Outcome.next ((if_neg (not_not.mpr halign)).trans
    (State.hostWrite_ignored hcomm hd3 hphase hlock hrec ?_))
  have hother : State.hostPlace off.toNat =
      (off.toNat / 0x10000 == 3 && !(decide (0x30400 ≤ off.toNat) && decide (off.toNat < 0x30480))) := by
    rw [State.hostPlace, beq_eq_false_iff_ne.mpr hcpx, beq_eq_false_iff_ne.mpr hrec, Bool.or_false, Bool.or_false]
  rcases hplace with hblk | ⟨hlo, hhi⟩ | hrow
  · exact .inl (by simp [hother, hblk])
  · exact .inl (by simp [hother, hlo, hhi])
  · exact .inr hrow

end Sys2Proof.Machine
end

section
/-!
PROOFS. The statements of 11_segment_handover.md: what a giver sends, what a taker prepares, and what each frame of a
handover does to the unit that hears it.
-/

namespace Sys2Proof.Machine

/-! ## PREARM (R300, R301, R313) -/

/-- `s` once a frame of a handover has started its idle time afresh (R313). -/
def State.hovWoken (s : State) : State := { s with hovIdle := s.hovIdle.map fun _ => s.now }

section Frames
variable {s : State} {a : Nat}

/-- A unit that can take, and has no handover in progress, becomes the taker (R301). -/
theorem State.recvPrearm_free {up dirUp : Bool} (hseg : s.segment a = true) (hport : s.neighbour a up = 1)
    (hhold : s.axMode a ≠ 5) (hstopped : s.running a = false) (hdir : up ≠ dirUp) (hfree : s.handingOver a = false) :
    s.recvPrearm a up dirUp true =
      (((s.hovWoken.wr (F.MOT_HOV_STAT_STATE a) 1).wr (F.MOT_HOV_STAT_ROLE a) 2).wrB (F.MOT_HOV_STAT_DIR a)
        dirUp).modHov a fun _ => {} := by
  have hseg' : s.hovWoken.segment a = true := hseg
  have hport' : s.hovWoken.neighbour a up = 1 := hport
  have hhold' : s.hovWoken.axMode a ≠ 5 := hhold
  have hstopped' : s.hovWoken.running a = false := hstopped
  have hfree' : s.hovWoken.handingOver a = false := hfree
  unfold State.recvPrearm
  rw [← State.hovWoken]
  simp only [hseg', hport', hhold', hstopped', hfree', beq_eq_false_iff_ne.mpr hdir, if_true, if_false,
    bne_self_eq_false, Bool.not_true, Bool.or_self, Bool.false_and, Bool.false_eq_true]

/-- A unit that is no segment, or has no neighbour at the port, answers ABORT with reason 8 (R301). -/
theorem State.recvPrearm_noNeighbour {up dirUp : Bool} (h : s.segment a = false ∨ s.neighbour a up ≠ 1) :
    s.recvPrearm a up dirUp true = s.hovWoken.portAbort a up 8 := by
  have hbarred : (!s.hovWoken.segment a || s.hovWoken.neighbour a up != 1) = true := by
    show (!s.segment a || s.neighbour a up != 1) = true
    rcases h with h | h
    · simp [h]
    · simp [h]
  unfold State.recvPrearm
  rw [← State.hovWoken]
  simp only [if_true, hbarred]

/-! ## READY, STATE and ECHO (R302, R304, R309, R310) -/

/-- READY in time and awaited goes by the line signature (R302). -/
theorem State.recvReady_awaited {sig : Word} (hseg : s.segment a = true) (htaker : s.hovTaker a = false)
    (hgiver : s.hovGiver a = true) (hruns : s.running a = true) (hstate : s.hovState a = 1)
    (hearly : State.hovReached (s.hovDirUp a) (s.snapMt a) (s.overlapEdges a (s.hovDirUp a) (s.hovDirUp a)).1 = false) :
    s.recvReady a sig =
      if sig = Config.lineSignature (s.lineWords a) then
        ((s.wr (F.MOT_HOV_STAT_STATE a) 3).modHov a fun h => { h with solo := false, echoBad := 0 }).event 0x0B12 a
      else ((s.sendAbort a (s.hovDirUp a) 2).hovAborted a).modHov a fun h => { h with solo := true } := by
  simp only [State.recvReady, hseg, htaker, hgiver, hruns, hstate, hearly, State.cond, Bool.not_true, Bool.or_self,
    Bool.false_and, Bool.false_eq_true, beq_self_eq_true, Bool.true_or, if_false, ite_not]

/-- A unit that gives nothing, or has stopped, answers READY with ABORT (R302). -/
theorem State.recvReady_noGiver {sig : Word} (hseg : s.segment a = true) (htaker : s.hovTaker a = false)
    (hidle : s.hovGiver a = false ∨ s.running a = false) : s.recvReady a sig = s.sendAbort a (s.hovDirUp a) 1 := by
  have hown : ¬(!s.segment a || s.hovTaker a) = true := by simp [hseg, htaker]
  refine (if_neg hown).trans (if_pos ?_)
  rcases hidle with h | h
  · simp [h]
  · simp [h]

/-- A taker that waits for STATE, or holds the vehicle, takes a speed inside the range (R304). -/
theorem State.recvState_inRange {up : Bool} {mt : Word} {spd cur : BitVec 16} {tFirst : Nat}
    (hseg : s.segment a = true) (htaker : s.hovTaker a = true) (hside : up = s.hovSideUp a)
    (hstate : s.hovState a = 2 ∨ s.hovState a = 4) (hlow : -32767 < signed 16 spd.toNat)
    (hhigh : signed 16 spd.toNat < 32767) :
    s.recvState a up mt spd cur tFirst =
      (s.modHov a fun h => { h with
        rx := some ⟨(mt.toNat + s.hovOfs a up) % 2 ^ 32, signed 16 spd.toNat * 1024, signed 16 cur.toNat,
          s.capturedAt a up tFirst, up⟩
        rxAt := s.now, lost := 0 }).capture (.offer a (signed 16 cur.toNat)) := by
  have hawaits : (s.hovState a == 2 || s.hovState a == 4) = true := by simpa using hstate
  have hside' : (up != s.hovSideUp a) = false := by simpa using hside
  have hrange : ¬(signed 16 spd.toNat = 32767 ∨ signed 16 spd.toNat ≤ -32767) := by omega
  refine (if_neg ?_).trans (if_neg hrange)
  rw [hseg, htaker, hside', hawaits]
  exact Bool.false_ne_true

/-- An ECHO of the stream is compared with the own position; the third far one in a row ends the stream (R309). -/
theorem State.recvEcho_streaming {mt : Word} {flags : BitVec 16} {tFirst : Nat} (hgiver : s.hovGiver a = true)
    (hstate : s.hovState a = 3) :
    s.recvEcho a mt flags tFirst =
      let own := (mt.toNat + s.hovOfs a (s.hovSideUp a)) % 2 ^ 32
      let far := decide (s.rd F.MOT_HOV_POL_POS_TOL < (signed 32 (own + 2 ^ 32 - s.snapMt a)).natAbs)
      let n := if far then (s.hov a).echoBad + 1 else 0
      let v := s.modHov a fun h => { h with echoBad := n }
      let v := v.keepEcho a own (flags.getLsbD 1) (v.capturedAt a (s.hovSideUp a) tFirst)
      if n = 3 then ((v.sendAbort a (s.hovSideUp a) 4).hovAborted a).modHov a fun h => { h with solo := true } else v :=
  if_neg (by simp [hgiver, hstate])

/-! ## RELEASE and ABORT (R311, R312) -/

/-- RELEASE leaves the vehicle to the taker, at the giver's last current (R311). -/
theorem State.recvRelease_taker {cur : BitVec 16} (htaker : s.hovTaker a = true) (hstate : s.hovState a = 4) :
    s.recvRelease a cur = (s.modHov a fun h =>
      { h with rx := h.rx.map fun r => { r with cur := signed 16 cur.toNat } }).hovHolding a :=
  if_pos (by simp [htaker, hstate])

/-- RELEASE ends the giver's part (R311). -/
theorem State.recvRelease_giver {cur : BitVec 16} (htaker : s.hovTaker a = false) (hgiver : s.hovGiver a = true)
    (hstate : s.hovState a = 3) :
    s.recvRelease a cur =
      (s.wr (F.MOT_HOV_STAT_STATE a) 5).modHov a fun h => { h with prearmAt := none, solo := false } :=
  (if_neg (by simp [htaker])).trans (if_pos (by simp [hgiver, hstate]))

end Frames

/-! ## What a unit sends, and its idle time (R297, R300, R302, R313) -/

/-- A vehicle that nears the far edge of an idle giver: the guard of PREARM is open (R300). -/
theorem prearm_due {seg runs rev reached : Bool} {nb dist lead : Nat} {sp : Int} {due : Bool} (hseg : seg = true)
    (hruns : runs = true) (hnb : nb ≠ 0) (hsp : sp ≠ 0) (hrev : sp < 0 → rev = true) (hreached : reached = false)
    (hnear : dist ≤ lead) (hdue : due = true) :
    (seg && runs && nb != 0 && (!decide (sp < 0) || rev) && sp != 0 && !reached && decide (dist ≤ lead) && due) = true := by
  simpa [hseg, hruns, hnb, hsp, hreached, hnear, hdue, imp_iff_not_or] using hrev

/-- A STATE frame is missing once the next one is overdue by 2 µs (R310). -/
theorem stateFrame_missing {taker none_ : Bool} {st at_ : Nat} {now : Nat} (htaker : taker = true) (hsome : none_ = false)
    (hstate : st = 2 ∨ st = 4) (hlate : at_ ≤ now) :
    ¬(!taker || none_ || !(st == 2 || st == 4) || decide (now < at_)) = true := by
  have hstate' : (st == 2 || st == 4) = true := by simpa using hstate
  rw [htaker, hsome, hstate', decide_eq_false (not_lt.mpr hlate)]
  exact Bool.false_ne_true

/-- Settles O18: for each row, its hypotheses decide the guard that the row stands under; a frame that is heard then goes by
the lemma of its kind. -/
theorem handoversPassBetweenUnits : Obligations.HandoversPassBetweenUnits := by
  refine ⟨?prearm, ?prepare, ?noNeighbour, ?arm, ?pathFailed, ?ready, ?noGiver, ?state, ?echo, ?taken, ?given, ?abort,
    ?missing, ?idle⟩
  case prearm =>
    intro s t a u hseg hruns hnb hsp hrev hreached hnear hfirst hstate
    have hdue : (match (u.hov a).prearmAt with
        | none => u.hovState a == 0 || u.hovState a == 5
        | some x => u.hovState a == 1 && u.hovGiver a && decide (x + 1000000 ≤ u.now)) = true := by
      rw [hfirst, hstate]
      rfl
    have hsends : u.hovState a != 1 := by rw [hstate]; rfl
    refine congrArg Host.Outcome.next ((if_pos (prearm_due hseg hruns hnb hsp hrev hreached hnear hdue)).trans ?_)
    rw [State.cond_of_eq_true _ hsends]
  case prepare =>
    intro s t a up dirUp u hawake hport hnb hseg hhold hstopped hdir hfree
    refine congrArg Host.Outcome.next ((if_neg (by simp [u, hawake, hport])).trans ?_)
    exact congrArg (fun v : State => v.cond u.chain.preWoke fun s => s.event 0x0B11 a)
      (State.recvPrearm_free (s := { u with chain := { u.chain with preWoke := false } }) hseg hnb hhold hstopped hdir hfree)
  case noNeighbour =>
    intro s t a up dirUp u hawake hport hbarred
    refine congrArg Host.Outcome.next ((if_neg (by simp [u, hawake, hport])).trans ?_)
    exact congrArg (fun v : State => v.cond u.chain.preWoke fun s => s.event 0x0B11 a)
      (State.recvPrearm_noNeighbour (s := { u with chain := { u.chain with preWoke := false } }) hbarred)
  case arm =>
    rintro s t a _ u hseg htaker hstate hmode harm rfl
    exact congrArg Host.Outcome.next ((if_pos (by simp [u, hseg, htaker, hstate, hmode, harm])).trans (if_pos rfl))
  case pathFailed =>
    rintro s t a _ u hseg htaker hstate hmode harm rfl
    exact congrArg Host.Outcome.next
      ((if_pos (by simp [u, hseg, htaker, hstate, hmode, harm])).trans (if_neg Bool.false_ne_true))
  case ready =>
    intro s t a sig u hseg hhears htaker hgiver hruns hstate hearly
    exact congrArg Host.Outcome.next
      ((if_pos hhears).trans (State.recvReady_awaited hseg htaker hgiver hruns hstate hearly))
  case noGiver =>
    intro s t a sig u hseg hhears htaker hidle
    exact congrArg Host.Outcome.next ((if_pos hhears).trans (State.recvReady_noGiver hseg htaker hidle))
  case state =>
    intro s t a up mt spd cur tFirst u hseg hhears htaker hside hstate hlow hhigh
    exact congrArg Host.Outcome.next
      ((if_pos hhears).trans (State.recvState_inRange hseg htaker hside hstate hlow hhigh))
  case echo =>
    intro s t a mt flags tFirst u hhears hgiver hstate
    exact congrArg Host.Outcome.next ((if_pos hhears).trans (State.recvEcho_streaming hgiver hstate))
  case taken =>
    intro s t a cur u hhears htaker hstate
    exact congrArg Host.Outcome.next ((if_pos hhears).trans (State.recvRelease_taker htaker hstate))
  case given =>
    intro s t a cur u hhears hgiver htaker hstate
    exact congrArg Host.Outcome.next ((if_pos hhears).trans (State.recvRelease_giver htaker hgiver hstate))
  case abort =>
    intro s t a reason u hseg hhears
    exact congrArg Host.Outcome.next ((if_pos hhears).trans (ite_not_of_eq_true _ _ hseg))
  case missing =>
    intro s t a u htaker hheld hstate hlate
    have hsome : (u.hov a).rx.isNone = false := by rw [← Option.not_isSome, hheld]; rfl
    exact congrArg Host.Outcome.next (if_neg (stateFrame_missing htaker hsome hstate hlate))
  case idle =>
    intro s t x u hidle hauto hpast hawake hpass hstopped
    refine congrArg Host.Outcome.next ?_
    rw [hidle]
    exact if_pos (by simp [u, hauto, hpast, hawake, hpass, hstopped])

end Sys2Proof.Machine
end

section
/-!
PROOFS. The statements of 12_uzodar_safety.md: the torque monitor, LIMP, the output
and brake tests, the contactors and their pre-charge, the discharge, and Uzodar's checks of itself.
-/

namespace Sys2Proof.Machine

/-! ## The torque monitor (R337 to R339) -/

/-- A frame that is good is the one held. -/
theorem State.frame_of_frameGood {s : State} {a : Nat} {f : PosFrame} (h : s.frameGood a = some f) :
    (s.uzAx a).frame = some f := by
  unfold State.frameGood at h
  split at h
  · next g hg =>
    split at h
    · exact hg.trans h
    · cases h
  · cases h

/-- The current just recorded leaves the window as it is: it stands in a register of its own (R338). -/
theorem State.torqueWindow_wr_iq {s : State} {a : Fin 2} {n : Nat} {speed : Int} :
    (s.wr (F.SAF_TMON_IQ a) n).torqueWindow a speed = s.torqueWindow a speed := by
  have hmode : ∀ a : Fin 2, (F.SAF_TMON_IQ a).off ≠ (State.fAxMode a).off := by decide
  have hss1 : ∀ a : Fin 2, (F.SAF_TMON_IQ a).off ≠ (State.fSs1 a).off := by decide
  rw [State.torqueWindow, State.axMode, State.bit, State.rd_wr_other _ _ _ _ (hmode a),
    State.rd_wr_other _ _ _ _ (hss1 a)]
  rfl

/-- The accumulator stands in the other half of that register. -/
theorem State.rd_acc_wr_iq {s : State} {a n : Nat} :
    (s.wr (F.SAF_TMON_IQ a) n).rd (F.SAF_TMON_ACC a) = s.rd (F.SAF_TMON_ACC a) :=
  State.rd_wr_apart s _ _ n (show 0 + 16 ≤ 32 by decide) (.inl (show 0 + 16 ≤ 16 by decide))

/-! ## Limits and tests (R340, R341, R344, R346, R347) -/

/-- An output in use, without a fault, is tested at its pulse. -/
theorem output_tested {safe used : Bool} {cause : Nat} (hsafe : safe = true) (hused : used = true) (hcause : cause = 0) :
    ¬(!safe || !used || cause != 0) = true := by
  simp [hsafe, hused, hcause]

/-- A test that is due once, since none has passed or the last one is too old. -/
theorem brakeTest_overdue {safe due : Bool} {int last now span : Nat} (hsafe : safe = true) (hint : int ≠ 0)
    (hnew : due = false) (hold : last = 0 ∨ last + span ≤ now) :
    ¬(!safe || int == 0 || due || (last != 0 && decide (now < last + span))) = true := by
  have hlate : (last != 0 && decide (now < last + span)) = false := by
    rcases hold with h | h
    · simp [h]
    · simp [h]
  simp [hsafe, hint, hnew, hlate]

/-- Settles O22: for each row, its hypotheses decide the guard and the branches that the row stands under. -/
theorem torqueLimpAndOutputChecksComplete : Obligations.TorqueLimpAndOutputChecksComplete := by
  refine ⟨?monitor, ?warning, ?limit, ?speed, ?pulse, ?short, ?firstPhase, ?secondPhase, ?due⟩
  case monitor =>
    intro s t a f u hsafe hruns hcur hframe hfresh
    have hheld : (u.safeOn && (u.uzAx a).gotI) = true := Bool.and_eq_true_iff.mpr ⟨hsafe, hcur⟩
    have hjudged : ∀ n, ((u.wr (F.SAF_TMON_IQ a) n).running a && (((u.wr (F.SAF_TMON_IQ a) n).frameGood a).isSome &&
        decide (u.now < f.at_ + 1000000))) = true := by
      have hmode : ∀ a : Fin 2, (F.SAF_TMON_IQ a).off ≠ (State.fAxMode a).off := by decide
      intro n
      have hruns' : (u.wr (F.SAF_TMON_IQ a) n).running a = true := by
        rw [State.running, State.axMode, State.rd_wr_other _ _ _ _ (hmode a)]
        exact hruns
      have hframe' : (u.wr (F.SAF_TMON_IQ a) n).frameGood a = some f := hframe
      rw [hruns', hframe', decide_eq_true hfresh]
      rfl
    refine congrArg Host.Outcome.next ?_
    rw [hheld, State.frame_of_frameGood hframe]
    refine (if_pos (hjudged _)).trans ?_
    rewrite [State.judgeIq, State.torqueWindow_wr_iq, State.rd_acc_wr_iq]
    rfl
  case warning =>
    intro s t a u hmode hlong hfirst hnear
    exact congrArg Host.Outcome.next (if_pos (by simp [u, hmode, hlong, hfirst, hnear]))
  case limit =>
    intro s t a u hmode hpast
    exact congrArg Host.Outcome.next (if_pos (by simp [u, hmode, hpast]))
  case speed =>
    intro s t a f u hmode hframe hfast
    exact congrArg Host.Outcome.next (if_pos (by simp [u, hmode, hframe, hfast]))
  case pulse =>
    intro s t n hs pad x u hsafe hused hcause hstart hinside hafter
    refine congrArg Host.Outcome.next ((if_neg (output_tested hsafe hused hcause)).trans ?_)
    rw [hstart]
    exact if_neg (not_or.mpr ⟨not_lt.mpr hinside, not_lt.mpr hafter⟩)
  case short =>
    intro s t n u hsafe hused hpulse
    exact congrArg Host.Outcome.next (if_neg (by simp only [u, hsafe, hused, hpulse]; decide))
  case firstPhase =>
    intro s t b u htest hfirst hpast
    refine congrArg Host.Outcome.next ?_
    rw [htest]
    exact (if_neg (not_lt.mpr hpast)).trans (if_neg (ne_true_of_eq_false hfirst))
  case secondPhase =>
    intro s t b u htest hsecond hpast
    refine congrArg Host.Outcome.next ?_
    rw [htest]
    exact (if_neg (not_lt.mpr hpast)).trans (if_pos hsecond)
  case due =>
    intro s t a u hsafe hint hnew hold
    exact congrArg Host.Outcome.next (if_neg (brakeTest_overdue hsafe hint hnew hold))

/-! ## Contactors (R348, R349) -/

/-- The link is measured at PRECH_V or above, after PRECH_MIN where CO1 is used: a pre-charge has reached it (R348). -/
theorem precharge_reached {measured unused : Bool} {v w : Int} {early : Nat} {now : Nat} (hmeas : measured = true)
    (hreached : v ≤ w) (hmin : unused = true ∨ early ≤ now) :
    ¬(!measured || decide (w < v) || !unused && decide (now < early)) = true := by
  have hwait : (!unused && decide (now < early)) = false := by
    rcases hmin with h | h
    · simp [h]
    · simp [h]
  rw [hmeas, decide_eq_false (not_lt.mpr hreached), hwait]
  exact Bool.false_ne_true

/-- Settles O23: for each row, its hypotheses decide the guard and the branches that the row stands under; CO1 stands under
whether it is used at all. -/
theorem contactorsAndUzodarSelfChecksComplete : Obligations.ContactorsAndUzodarSelfChecksComplete := by
  refine ⟨?reached, ?co1Opens, ?tooLong, ?feedback0, ?feedback1, ?shadow, ?selfTest, ?overdue, ?lane, ?core⟩
  case reached =>
    intro s t x u hphase hmeas hreached hmin
    refine congrArg Host.Outcome.next ?_
    rw [hphase]
    exact if_neg (precharge_reached hmeas hreached hmin)
  case co1Opens =>
    intro s t x u hphase hpast
    refine congrArg Host.Outcome.next ?_
    rw [hphase]
    exact if_neg (not_lt.mpr hpast)
  case tooLong =>
    intro s t x u hphase hpast
    refine congrArg Host.Outcome.next ?_
    rw [hphase]
    exact if_neg (not_lt.mpr hpast)
  case feedback0 =>
    rintro s t _ shown u hsafe rfl hpast
    exact congrArg Host.Outcome.next (if_neg (by simp [u, hsafe, hpast]))
  case feedback1 =>
    rintro s t _ shown u hsafe rfl hpast
    refine congrArg Host.Outcome.next ?_
    by_cases hunused : Config.co1Unused = true
    · exact (if_pos (by simp [hunused])).trans (if_pos hunused).symm
    · refine (if_neg (by simp [u, hsafe, hpast, hunused])).trans (if_neg hunused).symm
  case shadow =>
    intro s t u hsafe hcpu hloaded hlock hdiffers
    exact congrArg Host.Outcome.next (if_pos (by simp [u, hsafe, hcpu, hloaded, hlock, hdiffers]))
  case selfTest =>
    intro s t pass u hsafe hstopped
    exact congrArg Host.Outcome.next (if_neg (by simp only [u, hsafe, hstopped]; decide))
  case overdue =>
    intro s t u hsafe hnew hpast
    exact congrArg Host.Outcome.next (if_pos (by simp [u, hsafe, hnew, hpast]))
  case lane =>
    intro s t u hsafe hnew
    exact congrArg Host.Outcome.next (if_neg (by simp [u, hsafe, hnew]))
  case core =>
    intro s t u hsafe hawake hpast
    exact congrArg Host.Outcome.next (if_pos (by simp [u, hsafe, hawake, hpast]))

/-! ## The active discharge (R350, R351) -/

/-- In a discharge whose time has passed, the end goes by whether the link is measured (R351). -/
theorem exec_dischargeTimeout_past {s : State} {t x : Nat} (hphase : (s.upTo t).saf.discharge = .active x)
    (hpast : x + max 1 ((s.upTo t).uz F.BLK_DCH_DCH_TMAX) * 100000000 ≤ (s.upTo t).now) :
    exec (.dischargeTimeout t) s = .next (
      let v := ((s.upTo t).lo F.SAF_STAT_DCH_ACT).modSaf fun y =>
        { y with discharge := .idle, dchTmaxAt := some (s.upTo t).now }
      (if (s.upTo t).measured then ((v.hi F.SAF_STAT_DCH_FAIL).event 0x0C10 0).dchDone stTimeout
        else (v.event 0x0C0F 0).dchDone stOk).latchedBit) := by
  refine congrArg Host.Outcome.next ?_
  rw [hphase]
  exact if_neg (not_lt.mpr hpast)

/-- Settles O24: for each row, its hypotheses decide the phase of the discharge and the branch that the row takes. -/
theorem dischargeEndsAsTheRuleSays : Obligations.DischargeEndsAsTheRuleSays := by
  refine ⟨?safe, ?failed, ?unmeasured, ?early, ?starts, ?cooled⟩
  case safe =>
    intro s t x u hphase hmeas hstood
    refine congrArg Host.Outcome.next ?_
    rw [hphase]
    exact if_pos (Bool.and_eq_true_iff.mpr ⟨hmeas, hstood⟩)
  case failed =>
    intro s t x u hphase hpast hmeas
    rw [exec_dischargeTimeout_past hphase hpast]
    exact congrArg (fun v : State => Host.Outcome.next v.latchedBit) (if_pos hmeas)
  case unmeasured =>
    intro s t x u hphase hpast hmeas
    rw [exec_dischargeTimeout_past hphase hpast]
    exact congrArg (fun v : State => Host.Outcome.next v.latchedBit) (if_neg (ne_true_of_eq_false hmeas))
  case early =>
    intro s t x u hphase hearly
    refine congrArg Host.Outcome.next ?_
    rw [hphase]
    exact if_pos hearly
  case starts =>
    intro s t u hsafe hloaded hclosed hphase hopen hpast
    exact congrArg Host.Outcome.next (if_pos (by simp [u, hsafe, hloaded, hclosed, hphase, hopen, hpast]))
  case cooled =>
    intro s t u hphase hcool
    have hdue : (u.saf.dchTmaxAt.any fun x => decide (u.now < x + u.uz F.BLK_DCH_DCH_COOL * 1000000000)) = false :=
      (Option.any_eq_false _ _).mpr fun x hx => by simpa using hcool x hx
    refine congrArg Host.Outcome.next ?_
    rw [hphase, hdue]

end Sys2Proof.Machine
end

section
/-!
PROOFS. The statements of 13_control_cores.md and 14_boot_and_security.md: the vote, the replicated reads, the halt and the
restart of the cores, recovery, the debugger's challenge, and the boundary scan.
-/

namespace Sys2Proof.Machine

/-! ## Replicated reads (R365, R368, R372) -/

/-- A core at work whose memory protection lets the read pass: the guard of `execReplicatedRead` is open (R372). -/
theorem read_not_barred {works allows : Bool} (hwork : works = true) (hpmp : allows = true) :
    ¬(!works || !allows) = true := by
  simp [hwork, hpmp]

/-- What a replicated read does beyond the core's own memories: the first core's read is performed, and the others' return its
value (R365); `exec_replicatedRead_shared` ties it to the row. -/
def State.replicate (u : State) (core x : Nat) (sram : Bool) : State :=
  let n := kvGet (fun _ => 0) u.cores.rdCnt core
  let v := u.modCpu fun c => { c with rdCnt := kvSet (fun _ => 0) c.rdCnt core (n + 1) }
  match u.cores.rdVals[n]? with
  | some w => v.emit (.read x w)
  | none =>
    let r := if sram then (memWord v.sram ((x - 0x20000000) / 4 * 4), v) else v.readReg 1 (x - 0x40000000)
    (r.2.modCpu fun c => { c with rdVals := c.rdVals ++ [r.1] }).emit (.read x r.1)

/-- The first core's read of a register is performed, and its value kept for the others (R365). -/
theorem State.replicate_register {u : State} {core x : Nat}
    (h : u.cores.rdVals[kvGet (fun _ => 0) u.cores.rdCnt core]? = none) :
    u.replicate core x false =
      let n := kvGet (fun _ => 0) u.cores.rdCnt core
      let v := u.modCpu fun c => { c with rdCnt := kvSet (fun _ => 0) c.rdCnt core (n + 1) }
      ((v.readReg 1 (x - 0x40000000)).2.modCpu fun c => { c with
        rdVals := c.rdVals ++ [(v.readReg 1 (x - 0x40000000)).1] }).emit (.read x (v.readReg 1 (x - 0x40000000)).1) := by
  simp only [State.replicate, h, Bool.false_eq_true, if_false]

/-- The same of a word of shared SRAM (R365). -/
theorem State.replicate_sram {u : State} {core x : Nat}
    (h : u.cores.rdVals[kvGet (fun _ => 0) u.cores.rdCnt core]? = none) :
    u.replicate core x true =
      let n := kvGet (fun _ => 0) u.cores.rdCnt core
      let v := u.modCpu fun c => { c with rdCnt := kvSet (fun _ => 0) c.rdCnt core (n + 1) }
      (v.modCpu fun c => { c with rdVals := c.rdVals ++ [memWord u.sram ((x - 0x20000000) / 4 * 4)] }).emit
        (.read x (memWord u.sram ((x - 0x20000000) / 4 * 4))) := by
  simp only [State.replicate, h, if_true]
  rfl

/-- A read of shared SRAM or of the registers, with room in the core's list of reads, is replicated (R365, R368). -/
theorem exec_replicatedRead_shared {s : State} {t : Nat} {core : Fin 3} {addr : BitVec 32}
    (hwork : (s.upTo t).atWork core = true) (hpmp : (s.upTo t).pmpAllows core false addr.toNat = true)
    (hplace : 0x20000000 ≤ addr.toNat ∧ addr.toNat < 0x20100000 ∨ 0x40000000 ≤ addr.toNat ∧ addr.toNat < 0x40120000)
    (hroom : kvGet (fun _ => 0) (s.upTo t).cores.rdCnt core < 1024) :
    exec (.replicatedRead t core addr) s = .next ((s.upTo t).replicate core addr.toNat
      (decide (0x20000000 ≤ addr.toNat) && decide (addr.toNat < 0x20100000))) := by
  have hrom : ¬addr.toNat < 0x40000 := by omega
  have hlocal : ¬(0x10000000 ≤ addr.toNat ∧ addr.toNat < 0x10080000) := by omega
  have hqueue : ¬(0x50000000 ≤ addr.toNat ∧ addr.toNat < 0x50010000) := by omega
  have hshared : ¬(!((decide (0x20000000 ≤ addr.toNat) && decide (addr.toNat < 0x20100000)) ||
      (decide (0x40000000 ≤ addr.toNat) && decide (addr.toNat < 0x40120000)))) = true := by
    rcases hplace with ⟨hlow, hhigh⟩ | ⟨hlow, hhigh⟩
    · simp [hlow, hhigh]
    · simp [hlow, hhigh]
  refine congrArg Host.Outcome.next ((if_neg (read_not_barred hwork hpmp)).trans ?_)
  refine (if_neg hrom).trans ((if_neg hlocal).trans ((if_neg hqueue).trans ((if_neg hshared).trans ?_)))
  exact if_neg (not_le.mpr hroom)

/-! ## The cores (R361, R362, R371 to R376) -/

/-- Settles O29: for each row, its hypotheses decide the guard and the branches that the row stands under; a read goes by its
address, and a replicated one by `State.replicate`. -/
theorem coresVoteHaltAndResume : Obligations.CoresVoteHaltAndResume := by
  refine ⟨?instant, ?port, ?sram, ?rom, ?own, ?queue, ?barred, ?register, ?repeated, ?copied, ?ecc, ?restart, ?halt,
    ?resume⟩
  case instant =>
    intro s t u hruns hdue
    exact next_ite_or_not _ _ hruns hdue
  case port =>
    intro s t core outs pc work u hwork
    exact congrArg Host.Outcome.next (ite_not_of_eq_true _ _ hwork)
  case sram =>
    intro s t core addr u hwork hpmp hlow hhigh hroom hfirst
    have hsram : (decide (0x20000000 ≤ addr.toNat) && decide (addr.toNat < 0x20100000)) = true := by simp [hlow, hhigh]
    rw [exec_replicatedRead_shared hwork hpmp (.inl ⟨hlow, hhigh⟩) hroom, hsram, State.replicate_sram hfirst]
  case rom =>
    intro s t core addr u hwork hpmp hrom
    exact congrArg Host.Outcome.next ((if_neg (read_not_barred hwork hpmp)).trans (if_pos hrom))
  case own =>
    intro s t core addr u hwork hpmp hlow hhigh
    exact congrArg Host.Outcome.next ((if_neg (read_not_barred hwork hpmp)).trans
      ((if_neg (by omega)).trans (if_pos ⟨hlow, hhigh⟩)))
  case queue =>
    intro s t core addr u hwork hpmp hlow hhigh
    exact congrArg Host.Outcome.next ((if_neg (read_not_barred hwork hpmp)).trans
      ((if_neg (by omega)).trans ((if_neg (by omega)).trans (if_pos ⟨hlow, hhigh⟩))))
  case barred =>
    intro s t core addr u hpmp
    exact congrArg Host.Outcome.next (if_pos (by simp [u, hpmp]))
  case register =>
    intro s t core addr u hwork hpmp hlow hhigh hroom hfirst
    have hsram : (decide (0x20000000 ≤ addr.toNat) && decide (addr.toNat < 0x20100000)) = false := by
      simp
      omega
    rw [exec_replicatedRead_shared hwork hpmp (.inr ⟨hlow, hhigh⟩) hroom, hsram, State.replicate_register hfirst]
  case repeated =>
    intro s t core addr x u hwork hpmp hplace hroom hheld
    rw [exec_replicatedRead_shared hwork hpmp hplace hroom, State.replicate, hheld]
  case copied =>
    intro s t n u hsits hcpu hcopy
    refine congrArg Host.Outcome.next ?_
    rw [hsits]
    exact if_neg (by simp [u, hcpu, hcopy])
  case ecc =>
    intro s t core u hwork
    exact congrArg Host.Outcome.next (if_pos hwork)
  case restart =>
    intro s t split u hcpu hvote hhold
    exact congrArg Host.Outcome.next ((ite_not_of_eq_true _ _ hcpu).trans
      (if_neg (not_or.mpr ⟨not_lt.mpr hvote, not_not.mpr hhold⟩)))
  case halt =>
    intro s t core u hcpu hscope hfree hruns
    exact congrArg Host.Outcome.next (if_neg (by simp [u, hcpu, hscope, hfree, hruns]))
  case resume =>
    intro s t core u hcpu hhalted
    exact next_ite_or_not _ _ hcpu hhalted

/-! ## Recovery, the debugger and the report (R389, R397, R400, R401) -/

/-- Outside BOOT, under a policy that admits a debugger, without a lock-out and with room in the journal, a response is judged
(R400). -/
theorem response_not_barred {phase policy waiting : Nat} {lockout : Bool} (hphase : phase ≠ 1) (hnone : policy ≠ 0)
    (hclosed : policy ≠ 3) (hopen : lockout = false) (hroom : waiting < 2048) :
    ¬(phase == 1 || policy == 0 || policy == 3 || lockout || decide (2048 ≤ waiting)) = true := by
  simp [hphase, hnone, hclosed, hopen, hroom]

/-- Settles O30: for each row, its hypotheses decide the guard that the row stands under. -/
theorem recoveryDebugAndAttestComplete : Obligations.RecoveryDebugAndAttestComplete := by
  refine ⟨?recovery, ?challenge, ?response, ?report⟩
  case recovery =>
    intro s t boot u hcpu hawaits
    exact congrArg Host.Outcome.next (if_neg (by simp [u, hcpu, hawaits]))
  case challenge =>
    intro s t u hcpu
    exact congrArg Host.Outcome.next (ite_not_of_eq_true _ _ hcpu)
  case response =>
    intro s t bytes split u hcpu hphase hnone hclosed hopen hroom
    refine congrArg Host.Outcome.next ((ite_not_of_eq_true _ _ hcpu).trans ?_)
    exact if_neg (response_not_barred hphase hnone hclosed hopen hroom)
  case report =>
    intro s t c x u hsigns hcpu
    refine congrArg Host.Outcome.next ?_
    rw [hsigns]
    exact ite_not_of_eq_true _ _ hcpu

/-! ## The boundary scan (R399) -/

/-- The instructions that drive pads act under STO alone, and as BYPASS otherwise (R399). -/
theorem State.scanActs_eq (v : State) :
    v.scanActs = if (v.pins.scan = .extest ∨ v.pins.scan = .clamp ∨ v.pins.scan = .highz) ∧
      v.bit F.SAF_STAT_STO_ACT = false then .bypass else v.pins.scan :=
  if_congr (by simp [or_assoc]) rfl rfl

/-- A powered pad of the chain goes by the instruction that acts. -/
theorem State.pad_of_scan {v : State} {p : PadName} (hpow : v.padPower p = true) (hcell : State.scanDrives p = true) :
    (v.scanActs = .highz → v.pad p = .floats) ∧ (v.scanActs = .extest ∨ v.scanActs = .clamp → v.pad p = .scanned) := by
  have hpad : v.pad p = match v.scanActs with
      | .highz => .floats
      | .extest | .clamp => .scanned
      | _ => v.padDrive p := (ite_not_of_eq_true _ _ hpow).trans (if_pos hcell)
  refine ⟨fun h => ?_, fun h => ?_⟩
  · rw [hpad, h]
  · rcases h with h | h
    · rw [hpad, h]
    · rw [hpad, h]

/-- A pad without a cell of the chain carries what the module drives, or floats without power. -/
theorem State.pad_not_scanned {v : State} {p : PadName} (hcell : State.scanDrives p = false)
    (hdrive : v.padDrive p ≠ .scanned) : v.pad p ≠ .scanned := by
  unfold State.pad
  split
  · exact PadLevel.noConfusion
  · rw [if_neg (ne_true_of_eq_false hcell)]
    exact hdrive

theorem State.level_ne_scanned (b : Bool) : State.level b ≠ .scanned := by
  cases b <;> exact PadLevel.noConfusion

theorem State.soLevel_ne_scanned (b : Bool) {rail : PadLevel} (h : rail ≠ .scanned) : State.soLevel b rail ≠ .scanned := by
  cases b
  · exact PadLevel.noConfusion
  · exact h

/-- Settles O26: the load changes the instruction alone, and each pad goes by whether it has a cell of the chain. -/
theorem scanInstructionsDrivePadsUnderStoOnly : Obligations.ScanInstructionsDrivePadsUnderStoOnly := by
  intro s t ins u hio
  refine ⟨_, congrArg Host.Outcome.next (if_pos hio), rfl, fun v hscan => ⟨?_, fun p hpow hcell => ?_, fun n => ?_⟩⟩
  · rw [State.scanActs_eq, hscan]
  · exact State.pad_of_scan hpow hcell
  · exact ⟨State.pad_not_scanned rfl PadLevel.noConfusion,
      State.pad_not_scanned rfl (State.soLevel_ne_scanned _ PadLevel.noConfusion),
      State.pad_not_scanned rfl (State.soLevel_ne_scanned _ PadLevel.noConfusion),
      State.pad_not_scanned rfl (State.level_ne_scanned _), State.pad_not_scanned rfl (State.level_ne_scanned _)⟩

end Sys2Proof.Machine
end

section
/-!
PROOFS. The statements of 18_can_fd.md, and of 15_host_rings.md about commands that wait for their ring: the actions of
CAN_OBJECT, and the frames, errors and times of a controller.
-/

namespace Sys2Proof.Machine

/-! ## Commands that wait (R370, R420) -/

/-- Where no command of the ring can run, a row that would run one leaves the module as it is. -/
theorem State.next_runCmd_of_heldBack {u : State} {r : Nat} {is : Cmd → Bool} {f : State → Cmd → State}
    (h : u.heldBack r) : (.next (u.runCmd r is f) : Host.Outcome State Fault Refusal) = .next u :=
  congrArg Host.Outcome.next (State.runCmd_out h)

/-- Settles O57: all 34 rows stand in the frame of a command that holds its ring. -/
theorem commandsWaitForTheirRing : Obligations.CommandsWaitForTheirRing := by
  unfold Obligations.CommandsWaitForTheirRing
  and_intros
  all_goals
    intros
    rename_i hheld
    exact State.next_runCmd_of_heldBack hheld

/-! ## CAN_OBJECT (R490 to R493, R498, R501) -/

/-- Settles O36: each command runs, and its hypotheses choose the branch of its action. -/
theorem canCommandsRun : Obligations.CanCommandsRun := by
  refine ⟨?configure, ?transmit, ?read, ?disable, ?abort, ?abortNone, ?start, ?stop, ?stopLater, ?recover⟩
  case configure =>
    intro s t r c u hrun hop hact hfree
    exact State.next_runCmd_of_mayRun hrun hop (beq_iff_eq.mpr hact) (if_neg (ne_true_of_eq_false hfree))
  case transmit =>
    intro s t r c u hrun hop hact hfit
    refine State.next_runCmd_of_mayRun hrun hop (beq_iff_eq.mpr hact) ?_
    beta_reduce
    rw [hfit]
  case read =>
    intro s t r c u hrun hop hact
    exact State.next_runCmd_of_mayRun hrun hop (beq_iff_eq.mpr hact) rfl
  case disable =>
    intro s t r c u hrun hop hact hfree
    refine State.next_runCmd_of_mayRun hrun hop (beq_iff_eq.mpr hact) (if_neg ?_)
    exact ne_true_of_eq_false (Bool.and_eq_false_iff.mpr hfree)
  case abort =>
    intro s t r onBus c x u hrun hop hact hpend
    refine State.next_runCmd_of_mayRun hrun hop (beq_iff_eq.mpr hact) ?_
    beta_reduce
    rw [hpend]
  case abortNone =>
    intro s t r onBus c u hrun hop hact hnone
    refine State.next_runCmd_of_mayRun hrun hop (beq_iff_eq.mpr hact) ?_
    beta_reduce
    rw [hnone]
  case start =>
    intro s t r c u hrun hop hact hinit htiming
    exact State.next_runCmd_of_mayRun hrun hop (beq_iff_eq.mpr hact)
      ((if_pos hinit).trans (if_neg (ne_true_of_eq_false htiming)))
  case stop =>
    intro s t r onBus c u hrun hop hact hoff
    refine State.next_runCmd_of_mayRun hrun hop (beq_iff_eq.mpr hact) (if_neg ?_)
    exact ne_true_of_eq_false (Bool.and_eq_false_iff.mpr hoff)
  case stopLater =>
    intro s t r onBus c u hrun hop hact honBus hactive
    exact State.next_runCmd_of_mayRun hrun hop (beq_iff_eq.mpr hact)
      (if_pos (Bool.and_eq_true_iff.mpr ⟨honBus, hactive⟩))
  case recover =>
    intro s t r c u hrun hop hact hoff hfree
    refine State.next_runCmd_of_mayRun hrun hop (beq_iff_eq.mpr hact) ((if_neg (not_not.mpr hoff)).trans (if_neg ?_))
    rw [hfree]
    exact Bool.false_ne_true

/-! ## Frames (R489, R493 to R497) -/

/-- A controller takes part in a frame that it is active for, and that is classic or FD-enabled (R489). -/
theorem frame_not_barred {active fdf fd : Bool} (hactive : active = true) (hfd : fdf = false ∨ fd = true) :
    ¬(!active || (fdf && !fd)) = true := by
  rcases hfd with rfl | rfl
  · simp [hactive]
  · simp [hactive]

/-- The same of a frame that it sends, while it does not only listen (R489). -/
theorem transmission_not_barred {active listen fdf fd : Bool} (hactive : active = true) (hlisten : listen = false)
    (hfd : fdf = false ∨ fd = true) : ¬(!active || listen || (fdf && !fd)) = true := by
  rw [hlisten, Bool.or_false]
  exact frame_not_barred hactive hfd

/-- The object of the frame that was sent is the row's. -/
theorem filter_sent {sent : Option CanTx} {x : CanTx} {k : Nat} (hsent : sent = some x) (hobj : x.obj = k) :
    (sent.filter fun x => x.obj == k) = some x := by
  rw [hsent, Option.filter_some, if_pos (beq_iff_eq.mpr hobj)]

/-- Settles O37: for each row, its hypotheses decide the guard and the branches that the row stands under. -/
theorem canBusHappeningsComplete : Obligations.CanBusHappeningsComplete := by
  refine ⟨?dropped, ?stored, ?acked, ?failed, ?tooLong, ?timeout, ?error, ?started, ?integrated, ?recovered, ?wrap,
    ?snap⟩
  case dropped =>
    intro s t n f sof err u hactive hfd hnone
    refine congrArg Host.Outcome.next ((if_neg (frame_not_barred hactive hfd)).trans ?_)
    dsimp only
    rw [hnone]
  case stored =>
    intro s t n f sof err k u hactive hfd htaker hnew
    refine congrArg Host.Outcome.next ((if_neg (frame_not_barred hactive hfd)).trans ?_)
    dsimp only
    rw [htaker]
    simp only [u, hnew, State.cond, Bool.false_eq_true, Bool.false_and, if_false]
  case acked =>
    rintro s t n obj _ sof esi _ tec x u hactive hlisten hfd hsent hobj rfl rfl
    refine congrArg Host.Outcome.next ((if_neg (transmission_not_barred hactive hlisten hfd)).trans ?_)
    rw [filter_sent hsent hobj]
    simp only [u, ite_self, Option.any_none, State.cond, Bool.false_eq_true, if_false]
  case failed =>
    rintro s t n obj _ sof esi _ tec x c u hactive hlisten hfd hsent hobj rfl rfl
    refine congrArg Host.Outcome.next ((if_neg (transmission_not_barred hactive hlisten hfd)).trans ?_)
    rw [filter_sent hsent hobj]
    simp only [u, ite_self, Option.any_none, State.cond, Bool.false_eq_true, if_false]
  case tooLong =>
    rintro s t n obj _ sof esi _ tec x d u hactive hlisten hfd hsent hobj rfl rfl hon hfdf hbrs hlong hsingle
    refine congrArg Host.Outcome.next ((if_neg (transmission_not_barred hactive hlisten hfd)).trans ?_)
    rw [filter_sent hsent hobj]
    simp only [u, hon, hfdf, hbrs, hsingle, hlong, Bool.and_self, if_true, Option.any_some, decide_true, State.cond,
      Bool.false_eq_true, if_false, Nat.min_eq_left hlong.le]
  case timeout =>
    intro s t n obj x u hpend hcomm hlimit hretries hpast
    refine congrArg Host.Outcome.next ?_
    rw [hpend]
    exact if_pos (by simp [u, hcomm, hlimit, hretries, hpast])
  case error =>
    intro s t n lec dataPhase tec err u hactive
    exact congrArg Host.Outcome.next (ite_not_of_eq_true _ _ hactive)
  case started =>
    intro s t n c u hcomm hinit hstate hstarts
    have hstarts' : ((u.wr (F.CAN_STAT_STATE n) 1).can n).starting = some c := hstarts
    refine congrArg Host.Outcome.next ((if_neg (by simp [u, hcomm, hinit, hstate])).trans ?_)
    dsimp only
    rw [hstarts']
  case integrated =>
    intro s t n u hcomm hinit hstate hnone
    have hnone' : ((u.wr (F.CAN_STAT_STATE n) 1).can n).starting = none := hnone
    refine congrArg Host.Outcome.next ((if_neg (by simp [u, hcomm, hinit, hstate])).trans ?_)
    dsimp only
    rw [hnone']
  case recovered =>
    intro s t n u hcomm hrecovers
    exact next_ite_or_not _ _ hcomm hrecovers
  case wrap =>
    intro s t u hpast
    exact congrArg Host.Outcome.next (if_pos hpast)
  case snap =>
    intro s t u hcomm hstores
    exact next_ite_and _ _ hcomm hstores

end Sys2Proof.Machine
end

section
/-!
PROOFS. The statements of 17_tramer_chain.md: links and frames of the chain, its time exchange, and its credits, partner
changes, roll and addresses.
-/

namespace Sys2Proof.Machine

/-! ## Ports that hear (R455, R463 to R477) -/

section Sets
variable {s taken passed failed rest : State} {hears repeats ok : Bool}

/-- An ordered set whose complement check fails counts a code error at a port that hears. -/
theorem set_failed (hhears : hears = true) (hbad : ok = false) :
    (if !hears then s else if !ok then failed else rest) = failed :=
  (ite_not_of_eq_true _ _ hhears).trans (if_pos ((Bool.not_eq_true' _).mpr hbad))

/-- A valid one goes on at a port that hears. -/
theorem set_valid (hhears : hears = true) (hok : ok = true) :
    (if !hears then s else if !ok then failed else rest) = rest :=
  (ite_not_of_eq_true _ _ hhears).trans (ite_not_of_eq_true _ _ hok)

end Sets

/-- Settles O39: for each row, its hypotheses decide the guard that the row stands under. -/
theorem chainLinksAndFramesComplete : Obligations.ChainLinksAndFramesComplete := by
  refine ⟨?up, ?down, ?frame, ?forward, ?memRd, ?memWr, ?broken, ?wake, ?timeout, ?mute, ?resume⟩
  case up =>
    intro s t p u hcomm hdown
    exact congrArg Host.Outcome.next (if_neg (by simp [u, hcomm, hdown]))
  case down =>
    intro s t p errs u hhears
    exact congrArg Host.Outcome.next (ite_not_of_eq_true _ _ hhears)
  case frame =>
    intro s t p bytes ended u hhears
    exact congrArg Host.Outcome.next (if_pos hhears)
  case forward =>
    intro s t p q u hnext
    refine congrArg Host.Outcome.next ?_
    rw [hnext]
  case memRd =>
    intro s t src payload u hcomm hlen
    exact next_ite_and _ _ hcomm hlen
  case memWr =>
    intro s t src payload u hcomm hlen hmax
    exact next_ite_and _ _ (Bool.and_eq_true_iff.mpr ⟨hcomm, hlen⟩) (decide_eq_true hmax)
  case broken =>
    intro s t bnd down healed u hcomm hother
    exact next_ite_and _ _ hcomm (bne_iff_ne.mpr hother)
  case wake =>
    intro s t p bytes ended u hhears hrepeats
    exact next_ite_and _ _ hhears hrepeats
  case timeout =>
    intro s t u
    rfl
  case mute =>
    intro s t p u hrepeats
    exact congrArg Host.Outcome.next (if_pos hrepeats)
  case resume =>
    intro s t p u hrepeats
    exact congrArg Host.Outcome.next (if_pos hrepeats)

/-- Settles O40: a set goes by its complement check, then by whether the unit repeats or the port is active; for each other
row its hypotheses decide the guard. -/
theorem chainTimeComplete : Obligations.ChainTimeComplete := by
  refine ⟨?send, ?sync, ?syncPassed, ?syncFailed, ?request, ?requestPassed, ?response, ?responsePassed, ?responseFailed,
    ?source, ?holdover⟩
  case send =>
    intro s t p u hactive
    exact congrArg Host.Outcome.next (if_pos hactive)
  case sync =>
    intro s t p ct hops frac lag ok u hhears hok hend hactive
    exact congrArg Host.Outcome.next ((set_valid hhears hok).trans ((if_neg (ne_true_of_eq_false hend)).trans
      (if_pos hactive)))
  case syncPassed =>
    intro s t p ct hops frac lag ok u hhears hok hrepeats
    exact congrArg Host.Outcome.next ((set_valid hhears hok).trans (if_pos hrepeats))
  case syncFailed =>
    intro s t p ct hops frac lag ok u hhears hbad
    exact congrArg Host.Outcome.next (set_failed hhears hbad)
  case request =>
    intro s t p seq u hhears hend hactive
    exact congrArg Host.Outcome.next ((ite_not_of_eq_true _ _ hhears).trans
      ((if_neg (ne_true_of_eq_false hend)).trans (if_pos hactive)))
  case requestPassed =>
    intro s t p seq u hhears hrepeats
    exact congrArg Host.Outcome.next ((ite_not_of_eq_true _ _ hhears).trans (if_pos hrepeats))
  case response =>
    intro s t p seq t4 ok u hhears hok hend hactive hseq
    exact congrArg Host.Outcome.next ((set_valid hhears hok).trans ((if_neg (ne_true_of_eq_false hend)).trans
      (if_pos (Bool.and_eq_true_iff.mpr ⟨hactive, beq_iff_eq.mpr hseq⟩))))
  case responsePassed =>
    intro s t p seq t4 ok u hhears hok hrepeats
    exact congrArg Host.Outcome.next ((set_valid hhears hok).trans (if_pos hrepeats))
  case responseFailed =>
    intro s t p seq t4 ok u hhears hbad
    exact congrArg Host.Outcome.next (set_failed hhears hbad)
  case source =>
    intro s t u hcomm
    exact congrArg Host.Outcome.next (if_pos hcomm)
  case holdover =>
    intro s t u hcomm hsynced hroot hlate
    refine congrArg Host.Outcome.next (if_pos ?_)
    cases hexch : u.chain.exchAt with
    | none => simp [u, hcomm, hsynced, hroot]
    | some x => simp [u, hcomm, hsynced, hroot, hlate x hexch]

/-- Settles O41: a set goes by its complement check, then by whether the unit repeats; for each other row its hypotheses decide
the guard. -/
theorem chainCreditsPartnersAndAddressesComplete : Obligations.ChainCreditsPartnersAndAddressesComplete := by
  refine ⟨?credit, ?creditPassed, ?creditFailed, ?refresh, ?linkctl, ?linkctlPassed, ?partner, ?join, ?roll, ?rollTaken,
    ?rollFailed, ?rollLost, ?address⟩
  case credit =>
    rintro s t p freed _ u hhears rfl hend hcomm
    exact congrArg Host.Outcome.next ((ite_not_of_eq_true _ _ hhears).trans ((if_neg (by simp)).trans
      ((if_neg (ne_true_of_eq_false hend)).trans (if_pos hcomm))))
  case creditPassed =>
    rintro s t p freed _ u hhears rfl hrepeats
    exact congrArg Host.Outcome.next ((ite_not_of_eq_true _ _ hhears).trans ((if_neg (by simp)).trans
      (if_pos hrepeats)))
  case creditFailed =>
    intro s t p freed compl u hhears hbad
    exact congrArg Host.Outcome.next ((ite_not_of_eq_true _ _ hhears).trans (if_pos (bne_iff_ne.mpr hbad)))
  case refresh =>
    intro s t p u hactive
    exact congrArg Host.Outcome.next (if_pos hactive)
  case linkctl =>
    intro s t p code u hhears hown hawake
    refine congrArg Host.Outcome.next ((ite_not_of_eq_true _ _ hhears).trans ((if_neg ?_).trans (if_pos ?_)))
    · rcases hown with h | h
      · simp [u, h]
      · simp [u, h]
    · simpa [u] using hawake
  case linkctlPassed =>
    intro s t p code u hhears hrepeats hnone
    exact congrArg Host.Outcome.next ((ite_not_of_eq_true _ _ hhears).trans
      (if_pos (Bool.and_eq_true_iff.mpr ⟨hrepeats, beq_iff_eq.mpr hnone⟩)))
  case partner =>
    intro s t p x y u hcomm hphase hpast
    refine congrArg Host.Outcome.next ((if_neg (by simpa [u] using hcomm)).trans ?_)
    rw [hphase]
    exact if_pos hpast
  case join =>
    intro s t u hcomm hxtal hdone
    exact next_ite_and _ _ (Bool.and_eq_true_iff.mpr ⟨hcomm, hxtal⟩) ((Bool.not_eq_true' _).mpr hdone)
  case roll =>
    intro s t u hstores hroot hidle hcomm
    exact congrArg Host.Outcome.next ((State.cond_of_eq_true _ hstores).trans
      (if_neg (by simp [u, hroot, hidle, hcomm])))
  case rollTaken =>
    intro s t p count ok u hhears hok
    exact congrArg Host.Outcome.next (set_valid hhears hok)
  case rollFailed =>
    intro s t p count ok u hhears hbad
    exact congrArg Host.Outcome.next (set_failed hhears hbad)
  case rollLost =>
    intro s t x u hrolls hpast
    refine congrArg Host.Outcome.next ?_
    rw [hrolls]
    exact if_pos hpast
  case address =>
    intro s t u hpend hstopped
    exact next_ite_and _ _ hpend ((Bool.not_eq_true' _).mpr hstopped)

end Sys2Proof.Machine
end

section
/-!
PROOFS. The statement of 15_host_rings.md and 16_journal_and_recovery.md about what happens by itself: doorbells, ring set-up,
fetches, heartbeats, interrupts, the watchdog, DMA and the link.
-/

namespace Sys2Proof.Machine

/-! ## Doorbells and rings (R410 to R412) -/

section Doorbell
variable {s : State} {r d : Nat}

/-- A doorbell of an enabled ring moves the index of its side within the bounds, and stops the ring outside them (R412). -/
theorem State.doorbell_enabled (hopen : s.hostOpen = true) (hen : s.bit (F.HIF_RCFG_EN r) = true) :
    s.doorbell r d =
      let ahead := (d + 65536 - s.rd (F.HIF_RIDX_CONS r)) % 65536
      if r < 4 then
        if s.ringHeld r ≤ ahead ∧ ahead ≤ s.ringSize r then
          (s.wr (F.HIF_RIDX_PROD r) d).modHif fun h => { h with fedAt := s.now }
        else s.ringError r 1
      else if ahead ≤ s.ringHeld r then (s.wr (F.HIF_RIDX_CONS r) d).modHif fun h => { h with fedAt := s.now }
      else s.ringError r 1 := by
  simp only [State.doorbell, hopen, hen, Bool.not_true, Bool.false_eq_true, if_false]
  rw [State.wr_now, State.wr_now]

theorem State.doorbell_disabled (hopen : s.hostOpen = true) (hen : s.bit (F.HIF_RCFG_EN r) = false) :
    s.doorbell r d = s.hi F.HIF_STAT_WR_IGN :=
  (ite_not_of_eq_true _ _ hopen).trans (if_pos ((Bool.not_eq_true' _).mpr hen))

end Doorbell

/-! ## DMA (R410, R433) -/

/-- A DMA error of a ring that the first copy does not serve stops that ring where it is enabled (R433). -/
theorem exec_dmaError_ofRing {s : State} {t : Nat} {r : Fin 11}
    (hother : ((s.upTo t).hif.mover.head?.any fun j => j.cmd.ring == r.val) = false)
    (hen : (s.upTo t).ringEn r = true) : exec (.dmaError t r) s = .next ((s.upTo t).ringError r 2) := by
  refine congrArg Host.Outcome.next ?_
  cases hmover : (s.upTo t).hif.mover with
  | nil => exact if_pos hen
  | cons j rest =>
    have hring : ¬j.cmd.ring = r.val := by simpa [hmover] using hother
    exact (if_neg hring).trans (if_pos hen)

/-- Settles O32: for each row, its hypotheses decide the guard that the row stands under. -/
theorem ringsAndLinkComplete : Obligations.RingsAndLinkComplete := by
  refine ⟨?produced, ?consumed, ?disabled, ?enable, ?fetch, ?heartbeat, ?backlog, ?irq, ?watchdog, ?reset, ?loss, ?dmaRing,
    ?dmaCopy, ?linkUp, ?copied⟩
  case produced =>
    intro s t r idx u hopen hen hside
    exact congrArg Host.Outcome.next ((State.doorbell_enabled hopen hen).trans (if_pos hside))
  case consumed =>
    intro s t r idx u hopen hen hside
    exact congrArg Host.Outcome.next ((State.doorbell_enabled hopen hen).trans (if_neg (not_lt.mpr hside)))
  case disabled =>
    intro s t r idx u hopen hen
    exact congrArg Host.Outcome.next (State.doorbell_disabled hopen hen)
  case enable =>
    intro s t r data u hopen hen
    exact congrArg Host.Outcome.next ((ite_not_of_eq_true _ _ hopen).trans (if_neg (ne_true_of_eq_false hen)))
  case fetch =>
    intro s t r bytes u hfetch hfirst
    exact congrArg Host.Outcome.next (if_neg (by simp only [u, hfetch, hfirst]; decide))
  case heartbeat =>
    intro s t k u hcomm hen hpast
    exact next_ite_and _ _ (Bool.and_eq_true_iff.mpr ⟨hcomm, hen⟩) (decide_eq_true hpast)
  case backlog =>
    intro s t u hcomm
    exact congrArg Host.Outcome.next (ite_not_of_eq_true _ _ hcomm)
  case irq =>
    intro s t v r rest u hheld hcomm hpast
    refine congrArg Host.Outcome.next ?_
    dsimp only
    rw [hheld]
    exact if_pos (Bool.and_eq_true_iff.mpr ⟨hcomm, decide_eq_true hpast⟩)
  case watchdog =>
    intro s t u hcomm hen hpast
    exact next_ite_and _ _ (Bool.and_eq_true_iff.mpr ⟨hcomm, hen⟩) (decide_eq_true hpast)
  case reset =>
    intro s t u hcomm
    exact congrArg Host.Outcome.next (if_pos hcomm)
  case loss =>
    intro s t perst u hcomm hlost
    cases perst with
    | true => exact next_ite_and _ _ hcomm rfl
    | false => exact next_ite_and _ _ hcomm (hlost.resolve_left Bool.false_ne_true)
  case dmaRing =>
    intro s t r u hother hen
    exact exec_dmaError_ofRing hother hen
  case dmaCopy =>
    intro s t r j rest u hmover hring
    refine congrArg Host.Outcome.next ?_
    rw [hmover]
    exact if_pos hring
  case linkUp =>
    intro s t cfg u hcomm hawake
    exact next_ite_and _ _ hcomm hawake
  case copied =>
    intro s t data j rest u hmover hcpu hcomm
    refine congrArg Host.Outcome.next ?_
    rw [hmover]
    exact if_pos (Bool.and_eq_true_iff.mpr ⟨hcpu, hcomm⟩)

end Sys2Proof.Machine
end

section
/-!
PROOFS. The statements of 19_recorder.md: what the recorder's happenings answer, and how the metadata of a page is laid out.
-/

namespace Sys2Proof.Machine

/-! ## What the recorder does by itself and on its commands (R442, R443, R511 to R526) -/

section Recorder
variable {s : State} {t : Nat}

/-- The move of wear levelling takes the block of the least and a free block of the most erasures (R523). -/
theorem exec_wearLevelMove_of_spread {b c : Nat} (hb : (s.upTo t).leastWorn = some b) (hc : (s.upTo t).mostWornFree = some c)
    (hwrite : (s.upTo t).canWrite = true) (hlate : ∀ x, (s.upTo t).recd.movedAt = some x → x + 60000000000 ≤ (s.upTo t).now)
    (hspread : 1024 * max 1 ((s.upTo t).rd F.REC_CFG_WL_SPREAD) < (s.upTo t).wearSpread) :
    exec (.wearLevelMove t) s = .next (
      let v := (s.upTo t).cond (!((s.upTo t).blk c).erased) fun s => s.modBlk c fun k => { k with erases := k.erases + 1 }
      let v := ((v.moveBlk b c).freeBlk b).modRec fun r => { r with movedAt := some v.now }
      (v.recRegs).event 0x0F0D 0) := by
  have hmove : (match (s.upTo t).recd.movedAt with
      | some x => decide (x + 60000000000 ≤ (s.upTo t).now)
      | none => true) = true := by
    cases hmoved : (s.upTo t).recd.movedAt with
    | none => rfl
    | some x => exact decide_eq_true (hlate x hmoved)
  have hguard := Bool.and_eq_true_iff.mpr ⟨Bool.and_eq_true_iff.mpr ⟨hwrite, hmove⟩, decide_eq_true hspread⟩
  refine congrArg Host.Outcome.next ?_
  refine Eq.trans (b := match (s.upTo t).leastWorn, (s.upTo t).mostWornFree with
    | some b, some c =>
      if ((s.upTo t).canWrite && (match (s.upTo t).recd.movedAt with
          | some x => decide (x + 60000000000 ≤ (s.upTo t).now)
          | none => true)) && decide (1024 * max 1 ((s.upTo t).rd F.REC_CFG_WL_SPREAD) < (s.upTo t).wearSpread) then _
      else s.upTo t
    | _, _ => s.upTo t) rfl ?_
  rw [hb, hc]
  exact if_pos hguard

end Recorder

/-- Settles O38: for each row, its hypotheses decide the guard that the row stands under. -/
theorem recorderHappeningsComplete : Obligations.RecorderHappeningsComplete := by
  refine ⟨?program, ?flushTimeout, ?flush, ?format, ?scrub, ?wear, ?lift, ?erase, ?batch⟩
  case program =>
    intro s t ok split p rest u hcomm hfmt hban hprogs
    refine congrArg Host.Outcome.next ((if_neg (by simp [u, hcomm, hfmt, hban])).trans ?_)
    dsimp only
    rw [hprogs]
    dsimp only
    rewrite [State.cond_of_eq_false _ hban]
    rfl
  case flushTimeout =>
    intro s t x u hstaged hdue
    refine congrArg Host.Outcome.next ?_
    rw [hstaged]
    exact if_neg (not_lt.mpr hdue)
  case flush =>
    intro s t u hcomm hstores
    exact next_ite_and _ _ hcomm hstores
  case format =>
    intro s t bad u hcomm hstores hban hslot
    exact congrArg Host.Outcome.next (if_neg (by simp [u, hcomm, hstores, hban, hslot]))
  case scrub =>
    intro s t worst crc u hcomm hawake hmounted hfmt hgap
    have hearly : (u.recd.scrubbed.any fun x =>
        decide (u.now < x + if u.bit F.REC_STAT_SCRUB_DUE then 1000000 else 10000000)) = false :=
      (Option.any_eq_false _ _).mpr fun x hx => decide_eq_false (not_lt.mpr (hgap x hx))
    exact congrArg Host.Outcome.next (if_neg (by simp [u, hcomm, hawake, hmounted, hfmt, hearly]))
  case wear =>
    intro s t b c u hb hc hwrite hlate hspread
    exact exec_wearLevelMove_of_spread hb hc hwrite hlate hspread
  case lift =>
    intro s t x u hcomm hban hntc hfrom hstood
    exact congrArg Host.Outcome.next (if_pos (by simp [u, hcomm, hban, hntc, hfrom, hstood]))
  case erase =>
    intro s t b ok u hcomm hb hfree herased
    exact congrArg Host.Outcome.next (if_neg (by simp [u, hcomm, not_le.mpr hb, hfree, herased]))
  case batch =>
    intro s t u hcpu hbatch hnext
    exact congrArg Host.Outcome.next (if_neg (by simp [u, hcpu, hbatch, hnext]))

/-! ## The metadata of a page (R507) -/

@[simp] theorem leBytes_length (n v : Nat) : (leBytes n v).length = n := by
  induction n generalizing v with
  | zero => rfl
  | succ n ih => exact congrArg (· + 1) (ih (v / 256))

/-- A value written in `n` bytes is read back modulo its width. -/
theorem leNat_leBytes (n v : Nat) : leNat (leBytes n v) = v % 256 ^ n := by
  induction n generalizing v with
  | zero => exact (Nat.mod_one v).symm
  | succ n ih =>
    calc leNat (leBytes (n + 1) v) = v % 256 + 256 * (v / 256 % 256 ^ n) := by
          rw [leBytes, leNat, ih, BitVec.toNat_ofNat]
      _ = v % 256 ^ (n + 1) := by rw [pow_succ', Nat.mod_mul]

/-- The field at the front reads the value that was written there. -/
theorem fieldLe_front (n v : Nat) (back : List Byte) : fieldLe (leBytes n v ++ back) 0 n = v % 256 ^ n := by
  rw [fieldLe, List.drop_zero, List.take_left' (leBytes_length n v), leNat_leBytes]

theorem fieldLe_whole (n v : Nat) : fieldLe (leBytes n v) 0 n = v % 256 ^ n := by
  simpa using fieldLe_front n v []

/-- A field behind the bytes at the front stands that much nearer to the front of the rest. -/
theorem fieldLe_behind {k i : Nat} (v n : Nat) (back : List Byte) (h : k ≤ i) :
    fieldLe (leBytes k v ++ back) i n = fieldLe back (i - k) n := by
  have hlen : (leBytes k v).length ≤ i := (leBytes_length k v).trans_le h
  rw [fieldLe, fieldLe, List.drop_append, List.drop_eq_nil_of_le hlen, List.nil_append, leBytes_length]

/-- Settles O59: a field is reached by leaving the fields before it behind, whose lengths add up to its offset. -/
theorem pageMetadataIsLaidOutAsTheTableSays : Obligations.PageMetadataIsLaidOutAsTheTableSays := by
  intro role index page erases seq first data m
  have hhead : m.take 24 = leBytes 1 role ++ leBytes 1 index ++ leBytes 2 page ++ leBytes 4 erases ++ leBytes 8 seq ++
      leBytes 8 first := by
    simp only [m, pageMeta, List.append_assoc _ (leBytes 4 _) (leBytes 4 0)]
    exact List.take_left' (by simp)
  have hm : m = leBytes 1 role ++ (leBytes 1 index ++ (leBytes 2 page ++ (leBytes 4 erases ++ (leBytes 8 seq ++
      (leBytes 8 first ++ (leBytes 4 (crc32c (data ++ m.take 24)) ++ leBytes 4 0)))))) := by
    rw [hhead]
    simp [m, pageMeta]
  generalize crc32c (data ++ m.take 24) = crc at hm ⊢
  rw [hm]
  simp [fieldLe_front, fieldLe_behind, fieldLe_whole]

end Sys2Proof.Machine
end

section
/-!
PROOFS. The statements of 20_housekeeping_thermal.md: the rounds over the slots and the check of the brake coil; and the
statement that a step runs the front command.
-/

namespace Sys2Proof.Machine

/-! ## What a round shows (R533, R534) -/

/-- A slot is either VALID or FAIL and bears the low bits of a round. -/
def State.SlotShown (s : State) (k round : Nat) : Prop :=
  s.rd (F.HKP_VAL_VALID k) + s.rd (F.HKP_VAL_FAIL k) = 1 ∧ s.rd (F.HKP_VAL_ROUND k) = round % 256

theorem State.hkpVal_ne {j k : Nat} (h : j ≠ k) : R.HKP_VAL j ≠ R.HKP_VAL k := fun e =>
  h (Nat.eq_of_mul_eq_mul_left (by decide : 0 < 0x4) (Nat.add_left_cancel e))

section Shown
variable {s : State} {k round : Nat}

/-- A slot is shown as before after a write of another register. -/
theorem State.SlotShown.wr {f : Fld} {v : Nat} (hf : f.off ≠ R.HKP_VAL k) (h : s.SlotShown k round) :
    (s.wr f v).SlotShown k round := by
  have hother : ∀ g : Fld, g.off = R.HKP_VAL k → (s.wr f v).rd g = s.rd g := fun g hg => State.rd_wr_other s f g v (hg ▸ hf)
  rw [State.SlotShown, hother (F.HKP_VAL_VALID k) rfl, hother (F.HKP_VAL_FAIL k) rfl, hother (F.HKP_VAL_ROUND k) rfl]
  exact h

/-- The three writes that show a slot. -/
theorem State.slotShown_of_written (s : State) (k round : Nat) (ok : Bool) :
    (((s.wrB (F.HKP_VAL_VALID k) ok).wrB (F.HKP_VAL_FAIL k) (!ok)).wr (F.HKP_VAL_ROUND k) round).SlotShown k round := by
  have hvalid : (((s.wrB (F.HKP_VAL_VALID k) ok).wrB (F.HKP_VAL_FAIL k) (!ok)).wr (F.HKP_VAL_ROUND k) round).rd
      (F.HKP_VAL_VALID k) = ok.toNat % 2 := by
    rw [State.rd_wr_apart _ _ _ _ (by decide : 24 + 8 ≤ 32) (.inr (by decide : 16 + 1 ≤ 24)), State.wrB,
      State.rd_wr_apart _ _ _ _ (by decide : 17 + 1 ≤ 32) (.inr (by decide : 16 + 1 ≤ 17)), State.wrB,
      State.rd_wr_same _ _ _ (by decide : 16 + 1 ≤ 32)]
    rfl
  have hfail : (((s.wrB (F.HKP_VAL_VALID k) ok).wrB (F.HKP_VAL_FAIL k) (!ok)).wr (F.HKP_VAL_ROUND k) round).rd
      (F.HKP_VAL_FAIL k) = (!ok).toNat % 2 := by
    rw [State.rd_wr_apart _ _ _ _ (by decide : 24 + 8 ≤ 32) (.inr (by decide : 17 + 1 ≤ 24)), State.wrB,
      State.rd_wr_same _ _ _ (by decide : 17 + 1 ≤ 32)]
    rfl
  refine ⟨?_, State.rd_wr_same _ _ _ (by decide : 24 + 8 ≤ 32)⟩
  rw [hvalid, hfail]
  cases ok <;> rfl

end Shown

/-- What one entry of a list of numbers establishes and the others keep holds after all. -/
theorem State.each_range {P : State → Prop} {f : State → Nat → State} {k n : Nat} (s : State) (hk : k < n)
    (hset : ∀ v, P (f v k)) (hkeep : ∀ v j, j ≠ k → P v → P (f v j)) : P (s.each (List.range n) f) := by
  induction n with
  | zero => exact absurd hk (Nat.not_lt_zero k)
  | succ n ih =>
    rw [State.each, List.range_succ, List.foldl_append, List.foldl_cons, List.foldl_nil]
    rcases Nat.lt_succ_iff_lt_or_eq.mp hk with hlt | rfl
    · exact hkeep _ _ hlt.ne' (ih hlt)
    · exact hset _

/-- What each entry of a list keeps holds after all. -/
theorem State.each_keeps {P : State → Prop} {f : State → Nat → State} {s : State} (l : List Nat) (hs : P s)
    (hkeep : ∀ v j, P v → P (f v j)) : P (s.each l f) := by
  induction l generalizing s with
  | nil => exact hs
  | cons j l ih => exact ih (hkeep s j hs)

/-- A round shows each slot with the number that HKP_STAT counts. -/
theorem State.showValid_slotShown (s : State) {k : Nat} (hk : k < 24) :
    s.showValid.SlotShown k (s.rd F.HKP_STAT_ROUND) := by
  have hslots : (s.each (List.range 24) fun v j =>
      ((v.wrB (F.HKP_VAL_VALID j) (v.slotOk j)).wrB (F.HKP_VAL_FAIL j) (!v.slotOk j)).wr (F.HKP_VAL_ROUND j)
        (s.rd F.HKP_STAT_ROUND)).SlotShown k (s.rd F.HKP_STAT_ROUND) :=
    State.each_range (P := fun v => v.SlotShown k (s.rd F.HKP_STAT_ROUND)) s hk
      (fun v => State.slotShown_of_written v k _ (v.slotOk k))
      fun v j hj hv => ((hv.wr (State.hkpVal_ne hj)).wr (State.hkpVal_ne hj)).wr (State.hkpVal_ne hj)
  have hcvalid : R.HKP_CVALID ≠ R.HKP_VAL k := by simp only [R.HKP_CVALID, R.HKP_VAL]; omega
  exact State.each_keeps (P := fun v => v.SlotShown k (s.rd F.HKP_STAT_ROUND)) _ hslots fun v n hv =>
    (hv.wr hcvalid).wr hcvalid

/-- Showing what is valid leaves the count of rounds. -/
theorem State.showValid_round (s : State) : s.showValid.rd F.HKP_STAT_ROUND = s.rd F.HKP_STAT_ROUND := by
  have hval : ∀ j, R.HKP_VAL j ≠ R.HKP_STAT := fun j => by simp only [R.HKP_VAL, R.HKP_STAT]; omega
  have hcvalid : R.HKP_CVALID ≠ R.HKP_STAT := by decide
  refine State.each_keeps (P := fun v => v.rd F.HKP_STAT_ROUND = s.rd F.HKP_STAT_ROUND) _
    (State.each_keeps (P := fun v => v.rd F.HKP_STAT_ROUND = s.rd F.HKP_STAT_ROUND) _ rfl ?_) ?_
  · intro v j hv
    rw [State.rd_wr_other _ _ _ _ (hval j), State.wrB, State.rd_wr_other _ _ _ _ (hval j), State.wrB,
      State.rd_wr_other _ _ _ _ (hval j), hv]
  · intro v n hv
    rw [State.wrB, State.rd_wr_other _ _ _ _ hcvalid, State.wrB, State.rd_wr_other _ _ _ _ hcvalid, hv]

/-- Settles O28: a round ends by showing the slots; without its power, in the fall into WATCH or at rest it is guarded off. -/
theorem housekeepingRoundsComplete : Obligations.HousekeepingRoundsComplete := by
  refine ⟨?runs, ?idles⟩
  case runs =>
    intro s t locals chans u hana hphase hrest
    have hawake : (u.power.phase == .rest && decide (u.mode ≤ 1)) = false := by
      rcases hrest with hrest | hmode
      · simp [hrest]
      · simp [hmode]
    refine ⟨_, congrArg Host.Outcome.next (if_pos (by simp [u, hana, hphase, hawake])), rfl, fun k hk => ?_⟩
    obtain ⟨hone, hround⟩ := State.showValid_slotShown _ hk
    exact ⟨hone, hround.trans (congrArg (· % 256) (State.showValid_round _).symm)⟩
  case idles =>
    intro s t locals chans u hoff
    refine congrArg Host.Outcome.next (if_neg ?_)
    rcases hoff with hana | hphase | ⟨hphase, hmode⟩
    · simp [u, hana]
    · simp [u, hphase]
    · simp [u, hphase, hmode]

/-! ## The brake coil (R540) -/

/-- Settles O27, by whether the output is energised and whether BRKI is below BRK_MIN. -/
theorem brakeCoilIsJudgedAgainstItsOutput : Obligations.BrakeCoilIsJudgedAgainstItsOutput := by
  intro s t u hana hsafe hso hvalid hsettled
  refine congrArg Host.Outcome.next ((if_pos (by simp [u, hana, hsafe, hso, hvalid, hsettled])).trans ?_)
  refine ite_congr ?_ (fun _ => rfl) fun _ => ite_congr ?_ (fun _ => rfl) fun _ => rfl
  · simp [u]
  · simp [u]

/-! ## The front command -/

/-- Settles O44, by the equations of `step` for a queue with a front and for an empty one. -/
theorem stepRunsTheFrontCommand : Obligations.StepRunsTheFrontCommand :=
  ⟨fun _ _ _ => step_of_pending rfl, fun _ => rfl⟩

end Sys2Proof.Machine
end
